-- ==== Sys2Proof/Word.lean ====
section
/-! DEFINITION. The word types of the ETL-4820 (R6): bytes, 64-bit words, 128-bit accumulators. -/

namespace Sys2Proof

/-- One byte; every multi-byte structure is little-endian (R6). -/
abbrev Byte := BitVec 8
/-- A 64-bit s-register, address or memory word (R95, R295). -/
abbrev Word := BitVec 64
/-- A 32-bit register or lane word (R6). -/
abbrev Word32 := BitVec 32

end Sys2Proof
end

