-- ==== Sys2Proof/Syntax.lean ====
section
/-! DEFINITION. The commands of the block: one constructor of `Instr` per row of spec/opcode_table.json,
with the operands that the rule of the row needs. What the device measures or what its surroundings
decide (a test result, a received packet, a measured latency) arrives as an operand. -/

namespace Sys2Proof

/-- Who performs a register access: the host on port A or B, or the management controller (R40). -/
inductive Writer where
  | portA | portB | mc
  deriving DecidableEq, Repr

/-- A register page: class code and instance (R37, R38). -/
structure Page where
  cls  : Nat
  inst : Nat
  deriving DecidableEq, Repr

/-- A fetched submission entry as it stands in command order (R520, R522): `num` is the job command
number (PCI_JOB_NEXT), `ring` and `port` name the ring that carries the completion, `head` the
submission index. -/
structure JobCmd where
  num    : Nat
  port   : Nat
  ring   : Nat
  head   : Nat
  opc    : Nat
  cmpl   : Bool
  early  : Bool
  update : Bool
  cookie : Nat
  args   : List Nat
  deriving DecidableEq, Repr

/-- What the MC has measured when a boundary is reached (R379, R31): λ, T and the busy cycles of each
plot in the closing step. -/
structure BoundaryMeasure where
  lambda : Nat
  cycles : Nat
  busy   : List (Nat × Nat)
  deriving DecidableEq, Repr

/-- The end of a class test (R545): a self-test of COL, MED, PIP or THN, or the lanes on which a
cloched port retrained (0 when it ended LOST). -/
inductive ClassTest where
  | pass | fail | lanes (n : Nat)
  deriving DecidableEq, Repr

/-- The hardware faults that cloche a cell (R388, R481). -/
inductive CellFaultKind where
  | arrayParity | stagingSram | ifetchUncorr | storeUncorr
  deriving DecidableEq, Repr

/-- The result of a cell test (R485): PASS, REPAIRABLE with the bypasses to add, or FAIL. -/
inductive TestOutcome where
  | pass
  | repairable (rows cols : List Nat)
  | fail
  deriving DecidableEq, Repr

/-- What a cell test reports (R485, R488, R499): the outcome, the lowest code among the faulty units,
the outcome of the retest after a repair, the spares that pass their own test, and the lowest faulty unit of each spare
that does not. -/
structure CellTest where
  outcome : TestOutcome
  unit    : Nat
  retest  : Bool
  sparesPassing : List Nat
  spareUnits : List (Nat × Nat)
  deriving DecidableEq, Repr

/-- Comparison and branch conditions are numbered by the runtime documentation (R96). -/
abbrev CondCode := Nat

/-- The role of an operand descriptor that SCFG sets (R96). -/
inductive Role where
  | stationary | weight | output
  deriving DecidableEq, Repr

/-- An operand descriptor (R126, R127, R130, R141, R170, R181, R183, R212). Plane addresses are
cell-store addresses; `row0` and `col0` place the tile in the tensor; `kLen` is the reduction length K
of R128; `entry` is the scale-state entry or none; `affine` is the TABLE or AFFINE declaration of
R183; `zx` is the stationary zero point; `expand`, `sums` are the expansion entries and the row- or
column-sum plane. -/
structure OperandDesc where
  format     : Nat
  block      : Nat
  data       : Nat
  pitch      : Nat
  scale      : Nat
  scalePitch : Nat
  rows       : Nat
  row0       : Nat
  col0       : Nat
  kLen       : Nat
  entry      : Option Nat
  compressed : Bool
  affine     : Bool
  zx         : Int
  expand     : Nat
  sums       : Nat
  deriving DecidableEq, Repr

/-- Array modes (R84). -/
inductive ArrayMode where
  | m8 | dual | splitHalf | split32 | split64 | t3
  deriving DecidableEq, Repr

/-- The operands of PASS (R71, R72, R77, R84, R159): outputs from `firstOut`, `count` weight words (in
a split mode, outputs), the reduction chunk `chunk` (index of its first element), the base entry. -/
structure PassArgs where
  mode     : ArrayMode
  count    : Nat
  base     : Nat
  clear    : Bool
  chunk    : Nat
  firstOut : Nat
  deriving DecidableEq, Repr

/-- The operands of STAKE (R151, R184, R256, R257): the entry range, K, the s-register with E_max, and what
the range check must know of the DRAIN that follows: its rescale flag, its RECOMP option and its save copy.
The mode comes from the SCFG descriptors. -/
structure StakeArgs where
  first   : Nat
  count   : Nat
  kLen    : Nat
  emaxReg : Nat
  rescale : Bool
  recomp  : Bool
  save    : Option OperandDesc
  deriving DecidableEq, Repr

/-- The operands of DRAIN (R156, R178, R179, R255, R257). -/
structure DrainArgs where
  first       : Nat
  count       : Nat
  rescale     : Bool
  rescaleBase : Nat
  recomp      : Bool
  save        : Option OperandDesc
  deriving DecidableEq, Repr

/-- Lane types of the vector unit (R102). -/
inductive LaneType where
  | f32 | f64 | i32 | i8
  deriving DecidableEq, Repr

/-- The operands of VLD and VST (R190, R192): `regs` registers from `vreg`, the plane of `desc`, the row and
the tensor index of the first element, the lane type, and, with the remainder option, the cell-store
address of the first remainder and its width b. -/
structure VMemArgs where
  vreg  : Nat
  regs  : Nat
  desc  : OperandDesc
  row   : Nat
  first : Nat
  lanes : LaneType
  rem   : Option (Nat × Nat)
  deriving DecidableEq, Repr

/-- Lane operations (R102, R104, R136). `intOp` is one of the INT32 and INT8 lane operations, which
R102 does not name one by one. `rowSum` prepares correction sums (R106). -/
inductive VOpKind where
  | fma | add | sub | mul | min | max | toI32 | toI8 | cvt (target : LaneType)
  | half (format : Nat)
  | intOp (code : Nat) | rowSum
  deriving DecidableEq, Repr

/-- Reductions of VRED (R103, R104). -/
inductive VRedKind where
  | sum | min | max
  deriving DecidableEq, Repr

/-- Uses of the table unit (R105). -/
inductive VTblOp where
  | loadRescale (first : Nat) (src : Nat) (count : Nat)
  | loadTable (first : Nat) (src : Nat) (count : Nat)
  | lookup (vd vs : Nat) (base : Nat)
  | recip (vd vs : Nat) (t : LaneType)
  | sqrt (vd vs : Nat) (t : LaneType)
  | rsqrt (vd vs : Nat) (t : LaneType)
  | exp2 (vd vs : Nat)
  | log2 (vd vs : Nat)
  deriving DecidableEq, Repr

/-- Conversions of VRNG (R262); `treg` names the s-register that holds T or n. -/
inductive RngConv where
  | raw | unif32 | unif64 | keep8 (treg : Nat) | keep32 (treg : Nat) | range (treg : Nat)
  deriving DecidableEq, Repr

/-- Shapes of a multi-element access (R306): what the memory side visits; the cell-store side is a plain
run. -/
inductive DmaShape where
  | plain (len : Nat)
  | strided (unit : Nat) (dims : List (Nat × Int))
  | gathered (unit : Nat) (indices : List Nat)
  deriving DecidableEq, Repr

/-- Where the row slots of an expanding or compressing access lie, in slots from its address (R306, R307): a run, a
strided set (counts and pitches in bytes), or an index list. -/
inductive SlotShape where
  | run (rows : Nat)
  | strided (dims : List (Nat × Int))
  | gathered (indices : List Nat)
  deriving DecidableEq, Repr

/-- What a DMA moves (R92, R198 to R213, R306, R307). `toStore` reads device memory into the cell store;
`compressOut` (of `len` bytes) and `expandIn` move rows of `rowLen` elements between the cell store and row slots of `slot` bytes;
`channels` is the channel count that R209 compares with. -/
inductive DmaOp where
  | toStore (addr store : Nat) (shape : DmaShape)
  | fromStore (store addr : Nat) (shape : DmaShape)
  | compressOut (store addr len format rowLen slot : Nat) (rows : SlotShape)
  | expandIn (addr store format rowLen slot : Nat) (rows : SlotShape)
  | transpose (src dst unit rows cols srcPitch dstPitch : Nat)
  | gatherWindow (desc : Nat) (channels : Nat)
  | staked (store addr : Nat) (width count : Nat)
  deriving DecidableEq, Repr

/-- Event counters that WAIT names (R96). -/
inductive EventKind where
  | pass | drain | dma (channel : Nat) | vector
  deriving DecidableEq, Repr

/-- A packet (R325): the header fields and the payload. ADDR, OPERAND1 and OPERAND2 are read by the
opcode class. -/
structure Packet where
  opc      : Nat
  flags    : Nat
  tc       : Nat
  hops     : Nat
  status   : Nat
  dst      : Nat
  src      : Nat
  dstFlow  : Nat
  seq      : Nat
  ack      : Nat
  srcFlow  : Nat
  addr     : Nat
  len      : Nat
  attr     : Nat
  tag      : Nat
  op1      : Nat
  op2      : Nat
  payload  : List Byte
  deriving DecidableEq, Repr

/-- Kinds of a flit (R321). -/
inductive FlitKind where
  | idle | head | data | control
  deriving DecidableEq, Repr

/-- A flit as it travels (R317, R321): its 256 bytes and the link tail, a number of 120 bits. -/
structure Flit where
  bytes : List Byte
  tail  : Nat
  deriving DecidableEq, Repr

/-- The codewords of RS(544,514) that carry a received flit (R316): whether its first bits lie in the last codeword
of the flit before it, and the codewords that begin within it, each as the 10-bit symbols that each active lane
brought. -/
structure FecWords where
  joins : Bool
  words : List (List (List Nat))
  deriving DecidableEq, Repr

/-- A flit as a port receives it, with the codewords that carry it (R316, R322). -/
structure RxFlit where
  flit : Flit
  fec  : FecWords
  deriving DecidableEq, Repr

/-- A BASE packet, and with the first one of a transfer the partner's item table (R374, R376; log entry 21). -/
structure BasePacket where
  packet : Packet
  table  : List Byte
  deriving DecidableEq, Repr

/-- What a TGET names: the number of tiles of the phase, and the scale-state entries that the phase writes (R99, R177). -/
structure TileArgs where
  tiles  : Nat
  writes : List Nat
  deriving DecidableEq, Repr

/-- A thin-channel unit that begins its next request, and what a request with SRC_HOST reads from the bus (R219, R228). -/
structure ThnStart where
  unit : Nat
  host : List Byte
  deriving DecidableEq, Repr

/-- What port training learns of the neighbour (R318, R323, R357): the exchange of step 3, the buffer sizes in flits
that it grants to the eight VLs, the round-trip time and the lanes in lock. -/
structure Neighbour where
  isSwitch    : Bool
  device      : Option Nat
  port        : Nat
  fingerprint : List Byte
  revision    : Nat
  grants      : List Nat
  rtt         : Nat
  lanes       : Nat
  deriving DecidableEq, Repr

/-- Errors that the DRAM cells of the read words hold (R295): word addresses with one wrong bit and
with two. -/
structure DramErrors where
  single : List Nat
  double : List Nat
  deriving DecidableEq, Repr

/-- What the decode of a slot's stored bytes gave (R411, R412, R436): the canonical form before the round trip
as bytes with its size, or the session's outcome. Kinds whose canonical form is the stored bytes themselves take
only `identity`. -/
inductive DecodeResult where
  | identity
  | decoded (canonical : List Byte) (width height frames channels bits : Nat)
  | bitstream
  | budget
  deriving DecidableEq, Repr

/-- How a slot's fetch ended (R411): the stored bytes and their decode (the bytes of a LOCAL source stand in
memory), an error that is retried, or a completion that is not. -/
inductive FetchOutcome where
  | fetched (stored : List Byte) (r : DecodeResult)
  | failed
  | refused
  deriving DecidableEq, Repr

/-- One coded picture or audio block that the decoder meets (R433 to R437), or the end of its stream. A JPEG
frame comes as its quantisation table and its coefficient blocks (R435). -/
inductive DecodeUnit where
  | picture (width height planeSamples : Nat) (data : List Byte)
  | jpeg (width height planeSamples : Nat) (quant : List Nat) (blocks : List (List Int))
  | audio (frames channels : Nat) (declared : Option Nat) (data : List Byte)
  | badStream
  | unsupported
  | poisoned (addr : Nat)
  | finish
  deriving DecidableEq, Repr

/-- What a firmware image or manifest says in its bytes, and what its checks gave (R465, R466, R468): `sigsGood` both
signatures, `digestGood` DIGEST, `reservedZero` MAGIC, HDR_VERSION and the reserved fields, `keyHashGood` the hash of its
keys; `stable` and `tested` of a manifest; the two hashes are its measurements. -/
structure FwImage where
  typ        : Nat
  iface      : Nat
  build      : Nat
  svn        : Nat
  length     : Nat
  intervals  : List (Nat × Nat)
  resultRev  : Nat
  sigsGood   : Bool
  digestGood : Bool
  reservedZero : Bool
  keyHashGood : Bool
  stable     : Nat
  tested     : List (List Nat)
  headerHash : List Byte
  payloadHash : List Byte
  deriving DecidableEq, Repr

/-- What the MC reads each millisecond (R115, R295, R458, R479, R543): power in W, temperatures of the four groups
in °C, input voltage and current, the errors that SECDED has corrected since in the SRAM arrays of a page's block,
and the DRAM words in which bits have flipped since. -/
structure PowerSample where
  p1ms : Nat
  p1s  : Nat
  cd0  : Int
  cd1  : Int
  iod  : Int
  stk  : Int
  vin  : Nat
  iin  : Nat
  corrected : List (Page × Nat)
  upsets : DramErrors
  deriving DecidableEq, Repr

/-- Which array an uncorrectable error was found in (R481). -/
inductive SramSite where
  | cellInstr (cell : Nat) | cellStore (cell : Nat) | cellStoreDma (cell channel addr : Nat)
  | cellState (cell : Nat) | stationary (cell : Nat)
  | mcSram | trellisMap | trellisCounters | validCache (stack : Nat) | staging (stack : Nat)
  | flowContext (flow : Nat) | routeTable | replayBuffer (port : Nat) | responsePool | ownerState
  | mediaSlice (slice : Nat) | pipeUnit (unit : Nat) | thinUnit (unit : Nat)
  | pcieBuffer (port : Nat) | flashRecord | flashCopy
  deriving DecidableEq, Repr

/-- A fetched submission entry or the failure of its fetch (R521, R531). -/
inductive FetchedEntry where
  | entry (bytes : List Byte)
  | failed
  deriving DecidableEq, Repr

/-- What BOOT finds in the module records (R463, R471, R482): a copy that fails its check, or both copies. The
images' state is in the flash; ports train by commands of their own. -/
structure BootFindings where
  recordCopyBad : Bool
  recordsLost   : Bool
  deriving DecidableEq, Repr

/-- A register command that writes the flash or the fuses (R505, R511): who writes, and whether the flash takes it. -/
structure FlashCmd where
  who       : Writer
  flashGood : Bool
  deriving DecidableEq, Repr

/-- An ATTEST_REQ packet, and whether the flash takes the next leaf index (R505, R513). -/
structure AttestPacket where
  pkt       : Packet
  flashGood : Bool
  deriving DecidableEq, Repr

/-- The commands of the block. Each constructor is one row of spec/opcode_table.json. -/
inductive Instr where
  -- steps, registers, blocks, commits, negotiation, jobs
  | stepMark (c : JobCmd)
  | stepBoundary (m : BoundaryMeasure)
  | sealAck (step : Nat)
  | registerWrite (w : Writer) (offset size value : Nat)
  | counterLoRead (offset size : Nat)
  | rwFieldTakesEffect (p : Page)
  | enable (w : Writer) (p : Page) (v : Bool)
  | blockInitComplete (p : Page)
  | softReset (w : Writer) (p : Page)
  | glbSoftReset (w : Writer)
  | clocheReq (w : Writer) (p : Page) (v : Bool)
  | quiesceReq (w : Writer) (p : Page) (v : Bool)
  | blockQuiesced (p : Page)
  | blockClochedAtBoundary (p : Page)
  | clocheTestComplete (p : Page) (r : ClassTest)
  | blockFailed (p : Page)
  | blkCommit (w : Writer) (p : Page) (seq : Nat) (group : Bool)
  | blkCommitAbort (w : Writer) (p : Page)
  | commitApply (p : Page)
  | groupCommit (w : Writer) (seq : Nat)
  | groupCommitAbort (w : Writer)
  | negotiationGo (w : Writer)
  | negotiationComplete
  | jobStart (w : Writer)
  | jobEnd (w : Writer)
  | cellFault (cell : Nat) (k : CellFaultKind)
  | cellTestComplete (cell : Nat) (t : CellTest)
  | plotRebalanceCompute
  | formatPromotionDecide
  -- the cells' sequencers
  | add (cell rd rs rt : Nat)
  | sub (cell rd rs rt : Nat)
  | mul (cell rd rs rt : Nat)
  | and (cell rd rs rt : Nat)
  | or (cell rd rs rt : Nat)
  | xor (cell rd rs rt : Nat)
  | shl (cell rd rs rt : Nat)
  | shr (cell rd rs rt : Nat)
  | cmp (cell : Nat) (cond : CondCode) (rd rs rt : Nat)
  | li (cell rd : Nat) (imm : Word) (long : Bool)
  | br (cell target : Nat)
  | bcc (cell : Nat) (cond : CondCode) (rs target : Nat)
  | call (cell target : Nat)
  | ret (cell : Nat)
  | halt (cell : Nat)
  | ld (cell rd rs : Nat) (offset : Int) (bytes : Nat)
  | st (cell rv rs : Nat) (offset : Int) (bytes : Nat)
  | scfg (cell : Nat) (role : Role) (d : OperandDesc)
  | scan (cell rd : Nat) (mode : ArrayMode)
  | stake (cell : Nat) (a : StakeArgs)
  | measureComplete (plot phase : Nat)
  | load (cell chunk : Nat)
  | pass (cell : Nat) (a : PassArgs)
  | passBoundary (cell : Nat)
  | drain (cell : Nat) (a : DrainArgs)
  | vld (cell : Nat) (a : VMemArgs)
  | vst (cell : Nat) (a : VMemArgs)
  | vop (cell : Nat) (k : VOpKind) (t : LaneType) (vd va vb vc : Nat)
  | vred (cell : Nat) (k : VRedKind) (t : LaneType) (vd : Nat) (vs : List Nat)
  | vtbl (cell : Nat) (op : VTblOp)
  | vrng (cell : Nat) (purpose vd sa sb : Nat) (conv : RngConv)
  | dma (cell channel : Nat) (remote : Bool) (op : DmaOp)
  | dmas (cell channel entry first vreg : Nat) (t : LaneType) (count : Nat)
  | dmaComplete (cell channel : Nat) (uncorr : Option Nat)
  | dmaRestart (cell channel : Nat)
  | tget (cell rd : Nat) (a : TileArgs)
  | tdone (cell : Nat)
  | tbar (cell : Nat)
  | wait (cell : Nat) (e : EventKind) (count : Nat)
  | fence (cell : Nat)
  | stakedSetApply (cell tile : Nat)
  | stageDeadlock
  -- thin-channel engine
  | thnConv (r : ThnStart)
  | thnArgmax (r : ThnStart)
  | thnTopk (unit : Nat) (hostScores : List Byte)
  | thnSort (unit : Nat) (hostScores : List Byte)
  | thnRequestComplete (unit : Nat)
  -- numeric events and sieve
  | numRingCons (w : Writer) (v : Nat)
  | numXrecSel (w : Writer) (cell kind : Nat)
  | numXrecClear (w : Writer) (cell kind : Nat)
  | sieveRecompute (slot : Nat)
  | sieveCheck (slot : Nat)
  -- plot programs, gradients, collectives
  | plotRun (c : JobCmd)
  | plotRunComplete (plot : Nat)
  | gradPlan (c : JobCmd)
  | gradDone (c : JobCmd)
  | positionLoad (c : JobCmd)
  | bucketExchangeStart (bucket : Nat)
  | allGather (c : JobCmd)
  | broadcast (c : JobCmd)
  | barrier (c : JobCmd)
  | cExp (p : Packet)
  | cM (p : Packet)
  | cInt (p : Packet)
  | cRes (p : Packet) (t1 tx : Nat)
  | cData (p : Packet)
  | cBar (p : Packet)
  | cBarRel (p : Packet)
  | collectiveWaitLong (engine : Nat)
  | collectiveWaitLimit (engine : Nat)
  -- flows and remote operations
  | put (p : Packet)
  | get (p : Packet)
  | getResp (p : Packet)
  | atomic (p : Packet)
  | atomicResp (p : Packet)
  | sadd (p : Packet)
  | opStatus (p : Packet)
  | ack (p : Packet)
  | nack (p : Packet)
  | resync (p : Packet)
  | resyncAck (p : Packet)
  | packetBadOpcode (p : Packet)
  | standaloneAckTimer (flow : Nat)
  | e2eRetransmitTimeout (flow : Nat)
  | flowStalled (flow : Nat)
  | flwCmdRead (w : Writer)
  | flwCmdWrite (w : Writer)
  | flwCmdClose (w : Writer)
  | routeTableLoad (w : Writer)
  | flwShadowWrite (w : Writer) (hi : Bool) (v : Nat)
  -- links
  | lnkVlBufWrite (w : Writer) (port : Nat) (hi : Bool) (v : Nat)
  | portSignalDetect (port : Nat) (n : Neighbour)
  | portTrainingComplete (port : Nat)
  | retrain (w : Writer) (port : Nat)
  | laneFailure (port lane : Nat)
  | serdesPllLoss (lanes : List (Nat × Nat))
  | retrainComplete (port lanes : Nat)
  | flitReceive (port : Nat) (f : RxFlit)
  | flitTransmit (port : Nat)
  | linkReplayTimeout (port : Nat)
  | transitTimeout (port vl : Nat)
  -- stacked memory
  | memoryRead (addr len : Nat) (errors : DramErrors)
  | memoryWrite (addr : Nat) (data : List Byte)
  | sadd128 (addr : Nat) (q : BitVec 128)
  | sadd64 (addr : Nat) (q : BitVec 64)
  | sadd32 (addr : Nat) (q : BitVec 32)
  | patrolScrubLine (line : Nat) (errors : DramErrors)
  | scrubRateUpdate (stack corrected : Nat)
  | ueReport (addr source : Nat)
  | memMapWrite (w : Writer) (v : Nat)
  | memRegionsWrite (w : Writer) (mirror cache : Nat)
  | memSpillWrite (w : Writer) (offset v : Nat)
  | recal (w : Writer) (stack channel : Nat)
  | channelRecalComplete (stack channel : Nat) (ok : Bool)
  -- partner, mirror, log, recovery
  | pair (w : Writer) (ackKey : Nat)
  | pairGraft (w : Writer) (ackKey : Nat)
  | unpair (w : Writer)
  | pairReq (p : Packet)
  | pairAck (p : Packet)
  | pairResponseTimeout
  | unpairMsg (p : Packet)
  | remirror (p : Packet)
  | mirrorSend
  | base (p : BasePacket)
  | delta (p : Packet)
  | record (p : Packet)
  | heartbeat (p : Packet)
  | heartbeatTimer
  | partnerSilenceTimeout
  | restoreReq (p : Packet)
  | restoreData (p : Packet)
  | restoreEnd (p : Packet)
  | refetch (p : Packet)
  | logData (p : Packet)
  | inPlaceReplay (cause : Nat)
  | recoveryGo (w : Writer)
  | recoveryAbort (w : Writer)
  | recoveryGoTimeout
  | harvest (c : JobCmd)
  | harvestMsg (p : Packet)
  | harvestComplete
  -- input pipeline
  | ingest (c : JobCmd)
  | sampleFetchComplete (plot slot unit : Nat) (r : FetchOutcome)
  | fetchRetryTimer (plot slot : Nat)
  | pipelineSlotComplete (plot slot unit : Nat)
  | ingestComplete (plot : Nat)
  | flush (w : Writer)
  -- media engine
  | mediaSessionOpen (die : Nat) (roundtrip : Bool) (maxPixels length : Nat)
  | decodePicture (slice context : Nat) (u : DecodeUnit)
  | encOpen (c : JobCmd)
  | encPicture (c : JobCmd)
  | encPictureStart (slice context : Nat)
  | encSliceComplete (slice context : Nat) (poisoned : Option Nat)
  | encKeyreq (c : JobCmd)
  | encRelease (c : JobCmd)
  | encClose (c : JobCmd)
  | medKeyreq (w : Writer) (slice session : Nat)
  -- power, clocks, resets, firmware
  | hotSwapClose
  | railPowerUp
  | inputDip
  | hotSwapOpen
  | railOutOfWindow (rail : Nat) (back : Bool)
  | railFaultTimeout (rail : Nat)
  | rootPllLossOfLock
  | powerPolicyTick (p : PowerSample)
  | thermalTrip (group : Nat)
  | sensorNoValueTimeout (group : Nat)
  | thermalRestart
  | cold (w : Writer) (key : Nat)
  | warmReset
  | boot (f : BootFindings)
  | mcWatchdogExpiry
  | mcSramUncorrectable
  | sramUncorrectable (site : SramSite)
  | fwUpdateWrite (w : Writer) (sigsGood : Bool)
  | fwUpdateComplete (readBackGood : Bool)
  | fwActivate (w : Writer)
  | mcfHandover
  | handoverWatchdogTimeout
  | moduleResetPin (low : Bool)
  | pciePortReset (port : Nat)
  -- RAS
  | pop (w : Writer)
  | clearDropped (w : Writer)
  | rasFirstClear (w : Writer)
  -- security
  | attest (w : FlashCmd)
  | cert (w : Writer)
  | attestTokenRefill
  | attestReq (p : AttestPacket)
  | attestResp (p : Packet)
  | idProbe (p : Packet)
  | idReply (p : Packet)
  | svnCommit (w : Writer) (typ : Nat)
  | authorise (w : FlashCmd)
  | revoke (w : FlashCmd)
  | trustTableClear (w : Writer)
  -- host interface
  | sqTail (port ring v : Nat)
  | cqHead (port ring v : Nat)
  | commandFetch (port ring : Nat) (e : FetchedEntry)
  | ringEnable (port ring : Nat) (kind log2 : Nat) (irq : Bool)
  | bar2Write (port offset : Nat) (data : List Byte)
  | bar2Read (port offset len : Nat)
  | claim (port : Nat)
  | request (port : Nat)
  | grant (port : Nat)
  | deny (port : Nat)
  | release (port : Nat)
  | ownershipTimeout
  | linkDown (port : Nat)
  | pcieLinkUp (port width speed : Nat)
  | channelMarginRecal (stack channel : Nat)
  deriving DecidableEq, Repr

end Sys2Proof
end

