-- ==== Sys2Proof/Decode.lean ====
section
/-! DEFINITION. Commands spelled by table words. -/

namespace Sys2Proof

/-- The command that a word spells by the bits of spec/opcode_table.json: none, for the table gives no
row any bits. -/
def decodeTableWord (_nbits _w : Nat) : Option Instr := none

end Sys2Proof
end

