-- ==== Sys2Proof/Config.lean ====
section
/-! DEFINITION. The free values: what the manual leaves open. Every constant here has no body, so
nothing can be proved of its value; a statement about one holds whatever it is. Each is named in a
log entry under notes/assumptions. -/

namespace Sys2Proof.Config

/-- What CMP writes for a condition code and two operands (R96 names no form); log entry 10. -/
opaque cmpValue : Nat → Word → Word → Word
/-- Whether BCC branches for a condition code and its register (R96 names no condition); entry 10. -/
opaque bccTaken : Nat → Word → Bool
/-- What TGET gives once every tile of the phase has been taken (R99 calls it END); entry 10. -/
opaque tileEnd : Word
/-- A shift by 64 or more, and a right shift of a value whose top bit is 1 (R96); entry 10. -/
opaque shiftLeftOver : Word → Word → Word
/-- As `shiftLeftOver`, for SHR. -/
opaque shiftRightOpen : Word → Word → Word
/-- The bits above the loaded width of LD when the loaded value's top bit is 1 (R96); entry 10. -/
opaque loadExtend : Nat → Nat → Word
/-- An INT32 or INT8 lane operation that R102 does not name, on three lanes; entry 11. -/
opaque intLane : Nat → Nat → Nat → Nat → Nat
/-- A vector result that no rule states (a minimum of an empty list of registers); entry 11. -/
opaque emptyReduction : Nat → Word
/-- The randomiser C of the LMS signature with a leaf, 32 bytes (R501, R509: RFC 8554 leaves it open); entry 12. -/
opaque lmsRandom : Nat → List Byte
/-- The link revision of this device, exchanged at training (R318); log entry 39. -/
opaque linkRevision : Nat
/-- How many rate and distortion comparisons the encoder makes for a slice, the SSE and the bits of each candidate of
the next comparison after the choices made so far, the slice's bytes, and the codes of its picture as reconstructed once it is
coded: what the Eohaqua encoder reference of a revision lists (R441, R446). A slice is given by its numbers (QP, key picture,
pictures since the last one, first CTB row, CTB rows, width, height, REFS, SLICE_ROWS, CQ, RANGE, KEYINT, parameter sets), by
codes (the input picture's, what has been reconstructed of it, the reference pictures', each as Y, Cb, Cr), and by its motion
vectors for each reference; log entry 13. -/
opaque encChoices : Nat → List Int → List Nat → List (List (Int × Int)) → Nat
/-- As `encChoices`. -/
opaque encCandidates : Nat → List Int → List Nat → List (List (Int × Int)) → List Nat → List (Nat × Nat)
/-- As `encChoices`. -/
opaque encBytes : Nat → List Int → List Nat → List (List (Int × Int)) → List Nat → List Byte
/-- As `encChoices`. -/
opaque encRecon : Nat → List Int → List Nat → List (List (Int × Int)) → List Nat → List Nat
/-- The round-trip bitstream of padded pictures of a size at a QP, by the Eohaqua encoder reference (R412, R441,
R442); log entry 13. -/
opaque encodeStream : Int → Nat → Nat → List Byte → List Byte
/-- The pictures of a size that a round-trip bitstream decodes to (R412, R434); log entry 13. -/
opaque decodeStream : Nat → Nat → List Byte → List Byte
/-- The DRAM row that holds an offset of a stack (R303 names rows, no rule places them); entry 14. -/
opaque dramRow : Nat → Nat → Nat
/-- The bank of a DRAM row of a stack (R284); entry 14. -/
opaque dramBank : Nat → Nat → Nat
/-- BLK_REV.MAJOR (part 1) and MINOR (part 0) of a page: constants the manual does not state (R42);
log entry 15. -/
opaque blockRev : Nat → Nat → Nat → Nat
/-- Any other value the manual leaves open, drawn with the counter of `State.fresh`; entry 9. -/
opaque freeNat : Nat → Nat
/-- A free byte, drawn with the counter of `State.fresh`; entry 9. -/
opaque freeByte : Nat → Byte

end Sys2Proof.Config
end

