-- ==== Sys2Proof/Machine/Store.lean ====
section
/-! DEFINITION. Sparse maps, sparse memory bytes and bit helpers. A map is a list of (key, value)
pairs with strictly rising keys; an absent key reads as the default that its reader names. -/

namespace Sys2Proof.Machine

/-- A sparse map from numbers; plain data. -/
abbrev NMap (α : Type) := List (Nat × α)

/-- The value at a key, if one is listed. -/
def mfind {α : Type} (k : Nat) : NMap α → Option α
  | [] => none
  | (k', v) :: m => if k = k' then some v else mfind k m

/-- Lists `v` at `k`, keeping the keys strictly rising. -/
def mput {α : Type} (k : Nat) (v : α) : NMap α → NMap α
  | [] => [(k, v)]
  | (k', v') :: m =>
    if k < k' then (k, v) :: (k', v') :: m
    else if k = k' then (k, v) :: m
    else (k', v') :: mput k v m

/-- Takes the key out of the map. -/
def mdel {α : Type} (k : Nat) : NMap α → NMap α
  | [] => []
  | (k', v') :: m => if k = k' then m else (k', v') :: mdel k m

/-- The value at a key, or the default. -/
def mget {α : Type} (d : α) (m : NMap α) (k : Nat) : α := (mfind k m).getD d

/-- The keys rise strictly. -/
def mwf {α : Type} (m : NMap α) : Bool := decide (m.Pairwise (fun a b => a.1 < b.1))

/-- One byte of sparse memory; an unlisted address reads as zero (R298). -/
def byteAt (m : NMap Byte) (a : Nat) : Byte := (mfind a m).getD 0

/-- Writes one byte, keeping the canonical form: a zero byte is not listed. -/
def setByte (m : NMap Byte) (a : Nat) (v : Byte) : NMap Byte :=
  if v = 0 then mdel a m else mput a v m

/-- The canonical form of sparse memory: strictly rising addresses and no listed zero. -/
def bytesWf (m : NMap Byte) : Bool := mwf m && m.all (fun c => decide (c.2 ≠ 0))

/-- `n` bytes from address `a`, lowest first. -/
def bytesAt (m : NMap Byte) (a : Nat) : Nat → List Byte
  | 0 => []
  | n + 1 => byteAt m a :: bytesAt m (a + 1) n

/-- Writes a run of bytes at `a`. -/
def setBytes (m : NMap Byte) (a : Nat) : List Byte → NMap Byte
  | [] => m
  | b :: bs => setBytes (setByte m a b) (a + 1) bs

/-- The little-endian number of a run of bytes (R6). -/
def leNat : List Byte → Nat
  | [] => 0
  | b :: bs => b.toNat + 256 * leNat bs

/-- `n` little-endian bytes of a number, cut to their width (R6). -/
def leBytes : Nat → Nat → List Byte
  | 0, _ => []
  | n + 1, v => BitVec.ofNat 8 v :: leBytes n (v / 256)

/-- The little-endian number of `n` bytes at `a`. -/
def natAt (m : NMap Byte) (a n : Nat) : Nat := leNat (bytesAt m a n)

/-- Bits `[lo + width - 1 : lo]` of a number. -/
def bitsOf (v lo width : Nat) : Nat := v / 2 ^ lo % 2 ^ width

/-- Bit `i` of a number. -/
def bitOf (v i : Nat) : Bool := v.testBit i

/-- The number with bit `i` set. -/
def setBit (v i : Nat) : Nat := v ||| 2 ^ i

/-- The number with the bits of `mask` cleared. -/
def clearBits (v mask : Nat) : Nat := v - (v &&& mask)

/-- A boolean as a one-bit number. -/
def b2n (b : Bool) : Nat := if b then 1 else 0

/-- The two's-complement integer of the low `w` bits. -/
def sext (w v : Nat) : Int :=
  if v % 2 ^ w < 2 ^ (w - 1) then (v % 2 ^ w : Nat) else (v % 2 ^ w : Nat) - (2 ^ w : Nat)

/-- The two's-complement encoding of an integer in `w` bits. -/
def twos (w : Nat) (v : Int) : Nat := (v % (2 ^ w : Nat)).toNat

/-- One bit of the CRC-64 of R321: ECMA-182, most significant bit first. -/
def crc64Bit (c : Nat) : Nat :=
  if bitOf c 63 then (2 * c % 2 ^ 64) ^^^ 0x42F0E1EBA9EA3693 else 2 * c

/-- Runs the CRC-64 of R321 over bytes, from a running value. -/
def crc64Run : Nat → List Byte → Nat
  | c, [] => c
  | c, b :: bs =>
    let x := c ^^^ (b.toNat * 2 ^ 56)
    crc64Run (crc64Bit (crc64Bit (crc64Bit (crc64Bit (crc64Bit (crc64Bit (crc64Bit (crc64Bit x)))))))) bs

/-- One bit of CRC-32C, least significant bit first (RFC 3720). -/
def crc32Bit (c : Nat) : Nat := if c % 2 = 1 then (c / 2) ^^^ 0x82F63B78 else c / 2

/-- Runs CRC-32C over bytes, from a running value. -/
def crc32Run : Nat → List Byte → Nat
  | c, [] => c
  | c, b :: bs =>
    crc32Run (crc32Bit (crc32Bit (crc32Bit (crc32Bit (crc32Bit (crc32Bit (crc32Bit (crc32Bit (c ^^^ b.toNat)))))))) ) bs

/-- CRC-32C, as RFC 3720 defines it. -/
def crc32c (bs : List Byte) : Nat := crc32Run (2 ^ 32 - 1) bs ^^^ (2 ^ 32 - 1)

/-- Ascending insertion without repeats, for sets of numbers. -/
def insertSet (k : Nat) : List Nat → List Nat
  | [] => [k]
  | x :: xs => if k < x then k :: x :: xs else if k = x then x :: xs else x :: insertSet k xs

/-- `a` lies in `base .. base + len - 1`. -/
def inRange (a base len : Nat) : Bool := decide (base ≤ a) && decide (a < base + len)

/-- Two ranges share an address. -/
def overlaps (a alen b blen : Nat) : Bool := decide (a < b + blen) && decide (b < a + alen)

/-- Replaces the element at a position. -/
def listSet {α : Type} : List α → Nat → α → List α
  | [], _, _ => []
  | _ :: xs, 0, v => v :: xs
  | x :: xs, n + 1, v => x :: listSet xs n v

/-- Cuts a list into pieces of `n` (at most `fuel` of them). -/
def chunks {α : Type} (n : Nat) : Nat → List α → List (List α)
  | 0, _ => []
  | fuel + 1, xs => if xs.isEmpty then [] else xs.take n :: chunks n fuel (xs.drop n)

end Sys2Proof.Machine
end

