-- ==== Sys2Proof/Machine/Formats.lean ====
section
/-! DEFINITION. Number formats, exact values, rounding, conversion, the block quantiser, and the exact
arithmetic of vectors and tables (R102 to R105, R119 to R139). -/

namespace Sys2Proof.Machine

/-- An exact value: NaN, an infinity, or ±m · 2^e (zero keeps its sign). -/
inductive Num where
  | nan
  | inf (neg : Bool)
  | fin (neg : Bool) (m : Nat) (e : Int)
  deriving DecidableEq, Repr

/-- +0. -/
def Num.zero : Num := .fin false 0 0

/-- z · 2^e. -/
def Num.ofInt (z e : Int) : Num := .fin (decide (z < 0)) z.natAbs e

/-- The integer z of z · 2^e of a finite value; 0 for NaN and infinities. -/
def Num.sig : Num → Int
  | .fin s m _ => if s then -(m : Int) else m
  | _ => 0

/-- The exponent of a finite value; 0 for NaN and infinities. -/
def Num.exp : Num → Int
  | .fin _ _ e => e
  | _ => 0

/-- The value is finite. -/
def Num.isFin : Num → Bool
  | .fin _ _ _ => true
  | _ => false

/-- The value is a NaN. -/
def Num.isNan : Num → Bool
  | .nan => true
  | _ => false

/-- The value is an infinity. -/
def Num.isInf : Num → Bool
  | .inf _ => true
  | _ => false

/-- The value is a zero. -/
def Num.isZero : Num → Bool
  | .fin _ m _ => decide (m = 0)
  | _ => false

/-- The value is finite and not zero. -/
def Num.isFinNz (x : Num) : Bool := x.isFin && !x.isZero

/-- The sign bit; false for NaN. -/
def Num.neg : Num → Bool
  | .nan => false
  | .inf s => s
  | .fin s _ _ => s

/-- The value times 2^k. -/
def Num.scale (x : Num) (k : Int) : Num :=
  match x with
  | .fin s m e => .fin s m (e + k)
  | x => x

/-- 2^d for a difference of exponents; 1 when it is not positive. -/
def pow2 (d : Int) : Nat := 2 ^ d.toNat

/-- a · 2^k rounded toward minus infinity. -/
def shiftFloor (a k : Int) : Int := if 0 ≤ k then a * (pow2 k : Int) else a / (pow2 (-k) : Int)

/-- floor(log2) of a finite nonzero magnitude (R135, R162). -/
def Num.log2 : Num → Int
  | .fin _ m e => (Nat.log2 m : Int) + e
  | _ => 0

/-- |a| ≤ |b| for magnitudes m · 2^e. -/
def magLe (m1 : Nat) (e1 : Int) (m2 : Nat) (e2 : Int) : Bool :=
  decide (m1 * pow2 (e1 - min e1 e2) ≤ m2 * pow2 (e2 - min e1 e2))

/-- |a| ≤ |b| for finite values. -/
def Num.magLe (a b : Num) : Bool := Machine.magLe a.sig.natAbs a.exp b.sig.natAbs b.exp

/-- a ≤ b for finite values. -/
def Num.finLe (a b : Num) : Bool :=
  let e := min a.exp b.exp
  decide (a.sig * (pow2 (a.exp - e) : Int) ≤ b.sig * (pow2 (b.exp - e) : Int))

/-! ### Rounding (R135) -/

/-- n / 2^d, to nearest, ties to even. -/
def rneShift (n d : Nat) : Nat :=
  if Nat.log2 n + 1 < d then 0
  else if d = 0 then n
  else
    let t := n / 2 ^ d
    let rem := n % 2 ^ d
    let half := 2 ^ (d - 1)
    if half < rem ∨ (rem = half ∧ t % 2 = 1) then t + 1 else t

/-- The grid exponent that R135 gives for a magnitude; EMIN for zero. -/
def gridExp (P : Nat) (emin : Int) (m : Nat) (e : Int) : Int :=
  if m = 0 then emin else max ((Nat.log2 m : Int) + e - P) emin

/-- The rounded magnitude and its grid exponent (R135). -/
def roundMag (P : Nat) (emin : Int) (m : Nat) (e : Int) : Nat × Int :=
  let g := gridExp P emin m e
  if e ≤ g then (rneShift m (g - e).toNat, g) else (m * pow2 (e - g), g)

/-! ### Formats (R119 to R126) -/

/-- Width in bits of a format code; 0 for a reserved code (R119). -/
def fmtBits : Nat → Nat
  | 0 => 8 | 1 => 8 | 2 => 6 | 3 => 6 | 4 => 4 | 5 => 8 | 6 => 4 | 7 => 2 | 8 => 1
  | 9 => 16 | 10 => 16 | 11 => 32 | 12 => 64 | 13 => 32
  | _ => 0

/-- Mantissa bits P of a format (R121, R124, R135). -/
def fmtP : Nat → Nat
  | 0 => 3 | 1 => 2 | 2 => 2 | 3 => 3 | 4 => 1 | 5 => 7 | 6 => 3
  | 9 => 7 | 10 => 10 | 11 => 23 | 12 => 52
  | _ => 0

/-- EMIN of a format (R121, R124, R135). -/
def fmtEmin : Nat → Int
  | 0 => -9 | 1 => -16 | 2 => -4 | 3 => -3 | 4 => -1
  | 9 => -133 | 10 => -24 | 11 => -149 | 12 => -1074
  | _ => 0

/-- Exponent bits of a floating-point format (R121, R125). -/
def fmtXbits : Nat → Nat
  | 0 => 4 | 1 => 5 | 2 => 3 | 3 => 2 | 4 => 2 | 9 => 8 | 10 => 5 | 11 => 8 | 12 => 11
  | _ => 0

/-- Exponent bias of a floating-point format (R121, R125). -/
def fmtBias : Nat → Int
  | 0 => 7 | 1 => 15 | 2 => 3 | 3 => 1 | 4 => 1 | 9 => 127 | 10 => 15 | 11 => 127 | 12 => 1023
  | _ => 0

/-- Largest finite magnitude MAXF as an integer and exponent (R121, R124, R125). -/
def fmtMax : Nat → Nat × Int
  | 0 => (7, 6) | 1 => (7, 13) | 2 => (7, 2) | 3 => (15, -1) | 4 => (3, 1) | 5 => (127, 0) | 6 => (7, 0)
  | 9 => (255, 120) | 10 => (2047, 5) | 11 => (2 ^ 24 - 1, 104) | 12 => (2 ^ 53 - 1, 971)
  | _ => (0, 0)

/-- EMAX of a format: floor(log2 MAXF) (R121, R124, R125). -/
def fmtEmax : Nat → Int
  | 0 => 8 | 1 => 15 | 2 => 4 | 3 => 2 | 4 => 2 | 5 => 6 | 6 => 2
  | 9 => 127 | 10 => 15 | 11 => 127 | 12 => 1023
  | _ => 0

/-- Formats that the quantiser can write: 0x0 to 0x6 (R137, R170). -/
def isNarrow (f : Nat) : Bool := decide (f ≤ 6)

/-- The wide formats (R119). -/
def isWide (f : Nat) : Bool := decide (9 ≤ f) && decide (f ≤ 12)

/-- Block-scaled formats (R119). -/
def isBlock (f : Nat) : Bool := decide (f ≤ 8)

/-- W1 and W2 (R119). -/
def isCode (f : Nat) : Bool := decide (f = 7) || decide (f = 8)

/-- Formats that an operand descriptor may name (R119). -/
def descFormat (f : Nat) : Bool := decide (f ≤ 12)

/-- The value of an element of a format, before block scaling; a W1 or W2 code as the integer u. -/
def decodeElem (f v : Nat) : Num :=
  let w := fmtBits f
  let v := v % 2 ^ w
  if f = 5 ∨ f = 6 ∨ f = 13 then .ofInt (sext w v) 0
  else if f = 7 ∨ f = 8 then .fin false v 0
  else
    let P := fmtP f
    let xb := fmtXbits f
    let s := bitOf v (w - 1)
    let x := bitsOf v P xb
    let fr := v % 2 ^ P
    if f = 0 ∧ x = 15 ∧ fr = 7 then .nan
    else if (f = 1 ∨ isWide f = true) ∧ x = 2 ^ xb - 1 then (if fr = 0 then .inf s else .nan)
    else if x = 0 then .fin s fr (fmtEmin f)
    else .fin s (2 ^ P + fr) ((x : Int) - fmtBias f - P)

/-- Canonical NaN of a wide format (R125, R126). -/
def canonNan : Nat → Nat
  | 9 => 0x7FC0 | 10 => 0x7E00 | 11 => 0x7FC00000 | _ => 0x7FF8000000000000

/-- Encodes a magnitude that lies on the grid of a floating-point format and in its range. -/
def encodeMag (f : Nat) (s : Bool) (m : Nat) (g : Int) : Nat :=
  let P := fmtP f
  let sign := b2n s * 2 ^ (fmtBits f - 1)
  let k := (Nat.log2 m : Int) + g
  if m = 0 then sign
  else if k < fmtEmin f + P then sign + m * pow2 (g - fmtEmin f)
  else
    let mant := if Nat.log2 m ≤ P then m * 2 ^ (P - Nat.log2 m) else m / 2 ^ (Nat.log2 m - P)
    sign + (k + fmtBias f).toNat * 2 ^ P + (mant - 2 ^ P)

/-- Encodes a value in a wide format, with whether a finite value passed its range (R135, R136). -/
def encodeWide (f : Nat) (x : Num) : Nat × Bool :=
  let sgn (s : Bool) : Nat := b2n s * 2 ^ (fmtBits f - 1)
  let top := (2 ^ fmtXbits f - 1) * 2 ^ fmtP f
  match x with
  | .nan => (canonNan f, false)
  | .inf s => (sgn s + top, false)
  | .fin s m e =>
    let r := roundMag (fmtP f) (fmtEmin f) m e
    let mx := fmtMax f
    if magLe r.1 r.2 mx.1 mx.2 then (encodeMag f s r.1 r.2, false) else (sgn s + top, true)

/-- Encodes an element of a narrow format from a rounded magnitude within MAXF (R121, R124). -/
def encodeNarrow (f : Nat) (s : Bool) (m : Nat) (g : Int) : Nat :=
  if f = 5 ∨ f = 6 then
    let v : Int := (m * pow2 g : Nat)
    twos (fmtBits f) (if s then -v else v)
  else encodeMag f s m g

/-- A value rounded into a wide format, as an exact value (R135, R136). -/
def roundTo (f : Nat) (x : Num) : Num := decodeElem f (encodeWide f x).1

/-! ### Quantising a block (R137 to R139) -/

/-- What the quantiser gives for a block; `elements` counts finite nonzero sources (R174). -/
inductive QBlock where
  | nanBlock
  | zeroBlock (vanish elements : Nat)
  | block (code : Nat) (ys : List Nat) (vanish sat elements : Nat)
  deriving DecidableEq, Repr

/-- The largest finite magnitude of a block, as a value. -/
def maxMag (xs : List Num) : Num :=
  xs.foldl (fun a x => if x.isFin && !x.magLe a then x else a) .zero

/-- Rounding of a quotient into a narrow format: the magnitude, its grid, whether it passes MAXF. -/
def roundNarrow (f : Nat) (x : Num) (e : Nat) : Nat × Int × Bool :=
  let r := roundMag (fmtP f) (fmtEmin f) x.sig.natAbs (x.exp - ((e : Int) - 127))
  (r.1, r.2, !magLe r.1 r.2 (fmtMax f).1 (fmtMax f).2)

/-- The scale code chosen for a block whose largest finite magnitude is `a` (R137, R139). -/
def chooseCode (f : Nat) (a : Num) : Nat :=
  if a.isZero then 127
  else
    let e0 := a.log2 - fmtEmax f + 127
    let r := roundMag (fmtP f) (fmtEmin f) a.sig.natAbs (a.exp - (e0 - 127))
    let e := if magLe r.1 r.2 (fmtMax f).1 (fmtMax f).2 then e0 else e0 + 1
    (max 0 (min e 0xFE)).toNat

/-- One element of a block at a code: the encoding, whether it vanished, whether it saturated. -/
def quantElem (f e : Nat) (x : Num) : Nat × Bool × Bool :=
  match x with
  | .nan => (0, false, false)
  | .inf s => (if s then 0xFC else 0x7C, false, false)
  | .fin s m _ =>
    if m = 0 then (0, false, false)
    else
      let r := roundNarrow f x e
      if r.2.2 then (encodeNarrow f s (fmtMax f).1 (fmtMax f).2, false, true)
      else (encodeNarrow f s r.1 r.2.1, decide (r.1 = 0), false)

/-- The block quantiser (R137, R139, R174). -/
def quantiseBlock (f : Nat) (xs : List Num) : QBlock :=
  if xs.any (·.isNan) || (xs.any (·.isInf) && decide (f ≠ 1)) then .nanBlock
  else
    let a := maxMag xs
    let n := (xs.filter (·.isFinNz)).length
    if a.isZero && !xs.any (·.isInf) then .zeroBlock 0 0
    else
      let e := chooseCode f a
      let ys := xs.map (quantElem f e)
      let vanish := (ys.filter (fun y => y.2.1)).length
      let sat := (ys.filter (fun y => y.2.2)).length
      if ys.all (fun y => (decodeElem f y.1).isZero) then .zeroBlock vanish n
      else .block e (ys.map (·.1)) vanish sat n

/-- The scale-plane entry of block index b (R133, R138). -/
def scaleEntry (b : Nat) : QBlock → Nat
  | .nanBlock => b % 16 * 4096 + 0xFF
  | .zeroBlock _ _ => b % 16 * 4096 + 2048
  | .block e _ _ _ _ => b % 16 * 4096 + e

/-- The element encodings of a quantised block of n elements (R138). -/
def blockElems (n : Nat) : QBlock → List Nat
  | .block _ ys _ _ _ => ys
  | _ => List.replicate n 0

/-- The values that a reader of the block gets (R131, R134), as exact values. -/
def blockValues (f n : Nat) : QBlock → List Num
  | .nanBlock => List.replicate n .nan
  | .zeroBlock _ _ => List.replicate n .zero
  | .block e ys _ _ _ => ys.map (fun y => (decodeElem f y).scale ((e : Int) - 127))

/-! ### Exact arithmetic with IEEE 754-2019 special values (R102, R104, R126) -/

/-- x · y. -/
def Num.mul (x y : Num) : Num :=
  match x, y with
  | .nan, _ => .nan
  | _, .nan => .nan
  | .inf s, .inf t => .inf (s != t)
  | .inf s, .fin t m _ => if m = 0 then .nan else .inf (s != t)
  | .fin s m _, .inf t => if m = 0 then .nan else .inf (s != t)
  | .fin s m e, .fin t n g => .fin (s != t) (m * n) (e + g)

/-- x + y; an exact zero sum of opposite signs is +0 (round to nearest). -/
def Num.add (x y : Num) : Num :=
  match x, y with
  | .nan, _ => .nan
  | _, .nan => .nan
  | .inf s, .inf t => if s = t then .inf s else .nan
  | .inf s, .fin _ _ _ => .inf s
  | .fin _ _ _, .inf t => .inf t
  | .fin s m e, .fin t n g =>
    let k := min e g
    let a : Int := (Num.fin s m e).sig * (pow2 (e - k) : Int) + (Num.fin t n g).sig * (pow2 (g - k) : Int)
    if a = 0 then .fin (s && t) 0 k else .ofInt a k

/-- −x. -/
def Num.negate : Num → Num
  | .nan => .nan
  | .inf s => .inf (!s)
  | .fin s m e => .fin (!s) m e

/-- minimum (IEEE 754-2019): NaN operands give NaN, −0 orders below +0 (R104). -/
def Num.minimum (x y : Num) : Num :=
  match x, y with
  | .nan, _ => .nan
  | _, .nan => .nan
  | .inf s, y => if s then .inf s else y
  | x, .inf t => if t then .inf t else x
  | x, y => if x.isZero && y.isZero then (if x.neg then x else y) else if x.finLe y then x else y

/-- maximum (IEEE 754-2019) (R104). -/
def Num.maximum (x y : Num) : Num :=
  match x, y with
  | .nan, _ => .nan
  | _, .nan => .nan
  | .inf s, y => if s then y else .inf s
  | x, .inf t => if t then x else .inf t
  | x, y => if x.isZero && y.isZero then (if x.neg then y else x) else if x.finLe y then y else x

/-! ### The table unit's functions, correctly rounded (R105) -/

/-- The largest r with r² ≤ n, bit by bit from bit `fuel − 1`. -/
def isqrtFrom (n : Nat) : Nat → Nat → Nat
  | 0, r => r
  | fuel + 1, r =>
    let r' := r + 2 ^ fuel
    isqrtFrom n fuel (if r' * r' ≤ n then r' else r)

/-- The integer square root. -/
def isqrt (n : Nat) : Nat := isqrtFrom n (Nat.log2 n / 2 + 1) 0

/-- A truncated positive value q · 2^e with a sticky bit below it, which rounds as the exact value does. -/
def sticky (q : Nat) (exact : Bool) (e : Int) (s : Bool) : Num := .fin s (2 * q + b2n (!exact)) (e - 1)

/-- 1 ÷ x (IEEE 754-2019 division). DEDUCED: log entry 16. -/
def Num.recip : Num → Num
  | .nan => .nan
  | .inf s => .fin s 0 0
  | .fin s m e =>
    if m = 0 then .inf s
    else
      let k := Nat.log2 m + 160
      sticky (2 ^ k / m) (decide (2 ^ k % m = 0)) (-e - k) s

/-- The square root (IEEE 754-2019 squareRoot). -/
def Num.sqrt : Num → Num
  | .nan => .nan
  | .inf s => if s then .nan else .inf false
  | .fin s m e =>
    if m = 0 then .fin s 0 0
    else if s then .nan
    else
      let m' := m * 2 ^ (320 + (e % 2).toNat)
      let r := isqrt m'
      sticky r (decide (r * r = m')) (e / 2 - 160) false

/-- 1 ÷ √x of a positive finite value. -/
def rsqrtPos (m : Nat) (e : Int) : Num :=
  let m' := m * 2 ^ (e % 2).toNat
  let k := Nat.log2 m' / 2 + 160
  let r := isqrt (2 ^ (2 * k) / m')
  sticky r (decide (r * r * m' = 2 ^ (2 * k))) (-(e / 2) - k) false

/-- 2^(2^−j) for the next j from the one before, on a grid of 2^−256. -/
def nextRoot (r : Nat) : Nat := isqrt (r * 2 ^ 256)

/-- The product of 2^(2^−j) over the set bits of a fraction, given highest bit first, on a grid of
2^−256. -/
def expFrac : List Bool → Nat → Nat → Nat
  | [], _, acc => acc
  | b :: bs, root, acc =>
    let r := nextRoot root
    expFrac bs r (if b then acc * r / 2 ^ 256 else acc)

/-- 2^x of a finite value; correctly rounded results follow from 200 correct bits. PRESUMED: log entry
16. -/
def exp2Fin (x : Num) : Num :=
  let k := shiftFloor x.sig x.exp
  let n := (-x.exp).toNat
  let frac := (x.sig - k * (pow2 (-x.exp) : Int)).toNat
  if x.sig = 0 ∨ 0 ≤ x.exp ∨ frac = 0 then .fin false 1 (max (-100000) (min k 100000))
  else
    let bs := (List.range n).map (fun j => bitOf frac (n - 1 - j))
    sticky (expFrac (bs.take 240) (2 ^ 257) (2 ^ 256)) false (max (-100000) (min k 100000) - 256) false

/-- The bits of log2 of a value y · 2^−400 in [1, 2), by repeated squaring. -/
def logBits : Nat → Nat → Nat → Nat
  | 0, _, acc => acc
  | n + 1, y, acc =>
    let y2 := y * y / 2 ^ 400
    if 2 ^ 401 ≤ y2 then logBits n (y2 / 2) (2 * acc + 1) else logBits n y2 (2 * acc)

/-- log2 of a positive finite value. -/
def log2Pos (m : Nat) (e : Int) : Num :=
  let k := (Nat.log2 m : Int) + e
  if m = 2 ^ Nat.log2 m then .ofInt k 0
  else
    let y := m * 2 ^ 400 / 2 ^ Nat.log2 m
    let z : Int := k * (2 ^ 160 : Nat) + (logBits 160 y 0 : Nat)
    .ofInt (2 * z + 1) (-161)

/-- rSqrt (IEEE 754-2019): of a zero an infinity of its sign, of +infinity +0, of any other negative value NaN. -/
def Num.rsqrt : Num → Num
  | .nan => .nan
  | .inf s => if s then .nan else .zero
  | .fin s m e => if m = 0 then .inf s else if s then .nan else rsqrtPos m e

/-- exp2 (IEEE 754-2019). -/
def Num.exp2 : Num → Num
  | .nan => .nan
  | .inf s => if s then .zero else .inf false
  | x => exp2Fin x

/-- log2 (IEEE 754-2019): of a zero −infinity, of a negative value NaN. -/
def Num.logTwo : Num → Num
  | .nan => .nan
  | .inf s => if s then .nan else .inf false
  | .fin s m e => if m = 0 then .inf true else if s then .nan else log2Pos m e

/-- A result of the table unit in FP32 or FP64 as its encoding: `op` 0 recip, 1 sqrt, 2 rsqrt, 3 exp2,
4 log2; `f` the format of `v`. The operations are those of IEEE 754-2019 (R102, R105), and a NaN is the
canonical one (R104, R126). -/
def tableFn (op f v : Nat) : Nat :=
  let x := decodeElem f v
  (encodeWide f (match op with
    | 0 => x.recip
    | 1 => x.sqrt
    | 2 => x.rsqrt
    | 3 => x.exp2
    | _ => x.logTwo)).1

end Sys2Proof.Machine
end

