-- ==== Sys2Proof/Machine/Digest.lean ====
section
/-! DEFINITION. The hash functions that the manual names: SHA-384 (R282, R466, R502) and its HMAC (R501), and SHA-256,
on which the LMS parameter set of R501 rests. Their constants are computed from the primes, as FIPS 180-4 defines
them. -/

namespace Sys2Proof.Machine

/-- The primes below n. -/
def primesBelow (n : Nat) : List Nat :=
  (List.range n).filter (fun p => decide (2 ≤ p) && (List.range p).all (fun k => decide (k < 2) || decide (p % k ≠ 0)))

/-- The k-th root of n, rounded down, when it is below 2^bits: the bits are settled from the top. -/
def rootFloor (k n : Nat) : Nat → Nat → Nat
  | 0, r => r
  | b + 1, r => rootFloor k n b (if (r + 2 ^ b) ^ k ≤ n then r + 2 ^ b else r)

/-- The first w bits of the fractional part of the k-th root of p. -/
def rootBits (k w p : Nat) : Nat := rootFloor k (p * 2 ^ (k * w)) (w + 8) 0 % 2 ^ w

/-- One of the two widths of SHA-2: bits of a word, rounds, and the turns of its four mixing functions; the last turn
of each small mixing function is a shift. -/
structure ShaKind where
  bits   : Nat
  rounds : Nat
  bigA   : List Nat
  bigE   : List Nat
  small0 : List Nat × Nat
  small1 : List Nat × Nat
  deriving DecidableEq, Repr

/-- The 32-bit words of SHA-256. -/
def sha32 : ShaKind := ⟨32, 64, [2, 13, 22], [6, 11, 25], ([7, 18], 3), ([17, 19], 10)⟩

/-- The 64-bit words of SHA-384. -/
def sha64 : ShaKind := ⟨64, 80, [28, 34, 39], [14, 18, 41], ([1, 8], 7), ([19, 61], 6)⟩

/-- A word turned right by n places. -/
def ShaKind.turn (s : ShaKind) (x n : Nat) : Nat := x / 2 ^ n + x % 2 ^ n * 2 ^ (s.bits - n)

/-- A mixing function: the exclusive or of turned copies, and of a shifted one. -/
def ShaKind.mix (s : ShaKind) (turns : List Nat) (start x : Nat) : Nat := turns.foldl (fun y n => y ^^^ s.turn x n) start

/-- The round constants. -/
def ShaKind.constants (s : ShaKind) : List Nat := ((primesBelow 410).take s.rounds).map (rootBits 3 s.bits)

/-- The next word of the message schedule; the window holds the last sixteen, oldest first. -/
def ShaKind.extend (s : ShaKind) (win : List Nat) : Nat :=
  let near := win.getD 14 0
  let far := win.getD 1 0
  (win.getD 0 0 + win.getD 9 0 + s.mix s.small0.1 (far / 2 ^ s.small0.2) far
    + s.mix s.small1.1 (near / 2 ^ s.small1.2) near) % 2 ^ s.bits

/-- The working variables as the histories of their two ends, latest first, and the schedule's window. -/
structure ShaWork where
  as  : List Nat
  es  : List Nat
  win : List Nat
  deriving DecidableEq, Repr

/-- One round with its constant: the oldest word of the window goes in, the window moves on. -/
def ShaKind.round (s : ShaKind) (v : ShaWork) (c : Nat) : ShaWork :=
  let m := 2 ^ s.bits
  let e := v.es.getD 0 0
  let pick := (e &&& v.es.getD 1 0) ^^^ ((m - 1 - e) &&& v.es.getD 2 0)
  let most := (v.as.getD 0 0 &&& (v.as.getD 1 0 ||| v.as.getD 2 0)) ||| (v.as.getD 1 0 &&& v.as.getD 2 0)
  let fresh := v.es.getD 3 0 + s.mix s.bigE 0 e + pick + c + v.win.getD 0 0
  { as := ((fresh + s.mix s.bigA 0 (v.as.getD 0 0) + most) % m) :: v.as.take 3
    es := ((v.as.getD 3 0 + fresh) % m) :: v.es.take 3
    win := v.win.drop 1 ++ [s.extend v.win] }

/-- The big-endian number of bytes. -/
def beNat (bs : List Byte) : Nat := leNat bs.reverse

/-- n big-endian bytes of a number. -/
def beBytes (n v : Nat) : List Byte := (leBytes n v).reverse

/-- The chaining value, eight words, after one block. -/
def ShaKind.block (s : ShaKind) (h : List Nat) (b : List Byte) : List Nat :=
  let win := (chunks (s.bits / 8) 16 b).map beNat
  let v := s.constants.foldl s.round ⟨h.take 4, h.drop 4, win⟩
  List.zipWith (fun x y => (x + y) % 2 ^ s.bits) h (v.as ++ v.es)

/-- The message with a 1 bit, zeros and its length in bits, to whole blocks of sixteen words. -/
def ShaKind.padded (s : ShaKind) (bs : List Byte) : List Byte :=
  let block := 2 * s.bits
  let tail := s.bits / 4
  let used := (bs.length + 1 + tail) % block
  bs ++ [0x80] ++ List.replicate ((block - used) % block) 0 ++ beBytes tail (8 * bs.length)

/-- Hashes a message from a first chaining value. -/
def ShaKind.hash (s : ShaKind) (start : List Nat) (bs : List Byte) : List Byte :=
  let p := s.padded bs
  ((chunks (2 * s.bits) p.length p).foldl s.block start).flatMap (beBytes (s.bits / 8))

/-- SHA-256: 32 bytes. -/
def sha256 (bs : List Byte) : List Byte := sha32.hash (((primesBelow 20).take 8).map (rootBits 2 32)) bs

/-- SHA-384: 48 bytes. -/
def sha384 (bs : List Byte) : List Byte := (sha64.hash (((primesBelow 54).drop 8).map (rootBits 2 64)) bs).take 48

/-- HMAC-SHA-384 under a key of at most one block. -/
def hmac384 (key msg : List Byte) : List Byte :=
  let k := (key ++ List.replicate 128 0).take 128
  let under (x : Byte) : List Byte := k.map (· ^^^ x)
  sha384 (under 0x5C ++ sha384 (under 0x36 ++ msg))

end Sys2Proof.Machine
end

