-- ==== Sys2Proof/Machine/Keys.lean ====
section
/-! DEFINITION. The key engine: the identity keys that every boot derives from the device secret, and the two identity
signatures (R500 to R502, R505, R509). P-384 and deterministic ECDSA follow FIPS 186-5, LMS follows RFC 8554. -/

namespace Sys2Proof.Machine

/-! ### Key derivation (R501) -/

/-- HMAC-SHA-384 in the counter mode of SP 800-108: `bits` of output under a label. Counter and length take 32 bits each,
big-endian, and the context is empty (DESIGN CHOICE, log entry 12). -/
def deriveKey (secret label : List Byte) (bits : Nat) : List Byte :=
  ((List.range ((bits + 383) / 384)).flatMap (fun i =>
    hmac384 secret (beBytes 4 (i + 1) ++ label ++ [0] ++ beBytes 4 bits))).take (bits / 8)

/-- The bytes of a label of ASCII characters. -/
def labelBytes (s : String) : List Byte := s.toList.map (fun c => BitVec.ofNat 8 c.toNat)

/-! ### P-384 -/

/-- The field's prime. -/
def p384P : Nat := 2 ^ 384 - 2 ^ 128 - 2 ^ 96 + 2 ^ 32 - 1
/-- The order of the base point, n. -/
def p384N : Nat :=
  0xffffffffffffffffffffffffffffffffffffffffffffffffc7634d81f4372ddf581a0db248b0a77aecec196accc52973
/-- The base point. -/
def p384G : Nat × Nat :=
  (0xaa87ca22be8b05378eb1c71ef320ad746e1d3b628ba79b9859f741e082542a385502f25dbf55296c3a545e3872760ab7,
   0x3617de4a96262c6f5d9e98bf9292dc29f8f41dbd289a147ce9da3113b5f0b8c00a60b1ce1d7e819d7a431d7c90ea0e5f)

/-- b^e modulo m, over the low `n` bits of e. -/
def powMod (m b e : Nat) : Nat → Nat
  | 0 => 1 % m
  | n + 1 =>
    let r := powMod m b (e / 2) n
    r * r % m * (if e % 2 = 1 then b else 1) % m

/-- The inverse modulo a prime of 384 bits. -/
def invMod (m x : Nat) : Nat := powMod m x (m - 2) 384

/-- a − b modulo m. -/
def subMod (m a b : Nat) : Nat := (a + m - b % m) % m

/-- The sum of two points; none is the point at infinity. -/
def ecAdd (u v : Option (Nat × Nat)) : Option (Nat × Nat) :=
  match u, v with
  | none, v => v
  | u, none => u
  | some (x1, y1), some (x2, y2) =>
    let m := p384P
    if x1 = x2 ∧ (y1 + y2) % m = 0 then none
    else
      let slope := if x1 = x2 then (3 * x1 * x1 + m - 3) * invMod m (2 * y1 % m) % m
        else subMod m y2 y1 * invMod m (subMod m x2 x1) % m
      let x3 := subMod m (slope * slope) (x1 + x2)
      some (x3, subMod m (slope * subMod m x1 x3) y1)

/-- k times a point, over the low `n` bits of k. -/
def ecMul (g : Option (Nat × Nat)) (k : Nat) : Nat → Option (Nat × Nat)
  | 0 => none
  | n + 1 =>
    let h := ecMul g (k / 2) n
    let h2 := ecAdd h h
    if k % 2 = 1 then ecAdd h2 g else h2

/-- The private key d = (K mod (n − 1)) + 1 of a secret (R501). -/
def ecPrivate (secret : List Byte) : Nat := beNat (deriveKey secret (labelBytes "EOHAQUA-ID-EC") 448) % (p384N - 1) + 1

/-- x then y of a point, 96 bytes. -/
def ecBytes (u : Option (Nat × Nat)) : List Byte := u.elim (List.replicate 96 0) (fun q => beBytes 48 q.1 ++ beBytes 48 q.2)

/-- EC_PUB_ID of a private key. -/
def ecPublic (d : Nat) : List Byte := ecBytes (ecMul (some p384G) d 384)

/-- The first candidate from (key, value) on that lies in 1 to n − 1: deterministic ECDSA's choice of k. -/
def ecNonce : Nat → List Byte → List Byte → Nat
  | 0, _, _ => 1
  | fuel + 1, key, v =>
    let v := hmac384 key v
    let k := beNat v
    if 1 ≤ k ∧ k < p384N then k
    else
      let key := hmac384 key (v ++ [0])
      ecNonce fuel key (hmac384 key v)

/-- The deterministic ECDSA signature of a message, r then s, 96 bytes. -/
def ecSign (d : Nat) (msg : List Byte) : List Byte :=
  let h := sha384 msg
  let seed := beBytes 48 d ++ beBytes 48 (beNat h % p384N)
  let k0 := List.replicate 48 0
  let v0 : List Byte := List.replicate 48 1
  let k1 := hmac384 k0 (v0 ++ [0] ++ seed)
  let v1 := hmac384 k1 v0
  let k2 := hmac384 k1 (v1 ++ [1] ++ seed)
  let k := ecNonce 16 k2 (hmac384 k2 v1)
  let r := (ecMul (some p384G) k 384).elim 0 (fun q => q.1 % p384N)
  let s := invMod p384N k * ((beNat h + r * d) % p384N) % p384N
  beBytes 48 r ++ beBytes 48 s

/-! ### LMS: LMS_SHA256_M32_H20 with LMOTS_SHA256_N32_W4 -/

/-- The private value of Winternitz chain i of leaf q (RFC 8554, Appendix A). -/
def otsSecret (ident seed : List Byte) (q i : Nat) : List Byte :=
  sha256 (ident ++ beBytes 4 q ++ beBytes 2 i ++ [0xFF] ++ seed)

/-- Chain i of leaf q from step j, n steps on. -/
def otsChain (ident : List Byte) (q i j : Nat) : Nat → List Byte → List Byte
  | 0, x => x
  | n + 1, x => otsChain ident q i (j + 1) n (sha256 (ident ++ beBytes 4 q ++ beBytes 2 i ++ beBytes 1 j ++ x))

/-- The one-time public key of leaf q: 67 chains of 15 steps. -/
def otsPublic (ident seed : List Byte) (q : Nat) : List Byte :=
  sha256 (ident ++ beBytes 4 q ++ [0x80, 0x80]
    ++ (List.range 67).flatMap (fun i => otsChain ident q i 0 15 (otsSecret ident seed q i)))

/-- Node r of the tree, h levels above the leaves. -/
def lmsNode (ident seed : List Byte) : Nat → Nat → List Byte
  | 0, r => sha256 (ident ++ beBytes 4 r ++ [0x82, 0x82] ++ otsPublic ident seed (r - 2 ^ 20))
  | h + 1, r => sha256 (ident ++ beBytes 4 r ++ [0x83, 0x83] ++ lmsNode ident seed h (2 * r) ++ lmsNode ident seed h (2 * r + 1))

/-- LMS_PUB_ID, 56 bytes: the two type codes, I, the root. -/
def lmsPublic (ident seed : List Byte) : List Byte := beBytes 4 8 ++ beBytes 4 3 ++ ident ++ lmsNode ident seed 20 1

/-- The 64 digits of a digest and the three of its checksum, four bits each. -/
def otsDigits (digest : List Byte) : List Nat :=
  let ds := digest.flatMap (fun b => [b.toNat / 16, b.toNat % 16])
  let sum := (ds.map (15 - ·)).sum
  ds ++ [sum / 256 % 16, sum / 16 % 16, sum % 16]

/-- The LMS signature with leaf q, 2,828 bytes; RFC 8554 leaves its randomiser C open: a free value. -/
def lmsSignature (ident seed : List Byte) (q : Nat) (msg : List Byte) : List Byte :=
  let c := (Config.lmsRandom q ++ List.replicate 32 0).take 32
  let digest := sha256 (ident ++ beBytes 4 q ++ [0x81, 0x81] ++ c ++ msg)
  let ots := ((otsDigits digest).zipIdx).flatMap (fun x => otsChain ident q x.2 0 x.1 (otsSecret ident seed q x.2))
  let path := (List.range 20).flatMap (fun h => lmsNode ident seed h ((2 ^ 20 + q) / 2 ^ h ^^^ 1))
  beBytes 4 q ++ (beBytes 4 3 ++ c ++ ots) ++ beBytes 4 8 ++ path

/-! ### The identity (R501, R502) -/

/-- What the key engine holds after a boot: the ECDSA private key, and I and SEED of LMS. -/
structure IdKeys where
  ecKey  : Nat
  ident  : List Byte
  seed   : List Byte
  deriving DecidableEq, Repr

/-- The private keys of a device secret (R501). -/
def IdKeys.derive (secret : List Byte) : IdKeys :=
  let out := deriveKey secret (labelBytes "EOHAQUA-ID-LMS") 384
  { ecKey := ecPrivate secret, ident := out.take 16, seed := (out.drop 16).take 32 }

/-- EC_PUB_ID, 96 bytes, x then y (R501). -/
def IdKeys.ecPub (k : IdKeys) : List Byte := ecPublic k.ecKey

/-- LMS_PUB_ID, 56 bytes (R501). -/
def IdKeys.lmsPub (k : IdKeys) : List Byte := lmsPublic k.ident k.seed

/-- The identity fingerprint of the two public keys (R502). -/
def IdKeys.print (k : IdKeys) : List Byte := sha384 (k.ecPub ++ k.lmsPub)

end Sys2Proof.Machine
end

