-- ==== Sys2Proof/Machine/Regs.lean ====
section
/-! DEFINITION. The register fields of every page, written from the register tables of spec/02 to
spec/18: class, offset, lowest bit, width, access class, reset value, "step" mark and "instance 0 only"
mark. A field whose reset value the spec takes from the fuse map, the flash, the page or the pins has
reset 0 here and is read through `State.readField` (Machine/Pages.lean). -/

namespace Sys2Proof.Machine

/-- Access classes (R47). -/
inductive Access where
  | ro | rw | rs | rl | w1c | wo
  deriving DecidableEq, Repr

/-- A register field (R42, R47). -/
structure Field where
  cls   : Nat
  off   : Nat
  lo    : Nat
  width : Nat
  acc   : Access
  reset : Nat
  step  : Bool
  only0 : Bool
  deriving DecidableEq, Repr

/-- The home of a field of a page instance: one number per (class, instance, offset, lowest bit). -/
def Field.key (f : Field) (inst : Nat) : Nat := ((f.cls * 2048 + inst) * 4096 + f.off) * 32 + f.lo

end Sys2Proof.Machine

namespace Sys2Proof.Machine.R

/-- BLK_ID.CLASS [31:24] of every page, R42. -/
def BLK_ID_CLASS (c : Nat) : Field := ⟨c, 0, 24, 8, .ro, 0, false, false⟩
/-- BLK_ID.INSTANCE [23:8] of every page, R42. -/
def BLK_ID_INSTANCE (c : Nat) : Field := ⟨c, 0, 8, 16, .ro, 0, false, false⟩
/-- BLK_ID.LAYOUT [7:0] of every page, R42. -/
def BLK_ID_LAYOUT (c : Nat) : Field := ⟨c, 0, 0, 8, .ro, 1, false, false⟩
/-- BLK_REV.FW_IFACE [31:16] of every page, R42. -/
def BLK_REV_FW_IFACE (c : Nat) : Field := ⟨c, 4, 16, 16, .ro, 0, false, false⟩
/-- BLK_REV.MAJOR [15:8] of every page, R42. -/
def BLK_REV_MAJOR (c : Nat) : Field := ⟨c, 4, 8, 8, .ro, 0, false, false⟩
/-- BLK_REV.MINOR [7:0] of every page, R42. -/
def BLK_REV_MINOR (c : Nat) : Field := ⟨c, 4, 0, 8, .ro, 0, false, false⟩
/-- BLK_FEAT_OFFER_LO.OFFER [31:0] of every page, R42. -/
def BLK_FEAT_OFFER_LO_OFFER (c : Nat) : Field := ⟨c, 8, 0, 32, .ro, 0, false, false⟩
/-- BLK_FEAT_OFFER_HI.OFFER [31:0] of every page, R42. -/
def BLK_FEAT_OFFER_HI_OFFER (c : Nat) : Field := ⟨c, 12, 0, 32, .ro, 0, false, false⟩
/-- BLK_FEAT_ON_LO.ON [31:0] of every page, R42. -/
def BLK_FEAT_ON_LO_ON (c : Nat) : Field := ⟨c, 16, 0, 32, .ro, 0, false, false⟩
/-- BLK_FEAT_ON_HI.ON [31:0] of every page, R42. -/
def BLK_FEAT_ON_HI_ON (c : Nat) : Field := ⟨c, 20, 0, 32, .ro, 0, false, false⟩
/-- BLK_CTRL.POLICY_HOLD [4:4] of every page, R42. -/
def BLK_CTRL_POLICY_HOLD (c : Nat) : Field := ⟨c, 24, 4, 1, .rw, 0, false, false⟩
/-- BLK_CTRL.SOFT_RESET [3:3] of every page, R42. -/
def BLK_CTRL_SOFT_RESET (c : Nat) : Field := ⟨c, 24, 3, 1, .wo, 0, false, false⟩
/-- BLK_CTRL.CLOCHE_REQ [2:2] of every page, R42. -/
def BLK_CTRL_CLOCHE_REQ (c : Nat) : Field := ⟨c, 24, 2, 1, .rw, 0, false, false⟩
/-- BLK_CTRL.QUIESCE_REQ [1:1] of every page, R42. -/
def BLK_CTRL_QUIESCE_REQ (c : Nat) : Field := ⟨c, 24, 1, 1, .rw, 0, false, false⟩
/-- BLK_CTRL.ENABLE [0:0] of every page, R42. -/
def BLK_CTRL_ENABLE (c : Nat) : Field := ⟨c, 24, 0, 1, .rl, 0, false, false⟩
/-- BLK_STATE.SEQ [31:16] of every page, R42. -/
def BLK_STATE_SEQ (c : Nat) : Field := ⟨c, 28, 16, 16, .ro, 0, false, false⟩
/-- BLK_STATE.STATE [3:0] of every page, R42. -/
def BLK_STATE_STATE (c : Nat) : Field := ⟨c, 28, 0, 4, .ro, 0, false, false⟩
/-- BLK_ERR_MASK.MASK [31:0] of every page, R42. -/
def BLK_ERR_MASK_MASK (c : Nat) : Field := ⟨c, 36, 0, 32, .rw, 0, false, false⟩
/-- BLK_IRQ_EN.EN [31:0] of every page, R42. -/
def BLK_IRQ_EN_EN (c : Nat) : Field := ⟨c, 44, 0, 32, .rw, 0, false, false⟩
/-- BLK_STAGE_SEQ.VIEW_SHADOW [31:31] of every page, R42. -/
def BLK_STAGE_SEQ_VIEW_SHADOW (c : Nat) : Field := ⟨c, 48, 31, 1, .rw, 0, false, false⟩
/-- BLK_STAGE_SEQ.DIRTY [16:16] of every page, R42. -/
def BLK_STAGE_SEQ_DIRTY (c : Nat) : Field := ⟨c, 48, 16, 1, .ro, 0, false, false⟩
/-- BLK_STAGE_SEQ.NEXT_SEQ [15:0] of every page, R42. -/
def BLK_STAGE_SEQ_NEXT_SEQ (c : Nat) : Field := ⟨c, 48, 0, 16, .ro, 0, false, false⟩
/-- BLK_COMMIT.ABORT [31:31] of every page, R42. -/
def BLK_COMMIT_ABORT (c : Nat) : Field := ⟨c, 52, 31, 1, .wo, 0, false, false⟩
/-- BLK_COMMIT.GROUP [30:30] of every page, R42. -/
def BLK_COMMIT_GROUP (c : Nat) : Field := ⟨c, 52, 30, 1, .wo, 0, false, false⟩
/-- BLK_COMMIT.SEQ [15:0] of every page, R42. -/
def BLK_COMMIT_SEQ (c : Nat) : Field := ⟨c, 52, 0, 16, .wo, 0, false, false⟩
/-- BLK_COMMIT_STAT.STATE [18:16] of every page, R42. -/
def BLK_COMMIT_STAT_STATE (c : Nat) : Field := ⟨c, 56, 16, 3, .ro, 0, false, false⟩
/-- BLK_COMMIT_STAT.LAST_SEQ [15:0] of every page, R42. -/
def BLK_COMMIT_STAT_LAST_SEQ (c : Nat) : Field := ⟨c, 56, 0, 16, .ro, 65535, false, false⟩
/-- BLK_HEALTH.REASON [31:24] of every page, R42. -/
def BLK_HEALTH_REASON (c : Nat) : Field := ⟨c, 60, 24, 8, .ro, 0, false, false⟩
/-- BLK_HEALTH.REPLACE_REQ [16:16] of every page, R42. -/
def BLK_HEALTH_REPLACE_REQ (c : Nat) : Field := ⟨c, 60, 16, 1, .ro, 0, false, false⟩
/-- BLK_HEALTH.WEAR [15:8] of every page, R42. -/
def BLK_HEALTH_WEAR (c : Nat) : Field := ⟨c, 60, 8, 8, .ro, 0, false, false⟩
/-- BLK_HEALTH.GRADE [3:0] of every page, R42. -/
def BLK_HEALTH_GRADE (c : Nat) : Field := ⟨c, 60, 0, 4, .ro, 0, false, false⟩
/-- BLK_ERR, one W1C word of every page, R42. -/
def BLK_ERR (c : Nat) : Field := ⟨c, 32, 0, 32, .w1c, 0, false, false⟩
/-- BLK_IRQ_PEND, one W1C word of every page, R42. -/
def BLK_IRQ_PEND (c : Nat) : Field := ⟨c, 40, 0, 32, .w1c, 0, false, false⟩
/-- Counter k of a page: 64 bits at 0x040 + 8k, RO (R43). -/
def COUNTER (c k : Nat) : Field := ⟨c, 64 + 8 * k, 0, 64, .ro, 0, false, false⟩

/-- GLB_DEV_INFO.SPARES_LEFT [23:16], R68 (reset from fuse). -/
def GLB_DEV_INFO_SPARES_LEFT : Field := ⟨0, 128, 16, 8, .ro, 0, false, false⟩
/-- GLB_DEV_INFO.LOGICAL_CELLS [15:4], R68 (reset from fuse). -/
def GLB_DEV_INFO_LOGICAL_CELLS : Field := ⟨0, 128, 4, 12, .ro, 0, false, false⟩
/-- GLB_DEV_INFO.GRADE [3:0], R68 (reset from fuse). -/
def GLB_DEV_INFO_GRADE : Field := ⟨0, 128, 0, 4, .ro, 0, false, false⟩
/-- GLB_DEV_NUM.VALID [16:16], R68. -/
def GLB_DEV_NUM_VALID : Field := ⟨0, 132, 16, 1, .rl, 0, false, false⟩
/-- GLB_DEV_NUM.DEV_NUM [15:0], R68. -/
def GLB_DEV_NUM_DEV_NUM : Field := ⟨0, 132, 0, 16, .rl, 0, false, false⟩
/-- GLB_OWNER.OWNER [1:0], R68. -/
def GLB_OWNER_OWNER : Field := ⟨0, 136, 0, 2, .ro, 0, false, false⟩
/-- GLB_NEG_CTRL.GO [0:0], R68. -/
def GLB_NEG_CTRL_GO : Field := ⟨0, 320, 0, 1, .wo, 0, false, false⟩
/-- GLB_NEG_STATUS.COMBO_UNTESTED [16:16], R68. -/
def GLB_NEG_STATUS_COMBO_UNTESTED : Field := ⟨0, 324, 16, 1, .ro, 0, false, false⟩
/-- GLB_NEG_STATUS.BAD_BIT [15:8], R68. -/
def GLB_NEG_STATUS_BAD_BIT : Field := ⟨0, 324, 8, 8, .ro, 0, false, false⟩
/-- GLB_NEG_STATUS.CODE [3:0], R68. -/
def GLB_NEG_STATUS_CODE : Field := ⟨0, 324, 0, 4, .ro, 0, false, false⟩
/-- GLB_GROUP_COMMIT.ABORT [31:31], R68. -/
def GLB_GROUP_COMMIT_ABORT : Field := ⟨0, 328, 31, 1, .wo, 0, false, false⟩
/-- GLB_GROUP_COMMIT.SEQ [15:0], R68. -/
def GLB_GROUP_COMMIT_SEQ : Field := ⟨0, 328, 0, 16, .wo, 0, false, false⟩
/-- GLB_GROUP_STAT.MEMBERS [30:19], R68. -/
def GLB_GROUP_STAT_MEMBERS : Field := ⟨0, 332, 19, 12, .ro, 0, false, false⟩
/-- GLB_GROUP_STAT.STATE [18:16], R68. -/
def GLB_GROUP_STAT_STATE : Field := ⟨0, 332, 16, 3, .ro, 0, false, false⟩
/-- GLB_GROUP_STAT.NEXT_SEQ [15:0], R68. -/
def GLB_GROUP_STAT_NEXT_SEQ : Field := ⟨0, 332, 0, 16, .ro, 0, false, false⟩
/-- GLB_BAD_ACCESS.VALID [31:31], R68. -/
def GLB_BAD_ACCESS_VALID : Field := ⟨0, 336, 31, 1, .ro, 0, false, false⟩
/-- GLB_BAD_ACCESS.NO_PAGE [30:30], R68. -/
def GLB_BAD_ACCESS_NO_PAGE : Field := ⟨0, 336, 30, 1, .ro, 0, false, false⟩
/-- GLB_BAD_ACCESS.WIDTH [29:29], R68. -/
def GLB_BAD_ACCESS_WIDTH : Field := ⟨0, 336, 29, 1, .ro, 0, false, false⟩
/-- GLB_BAD_ACCESS.WRITE [28:28], R68. -/
def GLB_BAD_ACCESS_WRITE : Field := ⟨0, 336, 28, 1, .ro, 0, false, false⟩
/-- GLB_BAD_ACCESS.OFFSET [27:0], R68. -/
def GLB_BAD_ACCESS_OFFSET : Field := ⟨0, 336, 0, 28, .ro, 0, false, false⟩
/-- GLB_STEP_LO and _HI, R68. -/
def GLB_STEP : Field := ⟨0, 344, 0, 64, .ro, 0, false, false⟩
/-- GLB_JOB_CTRL.END [1:1], R68. -/
def GLB_JOB_CTRL_END : Field := ⟨0, 352, 1, 1, .wo, 0, false, false⟩
/-- GLB_JOB_CTRL.START [0:0], R68. -/
def GLB_JOB_CTRL_START : Field := ⟨0, 352, 0, 1, .wo, 0, false, false⟩
/-- GLB_JOB_STATUS.REFUSE [7:4], R68. -/
def GLB_JOB_STATUS_REFUSE : Field := ⟨0, 356, 4, 4, .ro, 0, false, false⟩
/-- GLB_JOB_STATUS.ACTIVE [0:0], R68. -/
def GLB_JOB_STATUS_ACTIVE : Field := ⟨0, 356, 0, 1, .ro, 0, false, false⟩
/-- CEL_MAP.DESIG [31:30], R116 (reset from fuse). -/
def CEL_MAP_DESIG : Field := ⟨2, 128, 30, 2, .ro, 0, false, false⟩
/-- CEL_MAP.MAPPED [29:29], R116. -/
def CEL_MAP_MAPPED : Field := ⟨2, 128, 29, 1, .ro, 0, false, false⟩
/-- CEL_MAP.LOGICAL [25:16], R116. -/
def CEL_MAP_LOGICAL : Field := ⟨2, 128, 16, 10, .ro, 0, false, false⟩
/-- CEL_MAP.PLOT [5:0], R116. -/
def CEL_MAP_PLOT : Field := ⟨2, 128, 0, 6, .ro, 0, false, false⟩
/-- CEL_SEQ_STATUS.TRAP_CAUSE [31:28], R116. -/
def CEL_SEQ_STATUS_TRAP_CAUSE : Field := ⟨2, 132, 28, 4, .ro, 0, false, false⟩
/-- CEL_SEQ_STATUS.RUN [15:14], R116. -/
def CEL_SEQ_STATUS_RUN : Field := ⟨2, 132, 14, 2, .ro, 0, false, false⟩
/-- CEL_SEQ_STATUS.PC [13:0], R116. -/
def CEL_SEQ_STATUS_PC : Field := ⟨2, 132, 0, 14, .ro, 0, false, false⟩
/-- CEL_TRAP_ADDR.ADDR [31:0], R116. -/
def CEL_TRAP_ADDR_ADDR : Field := ⟨2, 136, 0, 32, .ro, 0, false, false⟩
/-- CEL_DMA_FAULT_LO.ADDR_LO [31:0], R116. -/
def CEL_DMA_FAULT_LO_ADDR_LO : Field := ⟨2, 140, 0, 32, .ro, 0, false, false⟩
/-- CEL_DMA_FAULT_HI.VALID [31:31], R116. -/
def CEL_DMA_FAULT_HI_VALID : Field := ⟨2, 144, 31, 1, .w1c, 0, false, false⟩
/-- CEL_DMA_FAULT_HI.CHANNEL [18:16], R116. -/
def CEL_DMA_FAULT_HI_CHANNEL : Field := ⟨2, 144, 16, 3, .ro, 0, false, false⟩
/-- CEL_DMA_FAULT_HI.ADDR_HI [15:0], R116. -/
def CEL_DMA_FAULT_HI_ADDR_HI : Field := ⟨2, 144, 0, 16, .ro, 0, false, false⟩
/-- CEL_STREAM_CFG.SCALE_AHEAD [15:8], R116. -/
def CEL_STREAM_CFG_SCALE_AHEAD : Field := ⟨2, 148, 8, 8, .rw, 64, false, false⟩
/-- CEL_STREAM_CFG.DMA_SHARE [3:0], R116. -/
def CEL_STREAM_CFG_DMA_SHARE : Field := ⟨2, 148, 0, 4, .rw, 4, false, false⟩
/-- CEL_ARRAY_CFG.ZERO_SKIP [1:1], R116. -/
def CEL_ARRAY_CFG_ZERO_SKIP : Field := ⟨2, 152, 1, 1, .rw, 1, false, false⟩
/-- CEL_ARRAY_CFG.T3_MODE [0:0], R116. -/
def CEL_ARRAY_CFG_T3_MODE : Field := ⟨2, 152, 0, 1, .rs, 0, true, false⟩
/-- CEL_REPAIR.COL1_V [31:31], R116 (reset from fuse). -/
def CEL_REPAIR_COL1_V : Field := ⟨2, 156, 31, 1, .ro, 0, false, false⟩
/-- CEL_REPAIR.COL1 [30:24], R116 (reset from fuse). -/
def CEL_REPAIR_COL1 : Field := ⟨2, 156, 24, 7, .ro, 0, false, false⟩
/-- CEL_REPAIR.COL0_V [23:23], R116 (reset from fuse). -/
def CEL_REPAIR_COL0_V : Field := ⟨2, 156, 23, 1, .ro, 0, false, false⟩
/-- CEL_REPAIR.COL0 [22:16], R116 (reset from fuse). -/
def CEL_REPAIR_COL0 : Field := ⟨2, 156, 16, 7, .ro, 0, false, false⟩
/-- CEL_REPAIR.ROW1_V [15:15], R116 (reset from fuse). -/
def CEL_REPAIR_ROW1_V : Field := ⟨2, 156, 15, 1, .ro, 0, false, false⟩
/-- CEL_REPAIR.ROW1 [14:8], R116 (reset from fuse). -/
def CEL_REPAIR_ROW1 : Field := ⟨2, 156, 8, 7, .ro, 0, false, false⟩
/-- CEL_REPAIR.ROW0_V [7:7], R116 (reset from fuse). -/
def CEL_REPAIR_ROW0_V : Field := ⟨2, 156, 7, 1, .ro, 0, false, false⟩
/-- CEL_REPAIR.ROW0 [6:0], R116 (reset from fuse). -/
def CEL_REPAIR_ROW0 : Field := ⟨2, 156, 0, 7, .ro, 0, false, false⟩
/-- CEL_SPARE_POLICY.POLICY [0:0], R116. -/
def CEL_SPARE_POLICY_POLICY : Field := ⟨2, 160, 0, 1, .rs, 0, false, false⟩
/-- CEL_ARRAY_STATUS.DIVIDER [10:8], R116. -/
def CEL_ARRAY_STATUS_DIVIDER : Field := ⟨2, 164, 8, 3, .ro, 4, false, false⟩
/-- CEL_ARRAY_STATUS.NEXT_TAG [1:1], R116. -/
def CEL_ARRAY_STATUS_NEXT_TAG : Field := ⟨2, 164, 1, 1, .ro, 0, false, false⟩
/-- CEL_ARRAY_STATUS.IN_FLIGHT [0:0], R116. -/
def CEL_ARRAY_STATUS_IN_FLIGHT : Field := ⟨2, 164, 0, 1, .ro, 0, false, false⟩
/-- CEL_TILE.TILE [31:0], R116. -/
def CEL_TILE_TILE : Field := ⟨2, 168, 0, 32, .ro, 0, false, false⟩
/-- CEL_TILE_STATUS.HOLDING [0:0], R116. -/
def CEL_TILE_STATUS_HOLDING : Field := ⟨2, 172, 0, 1, .ro, 0, false, false⟩
/-- PLT_BOUNDS.MAX_CELLS [26:16], R118. -/
def PLT_BOUNDS_MAX_CELLS : Field := ⟨3, 128, 16, 11, .rs, 1024, true, false⟩
/-- PLT_BOUNDS.MIN_CELLS [10:0], R118. -/
def PLT_BOUNDS_MIN_CELLS : Field := ⟨3, 128, 0, 11, .rs, 0, true, false⟩
/-- PLT_REBAL.EN [31:31], R118. -/
def PLT_REBAL_EN : Field := ⟨3, 132, 31, 1, .rs, 0, true, false⟩
/-- PLT_REBAL.MAX_DELTA [9:0], R118. -/
def PLT_REBAL_MAX_DELTA : Field := ⟨3, 132, 0, 10, .rs, 16, true, false⟩
/-- PLT_STATUS.ACTIVE [31:31], R118. -/
def PLT_STATUS_ACTIVE : Field := ⟨3, 136, 31, 1, .ro, 0, false, false⟩
/-- PLT_STATUS.CLOCHED [26:16], R118. -/
def PLT_STATUS_CLOCHED : Field := ⟨3, 136, 16, 11, .ro, 0, false, false⟩
/-- PLT_STATUS.CELLS [10:0], R118. -/
def PLT_STATUS_CELLS : Field := ⟨3, 136, 0, 11, .ro, 0, false, false⟩
/-- PLT_BUSY.BUSY [31:0], R118. -/
def PLT_BUSY_BUSY : Field := ⟨3, 140, 0, 32, .ro, 0, false, false⟩
/-- PLT_LAST_REBAL.STEP [31:16], R118. -/
def PLT_LAST_REBAL_STEP : Field := ⟨3, 144, 16, 16, .ro, 0, false, false⟩
/-- PLT_LAST_REBAL.DELTA [15:0], R118. -/
def PLT_LAST_REBAL_DELTA : Field := ⟨3, 144, 0, 16, .ro, 0, false, false⟩
/-- THN_CFG.HOST_EN [8:8], R230. -/
def THN_CFG_HOST_EN : Field := ⟨11, 128, 8, 1, .rw, 1, false, false⟩
/-- THN_CFG.HOST_WEIGHT [7:0], R230. -/
def THN_CFG_HOST_WEIGHT : Field := ⟨11, 128, 0, 8, .rw, 8, false, false⟩
/-- THN_STATUS.HOST_DEPTH [23:16], R230. -/
def THN_STATUS_HOST_DEPTH : Field := ⟨11, 132, 16, 8, .ro, 0, false, false⟩
/-- THN_STATUS.JOB_DEPTH [15:8], R230. -/
def THN_STATUS_JOB_DEPTH : Field := ⟨11, 132, 8, 8, .ro, 0, false, false⟩
/-- THN_STATUS.SERVING_HOST [1:1], R230. -/
def THN_STATUS_SERVING_HOST : Field := ⟨11, 132, 1, 1, .ro, 0, false, false⟩
/-- THN_STATUS.BUSY [0:0], R230. -/
def THN_STATUS_BUSY : Field := ⟨11, 132, 0, 1, .ro, 0, false, false⟩
/-- THN_MAX_KEYS.MAX_KEYS [31:0], R230. -/
def THN_MAX_KEYS_MAX_KEYS : Field := ⟨11, 136, 0, 32, .ro, 1048576, false, false⟩
/-- THN_MAX_TOPK.MAX_TOPK [31:0], R230. -/
def THN_MAX_TOPK_MAX_TOPK : Field := ⟨11, 140, 0, 32, .ro, 4096, false, false⟩
/-- THN_FAULT_LO.ADDR_LO [31:0], R230. -/
def THN_FAULT_LO_ADDR_LO : Field := ⟨11, 144, 0, 32, .ro, 0, false, false⟩
/-- THN_FAULT_HI.VALID [31:31], R230. -/
def THN_FAULT_HI_VALID : Field := ⟨11, 148, 31, 1, .w1c, 0, false, false⟩
/-- THN_FAULT_HI.ADDR_HI [15:0], R230. -/
def THN_FAULT_HI_ADDR_HI : Field := ⟨11, 148, 0, 16, .ro, 0, false, false⟩
/-- NUM_SST_BASE_LO.ADDR_LO [31:7], R252. -/
def NUM_SST_BASE_LO_ADDR_LO : Field := ⟨12, 128, 7, 25, .rl, 0, false, false⟩
/-- NUM_SST_BASE_HI.ADDR_HI [15:0], R252. -/
def NUM_SST_BASE_HI_ADDR_HI : Field := ⟨12, 132, 0, 16, .rl, 0, false, false⟩
/-- NUM_SST_COUNT.COUNT [16:0], R252. -/
def NUM_SST_COUNT_COUNT : Field := ⟨12, 136, 0, 17, .rl, 0, false, false⟩
/-- NUM_RING_CFG.EN [31:31], R252. -/
def NUM_RING_CFG_EN : Field := ⟨12, 140, 31, 1, .rl, 0, false, false⟩
/-- NUM_RING_CFG.TYPE_EN [15:8], R252. -/
def NUM_RING_CFG_TYPE_EN : Field := ⟨12, 140, 8, 8, .rw, 255, false, false⟩
/-- NUM_RING_CFG.LOG2_SIZE [4:0], R252. -/
def NUM_RING_CFG_LOG2_SIZE : Field := ⟨12, 140, 0, 5, .rl, 12, false, false⟩
/-- NUM_RING_BASE_LO.ADDR_LO [31:6], R252. -/
def NUM_RING_BASE_LO_ADDR_LO : Field := ⟨12, 144, 6, 26, .rl, 0, false, false⟩
/-- NUM_RING_BASE_HI.ADDR_HI [15:0], R252. -/
def NUM_RING_BASE_HI_ADDR_HI : Field := ⟨12, 148, 0, 16, .rl, 0, false, false⟩
/-- NUM_RING_PROD.PROD [31:0], R252. -/
def NUM_RING_PROD_PROD : Field := ⟨12, 152, 0, 32, .ro, 0, false, false⟩
/-- NUM_RING_CONS.CONS [31:0], R252. -/
def NUM_RING_CONS_CONS : Field := ⟨12, 156, 0, 32, .rw, 0, false, false⟩
/-- NUM_RING_DROPPED.DROPPED [31:0], R252. -/
def NUM_RING_DROPPED_DROPPED : Field := ⟨12, 160, 0, 32, .ro, 0, false, false⟩
/-- NUM_SIEVE_CFG.EN [31:31], R252. -/
def NUM_SIEVE_CFG_EN : Field := ⟨12, 164, 31, 1, .rw, 0, false, false⟩
/-- NUM_SIEVE_CFG.RATE [28:24], R252. -/
def NUM_SIEVE_CFG_RATE : Field := ⟨12, 164, 24, 5, .rw, 12, false, false⟩
/-- NUM_SIEVE_CFG.INTEG_LIM [19:16], R252. -/
def NUM_SIEVE_CFG_INTEG_LIM : Field := ⟨12, 164, 16, 4, .rw, 1, false, false⟩
/-- NUM_SIEVE_CFG.BORROW [8:8], R252. -/
def NUM_SIEVE_CFG_BORROW : Field := ⟨12, 164, 8, 1, .rw, 1, false, false⟩
/-- NUM_SIEVE_DEFAULT_LIM.LIM [31:0], R252. -/
def NUM_SIEVE_DEFAULT_LIM_LIM : Field := ⟨12, 168, 0, 32, .rw, 1031798784, false, false⟩
/-- NUM_SIEVE_LAYER_LO.ADDR_LO [31:4], R252. -/
def NUM_SIEVE_LAYER_LO_ADDR_LO : Field := ⟨12, 172, 4, 28, .rl, 0, false, false⟩
/-- NUM_SIEVE_LAYER_HI.COUNT [29:16], R252. -/
def NUM_SIEVE_LAYER_HI_COUNT : Field := ⟨12, 176, 16, 14, .rl, 0, false, false⟩
/-- NUM_SIEVE_LAYER_HI.ADDR_HI [15:0], R252. -/
def NUM_SIEVE_LAYER_HI_ADDR_HI : Field := ⟨12, 176, 0, 16, .rl, 0, false, false⟩
/-- NUM_SIEVE_BUF_LO.ADDR_LO [31:16], R252. -/
def NUM_SIEVE_BUF_LO_ADDR_LO : Field := ⟨12, 180, 16, 16, .rl, 0, false, false⟩
/-- NUM_SIEVE_BUF_HI.ADDR_HI [15:0], R252. -/
def NUM_SIEVE_BUF_HI_ADDR_HI : Field := ⟨12, 184, 0, 16, .rl, 0, false, false⟩
/-- NUM_SIEVE_BUF_CFG.SLOTS [23:16], R252. -/
def NUM_SIEVE_BUF_CFG_SLOTS : Field := ⟨12, 188, 16, 8, .rl, 0, false, false⟩
/-- NUM_SIEVE_BUF_CFG.LOG2_SLOT [4:0], R252. -/
def NUM_SIEVE_BUF_CFG_LOG2_SLOT : Field := ⟨12, 188, 0, 5, .rl, 22, false, false⟩
/-- NUM_VOTE.FINAL [31:31], R252. -/
def NUM_VOTE_FINAL : Field := ⟨12, 192, 31, 1, .ro, 0, false, false⟩
/-- NUM_VOTE.NONFINITE [30:30], R252. -/
def NUM_VOTE_NONFINITE : Field := ⟨12, 192, 30, 1, .ro, 0, false, false⟩
/-- NUM_VOTE.ORIGIN [15:0], R252. -/
def NUM_VOTE_ORIGIN : Field := ⟨12, 192, 0, 16, .ro, 65535, false, false⟩
/-- NUM_VOTE_STEP.STEP [15:0], R252. -/
def NUM_VOTE_STEP_STEP : Field := ⟨12, 196, 0, 16, .ro, 0, false, false⟩
/-- NUM_XREC_SEL.CLEAR [31:31], R252. -/
def NUM_XREC_SEL_CLEAR : Field := ⟨12, 208, 31, 1, .wo, 0, false, false⟩
/-- NUM_XREC_SEL.KIND [17:16], R252. -/
def NUM_XREC_SEL_KIND : Field := ⟨12, 208, 16, 2, .rw, 0, false, false⟩
/-- NUM_XREC_SEL.CELL [10:0], R252. -/
def NUM_XREC_SEL_CELL : Field := ⟨12, 208, 0, 11, .rw, 0, false, false⟩
/-- NUM_XREC_0.VALID [31:31], R252. -/
def NUM_XREC_0_VALID : Field := ⟨12, 212, 31, 1, .ro, 0, false, false⟩
/-- NUM_XREC_0.SLOT [23:16], R252. -/
def NUM_XREC_0_SLOT : Field := ⟨12, 212, 16, 8, .ro, 0, false, false⟩
/-- NUM_XREC_0.COLUMN [15:8], R252. -/
def NUM_XREC_0_COLUMN : Field := ⟨12, 212, 8, 8, .ro, 0, false, false⟩
/-- NUM_XREC_0.PLOT [7:0], R252. -/
def NUM_XREC_0_PLOT : Field := ⟨12, 212, 0, 8, .ro, 0, false, false⟩
/-- NUM_XREC_STEP.STEP [31:0], R252. -/
def NUM_XREC_STEP_STEP : Field := ⟨12, 216, 0, 32, .ro, 0, false, false⟩
/-- NUM_XREC_PHASE.PHASE [31:0], R252. -/
def NUM_XREC_PHASE_PHASE : Field := ⟨12, 220, 0, 32, .ro, 0, false, false⟩
/-- NUM_XREC_TILE.TILE [31:0], R252. -/
def NUM_XREC_TILE_TILE : Field := ⟨12, 224, 0, 32, .ro, 0, false, false⟩
/-- NUM_XREC_BLOCK.BLOCK [31:0], R252. -/
def NUM_XREC_BLOCK_BLOCK : Field := ⟨12, 228, 0, 32, .ro, 0, false, false⟩
/-- NUM_XREC_COUNT.COUNT [31:0], R252. -/
def NUM_XREC_COUNT_COUNT : Field := ⟨12, 232, 0, 32, .ro, 0, false, false⟩
/-- MEM_INFO.CHANNELS [31:24], R314. -/
def MEM_INFO_CHANNELS : Field := ⟨4, 128, 24, 8, .ro, 16, false, false⟩
/-- MEM_INFO.LAYERS [23:16], R314. -/
def MEM_INFO_LAYERS : Field := ⟨4, 128, 16, 8, .ro, 12, false, false⟩
/-- MEM_INFO.CAP_GIB [7:0], R314. -/
def MEM_INFO_CAP_GIB : Field := ⟨4, 128, 0, 8, .ro, 48, false, false⟩
/-- MEM_MAP.INTERLEAVE [1:0], R314. -/
def MEM_MAP_INTERLEAVE : Field := ⟨4, 132, 0, 2, .rl, 0, false, true⟩
/-- MEM_REGIONS.MIRROR_GIB [24:16], R314. -/
def MEM_REGIONS_MIRROR_GIB : Field := ⟨4, 136, 16, 9, .rl, 0, false, true⟩
/-- MEM_REGIONS.CACHE_GIB [8:0], R314. -/
def MEM_REGIONS_CACHE_GIB : Field := ⟨4, 136, 0, 9, .rl, 0, false, true⟩
/-- MEM_MIRROR_BASE.BASE [22:0], R314. -/
def MEM_MIRROR_BASE_BASE : Field := ⟨4, 140, 0, 23, .ro, 12287, false, false⟩
/-- MEM_CACHE_BASE.BASE [22:0], R314. -/
def MEM_CACHE_BASE_BASE : Field := ⟨4, 144, 0, 23, .ro, 12287, false, false⟩
/-- MEM_SPILL_BASE_LO.ADDR_LO [31:16], R314. -/
def MEM_SPILL_BASE_LO_ADDR_LO : Field := ⟨4, 148, 16, 16, .rl, 0, false, true⟩
/-- MEM_SPILL_BASE_HI.ADDR_HI [15:0], R314. -/
def MEM_SPILL_BASE_HI_ADDR_HI : Field := ⟨4, 152, 0, 16, .rl, 0, false, true⟩
/-- MEM_SPILL_SIZE.MIB [15:0], R314. -/
def MEM_SPILL_SIZE_MIB : Field := ⟨4, 156, 0, 16, .rl, 0, false, true⟩
/-- MEM_SCRUB_BOUNDS.MAX_PERIOD [31:16], R314. -/
def MEM_SCRUB_BOUNDS_MAX_PERIOD : Field := ⟨4, 160, 16, 16, .rs, 1440, false, false⟩
/-- MEM_SCRUB_BOUNDS.MIN_PERIOD [15:0], R314. -/
def MEM_SCRUB_BOUNDS_MIN_PERIOD : Field := ⟨4, 160, 0, 16, .rs, 15, false, false⟩
/-- MEM_SCRUB_THRESH.CE_HI [31:16], R314. -/
def MEM_SCRUB_THRESH_CE_HI : Field := ⟨4, 164, 16, 16, .rs, 64, false, false⟩
/-- MEM_SCRUB_THRESH.CE_LO [15:0], R314. -/
def MEM_SCRUB_THRESH_CE_LO : Field := ⟨4, 164, 0, 16, .rs, 4, false, false⟩
/-- MEM_SCRUB_STATUS.PERIOD [31:16], R314. -/
def MEM_SCRUB_STATUS_PERIOD : Field := ⟨4, 168, 16, 16, .ro, 1440, false, false⟩
/-- MEM_SCRUB_STATUS.PROGRESS [7:0], R314. -/
def MEM_SCRUB_STATUS_PROGRESS : Field := ⟨4, 168, 0, 8, .ro, 0, false, false⟩
/-- MEM_RETIRE_CFG.CE_ROW_LIM [7:0], R314. -/
def MEM_RETIRE_CFG_CE_ROW_LIM : Field := ⟨4, 172, 0, 8, .rs, 4, false, false⟩
/-- MEM_SPARE.USED [17:0], R314 (reset from flash). -/
def MEM_SPARE_USED : Field := ⟨4, 176, 0, 18, .ro, 0, false, false⟩
/-- MEM_UNSPARED.ROWS [15:0], R314 (reset from flash). -/
def MEM_UNSPARED_ROWS : Field := ⟨4, 180, 0, 16, .ro, 0, false, false⟩
/-- MEM_CHAN_CTRL.RECAL [4:4], R314. -/
def MEM_CHAN_CTRL_RECAL : Field := ⟨4, 184, 4, 1, .wo, 0, false, false⟩
/-- MEM_CHAN_CTRL.CHANNEL [3:0], R314. -/
def MEM_CHAN_CTRL_CHANNEL : Field := ⟨4, 184, 0, 4, .rw, 0, false, false⟩
/-- MEM_CHAN_STATUS.FAULT [31:16], R314 (reset from flash). -/
def MEM_CHAN_STATUS_FAULT : Field := ⟨4, 188, 16, 16, .ro, 0, false, false⟩
/-- MEM_CHAN_STATUS.RECAL_BUSY [15:0], R314. -/
def MEM_CHAN_STATUS_RECAL_BUSY : Field := ⟨4, 188, 0, 16, .ro, 0, false, false⟩
/-- MEM_UE_LO.ADDR_LO [31:0], R314. -/
def MEM_UE_LO_ADDR_LO : Field := ⟨4, 192, 0, 32, .ro, 0, false, false⟩
/-- MEM_UE_HI.VALID [31:31], R314. -/
def MEM_UE_HI_VALID : Field := ⟨4, 196, 31, 1, .w1c, 0, false, false⟩
/-- MEM_UE_HI.REGION [30:28], R314. -/
def MEM_UE_HI_REGION : Field := ⟨4, 196, 28, 3, .ro, 0, false, false⟩
/-- MEM_UE_HI.SOURCE [27:26], R314. -/
def MEM_UE_HI_SOURCE : Field := ⟨4, 196, 26, 2, .ro, 0, false, false⟩
/-- MEM_UE_HI.ADDR_HI [15:0], R314. -/
def MEM_UE_HI_ADDR_HI : Field := ⟨4, 196, 0, 16, .ro, 0, false, false⟩
/-- MEM_STAGE_STATUS.SPILL_MIB [31:16], R314. -/
def MEM_STAGE_STATUS_SPILL_MIB : Field := ⟨4, 200, 16, 16, .ro, 0, false, true⟩
/-- MEM_STAGE_STATUS.OPEN_SETS [15:0], R314. -/
def MEM_STAGE_STATUS_OPEN_SETS : Field := ⟨4, 200, 0, 16, .ro, 0, false, false⟩
/-- LNK_STATUS.SPARED [16:16], R357. -/
def LNK_STATUS_SPARED : Field := ⟨5, 128, 16, 1, .ro, 0, false, false⟩
/-- LNK_STATUS.FAILED_LANES [15:8], R357. -/
def LNK_STATUS_FAILED_LANES : Field := ⟨5, 128, 8, 8, .ro, 0, false, false⟩
/-- LNK_STATUS.LANES [7:4], R357. -/
def LNK_STATUS_LANES : Field := ⟨5, 128, 4, 4, .ro, 0, false, false⟩
/-- LNK_STATUS.LSTATE [3:0], R357. -/
def LNK_STATUS_LSTATE : Field := ⟨5, 128, 0, 4, .ro, 0, false, false⟩
/-- LNK_NEIGHBOUR.VALID [31:31], R357. -/
def LNK_NEIGHBOUR_VALID : Field := ⟨5, 132, 31, 1, .ro, 0, false, false⟩
/-- LNK_NEIGHBOUR.SWITCH [30:30], R357. -/
def LNK_NEIGHBOUR_SWITCH : Field := ⟨5, 132, 30, 1, .ro, 0, false, false⟩
/-- LNK_NEIGHBOUR.PORT [20:16], R357. -/
def LNK_NEIGHBOUR_PORT : Field := ⟨5, 132, 16, 5, .ro, 0, false, false⟩
/-- LNK_NEIGHBOUR.DEVICE [15:0], R357. -/
def LNK_NEIGHBOUR_DEVICE : Field := ⟨5, 132, 0, 16, .ro, 0, false, false⟩
/-- LNK_RTT.RTT [15:0], R357. -/
def LNK_RTT_RTT : Field := ⟨5, 136, 0, 16, .ro, 0, false, false⟩
/-- LNK_TIMERS.LINK_RTO [31:16], R357. -/
def LNK_TIMERS_LINK_RTO : Field := ⟨5, 140, 16, 16, .rw, 2048, false, false⟩
/-- LNK_TIMERS.REPLAY_LIM [15:8], R357. -/
def LNK_TIMERS_REPLAY_LIM : Field := ⟨5, 140, 8, 8, .rw, 8, false, false⟩
/-- LNK_TRANSIT.TRANSIT_TO [31:16], R357. -/
def LNK_TRANSIT_TRANSIT_TO : Field := ⟨5, 144, 16, 16, .rw, 100, false, false⟩
/-- LNK_TRANSIT.TRANSIT_EN [0:0], R357. -/
def LNK_TRANSIT_TRANSIT_EN : Field := ⟨5, 144, 0, 1, .rl, 1, false, false⟩
/-- LNK_VL_BUF_LO.VL3 [31:24], R357. -/
def LNK_VL_BUF_LO_VL3 : Field := ⟨5, 148, 24, 8, .rl, 8, false, false⟩
/-- LNK_VL_BUF_LO.VL2 [23:16], R357. -/
def LNK_VL_BUF_LO_VL2 : Field := ⟨5, 148, 16, 8, .rl, 8, false, false⟩
/-- LNK_VL_BUF_LO.VL1 [15:8], R357. -/
def LNK_VL_BUF_LO_VL1 : Field := ⟨5, 148, 8, 8, .rl, 8, false, false⟩
/-- LNK_VL_BUF_LO.VL0 [7:0], R357. -/
def LNK_VL_BUF_LO_VL0 : Field := ⟨5, 148, 0, 8, .rl, 8, false, false⟩
/-- LNK_VL_BUF_HI.VL7 [31:24], R357. -/
def LNK_VL_BUF_HI_VL7 : Field := ⟨5, 152, 24, 8, .rl, 8, false, false⟩
/-- LNK_VL_BUF_HI.VL6 [23:16], R357. -/
def LNK_VL_BUF_HI_VL6 : Field := ⟨5, 152, 16, 8, .rl, 8, false, false⟩
/-- LNK_VL_BUF_HI.VL5 [15:8], R357. -/
def LNK_VL_BUF_HI_VL5 : Field := ⟨5, 152, 8, 8, .rl, 8, false, false⟩
/-- LNK_VL_BUF_HI.VL4 [7:0], R357. -/
def LNK_VL_BUF_HI_VL4 : Field := ⟨5, 152, 0, 8, .rl, 8, false, false⟩
/-- LNK_VL_ARB.WEIGHT [31:0], R357. -/
def LNK_VL_ARB_WEIGHT : Field := ⟨5, 156, 0, 32, .rw, 285279252, false, false⟩
/-- LNK_CTRL.SPARE_EN [1:1], R357. -/
def LNK_CTRL_SPARE_EN : Field := ⟨5, 160, 1, 1, .rs, 1, false, false⟩
/-- LNK_CTRL.RETRAIN [0:0], R357. -/
def LNK_CTRL_RETRAIN : Field := ⟨5, 160, 0, 1, .wo, 0, false, false⟩
/-- FLW_INDEX.INDEX [17:0], R360. -/
def FLW_INDEX_INDEX : Field := ⟨6, 128, 0, 18, .rw, 0, false, false⟩
/-- FLW_CMD.OP [2:0], R360. -/
def FLW_CMD_OP : Field := ⟨6, 132, 0, 3, .wo, 0, false, false⟩
/-- FLW_CMD_STAT.CODE [3:0], R360. -/
def FLW_CMD_STAT_CODE : Field := ⟨6, 136, 0, 4, .ro, 0, false, false⟩
/-- FLW_E2E.FAIL_S [31:16], R360. -/
def FLW_E2E_FAIL_S : Field := ⟨6, 140, 16, 16, .rw, 30, false, false⟩
/-- FLW_E2E.E2E_RTO [15:0], R360. -/
def FLW_E2E_E2E_RTO : Field := ⟨6, 140, 0, 16, .rw, 20, false, false⟩
/-- FLW_RT_BASE_LO.ADDR_LO [31:12], R360. -/
def FLW_RT_BASE_LO_ADDR_LO : Field := ⟨6, 144, 12, 20, .rl, 0, false, false⟩
/-- FLW_RT_BASE_HI.ADDR_HI [15:0], R360. -/
def FLW_RT_BASE_HI_ADDR_HI : Field := ⟨6, 148, 0, 16, .rl, 0, false, false⟩
/-- FLW_RT_CMD.LOAD [0:0], R360. -/
def FLW_RT_CMD_LOAD : Field := ⟨6, 152, 0, 1, .wo, 0, false, false⟩
/-- FLW_RT_STATUS.CODE [3:0], R360. -/
def FLW_RT_STATUS_CODE : Field := ⟨6, 156, 0, 4, .ro, 0, false, false⟩
/-- FLW_SHADOW_LO.ADDR_LO [31:16], R360. -/
def FLW_SHADOW_LO_ADDR_LO : Field := ⟨6, 160, 16, 16, .rl, 0, false, false⟩
/-- FLW_SHADOW_HI.ADDR_HI [15:0], R360. -/
def FLW_SHADOW_HI_ADDR_HI : Field := ⟨6, 164, 0, 16, .rl, 0, false, false⟩
/-- FLW_POOL.FREE_S [31:16], R360. -/
def FLW_POOL_FREE_S : Field := ⟨6, 168, 16, 16, .ro, 32768, false, false⟩
/-- FLW_POOL.FREE_N [15:0], R360. -/
def FLW_POOL_FREE_N : Field := ⟨6, 168, 0, 16, .ro, 32768, false, false⟩
/-- COL_GROUP_BASE_LO.ADDR_LO [31:6], R362. -/
def COL_GROUP_BASE_LO_ADDR_LO : Field := ⟨7, 128, 6, 26, .rl, 0, false, true⟩
/-- COL_GROUP_BASE_HI.ADDR_HI [15:0], R362. -/
def COL_GROUP_BASE_HI_ADDR_HI : Field := ⟨7, 132, 0, 16, .rl, 0, false, true⟩
/-- COL_GROUP_COUNT.COUNT [8:0], R362. -/
def COL_GROUP_COUNT_COUNT : Field := ⟨7, 136, 0, 9, .rl, 0, false, true⟩
/-- COL_BUCKET.LAT_FRAC [31:24], R362. -/
def COL_BUCKET_LAT_FRAC : Field := ⟨7, 140, 24, 8, .rs, 32, false, true⟩
/-- COL_BUCKET.INIT_CODE [19:16], R362. -/
def COL_BUCKET_INIT_CODE : Field := ⟨7, 140, 16, 4, .rs, 4, false, true⟩
/-- COL_BUCKET.HI_CODE [11:8], R362. -/
def COL_BUCKET_HI_CODE : Field := ⟨7, 140, 8, 4, .rs, 8, false, true⟩
/-- COL_BUCKET.LO_CODE [3:0], R362. -/
def COL_BUCKET_LO_CODE : Field := ⟨7, 140, 0, 4, .rs, 2, false, true⟩
/-- COL_BUCKET_STATUS.STEP [31:16], R362. -/
def COL_BUCKET_STATUS_STEP : Field := ⟨7, 144, 16, 16, .ro, 0, false, false⟩
/-- COL_BUCKET_STATUS.AGREED [11:8], R362. -/
def COL_BUCKET_STATUS_AGREED : Field := ⟨7, 144, 8, 4, .ro, 0, false, false⟩
/-- COL_BUCKET_STATUS.PROPOSED [7:4], R362. -/
def COL_BUCKET_STATUS_PROPOSED : Field := ⟨7, 144, 4, 4, .ro, 0, false, false⟩
/-- COL_BUCKET_STATUS.CURRENT [3:0], R362. -/
def COL_BUCKET_STATUS_CURRENT : Field := ⟨7, 144, 0, 4, .ro, 4, false, false⟩
/-- COL_WAIT.LIMIT [15:0], R362. -/
def COL_WAIT_LIMIT : Field := ⟨7, 148, 0, 16, .rw, 0, false, false⟩
/-- COL_ACTIVE.GROUP [23:16], R362. -/
def COL_ACTIVE_GROUP : Field := ⟨7, 152, 16, 8, .ro, 0, false, false⟩
/-- COL_ACTIVE.IN_FLIGHT [15:0], R362. -/
def COL_ACTIVE_IN_FLIGHT : Field := ⟨7, 152, 0, 16, .ro, 0, false, false⟩
/-- COL_MISSING.VALID [31:31], R362. -/
def COL_MISSING_VALID : Field := ⟨7, 156, 31, 1, .ro, 0, false, false⟩
/-- COL_MISSING.RANK [15:0], R362. -/
def COL_MISSING_RANK : Field := ⟨7, 156, 0, 16, .ro, 0, false, false⟩
/-- COL_WAIT_ID.CIDX [31:16], R362. -/
def COL_WAIT_ID_CIDX : Field := ⟨7, 160, 16, 16, .ro, 0, false, false⟩
/-- COL_WAIT_ID.STEP [15:0], R362. -/
def COL_WAIT_ID_STEP : Field := ⟨7, 160, 0, 16, .ro, 0, false, false⟩
/-- COL_GRAD_DUP.COUNT [31:0], R362. -/
def COL_GRAD_DUP_COUNT : Field := ⟨7, 164, 0, 32, .ro, 0, false, true⟩
/-- SOW_PARTNER.VALID [31:31], R404. -/
def SOW_PARTNER_VALID : Field := ⟨13, 128, 31, 1, .rw, 0, false, false⟩
/-- SOW_PARTNER.DEVICE [15:0], R404. -/
def SOW_PARTNER_DEVICE : Field := ⟨13, 128, 0, 16, .rw, 0, false, false⟩
/-- SOW_PAIR_CTRL.ACK_KEY [31:16], R404. -/
def SOW_PAIR_CTRL_ACK_KEY : Field := ⟨13, 132, 16, 16, .wo, 0, false, false⟩
/-- SOW_PAIR_CTRL.GRAFT [2:2], R404. -/
def SOW_PAIR_CTRL_GRAFT : Field := ⟨13, 132, 2, 1, .wo, 0, false, false⟩
/-- SOW_PAIR_CTRL.UNPAIR [1:1], R404. -/
def SOW_PAIR_CTRL_UNPAIR : Field := ⟨13, 132, 1, 1, .wo, 0, false, false⟩
/-- SOW_PAIR_CTRL.PAIR [0:0], R404. -/
def SOW_PAIR_CTRL_PAIR : Field := ⟨13, 132, 0, 1, .wo, 0, false, false⟩
/-- SOW_PAIR_STATUS.PARTNER_FEED [23:16], R404. -/
def SOW_PAIR_STATUS_PARTNER_FEED : Field := ⟨13, 136, 16, 8, .ro, 0, false, false⟩
/-- SOW_PAIR_STATUS.OVERRIDE [8:8], R404. -/
def SOW_PAIR_STATUS_OVERRIDE : Field := ⟨13, 136, 8, 1, .ro, 0, false, false⟩
/-- SOW_PAIR_STATUS.CODE [7:4], R404. -/
def SOW_PAIR_STATUS_CODE : Field := ⟨13, 136, 4, 4, .ro, 0, false, false⟩
/-- SOW_PAIR_STATUS.STATE [3:0], R404. -/
def SOW_PAIR_STATUS_STATE : Field := ⟨13, 136, 0, 4, .ro, 0, false, false⟩
/-- SOW_FEED.VALID [9:9], R404 (reset from pins). -/
def SOW_FEED_VALID : Field := ⟨13, 140, 9, 1, .ro, 0, false, false⟩
/-- SOW_FEED.PAR [8:8], R404 (reset from pins). -/
def SOW_FEED_PAR : Field := ⟨13, 140, 8, 1, .ro, 0, false, false⟩
/-- SOW_FEED.FEED_ID [7:0], R404 (reset from pins). -/
def SOW_FEED_FEED_ID : Field := ⟨13, 140, 0, 8, .ro, 0, false, false⟩
/-- SOW_ITEM_BASE_LO.ADDR_LO [31:6], R404. -/
def SOW_ITEM_BASE_LO_ADDR_LO : Field := ⟨13, 144, 6, 26, .rl, 0, false, false⟩
/-- SOW_ITEM_BASE_HI.ADDR_HI [15:0], R404. -/
def SOW_ITEM_BASE_HI_ADDR_HI : Field := ⟨13, 148, 0, 16, .rl, 0, false, false⟩
/-- SOW_ITEM_COUNT.COUNT [16:0], R404. -/
def SOW_ITEM_COUNT_COUNT : Field := ⟨13, 152, 0, 17, .rl, 0, false, false⟩
/-- SOW_IMAGE.MIB [31:0], R404. -/
def SOW_IMAGE_MIB : Field := ⟨13, 156, 0, 32, .ro, 0, false, false⟩
/-- SOW_GSB_BASE_LO.ADDR_LO [31:6], R404. -/
def SOW_GSB_BASE_LO_ADDR_LO : Field := ⟨13, 160, 6, 26, .rl, 0, false, false⟩
/-- SOW_GSB_BASE_HI.ADDR_HI [15:0], R404. -/
def SOW_GSB_BASE_HI_ADDR_HI : Field := ⟨13, 164, 0, 16, .rl, 0, false, false⟩
/-- SOW_CFG.SEAL_GATE [0:0], R404. -/
def SOW_CFG_SEAL_GATE : Field := ⟨13, 168, 0, 1, .rl, 1, false, false⟩
/-- SOW_MIRROR_BW.CAP_MAX [31:16], R404. -/
def SOW_MIRROR_BW_CAP_MAX : Field := ⟨13, 172, 16, 16, .rs, 800, false, false⟩
/-- SOW_MIRROR_BW.CAP_MIN [15:0], R404. -/
def SOW_MIRROR_BW_CAP_MIN : Field := ⟨13, 172, 0, 16, .rs, 50, false, false⟩
/-- SOW_MIRROR_STATUS.CAP [15:0], R404. -/
def SOW_MIRROR_STATUS_CAP : Field := ⟨13, 176, 0, 16, .ro, 800, false, false⟩
/-- SOW_SEAL_STATUS.UNSEALED [17:16], R404. -/
def SOW_SEAL_STATUS_UNSEALED : Field := ⟨13, 180, 16, 2, .ro, 0, false, false⟩
/-- SOW_SEAL_STATUS.SEALED_VALID [0:0], R404. -/
def SOW_SEAL_STATUS_SEALED_VALID : Field := ⟨13, 180, 0, 1, .ro, 0, false, false⟩
/-- SOW_LAST_SEALED_LO and _HI, R404. -/
def SOW_LAST_SEALED : Field := ⟨13, 184, 0, 64, .ro, 18446744073709551615, false, false⟩
/-- SOW_LSN_LO and _HI, R404. -/
def SOW_LSN : Field := ⟨13, 192, 0, 64, .ro, 0, false, false⟩
/-- SOW_RECOVERY.UNVERIFIED [31:31], R404. -/
def SOW_RECOVERY_UNVERIFIED : Field := ⟨13, 200, 31, 1, .ro, 0, false, false⟩
/-- SOW_RECOVERY.CAUSE [11:8], R404. -/
def SOW_RECOVERY_CAUSE : Field := ⟨13, 200, 8, 4, .ro, 0, false, false⟩
/-- SOW_RECOVERY.PHASE [3:0], R404. -/
def SOW_RECOVERY_PHASE : Field := ⟨13, 200, 0, 4, .ro, 0, false, false⟩
/-- SOW_RECOVERY_CTRL.ABORT [1:1], R404. -/
def SOW_RECOVERY_CTRL_ABORT : Field := ⟨13, 204, 1, 1, .wo, 0, false, false⟩
/-- SOW_RECOVERY_CTRL.GO [0:0], R404. -/
def SOW_RECOVERY_CTRL_GO : Field := ⟨13, 204, 0, 1, .wo, 0, false, false⟩
/-- SOW_REPLAY_FROM_LO and _HI, R404. -/
def SOW_REPLAY_FROM : Field := ⟨13, 208, 0, 64, .ro, 0, false, false⟩
/-- SOW_SUSPECT_LO and _HI, R404. -/
def SOW_SUSPECT : Field := ⟨13, 216, 0, 64, .ro, 0, false, false⟩
/-- SOW_HEARTBEAT.SILENT_MS [15:0], R404. -/
def SOW_HEARTBEAT_SILENT_MS : Field := ⟨13, 224, 0, 16, .ro, 0, false, false⟩
/-- SOW_ITEM_STATUS.VALID [31:31], R404. -/
def SOW_ITEM_STATUS_VALID : Field := ⟨13, 228, 31, 1, .ro, 0, false, false⟩
/-- SOW_ITEM_STATUS.CAUSE [30:28], R404. -/
def SOW_ITEM_STATUS_CAUSE : Field := ⟨13, 228, 28, 3, .ro, 0, false, false⟩
/-- SOW_ITEM_STATUS.INDEX [16:0], R404. -/
def SOW_ITEM_STATUS_INDEX : Field := ⟨13, 228, 0, 17, .ro, 0, false, false⟩
/-- PIP_PROG_BASE_LO.ADDR_LO [31:8], R429. -/
def PIP_PROG_BASE_LO_ADDR_LO : Field := ⟨10, 128, 8, 24, .rl, 0, false, true⟩
/-- PIP_PROG_BASE_HI.ADDR_HI [15:0], R429. -/
def PIP_PROG_BASE_HI_ADDR_HI : Field := ⟨10, 132, 0, 16, .rl, 0, false, true⟩
/-- PIP_RESERVE_BASE_LO.ADDR_LO [31:5], R429. -/
def PIP_RESERVE_BASE_LO_ADDR_LO : Field := ⟨10, 136, 5, 27, .rl, 0, false, true⟩
/-- PIP_RESERVE_BASE_HI.ADDR_HI [15:0], R429. -/
def PIP_RESERVE_BASE_HI_ADDR_HI : Field := ⟨10, 140, 0, 16, .rl, 0, false, true⟩
/-- PIP_RESERVE_COUNT.COUNT [31:0], R429. -/
def PIP_RESERVE_COUNT_COUNT : Field := ⟨10, 144, 0, 32, .rl, 0, false, true⟩
/-- PIP_CACHE_CFG.VERSION [31:16], R429. -/
def PIP_CACHE_CFG_VERSION : Field := ⟨10, 148, 16, 16, .rw, 0, false, true⟩
/-- PIP_CACHE_CFG.EN [0:0], R429. -/
def PIP_CACHE_CFG_EN : Field := ⟨10, 148, 0, 1, .rl, 0, false, true⟩
/-- PIP_CACHE_CTRL.FLUSH [0:0], R429. -/
def PIP_CACHE_CTRL_FLUSH : Field := ⟨10, 152, 0, 1, .wo, 0, false, true⟩
/-- PIP_CACHE_STATUS.HEAP_MIB [31:0], R429. -/
def PIP_CACHE_STATUS_HEAP_MIB : Field := ⟨10, 156, 0, 32, .ro, 0, false, true⟩
/-- PIP_FETCH.TIMEOUT_MS [31:16], R429. -/
def PIP_FETCH_TIMEOUT_MS : Field := ⟨10, 160, 16, 16, .rw, 100, false, true⟩
/-- PIP_FETCH.RETRIES [15:8], R429. -/
def PIP_FETCH_RETRIES : Field := ⟨10, 160, 8, 8, .rw, 3, false, true⟩
/-- PIP_STATUS.QUEUED [31:16], R429. -/
def PIP_STATUS_QUEUED : Field := ⟨10, 164, 16, 16, .ro, 0, false, false⟩
/-- PIP_STATUS.BUSY [0:0], R429. -/
def PIP_STATUS_BUSY : Field := ⟨10, 164, 0, 1, .ro, 0, false, false⟩
/-- PIP_FAULT_LO.ADDR_LO [31:0], R429. -/
def PIP_FAULT_LO_ADDR_LO : Field := ⟨10, 168, 0, 32, .ro, 0, false, false⟩
/-- PIP_FAULT_HI.VALID [31:31], R429. -/
def PIP_FAULT_HI_VALID : Field := ⟨10, 172, 31, 1, .w1c, 0, false, false⟩
/-- PIP_FAULT_HI.ADDR_HI [15:0], R429. -/
def PIP_FAULT_HI_ADDR_HI : Field := ⟨10, 172, 0, 16, .ro, 0, false, false⟩
/-- MED_INFO.CONTEXTS [31:24], R449. -/
def MED_INFO_CONTEXTS : Field := ⟨9, 128, 24, 8, .ro, 64, false, false⟩
/-- MED_INFO.ENC_REV [15:0], R449 (reset from page). -/
def MED_INFO_ENC_REV : Field := ⟨9, 128, 0, 16, .ro, 0, false, false⟩
/-- MED_SESSIONS.ENC_MAX [23:16], R449. -/
def MED_SESSIONS_ENC_MAX : Field := ⟨9, 132, 16, 8, .rw, 16, false, false⟩
/-- MED_SESSIONS.ENC_OPEN [15:8], R449. -/
def MED_SESSIONS_ENC_OPEN : Field := ⟨9, 132, 8, 8, .ro, 0, false, false⟩
/-- MED_SESSIONS.PIPE_OPEN [7:0], R449. -/
def MED_SESSIONS_PIPE_OPEN : Field := ⟨9, 132, 0, 8, .ro, 0, false, false⟩
/-- MED_BUDGET.MAX_EXPANSION [15:0], R449. -/
def MED_BUDGET_MAX_EXPANSION : Field := ⟨9, 136, 0, 16, .rs, 4096, true, true⟩
/-- MED_KEYREQ.REQ [31:31], R449. -/
def MED_KEYREQ_REQ : Field := ⟨9, 140, 31, 1, .wo, 0, false, false⟩
/-- MED_KEYREQ.PEND [30:30], R449. -/
def MED_KEYREQ_PEND : Field := ⟨9, 140, 30, 1, .ro, 0, false, false⟩
/-- MED_KEYREQ.SESSION [5:0], R449. -/
def MED_KEYREQ_SESSION : Field := ⟨9, 140, 0, 6, .rw, 0, false, false⟩
/-- MED_KEYREQ_PIC.PIC [31:0], R449. -/
def MED_KEYREQ_PIC_PIC : Field := ⟨9, 144, 0, 32, .ro, 0, false, false⟩
/-- MED_STATUS.QUEUED [23:16], R449. -/
def MED_STATUS_QUEUED : Field := ⟨9, 148, 16, 8, .ro, 0, false, false⟩
/-- MED_STATUS.ENC_BUSY [1:1], R449. -/
def MED_STATUS_ENC_BUSY : Field := ⟨9, 148, 1, 1, .ro, 0, false, false⟩
/-- MED_STATUS.DEC_BUSY [0:0], R449. -/
def MED_STATUS_DEC_BUSY : Field := ⟨9, 148, 0, 1, .ro, 0, false, false⟩
/-- MED_FAULT_LO.ADDR_LO [31:0], R449. -/
def MED_FAULT_LO_ADDR_LO : Field := ⟨9, 152, 0, 32, .ro, 0, false, false⟩
/-- MED_FAULT_HI.VALID [31:31], R449. -/
def MED_FAULT_HI_VALID : Field := ⟨9, 156, 31, 1, .w1c, 0, false, false⟩
/-- MED_FAULT_HI.ADDR_HI [15:0], R449. -/
def MED_FAULT_HI_ADDR_HI : Field := ⟨9, 156, 0, 16, .ro, 0, false, false⟩
/-- MED_SESS_SEL.SESSION [5:0], R449. -/
def MED_SESS_SEL_SESSION : Field := ⟨9, 160, 0, 6, .rw, 0, false, false⟩
/-- MED_SESS_STATUS.KIND [31:30], R449. -/
def MED_SESS_STATUS_KIND : Field := ⟨9, 164, 30, 2, .ro, 0, false, false⟩
/-- MED_SESS_STATUS.PICS [23:0], R449. -/
def MED_SESS_STATUS_PICS : Field := ⟨9, 164, 0, 24, .ro, 0, false, false⟩
/-- MED_SESS_QP.QP [7:0], R449. -/
def MED_SESS_QP_QP : Field := ⟨9, 168, 0, 8, .ro, 0, false, false⟩
/-- PWR_INPUT.VIN [31:16], R479. -/
def PWR_INPUT_VIN : Field := ⟨15, 128, 16, 16, .ro, 0, false, false⟩
/-- PWR_INPUT.IIN [15:0], R479. -/
def PWR_INPUT_IIN : Field := ⟨15, 128, 0, 16, .ro, 0, false, false⟩
/-- PWR_POWER.P_1S [31:16], R479. -/
def PWR_POWER_P_1S : Field := ⟨15, 132, 16, 16, .ro, 0, false, false⟩
/-- PWR_POWER.P_1MS [15:0], R479. -/
def PWR_POWER_P_1MS : Field := ⟨15, 132, 0, 16, .ro, 0, false, false⟩
/-- PWR_CAP.CAP_W [10:0], R479. -/
def PWR_CAP_CAP_W : Field := ⟨15, 136, 0, 11, .rs, 1800, false, false⟩
/-- PWR_CLK_BOUNDS.DIV_MIN [2:0], R479. -/
def PWR_CLK_BOUNDS_DIV_MIN : Field := ⟨15, 140, 0, 3, .rs, 4, false, false⟩
/-- PWR_CLK_STATUS.LAGGING [31:16], R479. -/
def PWR_CLK_STATUS_LAGGING : Field := ⟨15, 144, 16, 16, .ro, 0, false, false⟩
/-- PWR_CLK_STATUS.TARGET [10:8], R479. -/
def PWR_CLK_STATUS_TARGET : Field := ⟨15, 144, 8, 3, .ro, 4, false, false⟩
/-- PWR_CLK_STATUS.FORCED [0:0], R479. -/
def PWR_CLK_STATUS_FORCED : Field := ⟨15, 144, 0, 1, .ro, 0, false, false⟩
/-- PWR_TEMP.CD0 [31:24], R479. -/
def PWR_TEMP_CD0 : Field := ⟨15, 148, 24, 8, .ro, 0, false, false⟩
/-- PWR_TEMP.CD1 [23:16], R479. -/
def PWR_TEMP_CD1 : Field := ⟨15, 148, 16, 8, .ro, 0, false, false⟩
/-- PWR_TEMP.IOD [15:8], R479. -/
def PWR_TEMP_IOD : Field := ⟨15, 148, 8, 8, .ro, 0, false, false⟩
/-- PWR_TEMP.STK [7:0], R479. -/
def PWR_TEMP_STK : Field := ⟨15, 148, 0, 8, .ro, 0, false, false⟩
/-- PWR_RAILS.PGOOD [8:0], R479. -/
def PWR_RAILS_PGOOD : Field := ⟨15, 152, 0, 9, .ro, 511, false, false⟩
/-- PWR_RESET_CAUSE.TYPE [7:4], R479. -/
def PWR_RESET_CAUSE_TYPE : Field := ⟨15, 156, 4, 4, .ro, 0, false, false⟩
/-- PWR_RESET_CAUSE.CAUSE [3:0], R479. -/
def PWR_RESET_CAUSE_CAUSE : Field := ⟨15, 156, 0, 4, .ro, 0, false, false⟩
/-- PWR_RESET_CTRL.KEY [31:16], R479. -/
def PWR_RESET_CTRL_KEY : Field := ⟨15, 160, 16, 16, .wo, 0, false, false⟩
/-- PWR_RESET_CTRL.COLD [0:0], R479. -/
def PWR_RESET_CTRL_COLD : Field := ⟨15, 160, 0, 1, .wo, 0, false, false⟩
/-- PWR_MC.RESETS_600S [31:24], R479. -/
def PWR_MC_RESETS_600S : Field := ⟨15, 164, 24, 8, .ro, 0, false, false⟩
/-- PWR_MC.WDT_MS [15:0], R479. -/
def PWR_MC_WDT_MS : Field := ⟨15, 164, 0, 16, .ro, 0, false, false⟩
/-- PWR_FW_STATUS.VERIFY_FAIL [27:24], R479. -/
def PWR_FW_STATUS_VERIFY_FAIL : Field := ⟨15, 168, 24, 4, .ro, 0, false, false⟩
/-- PWR_FW_STATUS.BANK [19:16], R479. -/
def PWR_FW_STATUS_BANK : Field := ⟨15, 168, 16, 4, .ro, 0, false, false⟩
/-- PWR_FW_STATUS.MANIFEST_BANK [8:8], R479. -/
def PWR_FW_STATUS_MANIFEST_BANK : Field := ⟨15, 168, 8, 1, .ro, 0, false, false⟩
/-- PWR_FW_STATUS.MANIFEST_VALID [7:7], R479. -/
def PWR_FW_STATUS_MANIFEST_VALID : Field := ⟨15, 168, 7, 1, .ro, 0, false, false⟩
/-- PWR_FW_STATUS.SKIPPED [6:6], R479. -/
def PWR_FW_STATUS_SKIPPED : Field := ⟨15, 168, 6, 1, .ro, 0, false, false⟩
/-- PWR_FW_STATUS.BOOT [3:0], R479. -/
def PWR_FW_STATUS_BOOT : Field := ⟨15, 168, 0, 4, .ro, 0, false, false⟩
/-- PWR_BOOT_SEL.PREFER [3:0], R479 (reset from flash). -/
def PWR_BOOT_SEL_PREFER : Field := ⟨15, 172, 0, 4, .ro, 0, false, false⟩
/-- PWR_FW_IFACE_LO.CMC [31:16], R479. -/
def PWR_FW_IFACE_LO_CMC : Field := ⟨15, 192, 16, 16, .ro, 0, false, false⟩
/-- PWR_FW_IFACE_LO.MCF [15:0], R479. -/
def PWR_FW_IFACE_LO_MCF : Field := ⟨15, 192, 0, 16, .ro, 0, false, false⟩
/-- PWR_FW_IFACE_HI.MEF [31:16], R479. -/
def PWR_FW_IFACE_HI_MEF : Field := ⟨15, 196, 16, 16, .ro, 0, false, false⟩
/-- PWR_FW_IFACE_HI.LKF [15:0], R479. -/
def PWR_FW_IFACE_HI_LKF : Field := ⟨15, 196, 0, 16, .ro, 0, false, false⟩
/-- PWR_FW_RESULT_REV.MEF [31:16], R479. -/
def PWR_FW_RESULT_REV_MEF : Field := ⟨15, 200, 16, 16, .ro, 0, false, false⟩
/-- PWR_FW_RESULT_REV.CMC [15:0], R479. -/
def PWR_FW_RESULT_REV_CMC : Field := ⟨15, 200, 0, 16, .ro, 0, false, false⟩
/-- PWR_UPD_SRC_LO.ADDR_LO [31:6], R479. -/
def PWR_UPD_SRC_LO_ADDR_LO : Field := ⟨15, 208, 6, 26, .rw, 0, false, false⟩
/-- PWR_UPD_SRC_HI.ADDR_HI [15:0], R479. -/
def PWR_UPD_SRC_HI_ADDR_HI : Field := ⟨15, 212, 0, 16, .rw, 0, false, false⟩
/-- PWR_UPD_LEN.BYTES [31:0], R479. -/
def PWR_UPD_LEN_BYTES : Field := ⟨15, 216, 0, 32, .rw, 0, false, false⟩
/-- PWR_UPD_CTRL.TYPE [6:4], R479. -/
def PWR_UPD_CTRL_TYPE : Field := ⟨15, 220, 4, 3, .rw, 0, false, false⟩
/-- PWR_UPD_CTRL.SELECT [2:2], R479. -/
def PWR_UPD_CTRL_SELECT : Field := ⟨15, 220, 2, 1, .rw, 0, false, false⟩
/-- PWR_UPD_CTRL.ACTIVATE [1:1], R479. -/
def PWR_UPD_CTRL_ACTIVATE : Field := ⟨15, 220, 1, 1, .wo, 0, false, false⟩
/-- PWR_UPD_CTRL.WRITE [0:0], R479. -/
def PWR_UPD_CTRL_WRITE : Field := ⟨15, 220, 0, 1, .wo, 0, false, false⟩
/-- PWR_UPD_STATUS.PROGRESS [23:16], R479. -/
def PWR_UPD_STATUS_PROGRESS : Field := ⟨15, 224, 16, 8, .ro, 0, false, false⟩
/-- PWR_UPD_STATUS.CODE [3:0], R479. -/
def PWR_UPD_STATUS_CODE : Field := ⟨15, 224, 0, 4, .ro, 0, false, false⟩
/-- RAS_SUMMARY.CLASSES [16:0], R497. -/
def RAS_SUMMARY_CLASSES : Field := ⟨16, 128, 0, 17, .ro, 0, false, false⟩
/-- RAS_FIRST_LO.ENTRY [31:0], R497. -/
def RAS_FIRST_LO_ENTRY : Field := ⟨16, 132, 0, 32, .ro, 0, false, false⟩
/-- RAS_FIRST_HI.CLEAR [31:31], R497. -/
def RAS_FIRST_HI_CLEAR : Field := ⟨16, 136, 31, 1, .wo, 0, false, false⟩
/-- RAS_FIRST_HI.STEP [30:0], R497. -/
def RAS_FIRST_HI_STEP : Field := ⟨16, 136, 0, 31, .ro, 0, false, false⟩
/-- RAS_REPLACE.FIRST [31:24], R497. -/
def RAS_REPLACE_FIRST : Field := ⟨16, 140, 24, 8, .ro, 0, false, false⟩
/-- RAS_REPLACE.REASONS [6:1], R497. -/
def RAS_REPLACE_REASONS : Field := ⟨16, 140, 1, 6, .ro, 0, false, false⟩
/-- RAS_DEGRADE.PORTS_LOST [31:24], R497. -/
def RAS_DEGRADE_PORTS_LOST : Field := ⟨16, 144, 24, 8, .ro, 0, false, false⟩
/-- RAS_DEGRADE.CHANNELS [23:16], R497. -/
def RAS_DEGRADE_CHANNELS : Field := ⟨16, 144, 16, 8, .ro, 0, false, false⟩
/-- RAS_DEGRADE.UNMAPPED [10:0], R497. -/
def RAS_DEGRADE_UNMAPPED : Field := ⟨16, 144, 0, 11, .ro, 0, false, false⟩
/-- RAS_LOG_STATUS.COUNT [22:16], R497. -/
def RAS_LOG_STATUS_COUNT : Field := ⟨16, 148, 16, 7, .ro, 0, false, false⟩
/-- RAS_LOG_STATUS.DROPPED [15:0], R497. -/
def RAS_LOG_STATUS_DROPPED : Field := ⟨16, 148, 0, 16, .ro, 0, false, false⟩
/-- RAS_LOG_CTRL.CLEAR_DROPPED [1:1], R497. -/
def RAS_LOG_CTRL_CLEAR_DROPPED : Field := ⟨16, 152, 1, 1, .wo, 0, false, false⟩
/-- RAS_LOG_CTRL.POP [0:0], R497. -/
def RAS_LOG_CTRL_POP : Field := ⟨16, 152, 0, 1, .wo, 0, false, false⟩
/-- TRL_FUSE.FUSE_POLICY [31:31], R499 (reset from fuse). -/
def TRL_FUSE_FUSE_POLICY : Field := ⟨1, 128, 31, 1, .ro, 0, false, false⟩
/-- TRL_FUSE.SPARES_FUSED [23:16], R499 (reset from fuse). -/
def TRL_FUSE_SPARES_FUSED : Field := ⟨1, 128, 16, 8, .ro, 0, false, false⟩
/-- TRL_FUSE.DISABLED [10:0], R499 (reset from fuse). -/
def TRL_FUSE_DISABLED : Field := ⟨1, 128, 0, 11, .ro, 0, false, false⟩
/-- TRL_CELLS.RETIRED [26:16], R499 (reset from flash). -/
def TRL_CELLS_RETIRED : Field := ⟨1, 132, 16, 11, .ro, 0, false, false⟩
/-- TRL_CELLS.UNMAPPED [10:0], R499 (reset from flash). -/
def TRL_CELLS_UNMAPPED : Field := ⟨1, 132, 0, 11, .ro, 0, false, false⟩
/-- TRL_MAP_SEL.LOGICAL [9:0], R499. -/
def TRL_MAP_SEL_LOGICAL : Field := ⟨1, 136, 0, 10, .rw, 0, false, false⟩
/-- TRL_MAP.MAPPED [31:31], R499. -/
def TRL_MAP_MAPPED : Field := ⟨1, 140, 31, 1, .ro, 0, false, false⟩
/-- TRL_MAP.CLOCHED [30:30], R499. -/
def TRL_MAP_CLOCHED : Field := ⟨1, 140, 30, 1, .ro, 0, false, false⟩
/-- TRL_MAP.PHYSICAL [26:16], R499. -/
def TRL_MAP_PHYSICAL : Field := ⟨1, 140, 16, 11, .ro, 0, false, false⟩
/-- TRL_MAP.PLOT [5:0], R499. -/
def TRL_MAP_PLOT : Field := ⟨1, 140, 0, 6, .ro, 0, false, false⟩
/-- TRL_TEST.VALID [31:31], R499. -/
def TRL_TEST_VALID : Field := ⟨1, 144, 31, 1, .ro, 0, false, false⟩
/-- TRL_TEST.RESULT [29:28], R499. -/
def TRL_TEST_RESULT : Field := ⟨1, 144, 28, 2, .ro, 0, false, false⟩
/-- TRL_TEST.UNIT [27:24], R499. -/
def TRL_TEST_UNIT : Field := ⟨1, 144, 24, 4, .ro, 0, false, false⟩
/-- TRL_TEST.PHYSICAL [10:0], R499. -/
def TRL_TEST_PHYSICAL : Field := ⟨1, 144, 0, 11, .ro, 0, false, false⟩
/-- TRL_GRAFT.NEW [31:21], R499. -/
def TRL_GRAFT_NEW : Field := ⟨1, 148, 21, 11, .ro, 0, false, false⟩
/-- TRL_GRAFT.OLD [20:10], R499. -/
def TRL_GRAFT_OLD : Field := ⟨1, 148, 10, 11, .ro, 0, false, false⟩
/-- TRL_GRAFT.LOGICAL [9:0], R499. -/
def TRL_GRAFT_LOGICAL : Field := ⟨1, 148, 0, 10, .ro, 0, false, false⟩
/-- TRL_CELL_POLICY.FAULT_WINDOW_H [15:8], R499. -/
def TRL_CELL_POLICY_FAULT_WINDOW_H : Field := ⟨1, 152, 8, 8, .rs, 24, false, false⟩
/-- TRL_CELL_POLICY.FAULT_LIM [7:0], R499. -/
def TRL_CELL_POLICY_FAULT_LIM : Field := ⟨1, 152, 0, 8, .rs, 3, false, false⟩
/-- SEC_LMS_STATE.Q [20:0], R515 (reset from flash). -/
def SEC_LMS_STATE_Q : Field := ⟨14, 176, 0, 21, .ro, 0, false, false⟩
/-- SEC_LMS_FUSE.BLOCKS [10:0], R515 (reset from fuse). -/
def SEC_LMS_FUSE_BLOCKS : Field := ⟨14, 180, 0, 11, .ro, 0, false, false⟩
/-- SEC_DST_LO.ADDR_LO [31:6], R515. -/
def SEC_DST_LO_ADDR_LO : Field := ⟨14, 232, 6, 26, .rw, 0, false, false⟩
/-- SEC_DST_HI.ADDR_HI [15:0], R515. -/
def SEC_DST_HI_ADDR_HI : Field := ⟨14, 236, 0, 16, .rw, 0, false, false⟩
/-- SEC_CMD.OP [1:0], R515. -/
def SEC_CMD_OP : Field := ⟨14, 240, 0, 2, .wo, 0, false, false⟩
/-- SEC_CMD_STAT.TOKENS [19:16], R515. -/
def SEC_CMD_STAT_TOKENS : Field := ⟨14, 244, 16, 4, .ro, 8, false, false⟩
/-- SEC_CMD_STAT.CODE [3:0], R515. -/
def SEC_CMD_STAT_CODE : Field := ⟨14, 244, 0, 4, .ro, 0, false, false⟩
/-- SEC_TRUST_CTRL.CLEAR [2:2], R515. -/
def SEC_TRUST_CTRL_CLEAR : Field := ⟨14, 248, 2, 1, .wo, 0, false, false⟩
/-- SEC_TRUST_CTRL.PEER_ATTEST [1:1], R515. -/
def SEC_TRUST_CTRL_PEER_ATTEST : Field := ⟨14, 248, 1, 1, .rw, 1, false, false⟩
/-- SEC_TRUST_CTRL.ENROLL [0:0], R515. -/
def SEC_TRUST_CTRL_ENROLL : Field := ⟨14, 248, 0, 1, .rl, 0, false, false⟩
/-- SEC_AUTH_DEV.DEVICE [15:0], R515. -/
def SEC_AUTH_DEV_DEVICE : Field := ⟨14, 252, 0, 16, .rw, 0, false, false⟩
/-- SEC_AUTH_CTRL.REVOKE [1:1], R515. -/
def SEC_AUTH_CTRL_REVOKE : Field := ⟨14, 304, 1, 1, .wo, 0, false, false⟩
/-- SEC_AUTH_CTRL.AUTHORISE [0:0], R515. -/
def SEC_AUTH_CTRL_AUTHORISE : Field := ⟨14, 304, 0, 1, .wo, 0, false, false⟩
/-- SEC_AUTH_STATUS.DEVICE [31:16], R515. -/
def SEC_AUTH_STATUS_DEVICE : Field := ⟨14, 308, 16, 16, .ro, 0, false, false⟩
/-- SEC_AUTH_STATUS.CODE [3:0], R515. -/
def SEC_AUTH_STATUS_CODE : Field := ⟨14, 308, 0, 4, .ro, 0, false, false⟩
/-- SEC_MISMATCH.VALID [31:31], R515. -/
def SEC_MISMATCH_VALID : Field := ⟨14, 312, 31, 1, .w1c, 0, false, false⟩
/-- SEC_MISMATCH.SOURCE [30:29], R515. -/
def SEC_MISMATCH_SOURCE : Field := ⟨14, 312, 29, 2, .ro, 0, false, false⟩
/-- SEC_MISMATCH.PORT [20:16], R515. -/
def SEC_MISMATCH_PORT : Field := ⟨14, 312, 16, 5, .ro, 0, false, false⟩
/-- SEC_MISMATCH.DEVICE [15:0], R515. -/
def SEC_MISMATCH_DEVICE : Field := ⟨14, 312, 0, 16, .ro, 0, false, false⟩
/-- SEC_SVN_CTRL.COMMIT [3:3], R515. -/
def SEC_SVN_CTRL_COMMIT : Field := ⟨14, 316, 3, 1, .wo, 0, false, false⟩
/-- SEC_SVN_CTRL.TYPE [2:0], R515. -/
def SEC_SVN_CTRL_TYPE : Field := ⟨14, 316, 0, 3, .rw, 0, false, false⟩
/-- SEC_SVN_STATUS.CODE [3:0], R515. -/
def SEC_SVN_STATUS_CODE : Field := ⟨14, 320, 0, 4, .ro, 0, false, false⟩
/-- SEC_SVN_FLOOR_LO.MEF [31:24], R515 (reset from fuse). -/
def SEC_SVN_FLOOR_LO_MEF : Field := ⟨14, 324, 24, 8, .ro, 0, false, false⟩
/-- SEC_SVN_FLOOR_LO.LKF [23:16], R515 (reset from fuse). -/
def SEC_SVN_FLOOR_LO_LKF : Field := ⟨14, 324, 16, 8, .ro, 0, false, false⟩
/-- SEC_SVN_FLOOR_LO.CMC [15:8], R515 (reset from fuse). -/
def SEC_SVN_FLOOR_LO_CMC : Field := ⟨14, 324, 8, 8, .ro, 0, false, false⟩
/-- SEC_SVN_FLOOR_LO.MCF [7:0], R515 (reset from fuse). -/
def SEC_SVN_FLOOR_LO_MCF : Field := ⟨14, 324, 0, 8, .ro, 0, false, false⟩
/-- SEC_SVN_FLOOR_HI.MANIFEST [7:0], R515 (reset from fuse). -/
def SEC_SVN_FLOOR_HI_MANIFEST : Field := ⟨14, 328, 0, 8, .ro, 0, false, false⟩
/-- PCI_LINK.UP [10:10], R533. -/
def PCI_LINK_UP : Field := ⟨8, 128, 10, 1, .ro, 0, false, false⟩
/-- PCI_LINK.WIDTH [9:4], R533. -/
def PCI_LINK_WIDTH : Field := ⟨8, 128, 4, 6, .ro, 0, false, false⟩
/-- PCI_LINK.SPEED [3:0], R533. -/
def PCI_LINK_SPEED : Field := ⟨8, 128, 0, 4, .ro, 0, false, false⟩
/-- PCI_BAR2.SIZE [3:0], R533. -/
def PCI_BAR2_SIZE : Field := ⟨8, 132, 0, 4, .ro, 0, false, false⟩
/-- PCI_BAR2_BASE.GIB [8:0], R533. -/
def PCI_BAR2_BASE_GIB : Field := ⟨8, 136, 0, 9, .rl, 0, false, false⟩
/-- PCI_OWN_TIMEOUT.SECONDS [15:0], R533. -/
def PCI_OWN_TIMEOUT_SECONDS : Field := ⟨8, 140, 0, 16, .rw, 0, false, true⟩
/-- PCI_RING_SEL.RING [7:0], R533. -/
def PCI_RING_SEL_RING : Field := ⟨8, 144, 0, 8, .rw, 0, false, false⟩
/-- PCI_RING_CFG.IRQ_EN [9:9], R533. -/
def PCI_RING_CFG_IRQ_EN : Field := ⟨8, 148, 9, 1, .rw, 0, false, false⟩
/-- PCI_RING_CFG.LOG2 [8:4], R533. -/
def PCI_RING_CFG_LOG2 : Field := ⟨8, 148, 4, 5, .rw, 4, false, false⟩
/-- PCI_RING_CFG.KIND [3:1], R533. -/
def PCI_RING_CFG_KIND : Field := ⟨8, 148, 1, 3, .rw, 0, false, false⟩
/-- PCI_RING_CFG.EN [0:0], R533. -/
def PCI_RING_CFG_EN : Field := ⟨8, 148, 0, 1, .rw, 0, false, false⟩
/-- PCI_SQ_BASE_LO.ADDR [31:0], R533. -/
def PCI_SQ_BASE_LO_ADDR : Field := ⟨8, 152, 0, 32, .rw, 0, false, false⟩
/-- PCI_SQ_BASE_HI.ADDR [31:0], R533. -/
def PCI_SQ_BASE_HI_ADDR : Field := ⟨8, 156, 0, 32, .rw, 0, false, false⟩
/-- PCI_CQ_BASE_LO.ADDR [31:0], R533. -/
def PCI_CQ_BASE_LO_ADDR : Field := ⟨8, 160, 0, 32, .rw, 0, false, false⟩
/-- PCI_CQ_BASE_HI.ADDR [31:0], R533. -/
def PCI_CQ_BASE_HI_ADDR : Field := ⟨8, 164, 0, 32, .rw, 0, false, false⟩
/-- PCI_RING_STATUS.FAULT [31:31], R533. -/
def PCI_RING_STATUS_FAULT : Field := ⟨8, 168, 31, 1, .ro, 0, false, false⟩
/-- PCI_RING_STATUS.HEAD [15:0], R533. -/
def PCI_RING_STATUS_HEAD : Field := ⟨8, 168, 0, 16, .ro, 0, false, false⟩
/-- PCI_JOB_NEXT_LO and _HI, R533. -/
def PCI_JOB_NEXT : Field := ⟨8, 176, 0, 64, .ro, 0, false, true⟩
/-- GLB_DEV_FEATURES_0 to _7, R68. -/
def GLB_DEV_FEATURES (k : Nat) : Field := ⟨0, 160 + 4 * k, 0, 32, .ro, 0, false, false⟩
/-- GLB_DRV_FEATURES_0 to _7, R68. -/
def GLB_DRV_FEATURES (k : Nat) : Field := ⟨0, 192 + 4 * k, 0, 32, .rl, 0, false, false⟩
/-- GLB_FEATURES_ACTIVE_0 to _7, R68. -/
def GLB_FEATURES_ACTIVE (k : Nat) : Field := ⟨0, 224 + 4 * k, 0, 32, .ro, 0, false, false⟩
/-- GLB_DEV_MANDATORY_0 to _7, R68. -/
def GLB_DEV_MANDATORY (k : Nat) : Field := ⟨0, 256 + 4 * k, 0, 32, .ro, 0, false, false⟩
/-- GLB_DEV_STABLE_0 to _7, R68. -/
def GLB_DEV_STABLE (k : Nat) : Field := ⟨0, 288 + 4 * k, 0, 32, .ro, 0, false, false⟩
/-- PLT_MEMBER_0 to _31, R118. -/
def PLT_MEMBER (k : Nat) : Field := ⟨3, 192 + 4 * k, 0, 32, .rs, 0, true, false⟩
/-- FLW_DATA_0 to _15, R360. -/
def FLW_DATA (k : Nat) : Field := ⟨6, 192 + 4 * k, 0, 32, .rw, 0, false, false⟩
/-- PWR_FW_BUILD_0 to _3, R479. -/
def PWR_FW_BUILD (k : Nat) : Field := ⟨15, 176 + 4 * k, 0, 32, .ro, 0, false, false⟩
/-- RAS_LOG_0 to _3, R497. -/
def RAS_LOG (k : Nat) : Field := ⟨16, 160 + 4 * k, 0, 32, .ro, 0, false, false⟩
/-- SEC_FP_SELF_0 to _11, R515. -/
def SEC_FP_SELF (k : Nat) : Field := ⟨14, 128 + 4 * k, 0, 32, .ro, 0, false, false⟩
/-- SEC_NONCE_0 to _11, R515. -/
def SEC_NONCE (k : Nat) : Field := ⟨14, 184 + 4 * k, 0, 32, .rw, 0, false, false⟩
/-- SEC_AUTH_FP_0 to _11, R515. -/
def SEC_AUTH_FP (k : Nat) : Field := ⟨14, 256 + 4 * k, 0, 32, .rw, 0, false, false⟩

/-- The common page header and the counters (R42, R43). -/
def headerFields (c : Nat) : List Field :=
  [BLK_ID_CLASS c, BLK_ID_INSTANCE c, BLK_ID_LAYOUT c, BLK_REV_FW_IFACE c, BLK_REV_MAJOR c, BLK_REV_MINOR c, BLK_FEAT_OFFER_LO_OFFER c, BLK_FEAT_OFFER_HI_OFFER c, BLK_FEAT_ON_LO_ON c, BLK_FEAT_ON_HI_ON c, BLK_CTRL_POLICY_HOLD c, BLK_CTRL_SOFT_RESET c, BLK_CTRL_CLOCHE_REQ c, BLK_CTRL_QUIESCE_REQ c, BLK_CTRL_ENABLE c, BLK_STATE_SEQ c, BLK_STATE_STATE c, BLK_ERR_MASK_MASK c, BLK_IRQ_EN_EN c, BLK_STAGE_SEQ_VIEW_SHADOW c, BLK_STAGE_SEQ_DIRTY c, BLK_STAGE_SEQ_NEXT_SEQ c, BLK_COMMIT_ABORT c, BLK_COMMIT_GROUP c, BLK_COMMIT_SEQ c, BLK_COMMIT_STAT_STATE c, BLK_COMMIT_STAT_LAST_SEQ c, BLK_HEALTH_REASON c, BLK_HEALTH_REPLACE_REQ c, BLK_HEALTH_WEAR c, BLK_HEALTH_GRADE c, BLK_ERR c, BLK_IRQ_PEND c]
    ++ (List.range 8).map (COUNTER c)

/-- The block-specific fields of the GLB page. -/
def fieldsGLB : List Field :=
  [GLB_DEV_INFO_SPARES_LEFT, GLB_DEV_INFO_LOGICAL_CELLS, GLB_DEV_INFO_GRADE, GLB_DEV_NUM_VALID, GLB_DEV_NUM_DEV_NUM, GLB_OWNER_OWNER, GLB_NEG_CTRL_GO, GLB_NEG_STATUS_COMBO_UNTESTED, GLB_NEG_STATUS_BAD_BIT, GLB_NEG_STATUS_CODE, GLB_GROUP_COMMIT_ABORT, GLB_GROUP_COMMIT_SEQ, GLB_GROUP_STAT_MEMBERS, GLB_GROUP_STAT_STATE, GLB_GROUP_STAT_NEXT_SEQ, GLB_BAD_ACCESS_VALID, GLB_BAD_ACCESS_NO_PAGE, GLB_BAD_ACCESS_WIDTH, GLB_BAD_ACCESS_WRITE, GLB_BAD_ACCESS_OFFSET]
    ++ [GLB_STEP, GLB_JOB_CTRL_END, GLB_JOB_CTRL_START, GLB_JOB_STATUS_REFUSE, GLB_JOB_STATUS_ACTIVE]
    ++ (List.range 8).map GLB_DEV_FEATURES
    ++ (List.range 8).map GLB_DRV_FEATURES
    ++ (List.range 8).map GLB_FEATURES_ACTIVE
    ++ (List.range 8).map GLB_DEV_MANDATORY
    ++ (List.range 8).map GLB_DEV_STABLE

/-- The block-specific fields of the TRL page. -/
def fieldsTRL : List Field :=
  [TRL_FUSE_FUSE_POLICY, TRL_FUSE_SPARES_FUSED, TRL_FUSE_DISABLED, TRL_CELLS_RETIRED, TRL_CELLS_UNMAPPED, TRL_MAP_SEL_LOGICAL, TRL_MAP_MAPPED, TRL_MAP_CLOCHED, TRL_MAP_PHYSICAL, TRL_MAP_PLOT, TRL_TEST_VALID, TRL_TEST_RESULT, TRL_TEST_UNIT, TRL_TEST_PHYSICAL, TRL_GRAFT_NEW, TRL_GRAFT_OLD, TRL_GRAFT_LOGICAL, TRL_CELL_POLICY_FAULT_WINDOW_H, TRL_CELL_POLICY_FAULT_LIM]

/-- The block-specific fields of the CEL page. -/
def fieldsCEL : List Field :=
  [CEL_MAP_DESIG, CEL_MAP_MAPPED, CEL_MAP_LOGICAL, CEL_MAP_PLOT, CEL_SEQ_STATUS_TRAP_CAUSE, CEL_SEQ_STATUS_RUN, CEL_SEQ_STATUS_PC, CEL_TRAP_ADDR_ADDR, CEL_DMA_FAULT_LO_ADDR_LO, CEL_DMA_FAULT_HI_VALID, CEL_DMA_FAULT_HI_CHANNEL, CEL_DMA_FAULT_HI_ADDR_HI, CEL_STREAM_CFG_SCALE_AHEAD, CEL_STREAM_CFG_DMA_SHARE, CEL_ARRAY_CFG_ZERO_SKIP, CEL_ARRAY_CFG_T3_MODE, CEL_REPAIR_COL1_V, CEL_REPAIR_COL1, CEL_REPAIR_COL0_V, CEL_REPAIR_COL0]
    ++ [CEL_REPAIR_ROW1_V, CEL_REPAIR_ROW1, CEL_REPAIR_ROW0_V, CEL_REPAIR_ROW0, CEL_SPARE_POLICY_POLICY, CEL_ARRAY_STATUS_DIVIDER, CEL_ARRAY_STATUS_NEXT_TAG, CEL_ARRAY_STATUS_IN_FLIGHT, CEL_TILE_TILE, CEL_TILE_STATUS_HOLDING]

/-- The block-specific fields of the PLT page. -/
def fieldsPLT : List Field :=
  [PLT_BOUNDS_MAX_CELLS, PLT_BOUNDS_MIN_CELLS, PLT_REBAL_EN, PLT_REBAL_MAX_DELTA, PLT_STATUS_ACTIVE, PLT_STATUS_CLOCHED, PLT_STATUS_CELLS, PLT_BUSY_BUSY, PLT_LAST_REBAL_STEP, PLT_LAST_REBAL_DELTA]
    ++ (List.range 32).map PLT_MEMBER

/-- The block-specific fields of the MEM page. -/
def fieldsMEM : List Field :=
  [MEM_INFO_CHANNELS, MEM_INFO_LAYERS, MEM_INFO_CAP_GIB, MEM_MAP_INTERLEAVE, MEM_REGIONS_MIRROR_GIB, MEM_REGIONS_CACHE_GIB, MEM_MIRROR_BASE_BASE, MEM_CACHE_BASE_BASE, MEM_SPILL_BASE_LO_ADDR_LO, MEM_SPILL_BASE_HI_ADDR_HI, MEM_SPILL_SIZE_MIB, MEM_SCRUB_BOUNDS_MAX_PERIOD, MEM_SCRUB_BOUNDS_MIN_PERIOD, MEM_SCRUB_THRESH_CE_HI, MEM_SCRUB_THRESH_CE_LO, MEM_SCRUB_STATUS_PERIOD, MEM_SCRUB_STATUS_PROGRESS, MEM_RETIRE_CFG_CE_ROW_LIM, MEM_SPARE_USED, MEM_UNSPARED_ROWS]
    ++ [MEM_CHAN_CTRL_RECAL, MEM_CHAN_CTRL_CHANNEL, MEM_CHAN_STATUS_FAULT, MEM_CHAN_STATUS_RECAL_BUSY, MEM_UE_LO_ADDR_LO, MEM_UE_HI_VALID, MEM_UE_HI_REGION, MEM_UE_HI_SOURCE, MEM_UE_HI_ADDR_HI, MEM_STAGE_STATUS_SPILL_MIB, MEM_STAGE_STATUS_OPEN_SETS]

/-- The block-specific fields of the LNK page. -/
def fieldsLNK : List Field :=
  [LNK_STATUS_SPARED, LNK_STATUS_FAILED_LANES, LNK_STATUS_LANES, LNK_STATUS_LSTATE, LNK_NEIGHBOUR_VALID, LNK_NEIGHBOUR_SWITCH, LNK_NEIGHBOUR_PORT, LNK_NEIGHBOUR_DEVICE, LNK_RTT_RTT, LNK_TIMERS_LINK_RTO, LNK_TIMERS_REPLAY_LIM, LNK_TRANSIT_TRANSIT_TO, LNK_TRANSIT_TRANSIT_EN, LNK_VL_BUF_LO_VL3, LNK_VL_BUF_LO_VL2, LNK_VL_BUF_LO_VL1, LNK_VL_BUF_LO_VL0, LNK_VL_BUF_HI_VL7, LNK_VL_BUF_HI_VL6, LNK_VL_BUF_HI_VL5]
    ++ [LNK_VL_BUF_HI_VL4, LNK_VL_ARB_WEIGHT, LNK_CTRL_SPARE_EN, LNK_CTRL_RETRAIN]

/-- The block-specific fields of the FLW page. -/
def fieldsFLW : List Field :=
  [FLW_INDEX_INDEX, FLW_CMD_OP, FLW_CMD_STAT_CODE, FLW_E2E_FAIL_S, FLW_E2E_E2E_RTO, FLW_RT_BASE_LO_ADDR_LO, FLW_RT_BASE_HI_ADDR_HI, FLW_RT_CMD_LOAD, FLW_RT_STATUS_CODE, FLW_SHADOW_LO_ADDR_LO, FLW_SHADOW_HI_ADDR_HI, FLW_POOL_FREE_S, FLW_POOL_FREE_N]
    ++ (List.range 16).map FLW_DATA

/-- The block-specific fields of the COL page. -/
def fieldsCOL : List Field :=
  [COL_GROUP_BASE_LO_ADDR_LO, COL_GROUP_BASE_HI_ADDR_HI, COL_GROUP_COUNT_COUNT, COL_BUCKET_LAT_FRAC, COL_BUCKET_INIT_CODE, COL_BUCKET_HI_CODE, COL_BUCKET_LO_CODE, COL_BUCKET_STATUS_STEP, COL_BUCKET_STATUS_AGREED, COL_BUCKET_STATUS_PROPOSED, COL_BUCKET_STATUS_CURRENT, COL_WAIT_LIMIT, COL_ACTIVE_GROUP, COL_ACTIVE_IN_FLIGHT, COL_MISSING_VALID, COL_MISSING_RANK, COL_WAIT_ID_CIDX, COL_WAIT_ID_STEP, COL_GRAD_DUP_COUNT]

/-- The block-specific fields of the PCI page. -/
def fieldsPCI : List Field :=
  [PCI_LINK_UP, PCI_LINK_WIDTH, PCI_LINK_SPEED, PCI_BAR2_SIZE, PCI_BAR2_BASE_GIB, PCI_OWN_TIMEOUT_SECONDS, PCI_RING_SEL_RING, PCI_RING_CFG_IRQ_EN, PCI_RING_CFG_LOG2, PCI_RING_CFG_KIND, PCI_RING_CFG_EN, PCI_SQ_BASE_LO_ADDR, PCI_SQ_BASE_HI_ADDR, PCI_CQ_BASE_LO_ADDR, PCI_CQ_BASE_HI_ADDR, PCI_RING_STATUS_FAULT, PCI_RING_STATUS_HEAD, PCI_JOB_NEXT]

/-- The block-specific fields of the MED page. -/
def fieldsMED : List Field :=
  [MED_INFO_CONTEXTS, MED_INFO_ENC_REV, MED_SESSIONS_ENC_MAX, MED_SESSIONS_ENC_OPEN, MED_SESSIONS_PIPE_OPEN, MED_BUDGET_MAX_EXPANSION, MED_KEYREQ_REQ, MED_KEYREQ_PEND, MED_KEYREQ_SESSION, MED_KEYREQ_PIC_PIC, MED_STATUS_QUEUED, MED_STATUS_ENC_BUSY, MED_STATUS_DEC_BUSY, MED_FAULT_LO_ADDR_LO, MED_FAULT_HI_VALID, MED_FAULT_HI_ADDR_HI, MED_SESS_SEL_SESSION, MED_SESS_STATUS_KIND, MED_SESS_STATUS_PICS, MED_SESS_QP_QP]

/-- The block-specific fields of the PIP page. -/
def fieldsPIP : List Field :=
  [PIP_PROG_BASE_LO_ADDR_LO, PIP_PROG_BASE_HI_ADDR_HI, PIP_RESERVE_BASE_LO_ADDR_LO, PIP_RESERVE_BASE_HI_ADDR_HI, PIP_RESERVE_COUNT_COUNT, PIP_CACHE_CFG_VERSION, PIP_CACHE_CFG_EN, PIP_CACHE_CTRL_FLUSH, PIP_CACHE_STATUS_HEAP_MIB, PIP_FETCH_TIMEOUT_MS, PIP_FETCH_RETRIES, PIP_STATUS_QUEUED, PIP_STATUS_BUSY, PIP_FAULT_LO_ADDR_LO, PIP_FAULT_HI_VALID, PIP_FAULT_HI_ADDR_HI]

/-- The block-specific fields of the THN page. -/
def fieldsTHN : List Field :=
  [THN_CFG_HOST_EN, THN_CFG_HOST_WEIGHT, THN_STATUS_HOST_DEPTH, THN_STATUS_JOB_DEPTH, THN_STATUS_SERVING_HOST, THN_STATUS_BUSY, THN_MAX_KEYS_MAX_KEYS, THN_MAX_TOPK_MAX_TOPK, THN_FAULT_LO_ADDR_LO, THN_FAULT_HI_VALID, THN_FAULT_HI_ADDR_HI]

/-- The block-specific fields of the NUM page. -/
def fieldsNUM : List Field :=
  [NUM_SST_BASE_LO_ADDR_LO, NUM_SST_BASE_HI_ADDR_HI, NUM_SST_COUNT_COUNT, NUM_RING_CFG_EN, NUM_RING_CFG_TYPE_EN, NUM_RING_CFG_LOG2_SIZE, NUM_RING_BASE_LO_ADDR_LO, NUM_RING_BASE_HI_ADDR_HI, NUM_RING_PROD_PROD, NUM_RING_CONS_CONS, NUM_RING_DROPPED_DROPPED, NUM_SIEVE_CFG_EN, NUM_SIEVE_CFG_RATE, NUM_SIEVE_CFG_INTEG_LIM, NUM_SIEVE_CFG_BORROW, NUM_SIEVE_DEFAULT_LIM_LIM, NUM_SIEVE_LAYER_LO_ADDR_LO, NUM_SIEVE_LAYER_HI_COUNT, NUM_SIEVE_LAYER_HI_ADDR_HI, NUM_SIEVE_BUF_LO_ADDR_LO]
    ++ [NUM_SIEVE_BUF_HI_ADDR_HI, NUM_SIEVE_BUF_CFG_SLOTS, NUM_SIEVE_BUF_CFG_LOG2_SLOT, NUM_VOTE_FINAL, NUM_VOTE_NONFINITE, NUM_VOTE_ORIGIN, NUM_VOTE_STEP_STEP, NUM_XREC_SEL_CLEAR, NUM_XREC_SEL_KIND, NUM_XREC_SEL_CELL, NUM_XREC_0_VALID, NUM_XREC_0_SLOT, NUM_XREC_0_COLUMN, NUM_XREC_0_PLOT, NUM_XREC_STEP_STEP, NUM_XREC_PHASE_PHASE, NUM_XREC_TILE_TILE, NUM_XREC_BLOCK_BLOCK, NUM_XREC_COUNT_COUNT]

/-- The block-specific fields of the SOW page. -/
def fieldsSOW : List Field :=
  [SOW_PARTNER_VALID, SOW_PARTNER_DEVICE, SOW_PAIR_CTRL_ACK_KEY, SOW_PAIR_CTRL_GRAFT, SOW_PAIR_CTRL_UNPAIR, SOW_PAIR_CTRL_PAIR, SOW_PAIR_STATUS_PARTNER_FEED, SOW_PAIR_STATUS_OVERRIDE, SOW_PAIR_STATUS_CODE, SOW_PAIR_STATUS_STATE, SOW_FEED_VALID, SOW_FEED_PAR, SOW_FEED_FEED_ID, SOW_ITEM_BASE_LO_ADDR_LO, SOW_ITEM_BASE_HI_ADDR_HI, SOW_ITEM_COUNT_COUNT, SOW_IMAGE_MIB, SOW_GSB_BASE_LO_ADDR_LO, SOW_GSB_BASE_HI_ADDR_HI, SOW_CFG_SEAL_GATE]
    ++ [SOW_MIRROR_BW_CAP_MAX, SOW_MIRROR_BW_CAP_MIN, SOW_MIRROR_STATUS_CAP, SOW_SEAL_STATUS_UNSEALED, SOW_SEAL_STATUS_SEALED_VALID, SOW_LAST_SEALED, SOW_LSN, SOW_RECOVERY_UNVERIFIED, SOW_RECOVERY_CAUSE, SOW_RECOVERY_PHASE, SOW_RECOVERY_CTRL_ABORT, SOW_RECOVERY_CTRL_GO, SOW_REPLAY_FROM, SOW_SUSPECT, SOW_HEARTBEAT_SILENT_MS, SOW_ITEM_STATUS_VALID, SOW_ITEM_STATUS_CAUSE, SOW_ITEM_STATUS_INDEX]

/-- The block-specific fields of the SEC page. -/
def fieldsSEC : List Field :=
  [SEC_LMS_STATE_Q, SEC_LMS_FUSE_BLOCKS, SEC_DST_LO_ADDR_LO, SEC_DST_HI_ADDR_HI, SEC_CMD_OP, SEC_CMD_STAT_TOKENS, SEC_CMD_STAT_CODE, SEC_TRUST_CTRL_CLEAR, SEC_TRUST_CTRL_PEER_ATTEST, SEC_TRUST_CTRL_ENROLL, SEC_AUTH_DEV_DEVICE, SEC_AUTH_CTRL_REVOKE, SEC_AUTH_CTRL_AUTHORISE, SEC_AUTH_STATUS_DEVICE, SEC_AUTH_STATUS_CODE, SEC_MISMATCH_VALID, SEC_MISMATCH_SOURCE, SEC_MISMATCH_PORT, SEC_MISMATCH_DEVICE, SEC_SVN_CTRL_COMMIT]
    ++ [SEC_SVN_CTRL_TYPE, SEC_SVN_STATUS_CODE, SEC_SVN_FLOOR_LO_MEF, SEC_SVN_FLOOR_LO_LKF, SEC_SVN_FLOOR_LO_CMC, SEC_SVN_FLOOR_LO_MCF, SEC_SVN_FLOOR_HI_MANIFEST]
    ++ (List.range 12).map SEC_FP_SELF
    ++ (List.range 12).map SEC_NONCE
    ++ (List.range 12).map SEC_AUTH_FP

/-- The block-specific fields of the PWR page. -/
def fieldsPWR : List Field :=
  [PWR_INPUT_VIN, PWR_INPUT_IIN, PWR_POWER_P_1S, PWR_POWER_P_1MS, PWR_CAP_CAP_W, PWR_CLK_BOUNDS_DIV_MIN, PWR_CLK_STATUS_LAGGING, PWR_CLK_STATUS_TARGET, PWR_CLK_STATUS_FORCED, PWR_TEMP_CD0, PWR_TEMP_CD1, PWR_TEMP_IOD, PWR_TEMP_STK, PWR_RAILS_PGOOD, PWR_RESET_CAUSE_TYPE, PWR_RESET_CAUSE_CAUSE, PWR_RESET_CTRL_KEY, PWR_RESET_CTRL_COLD, PWR_MC_RESETS_600S, PWR_MC_WDT_MS]
    ++ [PWR_FW_STATUS_VERIFY_FAIL, PWR_FW_STATUS_BANK, PWR_FW_STATUS_MANIFEST_BANK, PWR_FW_STATUS_MANIFEST_VALID, PWR_FW_STATUS_SKIPPED, PWR_FW_STATUS_BOOT, PWR_BOOT_SEL_PREFER, PWR_FW_IFACE_LO_CMC, PWR_FW_IFACE_LO_MCF, PWR_FW_IFACE_HI_MEF, PWR_FW_IFACE_HI_LKF, PWR_FW_RESULT_REV_MEF, PWR_FW_RESULT_REV_CMC, PWR_UPD_SRC_LO_ADDR_LO, PWR_UPD_SRC_HI_ADDR_HI, PWR_UPD_LEN_BYTES, PWR_UPD_CTRL_TYPE, PWR_UPD_CTRL_SELECT, PWR_UPD_CTRL_ACTIVATE, PWR_UPD_CTRL_WRITE]
    ++ [PWR_UPD_STATUS_PROGRESS, PWR_UPD_STATUS_CODE]
    ++ (List.range 4).map PWR_FW_BUILD

/-- The block-specific fields of the RAS page. -/
def fieldsRAS : List Field :=
  [RAS_SUMMARY_CLASSES, RAS_FIRST_LO_ENTRY, RAS_FIRST_HI_CLEAR, RAS_FIRST_HI_STEP, RAS_REPLACE_FIRST, RAS_REPLACE_REASONS, RAS_DEGRADE_PORTS_LOST, RAS_DEGRADE_CHANNELS, RAS_DEGRADE_UNMAPPED, RAS_LOG_STATUS_COUNT, RAS_LOG_STATUS_DROPPED, RAS_LOG_CTRL_CLEAR_DROPPED, RAS_LOG_CTRL_POP]
    ++ (List.range 4).map RAS_LOG

/-- Every field of a page of class `c`. -/
def fieldsOf (c : Nat) : List Field :=
  headerFields c ++ (match c with
    | 0 => fieldsGLB
    | 1 => fieldsTRL
    | 2 => fieldsCEL
    | 3 => fieldsPLT
    | 4 => fieldsMEM
    | 5 => fieldsLNK
    | 6 => fieldsFLW
    | 7 => fieldsCOL
    | 8 => fieldsPCI
    | 9 => fieldsMED
    | 10 => fieldsPIP
    | 11 => fieldsTHN
    | 12 => fieldsNUM
    | 13 => fieldsSOW
    | 14 => fieldsSEC
    | 15 => fieldsPWR
    | 16 => fieldsRAS
    | _ => [])

end Sys2Proof.Machine.R
end

