-- ==== Sys2Proof/Machine/State.lean ====
section
/-! DEFINITION. The state of the device: register fields, non-volatile contents, and every queue,
table, buffer and engine the spec gives it; the reasons a step can stop; the state after reset. -/

namespace Sys2Proof.Machine

/-- Why the machine stops with a fault. -/
inductive Fault where
  /-- The logic dies are asked for an address at or above 0x0060_0000_0000, where no memory exists
  (R285). Raised by MEMORY_READ, MEMORY_WRITE, SADD128, SADD64 and SADD32. Safe: requesters refuse such
  an address before it reaches a stack. -/
  | noMemory (addr : Nat)
  deriving DecidableEq, Repr

/-- Why a command has no meaning. -/
inductive Refusal where
  /-- The command has no meaning yet; raised by an arm of `exec`. Safe: nothing is said of it. -/
  | notModelled (mnemonic : String)
  deriving DecidableEq, Repr

/-- An armed commit of a page (R51, R57). -/
structure ArmedCommit where
  seq   : Nat
  group : Bool
  deriving DecidableEq, Repr

/-- Row and column bypasses of a cell (R107, R484). -/
structure Bypass where
  rows : List Nat
  cols : List Nat
  deriving DecidableEq, Repr

/-- Fuse map and module flash (R26, R303, R463, R483, R487, R500, R503, R510): survives every reset. -/
structure NonVol where
  grade        : Nat
  fusePolicy   : Nat
  spares       : List Nat
  disabled     : List Nat
  mapChanges   : NMap (Option Nat)
  retired      : List Nat
  grafted      : List Nat
  fusedBypass  : NMap Bypass
  fieldBypass  : NMap Bypass
  faultCloches : NMap (List Nat)
  rowsUsed     : NMap Nat
  rowsUnspared : NMap Nat
  bankSpares   : NMap Nat
  rowRemap     : NMap Nat
  chanFault    : NMap Nat
  selectors    : List (Option (Nat × Nat))
  banks        : NMap FwImage
  svnFloors    : List Nat
  fwKeyHash    : List Byte
  lmsQ         : Nat
  lmsBlocks    : Nat
  trust        : NMap (List Byte)
  certificate  : List Byte
  serial       : List Byte
  secret       : List Byte
  deriving DecidableEq, Repr

/-- The input pins (R368, R537, R538); the output pin FAULT_L is computed (`Dev.faultL`). -/
structure Pins where
  feedId  : Nat
  feedPar : Nat
  mrstLow : Bool
  deriving DecidableEq, Repr

/-- Where a job command stands in command order (R36, R249). -/
inductive OrderPhase where
  | held | running
  deriving DecidableEq, Repr

/-- A job command that has not completed (R36). -/
structure OrderEntry where
  cmd   : JobCmd
  phase : OrderPhase
  deriving DecidableEq, Repr

/-- A decision or event of the open step that goes into its sowing records (R32, R382, R383). -/
inductive Decision where
  | commit (cls inst seq : Nat) (group : Bool) (regs : List (Nat × Nat))
  | rebalance (plot cells : Nat) (delta : Int) (members : List Nat)
  | jit (source plot phase entry : Nat) (sigma : Int) (cause : Nat)
  | promotion (entry old new cause : Nat)
  | vote (origin nonfinite voting : Nat)
  | bucket (code previous proposed flags buckets : Nat)
  | subst (sample substitute slot plot reason : Nat)
  deriving DecidableEq, Repr

/-- Command order, jobs and step control (R11, R18, R36, R68, R269). `heldMeasure` is what was measured at the
boundary of a STEP_MARK that R18 holds; `replayAsked` the cause of the in-place replay that awaits the cells
(0 none); `lastMap` the membership masks by plot of the last resolution (none: the map after reset); `rebTried` that
the open step's rebalance has been computed. -/
structure Ctl where
  order        : List OrderEntry
  markHeld     : Bool
  heldMeasure  : Option BoundaryMeasure
  endAsked     : Bool
  negPending   : Bool
  gsbChecked   : Bool
  waitBounds   : Bool
  decisions    : List Decision
  rebShort     : Bool
  prevBusy     : NMap Nat
  updateBegun  : Bool
  replayAsked  : Nat
  noClose      : Bool
  thnCount     : Nat
  lastMap      : List Nat
  rebTried     : Bool
  deriving DecidableEq, Repr

/-- One block of an operand as the array sees it (R76, R78, R79, R134, R157): `exp` is its scale code
or its block exponent, `sum` its correction sum (R181). -/
structure BlockInfo where
  nan  : Bool
  zero : Bool
  exp  : Int
  sum  : Int
  deriving DecidableEq, Repr

/-- What one column of a bank holds: the element codes of its 64 rows and, for each band, its block
(R80, R81). The slots of R158 follow from the codes and the block exponents. -/
structure BankCol where
  codes  : List Nat
  blocks : List BlockInfo
  deriving DecidableEq, Repr

/-- A stationary bank (R80): the format and zero point it was loaded with, and its columns. -/
structure Bank where
  format : Nat
  cols   : List BankCol
  deriving DecidableEq, Repr

/-- A staking file entry (R150, R169, R231). `t3` holds acc and the expected chunk in T3 form. -/
structure Entry where
  a      : Int
  s      : Int
  h      : Nat
  u      : Int
  words  : Nat
  nan    : Bool
  pinf   : Bool
  ninf   : Bool
  staked : Bool
  depth  : Int
  m      : Nat
  t3     : Option (Nat × Nat)
  deriving DecidableEq, Repr

/-- The tile a cell holds (R99, R116). -/
structure Tile where
  plot  : Nat
  phase : Nat
  index : Nat
  deriving DecidableEq, Repr

/-- An exception record (R234). -/
structure XRec where
  step   : Nat
  plot   : Nat
  phase  : Nat
  tile   : Nat
  column : Nat
  slot   : Nat
  block  : Nat
  count  : Nat
  deriving DecidableEq, Repr

/-- A summary of one kind of one tile (R235). -/
structure Summary where
  kind   : Nat
  tile   : Tile
  block  : Nat
  column : Nat
  slot   : Nat
  count  : Nat
  entry  : Option Nat
  format : Nat
  vector : Bool
  t3     : Bool
  deriving DecidableEq, Repr

/-- Statistics counts held with a tile or a sample (R140, R175). -/
structure StatUpdate where
  entry    : Nat
  amax     : Option Int
  nonfin   : Bool
  vanish   : Nat
  sat      : Nat
  elements : Nat
  deriving DecidableEq, Repr

/-- One staked add held in an open set (R94, R309). -/
structure SetAdd where
  addr  : Nat
  width : Nat
  q     : Int
  deriving DecidableEq, Repr

/-- What a PASS of a sampled tile used (R242): the output entries from `first`, the stationary row of each column and
the weight row of each entry, as exact values, and the ranges of the planes and expansion entries that hold them with
the reduction chunk that they belong to. -/
structure SievePart where
  first : Nat
  count : Nat
  x     : List (List Num)
  w     : List (List Num)
  reads : List (Nat × Nat × Nat)
  deriving DecidableEq, Repr

/-- One output of a DRAIN of a sampled tile as the sieve copies it (R242, R255): the first entry, the output's scale-state
entry, format, block size and σ, the parts of the reduction, the rescale pair of each output channel, the written rows
with their grid exponents, which are the channels in a save copy (`byChannel`), and the bytes of rows and pairs. -/
structure SieveCopy where
  first   : Nat
  entry   : Option Nat
  format  : Nat
  block   : Nat
  sigma   : Int
  parts   : List SievePart
  scales  : List (Nat × Nat)
  written : List (List (Num × Int))
  byChannel : Bool
  bytes   : Nat
  deriving DecidableEq, Repr

/-- What a waiting cell waits for (R96, R99, R548). -/
inductive WaitFor where
  | events (e : EventKind) (count : Nat)
  | fence
  | barrier
  deriving DecidableEq, Repr

/-- An operation of a DMA channel (R92, R93, R294, R548); of a global access, `remote` counts the packets that have
not completed; `order` is its place in the cell's program order. -/
structure DmaSlot where
  op     : DmaOp
  halted : Bool
  remote : Option Nat
  order  : Nat
  deriving DecidableEq, Repr

/-- A PASS whose words are in the array (R75, R91, R96): the cell-store ranges it reads and the entries it adds to. -/
structure PassRun where
  args  : PassArgs
  reads : List (Nat × Nat)
  outs  : List Nat
  deriving DecidableEq, Repr

/-- One cell (R70 to R108, R234). Register-visible status lives in its CEL page. `istore` holds the instruction store's
bytes as the Trellis loaded them (R95); `zeroPts` the zero points Z that the passes of the tile latched, by entry
(R143); `used` what the passes of a sampled tile used (R242); `lostSums` the summaries that found no place (kind and
tile, R235); `stageWait` that the cell waits for staging (R310); `order` numbers its DMA operations (R294). -/
structure Cell where
  sregs    : NMap Word
  vregs    : NMap (BitVec 1024)
  stack    : List Nat
  waiting  : Option WaitFor
  program  : Option (Nat × Nat)
  istore   : List Byte
  plot     : Option Nat
  descX    : Option OperandDesc
  descW    : Option OperandDesc
  descO    : Option OperandDesc
  scanned  : Option (Bool × Bool)
  bankA    : Bank
  bankB    : Bank
  sf       : NMap Entry
  store    : NMap Byte
  events   : NMap Nat
  passes   : List PassRun
  zeroPts  : NMap Int
  dma      : NMap DmaSlot
  rescale  : NMap (Nat × Nat)
  lut      : NMap Byte
  tiles    : List Tile
  phase    : Nat
  getPc    : Nat
  getStack : List Nat
  poisoned : Bool
  stats    : List StatUpdate
  adds     : List SetAdd
  sums     : List Summary
  phaseSums : List Summary
  hits     : List (Nat × Nat × Nat)
  lostSums : List (Nat × Tile)
  xrec     : NMap XRec
  samples  : List SieveCopy
  used     : List SievePart
  stageWait : Bool
  order    : Nat
  deriving DecidableEq, Repr

/-- The state of a phase under the just-in-time path (R185). -/
inductive PhaseKind where
  | normal | measure | final
  deriving DecidableEq, Repr

/-- One phase of a plot's step, kept by the Trellis (R99, R101, R185). -/
structure PhaseRun where
  kind     : PhaseKind
  next     : Nat
  returned : List Nat
  done     : List Nat
  tiles    : Nat
  entries  : List Nat
  marked   : List Nat
  deriving DecidableEq, Repr

/-- A trap of a tile, kept until the tile has run again (R98). -/
structure TrapNote where
  phase : Nat
  tile  : Option Nat
  cause : Nat
  pc    : Nat
  cell  : Nat
  deriving DecidableEq, Repr

/-- A plot's run (R95, R99, R185, R274, R523); phases are numbered through the step, `base` is the first of the run,
`code` the words of the program as the Trellis read them when the run began. -/
structure PlotRun where
  cmd      : Option JobCmd
  program  : Nat × Nat
  code     : List Byte
  base     : Nat
  phases   : NMap PhaseRun
  halted   : List Nat
  stopped  : Bool
  traps    : List TrapNote
  skew     : Option (Nat × Nat)
  deriving DecidableEq, Repr

/-- A set whose closing marker has been sent and that the logic dies have not applied (R94, R309). -/
structure ClosedSet where
  cell : Nat
  tile : Nat
  adds : List SetAdd
  deriving DecidableEq, Repr

/-- Stacked memory (R285 to R312). `valid` lists lines, `poison` lists words (byte address / 8).
`flips` holds the words whose cells have one or two wrong bits that no read has met (R295). `rowCe` holds the distinct
corrected words per row with their ages in ms (R303). `recalFails` counts failures in a row; `sweep` is the offset at
which the scrub of each stack stands (R301). -/
structure Mem where
  bytes      : NMap Byte
  valid      : List Nat
  poison     : List Nat
  flips      : NMap Nat
  rowCe      : NMap (List (Nat × Nat))
  recalFails : NMap Nat
  sweep      : NMap Nat
  deriving DecidableEq, Repr

/-- An item of the mirror item table as checked (R373). -/
structure Item where
  cls      : Nat
  format   : Nat
  valid    : Bool
  addr     : Nat
  length   : Nat
  sAddr    : Nat
  sLength  : Nat
  imageOff : Nat
  deriving DecidableEq, Repr

/-- What stands in the mirror outbound queue (R375, R380). -/
inductive MirrorItem where
  | delta (step off : Nat) (line : List Byte)
  | record (step : Nat) (bytes : List Byte)
  deriving DecidableEq, Repr

/-- What this device has received of an unsealed step of its partner (R377, R380): the records, the DELTA
entries with their running CRC, and whether its STEP_SEAL came during a base transfer (R376). -/
structure PartnerStep where
  step    : Nat
  records : List (List Byte)
  lines   : Nat
  crc     : Nat
  early   : Bool
  deriving DecidableEq, Repr

/-- A record taken for a replay (R396, R397), already decoded. -/
structure ReplayStep where
  step      : Nat
  decisions : List Decision
  deriving DecidableEq, Repr

/-- Pairing, mirror, log, seals and recovery (R367 to R401). `unsealed` lists the boundaries that R18 counts and
`baseSteps` those reached before the last BASE packet; `baseNext` is the image offset of the next BASE
packet; `recCopies` holds unsealed records by LSN; `partnerImage` is in MiB; `reached` is the last boundary
reached; `capNext` the mirror cap of the next boundary; `refetch` the ranges of the partner's image asked
for again; `logWait` the step and LSN that a restore waits for; `replayUntil` the step open at the fault;
`planFirst` the GRAD_PLAN that was first after GO; `kept` what a reset leaves of STATE, SEALED_VALID and
LAST_SEALED until the pairing is resumed, `remirror` a REMIRROR that is due (log entry 21); `touched` the items written in the open step; `blindStep`
the first step after a restored boundary that has no FORMAT_PROMOTION record;
`mcBytes` the restored bytes of the two items of the MC. -/
structure Sow where
  unsealed     : List Nat
  baseSteps    : List Nat
  baseActive   : Bool
  baseNext     : Nat
  items        : List Item
  queue        : List MirrorItem
  deltaLines   : Nat
  deltaCrc     : Nat
  recCopies    : NMap (List Byte)
  pairKey      : Bool
  pairIsGraft  : Bool
  reqSeen      : Option Packet
  ownAck       : Option Nat
  peerAck      : Option Nat
  partnerBase  : Bool
  partnerSteps : List PartnerStep
  partnerImage : Nat
  partnerItems : Nat
  reached      : Nat
  capNext      : Option Nat
  refetch      : List (Nat × Nat)
  itemWanted   : Option Nat
  logWait      : Option (Nat × Nat)
  replay       : List ReplayStep
  replayUntil  : Option Nat
  planAtOnce   : Bool
  planFirst    : Option Nat
  initCode     : Nat
  reexec       : Bool
  kept         : Option (Nat × Nat × Nat)
  remirror     : Bool
  touched      : List Nat
  blindStep    : Option Nat
  mcBytes      : NMap Byte
  deriving DecidableEq, Repr

/-- A harvest that this device serves for its partner (R279 to R283); `tags` names the PUTs of its image once they have
been issued. -/
structure HarvestJob where
  subject : Nat
  step    : Nat
  mask    : Nat
  kind    : Nat
  dst     : Nat
  limit   : Nat
  cookie  : Nat
  pinned  : Bool
  tags    : Option (List Nat)
  deriving DecidableEq, Repr

/-- Harvests: the requests that this device has forwarded, the one it serves, the journal of lines (image
offset, line) that seals have added while the image was pinned (R279 to R281). -/
structure Harvest where
  asked   : List JobCmd
  serving : Option HarvestJob
  journal : List (Nat × List Byte)
  deriving DecidableEq, Repr

/-- A gradient list entry (R270). -/
structure Grad where
  count   : Nat
  result  : Nat
  entry   : Nat
  rformat : Nat
  deriving DecidableEq, Repr

/-- A gradient plan (R270). -/
structure GradPlan where
  grads : List Grad
  acc   : Nat
  width : Nat
  group : Nat
  list  : Nat
  deriving DecidableEq, Repr

/-- A piece of a bucket: list entry, first element in the entry, elements (R273). -/
structure Piece where
  grad  : Nat
  first : Nat
  take  : Nat
  deriving DecidableEq, Repr

/-- Gradients of the open step (R270 to R278, R342): the plan in force and the one that follows, the entries
done and those named in command order, each entry's window top, the exchanges started and finished, the
votes of finished exchanges (nonfinite, origin), the ratio t_1 / t_x, the agreed (code, proposed, flags),
CIDX by group, the CIDX of each direct collective by command number and of each bucket in order. -/
structure Train where
  plan      : Option GradPlan
  nextPlan  : Option GradPlan
  doneGrads : List Nat
  named     : List Nat
  windowTop : NMap Int
  started   : Nat
  finished  : List Nat
  votes     : List (Bool × Nat)
  ratio     : Option (Nat × Nat)
  agreed    : Option (Nat × Nat × Nat)
  cidx      : NMap Nat
  places    : List (Nat × Nat)
  placed    : List Nat
  deriving DecidableEq, Repr

/-- What the owner of a segment keeps at one level (R343, R345, R346): the ranks whose exponents and whose
integers it has, the maximum, whether M has been sent on, the sums, whether they have been sent on. -/
structure SegState where
  expSeen : List Nat
  expMax  : Option Int
  expDone : Bool
  intSeen : List Nat
  acc     : List Int
  done    : Bool
  deriving DecidableEq, Repr

/-- Header words as an owner of segment 0 reduces them (R247, R277, R344): `sizing` is HOLD, LO, HI, PROPOSE
and CURRENT. -/
structure HdrWords where
  nonfinite : Bool
  origin    : Nat
  bucket    : Nat
  step      : Nat
  sizing    : Option (Bool × Nat × Nat × Nat × Nat)
  deriving DecidableEq, Repr

/-- Kinds of collective (R342, R351). -/
inductive CollKind where
  | bucket (b : Nat) (sizing : Bool)
  | allGather (src dst len : Nat)
  | broadcast (src dst len root : Nat)
  | barrier
  deriving DecidableEq, Repr

/-- A run of result elements: scale-state entry, format, address, elements (R274). -/
structure ResRun where
  entry  : Nat
  format : Nat
  addr   : Nat
  take   : Nat
  deriving DecidableEq, Repr

/-- A collective issued here (R341 to R351). `elems` are the device's own elements, none for one that is not
finite; `seg` holds owner state by 2 · segment + level − 1 and `hdrs` header words by level; `mSeg` holds the
transport exponents known (−32768 for none), `resSeg` the segments whose results are written; `mute` the
segments that meet poison (R549); `got` the bytes received by rank; `sent` tells that the device has
contributed, `fetching` that owners answer with DONE, `status` how it ended. -/
structure Coll where
  group    : Nat
  groupId  : Nat
  n        : Nat
  rank     : Nat
  leaf     : Nat
  mode     : Nat
  step     : Nat
  cidx     : Nat
  kind     : CollKind
  engine   : Nat
  width    : Nat
  members  : List (Nat × Nat)
  segs     : Nat
  elems    : List (Option (Int × Int))
  runs     : List ResRun
  seg      : NMap SegState
  hdrs     : NMap HdrWords
  hdrRes   : Option HdrWords
  mSeg     : NMap Int
  resSeg   : List Nat
  mute     : List Nat
  barSeen  : List Nat
  got      : NMap Nat
  cmd      : Option JobCmd
  sent     : Bool
  fetching : Bool
  done     : Bool
  status   : Nat
  deriving DecidableEq, Repr

/-- Training steps of a port (R318). -/
inductive TrainStep where
  | idle | lock | fec | identity | credits | active
  deriving DecidableEq, Repr

/-- A packet on the queue of a port's VL (R324, R331): the flits that have left, those that are here, and, of transit
traffic, the port and VL whose receive buffer holds them. -/
structure QPkt where
  pkt  : Packet
  sent : Nat
  here : Nat
  inp  : Option (Nat × Nat)
  deriving DecidableEq, Repr

/-- Where the flits of a packet that is arriving go (R331): to this device, onto the queue of a port, into a packet that
has no live candidate yet, or nowhere. -/
inductive RxWay where
  | local | onto (port : Nat) | hold | drop
  deriving DecidableEq, Repr

/-- A packet that is arriving on a VL: what has come of it. -/
structure RxOpen where
  pkt   : Packet
  flits : Nat
  way   : RxWay
  deriving DecidableEq, Repr

/-- A flit in the replay buffer (R322). -/
structure SentFlit where
  seq   : Nat
  vl    : Nat
  kind  : FlitKind
  last  : Bool
  bytes : List Byte
  deriving DecidableEq, Repr

/-- One Moatus port (R316 to R331). Counters are taken modulo the widths of R321; `grants` are the buffer sizes B_v of
the neighbour (R318, R323); `badWord` tells that the last codeword received could not be corrected (R316). -/
structure Port where
  train     : TrainStep
  neighbour : Option Neighbour
  txSeq     : Nat
  rxSeq     : Nat
  nackNext  : Bool
  replay    : List SentFlit
  replays   : Nat
  crVl      : Nat
  sent      : NMap Nat
  freedByPeer : NMap Nat
  freed     : NMap Nat
  grants    : NMap Nat
  queue     : NMap (List QPkt)
  rxOpen    : NMap RxOpen
  rrVl      : Nat
  rrLeft    : Nat
  badWord   : Bool
  deriving DecidableEq, Repr

/-- A local operation outstanding on a flow, by its tag (R336, R338): the cell and DMA channel that issued
it, where a GET's data goes in the cell store, and the pool blocks it holds. -/
structure FlowOp where
  tag    : Nat
  opc    : Nat
  cell   : Nat
  chan   : Nat
  store  : Nat
  len    : Nat
  blocks : Nat
  seq    : Nat
  deriving DecidableEq, Repr

/-- A flow context (R333); `unacked` holds the packets from TX_ACKED on, `waiting` those that have no
credit, `ops` the local operations outstanding, and `owed` that a standalone ACK is due. -/
structure Flow where
  tc       : Nat
  kind     : Nat
  queueId  : Nat
  peer     : Nat
  remote   : Nat
  winBase  : Nat
  winLimit : Nat
  rights   : Nat
  credMax  : Nat
  txSeq    : Nat
  txAcked  : Nat
  rxSeq    : Nat
  credits  : Nat
  state    : Nat
  retries  : Nat
  port     : Option Nat
  unacked  : List Packet
  waiting  : List Packet
  ops      : List FlowOp
  owed     : Bool
  deriving DecidableEq, Repr

/-- Links, flows, routes and collectives (R316 to R352). `arrived` holds packets for this device that the
links have handed over and no command has taken yet; `unrouted` those whose destination has no live
candidate (R330, R355); `opCodes` the completion code of each local operation that has ended; `parked` packets of
collectives not yet issued here (R346); `past` the collectives whose results are fetchable (R349). -/
structure Fabric where
  ports     : NMap Port
  flows     : NMap Flow
  routes    : NMap Nat
  arrived   : List Packet
  unrouted  : List Packet
  nextTag   : Nat
  opCodes   : List (Nat × Nat)
  colls     : List Coll
  parked    : List Packet
  past      : List Coll
  deriving DecidableEq, Repr

/-- A sample descriptor (R407). -/
structure PipDesc where
  sample : Nat
  addr   : Nat
  length : Nat
  source : Nat
  typ    : Nat
  flags  : Nat
  check  : Nat
  decl   : Nat
  bad    : Bool
  deriving DecidableEq, Repr

/-- A canonical form after the round trip (R412). -/
structure PipForm where
  bytes    : List Byte
  width    : Nat
  height   : Nat
  frames   : Nat
  channels : Nat
  bits     : Nat
  deriving DecidableEq, Repr

/-- A slot of an INGEST (R405 to R427): the descriptor in process, the attempt of R417 and the reserve index
it took, the original's reason, failed fetches, the unit at work, and what it has produced: `rows` the data and
`scales` the scale entries of each position. -/
structure PipSlot where
  orig      : Nat
  desc      : PipDesc
  attempt   : Option Nat
  subst     : Option Nat
  reason    : Option Nat
  tries     : Nat
  waiting   : Bool
  unit      : Option Nat
  form      : Option PipForm
  finished  : Bool
  empty     : Bool
  positions : Nat
  truncated : Bool
  overflow  : Bool
  row       : Nat
  start     : Nat
  rows      : List (List Byte)
  scales    : List (List Byte)
  deriving DecidableEq, Repr

/-- The fields of an INGEST block (R405, R524). -/
structure IngestArgs where
  plot      : Nat
  outKind   : Nat
  format    : Nat
  flags     : Nat
  count     : Nat
  list      : Nat
  elems     : Nat
  rowLen    : Nat
  rowsMax   : Nat
  table     : Nat
  data      : Nat
  scale     : Nat
  marks     : Nat
  stage     : Nat
  stageSize : Nat
  deriving DecidableEq, Repr

/-- An INGEST in progress (R405, R426): `placed` slots have their place; `used` and `segs` by row. -/
structure Batch where
  cmd       : JobCmd
  args      : IngestArgs
  firstSlot : Nat
  slots     : List PipSlot
  placed    : Nat
  used      : NMap Nat
  segs      : NMap Nat
  deriving DecidableEq, Repr

/-- Input pipeline (R405 to R427): the INGESTs in progress in command order, and the slots ingested in the step
by plot. The sample cache lives in memory (R413, R446). -/
structure Pip where
  batches  : List Batch
  ingested : NMap Nat
  deriving DecidableEq, Repr

/-- What stands in an encoder session's command order (R439, R443): a submitted picture with the codes of its Y, Cb and Cr planes,
or a key request. -/
inductive EncItem where
  | picture (codes : List Nat)
  | key
  deriving DecidableEq, Repr

/-- The item is a picture. -/
def EncItem.isPicture : EncItem → Bool
  | .picture _ => true
  | .key => false

/-- What an ENC_OPEN fixes for its session (R444): the ring of its completions and the descriptor. -/
structure EncParams where
  port      : Nat
  ring      : Nat
  cookie    : Nat
  width     : Nat
  height    : Nat
  capEn     : Bool
  outHost   : Bool
  refs      : Nat
  sliceRows : Nat
  cq        : Int
  range     : Nat
  keyint    : Nat
  win       : Nat
  maxBits   : Nat
  work      : Nat
  workSize  : Nat
  out       : Nat
  outSize   : Nat
  deriving DecidableEq, Repr

/-- A coded slice as the encoder emits it (R441, R445): its bytes, whether parameter sets precede it, the codes of its
picture as reconstructed once it is coded. -/
structure CodedSlice where
  data   : List Byte
  params : Bool
  recon  : List Nat
  deriving DecidableEq, Repr

/-- The picture that an encoder codes: whether it is a key picture, its KEY_CAUSE, its codes, its codes as reconstructed so
far, and the bits and QP of its slices so far (R442, R443). -/
structure EncPic where
  key    : Bool
  cause  : Nat
  codes  : List Nat
  recon  : List Nat
  slices : List (Nat × Int)
  deriving DecidableEq, Repr

/-- An encoder session at work (R439 to R447): the OUT ring, the pictures and key requests in order, a register key
request, the picture in progress, the coded slice that waits for room, the pictures coded, those since the last key
picture, the latest key and other pictures' slices, the bits of coded pictures (latest first), REPEAT, the ENC_CLOSE
that waits, the reconstructed codes of the reference pictures (nearest first). -/
structure EncState where
  par      : EncParams
  outHead  : Nat
  outUsed  : Nat
  items    : List EncItem
  regKey   : Bool
  current  : Option EncPic
  held     : Option CodedSlice
  pics     : Nat
  sinceKey : Nat
  lastKey  : Option (List (Nat × Int))
  lastP    : Option (List (Nat × Int))
  picBits  : List Nat
  repeating : Bool
  lastQp   : Int
  closing  : Option JobCmd
  refs     : List (List Nat)
  deriving DecidableEq, Repr

/-- A media session (R430 to R447): its kind (1 DECODE, 2 ROUNDTRIP, 3 ENCODE), the handle ENC_OPEN returned, the
budget with the bytes and samples it has taken so far, what it has delivered, the pictures completed. -/
structure Session where
  kind      : Nat
  handle    : Nat
  maxPix    : Nat
  length    : Nat
  expansion : Nat
  outBytes  : Nat
  samples   : Nat
  delivered : List Byte
  pics      : Nat
  enc       : Option EncState
  deriving DecidableEq, Repr

/-- An open that found no context, or a session of a cloched slice that found none (R431, R447). -/
inductive MediaWait where
  | pipe (die : Nat) (s : Session)
  | enc (c : JobCmd) (e : EncParams)
  | moved (die : Nat) (s : Session)
  deriving DecidableEq, Repr

/-- The wait belongs to an ENCODE session. -/
def MediaWait.isEnc : MediaWait → Bool
  | .pipe _ _ => false
  | .enc _ _ => true
  | .moved _ s => decide (s.kind = 3)

/-- A thin-channel request (R219 to R228): its outcome once it has run; `events` holds (kind, lowest block,
outputs affected), `ordinal` its place among the step's job requests, and `measured` tells that it has taken the
just-in-time path (R222). -/
structure ThnReq where
  host    : Bool
  addr    : Nat
  cmd     : JobCmd
  ordinal : Nat
  status  : Nat
  count   : Nat
  work    : Nat
  cookie  : Nat
  entry   : Option Nat
  format  : Nat
  writes  : List (Nat × List Byte)
  stats   : List StatUpdate
  events  : List (Nat × Nat × Nat)
  measured : Bool
  deriving DecidableEq, Repr

/-- One thin-channel unit. -/
structure Thn where
  jobs    : List ThnReq
  hosts   : List ThnReq
  current : Option ThnReq
  served  : Nat
  deriving DecidableEq, Repr

/-- A ring of a port (R520, R521, R533). -/
structure Ring where
  enabled : Bool
  kind    : Nat
  log2    : Nat
  irq     : Bool
  sqBase  : Nat
  cqBase  : Nat
  head    : Nat
  tail    : Nat
  cqHead  : Nat
  cqTail  : Nat
  fault   : Bool
  deriving DecidableEq, Repr

/-- Host interface (R516 to R533): rings by port * 256 + ring, and rings that a reset of their port has disabled, as they
stood, for the completions of entries already fetched (R530, R531). -/
structure Pci where
  rings     : NMap Ring
  draining  : NMap Ring
  deriving DecidableEq, Repr

/-- The ownership token (R528, R529): 0 none, 1 port A, 2 port B. -/
structure Own where
  owner     : Nat
  requester : Nat
  pending   : Bool
  deriving DecidableEq, Repr

/-- Where the power stage stands (R451, R454). -/
inductive PowerPhase where
  | off | charging | sequencing | on
  deriving DecidableEq, Repr

/-- A firmware update or activation in progress (R473, R475): of an update its TYPE and whether the source lies in
job memory, as they stood when it started. -/
inductive UpdateJob where
  | write (typ : Nat) (window : Bool) (image : FwImage)
  | activate (typ : Nat)
  deriving DecidableEq, Repr

/-- Power, clocks, resets and firmware (R450 to R477). `restarts` and `mcResets` hold the ages in ms of the power-up
restarts of R455 and the MC-only resets of R472; `latched` and `tripped` are those of R539; `energy` is the rest in
mJ of the energy counter; `held` tells that every block is held in reset, `recovering` that a job was active when
the reset came; `resetType` and `resetCause` are those of the reset in progress; `running` holds the banks of the
four images, `written` the newly written bank of a type, `manifest` the manifest bank in force; `handAsk` is the step
in which a handover was asked for, `handover` tells that it runs; `keys` are the identity keys that the boot derived
(R501). -/
structure Pwr where
  phase     : PowerPhase
  restarts  : List Nat
  latched   : Bool
  tripped   : Bool
  overMs    : Nat
  coolMs    : Nat
  capMs     : Nat
  energy    : Nat
  held      : Bool
  resetType : Nat
  resetCause : Nat
  booted    : Bool
  recovering : Bool
  mcResets  : List Nat
  update    : Option UpdateJob
  running   : List Nat
  written   : NMap Nat
  handAsk   : Option Nat
  handover  : Bool
  manifest  : Option Nat
  keys      : Option IdKeys
  deriving DecidableEq, Repr

/-- A RAS log entry as its four words (R495). -/
structure RasEntry where
  w0 : Nat
  w1 : Nat
  w2 : Nat
  w3 : Nat
  deriving DecidableEq, Repr

/-- A sieve buffer slot (R242, R243): the tile, the cell that computed it, its step, the copies, and the cell
that recomputes it. -/
structure SieveSlot where
  tile   : Tile
  cell   : Nat
  step   : Nat
  copies : List SieveCopy
  host   : Option Nat
  deriving DecidableEq, Repr

/-- Numeric events and sieve (R237, R242, R245, R248). `droppedSince` counts ring entries dropped since
the last RING_OVERFLOW entry; `miscompares` counts by physical cell. -/
structure Numx where
  droppedSince : Nat
  sieve        : NMap SieveSlot
  miscompares  : NMap Nat
  deriving DecidableEq, Repr

/-- What the device sends to its surroundings, in order: packets and flits, completions, interrupts,
host writes and answers to reads, its side of the training exchange of a port and its VL buffer grants (R318), and the
item table that a base transfer brings to the partner (R374). -/
inductive Out where
  | packet (p : Packet)
  | flit (port : Nat) (f : Flit)
  | completion (port ring addr : Nat) (bytes : List Byte)
  | vector (port v : Nat)
  | hostWrite (port addr : Nat) (data : List Byte)
  | readData (value : Nat)
  | bytes (data : List Byte) (poison : Bool)
  | identity (port : Nat) (device : Option Nat) (fingerprint : List Byte) (revision : Nat)
  | grants (port : Nat) (sizes : List Nat)
  | itemTable (bytes : List Byte)
  deriving DecidableEq, Repr

/-- The device but for its command queue and the ownership token. `fields` holds what a read of a register field returns, `acting` the value
of an RW field that acts (R47, R49), `shadow` the staged RS values (R51), `latches` the latched _HI
halves (R43). `fresh` is the model's own counter of free values. -/
structure Dev where
  fresh   : Nat
  fields  : NMap Nat
  acting  : NMap Nat
  shadow  : NMap Nat
  latches : NMap Nat
  armed   : NMap ArmedCommit
  groupSeq : Option Nat
  testFails : NMap Nat
  nv      : NonVol
  pins    : Pins
  ctl     : Ctl
  plots   : NMap PlotRun
  cells   : NMap Cell
  sets    : List ClosedSet
  mem     : Mem
  sow     : Sow
  harvest : Harvest
  train   : Train
  fab     : Fabric
  pip     : Pip
  media   : NMap Session
  mediaWait : List MediaWait
  thn     : NMap Thn
  pci     : Pci
  pwr     : Pwr
  numx    : Numx
  rasLog  : List RasEntry
  out     : List Out
  deriving DecidableEq, Repr

/-- The state: the queue of waiting commands, the ownership token, the device. -/
structure State where
  pending : List Instr
  own     : Own
  dev     : Dev
  deriving DecidableEq, Repr

/-- Outcomes of a step of this machine. -/
abbrev Res := Host.Outcome State Fault Refusal

/-- A bank that nothing has loaded (R80). -/
def Bank.empty : Bank := ⟨0, []⟩

/-- A staking file entry after a cell reset (R150): STAKED = 0. R150 gives no reset value of H, which lies in 2 to 34: 2 is
DESIGN CHOICE, log entry 4. -/
def Entry.reset : Entry := ⟨0, 0, 2, 0, 0, false, false, false, false, 0, 1, none⟩

/-- A cell after reset (R95, R150, R179). -/
def Cell.reset : Cell :=
  { sregs := [], vregs := [], stack := [], waiting := none, program := none, istore := [], plot := none, descX := none,
    descW := none, descO := none, scanned := none, bankA := Bank.empty, bankB := Bank.empty,
    sf := [], store := [], events := [], passes := [], zeroPts := [], dma := [], rescale := [], lut := [],
    tiles := [], phase := 0, getPc := 0, getStack := [], poisoned := false, stats := [], adds := [], sums := [],
    phaseSums := [], hits := [], lostSums := [], xrec := [], samples := [], used := [], stageWait := false, order := 0 }

/-- A phase no tile of which has been taken (R99). -/
def PhaseRun.start : PhaseRun := ⟨.normal, 0, [], [], 0, [], []⟩

/-- A plot that runs no program. -/
def PlotRun.idle : PlotRun := ⟨none, (0, 0), [], 0, [], [], false, [], none⟩

/-- A port before training (R320, R323). -/
def Port.reset : Port :=
  { train := .idle, neighbour := none, txSeq := 0, rxSeq := 0, nackNext := false, replay := [],
    replays := 0, crVl := 0, sent := [], freedByPeer := [], freed := [], grants := [], queue := [],
    rxOpen := [], rrVl := 0, rrLeft := 0, badWord := false }

/-- A ring that is not enabled (R533). -/
def Ring.reset : Ring := ⟨false, 0, 4, false, 0, 0, 0, 0, 0, 0, false⟩

/-- A thin-channel unit with nothing queued (R219). -/
def Thn.reset : Thn := ⟨[], [], none, 0⟩

/-- The firmware image that the model finds in bank A of each type: valid, all other fields zero. The
manifest lists exactly this combination and marks features 0 to 10 stable (R59). DESIGN CHOICE, log
entry 3. -/
def FwImage.delivered (typ : Nat) : FwImage :=
  { typ := typ, iface := 0, build := 0, svn := 0, length := 0,
    intervals := [(0, 65535), (0, 65535), (0, 65535), (0, 65535)], resultRev := 0, sigsGood := true,
    digestGood := true, reservedZero := true, keyHashGood := true,
    stable := if typ = 5 then 0x7FF else 0, tested := if typ = 5 then [[0, 0, 0, 0]] else [],
    headerHash := [], payloadHash := [] }

/-- Fuses and flash of the module the model starts from: grade -A, logical cells 0 to 1023, spares 1024
to 1151, nothing repaired or retired, the delivered firmware in bank A. DESIGN CHOICE, log entry 3. -/
def NonVol.delivered : NonVol :=
  { grade := 0, fusePolicy := 0, spares := (List.range 128).map (· + 1024), disabled := [],
    mapChanges := [], retired := [], grafted := [], fusedBypass := [], fieldBypass := [],
    faultCloches := [], rowsUsed := [], rowsUnspared := [], bankSpares := [], rowRemap := [],
    chanFault := [], selectors := [some (0, 0), some (0, 0)],
    banks := [1, 2, 3, 4, 5].map (fun t => (2 * t, FwImage.delivered t)),
    svnFloors := [0, 0, 0, 0, 0], fwKeyHash := List.replicate 48 0, lmsQ := 0, lmsBlocks := 0, trust := [], certificate := [],
    serial := [], secret := [] }

/-- Command order and step control with no job. -/
def Ctl.reset : Ctl := ⟨[], false, none, false, false, false, false, [], false, [], false, 0, false, 0, [], false⟩

/-- No pairing, no mirror, nothing sealed (R404). -/
def Sow.reset : Sow :=
  { unsealed := [], baseSteps := [], baseActive := false, baseNext := 0, items := [], queue := [],
    deltaLines := 0, deltaCrc := 2 ^ 64 - 1, recCopies := [], pairKey := false, pairIsGraft := false,
    reqSeen := none, ownAck := none, peerAck := none, partnerBase := false, partnerSteps := [],
    partnerImage := 0, partnerItems := 0, reached := 2 ^ 64 - 1, capNext := none, refetch := [],
    itemWanted := none, logWait := none, replay := [], replayUntil := none, planAtOnce := false,
    planFirst := none, initCode := 4, reexec := false, kept := none, remirror := false, touched := [],
    blindStep := none, mcBytes := [] }

/-- No gradient plan (R270). -/
def Train.reset : Train := ⟨none, none, [], [], [], 0, [], [], none, none, [], [], []⟩

/-- No port trained, no flow valid, no route (R329, R333). -/
def Fabric.reset : Fabric := ⟨[], [], [], [], [], 0, [], [], [], []⟩

/-- Rails up, blocks released, firmware not started (R462, R471). -/
def Pwr.reset : Pwr :=
  { phase := .on, restarts := [], latched := false, tripped := false, overMs := 0, coolMs := 0, capMs := 0,
    energy := 0, held := false, resetType := 0, resetCause := 1, booted := false, recovering := false,
    mcResets := [], update := none, running := [0, 0, 0, 0], written := [], handAsk := none, handover := false,
    manifest := none, keys := none }

/-- The register fields whose reset value differs between instances: plot 0 holds every mapped logical
cell (R109, R118), and PWR_RESET_CAUSE shows the power-on reset that led here (R461, R479). -/
def resetFields : NMap Nat :=
  let put (f : Field) (v : Nat) (m : NMap Nat) : NMap Nat := mput (f.key 0) v m
  let m := (List.range 32).foldl (fun m k => put (R.PLT_MEMBER k) 0xFFFFFFFF m) []
  put R.PWR_RESET_CAUSE_CAUSE 1 m

/-- The device right after a power-on reset: rails up, every register at its reset value, memory with
nothing listed. The boot ROM has not run; the command BOOT runs it (R471). -/
def Dev.reset : Dev :=
  { fresh := 0, fields := resetFields, acting := [], shadow := [], latches := [],
    armed := [], groupSeq := none, testFails := [], nv := NonVol.delivered,
    pins := ⟨0xFF, 1, false⟩, ctl := Ctl.reset, plots := [], cells := [], sets := [],
    mem := ⟨[], [], [], [], [], [], []⟩, sow := Sow.reset, harvest := ⟨[], none, []⟩,
    train := Train.reset, fab := Fabric.reset, pip := ⟨[], []⟩, media := [], mediaWait := [], thn := [],
    pci := ⟨[], []⟩, pwr := Pwr.reset,
    numx := ⟨0, [], []⟩, rasLog := [], out := [] }

/-- The state right after a power-on reset: no command waits and no port owns the device (R529). -/
def State.reset : State := { pending := [], own := ⟨0, 0, false⟩, dev := Dev.reset }

end Sys2Proof.Machine
end

