-- ==== Sys2Proof/Machine/Flags.lean ====
section
/-! DEFINITION. Register fields by name, and every flag computation of the page header: error bits and
their reports to the RAS page, interrupt bits and vectors, counters, block states and health. -/

namespace Sys2Proof.Machine

/-- Class codes of the pages (R38). -/
abbrev GLB : Nat := 0
/-- Class code (R38). -/
abbrev TRL : Nat := 1
/-- Class code (R38). -/
abbrev CEL : Nat := 2
/-- Class code (R38). -/
abbrev PLT : Nat := 3
/-- Class code (R38). -/
abbrev MEM : Nat := 4
/-- Class code (R38). -/
abbrev LNK : Nat := 5
/-- Class code (R38). -/
abbrev FLW : Nat := 6
/-- Class code (R38). -/
abbrev COL : Nat := 7
/-- Class code (R38). -/
abbrev PCI : Nat := 8
/-- Class code (R38). -/
abbrev MED : Nat := 9
/-- Class code (R38). -/
abbrev PIP : Nat := 10
/-- Class code (R38). -/
abbrev THN : Nat := 11
/-- Class code (R38). -/
abbrev NUM : Nat := 12
/-- Class code (R38). -/
abbrev SOW : Nat := 13
/-- Class code (R38). -/
abbrev SEC : Nat := 14
/-- Class code (R38). -/
abbrev PWR : Nat := 15
/-- Class code (R38). -/
abbrev RAS : Nat := 16

/-- Instances of a class (R38); 0 for a class code that has no pages. -/
def instancesOf : Nat → Nat
  | 0 => 1 | 1 => 1 | 2 => 1152 | 3 => 64 | 4 => 8 | 5 => 32 | 6 => 1 | 7 => 4 | 8 => 2
  | 9 => 8 | 10 => 4 | 11 => 2 | 12 => 1 | 13 => 1 | 14 => 1 | 15 => 1 | 16 => 1
  | _ => 0

/-- The page exists (R38). -/
def pageExists (c i : Nat) : Bool := decide (i < instancesOf c)

/-- Every implemented page, in class and instance order (R38). -/
def allPages : List (Nat × Nat) :=
  (List.range 17).flatMap (fun c => (List.range (instancesOf c)).map (fun i => (c, i)))

/-- States of R44, as BLK_STATE shows them. -/
abbrev stOff : Nat := 0
/-- R44. -/
abbrev stReady : Nat := 1
/-- R44. -/
abbrev stRunning : Nat := 2
/-- R44. -/
abbrev stQuiesced : Nat := 3
/-- R44. -/
abbrev stCloched : Nat := 4
/-- R44. -/
abbrev stRetired : Nat := 5
/-- R44. -/
abbrev stFailed : Nat := 6

/-- The stored value of a field. -/
def Dev.getF (d : Dev) (f : Field) (i : Nat) : Nat := mget f.reset d.fields (f.key i)

/-- Stores a field, cut to its width. -/
def Dev.setF (d : Dev) (f : Field) (i v : Nat) : Dev :=
  { d with fields := mput (f.key i) (v % 2 ^ f.width) d.fields }

/-- The value of an RW field that acts (R47, R49). -/
def Dev.actF (d : Dev) (f : Field) (i : Nat) : Nat := mget f.reset d.acting (f.key i)

/-- Makes a value of an RW field act. -/
def Dev.setAct (d : Dev) (f : Field) (i v : Nat) : Dev :=
  { d with acting := mput (f.key i) (v % 2 ^ f.width) d.acting }

/-- Adds `n` to a field of its width, saturating at all ones. -/
def Dev.satAdd (d : Dev) (f : Field) (i n : Nat) : Dev :=
  d.setF f i (min (2 ^ f.width - 1) (d.getF f i + n))

/-- Adds `n` to counter k of a page, saturating (R43). -/
def Dev.bump (d : Dev) (c i k n : Nat) : Dev := d.satAdd (R.COUNTER c k) i n

/-- Sends something to the surroundings. -/
def Dev.emit (d : Dev) (o : Out) : Dev := { d with out := d.out ++ [o] }

/-- A free value and the device with its counter advanced (log entry 9). -/
def Dev.draw (d : Dev) : Nat × Dev := (Config.freeNat d.fresh, { d with fresh := d.fresh + 1 })

/-- A job is active (R68). -/
def Dev.jobActive (d : Dev) : Bool := decide (d.getF R.GLB_JOB_STATUS_ACTIVE 0 = 1)

/-- The number of the open step (R11). -/
def Dev.step (d : Dev) : Nat := d.getF R.GLB_STEP 0

/-- BLK_STATE.STATE of a page; a fused disabled or retired cell reads RETIRED (R41, R45). -/
def Dev.blk (d : Dev) (c i : Nat) : Nat :=
  if decide (c = CEL) && (d.nv.disabled.contains i || d.nv.retired.contains i) then stRetired
  else d.getF (R.BLK_STATE_STATE c) i

/-- Feature bit n is in GLB_FEATURES_ACTIVE (R58). -/
def Dev.feature (d : Dev) (n : Nat) : Bool := bitOf (d.getF (R.GLB_FEATURES_ACTIVE (n / 32)) 0) (n % 32)

/-- POLICY_HOLD acts on a page, by its own bit or by GLB's (R65, R66). -/
def Dev.held (d : Dev) (c i : Nat) : Bool :=
  decide (d.actF (R.BLK_CTRL_POLICY_HOLD c) i = 1) || decide (d.actF (R.BLK_CTRL_POLICY_HOLD GLB) 0 = 1)

/-- Raises a vector on both ports (R527). -/
def Dev.vectors (d : Dev) (v : Nat) : Dev := (d.emit (.vector 0 v)).emit (.vector 1 v)

/-- Sets a BLK_IRQ_PEND bit; the block's interrupt follows when the bit goes to 1 and is enabled
(R42, R527). -/
def Dev.irq (d : Dev) (c i b : Nat) : Dev :=
  let p := d.getF (R.BLK_IRQ_PEND c) i
  let d' := d.setF (R.BLK_IRQ_PEND c) i (setBit p b)
  if !bitOf p b && bitOf (d.actF (R.BLK_IRQ_EN_EN c) i) b then d'.vectors (256 + c) else d'

/-- The page of a class defines a BLOCK_IRQ bit for BLK_ERR bit n: every class whose rule says that the
bits follow; GLB (R67) and PLT (R117) define none. -/
def blockIrqFollows (c n : Nat) : Bool :=
  decide (16 ≤ n) && decide (c ≠ GLB) && decide (c ≠ PLT)

/-- BLK_ERR bit b of a page is masked (R42). -/
def Dev.errMasked (d : Dev) (c i b : Nat) : Bool := bitOf (d.actF (R.BLK_ERR_MASK_MASK c) i) b

/-- BLK_ERR bit b of a page is set. -/
def Dev.errBit (d : Dev) (c i b : Nat) : Bool := bitOf (d.getF (R.BLK_ERR c) i) b

/-- The flag part of an error: the bit, IRQ_PEND.ERR and the BLOCK_IRQ bit (R42). -/
def Dev.flagErr (d : Dev) (c i b : Nat) : Dev :=
  let d' := d.setF (R.BLK_ERR c) i (setBit (d.getF (R.BLK_ERR c) i) b)
  if d.errMasked c i b then d'
  else
    let d'' := d'.irq c i 0
    if blockIrqFollows c b then d''.irq c i b else d''

/-- Word 0 of a log entry (R495). -/
def rasWord0 (sev c i act b : Nat) : Nat :=
  2 ^ 31 + sev * 2 ^ 29 + c * 2 ^ 24 + i * 2 ^ 13 + act * 2 ^ 8 + b

/-- Appends a log entry or drops it when the log holds 64 (R494, R497). -/
def Dev.rasAppend (d : Dev) (w0 addr : Nat) : Dev :=
  if d.rasLog.length < 64 then
    let e : RasEntry := ⟨w0, d.step % 2 ^ 32, addr % 2 ^ 32, addr / 2 ^ 32 % 2 ^ 16⟩
    Dev.bump { d with rasLog := d.rasLog ++ [e] } RAS 0 (1 + bitsOf w0 29 2) 1
  else (d.satAdd R.RAS_LOG_STATUS_DROPPED 0 1).bump RAS 0 6 1

/-- What the RAS block does for an unmasked error other than CORR (R494): RAS_SUMMARY, RAS_FIRST, log. -/
def Dev.rasNote (d : Dev) (c i b sev act addr : Nat) : Dev :=
  let w0 := rasWord0 sev c i act b
  let d := d.setF R.RAS_SUMMARY_CLASSES 0 (setBit (d.getF R.RAS_SUMMARY_CLASSES 0) c)
  let d := if bitOf (d.getF R.RAS_FIRST_LO_ENTRY 0) 31 then d
    else (d.setF R.RAS_FIRST_LO_ENTRY 0 w0).setF R.RAS_FIRST_HI_STEP 0 d.step
  d.rasAppend w0 addr

/-- An error bit whose report opens no further report: the step below `Dev.setErr`. -/
def Dev.setErrOnce (d : Dev) (c i b sev act addr : Nat) : Dev :=
  if d.errBit c i b then d
  else if d.errMasked c i b || decide (b = 3) then d.flagErr c i b
  else (d.flagErr c i b).rasNote c i b sev act addr

/-- The RAS page's own errors that a log entry causes: LOG_OVERFLOW for a dropped entry, FATAL for a
FATAL one (R494, R496). -/
def Dev.rasFollow (d : Dev) (dropped fatal : Bool) : Dev :=
  let d := if dropped then d.setErrOnce RAS 0 17 0 0 0 else d
  if fatal then d.setErrOnce RAS 0 19 0 0 0 else d

/-- Sets BLK_ERR bit b of a page with severity, action and address for its log entry (R42, R494, R495).
CORR also counts in the RAS page (R496). -/
def Dev.setErrFull (d : Dev) (c i b sev act addr : Nat) : Dev :=
  let d := if b = 3 then d.bump RAS 0 0 1 else d
  if d.errBit c i b || d.errMasked c i b || decide (b = 3) then d.setErrOnce c i b sev act addr
  else
    (d.setErrOnce c i b sev act addr).rasFollow (decide (64 ≤ d.rasLog.length)) (decide (sev = 2))

/-- An error bit whose path is CONTAINED and records no address. -/
def Dev.setErr (d : Dev) (c i b : Nat) : Dev := d.setErrFull c i b 0 0 0

/-- LOCKED_WRITE on a page, counted on GLB (R48, R67). -/
def Dev.lockedWrite (d : Dev) (c i : Nat) : Dev := (d.bump GLB 0 2 1).setErr c i 0

/-- COMMIT_REJECT on a page, counted on GLB (R52, R67). -/
def Dev.commitReject (d : Dev) (c i : Nat) : Dev := (d.bump GLB 0 1 1).setErr c i 1

/-- BLK_COMMIT_STAT.STATE, with IRQ_PEND.COMMIT when it changes (R42). -/
def Dev.setCommitState (d : Dev) (c i v : Nat) : Dev :=
  if d.getF (R.BLK_COMMIT_STAT_STATE c) i = v then d
  else (d.setF (R.BLK_COMMIT_STAT_STATE c) i v).irq c i 1

/-- The mark of a block that has returned from CLOCHED while a job is active: it takes work again from the next
step boundary (R30, R44). -/
def returnedKey (c i : Nat) : Nat := 2 ^ 21 + c * 2048 + i

/-- Sets or clears the returned mark. -/
def Dev.setReturned (d : Dev) (c i : Nat) (v : Bool) : Dev :=
  { d with testFails := if v then mput (returnedKey c i) 1 d.testFails else mdel (returnedKey c i) d.testFails }

/-- The block has returned in the open step. -/
def Dev.isReturned (d : Dev) (c i : Nat) : Bool := (mfind (returnedKey c i) d.testFails).isSome

/-- A port's record. -/
def Dev.port (d : Dev) (i : Nat) : Port := mget Port.reset d.fab.ports i

/-- Stores a port's record. -/
def Dev.setPort (d : Dev) (i : Nat) (p : Port) : Dev :=
  { d with fab := { d.fab with ports := mput i p d.fab.ports } }

/-- Flits of a packet of LEN payload bytes (R324). -/
def flitsOf (p : Packet) : Nat := 1 + (p.len - 192 + 255) / 256

/-- Flits that a packet takes on a link: a GET's LEN names the bytes asked for, and it carries none (R326). -/
def wireFlits (p : Packet) : Nat := if p.opc = 2 then 1 else flitsOf p

/-- Some flits of the packet are still to come. -/
def QPkt.partial (e : QPkt) : Bool := decide (e.here < wireFlits e.pkt)

/-- The packet came in on a port and its flits stand in that port's receive buffers. -/
def QPkt.from (e : QPkt) (i : Nat) : Bool := e.inp.elim false (fun x => decide (x.1 = i))

/-- Frees flits of a VL's receive buffer (R323). -/
def Port.free (q : Port) (v n : Nat) : Port := { q with freed := mput v ((mget 0 q.freed v + n) % 2048) q.freed }

/-- A transit packet leaves a queue before its last flit has left: its flits that stand in a receive buffer are freed, and
those still to come are dropped (R331, R353). -/
def Dev.freeTransit (d : Dev) (e : QPkt) : Dev :=
  match e.inp with
  | some (j, v) =>
    let q := (d.port j).free v (e.here - e.sent)
    d.setPort j (if e.partial then { q with rxOpen := (mfind v q.rxOpen).elim q.rxOpen (fun o => mput v { o with way := .drop } q.rxOpen) }
      else q)
  | none => d

/-- Other ports' queues lose the transit packets that were still arriving on port i, and no longer hold its buffers. -/
def Dev.forgetInput (d : Dev) (i : Nat) : Dev :=
  { d with fab := { d.fab with ports := d.fab.ports.map (fun x => (x.1, { x.2 with
      queue := x.2.queue.map (fun y => (y.1, (y.2.filter (fun e => !(e.from i && e.partial))).map (fun e =>
        if e.from i then { e with inp := none } else e))) })) } }

/-- What a port forgets at a retraining or a loss (R353): replay buffer, credits, the packets it holds; partly forwarded
transit packets are dropped and freed. -/
def Dev.portDrop (d : Dev) (i : Nat) : Dev :=
  let d := (((d.port i).queue.flatMap (·.2)).foldl (fun d e => d.freeTransit e) d).forgetInput i
  d.setPort i { Port.reset with neighbour := (d.port i).neighbour }

/-- The link of a block that is neither READY nor RUNNING is DOWN (R320); it trains again when the block returns. A port
that was LOST or ran on 7 lanes changes its BLK_HEALTH (R42, R492). -/
def Dev.portDown (d : Dev) (i : Nat) : Dev :=
  let d' := (((d.portDrop i).setF R.LNK_STATUS_LSTATE i 0).setF R.LNK_STATUS_LANES i 0).setF R.LNK_STATUS_SPARED i 0
  if d.getF R.LNK_STATUS_LSTATE i = 4 ∨ d.getF R.LNK_STATUS_SPARED i = 1 then d'.irq LNK i 4 else d'

/-- What follows a block's new state on its page: a port out of service is DOWN (R320); NEXT_TAG is 0 when a cell enters
RUNNING (R80, R116); GLB's GRADE is 3 from its entry into FAILED (R42, R492). -/
def Dev.stateFollows (d : Dev) (c i v : Nat) : Dev :=
  if c = LNK ∧ v ≠ stReady ∧ v ≠ stRunning then d.portDown i
  else if c = CEL ∧ v = stRunning then d.setF R.CEL_ARRAY_STATUS_NEXT_TAG i 0
  else if c = GLB ∧ v = stFailed then d.irq GLB 0 4
  else d

/-- BLK_STATE.STATE, with IRQ_PEND.STATE when it changes (R42, R44). -/
def Dev.setBlk (d : Dev) (c i v : Nat) : Dev :=
  if d.blk c i = v then d
  else
    (((d.setReturned c i (decide (d.blk c i = stCloched) && decide (v = stReady) && d.jobActive)).setF (R.BLK_STATE_STATE c) i v).irq
      c i 2).stateFollows c i v

/-- A policy decision was taken (R42). -/
def Dev.policyTaken (d : Dev) (c i : Nat) : Dev := d.irq c i 3

/-- A policy decision was withheld under POLICY_HOLD (R65). -/
def Dev.policyWithheld (d : Dev) (c i : Nat) : Dev := (d.irq c i 3).bump GLB 0 3 1

/-- Raises REPLACE_REQ on a page and on GLB with a reason (R491, R496, R497). -/
def Dev.raiseReplace (d : Dev) (c i reason : Nat) : Dev :=
  let mark (d : Dev) (c i : Nat) : Dev :=
    let d' := d.setF (R.BLK_HEALTH_REPLACE_REQ c) i 1
    let d' := if d.getF (R.BLK_HEALTH_REASON c) i = 0 then d'.setF (R.BLK_HEALTH_REASON c) i reason else d'
    if d.getF (R.BLK_HEALTH_REPLACE_REQ c) i = 1 then d' else d'.irq c i 4
  let rs := d.getF R.RAS_REPLACE_REASONS 0
  if bitOf rs (reason - 1) && decide (d.getF (R.BLK_HEALTH_REPLACE_REQ c) i = 1) then d
  else
    let d := mark (mark d c i) GLB 0
    let d := d.setF R.RAS_REPLACE_REASONS 0 (setBit rs (reason - 1))
    let d := if d.getF R.RAS_REPLACE_FIRST 0 = 0 then d.setF R.RAS_REPLACE_FIRST 0 reason else d
    (d.bump RAS 0 7 1).setErr RAS 0 18

/-- A block enters FAILED (R44); for GLB this is the end of FATAL paths (R481). -/
def Dev.failBlock (d : Dev) (c i sev : Nat) : Dev :=
  (d.setBlk c i stFailed).setErrFull c i 5 sev 9 0

/-- The pin FAULT_L is asserted (R539). -/
def Dev.faultL (d : Dev) : Bool := d.pwr.latched || d.pwr.tripped || decide (d.blk GLB 0 = stFailed)

/-- A page's error bits that are set and unmasked. -/
def Dev.openErrs (d : Dev) (c i : Nat) : Nat :=
  clearBits (d.getF (R.BLK_ERR c) i) (d.actF (R.BLK_ERR_MASK_MASK c) i)

/-- Clears RAS_SUMMARY bit c when no page of class c has an unmasked error set (R494). -/
def Dev.refreshSummary (d : Dev) (c : Nat) : Dev :=
  if (List.range (instancesOf c)).all (fun i => decide (d.openErrs c i = 0)) then
    d.setF R.RAS_SUMMARY_CLASSES 0 (clearBits (d.getF R.RAS_SUMMARY_CLASSES 0) (2 ^ c))
  else d

/-- The rails are up and the blocks are released: with a rail missing no logic runs (R453), and a warm reset holds
every block (R462). -/
def Dev.up (d : Dev) : Bool := decide (d.pwr.phase = .on) && !d.pwr.held

/-- A command that leaves queue and ownership alone, as an effect on the device; a device that is not up takes
none. -/
def State.onDev (s : State) (f : Dev → Dev) : Res := if s.dev.up then .next { s with dev := f s.dev } else .next s

end Sys2Proof.Machine
end

