-- ==== Sys2Proof/Machine/Ops.lean ====
section
/-! DEFINITION. The shared operations over stacked memory, the Trellis maps, the completion rings and
command order. -/

namespace Sys2Proof.Machine

/-! ### The address map -/

/-- The first address above local memory (R285). -/
abbrev memTop : Nat := 0x6000000000

/-- The base of the sowing log region (R288). -/
abbrev logBase : Nat := 0x5FFE000000

/-- MIRROR_BASE (R288). -/
def Dev.mirrorBase (d : Dev) : Nat := logBase - d.getF R.MEM_REGIONS_MIRROR_GIB 0 * 2 ^ 30

/-- CACHE_BASE (R288). -/
def Dev.cacheBase (d : Dev) : Nat := d.mirrorBase - d.getF R.MEM_REGIONS_CACHE_GIB 0 * 2 ^ 30

/-- The stack of a local address under an interleave (R286). -/
def stackIn (mode a : Nat) : Nat :=
  match mode with
  | 0 => bitsOf a 12 3
  | 1 => bitsOf a 16 3
  | _ => a / 0xC00000000

/-- The stack offset of a local address under an interleave (R286). -/
def offsetIn (mode a : Nat) : Nat :=
  match mode with
  | 0 => a / 2 ^ 15 * 2 ^ 12 + a % 2 ^ 12
  | 1 => a / 2 ^ 19 * 2 ^ 16 + a % 2 ^ 16
  | _ => a % 0xC00000000

/-- The channel of a stack offset (R286). -/
def channelOf (o : Nat) : Nat := bitsOf o 8 4

/-- The stack of a local address (R286). -/
def Dev.stackOf (d : Dev) (a : Nat) : Nat := stackIn (d.getF R.MEM_MAP_INTERLEAVE 0) a

/-- The stack offset of a local address (R286). -/
def Dev.offsetOf (d : Dev) (a : Nat) : Nat := offsetIn (d.getF R.MEM_MAP_INTERLEAVE 0) a

/-- The range lies in job memory (R288). -/
def Dev.inJob (d : Dev) (a n : Nat) : Bool := decide (a + n ≤ d.cacheBase)

/-- The range lies in job memory or the sample cache, the regions open to every local requester (R290). -/
def Dev.localOk (d : Dev) (a n : Nat) : Bool := decide (a + n ≤ d.mirrorBase)

/-- The offset in the mirror image of an address inside a valid item (R373, R374). -/
def itemOffset (a : Nat) : List Item → Option Nat
  | [] => none
  | it :: its =>
    if it.valid && decide (it.cls < 5) && inRange a it.addr it.length then some (it.imageOff + (a - it.addr))
    else if it.valid && decide (it.cls < 5) && inRange a it.sAddr it.sLength then
      some (it.imageOff + it.length + (a - it.sAddr))
    else itemOffset a its

/-- The region code of a local address, as MEM_UE_HI.REGION shows it (R311, R314). -/
def Dev.regionOf (d : Dev) (a : Nat) : Nat :=
  if logBase ≤ a then 4 else if d.mirrorBase ≤ a then 3 else if d.cacheBase ≤ a then 2
  else if (itemOffset a d.sow.items).isSome then 1 else 0

/-! ### The logical-to-physical map -/

/-- Designation of a physical cell: 0 logical, 1 spare, 2 disabled (R25, R116). -/
def Dev.desig (d : Dev) (p : Nat) : Nat :=
  if d.nv.disabled.contains p then 2 else if d.nv.spares.contains p then 1 else 0

/-- The grade's number of logical cells (R3). -/
def Dev.logicalCells (d : Dev) : Nat := 1024 - 64 * d.nv.grade

/-- Merges two ascending lists. -/
def mergeAsc : List Nat → List Nat → List Nat
  | xs, ys => ys.foldl (fun acc y => insertSet y acc) xs

/-- The cell that logical number l holds after manufacture: the l-th cell fused logical (R26). -/
def nthAllowed (l : Nat) (excluded : List Nat) : Nat :=
  excluded.foldl (fun x e => if e ≤ x then x + 1 else x) l

/-- The physical cell of a logical number, or none (R26, R27). -/
def Dev.physOf (d : Dev) (l : Nat) : Option Nat :=
  if d.logicalCells ≤ l then none
  else match mfind l d.nv.mapChanges with
    | some v => v
    | none => some (nthAllowed l (mergeAsc d.nv.spares d.nv.disabled))

/-- The logical number that a physical cell holds, or none (R26, R27). -/
def Dev.logicalOf (d : Dev) (p : Nat) : Option Nat :=
  match d.nv.mapChanges.find? (fun e => decide (e.2 = some p)) with
  | some e => some e.1
  | none =>
    if d.desig p ≠ 0 then none
    else
      let l := p - ((mergeAsc d.nv.spares d.nv.disabled).filter (· < p)).length
      if (mfind l d.nv.mapChanges).isSome then none else some l

/-- The logical numbers that map to no cell (R27). -/
def Dev.unmapped (d : Dev) : List Nat :=
  (d.nv.mapChanges.filter (fun e => decide (e.2 = none))).map (·.1)

/-- Spare cells neither grafted nor retired (R68). -/
def Dev.sparesLeft (d : Dev) : List Nat :=
  d.nv.spares.filter (fun p => !d.nv.grafted.contains p && !d.nv.retired.contains p)

/-! ### Wear and grade -/

/-- The valid bypasses of a cell: fused and field ones together, lowest first (R484); with FUSE_POLICY = GRADE every fused
one is invalid (R483). -/
def Dev.bypasses (d : Dev) (p : Nat) : Bypass :=
  let a := if d.nv.fusePolicy = 1 then ⟨[], []⟩ else mget ⟨[], []⟩ d.nv.fusedBypass p
  let b := mget ⟨[], []⟩ d.nv.fieldBypass p
  ⟨mergeAsc a.rows b.rows, mergeAsc a.cols b.cols⟩

/-- The physical row or column that a logical one stands for: the physical ones in ascending order without those bypassed;
none beyond them (R107). -/
def physicalLine (bypassed : List Nat) (l : Nat) : Option Nat := ((List.range 66).filter (fun k => !bypassed.contains k))[l]?

/-- The physical row of a cell's logical row (R107). -/
def Dev.physicalRow (d : Dev) (p row : Nat) : Option Nat := physicalLine (d.bypasses p).rows row

/-- The physical column of a cell's logical column (R107). -/
def Dev.physicalCol (d : Dev) (p col : Nat) : Option Nat := physicalLine (d.bypasses p).cols col

/-- WEAR and GRADE of a cell (R484). -/
def Dev.cellHealth (d : Dev) (p : Nat) : Nat × Nat :=
  if d.blk CEL p = stRetired then (255, 3)
  else
    let b := d.bypasses p
    let n := b.rows.length + b.cols.length
    (255 * n / 4, if n = 0 then 0 else 1)

/-- Ports that are LOST (R320, R497). -/
def Dev.portsLost (d : Dev) : Nat :=
  ((List.range 32).filter (fun i => decide (d.getF R.LNK_STATUS_LSTATE i = 4))).length

/-- Faulted channels of all stacks (R497). -/
def Dev.channelsFaulted (d : Dev) : Nat :=
  ((List.range 8).map (fun k => ((List.range 16).filter (fun c => bitOf (mget 0 d.nv.chanFault k) c)).length)).sum

/-- TRL WEAR (R492). -/
def Dev.trlWear (d : Dev) : Nat :=
  let fused := d.nv.spares.length
  if fused = 0 then 255 else 255 * (fused - d.sparesLeft.length) / fused

/-- GLB GRADE (R492). -/
def Dev.glbGrade (d : Dev) : Nat :=
  if d.getF (R.BLK_STATE_STATE GLB) 0 = stFailed then 3
  else if d.unmapped != [] || decide (d.portsLost ≠ 0) || decide (d.channelsFaulted ≠ 0)
      || decide (d.getF (R.BLK_HEALTH_REPLACE_REQ GLB) 0 = 1) then 2
  else if d.nv.fieldBypass != [] || d.nv.grafted != [] || d.nv.rowsUsed != []
      || (List.range 32).any (fun i => decide (d.getF R.LNK_STATUS_SPARED i = 1)) then 1
  else 0

/-- WEAR and GRADE of a port: 8 lanes, 7 lanes or LOST (R492). -/
def Dev.portHealth (d : Dev) (i : Nat) : Nat × Nat :=
  if d.getF R.LNK_STATUS_LSTATE i = 4 then (255, 2) else if d.getF R.LNK_STATUS_SPARED i = 1 then (128, 1) else (0, 0)

/-- WEAR and GRADE of a stack, from the spare rows in use (R304). -/
def Dev.memWear (d : Dev) (k : Nat) : Nat × Nat :=
  let used := mget 0 d.nv.rowsUsed k
  (min 255 (255 * used / 131072), if used = 0 then 0 else 1)

/-- WEAR of a page other than GLB. -/
def Dev.wearOf (d : Dev) (c i : Nat) : Nat :=
  match c with
  | 1 => d.trlWear
  | 2 => (d.cellHealth i).1
  | 4 => (d.memWear i).1
  | 5 => (d.portHealth i).1
  | _ => d.getF (R.BLK_HEALTH_WEAR c) i

/-- GLB WEAR: the largest WEAR of any page (R492). -/
def Dev.glbWear (d : Dev) : Nat :=
  allPages.foldl (fun w p => if p.1 = GLB then w else max w (d.wearOf p.1 p.2)) 0

/-- IRQ_PEND.HEALTH of TRL and GLB, when an event that took the device from `d₀` to `d` changed their WEAR or GRADE
(R42, R492). -/
def Dev.healthFrom (d₀ d : Dev) : Dev :=
  let d := if d₀.trlWear = d.trlWear then d else d.irq TRL 0 4
  if d₀.glbWear = d.glbWear ∧ d₀.glbGrade = d.glbGrade then d else d.irq GLB 0 4

/-- Records a word in MEM_UE when VALID is 0 (R296, R314). -/
def Dev.recordUe (d : Dev) (a source : Nat) : Dev :=
  let k := d.stackOf a
  if d.getF R.MEM_UE_HI_VALID k = 1 then d
  else
    ((((d.setF R.MEM_UE_LO_ADDR_LO k a).setF R.MEM_UE_HI_ADDR_HI k (a / 2 ^ 32)).setF R.MEM_UE_HI_REGION k
      (d.regionOf a)).setF R.MEM_UE_HI_SOURCE k source).setF R.MEM_UE_HI_VALID k 1

/-! ### Row retirement -/

/-- What follows a retired row of stack k: IRQ_PEND.HEALTH where WEAR or GRADE changed, and SPARES_LOW with its
REPLACE_REQ from 117,965 spare rows on (R304, R491). -/
def Dev.memHealth (d₀ d : Dev) (k : Nat) : Dev :=
  let d' := Dev.healthFrom d₀ (if d₀.memWear k = d.memWear k then d else d.irq MEM k 4)
  if 117965 ≤ mget 0 d.nv.rowsUsed k then (d'.setErr MEM k 19).raiseReplace MEM k 2 else d'

/-- The row of a stack offset, numbered over the stacks. -/
def rowKey (k off : Nat) : Nat := k * 2 ^ 40 + Config.dramRow k off

/-- Retires the row of a stack offset onto a spare row of its bank, or keeps it in service when the bank has none (R303,
R304): the spare row in use, 256 for a row kept in its place, 257 more than the spare row for one kept on it. A spare
row that fails is retired like any other. The copy corrects single-bit errors. -/
def Dev.retireRow (d : Dev) (k off : Nat) : Dev :=
  let key := rowKey k off
  let bank := k * 512 + Config.dramBank k (Config.dramRow k off) % 512
  let old := mfind key d.nv.rowRemap
  if old.elim false (fun v => decide (256 ≤ v)) then d
  else
    let used := mget 0 d.nv.bankSpares bank
    if used < 256 then
      let nv := { d.nv with rowRemap := mput key used d.nv.rowRemap,
                            bankSpares := mput bank (used + 1) d.nv.bankSpares,
                            rowsUsed := mput k (mget 0 d.nv.rowsUsed k + 1) d.nv.rowsUsed }
      let flips := d.mem.flips.filter (fun e => !(decide (e.2 = 1) && decide (d.stackOf (8 * e.1) = k)
        && decide (rowKey k (d.offsetOf (8 * e.1)) = key)))
      Dev.memHealth d ((Dev.bump { d with nv := nv, mem := { d.mem with flips := flips } } MEM k 6 1).setErrFull MEM k 18 0 2 0) k
    else
      let nv := { d.nv with rowRemap := mput key (old.elim 256 (fun v => 257 + v)) d.nv.rowRemap,
                            rowsUnspared := mput k (mget 0 d.nv.rowsUnspared k + 1) d.nv.rowsUnspared }
      Dev.setErr { d with nv := nv } MEM k 20

/-- The line that a byte lies in is valid; no word of another line is corrected or poisoned (R296, R298). -/
def Dev.lineValid (d : Dev) (a : Nat) : Bool := d.mem.valid.contains (a / 64)

/-- A single-bit error of a word is corrected, counted and, at CE_ROW_LIM distinct words of its row within 24 hours,
retires the row (R295, R303); POWER_POLICY_TICK lets the words age. -/
def Dev.correctWord (d : Dev) (a : Nat) : Dev :=
  if !d.lineValid a then d
  else
    let k := d.stackOf a
    let off := d.offsetOf a
    let d := (d.bump MEM k 2 1).setErr MEM k 3
    let row := rowKey k off
    let words := mput (a / 8) 0 (mget [] d.mem.rowCe row)
    let lim := max 1 (d.getF R.MEM_RETIRE_CFG_CE_ROW_LIM k)
    if lim ≤ words.length then { d with mem := { d.mem with rowCe := mdel row d.mem.rowCe } }.retireRow k off
    else { d with mem := { d.mem with rowCe := mput row words d.mem.rowCe } }

/-- A word with a double-bit error is poisoned and its row retired (R296, R303); `source` is 0 for a read, 1 for patrol
scrub, 2 for a read-modify-write. -/
def Dev.poisonWord (d : Dev) (a source : Nat) : Dev :=
  if !d.lineValid a then d
  else
    let k := d.stackOf a
    let w := a / 8
    let d := { d with mem := { d.mem with poison := insertSet w d.mem.poison } }
    let d := (d.recordUe (w * 8) source).bump MEM k 3 1
    let d := if source = 1 then (d.setErrFull MEM k 4 1 0 (w * 8)).setErrFull MEM k 17 1 0 (w * 8)
      else (d.setErrFull MEM k 4 1 0 (w * 8)).setErrFull MEM k 16 1 0 (w * 8)
    d.retireRow k (d.offsetOf a)

/-- An access that reads word w finds the wrong bits that stand in its cells: one is corrected and written back, two
poison it (R295, R296). -/
def Dev.meetWord (d : Dev) (w source : Nat) : Dev :=
  match mget 0 d.mem.flips w with
  | 0 => d
  | 1 => { d with mem := { d.mem with flips := mdel w d.mem.flips } }.correctWord (w * 8)
  | _ => { d with mem := { d.mem with flips := mdel w d.mem.flips } }.poisonWord (w * 8) source

/-! ### Reads, writes, staked adds and invalidation -/

/-- `n` bytes at a local address; a line that is not valid lists no byte and so reads zero (R298). -/
def Dev.bytes (d : Dev) (a n : Nat) : List Byte := bytesAt d.mem.bytes a n

/-- A little-endian number of `n` bytes in local memory. -/
def Dev.nat (d : Dev) (a n : Nat) : Nat := natAt d.mem.bytes a n

/-- A word that a range touches. -/
def touches (a n w : Nat) : Bool := decide (0 < n) && decide (a / 8 ≤ w) && decide (w ≤ (a + n - 1) / 8)

/-- The words of a range that are poisoned. -/
def Dev.poisonedIn (d : Dev) (a n : Nat) : List Nat := d.mem.poison.filter (touches a n)

/-- The words of a range whose cells hold wrong bits that no access has met (R295). -/
def Dev.flippedIn (d : Dev) (a n : Nat) : List Nat := (d.mem.flips.map (·.1)).filter (touches a n)

/-- The lowest address of a range at which an access finds an uncorrectable word: a poisoned one, or one with two wrong
bits (R295, R296). -/
def Dev.poisonIn (d : Dev) (a n : Nat) : Option Nat :=
  ((d.poisonedIn a n ++ (d.flippedIn a n).filter (fun w => decide (2 ≤ mget 0 d.mem.flips w))).min?).map (· * 8)

/-- A read meets a poisoned word: the record, UNCORR and POISON_READ (R296). -/
def Dev.poisonRead (d : Dev) (a : Nat) : Dev :=
  let k := d.stackOf a
  ((d.recordUe a 0).setErrFull MEM k 4 1 0 a).setErrFull MEM k 16 1 0 a

/-- A read-modify-write meets a poisoned word and drops it (R297). -/
def Dev.rmwDropped (d : Dev) (a : Nat) : Dev :=
  let k := d.stackOf a
  ((d.recordUe a 2).bump MEM k 7 1).setErrFull MEM k 21 1 0 a

/-- Cuts a run of bytes at multiples of `unit`: (address, bytes) pieces, in address order. -/
def pieces (unit : Nat) : Nat → Nat → List Byte → List (Nat × List Byte)
  | 0, _, _ => []
  | fuel + 1, a, bs =>
    if bs.isEmpty then []
    else
      let n := unit - a % unit
      (a, bs.take n) :: pieces unit fuel (a + n) (bs.drop n)

/-- The line starts that a range touches. -/
def linesIn (a n : Nat) : List Nat :=
  if n = 0 then [] else (List.range ((a + n - 1) / 64 - a / 64 + 1)).map (fun k => a / 64 + k)

/-- Meets the wrong bits of every word of a range, as an access that reads it does (R295). -/
def Dev.meetRange (d : Dev) (a n source : Nat) : Dev := (d.flippedIn a n).foldl (fun d w => d.meetWord w source) d

/-- Cuts a range at multiples of 4 KiB, the finest interleave: (address, length) spans, in address order. -/
def spans : Nat → Nat → Nat → List (Nat × Nat)
  | 0, _, _ => []
  | fuel + 1, a, n =>
    if n = 0 then []
    else
      let m := min n (4096 - a % 4096)
      (a, m) :: spans fuel (a + m) (n - m)

/-- What a read of a range does beside delivering its bytes: each stack counts those it holds (R313), wrong bits are met
word by word (R295), and every word that was poisoned is reported on its stack (R296). -/
def Dev.noteRead (d : Dev) (a n : Nat) : Dev :=
  let bad := d.poisonedIn a n
  let d := (spans (n / 4096 + 2) a n).foldl (fun d p => d.bump MEM (d.stackOf p.1) 0 p.2) d
  let d := d.meetRange a n 0
  bad.foldl (fun d w => d.poisonRead (w * 8)) d

/-- Writes bytes inside one word: a partly covered word is read first, and a poisoned one keeps its poison and drops the
bytes; a whole word gets fresh check bits (R295 to R297). -/
def Dev.writeWord (d : Dev) (a : Nat) (bs : List Byte) : Dev :=
  let d := if bs.length < 8 then d.meetWord (a / 8) 2 else d
  if decide (bs.length < 8) && d.mem.poison.contains (a / 8) then d.rmwDropped (a / 8 * 8)
  else
    { d with mem := { d.mem with
        bytes := setBytes d.mem.bytes a bs, poison := d.mem.poison.erase (a / 8), flips := mdel (a / 8) d.mem.flips } }

/-- The device captures deltas: its pairing is neither UNPAIRED nor REFUSED (R372). -/
def Dev.captures (d : Dev) : Bool :=
  let st := d.getF R.SOW_PAIR_STATUS_STATE 0
  decide (st ≠ 0) && decide (st ≠ 5)

/-- A delta of the open step enters the mirror outbound queue; it counts in DELTA_LINES and DELTA_CRC (R375,
R383). -/
def Dev.queueDelta (d : Dev) (off : Nat) (line : List Byte) : Dev :=
  { d with sow := { d.sow with
      queue := d.sow.queue ++ [.delta d.step off line], deltaLines := d.sow.deltaLines + 1,
      deltaCrc := crc64Run d.sow.deltaCrc (leBytes 8 off ++ line) } }

/-- The index of the valid item that an address lies in, counting from `k`. -/
def itemIndex (a : Nat) : Nat → List Item → Option Nat
  | _, [] => none
  | k, it :: its =>
    if it.valid && decide (it.cls < 5) && (inRange a it.addr it.length || inRange a it.sAddr it.sLength) then some k
    else itemIndex a (k + 1) its

/-- Captures the line as a delta of the open step when it lies in an item range (R375), and notes the item as
written in the step (R391). -/
def Dev.capture (d : Dev) (line : Nat) : Dev :=
  match itemIndex (line * 64) 0 d.sow.items with
  | some k =>
    let d := { d with sow := { d.sow with touched := insertSet k d.sow.touched } }
    if d.captures then d.queueDelta ((itemOffset (line * 64) d.sow.items).getD 0) (d.bytes (line * 64) 64) else d
  | none => d

/-- Writes bytes inside one line and sets its valid bit (R298); `cap` tells whether the write is
captured. -/
def Dev.writeLine (d : Dev) (cap : Bool) (a : Nat) (bs : List Byte) : Dev :=
  let d := { d with mem := { d.mem with valid := insertSet (a / 64) d.mem.valid } }
  let d := (pieces 8 9 a bs).foldl (fun d p => d.writeWord p.1 p.2) d
  let d := d.bump MEM (d.stackOf a) 1 bs.length
  if cap then d.capture (a / 64) else d

/-- A write of a run of bytes, line by line (R298, R375). -/
def Dev.write (d : Dev) (a : Nat) (bs : List Byte) : Dev :=
  (pieces 64 bs.length a bs).foldl (fun d p => d.writeLine true p.1 p.2) d

/-- A write that is not captured: by a restore, by the mirror stream or by the MC into the log and
mirror regions (R290, R375). -/
def Dev.writeRaw (d : Dev) (a : Nat) (bs : List Byte) : Dev :=
  (pieces 64 bs.length a bs).foldl (fun d p => d.writeLine false p.1 p.2) d

/-- A staked add into memory (R308): the word, its width in bits and the addend as a bit pattern. Only an add that is
applied counts in counter 5 (R297, R313). -/
def Dev.stakedAdd (d : Dev) (width a q : Nat) : Dev :=
  let n := width / 8
  let d := d.meetRange a n 2
  match d.poisonIn a n with
  | some w => d.rmwDropped w
  | none =>
    let d := d.bump MEM (d.stackOf a) 5 1
    let old := d.nat a n
    let stick := 2 ^ (width - 1)
    let new := if decide (width = 128) && (decide (old = stick) || decide (q % 2 ^ width = stick)) then stick
      else (old + q) % 2 ^ width
    d.write a (leBytes n new)

/-- Clears the valid bits, contents and poison of a range of whole lines (R299). -/
def Dev.invalidate (d : Dev) (a n : Nat) : Dev :=
  { d with mem := { d.mem with
      bytes := d.mem.bytes.filter (fun c => !inRange c.1 a n)
      valid := d.mem.valid.filter (fun l => !inRange (l * 64) a n)
      poison := d.mem.poison.filter (fun w => !inRange (w * 8) a n)
      flips := d.mem.flips.filter (fun e => !inRange (e.1 * 8) a n) } }

/-- Invalidates every line of every stack (R287, R299). -/
def Dev.invalidateAll (d : Dev) : Dev :=
  { d with mem := { d.mem with bytes := [], valid := [], poison := [], flips := [] } }

/-! ### The plot map -/

/-- Logical cell l is a member of plot k in the applied plot map (R118). -/
def Dev.isMember (d : Dev) (k l : Nat) : Bool := bitOf (d.getF (R.PLT_MEMBER (l / 32)) k) (l % 32)

/-- The plot of a logical cell (R29). -/
def Dev.plotOf (d : Dev) (l : Nat) : Option Nat := (List.range 64).find? (fun k => d.isMember k l)

/-- The mapped members of a plot, ascending. -/
def Dev.members (d : Dev) (k : Nat) : List Nat :=
  (List.range d.logicalCells).filter (fun l => d.isMember k l && !d.unmapped.contains l)

/-- The logical cell is cloched: its physical cell is CLOCHED, RETIRED or FAILED. -/
def Dev.isCloched (d : Dev) (l : Nat) : Bool :=
  match d.physOf l with
  | some p => decide (stCloched ≤ d.blk CEL p)
  | none => true

/-- The plot holds cells (R29). -/
def Dev.plotActive (d : Dev) (k : Nat) : Bool := (d.members k) != []

/-- The plot of a physical cell: its logical number's plot. -/
def Dev.plotOfCell (d : Dev) (p : Nat) : Option Nat := (d.logicalOf p).bind d.plotOf

/-! ### Cells and plots as data -/

/-- The cell record of a physical cell. -/
def Dev.cell (d : Dev) (p : Nat) : Cell := mget Cell.reset d.cells p

/-- Stores a cell record. -/
def Dev.setCell (d : Dev) (p : Nat) (c : Cell) : Dev := { d with cells := mput p c d.cells }

/-- The run of a plot. -/
def Dev.plot (d : Dev) (k : Nat) : PlotRun := mget PlotRun.idle d.plots k

/-- Stores the run of a plot. -/
def Dev.setPlot (d : Dev) (k : Nat) (r : PlotRun) : Dev := { d with plots := mput k r d.plots }

/-- A phase of a plot. -/
def PlotRun.phase (r : PlotRun) (ph : Nat) : PhaseRun := mget PhaseRun.start r.phases ph

/-- Stores a phase of a plot. -/
def Dev.setPhase (d : Dev) (k ph : Nat) (p : PhaseRun) : Dev :=
  let r := d.plot k
  d.setPlot k { r with phases := mput ph p r.phases }

/-- No cell waits for staging any more: a set has been applied or discarded (R309, R310). -/
def Dev.stageFreed (d : Dev) : Dev :=
  { d with cells := d.cells.map (fun (e : Nat × Cell) => (e.1, { e.2 with stageWait := false })) }

/-- Returns the tiles that a cell holds to the head of their phase's queue and discards its open set,
statistics and summaries (R94, R101, R185). The tiles' plain state in the cell goes with them. -/
def Dev.dropTiles (d : Dev) (p : Nat) : Dev :=
  let c := d.cell p
  let d := c.tiles.foldl (fun (d : Dev) (t : Tile) =>
    let ph := (d.plot t.plot).phase t.phase
    d.setPhase t.plot t.phase { ph with returned := insertSet t.index ph.returned }) d
  (d.setCell p { c with tiles := [], adds := [], stats := [], sums := [], hits := [], lostSums := [], poisoned := false,
                        passes := [], zeroPts := [], dma := [], waiting := none, samples := [], used := [] }).stageFreed

/-- As `dropTiles`, each returned tile counted in its plot (R101, R117). -/
def Dev.returnTile (d : Dev) (p : Nat) : Dev :=
  (((d.cell p).tiles).foldl (fun (d : Dev) (t : Tile) => d.bump PLT t.plot 3 1) d).dropTiles p

/-- The cell's registers when it is taken out of service: no tile, nothing in flight (R116). -/
def Dev.clearTileRegs (d : Dev) (p : Nat) : Dev :=
  ((d.setF R.CEL_TILE_STATUS_HOLDING p 0).setF R.CEL_ARRAY_STATUS_IN_FLIGHT p 0).setF R.CEL_SEQ_STATUS_RUN p 0

/-- The cell is in service: READY, RUNNING or QUIESCED. -/
def Dev.inService (d : Dev) (p : Nat) : Bool := decide (1 ≤ d.blk CEL p) && decide (d.blk CEL p ≤ 3)

/-- The logical cell runs no pass of the open step: it is cloched, or has returned in the step (R30). -/
def Dev.isOut (d : Dev) (l : Nat) : Bool := d.isCloched l || (d.physOf l).elim true (fun p => d.isReturned CEL p)

/-- An active plot no cell of which runs passes in the open step (R31). -/
def Dev.starved (d : Dev) (k : Nat) : Bool := d.plotActive k && (d.members k).all d.isOut

/-- An active plot that has no uncloched cell (R31). -/
def Dev.cellless (d : Dev) (k : Nat) : Bool := d.plotActive k && (d.members k).all d.isCloched

/-- The plot runs a program that no trap has stopped. -/
def PlotRun.active (r : PlotRun) : Bool := r.cmd.isSome && !r.stopped

/-- Argument k of a command; 0 when the entry has none. -/
def argOf (c : JobCmd) (k : Nat) : Nat := c.args.getD k 0

/-- A cell in service takes part in the run of plot k from the program's entry, its instruction store loaded with the
program (R95, R99, R523); one that has returned in the step waits for its boundary (R30). -/
def Dev.joinRun (d : Dev) (k p : Nat) : Dev :=
  if !d.inService p || d.isReturned CEL p then d
  else
    let r := d.plot k
    let c := d.cell p
    let d := d.setPlot k { r with halted := r.halted.erase p }
    let d := d.setCell p { c with plot := some k, program := some r.program, istore := r.code, phase := r.base, getPc := 0, getStack := [],
                                  stack := [], waiting := none }
    let d := ((d.setF R.CEL_SEQ_STATUS_RUN p 1).setF R.CEL_SEQ_STATUS_PC p (r.cmd.elim 0 (fun c => argOf c 3))).setF
      R.CEL_TILE_STATUS_HOLDING p 0
    if d.blk CEL p = stReady then d.setBlk CEL p stRunning else d

/-- The plot whose cells a starved plot borrows: the active one with the most cells, the lowest on ties (R31). A plot
that is starved itself has none to lend (log entry 18). -/
def Dev.lender (d : Dev) (k : Nat) : Option Nat :=
  (((List.range 64).filter (fun j => decide (j ≠ k) && d.plotActive j && !d.starved j)).foldl
    (fun (b : Option (Nat × Nat)) j =>
      let n := (d.members j).length
      match b with
      | some x => if x.2 < n then some (j, n) else b
      | none => some (j, n)) none).map (·.1)

/-- The lender's cells that do no work of their own take part in the run of a starved plot (R31). -/
def Dev.borrow (d : Dev) (k : Nat) : Dev :=
  if (d.plot k).active && d.starved k then
    match d.lender k with
    | some j =>
      ((d.members j).filterMap d.physOf).foldl (fun d p =>
        if d.getF R.CEL_SEQ_STATUS_RUN p = 0 ∧ (d.plot k).halted.contains p = false then d.joinRun k p else d) d
    | none => d
  else d

/-- A cell leaves service into CLOCHED: its tiles return, its open set goes, its plot may borrow (R31,
R44, R94, R101, R498). -/
def Dev.clocheCell (d : Dev) (p : Nat) : Dev :=
  let d := (d.returnTile p).clearTileRegs p
  let d := (d.setBlk CEL p stCloched).bump TRL 0 0 1
  match d.plotOfCell p with
  | some k => d.borrow k
  | none => d

/-- The mark that a cloched block has passed the test of its class since it was cloched. -/
def passedKey (c i : Nat) : Nat := 2 ^ 20 + c * 2048 + i

/-- The block has passed its test since it was cloched. -/
def Dev.testPassed (d : Dev) (c i : Nat) : Bool := (mfind (passedKey c i) d.testFails).isSome

/-- Sets or clears the passed mark. -/
def Dev.setPassed (d : Dev) (c i : Nat) (v : Bool) : Dev :=
  { d with testFails := if v then mput (passedKey c i) 1 d.testFails else mdel (passedKey c i) d.testFails }

/-- The mark of a cell that the MC has cloched on a fault (R486). -/
def faultKey (p : Nat) : Nat := 2 ^ 22 + p

/-- The cell returns from a cloche on a fault: the MC clears its CLOCHE_REQ (R486). -/
def Dev.endFault (d : Dev) (p : Nat) : Dev :=
  if (mfind (faultKey p) d.testFails).isNone then d
  else
    let f := R.BLK_CTRL_CLOCHE_REQ CEL
    ((({ d with testFails := mdel (faultKey p) d.testFails }).setF f p 0).setAct f p 0)

/-- The cell recomputes no sieve slot any more: its slot waits for another host (R243). -/
def Dev.dropHost (d : Dev) (p : Nat) : Dev :=
  { d with numx := { d.numx with sieve := d.numx.sieve.map (fun (e : Nat × SieveSlot) =>
      if e.2.host = some p then (e.1, { e.2 with host := none }) else e) } }

/-- The fault cloches of a cell within FAULT_WINDOW_H hours of its latest one (R487); their ages stand in ms, latest first. -/
def Dev.recentFaults (d : Dev) (p : Nat) : Nat :=
  let ages := mget [] d.nv.faultCloches p
  let window := max 1 (d.getF R.TRL_CELL_POLICY_FAULT_WINDOW_H 0) * 3600000
  (ages.filter (fun a => decide (a ≤ ages.headD 0 + window))).length

/-- The MC cloches a cell on a fault (R389, R487, R496): as `clocheCell`, counted per cell in the
flash; a policy decision taken (R42, R546). A cell that is already cloched only counts (R489), and no rule takes a cell
out of OFF (R44). -/
def Dev.clocheFault (d : Dev) (p : Nat) : Dev :=
  let d := { d with nv := { d.nv with faultCloches := mput p (0 :: mget [] d.nv.faultCloches p) d.nv.faultCloches } }
  let d := (d.bump RAS 0 4 1).dropHost p
  if stCloched ≤ d.blk CEL p ∨ d.blk CEL p = stOff then d
  else (Dev.clocheCell { d with testFails := mput (faultKey p) 1 d.testFails } p).policyTaken CEL p

/-- A trap of a cell: cause, address, flags and counter (R97, R98, R115, R116). -/
def Dev.trapFlags (d : Dev) (cell cause addr : Nat) : Dev :=
  let d := (d.setF R.CEL_SEQ_STATUS_TRAP_CAUSE cell cause).setF R.CEL_TRAP_ADDR_ADDR cell addr
  let d := if cause = 7 then d.setErr CEL cell 7 else if cause = 8 then d.setErr CEL cell 20 else d
  (d.bump CEL cell 7 1).setErrFull CEL cell 16 0 1 0

/-! ### Completion rings and command order -/

/-- The home of a ring: port and number. -/
def ringKey (port ring : Nat) : Nat := port * 256 + ring

/-- A ring of a port. -/
def Dev.ring (d : Dev) (port ring : Nat) : Ring := mget Ring.reset d.pci.rings (ringKey port ring)

/-- Stores a ring. -/
def Dev.setRing (d : Dev) (port ring : Nat) (r : Ring) : Dev :=
  { d with pci := { d.pci with rings := mput (ringKey port ring) r d.pci.rings } }

/-- The ring that a completion goes to: after a reset of its port the ring as it stood (R530, R531). -/
def Dev.completionRing (d : Dev) (port ring : Nat) : Ring :=
  let r := d.ring port ring
  if r.enabled then r else (mfind (ringKey port ring) d.pci.draining).getD r

/-- Stores the ring that a completion has gone to. -/
def Dev.setCompletionRing (d : Dev) (port ring : Nat) (r : Ring) : Dev :=
  if (d.ring port ring).enabled ∨ (mfind (ringKey port ring) d.pci.draining).isNone then d.setRing port ring r
  else { d with pci := { d.pci with draining := mput (ringKey port ring) r d.pci.draining } }

/-- Entries of a ring (R520, R533). -/
def Ring.size (r : Ring) : Nat := 2 ^ (max 4 (min 16 r.log2))

/-- PHASE of the next completion (R525). -/
def Ring.phase (r : Ring) : Nat := if r.cqTail / r.size % 2 = 0 then 1 else 0

/-- The bus address of a ring's next completion entry: bits [11:0] of the base are ignored (R520, R533). -/
def Ring.cqAddr (r : Ring) : Nat := r.cqBase / 4096 * 4096 + 32 * (r.cqTail % r.size)

/-- Writes a completion entry given its bytes up to PHASE and after it, and raises the ring's vector
(R525, R527, R532). -/
def Dev.post (d : Dev) (port ring : Nat) (front back : List Byte) : Dev :=
  let r := d.completionRing port ring
  let d := d.emit (.completion port ring r.cqAddr (front ++ leBytes 1 r.phase ++ back))
  let d := ((d.setCompletionRing port ring { r with cqTail := r.cqTail + 1 }).bump PCI port 5 1).bump PCI port 3 32
  if r.irq then d.emit (.vector port ring) else d

/-- The completion of a command (R525, R526): JOB rings post failures and commands with CMPL, other
rings every command (R520). -/
def Dev.postCompletion (d : Dev) (c : JobCmd) (status value : Nat) : Dev :=
  let r := d.completionRing c.port c.ring
  if decide (r.kind = 1) && decide (status = 0) && !c.cmpl then d
  else
    d.post c.port c.ring
      (leBytes 4 c.cookie ++ leBytes 1 c.opc ++ leBytes 3 0 ++ leBytes 8 value ++ leBytes 4 c.head
        ++ leBytes 1 status ++ leBytes 1 0)
      (leBytes 1 1 ++ leBytes 8 0)

/-- The decisions recorded for the open step, during a replay (R34, R397). -/
def Dev.recorded (d : Dev) : Option (List Decision) :=
  (d.sow.replay.find? (fun r => decide (r.step = d.step))).map (·.decisions)

/-- The step's vote is final: by its record in a replay, else as NUM_VOTE shows it (R248, R249). -/
def Dev.voteFinal (d : Dev) : Bool :=
  d.recorded.isSome || (decide (d.getF R.NUM_VOTE_FINAL 0 = 1) && decide (d.getF R.NUM_VOTE_STEP_STEP 0 = d.step % 2 ^ 16))

/-- V(n) of the open step (R248, R249). -/
def Dev.voteSkip (d : Dev) : Bool :=
  match d.recorded with
  | some ds => ds.any (fun x => match x with
    | .vote _ _ _ => true
    | _ => false)
  | none => d.voteFinal && decide (d.getF R.NUM_VOTE_NONFINITE 0 = 1)

/-- A STEP_MARK stands in command order. -/
def Dev.markAhead (d : Dev) : Bool := d.ctl.order.any (fun e => decide (e.cmd.opc = 1))

/-- What an opcode waits for among the commands ahead: a GRAD_DONE for every PLOT_RUN (R274), a PLOT_RUN for
the one of the same plot. -/
def clearAhead (ahead : List OrderEntry) (c : JobCmd) : Bool :=
  match c.opc with
  | 2 => !ahead.any (fun e => decide (e.cmd.opc = 2) && decide (argOf e.cmd 0 = argOf c 0))
  | 5 => !ahead.any (fun e => decide (e.cmd.opc = 2))
  | _ => true

/-- The device waits for GO or restores: PHASE is CONFIG or RESTORE (R395, R396). -/
def Dev.configuring (d : Dev) : Bool :=
  decide (d.getF R.SOW_RECOVERY_PHASE 0 = 3) || decide (d.getF R.SOW_RECOVERY_PHASE 0 = 4)

/-- The engine of a direct collective is in service: READY or RUNNING. No rule names the engine: CIDX mod 4 (log
entry 20). -/
def Dev.directUp (d : Dev) (c : JobCmd) : Bool :=
  match d.train.places.find? (fun x => decide (x.1 = c.num)) with
  | some x => decide (d.blk COL (x.2 % 4) = stReady) || decide (d.blk COL (x.2 % 4) = stRunning)
  | none => true

/-- The command may begin now: a job runs, is not quiesced and not being restored, bounds that R31 asks for are written, the data
positions have passed their check (R269), no STEP_MARK is ahead (R36), and an UPDATE has the step's vote
(R249). EARLY commands wait for the boundary too: log entry 2. -/
def Dev.mayBegin (d : Dev) (ahead : List OrderEntry) (c : JobCmd) : Bool :=
  d.jobActive && !d.configuring && decide (d.blk GLB 0 ≠ stQuiesced) && !d.ctl.waitBounds && (d.ctl.gsbChecked || decide (c.opc = 6))
    && !ahead.any (fun e => decide (e.cmd.opc = 1)) && (!c.update || d.voteFinal) && clearAhead ahead c
    && (!(decide (7 ≤ c.opc) && decide (c.opc ≤ 9)) || d.directUp c)

/-- Boundaries that R18 counts: none on an unpaired device (R372). -/
def Dev.unsealedCount (d : Dev) : Nat :=
  let st := d.getF R.SOW_PAIR_STATUS_STATE 0
  if st = 0 ∨ st = 5 then 0 else d.sow.unsealed.length

/-- Counts a STEP_MARK that has nothing ahead and is held under R18 (R403). -/
def Dev.noteHeld (d : Dev) : Dev :=
  match d.ctl.order with
  | e :: _ =>
    if e.cmd.opc = 1 ∧ 2 ≤ d.unsealedCount ∧ d.ctl.markHeld = false then
      Dev.bump { d with ctl := { d.ctl with markHeld := true } } SOW 0 4 1
    else d
  | [] => d

/-- A command leaves command order (R36). -/
def Dev.leaveOrder (d : Dev) (c : JobCmd) : Dev :=
  { d with ctl := { d.ctl with order := d.ctl.order.filter (fun e => decide (e.cmd ≠ c)) } }.noteHeld

/-- A command completes: it leaves command order and its completion is posted (R36, R525). -/
def Dev.complete (d : Dev) (c : JobCmd) (status value : Nat) : Dev := (d.leaveOrder c).postCompletion c status value

/-- Puts a command into command order (R36, R520). Only a GRAD_PLAN can be the first command after GO
(R395). -/
def Dev.enterOrder (d : Dev) (c : JobCmd) (ph : OrderPhase) : Dev :=
  { d with ctl := { d.ctl with order := d.ctl.order ++ [⟨c, ph⟩] },
           sow := { d.sow with planAtOnce := false,
                               planFirst := if d.sow.planAtOnce && decide (c.opc = 4) then some c.num else d.sow.planFirst } }

/-- A command begins: an UPDATE of a step that the vote skips completes without effect (R249). -/
def Dev.begin (d : Dev) (c : JobCmd) (start : Dev → Dev) : Dev :=
  if c.update then
    if d.voteSkip then d.complete c 0 0 else start { d with ctl := { d.ctl with updateBegun := true } }
  else start d

/-- Issues a job command: it enters command order and begins when it may, with `start` as its effect;
else it is held (R36, R249). -/
def Dev.issue (d : Dev) (c : JobCmd) (start : Dev → Dev) : Dev :=
  if d.mayBegin d.ctl.order c then (d.enterOrder c .running).begin c start else d.enterOrder c .held

end Sys2Proof.Machine
end

