-- ==== Sys2Proof/Machine/Pages.lean ====
section
/-! DEFINITION. Register pages: what a read of each field returns, the general register read and write
(R39 to R53), staged sets and commits, and feature offers. -/

namespace Sys2Proof.Machine

/-! ### Feature offers -/

/-- The classes that offer a feature bit (R59); bit 0 is offered by every page. -/
def featureClasses : Nat → List Nat
  | 0 => List.range 17
  | 1 => [GLB, CEL, COL, PIP, MED, SOW]
  | 2 => [GLB, COL, FLW, MEM]
  | 3 => [GLB, COL]
  | 4 => [GLB, CEL]
  | 5 => [GLB, CEL, NUM]
  | 6 => [GLB, CEL]
  | 7 => [GLB, PIP, MED, MEM]
  | 8 => [GLB, MED]
  | 9 => [GLB, PCI]
  | 10 => [GLB]
  | 11 => [GLB, PLT, TRL]
  | 12 => [GLB, NUM]
  | 13 => [GLB, COL]
  | _ => []

/-- BLK_FEAT_OFFER of a class (R59). -/
def offerOf (c : Nat) : Nat :=
  (List.range 14).foldl (fun acc n => if (featureClasses n).contains c then acc + 2 ^ n else acc) 0

/-- A feature is active in a block: the block offers it and it was negotiated (R42, R59). -/
def Dev.featureIn (d : Dev) (c n : Nat) : Bool := (featureClasses n).contains c && d.feature n

/-! ### Views: fields whose value follows from other state -/

/-- A list element as a field: its value and validity, 0 when absent. -/
def nthOr0 (xs : List Nat) (k : Nat) : Nat := xs.getD k 0

/-- The open sets that have a destination in a stack, as lists of addresses (R309, R314). -/
def Dev.openSets (d : Dev) : List (List Nat) :=
  ((d.cells.map (fun e => e.2.adds.map (·.addr))) ++ d.sets.map (fun c => c.adds.map (·.addr))).filter (· != [])

/-- Bytes of staging that the open sets need in a stack: 32 for each distinct destination (R309). -/
def Dev.stagingBytes (d : Dev) (k : Nat) : Nat :=
  32 * (d.openSets.map (fun xs => (xs.filter (fun a => decide (d.stackOf a = k))).eraseDups.length)).sum

/-- The spill area in use, in MiB rounded up (R309, R314). -/
def Dev.spillMib (d : Dev) : Nat :=
  (((List.range 8).map (fun k => d.stagingBytes k - 8 * 2 ^ 20)).sum + 2 ^ 20 - 1) / 2 ^ 20

/-- The banks preferred by the boot selector in force (R464). -/
def Dev.bootPrefer (d : Dev) : Nat :=
  match d.nv.selectors with
  | [some a, some b] => if a.1 ≥ b.1 then a.2 else b.2
  | [some a, none] => a.2
  | [none, some b] => b.2
  | _ => 0

/-- FEED_ID and FEED_PAR hold a valid value: odd parity over nine bits and not all ones (R368). -/
def Dev.feedValid (d : Dev) : Bool :=
  let v := d.pins.feedId + 256 * d.pins.feedPar
  decide (((List.range 9).filter (fun k => bitOf v k)).length % 2 = 1) && decide (d.pins.feedId ≠ 0xFF)

/-- The oldest collective in flight on an engine (R362). -/
def Dev.oldestColl (d : Dev) (e : Nat) : Option Coll :=
  d.fab.colls.find? (fun c => decide (c.engine = e) && c.sent && !c.done)

/-- The ring that the PCI ring registers of a port show (R533). -/
def Dev.shownRing (d : Dev) (port : Nat) : Option Ring :=
  let r := d.actF R.PCI_RING_SEL_RING port
  if r = 0 then none else some (d.ring port r)

/-- The media session that the register selects (R449). -/
def Dev.shownSession (d : Dev) (slice : Nat) : Option Session :=
  mfind (slice * 256 + d.actF R.MED_SESS_SEL_SESSION slice) d.media

/-- The sessions of a slice. -/
def Dev.sessionsOf (d : Dev) (slice : Nat) : List Session :=
  (d.media.filter (fun e => decide (e.1 / 256 = slice))).map (·.2)

/-- Unfinished slots that a pipeline unit has taken (R429). -/
def Dev.unitSlots (d : Dev) (u : Nat) : Nat :=
  (d.pip.batches.map (fun b => (b.slots.filter (fun x => decide (x.unit = some u) && !x.finished)).length)).sum

/-- The thin-channel unit's queues. -/
def Dev.thnUnit (d : Dev) (u : Nat) : Thn := mget Thn.reset d.thn u

/-- This module's fingerprint, 48 bytes, of the identity keys that the boot derived (R501, R502, R515). -/
def Dev.ownPrint (d : Dev) : List Byte := d.pwr.keys.elim (List.replicate 48 0) (·.print)

/-- Header fields that follow from other state (R42, R59, R492). -/
def Dev.viewHeader (d : Dev) (f : Field) (i : Nat) : Option Nat :=
  let c := f.cls
  if f = R.BLK_ID_CLASS c then some c
  else if f = R.BLK_ID_INSTANCE c then some i
  else if f = R.BLK_REV_MAJOR c then some (Config.blockRev c i 1 % 256)
  else if f = R.BLK_REV_MINOR c then some (Config.blockRev c i 0 % 256)
  else if f = R.BLK_REV_FW_IFACE c then
    some (if c = CEL then d.getF R.PWR_FW_IFACE_LO_CMC 0
      else if c = LNK ∨ c = FLW ∨ c = COL then d.getF R.PWR_FW_IFACE_HI_LKF 0
      else if c = MED then d.getF R.PWR_FW_IFACE_HI_MEF 0
      else if c = PCI ∨ c = THN then 0 else d.getF R.PWR_FW_IFACE_LO_MCF 0)
  else if f = R.BLK_FEAT_OFFER_LO_OFFER c then some (offerOf c)
  else if f = R.BLK_FEAT_ON_LO_ON c then some (offerOf c &&& d.getF (R.GLB_FEATURES_ACTIVE 0) 0)
  else if f = R.BLK_STATE_STATE c then some (d.blk c i)
  else if f = R.BLK_STATE_SEQ c then
    some ((if c = CEL then d.getF (R.COUNTER CEL 0) i else d.step) % 2 ^ 16)
  else if f = R.BLK_HEALTH_WEAR c then some (if c = GLB then d.glbWear else d.wearOf c i)
  else if f = R.BLK_HEALTH_GRADE c then
    some (if c = GLB then d.glbGrade else if c = CEL then (d.cellHealth i).2
      else if c = LNK then (d.portHealth i).2 else if c = MEM then (d.memWear i).2 else d.getF f i)
  else if f = R.BLK_STAGE_SEQ_DIRTY c then
    some (b2n ((R.fieldsOf c).any (fun g => (mfind (g.key i) d.shadow).elim false (fun v => decide (v ≠ d.getF g i)))))
  else none

/-- Fields of GLB, TRL, CEL and PLT that follow from other state (R68, R116, R118, R499). -/
def Dev.viewMaps (d : Dev) (own : Own) (f : Field) (i : Nat) : Option Nat :=
  if f = R.GLB_DEV_INFO_SPARES_LEFT then some d.sparesLeft.length
  else if f = R.GLB_DEV_INFO_LOGICAL_CELLS then some d.logicalCells
  else if f = R.GLB_DEV_INFO_GRADE then some d.nv.grade
  else if f = R.GLB_OWNER_OWNER then some own.owner
  else if f = R.GLB_GROUP_STAT_MEMBERS then some (d.armed.filter (fun e => e.2.group)).length
  else if f = R.TRL_FUSE_FUSE_POLICY then some d.nv.fusePolicy
  else if f = R.TRL_FUSE_SPARES_FUSED then some d.nv.spares.length
  else if f = R.TRL_FUSE_DISABLED then some d.nv.disabled.length
  else if f = R.TRL_CELLS_RETIRED then some d.nv.retired.length
  else if f = R.TRL_CELLS_UNMAPPED then some d.unmapped.length
  else if f.cls = TRL ∧ f.off = 0x8C then
    let l := d.actF R.TRL_MAP_SEL_LOGICAL 0
    if d.logicalCells ≤ l then some 0
    else if f = R.TRL_MAP_MAPPED then some (b2n (d.physOf l).isSome)
    else if f = R.TRL_MAP_CLOCHED then
      some (b2n ((d.physOf l).elim false (fun p => decide (d.blk CEL p = stCloched))))
    else if f = R.TRL_MAP_PHYSICAL then some ((d.physOf l).getD 0)
    else some (if (d.physOf l).isSome then (d.plotOf l).getD 0 else 0)
  else if f = R.CEL_MAP_DESIG then some (d.desig i)
  else if f = R.CEL_MAP_MAPPED then some (b2n (d.logicalOf i).isSome)
  else if f = R.CEL_MAP_LOGICAL then some ((d.logicalOf i).getD 0)
  else if f = R.CEL_MAP_PLOT then some ((d.plotOfCell i).getD 0)
  else if f.cls = CEL ∧ f.off = 156 then
    let b := d.bypasses i
    if f = R.CEL_REPAIR_ROW0 then some (nthOr0 b.rows 0) else if f = R.CEL_REPAIR_ROW1 then some (nthOr0 b.rows 1)
    else if f = R.CEL_REPAIR_COL0 then some (nthOr0 b.cols 0)
    else if f = R.CEL_REPAIR_COL1 then some (nthOr0 b.cols 1)
    else if f = R.CEL_REPAIR_ROW0_V then some (b2n (decide (0 < b.rows.length)))
    else if f = R.CEL_REPAIR_ROW1_V then some (b2n (decide (1 < b.rows.length)))
    else if f = R.CEL_REPAIR_COL0_V then some (b2n (decide (0 < b.cols.length)))
    else some (b2n (decide (1 < b.cols.length)))
  else if f = R.PLT_STATUS_ACTIVE then some (b2n (d.plotActive i))
  else if f = R.PLT_STATUS_CELLS then some (d.members i).length
  else if f = R.PLT_STATUS_CLOCHED then some ((d.members i).filter (fun l =>
    (d.physOf l).elim false (fun p => decide (d.blk CEL p = stCloched)))).length
  else none

/-- Fields of the engines' pages that follow from other state (R230, R314, R362, R404, R449, R497,
R514, R533). -/
def Dev.viewEngines (d : Dev) (f : Field) (i : Nat) : Option Nat :=
  if f = R.MEM_MIRROR_BASE_BASE then some (d.mirrorBase / 2 ^ 25)
  else if f = R.MEM_CACHE_BASE_BASE then some (d.cacheBase / 2 ^ 25)
  else if f = R.MEM_SPARE_USED then some (mget 0 d.nv.rowsUsed i)
  else if f = R.MEM_UNSPARED_ROWS then some (min 65535 (mget 0 d.nv.rowsUnspared i))
  else if f = R.MEM_CHAN_STATUS_FAULT then some (mget 0 d.nv.chanFault i)
  else if f = R.MEM_STAGE_STATUS_SPILL_MIB then some d.spillMib
  else if f = R.MEM_STAGE_STATUS_OPEN_SETS then
    some (min 65535 (d.openSets.filter (fun xs => xs.any (fun a => decide (d.stackOf a = i)))).length)
  else if f.cls = COL ∧ f.off = 0x90 then some (d.getF f 0)
  else if f = R.COL_ACTIVE_IN_FLIGHT then
    some (d.fab.colls.filter (fun c => decide (c.engine = i) && c.sent && !c.done)).length
  else if f = R.COL_ACTIVE_GROUP then some ((d.oldestColl i).elim 0 (·.group))
  else if f.cls = PCI ∧ 148 ≤ f.off ∧ f.off ≤ 168 then
    match d.shownRing i with
    | none => some 0
    | some r =>
      if f = R.PCI_RING_CFG_IRQ_EN then some (b2n r.irq) else if f = R.PCI_RING_CFG_LOG2 then some r.log2
      else if f = R.PCI_RING_CFG_KIND then some r.kind else if f = R.PCI_RING_CFG_EN then some (b2n r.enabled)
      else if f = R.PCI_SQ_BASE_LO_ADDR then some (r.sqBase % 2 ^ 32)
      else if f = R.PCI_SQ_BASE_HI_ADDR then some (r.sqBase / 2 ^ 32)
      else if f = R.PCI_CQ_BASE_LO_ADDR then some (r.cqBase % 2 ^ 32)
      else if f = R.PCI_CQ_BASE_HI_ADDR then some (r.cqBase / 2 ^ 32)
      else if f = R.PCI_RING_STATUS_FAULT then some (b2n r.fault)
      else some (r.head % 2 ^ 16)
  else if f = R.MED_SESSIONS_ENC_OPEN then some ((d.sessionsOf i).filter (fun s => decide (s.kind = 3))).length
  else if f = R.MED_SESSIONS_PIPE_OPEN then some ((d.sessionsOf i).filter (fun s => decide (s.kind ≠ 3))).length
  else if f = R.MED_SESS_STATUS_KIND then some ((d.shownSession i).elim 0 (·.kind))
  else if f = R.MED_SESS_STATUS_PICS then some ((d.shownSession i).elim 0 (fun s => min (2 ^ 24 - 1) s.pics))
  else if f = R.MED_INFO_ENC_REV then some (d.getF R.PWR_FW_RESULT_REV_MEF 0)
  else if f = R.MED_SESS_QP_QP then some ((d.shownSession i).elim 0 (fun s => s.enc.elim 0 (fun e => twos 8 e.lastQp)))
  else if f = R.MED_KEYREQ_PEND then
    some (b2n ((mfind (i * 256 + d.actF R.MED_KEYREQ_SESSION i) d.media).elim false (fun s => s.enc.elim false (·.regKey))))
  else if f = R.MED_STATUS_QUEUED then
    some (min 255 ((d.sessionsOf i).map (fun s => s.enc.elim 0 (fun e =>
      (e.items.filter EncItem.isPicture).length + b2n e.held.isSome))).sum)
  else if f = R.MED_STATUS_ENC_BUSY then some (b2n ((d.sessionsOf i).any (fun s => s.enc.elim false (·.current.isSome))))
  else if f = R.PIP_CACHE_STATUS_HEAP_MIB then
    some (if d.getF R.MEM_REGIONS_CACHE_GIB 0 = 0 then 0 else (d.nat d.cacheBase 8 + 2 ^ 20 - 1) / 2 ^ 20)
  else if f = R.PIP_STATUS_QUEUED then some (min 65535 (d.unitSlots i - 1))
  else if f = R.PIP_STATUS_BUSY then some (b2n (decide (0 < d.unitSlots i)))
  else if f = R.THN_STATUS_HOST_DEPTH then some (min 255 (d.thnUnit i).hosts.length)
  else if f = R.THN_STATUS_JOB_DEPTH then some (min 255 (d.thnUnit i).jobs.length)
  else if f = R.THN_STATUS_SERVING_HOST then some (b2n ((d.thnUnit i).current.elim false (·.host)))
  else if f = R.THN_STATUS_BUSY then some (b2n (d.thnUnit i).current.isSome)
  else if f = R.SOW_FEED_FEED_ID then some d.pins.feedId
  else if f = R.SOW_FEED_PAR then some d.pins.feedPar
  else if f = R.SOW_FEED_VALID then some (b2n d.feedValid)
  else if f = R.SOW_SEAL_STATUS_UNSEALED then some d.sow.unsealed.length
  else if f = R.PWR_BOOT_SEL_PREFER then some d.bootPrefer
  else if f = R.RAS_DEGRADE_PORTS_LOST then some d.portsLost
  else if f = R.RAS_DEGRADE_CHANNELS then some d.channelsFaulted
  else if f = R.RAS_DEGRADE_UNMAPPED then some d.unmapped.length
  else if f = R.RAS_LOG_STATUS_COUNT then some d.rasLog.length
  else if f = R.RAS_LOG 0 then some (d.rasLog.head?.elim 0 (·.w0))
  else if f = R.RAS_LOG 1 then some (d.rasLog.head?.elim 0 (·.w1))
  else if f = R.RAS_LOG 2 then some (d.rasLog.head?.elim 0 (·.w2))
  else if f = R.RAS_LOG 3 then some (d.rasLog.head?.elim 0 (·.w3))
  else if f = R.SEC_LMS_STATE_Q then some d.nv.lmsQ
  else if f = R.SEC_LMS_FUSE_BLOCKS then some d.nv.lmsBlocks
  else if f = R.SEC_SVN_FLOOR_LO_MCF then some (nthOr0 d.nv.svnFloors 0)
  else if f = R.SEC_SVN_FLOOR_LO_CMC then some (nthOr0 d.nv.svnFloors 1)
  else if f = R.SEC_SVN_FLOOR_LO_LKF then some (nthOr0 d.nv.svnFloors 2)
  else if f = R.SEC_SVN_FLOOR_LO_MEF then some (nthOr0 d.nv.svnFloors 3)
  else if f = R.SEC_SVN_FLOOR_HI_MANIFEST then some (nthOr0 d.nv.svnFloors 4)
  else if f.cls = SEC ∧ 128 ≤ f.off ∧ f.off < 176 then some (leNat ((d.ownPrint.drop (f.off - 128)).take 4))
  else none

/-- What a read of a field returns (R42, R47): "instance 0 only" fields show instance 0, WO fields read
0, RS fields the shadow under VIEW_SHADOW, and computed fields their view. -/
def Dev.readField (d : Dev) (own : Own) (f : Field) (i : Nat) : Nat :=
  let i := if f.only0 then 0 else i
  match f.acc with
  | .wo => 0
  | .rs =>
    if d.getF (R.BLK_STAGE_SEQ_VIEW_SHADOW f.cls) i = 1 then (mfind (f.key i) d.shadow).getD (d.getF f i)
    else d.getF f i
  | _ =>
    match d.viewHeader f i with
    | some v => v
    | none =>
      match d.viewMaps own f i with
      | some v => v
      | none => (d.viewEngines f i).getD (d.getF f i)

/-- The 32-bit word at an offset of a page, from its fields; a 64-bit field spans two words (R39, R42). -/
def Dev.readWord (d : Dev) (own : Own) (c i off : Nat) : Nat :=
  ((R.fieldsOf c).map (fun f =>
    if f.off = off then d.readField own f i % 2 ^ 32 * 2 ^ f.lo
    else if f.width = 64 ∧ f.off + 4 = off then d.readField own f i / 2 ^ 32
    else 0)).sum

/-- The offsets whose read latches the word above them (R43, R69, R315, R404, R429, R533). -/
def latchesHi (c off : Nat) : Bool :=
  (R.fieldsOf c).any (fun f => decide (f.width = 64) && decide (f.off = off))
    || (decide (c = MEM) && decide (off = 192)) || (decide (c = PIP) && decide (off = 168))

/-- The home of a latched _HI word. -/
def latchKey (c i off : Nat) : Nat := (c * 2048 + i) * 4096 + off

/-- One 32-bit read of an existing page: the value, and the device with the _HI half latched by a read
of _LO, or the latch consumed by the read of _HI (R43). -/
def Dev.read32 (d : Dev) (own : Own) (c i off : Nat) : Nat × Dev :=
  match mfind (latchKey c i off) d.latches with
  | some v => (v, { d with latches := mdel (latchKey c i off) d.latches })
  | none =>
    let v := d.readWord own c i off
    if latchesHi c off then
      (v, { d with latches := mput (latchKey c i (off + 4)) (d.readWord own c i (off + 4)) d.latches })
    else (v, d)

/-- Records a bad access (R39, R67, R69). -/
def Dev.badAccess (d : Dev) (offset : Nat) (noPage width write : Bool) : Dev :=
  let d := d.bump GLB 0 4 1
  let d := if d.getF R.GLB_BAD_ACCESS_VALID 0 = 1 then d
    else
      ((((d.setF R.GLB_BAD_ACCESS_VALID 0 1).setF R.GLB_BAD_ACCESS_NO_PAGE 0 (b2n noPage)).setF
        R.GLB_BAD_ACCESS_WIDTH 0 (b2n width)).setF R.GLB_BAD_ACCESS_WRITE 0 (b2n write)).setF
        R.GLB_BAD_ACCESS_OFFSET 0 offset
  d.setErr GLB 0 16

/-- Class, instance and register offset of a BAR0 offset (R37). -/
def barClass (offset : Nat) : Nat := bitsOf offset 23 5
/-- The instance in a BAR0 offset (R37). -/
def barInstance (offset : Nat) : Nat := bitsOf offset 12 11
/-- The register in a BAR0 offset (R37). -/
def barReg (offset : Nat) : Nat := offset % 4096

/-- The access has a legal size and alignment: 4 bytes at a multiple of 4, or 8 at a multiple of 8
(R39). -/
def widthOk (offset size : Nat) : Bool :=
  (decide (size = 4) && decide (offset % 4 = 0)) || (decide (size = 8) && decide (offset % 8 = 0))

/-- A register read (R39, R43): the value returned and its effect on the device. -/
def Dev.busRead (d : Dev) (own : Own) (offset size : Nat) : Nat × Dev :=
  let c := barClass offset
  let i := barInstance offset
  if !widthOk offset size then (0, d.badAccess offset (!pageExists c i) true false)
  else if !pageExists c i then (0, d.badAccess offset true false false)
  else
    let lo := d.read32 own c i (barReg offset)
    if size = 4 then lo
    else
      let hi := lo.2.read32 own c i (barReg offset + 4)
      (lo.1 + 2 ^ 32 * hi.1, hi.2)

/-! ### The general register write -/

/-- Fields that have a row of their own, whose commands carry their writes (spec/opcode_table.json). -/
def hasOwnRow (f : Field) : Bool :=
  let c := f.cls
  f ∈ [R.BLK_CTRL_SOFT_RESET c, R.BLK_CTRL_CLOCHE_REQ c, R.BLK_CTRL_QUIESCE_REQ c, R.BLK_CTRL_ENABLE c,
    R.NUM_RING_CONS_CONS, R.NUM_XREC_SEL_KIND, R.NUM_XREC_SEL_CELL, R.MEM_MAP_INTERLEAVE,
    R.MEM_REGIONS_MIRROR_GIB, R.MEM_REGIONS_CACHE_GIB, R.MEM_SPILL_BASE_LO_ADDR_LO,
    R.MEM_SPILL_BASE_HI_ADDR_HI, R.MEM_SPILL_SIZE_MIB, R.FLW_SHADOW_LO_ADDR_LO, R.FLW_SHADOW_HI_ADDR_HI,
    R.PCI_RING_CFG_EN]
  || (decide (c = LNK) && (decide (f.off = 148) || decide (f.off = 152)))

/-- Job-locked fields among those the general write serves (R48). -/
def jobLocked (f : Field) : Bool :=
  f ∈ [R.GLB_DEV_NUM_VALID, R.GLB_DEV_NUM_DEV_NUM, R.COL_GROUP_BASE_LO_ADDR_LO, R.COL_GROUP_BASE_HI_ADDR_HI,
    R.COL_GROUP_COUNT_COUNT, R.SOW_ITEM_BASE_LO_ADDR_LO, R.SOW_ITEM_BASE_HI_ADDR_HI, R.SOW_ITEM_COUNT_COUNT]

/-- A state in which RL accepts a write (R47). -/
def rlState (st : Nat) : Bool :=
  decide (st = stOff) || decide (st = stReady) || decide (st = stQuiesced) || decide (st = stCloched)

/-- An RL write is accepted (R47, R48). -/
def Dev.rlOpen (d : Dev) (locked : Bool) (c i : Nat) : Bool := rlState (d.blk c i) && !(locked && d.jobActive)

/-- An RL write: stored when accepted, else ignored, with LOCKED_WRITE when it would change the field
(R47, R48). A register write that would change several RL fields counts one LOCKED_WRITE event for each: DESIGN CHOICE,
log entry 40. -/
def Dev.writeRl (d : Dev) (f : Field) (i v : Nat) (locked : Bool) : Dev :=
  if d.rlOpen locked f.cls i then (d.setF f i v).setAct f i v
  else if d.getF f i = v % 2 ^ f.width then d
  else d.lockedWrite f.cls i

/-- The fields that a write of 1 to a VALID bit clears with it (R67, R314, R230, R429, R449, R116, R514). -/
def recordOf (f : Field) : List Field :=
  if f = R.MEM_UE_HI_VALID then [R.MEM_UE_LO_ADDR_LO, R.MEM_UE_HI_ADDR_HI, R.MEM_UE_HI_REGION, R.MEM_UE_HI_SOURCE]
  else if f = R.THN_FAULT_HI_VALID then [R.THN_FAULT_LO_ADDR_LO, R.THN_FAULT_HI_ADDR_HI]
  else if f = R.PIP_FAULT_HI_VALID then [R.PIP_FAULT_LO_ADDR_LO, R.PIP_FAULT_HI_ADDR_HI]
  else if f = R.MED_FAULT_HI_VALID then [R.MED_FAULT_LO_ADDR_LO, R.MED_FAULT_HI_ADDR_HI]
  else if f = R.CEL_DMA_FAULT_HI_VALID then
    [R.CEL_DMA_FAULT_LO_ADDR_LO, R.CEL_DMA_FAULT_HI_ADDR_HI, R.CEL_DMA_FAULT_HI_CHANNEL]
  else if f = R.SEC_MISMATCH_VALID then [R.SEC_MISMATCH_SOURCE, R.SEC_MISMATCH_PORT, R.SEC_MISMATCH_DEVICE]
  else []

/-- Every field of GLB_BAD_ACCESS (R67). -/
def badAccessFields : List Field :=
  [R.GLB_BAD_ACCESS_VALID, R.GLB_BAD_ACCESS_NO_PAGE, R.GLB_BAD_ACCESS_WIDTH, R.GLB_BAD_ACCESS_WRITE,
   R.GLB_BAD_ACCESS_OFFSET]

/-- A W1C write: ones clear; BLK_ERR follows into RAS_SUMMARY, BAD_ACCESS into GLB_BAD_ACCESS, VALID
bits into their records (R43, R47, R67, R494). -/
def Dev.writeW1c (d : Dev) (f : Field) (i v : Nat) : Dev :=
  let d' := d.setF f i (clearBits (d.getF f i) v)
  if f = R.BLK_ERR f.cls then
    let d' := if f.cls = GLB ∧ bitOf v 16 = true then badAccessFields.foldl (fun d g => d.setF g 0 0) d' else d'
    d'.refreshSummary f.cls
  else if v % 2 = 1 then (recordOf f).foldl (fun d g => d.setF g i 0) d' else d'

/-- The ring configuration of NUM is in range (R237, R238). -/
def Dev.ringInRange (d : Dev) : Bool :=
  let k := d.getF R.NUM_RING_CFG_LOG2_SIZE 0
  let base := d.getF R.NUM_RING_BASE_LO_ADDR_LO 0 * 64 + d.getF R.NUM_RING_BASE_HI_ADDR_HI 0 * 2 ^ 32
  decide (6 ≤ k) && decide (k ≤ 20) && decide (base + 64 * 2 ^ k ≤ memTop)
    && decide (base + 64 * 2 ^ k ≤ d.mirrorBase)

/-- An enabled ring out of range is disabled with RING_WINDOW (R238). -/
def Dev.checkRing (d : Dev) : Dev :=
  if d.getF R.NUM_RING_CFG_EN 0 = 1 ∧ d.ringInRange = false then
    ((d.setF R.NUM_RING_CFG_EN 0 0).setAct R.NUM_RING_CFG_EN 0 0).setErr NUM 0 17
  else d

/-- A ring register of PCI: the banked copy of the selected ring; refused with LOCKED_WRITE while the
ring is enabled (R533). -/
def Dev.writeRingReg (d : Dev) (f : Field) (port v : Nat) : Dev :=
  let k := d.actF R.PCI_RING_SEL_RING port
  let r := d.ring port k
  if k = 0 then d
  else if r.enabled then d.lockedWrite PCI port
  else
    d.setRing port k (
      if f = R.PCI_SQ_BASE_LO_ADDR then { r with sqBase := r.sqBase / 2 ^ 32 * 2 ^ 32 + v % 2 ^ 32 }
      else if f = R.PCI_SQ_BASE_HI_ADDR then { r with sqBase := v % 2 ^ 32 * 2 ^ 32 + r.sqBase % 2 ^ 32 }
      else if f = R.PCI_CQ_BASE_LO_ADDR then { r with cqBase := r.cqBase / 2 ^ 32 * 2 ^ 32 + v % 2 ^ 32 }
      else if f = R.PCI_CQ_BASE_HI_ADDR then { r with cqBase := v % 2 ^ 32 * 2 ^ 32 + r.cqBase % 2 ^ 32 }
      else r)

/-- PCI_RING_CFG of the selected ring: stored while the ring is not enabled, but for EN = 1, which RING_ENABLE writes. Of an
enabled ring EN = 0 alone acts, and disables it: DEDUCED, log entry 30; any other write is refused with LOCKED_WRITE
(R533). -/
def Dev.writeRingCfg (d : Dev) (port v : Nat) : Dev :=
  let k := d.actF R.PCI_RING_SEL_RING port
  let r := d.ring port k
  if k = 0 then d
  else if !r.enabled then d.setRing port k { r with irq := bitOf v 9, log2 := bitsOf v 4 5, kind := bitsOf v 1 3 }
  else if bitOf v 0 then d.lockedWrite PCI port
  else d.setRing port k { r with enabled := false }

/-- A field of PCI that belongs to the selected ring. -/
def isRingReg (f : Field) : Bool := decide (f.cls = PCI) && decide (148 ≤ f.off) && decide (f.off ≤ 164)

/-- SOW_PARTNER and PAIR are accepted: without a job always, with one while UNPAIRED, LOST or REFUSED (R371). -/
def Dev.partnerOpen (d : Dev) : Bool :=
  let st := d.getF R.SOW_PAIR_STATUS_STATE 0
  !d.jobActive || decide (st = 0) || decide (st = 4) || decide (st = 5)

/-- An RW write, with the conditions that a field's own rule adds (R47, R252, R404, R533). -/
def Dev.writeRw (d : Dev) (f : Field) (i v : Nat) : Dev :=
  if isRingReg f then d.writeRingReg f i v
  else if f = R.NUM_SIEVE_CFG_EN ∧ v % 2 = 1 ∧ d.featureIn NUM 5 = false then d.setErr NUM 0 7
  else if f.cls = SOW ∧ f.off = 128 ∧ d.partnerOpen = false then
    (if f = R.SOW_PARTNER_VALID then d.lockedWrite SOW 0 else d)
  else d.setF f i v

/-- An RL write, with the conditions that a field's own rule adds (R48, R429, R533). -/
def Dev.writeRlField (d : Dev) (f : Field) (i v : Nat) : Dev :=
  if f = R.PIP_CACHE_CFG_EN ∧ v % 2 = 1 ∧ (d.featureIn PIP 7 = false ∨ d.getF R.MEM_REGIONS_CACHE_GIB 0 = 0) then
    d.setErr PIP 0 7
  else if f = R.PCI_BAR2_BASE_GIB ∧ 0x180 ≤ v % 2 ^ 9 then d.setErr PCI i 21
  else d.writeRl f i v (jobLocked f)

/-- An RS write goes to the shadow, or is ignored with STAGE_BUSY while a commit is armed (R47, R53). -/
def Dev.writeRs (d : Dev) (f : Field) (i v : Nat) : Dev :=
  if (mfind (f.cls * 2048 + i) d.armed).isSome then d.setErr f.cls i 2
  else { d with shadow := mput (f.key i) (v % 2 ^ f.width) d.shadow }

/-- One field of a register write (R47); fields with a row of their own are left to their rows. -/
def Dev.writeField (d : Dev) (f : Field) (i v : Nat) : Dev :=
  if hasOwnRow f || (f.only0 && decide (i ≠ 0)) then d
  else match f.acc with
    | .ro => d
    | .wo => d
    | .w1c => d.writeW1c f i v
    | .rw => d.writeRw f i v
    | .rs => d.writeRs f i v
    | .rl => d.writeRlField f i v

/-- One 32-bit write of an existing page; a fused disabled cell's page ignores it (R41). -/
def Dev.write32 (d : Dev) (c i off v : Nat) : Dev :=
  if c = CEL ∧ d.nv.disabled.contains i then d
  else if c = PCI ∧ off = 0x94 then d.writeRingCfg i v
  else
    let d := ((R.fieldsOf c).filter (fun f => decide (f.off = off))).foldl
      (fun d f => d.writeField f i (bitsOf v f.lo f.width)) d
    if c = NUM then d.checkRing else d

/-- A register write by an accepted writer (R39, R47). -/
def Dev.busWrite (d : Dev) (offset size value : Nat) : Dev :=
  let c := barClass offset
  let i := barInstance offset
  if !widthOk offset size then d.badAccess offset (!pageExists c i) true true
  else if !pageExists c i then d.badAccess offset true false true
  else if size = 4 then d.write32 c i (barReg offset) (value % 2 ^ 32)
  else (d.write32 c i (barReg offset) (value % 2 ^ 32)).write32 c i (barReg offset + 4) (value / 2 ^ 32 % 2 ^ 32)

/-- The writer's register writes are carried out: the MC, or the port that owns the device (R40). -/
def Own.mayWrite (o : Own) : Writer → Bool
  | .portA => decide (o.owner = 1)
  | .portB => decide (o.owner = 2)
  | .mc => true

/-- A register command by a writer: carried out for the owner and the MC, discarded otherwise (R40). -/
def State.byWriter (s : State) (w : Writer) (f : Dev → Dev) : Res :=
  if s.own.mayWrite w then s.onDev f else .next s

/-! ### Staged sets and commits -/

/-- The page part of a field key. -/
def keyPage (k : Nat) : Nat := k / 131072

/-- The staged entries of a page (R51). -/
def Dev.staged (d : Dev) (c i : Nat) : NMap Nat :=
  d.shadow.filter (fun e => decide (keyPage e.1 = c * 2048 + i))

/-- Drops the staged entries of a page: the shadow equals the applied values again. -/
def Dev.dropStaged (d : Dev) (c i : Nat) : Dev :=
  { d with shadow := d.shadow.filter (fun e => decide (keyPage e.1 ≠ c * 2048 + i)) }

/-- The field of a page that a key names. -/
def fieldAt (c i k : Nat) : Option Field := (R.fieldsOf c).find? (fun f => decide (f.key i = k))

/-- The staged changes of a page: (field, new value), for fields whose applied value differs. -/
def Dev.changes (d : Dev) (c i : Nat) : List (Field × Nat) :=
  (d.staged c i).filterMap (fun e => match fieldAt c i e.1 with
    | some f => if d.getF f i = e.2 then none else some (f, e.2)
    | none => none)

/-- The staged set holds a "step" field (R54). -/
def Dev.stagesStep (d : Dev) (c i : Nat) : Bool :=
  (d.staged c i).any (fun e => (fieldAt c i e.1).elim false (·.step))

/-- The commit that is armed on a page (R52). -/
def Dev.armedOn (d : Dev) (c i : Nat) : Option ArmedCommit := mfind (c * 2048 + i) d.armed

/-- Takes an armed commit away. -/
def Dev.disarm (d : Dev) (c i : Nat) : Dev := { d with armed := mdel (c * 2048 + i) d.armed }

/-- The number of cells whose divider differs from the target (R457). -/
def Dev.lagging (d : Dev) : Nat :=
  let t := d.getF R.PWR_CLK_STATUS_TARGET 0
  ((List.range 1152).filter (fun c => decide (d.desig c ≠ 2) && decide (d.getF R.CEL_ARRAY_STATUS_DIVIDER c ≠ t))).length

/-- The bucket bounds in force: LO_CODE and HI_CODE, 2 to 8 (R362, R363). -/
def Dev.bucketBounds (d : Dev) : Nat × Nat :=
  (max 2 (min 8 (d.getF R.COL_BUCKET_LO_CODE 0)), max 2 (min 8 (d.getF R.COL_BUCKET_HI_CODE 0)))

/-- Moves a policy setting that a bound commit excludes to the nearest bound, with POLICY_CLAMP (R64):
the scrub period, the bucket code (R363; none while the bounds are crossed, R276), the mirror cap, and the divider
target with its count of changes and LAGGING (R458, R478). -/
def Dev.clampPolicy (d : Dev) (c i : Nat) : Dev :=
  let move (d : Dev) (f : Field) (v : Nat) : Dev :=
    if d.getF f i = v then d else ((d.setF f i v).setAct f i v).setErr c i 6
  match c with
  | 4 =>
    let lo := max 15 (d.getF R.MEM_SCRUB_BOUNDS_MIN_PERIOD i)
    let hi := max lo (d.getF R.MEM_SCRUB_BOUNDS_MAX_PERIOD i)
    move d R.MEM_SCRUB_STATUS_PERIOD (max lo (min hi (d.getF R.MEM_SCRUB_STATUS_PERIOD i)))
  | 7 =>
    let b := d.bucketBounds
    if i ≠ 0 ∨ b.2 < b.1 then d
    else move d R.COL_BUCKET_STATUS_CURRENT (max b.1 (min b.2 (d.getF R.COL_BUCKET_STATUS_CURRENT 0)))
  | 13 =>
    let lo := max 1 (d.getF R.SOW_MIRROR_BW_CAP_MIN i)
    let hi := max lo (d.getF R.SOW_MIRROR_BW_CAP_MAX i)
    move d R.SOW_MIRROR_STATUS_CAP (max lo (min hi (d.getF R.SOW_MIRROR_STATUS_CAP i)))
  | 15 =>
    let lo := max 4 (min 6 (d.getF R.PWR_CLK_BOUNDS_DIV_MIN i))
    if d.getF R.PWR_CLK_STATUS_TARGET i < lo then
      let d := (move d R.PWR_CLK_STATUS_TARGET lo).bump PWR 0 3 1
      d.setF R.PWR_CLK_STATUS_LAGGING 0 d.lagging
    else d
  | _ => d

/-- Applies the armed commit of a page: the whole shadow, LAST_SEQ, APPLIED, NEXT_SEQ (R51, R67). -/
def Dev.applyCommit (d : Dev) (c i : Nat) : Dev :=
  match d.armedOn c i with
  | none => d
  | some a =>
    let d' := (d.staged c i).foldl (fun d e =>
      match fieldAt c i e.1 with
      | some f =>
        if f = R.CEL_ARRAY_CFG_T3_MODE ∧ e.2 = 1 ∧ d.featureIn CEL 4 = false then d.setErr CEL i 7
        else (d.setF f i e.2).setAct f i e.2
      | none => d) d
    let d' := ((d'.dropStaged c i).disarm c i).bump GLB 0 0 1
    let d' := (d'.setF (R.BLK_COMMIT_STAT_LAST_SEQ c) i a.seq).setF (R.BLK_STAGE_SEQ_NEXT_SEQ c) i (a.seq + 1)
    let bucket := (d.staged c i).any (fun e =>
      decide (fieldAt c i e.1 = some R.COL_BUCKET_LO_CODE) || decide (fieldAt c i e.1 = some R.COL_BUCKET_HI_CODE))
    let d' := d'.setCommitState c i 3
    if c ≠ COL ∨ bucket then d'.clampPolicy c i else d'

/-- Discards the staged or armed set of a page: ABORTED, NEXT_SEQ unchanged (R53). -/
def Dev.abortCommit (d : Dev) (c i : Nat) : Dev := ((d.dropStaged c i).disarm c i).setCommitState c i 6

/-- The pages with a commit armed as a group member. -/
def Dev.groupPages (d : Dev) : List (Nat × Nat) :=
  (d.armed.filter (fun e => e.2.group)).map (fun e => (e.1 / 2048, e.1 % 2048))

/-- Ownership passes: every unarmed staged set is aborted (R56). -/
def Dev.abortUnarmed (d : Dev) : Dev :=
  let pages := (d.shadow.map (fun e => keyPage e.1)).eraseDups
  pages.foldl (fun d k => if (mfind k d.armed).isSome then d else d.abortCommit (k / 2048) (k % 2048)) d

/-! ### Values of RW fields begin to act -/

/-- The RW fields of a page. -/
def rwFields (c : Nat) : List Field := (R.fieldsOf c).filter (fun f => decide (f.acc = .rw))

/-- Stored RW values act; newly enabled pending interrupts raise the class vector, and a mask change may
clear RAS_SUMMARY (R42, R47, R49, R494). -/
def Dev.rwActs (d : Dev) (c i : Nat) : Dev :=
  let was := d.getF (R.BLK_IRQ_PEND c) i &&& d.actF (R.BLK_IRQ_EN_EN c) i
  let d := (rwFields c).foldl (fun d f => d.setAct f i (d.getF f i)) d
  let now := d.getF (R.BLK_IRQ_PEND c) i &&& d.actF (R.BLK_IRQ_EN_EN c) i
  let d := if clearBits now was ≠ 0 then d.vectors (256 + c) else d
  d.refreshSummary c

end Sys2Proof.Machine
end

