-- ==== Sys2Proof/Machine/Trust.lean ====
section
/-! DEFINITION. The trust table and the comparison of an observed fingerprint (R502, R510, R514, R515). -/

namespace Sys2Proof.Machine

/-- A mismatch is reported (R510, R514, R515): the record holds the first one. -/
def Dev.noteMismatch (d : Dev) (source port dev : Nat) : Dev :=
  let d := (d.bump SEC 0 1 1).setErr SEC 0 16
  if d.getF R.SEC_MISMATCH_VALID 0 = 1 then d
  else
    (((d.setF R.SEC_MISMATCH_VALID 0 1).setF R.SEC_MISMATCH_SOURCE 0 source).setF R.SEC_MISMATCH_PORT 0 port).setF
      R.SEC_MISMATCH_DEVICE 0 dev

/-- Writes the entry of a device number. -/
def Dev.setTrust (d : Dev) (dev : Nat) (fp : List Byte) : Dev :=
  { d with nv := { d.nv with trust := mput dev fp d.nv.trust } }

/-- Compares an observed fingerprint with the entry of the device number that presents it (R510); `source` is 0
at a port, 1 at pairing, 2 at a probe. An empty entry enrols when ENROLL is 1. -/
def Dev.compareTrust (d : Dev) (source port dev : Nat) (fp : List Byte) : Bool × Dev :=
  match mfind dev d.nv.trust with
  | some f => if f = fp then (true, d) else (false, d.noteMismatch source port dev)
  | none =>
    if d.getF R.SEC_TRUST_CTRL_ENROLL 0 = 1 then (true, (d.setTrust dev fp).bump SEC 0 2 1)
    else (false, d.noteMismatch source port dev)

end Sys2Proof.Machine
end

