-- ==== Sys2Proof/Machine/Links.lean ====
section
/-! DEFINITION. Moatus ports, the link layer and routing (R316 to R332, R353 to R358, R460). -/

namespace Sys2Proof.Machine

/-- LNK_STATUS.LSTATE of a port (R320). -/
def Dev.lstate (d : Dev) (i : Nat) : Nat := d.getF R.LNK_STATUS_LSTATE i

/-- The port is live (R320). -/
def Dev.live (d : Dev) (i : Nat) : Bool := decide (d.lstate i = 2)

/-- This device's number (R10). -/
def Dev.devNum (d : Dev) : Nat := d.getF R.GLB_DEV_NUM_DEV_NUM 0

/-! ### Routing (R329 to R332) -/

/-- The live candidate ports of a destination, in candidate order (R329, R330). -/
def Dev.candidates (d : Dev) (dst : Nat) : List Nat :=
  match mfind dst d.fab.routes with
  | none => []
  | some e =>
    if bitOf e 63 then
      ((List.range 4).filter (fun k => bitOf e (8 * k + 7))).map (fun k => bitsOf e (8 * k) 5) |>.filter (fun p => d.live p)
    else []

/-- The port that the router picks for a packet (R330). -/
def Dev.pickPort (d : Dev) (p : Packet) : Option Nat :=
  let cs := d.candidates p.dst
  let h := (p.srcFlow ^^^ p.src) % 2 ^ 16
  if cs.isEmpty then none else cs[h % cs.length]?

/-- Puts a packet on the queue of a port's VL (R327). -/
def Dev.enqueue (d : Dev) (i : Nat) (p : Packet) : Dev :=
  let q := d.port i
  (d.setPort i { q with queue := mput p.tc (mget [] q.queue p.tc ++ [⟨p, 0, wireFlits p, none⟩]) q.queue }).emit (.packet p)

/-- A packet leaves: looped back to this device, onto the picked port, or kept while no candidate is live
(R330, R332, R355). -/
def Dev.routeOut (d : Dev) (p : Packet) : Dev :=
  if p.dst = d.devNum then { d with fab := { d.fab with arrived := d.fab.arrived ++ [p] } }
  else
    match d.pickPort p with
    | some i => d.enqueue i p
    | none => Dev.setErr { d with fab := { d.fab with unrouted := d.fab.unrouted ++ [p] } } FLW 0 21

/-- Packets that waited for a live candidate are routed afresh (R355). -/
def Dev.rerouteAll (d : Dev) : Dev :=
  d.fab.unrouted.foldl (fun d p => d.routeOut p) { d with fab := { d.fab with unrouted := [] } }

/-! ### Port events (R318 to R320, R353, R354) -/

/-- The buffer size B_v in flits that LNK_VL_BUF names (R323, R357). -/
def Dev.vlBuf (d : Dev) (i v : Nat) : Nat :=
  16 * (match v with
    | 0 => d.getF R.LNK_VL_BUF_LO_VL0 i | 1 => d.getF R.LNK_VL_BUF_LO_VL1 i | 2 => d.getF R.LNK_VL_BUF_LO_VL2 i
    | 3 => d.getF R.LNK_VL_BUF_LO_VL3 i | 4 => d.getF R.LNK_VL_BUF_HI_VL4 i | 5 => d.getF R.LNK_VL_BUF_HI_VL5 i
    | 6 => d.getF R.LNK_VL_BUF_HI_VL6 i | _ => d.getF R.LNK_VL_BUF_HI_VL7 i)

/-- The port's state changes (R320). -/
def Dev.setLstate (d : Dev) (i v : Nat) : Dev := d.setF R.LNK_STATUS_LSTATE i v

/-- IRQ_PEND.HEALTH of a port and of GLB when an event that took the device from `d₀` to `d` changed their BLK_HEALTH
(R42, R492). -/
def Dev.lnkHealth (d₀ d : Dev) (i : Nat) : Dev :=
  Dev.healthFrom d₀ (if d₀.portHealth i = d.portHealth i then d else d.irq LNK i 4)

/-- The port leaves ACTIVE: what it holds goes (R353), and it runs on no lane (R357). -/
def Dev.portIdle (d : Dev) (i lstate : Nat) : Dev :=
  (((d.portDrop i).setLstate i lstate).setF R.LNK_STATUS_LANES i 0).setF R.LNK_STATUS_SPARED i 0

/-- A port is LOST and reported (R319, R354, R355, R491). -/
def Dev.portLost (d : Dev) (i : Nat) : Dev :=
  let d := Dev.lnkHealth d ((d.portIdle i 4).setErr LNK i 17) i
  if 5 ≤ d.portsLost then d.raiseReplace GLB 0 3 else d

/-- The buffer sizes B_v that the neighbour grants in training step 4 (R318, R323). -/
def Port.granted (q : Port) : NMap Nat := (q.neighbour.elim [] (·.grants)).zipIdx.map (fun x => (x.2, x.1))

/-- Both sides start each VL with full credits, under the buffer sizes granted at training (R323, R353, R358). -/
def Dev.portActive (d : Dev) (i lanes : Nat) : Dev :=
  let q := d.port i
  let d' := d.setPort i { Port.reset with train := .active, neighbour := q.neighbour, grants := q.granted }
  let d' := ((d'.setLstate i 2).setF R.LNK_STATUS_LANES i lanes).setF R.LNK_STATUS_SPARED i (b2n (decide (lanes = 7)))
  (Dev.lnkHealth d d' i).rerouteAll

/-- Retraining begins (R319, R353): the port leaves the live set. -/
def Dev.startRetrain (d : Dev) (i : Nat) : Dev := Dev.lnkHealth d ((d.portIdle i 3).setErr LNK i 18) i

/-- The end of a training or retraining: ACTIVE on 8 or 7 lanes, or LOST (R319, R354). -/
def Dev.portDone (d : Dev) (i lanes : Nat) : Dev :=
  if lanes = 8 then (d.setF R.LNK_STATUS_FAILED_LANES i 0).portActive i 8
  else if lanes = 7 ∧ d.getF R.LNK_CTRL_SPARE_EN i = 1 then d.portActive i 7
  else d.portLost i

/-- What the identity exchange shows (R318, R357). -/
def Dev.noteNeighbour (d : Dev) (i : Nat) (n : Neighbour) : Dev :=
  let d := (d.setF R.LNK_NEIGHBOUR_VALID i 1).setF R.LNK_NEIGHBOUR_SWITCH i (b2n n.isSwitch)
  (d.setF R.LNK_NEIGHBOUR_PORT i n.port).setF R.LNK_NEIGHBOUR_DEVICE i (n.device.getD 0)

/-- This device's side of training step 3: its number when VALID is 1, its port, its fingerprint but towards a switch, and
the link revision (R318; log entry 39). -/
def Dev.ownIdentity (d : Dev) (port : Nat) (n : Neighbour) : Out :=
  .identity port (if d.getF R.GLB_DEV_NUM_VALID 0 = 1 then some d.devNum else none) (if n.isSwitch then [] else d.ownPrint)
    Config.linkRevision

/-- Training steps 3 and 4 (R318, R510): both sides tell who they are; a neighbour other than a switch that gives a device
number is compared with the trust table; a mismatch holds the port at step 3, else the VL buffer sizes are granted. -/
def Dev.identify (d : Dev) (port : Nat) (n : Neighbour) : Dev :=
  let d := d.emit (d.ownIdentity port n)
  let r := match n.isSwitch, n.device with
    | false, some v => d.compareTrust 0 port v n.fingerprint
    | _, _ => (true, d)
  if r.1 then
    (r.2.setPort port { Port.reset with train := .credits, neighbour := some n }).emit
      (.grants port ((List.range 8).map (fun v => d.vlBuf port v)))
  else (r.2.setPort port { Port.reset with train := .identity, neighbour := some n }).setErr LNK port 23

/-- PORT_SIGNAL_DETECT (R318, R320, R510, R541): a DOWN port of a block in service trains through lock, FEC, identity
and credits; a mismatch holds it at step 3. -/
def execPortSignalDetect (port : Nat) (n : Neighbour) (s : State) : Res :=
  s.onDev (fun d =>
    let b := d.blk LNK port
    if 32 ≤ port ∨ d.lstate port ≠ 0 ∨ (b ≠ stReady ∧ b ≠ stRunning) then d
    else ((d.setLstate port 1).noteNeighbour port n).identify port n)

/-- PORT_TRAINING_COMPLETE (R318, R319, R353): a port that is past step 3 enters ACTIVE and joins the live set; with too few
lanes in lock it is LOST. -/
def execPortTrainingComplete (port : Nat) (s : State) : Res :=
  s.onDev (fun d =>
    let q := d.port port
    if d.lstate port = 1 ∧ q.train = .credits then
      match q.neighbour with
      | some n => (d.setF R.LNK_RTT_RTT port n.rtt).portDone port n.lanes
      | none => d
    else d)

/-- RETRAIN (R319, R320, R357): starts retraining; ignored while TRAINING or RETRAINING, and on a port whose block is
neither READY nor RUNNING, which stays DOWN. -/
def execRetrain (w : Writer) (port : Nat) (s : State) : Res :=
  s.byWriter w (fun d =>
    if 32 ≤ port then d.badAccess (LNK * 2 ^ 23 + port * 2 ^ 12 + 0xA0) true false true
    else if d.lstate port = 1 ∨ d.lstate port = 3 ∨ (d.blk LNK port ≠ stReady ∧ d.blk LNK port ≠ stRunning) then d
    else d.startRetrain port)

/-- One lane failure of a port (R319, R354). The first one retrains the port, or lets a retraining that runs go on, on the
7 other lanes; a second one, or any with SPARE_EN = 0, loses the port. -/
def Dev.laneFail (d : Dev) (port lane : Nat) : Dev :=
  let st := d.lstate port
  if 32 ≤ port ∨ 8 ≤ lane ∨ (st ≠ 2 ∧ st ≠ 3) then d
  else
    let failed := d.getF R.LNK_STATUS_FAILED_LANES port
    if bitOf failed lane then d
    else
      let d := (d.setF R.LNK_STATUS_FAILED_LANES port (setBit failed lane)).setErr LNK port 16
      if failed = 0 ∧ d.getF R.LNK_CTRL_SPARE_EN port = 1 then
        (if st = 2 then (d.policyTaken LNK port).startRetrain port else d.policyTaken LNK port)
      else d.portLost port

/-- LANE_FAILURE (R319, R353, R354). -/
def execLaneFailure (port lane : Nat) (s : State) : Res := s.onDev (fun d => d.laneFail port lane)

/-- SERDES_PLL_LOSS (R460): each lane of the PLL is a lane failure, in the order given. -/
def execSerdesPllLoss (lanes : List (Nat × Nat)) (s : State) : Res :=
  s.onDev (fun d => lanes.foldl (fun d l => d.laneFail l.1 l.2) d)

/-- RETRAIN_COMPLETE (R319, R354): `lanes` is 8, 7, or 0 for a failed retraining. -/
def execRetrainComplete (port lanes : Nat) (s : State) : Res :=
  s.onDev (fun d => if d.lstate port = 3 then d.portDone port lanes else d)

/-! ### Forward error correction (R316; log entry 42) -/

/-- x · α in GF(2^10) with x^10 + x^3 + 1. -/
def gfDouble (x : Nat) : Nat := if x < 512 then 2 * x else (2 * x) ^^^ 0x409

/-- A product in GF(2^10). -/
def gfMul (x y : Nat) : Nat :=
  (List.range 10).foldl (fun r k => if bitOf y (9 - k) then gfDouble r ^^^ x else gfDouble r) 0

/-- α^n. -/
def gfAlpha (n : Nat) : Nat := (List.range n).foldl (fun x _ => gfDouble x) 1

/-- The inverse x^1022 of an element other than 0. -/
def gfInv (x : Nat) : Nat :=
  ((List.range 9).foldl (fun (a : Nat × Nat) _ => let q := gfMul a.1 a.1; (q, gfMul a.2 q)) (x, 1)).2

/-- A polynomial, lowest coefficient first, at a point. -/
def gfEval (p : List Nat) (x : Nat) : Nat := p.reverse.foldl (fun s c => gfMul s x ^^^ c) 0

/-- The syndromes of a word of 544 symbols, the first of which is the highest coefficient: its values at α^0 to α^29. -/
def rsSyndromes (cs : List Nat) : List Nat := (List.range 30).map (fun j => gfEval cs.reverse (gfAlpha j))

/-- The state of the search for the error locator: the locator and the one before it, its length, the shift, the last
discrepancy. -/
structure Locator where
  now  : List Nat
  old  : List Nat
  len  : Nat
  gap  : Nat
  last : Nat
  deriving DecidableEq, Repr

/-- The sum of two polynomials. -/
def gfAdd : List Nat → List Nat → List Nat
  | [], ys => ys
  | xs, [] => xs
  | x :: xs, y :: ys => (x ^^^ y) :: gfAdd xs ys

/-- One syndrome taken into the search. -/
def Locator.next (s : List Nat) (l : Locator) (n : Nat) : Locator :=
  let disc := (List.range (l.len + 1)).foldl (fun t i => if i ≤ n then t ^^^ gfMul (l.now.getD i 0) (s.getD (n - i) 0) else t) 0
  if disc = 0 then { l with gap := l.gap + 1 }
  else
    let k := gfMul disc (gfInv l.last)
    let now := gfAdd l.now (List.replicate l.gap 0 ++ l.old.map (gfMul k))
    if 2 * l.len ≤ n then { now := now, old := l.now, len := n + 1 - l.len, gap := 1, last := disc }
    else { l with now := now, gap := l.gap + 1 }

/-- What the decoder makes of a codeword. -/
inductive RsVerdict where
  | clean | corrected | uncorrectable
  deriving DecidableEq, Repr

/-- RS(544,514) corrects up to 15 symbols: the locator must have as many roots among the 544 places as its length. -/
def rsDecode (cs : List Nat) : RsVerdict :=
  let s := rsSyndromes cs
  if s.all (fun x => decide (x = 0)) then .clean
  else
    let l := (List.range 30).foldl (Locator.next s) ⟨[1], [1], 0, 1, 1⟩
    let roots := (List.range 544).foldl (fun (a : Nat × Nat) _ =>
      (a.1 + b2n (decide (gfEval l.now a.2 = 0)), gfMul a.2 (gfInv 2))) (0, 1)
    if l.len ≤ 15 ∧ roots.1 = l.len then .corrected else .uncorrectable

/-- The symbols of a codeword from those of its active lanes: symbol i travels on lane i mod (active lanes) (R316). -/
def laneSymbols (lanes : List (List Nat)) : List Nat :=
  (List.range 544).map (fun i => (lanes.getD (i % lanes.length) []).getD (i / lanes.length) 0)

/-- The verdicts of the codewords that begin within a flit. -/
def fecVerdicts (fec : FecWords) : List RsVerdict := fec.words.map (fun w => rsDecode (laneSymbols w))

/-! ### Packets as bytes (R324, R325) -/

/-- The 64 bytes of a packet's header (R325). -/
def headerBytes (p : Packet) : List Byte :=
  leBytes 1 p.opc ++ leBytes 1 p.flags ++ leBytes 1 (p.tc % 8 + 8 * (p.hops % 4)) ++ leBytes 1 p.status ++ leBytes 2 p.dst
    ++ leBytes 2 p.src ++ leBytes 4 (p.dstFlow % 2 ^ 18) ++ leBytes 4 p.seq ++ leBytes 4 p.ack ++ leBytes 4 (p.srcFlow % 2 ^ 18)
    ++ leBytes 8 p.addr ++ leBytes 2 p.len ++ leBytes 2 p.attr ++ leBytes 4 p.tag ++ leBytes 8 p.op1 ++ leBytes 8 p.op2
    ++ List.replicate 8 0

/-- The packet that a header names, without its payload; reserved bits are not read (R7, R325). -/
def packetOfHeader (bs : List Byte) : Packet :=
  let g (o n : Nat) : Nat := leNat ((bs.drop o).take n)
  { opc := g 0 1, flags := g 1 1 % 16, tc := g 2 1 % 8, hops := g 2 1 / 8 % 4, status := g 3 1, dst := g 4 2, src := g 6 2,
    dstFlow := g 8 4 % 2 ^ 18, seq := g 0xC 4, ack := g 0x10 4, srcFlow := g 0x14 4 % 2 ^ 18, addr := g 0x18 8, len := g 0x20 2,
    attr := g 0x22 2, tag := g 0x24 4, op1 := g 0x28 8, op2 := g 0x30 8, payload := [] }

/-- Payload bytes that a packet brings: none for a GET (R326). -/
def carried (p : Packet) : Nat := if p.opc = 2 then 0 else p.len

/-- Bytes cut or zero-filled to a length. -/
def padTo (n : Nat) (bs : List Byte) : List Byte := bs.take n ++ List.replicate (n - bs.length) 0

/-- The bytes of flit k of a packet (R324): the header and the first 192 payload bytes, then 256 bytes a flit. -/
def flitBytes (p : Packet) (k : Nat) : List Byte :=
  let data := p.payload.take (carried p)
  if k = 0 then headerBytes p ++ padTo 192 data else padTo 256 (data.drop (192 + 256 * (k - 1)))

/-- The packet with the payload that one more flit brings. -/
def packetWith (p : Packet) (bs : List Byte) : Packet :=
  { p with payload := p.payload ++ bs.take (carried p - p.payload.length) }

/-! ### The link tail (R321) -/

/-- The code of a flit kind. -/
def kindCode : FlitKind → Nat
  | .idle => 0 | .head => 1 | .data => 2 | .control => 3

/-- The CRC of a flit: over its bytes and the tail's bits [119:64] as 7 bytes. -/
def flitCrc (f : Flit) : Nat := crc64Run (2 ^ 64 - 1) (f.bytes ++ leBytes 7 (f.tail / 2 ^ 64)) ^^^ (2 ^ 64 - 1)

/-- The CRC of a flit is good. -/
def crcGood (f : Flit) : Bool := decide (flitCrc f = f.tail % 2 ^ 64)

/-- The fields of a link tail. -/
structure Tail where
  vl      : Nat
  kind    : FlitKind
  last    : Bool
  nack    : Bool
  seq     : Nat
  ack     : Nat
  crVl    : Nat
  crCount : Nat
  deriving DecidableEq, Repr

/-- The fields of a tail of 120 bits. -/
def tailOf (t : Nat) : Tail :=
  { vl := bitsOf t 117 3
    kind := match bitsOf t 115 2 with
      | 0 => .idle | 1 => .head | 2 => .data | _ => .control
    last := bitOf t 114, nack := bitOf t 113, seq := bitsOf t 101 12, ack := bitsOf t 89 12, crVl := bitsOf t 86 3,
    crCount := bitsOf t 75 11 }

/-- The flit of some bytes and tail fields, with its CRC. -/
def makeFlit (bs : List Byte) (t : Tail) : Flit :=
  let v := t.vl % 8 * 2 ^ 117 + kindCode t.kind * 2 ^ 115 + b2n t.last * 2 ^ 114 + b2n t.nack * 2 ^ 113 + t.seq % 2 ^ 12 * 2 ^ 101
    + t.ack % 2 ^ 12 * 2 ^ 89 + t.crVl % 8 * 2 ^ 86 + t.crCount % 2 ^ 11 * 2 ^ 75
  ⟨bs, v + flitCrc ⟨bs, v⟩⟩

/-! ### Flits (R321 to R324, R328, R331) -/

/-- Credits of a VL (R323). -/
def Port.credits (q : Port) (v : Nat) : Nat :=
  let used := (2048 + mget 0 q.sent v % 2048 - mget 0 q.freedByPeer v % 2048) % 2048
  mget 0 q.grants v - used

/-- A VL has a flit to send, one that has come in where the packet is still arriving (R331), and a credit for it. -/
def Port.canSend (q : Port) (v : Nat) : Bool :=
  (mget [] q.queue v).head?.elim false (fun e => decide (e.sent < e.here)) && decide (1 ≤ q.credits v)

/-- The weight of a VL (R357). -/
def Dev.vlWeight (d : Dev) (i v : Nat) : Nat := bitsOf (d.actF R.LNK_VL_ARB_WEIGHT i) (4 * v) 4

/-- The VL that the arbiter picks: strict VLs first, higher first; else weighted round robin in flits, the
VL in turn going on for its remaining weight (R328). -/
def Dev.arbitrate (d : Dev) (i : Nat) : Option Nat :=
  let q := d.port i
  let strict := [7, 6, 5, 4, 3, 2, 1, 0].find? (fun v => decide (d.vlWeight i v = 0) && q.canSend v)
  match strict with
  | some v => some v
  | none =>
    let order := if q.rrLeft = 0 then (List.range 8).map (fun k => (q.rrVl + 1 + k) % 8)
      else (List.range 8).map (fun k => (q.rrVl + k) % 8)
    order.find? (fun v => decide (d.vlWeight i v ≠ 0) && q.canSend v)

/-- The round-robin state after a flit of a VL. -/
def rrNext (q : Port) (weight v : Nat) : Port :=
  if weight = 0 then q
  else if v = q.rrVl ∧ q.rrLeft ≠ 0 then { q with rrLeft := q.rrLeft - 1 }
  else { q with rrVl := v, rrLeft := weight - 1 }

/-- Sends one flit with the tail of R321: NACK and ACK of the receiver's side, and the freed count of the VL in
turn; CR_VL advances by one in each tail (R322, R323). Every flit counts, idle and replayed ones too (R356). -/
def Dev.sendTail (d : Dev) (i : Nat) (kind : FlitKind) (vl seq : Nat) (last : Bool) (bs : List Byte) : Dev :=
  let q := d.port i
  let f := makeFlit bs { vl := vl, kind := kind, last := last, nack := q.nackNext, seq := seq, ack := q.rxSeq, crVl := q.crVl,
                         crCount := mget 0 q.freed q.crVl }
  ((d.setPort i { q with nackNext := false, crVl := (q.crVl + 1) % 8 }).emit (.flit i f)).bump LNK i 0 1

/-- Sends a flit that the replay buffer keeps. -/
def Dev.sendKept (d : Dev) (i : Nat) (f : SentFlit) : Dev := d.sendTail i f.kind f.vl f.seq f.last f.bytes

/-- The receive buffer of a transit packet gives one flit free as the flit leaves; it counts as forwarded on the port that
it leaves by (R323, R331, R356; log entry 42). -/
def Dev.transitLeft (d : Dev) (i : Nat) (e : QPkt) : Dev :=
  let d := match e.inp with
    | some (j, v) => d.setPort j ((d.port j).free v 1)
    | none => d
  if e.pkt.src = d.devNum then d else d.bump LNK i 6 1

/-- Sends the next flit of a VL (R322 to R324): it takes a credit and a replay buffer place. -/
def Dev.sendFlit (d : Dev) (i v : Nat) : Dev :=
  let q := d.port i
  match mget [] q.queue v with
  | [] => d
  | e :: rest =>
    let last := decide (e.sent + 1 = wireFlits e.pkt)
    let f : SentFlit := ⟨q.txSeq, v, if e.sent = 0 then .head else .data, last, flitBytes e.pkt e.sent⟩
    let q' : Port := { q with queue := mput v (if last then rest else { e with sent := e.sent + 1 } :: rest) q.queue,
                              sent := mput v (mget 0 q.sent v + 1) q.sent,
                              replay := q.replay ++ [f], txSeq := (q.txSeq + 1) % 4096 }
    ((d.setPort i (rrNext q' (d.vlWeight i v) v)).transitLeft i e).sendKept i f

/-- FLIT_TRANSMIT (R321 to R324, R328): one flit of the VL that the arbiter picks while the replay buffer
has a place, else an idle flit. -/
def execFlitTransmit (port : Nat) (s : State) : Res :=
  s.onDev (fun d =>
    if d.live port then
      let q := d.port port
      let idle := d.sendTail port .idle 0 q.txSeq false (List.replicate 256 0)
      match d.arbitrate port with
      | some v => if q.replay.length < 1024 then d.sendFlit port v else idle
      | none => idle
    else d)

/-- A replay from the oldest unacknowledged flit; after REPLAY_LIM in a row without progress the port
retrains (R322). -/
def Dev.replayPort (d : Dev) (i : Nat) : Dev :=
  let q := d.port i
  if q.replay.isEmpty then d
  else if max 1 (d.actF R.LNK_TIMERS_REPLAY_LIM i) ≤ q.replays then (d.setErr LNK i 20).startRetrain i
  else
    let d := d.setPort i { q with replays := q.replays + 1 }
    (q.replay.foldl (fun d f => d.sendKept i f) d).bump LNK i 5 1

/-- LINK_REPLAY_TIMEOUT (R322): no ACK has advanced for LINK_RTO. -/
def execLinkReplayTimeout (port : Nat) (s : State) : Res :=
  s.onDev (fun d => if d.live port then d.replayPort port else d)

/-- The ACK, NACK and credit fields of a received tail (R321 to R323). -/
def Dev.takeTail (d : Dev) (i : Nat) (f : Tail) : Dev :=
  let q := d.port i
  let acked (n : Nat) : Bool := decide ((4096 + f.ack - n) % 4096 ≤ 2048) && decide (f.ack ≠ n)
  let keep := q.replay.filter (fun r => !acked r.seq)
  let q' : Port := { q with replay := keep, replays := if keep.length < q.replay.length then 0 else q.replays,
                            freedByPeer := mput f.crVl f.crCount q.freedByPeer }
  let d := d.setPort i q'
  if f.nack then d.replayPort i else d

/-- Where the packet of a head flit goes (R331, R332): to this device, nowhere without transit or hops, onto the picked
port, or into a wait for a live candidate. -/
def Dev.wayOf (d : Dev) (i : Nat) (p : Packet) : RxWay :=
  if p.dst = d.devNum then .local
  else if d.getF R.LNK_TRANSIT_TRANSIT_EN i = 0 ∨ p.hops = 0 then .drop
  else match d.pickPort p with
    | some o => .onto o
    | none => .hold

/-- Frees flits of a port's VL. -/
def Dev.freeRx (d : Dev) (i v n : Nat) : Dev := d.setPort i ((d.port i).free v n)

/-- The packet that is arriving on a VL, or none. -/
def Dev.setOpen (d : Dev) (i v : Nat) (o : Option RxOpen) : Dev :=
  let q := d.port i
  d.setPort i { q with rxOpen := match o with
    | some o => mput v o q.rxOpen
    | none => mdel v q.rxOpen }

/-- The packet that is arriving on VL v of port i, as it stands on the queue of port o, takes one more flit. -/
def Dev.growTransit (d : Dev) (o i v : Nat) (bs : List Byte) : Dev :=
  let q := d.port o
  d.setPort o { q with queue := q.queue.map (fun x => (x.1, x.2.map (fun e =>
    if e.inp = some (i, v) ∧ e.partial = true then { e with pkt := packetWith e.pkt bs, here := e.here + 1 } else e))) }

/-- A head flit opens its packet: a transit packet is forwarded from its head on, with one hop fewer (R331). -/
def Dev.openPacket (d : Dev) (i v : Nat) (p : Packet) : Dev :=
  match d.wayOf i p with
  | .local => (d.freeRx i v 1).setOpen i v (some ⟨p, 1, .local⟩)
  | .drop => (((d.freeRx i v 1).bump LNK i 7 1).setErr LNK i 22).setOpen i v (some ⟨p, 1, .drop⟩)
  | .hold => (d.setErr FLW 0 21).setOpen i v (some ⟨{ p with hops := p.hops - 1 }, 1, .hold⟩)
  | .onto o =>
    let p' := { p with hops := p.hops - 1 }
    let q := d.port o
    let d := d.setPort o { q with queue := mput v (mget [] q.queue v ++ [⟨p', 0, 1, some (i, v)⟩]) q.queue }
    (d.emit (.packet p')).setOpen i v (some ⟨p', 1, .onto o⟩)

/-- A data flit continues the packet of its VL (R324, R331). -/
def Dev.growPacket (d : Dev) (i v : Nat) (o : RxOpen) (bs : List Byte) : Dev :=
  let o' : RxOpen := { o with pkt := packetWith o.pkt bs, flits := o.flits + 1 }
  match o.way with
  | .local | .drop => (d.freeRx i v 1).setOpen i v (some o')
  | .hold => d.setOpen i v (some o')
  | .onto k => (d.growTransit k i v bs).setOpen i v (some o')

/-- LAST closes a packet: one for this device has arrived, one that waited for a candidate is routed afresh. -/
def Dev.closePacket (d : Dev) (i v : Nat) : Dev :=
  match mfind v (d.port i).rxOpen with
  | none => d
  | some o =>
    let d := d.setOpen i v none
    match o.way with
    | .local => { d with fab := { d.fab with arrived := d.fab.arrived ++ [o.pkt] } }
    | .hold => (d.freeRx i v o.flits).routeOut o.pkt
    | _ => d

/-- An accepted flit: heads open a packet of their VL, data flits continue it, LAST closes it (R324). -/
def Dev.acceptFlit (d : Dev) (i : Nat) (f : Flit) (t : Tail) : Dev :=
  let q := d.port i
  let d := d.setPort i { q with rxSeq := (q.rxSeq + 1) % 4096 }
  let d := match t.kind with
    | .head => d.openPacket i t.vl (packetWith (packetOfHeader f.bytes) (f.bytes.drop 64))
    | .data =>
      match mfind t.vl q.rxOpen with
      | some o => d.growPacket i t.vl o f.bytes
      | none => d.freeRx i t.vl 1
    | _ => d
  if t.last then d.closePacket i t.vl else d

/-- A flit that is discarded asks for a replay in the next tail (R322). -/
def Dev.rejectFlit (d : Dev) (i : Nat) : Dev := d.setPort i { d.port i with nackNext := true }

/-- The codewords that carry a flit: each counts as it is corrected or given up, and the flit is bad when it overlaps one
that could not be corrected (R316, R356). -/
def Dev.takeFec (d : Dev) (i : Nat) (fec : FecWords) : Bool × Dev :=
  let vs := fecVerdicts fec
  let lost := vs.filter (fun v => decide (v = .uncorrectable))
  let q := d.port i
  let bad := (fec.joins && q.badWord) || !lost.isEmpty
  let d := d.setPort i { q with badWord := vs.getLast?.elim q.badWord (fun v => decide (v = .uncorrectable)) }
  let d := (d.bump LNK i 2 (vs.filter (fun v => decide (v = .corrected))).length).bump LNK i 3 lost.length
  (bad, if lost.isEmpty then d else d.setErr LNK i 19)

/-- FLIT_RECEIVE (R316, R321 to R324, R331): checks the codewords and the CRC, applies the tail, accepts the flit in
sequence or discards it with NACK. -/
def execFlitReceive (port : Nat) (x : RxFlit) (s : State) : Res :=
  s.onDev (fun d =>
    if d.live port then
      let f := x.flit
      let r := (d.bump LNK port 1 1).takeFec port x.fec
      let d := r.2
      if r.1 || !crcGood f then (d.bump LNK port 4 1).rejectFlit port
      else
        let t := tailOf f.tail
        let d := d.takeTail port t
        if t.kind = .idle ∨ d.live port = false then d
        else if t.seq = (d.port port).rxSeq then d.acceptFlit port f t
        else d.rejectFlit port
    else d)

/-- TRANSIT_TIMEOUT (R331): the transit packet at the head of a VL, none of whose flits has left, is
dropped with its data flits, and its receive buffer is freed. -/
def execTransitTimeout (port vl : Nat) (s : State) : Res :=
  s.onDev (fun d =>
    let q := d.port port
    match mget [] q.queue vl with
    | e :: rest =>
      if e.sent ≠ 0 ∨ e.pkt.src = d.devNum then d
      else (((d.setPort port { q with queue := mput vl rest q.queue }).freeTransit e).bump LNK port 7 1).setErr LNK port 21
    | [] => d)

/-- LNK_VL_BUF_WRITE (R47, R358): refused when the eight fields would exceed 1,024 flits together or one
would be zero; an RL register. -/
def execLnkVlBufWrite (w : Writer) (port : Nat) (hi : Bool) (v : Nat) (s : State) : Res :=
  s.byWriter w (fun d =>
    if 32 ≤ port then d.badAccess (LNK * 2 ^ 23 + port * 2 ^ 12 + 0x94) true false true
    else
      let put (d : Dev) (f : Field) (k : Nat) : Dev := d.setF f port (bitsOf v (8 * k) 8)
      let d' := if hi then
          put (put (put (put d R.LNK_VL_BUF_HI_VL4 0) R.LNK_VL_BUF_HI_VL5 1) R.LNK_VL_BUF_HI_VL6 2) R.LNK_VL_BUF_HI_VL7 3
        else put (put (put (put d R.LNK_VL_BUF_LO_VL0 0) R.LNK_VL_BUF_LO_VL1 1) R.LNK_VL_BUF_LO_VL2 2) R.LNK_VL_BUF_LO_VL3 3
      let sizes := (List.range 8).map (fun k => d'.vlBuf port k)
      if d.rlOpen false LNK port = false then (if sizes = (List.range 8).map (fun k => d.vlBuf port k) then d else d.lockedWrite LNK port)
      else if 1024 < sizes.sum ∨ sizes.contains 0 = true then d.setErr LNK port 24
      else d')

end Sys2Proof.Machine
end

