-- ==== Sys2Proof/Machine/Operands.lean ====
section
/-! DEFINITION. Every operand form: elements of planes, scale entries, weight expansion entries, operand
blocks, wide blocks and their slices, and the writing of output planes (R127 to R146, R157, R158, R183,
R198 to R213). The functions read through `rd`, the bytes of the cell store or of device memory. -/

namespace Sys2Proof.Machine

/-- A little-endian number of n bytes through a reader. -/
def rdNat (rd : Nat → Byte) (a n : Nat) : Nat := leNat ((List.range n).map (fun i => rd (a + i)))

/-- Element k of width w of the packed run at `base` (R127): bits kw to kw + w − 1 of the run taken as a
little-endian number. -/
def rdElem (rd : Nat → Byte) (base w k : Nat) : Nat :=
  rdNat rd (base + k * w / 8) 9 / 2 ^ (k * w % 8) % 2 ^ w

/-- Where the group record of group g of a compressed row lies (R210). -/
def groupAt (rd : Nat → Byte) (w : Nat) : Nat → Nat → Nat
  | a, 0 => a
  | a, g + 1 =>
    let mask := rdNat rd a 8
    let n := ((List.range 64).filter (fun j => bitOf mask j)).length
    groupAt rd w (a + 8 + (n * w + 63) / 64 * 8) g

/-- Element k of a compressed row at `base` (R210, R211). -/
def rdCompressed (rd : Nat → Byte) (base w k : Nat) : Nat :=
  let a := groupAt rd w base (k / 64)
  let mask := rdNat rd a 8
  let j := k % 64
  if bitOf mask j then rdElem rd (a + 8) w ((List.range j).filter (fun i => bitOf mask i)).length else 0

/-- The group records of a row of element codes (R210): an element is stored exactly when its value is
not zero (R211). -/
def compressRow (f : Nat) : Nat → List Nat → List Byte
  | 0, _ => []
  | fuel + 1, xs =>
    if xs.isEmpty then []
    else
      let w := fmtBits f
      let g := xs.take 64
      let keep := g.filter (fun v => !(decodeElem f v).isZero)
      let mask := ((List.range g.length).map (fun j =>
        if (decodeElem f (g.getD j 0)).isZero then 0 else 2 ^ j)).sum
      let packed := ((List.range keep.length).map (fun i => keep.getD i 0 % 2 ^ w * 2 ^ (i * w))).sum
      leBytes 8 mask ++ leBytes ((keep.length * w + 63) / 64 * 8) packed ++ compressRow f fuel (xs.drop 64)

/-- The code of the element at reduction index k of a plane row; 0 below the plane and at or above K
(R128). -/
def opCode (rd : Nat → Byte) (o : OperandDesc) (row k : Nat) : Nat :=
  if k < o.col0 ∨ o.kLen ≤ k then 0
  else
    let base := o.data + row * o.pitch
    let w := fmtBits o.format
    if o.compressed then rdCompressed rd base w (k - o.col0) else rdElem rd base w (k - o.col0)

/-- The scale entry of block b of a plane row (R133). -/
def opScale (rd : Nat → Byte) (o : OperandDesc) (row b : Nat) : Nat :=
  rdNat rd (o.scale + row * o.scalePitch + 2 * (b - o.col0 / o.block)) 2

/-- The blocks that a plane row covers, as block indices (R86, R130). -/
def opBlocks (o : OperandDesc) : List Nat :=
  let lo := o.col0 / o.block
  let hi := (o.kLen + o.block - 1) / o.block
  (List.range (hi - lo)).map (· + lo)

/-- The TAG of a scale entry agrees with its block index (R86, R134). -/
def tagOk (entry b : Nat) : Bool := decide (bitsOf entry 12 4 = b % 16)

/-- A block as its scale entry shows it (R134); `sum` is filled by its reader. -/
def scaleBlock (entry : Nat) : BlockInfo :=
  let code := entry % 256
  { nan := decide (code = 0xFF), zero := decide (code ≠ 0xFF) && bitOf entry 11, exp := code, sum := 0 }

/-- A block beyond the operand: it contributes nothing. -/
def BlockInfo.none : BlockInfo := ⟨false, true, 0, 0⟩

/-- The block of an 8-bit-class or W1/W2 operand row that covers reduction index k, with whether its
tag agrees. -/
def opBlock (rd : Nat → Byte) (o : OperandDesc) (row k : Nat) : BlockInfo × Bool :=
  if k < o.col0 ∨ o.kLen ≤ k then (BlockInfo.none, true)
  else
    let b := k / o.block
    let e := opScale rd o row b
    (scaleBlock e, tagOk e b)

/-- The weight expansion entry of an output channel (R141). -/
def opExpansion (rd : Nat → Byte) (o : OperandDesc) (n : Nat) : Nat := rdNat rd (o.expand + 8 * (n / 64)) 8

/-- MODE of an expansion entry disagrees with the descriptor's declaration, or is 3 (R142, R183). -/
def badExpansion (affine : Bool) (e : Nat) : Bool :=
  let m := bitsOf e 62 2
  decide (m = 3) || (affine && decide (m ≠ 2)) || (!affine && decide (m = 2))

/-- A W1 or W2 code as it reaches the multiplier (R142). -/
def expandCode (e u : Nat) : Num :=
  let t := bitsOf e (8 * u) 8
  match bitsOf e 62 2 with
  | 0 => .ofInt (sext 8 t) 0
  | 1 => decodeElem 0 t
  | _ => .fin false u 0

/-- The zero point Z of an expansion entry (R141). -/
def expansionZ (e : Nat) : Int := sext 8 (bitsOf e 32 8)

/-! ### Kinds of operand (R148, R149) -/

/-- T and EMIN of an operand kind: a format, with the mode of W1/W2 as 0 TABLE_INT8, 1 TABLE_E4M3,
2 AFFINE (R148). -/
def kindBounds (f mode : Nat) : Int × Int :=
  match f with
  | 0 => (9, -9) | 1 => (16, -16) | 2 => (5, -4) | 3 => (3, -3) | 4 => (3, -1) | 5 => (8, 0) | 6 => (4, 0)
  | _ => if mode = 0 then (8, 0) else if mode = 1 then (9, -9) else (2, 0)

/-- Band grid exponent L of a pair of kinds (R149). -/
def bandGrid (x w : Int × Int) : Int := max (x.2 + w.2) (x.1 + w.1 - 43)

/-- Band depth D of a pair of kinds (R149). -/
def bandDepth (x w : Int × Int) : Int := x.1 + w.1 + 4 - bandGrid x w

/-- The mode of a weight operand's kind (R148): AFFINE by declaration, TABLE_E4M3 when any group is. -/
def weightMode (o : OperandDesc) (anyE4M3 : Bool) : Nat := if o.affine then 2 else if anyE4M3 then 1 else 0

/-- Some group that the rows cover has MODE TABLE_E4M3 (R148). -/
def opAnyE4M3 (rd : Nat → Byte) (o : OperandDesc) : Bool :=
  isCode o.format && (List.range o.rows).any (fun r => decide (bitsOf (opExpansion rd o (o.row0 + r)) 62 2 = 1))

/-! ### Wide operands (R157, R158, R160) -/

/-- Slices n of a wide format (R157). -/
def slices (f : Nat) : Nat := if f = 12 then 8 else if f = 11 then 4 else 2

/-- Products m of an output in a mode (R159). -/
def productsOf : ArrayMode → Nat
  | .splitHalf => 4 | .split32 => 10 | .split64 => 36 | _ => 1

/-- The block exponent β of wide elements, none for a block without a finite nonzero element (R157). -/
def blockExp (xs : List Num) : Option Int :=
  xs.foldl (fun a x => if x.isFinNz then some (a.elim x.log2 (max x.log2)) else a) none

/-- The aligned integer of a wide element on its block's slice grid (R157). -/
def aligned (n : Nat) (beta : Int) (x : Num) : Int :=
  match x with
  | .fin s m e =>
    let q : Int := e - (beta + 2 - 7 * (n : Int))
    let v : Nat := if 0 ≤ q then m * pow2 q else rneShift m (-q).toNat
    if s then -(v : Int) else v
  | _ => 0

/-- Slice i of an aligned integer (R158). -/
def sliceOf (n i : Nat) (m : Int) : Int :=
  let sh := m / (2 ^ (7 * (n - 1 - i)) : Nat)
  if i = 0 then sh else sh % 128

/-- The product set of an output (R159). -/
def productSet (n : Nat) : List (Nat × Nat) :=
  let base := (List.range n).flatMap (fun t => (List.range (t + 1)).map (fun i => (i, t - i)))
  if n = 2 then base ++ [(1, 1)] else base

/-- The 16-element block of a wide operand row from reduction index k. -/
def opWideBlock (rd : Nat → Byte) (o : OperandDesc) (row k : Nat) : BlockInfo :=
  let xs := (List.range 16).map (fun i => decodeElem o.format (opCode rd o row (k + i)))
  match blockExp xs with
  | some b => ⟨false, false, b, 0⟩
  | none => ⟨false, true, 0, 0⟩

/-! ### Pairings (R144, R145, R167) -/

/-- An 8-bit-class format. -/
def is8 (f : Nat) : Bool := decide (f ≤ 6)

/-- A 4-bit format. -/
def is4 (f : Nat) : Bool := decide (f = 4) || decide (f = 6)

/-- The pairing of a mode with two operand formats and their block size is a row of R144. -/
def pairingOk (mode : ArrayMode) (x w block : Nat) : Bool :=
  let blk := decide (block = 16) || decide (block = 32)
  match mode with
  | .m8 => is8 x && is8 w && blk
  | .dual => blk && ((is8 x && isCode w) || (is4 x && is4 w))
  | .splitHalf => (decide (x = 9) || decide (x = 10)) && (decide (w = 9) || decide (w = 10)) && decide (block = 16)
  | .split32 => decide (x = 11) && decide (w = 11) && decide (block = 16)
  | .split64 => decide (x = 12) && decide (w = 12) && decide (block = 16)
  | .t3 => (decide (x = 0) || decide (x = 1) || decide (x = 5)) && (decide (w = 0) || decide (w = 1) || decide (w = 5))
      && decide (block = 32)

/-! ### Output planes -/

/-- Packs element codes of width w from element index `at` of a run, over the bytes that stand there:
whole bytes that the codes touch (R127). -/
def packElems (w : Nat) (codes : List Nat) : List Byte :=
  let v := ((List.range codes.length).map (fun i => codes.getD i 0 % 2 ^ w * 2 ^ (i * w))).sum
  leBytes ((codes.length * w + 7) / 8) v

/-- What writing a row of values gives: bytes of data, bytes of scale entries, counts, and the values a
reader gets with their grid exponents, the positions that saturated. -/
structure RowOut where
  data   : List Byte
  scales : List Byte
  vanish : Nat
  sat    : Nat
  elems  : Nat
  read   : List (Num × Int)
  sats   : List Nat
  deriving DecidableEq, Repr

/-- Nothing written. -/
def RowOut.empty : RowOut := ⟨[], [], 0, 0, 0, [], []⟩

/-- One after the other. -/
def RowOut.append (a b : RowOut) : RowOut :=
  { data := a.data ++ b.data, scales := a.scales ++ b.scales, vanish := a.vanish + b.vanish,
    sat := a.sat + b.sat, elems := a.elems + b.elems, read := a.read ++ b.read,
    sats := a.sats ++ b.sats.map (· + a.read.length) }

/-- One block of a narrow output, block index b (R133, R137, R138, R174). Positions at or beyond `live`
are written 0x0 and take no part (R128). -/
def writeBlock (f block b : Nat) (xs : List Num) : RowOut :=
  let q := quantiseBlock f xs
  let codes := blockElems xs.length q
  let padded := codes ++ List.replicate (block - codes.length) 0
  let e : Nat := match q with
    | .block e _ _ _ _ => e
    | _ => 0
  let vals := blockValues f xs.length q
  let grid (v : Num) : Int := gridExp (fmtP f) (fmtEmin f) v.sig.natAbs (v.exp - ((e : Int) - 127)) + ((e : Int) - 127)
  let cnt : Nat × Nat × Nat := match q with
    | .nanBlock => (0, 0, 0)
    | .zeroBlock v n => (v, 0, n)
    | .block _ _ v s n => (v, s, n)
  { data := packElems (fmtBits f) padded, scales := leBytes 2 (scaleEntry b q), vanish := cnt.1, sat := cnt.2.1,
    elems := cnt.2.2, read := vals.map (fun v => (v, grid v)),
    sats := if cnt.2.1 = 0 then [] else (List.range xs.length).filter (fun i => (quantElem f e (xs.getD i .zero)).2.2) }

/-- A narrow output row from element `first` (a block boundary), values divided by 2^σ (R137, R178). -/
def writeNarrowRow (f block first : Nat) (xs : List Num) : RowOut :=
  let cs := chunks block xs.length xs
  ((List.range cs.length).map (fun i => writeBlock f block (first / block + i) (cs.getD i []))).foldl RowOut.append
    RowOut.empty

/-- A wide output row (R135, R136, R175). -/
def writeWideRow (f : Nat) (xs : List Num) : RowOut :=
  let es := xs.map (fun x => encodeWide f x)
  let pairs := xs.zip es
  { data := packElems (fmtBits f) (es.map (·.1)), scales := [],
    vanish := (pairs.filter (fun p => p.1.isFinNz && (decodeElem f p.2.1).isZero)).length,
    sat := (es.filter (·.2)).length, elems := (xs.filter (·.isFinNz)).length,
    read := es.map (fun e =>
      let v := decodeElem f e.1
      (v, gridExp (fmtP f) (fmtEmin f) v.sig.natAbs v.exp)),
    sats := [] }

/-- The rule of R146 on a narrow output of `count` elements from element `first` of a row of `len`. -/
def wholeBlocks (block first count len : Nat) : Bool :=
  decide (first % block = 0) && (decide ((first + count) % block = 0) || decide (first + count = len))

end Sys2Proof.Machine
end

