-- ==== Sys2Proof/Machine/Scale.lean ====
section
/-! DEFINITION. The scale-state table in memory: effective σ, statistics records, the boundary update and
promotion steps (R170 to R177, R194, R547). -/

namespace Sys2Proof.Machine

/-- The scale-state table's base (R172, R252). -/
def Dev.sstBase (d : Dev) : Nat :=
  d.getF R.NUM_SST_BASE_LO_ADDR_LO 0 * 128 + d.getF R.NUM_SST_BASE_HI_ADDR_HI 0 * 2 ^ 32

/-- Entries of the table; larger counts act as 65,536 (R252). -/
def Dev.sstCount (d : Dev) : Nat := min 0x10000 (d.getF R.NUM_SST_COUNT_COUNT 0)

/-- The address of entry i (R172). -/
def Dev.sstAt (d : Dev) (i : Nat) : Nat := d.sstBase + 128 * i

/-- FORMAT of an entry. -/
def Dev.entryFormat (d : Dev) (i : Nat) : Nat := d.nat (d.sstAt i) 1

/-- The statistics record of step n of an entry (R172). -/
def Dev.statAt (d : Dev) (i n : Nat) : Nat := d.sstAt i + 0x40 + 32 * (n % 2)

/-- FLAGS of a statistics record (R174). -/
def Dev.statFlags (d : Dev) (i n : Nat) : Nat := d.nat (d.statAt i n + 6) 1

/-- SIGMA of an entry. -/
def Dev.entrySigma (d : Dev) (i : Nat) : Int := sext 16 (d.nat (d.sstAt i + 4) 2)

/-- The effective per-tensor exponent of a tensor in the open step (R170, R171). -/
def Dev.sigma (d : Dev) (entry : Option Nat) : Int :=
  match entry with
  | none => 0
  | some i =>
    if isNarrow (d.entryFormat i) then
      if bitOf (d.statFlags i d.step) 0 then sext 16 (d.nat (d.statAt i d.step + 4) 2) else d.entrySigma i
    else 0

/-- LAYER of an entry; 0 for none (R173, R239). -/
def Dev.layerOf (d : Dev) (entry : Option Nat) : Nat := entry.elim 0 (fun i => d.nat (d.sstAt i + 0x30) 4)

/-- The maximum of a stored amax exponent, 0x8000 ranking lowest, and a new one (R175). -/
def maxExpWord (old : Nat) (new : Option Int) : Nat :=
  match new with
  | none => old
  | some v => if old = 0x8000 ∨ sext 16 old < v then twos 16 v else old

/-- A read-modify-write of part of the table: dropped, with the word still poisoned, when the range meets a
poisoned word (R547). -/
def Dev.rmw (d : Dev) (a n : Nat) (f : Dev → Dev) : Dev :=
  let d := d.meetRange a n 2
  match d.poisonIn a n with
  | some w => d.rmwDropped w
  | none => f d

/-- Applies statistics counts to the record of step n (R175); `measuring` applies only M_AMAX_EXP (R185). -/
def Dev.applyStat (d : Dev) (n : Nat) (measuring : Bool) (u : StatUpdate) : Dev :=
  let a := d.statAt u.entry n
  d.rmw a 32 (fun d =>
    let w16 (d : Dev) (off v : Nat) : Dev := d.write (a + off) (leBytes 2 v)
    if measuring then w16 d 2 (maxExpWord (d.nat (a + 2) 2) u.amax)
    else
      let d := w16 d 0 (maxExpWord (d.nat a 2) u.amax)
      let d := if u.nonfin then d.write (a + 6) (leBytes 1 (setBit (d.nat (a + 6) 1) 2)) else d
      let d := d.write (a + 8) (leBytes 8 (d.nat (a + 8) 8 + u.vanish))
      let d := d.write (a + 16) (leBytes 8 (d.nat (a + 16) 8 + u.sat))
      d.write (a + 24) (leBytes 8 (d.nat (a + 24) 8 + u.elements)))

/-- The bytes of a cleared statistics record (R175). -/
def clearedStat : List Byte := leBytes 2 0x8000 ++ leBytes 2 0x8000 ++ List.replicate 28 0

/-- Clears the statistics record of step n of an entry (R175). -/
def Dev.clearStat (d : Dev) (i n : Nat) : Dev := d.write (d.statAt i n) clearedStat

/-- Clears a record of every entry at a boundary. -/
def Dev.clearStats (d : Dev) (n : Nat) : Dev := (List.range d.sstCount).foldl (fun d i => d.clearStat i n) d

/-- Sets a bit of the FLAGS of a statistics record. -/
def Dev.setStatFlag (d : Dev) (i n b : Nat) : Dev :=
  d.rmw (d.statAt i n) 8 (fun d => d.write (d.statAt i n + 6) (leBytes 1 (setBit (d.statFlags i n) b)))

/-- σ clamped to its range (R170, R176, R185). -/
def clampSigma (v : Int) : Int := max (-1100) (min v 1100)

/-- Sets JIT_SIGMA and JIT of an entry in a step (R185, R186). -/
def Dev.setJit (d : Dev) (i n : Nat) (sigma : Int) : Dev :=
  let d := d.rmw (d.statAt i n) 8 (fun d => d.write (d.statAt i n + 4) (leBytes 2 (twos 16 sigma)))
  d.setStatFlag i n 0

/-- The effective history length L (R173). -/
def histLen (v : Nat) : Nat := max 1 (min 16 v)

/-- The entry takes the just-in-time path in the first phase that writes it (R177). -/
def Dev.warmEntry (d : Dev) (i : Nat) : Bool :=
  let a := d.sstAt i
  isNarrow (d.entryFormat i) && decide (d.nat (a + 3) 1 = 1) && decide (d.nat (a + 9) 1 = 0) && bitOf (d.nat (a + 0xB) 1) 0

/-- Writes the history fields and SIGMA of an entry. -/
def Dev.putHist (d : Dev) (a cnt head : Nat) (sigma : Int) : Dev :=
  (d.write (a + 9) (leBytes 1 cnt ++ leBytes 1 head)).write (a + 4) (leBytes 2 (twos 16 sigma))

/-- The boundary update of one entry (R176). -/
def Dev.scaleUpdate (d : Dev) (n : Nat) (voteSkip : Bool) (i : Nat) : Dev :=
  let a := d.sstAt i
  d.rmw a 64 (fun d =>
    let f := d.entryFormat i
    if !isNarrow f then d.write (a + 4) (leBytes 2 0)
    else if d.nat (a + 3) 1 ≠ 1 then d
    else
      let L := histLen (d.nat (a + 8) 1)
      let cnt := min (d.nat (a + 9) 1) L
      let head := d.nat (a + 10) 1 % L
      let sg := d.entrySigma i
      if voteSkip then
        d.putHist a cnt head (if bitOf (d.nat (a + 0xB) 1) 2 then min (sg + 1) 1100 else sg)
      else
        let am := d.nat (d.statAt i n) 2
        let d := if am = 0x8000 then d else d.write (a + 0x10 + 2 * head) (leBytes 2 am)
        let head' := if am = 0x8000 then head else (head + 1) % L
        let cnt' := if am = 0x8000 then cnt else min (cnt + 1) L
        if cnt' = 0 then d.putHist a cnt' head' (sext 16 (d.nat (a + 6) 2))
        else
          let hs := (List.range cnt').map (fun j => sext 16 (d.nat (a + 0x10 + 2 * ((head' + L - (j + 1)) % L)) 2))
          let h := hs.foldl max (-32768)
          d.putHist a cnt' head' (clampSigma (h - fmtEmax f)))

/-- The next rung of the promotion ladder (R194). -/
def nextRung : Nat → Option Nat
  | 4 => some 3 | 6 => some 5 | 2 => some 0 | 3 => some 0 | 0 => some 9 | 1 => some 9 | 5 => some 9
  | 9 => some 11 | 10 => some 11
  | _ => none

/-- FORMAT_MAX is a format or one that the ladder reaches from it. -/
def rungReaches (mx : Nat) : Nat → Nat → Bool
  | 0, g => decide (g = mx)
  | fuel + 1, g => decide (g = mx) || (nextRung g).elim false (rungReaches mx fuel)

/-- The format that one promotion of an entry gives, or none when it is blocked (R194). An entry whose
FORMAT is not a narrow block code is never promoted (R170). -/
def Dev.promoteTo (d : Dev) (i : Nat) : Option Nat :=
  let f := d.entryFormat i
  let mx := d.nat (d.sstAt i + 1) 1
  if !isNarrow f then none
  else match nextRung f with
    | none => none
    | some g => if rungReaches mx 6 g then some g else none

/-- The entry is considered for promotion (R194), the hold and the feature apart. -/
def Dev.promotable (d : Dev) (i : Nat) : Bool :=
  decide (d.nat (d.sstAt i + 2) 1 = 0) && bitOf (d.nat (d.sstAt i + 0xB) 1) 1 && (d.promoteTo i).isSome

/-- The statistics of step n ask for a promotion (R195). -/
def Dev.statPromotes (d : Dev) (i n : Nat) : Bool :=
  let a := d.statAt i n
  let el := d.nat (a + 24) 8
  let sat := d.nat (a + 16) 8
  decide (el ≠ 0) && (decide (d.nat (d.sstAt i + 0xC) 2 * el < d.nat (a + 8) 8 * 65536)
    || (decide (0 < sat) && decide (d.nat (d.sstAt i + 0xE) 2 * el < sat * 65536)))

end Sys2Proof.Machine
end

