-- ==== Sys2Proof/Machine/Seq.lean ====
section
/-! DEFINITION. A cell's sequencer: issuing, traps, the scoreboard, numeric exceptions, and the scalar,
control and scalar-memory instructions (R89, R91, R95 to R98, R234, R235). -/

namespace Sys2Proof.Machine

/-- The first address above the cell store (R89). -/
abbrev storeTop : Nat := 0x180000

/-- The cell's sequencer issues: a RUNNING cell whose sequencer runs (R44, R116). -/
def Dev.canIssue (d : Dev) (cell : Nat) : Bool :=
  decide (cell < 1152) && decide (d.blk CEL cell = stRunning) && decide (d.getF R.CEL_SEQ_STATUS_RUN cell = 1)

/-- The instruction index moves on by n words (R95). -/
def Dev.advance (d : Dev) (cell n : Nat) : Dev :=
  d.setF R.CEL_SEQ_STATUS_PC cell (d.getF R.CEL_SEQ_STATUS_PC cell + n)

/-- A plot runs and a program cause kills its rerun: same tile, same cause, same index, another cell
(R98). -/
def TrapNote.sameAs (a b : TrapNote) : Bool :=
  decide (a.phase = b.phase) && decide (a.tile = b.tile) && decide (a.cause = b.cause) && decide (a.pc = b.pc)

/-- The trap causes that R97 calls Program. -/
def programCause (c : Nat) : Bool := [1, 3, 4, 5, 6, 7].contains c

/-- The Trellis's side of a trap: the tile reruns, or, when its rerun trapped alike, the plot stops, the
first cell returns to READY and PROGRAM_TRAP is set (R98). -/
def Dev.trapNote (d : Dev) (k cell : Nat) (n : TrapNote) : Dev :=
  let r := d.plot k
  match r.traps.find? (fun m => m.sameAs n && decide (m.cell ≠ cell)) with
  | some m =>
    if programCause n.cause then
      let d := d.setPlot k { r with stopped := true, traps := r.traps.filter (fun x => !x.sameAs n) }
      let d := if d.blk CEL m.cell = stCloched then d.setBlk CEL m.cell stReady else d
      d.setErr CEL cell 23
    else d
  | none => d.setPlot k { r with traps := r.traps ++ [n] }

/-- A trap (R97, R98): the cause and address are recorded, the cell is cloched at once with RUN = 3, and
its tiles return. -/
def Dev.trap (d : Dev) (cell cause addr : Nat) : Dev :=
  let c := d.cell cell
  let pc := d.getF R.CEL_SEQ_STATUS_PC cell
  let k := c.plot
  let note : TrapNote := { phase := c.phase, tile := c.tiles.head?.map (·.index), cause := cause, pc := pc, cell := cell }
  let d := ((d.trapFlags cell cause addr).clocheFault cell).setF R.CEL_SEQ_STATUS_RUN cell 3
  match k with
  | some k => d.trapNote k cell note
  | none => d

/-- Cause ILLEGAL. -/
def Dev.illegal (d : Dev) (cell : Nat) : Dev := d.trap cell 1 0

/-- Runs one instruction: when the cell issues, its effect, then the index moves on unless it trapped. -/
def Dev.instr (d : Dev) (cell : Nat) (f : Dev → Dev) : Dev :=
  if d.canIssue cell then
    let d' := f d
    if d'.getF R.CEL_SEQ_STATUS_RUN cell = 3 then d' else d'.advance cell 1
  else d

/-- An s-register; s0 reads zero (R95). -/
def Cell.s (c : Cell) (r : Nat) : Word := if r = 0 then 0 else mget 0 c.sregs r

/-- Writes an s-register; a write of s0 is lost (R95). -/
def Cell.setS (c : Cell) (r : Nat) (v : Word) : Cell :=
  if r = 0 then c else { c with sregs := mput r v c.sregs }

/-- Register numbers of an instruction lie in 0 to 31; another number is ILLEGAL (R95, R97). -/
def regsOk (rs : List Nat) : Bool := rs.all (fun r => decide (r < 32))

/-- A cell's store as a reader (R89). -/
def Cell.rd (c : Cell) : Nat → Byte := fun a => byteAt c.store a

/-- Writes bytes into a cell's store. -/
def Dev.storeBytes (d : Dev) (cell a : Nat) (bs : List Byte) : Dev :=
  let c := d.cell cell
  d.setCell cell { c with store := setBytes c.store a bs }

/-- Adds n to an event counter of a cell (R96): 0 pass, 1 DRAIN, 2 vector, 8 + c DMA channel c. -/
def Dev.event (d : Dev) (cell k n : Nat) : Dev :=
  let c := d.cell cell
  d.setCell cell { c with events := mput k (mget 0 c.events k + n) c.events }

/-! ### The scoreboard (R91) -/

/-- Bytes that a shape moves. -/
def shapeLen : DmaShape → Nat
  | .plain n => n
  | .strided u dims => u * (dims.map (·.1)).prod
  | .gathered u is => u * is.length

/-- The memory address of an offset from a base, as 64 bits. -/
def offAddr (base : Nat) (off : Int) : Nat := twos 64 ((base : Int) + off)

/-- Offsets of a strided access, the innermost pair first in the list and fastest (R306). -/
def strideOffsets : List (Nat × Int) → List Int
  | [] => [0]
  | p :: rest => (strideOffsets rest).flatMap (fun o => (List.range p.1).map (fun i => o + (i : Int) * p.2))

/-- The row slots of a compressed access, as (address, index of the row in the cell store) (R306, R307): contiguous
slots, slots at strides, or slots at indices in units of the slot size. -/
def slotRows (addr slot : Nat) : SlotShape → List (Nat × Nat)
  | .run n => (List.range n).map (fun i => (addr + i * slot, i))
  | .strided dims => ((strideOffsets dims).zipIdx).map (fun p => (offAddr addr p.1, p.2))
  | .gathered is => (is.zipIdx).map (fun p => (addr + p.1 * slot, p.2))

/-- The number of row slots of a compressed access. -/
def slotCount : SlotShape → Nat
  | .run n => n
  | .strided dims => (dims.map (·.1)).prod
  | .gathered is => is.length

/-- The cell-store ranges that a DMA reads, as (start, length). -/
def dmaReads : DmaOp → List (Nat × Nat)
  | .fromStore st _ sh => [(st, shapeLen sh)]
  | .compressOut st _ len _ _ _ _ => [(st, len)]
  | .staked st _ w n => [(st, n * (w / 8))]
  | .gatherWindow desc _ => [(desc, 128)]
  | _ => []

/-- The cell-store ranges that a DMA writes. A gather's destination lies at the addresses its descriptor
names. -/
def dmaWrites (rd : Nat → Byte) : DmaOp → List (Nat × Nat)
  | .toStore _ st sh => [(st, shapeLen sh)]
  | .expandIn _ st f l _ rows => [(st, slotCount rows * ((l * fmtBits f + 7) / 8))]
  | .gatherWindow desc _ =>
    let f := rdNat rd (desc + 0x20) 1
    let blk := if bitOf (rdNat rd (desc + 0x21) 1) 0 then 32 else 16
    let cb := (rdNat rd (desc + 0x28) 4 + blk - 1) / blk * blk
    let row := rdNat rd (desc + 0x40) 4 * cb
    let n := rdNat rd (desc + 0x38) 4
    [(rdNat rd (desc + 0x18) 4, n * ((row * fmtBits f + 7) / 8)), (rdNat rd (desc + 0x1C) 4, n * (row / blk * 2))]
  | _ => []

/-- Some range of one list overlaps some range of the other. -/
def clash (xs ys : List (Nat × Nat)) : Bool :=
  xs.any (fun x => ys.any (fun y => decide (0 < x.2) && decide (0 < y.2) && overlaps x.1 x.2 y.1 y.2))

/-- An access with these reads and writes conflicts with an operation in flight: a pass, which writes no cell store, or a
DMA (R91). The other operations of R91 end with their command (log entry 18). -/
def Cell.conflicts (c : Cell) (reads writes : List (Nat × Nat)) : Bool :=
  c.passes.any (fun p => clash writes p.reads) || c.dma.any (fun s =>
    clash writes (dmaReads s.2.op) || clash writes (dmaWrites c.rd s.2.op) || clash reads (dmaWrites c.rd s.2.op))

/-- The 16 entries of the scoreboard are in use, one for each operation in flight (R91; log entry 41). -/
def Cell.boardFull (c : Cell) : Bool := decide (16 ≤ c.passes.length + c.dma.length)

/-- Runs an instruction with its cell-store ranges: it does not issue while they conflict (R91); a range
beyond the store traps with STORE_RANGE (R97). -/
def Dev.access (d : Dev) (cell : Nat) (reads writes : List (Nat × Nat)) (f : Dev → Dev) : Dev :=
  if !d.canIssue cell || (d.cell cell).conflicts reads writes then d
  else
    match (reads ++ writes).find? (fun r => decide (0 < r.2) && decide (storeTop < r.1 + r.2)) with
    | some r => d.trap cell 3 r.1
    | none => d.instr cell f

/-- As `access`, for an operation that the scoreboard covers: it does not issue while the scoreboard is full (R91). -/
def Dev.launch (d : Dev) (cell : Nat) (reads writes : List (Nat × Nat)) (f : Dev → Dev) : Dev :=
  if (d.cell cell).boardFull then d else d.access cell reads writes f

/-! ### Numeric exceptions (R234, R235) -/

/-- (block, column, entry) order of R235. -/
def hitBefore (a b : Nat × Nat × Nat) : Bool :=
  decide (a.1 < b.1) || (decide (a.1 = b.1) && (decide (a.2.1 < b.2.1) || (decide (a.2.1 = b.2.1) && decide (a.2.2 < b.2.2))))

/-- The first of a nonempty list of hits. -/
def firstHit (x : Nat × Nat × Nat) (xs : List (Nat × Nat × Nat)) : Nat × Nat × Nat :=
  xs.foldl (fun a b => if hitBefore b a then b else a) x

/-- The tile that a cell's work belongs to, the earliest taken. Log entry 18. -/
def Cell.cur (c : Cell) : Option Tile := c.tiles.head?

/-- The tile that exceptions are counted for; one of no plot when the cell holds none (R235). -/
def Cell.countTile (c : Cell) : Tile := c.cur.getD ⟨0xFF, 0xFFFFFFFF, 0⟩

/-- A summary of a kind of a tile. -/
def Summary.isOf (s : Summary) (kind : Nat) (t : Tile) : Bool := decide (s.kind = kind) && decide (s.tile = t)

/-- The outputs of the cell's tile that a kind has affected so far, as its summary counts them (R235). -/
def Cell.affected (c : Cell) (kind : Nat) : Nat := ((c.sums.find? (·.isOf kind c.countTile)).map (·.count)).getD 0

/-- Fills the record slot of a kind with the tile's count so far, or adds to the count of the record of the same tile
(R234, R253). -/
def Dev.recordX (d : Dev) (cell kind : Nat) (h : Nat × Nat × Nat) (n : Nat) : Dev :=
  let c := d.cell cell
  let t := c.cur
  let x : XRec := { step := d.step, plot := t.elim 0xFF (·.plot), phase := t.elim 0xFFFFFFFF (·.phase),
                    tile := t.elim 0 (·.index), column := h.2.1, slot := h.2.2, block := h.1, count := c.affected kind + n }
  let x' := match mfind (kind - 1) c.xrec with
    | none => x
    | some r =>
      if r.step = x.step ∧ r.plot = x.plot ∧ r.phase = x.phase ∧ r.tile = x.tile then { r with count := r.count + n } else r
  d.setCell cell { c with xrec := mput (kind - 1) x' c.xrec }

/-- Merges hits into the one summary of the tile and kind; a summary beyond 64 is dropped and counted once (R235). -/
def Dev.summarise (d : Dev) (cell kind : Nat) (vector t3 : Bool) (h : Nat × Nat × Nat) (n : Nat) : Dev :=
  let c := d.cell cell
  let t := c.countTile
  if c.sums.any (·.isOf kind t) then
    d.setCell cell { c with sums := c.sums.map (fun s =>
      if s.isOf kind t then
        let b := if hitBefore h (s.block, s.column, s.slot) then h else (s.block, s.column, s.slot)
        { s with block := b.1, column := b.2.1, slot := b.2.2, count := s.count + n }
      else s) }
  else if c.lostSums.contains (kind, t) then d
  else if 64 ≤ c.sums.length + c.phaseSums.length then
    (d.setCell cell { c with lostSums := c.lostSums ++ [(kind, t)] }).satAdd R.NUM_RING_DROPPED_DROPPED 0 1
  else
    let o := c.descO
    d.setCell cell { c with sums := c.sums ++ [{ kind := kind, tile := t, block := h.1, column := h.2.1, slot := h.2.2, count := n, entry := o.bind (·.entry), format := o.elim 0xFF (·.format), vector := vector, t3 := t3 }] }

/-- Raises exceptions of a kind at (block, column, entry) places (R231 to R236): NUM_EXCEPTION, the record
slot, and the tile's summary unless `quiet` (a RECOMP DRAIN, R257). In the array each affected output counts once. -/
def Dev.exceptions (d : Dev) (cell kind : Nat) (hits : List (Nat × Nat × Nat)) (vector t3 quiet : Bool) : Dev :=
  match hits with
  | [] => d
  | h :: hs =>
    let c := d.cell cell
    let keys := (h :: hs).map (fun x => (kind, x.2.1, x.2.2))
    let fresh := if vector then keys else (keys.eraseDups).filter (fun k => !c.hits.contains k)
    let d := d.setErr CEL cell 19
    let d := if vector then d else d.setCell cell { d.cell cell with hits := c.hits ++ fresh }
    let f := firstHit h hs
    let d := d.recordX cell kind f fresh.length
    if quiet then d else d.summarise cell kind vector t3 f fresh.length

/-! ### Scalar instructions (R95, R96) -/

/-- A three-register operation. -/
def Dev.alu (d : Dev) (cell rd rs rt : Nat) (f : Word → Word → Word) : Dev :=
  d.instr cell (fun d =>
    if regsOk [rd, rs, rt] then
      let c := d.cell cell
      d.setCell cell (c.setS rd (f (c.s rs) (c.s rt)))
    else d.illegal cell)

/-- ADD (R96). -/
def execAdd (cell rd rs rt : Nat) (s : State) : Res := s.onDev (fun d => d.alu cell rd rs rt (· + ·))
/-- SUB (R96). -/
def execSub (cell rd rs rt : Nat) (s : State) : Res := s.onDev (fun d => d.alu cell rd rs rt (· - ·))
/-- MUL (R96): the low 64 bits of the product. -/
def execMul (cell rd rs rt : Nat) (s : State) : Res := s.onDev (fun d => d.alu cell rd rs rt (· * ·))
/-- AND (R96). -/
def execAnd (cell rd rs rt : Nat) (s : State) : Res := s.onDev (fun d => d.alu cell rd rs rt (· &&& ·))
/-- OR (R96). -/
def execOr (cell rd rs rt : Nat) (s : State) : Res := s.onDev (fun d => d.alu cell rd rs rt (· ||| ·))
/-- XOR (R96). -/
def execXor (cell rd rs rt : Nat) (s : State) : Res := s.onDev (fun d => d.alu cell rd rs rt (· ^^^ ·))

/-- A left shift; by 64 or more the manual states no result (log entry 10). -/
def shl (x n : Word) : Word := if n.toNat < 64 then x <<< n.toNat else Config.shiftLeftOver x n

/-- A right shift; by 64 or more, or of a value whose top bit is 1, the manual states no result (log entry
10). -/
def shr (x n : Word) : Word :=
  if n.toNat < 64 ∧ x.msb = false then x >>> n.toNat else Config.shiftRightOpen x n

/-- SHL (R96). -/
def execShl (cell rd rs rt : Nat) (s : State) : Res := s.onDev (fun d => d.alu cell rd rs rt shl)
/-- SHR (R96). -/
def execShr (cell rd rs rt : Nat) (s : State) : Res := s.onDev (fun d => d.alu cell rd rs rt shr)
/-- CMP (R96): the condition codes are outside the manual (log entry 10). -/
def execCmp (cell : Nat) (cond : CondCode) (rd rs rt : Nat) (s : State) : Res :=
  s.onDev (fun d => d.alu cell rd rs rt (Config.cmpValue cond))

/-- LI (R95, R96): a 32-bit immediate takes a second instruction word. -/
def execLi (cell rd : Nat) (imm : Word) (long : Bool) (s : State) : Res :=
  s.onDev (fun d => d.instr cell (fun d =>
    if regsOk [rd] then
      let d := d.setCell cell ((d.cell cell).setS rd imm)
      if long then d.advance cell 1 else d
    else d.illegal cell))

/-- The sequencer goes to an index; an index beyond the instruction store is ILLEGAL (R95, R97). -/
def Dev.jump (d : Dev) (cell target : Nat) : Dev :=
  if target < 16384 then d.setF R.CEL_SEQ_STATUS_PC cell target else d.illegal cell

/-- BR (R96). -/
def execBr (cell target : Nat) (s : State) : Res :=
  s.onDev (fun d => if d.canIssue cell then d.jump cell target else d)

/-- BCC (R96): the conditions are outside the manual (log entry 10). -/
def execBcc (cell : Nat) (cond : CondCode) (rs target : Nat) (s : State) : Res :=
  s.onDev (fun d =>
    if d.canIssue cell then
      if !regsOk [rs] then d.illegal cell
      else if Config.bccTaken cond ((d.cell cell).s rs) then d.jump cell target
      else d.advance cell 1
    else d)

/-- CALL (R96): call depth up to 16; a deeper call is ILLEGAL (R97). -/
def execCall (cell target : Nat) (s : State) : Res :=
  s.onDev (fun d =>
    if d.canIssue cell then
      let c := d.cell cell
      if 16 ≤ c.stack.length ∨ 16384 ≤ target then d.illegal cell
      else (d.setCell cell { c with stack := (d.getF R.CEL_SEQ_STATUS_PC cell + 1) % 16384 :: c.stack }).jump cell target
    else d)

/-- RET (R96): without a call it is ILLEGAL. -/
def execRet (cell : Nat) (s : State) : Res :=
  s.onDev (fun d =>
    if d.canIssue cell then
      let c := d.cell cell
      match c.stack with
      | [] => d.illegal cell
      | a :: rest => (d.setCell cell { c with stack := rest }).jump cell a
    else d)

/-- The cell-store address of LD and ST. -/
def Dev.effAddr (d : Dev) (cell rs : Nat) (offset : Int) : Nat :=
  twos 64 (((d.cell cell).s rs).toNat + offset)

/-- The access sizes of LD and ST (R96). -/
def sizeOk (n : Nat) : Bool := decide (n = 1) || decide (n = 2) || decide (n = 4) || decide (n = 8)

/-- LD and ST check their registers, size, range and alignment, in this order (R96, R97; log entry 18). -/
def Dev.scalarMem (d : Dev) (cell : Nat) (regs : List Nat) (a n : Nat) (st : Bool) (f : Dev → Dev) : Dev :=
  if !d.canIssue cell then d
  else if !regsOk regs || !sizeOk n then d.illegal cell
  else if storeTop < a + n then d.trap cell 3 a
  else if a % n ≠ 0 then d.trap cell 4 a
  else d.access cell (if st then [] else [(a, n)]) (if st then [(a, n)] else []) f

/-- The value that LD delivers: bits above the width follow log entry 10 when the top bit is 1. -/
def loadValue (n v : Nat) : Word :=
  if n = 8 ∨ v < 2 ^ (8 * n - 1) then BitVec.ofNat 64 v
  else BitVec.ofNat 64 v ||| (Config.loadExtend n v <<< (8 * n))

/-- LD (R96). -/
def execLd (cell rd rs : Nat) (offset : Int) (bytes : Nat) (s : State) : Res :=
  s.onDev (fun d =>
    let a := d.effAddr cell rs offset
    d.scalarMem cell [rd, rs] a bytes false (fun d =>
      let c := d.cell cell
      d.setCell cell (c.setS rd (loadValue bytes (rdNat c.rd a bytes)))))

/-- ST (R96). -/
def execSt (cell rv rs : Nat) (offset : Int) (bytes : Nat) (s : State) : Res :=
  s.onDev (fun d =>
    let a := d.effAddr cell rs offset
    d.scalarMem cell [rv, rs] a bytes true (fun d =>
      d.storeBytes cell a (leBytes bytes ((d.cell cell).s rv).toNat)))

end Sys2Proof.Machine
end

