-- ==== Sys2Proof/Machine/Flows.lean ====
section
/-! DEFINITION. Flows: sending, sequencing, acknowledging and completing packets; remote puts, gets, atomics
and staked adds; the FLW page's commands (R291 to R293, R326, R329, R333 to R340, R355, R359, R360). -/

namespace Sys2Proof.Machine

/-! ### Flow contexts -/

/-- A flow that no context has set. -/
def Flow.none : Flow :=
  { tc := 0, kind := 0, queueId := 0, peer := 0, remote := 0, winBase := 0, winLimit := 0, rights := 0,
    credMax := 0, txSeq := 0, txAcked := 0, rxSeq := 0, credits := 0, state := 0, retries := 0, port := .none,
    unacked := [], waiting := [], ops := [], owed := false }

/-- A flow's context; STATE 0 is CLOSED. -/
def Dev.flow (d : Dev) (f : Nat) : Flow := mget Flow.none d.fab.flows f

/-- Stores a flow. -/
def Dev.setFlow (d : Dev) (f : Nat) (v : Flow) : Dev :=
  { d with fab := { d.fab with flows := mput f v d.fab.flows } }

/-- The flow that a (PEER, TC, QUEUE) key names, among the contexts that are not closed (R334). -/
def Dev.flowOf (d : Dev) (peer tc queue : Nat) : Option Nat :=
  (d.fab.flows.find? (fun e =>
    decide (e.2.state ≠ 0) && decide (e.2.peer = peer) && decide (e.2.tc = tc) && decide (e.2.queueId = queue))).map (·.1)

/-- The flow of a KIND to a peer: 1 MIRROR, 2 COLLECTIVE, 3 MANAGEMENT (R333). -/
def Dev.flowKind (d : Dev) (peer kind : Nat) : Option Nat :=
  (d.fab.flows.find? (fun e => decide (e.2.state ≠ 0) && decide (e.2.peer = peer) && decide (e.2.kind = kind))).map (·.1)

/-- A packet of an opcode with every other field zero (R325). -/
def packetOf (opc : Nat) : Packet :=
  { opc := opc, flags := 0, tc := 0, hops := 3, status := 0, dst := 0, src := 0, dstFlow := 0, seq := 0, ack := 0,
    srcFlow := 0, addr := 0, len := 0, attr := 0, tag := 0, op1 := 0, op2 := 0, payload := [] }

/-- Signed 32-bit difference of sequence numbers (R335). -/
def seqDiff (a b : Nat) : Int := sext 32 (a + 2 ^ 32 - b % 2 ^ 32)

/-! ### Sending -/

/-- Fills the header of a packet that goes out on a flow (R325, R331, R335). -/
def Dev.stamp (d : Dev) (f : Nat) (p : Packet) : Packet :=
  let w := d.flow f
  { p with tc := w.tc, hops := 3, dst := w.peer, src := d.devNum, dstFlow := w.remote, srcFlow := f, ack := w.rxSeq }

/-- Sends a packet of a flow now: the port used is noted, and the ACK that it carries is no longer owed. -/
def Dev.sendNow (d : Dev) (f : Nat) (p : Packet) : Dev :=
  let p := d.stamp f p
  let w := d.flow f
  let d := d.setFlow f { w with owed := false, port := if p.dst = d.devNum then w.port else d.pickPort p }
  (d.bump FLW 0 0 1).routeOut p

/-- ACK, NACK, RESYNC and RESYNC_ACK take no sequence number of their own (R326, R335). -/
def Dev.control (d : Dev) (f opc : Nat) : Dev := d.sendNow f { packetOf opc with seq := (d.flow f).txSeq }

/-- The response pool of a cell's I/O die (R338): cells 0 to 575 use IOD-N. -/
def poolField (cell : Nat) : Field := if cell < 576 then R.FLW_POOL_FREE_N else R.FLW_POOL_FREE_S

/-- The blocks that a waiting packet needs: a GET reserves its response (R338). -/
def blocksFor (p : Packet) : Nat := if p.opc = 2 then (p.len + 255) / 256 else 0

/-- The local operation that a packet belongs to. -/
def Flow.opOf (w : Flow) (p : Packet) : Option FlowOp :=
  w.ops.find? (fun o => decide (o.tag = p.tag) && decide (o.opc = p.opc))

/-- Sends one sequenced packet when the flow is OPEN or STALLED, has a credit and, for a GET, free pool
blocks (R335, R338). -/
def Dev.trySend (d : Dev) (f : Nat) (p : Packet) : Option Dev :=
  let w := d.flow f
  let pool := poolField ((w.opOf p).elim 0 (·.cell))
  let n := blocksFor p
  if (w.state = 1 ∨ w.state = 2) ∧ 0 < w.credits ∧ n ≤ d.getF pool 0 then
    let p := { p with seq := w.txSeq }
    let p' := d.stamp f p
    let ops := w.ops.map (fun (o : FlowOp) =>
      if o.tag = p.tag ∧ o.opc = p.opc then { o with seq := w.txSeq, blocks := n } else o)
    let w := { w with txSeq := (w.txSeq + 1) % 2 ^ 32, credits := w.credits - 1, unacked := w.unacked ++ [p'], ops := ops }
    let d := if n = 0 then d else d.setF pool 0 (d.getF pool 0 - n)
    some ((d.setFlow f w).sendNow f p)
  else none

/-- Sends a packet on a flow in order, or puts it behind those that wait. -/
def Dev.sendOn (d : Dev) (f : Nat) (p : Packet) : Dev :=
  let w := d.flow f
  if w.waiting.isEmpty then
    match d.trySend f p with
    | some d' => d'
    | none => d.setFlow f { w with waiting := [p] }
  else d.setFlow f { w with waiting := w.waiting ++ [p] }

/-- Sends what waits on a flow, as far as credits and pool blocks reach. -/
def Dev.pump (d : Dev) (f : Nat) : Dev :=
  let ps := (d.flow f).waiting
  let step (a : Dev × List Packet) (p : Packet) : Dev × List Packet :=
    if a.2.isEmpty then
      match a.1.trySend f p with
      | some d' => (d', [])
      | none => (a.1, [p])
    else (a.1, a.2 ++ [p])
  let r := ps.foldl step (d, [])
  r.1.setFlow f { r.1.flow f with waiting := r.2 }

/-- Pumps every flow that waits, in index order. -/
def Dev.pumpAll (d : Dev) : Dev :=
  ((d.fab.flows.filter (fun e => !e.2.waiting.isEmpty)).map (·.1)).foldl (fun d f => d.pump f) d

/-- Sends a message on the flow of a KIND to a peer; with no such flow nothing is sent. -/
def Dev.sendKind (d : Dev) (peer kind : Nat) (p : Packet) : Dev :=
  match d.flowKind peer kind with
  | some f => d.sendOn f p
  | none => d

/-- Sends a MGMT message of a subtype (R387, R513): BASE, DELTA, RECORD, RESTORE_DATA and LOG_DATA on the
MIRROR flow, the others on the MANAGEMENT flow. -/
def Dev.sendMgmt (d : Dev) (peer sub : Nat) (p : Packet) : Dev :=
  d.sendKind peer (if [3, 4, 5, 9, 12].contains sub then 1 else 3) { p with opc := 0x30, attr := sub, len := p.payload.length }

/-! ### Local operations (R336, R338) -/

/-- An uncorrectable DMA read halts its channel (R93, R116). -/
def Dev.haltChannel (d : Dev) (cell ch addr : Nat) : Dev :=
  let c := d.cell cell
  match mfind ch c.dma with
  | some sl =>
    let d := d.setCell cell { c with dma := mput ch { sl with halted := true } c.dma }
    let d := ((d.setF R.CEL_DMA_FAULT_LO_ADDR_LO cell addr).setF R.CEL_DMA_FAULT_HI_ADDR_HI cell (addr / 2 ^ 32)).setF
      R.CEL_DMA_FAULT_HI_CHANNEL cell ch
    let d := d.setF R.CEL_DMA_FAULT_HI_VALID cell 1
    d.setErrFull CEL cell 21 0 6 addr
  | none => d

/-- One remote part of a DMA operation has ended. -/
def Dev.remoteDone (d : Dev) (cell ch : Nat) : Dev :=
  let c := d.cell cell
  match mfind ch c.dma with
  | some sl => d.setCell cell { c with dma := mput ch { sl with remote := sl.remote.map (· - 1) } c.dma }
  | none => d

/-- The issuer's side of a completion (R92, R93, R336): WINDOW traps the cell; a poisoned GET halts the channel, and as
nothing rewrites the word here, the step is re-executed or replayed in place (R548); anything else ends this part of the
operation. -/
def Dev.issuerDone (d : Dev) (o : FlowOp) (addr code : Nat) : Dev :=
  if 1152 ≤ o.cell then d
  else
    let d := d.remoteDone o.cell o.chan
    if code = 1 then d.trap o.cell 6 0
    else if code = 2 ∧ o.opc = 2 then
      let d := d.haltChannel o.cell o.chan addr
      if d.jobActive && !d.configuring then { d with ctl := { d.ctl with replayAsked := 7 } } else d
    else d

/-- Ends local operation `o` of a flow with a code: its pool blocks go free (R336, R338). -/
def Dev.endOp (d : Dev) (f : Nat) (o : FlowOp) (addr code : Nat) : Dev :=
  let w := d.flow f
  let d := d.setFlow f { w with ops := w.ops.filter (fun x => decide (x.tag ≠ o.tag)),
                                waiting := w.waiting.filter (fun p => decide (p.tag ≠ o.tag ∨ p.opc ≠ o.opc)) }
  let pool := poolField o.cell
  let d := if o.blocks = 0 then d else d.setF pool 0 (d.getF pool 0 + o.blocks)
  let d := { d with fab := { d.fab with opCodes := d.fab.opCodes ++ [(o.tag, code)] } }
  d.issuerDone o addr code

/-- Ends every outstanding operation of a flow with a code (R334, R337). -/
def Dev.endOps (d : Dev) (f code : Nat) : Dev := (d.flow f).ops.foldl (fun d o => d.endOp f o 0 code) d

/-- Issues a remote operation of a cell's DMA channel on a flow: the operation is outstanding until it
completes (R92, R336, R338). -/
def Dev.issueOp (d : Dev) (f cell ch store : Nat) (p : Packet) : Dev :=
  let tag := d.fab.nextTag % 2 ^ 32
  let w := d.flow f
  let o : FlowOp := { tag := tag, opc := p.opc, cell := cell, chan := ch, store := store, len := p.len, blocks := 0,
                      seq := 2 ^ 32 }
  let d := { d with fab := { d.fab with nextTag := tag + 1 } }
  (d.setFlow f { w with ops := w.ops ++ [o] }).sendOn f { p with tag := tag }

/-! ### Receiving (R335) -/

/-- The ACK field: every packet below it has been performed; credits return, puts and staked adds complete
OK, a STALLED flow is OPEN again (R335, R336). -/
def Dev.takeAck (d : Dev) (f a : Nat) : Dev :=
  let w := d.flow f
  let n := seqDiff a w.txAcked
  if n ≤ 0 ∨ seqDiff w.txSeq a < 0 then d
  else
    let done := w.ops.filter (fun o =>
      (decide (o.opc = 1) || decide (o.opc = 6)) && decide (o.seq < 2 ^ 32) && decide (0 < seqDiff a o.seq))
    let d := d.setFlow f { w with txAcked := a % 2 ^ 32, credits := w.credits + n.toNat, retries := 0,
                                  state := if w.state = 2 then 1 else w.state,
                                  unacked := w.unacked.filter (fun p => decide (seqDiff a p.seq ≤ 0)) }
    (done.foldl (fun d o => d.endOp f o 0 0) d).pumpAll

/-- Retransmits everything from TX_ACKED (R335). -/
def Dev.resend (d : Dev) (f : Nat) : Dev :=
  let w := d.flow f
  let d := d.setFlow f { w with retries := min 255 (w.retries + 1) }
  w.unacked.foldl (fun d p => (d.bump FLW 0 2 1).sendNow f p) d

/-- A packet with the right opcode has come to this device on an open flow of its sender: the flow
takes it. A packet of any other kind is discarded (R333). -/
def Dev.onFlow (d : Dev) (p : Packet) (f : Dev → Dev) : Dev :=
  let d := { d with fab := { d.fab with arrived := d.fab.arrived.erase p } }
  let w := d.flow p.dstFlow
  if decide (w.state = 0) || decide (w.peer ≠ p.src) || decide (p.dst ≠ d.devNum) then d
  else
    let d := d.bump FLW 0 1 1
    let d := if d.getF R.SOW_PARTNER_VALID 0 = 1 ∧ d.getF R.SOW_PARTNER_DEVICE 0 = p.src then
        d.setF R.SOW_HEARTBEAT_SILENT_MS 0 0 else d
    f d

/-- A sequenced packet (R335): performed when its SEQ is the one expected, acknowledged again when it is a
duplicate, answered with NACK when it is ahead. Its ACK field counts in every case. -/
def Dev.arrive (d : Dev) (p : Packet) (perform : Dev → Dev) : Dev :=
  d.onFlow p (fun d =>
    let f := p.dstFlow
    let w := d.flow f
    let n := seqDiff p.seq w.rxSeq
    let d :=
      if w.state = 3 then d
      else if n = 0 then perform (d.setFlow f { w with rxSeq := (w.rxSeq + 1) % 2 ^ 32, owed := true })
      else if n < 0 then (d.bump FLW 0 3 1).control f 0x10
      else (d.bump FLW 0 4 1).control f 0x11
    d.takeAck f p.ack)

/-- Answers a request with OP_STATUS (R326, R336). -/
def Dev.opStatus (d : Dev) (p : Packet) (code : Nat) : Dev :=
  d.sendOn p.dstFlow { packetOf 8 with status := code, tag := p.tag }

/-- An inbound operation refused under R292. -/
def Dev.windowRefused (d : Dev) (p : Packet) : Dev := ((d.bump FLW 0 5 1).setErr FLW 0 18).opStatus p 1

/-- The window test of an inbound operation (R292); `right` is the bit of RIGHTS. -/
def Flow.allows (w : Flow) (a n right : Nat) : Bool :=
  decide (w.winBase ≤ a) && decide (a + n ≤ w.winLimit + 1) && decide (a + n ≤ memTop) && bitOf w.rights right

/-- Checks of an inbound operation: its own form, then the window; then it is performed (R292, R336). -/
def Dev.inbound (d : Dev) (p : Packet) (n right : Nat) (formed : Bool) (f : Dev → Dev) : Dev :=
  if !formed then d.opStatus p 5
  else if (d.flow p.dstFlow).allows p.addr n right then f d
  else d.windowRefused p

/-- LEN of a put or a get (R338). -/
def lenOk (p : Packet) : Bool := decide (1 ≤ p.len) && decide (p.len ≤ 4096)

/-- The words that a write of a run of bytes covers in part only: its first and its last. -/
def partWords (a n : Nat) : List (Nat × Nat) :=
  (if a % 8 ≠ 0 then [(a, 1)] else []) ++ (if (a + n) % 8 ≠ 0 then [(a + n - 1, 1)] else [])

/-- PUT (R291, R292, R335, R338): one whose read-modify-write of a partly covered word is dropped for poison is answered
with POISON (R297, R336). -/
def execPut (p : Packet) (s : State) : Res :=
  s.onDev (fun d =>
    if p.opc ≠ 1 then d
    else d.arrive p (fun d =>
      d.inbound p p.len 1 (lenOk p && decide (p.payload.length = p.len)) (fun d =>
        let bad := (partWords p.addr p.len).any (fun w => (d.poisonIn w.1 w.2).isSome)
        let d := d.write p.addr p.payload
        if bad then d.opStatus p 2 else d)))

/-- GET (R291, R292, R338): the answer carries POISON when a word it read was poisoned. -/
def execGet (p : Packet) (s : State) : Res :=
  s.onDev (fun d =>
    if p.opc ≠ 2 then d
    else d.arrive p (fun d =>
      d.inbound p p.len 0 (lenOk p) (fun d =>
        let bad := (d.poisonIn p.addr p.len).isSome
        let data := d.bytes p.addr p.len
        (d.noteRead p.addr p.len).sendOn p.dstFlow
          { packetOf 3 with tag := p.tag, len := p.len, payload := data, flags := b2n bad })))

/-- The operation of a flow that a response answers. -/
def Dev.opByTag (d : Dev) (f tag opc : Nat) : Option FlowOp :=
  (d.flow f).ops.find? (fun o => decide (o.tag = tag) && decide (o.opc = opc))

/-- The new value of an atomic (R327, R339): FADD, SWAP, CAS, FAND, FOR, FXOR, SMAX, SMIN. -/
def atomicValue (kind : Nat) (old a b : Word) : Word :=
  match kind with
  | 0 => old + a
  | 1 => a
  | 2 => if old = a then b else old
  | 3 => old &&& a
  | 4 => old ||| a
  | 5 => old ^^^ a
  | 6 => if old.slt a then a else old
  | _ => if a.slt old then a else old

/-- ATOMIC (R294, R297, R339): a misaligned one completes with BAD_OP; one that meets a poisoned word is
dropped and completes with POISON. -/
def execAtomic (p : Packet) (s : State) : Res :=
  s.onDev (fun d =>
    if p.opc ≠ 4 then d
    else d.arrive p (fun d =>
      d.inbound p 8 2 (decide (p.addr % 8 = 0) && decide (p.attr % 16 < 8)) (fun d =>
        let d := d.meetRange p.addr 8 2
        match d.poisonIn p.addr 8 with
        | some w => (d.rmwDropped w).opStatus p 2
        | none =>
          let old := d.nat p.addr 8
          let new := atomicValue (p.attr % 16) (BitVec.ofNat 64 old) (BitVec.ofNat 64 p.op1) (BitVec.ofNat 64 p.op2)
          (d.write p.addr (leBytes 8 new.toNat)).sendOn p.dstFlow
            { packetOf 5 with tag := p.tag, len := 8, payload := leBytes 8 old })))

/-- ATOMIC_RESP (R336, R339): the operation completes OK. -/
def execAtomicResp (p : Packet) (s : State) : Res :=
  s.onDev (fun d =>
    if p.opc ≠ 5 then d
    else d.arrive p (fun d =>
      match d.opByTag p.dstFlow p.tag 4 with
      | some o => d.endOp p.dstFlow o 0 0
      | none => d))

/-- The width in bits that ATTR of a SADD names (R327); 3 names none. -/
def saddWidth (attr : Nat) : Nat :=
  match attr % 4 with
  | 0 => 32 | 1 => 64 | 2 => 128 | _ => 0

/-- SADD (R308, R340): adds LEN / w integers to consecutive words, at once; a word dropped for poison is
answered with POISON. -/
def execSadd (p : Packet) (s : State) : Res :=
  s.onDev (fun d =>
    if p.opc ≠ 6 then d
    else d.arrive p (fun d =>
      let n := saddWidth p.attr / 8
      let ok := decide (n ≠ 0) && decide (p.len ≠ 0) && decide (p.len % n = 0) && decide (p.addr % n = 0)
        && decide (p.payload.length = p.len)
      d.inbound p p.len 3 ok (fun d =>
        let bad := (d.poisonIn p.addr p.len).isSome
        let qs := chunks n p.len p.payload
        let d := (qs.zipIdx).foldl (fun d q => d.stakedAdd (8 * n) (p.addr + n * q.2) (leNat q.1)) d
        if bad then d.opStatus p 2 else d)))

/-- ACK (R335). -/
def execAck (p : Packet) (s : State) : Res :=
  s.onDev (fun d => if p.opc ≠ 0x10 then d else d.onFlow p (fun d => d.takeAck p.dstFlow p.ack))

/-- NACK (R335): what it acknowledges counts, and the rest goes again. -/
def execNack (p : Packet) (s : State) : Res :=
  s.onDev (fun d =>
    if p.opc ≠ 0x11 then d else d.onFlow p (fun d => (d.takeAck p.dstFlow p.ack).resend p.dstFlow))

/-- The D fields of a context that is written or reset (R333, R337). -/
def Flow.fresh (w : Flow) (state : Nat) : Flow :=
  { w with txSeq := 0, txAcked := 0, rxSeq := 0, credits := w.credMax, state := state, retries := 0, port := .none,
           unacked := [], waiting := [], ops := [], owed := false }

/-- The flow part of RESYNC (R337): outstanding operations complete with PEER_RESET, the sequences start
again, RESYNC_ACK answers. -/
def Dev.resyncFlow (d : Dev) (f : Nat) : Dev :=
  let d := d.endOps f 3
  (((d.setFlow f ((d.flow f).fresh 1)).control f 0x13).setErr FLW 0 17).pumpAll

/-- Starts an ID_PROBE exchange on a flow (R510, R513). -/
def Dev.probe (d : Dev) (f : Nat) : Dev := d.sendMgmt (d.flow f).peer 0x42 { packetOf 0x30 with op1 := f }

/-- RESYNC_ACK (R337, R510): the reset device's flow is OPEN; a probe starts on it. -/
def execResyncAck (p : Packet) (s : State) : Res :=
  s.onDev (fun d =>
    if p.opc ≠ 0x13 then d
    else d.onFlow p (fun d =>
      let w := d.flow p.dstFlow
      if w.state = 3 then ((d.setFlow p.dstFlow { w with state := 1 }).pump p.dstFlow).probe p.dstFlow else d))

/-- The opcodes of R326. -/
def knownOpc (o : Nat) : Bool :=
  [1, 2, 3, 4, 5, 6, 8, 0x10, 0x11, 0x12, 0x13, 0x20, 0x21, 0x22, 0x23, 0x24, 0x25, 0x26, 0x30].contains o

/-- The MGMT subtypes of R387 and R513. -/
def knownSub (k : Nat) : Bool := (decide (1 ≤ k) && decide (k ≤ 15)) || (decide (0x40 ≤ k) && decide (k ≤ 0x43))

/-- PACKET_BAD_OPCODE (R326, R387, R513): another opcode, or another MGMT subtype, is discarded and answered
with BAD_OP. -/
def execPacketBadOpcode (p : Packet) (s : State) : Res :=
  s.onDev (fun d =>
    if knownOpc p.opc && (decide (p.opc ≠ 0x30) || knownSub (p.attr % 256)) then d
    else d.arrive p (fun d => d.opStatus p 5))

/-- STANDALONE_ACK_TIMER (R335): 1 µs after a packet was performed with no packet to carry its ACK. -/
def execStandaloneAckTimer (flow : Nat) (s : State) : Res :=
  s.onDev (fun d => if (d.flow flow).owed then d.control flow 0x10 else d)

/-- A flow on which something is unacknowledged. -/
def Flow.pendingAck (w : Flow) : Bool := decide (w.state ≠ 0) && !w.unacked.isEmpty

/-- E2E_RETRANSMIT_TIMEOUT (R335). -/
def execE2eRetransmitTimeout (flow : Nat) (s : State) : Res :=
  s.onDev (fun d => if (d.flow flow).pendingAck then d.resend flow else d)

/-- FLOW_STALLED (R335, R355): no progress for FAIL_S seconds. -/
def execFlowStalled (flow : Nat) (s : State) : Res :=
  s.onDev (fun d =>
    let w := d.flow flow
    if w.pendingAck ∧ w.state = 1 then ((d.setFlow flow { w with state := 2 }).bump FLW 0 6 1).setErr FLW 0 16 else d)

/-! ### The FLW page (R329, R333, R334, R337, R360) -/

/-- The 64 bytes of a context (R333). -/
def Flow.bytes (w : Flow) : List Byte :=
  leBytes 4 ((if w.state = 0 then 0 else 2 ^ 31) + w.tc * 2 ^ 28 + w.kind * 2 ^ 26 + w.queueId * 2 ^ 16 + w.peer)
    ++ leBytes 4 w.remote ++ leBytes 8 w.winBase ++ leBytes 8 w.winLimit ++ leBytes 1 w.rights ++ leBytes 1 0
    ++ leBytes 2 w.credMax ++ leBytes 4 0 ++ leBytes 4 w.txSeq ++ leBytes 4 w.txAcked ++ leBytes 4 w.rxSeq
    ++ leBytes 2 w.credits ++ leBytes 1 w.state ++ leBytes 1 w.retries
    ++ leBytes 1 (w.port.elim 0 (fun p => 128 + p)) ++ List.replicate 15 0

/-- The context that 64 bytes give, its D fields fresh, in a state. -/
def flowFrom (bs : List Byte) (state : Nat) : Flow :=
  let at' (o n : Nat) : Nat := leNat ((bs.drop o).take n)
  let c := at' 0 4
  Flow.fresh { Flow.none with
    tc := bitsOf c 28 3, kind := bitsOf c 26 2, queueId := bitsOf c 16 8, peer := c % 2 ^ 16, remote := at' 4 4,
    winBase := at' 8 8, winLimit := at' 16 8, rights := at' 24 1, credMax := at' 26 2 } (if bitOf c 31 then state else 0)

/-- A reserved field is nonzero or a field is out of range (R333, R334). The D fields as staged are not
looked at. -/
def badContext (bs : List Byte) : Bool :=
  let at' (o n : Nat) : Nat := leNat ((bs.drop o).take n)
  let base := at' 8 8
  let limit := at' 16 8
  decide (bitsOf (at' 0 4) 24 2 ≠ 0) || decide (2 ^ 18 ≤ at' 4 4) || decide (base % 4096 ≠ 0)
    || decide (limit % 4096 ≠ 4095) || decide (limit < base) || decide (16 ≤ at' 24 1) || decide (at' 25 1 ≠ 0)
    || decide (at' 26 2 = 0) || decide (1024 < at' 26 2) || decide (at' 28 4 ≠ 0) || decide (leNat (bs.drop 49) ≠ 0)

/-- The paired partner (R334, R367). -/
def Dev.isPartner (d : Dev) (n : Nat) : Bool :=
  decide (d.getF R.SOW_PARTNER_VALID 0 = 1) && decide (d.getF R.SOW_PARTNER_DEVICE 0 = n)

/-- The window overlaps a region that R293 protects. -/
def Dev.windowProtected (d : Dev) (w : Flow) : Bool :=
  let meets (a n : Nat) : Bool := decide (n ≠ 0) && decide (w.winBase < a + n) && decide (a ≤ w.winLimit)
  meets logBase (memTop - logBase)
    || (!(decide (w.kind = 1) && d.isPartner w.peer) && meets d.mirrorBase (logBase - d.mirrorBase))

/-- The status code of a context WRITE (R334); 2 is OK. -/
def Dev.contextCode (d : Dev) (f : Nat) (bs : List Byte) : Nat :=
  let w := flowFrom bs 1
  if decide (w.state ≠ 0) && d.fab.flows.any (fun e =>
      decide (e.1 ≠ f) && decide (e.2.state ≠ 0) && decide (e.2.peer = w.peer) && decide (e.2.tc = w.tc)
        && decide (e.2.queueId = w.queueId)) then 3
  else if d.windowProtected w then 4
  else if decide ((d.flow f).state ≠ 0) && !(d.flow f).unacked.isEmpty then 5
  else if badContext bs then 6
  else if decide (w.kind = 1) && !d.isPartner w.peer then 7
  else 2

/-- The shadow table's base; zero keeps no shadow (R337, R360). -/
def Dev.shadowBase (d : Dev) : Nat :=
  d.getF R.FLW_SHADOW_LO_ADDR_LO 0 * 2 ^ 16 + d.getF R.FLW_SHADOW_HI_ADDR_HI 0 * 2 ^ 32

/-- Writes a flow's shadow entry (R337). -/
def Dev.shadowFlow (d : Dev) (f : Nat) : Dev :=
  if d.shadowBase = 0 then d else d.write (d.shadowBase + 64 * f) (d.flow f).bytes

/-- The staged context bytes (R360). -/
def Dev.stagedContext (d : Dev) : List Byte := (List.range 16).flatMap (fun k => leBytes 4 (d.getF (R.FLW_DATA k) 0))

/-- FLW_CMD_READ (R334): the context goes into the staging registers. -/
def execFlwCmdRead (w : Writer) (s : State) : Res :=
  s.byWriter w (fun d =>
    let bs := (d.flow (d.getF R.FLW_INDEX_INDEX 0)).bytes
    let d := (List.range 16).foldl (fun d k =>
      let v := leNat ((bs.drop (4 * k)).take 4)
      (d.setF (R.FLW_DATA k) 0 v).setAct (R.FLW_DATA k) 0 v) d
    d.setF R.FLW_CMD_STAT_CODE 0 2)

/-- Closes a flow (R334, R337, R510). -/
def Dev.closeFlow (d : Dev) (f : Nat) : Dev :=
  let d := d.endOps f 6
  ((d.setFlow f { d.flow f with state := 0, unacked := [], waiting := [], owed := false }).shadowFlow f).pumpAll

/-- The route table image's base (R360). -/
def Dev.routeBase (d : Dev) : Nat :=
  d.getF R.FLW_RT_BASE_LO_ADDR_LO 0 * 4096 + d.getF R.FLW_RT_BASE_HI_ADDR_HI 0 * 2 ^ 32

/-- Bits [62:32] and bits [6:5] of each candidate (R329). -/
def badRoute (e : Nat) : Bool :=
  decide (bitsOf e 32 31 ≠ 0) || (List.range 4).any (fun k => decide (bitsOf e (8 * k + 5) 2 ≠ 0))

/-- The entries of a route table image that are not zero; only addresses with listed bytes can hold one. -/
def Dev.routeImage (d : Dev) : NMap Nat :=
  let b := d.routeBase
  let ks := (d.mem.bytes.filter (fun c => inRange c.1 b 524288)).map (fun c => (c.1 - b) / 8)
  (ks.foldl (fun ks k => insertSet k ks) []).map (fun k => (k, d.nat (b + 8 * k) 8))

/-- Loads the route table, or completes with BAD_ENTRY (R329, R360). -/
def Dev.loadRoutes (d : Dev) : Dev :=
  if !d.inJob d.routeBase 524288 then (d.setF R.FLW_RT_STATUS_CODE 0 3).setErr FLW 0 20
  else if d.routeImage.any (fun e => badRoute e.2) then d.setF R.FLW_RT_STATUS_CODE 0 3
  else (Dev.setF { d with fab := { d.fab with routes := d.routeImage } } R.FLW_RT_STATUS_CODE 0 2).rerouteAll

/-- ROUTE_TABLE_LOAD (R329, R355, R360). -/
def execRouteTableLoad (w : Writer) (s : State) : Res := s.byWriter w (fun d => d.loadRoutes)

/-- FLW_SHADOW_WRITE (R47, R360): refused unless the table that results lies in job memory. -/
def execFlwShadowWrite (w : Writer) (hi : Bool) (v : Nat) (s : State) : Res :=
  s.byWriter w (fun d =>
    let d' := if hi then d.setF R.FLW_SHADOW_HI_ADDR_HI 0 v else d.setF R.FLW_SHADOW_LO_ADDR_LO 0 (v / 2 ^ 16)
    if d.rlOpen false FLW 0 = false then (if d'.shadowBase = d.shadowBase then d else d.lockedWrite FLW 0)
    else if d'.inJob d'.shadowBase (2 ^ 24) then d'
    else d.setErr FLW 0 19)

end Sys2Proof.Machine
end

