-- ==== Sys2Proof/Machine/Array.lean ====
section
/-! DEFINITION. The arithmetic of the matrix array, the staking adders and the rescale step, as functions
of operands alone (R76 to R79, R147 to R161, R168, R178 to R183, R231, R232). Cells and the thin-channel
engine share them. -/

namespace Sys2Proof.Machine

/-- What one band delivers to its staking adder: a usable sum β at frame exponent z, or flags (R79, R147,
R231). `inv` and `ns` ask for an invalid and a NaN-scale record. -/
structure BandOut where
  usable : Bool
  beta   : Int
  z      : Int
  nan    : Bool
  pinf   : Bool
  ninf   : Bool
  inv    : Bool
  ns     : Bool
  deriving DecidableEq, Repr

/-- A band that contributes zero (R78). -/
def BandOut.zero : BandOut := ⟨false, 0, 0, false, false, false, false, false⟩

/-- A band with a NaN block (R134, R231). -/
def BandOut.nanScale : BandOut := ⟨false, 0, 0, true, false, false, false, true⟩

/-- A usable band sum. -/
def BandOut.sum (beta z : Int) : BandOut := ⟨true, beta, z, false, false, false, false, false⟩

/-- The flags of one product (R231): NAN, PINF, NINF, invalid, NaN-scale. -/
def productFlags (x w : Num) (bad : Bool) : BandOut :=
  if bad then BandOut.nanScale
  else if x.isNan || w.isNan then { BandOut.zero with nan := true, inv := true }
  else if x.isInf || w.isInf then
    if x.isZero || w.isZero then { BandOut.zero with nan := true, inv := true }
    else if x.neg = w.neg then { BandOut.zero with pinf := true } else { BandOut.zero with ninf := true }
  else BandOut.zero

/-- The OR of the flags. -/
def BandOut.or (a b : BandOut) : BandOut :=
  { a with nan := a.nan || b.nan, pinf := a.pinf || b.pinf, ninf := a.ninf || b.ninf,
           inv := a.inv || b.inv, ns := a.ns || b.ns }

/-- An element that carries flags in place of a value (R79). -/
def isSpecial (x : Num) : Bool := x.isNan || x.isInf

/-- The OR of the product flags of a band (R231). -/
def bandFlags (xs : List Num) (ws : List (Num × Bool)) : BandOut :=
  (xs.zip ws).foldl (fun a p => a.or (productFlags p.1 p.2.1 p.2.2)) BandOut.zero

/-- Some element of the band is a NaN or an infinity, or lies in a group that makes it one (R79, R142). -/
def bandSpecial (xs : List Num) (ws : List (Num × Bool)) : Bool :=
  xs.any isSpecial || ws.any (fun w => isSpecial w.1 || w.2)

/-- A band of an 8-bit or dual pass: products floored onto the band grid 2^L and summed (R147, R149). -/
def band8 (L : Int) (xb wb : BlockInfo) (xs : List Num) (ws : List (Num × Bool)) : BandOut :=
  if xb.zero || wb.zero then BandOut.zero
  else if xb.nan || wb.nan then BandOut.nanScale
  else if bandSpecial xs ws then bandFlags xs ws
  else
    let beta : Int := ((xs.zip ws).map (fun p => shiftFloor (p.1.sig * p.2.1.sig) (p.1.exp + p.2.1.exp - L))).sum
    BandOut.sum beta (xb.exp + wb.exp)

/-- A band of a split pass for the slice pair (i, j) (R157 to R160). -/
def bandSplit (n i j : Nat) (xb wb : BlockInfo) (xs : List Num) (ws : List (Num × Bool)) : BandOut :=
  if bandSpecial xs ws then bandFlags xs ws
  else if xb.zero || wb.zero then BandOut.zero
  else
    let beta : Int := ((xs.zip ws).map (fun p =>
      sliceOf n i (aligned n xb.exp p.1) * sliceOf n j (aligned n wb.exp p.2.1))).sum
    BandOut.sum beta (xb.exp + wb.exp - 7 * ((i : Int) + j))

/-- A value cut to 192 bits of two's complement (R150). -/
def wrap192 (a : Int) : Int := sext 192 (twos 192 a)

/-- Adds a value of frame exponent z into an entry's window (R153). -/
def windowAdd (e : Entry) (v z : Int) : Int := wrap192 (e.a + shiftFloor v (191 - (e.h : Int) + z - e.s))

/-- Adds what a band delivers into an entry (R153, R231). -/
def addBand (e : Entry) (o : BandOut) : Entry :=
  let e := { e with nan := e.nan || o.nan, pinf := e.pinf || o.pinf, ninf := e.ninf || o.ninf }
  if o.usable then { e with a := windowAdd e o.beta o.z } else e

/-- A band with a usable sum respects the stake (R154). -/
def bandFits (e : Entry) (o : BandOut) : Bool := !o.usable || decide (o.z ≤ e.s - e.depth)

/-- The entry after CLEAR (R153). -/
def clearEntry (e : Entry) : Entry := { e with a := 0, words := 0, nan := false, pinf := false, ninf := false }

/-- ceil(log2 n) of a positive number. -/
def clog2 (n : Nat) : Nat := if n ≤ 1 then 0 else Nat.log2 (n - 1) + 1

/-- The headroom of a reduction length (R151). -/
def headroom (k : Nat) : Nat := clog2 k + 2

/-- The entry that STAKE writes (R151). -/
def stakedEntry (s : Int) (h : Nat) (u depth : Int) (m : Nat) : Entry :=
  { a := 0, s := s, h := h, u := u, words := 0, nan := false, pinf := false, ninf := false, staked := true,
    depth := depth, m := m, t3 := none }

/-- D_mode of a split mode (R151, R160). -/
def splitDepth : ArrayMode → Int
  | .splitHalf => 19 | .split32 => 21 | .split64 => 23 | _ => 0

/-- The exact value of a staked entry, its non-finite bits apart (R150). -/
def entryFin (e : Entry) : Num := .ofInt e.a (e.s + e.h - 191 - e.u)

/-- The value a of an entry at DRAIN and whether an invalid record is due (R169, R232). -/
def entryValue (e : Entry) : Num × Bool :=
  match e.t3 with
  | some (acc, _) => (decodeElem 11 acc, false)
  | none =>
    if e.pinf && e.ninf then (.nan, true)
    else if e.nan then (.nan, false)
    else if e.pinf then (.inf false, false)
    else if e.ninf then (.inf true, false)
    else (entryFin e, false)

/-- The output value v = (a − c) · 2^σ · s + o and whether an invalid record is due (R178, R180, R232). An
exact zero is +0. -/
def rescaled (a c : Num) (sigma : Int) (s o : Num) : Num × Bool :=
  let diff := (a.add c.negate).scale sigma
  let p := diff.mul s
  let v := p.add o
  let v := if v.isZero then Num.zero else v
  (v, v.isNan && !a.isNan && !c.isNan && !s.isNan && !o.isNan)

/-! ### T3 numerics (R168) -/

/-- One binary32 sum. -/
def f32Add (x y : Num) : Num := roundTo 11 (x.add y)

/-- One level of the fixed pairwise tree. -/
def pairLevel : List Num → List Num
  | x :: y :: rest => f32Add x y :: pairLevel rest
  | xs => xs

/-- The term of one chunk and whether a NaN arose from non-NaN values or a NaN block took part. -/
def t3Chunk (xb wb : BlockInfo) (xs ws : List Num) : Num × Bool × Bool :=
  if xb.nan || wb.nan then (.nan, false, true)
  else if xb.zero || wb.zero then (.zero, false, false)
  else if xs.any (·.isNan) || ws.any (·.isNan) then (.nan, true, false)
  else
    let p0 := (xs.zip ws).map (fun p => roundTo 11 (p.1.mul p.2))
    let tree := pairLevel (pairLevel (pairLevel (pairLevel (pairLevel p0))))
    let q := roundTo 11 ((tree.getD 0 .zero).scale (xb.exp + wb.exp - 254))
    (q, q.isNan, false)

/-- The accumulation of one chunk into an entry in T3 form: acc, and the invalid and NaN-scale records
that are due. -/
def t3Add (acc : Nat) (q : Num × Bool × Bool) : Nat × Bool × Bool :=
  let a := decodeElem 11 acc
  let r := f32Add a q.1
  ((encodeWide 11 r).1, q.2.1 || (r.isNan && !a.isNan && !q.1.isNan), q.2.2)

/-! ### The range check (R184) -/

/-- Largest ceil(log2 |v|) over the finite nonzero values of a list, if there is one. -/
def maxClog (vs : List Num) : Option Int :=
  vs.foldl (fun a v =>
    if v.isFinNz then
      let c := if v.sig.natAbs = 2 ^ Nat.log2 v.sig.natAbs then v.log2 else v.log2 + 1
      some (a.elim c (max c))
    else a) none

/-- e_hi of R184 from G, the σ of the operands and the output, the rescale table's pairs, and the output
format; `rescale` is DRAIN's rescale flag. -/
def rangeHi (G sx sw sOut : Int) (pairs : List (Num × Num)) (rescale : Bool) (f : Nat) : Int :=
  let ts := if rescale then (maxClog (pairs.map (·.1))).getD 0 else 0
  let g := G + sx + sw + ts
  let out := if !rescale || pairs.all (fun p => p.2.isZero) then g
    else max g ((maxClog (pairs.map (·.2))).getD g) + 1
  out - sOut - fmtEmax f + 127

/-- The range check fails (R184). -/
def rangeFails (e : Int) : Bool := decide (0xFE < e) || decide (e < 0)

end Sys2Proof.Machine
end

