-- ==== Sys2Proof/Machine/Stream.lean ====
section
/-! DEFINITION. The stream instructions and what the Trellis does on STAKE_RANGE: SCFG, SCAN, STAKE, LOAD,
PASS, PASS_BOUNDARY (R70 to R88, R119 to R169, R181 to R185). -/

namespace Sys2Proof.Machine

/-! ### Phases and the just-in-time path (R185) -/

/-- The kind of the run in which a cell's current tile is (R185); NORMAL without a tile. -/
def Dev.runKind (d : Dev) (cell : Nat) : PhaseKind :=
  match (d.cell cell).cur with
  | some t => ((d.plot t.plot).phase t.phase).kind
  | none => .normal

/-- The phase of the current tile writes an entry (R185). -/
def Dev.noteEntry (d : Dev) (cell : Nat) (e : Option Nat) : Dev :=
  match (d.cell cell).cur, e with
  | some t, some i =>
    let r := (d.plot t.plot).phase t.phase
    d.setPhase t.plot t.phase { r with entries := insertSet i r.entries }
  | _, _ => d

/-- A tile belongs to a phase of a plot. -/
def Tile.inPhase (t : Tile) (k ph : Nat) : Bool := decide (t.plot = k) && decide (t.phase = ph)

/-- The cells that hold a tile of a phase, but for one. -/
def Dev.holders (d : Dev) (k ph : Nat) (keep : Option Nat) : List Nat :=
  (d.cells.filter (fun c => decide (some c.1 ≠ keep) && c.2.tiles.any (fun (t : Tile) => t.inPhase k ph))).map (·.1)

/-- The summaries of a phase, held by any cell, are dropped (R235). -/
def Dev.dropPhaseSums (d : Dev) (k ph : Nat) : Dev :=
  { d with cells := d.cells.map (fun (c : Nat × Cell) =>
      (c.1, { c.2 with phaseSums := c.2.phaseSums.filter (fun s => !s.tile.inPhase k ph) })) }

/-- CEL_TILE_STATUS of a cell that abandons its tile (R185). -/
def Dev.clearTileFlags (d : Dev) (p : Nat) : Dev := d.setF R.CEL_TILE_STATUS_HOLDING p 0

/-- A cell goes back to its last TGET, with the calls that were open there (log entry 18). -/
def Dev.backToGet (d : Dev) (p : Nat) : Dev :=
  let c := d.cell p
  ((d.setCell p { c with waiting := none, stack := c.getStack }).setF R.CEL_SEQ_STATUS_RUN p 1).setF R.CEL_SEQ_STATUS_PC p c.getPc

/-- A cell abandons its tiles: they return to their queue, and a sequencer that runs or waits goes back for the
next tile (R101, R185). -/
def Dev.abandon (d : Dev) (p : Nat) : Dev :=
  let d := (d.dropTiles p).clearTileFlags p
  if d.getF R.CEL_SEQ_STATUS_RUN p = 1 ∨ d.getF R.CEL_SEQ_STATUS_RUN p = 2 then d.backToGet p else d

/-- Every tile of a phase returns to its queue, and the phase runs in a kind (R185, steps 2 and 5); `keep`
names a cell that goes on with its tile. -/
def Dev.restartPhase (d : Dev) (k ph : Nat) (kind : PhaseKind) (keep : Option Nat) : Dev :=
  let d := (d.holders k ph keep).foldl (fun d c => d.abandon c) d
  let r := (d.plot k).phase ph
  let kept := match keep with
    | some c => ((d.cell c).tiles.filter (fun (t : Tile) => t.inPhase k ph)).map (fun (t : Tile) => t.index)
    | none => []
  (d.setPhase k ph { r with kind := kind, done := [], returned := (List.range r.next).filter (fun i => !kept.contains i) }).dropPhaseSums k ph

/-- The phase enters MEASURE (R185): its tiles return and the current step's records of its entries are
cleared. -/
def Dev.beginMeasure (d : Dev) (k ph : Nat) (keep : Option Nat) : Dev :=
  let es := ((d.plot k).phase ph).entries
  let d := d.restartPhase k ph .measure keep
  es.foldl (fun d i => d.clearStat i d.step) d

/-- MARK is set on an entry of a phase in MEASURE (R185). -/
def Dev.markEntry (d : Dev) (t : Tile) (i : Nat) : Dev :=
  let r := (d.plot t.plot).phase t.phase
  (d.setPhase t.plot t.phase { r with marked := insertSet i r.marked }).setStatFlag i d.step 1

/-- An output entry under R177 puts its phase into MEASURE with MARK set, the current tile going on. -/
def Dev.warmJit (d : Dev) (cell : Nat) (e : Option Nat) : Dev :=
  match (d.cell cell).cur, e with
  | some t, some i =>
    let r := (d.plot t.plot).phase t.phase
    if d.warmEntry i = false ∨ bitOf (d.statFlags i d.step) 0 = true ∨ r.kind = .final then d
    else
      let d := if r.kind = .normal then d.beginMeasure t.plot t.phase (some cell) else d
      if r.marked.contains i then d else d.markEntry t i
  | _, _ => d

/-! ### Sampled tiles (R240 to R243, R246) -/

/-- Binary search of the layer table, which holds `n` entries from `lo` on (R246). -/
def layerSearch (rd : Nat → Nat) (layer : Nat) : Nat → Nat → Nat → Option Nat
  | 0, _, _ => none
  | fuel + 1, lo, n =>
    if n = 0 then none
    else
      let mid := lo + n / 2
      if rd mid = layer then some mid
      else if rd mid < layer then layerSearch rd layer fuel (mid + 1) (n - n / 2 - 1)
      else layerSearch rd layer fuel lo (n / 2)

/-- The address of a layer's table entry, if the table lists it (R246). -/
def Dev.layerEntry (d : Dev) (layer : Nat) : Option Nat :=
  let base := d.getF R.NUM_SIEVE_LAYER_LO_ADDR_LO 0 * 16 + d.getF R.NUM_SIEVE_LAYER_HI_ADDR_HI 0 * 2 ^ 32
  let n := min 0x2000 (d.getF R.NUM_SIEVE_LAYER_HI_COUNT 0)
  (layerSearch (fun i => d.nat (base + 16 * i) 4) layer 15 0 n).map (fun i => base + 16 * i)

/-- The sampling hash (R241). -/
def sieveHash (plot phase tile step : Nat) : Nat :=
  (tile * 0x9E3779B1 + phase * 0x85EBCA77 + step % 2 ^ 32 * 0xC2B2AE3D + plot) % 2 ^ 32

/-- The sampling exponent in force (R241, R252). -/
def Dev.sieveRate (d : Dev) : Nat := max 8 (min 20 (d.actF R.NUM_SIEVE_CFG_RATE 0))

/-- A tile is eligible and sampled, its mode and its layer apart (R240, R241). -/
def Dev.tileSampled (d : Dev) (t : Tile) : Bool :=
  decide (d.actF R.NUM_SIEVE_CFG_EN 0 = 1) && d.feature 5
    && decide (((d.plot t.plot).phase t.phase).kind ≠ .measure)
    && decide (sieveHash t.plot t.phase t.index d.step / 2 ^ (32 - d.sieveRate) = 0)

/-- A tile of a layer is eligible and sampled (R240, R241). -/
def Dev.sampled (d : Dev) (t : Tile) (entry : Option Nat) : Bool :=
  d.tileSampled t && !((d.layerEntry (d.layerOf entry)).elim false (fun a => bitOf (d.nat (a + 8) 4) 0))

/-- What a bank column holds for the reduction indices of a chunk, as exact values (R243): element value × block factor ×
2^σ, the zero point taken in. -/
def exactColumn (x : OperandDesc) (sigma : Int) (format : Nat) (col : BankCol) : List Num :=
  (List.range 64).map (fun k =>
    let b := col.blocks.getD (k / 16) BlockInfo.none
    if b.zero then .zero else if b.nan then .nan
    else ((decodeElem format (col.codes.getD k 0)).add (.ofInt (-x.zx) 0)).scale (b.exp - 127 + sigma))

/-- The exact values of a weight row for the reduction indices of a chunk (R243). -/
def exactWeights (rd : Nat → Byte) (w : OperandDesc) (sigma : Int) (row chunk : Nat) : List Num :=
  let ex := opExpansion rd w (w.row0 + row)
  let bad := isCode w.format && badExpansion w.affine ex
  (List.range 64).map (fun i =>
    let k := chunk + i
    let b := (opBlock rd w row k).1
    let v := opCode rd w row k
    let x := if isCode w.format then
        (if bad then .nan else (expandCode ex v).add (if w.affine then .ofInt (-(expansionZ ex)) 0 else .zero))
      else decodeElem w.format v
    if b.zero then .zero else if b.nan then .nan else x.scale (b.exp - 127 + sigma))

/-- What stays of a recorded pass when `n` entries from `b` on are cleared. -/
def SievePart.without (b n : Nat) (p : SievePart) : List SievePart :=
  let lo := min p.count (b - p.first)
  let skip := b + n - p.first
  [{ p with count := lo, w := p.w.take lo }, { p with first := p.first + skip, count := p.count - skip, w := p.w.drop skip }].filter
    (fun q => decide (0 < q.count))

/-- The recorded passes of a cell once `n` entries from `b` on are cleared (R151, R153). -/
def Cell.clearUsed (c : Cell) (b n : Nat) : Cell := { c with used := c.used.flatMap (SievePart.without b n) }

/-! ### SCALE_SKEW (R87, R390) -/

/-- SCALE_SKEW: the tile's passes stop, its staking file entries are discarded, the tile is poisoned, and the
MC marks the step for replay; the same tile again during a replay is a program error (R87, R390). -/
def Dev.scaleSkew (d : Dev) (cell : Nat) : Dev :=
  let c := d.cell cell
  let d := (d.setCell cell { c with sf := [], poisoned := true, passes := [], zeroPts := [], used := [] }).setF R.CEL_ARRAY_STATUS_IN_FLIGHT cell 0
  let d := (d.setErrFull CEL cell 17 0 4 0).setErr CEL cell 24
  match c.cur with
  | none => { d with ctl := { d.ctl with replayAsked := 5 } }
  | some t =>
    let r := d.plot t.plot
    if d.sow.replayUntil.isSome ∧ r.skew = some (t.phase, t.index) then
      (d.setPlot t.plot { r with stopped := true }).setErr CEL cell 23
    else
      let d := d.setPlot t.plot { r with skew := some (t.phase, t.index) }
      { d with ctl := { d.ctl with replayAsked := 5 } }

/-! ### SCFG and SCAN -/

/-- What SCFG accepts of a descriptor (R97, R119, R130, R182, R211, R252). -/
def Dev.descOk (d : Dev) (role : Role) (o : OperandDesc) : Bool :=
  descFormat o.format && (decide (o.block = 16) || decide (o.block = 32))
    && (decide (o.zx = 0) || (decide (role = .stationary) && decide (o.format = 5)))
    && decide (-128 ≤ o.zx) && decide (o.zx ≤ 127)
    && (o.entry.elim true (fun e => decide (e < d.sstCount)))
    && (!o.compressed || isNarrow o.format || decide (o.format = 9) || decide (o.format = 10))

/-- SCFG (R96): sets an operand descriptor. -/
def execScfg (cell : Nat) (role : Role) (o : OperandDesc) (s : State) : Res :=
  s.onDev (fun d => d.instr cell (fun d =>
    if d.descOk role o then
      let c := d.cell cell
      match role with
      | .stationary => d.setCell cell { c with descX := some o }
      | .weight => d.setCell cell { c with descW := some o }
      | .output => d.setCell cell { c with descO := some o }
    else d.illegal cell))

/-- Bytes that elements lo to hi − 1 of a plane row take. -/
def rowSpan (o : OperandDesc) (lo hi : Nat) : Nat × Nat :=
  let w := fmtBits o.format
  let a := lo * w / 8
  (a, (hi * w + 7) / 8 - a)

/-- The data ranges of rows of a plane, for reduction indices lo to hi − 1; a compressed row reads its
slot. -/
def dataRanges (o : OperandDesc) (rows : List Nat) (lo hi : Nat) : List (Nat × Nat) :=
  let lo' := max lo o.col0
  let hi' := max lo' (min hi o.kLen)
  rows.map (fun r =>
    if o.compressed then (o.data + r * o.pitch, o.pitch)
    else
      let sp := rowSpan o (lo' - o.col0) (hi' - o.col0)
      (o.data + r * o.pitch + sp.1, sp.2))

/-- The scale-entry ranges of rows of a plane for reduction indices lo to hi − 1. -/
def scaleRanges (o : OperandDesc) (rows : List Nat) (lo hi : Nat) : List (Nat × Nat) :=
  if isBlock o.format then
    let lo' := max lo o.col0
    let hi' := max lo' (min hi o.kLen)
    let b0 := lo' / o.block - o.col0 / o.block
    let b1 := (hi' + o.block - 1) / o.block - o.col0 / o.block
    rows.map (fun r => (o.scale + r * o.scalePitch + 2 * b0, 2 * (b1 - b0)))
  else []

/-- The ranges that a pre-scan of one operand reads. -/
def scanRanges (o : OperandDesc) : List (Nat × Nat) :=
  let rows := List.range o.rows
  if isWide o.format then dataRanges o rows o.col0 o.kLen else scaleRanges o rows o.col0 o.kLen

/-- The blocks of an operand at block index b over its rows, with whether every tag agrees. -/
def blocksAt (rd : Nat → Byte) (o : OperandDesc) (b : Nat) : List (BlockInfo × Bool) :=
  (List.range o.rows).map (fun r =>
    if isWide o.format then (opWideBlock rd o r (16 * b), true) else opBlock rd o r (b * o.block))

/-- Largest exponent over the qualifying blocks of a list (R85). -/
def maxExp (bs : List (BlockInfo × Bool)) : Option Int :=
  bs.foldl (fun a x => if x.1.nan || x.1.zero then a else some (a.elim x.1.exp (max x.1.exp))) none

/-- The pre-scan (R85, R157): E_max if a pair qualifies, and whether every tag agrees. A wide block with a NaN or an
infinity beside finite nonzero elements counts with their β, as R157 forms it: DESIGN CHOICE, log entry 41. -/
def preScan (rd : Nat → Byte) (x w : OperandDesc) : Option Int × Bool :=
  let n := if isWide x.format then 16 else x.block
  let bs := (List.range ((x.kLen + n - 1) / n - x.col0 / n)).map (· + x.col0 / n)
  bs.foldl (fun (a : Option Int × Bool) b =>
    let xs := blocksAt rd x b
    let ws := blocksAt rd w b
    let ok := xs.all (·.2) && ws.all (·.2)
    match maxExp xs, maxExp ws with
    | some p, some q => (some (a.1.elim (p + q) (max (p + q))), a.2 && ok)
    | _, _ => (a.1, a.2 && ok)) (none, true)

/-- SCAN (R85 to R87, R148, R157): E_max into an s-register, or SCALE_SKEW. -/
def execScan (cell rd : Nat) (mode : ArrayMode) (s : State) : Res :=
  s.onDev (fun d =>
    let c := d.cell cell
    match c.descX, c.descW with
    | some x, some w =>
      d.access cell (scanRanges x ++ scanRanges w) [] (fun d =>
        if !regsOk [rd] || !pairingOk mode x.format w.format x.block || decide (x.block ≠ w.block) then d.illegal cell
        else if c.poisoned then d
        else
          let r := preScan c.rd x w
          if r.2 then
            let c := d.cell cell
            let c := c.setS rd (BitVec.ofInt 64 (r.1.getD 0))
            d.setCell cell { c with scanned := some (r.1.isSome, opAnyE4M3 c.rd w) }
          else d.scaleSkew cell)
    | _, _ => d.instr cell (fun d => d.illegal cell))

/-! ### STAKE -/

/-- The home of a staking file entry: column and entry. -/
def sfKey (col e : Nat) : Nat := col * 256 + e

/-- A staking file entry of a column. -/
def Cell.entry (c : Cell) (col e : Nat) : Entry := mget Entry.reset c.sf (sfKey col e)

/-- The 64 columns with a list of entries, in key order. -/
def sfPlaces (es : List Nat) : List (Nat × Nat) := (List.range 64).flatMap (fun c => es.map (fun e => (c, e)))

/-- Applies a function to entries in every column. -/
def Cell.mapEntries (c : Cell) (es : List Nat) (f : Nat → Nat → Entry → Entry) : Cell :=
  { c with sf := (sfPlaces es).foldl (fun m p => mput (sfKey p.1 p.2) (f p.1 p.2 (mget Entry.reset m (sfKey p.1 p.2))) m) c.sf }

/-- The companion entries that the descriptors call for (R181, R182). -/
def companions (x w : OperandDesc) (es : List Nat) : List Nat :=
  ((if w.affine && isCode w.format then es.map (· + 128) else []) ++ (if x.zx ≠ 0 then es.map (· + 64) else [])).filter (· < 256)

/-- The operand kinds of a pair (R148). -/
def pairKinds (x w : OperandDesc) (e4m3 : Bool) : (Int × Int) × (Int × Int) :=
  (kindBounds x.format 0, kindBounds w.format (weightMode w e4m3))

/-- The mode that the SCFG descriptors give a STAKE (R144, R151); T3 pairs are 8-bit pairs too, with the same frame. -/
def stakeMode (x w : OperandDesc) : Option ArrayMode :=
  [ArrayMode.m8, .dual, .splitHalf, .split32, .split64].find? (fun m => pairingOk m x.format w.format x.block)

/-- D_mode and U of a mode (R147, R151). -/
def stakeFrame (mode : ArrayMode) (x w : OperandDesc) (e4m3 : Bool) : Int × Int :=
  match mode with
  | .m8 | .dual | .t3 =>
    let k := pairKinds x w e4m3
    (bandDepth k.1 k.2, 254 - bandGrid k.1 k.2)
  | m => (splitDepth m, 10)

/-- The rescale table's pairs as values; entries never loaded hold 1.0 and +0 (R179). -/
def Cell.pairs (c : Cell) : List (Num × Num) :=
  let xs := c.rescale.map (fun p => (decodeElem 11 p.2.1, decodeElem 11 p.2.2))
  if c.rescale.length < 4096 then (.fin false 1 0, .zero) :: xs else xs

/-- The quantity G of R184. -/
def rangeG (s : Int) (h : Nat) (u : Int) (x w : OperandDesc) : Int :=
  s + h - 6 - u + (if w.affine && isCode w.format then 6 else 0) + (if x.zx ≠ 0 then 1 else 0)

/-- The range check of one output entry fails (R184); it runs only on narrow entries and, in FINAL, not on
an entry with JIT. -/
def Dev.rangeBad (d : Dev) (cell : Nat) (a : StakeArgs) (G : Int) (x w : OperandDesc) (e : Option Nat) : Bool :=
  match e with
  | none => false
  | some i =>
    if !isNarrow (d.entryFormat i) || (decide (d.runKind cell = .final) && bitOf (d.statFlags i d.step) 0) then false
    else rangeFails (rangeHi G (d.sigma x.entry) (d.sigma w.entry) (d.sigma e) (d.cell cell).pairs a.rescale (d.entryFormat i))

/-- The record slot of STAKE_RANGE: every output of the named entries is affected (R234, R236). -/
def Dev.stakeRecord (d : Dev) (cell : Nat) (a : StakeArgs) : Dev :=
  ((d.setErr CEL cell 19).recordX cell 3 (0, 0, a.first) (64 * a.count)).setErr CEL cell 18

/-- STAKE_RANGE in a NORMAL run (R88, R152, R185, R234, R236): the entries stay unstaked, the record slot
and the error bits are set, and the phase enters MEASURE. -/
def Dev.stakeRange (d : Dev) (cell : Nat) (a : StakeArgs) (es : List Nat) : Dev :=
  let t := (d.cell cell).cur
  let d := d.stakeRecord cell a
  let d := d.setCell cell ((d.cell cell).mapEntries es (fun _ _ e => { e with staked := false }))
  match t with
  | some t => d.beginMeasure t.plot t.phase none
  | none => d

/-- Writes the staked entries (R151, R169, R182). -/
def Dev.stakeEntries (d : Dev) (cell : Nat) (a : StakeArgs) (es : List Nat) (e : Entry) : Dev :=
  let c := (d.cell cell).mapEntries es (fun _ _ _ => e)
  d.setCell cell ({ c with hits := c.hits.filter (fun h => !es.contains h.2.2) }.clearUsed a.first a.count)

/-- STAKE once its operands are in order: the range checks by phase state, then the entries (R151, R184,
R185). -/
def Dev.stake (d : Dev) (cell : Nat) (a : StakeArgs) (mode : ArrayMode) (x w : OperandDesc) : Dev :=
  let c := d.cell cell
  let outs := if a.recomp then [] else [c.descO.bind (·.entry), a.save.bind (·.entry)]
  let d := outs.foldl (fun d e => (d.noteEntry cell e).warmJit cell e) d
  let sc := c.scanned.getD (false, false)
  let fr := stakeFrame mode x w sc.2
  let h := headroom a.kLen
  let s : Int := sext 16 (twos 16 (sext 64 (c.s a.emaxReg).toNat + fr.1))
  let own := (List.range a.count).map (· + a.first)
  let es := own ++ companions x w own
  let bad := if sc.1 then outs.filter (fun e => d.rangeBad cell a (rangeG s h fr.2 x w) x w e) else []
  let entry := stakedEntry s h fr.2 fr.1 (productsOf mode)
  match bad, d.runKind cell, c.cur with
  | [], _, _ => d.stakeEntries cell a es entry
  | _, .measure, some t =>
    (bad.foldl (fun d e => e.elim d (fun i => d.markEntry t i)) d).stakeEntries cell a es entry
  | _, .final, _ =>
    (d.stakeRecord cell a).stakeEntries cell a es entry
  | _, _, _ => d.stakeRange cell a es

/-- Some pass in flight names one of the entries: STAKE and DRAIN wait for it (R96, R152). -/
def Cell.entriesBusy (c : Cell) (es : List Nat) : Bool := c.passes.any (fun p => es.any (fun e => p.outs.contains e))

/-- The effect of STAKE: its traps, then the stake. A count of 0, or a pair of descriptors that no mode accepts, is
ILLEGAL, and ILLEGAL is judged before STAKE_FILE_RANGE: DESIGN CHOICE, log entry 41. -/
def Dev.stakeBody (d : Dev) (cell : Nat) (a : StakeArgs) : Dev :=
  let c := d.cell cell
  match c.descX, c.descW with
  | some x, some w =>
    match stakeMode x w with
    | none => d.illegal cell
    | some mode =>
      if !regsOk [a.emaxReg] || decide (a.count = 0) || decide (a.kLen = 0) || decide (2 ^ 32 < a.kLen)
          || decide (x.block ≠ w.block) then d.illegal cell
      else if 256 < a.first + a.count then d.trap cell 5 0
      else if c.poisoned then d
      else d.stake cell a mode x w
  | _, _ => d.illegal cell

/-- The entries that STAKE names, companions with them. -/
def Cell.stakePlaces (c : Cell) (a : StakeArgs) : List Nat :=
  let own := (List.range a.count).map (· + a.first)
  own ++ (match c.descX, c.descW with
    | some x, some w => companions x w own
    | _, _ => [])

/-- STAKE (R151, R152, R177, R184, R185): it does not act while a pass that names its entries is in flight; a cell whose
tile STAKE_RANGE takes away has gone back for its next tile. -/
def execStake (cell : Nat) (a : StakeArgs) (s : State) : Res :=
  s.onDev (fun d =>
    if (d.cell cell).entriesBusy ((d.cell cell).stakePlaces a) then d
    else if (d.cell cell).cur.isSome && ((d.stakeBody cell a).cell cell).cur.isNone && d.canIssue cell then d.stakeBody cell a
    else d.instr cell (fun d => d.stakeBody cell a))

/-- MEASURE_COMPLETE (R185, R186, R236): every tile has passed TDONE in MEASURE; each marked entry gets its
JIT_SIGMA, a JIT_SCALE decision and a STAKE_RANGE event, and the phase runs again in FINAL. The events are
posted by the caller of `jitEvents`. -/
def Dev.measureDone (d : Dev) (k ph : Nat) : Dev × List (Nat × Int × Nat × Nat) :=
  let r := (d.plot k).phase ph
  let step (a : Dev × List (Nat × Int × Nat × Nat)) (i : Nat) : Dev × List (Nat × Int × Nat × Nat) :=
    let d := a.1
    let m := d.nat (d.statAt i d.step + 2) 2
    let sg := if m = 0x8000 then d.entrySigma i else clampSigma (sext 16 m - fmtEmax (d.entryFormat i))
    let cause := if d.warmEntry i then 1 else 0
    let d := d.setJit i d.step sg
    ({ d with ctl := { d.ctl with decisions := d.ctl.decisions ++ [.jit 0 k ph i sg cause] } }, a.2 ++ [(i, sg, cause, m)])
  let a := r.marked.foldl step (d, [])
  (a.1.restartPhase k ph .final none, a.2)

/-! ### LOAD and PASS -/

/-- Bands that a row of correction sums holds (R181). -/
def sumBands (o : OperandDesc) : Nat := (o.kLen + 15) / 16 - o.col0 / 16

/-- A correction sum of n bytes of row r and the band at reduction index k (R181); 0 beyond K. -/
def corrSum (rd : Nat → Byte) (o : OperandDesc) (n r k : Nat) : Int :=
  if k < o.col0 ∨ o.kLen ≤ k then 0
  else sext (8 * n) (rdNat rd (o.sums + (r * sumBands o + (k / 16 - o.col0 / 16)) * n) n)

/-- The correction sums that a chunk of rows of a plane takes, of n bytes each (R106, R181). -/
def sumRanges (o : OperandDesc) (n : Nat) (rows : List Nat) (chunk : Nat) : List (Nat × Nat) :=
  let b0 := max chunk o.col0 / 16 - o.col0 / 16
  let b1 := min (sumBands o) ((chunk + 64) / 16 - o.col0 / 16)
  rows.map (fun r => (o.sums + (r * sumBands o + b0) * n, (b1 - b0) * n))

/-- The expansion entries of the groups that weight rows lie in (R141, R143). -/
def expandRanges (w : OperandDesc) (rows : List Nat) : List (Nat × Nat) :=
  if isCode w.format then (rows.map (fun r => (w.expand + 8 * ((w.row0 + r) / 64), 8))).eraseDups else []

/-- The four bands of an operand row in a chunk, with whether every tag agrees (R76, R130). -/
def rowBands (rd : Nat → Byte) (o : OperandDesc) (row chunk : Nat) : List (BlockInfo × Bool) :=
  [0, 16, 32, 48].map (fun k =>
    if isWide o.format then (opWideBlock rd o row (chunk + k), true) else opBlock rd o row (chunk + k))

/-- One bank column from a stationary row (R80, R128, R181). -/
def loadColumn (rd : Nat → Byte) (x : OperandDesc) (affine : Bool) (chunk row : Nat) : BankCol × Bool :=
  let bs := rowBands rd x row chunk
  let withSum := (List.range 4).map (fun b =>
    let i := (bs.getD b (BlockInfo.none, true)).1
    if affine then { i with sum := corrSum rd x 4 row (chunk + 16 * b) } else i)
  (⟨(List.range 64).map (fun k => opCode rd x row (chunk + k)), withSum⟩, bs.all (·.2))

/-- LOAD (R80, R81, R85, R86, R181): loads the idle bank, the one that the next pass's tag names. -/
def execLoad (cell chunk : Nat) (s : State) : Res :=
  s.onDev (fun d =>
    let c := d.cell cell
    match c.descX with
    | some x =>
      let rows := List.range (min 64 x.rows)
      let affine := c.descW.elim false (fun w => w.affine && isCode w.format)
      let sums := if affine then sumRanges x 4 rows chunk else []
      d.launch cell (dataRanges x rows chunk (chunk + 64) ++ scaleRanges x rows chunk (chunk + 64) ++ sums) [] (fun d =>
        if chunk % 64 ≠ 0 then d.illegal cell
        else if c.poisoned then d
        else
          let cols := rows.map (loadColumn c.rd x affine chunk)
          if cols.all (·.2) then
            let bank : Bank := ⟨x.format, cols.map (·.1)⟩
            if d.getF R.CEL_ARRAY_STATUS_NEXT_TAG cell = 0 then d.setCell cell { c with bankA := bank }
            else d.setCell cell { c with bankB := bank }
          else d.scaleSkew cell)
    | none => d.instr cell (fun d => d.illegal cell))

/-- The elements of a weight row in a chunk as they reach the multiplier, with whether each lies in a group
that makes it a NaN element (R142, R183). -/
def weightElems (rd : Nat → Byte) (w : OperandDesc) (row chunk : Nat) : List (Num × Bool) :=
  let e := opExpansion rd w (w.row0 + row)
  let bad := isCode w.format && badExpansion w.affine e
  (List.range 64).map (fun k =>
    if chunk + k < w.col0 ∨ w.kLen ≤ chunk + k then (.zero, false)
    else
      let v := opCode rd w row (chunk + k)
      if isCode w.format then (if bad then (.nan, true) else (expandCode e v, false)) else (decodeElem w.format v, false))

/-- Outputs of a pass: weight rows that its words carry (R72, R77, R159). -/
def passOutputs (a : PassArgs) : Nat := if a.mode = .dual then 2 * a.count else a.count

/-- The most that a pass may name in its count (R72, R159). -/
def maxCount : ArrayMode → Nat
  | .m8 => 256 | .dual => 128 | .t3 => 256 | .splitHalf => 64 | .split32 => 25 | .split64 => 7

/-- The field and pairing rules that make a PASS ILLEGAL (R72, R97, R130, R143, R145, R167). -/
def Dev.passLegal (d : Dev) (cell : Nat) (a : PassArgs) (x w : OperandDesc) : Bool :=
  decide (1 ≤ a.count) && decide (a.count ≤ maxCount a.mode) && decide (x.block = w.block)
    && pairingOk a.mode x.format w.format x.block && decide (a.chunk % 64 = 0)
    && (decide (a.mode ≠ .dual) || decide ((w.row0 + a.firstOut) % 2 = 0))
    && (decide (a.mode ≠ .t3) || decide (d.getF R.CEL_ARRAY_CFG_T3_MODE cell = 1))

/-- The entry limits of a pass (R77, R182). -/
def entriesOk (a : PassArgs) (x w : OperandDesc) : Bool :=
  let top := a.base + passOutputs a
  decide (top ≤ 256)
    && (decide (x.zx = 0) || decide (top ≤ 64)) && (!(w.affine && isCode w.format) || decide (top ≤ 128))

/-- What the bands of one output of one column deliver, in band order, for each product (R71, R76, R159). -/
def outputBands (mode : ArrayMode) (L : Int) (fx fw : Nat) (col : BankCol) (wb : List BlockInfo) (ws : List (Num × Bool)) :
    List (Nat × BandOut) :=
  let xs := col.codes.map (decodeElem fx)
  let band (b : Nat) : List Num := (List.range 16).map (fun i => xs.getD (16 * b + i) .zero)
  let wband (b : Nat) : List (Num × Bool) := (List.range 16).map (fun i => ws.getD (16 * b + i) (.zero, false))
  let one (f : BlockInfo → BlockInfo → List Num → List (Num × Bool) → BandOut) : List (Nat × BandOut) :=
    (List.range 4).map (fun b => (b, f (col.blocks.getD b .none) (wb.getD b .none) (band b) (wband b)))
  match mode with
  | .splitHalf | .split32 | .split64 =>
    (productSet (slices fw)).flatMap (fun p => one (bandSplit (slices fw) p.1 p.2))
  | _ => one (band8 L)

/-- The result of a pass in one output of one column: the new entries of the output and its companions, the
places of its exceptions, and whether every usable band respects the stake of the entry and of the companions that the
pass adds to. -/
structure OutResult where
  entry : Entry
  compR : Option Entry
  compC : Option Entry
  inv   : Option Nat
  ns    : Option Nat
  fits  : Bool
  zeros : Nat
  deriving DecidableEq, Repr

/-- The lowest block index of a condition over bands. -/
def lowestBand (blk chunk : Nat) (bs : List (Nat × BandOut)) (p : BandOut → Bool) : Option Nat :=
  ((bs.find? (fun b => p b.2)).map (fun b => (chunk + 16 * b.1) / blk))

/-- Streams one output through the adders of a column (R76 to R79, R153, R154, R181, R231). A band that
contributes zero or flags adds nothing to the companions. Log entry 18. -/
def runOutput (a : PassArgs) (L : Int) (x w : OperandDesc) (fx : Nat) (rd : Nat → Byte) (e0 r0 c0 : Entry) (col : BankCol)
    (wb : List BlockInfo) (ws : List (Num × Bool)) (row : Nat) : OutResult :=
  let m := productsOf a.mode
  let start (e : Entry) : Entry := if a.clear then clearEntry e else e
  let e := start e0
  let bs := outputBands a.mode L fx w.format col wb ws
  let words (e : Entry) : Entry := { e with words := e.words + m }
  let affine := w.affine && isCode w.format
  let csBytes := if affine then 2 else 8
  let fits (q : Entry) : Bool :=
    q.staked && bs.all (fun b => bandFits q b.2) && decide ((start q).words + m ≤ m * 2 ^ (q.h - 2))
  let addR (q : Entry) (b : Nat × BandOut) : Entry :=
    if b.2.usable then { q with a := windowAdd q (col.blocks.getD b.1 .none).sum b.2.z } else q
  let addC (q : Entry) (b : Nat × BandOut) : Entry :=
    if b.2.usable then { q with a := windowAdd q (corrSum rd w csBytes row (a.chunk + 16 * b.1)) b.2.z } else q
  { entry := bs.foldl (fun e b => addBand e b.2) (words e)
    compR := if affine then some (bs.foldl addR (words (start r0))) else none
    compC := if x.zx ≠ 0 then some (bs.foldl addC (words (start c0))) else none
    inv := lowestBand w.block a.chunk bs (·.inv)
    ns := lowestBand w.block a.chunk bs (·.ns)
    fits := fits e0 && (!affine || fits r0) && (decide (x.zx = 0) || fits c0)
    zeros := ((List.range 4).filter (fun b => (col.blocks.getD b .none).zero || (wb.getD b .none).zero)).length }

/-- A T3 pass in one output of one column (R168, R169): the entry, the records due, and whether it may
run. -/
def runT3 (a : PassArgs) (kLen : Nat) (fx : Nat) (w : OperandDesc) (e0 : Entry) (col : BankCol) (wb : List BlockInfo)
    (ws : List (Num × Bool)) : OutResult :=
  let first := a.chunk / 32
  let form := if a.clear then some (0, first) else e0.t3
  let xs := col.codes.map (decodeElem fx)
  let piece (c : Nat) : List Num := (List.range 32).map (fun i => xs.getD (32 * c + i) .zero)
  let wpiece (c : Nat) : List Num := (List.range 32).map (fun i => (ws.getD (32 * c + i) (.zero, false)).1)
  let last := (kLen + 31) / 32
  let step (s : (Nat × Nat) × Option Nat × Option Nat) (c : Nat) : (Nat × Nat) × Option Nat × Option Nat :=
    if last ≤ first + c then s
    else
      let q := t3Chunk (col.blocks.getD (2 * c) .none) (wb.getD (2 * c) .none) (piece c) (wpiece c)
      let r := t3Add s.1.1 q
      let blk := (a.chunk + 32 * c) / w.block
      ((r.1, s.1.2 + 1), (if r.2.1 && s.2.1.isNone then some blk else s.2.1), (if r.2.2 && s.2.2.isNone then some blk else s.2.2))
  let r := [0, 1].foldl step (form.getD (0, first), none, none)
  { entry := { Entry.reset with t3 := some r.1 }, compR := none, compC := none, inv := r.2.1, ns := r.2.2
    fits := decide (form.isSome = true ∧ (form.getD (0, first)).2 = first ∧ (a.clear = true ∨ first < last)), zeros := 0 }

/-- Writes the results of a pass into the staking file of a cell. -/
def Cell.putResults (c : Cell) (base : Nat) (rs : List (Nat × Nat × OutResult)) : Cell :=
  { c with sf := rs.foldl (fun m r =>
      let e := base + r.2.1
      let m := mput (sfKey r.1 e) r.2.2.entry m
      let m := match r.2.2.compR with
        | some q => mput (sfKey r.1 (e + 128)) q m
        | none => m
      match r.2.2.compC with
      | some q => mput (sfKey r.1 (e + 64)) q m
      | none => m) c.sf }

/-- Every (column, output, result) of a pass, in column order. -/
def Cell.passResults (c : Cell) (a : PassArgs) (bank : Bank) (x w : OperandDesc) : List (Nat × Nat × OutResult) :=
  let k := pairKinds x w (c.scanned.getD (false, false)).2
  let L := bandGrid k.1 k.2
  let words := (List.range (passOutputs a)).map (fun o =>
    let row := a.firstOut + o
    (o, row, (rowBands c.rd w row a.chunk).map (·.1), weightElems c.rd w row a.chunk))
  (List.range 64).flatMap (fun col =>
    let bc := bank.cols.getD col ⟨[], []⟩
    words.map (fun q =>
      let e := a.base + q.1
      (col, q.1,
        if a.mode = .t3 then runT3 a x.kLen bank.format w (c.entry col e) bc q.2.2.1 q.2.2.2
        else runOutput a L x w bank.format c.rd (c.entry col e) (c.entry col (e + 128)) (c.entry col (e + 64)) bc q.2.2.1
          q.2.2.2 q.2.1)))

/-- The zero points that a pass latches with its expansion entries: Z of each output entry (R143, R181). -/
def Cell.latchZ (c : Cell) (a : PassArgs) (w : OperandDesc) : Cell :=
  if w.affine && isCode w.format then
    { c with zeroPts := (List.range (passOutputs a)).foldl (fun m o =>
        mput (a.base + o) (expansionZ (opExpansion c.rd w (w.row0 + a.firstOut + o))) m) c.zeroPts }
  else c

/-- A pass of a sampled tile is recorded with the exact operands it used (R240 to R243); CLEAR takes the earlier ones of
its entries away. -/
def Dev.recordPass (d : Dev) (cell : Nat) (a : PassArgs) (bank : Bank) (x w : OperandDesc) (reads : List (Nat × Nat)) : Dev :=
  let c := d.cell cell
  let c := if a.clear then c.clearUsed a.base (passOutputs a) else c
  match c.cur with
  | some t =>
    if d.tileSampled t && decide (productsOf a.mode = 1) && decide (a.mode ≠ .t3) then
      let xs := bank.cols.map (exactColumn x (d.sigma x.entry) bank.format)
      let ws := (List.range (passOutputs a)).map (fun o => exactWeights c.rd w (d.sigma w.entry) (a.firstOut + o) a.chunk)
      let part : SievePart := ⟨a.base, passOutputs a, xs, ws, reads.map (fun r => (a.chunk, r.1, r.2))⟩
      d.setCell cell { c with used := c.used ++ [part] }
    else d.setCell cell c
  | none => d.setCell cell c

/-- BORROWED is set on a plot whose pass runs on a cell of another plot (R31, R117). -/
def Dev.noteBorrow (d : Dev) (cell : Nat) : Dev :=
  match (d.cell cell).plot, d.plotOfCell cell with
  | some k, some own => if k = own then d else d.setErr PLT k 17
  | _, _ => d

/-- A pass that may run: staking file, tag, flight, exceptions (R77 to R80, R115, R153, R231). -/
def Dev.runPass (d : Dev) (cell : Nat) (run : PassRun) (rs : List (Nat × Nat × OutResult)) : Dev :=
  let a := run.args
  let c := d.cell cell
  let cleared := if a.clear then c.hits.filter (fun h => !inRange h.2.2 a.base (passOutputs a)) else c.hits
  let c := { c.putResults a.base rs with passes := c.passes ++ [run], hits := cleared }
  let d := d.setCell cell c
  let tag := d.getF R.CEL_ARRAY_STATUS_NEXT_TAG cell
  let d := (d.setF R.CEL_ARRAY_STATUS_NEXT_TAG cell (1 - tag)).setF R.CEL_ARRAY_STATUS_IN_FLIGHT cell 1
  let d := if d.actF R.CEL_ARRAY_CFG_ZERO_SKIP cell = 1 then d.bump CEL cell 3 ((rs.map (fun r => r.2.2.zeros)).sum) else d
  let hit (p : OutResult → Option Nat) : List (Nat × Nat × Nat) :=
    rs.filterMap (fun r => (p r.2.2).map (fun b => (b, r.1, a.base + r.2.1)))
  let t3 := decide (a.mode = .t3)
  (d.exceptions cell 1 (hit (·.inv)) false t3 false).exceptions cell 2 (hit (·.ns)) false t3 false

/-- PASS (R70 to R88, R130, R143 to R145, R153, R154, R167 to R169, R182): its traps in the order ILLEGAL,
FEATURE, STAKE_FILE_RANGE; a tag mismatch is SCALE_SKEW; else the pass runs, with its expansion entries and correction
sums on the scoreboard until its boundary (R91, R143). -/
def execPass (cell : Nat) (a : PassArgs) (s : State) : Res :=
  s.onDev (fun d =>
    let c := d.cell cell
    match c.descX, c.descW with
    | some x, some w =>
      let rows := (List.range (min 512 (passOutputs a))).map (· + a.firstOut)
      let reads := dataRanges w rows a.chunk (a.chunk + 64) ++ scaleRanges w rows a.chunk (a.chunk + 64) ++ expandRanges w rows
        ++ (if x.zx ≠ 0 then sumRanges w (if w.affine && isCode w.format then 2 else 8) rows a.chunk else [])
      d.launch cell reads [] (fun d =>
        if !d.passLegal cell a x w then d.illegal cell
        else if a.mode = .split64 ∧ d.feature 6 = false then d.trap cell 7 0
        else if !entriesOk a x w then d.trap cell 5 0
        else if c.poisoned then d
        else if !rows.all (fun r => (rowBands c.rd w r a.chunk).all (·.2)) then d.scaleSkew cell
        else
          let bank := if d.getF R.CEL_ARRAY_STATUS_NEXT_TAG cell = 0 then c.bankA else c.bankB
          let rs := c.passResults a bank x w
          let own := (List.range (passOutputs a)).map (· + a.base)
          if rs.all (fun r => r.2.2.fits) then
            let xr := List.range (min 64 x.rows)
            let used := reads ++ dataRanges x xr a.chunk (a.chunk + 64) ++ scaleRanges x xr a.chunk (a.chunk + 64)
            let d := (d.setCell cell ((d.cell cell).latchZ a w)).recordPass cell a bank x w used
            (d.noteBorrow cell).runPass cell ⟨a, reads, own ++ companions x w own⟩ rs
          else d.trap cell 5 0)
    | _, _ => d.instr cell (fun d => d.illegal cell))

/-! ### Waiting cells -/

/-- The event number that WAIT names (R96). -/
def eventKey : EventKind → Nat
  | .pass => 0 | .drain => 1 | .vector => 2 | .dma c => 8 + c

/-- What a cell waits for has come about, a barrier apart (R96). -/
def Cell.ready (c : Cell) : Bool :=
  match c.waiting with
  | some (.events e n) => decide (n ≤ mget 0 c.events (eventKey e))
  | some .fence => c.passes.isEmpty && c.dma.isEmpty
  | _ => false

/-- A waiting cell whose wait is over runs on (R96). -/
def Dev.wake (d : Dev) (cell : Nat) : Dev :=
  let c := d.cell cell
  if c.ready ∧ d.getF R.CEL_SEQ_STATUS_RUN cell = 2 then
    ((d.setCell cell { c with waiting := none }).setF R.CEL_SEQ_STATUS_RUN cell 1).advance cell 1
  else d

/-- A cell takes up the target divider, and LAGGING follows (R457). -/
def Dev.takeDivider (d : Dev) (cell : Nat) : Dev :=
  let d := d.setF R.CEL_ARRAY_STATUS_DIVIDER cell (d.getF R.PWR_CLK_STATUS_TARGET 0)
  d.setF R.PWR_CLK_STATUS_LAGGING 0 d.lagging

/-- PASS_BOUNDARY (R74, R115, R457): the oldest pass in the array closes, and the cell takes up the target
divider. -/
def execPassBoundary (cell : Nat) (s : State) : Res :=
  s.onDev (fun d =>
    let c := d.cell cell
    match c.passes with
    | [] => d
    | _ :: rest =>
      let d := (d.setCell cell { c with passes := rest }).event cell 0 1
      let d := (d.setF R.CEL_ARRAY_STATUS_IN_FLIGHT cell (if rest.isEmpty then 0 else 1)).bump CEL cell 0 1
      (d.takeDivider cell).wake cell)

end Sys2Proof.Machine
end

