-- ==== Sys2Proof/Machine/Drain.lean ====
section
/-! DEFINITION. DRAIN, output rows, the copies that the sieve takes of a sampled tile, and their layer
table (R135 to R146, R156, R178 to R183, R232, R240 to R242, R246, R255 to R257). -/

namespace Sys2Proof.Machine

/-! ### Output rows -/

/-- The values of a row that are written: those below K for a narrow output (R128, R137). -/
def liveValues (o : OperandDesc) (xs : List Num) : List Num :=
  if isNarrow o.format then xs.take (o.kLen - o.col0) else xs

/-- A row of output values in the output's format: narrow through the quantiser after division by 2^σ, wide
by one rounding (R178). -/
def writeRow (o : OperandDesc) (sigma : Int) (xs : List Num) : RowOut :=
  if isNarrow o.format then
    writeNarrowRow o.format o.block o.col0 ((liveValues o xs).map (fun x => x.scale (-sigma)))
  else writeWideRow o.format xs

/-- The statistics counts of rows of values, over those that are written (R174, R175). -/
def rowStats (o : OperandDesc) (entry : Nat) (vs : List (List Num)) (rs : List RowOut) : StatUpdate :=
  let all := vs.flatMap (liveValues o)
  { entry := entry
    amax := all.foldl (fun a v => if v.isFinNz then some (a.elim v.log2 (max v.log2)) else a) none
    nonfin := all.any (fun v => !v.isFin)
    vanish := (rs.map (·.vanish)).sum, sat := (rs.map (·.sat)).sum, elements := (rs.map (·.elems)).sum }

/-- The ranges that output rows of `count` elements take. -/
def outRanges (o : OperandDesc) (rows count : Nat) : List (Nat × Nat) :=
  let n := if isNarrow o.format then (count + o.block - 1) / o.block * o.block else count
  (List.range rows).map (fun r => (o.data + r * o.pitch, (n * fmtBits o.format + 7) / 8))
    ++ (if isNarrow o.format then (List.range rows).map (fun r => (o.scale + r * o.scalePitch, n / o.block * 2)) else [])

/-- Writes output rows into the cell store. -/
def Dev.putRows (d : Dev) (cell : Nat) (o : OperandDesc) (rs : List RowOut) : Dev :=
  (List.range rs.length).foldl (fun d r =>
    let x := rs.getD r RowOut.empty
    let d := d.storeBytes cell (o.data + r * o.pitch) x.data
    if isNarrow o.format then d.storeBytes cell (o.scale + r * o.scalePitch) x.scales else d) d

/-- An output descriptor that DRAIN and VST can write (R119, R137, R146). W1 and W2 have no MAXF, so nothing can be
written in them: SCFG takes such a descriptor and DRAIN and VST trap ILLEGAL, DESIGN CHOICE, log entry 41. -/
def outputOk (o : OperandDesc) (count : Nat) : Bool :=
  isWide o.format || (isNarrow o.format && wholeBlocks o.block o.col0 count o.kLen)

/-! ### The sieve's copies (R240 to R242, R246) -/

/-- The copy of one output of a DRAIN of a sampled tile (R242); `rs` are its rows as written. -/
def Dev.sieveCopy (d : Dev) (cell : Nat) (a : DrainArgs) (o : OperandDesc) (byChannel : Bool) (rs : List RowOut) : SieveCopy :=
  let c := d.cell cell
  let so := d.sigma o.entry
  { first := a.first, entry := o.entry, format := o.format, block := o.block, sigma := so
    parts := c.used.filter (fun p => overlaps p.first p.count a.first a.count)
    scales := (List.range a.count).map (fun i =>
      if a.rescale then mget (0x3F800000, 0) c.rescale (a.rescaleBase + i) else (0x3F800000, 0))
    written := rs.map (fun r => r.read.map (fun v =>
      if isNarrow o.format then (v.1.scale so, v.2 + so) else v))
    byChannel := byChannel
    bytes := ((outRanges o rs.length (if byChannel then min 64 o.kLen else a.count)).map (·.2)).sum + 8 * a.count }

/-- Bytes that the copies of a tile take: the planes, scale entries and expansion entries it used, each once, then the
rescale pairs and the outputs (R242). -/
def copyBytes (cs : List SieveCopy) : Nat :=
  (((cs.flatMap (fun c => c.parts.flatMap (·.reads))).eraseDups).map (·.2.2)).sum + (cs.map (·.bytes)).sum

/-! ### DRAIN -/

/-- The rescale pair of an output (R178, R179). -/
def Cell.scalePair (c : Cell) (a : DrainArgs) (i : Nat) : Num × Num :=
  if a.rescale then
    let p := mget (0x3F800000, 0) c.rescale (a.rescaleBase + i)
    (decodeElem 11 p.1, decodeElem 11 p.2)
  else (.fin false 1 0, .zero)

/-- The zero-point correction c of an output of a column (R181), with the Z that the passes of its entry latched
(R143). -/
def Cell.correction (c : Cell) (x w : OperandDesc) (col e : Nat) : Num :=
  let z := if w.affine && isCode w.format then mget 0 c.zeroPts e else 0
  let r := (entryFin (c.entry col (e + 128))).mul (.ofInt z 0)
  let q := (entryFin (c.entry col (e + 64))).mul (.ofInt x.zx 0)
  (if z = 0 then .zero else r).add (if x.zx = 0 then .zero else q)

/-- The output value of an entry of a column and whether it owes an invalid record (R178, R180, R232). -/
def Dev.drainOne (d : Dev) (cell : Nat) (a : DrainArgs) (x w : OperandDesc) (col i : Nat) : Num × Bool :=
  let c := d.cell cell
  let e := c.entry col (a.first + i)
  let v := entryValue e
  let corr := if e.t3.isSome then .zero else c.correction x w col (a.first + i)
  let p := c.scalePair a i
  let r := rescaled v.1 corr (d.sigma x.entry + d.sigma w.entry) p.1 p.2
  (r.1, r.2 || v.2)

/-- The transposed list of rows. -/
def columnsOf (n : Nat) (rows : List (List Num)) : List (List Num) :=
  (List.range n).map (fun i => rows.map (fun r => r.getD i .zero))

/-- Writes one output of a DRAIN: its rows, its statistics held with the tile, its saturations (R140, R175,
R234). -/
def Dev.drainInto (d : Dev) (cell : Nat) (a : DrainArgs) (o : OperandDesc) (vs : List (List Num)) (byChannel : Bool) :
    Dev × List RowOut :=
  let rs := vs.map (writeRow o (d.sigma o.entry))
  let d := d.putRows cell o rs
  let d := match o.entry, a.recomp with
    | some e, false =>
      let c := d.cell cell
      d.setCell cell { c with stats := c.stats ++ [rowStats o e vs rs] }
    | _, _ => d
  let hits := ((List.range rs.length).flatMap (fun r => ((rs.getD r RowOut.empty).sats).map (fun p =>
    let b := (o.col0 + p) / o.block
    if byChannel then (b, p, a.first + r) else (b, r, a.first + p))))
  let t3 := ((d.cell cell).entry 0 a.first).t3.isSome
  (d.exceptions cell 4 hits false t3 a.recomp, rs)

/-- DRAIN of entries that may be drained (R156, R178, R255, R257). -/
def Dev.drain (d : Dev) (cell : Nat) (a : DrainArgs) (x w o : OperandDesc) : Dev :=
  let rows := min 64 o.rows
  let d := if a.recomp then d
    else ((d.noteEntry cell o.entry).warmJit cell o.entry)
  let d := match a.save, a.recomp with
    | some sv, false => (d.noteEntry cell sv.entry).warmJit cell sv.entry
    | _, _ => d
  let grid := (List.range rows).map (fun r => (List.range a.count).map (fun i => d.drainOne cell a x w r i))
  let vs := grid.map (fun r => r.map (·.1))
  let invs := (List.range rows).flatMap (fun r => ((List.range a.count).filter (fun i =>
    ((grid.getD r []).getD i (.zero, false)).2)).map (fun i => (0xFFFFFFFF, r, a.first + i)))
  let t3 := ((d.cell cell).entry 0 a.first).t3.isSome
  let d := d.exceptions cell 1 invs false t3 a.recomp
  let p := d.drainInto cell a o vs false
  let q := a.save.map (fun sv => (sv, p.1.drainInto cell a sv (columnsOf a.count vs) true))
  let d := q.elim p.1 (·.2.1)
  let c := d.cell cell
  let d := match c.cur with
    | some t =>
      if !a.recomp && decide ((c.entry 0 a.first).m = 1) && !t3 && d.sampled t o.entry then
        let saved := q.elim [] (fun y => [d.sieveCopy cell a y.1 true y.2.2])
        d.setCell cell { c with samples := c.samples ++ [d.sieveCopy cell a o false p.2] ++ saved }
      else d
    | none => d
  d.event cell 1 1

/-- DRAIN (R87, R96, R146, R156, R169, R178, R179, R255, R257): it waits for the passes that name its entries; of a
poisoned tile it does not run; then its traps, then the outputs. -/
def execDrain (cell : Nat) (a : DrainArgs) (s : State) : Res :=
  s.onDev (fun d =>
    let c := d.cell cell
    match c.descX, c.descW, c.descO with
    | some x, some w, some o =>
      let rows := min 64 o.rows
      let saveRanges := a.save.elim [] (fun sv => outRanges sv a.count rows)
      let own := (List.range a.count).map (· + a.first)
      if c.entriesBusy (own ++ companions x w own) then d
      else d.launch cell [] (outRanges o rows a.count ++ saveRanges) (fun d =>
        let saveOk := a.save.elim true (fun sv =>
          d.descOk .output sv && decide (sv.col0 % 64 = 0) && outputOk sv rows)
        if c.poisoned then d
        else if decide (a.count = 0) || decide (256 < a.first + a.count) || !outputOk o a.count || !saveOk
            || (a.rescale && decide (4096 < a.rescaleBase + a.count)) then d.illegal cell
        else if (sfPlaces ((List.range a.count).map (· + a.first))).any (fun p =>
            let e := c.entry p.1 p.2
            !e.staked && e.t3.isNone) then d.trap cell 5 0
        else d.drain cell a x w o)
    | _, _, _ => d.instr cell (fun d => d.illegal cell))

end Sys2Proof.Machine
end

