-- ==== Sys2Proof/Machine/Vector.lean ====
section
/-! DEFINITION. The vector and table unit and the generator (R102 to R106, R136, R146, R190 to R193, R258 to
R264). -/

namespace Sys2Proof.Machine

/-! ### Lanes -/

/-- Width of a lane in bits. -/
def laneBits : LaneType → Nat
  | .f32 => 32 | .f64 => 64 | .i32 => 32 | .i8 => 8

/-- Lanes of a register (R102). -/
def laneCount (t : LaneType) : Nat := 1024 / laneBits t

/-- The format of a floating-point lane type. -/
def laneFormat : LaneType → Nat
  | .f32 => 11 | .f64 => 12 | .i32 => 13 | .i8 => 5

/-- The lane type holds integers. -/
def isInt : LaneType → Bool
  | .i32 => true | .i8 => true | _ => false

/-- The lanes of a register as bit patterns. -/
def lanesOf (t : LaneType) (v : BitVec 1024) : List Nat :=
  (List.range (laneCount t)).map (fun i => v.toNat / 2 ^ (laneBits t * i) % 2 ^ laneBits t)

/-- A register from lanes. -/
def ofLanes (t : LaneType) (xs : List Nat) : BitVec 1024 :=
  BitVec.ofNat 1024 (((List.range xs.length).map (fun i => xs.getD i 0 % 2 ^ laneBits t * 2 ^ (laneBits t * i))).sum)

/-- A v-register. -/
def Cell.v (c : Cell) (r : Nat) : BitVec 1024 := mget 0 c.vregs r

/-- Writes a v-register. -/
def Dev.setV (d : Dev) (cell r : Nat) (v : BitVec 1024) : Dev :=
  let c := d.cell cell
  d.setCell cell { c with vregs := mput r v c.vregs }

/-- The value of a lane. -/
def laneVal (t : LaneType) (v : Nat) : Num := decodeElem (laneFormat t) v

/-- The integer of an integer lane. -/
def laneInt (t : LaneType) (v : Nat) : Int := sext (laneBits t) v

/-- An integer lies in the range of a lane type. -/
def intFits (t : LaneType) (v : Int) : Bool := decide (sext (laneBits t) (twos (laneBits t) v) = v)

/-- A number by which `Config.intLane` tells lane types apart. -/
def laneCode : LaneType → Nat
  | .f32 => 0 | .f64 => 1 | .i32 => 2 | .i8 => 3

/-- An exact integer result, or the free value of log entry 11 when it leaves the lane's range. -/
def intResult (t : LaneType) (op : Nat) (v : Int) (a b c : Nat) : Nat :=
  if intFits t v then twos (laneBits t) v else Config.intLane (op * 4 + laneCode t) a b c % 2 ^ laneBits t

/-- The rounding of a finite value to an integer, ties to even (R135 with EMIN 0). -/
def roundInt (x : Num) : Int :=
  let m := match x with
    | .fin _ m e => if 0 ≤ e then m * pow2 e else rneShift m (-e).toNat
    | _ => 0
  if x.neg then -(m : Int) else m

/-- Conversion to an integer lane: the bits, whether it saturated, whether it was a NaN (R136). INT8 saturates at −128,
the end of the integer range, not at the −MAXF of R124: DESIGN CHOICE, log entry 11. -/
def toInt (t : LaneType) (x : Num) : Nat × Bool × Bool :=
  let hi : Int := 2 ^ (laneBits t - 1) - 1
  let lo : Int := -(2 ^ (laneBits t - 1))
  match x with
  | .nan => (0, false, true)
  | .inf s => (twos (laneBits t) (if s then lo else hi), true, false)
  | x =>
    let v := roundInt x
    if hi < v then (twos (laneBits t) hi, true, false)
    else if v < lo then (twos (laneBits t) lo, true, false)
    else (twos (laneBits t) v, false, false)

/-- A vector instruction: registers in range, else ILLEGAL; it counts as a vector completion (R96, R97). -/
def Dev.vectorOp (d : Dev) (cell : Nat) (legal : Bool) (f : Dev → Dev) : Dev :=
  d.instr cell (fun d => if legal then (f d).event cell 2 1 else d.illegal cell)

/-- The vector lane (0 to 31) of element i of a register: four INT8 elements share one (R102, R234). -/
def laneNo (t : LaneType) (i : Nat) : Nat := if t = .i8 then i / 4 else i

/-- The places of lanes of which a condition holds, for `Dev.exceptions`. -/
def laneHits (t : LaneType) (block : Nat) (ps : List Bool) : List (Nat × Nat × Nat) :=
  ((List.range ps.length).filter (fun i => ps.getD i false)).map (fun i => (block, laneNo t i, 0))

/-! ### VLD and VST -/

/-- Elements that VLD and VST move. -/
def vmemCount (a : VMemArgs) : Nat := a.regs * laneCount a.lanes

/-- A VLD or VST names registers, lanes, a row, a format, a block size and a remainder in range (R97, R119, R130, R191,
R192). -/
def vmemOk (d : Dev) (a : VMemArgs) (store : Bool) : Bool :=
  decide (1 ≤ a.regs) && decide (a.vreg + a.regs ≤ 32) && decide (a.row < a.desc.rows) && decide (a.desc.col0 ≤ a.first)
    && (match a.lanes with
      | .i32 => decide (a.desc.format = 13) || decide (a.desc.format = 5) || decide (a.desc.format = 6)
          || (store && isNarrow a.desc.format)
      | .i8 => decide (a.desc.format = 5) || decide (a.desc.format = 6) || (store && isNarrow a.desc.format)
      | _ => !store || !isCode a.desc.format)
    && ((isInt a.lanes && decide (a.desc.format = 13)) || d.descOk .output { a.desc with zx := 0 })
    && (a.rem.elim true (fun r => decide (a.lanes = .f64) && (decide (r.2 = 8) || decide (r.2 = 16)) && !isCode a.desc.format))

/-- One element as VLD reads it: its exact value in true units, the grid exponent of its stored form, and
whether a NaN block gave it (R131, R134, R190, R191). The vector unit does not compare a scale entry's TAG, which R86 and
R134 ask of the stream unit: DESIGN CHOICE, log entry 11. -/
def Dev.readElem (d : Dev) (rd : Nat → Byte) (o : OperandDesc) (row k : Nat) : Num × Int × Bool :=
  let sg := d.sigma o.entry
  let v := opCode rd o row k
  if isBlock o.format then
    let b := (opBlock rd o row k).1
    let e := opExpansion rd o (o.row0 + row)
    let x := if isCode o.format then
        (if badExpansion o.affine e then .nan else (expandCode e v).add (if o.affine then .ofInt (-(expansionZ e)) 0 else .zero))
      else decodeElem o.format v
    let sh := b.exp - 127 + sg
    let g (x : Num) : Int := gridExp (fmtP o.format) (fmtEmin o.format) x.sig.natAbs x.exp + sh
    if b.nan then (.nan, 0, true)
    else if b.zero then (.zero, g .zero, false)
    else (x.scale sh, g x, false)
  else
    let x := decodeElem o.format v
    (x, gridExp (fmtP o.format) (fmtEmin o.format) x.sig.natAbs x.exp, false)

/-- A remainder integer (R191). -/
def remainder (rd : Nat → Byte) (r : Nat × Nat) (i : Nat) : Int := sext r.2 (rdNat rd (r.1 + i * (r.2 / 8)) (r.2 / 8))

/-- The cell-store ranges of a VLD or VST. -/
def vmemRanges (a : VMemArgs) : List (Nat × Nat) :=
  let o := a.desc
  let n := vmemCount a
  let sp := rowSpan o (a.first - o.col0) (a.first - o.col0 + n)
  let b0 := a.first / o.block - o.col0 / o.block
  let b1 := (a.first + n + o.block - 1) / o.block - o.col0 / o.block
  (o.data + a.row * o.pitch + sp.1, sp.2)
    :: (if isBlock o.format then [(o.scale + a.row * o.scalePitch + 2 * b0, 2 * (b1 - b0))] else [])
    ++ a.rem.elim [] (fun r => [(r.1, n * (r.2 / 8))])

/-- VLD (R102, R126, R131, R136, R190, R192): each lane is rounded once from the exact value; an integer lane saturates
(DESIGN CHOICE, log entry 11). -/
def execVld (cell : Nat) (a : VMemArgs) (s : State) : Res :=
  s.onDev (fun d => d.launch cell (vmemRanges a) [] (fun d =>
    if vmemOk d a false then
      let rd := (d.cell cell).rd
      let es := (List.range (vmemCount a)).map (fun i => d.readElem rd a.desc a.row (a.first + i))
      let lanes := (List.range es.length).map (fun i =>
        let e := es.getD i (.zero, 0, false)
        if isInt a.lanes then (toInt a.lanes e.1).1
        else
          let x := match a.rem with
            | some r => e.1.add (.ofInt (remainder rd r i) (e.2.1 - r.2 + 1))
            | none => e.1
          (encodeWide (laneFormat a.lanes) x).1)
      let d := (List.range a.regs).foldl (fun d r =>
        d.setV cell (a.vreg + r) (ofLanes a.lanes ((lanes.drop (r * laneCount a.lanes)).take (laneCount a.lanes)))) d
      let hits := ((List.range es.length).filter (fun i => (es.getD i (.zero, 0, false)).2.2)).map (fun i =>
        ((a.first + i) / a.desc.block, laneNo a.lanes (i % laneCount a.lanes), 0))
      (d.exceptions cell 2 hits true false false).event cell 2 1
    else d.illegal cell))

/-- A remainder code from an exact new value t, its stored value and its grid exponent (R192). -/
def remainderCode (b : Nat) (t : Num) (w : Num × Int) : Nat :=
  if t.isFin && w.1.isFin then
    let v := roundInt ((t.add w.1.negate).scale (-(w.2 - b + 1)))
    twos b (max (-(2 ^ (b - 1))) (min v (2 ^ (b - 1) - 1)))
  else 0

/-- VST (R136, R137, R146, R175, R188, R192): narrow targets through the quantiser in whole blocks, wide
targets by one rounding; statistics held with the tile; the remainder option writes the remainder. -/
def execVst (cell : Nat) (a : VMemArgs) (s : State) : Res :=
  s.onDev (fun d =>
    let o : OperandDesc := { a.desc with col0 := a.first, data := a.desc.data + (rowSpan a.desc 0 (a.first - a.desc.col0)).2, scale := a.desc.scale + 2 * (a.first / a.desc.block - a.desc.col0 / a.desc.block) }
    d.launch cell [] (vmemRanges a) (fun d =>
      if vmemOk d a true && (isWide o.format || decide (o.format = 13) || outputOk o (vmemCount a)) then
        let c := d.cell cell
        let src := (List.range a.regs).flatMap (fun r => lanesOf a.lanes (c.v (a.vreg + r)))
        if o.format = 13 then
          (d.storeBytes cell (o.data + a.row * o.pitch) (packElems 32 (src.map (fun v => twos 32 (laneInt a.lanes v))))).event cell 2 1
        else if c.poisoned then d
        else
          let xs := src.map (laneVal a.lanes)
          let d := (d.noteEntry cell o.entry).warmJit cell o.entry
          let sg := d.sigma o.entry
          let r := writeRow o sg xs
          let d := d.storeBytes cell (o.data + a.row * o.pitch) r.data
          let d := if isNarrow o.format then d.storeBytes cell (o.scale + a.row * o.scalePitch) r.scales else d
          let d := match a.rem with
            | some q =>
              let codes := (List.range xs.length).map (fun i =>
                let w := r.read.getD i (.zero, 0)
                let w := if isNarrow o.format then (w.1.scale sg, w.2 + sg) else w
                remainderCode q.2 (xs.getD i .zero) w)
              d.storeBytes cell q.1 (packElems q.2 codes)
            | none => d
          let d := match o.entry with
            | some e =>
              let c := d.cell cell
              d.setCell cell { c with stats := c.stats ++ [rowStats o e [xs] [r]] }
            | none => d
          let hits := r.sats.map (fun p => ((o.col0 + p) / o.block, laneNo a.lanes (p % laneCount a.lanes), 0))
          (d.exceptions cell 4 hits true false false).event cell 2 1
      else d.illegal cell))

/-! ### VOP and VRED -/

/-- A floating-point lane operation on exact operands, rounded once (R102, R104). -/
def floatOp (k : VOpKind) (a b c : Num) : Num :=
  match k with
  | .fma => (a.mul b).add c
  | .add => a.add b
  | .sub => a.add b.negate
  | .mul => a.mul b
  | .min => a.minimum b
  | .max => a.maximum b
  | _ => a

/-- An integer lane operation (log entry 11). -/
def integerOp (t : LaneType) (k : VOpKind) (a b c : Nat) : Nat :=
  let x := laneInt t a
  let y := laneInt t b
  let z := laneInt t c
  match k with
  | .fma => intResult t 0 (x * y + z) a b c
  | .add => intResult t 1 (x + y) a b c
  | .sub => intResult t 2 (x - y) a b c
  | .mul => intResult t 3 (x * y) a b c
  | .min => twos (laneBits t) (min x y)
  | .max => twos (laneBits t) (max x y)
  | .intOp code => Config.intLane (100 + code * 4 + laneCode t) a b c % 2 ^ laneBits t
  | _ => a

/-- One lane of a VOP: the result, whether it owes an invalid record, whether it saturated. -/
def vopLane (k : VOpKind) (t : LaneType) (a b c : Nat) : Nat × Bool × Bool :=
  match k, isInt t with
  | .toI32, false =>
    let r := toInt .i32 (laneVal t a)
    (r.1, r.2.2, r.2.1)
  | .toI8, false =>
    let r := toInt .i8 (laneVal t a)
    (r.1, r.2.2, r.2.1)
  | .half f, false => ((encodeWide (laneFormat t) (roundTo f (laneVal t a))).1, false, false)
  | .cvt u, false =>
    if isInt u then
      let r := toInt u (laneVal t a)
      (r.1, r.2.2, r.2.1)
    else ((encodeWide (laneFormat u) (laneVal t a)).1, false, false)
  | .cvt u, true =>
    if isInt u then (intResult u 4 (laneInt t a) a 0 0, false, false)
    else ((encodeWide (laneFormat u) (.ofInt (laneInt t a) 0)).1, false, false)
  | _, true => (integerOp t k a b c, false, false)
  | _, false =>
    let x := laneVal t a
    let y := laneVal t b
    let z := laneVal t c
    let r := (encodeWide (laneFormat t) (floatOp k x y z)).1
    let usesC := match k with
      | .fma => true
      | _ => false
    (r, (decodeElem (laneFormat t) r).isNan && !x.isNan && !y.isNan && !(usesC && z.isNan), false)

/-- The lane type of a VOP's result. -/
def vopTarget (k : VOpKind) (t : LaneType) : LaneType :=
  match k with
  | .toI32 => .i32
  | .toI8 => .i8
  | .cvt u => u
  | .rowSum => .i32
  | _ => t

/-- Which lane types an operation takes (R102); another is ILLEGAL. -/
def vopTypeOk (k : VOpKind) (t : LaneType) : Bool :=
  match k with
  | .half f => !isInt t && (decide (f = 9) || decide (f = 10))
  | .toI32 | .toI8 => !isInt t
  | .intOp _ | .rowSum => isInt t
  | _ => true

/-- VOP (R102, R104, R106, R136, R234): one operation on every lane; a result with fewer lanes leaves the
register's other lanes as they were. `rowSum` sums each group of 16 lanes into lane 0, 1, …. Log entry 11. -/
def execVop (cell : Nat) (k : VOpKind) (t : LaneType) (vd va vb vc : Nat) (s : State) : Res :=
  s.onDev (fun d => d.vectorOp cell (regsOk [vd, va, vb, vc] && vopTypeOk k t) (fun d =>
    let c := d.cell cell
    let xs := lanesOf t (c.v va)
    let ys := lanesOf t (c.v vb)
    let zs := lanesOf t (c.v vc)
    let u := vopTarget k t
    let old := lanesOf u (c.v vd)
    match k with
    | .rowSum =>
      let sums := (List.range (laneCount t / 16)).map (fun g =>
        intResult .i32 5 (((List.range 16).map (fun i => laneInt t (xs.getD (16 * g + i) 0))).sum) g 0 0)
      d.setV cell vd (ofLanes u (sums ++ old.drop sums.length))
    | k =>
      let n := min (laneCount t) (laneCount u)
      let rs := (List.range n).map (fun i => vopLane k t (xs.getD i 0) (ys.getD i 0) (zs.getD i 0))
      let d := d.setV cell vd (ofLanes u (rs.map (·.1) ++ old.drop n))
      let d := d.exceptions cell 1 (laneHits t 0xFFFFFFFF (rs.map (·.2.1))) true false false
      d.exceptions cell 4 (laneHits t 0xFFFFFFFF (rs.map (·.2.2))) true false false))

/-- One combination of a reduction: the bits and whether it owes an invalid record (R103, R104). -/
def redStep (k : VRedKind) (t : LaneType) (a b : Nat × Bool) : Nat × Bool :=
  let r := match k with
    | .sum => vopLane .add t a.1 b.1 0
    | .min => vopLane .min t a.1 b.1 0
    | .max => vopLane .max t a.1 b.1 0
  (r.1, a.2 || b.2 || r.2.1)

/-- One level of the binary tree of R103. -/
def redLevel (k : VRedKind) (t : LaneType) : List (Nat × Bool) → List (Nat × Bool)
  | a :: b :: rest => redStep k t a b :: redLevel k t rest
  | xs => xs

/-- The tree over the lanes of one register (at most 128 lanes). -/
def redTree (k : VRedKind) (t : LaneType) (xs : List Nat) : Nat × Bool :=
  let l := redLevel k t
  (l (l (l (l (l (l (l (xs.map (fun x => (x, false)))))))))).getD 0 (0, false)

/-- A lane's bits, a NaN made the one NaN value of its type (R104, R126). -/
def canonLane (t : LaneType) (v : Nat) : Nat :=
  if !isInt t && (laneVal t v).isNan then (encodeWide (laneFormat t) .nan).1 else v

/-- VRED (R103, R104): each register through the tree, then register by register in the program's order;
the result stands in lane 0 and the other lanes stay. Log entry 11. -/
def execVred (cell : Nat) (k : VRedKind) (t : LaneType) (vd : Nat) (vs : List Nat) (s : State) : Res :=
  s.onDev (fun d => d.vectorOp cell (regsOk (vd :: vs)) (fun d =>
    let c := d.cell cell
    let rs := vs.map (fun r => redTree k t (lanesOf t (c.v r)))
    let r := match rs with
      | [] => (canonLane t (Config.emptyReduction (laneCode t)).toNat, false)
      | x :: xs => xs.foldl (redStep k t) x
    let d := d.setV cell vd (ofLanes t (r.1 :: (lanesOf t (c.v vd)).tail))
    d.exceptions cell 1 (laneHits t 0xFFFFFFFF [r.2]) true false false))

/-! ### VTBL -/

/-- Applies a function of the table unit to every lane (R105). -/
def Dev.tableLanes (d : Dev) (cell op vd vs : Nat) (t : LaneType) : Dev :=
  let xs := lanesOf t ((d.cell cell).v vs)
  let rs := xs.map (tableFn op (laneFormat t))
  let d := d.setV cell vd (ofLanes t rs)
  let bad := (xs.zip rs).map (fun p => !(laneVal t p.1).isNan && (laneVal t p.2).isNan)
  d.exceptions cell 1 (laneHits t 0xFFFFFFFF bad) true false false

/-- VTBL (R96, R105, R179): loads the rescale table or lookup tables from the cell store, looks INT8 lanes
up, or evaluates a function. -/
def execVtbl (cell : Nat) (op : VTblOp) (s : State) : Res :=
  s.onDev (fun d =>
    match op with
    | .loadRescale first src count =>
      d.launch cell [(src, 8 * count)] [] (fun d =>
        if 4096 < first + count then d.illegal cell
        else
          let c := d.cell cell
          let t := (List.range count).foldl (fun m i =>
            mput (first + i) (rdNat c.rd (src + 8 * i) 4, rdNat c.rd (src + 8 * i + 4) 4) m) c.rescale
          (d.setCell cell { c with rescale := t }).event cell 2 1)
    | .loadTable first src count =>
      d.launch cell [(src, count)] [] (fun d =>
        if 32768 < first + count then d.illegal cell
        else
          let c := d.cell cell
          (d.setCell cell { c with lut := setBytes c.lut first (bytesAt c.store src count) }).event cell 2 1)
    | .lookup vd vs base =>
      d.vectorOp cell (regsOk [vd, vs] && decide (base + 256 ≤ 32768)) (fun d =>
        let c := d.cell cell
        d.setV cell vd (ofLanes .i8 ((lanesOf .i8 (c.v vs)).map (fun x => (byteAt c.lut (base + x)).toNat))))
    | .recip vd vs t => d.vectorOp cell (regsOk [vd, vs] && !isInt t) (fun d => d.tableLanes cell 0 vd vs t)
    | .sqrt vd vs t => d.vectorOp cell (regsOk [vd, vs] && !isInt t) (fun d => d.tableLanes cell 1 vd vs t)
    | .rsqrt vd vs t => d.vectorOp cell (regsOk [vd, vs] && !isInt t) (fun d => d.tableLanes cell 2 vd vs t)
    | .exp2 vd vs => d.vectorOp cell (regsOk [vd, vs]) (fun d => d.tableLanes cell 3 vd vs .f32)
    | .log2 vd vs => d.vectorOp cell (regsOk [vd, vs]) (fun d => d.tableLanes cell 4 vd vs .f32))

/-! ### The generator (R258 to R262) -/

/-- High and low halves of a 32-bit product. -/
def mulhilo (a b : Nat) : Nat × Nat := (a * b / 2 ^ 32 % 2 ^ 32, a * b % 2 ^ 32)

/-- The rounds of Philox4x32 (R258): counter c0 … c3, key k0, k1. -/
def philoxRounds : Nat → Nat × Nat × Nat × Nat → Nat → Nat → Nat × Nat × Nat × Nat
  | 0, c, _, _ => c
  | n + 1, c, k0, k1 =>
    let p := mulhilo 0xD2511F53 c.1
    let q := mulhilo 0xCD9E8D57 c.2.2.1
    philoxRounds n (q.1 ^^^ c.2.1 ^^^ k0, q.2, p.1 ^^^ c.2.2.2 ^^^ k1, p.2) ((k0 + 0x9E3779B9) % 2 ^ 32) ((k1 + 0xBB67AE85) % 2 ^ 32)

/-- Philox4x32-10 (R258). -/
def philox (c0 c1 c2 c3 k0 k1 : Nat) : List Nat :=
  let r := philoxRounds 10 (c0, c1, c2, c3) k0 k1
  [r.1, r.2.1, r.2.2.1, r.2.2.2]

/-- The key of a purpose (R259). -/
def philoxKey (seed purpose : Nat) : Nat × Nat := (seed % 2 ^ 32 ^^^ purpose, seed / 2 ^ 32 % 2 ^ 32)

/-- The GSB's base (R265). -/
def Dev.gsbBase (d : Dev) : Nat :=
  d.getF R.SOW_GSB_BASE_LO_ADDR_LO 0 * 64 + d.getF R.SOW_GSB_BASE_HI_ADDR_HI 0 * 2 ^ 32

/-- The job seed (R259, R265). -/
def Dev.jobSeed (d : Dev) : Nat := d.nat d.gsbBase 8

/-- A purpose code that VRNG accepts (R260, R262). -/
def purposeOk (p : Nat) : Bool := decide (p < 0x10000) && (decide (0x100 ≤ p) || (decide (1 ≤ p) && decide (p ≤ 4)))

/-- The conversion's s-register operand lies in range (R262). -/
def Cell.convOk (c : Cell) : RngConv → Bool
  | .raw | .unif32 | .unif64 => true
  | .keep8 r | .keep32 r => regsOk [r] && decide ((c.s r).toNat ≤ 2 ^ 32)
  | .range r => regsOk [r] && decide (1 ≤ (c.s r).toNat) && decide ((c.s r).toNat ≤ 2 ^ 32)

/-- The lanes of a VRNG (R262). -/
def Cell.convLanes (c : Cell) (ws : List Nat) : RngConv → BitVec 1024
  | .raw => ofLanes .i32 ws
  | .unif32 => ofLanes .f32 (ws.map (fun w => (encodeWide 11 (.fin false (w / 256) (-24))).1))
  | .unif64 => ofLanes .f64 ((List.range 16).map (fun i =>
      (encodeWide 12 (.fin false ((ws.getD (2 * i + 1) 0 * 2 ^ 32 + ws.getD (2 * i) 0) / 2 ^ 11) (-53))).1))
  | .keep8 r => ofLanes .i8 (ws.map (fun w => b2n (decide ((c.s r).toNat ≤ w))))
  | .keep32 r => ofLanes .i32 (ws.map (fun w => b2n (decide ((c.s r).toNat ≤ w))))
  | .range r => ofLanes .i32 (ws.map (fun w => w * (c.s r).toNat / 2 ^ 32))

/-- The 32 words of 8 blocks (R262). -/
def rngWords (seed purpose a b : Nat) : List Nat :=
  let k := philoxKey seed purpose
  (List.range 8).flatMap (fun i =>
    philox ((a % 2 ^ 32 + i) % 2 ^ 32) (a / 2 ^ 32 % 2 ^ 32) (b % 2 ^ 32) (b / 2 ^ 32 % 2 ^ 32) k.1 k.2)

/-- VRNG (R262). -/
def execVrng (cell purpose vd sa sb : Nat) (conv : RngConv) (s : State) : Res :=
  s.onDev (fun d =>
    let c := d.cell cell
    d.vectorOp cell (regsOk [vd, sa, sb] && purposeOk purpose && c.convOk conv) (fun d =>
      d.setV cell vd (c.convLanes (rngWords d.jobSeed purpose (c.s sa).toNat (c.s sb).toNat) conv)))

end Sys2Proof.Machine
end

