-- ==== Sys2Proof/Machine/Window.lean ====
section
/-! DEFINITION. The geometry of window operators and the window descriptor: output extents, taps, padding,
gathered rows (R198 to R209). -/

namespace Sys2Proof.Machine

/-- One spatial dimension of a window descriptor (R208). -/
structure WinDim where
  size   : Nat
  padLo  : Nat
  padHi  : Nat
  kernel : Nat
  stride : Nat
  dil    : Nat
  inDil  : Nat
  deriving DecidableEq, Repr

/-- A window descriptor (R208); `clean` tells that no reserved field is nonzero. -/
structure WinDesc where
  data       : Nat
  scale      : Nat
  dataPitch  : Nat
  scalePitch : Nat
  dstData    : Nat
  dstScale   : Nat
  format     : Nat
  block      : Nat
  padMode    : Nat
  compressed : Bool
  role       : Nat
  ndims      : Nat
  dims       : List WinDim
  n          : Nat
  cg         : Nat
  groups     : Nat
  group      : Nat
  mFirst     : Nat
  mCount     : Nat
  tFirst     : Nat
  tCount     : Nat
  clean      : Bool
  deriving DecidableEq, Repr

/-- Reads dimension d of a descriptor at `a`. -/
def winDimAt (rd : Nat → Byte) (a : Nat) : WinDim :=
  { size := rdNat rd a 4, padLo := rdNat rd (a + 4) 2, padHi := rdNat rd (a + 6) 2, kernel := rdNat rd (a + 8) 1,
    stride := rdNat rd (a + 9) 1, dil := rdNat rd (a + 10) 1, inDil := rdNat rd (a + 11) 1 }

/-- Reads a window descriptor at `a` (R208). -/
def winDescAt (rd : Nat → Byte) (a : Nat) : WinDesc :=
  let fl := rdNat rd (a + 0x21) 1
  let nd := rdNat rd (a + 0x22) 1
  { data := rdNat rd a 8, scale := rdNat rd (a + 8) 8, dataPitch := rdNat rd (a + 0x10) 4,
    scalePitch := rdNat rd (a + 0x14) 4, dstData := rdNat rd (a + 0x18) 4, dstScale := rdNat rd (a + 0x1C) 4,
    format := rdNat rd (a + 0x20) 1, block := if bitOf fl 0 then 32 else 16, padMode := bitsOf fl 1 2,
    compressed := bitOf fl 3, role := bitsOf fl 4 1, ndims := nd,
    dims := (List.range (min 3 nd)).map (fun k => winDimAt rd (a + 0x50 + 16 * k)),
    n := rdNat rd (a + 0x24) 4, cg := rdNat rd (a + 0x28) 4, groups := rdNat rd (a + 0x2C) 2,
    group := rdNat rd (a + 0x2E) 2, mFirst := rdNat rd (a + 0x30) 8, mCount := rdNat rd (a + 0x38) 4,
    tFirst := rdNat rd (a + 0x3C) 4, tCount := rdNat rd (a + 0x40) 4,
    clean := decide (bitsOf fl 5 3 = 0) && decide (rdNat rd (a + 0x23) 1 = 0) && decide (rdNat rd (a + 0x44) 12 = 0)
      && (List.range (min 3 nd)).all (fun k => decide (rdNat rd (a + 0x5C + 16 * k) 4 = 0)) }

/-- The effective input extent I′ (R202). -/
def WinDim.eff (w : WinDim) : Int := if w.size = 0 then 0 else ((w.size : Int) - 1) * w.inDil + 1

/-- The output extent O, which may be negative (R202). -/
def WinDim.outInt (w : WinDim) : Int :=
  Int.fdiv (w.eff + w.padLo + w.padHi - w.dil * ((w.kernel : Int) - 1) - 1) w.stride + 1

/-- The output extent, 0 when the operator has an empty output (R202). -/
def WinDim.out (w : WinDim) : Nat := w.outInt.toNat

/-- The position that output o reads through tap j (R203). -/
def WinDim.pos (w : WinDim) (o j : Nat) : Int := (o : Int) * w.stride - w.padLo + j * w.dil

/-- The input index read at a position, or none for a zero (R203, R207). -/
def WinDim.readAt (w : WinDim) (mode : Nat) (p : Int) : Option Nat :=
  if 0 ≤ p ∧ p < w.eff then (if p % w.inDil = 0 then some (p / w.inDil).toNat else none)
  else if mode = 0 ∨ w.size = 0 then none
  else if mode = 1 then some (max 0 (min p ((w.size : Int) - 1))).toNat
  else if w.size = 1 then some 0
  else
    let q : Int := 2 * ((w.size : Int) - 1)
    let r := p % q
    some (if r ≤ (w.size : Int) - 1 then r else q - r).toNat

/-- A tap component that reads data for some output; under REPLICATE and REFLECT every one does (R205). -/
def WinDim.live (w : WinDim) (mode j : Nat) : Bool :=
  decide (mode ≠ 0) || (List.range w.out).any (fun o => (w.readAt mode (w.pos o j)).isSome)

/-- Every choice of one element from each list, row-major: the last varies fastest. -/
def rowMajor : List (List Nat) → List (List Nat)
  | [] => [[]]
  | xs :: rest => xs.flatMap (fun x => (rowMajor rest).map (fun r => x :: r))

/-- The live filter taps, row-major (R199, R205). -/
def WinDesc.liveTaps (w : WinDesc) : List (List Nat) :=
  rowMajor (w.dims.map (fun d => (List.range d.kernel).filter (fun j => d.live w.padMode j)))

/-- Channels of a group padded to whole blocks, Cb (R198). -/
def WinDesc.cb (w : WinDesc) : Nat := (w.cg + w.block - 1) / w.block * w.block

/-- Output positions of one group (R199). -/
def WinDesc.positions (w : WinDesc) : Nat := w.n * (w.dims.map (·.out)).prod

/-- The digits of an index in a row-major box. -/
def boxIndex : List Nat → Nat → List Nat
  | [], _ => []
  | s :: rest, m =>
    let inner := rest.prod
    m / inner % max 1 s :: boxIndex rest (m % inner)

/-- The row-major index of digits in a box. -/
def boxFlat (sizes digits : List Nat) : Nat :=
  (sizes.zip digits).foldl (fun acc p => acc * p.1 + p.2) 0

/-- The source row that output position m reads through a tap, or none for a zero block (R199, R203). -/
def WinDesc.sourceRow (w : WinDesc) (m : Nat) (tap : List Nat) : Option Nat :=
  let outs := w.dims.map (·.out)
  let img := m / outs.prod
  let os := boxIndex outs (m % outs.prod)
  let is := (w.dims.zip (os.zip tap)).map (fun p => p.1.readAt w.padMode (p.1.pos p.2.1 p.2.2))
  if is.all (·.isSome) then some (img * (w.dims.map (·.size)).prod + boxFlat (w.dims.map (·.size)) (is.map (·.getD 0)))
  else none

/-- The formats of a window descriptor (R208). -/
def winFormat (f : Nat) : Bool := decide (f ≤ 6) || decide (f = 9) || decide (f = 10)

/-- The ranges that R208 states for every field, and the conditions of R207. -/
def WinDesc.fieldsOk (w : WinDesc) : Bool :=
  w.clean && winFormat w.format && decide (1 ≤ w.ndims) && decide (w.ndims ≤ 3) && decide (1 ≤ w.cg)
    && decide (w.cg ≤ 65536) && decide (1 ≤ w.groups) && decide (w.groups ≤ 4096) && decide (w.group < w.groups)
    && decide (1 ≤ w.mCount) && decide (w.mCount ≤ 65536) && decide (1 ≤ w.tCount) && decide (w.padMode ≠ 3)
    && w.dims.all (fun d => decide (d.size ≤ 16777215) && decide (1 ≤ d.kernel) && decide (1 ≤ d.stride)
        && decide (1 ≤ d.dil) && decide (1 ≤ d.inDil)
        && (decide (w.padMode = 0) || (decide (d.inDil = 1) && decide (1 ≤ d.size))))
    && !(w.compressed && decide (w.role = 1))

/-- Every condition of R209; `channels` is the output channel count. -/
def WinDesc.gatherOk (w : WinDesc) (channels : Nat) : Bool :=
  w.fieldsOk && decide (w.mFirst + w.mCount ≤ (if w.role = 0 then w.positions else channels))
    && decide (w.tFirst + w.tCount ≤ w.liveTaps.length)

/-- One gathered block: where its elements start in its source row (none for a ZERO block), and its scale
entry's place (R199 to R201). -/
structure GatherBlock where
  row   : Option Nat
  elem  : Nat
  deriving DecidableEq, Repr

/-- The blocks of gathered row m, from T_FIRST (R199, R201). -/
def WinDesc.rowBlocks (w : WinDesc) (taps : List (List Nat)) (m : Nat) : List GatherBlock :=
  let per := w.cb / w.block
  let ts := (taps.drop w.tFirst).take w.tCount
  ts.flatMap (fun tap =>
    (List.range per).map (fun b =>
      if w.role = 0 then ⟨w.sourceRow m tap, w.group * w.cb + b * w.block⟩
      else ⟨some m, boxFlat (w.dims.map (·.kernel)) tap * w.cb + b * w.block⟩))

/-- The element codes of a gathered block. -/
def WinDesc.codesOf (rd : Nat → Byte) (w : WinDesc) (g : GatherBlock) : List Nat :=
  match g.row with
  | none => List.replicate w.block 0
  | some r =>
    let base := w.data + r * w.dataPitch
    (List.range w.block).map (fun i =>
      if w.compressed then rdCompressed rd base (fmtBits w.format) (g.elem + i)
      else rdElem rd base (fmtBits w.format) (g.elem + i))

/-- The scale entry of a gathered block at block index b of its row: CODE and ZERO kept, TAG set (R200,
R207). -/
def WinDesc.scaleOf (rd : Nat → Byte) (w : WinDesc) (g : GatherBlock) (b : Nat) : Nat :=
  let e := match g.row with
    | none => 2048
    | some r => rdNat rd (w.scale + r * w.scalePitch + 2 * (g.elem / w.block)) 2
  e % 4096 + b % 16 * 4096

/-- A gathered row: its data bytes and its scale entries. -/
def WinDesc.gatherRow (rd : Nat → Byte) (w : WinDesc) (taps : List (List Nat)) (m : Nat) : List Byte × List Byte :=
  let bs := w.rowBlocks taps m
  let b0 := w.tFirst * (w.cb / w.block)
  (packElems (fmtBits w.format) (bs.flatMap (w.codesOf rd)),
    if isWide w.format then [] else
      (bs.zipIdx).flatMap (fun p => leBytes 2 (w.scaleOf rd p.1 (b0 + p.2))))

/-- Bytes of data and of scale entries of a gathered row. -/
def WinDesc.rowBytes (w : WinDesc) : Nat × Nat :=
  let els := w.tCount * w.cb
  ((els * fmtBits w.format + 7) / 8, if isWide w.format then 0 else els / w.block * 2)

/-- The device ranges that a gather reads: a compressed row is read as its slot. -/
def WinDesc.sources (w : WinDesc) (taps : List (List Nat)) : List (Nat × Nat) :=
  (List.range w.mCount).flatMap (fun k =>
    (w.rowBlocks taps (w.mFirst + k)).flatMap (fun g =>
      match g.row with
      | none => []
      | some r =>
        let base := w.data + r * w.dataPitch
        (if w.compressed then (base, w.dataPitch) else
          (base + g.elem * fmtBits w.format / 8, w.block * fmtBits w.format / 8))
          :: (if isWide w.format then [] else [(w.scale + r * w.scalePitch + 2 * (g.elem / w.block), 2)])))

end Sys2Proof.Machine
end

