-- ==== Sys2Proof/Machine/Dma.lean ====
section
/-! DEFINITION. The cell DMA: DMA, DMAS, their completion and restart (R92 to R94, R198 to R213, R271, R272,
R290, R306 to R308, R548). -/

namespace Sys2Proof.Machine

/-! ### Shapes (R306) -/

/-- The (memory address, cell-store address, length) pieces of an access, in order (R306). -/
def shapePieces (addr st : Nat) : DmaShape → List (Nat × Nat × Nat)
  | .plain n => [(addr, st, n)]
  | .strided u dims => ((strideOffsets dims).zipIdx).map (fun p => (offAddr addr p.1, st + p.2 * u, u))
  | .gathered u is => (is.zipIdx).map (fun p => (addr + p.1 * u, st + p.2 * u, u))

/-- The limits of R306 on an access. -/
def shapeOk : DmaShape → Bool
  | .plain _ => true
  | .strided u dims => decide (8 ≤ u) && decide (u ≤ 4096) && decide (dims.length ≤ 3)
      && dims.all (fun p => decide (1 ≤ p.1) && decide (p.1 ≤ 65536) && decide (-(2 ^ 47 : Int) ≤ p.2) && decide (p.2 < 2 ^ 47))
  | .gathered u is => decide (8 ≤ u) && decide (u ≤ 4096) && decide (is.length ≤ 65536) && is.all (fun i => decide (i < 2 ^ 32))

/-- Bytes of a row of `len` elements of a format. -/
def rowBytesOf (f len : Nat) : Nat := (len * fmtBits f + 7) / 8

/-- The smallest slot of a compressed row (R210). -/
def slotMin (f len : Nat) : Nat := ((len + 63) / 64 * (8 + 8 * fmtBits f) + 63) / 64 * 64

/-- The formats that may be compressed (R211). -/
def packable (f : Nat) : Bool := decide (f ≤ 6) || decide (f = 9) || decide (f = 10)

/-- The limits of R306 on the row slots of a compressed access: at strides or at indices the slot is the unit. -/
def slotsOk (slot : Nat) : SlotShape → Bool
  | .run _ => true
  | .strided dims => shapeOk (.strided slot dims)
  | .gathered is => shapeOk (.gathered slot is)

/-- The pieces that a transposition reads and writes: unit (i, j) goes to unit (j, i) (R306). -/
def transposePieces (src dst unit rows cols sp dp : Nat) : List (Nat × Nat) :=
  (List.range rows).flatMap (fun i => (List.range cols).map (fun j => (src + i * sp + j * unit, dst + j * dp + i * unit)))

/-- Some unit of a transposition's source shares a byte with some unit of its destination. -/
def transposeMeets (ps : List (Nat × Nat)) (unit : Nat) : Bool :=
  ps.any (fun p => ps.any (fun q => overlaps p.1 unit q.2 unit))

/-- What a DMA must satisfy to be a defined instruction (R209, R210, R213, R306). -/
def dmaLegal (rd : Nat → Byte) (remote : Bool) : DmaOp → Bool
  | .toStore _ _ sh => shapeOk sh
  | .fromStore _ _ sh => shapeOk sh
  | .compressOut _ _ len f l slot rows => !remote && packable f && decide (1 ≤ l) && decide (len = slotCount rows * rowBytesOf f l)
      && decide (slotMin f l ≤ slot) && slotsOk slot rows
  | .expandIn _ _ f l slot rows => !remote && packable f && decide (1 ≤ l) && decide (slotMin f l ≤ slot) && slotsOk slot rows
  | .transpose s t u r c sp dp => !remote && (decide (u = 16) || decide (u = 32) || decide (u = 64)) && decide (1 ≤ r)
      && decide (r ≤ 65536) && decide (1 ≤ c) && decide (c ≤ 65536) && decide (sp % u = 0) && decide (dp % u = 0)
      && !transposeMeets (transposePieces s t u r c sp dp) u
  | .gatherWindow desc ch => !remote && (winDescAt rd desc).gatherOk ch
  | .staked _ a w n => (decide (w = 32) || decide (w = 64) || decide (w = 128)) && decide (a % (w / 8) = 0) && decide (1 ≤ n)

/-- The memory ranges that a DMA reads. -/
def dmaSources (rd : Nat → Byte) : DmaOp → List (Nat × Nat)
  | .toStore a st sh => (shapePieces a st sh).map (fun p => (p.1, p.2.2))
  | .expandIn a _ _ _ slot rows => (slotRows a slot rows).map (fun p => (p.1, slot))
  | .transpose s t u r c sp dp => (transposePieces s t u r c sp dp).map (fun p => (p.1, u))
  | .gatherWindow desc _ => let w := winDescAt rd desc; w.sources w.liveTaps
  | _ => []

/-- The memory ranges that a DMA writes or adds into. -/
def dmaTargets : DmaOp → List (Nat × Nat)
  | .fromStore st a sh => (shapePieces a st sh).map (fun p => (p.1, p.2.2))
  | .compressOut _ a _ _ _ slot rows => (slotRows a slot rows).map (fun p => (p.1, slot))
  | .transpose s t u r c sp dp => (transposePieces s t u r c sp dp).map (fun p => (p.2, u))
  | .staked _ a w n => [(a, n * (w / 8))]
  | _ => []

/-- The cell's tile writes nothing into memory: it is poisoned or its phase is in MEASURE (R87, R185). -/
def Dev.suppressed (d : Dev) (cell : Nat) : Bool := (d.cell cell).poisoned || decide (d.runKind cell = .measure)

/-- Occupies a channel. -/
def Dev.startDma (d : Dev) (cell ch : Nat) (op : DmaOp) (remote : Option Nat) : Dev :=
  let c := d.cell cell
  d.setCell cell { c with dma := mput ch ⟨op, false, remote, c.order⟩ c.dma, order := c.order + 1 }

/-! ### Global accesses (R92, R291, R338, R340) -/

/-- Cuts a piece into packets of at most 4,096 bytes, in ascending order (R338). -/
def packetPieces : Nat → Nat × Nat × Nat → List (Nat × Nat × Nat)
  | 0, _ => []
  | fuel + 1, (a, st, n) =>
    if n = 0 then [] else (a, st, min n 4096) :: packetPieces fuel (a + 4096, st + 4096, n - 4096)

/-- The packets of a global access: each with its cell-store address. -/
def Dev.globalPackets (d : Dev) (cell : Nat) (op : DmaOp) : List (Nat × Packet) :=
  let st := (d.cell cell).store
  let cut (ps : List (Nat × Nat × Nat)) : List (Nat × Nat × Nat) := ps.flatMap (fun p => packetPieces (p.2.2 / 4096 + 1) p)
  match op with
  | .toStore a s sh => (cut (shapePieces a s sh)).map (fun p => (p.2.1, { packetOf 2 with addr := p.1 % 2 ^ 48, len := p.2.2 }))
  | .fromStore s a sh => (cut (shapePieces a s sh)).map (fun p =>
      (p.2.1, { packetOf 1 with addr := p.1 % 2 ^ 48, len := p.2.2, payload := bytesAt st p.2.1 p.2.2 }))
  | .staked s a w n => (cut [(a, s, n * (w / 8))]).map (fun p =>
      (p.2.1, { packetOf 6 with addr := p.1 % 2 ^ 48, len := p.2.2, payload := bytesAt st p.2.1 p.2.2,
                                attr := if w = 32 then 0 else if w = 64 then 1 else 2 }))
  | _ => []

/-- The device-number base of an operation's global address. -/
def dmaPeer : DmaOp → Nat
  | .toStore a _ _ => a / 2 ^ 48
  | .fromStore _ a _ => a / 2 ^ 48
  | .staked _ a _ _ => a / 2 ^ 48
  | _ => 0

/-- A DMA that writes outside the cell store. -/
def dmaWritesOut : DmaOp → Bool
  | .toStore _ _ _ => false | .expandIn _ _ _ _ _ _ => false | .gatherWindow _ _ => false
  | _ => true

/-- A global access through the flow of the cell's plot; with no valid flow it completes with NO_FLOW and the sequencer
traps with WINDOW (R92, R334, R336). -/
def Dev.dmaGlobal (d : Dev) (cell ch : Nat) (op : DmaOp) : Dev :=
  match (d.cell cell).plot.bind (fun k => d.flowOf (dmaPeer op) 0 k) with
  | none =>
    let tag := d.fab.nextTag % 2 ^ 32
    Dev.trap { d with fab := { d.fab with nextTag := tag + 1, opCodes := d.fab.opCodes ++ [(tag, 4)] } } cell 6 0
  | some f =>
    let ps := if dmaWritesOut op && d.suppressed cell then [] else d.globalPackets cell op
    let d := d.startDma cell ch op (some ps.length)
    ps.foldl (fun d p => d.issueOp f cell ch p.1 p.2) d

/-- DMA (R90 to R92, R97, R185, R198 to R213, R290, R306, R307): checks the operation and starts it on its
channel; a busy channel lets nothing issue. The data moves at DMA_COMPLETE. -/
def execDma (cell channel : Nat) (remote : Bool) (op : DmaOp) (s : State) : Res :=
  s.onDev (fun d =>
    let c := d.cell cell
    if (mfind channel c.dma).isSome then d
    else
      d.launch cell (dmaReads op) (dmaWrites c.rd op) (fun d =>
        if decide (8 ≤ channel) || !dmaLegal c.rd remote op then d.illegal cell
        else if remote then d.dmaGlobal cell channel op
        else
          match (dmaSources c.rd op ++ dmaTargets op).find? (fun r => !d.localOk r.1 r.2) with
          | some r => d.trap cell 6 r.1
          | none => d.startDma cell channel op none))

/-! ### Staked adds of a tile (R94, R271, R272) -/

/-- Adds to the open set of a cell. -/
def Dev.holdAdds (d : Dev) (cell : Nat) (as : List SetAdd) : Dev :=
  let c := d.cell cell
  if d.suppressed cell then d else d.setCell cell { c with adds := c.adds ++ as }

/-- The staging of the logic dies with the spill area can hold every open set (R309). -/
def Dev.stagingFits (d : Dev) : Bool := decide (d.spillMib ≤ d.getF R.MEM_SPILL_SIZE_MIB 0)

/-- A staked add that finds staging and spill area full waits: nothing changes but that its cell waits (R309, R310). -/
def Dev.ifFits (d : Dev) (cell : Nat) (d' : Dev) : Dev :=
  if d'.stagingFits then d'.setCell cell { d'.cell cell with stageWait := false }
  else d.setCell cell { d.cell cell with stageWait := true }

/-- The addend of a gradient lane value for a window top W: −2^127 makes A non-finite (R272, R308). -/
def gradAddend (W : Int) (v : Num) : Int :=
  match v with
  | .fin _ m _ =>
    if m = 0 then 0
    else if v.log2 < W - 24 then shiftFloor v.sig (v.exp - (W - 127))
    else -(2 ^ 127 : Int)
  | _ => -(2 ^ 127 : Int)

/-- The first element of list entry g in the gradient sequence (R270). -/
def GradPlan.offset (p : GradPlan) (g : Nat) : Nat := ((p.grads.take g).map (·.count)).sum

/-- The window top W of list entry g in the open step (R271). -/
def Dev.windowTop (d : Dev) (g : Nat) : Int := mget 0 d.train.windowTop g

/-- DMAS (R91, R92, R94, R271, R272, R308): `count` lanes from v-register `vreg` are added into elements
`first` on of list entry `entry`, as part of the open set. -/
def execDmas (cell channel entry first vreg : Nat) (t : LaneType) (count : Nat) (s : State) : Res :=
  s.onDev (fun d =>
    let c := d.cell cell
    if (mfind channel c.dma).isSome || c.boardFull || !d.canIssue cell then d
    else d.ifFits cell (d.instr cell (fun d =>
      match d.train.plan with
      | none => d.illegal cell
      | some p =>
        let regs := (count + laneCount t - 1) / laneCount t
        let size := (p.grads[entry]?).elim 0 (·.count)
        if decide (8 ≤ channel) || isInt t || decide (count = 0) || decide (32 < vreg + regs) || decide (size < first + count) then
          d.illegal cell
        else
          let lanes := ((List.range regs).flatMap (fun r => lanesOf t (c.v (vreg + r)))).take count
          let base := p.acc + 16 * (p.offset entry + first)
          let adds := (lanes.zipIdx).map (fun l : Nat × Nat =>
            (⟨base + 16 * l.2, 128, gradAddend (d.windowTop entry) (laneVal t l.1)⟩ : SetAdd))
          (d.holdAdds cell adds).startDma cell channel (.staked 0 0 128 0) none)))

/-! ### Completion (R92, R93, R548) -/

/-- Device memory as a reader. -/
def Dev.memRd (d : Dev) : Nat → Byte := fun a => byteAt d.mem.bytes a

/-- Reads whole rows of a compressed plane into the cell store (R210 to R212, R307). -/
def Dev.expandRows (d : Dev) (cell st f rowLen : Nat) (slots : List (Nat × Nat)) : Dev :=
  slots.foldl (fun d r =>
    let codes := (List.range rowLen).map (fun k => rdCompressed d.memRd r.1 (fmtBits f) k)
    d.storeBytes cell (st + r.2 * rowBytesOf f rowLen) (packElems (fmtBits f) codes)) d

/-- Writes whole rows compressed (R210 to R213, R307). -/
def Dev.compressRows (d : Dev) (cell st f rowLen : Nat) (slots : List (Nat × Nat)) : Dev :=
  slots.foldl (fun d r =>
    let codes := (List.range rowLen).map (fun k => rdElem (d.cell cell).rd (st + r.2 * rowBytesOf f rowLen) (fmtBits f) k)
    d.write r.1 (compressRow f rowLen codes)) d

/-- Moves the data of a local DMA. -/
def Dev.moveDma (d : Dev) (cell : Nat) (op : DmaOp) : Dev :=
  let c := d.cell cell
  if dmaWritesOut op && d.suppressed cell then d
  else match op with
  | .toStore a st sh => (shapePieces a st sh).foldl (fun d p => d.storeBytes cell p.2.1 (d.bytes p.1 p.2.2)) d
  | .fromStore st a sh => (shapePieces a st sh).foldl (fun d p => d.write p.1 (bytesAt c.store p.2.1 p.2.2)) d
  | .expandIn a st f l slot rows => d.expandRows cell st f l (slotRows a slot rows)
  | .compressOut st a _ f l slot rows => d.compressRows cell st f l (slotRows a slot rows)
  | .transpose s t u r k sp dp =>
    (transposePieces s t u r k sp dp).foldl (fun d p => d.write p.2 (d.bytes p.1 u)) d
  | .gatherWindow desc _ =>
    let w := winDescAt c.rd desc
    let taps := w.liveTaps
    let rows := (List.range w.mCount).map (fun k => w.gatherRow d.memRd taps (w.mFirst + k))
    (rows.zipIdx).foldl (fun d r =>
      (d.storeBytes cell (w.dstData + r.2 * w.rowBytes.1) r.1.1).storeBytes cell (w.dstScale + r.2 * w.rowBytes.2) r.1.2) d
  | .staked st a w n =>
    d.holdAdds cell ((List.range n).map (fun i => ⟨a + i * (w / 8), w, (rdNat c.rd (st + i * (w / 8)) (w / 8) : Nat)⟩))

/-- A channel's operation is over (R96). -/
def Dev.endDma (d : Dev) (cell ch : Nat) : Dev :=
  let c := d.cell cell
  ((d.setCell cell { c with dma := mdel ch c.dma }).event cell (8 + ch) 1).wake cell

/-- An operation reaches a line only behind the earlier ones of its cell that touch the same bytes of device memory, one
of the two writing (R294). -/
def Cell.mustFollow (c : Cell) (sl : DmaSlot) : Bool :=
  let src := dmaSources c.rd sl.op
  let dst := dmaTargets sl.op
  c.dma.any (fun e => decide (e.2.order < sl.order) && e.2.remote.isNone
    && (clash dst (dmaSources c.rd e.2.op ++ dmaTargets e.2.op) || clash src (dmaTargets e.2.op)))

/-- The word of a valid line that a read finds with two wrong bits (R296). -/
def Dev.spoil (d : Dev) (a : Nat) : Dev :=
  if d.lineValid a then { d with mem := { d.mem with flips := mput (a / 8) 2 d.mem.flips } } else d

/-- A staked operation of a DMA channel holds its adds in the open set. -/
def isStaked : DmaOp → Bool
  | .staked _ _ _ _ => true
  | _ => false

/-- DMA_COMPLETE (R92, R93, R96, R294 to R296, R548): the data moves and the channel is free; a read that meets an
uncorrectable word halts the channel. A global access completes once all its packets have. -/
def execDmaComplete (cell channel : Nat) (uncorr : Option Nat) (s : State) : Res :=
  s.onDev (fun d =>
    let c := d.cell cell
    match mfind channel c.dma with
    | none => d
    | some sl =>
      if sl.halted then d
      else match sl.remote with
      | some n => if n = 0 then d.endDma cell channel else d
      | none =>
        if c.mustFollow sl then d
        else
          let src := dmaSources c.rd sl.op
          let found := uncorr.filter (fun a => src.any (fun r => overlaps (a / 8 * 8) 8 r.1 r.2))
          let d := found.elim d d.spoil
          let read := src.foldl (fun d r => d.noteRead r.1 r.2) d
          match src.findSome? (fun r => d.poisonIn r.1 r.2) with
          | some a => read.haltChannel cell channel a
          | none =>
            let d' := (read.moveDma cell sl.op).endDma cell channel
            if isStaked sl.op then d.ifFits cell d' else d')

/-- Restarts a halted operation from its beginning (R548). -/
def Dev.restartDma (d : Dev) (cell ch : Nat) : Dev :=
  let c := d.cell cell
  match mfind ch c.dma with
  | none => d
  | some sl =>
    if !sl.halted then d
    else match sl.remote with
      | none => d.setCell cell { c with dma := mput ch { sl with halted := false } c.dma }
      | some _ =>
        let d := d.setCell cell { c with dma := mdel ch c.dma }
        d.dmaGlobal cell ch sl.op

/-- DMA_RESTART (R548): the MC has rewritten the word while the step continues. -/
def execDmaRestart (cell channel : Nat) (s : State) : Res := s.onDev (fun d => d.restartDma cell channel)

end Sys2Proof.Machine
end

