-- ==== Sys2Proof/Machine/Events.lean ====
section
/-! DEFINITION. The numeric event ring, the exception records and the NUM page's own commands
(R233 to R239, R251 to R253). -/

namespace Sys2Proof.Machine

/-- A ring entry but for SEQ (R239). -/
structure Event where
  typ    : Nat
  source : Nat
  plot   : Nat
  flags  : Nat
  step   : Nat
  phase  : Nat
  tile   : Nat
  entry  : Nat
  cell   : Nat
  column : Nat
  format : Nat
  slot   : Nat
  block  : Nat
  count  : Nat
  layer  : Nat
  value  : Nat
  aux    : Nat
  deriving DecidableEq, Repr

/-- An entry that names nothing: the "none" code of every field (R239). -/
def Event.blank (typ source step : Nat) : Event :=
  { typ := typ, source := source, plot := 0xFF, flags := 0, step := step, phase := 0xFFFFFFFF, tile := 0,
    entry := 0xFFFFFFFF, cell := 0xFFFF, column := 0xFF, format := 0xFF, slot := 0xFFFF,
    block := 0xFFFFFFFF, count := 0, layer := 0, value := 0, aux := 0 }

/-- The 64 bytes of an entry posted at SEQ (R239). -/
def Event.bytes (e : Event) (seq : Nat) : List Byte :=
  leBytes 1 e.typ ++ leBytes 1 e.source ++ leBytes 1 e.plot ++ leBytes 1 e.flags ++ leBytes 4 seq
    ++ leBytes 8 e.step ++ leBytes 4 e.phase ++ leBytes 4 e.tile ++ leBytes 4 e.entry ++ leBytes 2 e.cell
    ++ leBytes 1 e.column ++ leBytes 1 e.format ++ leBytes 2 e.slot ++ leBytes 2 0 ++ leBytes 4 e.block
    ++ leBytes 4 e.count ++ leBytes 4 e.layer ++ leBytes 8 e.value ++ leBytes 8 e.aux

/-- The event ring's base (R237). -/
def Dev.ringBase (d : Dev) : Nat :=
  d.getF R.NUM_RING_BASE_LO_ADDR_LO 0 * 64 + d.getF R.NUM_RING_BASE_HI_ADDR_HI 0 * 2 ^ 32

/-- Entries that the event ring holds now: PROD − CONS modulo 2^32 (R237). -/
def Dev.ringHeld (d : Dev) : Nat :=
  (2 ^ 32 + d.getF R.NUM_RING_PROD_PROD 0 - d.getF R.NUM_RING_CONS_CONS 0) % 2 ^ 32

/-- The event ring has space (R237). -/
def Dev.ringSpace (d : Dev) : Bool := decide (d.ringHeld < 2 ^ d.getF R.NUM_RING_CFG_LOG2_SIZE 0)

/-- A replay is under way (R397). -/
def Dev.replaying (d : Dev) : Bool := d.sow.replayUntil.isSome

/-- Writes one entry as a line, with REPLAY during a replay, advances PROD and raises EVENT (R237, R251,
R397). -/
def Dev.putEvent (d : Dev) (e : Event) : Dev :=
  let e := { e with flags := e.flags ||| b2n d.replaying }
  let seq := d.getF R.NUM_RING_PROD_PROD 0
  let k := d.getF R.NUM_RING_CFG_LOG2_SIZE 0
  let d := d.write (d.ringBase + 64 * (seq % 2 ^ k)) (e.bytes seq)
  (d.setF R.NUM_RING_PROD_PROD 0 (seq + 1)).irq NUM 0 21

/-- Events of a type are posted (R238, R252). -/
def Dev.typeOn (d : Dev) (t : Nat) : Bool := bitOf (d.actF R.NUM_RING_CFG_TYPE_EN 0) (t - 1)

/-- Posts the RING_OVERFLOW entry that is due when there is space and its type is enabled (R237, R238). -/
def Dev.putOverflow (d : Dev) : Dev :=
  if d.numx.droppedSince ≠ 0 ∧ d.ringSpace = true ∧ d.typeOn 8 = true then
    let e := { Event.blank 8 5 d.step with count := d.numx.droppedSince }
    { d with numx := { d.numx with droppedSince := 0 } }.putEvent e
  else d

/-- The NUM counter that an event of a type advances (R251). -/
def eventCounter : Nat → Option Nat
  | 1 => some 0 | 2 => some 1 | 3 => some 2 | 4 => some 3 | 5 => some 6 | 6 => some 6
  | _ => none

/-- Posts an event: counted always; into the ring when the ring and the type are enabled; dropped when
the ring is full (R237, R238, R251). -/
def Dev.postEvent (d : Dev) (e : Event) : Dev :=
  let d := match eventCounter e.typ with
    | some k => d.bump NUM 0 k 1
    | none => d
  if d.getF R.NUM_RING_CFG_EN 0 = 1 ∧ d.typeOn e.typ = true then
    let d := d.putOverflow
    if d.ringSpace then d.putEvent e
    else
      let d := { d with numx := { d.numx with droppedSince := d.numx.droppedSince + 1 } }
      (d.satAdd R.NUM_RING_DROPPED_DROPPED 0 1).setErr NUM 0 16
  else d

/-- The ring stands empty at index 0, as at job start and after a restore (R238). -/
def Dev.clearRing (d : Dev) : Dev :=
  let d := ((d.setF R.NUM_RING_PROD_PROD 0 0).setF R.NUM_RING_CONS_CONS 0 0).setAct R.NUM_RING_CONS_CONS 0 0
  { d with numx := { d.numx with droppedSince := 0 } }

/-- NUM_RING_CONS (R237, R252): a consumer index within the ring frees space, and a RING_OVERFLOW entry
follows when entries were dropped; another value is ignored. -/
def execNumRingCons (w : Writer) (v : Nat) (s : State) : Res :=
  s.byWriter w (fun d =>
    let held := (2 ^ 32 + d.getF R.NUM_RING_PROD_PROD 0 - v % 2 ^ 32) % 2 ^ 32
    if 2 ^ d.getF R.NUM_RING_CFG_LOG2_SIZE 0 < held then d
    else
      let d := (d.setF R.NUM_RING_CONS_CONS 0 v).setAct R.NUM_RING_CONS_CONS 0 v
      if d.getF R.NUM_RING_CFG_EN 0 = 1 then d.putOverflow else d)

/-- Latches a record slot into NUM_XREC_0 to NUM_XREC_COUNT (R253). -/
def Dev.latchXrec (d : Dev) (cell kind : Nat) : Dev :=
  let r := if cell < 1152 then mfind (kind % 4) (d.cell cell).xrec else none
  let x := r.getD ⟨0, 0, 0, 0, 0, 0, 0, 0⟩
  let d := (d.setF R.NUM_XREC_SEL_CELL 0 cell).setF R.NUM_XREC_SEL_KIND 0 kind
  let d := (d.setAct R.NUM_XREC_SEL_CELL 0 cell).setAct R.NUM_XREC_SEL_KIND 0 kind
  let d := (d.setF R.NUM_XREC_0_VALID 0 (b2n r.isSome)).setF R.NUM_XREC_0_SLOT 0 x.slot
  let d := (d.setF R.NUM_XREC_0_COLUMN 0 x.column).setF R.NUM_XREC_0_PLOT 0 x.plot
  let d := (d.setF R.NUM_XREC_STEP_STEP 0 x.step).setF R.NUM_XREC_PHASE_PHASE 0 x.phase
  let d := (d.setF R.NUM_XREC_TILE_TILE 0 x.tile).setF R.NUM_XREC_BLOCK_BLOCK 0 x.block
  d.setF R.NUM_XREC_COUNT_COUNT 0 x.count

/-- NUM_XREC_SEL (R253): latches the selected slot. -/
def execNumXrecSel (w : Writer) (cell kind : Nat) (s : State) : Res :=
  s.byWriter w (fun d => d.latchXrec cell kind)

/-- NUM_XREC_CLEAR (R253): latches the selected slot, then clears it. -/
def execNumXrecClear (w : Writer) (cell kind : Nat) (s : State) : Res :=
  s.byWriter w (fun d =>
    let d := d.latchXrec cell kind
    if cell < 1152 then
      let c := d.cell cell
      d.setCell cell { c with xrec := mdel (kind % 4) c.xrec }
    else d)

end Sys2Proof.Machine
end

