-- ==== Sys2Proof/Machine/Tiles.lean ====
section
/-! DEFINITION. Tiles, phases and waiting: TGET, TDONE, TBAR, WAIT, FENCE, HALT; MEASURE_COMPLETE; staked
sets and the staging of the logic dies (R94, R96, R99, R101, R175, R177, R185, R186, R204, R235, R236, R242,
R309, R310). -/

namespace Sys2Proof.Machine

/-! ### Summaries as events (R235, R239) -/

/-- Posts a tile summary of a cell. -/
def Dev.postSummary (d : Dev) (cell : Nat) (s : Summary) : Dev :=
  d.postEvent { Event.blank s.kind (if s.vector then 1 else 0) d.step with
    plot := s.tile.plot, flags := if s.t3 then 2 else 0, phase := s.tile.phase, tile := s.tile.index,
    entry := s.entry.getD 0xFFFFFFFF, cell := cell, column := s.column, format := s.format,
    slot := if s.vector then 0xFFFF else s.slot, block := s.block, count := s.count, layer := d.layerOf s.entry }

/-- The summary belongs to no tile (R235). -/
def Summary.loose (s : Summary) : Bool := decide (s.tile.plot = 0xFF)

/-- Posts the summaries of a phase that every cell holds, with the loose ones of `cells`, in cell order. -/
def Dev.postPhase (d : Dev) (k ph : Nat) : Dev :=
  d.cells.foldl (fun d e =>
    let mine := e.2.phaseSums.filter (fun s => s.tile.inPhase k ph)
    let c := d.cell e.1
    let d := d.setCell e.1 { c with phaseSums := c.phaseSums.filter (fun s => !s.tile.inPhase k ph) }
    mine.foldl (fun d s => d.postSummary e.1 s) d) d

/-- Posts a cell's summaries that belong to no tile, at its TBAR or HALT (R235). -/
def Dev.postLoose (d : Dev) (cell : Nat) : Dev :=
  let c := d.cell cell
  (c.sums.filter (·.loose)).foldl (fun d s => d.postSummary cell s)
    (d.setCell cell { c with sums := c.sums.filter (fun s => !s.loose), lostSums := c.lostSums.filter (fun x => decide (x.2.plot ≠ 0xFF)) })

/-! ### Replay of just-in-time decisions (R186) -/

/-- The just-in-time decisions recorded for a phase. -/
def jitOf (ds : List Decision) (k ph : Nat) : List Decision :=
  ds.filter (fun x => match x with
    | .jit 0 k' ph' _ _ _ => decide (k' = k) && decide (ph' = ph)
    | _ => false)

/-- The first tile of a phase in a replay: recorded JIT_SIGMAs are set and the phase runs in FINAL (R186). -/
def Dev.openPhase (d : Dev) (k ph : Nat) : Dev :=
  match mfind ph (d.plot k).phases, d.recorded with
  | none, some ds =>
    let js := jitOf ds k ph
    if js.isEmpty then d
    else
      let d := js.foldl (fun d x => match x with
        | .jit _ _ _ e sg _ => d.setJit e d.step sg
        | _ => d) d
      let d := { d with ctl := { d.ctl with decisions := d.ctl.decisions ++ js } }
      d.setPhase k ph { PhaseRun.start with kind := .final }
  | _, _ => d

/-- The entries of a list that take the just-in-time path in the phase that opens (R177). -/
def Dev.warmAmong (d : Dev) (es : List Nat) : List Nat :=
  es.filter (fun i => decide (i < d.sstCount) && d.warmEntry i && !bitOf (d.statFlags i d.step) 0)

/-- The first tile of a phase that writes an entry under R177: the phase begins in MEASURE with MARK set on that entry
(R185). `writes` names the entries that the phase writes. -/
def Dev.openWarm (d : Dev) (k ph tiles : Nat) (writes : List Nat) : Dev :=
  let es := d.warmAmong writes
  if (mfind ph (d.plot k).phases).isSome || es.isEmpty || decide (tiles = 0) then d
  else
    let d := d.setPhase k ph { PhaseRun.start with entries := writes.foldl (fun a i => insertSet i a) [] }
    es.foldl (fun d i => d.markEntry ⟨k, ph, 0⟩ i) (d.beginMeasure k ph none)

/-! ### TGET, TDONE, TBAR (R99) -/

/-- The next tile of a phase: a returned one first, in ascending order, else an untaken one (R99, R101). -/
def PhaseRun.take (r : PhaseRun) : Option (Nat × PhaseRun) :=
  match r.returned with
  | i :: rest => some (i, { r with returned := rest })
  | [] => if r.next < r.tiles then some (r.next, { r with next := r.next + 1 }) else none

/-- A cell that waits at TBAR, or has halted in a run that goes on, may take a returned tile of its phase: it goes on
behind its last TGET (R30, R98, R99, R101, R185). Log entry 18. -/
def Dev.canGet (d : Dev) (cell : Nat) : Bool :=
  let c := d.cell cell
  d.canIssue cell || (decide (cell < 1152) && decide (d.blk CEL cell = stRunning)
    && c.plot.elim false (fun k =>
      let r := d.plot k
      (decide (c.waiting = some .barrier) || (r.active && r.halted.contains cell)) && !(r.phase c.phase).returned.isEmpty))

/-- A cell that waits or has halted goes back to its last TGET, and counts no more among the halted ones. -/
def Dev.resumeGet (d : Dev) (cell : Nat) : Dev :=
  match (d.cell cell).plot with
  | some k =>
    let r := d.plot k
    (d.setPlot k { r with halted := r.halted.erase cell }).backToGet cell
  | none => d

/-- TGET takes tile `i` for a cell. -/
def Dev.takeTile (d : Dev) (cell rd k i : Nat) : Dev :=
  let c := d.cell cell
  let d := d.setCell cell { (c.setS rd (BitVec.ofNat 64 i)) with tiles := c.tiles ++ [⟨k, c.phase, i⟩] }
  (d.setF R.CEL_TILE_TILE cell i).setF R.CEL_TILE_STATUS_HOLDING cell 1

/-- The body of TGET on a cell of plot k. -/
def Dev.tget (d : Dev) (cell rd tiles k : Nat) (writes : List Nat) : Dev :=
  let ph := (d.cell cell).phase
  let d := (d.openPhase k ph).openWarm k ph tiles writes
  let r := (d.plot k).phase ph
  let r := if r.tiles = 0 then { r with tiles := tiles } else r
  match r.take with
  | some (i, r') => (d.setPhase k ph r').takeTile cell rd k i
  | none =>
    let c := d.cell cell
    (d.setPhase k ph r).setCell cell (c.setS rd Config.tileEnd)

/-- TGET (R96, R99): the next untaken tile index of the cell's phase, or END; the first one of a phase that writes an entry
under R177 opens it in MEASURE (R185). -/
def execTget (cell rd : Nat) (a : TileArgs) (s : State) : Res :=
  s.onDev (fun d =>
    if !d.canGet cell then d
    else
      let d := if d.canIssue cell then d else d.resumeGet cell
      d.instr cell (fun d =>
        match (d.cell cell).plot with
        | none => d.illegal cell
        | some k =>
          if !regsOk [rd] then d.illegal cell
          else
            let c := d.cell cell
            (d.setCell cell { c with getPc := d.getF R.CEL_SEQ_STATUS_PC cell, getStack := c.stack }).tget cell rd a.tiles k a.writes))

/-- Every tile of the phase has passed TDONE and MEASURE is not running (R99, R185). -/
def PhaseRun.over (r : PhaseRun) : Bool := decide (r.kind ≠ .measure) && decide (r.done.length = r.tiles)

/-- A cell's barrier completes: its loose summaries are posted and it goes on in the next phase. -/
def Dev.passBarrier (d : Dev) (cell : Nat) : Dev :=
  let d := d.postLoose cell
  let c := d.cell cell
  ((d.setCell cell { c with waiting := none, phase := c.phase + 1 }).setF R.CEL_SEQ_STATUS_RUN cell 1).advance cell 1

/-- Cells of a plot that wait at the barrier of a phase. -/
def Dev.atBarrier (d : Dev) (k ph : Nat) : List Nat :=
  (d.cells.filter (fun e => decide (e.2.waiting = some .barrier) && decide (e.2.plot = some k) && decide (e.2.phase = ph))).map (·.1)

/-- TBAR completes once its phase is over (R99, R185, R235). -/
def Dev.checkBarrier (d : Dev) (k ph : Nat) : Dev :=
  let cs := d.atBarrier k ph
  if ((d.plot k).phase ph).over && !cs.isEmpty then cs.foldl (fun d c => d.passBarrier c) (d.postPhase k ph) else d

/-- TBAR (R96, R99). -/
def execTbar (cell : Nat) (s : State) : Res :=
  s.onDev (fun d =>
    if !d.canIssue cell then d
    else
      let c := d.cell cell
      match c.plot with
      | none => d.illegal cell
      | some k =>
        ((d.setCell cell { c with waiting := some .barrier }).setF R.CEL_SEQ_STATUS_RUN cell 2).checkBarrier k c.phase)

/-- The sieve buffer's slot size (R252). -/
def Dev.sieveSlotSize (d : Dev) : Nat := 2 ^ max 0x10 (min 0x1A (d.getF R.NUM_SIEVE_BUF_CFG_LOG2_SLOT 0))

/-- Free bytes (log entry 9). -/
def freeBytes (start n : Nat) : List Byte := (List.range n).map (fun i => Config.freeByte (start + i))

/-- The sieve buffer's base (R242, R252). -/
def Dev.sieveBase (d : Dev) : Nat :=
  d.getF R.NUM_SIEVE_BUF_LO_ADDR_LO 0 * 2 ^ 16 + d.getF R.NUM_SIEVE_BUF_HI_ADDR_HI 0 * 2 ^ 32

/-- Copies a sampled tile into the lowest free slot, or drops the sample (R242). The manual gives the slot
no layout: its bytes are free values. -/
def Dev.sampleTile (d : Dev) (cell : Nat) (t : Tile) (cs : List SieveCopy) : Dev :=
  let n := copyBytes cs
  let size := d.sieveSlotSize
  match (List.range (d.getF R.NUM_SIEVE_BUF_CFG_SLOTS 0)).find? (fun i => (mfind i d.numx.sieve).isNone) with
  | some i =>
    if size < n then d.bump NUM 0 5 1
    else
      let bs := freeBytes d.fresh n
      let sl : SieveSlot := { tile := t, cell := cell, step := d.step, copies := cs, host := none }
      let d := { d with fresh := d.fresh + n, numx := { d.numx with sieve := mput i sl d.numx.sieve } }
      (d.write (d.sieveBase + i * size) bs).bump NUM 0 4 1
  | none => d.bump NUM 0 5 1

/-- The tile leaves the cell: CEL_TILE shows the most recent one still held (R116). -/
def Dev.leaveTile (d : Dev) (cell : Nat) : Dev :=
  let c := d.cell cell
  let rest := c.tiles.tail
  let d := d.setCell cell { c with tiles := rest, adds := [], stats := [], hits := [], samples := [], used := [],
                                   poisoned := false, sums := c.sums.filter (·.loose),
                                   lostSums := c.lostSums.filter (fun x => decide (x.2.plot = 0xFF)) }
  match rest.getLast? with
  | some t => d.setF R.CEL_TILE_TILE cell t.index
  | none => d.setF R.CEL_TILE_STATUS_HOLDING cell 0

/-- What a completed tile leaves behind with full effect: its set, its statistics, its summaries, its
sample (R94, R175, R235, R242). -/
def Dev.tileEffects (d : Dev) (cell : Nat) (t : Tile) : Dev :=
  let c := d.cell cell
  let set : ClosedSet := ⟨cell, t.index, c.adds⟩
  let d := { d with sets := if c.adds.isEmpty then d.sets else d.sets ++ [set] }
  let d := c.stats.foldl (fun d u => d.applyStat d.step false u) d
  let d := d.setCell cell { d.cell cell with phaseSums := c.phaseSums ++ c.sums.filter (fun (x : Summary) => !x.loose) }
  if c.samples.isEmpty then d else d.sampleTile cell t c.samples

/-- TDONE of tile t (R94, R99, R175, R185, R235, R242). A poisoned tile completes nothing (R87). -/
def Dev.tdone (d : Dev) (cell : Nat) (t : Tile) : Dev :=
  let c := d.cell cell
  if c.poisoned then d.leaveTile cell
  else
    let r := (d.plot t.plot).phase t.phase
    let d := if r.kind = .measure then c.stats.foldl (fun d u => d.applyStat d.step true u) d else d.tileEffects cell t
    let r := (d.plot t.plot).phase t.phase
    let d := d.setPhase t.plot t.phase { r with done := insertSet t.index r.done }
    ((d.leaveTile cell).bump CEL cell 6 1).checkBarrier t.plot t.phase

/-- TDONE (R94, R96, R99, R548): completes the earliest tile held, once the cell's DMA is idle; with no tile
it only goes on. Log entry 18. -/
def execTdone (cell : Nat) (s : State) : Res :=
  s.onDev (fun d =>
    let c := d.cell cell
    if !c.dma.isEmpty then d
    else d.instr cell (fun d =>
      match c.cur with
      | some t => d.tdone cell t
      | none => d))

/-- MEASURE_COMPLETE (R185, R186, R236): every tile has passed TDONE in MEASURE: JIT_SIGMA for each marked
entry with its record and its STAKE_RANGE event, then FINAL. -/
def execMeasureComplete (plot phase : Nat) (s : State) : Res :=
  s.onDev (fun d =>
    let r := (d.plot plot).phase phase
    if r.kind = .measure ∧ r.done.length = r.tiles ∧ r.tiles ≠ 0 then
      let m := d.measureDone plot phase
      m.2.foldl (fun d (e : Nat × Int × Nat × Nat) =>
        d.postEvent { Event.blank 3 5 d.step with
          plot := plot, phase := phase, entry := e.1, format := d.entryFormat e.1, layer := d.layerOf (some e.1),
          value := twos 16 e.2.1 + e.2.2.1 * 65536, aux := e.2.2.2 }) m.1
    else d)

/-! ### WAIT, FENCE, HALT (R96) -/

/-- A cell waits, unless what it waits for has come about. -/
def Dev.waitFor (d : Dev) (cell : Nat) (w : WaitFor) : Dev :=
  if d.canIssue cell then
    let c := d.cell cell
    ((d.setCell cell { c with waiting := some w }).setF R.CEL_SEQ_STATUS_RUN cell 2).wake cell
  else d

/-- The events that WAIT names: channels 0 to 7. -/
def eventOk : EventKind → Bool
  | .dma c => decide (c < 8)
  | _ => true

/-- WAIT (R96, R548): until an event counter of the cell has reached a count. -/
def execWait (cell : Nat) (e : EventKind) (count : Nat) (s : State) : Res :=
  s.onDev (fun d =>
    if d.canIssue cell && !eventOk e then d.illegal cell else d.waitFor cell (.events e count))

/-- FENCE (R96, R548): until nothing of the cell is in flight. -/
def execFence (cell : Nat) (s : State) : Res := s.onDev (fun d => d.waitFor cell .fence)

/-- A cell that has halted in plot k's run goes on: in its own plot's run when it had been lent, or in that of a
starved plot which borrows from its plot (R31). -/
def Dev.nextRun (d : Dev) (cell k : Nat) : Dev :=
  match d.plotOfCell cell with
  | none => d
  | some own =>
    if own ≠ k ∧ (d.plot own).active = true ∧ (d.plot own).halted.contains cell = false then d.joinRun own cell
    else
      match (List.range 64).find? (fun j => decide (j ≠ k) && (d.plot j).active && d.starved j && decide (d.lender j = some own)
          && !(d.plot j).halted.contains cell) with
      | some j => d.joinRun j cell
      | none => d

/-- HALT (R96, R235, R274): the cell has halted in its plot's run. -/
def execHalt (cell : Nat) (s : State) : Res :=
  s.onDev (fun d =>
    if d.canIssue cell then
      let d := (d.postLoose cell).setF R.CEL_SEQ_STATUS_RUN cell 0
      match (d.cell cell).plot with
      | some k =>
        let r := d.plot k
        (d.setPlot k { r with halted := insertSet cell r.halted }).nextRun cell k
      | none => d
    else d)

/-! ### Sets in the logic dies (R94, R309, R310) -/

/-- STAKED_SET_APPLY (R94, R308, R309, R312): the oldest closed set of the tile is applied, add by add. -/
def execStakedSetApply (cell tile : Nat) (s : State) : Res :=
  s.onDev (fun d =>
    match d.sets.find? (fun x => decide (x.cell = cell) && decide (x.tile = tile)) with
    | none => d
    | some x =>
      x.adds.foldl (fun d a => d.stakedAdd a.width a.addr (twos a.width a.q)) (Dev.stageFreed { d with sets := d.sets.erase x }))

/-- STAGE_DEADLOCK (R310): where every cell that holds an open set waits for staging, the step does not close. -/
def execStageDeadlock (s : State) : Res :=
  s.onDev (fun d =>
    let open' := d.cells.filter (fun e => !e.2.adds.isEmpty)
    if !open'.isEmpty && open'.all (fun e => e.2.stageWait) then
      let d := { d with ctl := { d.ctl with noClose := true } }
      (List.range 8).foldl (fun d k => d.setErr MEM k 24) d
    else d)

end Sys2Proof.Machine
end

