-- ==== Sys2Proof/Machine/Thin.lean ====
section
/-! DEFINITION. The thin-channel engine: CONV, ARGMAX, TOPK and SORT requests, their queues and completion
(R219 to R230). -/

namespace Sys2Proof.Machine

/-! ### Queues (R219, R223) -/

/-- Stores a unit. -/
def Dev.setThn (d : Dev) (u : Nat) (t : Thn) : Dev := { d with thn := mput u t d.thn }

/-- A unit in service. -/
def Dev.thnUp (d : Dev) (u : Nat) : Bool := decide (d.blk THN u = stReady) || decide (d.blk THN u = stRunning)

/-- The unit that takes a new request: the one in service with the shorter queue, the lower on a tie. -/
def Dev.thnPick (d : Dev) : Nat :=
  let n (u : Nat) : Nat := (d.thnUnit u).jobs.length + (d.thnUnit u).hosts.length
  if d.thnUp 1 && (!d.thnUp 0 || decide (n 1 < n 0)) then 1 else 0

/-- A request as it is queued. -/
def ThnReq.queued (host : Bool) (addr ordinal : Nat) (c : JobCmd) : ThnReq :=
  { host := host, addr := addr, cmd := c, ordinal := ordinal, status := 0, count := 0, work := 0, cookie := c.cookie,
    entry := none, format := 0xFF, writes := [], stats := [], events := [], measured := false }

/-- Queues a THN command (R219, R523); the ordinal of a job request is its place among the step's (R383). -/
def Dev.thnQueue (d : Dev) (host : Bool) (c : JobCmd) : Dev :=
  let u := d.thnPick
  let t := d.thnUnit u
  let n := ((d.train.places.find? (fun x => decide (x.1 = c.num))).map (·.2)).getD 0
  let q := ThnReq.queued host (argOf c 0) n c
  if host then d.setThn u { t with hosts := t.hosts ++ [q] } else d.setThn u { t with jobs := t.jobs ++ [q] }

/-- The next request of a unit, and the unit without it (R219, R230): while both queues hold requests, HOST_WEIGHT job
requests go between two host requests. -/
def Dev.thnNext (d : Dev) (u : Nat) : Option (ThnReq × Thn) :=
  let t := d.thnUnit u
  let w := max 1 (d.actF R.THN_CFG_HOST_WEIGHT u)
  match t.jobs, t.hosts with
  | [], [] => none
  | j :: js, [] => some (j, { t with jobs := js, served := 0 })
  | [], h :: hs => some (h, { t with hosts := hs, served := 0 })
  | j :: js, h :: hs =>
    if t.served < w then some (j, { t with jobs := js, served := t.served + 1 })
    else some (h, { t with hosts := hs, served := 0 })

/-- COOKIE of a request's descriptor, where it can be read (R227). -/
def Dev.thnCookie (d : Dev) (q : ThnReq) : ThnReq :=
  if d.localOk q.addr 64 && (d.poisonIn q.addr 64).isNone then { q with cookie := d.nat (q.addr + 12) 4 } else q

/-- The completion of a request (R228, R525, R526): it carries the COOKIE of the request's descriptor, as R227 says, or
that of the ring entry where the descriptor cannot be read. Log entry 19. -/
def Dev.thnFinish (d : Dev) (u : Nat) (q : ThnReq) (status : Nat) : Dev :=
  let d := d.bump THN u (if q.host then 1 else 0) 1
  let d := if status = 0 then d else d.bump THN u 5 1
  let d := if status = 1 then d.setErr THN u 16 else if status = 2 then d.setErr THN u 18
    else if status = 3 then d.setErr THN u 17 else d
  let code := if status = 0 then 0 else 0x30 + status
  let n := if status = 0 then q.count else 0
  (if q.host then d else d.leaveOrder q.cmd).postCompletion { q.cmd with cookie := q.cookie } code n

/-- Host requests queued when HOST_EN falls complete with FEATURE_OFF (R230). -/
def Dev.thnHostOff (d : Dev) (u : Nat) : Dev :=
  if d.actF R.THN_CFG_HOST_EN u = 1 then d
  else
    let t := d.thnUnit u
    t.hosts.foldl (fun d q => d.thnFinish u (d.thnCookie q) 4) (d.setThn u { t with hosts := [] })

/-- The work of a cloched or failed unit moves to the other one, the request in progress first and from its
beginning; with no unit left it waits (R223). -/
def Dev.thnMove (d : Dev) (u : Nat) : Dev :=
  let t := d.thnUnit u
  let again (q : ThnReq) : ThnReq := { ThnReq.queued q.host q.addr q.ordinal q.cmd with measured := q.measured }
  let jobs := (t.current.filter (fun q => !q.host)).toList.map again ++ t.jobs
  let hosts := (t.current.filter (fun q => q.host)).toList.map again ++ t.hosts
  let o := 1 - u
  if d.thnUp o then
    let t' := d.thnUnit o
    (d.setThn u Thn.reset).setThn o { t' with jobs := t'.jobs ++ jobs, hosts := t'.hosts ++ hosts }
  else d.setThn u { t with jobs := jobs, hosts := hosts, current := none }

/-- Some request waits or runs on a unit. -/
def Dev.thnHolds (d : Dev) (u : Nat) : Bool :=
  let t := d.thnUnit u
  !t.jobs.isEmpty || !t.hosts.isEmpty || t.current.isSome

/-- A unit that comes into service takes over what waits on the other one while that is out of service (R223). -/
def Dev.thnTakeOver (d : Dev) (u : Nat) : Dev :=
  if d.thnUp u && !d.thnUp (1 - u) && d.thnHolds (1 - u) then d.thnMove (1 - u) else d

/-! ### Common checks (R227, R228) -/

/-- Outcome of a request's checks and computation. -/
structure ThnOut where
  status : Nat
  count  : Nat
  work   : Nat
  fault  : Option Nat
  entry  : Option Nat
  format : Nat
  writes : List (Nat × List Byte)
  stats  : List StatUpdate
  events : List (Nat × Nat × Nat)
  reads  : List (Nat × Nat)
  deriving DecidableEq, Repr

/-- A request that ends with a status and writes nothing. -/
def ThnOut.ended (status : Nat) (fault : Option Nat) : ThnOut := ⟨status, 0, 0, fault, none, 0xFF, [], [], [], []⟩

/-- Refuses addresses (R228), then sources that meet a poisoned word (R223), else goes on. -/
def Dev.thnChecked (d : Dev) (srcs dsts : List (Nat × Nat)) (f : ThnOut) : ThnOut :=
  if (srcs ++ dsts).any (fun r => !d.localOk r.1 r.2) then ThnOut.ended 2 none
  else match srcs.findSome? (fun r => d.poisonIn r.1 r.2) with
  | some a => { ThnOut.ended 3 (some a) with reads := srcs }
  | none => { f with reads := srcs }

/-- A reserved bit of FLAGS is set, or SRC_HOST is on a request that is not a host's (R227, R228). -/
def badFlags (q : ThnReq) (flags : Nat) : Bool := decide (8 ≤ flags) || (bitOf flags 2 && !q.host)

/-- Where the device reads what a request with SRC_HOST brings from the bus: above every device address. -/
abbrev hostBase : Nat := 2 ^ 64

/-- Device memory, with the bytes of a request with SRC_HOST at `hostBase` (R228). -/
def Dev.srcRd (d : Dev) (hostSrc : List Byte) : Nat → Byte :=
  fun a => if hostBase ≤ a then hostSrc.getD (a - hostBase) 0 else d.memRd a

/-- A 32-bit entry field: all ones names none. -/
def entryOpt (v : Nat) : Option Nat := if v = 0xFFFFFFFF then none else some v

/-! ### Scores (R225) -/

/-- Bytes of a score of a FORMAT; 0 for a FORMAT that scores do not take. -/
def scoreBytes : Nat → Nat
  | 9 => 2 | 10 => 2 | 11 => 4 | 12 => 8 | 13 => 4
  | _ => 0

/-- A score as a value. -/
def scoreVal (f v : Nat) : Num := if f = 13 then .ofInt (sext 32 v) 0 else decodeElem f v

/-- The value of `a` is at most that of `b`, NaN standing above or below every number. -/
def scoreLe (nanLow : Bool) (a b : Num) : Bool :=
  if a.isNan then nanLow || b.isNan
  else if b.isNan then !nanLow
  else match a, b with
    | .inf s, y => s || (match y with | .inf t => !t | _ => false)
    | _, .inf t => !t
    | x, y => x.finLe y

/-- Ranks (index, value, encoding) triples: equal scores keep ascending index order (R225). -/
def rankScores (asc nanLow : Bool) (xs : List (Nat × Num × Nat)) : List (Nat × Num × Nat) :=
  xs.mergeSort (fun a b => if asc then scoreLe nanLow a.2.1 b.2.1 else scoreLe nanLow b.2.1 a.2.1)

/-- A TOPK or SORT request (R225, R227, R228). -/
def Dev.thnScores (d : Dev) (q : ThnReq) (hostScores : List Byte) (sort : Bool) : ThnOut :=
  let a := q.addr
  let f := d.nat (a + 1) 1
  let flags := d.nat (a + 2) 2
  let n := d.nat (a + 4) 4
  let k := d.nat (a + 8) 4
  let src := d.nat (a + 16) 8
  let dst := d.nat (a + 24) 8
  let dst2 := d.nat (a + 32) 8
  let scratch := d.nat (a + 40) 8
  let w := scoreBytes f
  let fromHost := bitOf flags 2
  let bad := decide (w = 0) || badFlags q flags || decide (n = 0) || decide (1048576 < n)
    || (!sort && (decide (k = 0) || decide (4096 < k))) || decide (d.nat (a + 60) 4 ≠ 0)
  if bad then ThnOut.ended 1 none
  else
    let m := if sort then n else min k n
    let scr := if sort then [(scratch, 16 * n)] else []
    d.thnChecked (if fromHost then [] else [(src, n * w)])
      ([(dst, 4 * m)] ++ (if dst2 = 0 then [] else [(dst2, w * m)]) ++ scr)
      (let raw := if fromHost then hostScores else d.bytes src (n * w)
       let codes := (List.range n).map (fun i => leNat ((raw.drop (i * w)).take w))
       let xs := (codes.zipIdx).map (fun p => (p.2, scoreVal f p.1, p.1))
       let ys := (rankScores (bitOf flags 0) (bitOf flags 1) xs).take m
       { ThnOut.ended 0 none with
         count := m, work := n
         writes := scr.map (fun r => (r.1, freeBytes d.fresh r.2)) ++ [(dst, ys.flatMap (fun y => leBytes 4 y.1))]
           ++ (if dst2 = 0 then [] else [(dst2, ys.flatMap (fun y => leBytes w y.2.2))]) })

/-! ### ARGMAX (R224) -/

/-- Bytes of data and of scale entries of one position of C channels; 16-element blocks. Log entry 19. -/
def argRow (f c : Nat) : Nat × Nat :=
  if isBlock f then (((c + 15) / 16 * 16 * fmtBits f + 7) / 8, (c + 15) / 16 * 2) else (c * (fmtBits f / 8), 0)

/-- The operand descriptor under which ARGMAX reads its positions. -/
def argDesc (f c src aux n : Nat) (entry : Option Nat) : OperandDesc :=
  { format := f, block := 16, data := src, pitch := (argRow f c).1, scale := aux, scalePitch := (argRow f c).2,
    rows := n, row0 := 0, col0 := 0, kLen := c, entry := entry, compressed := false, affine := false, zx := 0,
    expand := 0, sums := 0 }

/-- The first channel with the largest value: NaN ranks above every number (R224). -/
def argBest (xs : List Num) : Nat × Num :=
  ((xs.zipIdx).drop 1).foldl (fun best p =>
    if scoreLe false p.1 best.2 then best else (p.2, p.1)) (0, xs.getD 0 .zero)

/-- An ARGMAX request (R224, R227, R228). -/
def Dev.thnArg (d : Dev) (q : ThnReq) (hostSrc : List Byte) : ThnOut :=
  let a := q.addr
  let f := d.nat (a + 1) 1
  let flags := d.nat (a + 2) 2
  let fromHost := bitOf flags 2
  let n := d.nat (a + 4) 4
  let c := d.nat (a + 8) 4
  let src := d.nat (a + 16) 8
  let dst := d.nat (a + 24) 8
  let dst2 := d.nat (a + 32) 8
  let aux := d.nat (a + 48) 8
  let entry := entryOpt (d.nat (a + 56) 4)
  let bad := !(isNarrow f || isWide f) || badFlags q flags || decide (c < 2) || decide (65536 < c)
    || decide (d.nat (a + 60) 4 ≠ 0) || entry.elim false (fun e => decide (d.sstCount ≤ e))
  if bad then ThnOut.ended 1 none
  else
    let o := argDesc f c (if fromHost then hostBase else src) aux n entry
    let row := argRow f c
    d.thnChecked ((if fromHost then [] else [(src, n * row.1)]) ++ (if isBlock f then [(aux, n * row.2)] else []))
      ([(dst, 2 * n)] ++ (if dst2 = 0 then [] else [(dst2, 4 * n)]))
      (let best (m : Nat) : Nat × Num := argBest ((List.range c).map (fun k => (d.readElem (d.srcRd hostSrc) o m k).1))
       let bs := (List.range n).map best
       { ThnOut.ended 0 none with
         count := n, work := n * c
         writes := [(dst, bs.flatMap (fun b => leBytes 2 b.1))]
           ++ (if dst2 = 0 then [] else [(dst2, bs.flatMap (fun b => leBytes 4 (encodeWide 11 b.2).1))]) })

/-! ### CONV (R220 to R222) -/

/-- A CONV parameter block (R227). -/
structure ConvParams where
  x        : WinDesc
  w        : WinDesc
  outScale : Nat
  rescale  : Nat
  format   : Nat
  rescaleEn : Bool
  relu     : Bool
  compress : Bool
  block    : Nat
  entryX   : Option Nat
  entryW   : Option Nat
  entryOut : Option Nat
  pitch    : Nat
  dst      : Nat
  clean    : Bool
  deriving DecidableEq, Repr

/-- The device's address of the parameter block of a request. -/
def Dev.convBlock (d : Dev) (q : ThnReq) : Nat := if bitOf (d.nat (q.addr + 2) 2) 2 then hostBase else d.nat (q.addr + 16) 8

/-- Reads the parameter block of a request. -/
def Dev.convParams (d : Dev) (q : ThnReq) (hostSrc : List Byte) : ConvParams :=
  let rd := d.srcRd hostSrc
  let p := d.convBlock q
  let o := p + 0x100
  let fl := rdNat rd (o + 17) 1
  { x := winDescAt rd p, w := winDescAt rd (p + 0x80), outScale := rdNat rd o 8, rescale := rdNat rd (o + 8) 8,
    format := rdNat rd (o + 16) 1, rescaleEn := bitOf fl 0, relu := bitOf fl 1, compress := bitOf fl 2,
    block := if bitOf fl 3 then 32 else 16, entryX := entryOpt (rdNat rd (o + 20) 4), entryW := entryOpt (rdNat rd (o + 24) 4),
    entryOut := entryOpt (rdNat rd (o + 28) 4), pitch := rdNat rd (o + 32) 4, dst := d.nat (q.addr + 24) 8,
    clean := decide (fl < 16) && decide (rdNat rd (o + 18) 2 = 0) && decide (rdNat rd (o + 36) 28 = 0) }

/-- The array mode of a CONV (R144, R220). -/
def ConvParams.mode (p : ConvParams) : ArrayMode := if isWide p.x.format then .splitHalf else .m8

/-- Live taps of the operator. -/
def ConvParams.taps (p : ConvParams) : List (List Nat) := p.x.liveTaps

/-- K of the operator (R220). -/
def ConvParams.kLen (p : ConvParams) : Nat := p.taps.length * p.x.cb

/-- The descriptors agree and lie within R208, R220 and R221; T_FIRST, T_COUNT and the DST fields of the
window descriptors play no part. Log entry 19. -/
def Dev.convOk (d : Dev) (p : ConvParams) : Bool :=
  let whole (w : WinDesc) : WinDesc := { w with tFirst := 0, tCount := 1 }
  (whole p.x).fieldsOk && (whole p.w).fieldsOk && decide (p.x.role = 0) && decide (p.w.role = 1) && p.clean
    && pairingOk p.mode p.x.format p.w.format p.x.block && decide (p.x.block = p.w.block) && decide (p.x.cg = p.w.cg)
    && decide (p.x.ndims = p.w.ndims) && decide (p.x.dims.map (·.kernel) = p.w.dims.map (·.kernel))
    && decide (p.kLen ≤ 4096) && decide (p.w.mCount ≤ 4096)
    && (decide (p.x.positions = 0) || decide (p.x.mFirst + p.x.mCount ≤ p.x.positions))
    && (isNarrow p.format || isWide p.format) && (!p.compress || packable p.format)
    && [p.entryX, p.entryW, p.entryOut].all (fun e => e.elim true (fun i => decide (i < d.sstCount)))

/-- One operand row of the operator: its blocks, element values and block information per band. -/
structure ConvRow where
  codes : List Nat
  bands : List BlockInfo
  deriving DecidableEq, Repr

/-- Reads an operand row of the operator, whole blocks of all live taps. -/
def convRow (rd : Nat → Byte) (w : WinDesc) (taps : List (List Nat)) (m : Nat) : ConvRow :=
  let w := { w with tFirst := 0, tCount := taps.length }
  let gs := w.rowBlocks taps m
  let codes := gs.map (w.codesOf rd)
  let wideInfo (xs : List Nat) : BlockInfo :=
    match blockExp (xs.map (decodeElem w.format)) with
    | some b => ⟨false, false, b, 0⟩
    | none => ⟨false, true, 0, 0⟩
  let bands := if isWide w.format then (chunks 16 (codes.flatten).length codes.flatten).map wideInfo
    else (gs.zipIdx).flatMap (fun g => List.replicate (w.block / 16) (scaleBlock (w.scaleOf rd g.1 g.2)))
  ⟨codes.flatten, bands⟩

/-- E_max over the operator, taken as one tile (R85, R157; log entry 19). -/
def convScan (xs ws : List ConvRow) (n : Nat) : Option Int :=
  let top (rs : List ConvRow) (b : Nat) : Option Int := maxExp (rs.map (fun r => (r.bands.getD b .none, true)))
  (List.range n).foldl (fun (a : Option Int) b =>
    match top xs b, top ws b with
    | some p, some q => some (a.elim (p + q) (max (p + q)))
    | _, _ => a) none

/-- The bands of one output, in band order. -/
def convBands (mode : ArrayMode) (L : Int) (fx fw : Nat) (x w : ConvRow) : List (Nat × BandOut) :=
  (List.range ((x.codes.length + 63) / 64)).flatMap (fun c =>
    let col : BankCol := ⟨(x.codes.drop (64 * c)).take 64, (x.bands.drop (4 * c)).take 4⟩
    let ws := ((w.codes.drop (64 * c)).take 64).map (fun v => (decodeElem fw v, false))
    (outputBands mode L fx fw col ((w.bands.drop (4 * c)).take 4) ws).map (fun b => (4 * c + b.1, b.2)))

/-- One output of the operator: value, and the lowest blocks at which invalid and NaN-scale arose. -/
structure ConvVal where
  v   : Num
  inv : Option Nat
  ns  : Option Nat
  deriving DecidableEq, Repr

/-- The value of an output (R147 to R160, R178, R206, R231, R232). -/
def ConvParams.value (p : ConvParams) (e0 : Entry) (L sigma : Int) (s o : Num) (x w : ConvRow) : ConvVal :=
  let bs := convBands p.mode L p.x.format p.w.format x w
  let e := bs.foldl (fun e b => addBand e b.2) e0
  let r := rescaled (entryValue e).1 .zero sigma s o
  let v := if p.relu then r.1.maximum .zero else r.1
  let at' (f : BandOut → Bool) : Option Nat := (bs.find? (fun b => f b.2)).map (fun b => b.1 * 16 / p.x.block)
  let late : Option Nat := if r.2 || (entryValue e).2 then some 0xFFFFFFFF else none
  ⟨v, (at' (·.inv)).or late, at' (·.ns)⟩

/-- Products that CONV forms: no padded channels, no ZERO blocks (R221, R229). -/
def ConvParams.products (p : ConvParams) (xs ws : List ConvRow) : Nat :=
  let per := p.x.cb / 16
  let real (b : Nat) : Nat := min 16 (p.x.cg - b % max 1 per * 16)
  (xs.flatMap (fun x => ws.map (fun w =>
    ((List.range x.bands.length).map (fun b =>
      if (x.bands.getD b .none).zero || (w.bands.getD b .none).zero then 0 else real b)).sum))).sum

/-- The operand rows of the operator. -/
def Dev.convRows (d : Dev) (p : ConvParams) : List ConvRow × List ConvRow :=
  ((List.range p.x.mCount).map (fun i => convRow d.memRd p.x p.taps (p.x.mFirst + i)),
   (List.range p.w.mCount).map (fun i => convRow d.memRd p.w p.taps (p.w.mFirst + i)))

/-- The rescale pairs of the output channels. -/
def Dev.convPairs (d : Dev) (p : ConvParams) : List (Num × Num) :=
  (List.range p.w.mCount).map (fun i =>
    if p.rescaleEn then (decodeElem 11 (d.nat (p.rescale + 8 * i) 4), decodeElem 11 (d.nat (p.rescale + 8 * i + 4) 4))
    else (.fin false 1 0, .zero))

/-- The staked entry that every output starts from, with whether a block pair qualifies (R151). -/
def ConvParams.stake (p : ConvParams) (xs ws : List ConvRow) : Entry × Bool :=
  let e := convScan xs ws (p.kLen / 16)
  let k := (kindBounds p.x.format 0, kindBounds p.w.format 0)
  let dm := if p.mode = .m8 then bandDepth k.1 k.2 else splitDepth p.mode
  let u := if p.mode = .m8 then 254 - bandGrid k.1 k.2 else 10
  (stakedEntry (sext 16 (twos 16 (e.getD 0 + dm))) (headroom p.kLen) u dm (productsOf p.mode), e.isSome)

/-- Every output value, row by row (R220). -/
def Dev.convValues (d : Dev) (p : ConvParams) : List (List ConvVal) :=
  let r := d.convRows p
  let e0 := (p.stake r.1 r.2).1
  let k := (kindBounds p.x.format 0, kindBounds p.w.format 0)
  let sg := d.sigma p.entryX + d.sigma p.entryW
  let ps := d.convPairs p
  r.1.map (fun x => (r.2.zip ps).map (fun w => p.value e0 (bandGrid k.1 k.2) sg w.2.1 w.2.2 x w.1))

/-- The range check of the operator fails (R184, R222). -/
def Dev.convRangeBad (d : Dev) (p : ConvParams) : Bool :=
  match p.entryOut with
  | none => false
  | some i =>
    let r := d.convRows p
    let e := p.stake r.1 r.2
    isNarrow (d.entryFormat i) && e.2 && rangeFails (rangeHi (e.1.s + e.1.h - 6 - e.1.u) (d.sigma p.entryX) (d.sigma p.entryW)
      (d.sigma p.entryOut) (d.convPairs p) p.rescaleEn (d.entryFormat i))

/-- Where output row i goes: its data and its scale entries. -/
def ConvParams.places (p : ConvParams) (i : Nat) : Nat × Nat :=
  (p.dst + i * p.pitch, p.outScale + i * ((p.w.mCount + p.block - 1) / p.block * 2))

/-- The ranges that the output takes. -/
def ConvParams.targets (p : ConvParams) : List (Nat × Nat) :=
  if p.x.positions = 0 then [] else
  let n := if isNarrow p.format then (p.w.mCount + p.block - 1) / p.block * p.block else p.w.mCount
  let bytes := if p.compress then slotMin p.format n else (n * fmtBits p.format + 7) / 8
  (List.range p.x.mCount).flatMap (fun i => ((p.places i).1, bytes)
    :: (if isNarrow p.format then [((p.places i).2, n / p.block * 2)] else []))

/-- The ranges that the operator reads; none for an empty output, no operands with no live tap (R204,
R206). -/
def ConvParams.reads (p : ConvParams) (a : Nat) : List (Nat × Nat) :=
  (if a = hostBase then [] else [(a, 0x140)]) ++ (if p.x.positions = 0 then [] else
    (if p.rescaleEn then [(p.rescale, 8 * p.w.mCount)] else [])
      ++ ({ p.x with tFirst := 0, tCount := p.taps.length }).sources p.taps
      ++ ({ p.w with tFirst := 0, tCount := p.taps.length }).sources p.taps)

/-- Exceptions of a kind over the outputs: the kind, the lowest block, the outputs affected (R222, R235). -/
def convEvents (kind : Nat) (hits : List Nat) : List (Nat × Nat × Nat) :=
  match hits with
  | [] => []
  | h :: hs => [(kind, hs.foldl min h, hs.length + 1)]

/-- The outcome of CONV in its final run. -/
def Dev.convFinal (d : Dev) (p : ConvParams) : ThnOut :=
  let vals := if p.x.positions = 0 then [] else d.convValues p
  let od : OperandDesc := { argDesc p.format p.w.mCount p.dst p.outScale p.x.mCount p.entryOut with block := p.block }
  let rs := vals.map (fun r => writeRow od (d.sigma p.entryOut) (r.map (·.v)))
  let data (r : RowOut) : List Byte :=
    if p.compress then
      let n := r.data.length * 8 / fmtBits p.format
      compressRow p.format n ((List.range n).map (fun k => rdElem (fun a => r.data.getD a 0) 0 (fmtBits p.format) k))
    else r.data
  let all := vals.flatten
  { status := 0, count := 0, work := if p.x.positions = 0 then 0 else (let r := d.convRows p; p.products r.1 r.2)
    fault := none, entry := p.entryOut, format := p.format
    writes := (rs.zipIdx).flatMap (fun r => ((p.places r.2).1, data r.1)
      :: (if isNarrow p.format then [((p.places r.2).2, r.1.scales)] else []))
    stats := if vals.isEmpty then [] else p.entryOut.elim [] (fun e => [rowStats od e (vals.map (fun r => r.map (·.v))) rs])
    events := convEvents 1 (all.filterMap (·.inv)) ++ convEvents 2 (all.filterMap (·.ns))
      ++ convEvents 4 (rs.flatMap (fun r => r.sats.map (fun k => k / p.block)))
    reads := [] }

/-- The ordinal under which a JIT_SCALE record names a request: its place among the step's job requests (R383). The manual
gives a host request none: the value is free (log entry 19). -/
def Dev.jitName (d : Dev) (q : ThnReq) : Nat := if q.host then leNat (freeBytes d.fresh 4) else q.ordinal

/-- The measuring run of a CONV request: M_AMAX_EXP, JIT_SIGMA, the JIT_SCALE decision of the open step and the STAKE_RANGE
event (R177, R185, R222, R236). -/
def Dev.convMeasure (d : Dev) (u : Nat) (q : ThnReq) (p : ConvParams) (i cause : Nat) : Dev :=
  let d := if cause = 0 then d.setErr THN u 19 else d
  let d := d.clearStat i d.step
  let vs := (d.convValues p).flatten.map (·.v)
  let m := vs.foldl (fun (a : Option Int) v => if v.isFinNz then some (a.elim v.log2 (max v.log2)) else a) none
  let d := d.applyStat d.step true { entry := i, amax := m, nonfin := false, vanish := 0, sat := 0, elements := 0 }
  let sg := m.elim (d.entrySigma i) (fun v => clampSigma (v - fmtEmax (d.entryFormat i)))
  let d := (d.setStatFlag i d.step 1).setJit i d.step sg
  let dec : List Decision := if d.jobActive then [.jit 1 0xFF (d.jitName q) i sg cause] else []
  let d := { d with fresh := d.fresh + 4, ctl := { d.ctl with decisions := d.ctl.decisions ++ dec } }
  d.postEvent { Event.blank 3 5 d.step with
    tile := d.nat (q.addr + 12) 4, entry := i, format := d.entryFormat i, layer := d.layerOf (some i),
    value := twos 16 sg + cause * 65536, aux := m.elim 0x8000 (twos 16) }

/-- The decisions that a replay's record holds for a request (R186, R222). -/
def Dev.jitRecorded (d : Dev) (q : ThnReq) : List Decision :=
  if q.host then []
  else (d.recorded.getD []).filter (fun x => match x with
    | .jit 1 _ o _ _ _ => decide (o = q.ordinal)
    | _ => false)

/-- CONV's just-in-time path, and whether the request has measured: what a replay recorded, else an entry under R177 that no
phase of the step has measured, or a failed range check, measures once; a request that starts again from the beginning
after it has measured runs in FINAL (R177, R185, R186, R222, R223). -/
def Dev.convJit (d : Dev) (u : Nat) (q : ThnReq) (p : ConvParams) : Bool × Dev :=
  match p.entryOut with
  | none => (false, d)
  | some i =>
    if q.measured then (true, d)
    else match d.jitRecorded q with
    | .jit a b c e sg cause :: _ =>
      let d := d.setJit i d.step sg
      (true, { d with ctl := { d.ctl with decisions := d.ctl.decisions ++ [.jit a b c e sg cause] } })
    | _ =>
      if d.warmEntry i && !bitOf (d.statFlags i d.step) 0 then (true, d.convMeasure u q p i 1)
      else if d.convRangeBad p then (true, d.convMeasure u q p i 0)
      else (false, d)

/-- A CONV request (R220 to R222): the device after its just-in-time path, whether it has measured, and its outcome. -/
def Dev.thnConvRun (d : Dev) (u : Nat) (q : ThnReq) (hostSrc : List Byte) : (Bool × Dev) × ThnOut :=
  let p := d.convParams q hostSrc
  let a := d.convBlock q
  let own : Bool × Dev := (q.measured, d)
  if badFlags q (d.nat (q.addr + 2) 2) || decide (d.nat (q.addr + 60) 4 ≠ 0) then (own, ThnOut.ended 1 none)
  else
    let block := if a = hostBase then ThnOut.ended 0 none else d.thnChecked [(a, 0x140)] [] (ThnOut.ended 0 none)
    if block.status ≠ 0 then (own, block)
    else if !d.convOk p then (own, { ThnOut.ended 1 none with reads := block.reads })
    else
      let ok := d.thnChecked (p.reads a) p.targets (ThnOut.ended 0 none)
      if ok.status ≠ 0 then (own, ok)
      else
        let r := if p.x.positions = 0 ∨ p.taps.isEmpty = true then own else d.convJit u q p
        (r, { r.2.convFinal p with reads := ok.reads })

/-! ### The commands (R219, R227, R228) -/

/-- OP of the next request of a unit that stands idle, where its descriptor can be read: one that lies where R228 refuses
it, or that meets a poisoned word, has none. -/
def Dev.thnOp (d : Dev) (u : Nat) : Option Nat :=
  if d.thnUp u && decide ((d.thnUnit u).current = none) then
    (d.thnNext u).bind (fun r => if d.localOk r.1.addr 64 && (d.poisonIn r.1.addr 64).isNone then some (d.nat r.1.addr 1) else none)
  else none

/-- The read of a source that is uncorrectable is recorded in THN_FAULT (R223). -/
def Dev.thnFault (d : Dev) (u a : Nat) : Dev :=
  ((d.setF R.THN_FAULT_LO_ADDR_LO u a).setF R.THN_FAULT_HI_ADDR_HI u (a / 2 ^ 32)).setF R.THN_FAULT_HI_VALID u 1

/-- A unit that begins its next request holds its outcome until it completes. -/
def Dev.thnStart (d : Dev) (u op : Nat) (run : Dev → ThnReq → (Bool × Dev) × ThnOut) : Dev :=
  match d.thnNext u with
  | some (q, t) =>
    if 2 ≤ u ∨ d.thnOp u ≠ some op then d
    else
      let d := if d.blk THN u = stReady then d.setBlk THN u stRunning else d
      let q := d.thnCookie q
      let r := run d q
      let o := r.2
      let q' := { q with status := o.status, count := o.count, work := o.work, entry := o.entry, format := o.format,
                         writes := o.writes, stats := o.stats, events := o.events, measured := r.1.1 }
      let d := ((q.addr, 64) :: o.reads).foldl (fun d x => d.noteRead x.1 x.2) r.1.2
      let d := o.fault.elim d (d.thnFault u)
      let fresh := (o.writes.map (fun w => w.2.length)).sum
      { d with fresh := d.fresh + fresh }.setThn u { t with current := some q' }
  | none => d

/-- THN_CONV (R198 to R207, R219 to R223, R227, R228). A request with SRC_HOST reads its parameter block from the bus. -/
def execThnConv (r : ThnStart) (s : State) : Res :=
  s.onDev (fun d => d.thnStart r.unit 1 (fun d q => d.thnConvRun r.unit q r.host))

/-- A run that changes nothing before its request completes. -/
def Dev.thnPlain (d : Dev) (o : ThnOut) : (Bool × Dev) × ThnOut := ((false, d), o)

/-- THN_ARGMAX (R224, R227, R228). A request with SRC_HOST reads its data plane from the bus. -/
def execThnArgmax (r : ThnStart) (s : State) : Res :=
  s.onDev (fun d => d.thnStart r.unit 3 (fun d q => d.thnPlain (d.thnArg q r.host)))

/-- THN_TOPK (R225 to R228). `hostScores` are the scores of a request with SRC_HOST. -/
def execThnTopk (unit : Nat) (hostScores : List Byte) (s : State) : Res :=
  s.onDev (fun d => d.thnStart unit 4 (fun d q => d.thnPlain (d.thnScores q hostScores false)))

/-- THN_SORT (R225 to R228). -/
def execThnSort (unit : Nat) (hostScores : List Byte) (s : State) : Res :=
  s.onDev (fun d => d.thnStart unit 5 (fun d q => d.thnPlain (d.thnScores q hostScores true)))

/-- The counter that a finished request's work advances (R229). -/
def thnCounter (op : Nat) : Nat := if op = 1 then 2 else if op = 3 then 4 else 3

/-- Posts the summaries of a request (R222, R235, R239). -/
def Dev.thnEvents (d : Dev) (u : Nat) (q : ThnReq) : Dev :=
  let d := if q.events.isEmpty then d else d.setErr THN u 20
  q.events.foldl (fun d (e : Nat × Nat × Nat) =>
    d.postEvent { Event.blank e.1 2 d.step with
      tile := q.cookie, entry := q.entry.getD 0xFFFFFFFF, format := q.format, block := e.2.1, count := e.2.2,
      layer := d.layerOf q.entry }) d

/-- A request that a unit ends without running it: a descriptor that R228 refuses ends with WINDOW, one that meets a
poisoned word with SRC_UNCORR, and an OP of its own with BAD_PARAM (R223, R227, R228). -/
def Dev.thnUnrun (d : Dev) (u : Nat) (q : ThnReq) (t : Thn) : Dev :=
  if !d.localOk q.addr 64 then (d.setThn u t).thnFinish u q 2
  else match d.poisonIn q.addr 64 with
  | some a => (((d.noteRead q.addr 64).thnFault u a).setThn u t).thnFinish u q 3
  | none =>
    if [1, 3, 4, 5].contains (d.nat q.addr 1) then d
    else ((d.noteRead q.addr 64).setThn u t).thnFinish u (d.thnCookie q) 1

/-- THN_REQUEST_COMPLETE (R175, R219, R222, R227, R228): the request's writes, statistics, summaries and completion; one
that the unit does not run completes at once. -/
def execThnRequestComplete (unit : Nat) (s : State) : Res :=
  s.onDev (fun d =>
    let t := d.thnUnit unit
    match t.current with
    | some q =>
      let d := d.setThn unit { t with current := none }
      let d := q.writes.foldl (fun d w => d.write w.1 w.2) d
      let d := q.stats.foldl (fun d u => d.applyStat d.step false u) d
      let d := if q.status = 0 then d.bump THN unit (thnCounter (d.nat q.addr 1)) q.work else d
      (d.thnEvents unit q).thnFinish unit q q.status
    | none =>
      match d.thnNext unit with
      | some (q, t') => if d.thnUp unit then d.thnUnrun unit q t' else d
      | none => d)

end Sys2Proof.Machine
end

