-- ==== Sys2Proof/Machine/Sieve.lean ====
section
/-! DEFINITION. The sieve's recomputation and check, and the promotions it causes (R194, R196, R197,
R240 to R246, R402). -/

namespace Sys2Proof.Machine

/-! ### Hosts (R243) -/

/-- The cells that recompute a slot now. -/
def Dev.sieveHosts (d : Dev) : List Nat := d.numx.sieve.filterMap (fun e => e.2.host)

/-- A spare that can host: in service, not grafted, not hosting. -/
def Dev.spareHost (d : Dev) : Option Nat :=
  d.sparesLeft.find? (fun p => decide (stReady ≤ d.blk CEL p) && decide (d.blk CEL p < stCloched) && !d.sieveHosts.contains p)

/-- The physical cells of a plot that are in service. -/
def Dev.plotCells (d : Dev) (k : Nat) : List Nat :=
  ((d.members k).filterMap d.physOf).filter (fun p => decide (stReady ≤ d.blk CEL p) && decide (d.blk CEL p < stCloched))

/-- A logical cell that can be borrowed: it holds no tile; the computing cell only when it stands alone. -/
def Dev.borrowHost (d : Dev) (sl : SieveSlot) : Option Nat :=
  let cs := d.plotCells sl.tile.plot
  let free (p : Nat) : Bool := (d.cell p).tiles.isEmpty && !d.sieveHosts.contains p
  if cs = [sl.cell] then cs.find? free else (cs.filter (fun p => decide (p ≠ sl.cell))).find? free

/-- SIEVE_RECOMPUTE (R243, R490): a slot without a host gets one, in the order of R243; a borrowed cell is
cloched. With none the slot waits. -/
def execSieveRecompute (slot : Nat) (s : State) : Res :=
  s.onDev (fun d =>
    match mfind slot d.numx.sieve with
    | none => d
    | some sl =>
      let take (d : Dev) (p : Nat) : Dev :=
        { d with numx := { d.numx with sieve := mput slot { sl with host := some p } d.numx.sieve } }
      if sl.host.isSome then d
      else match d.spareHost with
        | some p => take d p
        | none =>
          if d.actF R.NUM_SIEVE_CFG_BORROW 0 = 1 then
            match d.borrowHost sl with
            | some p => take (d.clocheCell p) p
            | none => d
          else d)

/-! ### The recomputation (R243) -/

/-- An operand row in FP64, in blocks of 16. -/
def sieveRow (xs : List Num) : ConvRow :=
  let xs := xs ++ List.replicate ((16 - xs.length % 16) % 16) Num.zero
  let codes := xs.map (fun x => (encodeWide 12 x).1)
  let info (c : List Nat) : BlockInfo :=
    match blockExp (c.map (decodeElem 12)) with
    | some b => ⟨false, false, b, 0⟩
    | none => ⟨false, true, 0, 0⟩
  ⟨codes, (chunks 16 codes.length codes).map info⟩

/-- The exact output value of two FP64 rows: split passes, then the tile's rescale. -/
def sieveValue (e0 : Entry) (s o : Num) (x w : ConvRow) : Num :=
  let e := (convBands .split64 0 12 12 x w).foldl (fun e b => addBand e b.2) e0
  (rescaled (entryValue e).1 .zero 0 s o).1

/-- The whole reduction of output i of a copy: the stationary rows by column and the weight row, over every pass that added
to its entry (R243). -/
def SieveCopy.operands (c : SieveCopy) (i : Nat) : List ConvRow × ConvRow :=
  let ps := c.parts.filter (fun p => inRange (c.first + i) p.first p.count)
  let w := ps.flatMap (fun p => p.w.getD (c.first + i - p.first) [])
  ((List.range 64).map (fun r => sieveRow (ps.flatMap (fun p => p.x.getD r []))), sieveRow w)

/-- The outputs of a copy before they are rounded, row by row as they were written; staked as one tile (R243). -/
def SieveCopy.values (c : SieveCopy) : List (List Num) :=
  let ops := (List.range c.scales.length).map c.operands
  let bands := (ops.map (fun o => o.2.bands.length)).foldl max 0
  let top := (ops.filterMap (fun o => convScan o.1 [o.2] bands)).foldl (fun (a : Option Int) t => some (a.elim t (max t))) none
  let dm := splitDepth .split64
  let e0 := stakedEntry (sext 16 (twos 16 (top.getD 0 + dm))) (headroom (16 * bands)) 10 dm (productsOf .split64)
  let out (r i : Nat) : Num :=
    let o := ops.getD i ([], ⟨[], []⟩)
    let p := c.scales.getD i (0, 0)
    sieveValue e0 (decodeElem 11 p.1) (decodeElem 11 p.2) (o.1.getD r ⟨[], []⟩) o.2
  (c.written.zipIdx).map (fun y => (List.range y.1.length).map (fun k => if c.byChannel then out k y.2 else out y.2 k))

/-- A row of values as the tile's output format would hold it: values with their grid exponents. -/
def SieveCopy.reRead (c : SieveCopy) (vs : List Num) : List (Num × Int) :=
  if isNarrow c.format then
    (writeNarrowRow c.format c.block 0 (vs.map (·.scale (-c.sigma)))).read.map (fun v => (v.1.scale c.sigma, v.2 + c.sigma))
  else (writeWideRow c.format vs).read

/-! ### The check (R244, R245) -/

/-- x ÷ y of finite nonnegative values, y not zero; rounded to FP64. -/
def div64 (x y : Num) : Num :=
  let k := Nat.log2 y.sig.natAbs + 160
  let n := x.sig.natAbs * 2 ^ k
  roundTo 12 (sticky (n / y.sig.natAbs) (decide (n % y.sig.natAbs = 0)) (x.exp - y.exp - k) false)

/-- |x|. -/
def Num.abs : Num → Num
  | .fin _ m e => .fin false m e
  | .inf _ => .inf false
  | .nan => .nan

/-- |x − y| rounded to FP64. -/
def diff64 (x y : Num) : Num := roundTo 12 (x.add y.negate).abs

/-- The error of one group: pairs (v, y_w). -/
def groupErr (g : List (Num × Num)) : Num :=
  let m := maxMag (g.map (·.1))
  if m.isZero then .zero
  else
    let both := g.filter (fun p => p.1.isFin && p.2.isFin)
    let e := maxMag (both.map (fun p => diff64 p.2 p.1))
    div64 e m.abs

/-- The errors of a copy's groups (R244). -/
def SieveCopy.errs (c : SieveCopy) : List Num :=
  let size := if isNarrow c.format then c.block else 16
  let rows := (c.values.zip c.written).map (fun r => (r.1.map (roundTo 12)).zip (r.2.map (·.1)))
  rows.flatMap (fun r => (chunks size r.length r).map groupErr)

/-- The precision error of an output entry of a tile, over the groups of all its copies (R244). -/
def SieveSlot.err (sl : SieveSlot) (entry : Option Nat) : Num :=
  maxMag ((sl.copies.filter (fun c => decide (c.entry = entry))).flatMap (·.errs))

/-- One output disagrees (R245): y_w and y_c with their grid exponents. -/
def disagrees (a b : Num × Int) : Bool :=
  if a.1.isNan || b.1.isNan then a.1.isNan != b.1.isNan
  else if a.1.isInf || b.1.isInf then decide (a.1 ≠ b.1)
  else
    let diff := (a.1.add b.1.negate).abs
    !diff.magLe (.fin false 1 (max a.2 b.2))

/-- The written elements of a copy with their recomputed ones, in element order (R245). -/
def SieveCopy.pairs (c : SieveCopy) : List ((Num × Int) × (Num × Int)) :=
  (c.values.zip c.written).flatMap (fun r => r.2.zip (c.reRead r.1))

/-- |y_w − y_c| of a pair whose values are both finite (R239, R245). -/
def pairDiff (p : (Num × Int) × (Num × Int)) : Num :=
  if p.1.1.isFin && p.2.1.isFin then diff64 p.1.1 p.2.1 else .zero

/-- The precision limit of an output's layer as its FP32 encoding, and whether it stands in the layer table (R244, R246). -/
def Dev.sieveLimit (d : Dev) (entry : Option Nat) : Nat × Bool :=
  match d.layerEntry (d.layerOf entry) with
  | some a => (d.nat (a + 4) 4, true)
  | none => (d.actF R.NUM_SIEVE_DEFAULT_LIM_LIM 0, false)

/-- The error exceeds a limit. A negative limit in the layer table disables the event (R246); no error exceeds a NaN. -/
def errPasses (err : Num) (lim : Nat × Bool) : Bool :=
  let l := decodeElem 11 lim.1
  if l.isNan then false
  else if l.neg && !l.isZero then !lim.2
  else !l.isInf && !err.magLe l.abs

/-! ### Promotions (R194 to R197) -/

/-- The entry has a promotion decided in the open step. -/
def Dev.promoted (d : Dev) (i : Nat) : Bool :=
  d.ctl.decisions.any (fun x => match x with
    | .promotion e _ _ _ => decide (e = i)
    | _ => false)

/-- Decides the promotion of an entry, or withholds it under POLICY_HOLD (R65, R197). -/
def Dev.decidePromotion (d : Dev) (cause i : Nat) : Dev :=
  if !d.feature 12 || !d.promotable i || d.promoted i then d
  else if d.held NUM 0 then d.policyWithheld NUM 0
  else match d.promoteTo i with
    | some g =>
      Dev.policyTaken { d with ctl := { d.ctl with
        decisions := d.ctl.decisions ++ [.promotion i (d.entryFormat i) g cause] } } NUM 0
    | none => d

/-- Promotes every entry of a layer for a sieve disagreement (R196); a replay follows its records (R244). -/
def Dev.promoteLayer (d : Dev) (layer : Nat) : Dev :=
  if !d.jobActive || d.replaying then d
  else ((List.range d.sstCount).filter (fun i => decide (d.layerOf (some i) = layer))).foldl
    (fun d i => d.decidePromotion 1 i) d

/-- A ring entry of the sieve about an output of a slot (R239). -/
def sieveEvent (d : Dev) (typ : Nat) (sl : SieveSlot) (c : SieveCopy) : Event :=
  { Event.blank typ 4 sl.step with
    plot := sl.tile.plot, phase := sl.tile.phase, tile := sl.tile.index, entry := c.entry.getD 0xFFFFFFFF, cell := sl.cell,
    format := c.format, layer := d.layerOf c.entry }

/-- The precision check of an output entry of a slot (R244); `c` is its first copy. -/
def Dev.checkPrecision (d : Dev) (sl : SieveSlot) (c : SieveCopy) : Dev :=
  let err := sl.err c.entry
  let lim := d.sieveLimit c.entry
  if errPasses err lim then
    let r := d.draw
    let d := r.2.postEvent { sieveEvent r.2 5 sl c with count := r.1, value := (encodeWide 12 err).1, aux := lim.1 }
    (d.setErr NUM 0 18).promoteLayer (d.layerOf c.entry)
  else d

/-- The first copy of each output entry of a slot. -/
def SieveSlot.outputs (sl : SieveSlot) : List SieveCopy :=
  ((sl.copies.map (·.entry)).eraseDups).filterMap (fun e => sl.copies.find? (fun c => decide (c.entry = e)))

/-- A convicted cell: cloched as faulty, SOW_SUSPECT names the earliest step of a convicting sample (R245, R389,
R402). -/
def Dev.convict (d : Dev) (cell step : Nat) : Dev :=
  let d := (d.setPassed CEL cell false).clocheFault cell
  let at' := if d.errBit SOW 0 22 then min step (d.getF R.SOW_SUSPECT 0) else step
  (d.setF R.SOW_SUSPECT 0 at').setErr SOW 0 22

/-- Every element of a slot: its copy and its pair, in element order over the copies. -/
def SieveSlot.elements (sl : SieveSlot) : List (SieveCopy × (Num × Int) × (Num × Int)) :=
  sl.copies.flatMap (fun c => c.pairs.map (fun p => (c, p)))

/-- The integrity check of a slot (R245): VALUE is the largest difference of all its elements (R239), and a cell whose
miscompares have reached INTEG_LIM is cloched at each further one. -/
def Dev.checkIntegrity (d : Dev) (sl : SieveSlot) (host : Nat) : Dev :=
  let es := sl.elements
  match (es.zipIdx).filter (fun x => disagrees x.1.2.1 x.1.2.2) with
  | [] => d
  | x :: xs =>
    let big := maxMag (es.map (fun e => pairDiff e.2))
    let d := d.postEvent { sieveEvent d 6 sl x.1.1 with
      flags := if host = sl.cell then 4 else 0, count := xs.length + 1, value := (encodeWide 12 big).1,
      aux := x.2 % 2 ^ 32 + host * 2 ^ 32 }
    let n := mget 0 d.numx.miscompares sl.cell + 1
    let d := { d with numx := { d.numx with miscompares := mput sl.cell n d.numx.miscompares } }.setErr NUM 0 19
    if max 1 (d.actF R.NUM_SIEVE_CFG_INTEG_LIM 0) ≤ n then d.convict sl.cell sl.step else d

/-- The recomputation has ended: a borrowed cell returns to READY (R243). -/
def Dev.freeHost (d : Dev) (host : Nat) : Dev :=
  if (d.logicalOf host).isSome ∧ d.blk CEL host = stCloched ∧ d.getF (R.BLK_CTRL_CLOCHE_REQ CEL) host = 0 then
    d.setBlk CEL host stReady
  else d

/-- SIEVE_CHECK (R196, R239, R243 to R246, R402): compares a slot that has a host, frees it and its host. -/
def execSieveCheck (slot : Nat) (s : State) : Res :=
  s.onDev (fun d =>
    match mfind slot d.numx.sieve with
    | none => d
    | some sl =>
      match sl.host with
      | none => d
      | some host =>
        let d := { d with numx := { d.numx with sieve := mdel slot d.numx.sieve } }
        let d := d.freeHost host
        let d := sl.outputs.foldl (fun d c => d.checkPrecision sl c) d
        d.checkIntegrity sl host)

end Sys2Proof.Machine
end

