-- ==== Sys2Proof/Machine/Policy.lean ====
section
/-! DEFINITION. The MC's results-affecting policy: plot rebalancing and format promotion on statistics (R31 to
R34, R111 to R113, R194 to R197, R397). -/

namespace Sys2Proof.Machine

/-! ### Plot rebalancing (R111 to R113) -/

/-- One plot of a rebalance: number, cells, weight w, bounds lo and hi, and the count t it gets. -/
structure RebPlot where
  plot  : Nat
  cells : Nat
  w     : Nat
  lo    : Nat
  hi    : Nat
  t     : Nat
  deriving DecidableEq, Repr

/-- The plots that the MC would rebalance but for POLICY_HOLD (R111): active, enabled, with a busy time of the step before. -/
def Dev.rebAble (d : Dev) : List Nat :=
  if d.feature 11 then
    (List.range 64).filter (fun k => d.plotActive k && decide (d.getF R.PLT_REBAL_EN k = 1) && (mfind k d.ctl.prevBusy).isSome)
  else []

/-- Plots with their busy time and their cells (R112). -/
def Dev.rebInputs (d : Dev) (ks : List Nat) : List (Nat × Nat × Nat) :=
  ks.map (fun k => (k, mget 0 d.ctl.prevBusy k, (d.members k).length))

/-- The busy times differ by more than 1/16 of the smallest (R111). -/
def spreadLarge (ts : List Nat) : Bool :=
  match ts with
  | [] => false
  | x :: xs => decide (xs.foldl min x < 16 * (xs.foldl max x - xs.foldl min x))

/-- A plot before the counts are fitted: lo, hi and the clamped share (R112). -/
def Dev.rebStart (d : Dev) (total wsum k busy cells : Nat) : RebPlot :=
  let w := busy * cells
  let delta := d.getF R.PLT_REBAL_MAX_DELTA k
  let lo := max (d.getF R.PLT_BOUNDS_MIN_CELLS k) (cells - delta)
  let hi := min (d.getF R.PLT_BOUNDS_MAX_CELLS k) (cells + delta)
  let b := if hi < lo then (min lo (cells + delta), min lo (cells + delta)) else (lo, hi)
  ⟨k, cells, w, b.1, b.2, min (max ((total * w + wsum / 2) / wsum) b.1) b.2⟩

/-- w/t of `p` is larger than that of `q`; t = 0 ranks above every other (R112). -/
def ratioAbove (p q : RebPlot) : Bool :=
  if p.t = 0 then decide (q.t ≠ 0) else if q.t = 0 then false else decide (q.w * p.t < p.w * q.t)

/-- The plot that the next unit goes to or comes from; ties go to the lowest number (R112). -/
def rebNext (up : Bool) (ps : List RebPlot) : Option RebPlot :=
  (ps.filter (fun p => if up then decide (p.t < p.hi) else decide (p.lo < p.t))).foldl (fun (a : Option RebPlot) p =>
    match a with
    | none => some p
    | some q => if (if up then ratioAbove p q else ratioAbove q p) then some p else some q) none

/-- Moves the counts one by one until they sum to the total; none when the rebalance is abandoned (R112). -/
def rebFit (up : Bool) : Nat → List RebPlot → Option (List RebPlot)
  | 0, ps => some ps
  | n + 1, ps =>
    match rebNext up ps with
    | none => none
    | some q =>
      rebFit up n (ps.map (fun (p : RebPlot) => if p.plot = q.plot then { p with t := if up then p.t + 1 else p.t - 1 } else p))

/-- The new counts from (plot, busy, cells) (R112). -/
def Dev.rebCounts (d : Dev) (xs : List (Nat × Nat × Nat)) : Option (List RebPlot) :=
  let total := (xs.map (·.2.2)).sum
  let wsum := (xs.map (fun x => x.2.1 * x.2.2)).sum
  let ps := xs.map (fun x => d.rebStart total wsum x.1 x.2.1 x.2.2)
  let have' := (ps.map (·.t)).sum
  if have' ≤ total then rebFit true (total - have') ps else rebFit false (have' - total) ps

/-- The cell of a logical number stands in CLOCHED (R113). -/
def Dev.standsCloched (d : Dev) (l : Nat) : Bool := (d.physOf l).elim false (fun p => decide (d.blk CEL p = stCloched))

/-- The cells that a donor releases: its highest-numbered mapped members that are not cloched (R113). -/
def Dev.rebReleased (d : Dev) (p : RebPlot) : List Nat :=
  (((d.members p.plot).filter (fun l => !d.standsCloched l)).reverse).take (p.cells - p.t)

/-- Hands released cells, ascending, to the receivers in plot order: (plot, cells taken) (R113). -/
def rebHand : List RebPlot → List Nat → List (Nat × List Nat)
  | [], _ => []
  | p :: ps, ls =>
    let n := p.t - p.cells
    (p.plot, ls.take n) :: rebHand ps (ls.drop n)

/-- The plots whose membership changes, with the new membership and the cells gained (R113). -/
def Dev.rebMoves (d : Dev) (ps : List RebPlot) : List (Nat × List Nat × Int) :=
  let outs := ps.map (fun p => (p.plot, d.rebReleased p))
  let pool := (outs.flatMap (·.2)).mergeSort (fun a b => decide (a ≤ b))
  let ins := rebHand ps pool
  let taken := ins.flatMap (·.2)
  let gone := pool.filter (fun l => taken.contains l)
  (ps.map (fun p =>
    let old := d.members p.plot
    let new := mergeAsc (old.filter (fun l => !gone.contains l)) ((ins.filter (fun x => decide (x.1 = p.plot))).flatMap (·.2))
    (p.plot, new, (new.length : Int) - old.length))).filter (fun x => decide (x.2.1 ≠ d.members x.1))

/-- The count of a plot after moves. -/
def Dev.countAfter (d : Dev) (ms : List (Nat × List Nat × Int)) (k : Nat) : Nat :=
  match ms.find? (fun x => decide (x.1 = k)) with
  | some x => x.2.1.length
  | none => (d.members k).length

/-- Some active plot stays below its minimum after moves (R31, R112). -/
def Dev.underfilled (d : Dev) (ms : List (Nat × List Nat × Int)) : Bool :=
  (List.range 64).any (fun k => d.plotActive k && decide (d.countAfter ms k < d.getF R.PLT_BOUNDS_MIN_CELLS k))

/-- Plots that POLICY_HOLD keeps from a rebalance that they would have taken part in: POLICY on each, one decision withheld
(R65, R111). -/
def Dev.rebWithheld (d : Dev) (ks : List Nat) : Dev :=
  if ks.isEmpty then d else (ks.foldl (fun d k => d.irq PLT k 3) d).bump GLB 0 3 1

/-- The decisions of a rebalance (R112, R113); an abandoned one only notes a plot left below its minimum (R31). -/
def Dev.rebDecide (d : Dev) (xs : List (Nat × Nat × Nat)) : Dev :=
  match d.rebCounts xs with
  | none => { d with ctl := { d.ctl with rebShort := d.underfilled [] } }
  | some ps =>
    let ms := d.rebMoves ps
    let short := (List.range 64).any d.starved && d.underfilled ms
    let ds := ms.map (fun m => Decision.rebalance m.1 m.2.1.length m.2.2 m.2.1)
    let d := { d with ctl := { d.ctl with decisions := d.ctl.decisions ++ ds, rebShort := short } }
    ms.foldl (fun d m => d.policyTaken PLT m.1) d

/-- PLOT_REBALANCE_COMPUTE (R31, R33, R34, R65, R111 to R113): decides the rebalance of the open step, once, from the busy
times of the step before, of which the first step of a job has none. A replay follows its records. -/
def execPlotRebalanceCompute (s : State) : Res :=
  s.onDev (fun d =>
    if !d.jobActive || d.recorded.isSome || d.ctl.rebTried || decide (d.step = 0) then d
    else
      let able := d.rebAble
      let held := able.filter (fun k => d.held PLT k)
      let large (ks : List Nat) : Bool := spreadLarge ((d.rebInputs ks).map (·.2.1))
      let free := able.filter (fun k => !d.held PLT k)
      let d := { d with ctl := { d.ctl with rebTried := true } }
      let d := if large able then d.rebWithheld held else d
      if large free then d.rebDecide (d.rebInputs free) else d)

/-! ### Format promotion on statistics (R195) -/

/-- The open step is the first after a restored boundary that has no FORMAT_PROMOTION record: promotion on statistics
is withheld (R397). -/
def Dev.statsWithheld (d : Dev) : Bool := decide (d.sow.blindStep = some d.step)

/-- FORMAT_PROMOTION_DECIDE (R194, R195, R197, R397): every entry that the statistics of step n − 1 promote.
A replay follows its records. -/
def execFormatPromotionDecide (s : State) : Res :=
  s.onDev (fun d =>
    if !d.jobActive || d.recorded.isSome || d.statsWithheld || decide (d.step = 0) then d
    else
      ((List.range d.sstCount).filter (fun i => d.statPromotes i (d.step - 1))).foldl (fun d i => d.decidePromotion 0 i) d)

end Sys2Proof.Machine
end

