-- ==== Sys2Proof/Machine/Train.lean ====
section
/-! DEFINITION. Data positions, the gradient plan, the partition into buckets and their places among the
collectives of a step (R265 to R278, R342). -/

namespace Sys2Proof.Machine

/-! ### The generator state block (R265 to R269) -/

/-- The address of POS[p]. -/
def Dev.posAt (d : Dev) (p : Nat) : Nat := d.gsbBase + 0x40 + 64 * p

/-- POS[p] is ACTIVE. -/
def Dev.posActive (d : Dev) (p : Nat) : Bool := bitOf (d.nat (d.posAt p + 2) 2) 0

/-- The implied draw base of a record (R268). -/
def Dev.implied (d : Dev) (p : Nat) : Nat :=
  let a := d.posAt p
  (d.nat a 2 * d.nat (a + 16) 8 + d.nat (a + 8) 8) * d.nat (a + 24) 4 % 2 ^ 64

/-- What the check of one active record gives: 0 OK, 1 STREAM_SKEW, 2 BAD_BLOCK (R269). -/
def Dev.posCheck (d : Dev) (p : Nat) : Nat :=
  let a := d.posAt p
  if d.nat (a + 4) 4 = 0 ∨ d.nat (a + 16) 8 = 0 ∨ d.nat (a + 16) 8 ≤ d.nat (a + 8) 8 ∨ 4 ≤ d.nat (a + 2) 2
      ∨ d.nat (a + 28) 4 ≠ 0 ∨ d.nat (a + 40) 24 ≠ 0 then 2
  else if bitOf (d.nat (a + 2) 2) 1 = true ∧ d.nat (a + 32) 8 ≠ d.implied p then 1
  else 0

/-- STATUS of the block reads NOT_CHECKED as a job begins, from which the device knows where the block lies (R265, R269; log
entry 40). -/
def Dev.gsbUnchecked (d : Dev) : Dev := if d.inJob d.gsbBase 4160 then d.write (d.gsbBase + 8) (leBytes 1 3) else d

/-- Checks the block: STATUS, BAD_PLOT and IMPLIED, and DRAW_BASE_VALID cleared when every record passes
(R269). Gives STATUS. -/
def Dev.gsbCheck (d : Dev) : Nat × Dev :=
  match ((List.range 64).filter (fun p => d.posActive p)).find? (fun p => decide (d.posCheck p ≠ 0)) with
  | some p =>
    let st := d.posCheck p
    let d' := d.write (d.gsbBase + 8) (leBytes 1 st ++ leBytes 1 p)
    (st, if st = 1 then d'.write (d.gsbBase + 16) (leBytes 8 (d.implied p)) else d')
  | none =>
    let d' := d.write (d.gsbBase + 8) (leBytes 1 0 ++ leBytes 1 0xFF)
    (0, (List.range 64).foldl (fun (d : Dev) p =>
      let f := d.nat (d.posAt p + 2) 2
      if bitOf f 1 then d.write (d.posAt p + 2) (leBytes 2 (clearBits f 2)) else d) d')

/-- Advances every active record at a step boundary (R266). -/
def Dev.advancePositions (d : Dev) : Dev :=
  ((List.range 64).filter (fun p => d.posActive p)).foldl (fun (d : Dev) p =>
    let a := d.posAt p
    let len := d.nat (a + 16) 8
    let pos := d.nat (a + 8) 8 + min (d.nat (a + 4) 4) (len - d.nat (a + 8) 8)
    if pos = len then (d.write a (leBytes 2 (d.nat a 2 + 1))).write (a + 8) (leBytes 8 0)
    else d.write (a + 8) (leBytes 8 pos)) d

/-- Unused argument words and undefined bits of an entry are reserved (R523): the arguments from `n` on are 0. -/
def argsClear (c : JobCmd) (n : Nat) : Bool := (c.args.drop n).all (fun a => decide (a = 0))

/-- POSITION_LOAD begins: checks the block and completes with its status; until a check passes no command runs
(R269, R526). -/
def Dev.positionLoad (d : Dev) (c : JobCmd) : Dev :=
  if !argsClear c 0 then d.complete c 2 0
  else
    let r := d.gsbCheck
    let d := { r.2 with ctl := { r.2.ctl with gsbChecked := decide (r.1 = 0) } }
    d.complete c (if r.1 = 0 then 0 else 0x20 + r.1) 0

/-! ### The gradient plan (R270) -/

/-- One entry of a gradient list in memory. -/
def Dev.gradAt (d : Dev) (a : Nat) : Grad :=
  ⟨d.nat a 8, d.nat (a + 8) 8, d.nat (a + 16) 4, d.nat (a + 20) 1⟩

/-- Elements of the gradient sequence. -/
def GradPlan.total (p : GradPlan) : Nat := (p.grads.map (·.count)).sum

/-- Bytes of an element of a result format. -/
def fmtBytes (f : Nat) : Nat := fmtBits f / 8

/-- No two ranges of a list share an address. -/
def disjointAll : List (Nat × Nat) → Bool
  | [] => true
  | x :: xs => xs.all (fun y => !overlaps x.1 x.2 y.1 y.2) && disjointAll xs

/-- The entry's fields lie within their ranges and its reserved bytes are 0. -/
def Dev.gradOk (d : Dev) (a : Nat) : Bool :=
  let g := d.gradAt a
  decide (1 ≤ g.count) && decide (g.entry < d.sstCount) && isWide g.rformat && decide (d.nat (a + 21) 11 = 0)

/-- The plan breaks no condition of R270. -/
def Dev.planOk (d : Dev) (list n acc : Nat) (p : GradPlan) : Bool :=
  let areas := (acc, 16 * p.total) :: p.grads.map (fun g => (g.result, g.count * fmtBytes g.rformat))
  decide (1 ≤ n) && decide (n ≤ 65536) && decide (acc % 16 = 0) && (d.poisonIn list (32 * n)).isNone
    && (List.range n).all (fun i => d.gradOk (list + 32 * i)) && areas.all (fun r => d.inJob r.1 r.2)
    && disjointAll ((d.gsbBase, 4160) :: areas)

/-- A line lies in a range as a whole. -/
def lineInside (a n l : Nat) : Bool := decide (a ≤ l * 64) && decide (l * 64 + 64 ≤ a + n)

/-- The accumulator area of a plan reads zero: its lines are not valid any more (R271, R299); a line that lies in the area
in part only keeps its valid bit and the rest of its bytes. -/
def Dev.clearArea (d : Dev) (a n : Nat) : Dev :=
  { d with mem := { d.mem with
      bytes := d.mem.bytes.filter (fun c => !inRange c.1 a n)
      valid := d.mem.valid.filter (fun l => !lineInside a n l)
      poison := d.mem.poison.filter (fun w => !overlaps (w * 8) 8 a n)
      flips := d.mem.flips.filter (fun e => !overlaps (e.1 * 8) 8 a n) } }

/-- Clears the accumulator area of the plan in force. -/
def Dev.clearAccs (d : Dev) : Dev :=
  match d.train.plan with
  | some p => d.clearArea p.acc (16 * p.total)
  | none => d

/-- Takes the window tops of the plan in force at the opening of a step (R121, R125, R271). A FORMAT that has no MAXF has
no EMAX: a free value (log entry 9). -/
def Dev.openWindows (d : Dev) : Dev :=
  let gs := d.train.plan.elim [] (·.grads)
  let step (a : Dev × NMap Int) (g : Grad × Nat) : Dev × NMap Int :=
    let f := a.1.entryFormat g.1.entry
    let known := isNarrow f || isWide f
    let r := if known then (0, a.1) else a.1.draw
    let emax := if known then fmtEmax f else sext 16 r.1
    (r.2, a.2 ++ [(g.2, a.1.entrySigma g.1.entry + emax + 33)])
  let r := gs.zipIdx.foldl step (d, [])
  { r.1 with train := { r.1.train with windowTop := r.2 } }

/-- GRAD_PLAN begins (R164, R270, R311, R362, R395): a plan takes effect at the next boundary, as the first command
after GO at once. -/
def Dev.gradPlan (d : Dev) (c : JobCmd) : Dev :=
  let list := argOf c 0
  let a1 := argOf c 1
  let n := a1 % 2 ^ 32
  let wide32 := bitOf a1 32
  let once := decide (d.sow.planFirst = some c.num)
  let d := { d with sow := { d.sow with planFirst := none } }
  if bitsOf a1 33 7 ≠ 0 ∨ bitsOf a1 48 16 ≠ 0 ∨ argsClear c 3 = false then d.complete c 2 0
  else if wide32 = true ∧ d.feature 3 = false then (d.setErr COL 0 7).complete c 3 0
  else if min 256 (d.getF R.COL_GROUP_COUNT_COUNT 0) ≤ bitsOf a1 40 8 then d.complete c 0x12 0
  else
    let p : GradPlan :=
      { grads := (List.range (min n 65536)).map (fun i => d.gradAt (list + 32 * i)), acc := argOf c 2,
        width := if wide32 then 32 else 64, group := bitsOf a1 40 8, list := list }
    let ok := d.planOk list n p.acc p
    let d := match d.poisonIn list (32 * n) with
      | some w => d.poisonRead w
      | none => d
    if !ok then d.complete c 0x11 0
    else if once then
      ((Dev.clearAccs { d with train := { d.train with plan := some p } }).openWindows).complete c 0 0
    else Dev.complete { d with train := { d.train with nextPlan := some p } } c 0 0

/-! ### Partition into buckets (R273) -/

/-- The bucket size code in force (R278). -/
def Dev.bucketCode (d : Dev) : Nat := d.getF R.COL_BUCKET_STATUS_CURRENT 0

/-- Elements of a full bucket (R273). -/
def bucketCap (z : Nat) : Nat := 2 ^ (z + 16)

/-- Cuts `left` elements of entry t, from element `first`, into pieces, with the bucket and fill reached. -/
def cutGrad (cap t : Nat) : Nat → Nat → Nat → Nat → Nat → List (Nat × Piece) × Nat × Nat
  | 0, _, _, b, fill => ([], b, fill)
  | fuel + 1, first, left, b, fill =>
    if left = 0 then ([], b, fill)
    else
      let take := min left (cap - fill)
      let at' := if fill + take = cap then (b + 1, 0) else (b, fill + take)
      let r := cutGrad cap t fuel (first + take) (left - take) at'.1 at'.2
      ((b, ⟨t, first, take⟩) :: r.1, r.2.1, r.2.2)

/-- The pieces of a list of counts, entry t first, as (bucket, piece). -/
def cutGrads (cap : Nat) : Nat → List Nat → Nat → Nat → List (Nat × Piece)
  | _, [], _, _ => []
  | t, n :: ns, b, fill =>
    let at' := if 0 < fill ∧ cap < fill + n then (b + 1, 0) else (b, fill)
    let r := cutGrad cap t (n / cap + 2) 0 n at'.1 at'.2
    r.1 ++ cutGrads cap (t + 1) ns r.2.1 r.2.2

/-- The partition of the step's plan: (bucket, piece), in sequence order. -/
def Dev.pieces (d : Dev) : List (Nat × Piece) :=
  match d.train.plan with
  | some p => cutGrads (bucketCap d.bucketCode) 0 (p.grads.map (·.count)) 0 0
  | none => []

/-- Buckets of the step. -/
def Dev.bucketCount (d : Dev) : Nat := d.pieces.foldl (fun n x => max n (x.1 + 1)) 0

/-- The pieces of a bucket. -/
def Dev.bucketPieces (d : Dev) (b : Nat) : List Piece := (d.pieces.filter (fun x => decide (x.1 = b))).map (·.2)

/-- Every entry with elements in a bucket is in a list. -/
def Dev.bucketIn (d : Dev) (gs : List Nat) (b : Nat) : Bool := (d.bucketPieces b).all (fun p => gs.contains p.grad)

/-! ### Places among the collectives of a step (R342) -/

/-- The next CIDX of a group, taken. -/
def Dev.takeCidx (d : Dev) (g : Nat) : Nat × Dev :=
  let n := mget 0 d.train.cidx g
  (n, { d with train := { d.train with cidx := mput g (n + 1) d.train.cidx } })

/-- Places bucket exchanges in order while the entries named so far complete them. -/
def Dev.placeBuckets (d : Dev) (g : Nat) : Nat → Dev
  | 0 => d
  | fuel + 1 =>
    let b := d.train.placed.length
    if b < d.bucketCount ∧ d.bucketIn d.train.named b = true then
      let r := d.takeCidx g
      Dev.placeBuckets { r.2 with train := { r.2.train with placed := r.2.train.placed ++ [r.1] } } g fuel
    else d

/-- A command takes its place in the open step's command order: a direct collective its CIDX, a GRAD_DONE those
of the exchanges it completes (R342), a thin-channel request its ordinal (R383). -/
def Dev.place (d : Dev) (c : JobCmd) : Dev :=
  if c.opc = 5 then
    match d.train.plan with
    | some p => (Dev.placeBuckets { d with train := { d.train with named := insertSet (argOf c 0) d.train.named } } p.group
        (d.bucketCount))
    | none => d
  else if 7 ≤ c.opc ∧ c.opc ≤ 9 then
    let r := d.takeCidx (argOf c 0 % 256)
    { r.2 with train := { r.2.train with places := r.2.train.places ++ [(c.num, r.1)] } }
  else if c.opc = 10 then
    { d with train := { d.train with places := d.train.places ++ [(c.num, d.ctl.thnCount)] },
             ctl := { d.ctl with thnCount := d.ctl.thnCount + 1 } }
  else d

/-- Places every command of the step that opens: those up to the next STEP_MARK, in command order. -/
def Dev.placeAll (d : Dev) : Dev :=
  (d.ctl.order.takeWhile (fun e => decide (e.cmd.opc ≠ 1))).foldl (fun d e => d.place e.cmd) d

/-- Issues a job command that takes a place: at once in the open step, at its boundary behind a STEP_MARK. -/
def Dev.issuePlaced (d : Dev) (c : JobCmd) (start : Dev → Dev) : Dev :=
  let d := if d.jobActive && !d.markAhead then d.place c else d
  d.issue c start

/-- GRAD_DONE begins (R274, R275): the entry is done; one that is done already is counted. -/
def Dev.gradDone (d : Dev) (c : JobCmd) : Dev :=
  let g := argOf c 0
  match d.train.plan with
  | none => d.complete c 2 0
  | some p =>
    if p.grads.length ≤ g ∨ argsClear c 1 = false then d.complete c 2 0
    else if d.train.doneGrads.contains g then (d.satAdd R.COL_GRAD_DUP_COUNT 0 1).complete c 0 0
    else Dev.complete { d with train := { d.train with doneGrads := insertSet g d.train.doneGrads } } c 0 0

end Sys2Proof.Machine
end

