-- ==== Sys2Proof/Machine/Coll.lean ====
section
/-! DEFINITION. Collectives: groups, staked bucket exchanges at one and two levels, the non-summing collectives,
waiting, fetching, resynchronisation, the vote and the bucket size (R162 to R166, R247 to R249, R274 to R278,
R341 to R351, R384, R398, R549). -/

namespace Sys2Proof.Machine

/-! ### Recovery's end points that collectives reach (R394, R398) -/

/-- The recovery ends with PHASE = FAILED (R398, R404); the host must restore the job from its checkpoint. -/
def Dev.recoveryFailed (d : Dev) : Dev :=
  let d := { d with ctl := { d.ctl with noClose := true }, sow := { d.sow with replayUntil := none, replay := [] } }
  (d.setF R.SOW_RECOVERY_PHASE 0 7).setErr SOW 0 21

/-- The device has rejoined: PHASE = DONE and RECOVERED (R394). -/
def Dev.rejoin (d : Dev) : Dev :=
  if d.getF R.SOW_RECOVERY_PHASE 0 = 5 then
    (Dev.bump { d with sow := { d.sow with replayUntil := none } } SOW 0 5 1).setF R.SOW_RECOVERY_PHASE 0 6 |>.setErr SOW 0 20
  else d

/-! ### Groups (R341) -/

/-- A group descriptor with its member list: (device, flow) in rank order. -/
structure Group where
  groupId : Nat
  n       : Nat
  rank    : Nat
  alg     : Nat
  mode    : Nat
  leaf    : Nat
  members : List (Nat × Nat)
  deriving DecidableEq, Repr

/-- Where descriptor g stands. -/
def Dev.groupAt (d : Dev) (g : Nat) : Nat :=
  d.getF R.COL_GROUP_BASE_LO_ADDR_LO 0 * 64 + d.getF R.COL_GROUP_BASE_HI_ADDR_HI 0 * 2 ^ 32 + 64 * g

/-- Reads descriptor g. -/
def Dev.group (d : Dev) (g : Nat) : Group :=
  let a := d.groupAt g
  let m := d.nat (a + 16) 8
  let n := d.nat (a + 4) 2
  { groupId := d.nat a 4, n := n, rank := d.nat (a + 6) 2, alg := d.nat (a + 8) 1, mode := d.nat (a + 9) 1,
    leaf := if d.nat (a + 8) 1 = 1 then d.nat (a + 10) 2 else 1
    members := (List.range n).map (fun r => (d.nat (m + 8 * r) 2, d.nat (m + 8 * r + 2) 4 % 2 ^ 18)) }

/-- The first poisoned word that a group's descriptor or member list meets. -/
def Dev.groupPoison (d : Dev) (g : Nat) : Option Nat :=
  let a := d.groupAt g
  (d.poisonIn a 64).or (d.poisonIn (d.nat (a + 16) 8) (8 * d.nat (a + 4) 2))

/-- The descriptor passes the checks of R341 and lies below COL_GROUP_COUNT. -/
def Dev.groupOk (d : Dev) (g : Nat) : Bool :=
  let a := d.groupAt g
  let m := d.nat (a + 16) 8
  let x := d.group g
  decide (g < min 256 (d.getF R.COL_GROUP_COUNT_COUNT 0)) && (d.groupPoison g).isNone
    && decide (1 ≤ x.n) && decide (x.n ≤ 32768) && decide (x.rank < x.n) && decide (x.alg < 2) && decide (x.mode < 2)
    && decide (1 ≤ x.leaf) && decide (x.n % x.leaf = 0) && decide (d.nat (a + 12) 4 = 0) && decide (d.nat (a + 24) 40 = 0)
    && (List.range x.n).all (fun r => decide (bitsOf (d.nat (m + 8 * r) 8) 34 30 = 0))
    && (x.members.zipIdx).all (fun r =>
      if r.2 = x.rank then decide (r.1.1 = d.devNum)
      else
        let w := d.flow r.1.2
        decide (w.state ≠ 0) && decide (w.kind = 2) && decide (w.peer = r.1.1))

/-- A group that fails its checks: a poisoned word is recorded, GROUP_BAD is set (R341). -/
def Dev.groupBad (d : Dev) (g engine : Nat) : Dev :=
  let d := match d.groupPoison g with
    | some w => d.poisonRead w
    | none => d
  d.setErr COL engine 21

/-! ### Collectives in flight -/

/-- What identifies a collective: (GROUP_ID, STEP, CIDX) (R342). -/
abbrev CollKey := Nat × Nat × Nat

/-- The identity of a collective. -/
def Coll.key (c : Coll) : CollKey := (c.groupId, c.step % 2 ^ 32, c.cidx)

/-- The identity that a collective packet names (R325). -/
def packetKey (p : Packet) : CollKey := (p.addr % 2 ^ 32, p.tag, p.op1 % 2 ^ 16)

/-- A collective in flight. -/
def Dev.coll (d : Dev) (k : CollKey) : Option Coll := d.fab.colls.find? (fun c => decide (c.key = k))

/-- Stores a collective in flight. -/
def Dev.setColl (d : Dev) (c : Coll) : Dev :=
  { d with fab := { d.fab with colls := d.fab.colls.map (fun x => if x.key = c.key then c else x) } }

/-- Acts on a collective in flight. -/
def Dev.onColl (d : Dev) (k : CollKey) (f : Coll → Dev) : Dev :=
  match d.coll k with
  | some c => f c
  | none => d

/-- Leaves of a group. -/
def Coll.leaves (c : Coll) : Nat := c.n / c.leaf

/-- The leaf of a rank. -/
def Coll.leafOf (c : Coll) (r : Nat) : Nat := r / c.leaf

/-- The rank within the leaf. -/
def Coll.inLeaf (c : Coll) (r : Nat) : Nat := r % c.leaf

/-- The rank within each leaf that owns segment s (R343, R345). -/
def Coll.own1 (c : Coll) (s : Nat) : Nat := s * c.leaf / max 1 c.segs

/-- The rank that owns segment s within a leaf. -/
def Coll.leafOwner (c : Coll) (leaf s : Nat) : Nat := leaf * c.leaf + c.own1 s

/-- The rank that owns segment s among the leaves. -/
def Coll.owner (c : Coll) (s : Nat) : Nat := c.leafOwner (s * c.leaves / max 1 c.segs) s

/-- The bucket number; 0 for another kind. -/
def Coll.bucket (c : Coll) : Nat :=
  match c.kind with
  | .bucket b _ => b
  | _ => 0

/-- The device contributes to and owns segments. -/
def Coll.isBucket (c : Coll) : Bool :=
  match c.kind with
  | .bucket _ _ => true
  | _ => false

/-- A packet of a collective (R325). -/
def Coll.packet (c : Coll) (opc flags first count : Nat) (data : List Byte) : Packet :=
  { packetOf opc with
    flags := flags, addr := c.groupId + c.rank * 2 ^ 32 + c.n * 2 ^ 48, len := data.length,
    attr := if c.width = 32 then 1 else 0, tag := c.step % 2 ^ 32,
    op1 := c.cidx % 2 ^ 16 + c.bucket % 2 ^ 16 * 2 ^ 16 + first * 2 ^ 32, op2 := count, payload := data }

/-- Sends a collective packet to a member. -/
def Dev.toRank (d : Dev) (c : Coll) (r : Nat) (p : Packet) : Dev :=
  (d.bump COL c.engine 2 p.payload.length).sendOn (c.members.getD r (0, 0)).2 p

/-- Packs consecutive segments into packets of at most 4,096 bytes: (first, count, bytes). -/
def packRuns : List (Nat × List Byte) → List (Nat × Nat × List Byte)
  | [] => []
  | (s, bs) :: rest =>
    match packRuns rest with
    | [] => [(s, 1, bs)]
    | (s', n, bs') :: more =>
      if s + 1 = s' ∧ bs.length + bs'.length ≤ 4096 then (s, n + 1, bs ++ bs') :: more
      else (s, 1, bs) :: (s', n, bs') :: more

/-- Sends segments to a member; `hdr` gives the flags of the packet that begins with segment 0. -/
def Dev.sendSegs (d : Dev) (c : Coll) (r opc flags hdr : Nat) (xs : List (Nat × List Byte)) : Dev :=
  (packRuns xs).foldl (fun d x => d.toRank c r (c.packet opc (flags + (if x.1 = 0 then hdr else 0)) x.1 x.2.1 x.2.2)) d

/-! ### Header words (R247, R277, R344) -/

/-- The bytes of header words. -/
def HdrWords.bytes (h : HdrWords) : List Byte :=
  leBytes 8 (b2n h.nonfinite * 2 ^ 63 + h.origin * 2 ^ 32 + h.bucket * 2 ^ 16 + h.step)
    ++ (match h.sizing with
      | some (hold, lo, hi, prop, cur) => leBytes 8 (b2n hold * 2 ^ 63 + lo * 2 ^ 12 + hi * 2 ^ 8 + prop * 2 ^ 4 + cur)
      | none => [])

/-- FLAGS that header words set: VOTE and SIZE. -/
def HdrWords.flags (h : HdrWords) : Nat := if h.sizing.isSome then 6 else 2

/-- Reads header words from the front of a payload. -/
def hdrFrom (sizing : Bool) (bs : List Byte) : HdrWords :=
  let v := leNat (bs.take 8)
  let z := leNat ((bs.drop 8).take 8)
  { nonfinite := bitOf v 63, origin := bitsOf v 32 16, bucket := bitsOf v 16 16, step := v % 2 ^ 16
    sizing := if sizing then some (bitOf z 63, bitsOf z 12 4, bitsOf z 8 4, bitsOf z 4 4, z % 16) else none }

/-- Reduces two header words field by field. -/
def HdrWords.merge (a b : HdrWords) : HdrWords :=
  { a with nonfinite := a.nonfinite || b.nonfinite, origin := min a.origin b.origin,
           sizing := match a.sizing, b.sizing with
             | some x, some y =>
               some (x.1 || y.1, max x.2.1 y.2.1, min x.2.2.1 y.2.2.1, min x.2.2.2.1 y.2.2.2.1, x.2.2.2.2)
             | x, none => x
             | none, y => y }

/-- This device's proposal (R276). -/
def Dev.proposal (d : Dev) : Nat :=
  let z := d.bucketCode
  let b := d.bucketBounds
  if b.2 < b.1 then z
  else
    let frac := d.getF R.COL_BUCKET_LAT_FRAC 0
    let want := match d.train.ratio with
      | some (t1, tx) =>
        if frac * tx < 256 * t1 then z + 1 else if 1024 * t1 < frac * tx then z - 1 else z
      | none => z
    min (max want b.1) b.2

/-- HOLD of the sizing header (R277, R546). -/
def Dev.sizingHold (d : Dev) : Bool := d.held COL 0 || !d.feature 13

/-- The header words that a contributor sends with segment 0 (R247, R277). -/
def Dev.ownHeader (d : Dev) (c : Coll) (sizing : Bool) : HdrWords :=
  let bad := c.elems.any (·.isNone)
  let b := d.bucketBounds
  { nonfinite := bad, origin := if bad then d.devNum else 0xFFFF, bucket := c.bucket, step := c.step % 2 ^ 16
    sizing := if sizing then some (d.sizingHold, b.1, b.2, d.getF R.COL_BUCKET_STATUS_PROPOSED 0, d.bucketCode) else none }

/-! ### Elements and results (R162 to R166, R271, R274) -/

/-- The exact value of the accumulator of element i of entry g, none when it is not finite. -/
def Dev.accVal (d : Dev) (p : GradPlan) (g i : Nat) : Option (Int × Int) :=
  let v := sext 128 (d.nat (p.acc + 16 * (p.offset g + i)) 16)
  if v = -(2 ^ 127 : Int) then none else some (v, d.windowTop g - 127)

/-- Elements of the pieces of a bucket. -/
def pieceElems (ps : List Piece) : List (Nat × Nat) := ps.flatMap (fun p => (List.range p.take).map (fun i => (p.grad, p.first + i)))

/-- The elements of a segment. -/
def Coll.segElems (c : Coll) (s : Nat) : List (Option (Int × Int)) := (c.elems.drop (256 * s)).take 256

/-- The result places of a collective, element by element: entry, format, address. -/
def Coll.places (c : Coll) : List (Nat × Nat × Nat) :=
  c.runs.flatMap (fun r => (List.range r.take).map (fun i => (r.entry, r.format, r.addr + i * fmtBytes r.format)))

/-- The result places of a segment. -/
def Coll.segPlaces (c : Coll) (s : Nat) : List (Nat × Nat × Nat) := (c.places.drop (256 * s)).take 256

/-- The local exponent of a segment (R162). -/
def localExp (xs : List (Option (Int × Int))) : Int :=
  xs.foldl (fun a x => match x with
    | some (v, e) => if v = 0 then a else max a ((Nat.log2 v.natAbs : Int) + e)
    | none => a) (-32768)

/-- The exponent of the lowest transported bit for a width and M (R163, R164). -/
def transportExp (width : Nat) (m : Int) : Int := m - (if width = 32 then 14 else 46)

/-- An element placed on the window of M (R163 to R165). -/
def stakeInt (width : Nat) (m : Int) : Option (Int × Int) → Int
  | some (v, e) => shiftFloor v (e - transportExp width m)
  | none => 0

/-- The bytes of transported integers. -/
def intBytes (width : Nat) (qs : List Int) : List Byte := qs.flatMap (fun q => leBytes (width / 8) (twos width q))

/-- Transported integers from bytes. -/
def bytesInts (width n : Nat) (bs : List Byte) : List Int :=
  (chunks (width / 8) n bs).map (fun x => sext width (leNat x))

/-- Result bytes of a segment from its sums (R166). -/
def Coll.resultBytes (c : Coll) (s : Nat) (m : Int) (qs : List Int) : List Byte :=
  ((c.segPlaces s).zip qs).flatMap (fun x =>
    let v : Num := if x.2 = 0 then .zero else .ofInt x.2 (transportExp c.width m)
    leBytes (fmtBytes x.1.2.1) (encodeWide x.1.2.1 v).1)

/-- Bytes of a segment's results. -/
def Coll.resultLen (c : Coll) (s : Nat) : Nat := ((c.segPlaces s).map (fun x => fmtBytes x.2.1)).sum

/-- Cuts result bytes at the elements of a segment: (place, code). -/
def cutResults : List (Nat × Nat × Nat) → List Byte → List ((Nat × Nat × Nat) × List Byte)
  | [], _ => []
  | x :: xs, bs => (x, bs.take (fmtBytes x.2.1)) :: cutResults xs (bs.drop (fmtBytes x.2.1))

/-- The statistics of written results of one entry: AMAX_EXP and NONFINITE (R175, R274). -/
def resultStat (entry : Nat) (vs : List Num) : StatUpdate :=
  { entry := entry, amax := vs.foldl (fun a v => if v.isFinNz then some (a.elim v.log2 (max v.log2)) else a) none,
    nonfin := vs.any (fun v => !v.isFin), vanish := 0, sat := 0, elements := 0 }

/-- Writes a segment's results and updates the entries' statistics (R274). -/
def Dev.writeResults (d : Dev) (c : Coll) (s : Nat) (bs : List Byte) : Dev :=
  let xs := cutResults (c.segPlaces s) bs
  let d := xs.foldl (fun d x => d.write x.1.2.2 x.2) d
  let es := (xs.map (fun x => x.1.1)).foldl (fun a e => insertSet e a) []
  es.foldl (fun d e =>
    let vs := (xs.filter (fun x => decide (x.1.1 = e))).map (fun x => decodeElem x.1.2.1 (leNat x.2))
    d.applyStat d.step false (resultStat e vs)) d

/-! ### Completion (R248, R274, R276, R277, R349) -/

/-- The ranges that a collective writes (R274, R351). -/
def Coll.ranges (c : Coll) : List (Nat × Nat) :=
  match c.kind with
  | .bucket _ _ => c.runs.map (fun r => (r.addr, r.take * fmtBytes r.format))
  | .allGather _ dst len => [(dst, len * c.n)]
  | .broadcast _ dst len _ => [(dst, len)]
  | .barrier => []

/-- The completed collective leaves flight and is fetchable from now on (R349). -/
def Dev.toPast (d : Dev) (c : Coll) : Dev :=
  { d with fab := { d.fab with
      colls := d.fab.colls.filter (fun x => decide (x.key ≠ c.key))
      past := d.fab.past.filter (fun x => decide (x.key ≠ c.key)) ++ [{ c with elems := [], done := true, seg := [] }] } }

/-- The vote of the step is final once every bucket has completed (R248, R252). -/
def Dev.closeVote (d : Dev) : Dev :=
  if d.train.finished.length = d.bucketCount then
    let bad := d.train.votes.filter (·.1)
    let origin := bad.foldl (fun a v => min a v.2) 0xFFFF
    (((d.setF R.NUM_VOTE_FINAL 0 1).setF R.NUM_VOTE_NONFINITE 0 (b2n (!bad.isEmpty))).setF R.NUM_VOTE_ORIGIN 0 origin).setF
      R.NUM_VOTE_STEP_STEP 0 d.step
  else d

/-- The agreed code of a sizing header: code, proposal, flags (R277, R383). -/
def agreedCode (z : Nat) (x : Bool × Nat × Nat × Nat × Nat) : Nat × Nat × Nat :=
  let crossed := decide (x.2.2.1 < x.2.1)
  (if x.1 || crossed then z else min (max x.2.2.2.1 x.2.1) x.2.2.1, x.2.2.2.1, b2n x.1 + 2 * b2n crossed)

/-- A bucket has completed: its vote, its measures and, for the last bucket, the agreement (R248, R276 to R278). -/
def Dev.bucketEnd (d : Dev) (c : Coll) (b t1 tx : Nat) : Dev :=
  let h := c.hdrRes.getD ⟨false, 0xFFFF, b, 0, none⟩
  let better := match d.train.ratio with
    | some (p, q) => decide (p * tx < t1 * q)
    | none => true
  let d := { d with train := { d.train with
    finished := insertSet b d.train.finished, votes := d.train.votes ++ [(h.nonfinite, h.origin)],
    ratio := if better then some (t1, tx) else d.train.ratio } }
  let d := (d.bump COL c.engine 6 t1).bump COL c.engine 7 tx
  let d := match h.sizing with
    | some x =>
      let a := agreedCode d.bucketCode x
      let d := { d with train := { d.train with agreed := some a } }
      let d := (d.setF R.COL_BUCKET_STATUS_STEP 0 d.step).setF R.COL_BUCKET_STATUS_AGREED 0 a.1
      if d.held COL 0 then d.policyWithheld COL 0 else d
    | none => d
  d.closeVote

/-- Blocks of the response pool that a segment's accumulator takes (R343). -/
def Coll.accBlocks (c : Coll) : Nat := if c.width = 32 then 4 else 8

/-- The response pool of an engine's I/O die (R22, R338). -/
def enginePool (e : Nat) : Field := if e < 2 then R.FLW_POOL_FREE_N else R.FLW_POOL_FREE_S

/-- Owner state of a segment at a level. -/
def Coll.segAt (c : Coll) (level s : Nat) : SegState := mget ⟨[], none, false, [], [], false⟩ c.seg (2 * s + level - 1)

/-- Stores owner state. -/
def Coll.setSeg (c : Coll) (level s : Nat) (x : SegState) : Coll := { c with seg := mput (2 * s + level - 1) x c.seg }

/-- Contributors that a level awaits. -/
def Coll.need (c : Coll) (level : Nat) : Nat := if level = 1 then c.leaf else c.leaves

/-- A level holds accumulators of its own: the only level of DIRECT, both of TWO_LEVEL (R343, R345). -/
def Coll.reserves (c : Coll) (level : Nat) : Bool := decide (level = 2) || decide (1 < c.leaf)

/-- The blocks of the response pool that a collective's accumulators hold (R343, R352). -/
def Coll.accHeld (c : Coll) : Nat :=
  (c.seg.filter (fun x => x.2.expDone && !x.2.done && c.reserves (x.1 % 2 + 1))).length * c.accBlocks

/-- A collective ends: COL_MISSING, which shows the engine's oldest, is taken back when it was that one (R347, R362). -/
def Dev.waitOver (d : Dev) (c : Coll) : Dev :=
  if (d.oldestColl c.engine).elim false (fun x => decide (x.key = c.key)) then d.setF R.COL_MISSING_VALID c.engine 0 else d

/-- A collective completes; `times` are t_1 and t_x, measured values that are free when no packet of the
command brings them (log entry 9). -/
def Dev.endColl (d : Dev) (k : CollKey) (times : Option (Nat × Nat)) : Dev :=
  d.onColl k (fun c =>
    let r1 := d.draw
    let r2 := r1.2.draw
    let t := times.getD (r1.1, r2.1)
    let d := if times.isSome || !c.isBucket then d else r2.2
    let d := ((d.waitOver c).toPast c).bump COL c.engine 0 1
    match c.kind, c.cmd with
    | .bucket b _, _ => d.bucketEnd c b t.1 t.2
    | _, some j => d.complete j 0 0
    | _, none => d)

/-- Everything of a bucket exchange that this device waits for has come (R274, R343). -/
def Coll.complete (c : Coll) : Bool :=
  let ss := List.range c.segs
  c.sent && c.hdrRes.isSome && ss.all (fun s => (mfind s c.mSeg).isSome)
    && (if c.mode = 0 then ss.all (fun s => c.resSeg.contains s)
        else ss.all (fun s => decide (c.owner s ≠ c.rank) || c.resSeg.contains s)
          && ss.all (fun s => decide (c.leafOwner (c.leafOf c.rank) s ≠ c.rank) || c.leaf = 1
            || decide (mfind s c.mSeg = some (-32768)) || ((mfind (2 * s) c.seg).elim false (·.done))))

/-- Completes a bucket exchange when nothing is missing. -/
def Dev.checkColl (d : Dev) (k : CollKey) (times : Option (Nat × Nat)) : Dev :=
  d.onColl k (fun c => if c.complete then d.endColl k times else d)

/-- A collective ends in failure: it completes with a status, its accumulators' blocks go free, and the step does not close
(R341, R346, R347, R350, R352, R398). -/
def Dev.failColl (d : Dev) (k : CollKey) (err status : Nat) : Dev :=
  d.onColl k (fun c =>
    let d := (d.waitOver c).setErr COL c.engine err
    let d := { d with fab := { d.fab with colls := d.fab.colls.filter (fun x => decide (x.key ≠ k)) },
                      ctl := { d.ctl with noClose := true } }
    let pool := enginePool c.engine
    let d := d.setF pool 0 (d.getF pool 0 + c.accHeld)
    let d := match c.cmd with
      | some j => d.complete j status 0
      | none => d
    if decide (status = 0x15) && d.replaying then d.recoveryFailed else d)

/-! ### The exchange, from its end to its start (R343 to R346) -/

/-- The words of a segment's elements that stand poisoned in the accumulator area (R549). -/
def Dev.segPoison (d : Dev) (c : Coll) (s : Nat) : List Nat :=
  match c.kind, d.train.plan with
  | .bucket b _, some p =>
    (((pieceElems (d.bucketPieces b)).drop (256 * s)).take 256).flatMap (fun x => d.poisonedIn (p.acc + 16 * (p.offset x.1 + x.2)) 16)
  | _, _ => []

/-- The segments among `ss` that meet a poisoned word as their exponents or integers are formed send nothing; the words are
the MC's, and POISON is set (R549). -/
def Dev.mutePoisoned (d : Dev) (k : CollKey) (ss : List Nat) : Dev :=
  d.onColl k (fun c =>
    let bad := (ss.filter (fun s => !c.mute.contains s)).filter (fun s => !(d.segPoison c s).isEmpty)
    if bad.isEmpty then d
    else
      let d := (bad.flatMap (d.segPoison c)).foldl (fun d w => d.poisonRead (w * 8)) d
      (d.setColl { c with mute := bad.foldl (fun a s => insertSet s a) c.mute }).setErr COL c.engine 20)

/-- A collective of the group that writes a RESULT range puts an end to the fetching of the older ones whose range it
overwrites (R349). -/
def Dev.dropOlder (d : Dev) (c : Coll) (written : List (Nat × Nat)) : Dev :=
  let gone (x : Coll) : Bool :=
    decide (x.groupId = c.groupId) && decide (x.key ≠ c.key) && x.ranges.any (fun a => written.any (fun b => overlaps a.1 a.2 b.1 b.2))
  { d with fab := { d.fab with past := d.fab.past.filter (fun x => !gone x) } }

/-- A member writes results (R274, R343). -/
def Dev.memberRes (d : Dev) (k : CollKey) (xs : List (Nat × List Byte)) : Dev :=
  d.onColl k (fun c =>
    let xs := xs.filter (fun x => !c.resSeg.contains x.1)
    let d := d.setColl { c with resSeg := xs.foldl (fun a x => insertSet x.1 a) c.resSeg }
    let d := d.dropOlder c (xs.flatMap (fun x => (c.segPlaces x.1).map (fun y => (y.2.2, fmtBytes y.2.1))))
    xs.foldl (fun d x => d.writeResults c x.1 x.2) d)

/-- Results go from the leaf's owner to the members of the leaf (R345). -/
def Dev.res1 (d : Dev) (k : CollKey) (xs : List (Nat × List Byte)) : Dev :=
  d.onColl k (fun c =>
    let d := (List.range c.leaf).foldl (fun d j =>
      let r := c.leafOf c.rank * c.leaf + j
      if r = c.rank then d else d.sendSegs c r 0x23 0 0 xs) d
    d.memberRes k xs)

/-- Results leave the owner: to every leaf under ALL_REDUCE, to no one under REDUCE_SCATTER (R343). -/
def Dev.res2 (d : Dev) (k : CollKey) (xs : List (Nat × List Byte)) : Dev :=
  d.onColl k (fun c =>
    if c.mode = 1 then d.memberRes k xs
    else
      let d := (List.range c.leaves).foldl (fun d l =>
        let r := l * c.leaf + c.inLeaf c.rank
        if r = c.rank then d else d.sendSegs c r 0x23 0 0 xs) d
      d.res1 k xs)

/-- Adds integers of a contributor; a contribution that is there already is a duplicate (R346). The sum of a leaf stays
readable, because it is the leaf's contribution to the owner (R348). -/
def Dev.intLevel (d : Dev) (k : CollKey) (level who : Nat) (xs : List (Nat × List Int)) : Dev × List (Nat × List Int) :=
  xs.foldl (fun (a : Dev × List (Nat × List Int)) x =>
    match a.1.coll k with
    | none => a
    | some c =>
      let st := c.segAt level x.1
      if st.intSeen.contains who || st.done then (a.1.bump COL c.engine 4 1, a.2)
      else
        let acc := if st.acc.isEmpty then x.2 else List.zipWith (· + ·) st.acc x.2
        let seen := insertSet who st.intSeen
        let full := decide (seen.length = c.need level)
        let d := a.1.setColl (c.setSeg level x.1 { st with intSeen := seen, acc := if full && decide (level = 2) then [] else acc, done := full })
        let pool := enginePool c.engine
        let d := if full && c.reserves level then d.setF pool 0 (d.getF pool 0 + c.accBlocks) else d
        (if full && decide (level = 2) then d.bump COL c.engine 1 1 else d, if full then a.2 ++ [(x.1, acc)] else a.2)) (d, [])

/-- Integers reach the owner among the leaves (R343, R345). -/
def Dev.int2 (d : Dev) (k : CollKey) (leaf : Nat) (xs : List (Nat × List Int)) : Dev :=
  let r := d.intLevel k 2 leaf xs
  r.1.onColl k (fun c => r.1.res2 k (r.2.map (fun x => (x.1, c.resultBytes x.1 (mget 0 c.mSeg x.1) x.2))))

/-- The bytes of integers, segment by segment. -/
def Coll.intSegs (c : Coll) (xs : List (Nat × List Int)) : List (Nat × List Byte) := xs.map (fun x => (x.1, intBytes c.width x.2))

/-- Leaf sums go to the owners among the leaves, as far as those are other devices (R345). -/
def Dev.sendLeafSums (d : Dev) (c : Coll) (xs : List (Nat × List Int)) : Dev :=
  (List.range c.leaves).foldl (fun d l =>
    let r := l * c.leaf + c.inLeaf c.rank
    if r = c.rank then d else d.sendSegs c r 0x22 0 0 (c.intSegs (xs.filter (fun x => decide (c.owner x.1 = r))))) d

/-- The leaf sums among `ss` that are complete here and whose results this device lacks (R348). -/
def Coll.leafSums (c : Coll) (ss : List Nat) : List (Nat × List Int) :=
  ((ss.filter (fun s => (c.segAt 1 s).done && !(c.segAt 1 s).acc.isEmpty && !c.resSeg.contains s)).map (fun s => (s, (c.segAt 1 s).acc)))

/-- Integers reach the owner within the leaf; a complete leaf sum goes on (R345). -/
def Dev.int1 (d : Dev) (k : CollKey) (who : Nat) (xs : List (Nat × List Int)) : Dev :=
  let r := d.intLevel k 1 who xs
  r.1.onColl k (fun c => (r.1.sendLeafSums c r.2).int2 k (c.leafOf c.rank) (r.2.filter (fun x => decide (c.owner x.1 = c.rank))))

/-- A member's integers of the segments among `ss` that it holds M for, whose results it lacks and that meet no poison
(R164, R165, R343). -/
def Coll.ints (c : Coll) (ss : List Nat) : List (Nat × List Int) :=
  (ss.filter (fun s => (mfind s c.mSeg).elim false (fun m => decide (m ≠ -32768)) && !c.mute.contains s && !c.resSeg.contains s)).map
    (fun s => (s, (c.segElems s).map (stakeInt c.width (mget 0 c.mSeg s))))

/-- C_INT of segments goes to their owners in the leaf (R343, R345). -/
def Dev.sendInts (d : Dev) (c : Coll) (xs : List (Nat × List Int)) : Dev :=
  (List.range c.leaf).foldl (fun d j =>
    let r := c.leafOf c.rank * c.leaf + j
    if r = c.rank then d else d.sendSegs c r 0x22 0 0 (c.intSegs (xs.filter (fun x => decide (c.own1 x.1 = j))))) d

/-- A member holds M of segments: it sends its integers, or writes +0 where M is 0x8000 (R165, R343). M that comes again, from
an owner that lost it, brings the integers again (R348). -/
def Dev.memberM (d : Dev) (k : CollKey) (xs : List (Nat × Int × Option HdrWords)) : Dev :=
  let d := d.mutePoisoned k ((xs.filter (fun x => decide (x.2.1 ≠ -32768))).map (·.1))
  d.onColl k (fun c =>
    let fresh := xs.filter (fun x => (mfind x.1 c.mSeg).isNone)
    let c := { c with mSeg := fresh.foldl (fun m x => mput x.1 x.2.1 m) c.mSeg,
                      hdrRes := fresh.foldl (fun h x => h.or x.2.2) c.hdrRes }
    let d := d.setColl c
    let zero := fresh.filter (fun x => decide (x.2.1 = -32768) && (decide (c.mode = 0) || decide (c.owner x.1 = c.rank)))
    let d := d.memberRes k (zero.map (fun x => (x.1, c.resultBytes x.1 0 ((c.segPlaces x.1).map (fun _ => 0)))))
    let d := d.sendInts c (c.ints (xs.map (·.1)))
    d.int1 k (c.inLeaf c.rank) (c.ints ((xs.map (·.1)).filter (fun s =>
      decide (c.own1 s = c.inLeaf c.rank) && !(c.segAt 1 s).intSeen.contains (c.inLeaf c.rank)))))

/-- The bytes of M, behind header words when it has them. -/
def mBytes (x : Nat × Int × Option HdrWords) : Nat × List Byte := (x.1, x.2.2.elim [] (·.bytes) ++ leBytes 2 (twos 16 x.2.1))

/-- FLAGS of a run that begins with segment 0. -/
def hdrFlags (xs : List (Nat × Int × Option HdrWords)) : Nat := (xs.find? (fun x => x.2.2.isSome)).elim 0 (fun x => x.2.2.elim 0 (·.flags))

/-- A leaf sum of a segment with M = 0x8000 never comes: its accumulator is done and its blocks go free (R165, R343). -/
def Dev.dropZeroSums (d : Dev) (k : CollKey) (xs : List (Nat × Int × Option HdrWords)) : Dev :=
  (xs.filter (fun x => decide (x.2.1 = -32768))).foldl (fun d x =>
    d.onColl k (fun c =>
      let st := c.segAt 1 x.1
      let pool := enginePool c.engine
      if st.done || !st.expDone then d
      else
        let d := d.setColl (c.setSeg 1 x.1 { st with done := true })
        if c.reserves 1 then d.setF pool 0 (d.getF pool 0 + c.accBlocks) else d)) d

/-- M goes from the leaf's owner to the members of the leaf; a leaf sum that is there already goes up again (R348). -/
def Dev.mDown1 (d : Dev) (k : CollKey) (xs : List (Nat × Int × Option HdrWords)) : Dev :=
  (d.dropZeroSums k xs).onColl k (fun c =>
    let d := (d.dropZeroSums k xs).sendLeafSums c (c.leafSums (xs.map (·.1)))
    let d := (List.range c.leaf).foldl (fun d j =>
      let r := c.leafOf c.rank * c.leaf + j
      if r = c.rank then d else d.sendSegs c r 0x21 0 (hdrFlags xs) (xs.map mBytes)) d
    d.memberM k xs)

/-- M leaves the owner for every leaf (R343, R344). -/
def Dev.mDown2 (d : Dev) (k : CollKey) (xs : List (Nat × Int × Option HdrWords)) : Dev :=
  d.onColl k (fun c =>
    if xs.isEmpty then d
    else
      let d := (List.range c.leaves).foldl (fun d l =>
        let r := l * c.leaf + c.inLeaf c.rank
        if r = c.rank then d else d.sendSegs c r 0x21 0 (hdrFlags xs) (xs.map mBytes)) d
      d.mDown1 k xs)

/-- Records exponents of a contributor at a level (R343, R346). -/
def Dev.expLevel (d : Dev) (k : CollKey) (level who : Nat) (xs : List (Nat × Int × Option HdrWords)) : Dev :=
  xs.foldl (fun d x =>
    d.onColl k (fun c =>
      let st := c.segAt level x.1
      if st.expSeen.contains who then d.bump COL c.engine 4 1
      else
        let c := c.setSeg level x.1 { st with expSeen := insertSet who st.expSeen,
                                              expMax := some (st.expMax.elim x.2.1 (max x.2.1)) }
        let c := match x.2.2 with
          | some h => { c with hdrs := mput level ((mfind level c.hdrs).elim h (fun g => g.merge h)) c.hdrs }
          | none => c
        d.setColl c)) d

/-- The segments of a level whose exponents are complete and whose accumulator can be reserved now go on, in
ascending order (R343). Only the maximum over all members tells that a segment carries no integers (R165), so a leaf
reserves its accumulator in any case. -/
def Dev.grant (d : Dev) (k : CollKey) (level : Nat) : Dev × List (Nat × Int × Option HdrWords) :=
  match d.coll k with
  | none => (d, [])
  | some c =>
    (List.range c.segs).foldl (fun (a : Dev × List (Nat × Int × Option HdrWords)) s =>
      match a.1.coll k with
      | none => a
      | some c =>
        let st := c.segAt level s
        let m := st.expMax.getD (-32768)
        let pool := enginePool c.engine
        let zero := decide (level = 2) && decide (m = -32768)
        let n := if c.reserves level && !zero then c.accBlocks else 0
        if st.expSeen.length < c.need level ∨ st.expDone = true ∨ a.1.getF pool 0 < n then a
        else
          let d := a.1.setColl (c.setSeg level s { st with expDone := true, done := zero })
          let d := if zero then d.bump COL c.engine 1 1 else d
          let d := if n = 0 then d else d.setF pool 0 (d.getF pool 0 - n)
          (d, a.2 ++ [(s, m, if s = 0 then mfind level c.hdrs else none)])) (d, [])

/-- Exponents reach the owner among the leaves. -/
def Dev.exp2 (d : Dev) (k : CollKey) (leaf : Nat) (xs : List (Nat × Int × Option HdrWords)) : Dev :=
  let r := (d.expLevel k 2 leaf xs).grant k 2
  r.1.mDown2 k r.2

/-- Leaf maxima go on to the owners among the leaves. -/
def Dev.expUp (d : Dev) (k : CollKey) (xs : List (Nat × Int × Option HdrWords)) : Dev :=
  d.onColl k (fun c =>
    let d := (List.range c.leaves).foldl (fun d l =>
      let r2 := l * c.leaf + c.inLeaf c.rank
      let part := xs.filter (fun x => decide (c.owner x.1 = r2))
      if r2 = c.rank then d else d.sendSegs c r2 0x20 0 (hdrFlags part) (part.map mBytes)) d
    d.exp2 k (c.leafOf c.rank) (xs.filter (fun x => decide (c.owner x.1 = c.rank))))

/-- Exponents reach the owner within the leaf. -/
def Dev.exp1 (d : Dev) (k : CollKey) (who : Nat) (xs : List (Nat × Int × Option HdrWords)) : Dev :=
  let r := (d.expLevel k 1 who xs).grant k 1
  r.1.expUp k r.2

/-- Segments that waited for blocks of the response pool go on when there are enough (R343). -/
def Dev.regrant (d : Dev) : Dev :=
  (d.fab.colls.filter (·.isBucket)).foldl (fun d c =>
    let a := d.grant c.key 1
    let d := a.1.expUp c.key a.2
    let b := d.grant c.key 2
    b.1.mDown2 c.key b.2) d

/-- Blocks of the response pool have gone free: segments that waited for them go on, then gets (R338, R343). -/
def Dev.poolFreed (d : Dev) : Dev := d.regrant.pumpAll

/-- A member contributes the exponents of every segment that meets no poison, with the header words (R343,
R344, R549). -/
def Dev.sendExps (d : Dev) (k : CollKey) (only : Nat → Bool) : Dev :=
  let d := (d.coll k).elim d (fun c => d.mutePoisoned k ((List.range c.segs).filter only))
  d.onColl k (fun c =>
    let sizing := match c.kind with
      | .bucket _ z => z
      | _ => false
    let h := d.ownHeader c sizing
    let xs := ((List.range c.segs).filter (fun s => !c.mute.contains s && only s)).map (fun s =>
      (s, localExp (c.segElems s), if s = 0 then some h else none))
    let leaf := c.leafOf c.rank
    let d := (List.range c.leaf).foldl (fun d j =>
      let r2 := leaf * c.leaf + j
      let part := xs.filter (fun x => decide (c.own1 x.1 = j))
      if r2 = c.rank then d else d.sendSegs c r2 0x20 0 (hdrFlags part) (part.map mBytes)) d
    d.exp1 k (c.inLeaf c.rank) (xs.filter (fun x => decide (c.own1 x.1 = c.inLeaf c.rank))))

/-! ### Non-summing collectives (R351) -/

/-- Cuts bytes into packets of C_DATA. -/
def Dev.sendData (d : Dev) (c : Coll) (r flags : Nat) (bs : List Byte) : Dev :=
  (chunks 4096 bs.length bs).foldl (fun d x => d.toRank c r (c.packet 0x24 flags 0 0 x)) d

/-- Bytes that are to come from a rank. -/
def Coll.expects (c : Coll) (r : Nat) : Nat :=
  match c.kind with
  | .allGather _ _ len => if r = c.rank then 0 else len
  | .broadcast _ _ len root => if r = root ∧ c.rank ≠ root then len else 0
  | _ => 0

/-- A non-summing collective has everything that it waits for. -/
def Coll.dataDone (c : Coll) : Bool :=
  c.sent && (match c.kind with
    | .barrier => false
    | _ => (List.range c.n).all (fun r => decide (c.expects r ≤ mget 0 c.got r)))

/-- Ends a gather or a broadcast that is complete. -/
def Dev.checkData (d : Dev) (k : CollKey) : Dev := d.onColl k (fun c => if c.dataDone && !c.isBucket then d.endColl k none else d)

/-- Rank 0 has C_BAR from every member: it releases them (R351). -/
def Dev.checkBar (d : Dev) (k : CollKey) : Dev :=
  d.onColl k (fun c =>
    if c.rank = 0 ∧ c.barSeen.length = c.n ∧ c.kind = .barrier then
      let d := (List.range c.n).foldl (fun d r => if r = 0 then d else d.toRank c r (c.packet 0x26 0 0 0 [])) d
      d.endColl k none
    else d)

/-- The other ranks. -/
def Coll.others (c : Coll) : List Nat := (List.range c.n).filter (fun r => decide (r ≠ c.rank))

/-- An exchange issued again holds M of some segments from before: their integers go out again (R346, R390, R549). -/
def Dev.renewInts (d : Dev) (k : CollKey) : Dev :=
  d.onColl k (fun c => d.memberM k ((List.range c.segs).filterMap (fun s =>
    if c.fetching then none else (mfind s c.mSeg).map (fun m => (s, m, none)))))

/-- The device contributes to a collective for the first time (R343, R351). -/
def Dev.contribute (d : Dev) (k : CollKey) : Dev :=
  d.onColl k (fun c =>
    let d := d.setColl { c with sent := true }
    match c.kind with
    | .bucket _ _ => ((d.sendExps k (fun _ => true)).renewInts k).checkColl k none
    | .allGather src dst len =>
      let bad := (d.poisonIn src len).isSome
      let d := if bad then d.setErr COL c.engine 20 else d
      let bs := d.bytes src len
      let d := c.others.foldl (fun d r => d.sendData c r (b2n bad) bs) d
      ((d.dropOlder c [(dst + c.rank * len, len)]).write (dst + c.rank * len) bs).checkData k
    | .broadcast src dst len root =>
      if c.rank = root then
        let bad := (d.poisonIn src len).isSome
        let d := if bad then d.setErr COL c.engine 20 else d
        let bs := d.bytes src len
        let d := c.others.foldl (fun d r => d.sendData c r (b2n bad) bs) d
        (if src = dst then d else (d.dropOlder c [(dst, len)]).write dst bs).checkData k
      else d.checkData k
    | .barrier =>
      if c.rank = 0 then (d.setColl { c with sent := true, barSeen := insertSet 0 c.barSeen }).checkBar k
      else d.toRank c 0 (c.packet 0x25 0 0 0 []))

/-- SEAL_GATE holds the contributions of the open step: its opening boundary has not sealed (R372, R376,
R384). -/
def Dev.gateShut (d : Dev) : Bool :=
  let st := d.getF R.SOW_PAIR_STATUS_STATE 0
  decide (d.getF R.SOW_CFG_SEAL_GATE 0 = 1) && decide (st ≠ 0) && decide (st ≠ 5) && decide (0 < d.step)
    && d.sow.unsealed.contains (d.step - 1)

/-- The gate has opened: the collectives issued meanwhile contribute, in order. -/
def Dev.openGate (d : Dev) : Dev :=
  if d.gateShut then d
  else (d.fab.colls.filter (fun c => !c.sent)).foldl (fun d c => d.contribute c.key) d

/-! ### Arriving messages (R346, R348 to R350) -/

/-- Sender's rank and N of a collective packet (R325). -/
def packetRank (p : Packet) : Nat := bitsOf p.addr 32 16
/-- N of a collective packet (R325). -/
def packetN (p : Packet) : Nat := bitsOf p.addr 48 16
/-- First segment of a collective packet (R325). -/
def packetSeg (p : Packet) : Nat := bitsOf p.op1 32 32
/-- SEG_COUNT of a collective packet (R325). -/
def packetCount (p : Packet) : Nat := p.op2 % 2 ^ 32

/-- Bytes of header words ahead of the payload. -/
def packetHdrLen (p : Packet) : Nat := (if bitOf p.flags 1 then 8 else 0) + (if bitOf p.flags 2 then 8 else 0)

/-- The header words of a packet. -/
def packetHdr (p : Packet) : Option HdrWords := if bitOf p.flags 1 then some (hdrFrom (bitOf p.flags 2) p.payload) else none

/-- The 16-bit values of C_EXP and C_M by segment. -/
def packetExps (p : Packet) : List (Nat × Int × Option HdrWords) :=
  let vs := bytesInts 16 (packetCount p) ((p.payload.drop (packetHdrLen p)).take (2 * packetCount p))
  (vs.zipIdx).map (fun x => (packetSeg p + x.2, x.1, if packetSeg p + x.2 = 0 then packetHdr p else none))

/-- Cuts a payload by segment lengths from segment s. -/
def cutSegs (len : Nat → Nat) : Nat → Nat → List Byte → List (Nat × List Byte)
  | 0, _, _ => []
  | n + 1, s, bs => (s, bs.take (len s)) :: cutSegs len n (s + 1) (bs.drop (len s))

/-- The packet belongs to a different collective (R346). -/
def Dev.mismatched (d : Dev) (c : Coll) (p : Packet) : Bool :=
  let h := packetHdr p
  decide (packetN p ≠ c.n) || decide (bitsOf p.op1 16 16 ≠ c.bucket % 2 ^ 16)
    || (c.isBucket && decide (p.attr % 2 ≠ (if c.width = 32 then 1 else 0)))
    || h.elim false (fun h => decide (h.bucket ≠ c.bucket % 2 ^ 16) || decide (h.step ≠ c.step % 2 ^ 16)
      || h.sizing.elim false (fun z => decide (z.2.2.2.2 ≠ d.bucketCode)))

/-- The rank of a packet is a member's and the packet comes from it. -/
def Coll.from? (c : Coll) (p : Packet) : Bool :=
  decide (packetRank p < c.n) && decide ((c.members.getD (packetRank p) (0, 0)).1 = p.src)

/-- Segments that the answering device serves itself when a replaying member's own segments are asked of its
neighbour (R397): those the member owns. -/
def Coll.ownSegs (c : Coll) : List Nat :=
  (List.range c.segs).filter (fun s =>
    if 1 < c.leaf then decide (c.leafOwner (c.leafOf c.rank) s = c.rank) else decide (c.owner s = c.rank))

/-- The first DONE of a fetched collective: the device asks rank (MY_RANK + 1) mod N for the segments it owns
itself (R350, R397). -/
def Dev.beginFetch (d : Dev) (k : CollKey) : Dev :=
  d.onColl k (fun c =>
    if c.fetching then d
    else
      let d := d.setColl { c with fetching := true }
      let h := d.ownHeader c (match c.kind with
        | .bucket _ z => z
        | _ => false)
      let xs := c.ownSegs.map (fun s => (s, localExp (c.segElems s), if s = 0 then some h else none))
      d.sendSegs c ((c.rank + 1) % c.n) 0x20 0 (hdrFlags xs) (xs.map mBytes))

/-- A collective message meets its collective, issued here (R343 to R346, R350). -/
def Dev.handleColl (d : Dev) (c : Coll) (p : Packet) : Dev :=
  let k := c.key
  let r := packetRank p
  let inside := decide (c.leafOf r = c.leafOf c.rank)
  let d := d.bump COL c.engine 3 p.payload.length
  if !c.from? p then d
  else if d.mismatched c p then d.failColl k 16 0x13
  else if p.opc = 0x20 then
    if inside && decide (1 < c.leaf) then d.exp1 k (c.inLeaf r) (packetExps p) else d.exp2 k (c.leafOf r) (packetExps p)
  else if p.opc = 0x21 then
    if p.status ≠ 0 then d.failColl k 19 0x15
    else if bitOf p.flags 3 then
      let d := d.beginFetch k
      d.onColl k (fun c =>
        let xs := (packetExps p).filter (fun x => (mfind x.1 c.mSeg).isNone)
        d.setColl { c with mSeg := xs.foldl (fun m x => mput x.1 x.2.1 m) c.mSeg,
                           hdrRes := xs.foldl (fun h x => h.or x.2.2) c.hdrRes })
    else
      let d := d.rejoin
      if inside then d.memberM k (packetExps p) else d.mDown1 k (packetExps p)
  else if p.opc = 0x22 then
    let xs := (cutSegs (fun s => (c.segPlaces s).length * (c.width / 8)) (packetCount p) (packetSeg p) p.payload).map (fun x =>
      (x.1, bytesInts c.width 256 x.2))
    if inside && decide (1 < c.leaf) then d.int1 k (c.inLeaf r) xs else d.int2 k (c.leafOf r) xs
  else if p.opc = 0x23 then
    if bitOf p.flags 0 then d.setErr COL c.engine 20
    else
      let xs := cutSegs c.resultLen (packetCount p) (packetSeg p) p.payload
      (if inside || c.fetching then d.memberRes k xs else d.res1 k xs)
  else if p.opc = 0x24 then
    let d := if bitOf p.flags 0 then d.setErr COL c.engine 20 else d
    let n := mget 0 c.got r
    let bs := p.payload.take (c.expects r - n)
    let at' := match c.kind with
      | .allGather _ dst len => dst + r * len + n
      | .broadcast _ dst _ _ => dst + n
      | _ => 0
    ((d.dropOlder c [(at', bs.length)]).write at' bs).setColl { c with got := mput r (n + bs.length) c.got }
  else if p.opc = 0x25 then
    if c.rank = 0 ∧ c.kind = .barrier then
      if c.barSeen.contains r then d.bump COL c.engine 4 1 else d.setColl { c with barSeen := insertSet r c.barSeen }
    else d
  else if c.kind = .barrier ∧ c.rank ≠ 0 ∧ r = 0 then d.endColl k none
  else d

/-- After a message: what can complete completes, segments that waited for blocks go on. -/
def Dev.afterColl (d : Dev) (k : CollKey) (times : Option (Nat × Nat)) : Dev :=
  (((d.checkColl k times).checkData k).checkBar k).poolFreed

/-- The answer to a C_EXP for a collective completed here: DONE with M and the header words, then the results
from the RESULT range (R349, R350, R397). -/
def Dev.servePast (d : Dev) (c : Coll) (p : Packet) : Dev :=
  let r := packetRank p
  let d := d.bump COL c.engine 3 p.payload.length
  let ss := (List.range (packetCount p)).map (· + packetSeg p)
  let holds := ss.all (fun s => decide (s < c.segs) && (decide (c.mode = 0) || decide (c.owner s = c.rank)))
  if !holds then (d.setErr COL c.engine 19).toRank c r { c.packet 0x21 8 (packetSeg p) 0 [] with status := 0x15 }
  else
    let d := d.bump COL c.engine 5 1
    let ms := ss.map (fun s => (s, mget 0 c.mSeg s, if s = 0 then c.hdrRes else none))
    let d := d.sendSegs c r 0x21 8 (hdrFlags ms) (ms.map mBytes)
    let bad := ss.any (fun s => (c.segPlaces s).any (fun x => (d.poisonIn x.2.2 (fmtBytes x.2.1)).isSome))
    let d := if bad then d.setErr COL c.engine 20 else d
    d.sendSegs c r 0x23 (b2n bad) 0
      (ss.map (fun s => (s, (c.segPlaces s).flatMap (fun x => d.bytes x.2.2 (fmtBytes x.2.1)))))

/-- The index of the group that a packet's GROUP_ID names. -/
def Dev.groupIndex (d : Dev) (gid : Nat) : Option Nat :=
  (List.range (min 256 (d.getF R.COL_GROUP_COUNT_COUNT 0))).find? (fun g => decide (d.nat (d.groupAt g) 4 = gid))

/-- A collective that this device has completed or whose step has closed, and that it does not hold any more:
the contributor learns RESULT_GONE, from this device's rank in the group (R325, R350). -/
def Dev.serveGone (d : Dev) (p : Packet) : Dev :=
  let q := packetOf 0x21
  let rank := (d.groupIndex (p.addr % 2 ^ 32)).elim 0 (fun g => (d.group g).rank)
  d.sendOn p.dstFlow { q with
    flags := 8, status := 0x15, addr := p.addr % 2 ^ 32 + rank * 2 ^ 32 + packetN p * 2 ^ 48, tag := p.tag, op1 := p.op1, attr := p.attr }

/-- The collective that a packet names was issued here before: its step has closed, or its CIDX has begun. -/
def Dev.wasIssued (d : Dev) (p : Packet) : Bool :=
  let n := seqDiff (d.step % 2 ^ 32) p.tag
  let begun := (d.fab.past.filter (fun c => decide (c.groupId = p.addr % 2 ^ 32) && decide (c.step % 2 ^ 32 = p.tag))).any
    (fun c => decide (p.op1 % 2 ^ 16 < c.cidx))
  decide (0 < n) || (decide (n = 0) && begun)

/-- A packet can be parked: at most 16 collectives of its group, and blocks for it in the pool (R346). -/
def Dev.canPark (d : Dev) (p : Packet) : Bool :=
  let ks := (d.fab.parked.filter (fun q => decide (q.addr % 2 ^ 32 = p.addr % 2 ^ 32))).map packetKey
  let known := ks.contains (packetKey p)
  let pool := if p.dstFlow < 131072 then R.FLW_POOL_FREE_N else R.FLW_POOL_FREE_S
  (known || decide ((ks.foldl (fun (a : List CollKey) x => if a.contains x then a else x :: a) []).length < 16))
    && decide ((p.payload.length + 255) / 256 ≤ d.getF pool 0)

/-- Parks a packet, with its blocks. -/
def Dev.park (d : Dev) (p : Packet) : Dev :=
  let pool := if p.dstFlow < 131072 then R.FLW_POOL_FREE_N else R.FLW_POOL_FREE_S
  Dev.setF { d with fab := { d.fab with parked := d.fab.parked ++ [p] } } pool 0 (d.getF pool 0 - (p.payload.length + 255) / 256)

/-- A collective message is one that parks: a first contribution to a collective not yet issued here. Gathers
and barriers park as C_EXP does (log entry 20). -/
def Dev.parks (d : Dev) (p : Packet) : Bool :=
  [0x20, 0x24, 0x25].contains p.opc && (d.coll (packetKey p)).isNone
    && !d.fab.past.any (fun c => decide (c.key = packetKey p)) && !d.wasIssued p

/-- A collective message is performed (R346, R349 to R351). -/
def Dev.performColl (d : Dev) (p : Packet) (times : Option (Nat × Nat)) : Dev :=
  let k := packetKey p
  match d.coll k with
  | some c => (d.handleColl c p).afterColl k times
  | none =>
    match d.fab.past.find? (fun c => decide (c.key = k)) with
    | some c =>
      if p.opc = 0x20 ∧ c.isBucket = true then d.servePast c p
      else
        let d := d.bump COL c.engine 3 p.payload.length
        if p.opc = 0x25 ∧ c.kind = .barrier ∧ c.rank = 0 then d.toRank c (packetRank p) (c.packet 0x26 0 0 0 []) else d
    | none =>
      if d.parks p then d.park p else if p.opc = 0x20 then d.serveGone p else d

/-- A collective packet arrives: one that cannot be parked is discarded and answered with NACK (R335, R346). -/
def Dev.collArrive (d : Dev) (opc : Nat) (p : Packet) (times : Option (Nat × Nat)) : Dev :=
  if p.opc ≠ opc then d
  else if d.parks p && !d.canPark p then d.onFlow p (fun d => (d.takeAck p.dstFlow p.ack).control p.dstFlow 0x11)
  else d.arrive p (fun d => d.performColl p times)

/-- The parked packets of a collective meet it now that it is issued. -/
def Dev.unpark (d : Dev) (k : CollKey) : Dev :=
  let mine := d.fab.parked.filter (fun p => decide (packetKey p = k))
  let d := { d with fab := { d.fab with parked := d.fab.parked.filter (fun p => decide (packetKey p ≠ k)) } }
  mine.foldl (fun d p =>
    let pool := if p.dstFlow < 131072 then R.FLW_POOL_FREE_N else R.FLW_POOL_FREE_S
    let d := d.setF pool 0 (d.getF pool 0 + (p.payload.length + 255) / 256)
    d.onColl k (fun c => (d.handleColl c p).afterColl k none)) d

/-! ### Issue (R274, R341, R342, R351) -/

/-- A collective as it is issued. -/
def Group.coll (g : Group) (idx step cidx engine width : Nat) (kind : CollKind) (cmd : Option JobCmd) : Coll :=
  { group := idx, groupId := g.groupId, n := g.n, rank := g.rank, leaf := g.leaf, mode := g.mode, step := step, cidx := cidx,
    kind := kind, engine := engine, width := width, members := g.members, segs := 0, elems := [], runs := [], seg := [],
    hdrs := [], hdrRes := none, mSeg := [], resSeg := [], mute := [], barSeen := [], got := [], cmd := cmd, sent := false,
    fetching := false, done := false, status := 0 }

/-- A collective issued again in an in-place replay takes over what the engine holds of it (R390). -/
def Coll.takeOver (c : Coll) (o : Option Coll) : Coll :=
  match o with
  | some o => { c with seg := o.seg, hdrs := o.hdrs, hdrRes := o.hdrRes, mSeg := o.mSeg, resSeg := o.resSeg,
                       barSeen := o.barSeen, got := o.got }
  | none => c

/-- A collective enters flight: it contributes unless the gate is shut, and meets what was parked for it. -/
def Dev.launchColl (d : Dev) (c : Coll) : Dev :=
  let c := c.takeOver (d.coll c.key)
  let d := { d with fab := { d.fab with colls := d.fab.colls.filter (fun (x : Coll) => decide (x.key ≠ c.key)) ++ [c] } }
  let d := if d.blk COL c.engine = stReady then d.setBlk COL c.engine stRunning else d
  ((if d.gateShut then d else d.contribute c.key).unpark c.key).poolFreed

/-- An engine takes collectives: READY or RUNNING (R477, R545). -/
def Dev.engineUp (d : Dev) (e : Nat) : Bool := decide (d.blk COL e = stReady) || decide (d.blk COL e = stRunning)

/-- The exchange of bucket b as it is issued: elements and result places (R274). -/
def Dev.bucketColl (d : Dev) (p : GradPlan) (b : Nat) : Coll :=
  let ps := d.bucketPieces b
  let es := pieceElems ps
  let last := decide (b + 1 = d.bucketCount)
  let c := (d.group p.group).coll p.group d.step (d.train.placed.getD b 0) (b % 4) p.width (.bucket b last) none
  let segs := (es.length + 255) / 256
  { c with segs := segs, elems := es.map (fun x => d.accVal p x.1 x.2)
           runs := ps.map (fun q =>
             let g := (p.grads.getD q.grad ⟨0, 0, 0, 0⟩)
             ⟨g.entry, g.rformat, g.result + q.first * fmtBytes g.rformat, q.take⟩) }

/-- BUCKET_EXCHANGE_START (R274 to R277, R341, R549): the next bucket of the step, complete, starts on its engine. -/
def Dev.startBucket (d : Dev) (b : Nat) : Dev :=
  match d.train.plan with
  | none => d
  | some p =>
    if !d.jobActive || decide (b ≠ d.train.started) || decide (d.bucketCount ≤ b) || !d.bucketIn d.train.doneGrads b
        || !d.engineUp (b % 4) then d
    else
      let d := { d with train := { d.train with started := b + 1 } }
      if !d.groupOk p.group then
        let d := d.groupBad p.group (b % 4)
        { d with ctl := { d.ctl with noClose := true } }
      else
        let c := d.bucketColl p b
        let d := if b + 1 = d.bucketCount then d.setF R.COL_BUCKET_STATUS_PROPOSED 0 d.proposal else d
        d.launchColl c

/-- Arguments of a direct collective outside their ranges (R523). -/
def directArgsBad (c : JobCmd) : Bool :=
  let a := argOf c 0
  match c.opc with
  | 7 => decide (256 ≤ a) || !argsClear c 4
  | 8 => decide (bitsOf a 8 8 ≠ 0) || decide (2 ^ 32 ≤ a) || !argsClear c 4
  | _ => decide (256 ≤ a) || !argsClear c 1

/-- What a direct collective's command asks for, given its group. -/
def directKind (c : JobCmd) : CollKind :=
  match c.opc with
  | 7 => .allGather (argOf c 1) (argOf c 2) (argOf c 3)
  | 8 => .broadcast (argOf c 1) (argOf c 2) (argOf c 3) (bitsOf (argOf c 0) 16 16)
  | _ => .barrier

/-- Its source and destination lie in job memory (R290, R526). -/
def Dev.directWindows (d : Dev) (g : Group) (k : CollKind) : Bool :=
  match k with
  | .allGather src dst len => d.inJob src len && d.inJob dst (len * g.n)
  | .broadcast src dst len root => (decide (g.rank ≠ root) || d.inJob src len) && d.inJob dst len
  | _ => true

/-- The engine of a direct collective, which no rule names: CIDX mod 4 (log entry 20). -/
def directEngine (cidx : Nat) : Nat := cidx % 4

/-- A direct collective begins (R341, R342, R351). -/
def Dev.direct (d : Dev) (c : JobCmd) : Dev :=
  let g := argOf c 0 % 256
  let cidx := ((d.train.places.find? (fun x => decide (x.1 = c.num))).map (·.2)).getD 0
  let e := directEngine cidx
  if directArgsBad c then d.complete c 2 0
  else if !d.groupOk g then (d.groupBad g e).complete c 0x12 0
  else
    let x := d.group g
    let kind := directKind c
    let rootBad := match kind with
      | .broadcast _ _ _ root => decide (x.n ≤ root)
      | _ => false
    if rootBad then d.complete c 2 0
    else if !d.directWindows x kind then d.complete c 4 0
    else d.launchColl (x.coll g d.step cidx e 64 kind (some c))

/-! ### Waiting and resynchronisation (R347, R348) -/

/-- The ranks that a collective waits for. -/
def Coll.missing (c : Coll) : List Nat :=
  match c.kind with
  | .barrier => if c.rank = 0 then (List.range c.n).filter (fun r => !c.barSeen.contains r) else [0]
  | .bucket _ _ =>
    let leaf := c.leafOf c.rank
    let at1 := (List.range c.segs).filter (fun s => decide (c.leafOwner leaf s = c.rank))
    let at2 := at1.filter (fun s => decide (c.owner s = c.rank))
    let lack (level : Nat) (s j : Nat) : Bool :=
      let st := c.segAt level s
      !st.done && (!st.expSeen.contains j || (st.expDone && !st.intSeen.contains j))
    let m1 := at1.flatMap (fun s => ((List.range c.leaf).filter (lack 1 s)).map (fun j => leaf * c.leaf + j))
    let m2 := at2.flatMap (fun s => ((List.range c.leaves).filter (lack 2 s)).map (fun l => c.leafOwner l s))
    let rest := ((List.range c.segs).filter (fun s => (mfind s c.mSeg).isNone || (decide (c.mode = 0) && !c.resSeg.contains s))).map c.owner
    let all := (m1 ++ m2).filter (fun r => decide (r ≠ c.rank))
    if all.isEmpty then rest else all
  | _ => (List.range c.n).filter (fun r => decide (mget 0 c.got r < c.expects r))

/-- COLLECTIVE_WAIT_LONG (R347, R362): the oldest collective in flight on an engine has waited 1 s. -/
def execCollectiveWaitLong (engine : Nat) (s : State) : Res :=
  s.onDev (fun d =>
    match d.oldestColl engine with
    | none => d
    | some c =>
      let r := c.missing.foldl min 0xFFFFFFFF
      let d := (d.setF R.COL_MISSING_VALID engine 1).setF R.COL_MISSING_RANK engine r
      ((d.setF R.COL_WAIT_ID_CIDX engine c.cidx).setF R.COL_WAIT_ID_STEP engine c.step).setErr COL engine 17)

/-- COLLECTIVE_WAIT_LIMIT (R347): with a nonzero LIMIT the oldest collective ends with WAIT_LIMIT. -/
def execCollectiveWaitLimit (engine : Nat) (s : State) : Res :=
  s.onDev (fun d =>
    match d.oldestColl engine with
    | none => d
    | some c => if d.actF R.COL_WAIT_LIMIT engine = 0 then d else (d.failColl c.key 18 0x14).poolFreed)

/-- What a device sends again to a member whose flow was resynchronised (R348): its contributions, exponents and
integers, to the incomplete segments which that member owns, and M and the results of the segments it owns itself. -/
def Dev.resendTo (d : Dev) (c : Coll) (r : Nat) : Dev :=
  let leaf := c.leafOf c.rank
  let inside := decide (c.leafOf r = leaf)
  let theirs := (List.range c.segs).filter (fun s =>
    !c.resSeg.contains s && (if inside then decide (c.leafOwner leaf s = r) else decide (c.owner s = r)))
  let d :=
    if inside then
      (d.sendExps c.key (fun s => theirs.contains s)).onColl c.key (fun c => d.sendSegs c r 0x22 0 0 (c.intSegs (c.ints theirs)))
    else
      let part := (theirs.filter (fun s => (c.segAt 1 s).expDone)).map (fun s =>
        (s, (c.segAt 1 s).expMax.getD (-32768), if s = 0 then mfind 1 c.hdrs else none))
      (d.sendSegs c r 0x20 0 (hdrFlags part) (part.map mBytes)).sendSegs c r 0x22 0 0 (c.intSegs (c.leafSums theirs))
  let down := (List.range c.segs).filter (fun s =>
    if inside then decide (c.leafOwner leaf s = c.rank) else decide (c.owner s = c.rank) && decide (c.leafOwner (c.leafOf r) s = r))
  let ms := (down.filter (fun s => (mfind s c.mSeg).isSome)).map (fun s => (s, mget 0 c.mSeg s, if s = 0 then c.hdrRes else none))
  let d := d.sendSegs c r 0x21 0 (hdrFlags ms) (ms.map mBytes)
  d.sendSegs c r 0x23 0 0 ((down.filter (fun s => c.resSeg.contains s && decide (c.mode = 0))).map (fun s =>
    (s, (c.segPlaces s).flatMap (fun x => d.bytes x.2.2 (fmtBytes x.2.1)))))

/-- What a device sends again of a non-summing collective. -/
def Dev.resendData (d : Dev) (c : Coll) (r : Nat) : Dev :=
  match c.kind with
  | .allGather src _ len => d.sendData c r 0 (d.bytes src len)
  | .broadcast src _ len root => if c.rank = root then d.sendData c r 0 (d.bytes src len) else d
  | .barrier => if c.rank ≠ 0 ∧ r = 0 then d.toRank c 0 (c.packet 0x25 0 0 0 []) else d
  | .bucket _ _ => d.resendTo c r

/-! ### Commands that free blocks of the response pool (R338, R343) -/

/-- GET_RESP (R336, R338): the data goes to its destination, or the GET completes with POISON. -/
def execGetResp (p : Packet) (s : State) : Res :=
  s.onDev (fun d =>
    if p.opc ≠ 3 then d
    else d.arrive p (fun d =>
      match d.opByTag p.dstFlow p.tag 2 with
      | some o =>
        if bitOf p.flags 0 then (d.endOp p.dstFlow o p.addr 2).poolFreed
        else
          let d := if o.cell < 1152 then d.storeBytes o.cell o.store (p.payload.take o.len) else d
          (d.endOp p.dstFlow o 0 0).poolFreed
      | none => d))

/-- OP_STATUS (R326, R336): the operation with this TAG completes with the code. -/
def execOpStatus (p : Packet) (s : State) : Res :=
  s.onDev (fun d =>
    if p.opc ≠ 8 then d
    else d.arrive p (fun d =>
      match (d.flow p.dstFlow).ops.find? (fun o => decide (o.tag = p.tag)) with
      | some o => (d.endOp p.dstFlow o p.addr p.status).poolFreed
      | none => d))

/-- FLW_CMD_WRITE (R293, R333, R334, R337, R510): installs the staged context, or refuses it. Operations of the flow that
still wait for their answer complete with CLOSED, and their pool blocks go free: DESIGN CHOICE, log entry 42. -/
def execFlwCmdWrite (w : Writer) (s : State) : Res :=
  s.byWriter w (fun d =>
    let f := d.getF R.FLW_INDEX_INDEX 0
    let bs := d.stagedContext
    let code := d.contextCode f bs
    let d := d.setF R.FLW_CMD_STAT_CODE 0 code
    if code ≠ 2 then d.setErr FLW 0 19
    else
      let d := ((((d.endOps f 6).setFlow f (flowFrom bs 1)).shadowFlow f)).poolFreed
      if (d.flow f).state = 1 then d.probe f else d)

/-- FLW_CMD_CLOSE (R334). -/
def execFlwCmdClose (w : Writer) (s : State) : Res :=
  s.byWriter w (fun d => (d.closeFlow (d.getF R.FLW_INDEX_INDEX 0)).poolFreed.setF R.FLW_CMD_STAT_CODE 0 2)

end Sys2Proof.Machine
end

