-- ==== Sys2Proof/Machine/HostIf.lean ====
section
/-! DEFINITION. The host interface but for the fetch of commands: doorbells, ring enable, BAR2,
ownership, port resets and links (R516 to R533). -/

namespace Sys2Proof.Machine

/-- The port owns the device. -/
def Own.isOwner (o : Own) (port : Nat) : Bool := decide (o.owner = port + 1)

/-- A discarded doorbell or BAR2 write is counted (R519, R521, R532). -/
def Dev.discarded (d : Dev) (port : Nat) : Dev := d.bump PCI port 6 1

/-- SQ_TAIL (R521): the producer index of a submission ring. Off the owner's port it is dropped with
DOORBELL_DROPPED; a value beyond the ring's size is discarded and counted; a ring that is not enabled
takes none. -/
def execSqTail (port ring v : Nat) (s : State) : Res :=
  s.onDev (fun d =>
    let r := d.ring port ring
    if !s.own.isOwner port then (d.discarded port).setErr PCI port 19
    else if !r.enabled then d
    else if r.size < (2 ^ 32 + v % 2 ^ 32 - r.head % 2 ^ 32) % 2 ^ 32 then d.discarded port
    else d.setRing port ring { r with tail := v % 2 ^ 32 })

/-- CQ_HEAD (R521): the consumer index of a completion ring. -/
def execCqHead (port ring v : Nat) (s : State) : Res :=
  s.onDev (fun d =>
    let r := d.ring port ring
    if !s.own.isOwner port then (d.discarded port).setErr PCI port 19
    else if !r.enabled then d
    else d.setRing port ring { r with cqHead := v % 2 ^ 32 })

/-- A JOB ring is enabled on the device (R520). -/
def Dev.jobRingOn (d : Dev) : Bool := d.pci.rings.any (fun e => e.2.enabled && decide (e.2.kind = 1))

/-- RING_ENABLE (R520, R533): a write of PCI_RING_CFG with EN = 1 for the ring named; refused off the
owner's port, for a second JOB ring and with KIND 0, and ignored with LOCKED_WRITE while the ring is
enabled. The ring starts at head 0. -/
def execRingEnable (port ring kind log2 : Nat) (irq : Bool) (s : State) : Res :=
  s.onDev (fun d =>
    let r := d.ring port ring
    if 2 ≤ port ∨ ring = 0 ∨ 256 ≤ ring then d
    else if r.enabled then d.lockedWrite PCI port
    else if s.own.isOwner port = false ∨ kind % 8 = 0 ∨ (kind % 8 = 1 ∧ d.jobRingOn = true) then d.setErr PCI port 21
    else
      Dev.setRing { d with pci := { d.pci with draining := mdel (ringKey port ring) d.pci.draining } } port ring
        { r with enabled := true, kind := kind % 8, log2 := log2 % 32, irq := irq, head := 0,
                                   tail := 0, cqHead := 0, cqTail := 0, fault := false })

/-- Bytes of a port's BAR2 window (R518). -/
def Dev.bar2Size (d : Dev) (port : Nat) : Nat := 2 ^ (36 + d.getF R.PCI_BAR2_SIZE port % 4)

/-- The local address of a BAR2 offset (R519). -/
def Dev.bar2Addr (d : Dev) (port off : Nat) : Nat := d.getF R.PCI_BAR2_BASE_GIB port * 2 ^ 30 + off

/-- BAR2_WRITE (R518, R519): performed for the owner in job memory and the sample cache; discarded elsewhere. An access
that the window does not hold is none of this BAR's. -/
def execBar2Write (port offset : Nat) (data : List Byte) (s : State) : Res :=
  s.onDev (fun d =>
    let a := d.bar2Addr port offset
    if d.bar2Size port < offset + data.length then d
    else
    let d := d.bump PCI port 0 1
    if !s.own.isOwner port then d.discarded port
    else if d.localOk a data.length then d.write a data
    else (d.discarded port).setErr PCI port 20)

/-- BAR2_READ (R297, R518, R519): local memory, zeros above its top; a poisoned word poisons the completion. -/
def execBar2Read (port offset len : Nat) (s : State) : Res :=
  s.onDev (fun d =>
    let a := d.bar2Addr port offset
    if d.bar2Size port < offset + len then d
    else
    let n := min len (memTop - a)
    let d := ((d.bump PCI port 0 1).noteRead a n).bump PCI port 1 1
    d.emit (.bytes (d.bytes a len) (d.poisonIn a n).isSome))

/-! ### Ownership -/

/-- An ownership change: OWNER_CHANGE on both ports' pages (R532). -/
def Dev.ownerChanged (d : Dev) : Dev := (d.setErr PCI 0 22).setErr PCI 1 22

/-- Disables every ring of a port; entries already fetched go on (R530, R531). -/
def Dev.disableRings (d : Dev) (port : Nat) : Dev :=
  { d with pci := { d.pci with
      rings := d.pci.rings.map (fun e => if e.1 / 256 = port then (e.1, { e.2 with enabled := false }) else e) } }

/-- An ownership command: a device that is not up takes none (R453, R462). -/
def State.whenUp (s : State) (r : Res) : Res := if s.dev.up then r else .next s

/-- Ownership passes to the requester: unarmed staged sets are aborted, the old owner's rings are
disabled (R56, R530). -/
def State.transfer (s : State) : Res :=
  let d := s.dev.abortUnarmed
  let d := if s.own.owner = 0 then d else d.disableRings (s.own.owner - 1)
  .next { s with own := ⟨s.own.requester, 0, false⟩, dev := d.ownerChanged.vectors 0 }

/-- CLAIM (R529): with no owner, the writing port becomes the owner; its own pending request is then
moot. RELEASE by one host and CLAIM by the other is no passing of ownership in the sense of R56, so no staged set is aborted:
DESIGN CHOICE, log entry 40. -/
def execClaim (port : Nat) (s : State) : Res :=
  s.whenUp <| if s.own.owner = 0 ∧ port < 2 then
    let o : Own := if s.own.pending = true ∧ s.own.requester = port + 1 then ⟨port + 1, 0, false⟩
      else { s.own with owner := port + 1 }
    .next { s with own := o, dev := s.dev.ownerChanged.vectors 0 }
  else .next s

/-- REQUEST (R529): from a port that does not own, with FEAT_DUAL_HOST active or no job active. -/
def execRequest (port : Nat) (s : State) : Res :=
  s.whenUp <| if s.own.owner ≠ port + 1 ∧ port < 2 ∧ (s.dev.feature 9 = true ∨ s.dev.jobActive = false) then
    .next { s with own := { s.own with requester := port + 1, pending := true }, dev := s.dev.vectors 0 }
  else .next s

/-- GRANT (R529, R530): from the owner, to the requester. -/
def execGrant (port : Nat) (s : State) : Res :=
  s.whenUp <| if s.own.isOwner port = true ∧ s.own.pending = true then s.transfer else .next s

/-- DENY (R529): from the owner; clears PENDING. -/
def execDeny (port : Nat) (s : State) : Res :=
  s.whenUp <| if s.own.isOwner port = true ∧ s.own.pending = true then
    .next { s with own := { s.own with requester := 0, pending := false }, dev := s.dev.vectors 0 }
  else .next s

/-- RELEASE (R529): from the owner; no owner, no request. -/
def execRelease (port : Nat) (s : State) : Res :=
  s.whenUp <| if s.own.isOwner port then .next { s with own := ⟨0, 0, false⟩, dev := s.dev.ownerChanged.vectors 0 } else .next s

/-- OWNERSHIP_TIMEOUT (R529): a request pending for a nonzero PCI_OWN_TIMEOUT transfers ownership. -/
def execOwnershipTimeout (s : State) : Res :=
  s.whenUp <| if s.own.pending = true ∧ s.dev.actF R.PCI_OWN_TIMEOUT_SECONDS 0 ≠ 0 then s.transfer else .next s

/-! ### Ports -/

/-- LINK_DOWN (R532, R533). -/
def execLinkDown (port : Nat) (s : State) : Res :=
  s.onDev (fun d => if 2 ≤ port then d else (d.setF R.PCI_LINK_UP port 0).setErr PCI port 16)

/-- PCIE_LINK_UP (R533). -/
def execPcieLinkUp (port width speed : Nat) (s : State) : Res :=
  s.onDev (fun d =>
    if 2 ≤ port then d
    else ((d.setF R.PCI_LINK_UP port 1).setF R.PCI_LINK_WIDTH port width).setF R.PCI_LINK_SPEED port speed)

/-- The fields that a reset of their page leaves alone: what R48 locks while a job is active, and what PWR shows of
state that a block reset does not touch (R461, R479). -/
def Dev.resetKeeps (d : Dev) (f : Field) : Bool :=
  (d.jobActive && (jobLocked f || decide (f.cls = MEM ∧ (f = R.MEM_MAP_INTERLEAVE ∨ f = R.MEM_REGIONS_MIRROR_GIB
    ∨ f = R.MEM_REGIONS_CACHE_GIB ∨ f = R.MEM_SPILL_BASE_LO_ADDR_LO ∨ f = R.MEM_SPILL_BASE_HI_ADDR_HI ∨ f = R.MEM_SPILL_SIZE_MIB))))
  || f ∈ [R.PWR_RESET_CAUSE_TYPE, R.PWR_RESET_CAUSE_CAUSE, R.PWR_RAILS_PGOOD, R.PWR_FW_STATUS_VERIFY_FAIL, R.PWR_FW_STATUS_BANK,
    R.PWR_FW_STATUS_MANIFEST_BANK, R.PWR_FW_STATUS_MANIFEST_VALID, R.PWR_FW_STATUS_SKIPPED, R.PWR_FW_STATUS_BOOT,
    R.PWR_FW_IFACE_LO_CMC, R.PWR_FW_IFACE_LO_MCF, R.PWR_FW_IFACE_HI_MEF, R.PWR_FW_IFACE_HI_LKF, R.PWR_FW_RESULT_REV_MEF,
    R.PWR_FW_RESULT_REV_CMC, R.PWR_FW_BUILD 0, R.PWR_FW_BUILD 1, R.PWR_FW_BUILD 2, R.PWR_FW_BUILD 3]

/-- Takes every stored value of a page back to its reset value. -/
def Dev.resetPage (d : Dev) (c i : Nat) : Dev :=
  let p := c * 2048 + i
  let goes (k : Nat) : Bool := decide (keyPage k = p) && !((fieldAt c i k).elim false d.resetKeeps)
  { d with
    fields := d.fields.filter (fun e => !goes e.1), acting := d.acting.filter (fun e => !goes e.1)
    shadow := d.shadow.filter (fun e => !goes e.1), armed := d.armed.filter (fun e => decide (e.1 ≠ p))
    latches := d.latches.filter (fun e => decide (e.1 / 4096 ≠ p)) }

/-- The page of a port goes back to its reset values; PCI_JOB_NEXT, which counts device work, stays (R531, R533). -/
def Dev.resetPortPage (d : Dev) (port : Nat) : Dev :=
  let next := d.getF R.PCI_JOB_NEXT 0
  let d := d.resetPage PCI port
  if port = 0 then d.setF R.PCI_JOB_NEXT 0 next else d

/-- Disables the rings of a port and takes their registers to the reset values; completions of entries already fetched go
on to the rings as they stood (R530, R531). -/
def Dev.dropRings (d : Dev) (port : Nat) : Dev :=
  let mine := d.pci.rings.filter (fun e => decide (e.1 / 256 = port))
  { d with pci := { d.pci with
      rings := d.pci.rings.filter (fun e => decide (e.1 / 256 ≠ port))
      draining := mine.foldl (fun m e => mput e.1 { e.2 with enabled := false } m) d.pci.draining } }

/-- PCIE_PORT_RESET (R531): the port's PCI page and ring registers return to their reset values and its rings are
disabled. -/
def execPciePortReset (port : Nat) (s : State) : Res :=
  s.onDev (fun d => if 2 ≤ port then d else (d.resetPortPage port).dropRings port)

end Sys2Proof.Machine
end

