-- ==== Sys2Proof/Machine/Pixels.lean ====
section
/-! DEFINITION. What a pipeline unit computes: sample programs, canonical forms, draws, geometry and colour,
normalisation and the positions of a sample (R409 to R425). Every operation per value is binary32; the crop
arithmetic is binary64 (log entry 22). -/

namespace Sys2Proof.Machine

/-! ### Arithmetic -/

/-- x ÷ y, truncated with a sticky bit below, so that it rounds as the exact quotient does. -/
def Num.quot (x y : Num) : Num :=
  match x, y with
  | .nan, _ => .nan
  | _, .nan => .nan
  | .inf _, .inf _ => .nan
  | .inf s, .fin t _ _ => .inf (s != t)
  | .fin s _ _, .inf t => .fin (s != t) 0 0
  | .fin s m e, .fin t n g =>
    if n = 0 then (if m = 0 then .nan else .inf (s != t))
    else
      let k := Nat.log2 n + 160
      sticky (m * 2 ^ k / n) (decide (m * 2 ^ k % n = 0)) (e - g - k) (s != t)

/-- Sum in a wide format. -/
def addIn (f : Nat) (x y : Num) : Num := roundTo f (x.add y)
/-- Difference in a wide format. -/
def subIn (f : Nat) (x y : Num) : Num := roundTo f (x.add y.negate)
/-- Product in a wide format. -/
def mulIn (f : Nat) (x y : Num) : Num := roundTo f (x.mul y)
/-- Quotient in a wide format. -/
def divIn (f : Nat) (x y : Num) : Num := roundTo f (x.quot y)

/-- Sum in binary32. -/
abbrev fadd := addIn 11
/-- Difference in binary32. -/
abbrev fsub := subIn 11
/-- Product in binary32. -/
abbrev fmul := mulIn 11
/-- Quotient in binary32. -/
abbrev fdiv := divIn 11

/-- A natural number as a value. -/
def Num.nat (n : Nat) : Num := .fin false n 0

/-- One half. -/
def half : Num := .fin false 1 (-1)

/-- floor of a finite value; a NaN or an infinity stays itself. -/
def Num.floor (x : Num) : Num :=
  match x with
  | .fin _ _ _ => .ofInt (shiftFloor x.sig x.exp) 0
  | x => x

/-- floor of a value as an index from 0 to `hi`; a NaN gives 0. -/
def Num.index (x : Num) (hi : Nat) : Nat :=
  match x with
  | .nan => 0
  | .inf s => if s then 0 else hi
  | .fin _ _ _ => (max 0 (min (shiftFloor x.sig x.exp) hi)).toNat

/-! ### Sample programs (R409, R410) -/

/-- The program table's base (R429). -/
def Dev.progBase (d : Dev) : Nat :=
  d.getF R.PIP_PROG_BASE_LO_ADDR_LO 0 * 256 + d.getF R.PIP_PROG_BASE_HI_ADDR_HI 0 * 2 ^ 32

/-- A sample program by the address of its 256 bytes. -/
structure Prog where
  kind     : Nat
  codec    : Nat
  flags    : Nat
  cq       : Int
  patch    : Nat
  channels : Nat
  maxPix   : Nat
  entry    : Option Nat
  outW     : Nat
  outH     : Nat
  frames   : Nat
  fstride  : Nat
  win      : Nat
  aframe   : Nat
  mesh     : Nat
  meshW    : Nat
  meshH    : Nat
  tone     : Nat
  at'      : Nat
  reserved : Bool
  deriving DecidableEq, Repr

/-- Reads program t. -/
def Dev.prog (d : Dev) (t : Nat) : Prog :=
  let a := d.progBase + 256 * t
  { kind := d.nat a 1, codec := d.nat (a + 1) 1, flags := d.nat (a + 2) 2, cq := sext 8 (d.nat (a + 4) 1)
    patch := d.nat (a + 6) 1, channels := d.nat (a + 7) 1, maxPix := d.nat (a + 8) 4
    entry := entryOpt (d.nat (a + 12) 4), outW := d.nat (a + 16) 2, outH := d.nat (a + 18) 2
    frames := d.nat (a + 20) 2, fstride := d.nat (a + 22) 2, win := d.nat (a + 24) 4, aframe := d.nat (a + 28) 2
    mesh := d.nat (a + 0x48) 8, meshW := d.nat (a + 0x50) 1, meshH := d.nat (a + 0x51) 1, tone := d.nat (a + 0x88) 8
    at' := a
    reserved := decide (d.nat (a + 5) 1 ≠ 0) || decide (d.nat (a + 30) 2 ≠ 0) || decide (d.nat (a + 0x52) 2 ≠ 0)
      || decide (d.nat (a + 0xC0) 64 ≠ 0) || decide (512 ≤ d.nat (a + 2) 2) }

/-- The FP32 field of a program at an offset. -/
def Dev.progF (d : Dev) (p : Prog) (off : Nat) : Num := decodeElem 11 (d.nat (p.at' + off) 4)

/-- FLAGS bit of a program: 0 ROUNDTRIP, 1 LENS, 2 WARP, 3 JITTER, 4 COLOUR, 5 TONE, 6 CROP_RANDOM, 7 FLIP,
8 SCALE_SIZE. -/
def Prog.flag (p : Prog) (b : Nat) : Bool := bitOf p.flags b

/-- IMAGE, VIDEO or SCORE_MAP: the program places pixels. -/
def Prog.placed (p : Prog) : Bool := decide (p.kind = 1) || decide (p.kind = 2) || decide (p.kind = 5)

/-- IMAGE or VIDEO. -/
def Prog.visual (p : Prog) : Bool := decide (p.kind = 1) || decide (p.kind = 2)

/-- The output shape of a program: OUT_KIND and L (R410). -/
def Prog.shape (p : Prog) : Nat × Nat :=
  match p.kind with
  | 3 => (0, p.aframe * p.channels)
  | 4 => (1, 1)
  | 5 => (2, p.patch * p.patch)
  | _ => (0, 3 * p.patch * p.patch)

/-- A program that R410 allows for an INGEST of this shape. -/
def Dev.progOk (d : Dev) (p : Prog) (outKind elems : Nat) : Bool :=
  decide (1 ≤ p.kind) && decide (p.kind ≤ 5) && !p.reserved && decide (p.codec ≤ 5)
    && decide (-12 ≤ p.cq) && decide (p.cq ≤ 51) && decide (p.shape = (outKind, elems))
    && p.entry.elim true (fun e => decide (e < d.sstCount))
    && (!p.placed || (decide (1 ≤ p.patch) && decide (p.patch ≤ 32) && decide (1 ≤ p.outW)
        && decide (p.outW % p.patch = 0) && decide (p.outH % p.patch = 0) && (p.flag 8 || decide (1 ≤ p.outH))
        && (!p.flag 2 || (decide (2 ≤ p.meshW) && decide (p.meshW ≤ 65) && decide (2 ≤ p.meshH) && decide (p.meshH ≤ 65)))))
    && (decide (p.kind ≠ 2) || (decide (1 ≤ p.frames) && decide (p.frames ≤ 1024) && decide (1 ≤ p.fstride)
        && decide (p.fstride ≤ 256)))
    && (decide (p.kind ≠ 3) || (decide (1 ≤ p.channels) && decide (p.channels ≤ 8)))
    && (decide (p.kind ≠ 5) || decide (2 ≤ p.channels))

/-- The local ranges that a program's stages read. -/
def Prog.tables (p : Prog) : List (Nat × Nat) :=
  (if p.placed && p.flag 2 then [(p.mesh, 8 * p.meshW * p.meshH)] else [])
    ++ (if p.visual && p.flag 5 then [(p.tone, 3 * 4096)] else [])

/-! ### Canonical forms (R412) -/

/-- Samples of a 4:2:0 chroma plane along a side. -/
def chroma (n : Nat) : Nat := (n + 1) / 2

/-- The planes of one frame: (offset in samples, width, height). -/
def framePlanes (w h : Nat) : List (Nat × Nat × Nat) :=
  [(0, w, h), (w * h, chroma w, chroma h), (w * h + chroma w * chroma h, chroma w, chroma h)]

/-- Samples of one 4:2:0 frame. -/
def frameLen (w h : Nat) : Nat := w * h + 2 * (chroma w * chroma h)

/-- The 16-bit container at a sample index. -/
def sample16 (bs : List Byte) (k : Nat) : Nat := leNat ((bs.drop (2 * k)).take 2)

/-- Frames resized to w' × h' by repeating the last column and row, or by cropping (R412). -/
def resizeFrames (w h w' h' n : Nat) (bs : List Byte) : List Byte :=
  (List.range n).flatMap (fun f =>
    ((framePlanes w h).zip (framePlanes w' h')).flatMap (fun pq =>
      (List.range pq.2.2.2).flatMap (fun y => (List.range pq.2.2.1).flatMap (fun x =>
        leBytes 2 (sample16 bs (f * frameLen w h + pq.1.1 + min y (pq.1.2.2 - 1) * pq.1.2.1 + min x (pq.1.2.1 - 1)))))))

/-- The next multiple of 8. -/
def roundUp8 (n : Nat) : Nat := (n + 7) / 8 * 8

/-- The payload of a cache entry: the round-trip bitstream of a visual form, else the form itself (R412). -/
def Prog.payload (p : Prog) (f : PipForm) : List Byte :=
  if p.visual then
    let w := roundUp8 f.width
    let h := roundUp8 f.height
    Config.encodeStream p.cq w h (resizeFrames f.width f.height w h f.frames f.bytes)
  else f.bytes

/-- The form that a payload decodes to; `f` gives its size (R412, R414). -/
def Prog.fromPayload (p : Prog) (f : PipForm) (payload : List Byte) : PipForm :=
  if p.visual then
    let w := roundUp8 f.width
    let h := roundUp8 f.height
    { f with bytes := resizeFrames w h f.width f.height f.frames (Config.decodeStream w h payload) }
  else { f with bytes := payload }

/-- The round trip of a form (R412). -/
def Prog.roundTrip (p : Prog) (f : PipForm) : PipForm :=
  if p.flag 0 then p.fromPayload f (p.payload f) else f

/-- The canonical form of stored bytes that need no decoder: tokens and score planes (R412). -/
def storedForm (p : Prog) (x : PipDesc) (stored : List Byte) : Except Nat PipForm :=
  if p.codec ≠ 0 then .error 1
  else if p.kind = 4 then
    if stored.length % 4 = 0 then .ok ⟨stored, 0, 0, stored.length / 4, 1, 32⟩ else .error 1
  else
    let w := x.decl % 2 ^ 16
    let h := x.decl / 2 ^ 16
    if w = 0 ∨ h = 0 ∨ stored.length ≠ p.channels * w * h * 2 then .error 3
    else .ok ⟨stored, w, h, 1, p.channels, 16⟩

/-- The checks of R416 on a decoded form, DIM_BUDGET apart from what the session found itself. -/
def decodedForm (p : Prog) (x : PipDesc) (f : PipForm) : Except Nat PipForm :=
  if p.visual then
    if x.decl % 2 ^ 16 = 0 ∨ x.decl / 2 ^ 16 = 0 ∨ f.width ≠ x.decl % 2 ^ 16 ∨ f.height ≠ x.decl / 2 ^ 16
      ∨ p.maxPix < f.width * f.height ∨ f.frames = 0 then .error 3
    else .ok f
  else if x.decl = 0 ∨ f.frames ≠ x.decl ∨ p.maxPix < f.frames * f.channels ∨ f.channels ≠ p.channels then .error 3
  else .ok f

/-- Bytes that a decoded form must have. -/
def formLen (p : Prog) (f : PipForm) : Nat :=
  if p.visual then 2 * f.frames * frameLen f.width f.height else 4 * f.frames * f.channels

/-- The form that a slot's stored bytes give before the round trip, or the reason of R416. -/
def slotForm (p : Prog) (x : PipDesc) (stageSize : Nat) (stored : List Byte) (r : DecodeResult) : Except Nat PipForm :=
  let g : Except Nat PipForm :=
    if x.flags % 2 = 1 ∧ crc32c stored ≠ x.check then .error 2
    else if p.kind = 4 ∨ p.kind = 5 then storedForm p x stored
    else match r with
      | .decoded bs w h n c b => decodedForm p x ⟨bs, w, h, n, c, b⟩
      | .budget => .error 3
      | _ => .error 1
  match g with
  | .ok f => if stageSize < f.bytes.length then .error 3 else .ok f
  | .error e => .error e

/-! ### Draws (R419) -/

/-- u_j of an operation for a sample of a plot (R260, R419). -/
def Dev.augment (d : Dev) (plot sample op j : Nat) : Num :=
  let k := philoxKey d.jobSeed 1
  let w := (philox (j / 4) (op % 2 ^ 16 * 2 ^ 16 + plot) (sample % 2 ^ 32)
    (d.nat (d.posAt plot) 2 * 2 ^ 16 + sample / 2 ^ 32 % 2 ^ 16) k.1 k.2).getD (j % 4) 0
  .fin false (w / 256) (-24)

/-! ### Crop and resize (R420) -/

/-- The crop window and the output size. -/
structure Crop where
  x0   : Num
  y0   : Num
  cw   : Num
  ch   : Num
  flip : Bool
  ow   : Nat
  oh   : Nat
  deriving DecidableEq, Repr

/-- exp2 in binary64. -/
def exp2In64 (x : Num) : Num :=
  match x with
  | .nan => .nan
  | .inf s => if s then .zero else .inf false
  | .fin _ _ _ => roundTo 12 (exp2Fin x)

/-- The crop window and the output size of a program on a W × H source (R420). -/
def Dev.crop (d : Dev) (p : Prog) (plot sample w h : Nat) : Crop :=
  let u (j : Nat) : Num := d.augment plot sample 3 j
  let W := Num.nat w
  let H := Num.nat h
  let lerp (lo hi x : Num) : Num := addIn 12 lo (mulIn 12 (subIn 12 hi lo) x)
  let c : Num × Num × Num × Num :=
    if p.flag 6 then
      let s := lerp (d.progF p 0x90) (d.progF p 0x94) (u 0)
      let a := exp2In64 (lerp (d.progF p 0x98) (d.progF p 0x9C) (u 1))
      let area := mulIn 12 (mulIn 12 s W) H
      let cw := W.minimum (roundTo 12 (Num.sqrt (mulIn 12 area a)))
      let ch := H.minimum (roundTo 12 (Num.sqrt (divIn 12 area a)))
      (cw, ch, mulIn 12 (subIn 12 W cw) (u 2), mulIn 12 (subIn 12 H ch) (u 3))
    else (W, H, .zero, .zero)
  let flip := p.flag 7 && half.finLe (u 4)
  let P := Num.nat p.patch
  let side (v k : Num) : Nat :=
    p.patch * max 1 ((addIn 12 (divIn 12 (mulIn 12 v k) P) half).index (2 ^ 32))
  let k := divIn 12 (Num.nat p.outW) (c.1.maximum c.2.1)
  { cw := c.1, ch := c.2.1, x0 := c.2.2.1, y0 := c.2.2.2, flip := flip
    ow := if p.flag 8 then side c.1 k else p.outW
    oh := if p.flag 8 then side c.2.1 k else p.outH }

/-- The point that an output pixel maps to (R420). -/
def Crop.point (c : Crop) (i j : Nat) : Num × Num :=
  let r (x : Num) : Num := roundTo 11 x
  let dx := fdiv (fmul (fadd (Num.nat i) half) (r c.cw)) (Num.nat c.ow)
  let dy := fdiv (fmul (fadd (Num.nat j) half) (r c.ch)) (Num.nat c.oh)
  (if c.flip then fsub (fadd (r c.x0) (r c.cw)) dx else fadd (r c.x0) dx, fadd (r c.y0) dy)

/-! ### Warp, lens and sample (R421) -/

/-- (1 − b)((1 − a) p00 + a p10) + b((1 − a) p01 + a p11). -/
def bilinear (a b p00 p10 p01 p11 : Num) : Num :=
  let one := Num.nat 1
  fadd (fmul (fsub one b) (fadd (fmul (fsub one a) p00) (fmul a p10)))
    (fmul b (fadd (fmul (fsub one a) p01) (fmul a p11)))

/-- A mesh node with its corner jitter: coordinate `k` (0 x, 1 y) of node (a, b). -/
def Dev.meshNode (d : Dev) (p : Prog) (plot sample a b k : Nat) : Num :=
  let n := decodeElem 11 (d.nat (p.mesh + 8 * (b * p.meshW + a) + 4 * k) 4)
  if p.flag 3 then
    let off (corner : Nat) : Num :=
      fmul (d.progF p 0x44) (fsub (fmul (Num.nat 2) (d.augment plot sample 4 (2 * corner + k))) (Num.nat 1))
    let qx := fdiv (Num.nat a) (Num.nat (p.meshW - 1))
    let qy := fdiv (Num.nat b) (Num.nat (p.meshH - 1))
    fadd n (bilinear qx qy (off 0) (off 1) (off 2) (off 3))
  else n

/-- The warp map on a W × H source. -/
def Dev.warp (d : Dev) (p : Prog) (plot sample w h : Nat) (pt : Num × Num) : Num × Num :=
  if p.flag 2 then
    let gx := fmul (fdiv pt.1 (Num.nat w)) (Num.nat (p.meshW - 1))
    let gy := fmul (fdiv pt.2 (Num.nat h)) (Num.nat (p.meshH - 1))
    let a := gx.index (p.meshW - 2)
    let b := gy.index (p.meshH - 2)
    let tx := fsub gx (Num.nat a)
    let ty := fsub gy (Num.nat b)
    let at' (k : Nat) : Num :=
      let n (i j : Nat) : Num := d.meshNode p plot sample (a + i) (b + j) k
      bilinear tx ty (n 0 0) (n 1 0) (n 0 1) (n 1 1)
    (fmul (at' 0) (Num.nat w), fmul (at' 1) (Num.nat h))
  else pt

/-- The lens model. -/
def Dev.lens (d : Dev) (p : Prog) (pt : Num × Num) : Num × Num :=
  if p.flag 1 then
    let f (k : Nat) : Num := d.progF p (0x20 + 4 * k)
    let x := fdiv (fsub pt.1 (f 2)) (f 0)
    let y := fdiv (fsub pt.2 (f 3)) (f 1)
    let r2 := fadd (fmul x x) (fmul y y)
    let rad := fadd (Num.nat 1) (fmul r2 (fadd (f 4) (fmul r2 (fadd (f 5) (fmul r2 (f 6))))))
    let two := Num.nat 2
    let xd := fadd (fadd (fmul x rad) (fmul (fmul (fmul two (f 7)) x) y))
      (fmul (f 8) (fadd r2 (fmul (fmul two x) x)))
    let yd := fadd (fadd (fmul y rad) (fmul (f 7) (fadd r2 (fmul (fmul two y) y))))
      (fmul (fmul (fmul two (f 8)) x) y)
    (fadd (fmul (f 0) xd) (f 2), fadd (fmul (f 1) yd) (f 3))
  else pt

/-- The bilinear sample of a w × h plane at a point. -/
def samplePlane (plane : Nat → Nat → Num) (w h : Nat) (pt : Num × Num) : Num :=
  let sx := fsub pt.1 half
  let sy := fsub pt.2 half
  let x0 := sx.floor
  let y0 := sy.floor
  let cx (k : Nat) : Nat := (addIn 12 x0 (Num.nat k)).index (w - 1)
  let cy (k : Nat) : Nat := (addIn 12 y0 (Num.nat k)).index (h - 1)
  bilinear (fsub sx x0) (fsub sy y0) (plane (cx 0) (cy 0)) (plane (cx 1) (cy 0)) (plane (cx 0) (cy 1)) (plane (cx 1) (cy 1))

/-! ### Colour (R422) and normalisation (R423) -/

/-- c_k of a visual form at a point of frame f. -/
def sampleYcc (f : PipForm) (frame : Nat) (pt : Num × Num) : List Num :=
  (framePlanes f.width f.height).zipIdx.map (fun (pk : (Nat × Nat × Nat) × Nat) =>
    let code (x y : Nat) : Num := Num.nat (sample16 f.bytes (frame * frameLen f.width f.height + pk.1.1 + y * pk.1.2.1 + x))
    let q := if pk.2 = 0 then pt else (fdiv pt.1 (Num.nat 2), fdiv pt.2 (Num.nat 2))
    fdiv (samplePlane code pk.1.2.1 pk.1.2.2 q) (Num.nat 1023))

/-- The colour stage and the tone tables. -/
def Dev.colour (d : Dev) (p : Prog) (plot sample : Nat) (cs : List Num) : List Num :=
  let c (k : Nat) : Num := cs.getD k .zero
  let g := fadd (Num.nat 1) (fmul (d.progF p 0x54) (fsub (fmul (Num.nat 2) (d.augment plot sample 5 0)) (Num.nat 1)))
  (List.range 3).map (fun i =>
    let m (k : Nat) : Num := d.progF p (0x58 + 4 * (3 * i + k))
    let v := if p.flag 4 then
        fadd (fmul g (fadd (fadd (fmul (m 0) (c 0)) (fmul (m 1) (c 1))) (fmul (m 2) (c 2)))) (d.progF p (0x7C + 4 * i))
      else c i
    if p.flag 5 then
      decodeElem 11 (d.nat (p.tone + 4096 * i + 4 * (fadd (fmul v (Num.nat 1023)) half).index 1023) 4)
    else v)

/-- Normalisation of a value of channel c. -/
def Dev.normal (d : Dev) (p : Prog) (c : Nat) (v : Num) : Num :=
  fmul (fsub v (d.progF p (0xA0 + 4 * c))) (d.progF p (0xB0 + 4 * c))

/-! ### Positions (R422 to R425) -/

/-- floor(u · n) of a draw. -/
def floorTimes (u : Num) (n : Nat) : Nat := (u.mul (Num.nat n)).index n

/-- The frame that output frame f of a VIDEO takes (R422). -/
def Dev.videoFrame (d : Dev) (p : Prog) (plot sample n f : Nat) : Nat :=
  let start := floorTimes (d.augment plot sample 1 0) (max (n - (p.frames - 1) * p.fstride) 1)
  min (start + f * p.fstride) (n - 1)

/-- The pixels (i, j) of position k of a picture of `cols` patches, in patch order. -/
def patchPixels (P cols k : Nat) : List (Nat × Nat) :=
  (List.range P).flatMap (fun r => (List.range P).map (fun c => (k % cols * P + c, k / cols * P + r)))

/-- The source point of a pixel. -/
def Dev.sourcePoint (d : Dev) (p : Prog) (plot sample : Nat) (f : PipForm) (c : Crop) (ij : Nat × Nat) : Num × Num :=
  d.lens p (d.warp p plot sample f.width f.height (c.point ij.1 ij.2))

/-- The normalised values of each position of a DATA sample (R423, R425). -/
def Dev.dataPositions (d : Dev) (p : Prog) (plot sample : Nat) (f : PipForm) : List (List Num) :=
  if p.kind = 3 then
    let n := min f.frames p.win
    let start := if f.frames ≤ p.win then 0 else floorTimes (d.augment plot sample 2 0) (f.frames - p.win + 1)
    let val (t c : Nat) : Num :=
      if t < n then
        let pcm := sext 32 (leNat ((f.bytes.drop (4 * ((start + t) * f.channels + c))).take 4))
        d.normal p 0 (roundTo 11 (.ofInt pcm (-((f.bits : Int) - 1))))
      else .zero
    (List.range ((n + p.aframe - 1) / p.aframe)).map (fun k =>
      (List.range p.aframe).flatMap (fun t => (List.range p.channels).map (fun c => val (k * p.aframe + t) c)))
  else
    let c := d.crop p plot sample f.width f.height
    let per := c.ow / p.patch * (c.oh / p.patch)
    let shots := if p.kind = 2 then (List.range p.frames).map (d.videoFrame p plot sample f.frames) else [0]
    shots.flatMap (fun fr => (List.range per).map (fun k =>
      (patchPixels p.patch (c.ow / p.patch) k).flatMap (fun ij =>
        (d.colour p plot sample (sampleYcc f fr (d.sourcePoint p plot sample f c ij))).zipIdx.map (fun v => d.normal p v.2 v.1))))

/-- The label indices of each position of a SCORE_MAP sample (R224, R424). -/
def Dev.labelPositions (d : Dev) (p : Prog) (plot sample : Nat) (f : PipForm) : List (List Nat) :=
  let c := d.crop p plot sample f.width f.height
  let score (ch x y : Nat) : Num := decodeElem 10 (sample16 f.bytes ((ch * f.height + y) * f.width + x))
  (List.range (c.ow / p.patch * (c.oh / p.patch))).map (fun k =>
    (patchPixels p.patch (c.ow / p.patch) k).map (fun ij =>
      let pt := d.sourcePoint p plot sample f c ij
      (argBest ((List.range f.channels).map (fun ch => samplePlane (score ch) f.width f.height pt))).1))

/-- What a sample gives: the bytes and scale entries of each position, its statistics, the blocks that
saturated. -/
structure SlotOut where
  rows   : List (List Byte)
  scales : List (List Byte)
  stats  : List StatUpdate
  sats   : List Nat
  deriving DecidableEq, Repr

/-- Bytes of data and of scale entries of a position (R427). -/
def IngestArgs.posBytes (a : IngestArgs) : Nat × Nat :=
  if a.outKind = 1 then (4, 0)
  else if a.outKind = 2 then (2 * a.elems, 0)
  else if isNarrow a.format then
    let b := if bitOf a.flags 0 then 32 else 16
    ((a.elems + b - 1) / b * b * fmtBits a.format / 8, (a.elems + b - 1) / b * 2)
  else (a.elems * fmtBits a.format / 8, 0)

/-- The block size of an INGEST. -/
def IngestArgs.block (a : IngestArgs) : Nat := if bitOf a.flags 0 then 32 else 16

/-- The output of an INGEST as a descriptor: rows of ELEMS elements. -/
def IngestArgs.outDesc (a : IngestArgs) : OperandDesc :=
  { argDesc a.format a.elems a.data a.scale a.rowsMax none with block := a.block }

/-- The outputs of a sample under its program (R423, R424). -/
def Dev.slotOut (d : Dev) (a : IngestArgs) (p : Prog) (sample : Nat) (f : PipForm) : SlotOut :=
  if p.kind = 4 then
    ⟨(List.range f.frames).map (fun k => (f.bytes.drop (4 * k)).take 4), [], [], []⟩
  else if p.kind = 5 then
    ⟨(d.labelPositions p a.plot sample f).map (fun xs => xs.flatMap (fun x => leBytes 2 x)), [], [], []⟩
  else
    let vs := d.dataPositions p a.plot sample f
    let sg := d.sigma p.entry
    let rs := vs.map (fun v =>
      if isNarrow a.format then writeNarrowRow a.format a.block 0 (v.map (·.scale (-sg))) else writeWideRow a.format v)
    { rows := rs.map (·.data), scales := rs.map (·.scales)
      stats := p.entry.elim [] (fun e => [rowStats a.outDesc e vs rs])
      sats := rs.flatMap (fun r => r.sats.map (fun k => k / a.block)) }

end Sys2Proof.Machine
end

