-- ==== Sys2Proof/Machine/Mirror.lean ====
section
/-! DEFINITION. The mirror item table, the image, the partner mirror region, the base transfer, and the
sowing records with their encoding (R32, R373 to R377, R380 to R383, R404). -/

namespace Sys2Proof.Machine

/-! ### The mirror item table (R373) -/

/-- The base of the mirror item table (R404). -/
def Dev.itemBase (d : Dev) : Nat :=
  d.getF R.SOW_ITEM_BASE_LO_ADDR_LO 0 * 64 + d.getF R.SOW_ITEM_BASE_HI_ADDR_HI 0 * 2 ^ 32

/-- Host items (R404). -/
def Dev.itemCount (d : Dev) : Nat := d.getF R.SOW_ITEM_COUNT_COUNT 0

/-- The entry of a table at an address; a scale address of 0 names no scale plane. -/
def Dev.itemAt (d : Dev) (a : Nat) : Item :=
  let sa := d.nat (a + 24) 8
  { cls := d.nat a 1, format := d.nat (a + 1) 1, valid := bitOf (d.nat (a + 2) 2) 0, addr := d.nat (a + 8) 8,
    length := d.nat (a + 16) 8, sAddr := sa, sLength := if sa = 0 then 0 else d.nat (a + 32) 8,
    imageOff := d.nat (a + 40) 8 }

/-- Some reserved field of an entry is nonzero. -/
def Dev.itemReserved (d : Dev) (a : Nat) : Bool :=
  decide (d.nat (a + 2) 2 / 2 ≠ 0) || decide (d.nat (a + 4) 4 ≠ 0) || decide (d.nat (a + 48) 16 ≠ 0)

/-- The ranges that a valid entry names. -/
def Item.ranges (it : Item) : List (Nat × Nat) :=
  if it.valid then [(it.addr, it.length)] ++ (if it.sLength = 0 then [] else [(it.sAddr, it.sLength)]) else []

/-- Two ranges of a list share an address. -/
def selfOverlap : List (Nat × Nat) → Bool
  | [] => false
  | x :: xs => xs.any (fun y => overlaps x.1 x.2 y.1 y.2) || selfOverlap xs

/-- The lower entry of the first overlapping pair, counting from `k`. -/
def firstOverlap : Nat → List Item → Option Nat
  | _, [] => none
  | k, it :: its =>
    if selfOverlap it.ranges || its.any (fun o => it.ranges.any (fun x => o.ranges.any (fun y => overlaps x.1 x.2 y.1 y.2)))
    then some k else firstOverlap (k + 1) its

/-- Rounds up to a multiple. -/
def roundUp (n m : Nat) : Nat := (n + m - 1) / m * m

/-- Places items in the image from an offset: each starts on a 4 KiB boundary, its scale plane behind its data
(R374); an entry that is not valid has offset 0. -/
def placeItems : Nat → List Item → List Item
  | _, [] => []
  | off, it :: its =>
    if it.valid then { it with imageOff := off } :: placeItems (roundUp (off + it.length + it.sLength) 4096) its
    else { it with imageOff := 0 } :: placeItems off its

/-- The two items that the MC adds: the plot map and the feature set (R373). -/
def mcItems : List Item :=
  [⟨5, 0xFF, true, 0, 8704, 0, 0, 0⟩, ⟨6, 0xFF, true, 0, 32, 0, 0, 0⟩]

/-- Bytes of the image: the end of its last item. -/
def imageLen (its : List Item) : Nat :=
  its.foldl (fun n it => if it.valid then max n (it.imageOff + it.length + it.sLength) else n) 0

/-- IMAGE: the image length rounded up to 2 MiB (R374). -/
def imageSize (its : List Item) : Nat := roundUp (imageLen its) 0x200000

/-- The entries of the table as they stand. -/
def Dev.itemList (d : Dev) : List Item := (List.range d.itemCount).map (fun i => d.itemAt (d.itemBase + 64 * i))

/-- What the check of the table finds: cause and entry, cause 0 for none (R373, R404). -/
def Dev.itemCheck (d : Dev) : Nat × Nat :=
  let its := d.itemList
  if 65534 < d.itemCount then (1, 0x1FFFF)
  else match (List.range d.itemCount).find? (fun i => d.itemReserved (d.itemBase + 64 * i)) with
  | some i => (2, i)
  | none =>
    match firstOverlap 0 its with
    | some i => (3, i)
    | none =>
      match its.zipIdx.find? (fun x => x.1.ranges.any (fun r => !d.inJob r.1 r.2)) with
      | some x => (4, x.2)
      | none => (0, 0)

/-- Checks the table: the finding goes into SOW_ITEM_STATUS; a table that passes fixes the image, and each
entry's IMAGE_OFF is written (R373, R374, R404). -/
def Dev.checkItems (d : Dev) : Bool × Dev :=
  let r := d.itemCheck
  let d := ((d.setF R.SOW_ITEM_STATUS_VALID 0 (b2n (decide (r.1 ≠ 0)))).setF R.SOW_ITEM_STATUS_CAUSE 0 r.1).setF
    R.SOW_ITEM_STATUS_INDEX 0 r.2
  if r.1 ≠ 0 then (false, d)
  else
    let its := placeItems 0 (d.itemList ++ mcItems)
    let d := (its.take d.itemCount).zipIdx.foldl (fun d x =>
      d.write (d.itemBase + 64 * x.2 + 40) (leBytes 8 x.1.imageOff)) d
    (true, Dev.setF { d with sow := { d.sow with items := its } } R.SOW_IMAGE_MIB 0 (imageSize its / 2 ^ 20))

/-! ### The image of this device (R374) -/

/-- The membership bitmap of a plot, 128 bytes (R118, R373). -/
def Dev.memberBytes (d : Dev) (k : Nat) : List Byte := (List.range 32).flatMap (fun w => leBytes 4 (d.getF (R.PLT_MEMBER w) k))

/-- The plot-map item (R373). -/
def Dev.plotItem (d : Dev) : List Byte :=
  (List.range 64).flatMap d.memberBytes
    ++ (List.range 64).flatMap (fun k => leBytes 4 (d.getF R.PLT_BOUNDS_MIN_CELLS k) ++ leBytes 4 (d.getF R.PLT_BOUNDS_MAX_CELLS k))

/-- The feature-set item (R373). -/
def Dev.featureItem (d : Dev) : List Byte := (List.range 8).flatMap (fun k => leBytes 4 (d.getF (R.GLB_FEATURES_ACTIVE k) 0))

/-- The bytes of an item, its scale plane behind its data. -/
def Dev.itemBytes (d : Dev) (it : Item) : List Byte :=
  if it.cls = 5 then d.plotItem else if it.cls = 6 then d.featureItem
  else d.bytes it.addr it.length ++ d.bytes it.sAddr it.sLength

/-- The item of an image offset. -/
def Dev.itemOf (d : Dev) (off : Nat) : Option Item :=
  d.sow.items.find? (fun it => it.valid && inRange off it.imageOff (it.length + it.sLength))

/-- One byte of the image; the gaps between items read 0. -/
def Dev.imageByte (d : Dev) (off : Nat) : Byte :=
  match d.itemOf off with
  | none => 0
  | some it =>
    let k := off - it.imageOff
    if 5 ≤ it.cls then (d.itemBytes it).getD k 0
    else if k < it.length then byteAt d.mem.bytes (it.addr + k) else byteAt d.mem.bytes (it.sAddr + (k - it.length))

/-- Bytes of the image. -/
def Dev.imageBytes (d : Dev) (off n : Nat) : List Byte := (List.range n).map (fun i => d.imageByte (off + i))

/-- The MC's two items go out as deltas, line by line (R373, R375). -/
def Dev.queueMcItems (d : Dev) : Dev :=
  if d.captures then
    (d.sow.items.filter (fun it => decide (5 ≤ it.cls))).foldl (fun d it =>
      (chunks 64 200 (d.itemBytes it)).zipIdx.foldl (fun d x =>
        d.queueDelta (it.imageOff + 64 * x.2) ((x.1 ++ List.replicate 64 0).take 64)) d) d
  else d

/-! ### The partner and its mirror region (R374, R377) -/

/-- The partner's device number. -/
def Dev.partner (d : Dev) : Nat := d.getF R.SOW_PARTNER_DEVICE 0

/-- SOW_PAIR_STATUS.STATE. -/
def Dev.pairState (d : Dev) : Nat := d.getF R.SOW_PAIR_STATUS_STATE 0

/-- Sets SOW_PAIR_STATUS.STATE. -/
def Dev.setPair (d : Dev) (v : Nat) : Dev := d.setF R.SOW_PAIR_STATUS_STATE 0 v

/-- Sends a MGMT message to the partner. -/
def Dev.toPartner (d : Dev) (sub : Nat) (p : Packet) : Dev := d.sendMgmt d.partner sub p

/-- A REMIRROR that is due goes to the partner, as soon as one is named and a flow to it carries it (R378, R387). -/
def Dev.askMirror (d : Dev) : Dev :=
  if d.sow.remirror && decide (d.getF R.SOW_PARTNER_VALID 0 = 1) && (d.flowKind d.partner 3).isSome then
    { d with sow := { d.sow with remirror := false } }.toPartner 15 (packetOf 0x30)
  else d

/-- A MGMT packet of a subtype arrives on a flow of its sender and is performed (R335, R387). -/
def Dev.mgmt (d : Dev) (sub : Nat) (p : Packet) (f : Dev → Dev) : Dev :=
  if p.opc ≠ 0x30 ∨ p.attr % 256 ≠ sub then d else d.arrive p f

/-- As `mgmt`, for a message that only the named partner may send; another sender's is ignored. -/
def Dev.fromPartner (d : Dev) (sub : Nat) (p : Packet) (f : Dev → Dev) : Dev :=
  d.mgmt sub p (fun d => if d.isPartner p.src then f d else d)

/-- IMAGE of the partner. -/
def Dev.pImage (d : Dev) : Nat := d.sow.partnerImage * 2 ^ 20

/-- BMP of an image (R374). -/
def bmpSize (image : Nat) : Nat := roundUp (image / 512) 0x200000

/-- Where the partner's image lies. -/
def Dev.pImageBase (d : Dev) : Nat := d.mirrorBase + 0x2600000

/-- Where journal slot k lies. -/
def Dev.pSlot (d : Dev) (k : Nat) : Nat := d.pImageBase + d.pImage + k * (d.pImage + bmpSize d.pImage)

/-- Where the copy of the partner's log lies. -/
def Dev.pLog (d : Dev) : Nat := d.mirrorBase + 0x600000

/-- Where the harvest journal lies. -/
def Dev.pJournal (d : Dev) : Nat := d.pSlot 2

/-- Header STATE of the partner mirror region: 0 EMPTY, 1 CONSISTENT, 2 MERGING, 3 BASE. -/
def Dev.regionState (d : Dev) : Nat := d.nat d.mirrorBase 1

/-- Sets header STATE. -/
def Dev.setRegion (d : Dev) (v : Nat) : Dev := d.writeRaw d.mirrorBase (leBytes 1 v)

/-- Header SEALED. -/
def Dev.regionSealed (d : Dev) : Nat := d.nat (d.mirrorBase + 8) 8

/-- Header NEXT_LSN. -/
def Dev.regionLsn (d : Dev) : Nat := d.nat (d.mirrorBase + 16) 8

/-- The region is discarded: it holds no partner any more (R371, R378). -/
def Dev.dropRegion (d : Dev) : Dev :=
  let d := d.invalidate d.mirrorBase (logBase - d.mirrorBase)
  { d with sow := { d.sow with partnerBase := false, partnerSteps := [], refetch := [] } }

/-- Lines of journal slot k whose bit is set. -/
def Dev.dirtyLines (d : Dev) (k : Nat) : List Nat :=
  let b := d.pSlot k + d.pImage
  (d.mem.bytes.filter (fun c => inRange c.1 b (bmpSize d.pImage))).flatMap (fun c =>
    ((List.range 8).filter (fun i => bitOf c.2.toNat i)).map (fun i => 8 * (c.1 - b) + i))

/-- Clears journal slot k and its bitmap. -/
def Dev.clearSlot (d : Dev) (k : Nat) : Dev := d.invalidate (d.pSlot k) (d.pImage + bmpSize d.pImage)

/-- A line of the partner's image as a restore or harvest reads it during MERGING or while it is pinned: the
latest entry of the harvest journal wins (R281, R377). -/
def Dev.pLine (d : Dev) (line : Nat) : List Byte :=
  match d.harvest.journal.reverse.find? (fun e => decide (e.1 = 64 * line)) with
  | some e => e.2
  | none => d.bytes (d.pImageBase + 64 * line) 64

/-- Bytes of the image that a harvest has pinned, without the journal of the later boundaries (R280, R282). -/
def Dev.pinnedBytes (d : Dev) (off n : Nat) : List Byte := d.bytes (d.pImageBase + off) n

/-- Bytes of the partner's image at its last sealed boundary. -/
def Dev.pBytes (d : Dev) (off n : Nat) : List Byte :=
  (((List.range ((off + n + 63) / 64 - off / 64)).flatMap (fun i => d.pLine (off / 64 + i))).drop (off % 64)).take n

/-- The harvest journal holds n more entries of 72 bytes (R281). -/
def Dev.journalFits (d : Dev) (n : Nat) : Bool := decide (72 * (d.harvest.journal.length + n) ≤ logBase - d.pJournal)

/-- A harvest pins the image (R280). -/
def Dev.pinned (d : Dev) : Bool := d.harvest.serving.elim false (·.pinned)

/-! ### Sowing records (R380 to R383) -/

/-- A record: header, body and CHECK (R381). -/
def recordBytes (typ index dev step lsn count : Nat) (body : List Byte) : List Byte :=
  let with' (check : Nat) : List Byte :=
    leBytes 1 typ ++ leBytes 1 1 ++ leBytes 2 index ++ leBytes 2 dev ++ leBytes 2 0 ++ leBytes 8 step ++ leBytes 8 lsn
      ++ leBytes 4 count ++ leBytes 4 check ++ (body ++ List.replicate 480 0).take 480
  with' (crc32c (with' 0))

/-- CHECK of a record is right (R381). -/
def recordOk (r : List Byte) : Bool :=
  decide (r.length = 512) && decide (leNat ((r.drop 28).take 4) = crc32c (r.take 28 ++ List.replicate 4 0 ++ r.drop 32))

/-- A little-endian field of a record. -/
def recField (r : List Byte) (off n : Nat) : Nat := leNat ((r.drop off).take n)

/-- A record before it has its place: TYPE, COUNT, body. -/
abbrev RecBody := Nat × Nat × List Byte

/-- Cuts the entries of one record type into bodies of at most n entries behind a fixed head. -/
def cutBodies (typ n : Nat) (head : List Byte) (es : List (List Byte)) : List RecBody :=
  (chunks n (es.length + 1) es).map (fun xs => (typ, xs.length, head ++ xs.flatten))

/-- The order of decisions within a record type (R383). -/
def decisionKey : Decision → Nat × Nat × Nat
  | .commit c i _ _ _ => (c, i, 0)
  | .rebalance p _ _ _ => (p, 0, 0)
  | .jit s p ph e _ _ => (s * 256 + p, ph, e)
  | .promotion e _ _ _ => (e, 0, 0)
  | .vote _ _ _ => (0, 0, 0)
  | .bucket _ _ _ _ _ => (0, 0, 0)
  | .subst _ _ sl p _ => (p, sl, 0)

/-- The TYPE of the record that carries a decision. -/
def decisionType : Decision → Nat
  | .commit .. => 2 | .rebalance .. => 3 | .jit .. => 4 | .promotion .. => 5 | .vote .. => 6 | .bucket .. => 7 | .subst .. => 8

/-- Lexicographic order of triples. -/
def keyLe (a b : Nat × Nat × Nat) : Bool :=
  decide (a.1 < b.1) || (decide (a.1 = b.1) && (decide (a.2.1 < b.2.1) || (decide (a.2.1 = b.2.1) && decide (a.2.2 ≤ b.2.2))))

/-- The decisions of a type in record order. -/
def ofType (t : Nat) (ds : List Decision) : List Decision :=
  (ds.filter (fun x => decide (decisionType x = t))).mergeSort (fun a b => keyLe (decisionKey a) (decisionKey b))

/-- The membership bitmap of a list of logical cells, 128 bytes. -/
def bitmap (ls : List Nat) : List Byte := leBytes 128 ((ls.map (fun l => 2 ^ l)).sum)

/-- Groups the JIT_SCALE decisions of each phase or request. -/
def jitGroups : List Decision → List ((Nat × Nat × Nat) × List (List Byte))
  | [] => []
  | .jit s p ph e sg c :: ds =>
    let x := leBytes 4 e ++ leBytes 2 (twos 16 sg) ++ leBytes 1 c ++ leBytes 1 0
    match jitGroups ds with
    | (k, xs) :: gs => if k = (s, p, ph) then (k, x :: xs) :: gs else ((s, p, ph), [x]) :: (k, xs) :: gs
    | [] => [((s, p, ph), [x])]
  | _ :: ds => jitGroups ds

/-- The bodies of the records of one type (R383). -/
def bodiesOf (t : Nat) (ds : List Decision) : List RecBody :=
  let ds := ofType t ds
  match t with
  | 2 => ds.flatMap (fun x => match x with
    | .commit c i s g regs =>
      cutBodies 2 59 (leBytes 1 c ++ leBytes 1 (b2n g) ++ leBytes 2 i ++ leBytes 2 s ++ leBytes 2 0)
        (regs.map (fun r => leBytes 2 r.1 ++ leBytes 2 0 ++ leBytes 4 r.2))
    | _ => [])
  | 3 => ds.flatMap (fun x => match x with
    | .rebalance p n delta ls =>
      [(3, 1, leBytes 1 p ++ leBytes 1 0 ++ leBytes 2 n ++ leBytes 2 (twos 16 delta) ++ leBytes 10 0 ++ bitmap ls)]
    | _ => [])
  | 4 => (jitGroups ds).flatMap (fun g =>
      cutBodies 4 59 (leBytes 1 g.1.1 ++ leBytes 1 g.1.2.1 ++ leBytes 2 0 ++ leBytes 4 g.1.2.2) g.2)
  | 5 => cutBodies 5 60 [] (ds.filterMap (fun x => match x with
    | .promotion e o n c => some (leBytes 4 e ++ leBytes 1 o ++ leBytes 1 n ++ leBytes 1 c ++ leBytes 1 0)
    | _ => none))
  | 6 => ds.filterMap (fun x => match x with
    | .vote o n v => some (6, 1, leBytes 2 o ++ leBytes 2 0 ++ leBytes 4 n ++ leBytes 4 v)
    | _ => none)
  | 7 => ds.filterMap (fun x => match x with
    | .bucket c p q f b => some (7, 1, leBytes 1 c ++ leBytes 1 p ++ leBytes 1 q ++ leBytes 1 f ++ leBytes 4 b)
    | _ => none)
  | _ => cutBodies 8 20 [] (ds.filterMap (fun x => match x with
    | .subst a b sl p r => some (leBytes 8 a ++ leBytes 8 b ++ leBytes 4 sl ++ leBytes 1 p ++ leBytes 1 r ++ leBytes 2 0)
    | _ => none))

/-- The bodies of a step's decisions, in record order (R382). -/
def stepBodies (ds : List Decision) : List RecBody := [2, 3, 4, 5, 6, 7, 8].flatMap (fun t => bodiesOf t ds)

/-- The records of a step, its STEP_SEAL last (R382, R383). -/
def Dev.stepRecords (d : Dev) (ds : List Decision) (skip held : Bool) : List (List Byte) :=
  let bs := stepBodies ds
  let lsn := d.getF R.SOW_LSN 0
  let sealRec : RecBody := (1, 1, leBytes 4 (bs.length + 1) ++ leBytes 4 (b2n skip + 2 * b2n held) ++ leBytes 8 d.sow.deltaLines
    ++ leBytes 8 (d.sow.deltaCrc ^^^ (2 ^ 64 - 1)))
  (bs ++ [sealRec]).zipIdx.map (fun x => recordBytes x.1.1 x.2 d.devNum d.step (lsn + x.2) x.1.2.1 x.1.2.2)

/-- Entry k of n bytes of a record's body, from an offset. -/
def recEntry (r : List Byte) (off n k : Nat) : List Byte := (r.drop (off + n * k)).take n

/-- The decisions that a record holds (R383); none for STEP_SEAL. -/
def recordDecisions (r : List Byte) : List Decision :=
  let n := recField r 24 4
  let f := recField r
  match f 0 1 with
  | 2 => [.commit (f 32 1) (f 34 2) (f 36 2) (decide (f 33 1 = 1))
      ((List.range (min n 59)).map (fun k => (f (40 + 8 * k) 2, f (44 + 8 * k) 4)))]
  | 3 => [.rebalance (f 32 1) (f 34 2) (sext 16 (f 36 2)) ((List.range 1024).filter (fun l => bitOf (f 48 128) l))]
  | 4 => (List.range (min n 59)).map (fun k =>
      .jit (f 32 1) (f 33 1) (f 36 4) (f (40 + 8 * k) 4) (sext 16 (f (44 + 8 * k) 2)) (f (46 + 8 * k) 1))
  | 5 => (List.range (min n 60)).map (fun k => .promotion (f (32 + 8 * k) 4) (f (36 + 8 * k) 1) (f (37 + 8 * k) 1) (f (38 + 8 * k) 1))
  | 6 => [.vote (f 32 2) (f 36 4) (f 40 4)]
  | 7 => [.bucket (f 32 1) (f 33 1) (f 34 1) (f 35 1) (f 36 4)]
  | 8 => (List.range (min n 20)).map (fun k =>
      .subst (f (32 + 24 * k) 8) (f (40 + 24 * k) 8) (f (48 + 24 * k) 4) (f (52 + 24 * k) 1) (f (53 + 24 * k) 1))
  | _ => []

/-- Joins the parts of one COMMIT that several records carry. -/
def joinCommits : List Decision → List Decision
  | [] => []
  | .commit c i s g regs :: ds =>
    match joinCommits ds with
    | .commit c' i' s' g' regs' :: rest =>
      if c = c' ∧ i = i' then .commit c i s g (regs ++ regs') :: rest
      else .commit c i s g regs :: .commit c' i' s' g' regs' :: rest
    | rest => .commit c i s g regs :: rest
  | x :: ds => x :: joinCommits ds

/-- A record is a STEP_SEAL. -/
def isSeal (r : List Byte) : Bool := decide (recField r 0 1 = 1)

/-- The records of a step are whole: each has its CHECK, their INDEX values are 0 to n − 1, and the last, the
STEP_SEAL, counts them (R380, R396). -/
def recordsWhole (rs : List (List Byte)) : Bool :=
  rs.all recordOk && (match rs.getLast? with
    | some r => isSeal r && decide (recField r 32 4 = rs.length)
    | none => false) && (rs.zipIdx).all (fun x => decide (recField x.1 2 2 = x.2 % 2 ^ 16))

/-- A record's place in a log copy (R380). -/
def logSlot (base lsn : Nat) : Nat := base + lsn % 65536 * 512

/-- Writes a record into this device's log. -/
def Dev.logOwn (d : Dev) (lsn : Nat) (r : List Byte) : Dev := d.writeRaw (logSlot logBase lsn) r

/-! ### Base transfers and the outbound queue (R375, R376, R380) -/

/-- Sends one packet of the mirror stream, counted (R403). -/
def Dev.sendStream (d : Dev) (sub : Nat) (p : Packet) : Dev := (d.toPartner sub p).bump SOW 0 2 p.payload.length

/-- The item table in memory as it goes to the partner beside a base transfer (R373, R374). -/
def Dev.itemTable (d : Dev) : List Byte := d.bytes d.itemBase (64 * min 65534 d.itemCount)

/-- Sends the next BASE packet; the last carries LAST (R376, R387). The first brings the partner the item table that it
keeps a copy of, by a way that the spec does not name (R374): DESIGN CHOICE, log entry 21. -/
def Dev.sendBase (d : Dev) : Dev :=
  let off := d.sow.baseNext
  let d := if off = 0 then d.emit (.itemTable d.itemTable) else d
  let n := min 4096 (imageLen d.sow.items - off)
  let last := decide (imageLen d.sow.items ≤ off + n)
  let p := { packetOf 0x30 with addr := off, op1 := b2n last, payload := d.imageBytes off n }
  Dev.sendStream { d with sow := { d.sow with baseNext := off + n, baseActive := !last } } 3 p

/-- A record of a step whose deltas the base transfer carries: its STEP_SEAL counts none of them any more (R376, R381,
R382). -/
def asBased (r : List Byte) : List Byte :=
  if isSeal r then
    recordBytes 1 (recField r 2 2) (recField r 4 2) (recField r 8 8) (recField r 16 8) (recField r 24 4)
      ((r.drop 32).take 8 ++ List.replicate 16 0)
  else r

/-- Begins a base transfer (R376): nothing is sealed until it has ended; the boundaries unsealed so far seal with
the first one after it. The deltas in the queue are in the image; the records of those boundaries go to the partner
again behind the first BASE packet, with seals that count no deltas: DESIGN CHOICE, log entry 21. The gate holds no
contribution for them. -/
def Dev.startBase (d : Dev) : Dev :=
  let steps := d.sow.baseSteps ++ d.sow.unsealed
  let recs : NMap (List Byte) := (d.sow.recCopies.filter (fun e => steps.contains (recField e.2 8 8))).map (fun e => (e.1, asBased e.2))
  let d := recs.foldl (fun d e =>
    Dev.logOwn { d with sow := { d.sow with recCopies := mput e.1 e.2 d.sow.recCopies } } e.1 e.2) d
  let d := { d with sow := { d.sow with
    queue := recs.map (fun (e : Nat × List Byte) => MirrorItem.record (recField e.2 8 8) e.2), baseSteps := steps, unsealed := [], deltaLines := 0,
    deltaCrc := 2 ^ 64 - 1, baseActive := true, baseNext := 0 } }
  (((d.setF R.SOW_SEAL_STATUS_SEALED_VALID 0 0).setF R.SOW_LAST_SEALED 0 (2 ^ 64 - 1)).setPair 2).sendBase.openGate

/-- The deltas at the front of the queue that go into one DELTA packet: one step, at most 56. -/
def frontDeltas : Nat → Nat → List MirrorItem → List (List Byte)
  | 0, _, _ => []
  | n + 1, step, .delta s off line :: q => if s = step then (leBytes 8 off ++ line) :: frontDeltas n step q else []
  | _, _, _ => []

/-- The records at the front of the queue that go into one RECORD packet: one step, at most 8. -/
def frontRecords : Nat → Nat → List MirrorItem → List (List Byte)
  | 0, _, _ => []
  | n + 1, step, .record s r :: q => if s = step then r :: frontRecords n step q else []
  | _, _, _ => []

/-- Sends the next packet of the mirror stream: what is first in the queue, else the next BASE packet. -/
def Dev.sendMirror (d : Dev) : Dev :=
  match d.sow.queue with
  | .delta s _ _ :: _ =>
    let xs := frontDeltas 56 s d.sow.queue
    let d := { d with sow := { d.sow with queue := d.sow.queue.drop xs.length } }
    d.sendStream 4 { packetOf 0x30 with op1 := s, payload := xs.flatten }
  | .record s _ :: _ =>
    let xs := frontRecords 8 s d.sow.queue
    let d := { d with sow := { d.sow with queue := d.sow.queue.drop xs.length } }
    d.sendStream 5 { packetOf 0x30 with op1 := s, payload := xs.flatten }
  | [] => if d.sow.baseActive then d.sendBase else d

/-- The mirror stream runs: the pairing is in BASE or PAIRED. -/
def Dev.streaming (d : Dev) : Bool := decide (d.pairState = 2) || decide (d.pairState = 3)

/-- MIRROR_SEND (R375, R376, R379, R380, R387): one packet of the mirror stream; the cap is a matter of time. -/
def execMirrorSend (s : State) : Res := s.onDev (fun d => if d.streaming then d.sendMirror else d)

/-! ### The partner's side of the stream (R376, R377, R380) -/

/-- What has come of a step of the partner. -/
def Dev.partnerStep (d : Dev) (step : Nat) : PartnerStep :=
  (d.sow.partnerSteps.find? (fun x => decide (x.step = step))).getD ⟨step, [], 0, 2 ^ 64 - 1, false⟩

/-- Stores it, in step order. -/
def Dev.setPartnerStep (d : Dev) (x : PartnerStep) : Dev :=
  let rest := d.sow.partnerSteps.filter (fun y => decide (y.step ≠ x.step))
  let all := rest.filter (fun y => decide (y.step < x.step)) ++ x :: rest.filter (fun y => decide (x.step < y.step))
  { d with sow := { d.sow with partnerSteps := all } }

/-- The records and deltas of a step are complete (R380). -/
def PartnerStep.whole (x : PartnerStep) : Bool :=
  recordsWhole x.records && (match x.records.getLast? with
    | some r => decide (recField r 40 8 = x.lines) && decide (recField r 48 8 = x.crc ^^^ (2 ^ 64 - 1))
    | none => false)

/-- The step that can seal now, if one can (R376, R380): after a base transfer the first whole step whose boundary
was reached after the last BASE packet, every earlier one being whole; else the step after the last sealed
one. -/
def Dev.sealable (d : Dev) : Option PartnerStep :=
  if d.sow.partnerBase ∨ d.sow.refetch.isEmpty = false then none
  else if d.regionState = 3 then
    match d.sow.partnerSteps.find? (fun x => !x.early) with
    | some x => if x.whole && (d.sow.partnerSteps.filter (fun y => decide (y.step < x.step))).all (·.whole) then some x else none
    | none => none
  else if d.regionState = 1 then
    d.sow.partnerSteps.find? (fun x => decide (x.step = (d.regionSealed + 1) % 2 ^ 64) && x.whole)
  else none

/-- Copies the dirty lines of slot k into the image, or into the harvest journal while the image is pinned (R280,
R377). -/
def Dev.mergeSlot (d : Dev) (k : Nat) : Dev :=
  (d.dirtyLines k).foldl (fun d l =>
    let line := d.bytes (d.pSlot k + 64 * l) 64
    if d.pinned then { d with harvest := { d.harvest with journal := d.harvest.journal ++ [(64 * l, line)] } }
    else d.writeRaw (d.pImageBase + 64 * l) line) d

/-- Seals a step of the partner (R280, R377): SEAL_ACK, the merge, the header; a harvest that waits for it pins the
image. -/
def Dev.sealPartner (d : Dev) (x : PartnerStep) : Dev :=
  let d := d.toPartner 6 { packetOf 0x30 with op1 := x.step }
  let d := ((d.setRegion 2).mergeSlot (x.step % 2)).clearSlot (x.step % 2)
  let next := (x.records.getLast?).elim 0 (fun r => recField r 16 8 + 1)
  let d := (d.writeRaw (d.mirrorBase + 8) (leBytes 8 x.step ++ leBytes 8 next)).setRegion 1
  let pin := d.harvest.serving.map (fun h => if h.step = x.step then { h with pinned := true } else h)
  { d with sow := { d.sow with partnerSteps := d.sow.partnerSteps.filter (fun y => decide (x.step < y.step)) },
           harvest := { d.harvest with serving := pin } }

/-- Seals every step that can seal, in step order; one whose deltas the harvest journal cannot hold waits (R281,
R377, R380). -/
def Dev.trySeal : Nat → Dev → Dev
  | 0, d => d
  | n + 1, d =>
    match d.sealable with
    | some x => if d.pinned && !d.journalFits (d.dirtyLines (x.step % 2)).length then d else Dev.trySeal n (d.sealPartner x)
    | none => d

/-- As `trySeal`, for all the steps that can wait. -/
def Dev.trySeals (d : Dev) : Dev := Dev.trySeal (d.sow.partnerSteps.length + 1) d

/-- Bytes of the mirror stream received are counted (R403). -/
def Dev.streamIn (d : Dev) (p : Packet) : Dev := d.bump SOW 0 3 p.payload.length

/-- The partner's item table, as it comes with the first BASE packet of a transfer, goes into the region, and the image it
lays out is the one that follows (R374). -/
def Dev.takeItems (d : Dev) (table : List Byte) : Dev :=
  if table.isEmpty then d
  else
    let a := d.mirrorBase + 0x200000
    let d := d.writeRaw a (table.take (64 * 65534))
    let n := min 65534 (table.length / 64)
    let its := placeItems 0 ((List.range n).map (fun i => d.itemAt (a + 64 * i)) ++ mcItems)
    { d with sow := { d.sow with partnerItems := n, partnerImage := imageSize its / 2 ^ 20 } }

/-- A BASE packet (R376, R377): into the image; the first of a transfer, which is one at offset 0 or one that follows a
LAST, sets the header to BASE, discards what came before and brings the item table (log entry 21). -/
def Dev.takeBase (d : Dev) (p : Packet) (table : List Byte) : Dev :=
  let d := d.streamIn p
  let d := if d.sow.partnerBase ∧ p.addr ≠ 0 then d
    else
      let d := (((d.takeItems table).setRegion 3).clearSlot 0).clearSlot 1
      { d with sow := { d.sow with partnerBase := true, partnerSteps := [], refetch := [] } }
  let d := d.writeRaw (d.pImageBase + p.addr) p.payload
  if bitOf p.op1 0 then { d with sow := { d.sow with partnerBase := false } } else d

/-- BASE (R376, R387, R403). -/
def execBase (p : BasePacket) (s : State) : Res := s.onDev (fun d => d.fromPartner 3 p.packet (fun d => d.takeBase p.packet p.table))

/-- A journal slot takes a line and marks it dirty (R377). -/
def Dev.slotLine (d : Dev) (k off : Nat) (line : List Byte) : Dev :=
  let l := off / 64
  let a := d.pSlot k + d.pImage + l / 8
  (d.writeRaw (d.pSlot k + off) line).writeRaw a (leBytes 1 (setBit (d.nat a 1) (l % 8)))

/-- One entry of a DELTA packet. -/
def Dev.takeDelta (d : Dev) (step : Nat) (e : List Byte) : Dev :=
  let off := leNat (e.take 8)
  let x := d.partnerStep step
  let d := d.setPartnerStep { x with lines := x.lines + 1, crc := crc64Run x.crc e }
  if d.sow.partnerBase then d.writeRaw (d.pImageBase + off) (e.drop 8) else d.slotLine (step % 2) off (e.drop 8)

/-- DELTA (R376, R377, R387, R403). -/
def execDelta (p : Packet) (s : State) : Res :=
  s.onDev (fun d => d.fromPartner 4 p (fun d =>
    (chunks 72 56 p.payload).foldl (fun d e => d.takeDelta p.op1 e) (d.streamIn p)))

/-- A record of the partner: into the log copy, and counted to its step when its CHECK is right (R377, R380). -/
def Dev.takeRecord (d : Dev) (r : List Byte) : Dev :=
  let d := d.writeRaw (logSlot d.pLog (recField r 16 8)) r
  if recordOk r then
    let x := d.partnerStep (recField r 8 8)
    d.setPartnerStep { x with records := x.records ++ [r], early := x.early || (isSeal r && d.sow.partnerBase) }
  else d

/-- RECORD (R376, R377, R380, R387, R403). -/
def execRecord (p : Packet) (s : State) : Res :=
  s.onDev (fun d => d.fromPartner 5 p (fun d =>
    ((chunks 512 8 p.payload).foldl (fun d r => d.takeRecord r) (d.streamIn p)).trySeals))

end Sys2Proof.Machine
end

