-- ==== Sys2Proof/Machine/Steps.lean ====
section
/-! DEFINITION. Step boundaries: what must have completed, the commits, decisions and updates that apply, the
sowing records, seals, and the opening of the next step (R11, R18, R30 to R36, R46, R54 to R57, R110, R113, R114,
R175, R176, R197, R248, R249, R266, R271, R278, R372, R376, R379, R380, R382, R384, R406, R547). -/

namespace Sys2Proof.Machine

/-! ### The plot map at a boundary (R110) -/

/-- The logical cells of a plot as the applied PLT_MEMBER registers claim them: bit l for cell l. -/
def Dev.memberMask (d : Dev) (k : Nat) : Nat := ((List.range 32).map (fun w => d.getF (R.PLT_MEMBER w) k * 2 ^ (32 * w))).sum

/-- Writes the members of a plot. -/
def Dev.setMask (d : Dev) (k m : Nat) : Dev :=
  (List.range 32).foldl (fun d w => d.setF (R.PLT_MEMBER w) k (m / 2 ^ (32 * w))) d

/-- The members of every plot. -/
def Dev.masks (d : Dev) : List Nat := (List.range 64).map d.memberMask

/-- The set of a list of cells. -/
def maskOf (ls : List Nat) : Nat := ls.foldl (fun m l => setBit m l) 0

/-- The mapped logical numbers. -/
def Dev.mappedMask (d : Dev) : Nat := clearBits (2 ^ d.logicalCells - 1) (maskOf d.unmapped)

/-- A map in which each cell stands in one plot, the lowest-numbered that holds it. -/
def lowestHolder : Nat → List Nat → List Nat
  | _, [] => []
  | seen, m :: ms => clearBits m seen :: lowestHolder (seen ||| m) ms

/-- Resolves claims (R110): a mapped cell stays where it was when that plot claims it or no plot does, and goes to
the lowest-numbered claimant otherwise; `before` holds each cell once. -/
def resolvePlots (mapped : Nat) (before after : List Nat) : List Nat :=
  let kept := (before.zip after).map (fun x => x.1 &&& x.2 &&& mapped)
  let stay := kept.foldl (· ||| ·) 0
  let claimed := after.foldl (· ||| ·) 0
  let step (acc : Nat × List Nat) (x : (Nat × Nat) × Nat) : Nat × List Nat :=
    let new := clearBits (x.1.2 &&& mapped) (stay ||| acc.1)
    (acc.1 ||| x.1.2, acc.2 ++ [x.2 ||| new ||| clearBits (x.1.1 &&& mapped) claimed])
  (((before.zip after).zip kept).foldl step (0, [])).2

/-- The shadow of every PLT_MEMBER register that is not part of an armed commit is loaded again (R118). -/
def Dev.reloadMembers (d : Dev) : Dev :=
  { d with shadow := d.shadow.filter (fun e =>
      !(decide (keyPage e.1 / 2048 = PLT) && decide (192 ≤ e.1 / 32 % 4096) && (mfind (keyPage e.1) d.armed).isNone)) }

/-- The map of the last resolution; before the first, plot 0 holds every mapped cell (R109, R118). -/
def Dev.heldMap (d : Dev) : List Nat :=
  if d.ctl.lastMap.isEmpty then d.mappedMask :: List.replicate 63 0 else d.ctl.lastMap

/-- Resolves the map that commits, a rebalance or a restore leave; `before` is the map before them (R110, R396). -/
def Dev.resolveMap (d : Dev) (before : List Nat) : Dev :=
  let after := d.masks
  let res := resolvePlots d.mappedMask (lowestHolder 0 before) after
  let d := { d with ctl := { d.ctl with lastMap := res } }
  if res = after then d
  else
    ((List.range 64).foldl (fun d k =>
      if res.getD k 0 = after.getD k 0 then d else (d.setMask k (res.getD k 0)).setErr PLT k 16) d).reloadMembers

/-! ### Commits (R54 to R57) -/

/-- The group has no armed member left: GLB_GROUP_STAT shows APPLIED (R57). -/
def Dev.finishGroup (d : Dev) : Dev :=
  match d.groupSeq with
  | some q =>
    if d.groupPages.isEmpty then
      ({ d with groupSeq := none }.setF R.GLB_GROUP_STAT_STATE 0 2).setF R.GLB_GROUP_STAT_NEXT_SEQ 0 (q + 1)
    else d
  | none => d

/-- The RS fields of a page. -/
def rsFields (c i : Nat) : List Field :=
  (R.fieldsOf c).filter (fun f => decide (f.acc = .rs) && !(f.only0 && decide (i ≠ 0)))

/-- The applied value of every register of a page that holds an RS field, by ascending offset (R383). -/
def Dev.rsWords (d : Dev) (c i : Nat) : List (Nat × Nat) :=
  let fs := rsFields c i
  (fs.foldl (fun os f => insertSet f.off os) []).map (fun o =>
    (o, ((fs.filter (fun f => decide (f.off = o))).map (fun f => d.getF f i * 2 ^ f.lo)).sum))

/-- Applies recorded registers to a page (R55). -/
def Dev.setRsWords (d : Dev) (c i : Nat) (ws : List (Nat × Nat)) : Dev :=
  ws.foldl (fun d w => ((rsFields c i).filter (fun f => decide (f.off = w.1))).foldl (fun d f =>
    (d.setF f i (bitsOf w.2 f.lo f.width)).setAct f i (bitsOf w.2 f.lo f.width)) d) d

/-- The pages whose armed commit applies at a step boundary: group members of a committed group, single commits
but for a CEL commit without a step field, which has its own boundary (R49, R54, R57). -/
def Dev.boundaryPages (d : Dev) : List (Nat × Nat) :=
  (d.armed.filter (fun e => if e.2.group then d.groupSeq.isSome
    else decide (e.1 / 2048 ≠ CEL) || d.stagesStep (e.1 / 2048) (e.1 % 2048))).map (fun e => (e.1 / 2048, e.1 % 2048))

/-- The commit of a page changes a step field. -/
def Dev.changesStep (d : Dev) (p : Nat × Nat) : Bool := (d.changes p.1 p.2).any (fun x => x.1.step)

/-- The decisions that govern the closing step: those of its record in a replay (R34). -/
def Dev.governing (d : Dev) : List Decision := d.recorded.getD d.ctl.decisions

/-- The record holds a commit of a page. -/
def hasCommit (ds : List Decision) (p : Nat × Nat) : Bool :=
  ds.any (fun x => match x with
    | .commit c i _ _ _ => decide (c = p.1) && decide (i = p.2)
    | _ => false)

/-- Applies the commits of a boundary; a replay applies the recorded values, and leaves armed a step commit that no
record holds (R55). -/
def Dev.boundaryCommits (d : Dev) : Dev :=
  match d.recorded with
  | none => d.boundaryPages.foldl (fun d p => d.applyCommit p.1 p.2) d
  | some ds =>
    let ps := d.boundaryPages.filter (fun p => !d.changesStep p || hasCommit ds p)
    let d := ps.foldl (fun d p => d.applyCommit p.1 p.2) d
    ds.foldl (fun d x => match x with
      | .commit c i _ _ ws => d.setRsWords c i ws
      | _ => d) d

/-- A rebalance decision. -/
def isRebalance : Decision → Bool
  | .rebalance _ _ _ _ => true
  | _ => false

/-- Applies rebalances (R33, R113, R117, R118). -/
def Dev.applyRebalances (d : Dev) (ds : List Decision) : Dev :=
  ds.foldl (fun d x => match x with
    | .rebalance p _ delta ls =>
      ((((d.setMask p (maskOf ls)).setF R.PLT_LAST_REBAL_STEP p d.step).setF R.PLT_LAST_REBAL_DELTA p (twos 16 delta)).bump
        PLT p 2 1).reloadMembers
    | _ => d) d

/-- A recorded membership holds mapped numbers only (R110, R113). -/
def Dev.trimRebalance (d : Dev) (x : Decision) : Decision :=
  match x with
  | .rebalance p n delta ls =>
    let ls' := ls.filter (fun l => bitOf d.mappedMask l)
    if ls' = ls then .rebalance p n delta ls else .rebalance p ls'.length (delta - (ls.length - ls'.length : Nat)) ls'
  | _ => x

/-- A rebalance withdrawn for a host commit counts as withheld, once (R114). -/
def Dev.withdraw (d : Dev) (ds : List Decision) : Dev :=
  let ps := ds.filterMap (fun x => match x with
    | .rebalance p _ _ _ => some p
    | _ => none)
  if ps.isEmpty then d else (ps.foldl (fun d p => d.irq PLT p 3) d).bump GLB 0 3 1

/-- Commits and rebalances of the boundary apply and the map is resolved; gives the commit and rebalance decisions
for the records (R55, R110, R113, R114). -/
def Dev.applyMaps (d : Dev) : List Decision × Dev :=
  let before := d.masks
  let pages := d.boundaryPages
  let rebs := (d.governing.filter isRebalance).map d.trimRebalance
  let cs := (pages.filter d.changesStep).filterMap (fun p => (d.armedOn p.1 p.2).map (fun a => (p, a)))
  let drop := d.recorded.isNone && pages.any (fun p => decide (p.1 = PLT))
  let d := d.boundaryCommits
  let d := if drop then d.withdraw rebs else d.applyRebalances rebs
  let d := (d.resolveMap before).finishGroup
  (cs.map (fun x => .commit x.1.1 x.1.2 x.2.seq x.2.group (d.rsWords x.1.1 x.1.2)) ++ (if drop then [] else rebs), d)

/-! ### Scale state, positions and the gradient plan -/

/-- Promotions apply (R197). -/
def Dev.applyPromotions (d : Dev) : Dev :=
  d.governing.foldl (fun d x => match x with
    | .promotion e _ new _ => d.write (d.sstAt e) (leBytes 1 new)
    | _ => d) d

/-- The updates of the boundary of step n: scale state, data positions, accumulators, statistics (R175, R176, R266,
R271). -/
def Dev.boundaryUpdates (d : Dev) : Dev :=
  let n := d.step
  let skip := d.voteSkip
  let d := (List.range d.sstCount).foldl (fun d i => d.scaleUpdate n skip i) d.applyPromotions
  let d := (d.advancePositions.clearAccs).clearStats (n + 1)
  match d.train.nextPlan with
  | some p => Dev.clearAccs { d with train := { d.train with plan := some p, nextPlan := none } }
  | none => d

/-- A poisoned word that the boundary's updates would meet, with the cause of the replay it asks for: 7 in the
statistics record of the step, 6 in the scale state and the data positions (R547). -/
def Dev.boundaryPoison (d : Dev) : Option (Nat × Nat) :=
  match d.poisonIn d.gsbBase 4160 with
  | some w => some (w, 6)
  | none =>
    (List.range d.sstCount).findSome? (fun i =>
      match d.poisonIn (d.sstAt i) 64, d.poisonIn (d.statAt i d.step) 32 with
      | some w, _ => some (w, 6)
      | none, some w => some (w, 7)
      | none, none => none)

/-! ### Vote, bucket size and records -/

/-- The vote's decision, when V(n) is 1 (R249, R383). -/
def Dev.voteDecision (d : Dev) : List Decision :=
  if d.voteSkip then
    [.vote (d.getF R.NUM_VOTE_ORIGIN 0) (d.train.votes.filter (·.1)).length d.train.votes.length]
  else []

/-- The bucket size decision of the step (R277, R278). -/
def Dev.bucketDecision (d : Dev) : Decision :=
  let z := d.bucketCode
  match d.train.agreed with
  | some a => .bucket a.1 z a.2.1 a.2.2 d.bucketCount
  | none => .bucket z z z 0 d.bucketCount

/-- A COL commit of the boundary has new bounds for the bucket code. -/
def Dev.newBucketBounds (d : Dev) : Bool :=
  d.recorded.isNone && d.boundaryPages.contains (COL, 0)
    && (d.changes COL 0).any (fun x => decide (x.1 = R.COL_BUCKET_LO_CODE) || decide (x.1 = R.COL_BUCKET_HI_CODE))

/-- The code decided for the next step moves to the nearest of the bounds that apply with it (R64, R363). -/
def Dev.clampBucket (d : Dev) (x : Decision) : Decision × Dev :=
  match x with
  | .bucket c p q f n =>
    let b := d.bucketBounds
    let c' := if b.2 < b.1 then c else max b.1 (min b.2 c)
    if c' = c then (x, d) else (.bucket c' p q f n, d.setErr COL 0 6)
  | _ => (x, d)

/-- The code that a step's decisions give the next step. -/
def nextCode (z : Nat) (ds : List Decision) : Nat :=
  (ds.findSome? (fun x => match x with
    | .bucket c _ _ _ _ => some c
    | _ => none)).getD z

/-- A skipped step is reported (R249, R251). -/
def Dev.reportVote (d : Dev) (ds : List Decision) : Dev :=
  ds.foldl (fun d x => match x with
    | .vote o n _ => ((d.postEvent { Event.blank 7 5 d.step with value := o, aux := n }).setErr NUM 0 20).bump NUM 0 7 1
    | _ => d) d

/-- Writes the records of a step: own log, copies, outbound queue, LSN (R380, R391). -/
def Dev.putRecords (d : Dev) (rs : List (List Byte)) : Dev :=
  let lsn := d.getF R.SOW_LSN 0
  let n := d.step
  let d := rs.zipIdx.foldl (fun d x =>
    let d := d.logOwn (lsn + x.2) x.1
    { d with sow := { d.sow with recCopies := mput (lsn + x.2) x.1 d.sow.recCopies,
                                 queue := if d.captures then d.sow.queue ++ [.record n x.1] else d.sow.queue } }) d
  (d.setF R.SOW_LSN 0 (lsn + rs.length)).bump SOW 0 1 rs.length

/-! ### Seals (R17, R372, R376, R380) -/

/-- Boundary n has sealed, with every earlier one; the records kept for it go (R380, R391, R403). -/
def Dev.sealTo (d : Dev) (n count : Nat) : Dev :=
  let d := { d with sow := { d.sow with
    unsealed := d.sow.unsealed.filter (fun k => decide (n < k)), baseSteps := [],
    recCopies := d.sow.recCopies.filter (fun e => decide (n < recField e.2 8 8)) } }
  ((d.setF R.SOW_LAST_SEALED 0 n).setF R.SOW_SEAL_STATUS_SEALED_VALID 0 1).bump SOW 0 0 count

/-- Boundary n is reached: on an unpaired device it seals at once with all before it (R372); during a base
transfer R18 does not count it (R376). -/
def Dev.addBoundary (d : Dev) (n : Nat) : Dev :=
  let d := { d with sow := { d.sow with reached := n } }
  if !d.captures then d.sealTo n (d.sow.unsealed.length + d.sow.baseSteps.length + 1)
  else if d.sow.baseActive then { d with sow := { d.sow with baseSteps := d.sow.baseSteps ++ [n] } }
  else { d with sow := { d.sow with unsealed := d.sow.unsealed ++ [n] } }

/-- Bounds of the mirror cap (R404). -/
def Dev.capBounds (d : Dev) : Nat × Nat :=
  let lo := max 1 (d.getF R.SOW_MIRROR_BW_CAP_MIN 0)
  (lo, max lo (d.getF R.SOW_MIRROR_BW_CAP_MAX 0))

/-- The mirror cap that a boundary decides from λ and T (R379). -/
def Dev.nextCap (d : Dev) (m : BoundaryMeasure) : Nat :=
  let cap := d.getF R.SOW_MIRROR_STATUS_CAP 0
  let b := d.capBounds
  if m.cycles < 4 * m.lambda then min b.2 (cap + cap / 4)
  else if 16 * m.lambda < m.cycles then max b.1 (cap - cap / 8)
  else cap

/-- The cap decided at the last boundary acts, within the bounds that apply (R64), and the next one is decided; POLICY_HOLD withholds it (R65, R379,
R403). -/
def Dev.boundaryCap (d : Dev) (m : BoundaryMeasure) : Dev :=
  if !d.captures then d
  else
    let d := match d.sow.capNext with
      | some v =>
        let b := d.capBounds
        let v' := max b.1 (min b.2 v)
        let d := if v' = v then d else d.setErr SOW 0 6
        d.setF R.SOW_MIRROR_STATUS_CAP 0 v'
      | none => d
    let d := Dev.bump { d with sow := { d.sow with capNext := none } } SOW 0 7 m.lambda
    let v := d.nextCap m
    if v = d.getF R.SOW_MIRROR_STATUS_CAP 0 then d
    else if d.held SOW 0 then d.policyWithheld SOW 0
    else Dev.policyTaken { d with sow := { d.sow with capNext := some v } } SOW 0

/-! ### What else happens at a boundary -/

/-- Busy times and plot counters of the closed step, whose active plots are `ps` (R111, R117, R118). -/
def Dev.boundaryBusy (d : Dev) (ps : List Nat) (m : BoundaryMeasure) : Dev :=
  let busy (k : Nat) : Nat := ((m.busy.find? (fun e => decide (e.1 = k))).map (·.2)).getD 0
  let d := (List.range 64).foldl (fun d k => d.setF R.PLT_BUSY_BUSY k (min (2 ^ 32 - 1) (busy k))) d
  let d := ps.foldl (fun d k => (d.bump PLT k 0 1).bump PLT k 1 (busy k)) d
  { d with ctl := { d.ctl with prevBusy := ps.map (fun k => (k, busy k)) } }

/-- An active plot for which fewer slots were ingested than the step takes: BATCH_SHORT (R406). -/
def Dev.batchShort (d : Dev) : Dev :=
  let short := ((List.range 64).filter d.posActive).any (fun p =>
    let a := d.posAt p
    decide (mget 0 d.pip.ingested p < min (d.nat (a + 4) 4) (d.nat (a + 16) 8 - d.nat (a + 8) 8)))
  let d := if short then d.setErr PIP 0 18 else d
  { d with pip := { d.pip with ingested := [] } }

/-- Plots that stay short of cells are reported; an abandoned rebalance holds the next step (R31, R112). -/
def Dev.underfill (d : Dev) : Dev :=
  let short := d.ctl.rebShort
  let d := if short || (List.range 64).any d.cellless then d.setErr RAS 0 16 else d
  { d with ctl := { d.ctl with waitBounds := d.ctl.waitBounds || short } }

/-- Blocks that have returned or were grafted in the step run again (R30, R44). -/
def Dev.resumeReturned (d : Dev) : Dev :=
  let ks := (d.testFails.filter (fun e => decide (2 ^ 21 ≤ e.1))).map (fun e => e.1 - 2 ^ 21)
  ks.foldl (fun d k =>
    let d := d.setReturned (k / 2048) (k % 2048) false
    if d.jobActive ∧ d.blk (k / 2048) (k % 2048) = stReady then d.setBlk (k / 2048) (k % 2048) stRunning else d) d

/-- The RUNNING pages with a property go to another state. -/
def Dev.fromRunning (d : Dev) (now : Nat) (p : Dev → Nat → Nat → Bool) : Dev :=
  allPages.foldl (fun d x => if decide (d.blk x.1 x.2 = stRunning) && p d x.1 x.2 then d.setBlk x.1 x.2 now else d) d

/-- GLB.QUIESCE_REQ quiesces every block at a step boundary (R46); a cloche request wins (R45). -/
def Dev.quiesceAll (d : Dev) : Dev :=
  if d.actF (R.BLK_CTRL_QUIESCE_REQ GLB) 0 = 1 then
    d.fromRunning stQuiesced (fun d c i => decide (d.actF (R.BLK_CTRL_CLOCHE_REQ c) i = 0))
  else d

/-- Stored RW values of GLB, TRL and PLT act at a step boundary (R49). -/
def Dev.rwBoundary (d : Dev) : Dev :=
  ((GLB, 0) :: (TRL, 0) :: (List.range 64).map (fun k => (PLT, k))).foldl (fun d p =>
    if (rwFields p.1).any (fun f => decide (d.actF f p.2 ≠ d.getF f p.2)) then d.rwActs p.1 p.2 else d) d

/-- The job ends: RUNNING blocks go to READY, and GLB is READY when no job is active (R44, R46, R68). -/
def Dev.endJob (d : Dev) : Dev :=
  let d := (d.setF R.GLB_JOB_STATUS_ACTIVE 0 0).resumeReturned
  let d := { d with ctl := { d.ctl with endAsked := false, waitBounds := false, markHeld := false, heldMeasure := none, prevBusy := [],
                                        rebTried := false },
                    train := Train.reset, numx := { d.numx with miscompares := [] } }
  let d := d.fromRunning stReady (fun _ _ _ => true)
  if d.blk GLB 0 = stQuiesced then d.setBlk GLB 0 stReady else d

/-- Clears what belongs to one step and places the commands of the step that opens (R185, R271, R274, R342, R375). -/
def Dev.freshStep (d : Dev) : Dev :=
  let t := d.train
  let d := { d with
    plots := d.plots.map (fun (e : Nat × PlotRun) => (e.1, { PlotRun.idle with skew := if d.replaying then e.2.skew else none })),
    train := { Train.reset with plan := t.plan, nextPlan := t.nextPlan },
    ctl := { d.ctl with decisions := [], rebShort := false, rebTried := false, updateBegun := false, heldMeasure := none,
                        thnCount := 0 },
    sow := { d.sow with deltaLines := 0, deltaCrc := 2 ^ 64 - 1, touched := [] } }
  (d.placeAll.openWindows).closeVote

/-- A replay has closed step n (R394, R397, R403). -/
def Dev.replayClosed (d : Dev) (n : Nat) : Dev :=
  let d := if d.replaying then Dev.bump { d with sow := { d.sow with replay := d.sow.replay.filter (fun r => decide (n < r.step)) } } SOW 0 6 1
    else d
  if d.sow.replayUntil.elim true (fun k => decide (k ≤ n)) then d.rejoin else d

/-! ### The boundary -/

/-- What R36 asks for, the seals of R18 apart: STEP_MARK is first in command order, every bucket has been exchanged,
no staked set waits, no replay is due, and no firmware handover runs (R476); the step has begun: the GSB has passed a check
(R269) and no new bounds are awaited (R31). -/
def Dev.boundaryReady (d : Dev) : Bool :=
  d.jobActive && !d.configuring && d.ctl.gsbChecked && !d.ctl.waitBounds && (d.ctl.order.head?.elim false (fun e => decide (e.cmd.opc = 1))) && !d.ctl.noClose
    && decide (d.ctl.replayAsked = 0) && decide (d.train.finished.length = d.bucketCount)
    && !d.fab.colls.any (fun c => decide (c.step = d.step)) && d.sets.isEmpty && !d.pwr.handover

/-- The state of the device once the updates of the boundary are done, and the decisions of the step. -/
def Dev.boundaryState (d : Dev) : List Decision × Dev :=
  let rec' := d.recorded
  let vote := d.voteDecision
  let bucket := d.bucketDecision
  let map := d.plotItem
  let bounds := d.newBucketBounds
  let r := d.applyMaps
  let others := d.ctl.decisions.filter (fun x => !isRebalance x)
  let b := if bounds then r.2.clampBucket bucket else (bucket, r.2)
  let bucket := b.1
  let d := b.2.boundaryUpdates
  let d := if d.plotItem = map then d else d.queueMcItems
  (rec'.getD (r.1 ++ others ++ vote ++ [bucket]), d)

/-- Closes the open step (R36): every update, record and decision of its boundary, and the next step opens unless
the job ends. A step whose records exceed 16,384 does not close (R382). -/
def Dev.closeStep (d0 : Dev) (m : BoundaryMeasure) : Dev :=
  let n := d0.step
  let skip := d0.voteSkip
  let active := (List.range 64).filter d0.plotActive
  let r := d0.batchShort.boundaryState
  let recs := r.2.stepRecords r.1 skip d0.ctl.markHeld
  if 16384 < recs.length then { d0 with ctl := { d0.ctl with noClose := true } }.setErr SOW 0 23
  else
    let d := (((r.2.putRecords recs).addBoundary n).boundaryCap m).reportVote r.1
    let d := ((d.setF R.COL_BUCKET_STATUS_CURRENT 0 (nextCode d.bucketCode r.1)).boundaryBusy active m).underfill.rwBoundary
    let d := { d with ctl := { d.ctl with markHeld := false, heldMeasure := none } }
    let d := match d.ctl.order.head? with
      | some e => d.complete e.cmd 0 0
      | none => d
    let d := (d.setF R.GLB_STEP 0 (n + 1)).replayClosed n
    if d.ctl.endAsked then d.endJob else (d.resumeReturned.quiesceAll).freshStep

/-- Closes the step with what was measured, unless the updates would meet a poisoned word: then a replay is due
(R547). -/
def Dev.tryClose (d : Dev) (m : BoundaryMeasure) : Dev :=
  match d.boundaryPoison with
  | some (w, cause) => { d.rmwDropped w with ctl := { d.ctl with replayAsked := cause } }
  | none => d.closeStep m

/-- STEP_BOUNDARY: a boundary that would be the third unsealed one is held (R18, R403). -/
def Dev.stepBoundary (d : Dev) (m : BoundaryMeasure) : Dev :=
  if !d.boundaryReady then d
  else if 2 ≤ d.unsealedCount then Dev.noteHeld { d with ctl := { d.ctl with heldMeasure := some m } }
  else d.tryClose m

/-- A STEP_MARK held under R18 closes its step once it may (R18, R371, R372, R376). -/
def Dev.closeHeld (d : Dev) : Dev :=
  match d.ctl.heldMeasure with
  | some m => if d.boundaryReady && decide (d.unsealedCount < 2) then d.tryClose m else d
  | none => d

/-- SEAL_ACK(n) of the partner (R17, R376, R380): boundary n seals with every earlier one, the gate may open, a held
STEP_MARK may close its step. -/
def Dev.sealAck (d : Dev) (n : Nat) : Dev :=
  if d.streaming && d.sow.unsealed.contains n then
    let count := (d.sow.unsealed.filter (fun k => decide (k ≤ n))).length + d.sow.baseSteps.length
    let d := d.sealTo n count
    let d := if d.pairState = 2 then d.setPair 3 else d
    d.openGate.closeHeld
  else d

end Sys2Proof.Machine
end

