-- ==== Sys2Proof/Machine/Pairing.lean ====
section
/-! DEFINITION. Partners: pairing, refusal, unpairing, heartbeats and loss (R367 to R372, R378, R386, R401, R510). -/

namespace Sys2Proof.Machine

/-- The PAIR_REQ that this device sends (R387). -/
def Dev.pairReqPayload (d : Dev) : List Byte :=
  leBytes 1 d.pins.feedId ++ leBytes 1 (b2n d.sow.pairKey + 2 * b2n d.sow.pairIsGraft) ++ leBytes 2 0
    ++ leBytes 4 (d.getF R.SOW_IMAGE_MIB 0) ++ leBytes 4 d.itemCount ++ leBytes 4 0 ++ d.ownPrint

/-- Sends PAIR_REQ to the device that SOW_PARTNER names; with VALID = 0 it names none (log entry 21). -/
def Dev.sendPairReq (d : Dev) : Dev :=
  if d.getF R.SOW_PARTNER_VALID 0 = 1 then d.toPartner 1 { packetOf 0x30 with payload := d.pairReqPayload } else d

/-- FEED_ID and FEED_PAR together hold an odd number of ones (R368). -/
def Dev.feedOdd (d : Dev) : Bool :=
  decide (((List.range 9).filter (fun k => bitOf (d.pins.feedId + 256 * d.pins.feedPar) k)).length % 2 = 1)

/-- A field of a PAIR_REQ. -/
def reqField (p : Packet) (off n : Nat) : Nat := leNat ((p.payload.drop off).take n)

/-- MIRROR_GIB holds the region for an image of so many MiB (R374). -/
def Dev.mirrorHolds (d : Dev) (mib : Nat) : Bool :=
  let image := mib * 2 ^ 20
  decide (38 * 2 ^ 20 + 3 * image + 2 * bmpSize image ≤ d.getF R.MEM_REGIONS_MIRROR_GIB 0 * 2 ^ 30)

/-- The failures that this device finds before it has a PAIR_REQ: 0 for none (R369). -/
def Dev.ownFailure (d : Dev) : Nat :=
  if !d.feature 0 then 1 else if !d.feedOdd then 2 else if d.pins.feedId = 0xFF then 3 else 0

/-- The feed conflict of a PAIR_REQ is accepted on both sides (R370). -/
def Dev.overridden (d : Dev) (p : Packet) : Bool := d.sow.pairKey && bitOf (reqField p 1 1) 0

/-- The STATUS that answers a PAIR_REQ: the first failure in the order of the table (R369); `same` tells that the
fingerprint is the one stored. -/
def Dev.pairCode (d : Dev) (p : Packet) (same : Bool) : Nat :=
  if d.ownFailure ≠ 0 then d.ownFailure
  else if !same then 6
  else if reqField p 0 1 = d.pins.feedId ∧ d.overridden p = false then 7
  else if !d.mirrorHolds (reqField p 4 4) then 8
  else if d.getF R.SOW_ITEM_STATUS_VALID 0 = 1 then 9
  else 0

/-- Pairing is refused (R369, R370, R372): nothing is mirrored, the request that was judged is done with, a STEP_MARK held
under R18 closes its step, and SEAL_GATE holds nothing back. -/
def Dev.refusePair (d : Dev) (code : Nat) : Dev :=
  let d := { d with sow := { d.sow with queue := [], baseActive := false, reqSeen := none } }
  (((d.setPair 5).setF R.SOW_PAIR_STATUS_CODE 0 code).setErr SOW 0 16).closeHeld.openGate

/-- A base transfer begins (R376); R18 counts none of the boundaries before its end, so a held STEP_MARK closes its step. -/
def Dev.newBase (d : Dev) : Dev := d.startBase.closeHeld

/-- A recovery asks for the driver's configuration: PHASE = CONFIG (R394, R395). -/
def Dev.toConfig (d : Dev) (cause : Nat) : Dev :=
  ((d.setF R.SOW_RECOVERY_CAUSE 0 cause).setF R.SOW_RECOVERY_PHASE 0 3).vectors (256 + SOW)

/-- Pairing has succeeded on both sides (R369, R401): base transfers begin; a graft restores first. -/
def Dev.pairDone (d : Dev) : Dev :=
  if d.sow.ownAck = some 0 ∧ d.sow.peerAck = some 0 then
    match d.sow.reqSeen with
    | none => d
    | some p =>
      let clash := decide (reqField p 0 1 = d.pins.feedId)
      let d := (d.setF R.SOW_PAIR_STATUS_PARTNER_FEED 0 (reqField p 0 1)).setF R.SOW_PAIR_STATUS_OVERRIDE 0
        (b2n (clash && d.overridden p))
      let d := { d with sow := { d.sow with ownAck := none, peerAck := none, reqSeen := none, partnerImage := reqField p 4 4,
                                            partnerItems := reqField p 8 4 } }
      if d.sow.pairIsGraft then ({ d with sow := { d.sow with pairIsGraft := false } }.setPair 3).toConfig 8
      else if bitOf (reqField p 1 1) 1 then
        ((d.setPair 3).setF R.SOW_SEAL_STATUS_SEALED_VALID 0 0).setF R.SOW_LAST_SEALED 0 (2 ^ 64 - 1)
      else d.newBase
  else d

/-- Answers the PAIR_REQ that has come (R369, R510). -/
def Dev.answerReq (d : Dev) (p : Packet) : Dev :=
  let r := d.compareTrust 1 0 p.src ((p.payload.drop 16).take 48)
  let code := r.2.pairCode p r.1
  let d := r.2.toPartner 2 { packetOf 0x30 with status := code }
  let d := { d with sow := { d.sow with ownAck := some code, reqSeen := some p } }
  if code = 0 then d.pairDone else d.refusePair code

/-- PAIR (R369 to R371): checks the item table, sends PAIR_REQ, and answers the partner's when it is there. -/
def Dev.startPair (d : Dev) (key : Nat) (graft : Bool) : Dev :=
  if !d.partnerOpen then d.lockedWrite SOW 0
  else
    let d := d.checkItems.2
    let d := ((d.setPair 1).setF R.SOW_PAIR_STATUS_CODE 0 0).setF R.SOW_PAIR_STATUS_OVERRIDE 0 0
    let d := { d with sow := { d.sow with pairKey := decide (key = 0xA55A), pairIsGraft := graft, ownAck := none, remirror := false,
                                          peerAck := none } }
    let d := d.sendPairReq
    match d.sow.reqSeen with
    | some p => if d.isPartner p.src then d.answerReq p else d
    | none => d

/-- PAIR_REQ of a sender (R369): answered while this device pairs with it; kept for a PAIR to come; a device that is
not the one named gets NOT_MUTUAL; one from the partner of a pairing that stands opens the exchange again. -/
def Dev.takePairReq (d : Dev) (p : Packet) : Dev :=
  let st := d.pairState
  if st = 0 ∨ st = 5 then { d with sow := { d.sow with reqSeen := some p } }
  else if !d.isPartner p.src then d.sendMgmt p.src 2 { packetOf 0x30 with status := 5 }
  else if st = 1 then d.answerReq p
  else Dev.answerReq ({ d with sow := { d.sow with ownAck := none, peerAck := none } }.sendPairReq) p

/-- PAIR_ACK of the partner (R369). -/
def Dev.takePairAck (d : Dev) (p : Packet) : Dev :=
  let st := d.pairState
  if st = 0 ∨ st = 5 then d
  else
    let d := { d with sow := { d.sow with peerAck := some p.status } }
    if p.status = 0 then d.pairDone else d.refusePair (p.status % 16)

/-- No PAIR_REQ has come within 1 s (R369): NO_RESPONSE, unless an earlier failure of the table holds. -/
def Dev.pairTimeout (d : Dev) : Dev :=
  if d.pairState = 1 ∧ d.sow.ownAck = none then
    let code := if d.ownFailure ≠ 0 then d.ownFailure else 4
    (d.toPartner 2 { packetOf 0x30 with status := code }).refusePair code
  else d

/-- The pairing ends here (R371, R372). -/
def Dev.dropPair (d : Dev) : Dev :=
  let d := (d.toPartner 14 (packetOf 0x30)).dropRegion
  let d := { d with sow := { d.sow with queue := [], baseActive := false, ownAck := none, peerAck := none, reqSeen := none,
                                        remirror := false } }
  (d.setPair 0).closeHeld.openGate

/-- UNPAIR, written or received; an unpaired device has nothing to end (R371). -/
def Dev.unpair (d : Dev) : Dev := if d.pairState = 0 then d else d.dropPair

/-- The pairing stands: BASE, PAIRED or LOST. -/
def Dev.pairStands (d : Dev) : Bool := decide (2 ≤ d.pairState) && decide (d.pairState ≤ 4)

/-- REMIRROR (R376, R378): the partner asks for a base transfer. -/
def execRemirror (p : Packet) (s : State) : Res :=
  s.onDev (fun d => d.fromPartner 15 p (fun d => if d.pairStands then d.newBase else d))

/-- HEARTBEAT (R386, R404): that a packet has come clears SILENT_MS, as any packet of the partner does. -/
def execHeartbeat (p : Packet) (s : State) : Res := s.onDev (fun d => d.fromPartner 7 p (fun d => d))

/-- HEARTBEAT_TIMER (R386, R387, R404): every 100 ms. A REMIRROR that could not go at boot goes once a flow to the partner
stands again (R378, log entry 21). -/
def execHeartbeatTimer (s : State) : Res :=
  s.onDev (fun d =>
    if d.pairStands then
      let d := d.toPartner 7 { packetOf 0x30 with op1 := d.sow.reached, op2 := d.getF R.SOW_LAST_SEALED 0 }
      let d := if d.getF R.SOW_RECOVERY_PHASE 0 = 3 then d else d.askMirror
      d.satAdd R.SOW_HEARTBEAT_SILENT_MS 0 100
    else d)

/-- PARTNER_SILENCE_TIMEOUT (R386, R526): 1 s without a packet of the partner; harvests that wait for its answer end
with PARTNER_LOST. -/
def execPartnerSilenceTimeout (s : State) : Res :=
  s.onDev (fun d =>
    if d.streaming then
      let d := (d.setPair 4).setErr SOW 0 17
      d.harvest.asked.foldl (fun d c => d.complete c 0x54 0) { d with harvest := { d.harvest with asked := [] } }
    else d)

end Sys2Proof.Machine
end

