-- ==== Sys2Proof/Machine/Recovery.lean ====
section
/-! DEFINITION. Recovery: in-place replay, step re-execution, restore, the records of a replay, the partner's answers,
and harvests (R34, R63, R278, R279 to R283, R388 to R401). -/

namespace Sys2Proof.Machine

/-! ### 256-bit feature words (R58) -/

/-- A 256-bit feature word of GLB, word register k holding bits 32k + 31 to 32k (R58). -/
def Dev.featureWord (d : Dev) (reg : Nat → Field) : Nat :=
  ((List.range 8).map (fun k => d.getF (reg k) 0 * 2 ^ (32 * k))).sum

/-- Stores a 256-bit feature word. -/
def Dev.setFeatureWord (d : Dev) (reg : Nat → Field) (v : Nat) : Dev :=
  (List.range 8).foldl (fun d k => d.setF (reg k) 0 (v / 2 ^ (32 * k))) d

/-- The lowest bit below 256 with a property. -/
def lowestBit (p : Nat → Bool) : Option Nat := (List.range 256).find? p

/-! ### What a replay drops (R390, R391) -/

/-- The device restores from its partner and can: it is PAIRED and a boundary has sealed (R366, R372). -/
def Dev.canRestore (d : Dev) : Bool :=
  decide (d.pairState = 3) && decide (d.getF R.SOW_SEAL_STATUS_SEALED_VALID 0 = 1)

/-- A cell holds: no tile, nothing in flight, no program. -/
def Cell.held (c : Cell) : Cell :=
  { c with lostSums := [], used := [], zeroPts := [], stageWait := false, tiles := [], adds := [], stats := [], sums := [], phaseSums := [], hits := [], poisoned := false, passes := [],
           dma := [], waiting := none, samples := [], plot := none, program := none }

/-- The work of the open step goes: tiles, commands, requests, batches, decisions (R390). The driver submits the
commands again (R395). -/
def Dev.dropWork (d : Dev) : Dev :=
  let d := d.cells.foldl (fun d e => (d.setCell e.1 (d.cell e.1).held).clearTileRegs e.1) d
  { d with
    plots := d.plots.map (fun e => (e.1, { PlotRun.idle with skew := e.2.skew })), sets := [],
    thn := d.thn.map (fun e => (e.1, { e.2 with jobs := [], current := e.2.current.filter (·.host) })),
    pip := ⟨[], []⟩, media := d.media.filter (fun e => decide (e.2.kind = 3)),
    mediaWait := d.mediaWait.filter (fun x => x.isEnc),
    ctl := { d.ctl with order := [], decisions := [], markHeld := false, heldMeasure := none, rebShort := false,
                        updateBegun := false, replayAsked := 0, noClose := false, thnCount := 0 } }

/-- The gradient state of the open step goes; the plan stays until GO (R395). -/
def Dev.dropTrain (d : Dev) : Dev :=
  let d := d.clearAccs
  { d with train := { Train.reset with plan := d.train.plan, nextPlan := d.train.nextPlan } }

/-- Step re-execution (R391): the open step runs again from its first command. -/
def Dev.reexecute (d : Dev) : Dev :=
  let n := d.step
  let d := d.dropWork.dropTrain.clearStats n
  let d := { d with sow := { d.sow with reexec := true } }
  (d.setF R.SOW_REPLAY_FROM 0 n).toConfig 7

/-- IN_PLACE_REPLAY (R87, R372, R388, R390, R391, R548): asked for by a SCALE_SKEW (5) or a poisoned word (6, 7). Regenerable
data of a step in which no update has begun needs no restore: the step runs again. -/
def Dev.inPlace (d : Dev) (cause : Nat) : Dev :=
  if decide (d.ctl.replayAsked = 0) || decide (d.ctl.replayAsked ≠ cause) || !d.jobActive then d
  else if decide (cause = 7) && !d.ctl.updateBegun then d.reexecute
  else if !d.canRestore then { d with ctl := { d.ctl with replayAsked := 0 } }.recoveryFailed
  else
    let n := d.step
    let d := (d.dropWork.dropTrain.clearStats n).clearStats (n + 1)
    let until' := max n (d.sow.replayUntil.getD n)
    let d := { d with sow := { d.sow with replayUntil := some until', replay := [], reexec := false } }
    (d.setF R.SOW_REPLAY_FROM 0 (d.getF R.SOW_LAST_SEALED 0 + 1)).toConfig cause

/-- IN_PLACE_REPLAY. -/
def execInPlaceReplay (cause : Nat) (s : State) : Res := s.onDev (fun d => d.inPlace cause)

/-! ### GO (R395, R396) -/

/-- RESTORE_REQ for the whole image goes out; what this device had queued for its partner is void (R396, R397). After a
cold reset the partner is asked for its image too (R378, R400). -/
def Dev.askRestore (d : Dev) : Dev :=
  let d := { d with sow := { d.sow with queue := [], unsealed := [], baseSteps := [], baseActive := false, recCopies := [],
                                        itemWanted := none, logWait := none } }
  let d := (d.setF R.SOW_RECOVERY_PHASE 0 4).askMirror
  d.toPartner 8 { packetOf 0x30 with op1 := 2 ^ 64 - 1 }

/-- RECOVERY_GO in PHASE = CONFIG: the plan in force is discarded; a re-execution runs, any other path restores
(R391, R395, R396). After a reset the item table is checked again. -/
def Dev.recoveryGo (d : Dev) : Dev :=
  if d.getF R.SOW_RECOVERY_PHASE 0 ≠ 3 then d
  else
    let d := { d with train := { d.train with plan := none, nextPlan := none }, sow := { d.sow with planAtOnce := true } }
    if d.sow.reexec then
      (Dev.setF { d with sow := { d.sow with reexec := false } } R.SOW_RECOVERY_PHASE 0 5).freshStep
    else
      let r := if d.sow.items.isEmpty then d.checkItems else (true, d)
      if r.1 then r.2.askRestore else r.2.recoveryFailed

/-- ABORT in PHASE = CONFIG, RESTORE or REPLAY ends the recovery (R395, R404). -/
def execRecoveryAbort (w : Writer) (s : State) : Res :=
  s.byWriter w (fun d =>
    let ph := d.getF R.SOW_RECOVERY_PHASE 0
    if 3 ≤ ph ∧ ph ≤ 5 then d.recoveryFailed else d)

/-- RECOVERY_GO_TIMEOUT (R395): no GO within 10 s. -/
def execRecoveryGoTimeout (s : State) : Res :=
  s.onDev (fun d => if d.getF R.SOW_RECOVERY_PHASE 0 = 3 then d.recoveryFailed else d)

/-! ### The partner serves (R377, R386, R387, R396, R401) -/

/-- The items of the partner: its table as the region copies it, and the two of its MC (R374). -/
def Dev.pItems (d : Dev) : List Item :=
  placeItems 0 ((List.range (min 65534 d.sow.partnerItems)).map (fun i => d.itemAt (d.mirrorBase + 0x200000 + 64 * i)) ++ mcItems)

/-- Sends a range of the partner's image as RESTORE_DATA. -/
def Dev.sendImage (d : Dev) (off n : Nat) : Dev :=
  (List.range ((n + 4095) / 4096)).foldl (fun d i =>
    let k := min 4096 (n - 4096 * i)
    d.toPartner 9 { packetOf 0x30 with addr := off + 4096 * i, payload := d.pBytes (off + 4096 * i) k }) d

/-- RESTORE_REQ (R378, R386, R396, R397, R401): the image of the last sealed boundary, whole or one item; a region
that is not consistent answers with a STATUS that is not 0. -/
def Dev.serveRestore (d : Dev) (p : Packet) : Dev :=
  let d := if d.pairState = 4 then d.setPair 3 else d
  let st := d.regionState
  if st ≠ 1 ∧ st ≠ 2 then d.toPartner 10 { packetOf 0x30 with status := 1 }
  else
    let ending : Packet := { packetOf 0x30 with op1 := d.regionSealed, op2 := d.regionLsn }
    if p.op1 = 2 ^ 64 - 1 then
      let d := (d.clearSlot 0).clearSlot 1
      let d := { d with sow := { d.sow with partnerSteps := [] } }
      let d := (d.sendImage 0 d.pImage).toPartner 10 ending
      if d.pairState = 3 ∧ d.getF R.SOW_SEAL_STATUS_SEALED_VALID 0 = 0 then d.newBase else d
    else
      match d.pItems[p.op1]? with
      | some it => if it.valid then (d.sendImage it.imageOff (it.length + it.sLength)).toPartner 10 ending else d.toPartner 10 ending
      | none => d.toPartner 10 { ending with status := 1 }

/-- RESTORE_REQ. -/
def execRestoreReq (p : Packet) (s : State) : Res := s.onDev (fun d => d.fromPartner 8 p (fun d => d.serveRestore p))

/-- The records of a log copy from an LSN on, as far as they run, at most n. -/
def Dev.logRun (d : Dev) (base : Nat) : Nat → Nat → List (List Byte)
  | 0, _ => []
  | n + 1, lsn =>
    let r := d.bytes (logSlot base lsn) 512
    if recordOk r && decide (recField r 16 8 = lsn) then r :: Dev.logRun d base n (lsn + 1) else []

/-- Records from an LSN on that a log copy holds; those before them that it no longer holds are passed over. -/
def Dev.logFrom (d : Dev) (base n lsn : Nat) : List (List Byte) :=
  ((List.range n).map (fun i => (lsn + i, d.bytes (logSlot base (lsn + i)) 512))).filterMap (fun x =>
    if recordOk x.2 && decide (recField x.2 16 8 = x.1) then some x.2 else none)

/-- Sends records as LOG_DATA: 8 to a packet, a packet with fewer ends the answer. -/
def Dev.sendLog (d : Dev) (rs : List (List Byte)) : Dev :=
  (List.range (rs.length / 8 + 1)).foldl (fun d i =>
    d.toPartner 12 { packetOf 0x30 with payload := ((rs.drop (8 * i)).take 8).flatten }) d

/-- REFETCH (R387, R391, R396): a range of this device's image from its own items, or records from the copy of the
partner's log. -/
def execRefetch (p : Packet) (s : State) : Res :=
  s.onDev (fun d => d.fromPartner 11 p (fun d =>
    if p.op1 = 0 then d.toPartner 9 { packetOf 0x30 with addr := p.addr, payload := d.imageBytes p.addr p.op2 }
    else d.sendLog (d.logFrom d.pLog (min p.op2 65536) p.addr)))

/-! ### The restore (R396) -/

/-- The part of a run of bytes at `off` that falls into a range of the image: (offset in the range, bytes). -/
def cutRange (off : Nat) (bs : List Byte) (lo len : Nat) : Nat × List Byte :=
  let a := max off lo
  let b := min (off + bs.length) (lo + len)
  (a - lo, (bs.drop (a - off)).take (b - a))

/-- Image bytes go into this device's items; the MC's two items into its own store (R373, R375, R396). -/
def Dev.restoreBytes (d : Dev) (off : Nat) (bs : List Byte) : Dev :=
  (d.sow.items.filter (·.valid)).foldl (fun d it =>
    let x := cutRange off bs it.imageOff it.length
    let y := cutRange off bs (it.imageOff + it.length) it.sLength
    if 5 ≤ it.cls then { d with sow := { d.sow with mcBytes := setBytes d.sow.mcBytes (it.imageOff + x.1) x.2 } }
    else (d.writeRaw (it.addr + x.1) x.2).writeRaw (it.sAddr + y.1) y.2) d

/-- RESTORE_DATA (R391, R396): into this device's items during a restore; the answer to a REFETCH into the partner's
image. -/
def execRestoreData (p : Packet) (s : State) : Res :=
  s.onDev (fun d => d.fromPartner 9 p (fun d =>
    let x := (p.addr, p.payload.length)
    if d.getF R.SOW_RECOVERY_PHASE 0 = 4 then d.restoreBytes p.addr p.payload
    else if d.sow.refetch.contains x then
      let d := { d with sow := { d.sow with refetch := d.sow.refetch.erase x } }
      (d.writeRaw (d.pImageBase + p.addr) p.payload).trySeals
    else if d.sow.itemWanted.isSome then d.restoreBytes p.addr p.payload
    else d))

/-- The cells that more than one bitmap claims. -/
def contested (ms : List Nat) : Nat := (ms.foldl (fun a m => (a.1 ||| m, a.2 ||| (a.1 &&& m))) (0, 0)).2

/-- The restored plot map is loaded and resolved against this device's own map; a number that more than one bitmap
claims goes to the lowest-numbered claimant (R28, R396). -/
def Dev.loadPlotMap (d : Dev) (off : Nat) : Dev :=
  let m := d.sow.mcBytes
  let before := d.masks
  let d := (List.range 64).foldl (fun d k =>
    ((d.setMask k (natAt m (off + 128 * k) 128)).setF R.PLT_BOUNDS_MIN_CELLS k (natAt m (off + 8192 + 8 * k) 4)).setF
      R.PLT_BOUNDS_MAX_CELLS k (natAt m (off + 8196 + 8 * k) 4)) d
  let shared := contested d.masks
  d.resolveMap (before.map (fun x => clearBits x shared))

/-- The restored feature set is loaded; a bit that is not offered refuses the restore (R63). -/
def Dev.loadFeatures (d : Dev) (off : Nat) : Bool × Dev :=
  let v := natAt d.sow.mcBytes off 32
  let offered := d.featureWord R.GLB_DEV_FEATURES
  match lowestBit (fun n => bitOf v n && !bitOf offered n) with
  | some n => (false, (d.setF R.GLB_NEG_STATUS_CODE 0 6).setF R.GLB_NEG_STATUS_BAD_BIT 0 n)
  | none => (true, d.setFeatureWord R.GLB_FEATURES_ACTIVE v)

/-- The image offset of an item of the MC. -/
def Dev.mcOffset (d : Dev) (cls : Nat) : Nat := (d.sow.items.find? (fun it => decide (it.cls = cls))).elim 0 (·.imageOff)

/-- Records of this device's own log at and after the restored boundary. -/
def Dev.ownRecords (d : Dev) (b lsn : Nat) : List (List Byte) :=
  let back := d.logFrom logBase (min lsn 16384) (lsn - min lsn 16384)
  back.filter (fun r => decide (recField r 8 8 = b)) ++ (d.logRun logBase 49152 lsn)

/-- The records of one step among a list. -/
def stepOf (rs : List (List Byte)) (n : Nat) : List (List Byte) := rs.filter (fun r => decide (recField r 8 8 = n))

/-- The first step after b that the replay decides afresh although it was closed before the fault, or the first that
was not closed (R396); `m` is the step that was open, when it is known. -/
def firstFresh (rs : List (List Byte)) (b : Nat) (m : Option Nat) : Nat × Nat :=
  let first := (b + 1) % 2 ^ 64
  let last := match m with
    | some m => m
    | none => rs.foldl (fun a r => if first ≤ recField r 8 8 then max a (recField r 8 8 + 1) else a) first
  let steps := (List.range (last - first)).map (first + ·)
  ((steps.find? (fun n => !recordsWhole (stepOf rs n))).getD last, last)

/-- The code of the bucket size record of a step. -/
def codeIn (rs : List (List Byte)) (b dflt : Nat) : Nat := nextCode dflt ((stepOf rs b).flatMap recordDecisions)

/-- A format promotion. -/
def isPromotion : Decision → Bool
  | .promotion _ _ _ _ => true
  | _ => false

/-- The replay begins at step b + 1 (R278, R396, R397, R403). -/
def Dev.startReplay (d : Dev) (b lsn : Nat) : Dev :=
  let rs := d.ownRecords b lsn
  let x := firstFresh rs b d.sow.replayUntil
  let first := (b + 1) % 2 ^ 64
  let steps := (List.range (x.1 - first)).map (first + ·)
  let reps := steps.map (fun n => (⟨n, joinCommits ((stepOf rs n).flatMap recordDecisions)⟩ : ReplayStep))
  let d := if x.1 < x.2 then (d.setErr SOW 0 19).setF R.SOW_RECOVERY_UNVERIFIED 0 1 else d
  let z := codeIn rs b d.sow.initCode
  let blind := (reps.find? (fun r => !r.decisions.any isPromotion)).elim x.1 (·.step)
  let d := { d with sow := { d.sow with logWait := none, replay := reps, replayUntil := some x.2, reached := b, blindStep := some blind,
                                        mcBytes := [] } }
  let d := ((d.setF R.COL_BUCKET_STATUS_CURRENT 0 z).setF R.SOW_RECOVERY_PHASE 0 5).setF R.GLB_JOB_STATUS_ACTIVE 0 1
  let d := ((d.setF R.GLB_STEP 0 first).setF R.SOW_LSN 0 lsn).setF R.SOW_LAST_SEALED 0 b
  ((d.setF R.SOW_SEAL_STATUS_SEALED_VALID 0 1).setBlk GLB 0 stRunning).freshStep

/-- The records are all in this device's own log: it was not lost, and each step that began to close is whole. -/
def Dev.ownLogWhole (d : Dev) (b lsn : Nat) : Bool :=
  let rs := d.ownRecords b lsn
  let x := firstFresh rs b d.sow.replayUntil
  let c := d.getF R.SOW_RECOVERY_CAUSE 0
  decide (c ≠ 8) && decide (c ≠ 9) && decide (x.1 = x.2) && (decide (b = 2 ^ 64 - 1) || recordsWhole (stepOf rs b))

/-- The image is in place (R28, R63, R238, R269, R278, R396): the maps are loaded, the GSB is checked, and the records are
taken from this device's log or asked of the partner. -/
def Dev.restored (d : Dev) (b lsn : Nat) : Dev :=
  let d := d.loadPlotMap (d.mcOffset 5)
  let f := d.loadFeatures (d.mcOffset 6)
  let g := f.2.gsbCheck
  if !f.1 then f.2.recoveryFailed
  else if g.1 ≠ 0 then g.2.recoveryFailed
  else
    let d := { g.2 with ctl := { g.2.ctl with gsbChecked := true } }
    let d := ((d.clearRing).clearStats 0).clearStats 1
    let d := d.setF R.SOW_REPLAY_FROM 0 ((b + 1) % 2 ^ 64)
    if d.ownLogWhole b lsn then d.startReplay b lsn
    else
      let back := min lsn 16384
      { d with sow := { d.sow with logWait := some (b, lsn) } }.toPartner 11
        { packetOf 0x30 with addr := lsn - back, op1 := 1, op2 := 49152 + back }

/-- RESTORE_END (R391, R396): ends the restore of an item or of the image; a refused one ends the recovery. -/
def Dev.restoreEnd (d : Dev) (p : Packet) : Dev :=
  if d.getF R.SOW_RECOVERY_PHASE 0 = 4 then
    if d.sow.logWait.isSome then d
    else if p.status ≠ 0 then d.recoveryFailed else d.restored p.op1 p.op2
  else if d.sow.itemWanted.isSome then
    let d := { d with sow := { d.sow with itemWanted := none } }
    if p.status ≠ 0 then { d with ctl := { d.ctl with replayAsked := 6 } } else d
  else d

/-- One record of LOG_DATA (R391, R396, R403): this device's own goes into its log, the partner's into the copy. -/
def Dev.takeLog (d : Dev) (r : List Byte) : Dev :=
  let lsn := recField r 16 8
  if !recordOk r then d
  else if recField r 4 2 = d.devNum then
    let old := d.bytes (logSlot logBase lsn) 512
    let bad := decide (recField old 16 8 = lsn) && (!recordOk old || (d.poisonIn (logSlot logBase lsn) 512).isSome)
    let d := d.logOwn lsn r
    if bad then d.setErr SOW 0 18 else d
  else d.writeRaw (logSlot d.pLog lsn) r

/-- LOG_DATA: a packet of fewer than 8 records ends the answer, and the replay begins with what there is. -/
def Dev.logData (d : Dev) (p : Packet) : Dev :=
  let rs := (chunks 512 8 p.payload).filter (fun r => decide (r.length = 512))
  let d := rs.foldl (fun d r => d.takeLog r) d
  match d.sow.logWait with
  | some (b, lsn) => if rs.length < 8 ∧ d.getF R.SOW_RECOVERY_PHASE 0 = 4 then d.startReplay b lsn else d
  | none => d

/-! ### Harvest (R279 to R283) -/

/-- A job command of HARVEST as it goes to the partner. -/
def Dev.forwardHarvest (d : Dev) (c : JobCmd) : Dev :=
  let p := { packetOf 0x30 with
    addr := argOf c 0, op1 := argOf c 1, op2 := argOf c 2, tag := c.cookie, payload := leBytes 8 (argOf c 3) }
  { d with harvest := { d.harvest with asked := d.harvest.asked ++ [c] } }.toPartner 13 p

/-- HARVEST begins (R279, R283, R523): it is forwarded to a partner that has acknowledged the pairing. -/
def Dev.startHarvest (d : Dev) (c : JobCmd) : Dev :=
  let a1 := argOf c 1
  if argsClear c 4 = false ∨ bitOf a1 7 = true ∨ 2 ^ 10 ≤ a1 ∨ bitsOf a1 8 2 = 3 then d.complete c 2 0
  else if d.streaming then d.forwardHarvest c
  else if d.pairState = 4 then d.complete c 0x54 0
  else d.complete c 0x56 0

/-- The partner's answer goes to the subject. -/
def Dev.answerHarvest (d : Dev) (cookie status n : Nat) : Dev :=
  d.toPartner 13 { packetOf 0x30 with flags := 8, status := status, tag := cookie, op2 := n }

/-- Boundary k lies before the sealed one of the region; all ones is the job-start boundary (R280, R387). -/
def Dev.sealedPast (d : Dev) (k : Nat) : Bool :=
  let st := d.regionState
  (decide (st = 1) || decide (st = 2)) && decide (d.regionSealed ≠ 2 ^ 64 - 1) && decide (k < d.regionSealed)

/-- A HARVEST message: the partner's answer to this device, or a request of the subject (R280). -/
def Dev.harvestMsg (d : Dev) (p : Packet) : Dev :=
  if bitOf p.flags 3 then
    match d.harvest.asked.find? (fun c => decide (c.cookie = p.tag)) with
    | some c =>
      let d := { d with harvest := { d.harvest with asked := d.harvest.asked.erase c } }
      d.complete c (if p.status = 0 then 0 else 0x50 + p.status) p.op2
    | none => d
  else if d.sealedPast p.addr then d.answerHarvest p.tag 1 0
  else if d.harvest.serving.isSome then d.answerHarvest p.tag 2 0
  else
    let now := decide (d.regionState = 1) && decide (d.regionSealed = p.addr)
    let h : HarvestJob := { subject := p.src, step := p.addr, mask := p.op1 % 128, kind := bitsOf p.op1 8 2, dst := p.op2,
                            limit := leNat (p.payload.take 8), cookie := p.tag, pinned := now, tags := none }
    { d with harvest := { d.harvest with serving := some h } }

/-- HARVEST_MSG (R279, R280, R283). -/
def execHarvestMsg (p : Packet) (s : State) : Res := s.onDev (fun d => d.fromPartner 13 p (fun d => d.harvestMsg p))

/-- The items of a mask, by ascending class and index: (index, item). -/
def Dev.harvestItems (d : Dev) (mask : Nat) : List (Nat × Item) :=
  let its := (d.pItems.zipIdx.filter (fun x => x.1.valid && decide (x.1.cls < 7) && bitOf mask x.1.cls)).map (fun x => (x.2, x.1))
  (List.range 7).flatMap (fun c => its.filter (fun x => decide (x.2.cls = c)))

/-- Places payloads from an offset, each on a multiple of 64: (offset, index, item). -/
def placePayloads : Nat → List (Nat × Item) → List (Nat × Nat × Item)
  | _, [] => []
  | off, x :: xs => (off, x) :: placePayloads (roundUp (off + x.2.length + x.2.sLength) 64) xs

/-- The bytes of a harvest image behind its header (R282). -/
def Dev.harvestBody (d : Dev) (mask : Nat) : List Byte :=
  let its := d.harvestItems mask
  let start := roundUp (0x100 + 32 * its.length) 64
  let ps := placePayloads start its
  let records := ps.flatMap (fun x =>
    leBytes 1 x.2.2.cls ++ leBytes 1 x.2.2.format ++ leBytes 2 0 ++ leBytes 4 x.2.1 ++ leBytes 8 x.1
      ++ leBytes 8 (x.2.2.length + x.2.2.sLength) ++ leBytes 8 0)
  ps.foldl (fun bs x =>
    bs ++ List.replicate (x.1 - 0x100 - bs.length) 0 ++ d.pinnedBytes x.2.2.imageOff (x.2.2.length + x.2.2.sLength)) records

/-- The header of a harvest image (R282). -/
def Dev.harvestHeader (d : Dev) (h : HarvestJob) (count state : Nat) (body : List Byte) : List Byte :=
  let feat := d.pItems.find? (fun it => decide (it.cls = 6))
  let fp := ((mfind h.subject d.nv.trust).getD [] ++ List.replicate 48 0).take 48
  leBytes 4 0x48525654 ++ leBytes 2 1 ++ leBytes 1 h.mask ++ leBytes 1 state ++ leBytes 8 h.step ++ leBytes 2 h.subject
    ++ leBytes 2 d.devNum ++ leBytes 4 count ++ leBytes 8 (0x100 + body.length) ++ d.pinnedBytes (feat.elim 0 (·.imageOff)) 32 ++ fp
    ++ sha384 body ++ List.replicate 96 0

/-- Writes bytes of a harvest image at an offset of its destination, a flow to a device or a PCIe port (R280, R291). -/
def Dev.harvestWrite (d : Dev) (h : HarvestJob) (flow : Option Nat) (off : Nat) (bs : List Byte) : Dev :=
  match flow with
  | some f =>
    (Machine.pieces 4096 bs.length (h.dst % 2 ^ 48 + off) bs).foldl (fun d x =>
      d.issueOp f 1152 0 0 { packetOf 1 with addr := x.1, len := x.2.length, payload := x.2 }) d
  | none => d.emit (.hostWrite (h.kind - 1) (h.dst + off) bs)

/-- The image is unpinned: the journal goes into it in seal order (R280). -/
def Dev.unpin (d : Dev) : Dev :=
  let d := d.harvest.journal.foldl (fun d e => d.writeRaw (d.pImageBase + e.1) e.2) d
  Dev.trySeals { d with harvest := { d.harvest with serving := none, journal := [] } }

/-- The image of a harvest that LIMIT does not cut, with its header; else what fits (R282, R283). -/
def Dev.harvestImage (d : Dev) (h : HarvestJob) : Bool × List Byte :=
  let body := d.harvestBody h.mask
  let bs := d.harvestHeader h (d.harvestItems h.mask).length 0 body ++ body
  if h.limit < bs.length then (false, bs.take h.limit) else (true, bs)

/-- The image of a pinned harvest goes to its destination, STATE last; one that LIMIT cuts keeps STATE = 0 (R280, R282,
R283). -/
def Dev.writeHarvest (d : Dev) (h : HarvestJob) (flow : Option Nat) : Dev :=
  let x := d.harvestImage h
  let d := d.harvestWrite h flow 0 x.2
  if x.1 then d.harvestWrite h flow 7 (leBytes 1 1) else d

/-- The harvest ends with a status: the journal goes into the image, and the subject has its answer (R280, R283). -/
def Dev.endHarvest (d : Dev) (h : HarvestJob) (status n : Nat) : Dev := d.unpin.answerHarvest h.cookie status n

/-- HARVEST_COMPLETE (R280 to R283): a pinned harvest is written; where its writes go to a device, the next one ends it when
every write has been answered, with WINDOW if one was refused. -/
def Dev.finishHarvest (d : Dev) : Dev :=
  match d.harvest.serving with
  | some h =>
    let flow := if h.kind = 0 then d.flowKind (h.dst / 2 ^ 48) 0 else none
    let x := d.harvestImage h
    let status := if x.1 then 0 else 3
    if !h.pinned then d
    else match h.tags with
      | some ts =>
        let codes := ts.map (fun t => (d.fab.opCodes.find? (fun e => decide (e.1 = t))).map (·.2))
        if codes.contains none then d
        else if codes.all (fun c => decide (c = some 0)) then d.endHarvest h status x.2.length else d.endHarvest h 5 0
      | none =>
        if decide (h.kind = 0) && flow.isNone then d.endHarvest h 5 0
        else
          let first := d.fab.nextTag
          let d := d.writeHarvest h flow
          if flow.isNone then d.endHarvest h status x.2.length
          else { d with harvest := { d.harvest with serving := some { h with
                  tags := some ((List.range ((d.fab.nextTag + 2 ^ 33 - first) % 2 ^ 32)).map (fun k => (first + k) % 2 ^ 32)) } } }
  | none => d

/-- HARVEST_COMPLETE. -/
def execHarvestComplete (s : State) : Res := s.onDev (fun d => d.finishHarvest)

end Sys2Proof.Machine
end

