-- ==== Sys2Proof/Machine/Pipeline.lean ====
section
/-! DEFINITION. The input pipeline's commands: INGEST, fetch, the sample cache in memory, backfill, packing and
outputs (R405 to R418, R423 to R429). A slot is processed at the commands that name its unit. -/

namespace Sys2Proof.Machine

/-! ### The INGEST block (R405, R406, R524) -/

/-- Reads the block at an address. -/
def Dev.ingestArgs (d : Dev) (a : Nat) : IngestArgs :=
  let q (k : Nat) : Nat := d.nat (a + 0x20 + 8 * k) 8
  { plot := d.nat a 1, outKind := d.nat (a + 1) 1, format := d.nat (a + 2) 1, flags := d.nat (a + 3) 1
    count := d.nat (a + 4) 4, list := d.nat (a + 8) 8, elems := d.nat (a + 16) 4, rowLen := d.nat (a + 20) 2
    rowsMax := d.nat (a + 24) 4, table := q 0, data := q 1, scale := q 2, marks := q 3, stage := q 4, stageSize := q 5 }

/-- Positions of an INGEST. -/
def IngestArgs.cells (a : IngestArgs) : Nat := a.rowsMax * a.rowLen

/-- The PACK flag. -/
def IngestArgs.pack (a : IngestArgs) : Bool := bitOf a.flags 1

/-- The output ranges and the staging area (R427). -/
def IngestArgs.ranges (a : IngestArgs) : List (Nat × Nat) :=
  let b := a.posBytes
  [(a.table, 64 + 32 * a.count), (a.data, a.cells * b.1), (a.marks, 4 * a.cells), (a.stage, a.stageSize)]
    ++ (if b.2 = 0 then [] else [(a.scale, a.cells * b.2)])

/-- No two of the ranges overlap. -/
def apart : List (Nat × Nat) → Bool
  | [] => true
  | r :: rs => rs.all (fun x => !overlaps r.1 r.2 x.1 x.2) && apart rs

/-- Samples that plot p consumes in the open step (R266). -/
def Dev.take (d : Dev) (p : Nat) : Nat :=
  min (d.nat (d.posAt p + 4) 4) (d.nat (d.posAt p + 16) 8 - d.nat (d.posAt p + 8) 8)

/-- R406 lets the INGEST pass. -/
def Dev.ingestOk (d : Dev) (blk : Nat) (a : IngestArgs) : Bool :=
  decide (a.plot < 64) && decide (a.outKind ≤ 2)
    && (decide (a.outKind ≠ 0) || isNarrow a.format || (decide (9 ≤ a.format) && decide (a.format ≤ 11)))
    && decide (a.flags < 4) && decide (1 ≤ a.elems) && decide (a.elems ≤ 65536) && decide (1 ≤ a.rowLen)
    && decide (d.nat (blk + 22) 2 = 0) && decide (d.nat (blk + 28) 4 = 0) && decide (d.nat (blk + 0x50) 48 = 0)
    && decide (64 * 2 ^ 20 ≤ a.stageSize) && d.inJob a.list (32 * a.count)
    && d.posActive a.plot && decide (mget 0 d.pip.ingested a.plot + a.count ≤ d.take a.plot)
    && a.ranges.all (fun r => d.inJob r.1 r.2) && apart a.ranges && (a.pack || decide (a.count ≤ a.rowsMax))

/-! ### Descriptors and slots (R407, R417, R418) -/

/-- Reads a descriptor; `bad` marks one that meets poison or has a reserved field set. -/
def Dev.pipDesc (d : Dev) (a : Nat) : PipDesc :=
  { sample := d.nat a 8, addr := d.nat (a + 8) 8, length := d.nat (a + 16) 4, source := d.nat (a + 20) 1
    typ := d.nat (a + 21) 1, flags := d.nat (a + 22) 2, check := d.nat (a + 24) 4, decl := d.nat (a + 28) 4
    bad := (d.poisonIn a 32).isSome || decide (2 ≤ d.nat (a + 22) 2) || decide (4 ≤ d.nat (a + 20) 1)
      || decide (64 ≤ d.nat (a + 21) 1) }

/-- Reserve descriptor r (R417). -/
def Dev.reserveAt (d : Dev) (r : Nat) : Nat :=
  d.getF R.PIP_RESERVE_BASE_LO_ADDR_LO 0 * 32 + d.getF R.PIP_RESERVE_BASE_HI_ADDR_HI 0 * 2 ^ 32 + 32 * r

/-- PIP_RESERVE_COUNT. -/
def Dev.reserveCount (d : Dev) : Nat := d.getF R.PIP_RESERVE_COUNT_COUNT 0

/-- The reserve index that attempt a of a slot takes (R417). -/
def Dev.reserveIndex (d : Dev) (plot slot a : Nat) : Nat :=
  let k := philoxKey d.jobSeed 3
  (philox (plot * 2 ^ 16 + a) slot (d.step % 2 ^ 32) (d.step / 2 ^ 32 % 2 ^ 32) k.1 k.2).getD 0 0 * d.reserveCount / 2 ^ 32

/-- The substitution recorded for a slot in a replay: its substitute and reason (R418). -/
def substOf (plot slot : Nat) (ds : List Decision) : Option (Nat × Nat) :=
  ds.findSome? (fun x => match x with
    | .subst _ r s p why => if s = slot ∧ p = plot then some (r, why) else none
    | _ => none)

/-- A slot before any unit has taken it. -/
def PipSlot.fresh (orig : Nat) (x : PipDesc) : PipSlot :=
  { orig := orig, desc := x, attempt := none, subst := none, reason := none, tries := 0, waiting := false, unit := none,
    form := none, finished := false, empty := false, positions := 0, truncated := false, overflow := false, row := 0,
    start := 0, rows := [], scales := [] }

/-- SUBSTITUTE for EMPTY (R418). -/
abbrev noSubstitute : Nat := 2 ^ 64 - 1

/-- The slot ends EMPTY (R417). -/
def PipSlot.none (x : PipSlot) : PipSlot := { x with finished := true, empty := true, subst := some noSubstitute, unit := .none }

/-- The slot goes on with a reserve descriptor. -/
def Dev.useReserve (d : Dev) (x : PipSlot) (r : Nat) : PipSlot :=
  { x with desc := d.pipDesc (d.reserveAt r), subst := some r, unit := .none, tries := 0, waiting := false, form := .none }

/-- Slot number `slot` of a plot as INGEST creates it: in a replay with its recorded substitute (R418). -/
def Dev.newSlot (d : Dev) (plot slot addr : Nat) : PipSlot :=
  let x := PipSlot.fresh (d.nat addr 8) (d.pipDesc addr)
  match d.recorded.bind (substOf plot slot) with
  | some (r, why) =>
    let x := { x with reason := some why }
    if r = noSubstitute then x.none else d.useReserve x r
  | none => x

/-- The corrupt slot's decision, once its substitute stands (R418). -/
def Dev.noteSubst (d : Dev) (plot slot : Nat) (x : PipSlot) : Dev :=
  match x.reason, x.subst with
  | some why, some r => { d with ctl := { d.ctl with decisions := d.ctl.decisions ++ [.subst x.orig r slot plot why] } }
  | _, _ => d

/-- The decision of a slot that was corrupt, unless a record gave it already. -/
def Dev.noteNew (d : Dev) (plot slot : Nat) (x : PipSlot) : Dev :=
  if (d.recorded.bind (substOf plot slot)).isSome then d else d.noteSubst plot slot x

/-! ### Batches -/

/-- The batch of a plot that holds a slot number. -/
def Dev.batchOf (d : Dev) (plot slot : Nat) : Option Batch :=
  d.pip.batches.find? (fun b => decide (b.args.plot = plot) && decide (b.firstSlot ≤ slot)
    && decide (slot < b.firstSlot + b.slots.length))

/-- Stores a batch. -/
def Dev.setBatch (d : Dev) (b : Batch) : Dev :=
  { d with pip := { d.pip with batches := d.pip.batches.map (fun x => if x.cmd = b.cmd then b else x) } }

/-- A slot of a batch by its slot number. -/
def Batch.slot (b : Batch) (slot : Nat) : Option PipSlot := b.slots[slot - b.firstSlot]?

/-- The batch with a slot changed. -/
def Batch.setSlot (b : Batch) (slot : Nat) (x : PipSlot) : Batch :=
  { b with slots := listSet b.slots (slot - b.firstSlot) x }

/-- Acts on a slot that is not finished. -/
def Dev.onSlot (d : Dev) (plot slot : Nat) (f : Batch → PipSlot → Dev) : Dev :=
  match d.batchOf plot slot with
  | some b => (b.slot slot).elim d (fun x => if x.finished then d else f b x)
  | none => d

/-- Units in service. -/
def Dev.pipUp (d : Dev) (u : Nat) : Bool := decide (u < 4) && (decide (d.blk PIP u = stReady) || decide (d.blk PIP u = stRunning))

/-! ### Placement (R426) -/

/-- The row that takes n positions of the slot at index s. -/
def Batch.rowFor (b : Batch) (s n : Nat) : Option Nat :=
  if b.args.pack then
    (List.range (min b.args.rowsMax (s + 1))).find? (fun r => decide (mget 0 b.used r + n ≤ b.args.rowLen))
  else some s

/-- Writes the data, scale entries and marks of a placed slot (R426, R427). -/
def Dev.writeSlot (d : Dev) (a : IngestArgs) (x : PipSlot) (seg : Nat) : Dev :=
  let b := a.posBytes
  (List.range x.positions).foldl (fun (d : Dev) k =>
    let i := x.row * a.rowLen + x.start + k
    let d := d.write (a.data + i * b.1) (x.rows.getD k [])
    let d := if b.2 = 0 then d else d.write (a.scale + i * b.2) (x.scales.getD k [])
    d.write (a.marks + 4 * i) (leBytes 4 (seg * 2 ^ 16 + k))) d

/-- Places the slot at index s of a batch. -/
def Dev.placeSlot (d : Dev) (b : Batch) (s : Nat) (x : PipSlot) : Batch × Dev :=
  let u := x.unit.getD 0
  if x.positions = 0 then (b, d)
  else match b.rowFor s x.positions with
    | none =>
      ({ b with slots := listSet b.slots s { x with overflow := true, rows := [], scales := [] } },
        (d.bump PIP u 6 1).setErr PIP u 25)
    | some r =>
      let seg := mget 0 b.segs r + 1
      let x := { x with row := r, start := mget 0 b.used r }
      let d := d.writeSlot b.args x seg
      ({ b with slots := listSet b.slots s { x with rows := [], scales := [] },
                used := mput r (mget 0 b.used r + x.positions) b.used, segs := mput r seg b.segs },
        if x.truncated then d.bump PIP u 6 1 else d)

/-- Places every slot whose lower slots are all finished. -/
def Dev.placeFrom (d : Dev) (b : Batch) : Nat → Batch × Dev
  | 0 => (b, d)
  | fuel + 1 =>
    match b.slots[b.placed]? with
    | some x =>
      if x.finished then
        let r := d.placeSlot b b.placed x
        r.2.placeFrom { r.1 with placed := r.1.placed + 1 } fuel
      else (b, d)
    | none => (b, d)

/-- Stores a batch after placing what can be placed. -/
def Dev.settleBatch (d : Dev) (b : Batch) : Dev :=
  let r := d.placeFrom b (b.slots.length - b.placed)
  r.2.setBatch r.1

/-! ### INGEST (R405, R406) -/

/-- INGEST begins: the batch is created, or the command completes with BAD_BATCH, or with WINDOW for a block outside
job memory (R406, R524, R526). -/
def Dev.ingest (d : Dev) (c : JobCmd) : Dev :=
  let blk := argOf c 0
  if !argsClear c 1 then d.complete c 2 0
  else if !d.inJob blk 128 then d.complete c 4 0
  else
    let a := d.ingestArgs blk
    match d.poisonIn blk 128 with
    | some w => ((d.poisonRead w).setErr PIP 0 17).complete c 0x10 0
    | none =>
      if !d.ingestOk blk a then (d.setErr PIP 0 17).complete c 0x10 0
      else
        let n := mget 0 d.pip.ingested a.plot
        let xs := (List.range a.count).map (fun i => d.newSlot a.plot (n + i) (a.list + 32 * i))
        let b : Batch := { cmd := c, args := a, firstSlot := n, slots := xs, placed := 0, used := [], segs := [] }
        let d := { d with pip := { d.pip with batches := d.pip.batches ++ [b], ingested := mput a.plot (n + a.count) d.pip.ingested } }
        let d := (xs.zipIdx.filter (fun x => x.1.reason.isSome)).foldl (fun (d : Dev) x => d.noteSubst a.plot (n + x.2) x.1) d
        d.settleBatch b

/-! ### The sample cache (R413 to R415) -/

/-- Slots of the cache index. -/
def Dev.cacheSlots (d : Dev) : Nat := d.getF R.MEM_REGIONS_CACHE_GIB 0 * 65536

/-- The address of index slot i. -/
def Dev.cacheIndex (d : Dev) (i : Nat) : Nat := d.cacheBase + 4096 + 16 * i

/-- The first byte of the heap. -/
def Dev.heapBase (d : Dev) : Nat := d.cacheIndex d.cacheSlots

/-- The key of a sample under the version in force. -/
def Dev.cacheKey (d : Dev) (sample : Nat) : Nat := sample % 2 ^ 48 + d.actF R.PIP_CACHE_CFG_VERSION 0 * 2 ^ 48

/-- The probe sequence of a key. -/
def Dev.probes (d : Dev) (key : Nat) : List Nat :=
  let h := key * 0x9E3779B97F4A7C15 % 2 ^ 64 / 2 ^ 32
  (List.range 32).map (fun k => (h % d.cacheSlots + k) % d.cacheSlots)

/-- SIG of a program. -/
def Prog.sig (p : Prog) : Nat := p.kind + p.codec * 256 + twos 8 p.cq * 2 ^ 16 + 2 ^ 56

/-- The size of a heap entry with a payload of n bytes. -/
def heapSize (n : Nat) : Nat := (64 + n + 63) / 64 * 64

/-- The entries that valid index slots of a key name, whose header carries the key and the SIG. -/
def Dev.cacheEntries (d : Dev) (key sig : Nat) : List Nat :=
  (d.probes key).filterMap (fun i =>
    let a := d.cacheIndex i
    let h := d.nat (a + 8) 8
    let e := d.cacheBase + h % 2 ^ 48
    if bitOf h 63 && decide (d.nat a 8 = key) && decide (d.nat e 8 = key) && decide (d.nat (e + 8) 8 = sig) then some e
    else none)

/-- The payload of an entry. -/
def Dev.cachePayload (d : Dev) (e : Nat) : List Byte := d.bytes (e + 64) (d.nat (e + 16) 4)

/-- The entry is whole: its CHECK passes and it meets no poison. -/
def Dev.cacheWhole (d : Dev) (e : Nat) : Bool :=
  (d.poisonIn e (64 + d.nat (e + 16) 4)).isNone && decide (crc32c (d.cachePayload e) = d.nat (e + 20) 4)

/-- The first poisoned word that a lookup reads in the index or in the entries it finds. -/
def Dev.cachePoison (d : Dev) (key sig : Nat) : Option Nat :=
  ((d.probes key).findSome? (fun i => d.poisonIn (d.cacheIndex i) 16)).or
    ((d.cacheEntries key sig).findSome? (fun e => d.poisonIn e (64 + d.nat (e + 16) 4)))

/-- The size that an entry's header gives. -/
def Dev.cacheForm (d : Dev) (e : Nat) : PipForm :=
  ⟨[], d.nat (e + 24) 2, d.nat (e + 26) 2, d.nat (e + 28) 4, d.nat (e + 32) 1, d.nat (e + 33) 1⟩

/-- The pipeline uses the cache for a program (R414). -/
def Dev.cacheUsed (d : Dev) (p : Prog) : Bool :=
  decide (d.getF R.PIP_CACHE_CFG_EN 0 = 1) && p.flag 0 && decide (0 < d.cacheSlots)

/-- Looks a sample up: the form on a hit, and the counts of R428. -/
def Dev.cacheLookup (d : Dev) (u : Nat) (p : Prog) (sample : Nat) : Option PipForm × Dev :=
  let key := d.cacheKey sample
  let es := d.cacheEntries key p.sig
  match es.find? d.cacheWhole with
  | some e => (some (p.fromPayload (d.cacheForm e) (d.cachePayload e)), d.bump PIP u 1 1)
  | none =>
    let poison := d.cachePoison key p.sig
    let d := match poison with
      | some w => d.poisonRead w
      | none => d
    let d := if poison.isSome || !es.isEmpty then (d.bump PIP u 7 1).setErr PIP u 20 else d
    (none, d.bump PIP u 2 1)

/-- The bytes of a heap entry. -/
def cacheEntryBytes (key sig : Nat) (f : PipForm) (payload : List Byte) : List Byte :=
  leBytes 8 key ++ leBytes 8 sig ++ leBytes 4 payload.length ++ leBytes 4 (crc32c payload) ++ leBytes 2 f.width
    ++ leBytes 2 f.height ++ leBytes 4 f.frames ++ leBytes 1 f.channels ++ leBytes 1 f.bits ++ List.replicate 30 0 ++ payload

/-- Installs what a unit built (R414). -/
def Dev.cacheInstall (d : Dev) (u : Nat) (p : Prog) (sample : Nat) (f : PipForm) : Dev :=
  let key := d.cacheKey sample
  let payload := p.payload f
  let full (d : Dev) : Dev := (d.bump PIP u 7 1).setErr PIP u 19
  if (d.poisonIn d.cacheBase 8).isSome then d
  else
    let top := d.nat d.cacheBase 8
    let e := d.heapBase + top
    if d.mirrorBase < e + heapSize payload.length then full d
    else
      let d := (d.write d.cacheBase (leBytes 8 (top + heapSize payload.length))).write e (cacheEntryBytes key p.sig f payload)
      if (d.cacheEntries key p.sig).any d.cacheWhole then d
      else
      match (d.probes key).find? (fun i => !bitOf (d.nat (d.cacheIndex i + 8) 8) 63 && (d.poisonIn (d.cacheIndex i) 16).isNone) with
      | none => full d
      | some i =>
        (d.write (d.cacheIndex i) (leBytes 8 key ++ leBytes 8 (e - d.cacheBase + 2 ^ 63))).bump PIP u 3 1

/-- Invalidates the sample cache region (R299, R429, R446). -/
def Dev.dropCache (d : Dev) : Dev := d.invalidate d.cacheBase (d.mirrorBase - d.cacheBase)

/-- A word of the cache region is lost: the entry that holds it leaves the index, or every entry when it lies in the
header (R311). -/
def Dev.cacheLost (d : Dev) (a : Nat) : Dev :=
  if a < d.cacheIndex 0 then d.dropCache
  else if a < d.heapBase then d.write (a / 16 * 16) (List.replicate 16 0)
  else
    (List.range d.cacheSlots).foldl (fun (d : Dev) i =>
      let h := d.nat (d.cacheIndex i + 8) 8
      let e := d.cacheBase + h % 2 ^ 48
      if bitOf h 63 && inRange a e (heapSize (d.nat (e + 16) 4)) then d.write (d.cacheIndex i) (List.replicate 16 0) else d) d

/-! ### Corrupt slots (R416 to R418) -/

/-- The next attempt of a corrupt slot, or EMPTY after the eighth or with no reserve list (R417). -/
def Dev.nextAttempt (d : Dev) (plot slot : Nat) (x : PipSlot) : PipSlot :=
  let a := x.attempt.elim 0 (· + 1)
  if 8 ≤ a ∨ d.reserveCount = 0 then x.none
  else { d.useReserve x (d.reserveIndex plot slot a) with attempt := some a }

/-- A slot is corrupt for a reason (R416, R417, R418). -/
def Dev.corrupt (d : Dev) (b : Batch) (slot u reason : Nat) (x : PipSlot) : Dev :=
  let plot := b.args.plot
  let d := if x.reason.isNone then (d.setErr PIP u 16).bump PIP u 4 1 else d
  let d := if d.recorded.isSome then d.setErr PIP u 23 else d
  let y := d.nextAttempt plot slot { x with reason := some (x.reason.getD reason) }
  let d := if y.empty then (d.bump PIP u 0 1).noteNew plot slot y else d
  d.settleBatch (b.setSlot slot y)

/-- A fetch failed: it is tried again after 1 ms while tries remain, in a replay for ever, with REPLAY_FETCH after
1 s (R411, R418). -/
def Dev.fetchFailed (d : Dev) (b : Batch) (slot u : Nat) (x : PipSlot) (again : Bool) : Dev :=
  let n := x.tries + 1
  let replay := d.recorded.isSome
  if replay || (again && decide (x.tries < d.actF R.PIP_FETCH_RETRIES 0)) then
    let d := if replay && decide (1000 ≤ n) then d.setErr PIP u 22 else d
    d.setBatch (b.setSlot slot { x with tries := n, waiting := true, unit := some u })
  else d.corrupt b slot u 4 x

/-- A poisoned local source (R411): its record, and the read itself (R296). -/
def Dev.srcPoison (d : Dev) (u a : Nat) : Dev :=
  ((((d.poisonRead a).setF R.PIP_FAULT_LO_ADDR_LO u a).setF R.PIP_FAULT_HI_ADDR_HI u (a / 2 ^ 32)).setF
    R.PIP_FAULT_HI_VALID u 1).setErrFull PIP u 21 1 0 a

/-- The first poisoned word among the tables that a program reads. -/
def Dev.tablePoison (d : Dev) (p : Prog) : Option Nat :=
  ((p.at', 256) :: p.tables).findSome? (fun r => d.poisonIn r.1 r.2)

/-- A descriptor and program that are a SOURCE_ERROR at once (R410, R416). -/
def Dev.sourceBad (d : Dev) (a : IngestArgs) (p : Prog) (x : PipDesc) : Bool :=
  x.bad || !d.progOk p a.outKind a.elems || decide (2 ^ 48 ≤ x.sample) || (decide (x.length = 0) && decide (x.source ≠ 3))

/-- The stored bytes of a slot's source: none where the command does not fit the source, an error, or the bytes. -/
def Dev.storedBytes (d : Dev) (x : PipDesc) (stored : List Byte) : Option (List Byte) :=
  if x.source = 1 then some (d.bytes x.addr x.length)
  else if stored.length = x.length then some stored else none

/-- The unit now holds the slot's round-trip form; the canonical forms stand in the staging area, whose bytes are free
(R424, R426; log entry 22). -/
def Dev.stageForm (d : Dev) (b : Batch) (slot u : Nat) (x : PipSlot) (f : PipForm) : Dev :=
  let n := min f.bytes.length b.args.stageSize
  let r := d.draw
  let off := r.1 % (b.args.stageSize - n + 1)
  let d := Dev.write { r.2 with fresh := r.2.fresh + n } (b.args.stage + off) (freeBytes r.2.fresh n)
  d.setBatch (b.setSlot slot { x with unit := some u, form := some f })

/-- A fetched and decoded slot (R412, R414, R416). -/
def Dev.built (d : Dev) (b : Batch) (slot u : Nat) (x : PipSlot) (p : Prog) (stored : List Byte) (r : DecodeResult) : Dev :=
  let d := d.bump PIP u 5 x.desc.length
  match slotForm p x.desc b.args.stageSize stored r with
  | .error why => d.corrupt b slot u why x
  | .ok f =>
    if (match r with
        | .decoded _ _ _ _ _ _ => decide (f.bytes.length ≠ formLen p f)
        | _ => false) then d
    else
      let d := if d.cacheUsed p then d.cacheInstall u p x.desc.sample f else d
      d.stageForm b slot u x (p.roundTrip f)

/-- SAMPLE_FETCH_COMPLETE (R411 to R418). -/
def Dev.fetchDone (d : Dev) (plot slot u : Nat) (r : FetchOutcome) : Dev :=
  d.onSlot plot slot (fun b x =>
    if !d.pipUp u || x.waiting || x.form.isSome then d
    else
      let d := if d.blk PIP u = stReady ∧ d.jobActive = true then d.setBlk PIP u stRunning else d
      let p := d.prog x.desc.typ
      match d.tablePoison p with
      | some w => (d.srcPoison u w).corrupt b slot u 4 x
      | none =>
        if d.sourceBad b.args p x.desc then d.corrupt b slot u 4 x
        else
          let look := if d.cacheUsed p then d.cacheLookup u p x.desc.sample else (none, d)
          match look.1 with
          | some f => look.2.stageForm b slot u x f
          | none =>
            let d := look.2
            if x.desc.source = 3 then d.fetchFailed b slot u x false
            else if x.desc.source = 1 ∧ d.localOk x.desc.addr x.desc.length = false then d.fetchFailed b slot u x false
            else
              let poison := if x.desc.source = 1 then d.poisonIn x.desc.addr x.desc.length else none
              match poison, r with
              | some w, _ => (d.srcPoison u w).fetchFailed b slot u x false
              | none, .failed => if x.desc.source = 1 then d else d.fetchFailed b slot u x true
              | none, .refused => if x.desc.source = 1 then d else d.fetchFailed b slot u x false
              | none, .fetched bs dec =>
                (d.storedBytes x.desc bs).elim d (fun stored => d.built b slot u x p stored dec))

/-- SAMPLE_FETCH_COMPLETE (R411 to R418). -/
def execSampleFetchComplete (plot slot unit : Nat) (r : FetchOutcome) (s : State) : Res :=
  s.onDev (fun d => d.fetchDone plot slot unit r)

/-- FETCH_RETRY_TIMER (R411): 1 ms after a failed fetch the slot is fetched again. -/
def execFetchRetryTimer (plot slot : Nat) (s : State) : Res :=
  s.onDev (fun d => d.onSlot plot slot (fun b x =>
    if x.waiting then d.setBatch (b.setSlot slot { x with waiting := false }) else d))

/-! ### A slot's output (R423 to R427) -/

/-- The thin-channel work of a score map: one ARGMAX request of the unit's die (R224, R229, R424). -/
def Dev.scoreWork (d : Dev) (u : Nat) (p : Prog) (f : PipForm) (n : Nat) : Dev :=
  if p.kind = 5 then (d.bump THN (u / 2) 0 1).bump THN (u / 2) 4 (n * f.channels) else d

/-- PIPELINE_SLOT_COMPLETE (R423 to R426): the slot's outputs are computed, its statistics and its summary applied, its
decision noted, and every slot placed whose lower slots are finished. -/
def Dev.slotDone (d : Dev) (plot slot u : Nat) : Dev :=
  d.onSlot plot slot (fun b x =>
    match x.form with
    | none => d
    | some f =>
      let p := d.prog x.desc.typ
      if x.unit ≠ some u ∨ d.pipUp u = false ∨ (p.kind = 5 ∧ d.thnUp 0 = false ∧ d.thnUp 1 = false) then d
      else
        let o := d.slotOut b.args p (x.desc.sample) f
        let n := min o.rows.length b.args.rowLen
        let d := o.stats.foldl (fun (d : Dev) st => d.applyStat d.step false st) d
        let d := (convEvents 4 o.sats).foldl (fun (d : Dev) (e : Nat × Nat × Nat) =>
          (d.postEvent { Event.blank e.1 3 d.step with
            plot := plot, tile := x.desc.sample % 2 ^ 32, entry := p.entry.getD 0xFFFFFFFF, format := b.args.format,
            block := e.2.1, count := e.2.2, layer := d.layerOf p.entry }).setErr PIP u 24) d
        let d := (d.scoreWork u p f (o.rows.length * b.args.elems)).bump PIP u 0 1
        let y := { x with finished := true, positions := n, truncated := decide (b.args.rowLen < o.rows.length),
                          rows := o.rows.take n, scales := o.scales.take n, form := .none }
        let d := d.noteNew plot slot y
        d.settleBatch (b.setSlot slot y))

/-- PIPELINE_SLOT_COMPLETE (R423 to R426). -/
def execPipelineSlotComplete (plot slot unit : Nat) (s : State) : Res := s.onDev (fun d => d.slotDone plot slot unit)

/-! ### The end of an INGEST (R426, R427) -/

/-- A position that holds no slot: data and scale entries (R138, R426). -/
def IngestArgs.blankPos (a : IngestArgs) : List Byte × List Byte :=
  let b := a.posBytes
  (List.replicate b.1 0, (List.range (b.2 / 2)).flatMap (fun k => leBytes 2 (scaleEntry k (.zeroBlock 0 0))))

/-- Writes the positions of a row that hold no slot. -/
def Dev.padRow (d : Dev) (b : Batch) (r : Nat) : Dev :=
  let a := b.args
  let n := mget 0 b.used r
  let z := a.blankPos
  (List.range (a.rowLen - n)).foldl (fun (d : Dev) k =>
    let i := r * a.rowLen + n + k
    let d := d.write (a.data + i * z.1.length) z.1
    let d := if z.2.isEmpty then d else d.write (a.scale + i * z.2.length) z.2
    d.write (a.marks + 4 * i) (leBytes 4 0)) d

/-- FLAGS of a table entry. -/
def PipSlot.flags (x : PipSlot) : Nat :=
  b2n (x.reason.isSome && !x.empty) + 2 * b2n x.truncated + 4 * b2n x.overflow + 8 * b2n x.empty

/-- The batch table (R427). -/
def Batch.table (b : Batch) (step : Nat) : List Byte :=
  let count (p : PipSlot → Bool) : Nat := (b.slots.filter p).length
  leBytes 4 0x50495042 ++ leBytes 1 b.args.plot ++ leBytes 3 0 ++ leBytes 8 step ++ leBytes 4 b.used.length
    ++ leBytes 4 b.slots.length ++ leBytes 4 (count (·.overflow)) ++ leBytes 4 (count (·.truncated)) ++ List.replicate 32 0
    ++ b.slots.flatMap (fun x =>
      leBytes 8 (if x.empty then noSubstitute else x.desc.sample) ++ leBytes 8 x.orig ++ leBytes 4 x.row
        ++ leBytes 4 x.start ++ leBytes 4 x.positions ++ leBytes 4 x.flags)

/-- INGEST_COMPLETE (R426, R427): the padding and the batch table are written and the command completes. -/
def Dev.ingestDone (d : Dev) (plot : Nat) : Dev :=
  match d.pip.batches.find? (fun b => decide (b.args.plot = plot) && decide (b.placed = b.slots.length)) with
  | some b =>
      let d := (List.range b.args.rowsMax).foldl (fun (d : Dev) r => d.padRow b r) d
      let d := d.write b.args.table (b.table d.step)
      let d := { d with pip := { d.pip with batches := d.pip.batches.filter (fun x => decide (x.cmd ≠ b.cmd)) } }
      d.complete b.cmd 0 0
  | none => d

/-- INGEST_COMPLETE. -/
def execIngestComplete (plot : Nat) (s : State) : Res := s.onDev (fun d => d.ingestDone plot)

/-- FLUSH (R299, R429): outside a job the sample cache region is invalidated. -/
def execFlush (w : Writer) (s : State) : Res :=
  s.byWriter w (fun d => if d.jobActive then d.lockedWrite PIP 0 else d.dropCache)

/-- The unfinished slots of a unit start again from fetch on the units that take them (R408). -/
def Dev.pipMove (d : Dev) (u : Nat) : Dev :=
  { d with pip := { d.pip with batches := d.pip.batches.map (fun b => { b with slots := b.slots.map (fun x =>
      if x.unit = some u ∧ x.finished = false then { x with unit := none, form := .none, waiting := false } else x) }) } }

end Sys2Proof.Machine
end

