-- ==== Sys2Proof/Machine/Motion.lean ====
section
/-! DEFINITION. The encoder's search: scaled pictures, motion vectors by level, and the integer rate and distortion
comparison (R438, R440, R441). The sub-pel samples are those of the luma interpolation of ITU-T H.265 at 10 bits, which R440
names: log entry 13. -/

namespace Sys2Proof.Machine

/-! ### Pictures and scaled pictures (R440) -/

/-- A luma plane: its width, its height and its codes in raster order. -/
structure Plane where
  w  : Nat
  h  : Nat
  px : List Nat
  deriving DecidableEq, Repr

/-- A code of a plane; outside the picture the nearest edge sample. -/
def Plane.px? (p : Plane) (x y : Int) : Int :=
  let cx := (max 0 (min ((p.w : Int) - 1) x)).toNat
  let cy := (max 0 (min ((p.h : Int) - 1) y)).toNat
  (p.px.getD (cy * p.w + cx) 0 : Nat)

/-- The plane at half of each dimension: (a + b + c + d + 2) >> 2 over 2 × 2 samples. -/
def Plane.halve (p : Plane) : Plane :=
  let w := p.w / 2
  let h := p.h / 2
  let four (x y : Nat) : Nat :=
    p.px.getD (2 * y * p.w + 2 * x) 0 + p.px.getD (2 * y * p.w + 2 * x + 1) 0
      + p.px.getD ((2 * y + 1) * p.w + 2 * x) 0 + p.px.getD ((2 * y + 1) * p.w + 2 * x + 1) 0
  { w := w, h := h, px := (List.range h).flatMap (fun y => (List.range w).map (fun x => (four x y + 2) / 4)) }

/-- A motion vector. -/
abbrev Motion := Int × Int

/-- The samples of an n × n block that lie inside a picture. -/
def Plane.block (p : Plane) (x0 y0 n : Nat) : List (Nat × Nat) :=
  (List.range (min n (p.h - y0))).flatMap (fun y => (List.range (min n (p.w - x0))).map (fun x => (x0 + x, y0 + y)))

/-- The sum of absolute differences of a block of the current picture against predicted samples. A block that reaches beyond
the picture counts its samples inside: DESIGN CHOICE, log entry 13. -/
def sad (cur : Plane) (x0 y0 n : Nat) (pred : Nat → Nat → Int) : Nat :=
  ((cur.block x0 y0 n).map (fun s => ((cur.px? s.1 s.2) - pred s.1 s.2).natAbs)).sum

/-- The SAD against a reference moved by a vector in whole samples. -/
def sadFull (cur ref : Plane) (x0 y0 n : Nat) (v : Motion) : Nat :=
  sad cur x0 y0 n (fun x y => ref.px? ((x : Int) + v.1) ((y : Int) + v.2))

/-! ### Sub-pel samples -/

/-- The luma interpolation filter of a quarter-pel fraction. -/
def lumaTaps (frac : Nat) : List Int :=
  match frac with
  | 1 => [-1, 4, -10, 58, 17, -5, 1, 0]
  | 2 => [-1, 4, -11, 40, 40, -11, 4, -1]
  | 3 => [0, 1, -5, 17, 58, -10, 4, -1]
  | _ => [0, 0, 0, 64, 0, 0, 0, 0]

/-- A filter over eight samples. -/
def tapSum (frac : Nat) (s : Nat → Int) : Int := ((lumaTaps frac).zipIdx.map (fun t => t.1 * s t.2)).sum

/-- The predicted sample at a place moved by a vector in quarter samples: 14-bit intermediate values, rounded to 10 bits. -/
def interpolate (ref : Plane) (x y : Nat) (v : Motion) : Int :=
  let fx := (v.1 % 4).toNat
  let fy := (v.2 % 4).toNat
  let px := (x : Int) + v.1 / 4
  let py := (y : Int) + v.2 / 4
  let row (dy : Int) : Int := tapSum fx (fun i => ref.px? (px + i - 3) (py + dy)) / 4
  let mid : Int :=
    if fx = 0 ∧ fy = 0 then 16 * ref.px? px py
    else if fy = 0 then row 0
    else if fx = 0 then tapSum fy (fun i => ref.px? px (py + i - 3)) / 4
    else tapSum fy (fun i => row ((i : Int) - 3)) / 64
  max 0 (min 1023 ((mid + 8) / 16))

/-- The SAD against a reference moved by a vector in quarter samples. -/
def sadSub (cur ref : Plane) (x0 y0 : Nat) (v : Motion) : Nat := sad cur x0 y0 8 (fun x y => interpolate ref x y v)

/-! ### Costs and choices (R440, R441) -/

/-- P6. -/
def p6 (k : Nat) : Nat := [65536, 73562, 82570, 92682, 104032, 116772].getD k 0

/-- λ(q) of a QP. -/
def lambdaOf (q : Int) : Nat := p6 (((q + 12) % 6).toNat) * 2 ^ ((q + 12) / 6).toNat / 2 ^ 16

/-- g(n). -/
def vectorBits (n : Nat) : Nat := 2 * Nat.log2 (n + 1) + 1

/-- m(v) of a vector in quarter samples. -/
def vectorCost (v : Motion) : Nat := vectorBits v.1.natAbs + vectorBits v.2.natAbs

/-- A cost with λ(q) times bits. -/
def withBits (q : Int) (cost bits : Nat) : Nat := cost + lambdaOf q * bits / 16

/-- Of two vectors with costs, the first wins: less cost, then smaller |vx| + |vy|, then smaller vy, then smaller vx. -/
def betterVector (a b : Nat × Motion) : Bool :=
  let key (c : Nat × Motion) : List Int := [(c.1 : Nat), (c.2.1.natAbs + c.2.2.natAbs : Nat), c.2.2, c.2.1]
  decide (key a < key b)

/-- The winner of candidates under an order; the earlier stays when neither is better. -/
def pick {α : Type} (better : α → α → Bool) : List α → Option α
  | [] => none
  | x :: xs => some (xs.foldl (fun a b => if better b a then b else a) x)

/-- The best of whole-sample candidates. -/
def bestVector (cost : Motion → Nat) (vs : List Motion) : Motion :=
  ((pick betterVector (vs.map (fun v => (cost v, v)))).map (·.2)).getD (0, 0)

/-- The best of sub-pel candidates: the first of least cost. -/
def firstBest (cost : Motion → Nat) (vs : List Motion) : Motion :=
  ((pick (fun a b => decide (a.1 < b.1)) (vs.map (fun v => (cost v, v)))).map (·.2)).getD (0, 0)

/-- Every vector whose components are at most n. -/
def square (n : Nat) : List Motion :=
  (List.range (2 * n + 1)).flatMap (fun y => (List.range (2 * n + 1)).map (fun x => ((x : Int) - n, (y : Int) - n)))

/-- Twice a vector, moved by up to two samples in each direction. -/
def around (v : Motion) : List Motion := (square 2).map (fun d => (2 * v.1 + d.1, 2 * v.2 + d.2))

/-- A vector and its eight neighbours at a distance of s, in the order of R440. -/
def ninth (s : Int) (v : Motion) : List Motion :=
  [(0, 0), (-1, -1), (0, -1), (1, -1), (-1, 0), (1, 0), (-1, 1), (0, 1), (1, 1)].map (fun d => (v.1 + s * d.1, v.2 + s * d.2))

/-! ### The search (R440) -/

/-- The current and a reference picture at full, half and quarter dimensions. -/
structure Scaled where
  full : Plane
  half : Plane
  quarter : Plane

/-- A picture with its scaled pictures. -/
def scaled (p : Plane) : Scaled := { full := p, half := p.halve, quarter := p.halve.halve }

/-- The vector of level 1 for the CTB at (x, y): level 2 searches the quarter picture within RANGE_PX, level 1 around it. -/
def searchCoarse (cur ref : Scaled) (range x y : Nat) : Motion :=
  let v2 := bestVector (sadFull cur.quarter ref.quarter (x / 4) (y / 4) 16) (square ((8 * range + 3) / 4))
  bestVector (sadFull cur.half ref.half (x / 2) (y / 2) 32) (around v2)

/-- The vector of an 8 × 8 block in quarter samples, from the vector of level 1. -/
def searchBlock (cur ref : Plane) (q : Int) (v1 : Motion) (x y : Nat) : Motion :=
  let v0 := bestVector (fun v => withBits q (sadFull cur ref x y 8 v) (vectorCost (4 * v.1, 4 * v.2))) (around v1 ++ [(0, 0)])
  let fine (v : Motion) : Nat := withBits q (sadSub cur ref x y v) (vectorCost v)
  firstBest fine (ninth 1 (firstBest fine (ninth 2 (4 * v0.1, 4 * v0.2))))

/-- The vectors of a CTB against one reference: its 8 × 8 blocks inside the picture, in raster order. -/
def searchCtb (cur ref : Scaled) (q : Int) (range x y : Nat) : List Motion :=
  let v1 := searchCoarse cur ref range x y
  (List.range 64).filterMap (fun b =>
    let bx := x + 8 * (b % 8)
    let at_y := y + 8 * (b / 8)
    if bx < cur.full.w ∧ at_y < cur.full.h then some (searchBlock cur.full ref.full q v1 bx at_y) else none)

/-- The vectors of a run of CTB rows, for each reference picture, nearest first. -/
def searchRows (cur : Plane) (refs : List Plane) (q : Int) (range row rows : Nat) : List (List Motion) :=
  let c := scaled cur
  refs.map (fun r =>
    let s := scaled r
    (List.range rows).flatMap (fun y => (List.range ((cur.w + 63) / 64)).flatMap (fun x =>
      searchCtb c s q range (64 * x) (64 * (row + y)))))

/-! ### Rate and distortion (R441) -/

/-- The choice among candidates (SSE, bits): the least J, the earlier on a tie. -/
def leastJ (q : Int) (cs : List (Nat × Nat)) : Nat :=
  ((pick (fun a b => decide (a.1 < b.1)) (cs.zipIdx.map (fun c => (withBits q c.1.1 c.1.2, c.2)))).map (·.2)).getD 0

/-- The choices of a slice, each made on the candidates that the reference lists after the choices before it. -/
def sliceChoices (rev : Nat) (q : Int) (nums : List Int) (codes : List Nat) (vs : List (List Motion)) : List Nat :=
  (List.range (Config.encChoices rev nums codes vs)).foldl (fun made _ =>
    made ++ [leastJ q (Config.encCandidates rev nums codes vs made)]) []

end Sys2Proof.Machine
end

