-- ==== Sys2Proof/Machine/Media.lean ====
section
/-! DEFINITION. The media engine: sessions, the decoder's budgets and its JPEG transform, the encoder's key
pictures, rate control, coded slices and delivery, moves from a cloched slice (R430 to R449). What a standard or the encoder
reference decides is a decoded picture's operand or a value of Config (log entry 13). -/

namespace Sys2Proof.Machine

/-! ### Contexts (R430, R431) -/

/-- A slice in service. -/
def Dev.sliceUp (d : Dev) (i : Nat) : Bool := decide (d.blk MED i = stReady) || decide (d.blk MED i = stRunning)

/-- Slices of a die: 0 is IOD-N (R21). -/
def dieSlices (die : Nat) : List Nat := (List.range 4).map (fun k => 4 * (die % 2) + k)

/-- Occupied contexts of a slice. -/
def Dev.contextsUsed (d : Dev) (i : Nat) : Nat := (d.sessionsOf i).length

/-- ENCODE contexts that a slice allows (R449). -/
def Dev.encMax (d : Dev) (i : Nat) : Nat := min 0x40 (d.actF R.MED_SESSIONS_ENC_MAX i)

/-- A slice that an open of a kind may use. -/
def Dev.sliceFree (d : Dev) (kind i : Nat) : Bool :=
  d.sliceUp i && decide (d.contextsUsed i < 64)
    && (decide (kind ≠ 3) || decide (((d.sessionsOf i).filter (fun s => decide (s.kind = 3))).length < d.encMax i))

/-- Among slices, the one with the most free contexts, the lowest on a tie. -/
def Dev.emptiest (d : Dev) (is : List Nat) : Option Nat :=
  is.foldl (fun b i => match b with
    | none => some i
    | some j => if d.contextsUsed i < d.contextsUsed j then some i else some j) none

/-- The slice that R431 gives an open of a kind from a die. -/
def Dev.placeSession (d : Dev) (kind die : Nat) : Option Nat :=
  (d.emptiest ((dieSlices die).filter (d.sliceFree kind))).or (d.emptiest ((dieSlices (die + 1)).filter (d.sliceFree kind)))

/-- The lowest free context of a slice whose handle no moved session still answers to. -/
def Dev.freeContext (d : Dev) (i : Nat) : Option Nat :=
  (List.range 64).find? (fun k => (mfind (i * 256 + k) d.media).isNone && d.media.all (fun e => decide (e.2.handle ≠ i * 256 + k)))

/-- Stores a session in its context. -/
def Dev.setSession (d : Dev) (k : Nat) (s : Session) : Dev := { d with media := mput k s d.media }

/-- Puts a session into a context of a slice: the context and the device (R431). -/
def Dev.seat (d : Dev) (i : Nat) (s : Session) : Option (Nat × Dev) :=
  let d' := if d.blk MED i = stReady ∧ d.jobActive = true then d.setBlk MED i stRunning else d
  (d.freeContext i).map (fun k => (i * 256 + k, d'.setSession (i * 256 + k) s))

/-- A session that begins: counted (R448). -/
def Dev.seatNew (d : Dev) (die : Nat) (s : Session) : Option (Nat × Dev) :=
  (d.placeSession s.kind die).bind (fun i => (d.seat i s).map (fun r => (r.1, r.2.bump MED i 5 1)))

/-- An encoder session that has coded nothing (R439, R443). -/
def EncState.fresh (e : EncParams) : EncState :=
  { par := e, outHead := 0, outUsed := 0, items := [], regKey := false, current := none, held := none, pics := 0,
    sinceKey := 0, lastKey := none, lastP := none, picBits := [], repeating := false, lastQp := 0, closing := none, refs := [] }

/-- An ENCODE session. -/
def Session.encode (e : EncParams) : Session :=
  { kind := 3, handle := 0, maxPix := 0, length := 0, expansion := 0, outBytes := 0, samples := 0, delivered := [],
    pics := 0, enc := some (EncState.fresh e) }

/-- Opens what waits, if it finds a context: none when it waits on. -/
def Dev.openWaiting (d : Dev) (w : MediaWait) : Option Dev :=
  match w with
  | .pipe die s => (d.seatNew die s).map (·.2)
  | .enc c e =>
    (d.seatNew e.port (Session.encode e)).map (fun r =>
      (r.2.setSession r.1 { Session.encode e with handle := r.1 }).complete c 0 r.1)
  | .moved die s => (d.placeSession s.kind die).bind (fun i => (d.seat i s).map (·.2))

/-- A context is free: what waits opens in order (R431). -/
def Dev.medWake (d : Dev) : Dev :=
  d.mediaWait.foldl (fun (d : Dev) w => match d.openWaiting w with
    | some d' => { d' with mediaWait := d'.mediaWait.erase w }
    | none => d) d

/-- Opens now or waits (R431). -/
def Dev.openOrWait (d : Dev) (w : MediaWait) : Dev :=
  match d.openWaiting w with
  | some d' => d'
  | none => { d with mediaWait := d.mediaWait ++ [w] }

/-- A session ends and its context is free. -/
def Dev.closeSession (d : Dev) (k : Nat) : Dev := Dev.medWake { d with media := mdel k d.media }

/-- MEDIA_SESSION_OPEN (R430, R431, R437): a pipeline unit opens a DECODE or ROUNDTRIP session. -/
def execMediaSessionOpen (die : Nat) (roundtrip : Bool) (maxPixels length : Nat) (s : State) : Res :=
  s.onDev (fun d => d.openOrWait (.pipe die
    { kind := if roundtrip then 2 else 1, handle := 2 ^ 16, maxPix := maxPixels, length := length
      expansion := max 1 (d.getF R.MED_BUDGET_MAX_EXPANSION 0), outBytes := 0, samples := 0, delivered := [], pics := 0,
      enc := none }))

/-! ### Decoding (R433 to R437) -/

/-- A[x][k] of the JPEG transform: round(2^13 · a(k) · cos((2x + 1)kπ / 16)) by (2x + 1)k mod 32 (R435). -/
def jpegA (x k : Nat) : Int :=
  let c (m : Nat) : Int :=
    match m with
    | 0 => 4096 | 1 => 4017 | 2 => 3784 | 3 => 3406 | 4 => 2896 | 5 => 2276 | 6 => 1567 | 7 => 799 | _ => 0
  if k = 0 then 2896
  else
    let m := (2 * x + 1) * k % 32
    if m ≤ 8 then c m else if m ≤ 16 then -(c (16 - m)) else if m ≤ 24 then -(c (m - 16)) else c (32 - m)

/-- n / 2^26, to nearest, ties to even. -/
def rneInt26 (n : Int) : Int :=
  if n < 0 then -((rneShift n.natAbs 26 : Nat) : Int) else (rneShift n.natAbs 26 : Nat)

/-- One 8 × 8 block: 64 coefficients and 64 quantisation values in raster order (u across, v down) give 64 samples
(R435). -/
def jpegBlock (quant : List Nat) (f : List Int) : List Nat :=
  let F (u v : Nat) : Int := max (-32768) (min 32767 (f.getD (8 * v + u) 0 * (quant.getD (8 * v + u) 0 : Nat)))
  let t (x v : Nat) : Int := ((List.range 8).map (fun u => jpegA x u * F u v)).sum
  (List.range 8).flatMap (fun y => (List.range 8).map (fun x =>
    let s : Int := ((List.range 8).map (fun v => jpegA y v * t x v)).sum
    (max 0 (min 255 (rneInt26 s + 128))).toNat))

/-- A session ends with a BLK_ERR bit; the three outcomes of bad input count (R436, R437, R448). -/
def Dev.endDecode (d : Dev) (slice k bit : Nat) : Dev :=
  let d := if bit = 19 then d else d.bump MED slice 6 1
  (d.setErr MED slice bit).closeSession k

/-- A picture buffer passes the checks of R437. -/
def Session.pictureFits (s : Session) (w h planes : Nat) : Bool :=
  decide (w * h ≤ s.maxPix) && decide (s.outBytes + 2 * planes ≤ s.expansion * s.length)

/-- A decoded picture (R434, R437). -/
def Dev.decoded (d : Dev) (slice k : Nat) (s : Session) (w h planes : Nat) (data : List Byte) : Dev :=
  if s.pictureFits w h planes then
    ((d.setSession k { s with outBytes := s.outBytes + 2 * planes, delivered := s.delivered ++ data, pics := s.pics + 1 }).bump
      MED slice 0 1).bump MED slice 1 (w * h)
  else d.endDecode slice k 16

/-- An audio block passes the checks of R437. -/
def Session.audioFits (s : Session) (n : Nat) (declared : Option Nat) (channels : Nat) : Bool :=
  (decide (s.samples ≠ 0) || declared.elim true (fun t => decide (t * channels ≤ s.maxPix)))
    && decide (s.samples + n ≤ s.maxPix) && decide (4 * (s.samples + n) ≤ s.expansion * s.length)

/-- Records a poisoned source read in MED_FAULT (R436, R449). -/
def Dev.medPoison (d : Dev) (slice a : Nat) : Dev :=
  (((d.poisonRead a).setF R.MED_FAULT_LO_ADDR_LO slice a).setF R.MED_FAULT_HI_ADDR_HI slice (a / 2 ^ 32)).setF
    R.MED_FAULT_HI_VALID slice 1

/-- One unit of a session's stream (R433 to R437). -/
def Dev.decodeUnit (d : Dev) (slice k : Nat) (s : Session) (u : DecodeUnit) : Dev :=
  match u with
  | .picture w h planes data => d.decoded slice k s w h planes data
  | .jpeg w h planes quant blocks =>
    d.decoded slice k s w h planes (blocks.flatMap (fun b => (jpegBlock quant b).flatMap (leBytes 2)))
  | .audio frames channels declared data =>
    if s.audioFits (frames * channels) declared channels then
      (d.setSession k { s with samples := s.samples + frames * channels, delivered := s.delivered ++ data }).bump MED slice 2
        (frames * channels)
    else d.endDecode slice k 16
  | .badStream => d.endDecode slice k 17
  | .unsupported => d.endDecode slice k 18
  | .poisoned a => if (d.poisonIn a 1).isSome then (d.medPoison slice a).endDecode slice k 19 else d
  | .finish => d.closeSession k

/-- DECODE_PICTURE (R433 to R437). -/
def execDecodePicture (slice context : Nat) (u : DecodeUnit) (s : State) : Res :=
  s.onDev (fun d =>
    let k := slice * 256 + context
    match mfind k d.media with
    | some x => if d.sliceUp slice = true ∧ x.kind ≠ 3 then d.decodeUnit slice k x u else d
    | none => d)

/-! ### Opening an encoder (R438, R444) -/

/-- Reads a descriptor. -/
def Dev.encParams (d : Dev) (c : JobCmd) : EncParams :=
  let a := argOf c 0
  { port := c.port, ring := c.ring, cookie := d.nat (a + 0x34) 4, width := d.nat a 2, height := d.nat (a + 2) 2
    capEn := bitOf (d.nat (a + 4) 2) 0, outHost := bitOf (d.nat (a + 4) 2) 1, refs := d.nat (a + 6) 1
    sliceRows := d.nat (a + 7) 1, cq := sext 8 (d.nat (a + 8) 1), range := d.nat (a + 9) 1, keyint := d.nat (a + 10) 2
    win := d.nat (a + 12) 2, maxBits := d.nat (a + 16) 8, work := d.nat (a + 24) 8, workSize := d.nat (a + 32) 8
    out := d.nat (a + 40) 8, outSize := d.nat (a + 48) 4 }

/-- The descriptor lies in its ranges (R438, R444). -/
def Dev.encOk (d : Dev) (a : Nat) (e : EncParams) : Bool :=
  let side (n : Nat) : Bool := decide (n % 8 = 0) && decide (8 ≤ n) && decide (n ≤ 8192)
  side e.width && side e.height && decide (e.width * e.height ≤ 35651584) && decide (d.nat (a + 4) 2 < 4)
    && decide (1 ≤ e.refs) && decide (e.refs ≤ 4) && decide (1 ≤ e.sliceRows) && decide (e.sliceRows ≤ 16)
    && decide (-12 ≤ e.cq) && decide (e.cq ≤ 51) && decide (1 ≤ e.range) && decide (e.range ≤ 32)
    && decide (1 ≤ e.win) && decide (e.win ≤ 256) && decide (d.nat (a + 14) 2 = 0) && decide (d.nat (a + 56) 8 = 0)
    && (!e.capEn || decide (1 ≤ e.maxBits))
    && decide ((e.refs + 1) * 4 * e.width * e.height + 4 * 2 ^ 20 ≤ e.workSize) && d.inJob e.work e.workSize
    && decide (4 * 2 ^ 20 + 256 * e.width * e.sliceRows ≤ e.outSize) && (e.outHost || d.localOk e.out e.outSize)

/-- ENC_OPEN begins (R430, R431, R444). -/
def Dev.encOpen (d : Dev) (c : JobCmd) : Dev :=
  let a := argOf c 0
  if !argsClear c 1 then d.complete c 2 0
  else if !d.featureIn MED 8 then d.complete c 0x42 0
  else if !d.localOk a 64 then d.complete c 4 0
  else match d.poisonIn a 64 with
    | some w => (d.poisonRead w).complete c 0x44 0
    | none =>
      if d.encOk a (d.encParams c) then d.openOrWait (.enc c (d.encParams c)) else d.complete c 0x41 0

/-! ### The pictures of a session (R439, R442, R443) -/

/-- The context of an open ENCODE session by its handle. -/
def Dev.byHandle (d : Dev) (h : Nat) : Option (Nat × Session × EncState) :=
  d.media.findSome? (fun e => if e.2.kind = 3 ∧ e.2.handle = h then e.2.enc.map (fun x => (e.1, e.2, x)) else none)

/-- Stores an encoder session's state. -/
def Dev.setEnc (d : Dev) (k : Nat) (s : Session) (x : EncState) : Dev := d.setSession k { s with enc := some x }

/-- A command on a session handle: BAD_ARG for arguments beyond `n` or a handle that no slice has, CLOSED for a session
that is not open or is closing (R445, R523). -/
def Dev.onHandle (d : Dev) (c : JobCmd) (n : Nat) (f : Nat → Session → EncState → Dev) : Dev :=
  let h := argOf c 0
  if argsClear c n = false ∨ 8 ≤ h / 256 ∨ 64 ≤ h % 256 then d.complete c 2 0
  else match d.byHandle h with
    | some (k, s, x) => if x.closing.isSome then d.complete c 0x45 0 else f k s x
    | none => d.complete c 0x45 0

/-- The planes of a picture: (address, pitch, width in samples, rows). -/
def planesOf (c : JobCmd) (e : EncParams) : List (Nat × Nat × Nat × Nat) :=
  let lp := argOf c 4 % 2 ^ 32
  let cp := argOf c 4 / 2 ^ 32 % 2 ^ 32
  [(argOf c 1, lp, e.width, e.height), (argOf c 2, cp, e.width / 2, e.height / 2), (argOf c 3, cp, e.width / 2, e.height / 2)]

/-- The rows of a plane as ranges. -/
def planeRows (p : Nat × Nat × Nat × Nat) : List (Nat × Nat) := (List.range p.2.2.2).map (fun y => (p.1 + y * p.2.1, 2 * p.2.2.1))

/-- ENC_PICTURE (R439, R444): the picture is read and submitted; values above 1,023 set INPUT_CLAMPED. -/
def Dev.encPicture (d : Dev) (c : JobCmd) : Dev :=
  d.onHandle c 5 (fun k s x =>
    let rows := (planesOf c x.par).flatMap planeRows
    if rows.any (fun r => !d.localOk r.1 r.2) then d.complete c 4 0
    else match rows.findSome? (fun r => d.poisonIn r.1 r.2) with
      | some w => ((d.medPoison (k / 256) w).setErrFull MED (k / 256) 19 1 0 w).complete c 0x44 0
      | none =>
        let clamped := rows.any (fun r => (List.range (r.2 / 2)).any (fun i => decide (1023 < d.nat (r.1 + 2 * i) 2)))
        let codes := rows.flatMap (fun r => (List.range (r.2 / 2)).map (fun i => min 1023 (d.nat (r.1 + 2 * i) 2)))
        let d := if clamped then d.setErr MED (k / 256) 23 else d
        (d.setEnc k s { x with items := x.items ++ [.picture codes] }).complete c 0 0)

/-- ENC_KEYREQ (R443). -/
def Dev.encKeyreq (d : Dev) (c : JobCmd) : Dev :=
  d.onHandle c 1 (fun k s x => (d.setEnc k s { x with items := x.items ++ [.key] }).complete c 0 0)

/-- The cause that makes the next picture a key picture; 0 for none (R443). -/
def EncState.keyCause (x : EncState) : Nat :=
  if x.pics = 0 then 1
  else if (x.items.takeWhile (fun i => decide (i = .key))) ≠ [] then 2
  else if x.regKey then 3
  else if x.par.keyint ≠ 0 ∧ x.par.keyint ≤ x.sinceKey then 4 else 0

/-- The codes of the next submitted picture. -/
def EncState.nextCodes (x : EncState) : List Nat :=
  match x.items.find? EncItem.isPicture with
  | some (.picture cs) => cs
  | _ => []

/-- ENC_PICTURE_START (R439, R443): the next submitted picture is encoded once its predecessor is reconstructed. The
work area is the encoder's; its bytes are free (log entry 23). -/
def execEncPictureStart (slice context : Nat) (s : State) : Res :=
  s.onDev (fun d =>
    let k := slice * 256 + context
    match mfind k d.media with
    | some se =>
      se.enc.elim d (fun x =>
        if d.sliceUp slice = false ∨ x.current.isSome = true ∨ ¬ x.items.any EncItem.isPicture then d
        else
          let cause := x.keyCause
          let d := if cause ≠ 0 ∧ x.regKey = true then d.setF R.MED_KEYREQ_PIC_PIC slice x.pics else d
          let n := x.par.workSize
          let fill := freeBytes d.fresh n
          let d := Dev.write { d with fresh := d.fresh + n } x.par.work fill
          d.setEnc k se { x with
            items := (x.items.dropWhile (fun i => decide (i = .key))).drop 1
            regKey := if cause = 0 then x.regKey else false
            refs := if cause = 0 then x.refs else []
            current := some ⟨decide (cause ≠ 0), cause, x.nextCodes, [], []⟩ })
    | none => d)

/-! ### Rate control (R441, R442) -/

/-- N6. -/
def n6 (k : Nat) : Nat := [65536, 58386, 52016, 46341, 41285, 36781].getD k 0

/-- est(q) of a slice of b bits at QP p. -/
def estBits (b : Nat) (p q : Int) : Nat :=
  if p ≤ q then
    let n := (q - p).toNat
    b * n6 (n % 6) / 2 ^ (16 + n / 6)
  else
    let n := (p - q).toNat
    b * (p6 (n % 6) * 2 ^ (n / 6)) / 2 ^ 16

/-- Coded slices of a picture (R438). -/
def EncParams.slices (e : EncParams) : Nat := ((e.height + 63) / 64 + e.sliceRows - 1) / e.sliceRows

/-- Bits of the window before the picture in progress, and of the picture so far. -/
def EncState.windowBits (x : EncState) (p : EncPic) : Nat :=
  (x.picBits.take (x.par.win - 1)).sum + (p.slices.map (·.1)).sum

/-- The smallest QP from `q` on whose estimate fits, 51 when none does. -/
def smallestQp (b : Nat) (p : Int) (share : Nat) : Nat → Int → Int
  | 0, _ => 51
  | fuel + 1, q => if estBits b p q ≤ share then q else smallestQp b p share fuel (q + 1)

/-- The QP of the next slice (R442). -/
def EncState.qp (x : EncState) (p : EncPic) : Int :=
  if !x.par.capEn then x.par.cq
  else
    let j := p.slices.length
    match if p.key then x.lastKey else x.lastP with
    | none => x.par.cq
    | some old =>
      let left : Int := (x.par.maxBits : Int) - x.windowBits p
      let share : Nat := if 0 < left then left.toNat / (x.par.slices - j) else 0
      let bp := old.getD j (0, x.par.cq)
      smallestQp bp.1 bp.2 share (52 - x.par.cq).toNat x.par.cq

/-! ### Delivery (R445) -/

/-- Writes a run into OUT, wrapping at OUT_SIZE. -/
def Dev.writeOut (d : Dev) (e : EncParams) (off : Nat) (bs : List Byte) : Dev :=
  let put (d : Dev) (o : Nat) (xs : List Byte) : Dev :=
    if xs.isEmpty then d else if e.outHost then d.emit (.hostWrite e.port (e.out + o) xs) else d.write (e.out + o) xs
  put (put d off (bs.take (e.outSize - off))) 0 (bs.drop (e.outSize - off))

/-- The bytes of a slice completion before and after PHASE (R445, R525). -/
def sliceEntry (x : EncState) (p : EncPic) (pic : Nat) (q : Int) (params capOver last : Bool) (len status window : Nat) :
    List Byte × List Byte :=
  (leBytes 4 x.par.cookie ++ leBytes 4 pic ++ leBytes 2 p.slices.length ++ leBytes 1 (twos 8 q)
    ++ leBytes 1 (b2n p.slices.isEmpty + 2 * b2n last + 4 * b2n p.key + 8 * b2n params + 16 * b2n x.repeating + 32 * b2n capOver)
    ++ leBytes 4 x.outHead ++ leBytes 4 len ++ leBytes 1 status ++ leBytes 1 p.cause, leBytes 1 0 ++ leBytes 8 window)

/-- An ENCODE session ends; a waiting ENC_CLOSE completes (R444). -/
def Dev.endEnc (d : Dev) (k : Nat) (x : EncState) : Dev :=
  let d := d.closeSession k
  x.closing.elim d (fun c => d.complete c 0 0)

/-- The session of a waiting ENC_CLOSE has no more to code. -/
def EncState.idle (x : EncState) : Bool := x.current.isNone && !x.items.any EncItem.isPicture

/-- The slice has been emitted: the picture's account, and the next picture's after its last slice, when its reconstruction
is the nearest reference (R438, R442). -/
def EncState.after (x : EncState) (p : EncPic) (q : Int) (cs : CodedSlice) (last : Bool) : EncState :=
  let len := cs.data.length
  let ss := p.slices ++ [(8 * len, q)]
  let x := { x with outHead := (x.outHead + len) % x.par.outSize, outUsed := x.outUsed + len, held := none, lastQp := q }
  if last then
    { x with
      current := none, pics := x.pics + 1, sinceKey := if p.key then 0 else x.sinceKey + 1, repeating := false
      lastKey := if p.key then some ss else x.lastKey, lastP := if p.key then x.lastP else some ss
      picBits := ((ss.map (·.1)).sum :: x.picBits).take 256, refs := (cs.recon :: x.refs).take x.par.refs }
  else { x with current := some { p with slices := ss, recon := cs.recon } }

/-- Emits a coded slice of the picture in progress (R442, R445). -/
def Dev.emitSlice (d : Dev) (k : Nat) (s : Session) (x : EncState) (p : EncPic) (cs : CodedSlice) : Dev :=
  let i := k / 256
  let len := cs.data.length
  let q := x.qp p
  let last := decide (p.slices.length + 1 = x.par.slices)
  let window := x.windowBits p + 8 * len
  let capOver := x.par.capEn && decide (x.par.maxBits < window)
  let d := d.writeOut x.par x.outHead cs.data
  let e := sliceEntry x p x.pics q cs.params capOver last len 0 window
  let d := (d.post x.par.port x.par.ring e.1 e.2).bump MED i 4 len
  let d := if capOver then (d.setErr MED i 21).bump MED i 7 1 else d
  let d := if last then d.bump MED i 3 1 else d
  let y := x.after p q cs last
  let d := d.setEnc k { s with pics := y.pics } y
  if last && y.closing.isSome && y.idle then d.endEnc k y else d

/-- A coded slice: emitted when OUT has room, else it waits; one longer than OUT ends the session with OUT_SMALL
(R445). -/
def Dev.codedSlice (d : Dev) (k : Nat) (s : Session) (x : EncState) (p : EncPic) (cs : CodedSlice) : Dev :=
  let len := cs.data.length
  if x.par.outSize < len then
    let last := decide (p.slices.length + 1 = x.par.slices)
    let e := sliceEntry x p x.pics (x.qp p) cs.params false last len 3 (x.windowBits p)
    (d.post x.par.port x.par.ring e.1 e.2).endEnc k x
  else if x.par.outSize < x.outUsed + len then (d.setErr MED (k / 256) 20).setEnc k s { x with held := some cs }
  else d.emitSlice k s x p cs

/-- The luma plane of a picture's codes. -/
def EncParams.lumaOf (e : EncParams) (codes : List Nat) : Plane := { w := e.width, h := e.height, px := codes.take (e.width * e.height) }

/-- The next slice of the picture in progress, coded: motion vectors, choices, bytes and reconstruction, by ENC_REV, the
picture, the descriptor and the key pictures alone (R438 to R442, R446). -/
def EncState.code (x : EncState) (rev : Nat) (p : EncPic) : CodedSlice :=
  let e := x.par
  let q := x.qp p
  let row := p.slices.length * e.sliceRows
  let rows := min e.sliceRows ((e.height + 63) / 64 - row)
  let params := p.key && p.slices.isEmpty
  let nums : List Int := [q, b2n p.key, if p.key then 0 else x.sinceKey + 1, row, rows, e.width, e.height, e.refs, e.sliceRows,
    e.cq, e.range, e.keyint, b2n params]
  let codes := p.codes ++ p.recon ++ x.refs.flatten
  let vs := if p.key then [] else searchRows (e.lumaOf p.codes) (x.refs.map e.lumaOf) q e.range row rows
  let made := sliceChoices rev q nums codes vs
  { data := Config.encBytes rev nums codes vs made, params := params, recon := Config.encRecon rev nums codes vs made }

/-- The poisoned word of WORK that the coding of a slice has read (R436, R444); an address without poison is none. -/
def Dev.workPoison (d : Dev) (e : EncParams) (poisoned : Option Nat) : Option Nat :=
  poisoned.filter (fun a => decide (e.work ≤ a) && decide (a < e.work + e.workSize) && (d.poisonIn a 1).isSome)

/-- A session whose encoder has read a poisoned word ends with SRC_POISON (R436, R445, R448). -/
def Dev.encPoisoned (d : Dev) (k : Nat) (x : EncState) (p : EncPic) (a : Nat) : Dev :=
  let last := decide (p.slices.length + 1 = x.par.slices)
  let d := (d.medPoison (k / 256) a).setErrFull MED (k / 256) 19 1 0 a
  let e := sliceEntry x p x.pics (x.qp p) false false last 0 4 (x.windowBits p)
  (d.post x.par.port x.par.ring e.1 e.2).endEnc k x

/-- ENC_SLICE_COMPLETE (R436, R440 to R442, R445, R446); `poisoned` is a word of WORK that the coding met as poisoned. -/
def execEncSliceComplete (slice context : Nat) (poisoned : Option Nat) (s : State) : Res :=
  s.onDev (fun d =>
    let k := slice * 256 + context
    match mfind k d.media with
    | some se =>
      se.enc.elim d (fun x => x.current.elim d (fun p =>
        if d.sliceUp slice && x.held.isNone then
          match d.workPoison x.par poisoned with
          | some a => d.encPoisoned k x p a
          | none => d.codedSlice k se x p (x.code (d.getF R.PWR_FW_RESULT_REV_MEF 0) p)
        else d))
    | none => d)

/-- As `onHandle` with two arguments, also while the session is closing: its last slices still need room. -/
def Dev.onOpenHandle (d : Dev) (c : JobCmd) (f : Nat → Session → EncState → Dev) : Dev :=
  if argsClear c 2 = false ∨ 8 ≤ argOf c 0 / 256 ∨ 64 ≤ argOf c 0 % 256 then d.complete c 2 0
  else (d.byHandle (argOf c 0)).elim (d.complete c 0x45 0) (fun r => f r.1 r.2.1 r.2.2)

/-- ENC_RELEASE (R445): bytes of OUT are free again, and a slice that waits may be emitted. -/
def Dev.encRelease (d : Dev) (c : JobCmd) : Dev :=
  d.onOpenHandle c (fun k s x =>
    if x.outUsed < argOf c 1 then d.complete c 2 0
    else
      let x := { x with outUsed := x.outUsed - argOf c 1 }
      let d := (d.setEnc k s x).complete c 0 0
      match x.current, x.held with
      | some p, some cs => d.codedSlice k s { x with held := none } p cs
      | _, _ => d)

/-- ENC_CLOSE (R444): completes after the last picture's last slice. -/
def Dev.encClose (d : Dev) (c : JobCmd) : Dev :=
  d.onHandle c 1 (fun k s x =>
    let x := { x with closing := some c }
    if x.idle then (d.setEnc k s x).endEnc k x else d.setEnc k s x)

/-- MED_KEYREQ (R443, R449): a register key request for an ENCODE context. -/
def execMedKeyreq (w : Writer) (slice session : Nat) (s : State) : Res :=
  s.byWriter w (fun d =>
    if !pageExists MED slice then d
    else
      let d := (d.setF R.MED_KEYREQ_SESSION slice session).setAct R.MED_KEYREQ_SESSION slice session
      match mfind (slice * 256 + session % 64) d.media with
      | some se => se.enc.elim d (fun x => d.setEnc (slice * 256 + session % 64) se { x with regKey := true })
      | none => d)

/-! ### A slice leaves service (R447) -/

/-- A session as it goes on elsewhere: from the first byte of its sample, or from the start of its picture. -/
def Session.again (s : Session) : Session :=
  { s with
    outBytes := 0, samples := 0, delivered := []
    enc := s.enc.map (fun x => { x with
      held := none, repeating := x.current.isSome, current := x.current.map (fun p => { p with slices := [], recon := [] }) }) }

/-- The sessions of a slice move to other slices in context order, or wait (R431, R447). -/
def Dev.medMove (d : Dev) (i : Nat) : Dev :=
  let ss := d.sessionsOf i
  let d := { d with media := d.media.filter (fun e => decide (e.1 / 256 ≠ i)) }
  ss.foldl (fun (d : Dev) s => d.openOrWait (.moved (i / 4) s.again)) d

end Sys2Proof.Machine
end

