-- ==== Sys2Proof/Machine/Firmware.lean ====
section
/-! DEFINITION. Firmware in flash: image validity, compatibility, the combination that boots, the selector, updates,
activations and the handover of MCF (R463 to R477, R504). -/

namespace Sys2Proof.Machine

/-! ### Banks and validity (R463, R466, R467) -/

/-- Bytes of a bank of a type (R463). -/
def slotBytes : Nat → Nat
  | 1 => 8 * 2 ^ 20 | 2 => 4 * 2 ^ 20 | 3 => 4 * 2 ^ 20 | 4 => 8 * 2 ^ 20 | 5 => 256 * 2 ^ 10
  | _ => 0

/-- n bytes at an offset. -/
def cut (bs : List Byte) (off n : Nat) : List Byte := (bs.drop off).take n

/-- The bytes are all zero. -/
def allZero (bs : List Byte) : Bool := bs.all (fun b => decide (b = 0))

/-- The BUILD values of entry k of a manifest's payload (R468). -/
def manifestEntry (payload : List Byte) (k : Nat) : List Nat :=
  (List.range 4).map (fun t => leNat (cut payload (64 + 32 * k + 4 * t) 4))

/-- The reserved bytes of a header and of a manifest's payload are zero, and MAGIC and HDR_VERSION are right (R465, R466,
R468). -/
def headerGood (bs : List Byte) : Bool :=
  let p := bs.drop 4096
  decide (leNat (cut bs 0 4) = 0x45465748) && decide (leNat (cut bs 5 1) = 1) && allZero (cut bs 0x18 8)
    && allZero (cut bs 0x32 14) && allZero (cut bs 0xC74 908)
    && (decide (leNat (cut bs 4 1) ≠ 5) || (allZero (cut p 4 4) && allZero (cut p 40 24)
      && (List.range (leNat (cut p 0 4))).all (fun k => allZero (cut p (80 + 32 * k) 16))))

/-- What the bytes of an image or manifest say, header first (R465, R466, R468): its fields by their offsets, its
measurements, and its checks against the firmware key hash of the fuses. Whether both signatures verify comes from the
sender (log entry 24). -/
def FwImage.ofBytes (keyHash bs : List Byte) (sigsGood : Bool) : FwImage :=
  let f (off n : Nat) : Nat := leNat (cut bs off n)
  let payload := cut bs 4096 (f 0x10 8)
  let manifest := decide (f 4 1 = 5)
  { typ := f 4 1, iface := f 6 2, build := f 8 4, svn := f 0xC 4, length := f 0x10 8
    intervals := (List.range 4).map (fun k => (f (0x20 + 4 * k) 2, f (0x22 + 4 * k) 2))
    resultRev := f 0x30 2
    sigsGood := sigsGood
    digestGood := decide (payload.length = f 0x10 8) && decide (sha384 payload = cut bs 0x40 48)
    reservedZero := headerGood bs
    keyHashGood := decide (sha384 (cut bs 0x70 96 ++ cut bs 0xD0 56) = keyHash)
    stable := if manifest then leNat (cut payload 8 32) else 0
    tested := if manifest then (List.range (leNat (cut payload 0 4))).map (manifestEntry payload) else []
    headerHash := sha384 (bs.take 4096)
    payloadHash := sha384 payload }

/-- The image in a bank (0 A, 1 B) of a type. -/
def Dev.bank (d : Dev) (t b : Nat) : Option FwImage := mfind (2 * t + b) d.nv.banks

/-- The fused floor of a type (R500). -/
def Dev.floorOf (d : Dev) (t : Nat) : Nat := d.nv.svnFloors.getD (t - 1) 0

/-- Every condition of R466 but those that a slot or a floor sets. -/
def imageSound (im : FwImage) : Bool := im.keyHashGood && im.sigsGood && im.digestGood && im.reservedZero

/-- The image fits a bank of a type. -/
def imageFits (t : Nat) (im : FwImage) : Bool := decide (4096 + im.length ≤ slotBytes t)

/-- An image is valid in a bank of a type (R466). -/
def Dev.imageValid (d : Dev) (t : Nat) (im : FwImage) : Bool :=
  decide (im.typ = t) && imageFits t im && imageSound im && decide (d.floorOf t ≤ im.svn)

/-- The valid image in a bank. -/
def Dev.validBank (d : Dev) (t b : Nat) : Option FwImage := (d.bank t b).filter (fun im => d.imageValid t im)

/-- X's FW_IFACE lies within Y's interval for X's type (R467). -/
def acceptedBy (x y : FwImage) : Bool :=
  let i := y.intervals.getD (x.typ - 1) (0, 0)
  decide (i.1 ≤ x.iface) && decide (x.iface ≤ i.2)

/-- Two images are compatible (R467). -/
def imagesAgree (x y : FwImage) : Bool := acceptedBy x y && acceptedBy y x

/-- Every pair of a combination is compatible (R467). -/
def comboOk : List FwImage → Bool
  | [] => true
  | x :: xs => xs.all (fun y => imagesAgree x y) && comboOk xs

/-! ### The manifest in force (R468) -/

/-- The manifest bank in force: the valid one with the higher BUILD, the lower bank on a tie. -/
def Dev.manifestBank (d : Dev) : Option Nat :=
  match d.validBank 5 0, d.validBank 5 1 with
  | some a, some b => if a.build < b.build then some 1 else some 0
  | some _, none => some 0
  | none, some _ => some 1
  | none, none => none

/-- The manifest of a bank, when one is in force. -/
def Dev.manifestOf (d : Dev) (m : Option Nat) : Option FwImage := m.bind (fun b => d.bank 5 b)

/-- A combination is tested under a manifest (R468). -/
def testedUnder (m : Option FwImage) (ims : List FwImage) : Bool :=
  m.elim false (fun x => x.tested.contains (ims.map (·.build)))

/-- GLB_DEV_STABLE under a manifest: bit 0 only when none is in force (R468). -/
def stableUnder (m : Option FwImage) : Nat := m.elim 1 (·.stable)

/-! ### The combination that boots (R464, R469) -/

/-- The 16 combinations by the number of swaps, then by v (R469). -/
def comboOrder : List Nat := [0, 1, 2, 4, 8, 3, 5, 6, 9, 10, 12, 7, 11, 13, 14, 15]

/-- The banks of MCF, CMC, LKF and MEF in combination v: the preferred one, or the other where v swaps (R464, R469). -/
def comboBanks (prefer v : Nat) : List Nat :=
  (List.range 4).map (fun k => if bitOf prefer k = bitOf v (3 - k) then 0 else 1)

/-- The images in the banks named, when each is valid. -/
def Dev.imagesIn (d : Dev) (bs : List Nat) : Option (List FwImage) := (bs.zipIdx).mapM (fun x => d.validBank (x.2 + 1) x.1)

/-- The first combination of a list that is valid and compatible, and whether one before it was skipped as
incompatible (R469). -/
def Dev.firstCombo (d : Dev) (prefer : Nat) : List Nat → Bool × Option (List Nat × List FwImage)
  | [] => (false, none)
  | v :: vs =>
    let bs := comboBanks prefer v
    match d.imagesIn bs with
    | none => d.firstCombo prefer vs
    | some ims =>
      if comboOk ims then (false, some (bs, ims))
      else (true, (d.firstCombo prefer vs).2)

/-- The combination that the boot ROM boots (R469). -/
def Dev.bootCombo (d : Dev) : Bool × Option (List Nat × List FwImage) := d.firstCombo d.bootPrefer comboOrder

/-- Some bank of a type is not valid (R479). -/
def Dev.verifyFail (d : Dev) (t : Nat) : Bool := (d.validBank t 0).isNone || (d.validBank t 1).isNone

/-- The status fields of the running images (R467, R479); BANK shows the banks. -/
def Dev.showFirmware (d : Dev) (ims : List FwImage) : Dev :=
  let im (k : Nat) (f : FwImage → Nat) : Nat := (ims[k]?).elim 0 f
  let d := (List.range 4).foldl (fun d k => d.setF (R.PWR_FW_BUILD k) 0 (im k (·.build))) d
  let d := (d.setF R.PWR_FW_IFACE_LO_MCF 0 (im 0 (·.iface))).setF R.PWR_FW_IFACE_LO_CMC 0 (im 1 (·.iface))
  let d := (d.setF R.PWR_FW_IFACE_HI_LKF 0 (im 2 (·.iface))).setF R.PWR_FW_IFACE_HI_MEF 0 (im 3 (·.iface))
  let d := (d.setF R.PWR_FW_RESULT_REV_CMC 0 (im 1 (·.resultRev))).setF R.PWR_FW_RESULT_REV_MEF 0 (im 3 (·.resultRev))
  d.setF R.PWR_FW_STATUS_BANK 0 ((d.pwr.running.zipIdx.map (fun x => x.1 * 2 ^ x.2)).sum)

/-- The four images that run. -/
def Dev.runningImages (d : Dev) : List FwImage := (d.pwr.running.zipIdx).filterMap (fun x => d.bank (x.2 + 1) x.1)

/-- Steps 1 and 2 of R471: the combination, the manifest and the status fields; false when nothing boots (R470). -/
def Dev.loadFirmware (d : Dev) : Bool × Dev :=
  let c := d.bootCombo
  let m := d.manifestBank
  let fail := ((List.range 4).map (fun k => b2n (d.verifyFail (k + 1)) * 2 ^ k)).sum
  let d := { d with pwr := { d.pwr with booted := true, manifest := m } }
  let d := ((d.setF R.PWR_FW_STATUS_VERIFY_FAIL 0 fail).setF R.PWR_FW_STATUS_MANIFEST_VALID 0 (b2n m.isSome)).setF
    R.PWR_FW_STATUS_MANIFEST_BANK 0 (m.getD 0)
  let d := d.setF R.PWR_FW_STATUS_SKIPPED 0 (b2n c.1)
  match c.2 with
  | none => (false, d.setF R.PWR_FW_STATUS_BOOT 0 2)
  | some (bs, ims) =>
    let t := testedUnder (d.manifestOf m) ims
    let d := { d with pwr := { d.pwr with running := bs } }
    (true, (d.setF R.PWR_FW_STATUS_BOOT 0 (b2n (!t))).showFirmware ims)

/-- GLB_DEV_FEATURES under the combination that booted (R59, R60). -/
def offeredFeatures (tested : Bool) (stable : Nat) : Nat :=
  if tested then 0x3BFF else 0x400 ||| (stable &&& 0x3FFF)

/-- The feature words become valid (R58, R60, R469, R471). -/
def Dev.offerFeatures (d : Dev) : Dev :=
  let tested := decide (d.getF R.PWR_FW_STATUS_BOOT 0 = 0)
  let stable := stableUnder (d.manifestOf d.pwr.manifest)
  let d := (d.setFeatureWord R.GLB_DEV_FEATURES (offeredFeatures tested stable)).setFeatureWord R.GLB_DEV_MANDATORY
    (if tested then 1 else 0x401)
  (d.setFeatureWord R.GLB_DEV_STABLE stable).setF R.GLB_NEG_STATUS_COMBO_UNTESTED 0 (b2n (!tested))

/-! ### The selector (R464) -/

/-- Rewrites the selector: the failing copy or the one with the lower SEQ, with the higher SEQ plus one. -/
def newSelectors (sels : List (Option (Nat × Nat))) (prefer : Nat) : List (Option (Nat × Nat)) :=
  match sels with
  | [some a, some b] => if a.1 ≥ b.1 then [some a, some (a.1 + 1, prefer)] else [some (b.1 + 1, prefer), some b]
  | [some a, none] => [some a, some (a.1 + 1, prefer)]
  | [none, some b] => [some (b.1 + 1, prefer), some b]
  | _ => [some (1, prefer), none]

/-- The selector prefers a bank of a type from now on. -/
def Dev.preferBank (d : Dev) (t b : Nat) : Dev :=
  let p := d.bootPrefer
  let p' := if b = 1 then setBit p (t - 1) else clearBits p (2 ^ (t - 1))
  { d with nv := { d.nv with selectors := newSelectors d.nv.selectors p' } }

/-- As `preferBank`, when PWR_UPD_CTRL.SELECT is 1 (R474). -/
def Dev.preferSelected (d : Dev) (t b : Nat) : Dev := if d.getF R.PWR_UPD_CTRL_SELECT 0 = 1 then d.preferBank t b else d

/-! ### Updates (R473, R474) -/

/-- The bank of a type that runs, or the manifest bank in force. -/
def Dev.bankInUse (d : Dev) (t : Nat) : Option Nat :=
  if t = 5 then d.pwr.manifest
  else if d.getF R.PWR_FW_STATUS_BOOT 0 = 2 ∨ d.pwr.booted = false then none else d.pwr.running[t - 1]?

/-- The bank that an update erases: the one that does not run. With none running, the first that is not valid, else
the one not preferred (log entry 24). -/
def Dev.targetBank (d : Dev) (t : Nat) : Nat :=
  match d.bankInUse t with
  | some b => 1 - b
  | none => if (d.validBank t 0).isNone then 0 else if (d.validBank t 1).isNone then 1
    else 1 - b2n (bitOf d.bootPrefer (t - 1))

/-- An update ends: CODE, and UPDATE_FAILED for a code other than OK. -/
def Dev.updateEnds (d : Dev) (code : Nat) : Dev :=
  let d := { d with pwr := { d.pwr with update := none } }.setF R.PWR_UPD_STATUS_CODE 0 code
  if code = 2 then d.setF R.PWR_UPD_STATUS_PROGRESS 0 255 else d.setErr PWR 0 20

/-- PWR_UPD_STATUS.CODE is BUSY. -/
def Dev.updating (d : Dev) : Bool := d.pwr.update.isSome

/-- The source of an update (R479). -/
def Dev.updateSource (d : Dev) : Nat :=
  d.getF R.PWR_UPD_SRC_LO_ADDR_LO 0 * 64 + d.getF R.PWR_UPD_SRC_HI_ADDR_HI 0 * 2 ^ 32

/-- The bytes of an update's source that its length names. -/
def Dev.updateBytes (d : Dev) : List Byte := d.bytes d.updateSource (d.getF R.PWR_UPD_LEN_BYTES 0)

/-- The image at the source of an update (R473); an image with a poisoned word is not sound (R297). -/
def Dev.sourceImage (d : Dev) (sigsGood : Bool) : FwImage :=
  FwImage.ofBytes d.nv.fwKeyHash d.updateBytes
    (sigsGood && (d.poisonIn d.updateSource (d.getF R.PWR_UPD_LEN_BYTES 0)).isNone)

/-- FW_UPDATE_WRITE (R473, R474): starts an update with the image that stands at the source; ignored with LOCKED_WRITE
while one runs. `sigsGood` tells whether both of its signatures verify. -/
def execFwUpdateWrite (w : Writer) (sigsGood : Bool) (s : State) : Res :=
  s.byWriter w (fun d =>
    if d.updating then d.lockedWrite PWR 0
    else
      let n := d.getF R.PWR_UPD_LEN_BYTES 0
      let window := d.inJob d.updateSource n
      let d := if window then d.noteRead d.updateSource n else d
      let job := UpdateJob.write (d.getF R.PWR_UPD_CTRL_TYPE 0) window (d.sourceImage sigsGood)
      ({ d with pwr := { d.pwr with update := some job } }.setF R.PWR_UPD_STATUS_CODE 0 1).setF R.PWR_UPD_STATUS_PROGRESS 0 0)

/-- The refusal of an update, in the order of R473; 0 for none. -/
def Dev.updateCode (d : Dev) (t : Nat) (window : Bool) (im : FwImage) : Nat :=
  if !window then 10
  else if t = 0 ∨ 5 < t ∨ imageSound im = false then 3
  else if im.svn < d.floorOf t then 4
  else if d.bankInUse t = some (d.targetBank t) then 5
  else 0

/-- Programs a bank: erased when the image does not fit or the read-back fails (R473). -/
def Dev.programBank (d : Dev) (t b : Nat) (im : FwImage) (good : Bool) : Bool × Dev :=
  let k := 2 * t + b
  if imageFits t im && good then
    (true, Dev.bump { d with nv := { d.nv with banks := mput k im d.nv.banks },
                             pwr := { d.pwr with written := mput t b d.pwr.written } } PWR 0 7 (4096 + im.length))
  else (false, { d with nv := { d.nv with banks := mdel k d.nv.banks }, pwr := { d.pwr with written := mdel t d.pwr.written } })

/-- FW_UPDATE_COMPLETE (R473, R474): the update ends with OK or a code. -/
def execFwUpdateComplete (readBackGood : Bool) (s : State) : Res :=
  s.onDev (fun d =>
    match d.pwr.update with
    | some (.write t window im) =>
      let code := d.updateCode t window im
      if code ≠ 0 then d.updateEnds code
      else
        let b := d.targetBank t
        let r := d.programBank t b im readBackGood
        if r.1 then (r.2.preferSelected t b).updateEnds 2 else r.2.updateEnds 9
    | _ => d)

/-! ### Activation and handover (R446, R475 to R477) -/

/-- The images that would run with a new one. -/
def Dev.imagesWith (d : Dev) (t : Nat) (im : FwImage) : List FwImage := listSet d.runningImages (t - 1) im

/-- The refusal of an activation, in the order of R475; 0 for none. An image that R466 does not let load is refused first,
as BAD_IMAGE (log entry 24). -/
def Dev.activateCode (d : Dev) (t : Nat) (im : FwImage) : Nat :=
  let ims := d.imagesWith t im
  let old := (d.runningImages[t - 1]?).elim 0 (·.resultRev)
  let ph := d.getF R.SOW_RECOVERY_PHASE 0
  if !d.imageValid t im then 3
  else if !comboOk ims then 6
  else if !testedUnder (d.manifestOf d.pwr.manifest) ims then 7
  else if d.jobActive && d.feature 1 && decide (im.resultRev ≠ old) then 8
  else if ph ≠ 0 ∧ ph ≠ 6 then 12
  else 0

/-- The new bank of a type runs (R475, R477): the status fields follow, and the selector when SELECT is 1. -/
def Dev.runBank (d : Dev) (t b : Nat) : Dev :=
  let d := { d with pwr := { d.pwr with running := listSet d.pwr.running (t - 1) b, written := mdel t d.pwr.written } }
  (d.showFirmware d.runningImages).preferSelected t b

/-- An activation ends with a code. -/
def Dev.activationEnds (d : Dev) (code : Nat) : Dev :=
  { d with pwr := { d.pwr with update := none, handAsk := none, handover := false } }.setF R.PWR_UPD_STATUS_CODE 0 code

/-- An activation is refused; REV_LOCK of MEF is reported on the MED pages (R446). -/
def Dev.activationRefused (d : Dev) (t code : Nat) : Dev :=
  let d := d.setF R.PWR_UPD_STATUS_CODE 0 code
  if code = 8 ∧ t = 4 then (List.range 8).foldl (fun d i => d.setErr MED i 22) d else d

/-- FW_ACTIVATE (R446, R474, R475, R477): the newly written bank of TYPE goes into service. MCF waits for its
handover; the other images change instance by instance without effect on any result, in this one command (log entry
24). A manifest, or a type with no newly written bank, is not activated. -/
def execFwActivate (w : Writer) (s : State) : Res :=
  s.byWriter w (fun d =>
    let t := d.getF R.PWR_UPD_CTRL_TYPE 0
    if d.updating then d.lockedWrite PWR 0
    else if t = 0 ∨ 4 < t then d
    else
      match mfind t d.pwr.written with
      | none => d
      | some b =>
        match d.bank t b with
        | none => d
        | some im =>
          let code := d.activateCode t im
          if code ≠ 0 then d.activationRefused t code
          else if t = 1 then
            { d with pwr := { d.pwr with update := some (.activate 1), handAsk := some d.step } }.setF R.PWR_UPD_STATUS_CODE 0 1
          else (d.runBank t b).activationEnds 2)

/-- MCF_HANDOVER (R476): a boundary has been reached since the activation, or no job is active: the new MCF starts
from the handover block. -/
def execMcfHandover (s : State) : Res :=
  s.onDev (fun d =>
    match d.pwr.handAsk with
    | some n => if d.jobActive && decide (d.step = n) then d else { d with pwr := { d.pwr with handAsk := none, handover := true } }
    | none => d)

/-- The new MCF has serviced the watchdog: the handover has succeeded (R476). -/
def Dev.handoverDone (d : Dev) : Dev :=
  if d.pwr.handover then
    match mfind 1 d.pwr.written with
    | some b => (d.runBank 1 b).activationEnds 2
    | none => d
  else d

/-- HANDOVER_WATCHDOG_TIMEOUT (R476): the old MCF resumes from its own area; the device does not reset. -/
def execHandoverWatchdogTimeout (s : State) : Res :=
  s.onDev (fun d => if d.pwr.handover then (d.activationEnds 11).setErr PWR 0 21 else d)

end Sys2Proof.Machine
end

