-- ==== Sys2Proof/Machine/Security.lean ====
section
/-! DEFINITION. Attestation, the LMS signing state, SVN floors, probes, authorisations and the trust table (R500 to
R515). -/

namespace Sys2Proof.Machine

/-! ### Reports (R505, R507 to R509) -/

/-- Bytes cut or padded with zeros to a length. -/
def fitBytes (n : Nat) (bs : List Byte) : List Byte := (bs ++ List.replicate n 0).take n

/-- One FW entry of a report (R509). -/
def fwEntry (bank : Nat) (im : FwImage) : List Byte :=
  leBytes 1 im.typ ++ leBytes 1 bank ++ leBytes 2 im.iface ++ leBytes 4 im.build ++ leBytes 4 im.svn
    ++ leBytes 2 im.resultRev ++ leBytes 2 0 ++ fitBytes 48 im.headerHash ++ fitBytes 48 im.payloadHash

/-- The five FW entries: the running images and the manifest in force; zeros where there is none (R509). -/
def Dev.fwEntries (d : Dev) : List Byte :=
  let one (b : Option Nat) (t : Nat) : List Byte :=
    match b with
    | some b => (d.bank t b).elim (fitBytes 112 []) (fwEntry b)
    | none => fitBytes 112 []
  ((List.range 4).flatMap (fun k => one (d.pwr.running[k]?) (k + 1))) ++ one d.pwr.manifest 5

/-- Bytes 0x000 to 0x2FF of the report that leaf q signs (R509). -/
def Dev.reportBody (d : Dev) (q : Nat) (nonce : List Byte) : List Byte :=
  let flags := d.getF R.GLB_DEV_NUM_VALID 0 + 2 * b2n d.feedValid + 4 * d.getF R.GLB_NEG_STATUS_COMBO_UNTESTED 0
    + 8 * d.getF R.SOW_PAIR_STATUS_OVERRIDE 0
  leBytes 4 0x41545354 ++ leBytes 2 1 ++ leBytes 2 d.devNum ++ leBytes 4 flags
    ++ leBytes 2 (d.pins.feedId + 256 * d.pins.feedPar) ++ leBytes 1 d.nv.grade ++ leBytes 1 d.nv.fusePolicy
    ++ fitBytes 16 d.nv.serial ++ leBytes 2 d.logicalCells ++ leBytes 1 d.nv.spares.length
    ++ leBytes 1 d.sparesLeft.length ++ leBytes 4 q ++ (List.range 5).flatMap (fun k => leBytes 1 (nthOr0 d.nv.svnFloors k))
    ++ leBytes 3 0 ++ leBytes 8 d.step ++ leBytes 8 0 ++ fitBytes 48 nonce ++ d.ownPrint
    ++ leBytes 32 (d.featureWord R.GLB_FEATURES_ACTIVE) ++ d.fwEntries ++ leBytes 1 (d.getF R.PWR_FW_STATUS_BOOT 0)
    ++ leBytes 15 0

/-- The report with its two signatures under the identity keys that the boot derived (R501, R509). -/
def Dev.report (d : Dev) (q : Nat) (nonce : List Byte) : List Byte :=
  let body := d.reportBody q nonce
  let sigs := d.pwr.keys.elim [] (fun k => fitBytes 96 (ecSign k.ecKey body) ++ fitBytes 2828 (lmsSignature k.ident k.seed q body))
  body ++ fitBytes 2924 sigs

/-- Takes leaf q: burns the block fuse when it is due and writes q + 1 (R505); LMS_LOW once fewer than 4,096 leaves
remain (R507). -/
def Dev.takeLeaf (d : Dev) : Dev :=
  let q := d.nv.lmsQ
  let f := if 1024 * d.nv.lmsBlocks ≤ q then q / 1024 + 1 else d.nv.lmsBlocks
  let d := { d with nv := { d.nv with lmsQ := q + 1, lmsBlocks := f } }
  if 2 ^ 20 - (q + 1) < 4096 then d.setErr SEC 0 18 else d

/-- The flash fails while leaf q is taken (R505): the signature is withheld. Which of the two steps failed, and so what
stands in the fuses and in the record, is a free value; the leaf never signs twice. -/
def Dev.leafLost (d : Dev) : Dev :=
  let r := d.draw
  let d := r.2
  let q := d.nv.lmsQ
  let f := if 1024 * d.nv.lmsBlocks ≤ q then q / 1024 + 1 else d.nv.lmsBlocks
  { d with nv := { d.nv with lmsQ := q + r.1 % 3 / 2, lmsBlocks := if r.1 % 3 = 0 then d.nv.lmsBlocks else f } }

/-- A request ends with a code other than OK (R514). -/
def Dev.reportRefused (d : Dev) (code : Nat) : Dev :=
  let d := if code = 3 then d.bump SEC 0 4 1 else d
  d.setErr SEC 0 19

/-- The refusal of a report request, 0 for none: ACTIVATING, EXHAUSTED, RATE, in an order that no rule gives (R507,
R508, log entry 25). -/
def Dev.reportCode (d : Dev) : Nat :=
  if d.pwr.update.elim false (fun u => match u with
    | .activate _ => true
    | _ => false) then 6
  else if 2 ^ 20 ≤ d.nv.lmsQ then 4
  else if d.getF R.SEC_CMD_STAT_TOKENS 0 = 0 then 3
  else 0

/-- A request that is answered: a token and a leaf are used, and the report is signed (R505, R508, R514). -/
def Dev.signReport (d : Dev) (nonce : List Byte) : List Byte × Dev :=
  let d := d.setF R.SEC_CMD_STAT_TOKENS 0 (d.getF R.SEC_CMD_STAT_TOKENS 0 - 1)
  let q := d.nv.lmsQ
  let d := d.takeLeaf
  (d.report q nonce, d.bump SEC 0 0 1)

/-- A request whose signature is withheld because the flash fails (R505): its token is gone. -/
def Dev.signLost (d : Dev) : Dev :=
  (d.setF R.SEC_CMD_STAT_TOKENS 0 (d.getF R.SEC_CMD_STAT_TOKENS 0 - 1)).leafLost

/-- SEC_DST (R515). -/
def Dev.secDst (d : Dev) : Nat := d.getF R.SEC_DST_LO_ADDR_LO 0 * 64 + d.getF R.SEC_DST_HI_ADDR_HI 0 * 2 ^ 32

/-- A host request ends with a code. -/
def Dev.secEnds (d : Dev) (code : Nat) : Dev :=
  let d := d.setF R.SEC_CMD_STAT_CODE 0 code
  if code = 2 then d else d.reportRefused code

/-- Twelve words of a register group as 48 bytes. -/
def Dev.words12 (d : Dev) (reg : Nat → Field) : List Byte := (List.range 12).flatMap (fun k => leBytes 4 (d.getF (reg k) 0))

/-- ATTEST (R505, R507 to R509, R515): the report goes to SEC_DST. -/
def execAttest (w : FlashCmd) (s : State) : Res :=
  s.byWriter w.who (fun d =>
    let a := d.secDst
    if !d.inJob a 3692 then d.secEnds 5
    else if d.reportCode ≠ 0 then d.secEnds d.reportCode
    else if !w.flashGood then d.signLost.secEnds 7
    else
      let r := d.signReport (d.words12 R.SEC_NONCE)
      (r.2.write a r.1).secEnds 2)

/-- CERT (R503, R515): the device certificate, 4 KiB, goes to SEC_DST. -/
def execCert (w : Writer) (s : State) : Res :=
  s.byWriter w (fun d =>
    let a := d.secDst
    if !d.inJob a 4096 then d.secEnds 5 else (d.write a (fitBytes 4096 d.nv.certificate)).secEnds 2)

/-- ATTEST_TOKEN_REFILL (R508): one token every 450 s, at most 8. -/
def execAttestTokenRefill (s : State) : Res :=
  s.onDev (fun d => d.setF R.SEC_CMD_STAT_TOKENS 0 (min 8 (d.getF R.SEC_CMD_STAT_TOKENS 0 + 1)))

/-- A live port's neighbour is the device. -/
def Dev.liveNeighbour (d : Dev) (n : Nat) : Bool :=
  (List.range 32).any (fun i => d.live i && (d.port i).neighbour.elim false (fun x => !x.isSwitch && decide (x.device = some n)))

/-- ATTEST_REQ (R508, R513): from the partner or a live neighbour, while PEER_ATTEST is 1; BAD_OP otherwise. -/
def execAttestReq (a : AttestPacket) (s : State) : Res :=
  let p := a.pkt
  s.onDev (fun d => d.mgmt 0x40 p (fun d =>
    if d.actF R.SEC_TRUST_CTRL_PEER_ATTEST 0 = 1 ∧ (d.isPartner p.src || d.liveNeighbour p.src) = true then
      let code := d.reportCode
      if code ≠ 0 then (d.reportRefused code).sendMgmt p.src 0x41 { packetOf 0x30 with status := code }
      else if !a.flashGood then (d.signLost.reportRefused 7).sendMgmt p.src 0x41 { packetOf 0x30 with status := 7 }
      else
        let r := d.signReport p.payload
        r.2.sendMgmt p.src 0x41 { packetOf 0x30 with status := 2, payload := r.1 }
    else d.opStatus p 5))

/-- ATTEST_RESP (R513): the flow takes it; a request of this device's own has no register, so nothing waits for the
report. -/
def execAttestResp (p : Packet) (s : State) : Res := s.onDev (fun d => d.mgmt 0x41 p (fun d => d))

/-! ### Probes (R510, R513) -/

/-- ID_PROBE: answered with this module's fingerprint. -/
def execIdProbe (p : Packet) (s : State) : Res :=
  s.onDev (fun d => d.mgmt 0x42 p (fun d => d.sendMgmt p.src 0x43 { packetOf 0x30 with op1 := p.op1, payload := d.ownPrint }))

/-- ID_REPLY: the fingerprint is compared; a mismatch closes the flow that was probed. -/
def execIdReply (p : Packet) (s : State) : Res :=
  s.onDev (fun d => d.mgmt 0x43 p (fun d =>
    let w := d.flow p.op1
    if w.state = 0 ∨ w.peer ≠ p.src then d
    else
      let r := d.compareTrust 2 0 p.src (p.payload.take 48)
      if r.1 then r.2 else (r.2.closeFlow p.op1).poolFreed))

/-! ### SVN floors (R504) -/

/-- The bank that commits read for a type: the running one, or the manifest in force. -/
def Dev.svnImage (d : Dev) (t : Nat) : Option (Nat × FwImage) :=
  (d.bankInUse t).bind (fun b => (d.bank t b).map (fun im => (b, im)))

/-- The code of a commit of a type and the floor that it gives (R504). With no image in use the floor does not rise. -/
def Dev.svnCode (d : Dev) (t : Nat) : Nat × Nat :=
  let old := d.floorOf t
  if d.jobActive then (3, old)
  else
    match d.svnImage t with
    | none => (5, old)
    | some (b, im) =>
      let new := min im.svn 64
      if (d.validBank t (1 - b)).elim false (fun x => decide (x.svn < new)) then (4, old)
      else if new ≤ old then (5, old)
      else (2, new)

/-- SVN_COMMIT (R504, R515): a write of SEC_SVN_CTRL with COMMIT = 1 and a TYPE; another TYPE than 1 to 5 is only
stored. -/
def execSvnCommit (w : Writer) (typ : Nat) (s : State) : Res :=
  s.byWriter w (fun d =>
    let d := (d.setF R.SEC_SVN_CTRL_TYPE 0 typ).setAct R.SEC_SVN_CTRL_TYPE 0 typ
    let t := typ % 8
    if t = 0 ∨ 5 < t then d
    else
      let r := d.svnCode t
      { d with nv := { d.nv with svnFloors := listSet d.nv.svnFloors (t - 1) r.2 } }.setF R.SEC_SVN_STATUS_CODE 0 r.1)

/-! ### Authorisations (R511, R512) -/

/-- Ports held at step 3 by a device number repeat step 3 (R511). -/
def Dev.identifyHeld (d : Dev) (dev : Nat) : Dev :=
  (List.range 32).foldl (fun d i =>
    let q := d.port i
    match q.neighbour with
    | some n => if q.train = .identity ∧ n.device = some dev then d.identify i n else d
    | none => d) d

/-- An authorisation or a revocation ends: counted, CODE OK (R511, R514). -/
def Dev.authEnds (d : Dev) (dev : Nat) : Dev :=
  (((d.bump SEC 0 3 1).setF R.SEC_AUTH_STATUS_DEVICE 0 dev).setF R.SEC_AUTH_STATUS_CODE 0 2).identifyHeld dev

/-- An authorisation or a revocation that the flash does not take (R511, R514, R515): the entry stays. -/
def Dev.authLost (d : Dev) (dev : Nat) : Dev :=
  ((d.setF R.SEC_AUTH_STATUS_DEVICE 0 dev).setF R.SEC_AUTH_STATUS_CODE 0 3).setErr SEC 0 20

/-- AUTHORISE (R511): installs SEC_AUTH_FP for SEC_AUTH_DEV. -/
def execAuthorise (w : FlashCmd) (s : State) : Res :=
  s.byWriter w.who (fun d =>
    let dev := d.getF R.SEC_AUTH_DEV_DEVICE 0
    if !w.flashGood then d.authLost dev
    else (d.setTrust dev (d.words12 R.SEC_AUTH_FP)).authEnds dev)

/-- REVOKE (R511): empties the entry of SEC_AUTH_DEV. -/
def execRevoke (w : FlashCmd) (s : State) : Res :=
  s.byWriter w.who (fun d =>
    let dev := d.getF R.SEC_AUTH_DEV_DEVICE 0
    if !w.flashGood then d.authLost dev
    else ({ d with nv := { d.nv with trust := mdel dev d.nv.trust } }).authEnds dev)

/-- TRUST_TABLE_CLEAR (R512): empties the table; with a job active only LOCKED_WRITE. -/
def execTrustTableClear (w : Writer) (s : State) : Res :=
  s.byWriter w (fun d => if d.jobActive then d.lockedWrite SEC 0 else { d with nv := { d.nv with trust := [] } })

end Sys2Proof.Machine
end

