-- ==== Sys2Proof/Machine/Jobs.lean ====
section
/-! DEFINITION. Job commands: their order, their start, the runs of plots, the start of a job, and the fetch of
submission entries (R18, R31, R36, R68, R95, R99, R249, R269, R270, R274, R342, R373, R376, R379, R446, R520 to
R526). -/

namespace Sys2Proof.Machine

/-! ### Runs of plots (R95, R99, R274, R523) -/

/-- The first phase number that no earlier run of the step has used (R185). -/
def PlotRun.nextPhase (r : PlotRun) : Nat := (r.phases.map (fun e => e.1 + 1)).foldl max 0

/-- A block takes its first work of the job: READY becomes RUNNING (R44). -/
def Dev.takesWork (d : Dev) (c i : Nat) : Dev := if d.blk c i = stReady then d.setBlk c i stRunning else d

/-- PLOT_RUN begins: the program is loaded into the cells of the plot, which start at its entry; a plot without a
cell in service borrows (R31). A plot that holds no cell is an argument outside its range (log entry 18). -/
def Dev.plotRun (d : Dev) (c : JobCmd) : Dev :=
  let k := argOf c 0
  let a := argOf c 1
  let n := argOf c 2
  if decide (64 ≤ k) || decide (65536 < n) || decide (16384 ≤ argOf c 3) || !argsClear c 4 || !d.plotActive k then
    d.complete c 2 0
  else if !d.inJob a n then d.complete c 4 0
  else
    let d := d.noteRead a n
    let r := d.plot k
    let d := d.setPlot k { r with cmd := some c, program := (a, n), code := d.bytes a n, base := r.nextPhase, halted := [], stopped := false, traps := [] }
    let d := ((d.members k).filterMap d.physOf).foldl (fun d p =>
      if d.getF R.CEL_SEQ_STATUS_RUN p = 1 ∨ d.getF R.CEL_SEQ_STATUS_RUN p = 2 then d else d.joinRun k p) d
    ((d.takesWork PLT k).takesWork TRL 0).borrow k

/-- The cells that run for plot k. -/
def Dev.runners (d : Dev) (k : Nat) : List Nat := (d.cells.filter (fun e => decide (e.2.plot = some k))).map (·.1)

/-- The mapped members of a plot that are in service and have not returned in the step. -/
def Dev.liveMembers (d : Dev) (k : Nat) : List Nat :=
  ((d.members k).filterMap d.physOf).filter (fun p => d.inService p && !d.isReturned CEL p)

/-- No DMA operation and no pass of a cell is in flight. -/
def Dev.cellQuiet (d : Dev) (p : Nat) : Bool := (d.cell p).dma.isEmpty && (d.cell p).passes.isEmpty

/-- The run of plot k is over (R36, R274): every cell of it has halted with nothing in flight, no tile waits for another cell,
and every set of its cells has been applied. -/
def Dev.runOver (d : Dev) (k : Nat) : Bool :=
  let r := d.plot k
  r.active && !r.halted.isEmpty && (d.liveMembers k).all (fun p => r.halted.contains p)
    && (d.runners k).all (fun p => decide (d.getF R.CEL_SEQ_STATUS_RUN p ≠ 1) && decide (d.getF R.CEL_SEQ_STATUS_RUN p ≠ 2))
    && (d.runners k ++ r.halted).all d.cellQuiet && r.phases.all (fun e => e.2.returned.isEmpty) && !d.sets.any (fun x => r.halted.contains x.cell)

/-! ### Beginning what is held (R36, R249, R269) -/

/-- A command begins by its opcode (R523). -/
def Dev.startCmd (d : Dev) (c : JobCmd) : Dev :=
  match c.opc with
  | 2 => d.plotRun c
  | 3 => d.ingest c
  | 4 => d.gradPlan c
  | 5 => d.gradDone c
  | 6 => d.positionLoad c
  | 7 => d.direct c
  | 8 => d.direct c
  | 9 => d.direct c
  | 10 => d.thnQueue false c
  | 11 => d.encOpen c
  | 12 => d.encPicture c
  | 13 => d.encKeyreq c
  | 14 => d.encRelease c
  | 15 => d.encClose c
  | _ => d

/-- The first held command that may begin; `ahead` is the part of command order before the list. -/
def Dev.nextHeld (d : Dev) (ahead : List OrderEntry) : List OrderEntry → Option JobCmd
  | [] => none
  | e :: es =>
    if decide (e.phase = .held) && decide (e.cmd.opc ≠ 1) && d.mayBegin ahead e.cmd then some e.cmd
    else d.nextHeld (ahead ++ [e]) es

/-- A held command is now running. -/
def Dev.markRunning (d : Dev) (c : JobCmd) : Dev :=
  { d with ctl := { d.ctl with order := d.ctl.order.map (fun (e : OrderEntry) => if e.cmd = c then { e with phase := .running } else e) } }

/-- Begins held commands, at most n. -/
def Dev.settleN : Nat → Dev → Dev
  | 0, d => d
  | n + 1, d =>
    match d.nextHeld [] d.ctl.order with
    | some c => Dev.settleN n ((d.markRunning c).begin c (fun d => d.startCmd c))
    | none => d

/-- Every held command that may begin does so. -/
def Dev.settle (d : Dev) : Dev := Dev.settleN d.ctl.order.length d

/-! ### The job commands -/

/-- STEP_MARK enters command order (R18, R36, R523). -/
def Dev.stepMark (d : Dev) (c : JobCmd) : Dev :=
  if !argsClear c 0 then d.complete c 2 0 else (d.enterOrder c .held).noteHeld

/-- STEP_MARK. -/
def execStepMark (c : JobCmd) (s : State) : Res := s.onDev (fun d => if c.opc = 1 then d.stepMark c else d)

/-- STEP_BOUNDARY (R11, R18, R36): the boundary is reached; held commands of the next step begin. -/
def execStepBoundary (m : BoundaryMeasure) (s : State) : Res := s.onDev (fun d => (d.stepBoundary m).settle)

/-- A job command of an opcode enters command order (R36). -/
def Dev.jobCommand (d : Dev) (opc : Nat) (c : JobCmd) : Dev :=
  if c.opc = opc then (d.issuePlaced c (fun d => d.startCmd c)).settle else d

/-- PLOT_RUN (R95, R523). -/
def execPlotRun (c : JobCmd) (s : State) : Res := s.onDev (fun d => d.jobCommand 2 c)

/-- INGEST (R405, R406). -/
def execIngest (c : JobCmd) (s : State) : Res := s.onDev (fun d => d.jobCommand 3 c)

/-- GRAD_PLAN (R270). -/
def execGradPlan (c : JobCmd) (s : State) : Res := s.onDev (fun d => d.jobCommand 4 c)

/-- GRAD_DONE (R274, R275). -/
def execGradDone (c : JobCmd) (s : State) : Res := s.onDev (fun d => d.jobCommand 5 c)

/-- POSITION_LOAD (R269). -/
def execPositionLoad (c : JobCmd) (s : State) : Res := s.onDev (fun d => d.jobCommand 6 c)

/-- ALL_GATHER (R351). -/
def execAllGather (c : JobCmd) (s : State) : Res := s.onDev (fun d => d.jobCommand 7 c)

/-- BROADCAST (R351). -/
def execBroadcast (c : JobCmd) (s : State) : Res := s.onDev (fun d => d.jobCommand 8 c)

/-- BARRIER (R351). -/
def execBarrier (c : JobCmd) (s : State) : Res := s.onDev (fun d => d.jobCommand 9 c)

/-- An encoder command: on a MED ring it begins at once, else in command order (R439, R520). -/
def Dev.encCommand (d : Dev) (opc : Nat) (c : JobCmd) : Dev :=
  if c.opc ≠ opc then d
  else if (d.ring c.port c.ring).kind = 3 then d.startCmd c
  else (d.issuePlaced c (fun d => d.startCmd c)).settle

/-- ENC_OPEN (R431, R444). -/
def execEncOpen (c : JobCmd) (s : State) : Res := s.onDev (fun d => d.encCommand 11 c)

/-- ENC_PICTURE (R439). -/
def execEncPicture (c : JobCmd) (s : State) : Res := s.onDev (fun d => d.encCommand 12 c)

/-- ENC_KEYREQ (R443). -/
def execEncKeyreq (c : JobCmd) (s : State) : Res := s.onDev (fun d => d.encCommand 13 c)

/-- ENC_RELEASE (R445). -/
def execEncRelease (c : JobCmd) (s : State) : Res := s.onDev (fun d => d.encCommand 14 c)

/-- ENC_CLOSE (R444). -/
def execEncClose (c : JobCmd) (s : State) : Res := s.onDev (fun d => d.encCommand 15 c)

/-- HARVEST (R279, R283): not held in command order (R520). -/
def execHarvest (c : JobCmd) (s : State) : Res := s.onDev (fun d => if c.opc = 16 then d.startHarvest c else d)

/-- PLOT_RUN_COMPLETE (R274): a run that is over completes, and its cells are free. -/
def execPlotRunComplete (plot : Nat) (s : State) : Res :=
  s.onDev (fun d =>
    match (d.plot plot).cmd with
    | some c =>
      if d.runOver plot then
        let d := (d.runners plot).foldl (fun (d : Dev) p => d.setCell p { d.cell p with plot := none }) d
        let d := d.setPlot plot { d.plot plot with cmd := none }
        (d.complete c 0 0).settle
      else d
    | none => d)

/-- BUCKET_EXCHANGE_START (R274 to R277). -/
def execBucketExchangeStart (bucket : Nat) (s : State) : Res := s.onDev (fun d => (d.startBucket bucket).settle)

/-! ### The start of a job (R18, R68, R278, R372, R373, R376, R379, R446) -/

/-- Why START is refused before the item table is checked: 0 for nothing (R68). -/
def Dev.startRefused (d : Dev) : Nat :=
  if d.getF R.GLB_NEG_STATUS_CODE 0 ≠ 2 then 1
  else if d.getF R.GLB_DEV_NUM_VALID 0 ≠ 1 then 2
  else if allPages.any (fun p => decide (d.blk p.1 p.2 ≠ stReady) && decide (d.blk p.1 p.2 ≠ stCloched)
      && decide (d.blk p.1 p.2 ≠ stRetired)) then 3
  else 0

/-- A sample cache built under another ENC_REV goes (R413, R446). -/
def Dev.checkCacheRev (d : Dev) : Dev :=
  let rev := d.getF R.PWR_FW_RESULT_REV_MEF 0
  if d.getF R.MEM_REGIONS_CACHE_GIB 0 = 0 ∨ d.nat (d.cacheBase + 8) 4 = rev then d
  else d.dropCache.writeRaw (d.cacheBase + 8) (leBytes 4 rev)

/-- The job starts: its commands are numbered from 0, nothing is sealed, the map of the PLT pages is resolved against the one
last in force (DESIGN CHOICE, log entry 40), the GSB is not checked, and step 0 opens (R11, R18, R19, R48, R109, R175, R265,
R278, R376, R379, R522). -/
def Dev.beginJob (d : Dev) : Dev :=
  let z := max 2 (min 8 (d.getF R.COL_BUCKET_INIT_CODE 0))
  let d := { d with
    train := Train.reset,
    ctl := { d.ctl with gsbChecked := false, waitBounds := false, noClose := false, endAsked := false, replayAsked := 0,
                        markHeld := false, heldMeasure := none, prevBusy := [], rebTried := false },
    sow := { d.sow with unsealed := [], baseSteps := [], recCopies := [], reached := 2 ^ 64 - 1, initCode := z, capNext := none,
                        replay := [], replayUntil := none, reexec := false, planAtOnce := false, planFirst := none, blindStep := none } }
  let d := (((d.setF R.GLB_JOB_STATUS_ACTIVE 0 1).setF R.PCI_JOB_NEXT 0 0).setF R.GLB_STEP 0 0).setBlk GLB 0 stRunning
  let d := ((d.setF R.SOW_LSN 0 0).setF R.SOW_LAST_SEALED 0 (2 ^ 64 - 1)).setF R.SOW_SEAL_STATUS_SEALED_VALID 0 0
  let d := ((d.setF R.SOW_MIRROR_STATUS_CAP 0 d.capBounds.2).setF R.COL_BUCKET_STATUS_CURRENT 0 z).setF R.COL_GRAD_DUP_COUNT 0 0
  let d := (((d.clearRing.setF R.NUM_RING_DROPPED_DROPPED 0 0).clearStats 0).clearStats 1).checkCacheRev
  let d := (d.resolveMap d.heldMap).gsbUnchecked
  (if d.streaming then d.startBase else d).freshStep

/-- JOB_START (R68): starts a job, or posts REFUSE; ignored while one is active. -/
def execJobStart (w : Writer) (s : State) : Res :=
  s.byWriter w (fun d =>
    if d.jobActive then d
    else if d.startRefused ≠ 0 then d.setF R.GLB_JOB_STATUS_REFUSE 0 d.startRefused
    else
      let r := d.checkItems
      if r.1 then (r.2.setF R.GLB_JOB_STATUS_REFUSE 0 0).beginJob.settle else r.2.setF R.GLB_JOB_STATUS_REFUSE 0 4)

/-! ### The fetch of submission entries (R520 to R526, R531, R532) -/

/-- A ring takes entries: enabled on the owner's port, an entry is there, and its completion ring has room. -/
def Ring.fetches (r : Ring) : Bool :=
  r.enabled && decide (r.head % 2 ^ 32 ≠ r.tail % 2 ^ 32) && decide ((2 ^ 32 + r.cqTail % 2 ^ 32 - r.cqHead % 2 ^ 32) % 2 ^ 32 < r.size)

/-- The command that a submission entry spells (R522). -/
def entryCmd (num port ring head : Nat) (bs : List Byte) : JobCmd :=
  let f (off n : Nat) : Nat := leNat ((bs.drop off).take n)
  { num := num, port := port, ring := ring, head := head, opc := f 0 1, cmpl := bitOf (f 1 1) 0, early := bitOf (f 1 1) 1,
    update := bitOf (f 1 1) 2, cookie := f 4 4, args := (List.range 7).map (fun k => f (8 + 8 * k) 8) }

/-- A ring of a KIND accepts an opcode (R520). -/
def kindAccepts (kind opc : Nat) : Bool :=
  match kind with
  | 1 => decide (1 ≤ opc) && decide (opc ≤ 15)
  | 2 => decide (opc = 10)
  | 3 => decide (11 ≤ opc) && decide (opc ≤ 15)
  | 4 => decide (opc = 16)
  | _ => false

/-- A fetched command goes to its unit (R36, R219, R279, R520, R526). -/
def Dev.acceptCmd (d : Dev) (kind : Nat) (bs : List Byte) (c : JobCmd) : Dev :=
  if !kindAccepts kind c.opc then d.postCompletion c 1 0
  else if leNat ((bs.drop 1).take 1) / 8 ≠ 0 ∨ leNat ((bs.drop 2).take 2) ≠ 0 then d.postCompletion c 2 0
  else match kind with
    | 1 => if c.opc = 1 then d.stepMark c else (d.issuePlaced c (fun d => d.startCmd c)).settle
    | 2 => if argsClear c 1 then (d.thnQueue true c).thnHostOff d.thnPick else d.postCompletion c 2 0
    | 3 => d.startCmd c
    | _ => d.startHarvest c

/-- The next entry of a ring is fetched, or its fetch fails (R521, R522, R531, R532). -/
def Dev.fetchEntry (d : Dev) (port ring : Nat) (e : FetchedEntry) : Dev :=
  let r := d.ring port ring
  if !r.fetches then d
  else match e with
    | .failed => (d.setRing port ring { r with enabled := false, fault := true }).setErr PCI port 18
    | .entry bs =>
      let job := decide (r.kind = 1)
      let num := if job then d.getF R.PCI_JOB_NEXT 0 else 0
      let d := ((d.setRing port ring { r with head := (r.head + 1) % 2 ^ 32 }).bump PCI port 4 1).bump PCI port 2 64
      let d := if job then d.setF R.PCI_JOB_NEXT 0 (num + 1) else d
      d.acceptCmd r.kind bs (entryCmd num port ring r.head bs)

/-- COMMAND_FETCH (R520 to R523). -/
def execCommandFetch (port ring : Nat) (e : FetchedEntry) (s : State) : Res :=
  s.onDev (fun d => if decide (s.own.owner = port + 1) then d.fetchEntry port ring e else d)

end Sys2Proof.Machine
end

