-- ==== Sys2Proof/Machine/Rows.lean ====
section
/-! DEFINITION. Commands that can let held work begin: seals, pairing, recovery, collective messages, RESYNC; and the
report of an uncorrectable word (R17, R34, R311, R337, R342 to R351, R369 to R372, R391, R395, R396, R547). -/

namespace Sys2Proof.Machine

/-! ### Seals and pairing -/

/-- SEAL_ACK (R17, R380). -/
def execSealAck (step : Nat) (s : State) : Res := s.onDev (fun d => (d.sealAck step).settle)

/-- PAIR (R369 to R371, R404). -/
def execPair (w : Writer) (ackKey : Nat) (s : State) : Res := s.byWriter w (fun d => (d.startPair ackKey false).settle)

/-- PAIR with GRAFT = 1 (R401, R404). -/
def execPairGraft (w : Writer) (ackKey : Nat) (s : State) : Res := s.byWriter w (fun d => (d.startPair ackKey true).settle)

/-- UNPAIR (R371, R372). -/
def execUnpair (w : Writer) (s : State) : Res := s.byWriter w (fun d => d.unpair.settle)

/-- PAIR_REQ (R369, R387, R510). -/
def execPairReq (p : Packet) (s : State) : Res := s.onDev (fun d => (d.mgmt 1 p (fun d => d.takePairReq p)).settle)

/-- PAIR_ACK (R369, R387). -/
def execPairAck (p : Packet) (s : State) : Res := s.onDev (fun d => (d.fromPartner 2 p (fun d => d.takePairAck p)).settle)

/-- PAIR_RESPONSE_TIMEOUT (R369). -/
def execPairResponseTimeout (s : State) : Res := s.onDev (fun d => d.pairTimeout.settle)

/-- UNPAIR of the partner (R371, R387). -/
def execUnpairMsg (p : Packet) (s : State) : Res := s.onDev (fun d => (d.fromPartner 14 p (fun d => d.unpair)).settle)

/-! ### Recovery -/

/-- RESTORE_END (R396). -/
def execRestoreEnd (p : Packet) (s : State) : Res := s.onDev (fun d => (d.fromPartner 10 p (fun d => d.restoreEnd p)).settle)

/-- LOG_DATA (R396). -/
def execLogData (p : Packet) (s : State) : Res := s.onDev (fun d => (d.fromPartner 12 p (fun d => d.logData p)).settle)

/-- GO (R395, R404). -/
def execRecoveryGo (w : Writer) (s : State) : Res := s.byWriter w (fun d => d.recoveryGo.settle)

/-- A regenerable word of job memory (R311, R391, R547). A word that patrol scrub found keeps its poison. -/
def Dev.ueRegenerable (d : Dev) (source : Nat) : Dev :=
  if !d.jobActive || decide (source = 1) || d.configuring then d
  else if d.ctl.updateBegun then { d with ctl := { d.ctl with replayAsked := 7 } }
  else d.reexecute

/-- A word of a persistent item (R311, R391): the item alone is restored when its opening boundary has sealed and
nothing of the open step has written it. -/
def Dev.uePersistent (d : Dev) (a source : Nat) : Dev :=
  if !d.jobActive || d.configuring then d
  else if d.pairState = 0 ∨ d.pairState = 5 then d.recoveryFailed
  else
    match itemIndex a 0 d.sow.items with
    | some i =>
      if d.canRestore && decide ((d.getF R.SOW_LAST_SEALED 0 + 1) % 2 ^ 64 = d.step) && decide (source ≠ 2)
          && !d.sow.touched.contains i && d.sow.itemWanted.isNone then
        { d with sow := { d.sow with itemWanted := some i } }.toPartner 8 { packetOf 0x30 with op1 := i }
      else { d with ctl := { d.ctl with replayAsked := 6 } }
    | none => d

/-- A word of the partner mirror region (R311, R391): its line is asked for again; a word outside the image asks for
the whole image. -/
def Dev.ueMirror (d : Dev) (a : Nat) : Dev :=
  if !d.pairStands then d
  else if inRange a d.pImageBase d.pImage then
    let off := (a - d.pImageBase) / 64 * 64
    { d with sow := { d.sow with refetch := d.sow.refetch ++ [(off, 64)] } }.toPartner 11
      { packetOf 0x30 with addr := off, op1 := 0, op2 := 64 }
  else d.toPartner 15 (packetOf 0x30)

/-- A word of the sowing log (R311, R372, R391): an unsealed record is written from the copy kept, a sealed one is asked of
the partner; an unpaired device has none to ask. -/
def Dev.ueLog (d : Dev) (a : Nat) : Dev :=
  let slot := (a - logBase) / 512 % 65536
  match d.sow.recCopies.find? (fun e => decide (e.1 % 65536 = slot)) with
  | some e => d.logOwn e.1 e.2
  | none =>
    let next := d.getF R.SOW_LSN 0
    if d.pairStands && decide (slot < next) then
      d.toPartner 11 { packetOf 0x30 with addr := slot + (next - 1 - slot) / 65536 * 65536, op1 := 1, op2 := 1 }
    else if d.jobActive && !d.captures && decide (slot < next) then d.recoveryFailed
    else d

/-- A halted DMA read has its word in a range (R548). -/
def Dev.haltedRead (d : Dev) (a : Nat) : Bool :=
  d.cells.any (fun c => c.2.dma.any (fun e => e.2.halted && e.2.remote.isNone
    && (dmaSources c.2.rd e.2.op).any (fun r => overlaps (a / 8 * 8) 8 r.1 r.2)))

/-- A word of the sample cache (R311, R548): its entry goes; a DMA read that it halted has nothing else to wait for, so the
word is treated as regenerable job data. -/
def Dev.ueCache (d : Dev) (a : Nat) : Dev :=
  let halted := d.haltedRead a
  let d := d.cacheLost a
  if halted then d.ueRegenerable 0 else d

/-- The word lies in a statistics record of the scale-state table (R175, R547). -/
def Dev.inStatRecord (d : Dev) (a : Nat) : Bool :=
  inRange a d.sstBase (128 * d.sstCount) && decide (64 ≤ (a - d.sstBase) % 128)

/-- UE_REPORT (R311, R391, R547): the MC handles a reported word by its region. -/
def execUeReport (addr source : Nat) (s : State) : Res :=
  s.onDev (fun d =>
    match d.regionOf addr with
    | 0 => d.ueRegenerable source
    | 1 => if d.inStatRecord addr then d.ueRegenerable source else d.uePersistent addr source
    | 2 => d.ueCache addr
    | 3 => d.ueMirror addr
    | _ => d.ueLog addr)

/-! ### Collective messages (R326, R343 to R351) -/

/-- C_EXP (R343, R346, R350). -/
def execCExp (p : Packet) (s : State) : Res := s.onDev (fun d => (d.collArrive 0x20 p none).settle)

/-- C_M (R343, R345). -/
def execCM (p : Packet) (s : State) : Res := s.onDev (fun d => (d.collArrive 0x21 p none).settle)

/-- C_INT (R343, R345, R346). -/
def execCInt (p : Packet) (s : State) : Res := s.onDev (fun d => (d.collArrive 0x22 p none).settle)

/-- C_RES (R345, R349); `t1` and `tx` are the measured times of R276. -/
def execCRes (p : Packet) (t1 tx : Nat) (s : State) : Res := s.onDev (fun d => (d.collArrive 0x23 p (some (t1, tx))).settle)

/-- C_DATA (R351). -/
def execCData (p : Packet) (s : State) : Res := s.onDev (fun d => (d.collArrive 0x24 p none).settle)

/-- C_BAR (R351). -/
def execCBar (p : Packet) (s : State) : Res := s.onDev (fun d => (d.collArrive 0x25 p none).settle)

/-- C_BARREL (R351). -/
def execCBarRel (p : Packet) (s : State) : Res := s.onDev (fun d => (d.collArrive 0x26 p none).settle)

/-! ### RESYNC (R337, R348, R378, R526) -/

/-- The blocks of a member that a collective has in part come again from their start (R348, R351). -/
def Coll.anew (c : Coll) (r : Nat) : Coll := if mget 0 c.got r < c.expects r then { c with got := mdel r c.got } else c

/-- What follows a RESYNC on a flow of a KIND: collectives are sent again to the peer (R348), packets of the mirror
stream that had no acknowledgement are sent again (R378), and a harvest asked of the partner ends with PARTNER_LOST
(R283). -/
def Dev.afterResync (d : Dev) (f : Nat) (lost : List Packet) : Dev :=
  let w := d.flow f
  let d := if d.isPartner w.peer then
      d.harvest.asked.foldl (fun d c => d.complete c 0x54 0) { d with harvest := { d.harvest with asked := [] } }
    else d
  if w.kind = 1 then lost.foldl (fun d p => d.sendOn f p) d
  else if w.kind = 2 then
    (d.fab.colls.filter (·.sent)).foldl (fun d c =>
      (c.others.filter (fun r => decide ((c.members.getD r (0, 0)).2 = f))).foldl (fun d r =>
        let d := d.onColl c.key (fun c => d.setColl (c.anew r))
        d.resendData c r) d) d
  else d

/-- RESYNC: the flow starts again. -/
def execResync (p : Packet) (s : State) : Res :=
  s.onDev (fun d =>
    if p.opc ≠ 0x12 then d
    else d.onFlow p (fun d =>
      let w := d.flow p.dstFlow
      ((d.resyncFlow p.dstFlow).afterResync p.dstFlow (w.unacked ++ w.waiting)).poolFreed))

end Sys2Proof.Machine
end

