-- ==== Sys2Proof/Machine/Moves.lean ====
section
/-! DEFINITION. What becomes of a block's work when the block is cloched or fails, and the reset of one block (R44,
R45, R101, R223, R319, R408, R447, R461, R545). -/

namespace Sys2Proof.Machine

/-- The work of a block that leaves service goes to the units that remain; collectives queue (R545). A cell's tiles have been
returned already, and a port is DOWN with the change of its block's state (R320). -/
def Dev.moveWork (d : Dev) (c i : Nat) : Dev :=
  if c = MED then d.medMove i
  else if c = PIP then d.pipMove i
  else if c = THN then d.thnMove i
  else d

/-- The marks that the model keeps for a block beside its page. -/
def Dev.forgetMarks (d : Dev) (c i : Nat) : Dev :=
  let d := (d.setPassed c i false).setReturned c i false
  { d with testFails := mdel (c * 2048 + i) d.testFails }

/-- The members of a plot as they stand after reset: every mapped cell is in plot 0 (R109, R118). -/
def Dev.resetMembers (d : Dev) (i : Nat) : Dev := d.setMask i (if i = 0 then d.mappedMask else 0)

/-- What a block holds beside its page goes (R461). -/
def Dev.resetInside (d : Dev) (c i : Nat) : Dev :=
  match c with
  | 1 => { d with plots := [] }
  | 2 => ((d.returnTile i).dropHost i).setCell i Cell.reset
  | 5 => { d with fab := { d.fab with ports := mdel i d.fab.ports } }
  | 6 =>
    let d := (d.fab.flows.map (·.1)).foldl (fun d f => d.endOps f 6) d
    { d with fab := { d.fab with flows := [], routes := [] } }
  | 8 => d.disableRings i
  | 9 => d.medMove i
  | 10 => d.pipMove i
  | 11 => d.thnMove i
  | 12 => { d with numx := Dev.reset.numx }
  | 13 => { d with sow := Sow.reset, harvest := Dev.reset.harvest }
  | 16 => { d with rasLog := [] }
  | _ => d

/-- SOFT_RESET of a page takes the block to OFF with its registers at their reset values (R42, R44, R45, R461). -/
def Dev.resetBlock (d : Dev) (c i : Nat) : Dev :=
  let before := d.masks
  let d := (if c = PCI then d.resetPortPage i else d.resetPage c i).forgetMarks c i
  let d := d.resetInside c i
  if c = PLT then (d.resetMembers i).resolveMap before
  else if c = CEL then
    match d.plotOfCell i with
    | some k => d.borrow k
    | none => d
  else d

end Sys2Proof.Machine
end

