-- ==== Sys2Proof/Machine/Control.lean ====
section
/-! DEFINITION. Registers, block states, commits, negotiation, cell faults and cell tests
(R39 to R62, R388, R389, R485 to R492, R545). -/

namespace Sys2Proof.Machine

/-! ### Register accesses -/

/-- REGISTER_WRITE (R39, R40, R47): each written field without a row of its own, by its access class. -/
def execRegisterWrite (w : Writer) (offset size value : Nat) (s : State) : Res :=
  s.byWriter w (fun d => d.busWrite offset size value)

/-- COUNTER_LO_READ (R39, R43): a register read; reading an _LO half latches its _HI half. -/
def execCounterLoRead (offset size : Nat) (s : State) : Res :=
  s.onDev (fun d =>
    let r := d.busRead s.own offset size
    r.2.emit (.readData r.1))

/-- A register command aimed at a page: a page that does not exist is a bad access, a disabled cell's
page ignores it (R39, R41). -/
def Dev.onPage (d : Dev) (p : Page) (off : Nat) (f : Dev → Dev) : Dev :=
  if !pageExists p.cls p.inst then d.badAccess (p.cls * 2 ^ 23 + p.inst * 2 ^ 12 + off) true false true
  else if p.cls = CEL ∧ d.nv.disabled.contains p.inst then d
  else f d

/-- A media slice that serves again, or that allows more ENCODE contexts, takes the sessions that wait (R431, R447); a thin
engine that serves takes the requests that wait on the other (R223). -/
def Dev.takeWaiting (d : Dev) (c i : Nat) : Dev := if c = MED then d.medWake else if c = THN then d.thnTakeOver i else d

/-- The cell has no element in the array: it stands at a pass boundary (R49, R74). -/
def Dev.atBoundary (d : Dev) (c i : Nat) : Bool :=
  decide (c ≠ CEL) || decide (d.getF R.CEL_ARRAY_STATUS_IN_FLIGHT i = 0)

/-- The values of a page's RW fields may act apart from a step boundary (R49, R50, R75): a RUNNING cell stands at a pass
boundary; RUNNING pages of GLB, TRL and PLT wait for the step boundary. -/
def Dev.rwReady (d : Dev) (c i : Nat) : Bool :=
  decide (d.blk c i ≠ stRunning) || (decide (c ≠ GLB) && decide (c ≠ TRL) && decide (c ≠ PLT) && d.atBoundary c i)

/-- RW_FIELD_TAKES_EFFECT (R47, R49, R50, R75): the stored RW values of a page act; in THN, host requests
queued when HOST_EN falls complete with FEATURE_OFF (R230). -/
def execRwFieldTakesEffect (p : Page) (s : State) : Res :=
  s.onDev (fun d => d.onPage p 0 (fun d =>
    if !d.rwReady p.cls p.inst then d
    else
      let d := d.rwActs p.cls p.inst
      if p.cls = THN then d.thnHostOff p.inst else d.takeWaiting p.cls p.inst))

/-! ### Block states (R44) -/

/-- ENABLE (R44, R47): an RL write of BLK_CTRL.ENABLE; 0 takes a READY block to OFF. -/
def execEnable (w : Writer) (p : Page) (v : Bool) (s : State) : Res :=
  s.byWriter w (fun d => d.onPage p 0x18 (fun d =>
    let st := d.blk p.cls p.inst
    let d' := d.writeRl (R.BLK_CTRL_ENABLE p.cls) p.inst (b2n v) false
    if v = false ∧ st = stReady then d'.setBlk p.cls p.inst stOff else d'))

/-- BLOCK_INIT_COMPLETE (R44): an enabled block that is OFF enters READY; a cell takes work from the next boundary, as
one that returns does (log entry 18). -/
def execBlockInitComplete (p : Page) (s : State) : Res :=
  s.onDev (fun d => d.onPage p 0 (fun d =>
    if d.blk p.cls p.inst = stOff ∧ d.getF (R.BLK_CTRL_ENABLE p.cls) p.inst = 1 then
      (((d.setBlk p.cls p.inst stReady).setReturned p.cls p.inst (decide (p.cls = CEL) && d.jobActive)).takeWaiting p.cls p.inst).settle
    else d))

/-- SOFT_RESET (R44, R45): QUIESCED, CLOCHED, FAILED and READY go to OFF with the block reset; RUNNING
ignores it with LOCKED_WRITE; OFF and RETIRED ignore it. On GLB the bit has a row of its own. -/
def execSoftReset (w : Writer) (p : Page) (s : State) : Res :=
  s.byWriter w (fun d => d.onPage p 0x18 (fun d =>
    let st := d.blk p.cls p.inst
    if p.cls = GLB then d
    else if st = stRunning then d.lockedWrite p.cls p.inst
    else if st = stReady ∨ st = stQuiesced ∨ st = stCloched ∨ st = stFailed then d.resetBlock p.cls p.inst
    else d))

/-- The classes whose blocks can be cloched (R545). -/
def clochable (c : Nat) : Bool := [CEL, LNK, COL, MED, PIP, THN].contains c

/-- A cloched block that has passed its test returns to READY once CLOCHE_REQ is 0 (R44, R486, R496). -/
def Dev.returnBlock (d : Dev) (c i : Nat) : Dev :=
  if d.blk c i = stCloched ∧ d.testPassed c i = true ∧ d.getF (R.BLK_CTRL_CLOCHE_REQ c) i = 0 then
    (((d.setPassed c i false).setBlk c i stReady).bump RAS 0 5 1).takeWaiting c i
  else d

/-- A block other than a cell, or a cell, enters CLOCHED; its work moves to the units that remain
(R44, R101, R223, R408, R447). -/
def Dev.clocheBlock (d : Dev) (c i : Nat) : Dev :=
  let d := d.setPassed c i false
  if c = CEL then d.clocheCell i else (d.setBlk c i stCloched).moveWork c i

/-- Both copies of an RW bit, stored and acting. -/
def Dev.setBoth (d : Dev) (f : Field) (i v : Nat) : Dev := (d.setF f i v).setAct f i v

/-- CLOCHE_REQ (R44, R45, R545): requests a cloche, taken at once outside RUNNING, or a return. -/
def execClocheReq (w : Writer) (p : Page) (v : Bool) (s : State) : Res :=
  s.byWriter w (fun d => d.onPage p 0x18 (fun d =>
    if !clochable p.cls then d
    else
      let d := d.setBoth (R.BLK_CTRL_CLOCHE_REQ p.cls) p.inst (b2n v)
      let st := d.blk p.cls p.inst
      if v then
        if st = stReady ∨ st = stQuiesced ∨ st = stFailed then d.clocheBlock p.cls p.inst else d
      else (d.returnBlock p.cls p.inst).settle))

/-- A QUIESCED block runs again; with no job active its last command is done, so it goes on to READY (R44, R46). -/
def Dev.resumeBlock (d : Dev) (c i : Nat) : Dev :=
  let d := d.setBlk c i stRunning
  (if d.jobActive then d else d.setBlk c i stReady).takeWaiting c i

/-- The QUIESCED blocks whose own request is 0 run again (R44, R46). -/
def Dev.resumeAll (d : Dev) : Dev :=
  allPages.foldl (fun d p =>
    if d.blk p.1 p.2 = stQuiesced ∧ (p.1 = GLB ∨ d.getF (R.BLK_CTRL_QUIESCE_REQ p.1) p.2 = 0) then
      d.resumeBlock p.1 p.2
    else d) d

/-- QUIESCE_REQ (R44, R46): stored; 0 resumes a QUIESCED block, on GLB every block that it quiesced. A block whose own request
is written 0 runs again although GLB.QUIESCE_REQ is still 1: DESIGN CHOICE, log entry 40. -/
def execQuiesceReq (w : Writer) (p : Page) (v : Bool) (s : State) : Res :=
  s.byWriter w (fun d => d.onPage p 0x18 (fun d =>
    let d := d.setBoth (R.BLK_CTRL_QUIESCE_REQ p.cls) p.inst (b2n v)
    if v then d
    else if p.cls = GLB then d.resumeAll.settle
    else if d.blk p.cls p.inst = stQuiesced then (d.resumeBlock p.cls p.inst).settle
    else d))

/-- BLOCK_QUIESCED (R44, R45, R49): a RUNNING block with QUIESCE_REQ set and CLOCHE_REQ clear reaches its
boundary. GLB's request acts at the step boundary (R46). -/
def execBlockQuiesced (p : Page) (s : State) : Res :=
  s.onDev (fun d => d.onPage p 0 (fun d =>
    if p.cls ≠ GLB ∧ d.blk p.cls p.inst = stRunning ∧ d.actF (R.BLK_CTRL_QUIESCE_REQ p.cls) p.inst = 1
        ∧ d.actF (R.BLK_CTRL_CLOCHE_REQ p.cls) p.inst = 0 ∧ d.atBoundary p.cls p.inst = true then
      d.setBlk p.cls p.inst stQuiesced
    else d))

/-- A block with CLOCHE_REQ set may enter CLOCHED: RUNNING at its boundary, READY, QUIESCED or FAILED at once (R44). -/
def Dev.mayCloche (d : Dev) (c i : Nat) : Bool :=
  let st := d.blk c i
  decide (st = stReady) || decide (st = stQuiesced) || decide (st = stFailed) || (decide (st = stRunning) && d.atBoundary c i)

/-- BLOCK_CLOCHED_AT_BOUNDARY (R44, R45, R49, R101): a block with CLOCHE_REQ set reaches its boundary, or has left RUNNING
meanwhile. -/
def execBlockClochedAtBoundary (p : Page) (s : State) : Res :=
  s.onDev (fun d => d.onPage p 0 (fun d =>
    if clochable p.cls = true ∧ d.actF (R.BLK_CTRL_CLOCHE_REQ p.cls) p.inst = 1 ∧ d.mayCloche p.cls p.inst = true then
      d.clocheBlock p.cls p.inst
    else d))

/-- Reason UNIT_FAILED when every unit of a kind is FAILED (R491). -/
def Dev.checkUnits (d : Dev) (c : Nat) : Dev :=
  if (c = MED ∨ c = PIP ∨ c = THN) ∧ (List.range (instancesOf c)).all (fun i => decide (d.blk c i = stFailed)) then
    d.raiseReplace GLB 0 6
  else d

/-- A failed class test: counted, and the third in succession puts the block into FAILED (R490, R545). -/
def Dev.testFailed (d : Dev) (c i : Nat) : Dev :=
  let k := c * 2048 + i
  let n := mget 0 d.testFails k + 1
  if 3 ≤ n then (({ d with testFails := mdel k d.testFails }).failBlock c i 0).checkUnits c
  else { d with testFails := mput k n d.testFails }

/-- CLOCHE_TEST_COMPLETE (R545): the class test of a cloched block other than a cell ends. A port's test
is its retraining, which passes also when it ends LOST; the link is up, or LOST, once the block has returned (R320). -/
def execClocheTestComplete (p : Page) (r : ClassTest) (s : State) : Res :=
  s.onDev (fun d => d.onPage p 0 (fun d =>
    let c := p.cls
    let i := p.inst
    if clochable c = false ∨ c = CEL ∨ d.blk c i ≠ stCloched then d
    else match r with
      | .lanes n =>
        if c = LNK then
          let d := (d.setPassed c i true).returnBlock c i
          (if d.blk c i = stReady then d.portDone i n else d).settle
        else d
      | .pass =>
        if c = LNK then d
        else ((({ d with testFails := mdel (c * 2048 + i) d.testFails }).setPassed c i true).returnBlock c i).settle
      | .fail => if c = LNK then d else d.testFailed c i))

/-- BLOCK_FAILED (R44, R116, R481, R491): an uncontained fault puts a READY, RUNNING or QUIESCED block into
FAILED, and its work moves to the units that remain; CEL_SEQ_STATUS.RUN of a cell keeps its value. -/
def execBlockFailed (p : Page) (s : State) : Res :=
  s.onDev (fun d => d.onPage p 0 (fun d =>
    let st := d.blk p.cls p.inst
    if st = stReady ∨ st = stRunning ∨ st = stQuiesced then
      let run := d.getF R.CEL_SEQ_STATUS_RUN p.inst
      let d := if p.cls = CEL then ((d.returnTile p.inst).clearTileRegs p.inst).setF R.CEL_SEQ_STATUS_RUN p.inst run else d
      ((d.failBlock p.cls p.inst (if p.cls = GLB then 2 else 0)).moveWork p.cls p.inst).checkUnits p.cls
    else d))

/-! ### Staged commits (R51 to R57) -/

/-- The host has written new bounds: the step that an abandoned rebalance holds may begin (R31). -/
def Dev.newBounds (d : Dev) (w : Writer) (c i : Nat) : Dev :=
  let stages := (mfind (R.PLT_BOUNDS_MIN_CELLS.key i) d.shadow).isSome || (mfind (R.PLT_BOUNDS_MAX_CELLS.key i) d.shadow).isSome
  if c = PLT ∧ w ≠ .mc ∧ stages = true then { d with ctl := { d.ctl with waitBounds := false } } else d

/-- BLK_COMMIT (R31, R51, R52): arms the staged set, or rejects it on a wrong SEQ or while one is armed. -/
def execBlkCommit (w : Writer) (p : Page) (seq : Nat) (group : Bool) (s : State) : Res :=
  s.byWriter w (fun d => d.onPage p 0x34 (fun d =>
    let c := p.cls
    let i := p.inst
    if seq ≠ d.getF (R.BLK_STAGE_SEQ_NEXT_SEQ c) i then (d.setCommitState c i 4).commitReject c i
    else if (d.armedOn c i).isSome then (d.setCommitState c i 5).commitReject c i
    else (({ d with armed := mput (c * 2048 + i) ⟨seq, group⟩ d.armed }.newBounds w c i).setCommitState c i
      (if group then 2 else 1)).settle))

/-- BLK_COMMIT_ABORT (R53, R67): discards the staged or armed set; refused for a group member, which counts as a rejected
commit: DESIGN CHOICE, log entry 40. -/
def execBlkCommitAbort (w : Writer) (p : Page) (s : State) : Res :=
  s.byWriter w (fun d => d.onPage p 0x34 (fun d =>
    if (d.armedOn p.cls p.inst).elim false (·.group) then d.commitReject p.cls p.inst
    else d.abortCommit p.cls p.inst))

/-- An armed commit applies now, apart from a step boundary: a single commit of a block that is not
RUNNING or of a cell at its pass boundary, without a "step" field while a job is active; a group member
only with no job active, once its group is committed (R49, R50, R54, R57). -/
def Dev.commitReady (d : Dev) (c i : Nat) : Bool :=
  match d.armedOn c i with
  | none => false
  | some a =>
    if d.jobActive then
      !a.group && !d.stagesStep c i && (decide (d.blk c i ≠ stRunning) || (decide (c = CEL) && d.atBoundary c i))
    else !a.group || d.groupSeq.isSome

/-- COMMIT_APPLY (R49, R50, R51, R64): an armed commit applies at a commit boundary other than a step
boundary. A PLT commit with no job active is not resolved until a job starts; R110 resolves at step boundaries only: DESIGN
CHOICE, log entry 40. -/
def execCommitApply (p : Page) (s : State) : Res :=
  s.onDev (fun d => d.onPage p 0 (fun d =>
    if d.commitReady p.cls p.inst then (d.applyCommit p.cls p.inst).finishGroup else d))

/-- GROUP_COMMIT (R57): commits the armed members to the next step boundary, or rejects. -/
def execGroupCommit (w : Writer) (seq : Nat) (s : State) : Res :=
  s.byWriter w (fun d =>
    if seq ≠ d.getF R.GLB_GROUP_STAT_NEXT_SEQ 0 ∨ d.groupSeq.isSome = true then d.setF R.GLB_GROUP_STAT_STATE 0 3
    else { d with groupSeq := some seq }.setF R.GLB_GROUP_STAT_STATE 0 1)

/-- GROUP_COMMIT_ABORT (R57): discards every member. -/
def execGroupCommitAbort (w : Writer) (s : State) : Res :=
  s.byWriter w (fun d =>
    let d := d.groupPages.foldl (fun d p => d.abortCommit p.1 p.2) d
    { d with groupSeq := none }.setF R.GLB_GROUP_STAT_STATE 0 4)

/-! ### Feature negotiation (R58 to R62) -/

/-- NEGOTIATION_GO (R61, R62): accepted while GLB is READY; else ignored with LOCKED_WRITE. -/
def execNegotiationGo (w : Writer) (s : State) : Res :=
  s.byWriter w (fun d =>
    if d.blk GLB 0 = stReady then
      { d with ctl := { d.ctl with negPending := true } }.setF R.GLB_NEG_STATUS_CODE 0 1
    else d.lockedWrite GLB 0)

/-- The feature that a feature requires (R59). -/
def requiredBy : Nat → Option Nat
  | 1 => some 2 | 3 => some 2 | 12 => some 5 | 13 => some 2
  | _ => none

/-- The result of a negotiation: CODE, BAD_BIT and the active word (R61). -/
def negotiate (offered mandatory request : Nat) : Nat × Nat × Nat :=
  let both := request &&& offered
  match lowestBit (fun n => bitOf mandatory n && !bitOf request n) with
  | some n => (3, n, 0)
  | none =>
    match lowestBit (fun n => decide (14 ≤ n) && bitOf request n) with
    | some n => (4, n, 0)
    | none =>
      match lowestBit (fun n => bitOf both n && (requiredBy n).elim false (fun r => !bitOf both r)) with
      | some n => (5, n, 0)
      | none => (2, 0, both)

/-- NEGOTIATION_COMPLETE (R61, R62): the result is posted; a failure sets NEG_FAILED. -/
def execNegotiationComplete (s : State) : Res :=
  s.onDev (fun d =>
    if d.ctl.negPending then
      let r := negotiate (d.featureWord R.GLB_DEV_FEATURES) (d.featureWord R.GLB_DEV_MANDATORY)
        (d.featureWord R.GLB_DRV_FEATURES)
      let d := { d with ctl := { d.ctl with negPending := false } }
      let d := ((d.setF R.GLB_NEG_STATUS_CODE 0 r.1).setF R.GLB_NEG_STATUS_BAD_BIT 0 r.2.1).setFeatureWord
        R.GLB_FEATURES_ACTIVE r.2.2
      if r.1 = 2 then d else d.setErr GLB 0 17
    else d)

/-- JOB_END (R68, R69): asks that the job end after the next step boundary; ignored with no job. -/
def execJobEnd (w : Writer) (s : State) : Res :=
  s.byWriter w (fun d => if d.jobActive then { d with ctl := { d.ctl with endAsked := true } } else d)

/-! ### Cell faults and cell tests (R388, R389, R485 to R488) -/

/-- A hardware fault sets the flag of its kind and cloches the cell at once (R83, R97, R388, R389, R481). -/
def Dev.cellFault (d : Dev) (cell : Nat) (k : CellFaultKind) : Dev :=
  if 1152 ≤ cell ∨ d.blk CEL cell = stRetired then d
  else
    let d := match k with
      | .arrayParity => d.setErrFull CEL cell 22 0 1 0
      | .stagingSram => d.setErrFull CEL cell 22 0 1 0
      | .ifetchUncorr => d.trapFlags cell 2 0
      | .storeUncorr => d.trapFlags cell 8 0
    let d := (d.setPassed CEL cell false).clocheFault cell
    match k with
    | .ifetchUncorr => d.setF R.CEL_SEQ_STATUS_RUN cell 3
    | .storeUncorr => d.setF R.CEL_SEQ_STATUS_RUN cell 3
    | _ => d

/-- CELL_FAULT (R388, R389, R481). -/
def execCellFault (cell : Nat) (k : CellFaultKind) (s : State) : Res := s.onDev (fun d => d.cellFault cell k)

/-- Reason CELLS (R491). -/
def Dev.checkCells (d : Dev) : Dev :=
  if d.sparesLeft.isEmpty ∧ 32 < d.nv.retired.length then d.raiseReplace TRL 0 1 else d

/-- Puts a physical cell into RETIRED, for good (R45, R486, R498). -/
def Dev.retireCell (d : Dev) (p : Nat) : Dev :=
  if d.nv.retired.contains p then d
  else
    let d := { d with nv := { d.nv with retired := insertSet p d.nv.retired } }
    (((d.irq CEL p 2).irq CEL p 4).bump TRL 0 3 1).checkCells

/-- Grid distance of two cells of one die (R24, R488). -/
def gridDistance (a b : Nat) : Nat :=
  let ra := a % 576 / 24
  let rb := b % 576 / 24
  let ca := a % 24
  let cb := b % 24
  (max ra rb - min ra rb) + (max ca cb - min ca cb)

/-- Sorts cells by distance from `p`, ties by number. -/
def byDistance (p : Nat) (xs : List Nat) : List Nat :=
  xs.mergeSort (fun a b => decide (gridDistance a p < gridDistance b p)
    || (decide (gridDistance a p = gridDistance b p) && decide (a ≤ b)))

/-- The spares in the order in which they are tried for a retired cell (R488). -/
def Dev.spareOrder (d : Dev) (p : Nat) : List Nat :=
  let die := p / 576
  byDistance p (d.sparesLeft.filter (fun q => decide (q / 576 = die)))
    ++ (d.sparesLeft.filter (fun q => decide (q / 576 ≠ die))).mergeSort (fun a b => decide (a ≤ b))

/-- A spare that is OFF stays so until it is enabled; any other is READY (R44). -/
def Dev.spareReady (d : Dev) (q : Nat) : Dev := if d.blk CEL q = stOff then d else d.setBlk CEL q stReady

/-- A test is recorded with its result, its first faulty unit and its cell; FAIL sets TEST_FAIL (R485, R498, R499). -/
def Dev.recordTest (d : Dev) (cell result unit : Nat) : Dev :=
  let d := (((d.setF R.TRL_TEST_VALID 0 1).setF R.TRL_TEST_RESULT 0 result).setF R.TRL_TEST_UNIT 0 unit).setF
    R.TRL_TEST_PHYSICAL 0 cell
  let d := d.bump TRL 0 1 1
  if result = 2 then d.setErrFull TRL 0 18 0 2 0 else d

/-- Grafts a spare into a logical number: the spares are tested in their order, and those that fail before one passes are
retired; with none the number is left unmapped (R27, R488, R498, R499, R546). -/
def Dev.graftInto (d : Dev) (l old : Nat) (t : CellTest) : List Nat → Dev
  | [] => ({ d with nv := { d.nv with mapChanges := mput l none d.nv.mapChanges } }).setErrFull TRL 0 16 0 0 0
  | q :: qs =>
    if t.sparesPassing.contains q then
      let d := d.recordTest q 0 0
      let nv := { d.nv with mapChanges := mput l (some q) d.nv.mapChanges, grafted := insertSet q d.nv.grafted }
      let d := Dev.dropHost { d with nv := nv } q
      let d := (((d.setF R.TRL_GRAFT_NEW 0 q).setF R.TRL_GRAFT_OLD 0 old).setF R.TRL_GRAFT_LOGICAL 0 l).bump TRL 0 4 1
      (((d.spareReady q).setReturned CEL q d.jobActive).checkCells).policyTaken TRL 0
    else ((d.recordTest q 2 (mget 0 t.spareUnits q)).retireCell q).graftInto l old t qs

/-- The logical number of a retired cell gets a spare, unless POLICY_HOLD withholds the graft (R65,
R488). -/
def Dev.graftFor (d : Dev) (p : Nat) (l : Option Nat) (t : CellTest) : Dev :=
  match l with
  | none => d
  | some l =>
    if d.held TRL 0 then (d.policyWithheld TRL 0).setErr TRL 0 17
    else d.graftInto l p t (d.spareOrder p)

/-- Retirement of a tested cell and the graft that follows (R27, R486). -/
def Dev.retireTested (d : Dev) (p : Nat) (t : CellTest) : Dev :=
  let l := d.logicalOf p
  Dev.healthFrom d ((d.retireCell p).graftFor p l t)

/-- Result code of TRL_TEST (R499). -/
def testCode : TestOutcome → Nat
  | .pass => 0
  | .repairable _ _ => 1
  | .fail => 2

/-- A cell that passed its test returns when CLOCHE_REQ is 0, which the MC clears after a cloche on a fault (R486). -/
def Dev.cellPassed (d : Dev) (p : Nat) : Dev := ((d.endFault p).setPassed CEL p true).returnBlock CEL p

/-- The rows and columns of a fault that no bypass covers yet (R108). -/
def Dev.uncovered (d : Dev) (cell : Nat) (rows cols : List Nat) : List Nat × List Nat :=
  let b := d.bypasses cell
  (rows.filter (fun r => !b.rows.contains r), cols.filter (fun c => !b.cols.contains c))

/-- Bypasses cover every fault: the valid ones stay, and with the new ones there are at most two rows and two columns
(R107, R108, R485). -/
def Dev.bypassesCover (d : Dev) (cell : Nat) (rows cols : List Nat) : Bool :=
  let b := d.bypasses cell
  let u := d.uncovered cell rows cols
  decide (b.rows.length + u.1.length ≤ 2) && decide (b.cols.length + u.2.length ≤ 2)

/-- The result of a cell test: faults that no set of bypasses covers give FAIL (R485). -/
def Dev.testOutcome (d : Dev) (cell : Nat) (t : CellTest) : TestOutcome :=
  match t.outcome with
  | .repairable rows cols => if d.bypassesCover cell rows cols then .repairable rows cols else .fail
  | o => o

/-- The MC writes the bypass that a repair needs, records it and tests again (R108, R484, R486, R498). -/
def Dev.repairCell (d : Dev) (cell : Nat) (rows cols : List Nat) : Dev :=
  let u := d.uncovered cell rows cols
  let b := mget ⟨[], []⟩ d.nv.fieldBypass cell
  let nb : Bypass := ⟨mergeAsc b.rows u.1, mergeAsc b.cols u.2⟩
  let d := { d with nv := { d.nv with fieldBypass := mput cell nb d.nv.fieldBypass } }
  ((d.bump TRL 0 2 (u.1.length + u.2.length)).irq CEL cell 4).policyTaken CEL cell

/-- CELL_TEST_COMPLETE (R27, R108, R485 to R488): records the test and returns, repairs or retires the
cell. -/
def execCellTestComplete (cell : Nat) (t : CellTest) (s : State) : Res :=
  s.onDev (fun d =>
    if d.blk CEL cell ≠ stCloched ∨ 1152 ≤ cell then d
    else
      let o := d.testOutcome cell t
      let d := d.recordTest cell (testCode o) t.unit
      if max 1 (d.getF R.TRL_CELL_POLICY_FAULT_LIM 0) ≤ d.recentFaults cell then
        (d.retireTested cell t).setErrFull TRL 0 19 0 2 0
      else match o with
        | .pass => d.cellPassed cell
        | .fail => d.retireTested cell t
        | .repairable rows cols =>
          if d.getF R.CEL_SPARE_POLICY_POLICY cell = 1 then d.retireTested cell t
          else if d.held CEL cell then d.policyWithheld CEL cell
          else
            let d := d.repairCell cell rows cols
            if t.retest then (d.recordTest cell 0 0).cellPassed cell
            else (d.recordTest cell 2 (mget 0 t.spareUnits cell)).retireTested cell t)

end Sys2Proof.Machine
end

