-- ==== Sys2Proof/Machine/Stack.lean ====
section
/-! DEFINITION. Commands of the logic dies and of the MEM pages (R285 to R315, R491), and of the RAS log
(R497). -/

namespace Sys2Proof.Machine

/-- A command of the logic dies: where no memory exists the requester should have refused (R285). -/
def State.onMemory (s : State) (a n : Nat) (f : Dev → Dev) : Res :=
  if s.dev.up = true ∧ memTop < a + n then .fault (.noMemory a) else s.onDev f

/-- Wrong bits that the cells of a range hold by now; in a line that is not valid they have no effect (R295, R296,
R298). -/
def Dev.takeFlips (d : Dev) (a n : Nat) (e : DramErrors) : Dev :=
  let at1 (bits : Nat) (ws : List Nat) (m : NMap Nat) : NMap Nat :=
    (ws.filter (fun w => inRange (w / 8 * 8) (a / 8 * 8) (a + n - a / 8 * 8) && d.lineValid (w / 8 * 8))).foldl
      (fun m w => mput (w / 8) bits m) m
  { d with mem := { d.mem with flips := at1 2 e.double (at1 1 e.single d.mem.flips) } }

/-- MEMORY_READ (R295, R296, R298): corrects, poisons, delivers the bytes with the poison flag. -/
def execMemoryRead (addr len : Nat) (errors : DramErrors) (s : State) : Res :=
  s.onMemory addr len (fun d =>
    let d := (d.takeFlips addr len errors).noteRead addr len
    d.emit (.bytes (d.bytes addr len) (d.poisonIn addr len).isSome))

/-- MEMORY_WRITE (R297, R298, R375). -/
def execMemoryWrite (addr : Nat) (data : List Byte) (s : State) : Res :=
  s.onMemory addr data.length (fun d => d.write addr data)

/-- A staked add by the logic die; an address that is not aligned to the width is none that a requester
may send, and nothing is added (R308). -/
def Dev.saddAligned (d : Dev) (width a q : Nat) : Dev :=
  if a % (width / 8) = 0 then d.stakedAdd width a q else d

/-- SADD128 (R308): sticky non-finite at −2^127. -/
def execSadd128 (addr : Nat) (q : BitVec 128) (s : State) : Res :=
  s.onMemory addr 16 (fun d => d.saddAligned 128 addr q.toNat)

/-- SADD64 (R308). -/
def execSadd64 (addr : Nat) (q : BitVec 64) (s : State) : Res :=
  s.onMemory addr 8 (fun d => d.saddAligned 64 addr q.toNat)

/-- SADD32 (R308). -/
def execSadd32 (addr : Nat) (q : BitVec 32) (s : State) : Res :=
  s.onMemory addr 4 (fun d => d.saddAligned 32 addr q.toNat)

/-- The line of stack k that its sweep reads next: the valid line at the lowest stack offset from `sweep` on, or the
lowest of all where a new sweep begins (R301). -/
def Dev.nextScrub (d : Dev) (k : Nat) : Option Nat :=
  let ls := d.mem.valid.filter (fun l => decide (d.stackOf (l * 64) = k))
  let off (l : Nat) : Nat := d.offsetOf (l * 64)
  let least (xs : List Nat) : Option Nat :=
    xs.foldl (fun b l => match b with
      | none => some l
      | some x => if off l < off x then some l else some x) none
  (least (ls.filter (fun l => decide (mget 0 d.mem.sweep k ≤ off l)))).or (least ls)

/-- What patrol scrub does at a line: it corrects, and reports each uncorrectable word, one that an access has poisoned
before among them, with SOURCE 1 (R296, R301). -/
def Dev.scrubLine (d : Dev) (line : Nat) : Dev :=
  let old := d.poisonedIn (line * 64) 64
  let d := d.meetRange (line * 64) 64 1
  old.foldl (fun d w =>
    let k := d.stackOf (w * 8)
    ((d.recordUe (w * 8) 1).setErrFull MEM k 4 1 0 (w * 8)).setErrFull MEM k 17 1 0 (w * 8)) d

/-- PATROL_SCRUB_LINE (R301): the sweep of a stack reads its valid lines in ascending stack offset, so a line that is not
its stack's next one, or not valid, is not read; PROGRESS follows the sweep (R314). -/
def execPatrolScrubLine (line : Nat) (errors : DramErrors) (s : State) : Res :=
  s.onDev (fun d =>
    let k := d.stackOf (line * 64)
    if memTop ≤ line * 64 ∨ d.nextScrub k ≠ some line then d
    else
      let off := d.offsetOf (line * 64)
      let d := d.setF R.MEM_SCRUB_STATUS_PROGRESS k (off * 256 / 0xC00000000)
      let d := { d with mem := { d.mem with sweep := mput k (off + 64) d.mem.sweep } }
      ((d.takeFlips (line * 64) 64 errors).scrubLine line).bump MEM k 4 1)

/-- SCRUB_RATE_UPDATE (R302, R65): the sweep period follows the corrected words of the hour. -/
def execScrubRateUpdate (stack corrected : Nat) (s : State) : Res :=
  s.onDev (fun d =>
    if 8 ≤ stack then d
    else
      let p := d.getF R.MEM_SCRUB_STATUS_PERIOD stack
      let lo := max 15 (d.getF R.MEM_SCRUB_BOUNDS_MIN_PERIOD stack)
      let hi := max lo (d.getF R.MEM_SCRUB_BOUNDS_MAX_PERIOD stack)
      let p' := if d.getF R.MEM_SCRUB_THRESH_CE_HI stack < corrected then max (p / 2) lo
        else if corrected < d.getF R.MEM_SCRUB_THRESH_CE_LO stack then min (2 * p) hi else p
      if p' = p then d
      else if d.held MEM stack then d.policyWithheld MEM stack
      else (d.setF R.MEM_SCRUB_STATUS_PERIOD stack p').policyTaken MEM stack)

/-- A refused map write (R289, R313, R315). -/
def Dev.mapRefused (d : Dev) : Dev := d.setErr MEM 0 23

/-- MEM_MAP_WRITE (R48, R287, R314): job-locked; 3 is refused; a change clears every valid bit. -/
def execMemMapWrite (w : Writer) (v : Nat) (s : State) : Res :=
  s.byWriter w (fun d =>
    let old := d.getF R.MEM_MAP_INTERLEAVE 0
    let v := v % 4
    if d.rlOpen true MEM 0 = false then (if v = old then d else d.lockedWrite MEM 0)
    else if v = 3 then d.mapRefused
    else if v = old then d
    else (d.setF R.MEM_MAP_INTERLEAVE 0 v).invalidateAll)

/-- MEM_REGIONS_WRITE (R48, R289): job-locked; more than 383 GiB together is refused. A ring of NUM that the regions then
overlap is out of range (R238). -/
def execMemRegionsWrite (w : Writer) (mirror cache : Nat) (s : State) : Res :=
  s.byWriter w (fun d =>
    let m := mirror % 512
    let c := cache % 512
    let same := decide (d.getF R.MEM_REGIONS_MIRROR_GIB 0 = m) && decide (d.getF R.MEM_REGIONS_CACHE_GIB 0 = c)
    if d.rlOpen true MEM 0 = false then (if same then d else d.lockedWrite MEM 0)
    else if 383 < m + c then d.mapRefused
    else ((d.setF R.MEM_REGIONS_MIRROR_GIB 0 m).setF R.MEM_REGIONS_CACHE_GIB 0 c).checkRing)

/-- The spill area's base and size in bytes (R315). -/
def Dev.spillBase (d : Dev) : Nat :=
  d.getF R.MEM_SPILL_BASE_LO_ADDR_LO 0 * 2 ^ 16 + d.getF R.MEM_SPILL_BASE_HI_ADDR_HI 0 * 2 ^ 32

/-- The spill area's size in bytes (R314). -/
def Dev.spillSize (d : Dev) : Nat := d.getF R.MEM_SPILL_SIZE_MIB 0 * 2 ^ 20

/-- MEM_SPILL_WRITE (R48, R315): one of the three spill registers; job-locked; refused unless the area
that results lies in job memory. -/
def execMemSpillWrite (w : Writer) (offset v : Nat) (s : State) : Res :=
  s.byWriter w (fun d =>
    let d' := if offset = 0x94 then d.setF R.MEM_SPILL_BASE_LO_ADDR_LO 0 (v / 2 ^ 16)
      else if offset = 0x98 then d.setF R.MEM_SPILL_BASE_HI_ADDR_HI 0 v
      else if offset = 0x9C then d.setF R.MEM_SPILL_SIZE_MIB 0 v else d
    if d.rlOpen true MEM 0 = false then
      (if d'.spillBase = d.spillBase ∧ d'.spillSize = d.spillSize then d else d.lockedWrite MEM 0)
    else if d'.inJob d'.spillBase d'.spillSize then d'
    else d.mapRefused)

/-- Starts a recalibration of a channel that is not recalibrating (R305, R314). -/
def Dev.startRecal (d : Dev) (stack channel : Nat) : Dev :=
  if 8 ≤ stack ∨ 16 ≤ channel then d
  else d.setF R.MEM_CHAN_STATUS_RECAL_BUSY stack (setBit (d.getF R.MEM_CHAN_STATUS_RECAL_BUSY stack) channel)

/-- RECAL (R305): the write names CHANNEL and starts its recalibration. -/
def execRecal (w : Writer) (stack channel : Nat) (s : State) : Res :=
  s.byWriter w (fun d =>
    if 8 ≤ stack then d.badAccess (MEM * 2 ^ 23 + stack * 2 ^ 12 + 0xB8) true false true
    else
      let d := (d.setF R.MEM_CHAN_CTRL_CHANNEL stack channel).setAct R.MEM_CHAN_CTRL_CHANNEL stack channel
      d.startRecal stack (channel % 16))

/-- CHANNEL_MARGIN_RECAL (R305): the MC starts a recalibration by itself. -/
def execChannelMarginRecal (stack channel : Nat) (s : State) : Res :=
  s.onDev (fun d => d.startRecal stack channel)

/-- CHANNEL_RECAL_COMPLETE (R305, R491): the second failure in a row faults the channel for good and
puts the device into FAILED. -/
def execChannelRecalComplete (stack channel : Nat) (ok : Bool) (s : State) : Res :=
  s.onDev (fun d =>
    let busy := d.getF R.MEM_CHAN_STATUS_RECAL_BUSY stack
    if 8 ≤ stack ∨ bitOf busy channel = false then d
    else
      let d := d.setF R.MEM_CHAN_STATUS_RECAL_BUSY stack (clearBits busy (2 ^ channel))
      let k := stack * 16 + channel
      if ok then { d with mem := { d.mem with recalFails := mdel k d.mem.recalFails } }.bump RAS 0 5 1
      else
        let n := mget 0 d.mem.recalFails k + 1
        let d := { d with mem := { d.mem with recalFails := mput k n d.mem.recalFails } }
        if n < 2 then d
        else
          let nv := { d.nv with chanFault := mput stack (setBit (mget 0 d.nv.chanFault stack) channel) d.nv.chanFault }
          let d := Dev.setErrFull { d with nv := nv } MEM stack 22 2 9 0
          (d.raiseReplace MEM stack 4).failBlock GLB 0 2)

/-! ### The RAS log -/

/-- POP (R497): removes the oldest entry; ignored with none. -/
def execPop (w : Writer) (s : State) : Res := s.byWriter w (fun d => { d with rasLog := d.rasLog.tail })

/-- CLEAR_DROPPED (R497). -/
def execClearDropped (w : Writer) (s : State) : Res := s.byWriter w (fun d => d.setF R.RAS_LOG_STATUS_DROPPED 0 0)

/-- RAS_FIRST_CLEAR (R497). -/
def execRasFirstClear (w : Writer) (s : State) : Res :=
  s.byWriter w (fun d => (d.setF R.RAS_FIRST_LO_ENTRY 0 0).setF R.RAS_FIRST_HI_STEP 0 0)

end Sys2Proof.Machine
end

