-- ==== Sys2Proof/Machine/Power.lean ====
section
/-! DEFINITION. Power, clocks, resets and boot (R300, R337, R378, R392 to R394, R400, R450 to R472, R481, R482, R504,
R506, R529, R538, R539, R543). Time is counted by POWER_POLICY_TICK, 1 ms each. -/

namespace Sys2Proof.Machine

/-! ### What survives a reset (R461, R462, R473, R491) -/

/-- Fields that survive a warm reset (R462), and the health that GLB keeps until a power-on reset (R491). -/
def keptFields : List Field :=
  [R.GLB_DEV_NUM_VALID, R.GLB_DEV_NUM_DEV_NUM, R.MEM_MAP_INTERLEAVE, R.MEM_REGIONS_MIRROR_GIB, R.MEM_REGIONS_CACHE_GIB,
    R.MEM_SPILL_BASE_LO_ADDR_LO, R.MEM_SPILL_BASE_HI_ADDR_HI, R.MEM_SPILL_SIZE_MIB, R.SOW_PARTNER_VALID, R.SOW_PARTNER_DEVICE,
    R.FLW_SHADOW_LO_ADDR_LO, R.FLW_SHADOW_HI_ADDR_HI, R.FLW_RT_BASE_LO_ADDR_LO, R.FLW_RT_BASE_HI_ADDR_HI,
    R.PWR_CAP_CAP_W, R.PWR_CLK_BOUNDS_DIV_MIN]

/-- The health that GLB and RAS keep until a power-on reset (R491). -/
def keptHealth : List Field :=
  [R.BLK_HEALTH_REASON GLB, R.BLK_HEALTH_REPLACE_REQ GLB, R.RAS_REPLACE_FIRST, R.RAS_REPLACE_REASONS]

/-- Copies the listed fields of instance 0 from one map to another. -/
def keepFields (fs : List Field) (src dst : NMap Nat) : NMap Nat :=
  fs.foldl (fun m f => match mfind (f.key 0) src with
    | some v => mput (f.key 0) v m
    | none => m) dst

/-- An update that a reset interrupts leaves its bank as it was, erased, or written: a free value (R473, log entry
24). -/
def Dev.interrupted (d : Dev) : Dev :=
  match d.pwr.update with
  | some (.write t w im) =>
    if d.updateCode t w im ≠ 0 then d
    else
      let r := d.draw
      let k := 2 * t + r.2.targetBank t
      if r.1 % 3 = 0 then r.2
      else { r.2 with nv := { r.2.nv with banks := if r.1 % 3 = 1 then mdel k r.2.nv.banks else mput k im r.2.nv.banks } }
  | _ => d

/-- A recovery is due or runs: a job is active, or PHASE is RESET to REPLAY, or an earlier reset left it due (R394). -/
def Dev.mustRecover (d : Dev) : Bool :=
  let ph := d.getF R.SOW_RECOVERY_PHASE 0
  d.jobActive || d.pwr.recovering || (decide (1 ≤ ph) && decide (ph ≤ 5))

/-- What the model remembers of pairing and replay over a reset until boot has resumed them (log entry 21). -/
def Dev.keptSow (d : Dev) : Sow :=
  let x := d.sow
  let now := (d.pairState, d.getF R.SOW_SEAL_STATUS_SEALED_VALID 0, d.getF R.SOW_LAST_SEALED 0)
  { Sow.reset with
    partnerBase := x.partnerBase, partnerSteps := x.partnerSteps, partnerImage := x.partnerImage
    partnerItems := x.partnerItems, refetch := x.refetch, initCode := x.initCode
    kept := if d.pwr.booted then some now else x.kept, remirror := x.remirror
    replayUntil := if d.jobActive then some (max d.step (x.replayUntil.getD d.step)) else x.replayUntil }

/-- A reset leaves every mapped cell in plot 0 (R118). -/
def Dev.mapReset (d : Dev) : Dev := d.resetMembers 0

/-- RESET_CAUSE of the reset that runs (R479). -/
def Dev.showReset (d : Dev) : Dev :=
  (d.setF R.PWR_RESET_CAUSE_TYPE 0 d.pwr.resetType).setF R.PWR_RESET_CAUSE_CAUSE 0 d.pwr.resetCause

/-- SOW_RECOVERY.CAUSE of a warm reset's cause (R393, R404). -/
def sowCause : Nat → Nat
  | 4 => 1 | 3 => 2 | 7 => 2 | 5 => 3 | 8 => 3 | 6 => 4
  | _ => 0

/-- PHASE and CAUSE of a recovery that a reset begins (R394, R404). -/
def Dev.openRecovery (d : Dev) (cause : Nat) : Dev :=
  if d.pwr.recovering then (d.setF R.SOW_RECOVERY_PHASE 0 1).setF R.SOW_RECOVERY_CAUSE 0 cause else d

/-- The journal of a harvest goes into the image before the harvest is dropped (R280). -/
def Dev.saveJournal (d : Dev) : Dev := d.harvest.journal.foldl (fun d e => d.writeRaw (d.pImageBase + e.1) e.2) d

/-- The device at the trigger of a warm reset: every block is held, and what R462 lists survives; so do the words that
count towards the retirement of their rows (R303). -/
def Dev.warmState (d : Dev) (cause : Nat) : Dev :=
  let d := d.interrupted.saveJournal
  let fs := keptFields ++ keptHealth ++ (if d.getF R.FLW_RT_STATUS_CODE 0 = 2 then [R.FLW_RT_STATUS_CODE] else [])
  (Dev.openRecovery { Dev.reset with
    fresh := d.fresh, out := d.out, nv := d.nv, pins := d.pins
    mem := { d.mem with recalFails := [], sweep := [] }
    fields := keepFields fs d.fields resetFields, acting := keepFields fs d.acting [], sow := d.keptSow
    pwr := { Pwr.reset with restarts := d.pwr.restarts, held := true, resetType := 2, resetCause := cause,
                            recovering := d.mustRecover } } (sowCause cause)).showReset.mapReset.bump PWR 0 4 1

/-- The device at a cold reset: memory is lost, and every field but the health of R491 is at its reset value (R400,
R461). `phase` is where the power stage stands. -/
def Dev.coldState (d : Dev) (phase : PowerPhase) (cause : Nat) : Dev :=
  let d := d.interrupted
  (Dev.openRecovery { Dev.reset with
    fresh := d.fresh, out := d.out, nv := { d.nv with chanFault := [] }, pins := d.pins
    fields := keepFields keptHealth d.fields resetFields, acting := []
    sow := { d.keptSow with partnerBase := false, partnerSteps := [], partnerImage := 0, partnerItems := 0, refetch := [] }
    pwr := { Pwr.reset with phase := phase, restarts := d.pwr.restarts, held := d.pins.mrstLow, resetType := 1,
                            resetCause := cause, recovering := d.mustRecover } } 9).showReset.mapReset

/-- The device when the switch opens: the next reset is a power-on reset (R451, R453, R461). -/
def Dev.offState (d : Dev) : Dev :=
  let d := d.interrupted
  Dev.mapReset { Dev.reset with fresh := d.fresh, out := d.out, nv := { d.nv with chanFault := [] }, pins := d.pins,
                                pwr := { Pwr.reset with phase := .off } }

/-- A reset of the device: no port owns it (R529). -/
def State.reboot (s : State) (d : Dev) : Res := .next { s with own := ⟨0, 0, false⟩, dev := d }

/-! ### Warm resets (R460 to R462, R472, R538) -/

/-- Which of two causes of one warm reset is recorded (R538): the lower rank. -/
def causeRank : Nat → Nat
  | 8 => 0 | 5 => 1 | 4 => 2 | 6 => 3 | 7 => 4 | 3 => 5
  | _ => 6

/-- A trigger of a warm reset. While one holds the blocks, the cause that ranks first stands (R538); a cold or
power-on reset in progress keeps its record. -/
def State.warmTrigger (s : State) (cause : Nat) : Res :=
  let d := s.dev
  if d.pwr.phase ≠ .on then .next s
  else if !d.pwr.held then s.reboot (d.warmState cause)
  else if d.pwr.resetType = 2 ∧ causeRank cause < causeRank d.pwr.resetCause then
    .next { s with dev := (Dev.openRecovery { d with pwr := { d.pwr with resetCause := cause } } (sowCause cause)).showReset }
  else .next s

/-- The blocks are released; PHASE becomes BOOT, and RAIL_GLITCH is set after a glitch or ROOT_PLL (R394, R462, R478). -/
def Dev.release (d : Dev) : Dev :=
  let d := { d with pwr := { d.pwr with held := false } }
  let d := if d.pwr.recovering then d.setF R.SOW_RECOVERY_PHASE 0 2 else d
  if d.pwr.resetType = 2 ∧ (d.pwr.resetCause = 5 ∨ d.pwr.resetCause = 8) then d.setErr PWR 0 17 else d

/-- WARM_RESET (R462): the blocks that a trigger holds are released, unless the reset pin still holds them (R538). -/
def execWarmReset (s : State) : Res :=
  let d := s.dev
  if d.pwr.phase = .on ∧ d.pwr.held = true ∧ d.pins.mrstLow = false then .next { s with dev := d.release } else .next s

/-- GLB_SOFT_RESET (R46, R393). -/
def execGlbSoftReset (w : Writer) (s : State) : Res :=
  if s.own.mayWrite w && s.dev.up then s.warmTrigger 3 else .next s

/-- MC_WATCHDOG_EXPIRY (R393, R472): the MC that has booted no longer services its watchdog. During a handover
HANDOVER_WATCHDOG_TIMEOUT takes its place (R476). -/
def execMcWatchdogExpiry (s : State) : Res :=
  if s.dev.up && s.dev.pwr.booted && !s.dev.pwr.handover then s.warmTrigger 4 else .next s

/-- ROOT_PLL_LOSS_OF_LOCK (R460). -/
def execRootPllLossOfLock (s : State) : Res := s.warmTrigger 8

/-- MODULE_RESET_PIN (R538): low starts a warm reset; high releases a cold or power-on reset that the pin has held.
WARM_RESET releases a warm one. -/
def execModuleResetPin (low : Bool) (s : State) : Res :=
  let s := { s with dev := { s.dev with pins := { s.dev.pins with mrstLow := low } } }
  if low then s.warmTrigger 7
  else if s.dev.pwr.phase = .on ∧ s.dev.pwr.held = true ∧ s.dev.pwr.resetType ≠ 2 then .next { s with dev := s.dev.release }
  else .next s

/-- The third MC-only reset within 600 s is an MC reset loop (R392, R472). Decisions of the open step that the MC cannot
derive again are withheld: which ones is a free value (log entry 24). -/
def State.mcReset (s : State) : Res :=
  let d := s.dev
  if !d.up || !d.pwr.booted then .next s
  else
    let ages := d.pwr.mcResets ++ [0]
    if 3 ≤ ages.length then s.warmTrigger 6
    else
      let d := Dev.setErrFull { d with pwr := { d.pwr with mcResets := ages } } PWR 0 4 1 0 0
      let d := (d.bump PWR 0 5 1).setF R.PWR_MC_RESETS_600S 0 ages.length
      let r := d.draw
      if r.1 % 2 = 0 then .next { s with dev := r.2 }
      else
        let d := r.2
        let rebs := d.ctl.decisions.filter isRebalance
        let d := { d with ctl := { d.ctl with decisions := d.ctl.decisions.filter (fun x => !isRebalance x) },
                          sow := { d.sow with capNext := none } }
        .next { s with dev := d.withdraw rebs }

/-- MC_SRAM_UNCORRECTABLE (R392, R472). -/
def execMcSramUncorrectable (s : State) : Res := s.mcReset

/-! ### Cold resets and the power stage (R450 to R455, R459, R539) -/

/-- COLD (R461): a write of KEY 0xC01D; another key does nothing. -/
def execCold (w : Writer) (key : Nat) (s : State) : Res :=
  if s.own.mayWrite w && s.dev.up && decide (key = 0xC01D) then s.reboot (s.dev.coldState .on 2) else .next s

/-- HOT_SWAP_CLOSE (R451): the switch closes and the bulk storage charges. -/
def execHotSwapClose (s : State) : Res :=
  let d := s.dev
  if d.pwr.phase = .off ∧ d.pwr.latched = false ∧ d.pwr.tripped = false then
    .next { s with dev := { d with pwr := { d.pwr with phase := .charging } } }
  else .next s

/-- RAIL_POWER_UP (R451, R454, R538): the rails have started, and the blocks are released unless the reset pin is low. -/
def execRailPowerUp (s : State) : Res :=
  let d := s.dev
  if d.pwr.phase = .charging ∨ d.pwr.phase = .sequencing then
    .next { s with dev := { d with pwr := { d.pwr with phase := .on, held := true } }.showReset |> fun d =>
      if d.pins.mrstLow then d else d.release }
  else .next s

/-- HOT_SWAP_OPEN (R451, R455, R539): every rail powers down, the stacks lose their contents, and a latched or tripped
module is released once its input is removed. -/
def execHotSwapOpen (s : State) : Res := s.reboot s.dev.offState

/-- INPUT_DIP (R451). -/
def execInputDip (s : State) : Res := s.onDev (fun d => (d.bump PWR 0 6 1).setErr PWR 0 16)

/-- A power-up restart (R455): the third within 60 s latches FAULT_L with the rails off. -/
def State.restart (s : State) (cause : Nat) : Res :=
  let d := s.dev
  let ages := d.pwr.restarts ++ [0]
  let d := { d with pwr := { d.pwr with restarts := ages } }
  if 3 ≤ ages.length then
    let d := d.coldState .off cause
    s.reboot { d with pwr := { d.pwr with latched := true } }
  else s.reboot (d.coldState .sequencing cause)

/-- RAIL_OUT_OF_WINDOW (R454, R455): a stack rail restarts power-up; another rail that returns within 1 ms makes a warm
reset, and one that has not returned shows in PWR_RAILS. -/
def execRailOutOfWindow (rail : Nat) (back : Bool) (s : State) : Res :=
  let d := s.dev
  if d.pwr.phase ≠ .on ∨ 9 ≤ rail then .next s
  else if rail = 1 ∨ rail = 2 then s.restart 9
  else if back then s.warmTrigger 5
  else .next { s with dev := d.setF R.PWR_RAILS_PGOOD 0 (clearBits (d.getF R.PWR_RAILS_PGOOD 0) (2 ^ rail)) }

/-- RAIL_FAULT_TIMEOUT (R455): a rail has been outside its window for more than 1 ms. -/
def execRailFaultTimeout (rail : Nat) (s : State) : Res :=
  let d := s.dev
  if d.pwr.phase = .on ∧ rail < 9 ∧ bitOf (d.getF R.PWR_RAILS_PGOOD 0) rail = false then s.restart 11 else .next s

/-- A thermal trip: every rail is off and FAULT_L is asserted until power-up restarts (R459, R539). -/
def State.trip (s : State) : Res :=
  if s.dev.pwr.phase = .on then
    let d := s.dev.coldState .off 10
    s.reboot { d with pwr := { d.pwr with tripped := true } }
  else .next s

/-- THERMAL_TRIP (R459): a sensor of a group is at its trip threshold. -/
def execThermalTrip (group : Nat) (s : State) : Res := if group < 4 then s.trip else .next s

/-- SENSOR_NO_VALUE_TIMEOUT (R543): a sensor without a value is taken to read its trip threshold. -/
def execSensorNoValueTimeout (group : Nat) (s : State) : Res := if group < 4 then s.trip else .next s

/-- THERMAL_RESTART (R459): every sensor has been below its throttle threshold for 10 s. -/
def execThermalRestart (s : State) : Res :=
  let d := s.dev
  if d.pwr.tripped then .next { s with dev := { d with pwr := { d.pwr with tripped := false, phase := .sequencing } } } else .next s

/-! ### The power policy (R457, R458, R478, R479, R543) -/

/-- Throttle and trip thresholds of CD0, CD1, IOD and STK (R543). -/
def thresholds : List (Int × Int) := [(95, 110), (95, 110), (95, 110), (85, 100)]

/-- A reading outside −20 °C to 150 °C is taken to be the trip threshold (R543). -/
def takenReading (t trip : Int) : Int := if t < -20 ∨ 150 < t then trip else t

/-- The readings of the four groups, each with its thresholds. -/
def readings (p : PowerSample) : List (Int × Int × Int) :=
  ([p.cd0, p.cd1, p.iod, p.stk].zip thresholds).map (fun x => (takenReading x.1 x.2.2, x.2.1, x.2.2))

/-- Shows a temperature; no rule says what a negative one shows as: a free value. -/
def Dev.showTemp (d : Dev) (f : Field) (t : Int) : Dev :=
  if t < 0 then
    let r := d.draw
    r.2.setF f 0 r.1
  else d.setF f 0 t.toNat

/-- The measured values that the registers show. -/
def Dev.showPower (d : Dev) (p : PowerSample) : Dev :=
  let d := ((d.setF R.PWR_INPUT_VIN 0 p.vin).setF R.PWR_INPUT_IIN 0 p.iin).setF R.PWR_POWER_P_1MS 0 p.p1ms
  let d := d.setF R.PWR_POWER_P_1S 0 p.p1s
  ((([R.PWR_TEMP_CD0, R.PWR_TEMP_CD1, R.PWR_TEMP_IOD, R.PWR_TEMP_STK].zip (readings p)).foldl (fun d x => d.showTemp x.1 x.2.1) d))

/-- CAP and DIV_MIN as they act (R479). -/
def Dev.powerCap (d : Dev) : Nat := max 1000 (min 1800 (d.getF R.PWR_CAP_CAP_W 0))
/-- DIV_MIN as it acts (R479). -/
def Dev.divMin (d : Dev) : Nat := max 4 (min 6 (d.getF R.PWR_CLK_BOUNDS_DIV_MIN 0))

/-- Cells without work take up the target, and LAGGING counts the others (R457). -/
def Dev.spreadDivider (d : Dev) : Dev :=
  let t := d.getF R.PWR_CLK_STATUS_TARGET 0
  let idle (c : Nat) : Bool := decide (d.desig c ≠ 2) && (d.cell c).passes.isEmpty && decide (d.getF R.CEL_ARRAY_STATUS_DIVIDER c ≠ t)
  let d := ((List.range 1152).filter idle).foldl (fun d c => d.setF R.CEL_ARRAY_STATUS_DIVIDER c t) d
  d.setF R.PWR_CLK_STATUS_LAGGING 0 d.lagging

/-- A new target (R42, R457, R458, R478). -/
def Dev.newTarget (d : Dev) (t forced : Nat) : Dev :=
  let d := ((d.setF R.PWR_CLK_STATUS_TARGET 0 t).setF R.PWR_CLK_STATUS_FORCED 0 forced).bump PWR 0 3 1
  let d := if forced = 1 then d.setErr PWR 0 18 else d
  (d.policyTaken PWR 0).spreadDivider

/-- A target below DIV_MIN, as a warm reset may leave it, moves to DIV_MIN (R458); FORCED keeps the last rule's value. -/
def Dev.raiseTarget (d : Dev) : Dev := ((d.setF R.PWR_CLK_STATUS_TARGET 0 d.divMin).bump PWR 0 3 1).spreadDivider

/-- The words corrected in the last 24 hours, a tick older (R303). -/
def Dev.ageRows (d : Dev) : Dev :=
  let older (ws : NMap Nat) : NMap Nat := (ws.map (fun e => (e.1, e.2 + 1))).filter (fun e => decide (e.2 < 86400000))
  { d with mem := { d.mem with
      rowCe := (d.mem.rowCe.map (fun e => (e.1, older e.2))).filter (fun e => !e.2.isEmpty) } }

/-- The fault cloches that the flash records, a tick older (R487). -/
def Dev.ageFaults (d : Dev) : Dev :=
  { d with nv := { d.nv with faultCloches := d.nv.faultCloches.map (fun e => (e.1, e.2.map (· + 1))) } }

/-- What the arrays of the device met in the last millisecond: each corrected error shows on its page and counts on RAS,
one of a cell on the cell too (R115, R481, R497), and wrong bits stand in the words of the stacks until an access meets them (R295). -/
def Dev.noteErrors (d : Dev) (p : PowerSample) : Dev :=
  let count (d : Dev) (x : Page × Nat) : Dev :=
    if !pageExists x.1.cls x.1.inst || decide (x.2 = 0) then d
    else
      let d := ((d.setErr x.1.cls x.1.inst 3).bump RAS 0 0 (x.2 - 1))
      if x.1.cls = CEL then d.bump CEL x.1.inst 5 x.2 else d
  Dev.takeFlips (p.corrected.foldl count d) 0 memTop p.upsets

/-- The rule of R458 after the counts of the tick: no new target while a cell lags (R457). -/
def Dev.moveTarget (d : Dev) (p : PowerSample) : Dev :=
  let t := d.getF R.PWR_CLK_STATUS_TARGET 0
  if d.getF R.PWR_CLK_STATUS_LAGGING 0 ≠ 0 then d
  else if decide (10 ≤ d.pwr.overMs) || (readings p).any (fun x => decide (x.2.1 ≤ x.1)) then
    if t < 6 then d.newTarget (max (t + 1) d.divMin) 1 else d
  else if 1000 ≤ d.pwr.coolMs ∧ d.divMin < t then
    if d.held PWR 0 then d.policyWithheld PWR 0 else d.newTarget (t - 1) 0
  else if t < d.divMin then d.raiseTarget
  else d

/-- The counts that R458 keeps; CAP_MISSED after 100 ms above the cap at ÷6. -/
def Dev.countPower (d : Dev) (p : PowerSample) : Dev :=
  let t := d.getF R.PWR_CLK_STATUS_TARGET 0
  let above := decide (d.powerCap < p.p1ms)
  let cool := decide (100 * p.p1ms < 85 * d.powerCap) && (readings p).all (fun x => decide (x.1 + 5 ≤ x.2.1))
  let miss := if above && decide (t = 6) then d.pwr.capMs + 1 else 0
  let d := { d with pwr := { d.pwr with overMs := if above then d.pwr.overMs + 1 else 0,
                                        coolMs := if cool then d.pwr.coolMs + 1 else 0, capMs := miss } }
  if 100 ≤ miss then d.setErr PWR 0 19 else d

/-- One millisecond passes: energy, time at a divider, the watchdog, and the ages of restarts and MC resets (R455, R472,
R478, R479). -/
def Dev.passMs (d : Dev) (p : PowerSample) : Dev :=
  let e := d.pwr.energy + p.p1ms
  let older (lim : Nat) (xs : List Nat) : List Nat := (xs.map (· + 1)).filter (fun a => decide (a < lim))
  let t := d.getF R.PWR_CLK_STATUS_TARGET 0
  let d := { d with pwr := { d.pwr with energy := e % 1000, restarts := older 60000 d.pwr.restarts,
                                        mcResets := older 600000 d.pwr.mcResets } }
  let d := d.bump PWR 0 0 (e / 1000)
  let d := if t = 5 then d.bump PWR 0 1 1 else if t = 6 then d.bump PWR 0 2 1 else d
  (d.setF R.PWR_MC_RESETS_600S 0 d.pwr.mcResets.length).setF R.PWR_MC_WDT_MS 0 ((d.getF R.PWR_MC_WDT_MS 0 + 1) % 100)

/-- A tick of the policy on a device whose MC runs. -/
def Dev.policyTick (d : Dev) (p : PowerSample) : Dev :=
  ((((((d.handoverDone.passMs p).ageRows.ageFaults.noteErrors p).showPower p).countPower p).spreadDivider).moveTarget p)

/-- POWER_POLICY_TICK (R457 to R459, R472, R476, R543): a reading at its trip threshold trips. -/
def execPowerPolicyTick (p : PowerSample) (s : State) : Res :=
  if s.dev.up && s.dev.pwr.booted && decide (s.dev.getF R.PWR_FW_STATUS_BOOT 0 ≠ 2) then
    if (readings p).any (fun x => decide (x.2.2 ≤ x.1)) then s.trip else .next { s with dev := s.dev.policyTick p }
  else .next s

/-! ### Boot (R337, R378, R394, R470, R471, R482, R506) -/

/-- The leaf index lies in the block that the fuses allow, or is moved up (R506). -/
def Dev.checkLeaf (d : Dev) : Dev :=
  let f := d.nv.lmsBlocks
  if 1024 * (f - 1) ≤ d.nv.lmsQ ∧ d.nv.lmsQ ≤ 1024 * f then d
  else Dev.setErr { d with nv := { d.nv with lmsQ := 1024 * f } } SEC 0 17

/-- The flows that have a shadow entry with a byte listed. -/
def Dev.shadowFlows (d : Dev) : List Nat :=
  let b := d.shadowBase
  ((d.mem.bytes.filter (fun c => inRange c.1 b (64 * 2 ^ 18))).map (fun c => (c.1 - b) / 64)).foldl (fun ks k => insertSet k ks) []

/-- Reloads a flow from its shadow entry, unless that is poisoned or not valid, and sends RESYNC (R337). -/
def Dev.reloadFlow (d : Dev) (f : Nat) : Dev :=
  let a := d.shadowBase + 64 * f
  if decide (d.shadowBase = 0) || (d.poisonIn a 64).isSome then d
  else
    let w := flowFrom (d.bytes a 64) 3
    if w.state = 0 then d else (d.setFlow f w).control f 0x12

/-- Routes and flows come back after a warm reset (R337). -/
def Dev.reloadFabric (d : Dev) : Dev :=
  let d := if d.getF R.FLW_RT_STATUS_CODE 0 = 2 then d.loadRoutes else d
  if d.shadowBase = 0 then d else d.shadowFlows.foldl (fun d f => d.reloadFlow f) d

/-- The pairing is resumed; a region that is not whole, as after every cold reset, is asked for again (R378, R394). -/
def Dev.resumePair (d : Dev) : Dev :=
  match d.sow.kept with
  | some (st, valid, last) =>
    let d := { d with sow := { d.sow with kept := none } }
    if 2 ≤ st ∧ st ≤ 4 then
      let d := ((d.setPair st).setF R.SOW_SEAL_STATUS_SEALED_VALID 0 valid).setF R.SOW_LAST_SEALED 0 last
      if d.pwr.resetType ≠ 2 ∨ (d.regionState ≠ 1 ∧ d.regionState ≠ 2) then
        Dev.askMirror { d with sow := { d.sow with remirror := true } }
      else d
    else d
  | none => d

/-- The recovery that a reset left due reaches CONFIG, or fails (R366, R394). -/
def Dev.resumeJob (d : Dev) : Dev :=
  if !d.pwr.recovering then d.setF R.SOW_RECOVERY_PHASE 0 0
  else
    let d := { d with pwr := { d.pwr with recovering := false } }
    if d.canRestore then
      (d.setF R.SOW_REPLAY_FROM 0 ((d.getF R.SOW_LAST_SEALED 0 + 1) % 2 ^ 64)).toConfig (d.getF R.SOW_RECOVERY_CAUSE 0)
    else d.recoveryFailed

/-- What step 3 of R471 finds in the records: fewer cells, spare rows or channels than the device needs (R491). A
channel that a warm reset finds faulted fails the device again (R305). -/
def Dev.checkHealth (d : Dev) : Dev :=
  let d := (List.range 8).foldl (fun d k => d.memHealth d k) d.checkCells
  (List.range 8).foldl (fun (d : Dev) k =>
    if mget 0 d.nv.chanFault k = 0 then d
    else ((d.setErrFull MEM k 22 2 9 0).raiseReplace MEM k 4).failBlock GLB 0 2) d

/-- Steps 3 and 4 of R471. -/
def Dev.startMcf (d : Dev) : Dev :=
  let d := d.checkLeaf.checkHealth
  let d := if d.pwr.resetType = 2 then d.reloadFabric else d
  let d := d.offerFeatures
  let d := if d.blk GLB 0 = stFailed then d else d.setBlk GLB 0 stReady
  d.resumePair.resumeJob

/-- BOOT (R463, R470, R471, R482, R501): once after each release of the blocks; the key engine derives its keys. -/
def execBoot (f : BootFindings) (s : State) : Res :=
  s.onDev (fun d =>
    if d.pwr.booted then d
    else
      let r := Dev.loadFirmware { d with pwr := { d.pwr with keys := some (IdKeys.derive d.nv.secret) } }
      if !r.1 then r.2.failBlock GLB 0 2
      else if f.recordsLost then (r.2.raiseReplace GLB 0 5).failBlock GLB 0 2
      else (if f.recordCopyBad then r.2.setErr PWR 0 22 else r.2).startMcf)

/-! ### Uncorrectable errors in other arrays (R481) -/

/-- Sets whose destinations meet a stack are discarded, and the loss is one of regenerable job data (R391, R481). -/
def Dev.loseStaging (d : Dev) (k : Nat) : Dev :=
  let hit (xs : List SetAdd) : Bool := xs.any (fun a => decide (d.stackOf a.addr = k))
  let d := (d.setErrFull MEM k 4 1 0 0)
  let d := { d with sets := d.sets.filter (fun x => !hit x.adds),
                    cells := d.cells.map (fun (e : Nat × Cell) => if hit e.2.adds then (e.1, { e.2 with adds := [] }) else e) }
  d.ueRegenerable 0

/-- A unit's array fails: its page shows it, and the unit is cloched. -/
def Dev.loseUnit (d : Dev) (c i : Nat) : Dev :=
  if !pageExists c i then d
  else
    let d := d.setErrFull c i 4 0 1 0
    if stCloched ≤ d.blk c i then d else d.clocheBlock c i

/-- The tile counters or phase states fail: an in-place replay, whose CAUSE no rule gives: a free value. -/
def Dev.loseCounters (d : Dev) : Dev :=
  let d := d.setErrFull TRL 0 4 1 7 0
  let r := d.draw
  if d.jobActive then { r.2 with ctl := { r.2.ctl with replayAsked := 16 + r.1 % 16 } } else d

/-- What the protection table gives an uncorrectable error (R481), the sites of a device reset apart. -/
def Dev.sramFault (d : Dev) (site : SramSite) : Dev :=
  match site with
  | .cellInstr c => d.cellFault c .ifetchUncorr
  | .cellStore c => d.cellFault c .storeUncorr
  | .cellStoreDma c ch a => d.haltChannel c ch a
  | .cellState c => d.cellFault c .arrayParity
  | .stationary c => d.cellFault c .arrayParity
  | .trellisMap => (d.setErr TRL 0 4).bump TRL 0 5 1
  | .trellisCounters => d.loseCounters
  | .validCache k => if k < 8 then d.setErr MEM k 4 else d
  | .staging k => if k < 8 then d.loseStaging k else d
  | .flowContext f => (d.setErrFull FLW 0 4 0 5 0).reloadFlow f
  | .routeTable => (d.setErr FLW 0 4).loadRoutes
  | .replayBuffer i =>
    if 32 ≤ i then d
    else
      let d := d.setErrFull LNK i 4 0 4 0
      if d.live i then d.startRetrain i else d
  | .mediaSlice i => d.loseUnit MED i
  | .pipeUnit i => d.loseUnit PIP i
  | .thinUnit i => d.loseUnit THN i
  | .pcieBuffer i => if i < 2 then d.setErr PCI i 17 else d
  | .flashRecord => d.setErr RAS 0 20
  | .flashCopy => d.setErr PWR 0 22
  | _ => d

/-- SRAM_UNCORRECTABLE (R391 to R394, R481, R482): the response pool and the owner state of the collective engines make
a device transient, whose PWR_RESET_CAUSE.CAUSE no rule gives: a free value. -/
def execSramUncorrectable (site : SramSite) (s : State) : Res :=
  match site with
  | .mcSram => s.mcReset
  | .responsePool =>
    let r := s.dev.draw
    if s.dev.up then State.warmTrigger { s with dev := r.2 } (16 + r.1) else .next s
  | .ownerState =>
    let r := s.dev.draw
    if s.dev.up then State.warmTrigger { s with dev := r.2 } (16 + r.1) else .next s
  | _ => s.onDev (fun d => d.sramFault site)

end Sys2Proof.Machine
end

