-- ==== Sys2Proof/Machine/Dispatch.lean ====
section
/-! DEFINITION. The meaning of each command: one arm per constructor of Instr. -/

namespace Sys2Proof.Machine

/-- A command's effect on everything but the queue, which it leaves as it finds it. -/
def exec (i : Instr) (s : State) : Host.Outcome State Fault Refusal :=
  match i with
  | .stepMark c => Sys2Proof.Machine.execStepMark c s
  | .stepBoundary m => Sys2Proof.Machine.execStepBoundary m s
  | .sealAck step => Sys2Proof.Machine.execSealAck step s
  | .registerWrite w offset size value => Sys2Proof.Machine.execRegisterWrite w offset size value s
  | .counterLoRead offset size => Sys2Proof.Machine.execCounterLoRead offset size s
  | .rwFieldTakesEffect p => Sys2Proof.Machine.execRwFieldTakesEffect p s
  | .enable w p v => Sys2Proof.Machine.execEnable w p v s
  | .blockInitComplete p => Sys2Proof.Machine.execBlockInitComplete p s
  | .softReset w p => Sys2Proof.Machine.execSoftReset w p s
  | .glbSoftReset w => Sys2Proof.Machine.execGlbSoftReset w s
  | .clocheReq w p v => Sys2Proof.Machine.execClocheReq w p v s
  | .quiesceReq w p v => Sys2Proof.Machine.execQuiesceReq w p v s
  | .blockQuiesced p => Sys2Proof.Machine.execBlockQuiesced p s
  | .blockClochedAtBoundary p => Sys2Proof.Machine.execBlockClochedAtBoundary p s
  | .clocheTestComplete p r => Sys2Proof.Machine.execClocheTestComplete p r s
  | .blockFailed p => Sys2Proof.Machine.execBlockFailed p s
  | .blkCommit w p seq group => Sys2Proof.Machine.execBlkCommit w p seq group s
  | .blkCommitAbort w p => Sys2Proof.Machine.execBlkCommitAbort w p s
  | .commitApply p => Sys2Proof.Machine.execCommitApply p s
  | .groupCommit w seq => Sys2Proof.Machine.execGroupCommit w seq s
  | .groupCommitAbort w => Sys2Proof.Machine.execGroupCommitAbort w s
  | .negotiationGo w => Sys2Proof.Machine.execNegotiationGo w s
  | .negotiationComplete => Sys2Proof.Machine.execNegotiationComplete s
  | .jobStart w => Sys2Proof.Machine.execJobStart w s
  | .jobEnd w => Sys2Proof.Machine.execJobEnd w s
  | .cellFault cell k => Sys2Proof.Machine.execCellFault cell k s
  | .cellTestComplete cell t => Sys2Proof.Machine.execCellTestComplete cell t s
  | .plotRebalanceCompute => Sys2Proof.Machine.execPlotRebalanceCompute s
  | .formatPromotionDecide => Sys2Proof.Machine.execFormatPromotionDecide s
  | .add cell rd rs rt => Sys2Proof.Machine.execAdd cell rd rs rt s
  | .sub cell rd rs rt => Sys2Proof.Machine.execSub cell rd rs rt s
  | .mul cell rd rs rt => Sys2Proof.Machine.execMul cell rd rs rt s
  | .and cell rd rs rt => Sys2Proof.Machine.execAnd cell rd rs rt s
  | .or cell rd rs rt => Sys2Proof.Machine.execOr cell rd rs rt s
  | .xor cell rd rs rt => Sys2Proof.Machine.execXor cell rd rs rt s
  | .shl cell rd rs rt => Sys2Proof.Machine.execShl cell rd rs rt s
  | .shr cell rd rs rt => Sys2Proof.Machine.execShr cell rd rs rt s
  | .cmp cell cond rd rs rt => Sys2Proof.Machine.execCmp cell cond rd rs rt s
  | .li cell rd imm long => Sys2Proof.Machine.execLi cell rd imm long s
  | .br cell target => Sys2Proof.Machine.execBr cell target s
  | .bcc cell cond rs target => Sys2Proof.Machine.execBcc cell cond rs target s
  | .call cell target => Sys2Proof.Machine.execCall cell target s
  | .ret cell => Sys2Proof.Machine.execRet cell s
  | .halt cell => Sys2Proof.Machine.execHalt cell s
  | .ld cell rd rs offset bytes => Sys2Proof.Machine.execLd cell rd rs offset bytes s
  | .st cell rv rs offset bytes => Sys2Proof.Machine.execSt cell rv rs offset bytes s
  | .scfg cell role d => Sys2Proof.Machine.execScfg cell role d s
  | .scan cell rd mode => Sys2Proof.Machine.execScan cell rd mode s
  | .stake cell a => Sys2Proof.Machine.execStake cell a s
  | .measureComplete plot phase => Sys2Proof.Machine.execMeasureComplete plot phase s
  | .load cell chunk => Sys2Proof.Machine.execLoad cell chunk s
  | .pass cell a => Sys2Proof.Machine.execPass cell a s
  | .passBoundary cell => Sys2Proof.Machine.execPassBoundary cell s
  | .drain cell a => Sys2Proof.Machine.execDrain cell a s
  | .vld cell a => Sys2Proof.Machine.execVld cell a s
  | .vst cell a => Sys2Proof.Machine.execVst cell a s
  | .vop cell k t vd va vb vc => Sys2Proof.Machine.execVop cell k t vd va vb vc s
  | .vred cell k t vd vs => Sys2Proof.Machine.execVred cell k t vd vs s
  | .vtbl cell op => Sys2Proof.Machine.execVtbl cell op s
  | .vrng cell purpose vd sa sb conv => Sys2Proof.Machine.execVrng cell purpose vd sa sb conv s
  | .dma cell channel remote op => Sys2Proof.Machine.execDma cell channel remote op s
  | .dmas cell channel entry first vreg t count => Sys2Proof.Machine.execDmas cell channel entry first vreg t count s
  | .dmaComplete cell channel uncorr => Sys2Proof.Machine.execDmaComplete cell channel uncorr s
  | .dmaRestart cell channel => Sys2Proof.Machine.execDmaRestart cell channel s
  | .tget cell rd a => Sys2Proof.Machine.execTget cell rd a s
  | .tdone cell => Sys2Proof.Machine.execTdone cell s
  | .tbar cell => Sys2Proof.Machine.execTbar cell s
  | .wait cell e count => Sys2Proof.Machine.execWait cell e count s
  | .fence cell => Sys2Proof.Machine.execFence cell s
  | .stakedSetApply cell tile => Sys2Proof.Machine.execStakedSetApply cell tile s
  | .stageDeadlock => Sys2Proof.Machine.execStageDeadlock s
  | .thnConv r => Sys2Proof.Machine.execThnConv r s
  | .thnArgmax r => Sys2Proof.Machine.execThnArgmax r s
  | .thnTopk unit hostScores => Sys2Proof.Machine.execThnTopk unit hostScores s
  | .thnSort unit hostScores => Sys2Proof.Machine.execThnSort unit hostScores s
  | .thnRequestComplete unit => Sys2Proof.Machine.execThnRequestComplete unit s
  | .numRingCons w v => Sys2Proof.Machine.execNumRingCons w v s
  | .numXrecSel w cell kind => Sys2Proof.Machine.execNumXrecSel w cell kind s
  | .numXrecClear w cell kind => Sys2Proof.Machine.execNumXrecClear w cell kind s
  | .sieveRecompute slot => Sys2Proof.Machine.execSieveRecompute slot s
  | .sieveCheck slot => Sys2Proof.Machine.execSieveCheck slot s
  | .plotRun c => Sys2Proof.Machine.execPlotRun c s
  | .plotRunComplete plot => Sys2Proof.Machine.execPlotRunComplete plot s
  | .gradPlan c => Sys2Proof.Machine.execGradPlan c s
  | .gradDone c => Sys2Proof.Machine.execGradDone c s
  | .positionLoad c => Sys2Proof.Machine.execPositionLoad c s
  | .bucketExchangeStart bucket => Sys2Proof.Machine.execBucketExchangeStart bucket s
  | .allGather c => Sys2Proof.Machine.execAllGather c s
  | .broadcast c => Sys2Proof.Machine.execBroadcast c s
  | .barrier c => Sys2Proof.Machine.execBarrier c s
  | .cExp p => Sys2Proof.Machine.execCExp p s
  | .cM p => Sys2Proof.Machine.execCM p s
  | .cInt p => Sys2Proof.Machine.execCInt p s
  | .cRes p t1 tx => Sys2Proof.Machine.execCRes p t1 tx s
  | .cData p => Sys2Proof.Machine.execCData p s
  | .cBar p => Sys2Proof.Machine.execCBar p s
  | .cBarRel p => Sys2Proof.Machine.execCBarRel p s
  | .collectiveWaitLong engine => Sys2Proof.Machine.execCollectiveWaitLong engine s
  | .collectiveWaitLimit engine => Sys2Proof.Machine.execCollectiveWaitLimit engine s
  | .put p => Sys2Proof.Machine.execPut p s
  | .get p => Sys2Proof.Machine.execGet p s
  | .getResp p => Sys2Proof.Machine.execGetResp p s
  | .atomic p => Sys2Proof.Machine.execAtomic p s
  | .atomicResp p => Sys2Proof.Machine.execAtomicResp p s
  | .sadd p => Sys2Proof.Machine.execSadd p s
  | .opStatus p => Sys2Proof.Machine.execOpStatus p s
  | .ack p => Sys2Proof.Machine.execAck p s
  | .nack p => Sys2Proof.Machine.execNack p s
  | .resync p => Sys2Proof.Machine.execResync p s
  | .resyncAck p => Sys2Proof.Machine.execResyncAck p s
  | .packetBadOpcode p => Sys2Proof.Machine.execPacketBadOpcode p s
  | .standaloneAckTimer flow => Sys2Proof.Machine.execStandaloneAckTimer flow s
  | .e2eRetransmitTimeout flow => Sys2Proof.Machine.execE2eRetransmitTimeout flow s
  | .flowStalled flow => Sys2Proof.Machine.execFlowStalled flow s
  | .flwCmdRead w => Sys2Proof.Machine.execFlwCmdRead w s
  | .flwCmdWrite w => Sys2Proof.Machine.execFlwCmdWrite w s
  | .flwCmdClose w => Sys2Proof.Machine.execFlwCmdClose w s
  | .routeTableLoad w => Sys2Proof.Machine.execRouteTableLoad w s
  | .flwShadowWrite w hi v => Sys2Proof.Machine.execFlwShadowWrite w hi v s
  | .lnkVlBufWrite w port hi v => Sys2Proof.Machine.execLnkVlBufWrite w port hi v s
  | .portSignalDetect port n => Sys2Proof.Machine.execPortSignalDetect port n s
  | .portTrainingComplete port => Sys2Proof.Machine.execPortTrainingComplete port s
  | .retrain w port => Sys2Proof.Machine.execRetrain w port s
  | .laneFailure port lane => Sys2Proof.Machine.execLaneFailure port lane s
  | .serdesPllLoss lanes => Sys2Proof.Machine.execSerdesPllLoss lanes s
  | .retrainComplete port lanes => Sys2Proof.Machine.execRetrainComplete port lanes s
  | .flitReceive port f => Sys2Proof.Machine.execFlitReceive port f s
  | .flitTransmit port => Sys2Proof.Machine.execFlitTransmit port s
  | .linkReplayTimeout port => Sys2Proof.Machine.execLinkReplayTimeout port s
  | .transitTimeout port vl => Sys2Proof.Machine.execTransitTimeout port vl s
  | .memoryRead addr len errors => Sys2Proof.Machine.execMemoryRead addr len errors s
  | .memoryWrite addr data => Sys2Proof.Machine.execMemoryWrite addr data s
  | .sadd128 addr q => Sys2Proof.Machine.execSadd128 addr q s
  | .sadd64 addr q => Sys2Proof.Machine.execSadd64 addr q s
  | .sadd32 addr q => Sys2Proof.Machine.execSadd32 addr q s
  | .patrolScrubLine line errors => Sys2Proof.Machine.execPatrolScrubLine line errors s
  | .scrubRateUpdate stack corrected => Sys2Proof.Machine.execScrubRateUpdate stack corrected s
  | .ueReport addr source => Sys2Proof.Machine.execUeReport addr source s
  | .memMapWrite w v => Sys2Proof.Machine.execMemMapWrite w v s
  | .memRegionsWrite w mirror cache => Sys2Proof.Machine.execMemRegionsWrite w mirror cache s
  | .memSpillWrite w offset v => Sys2Proof.Machine.execMemSpillWrite w offset v s
  | .recal w stack channel => Sys2Proof.Machine.execRecal w stack channel s
  | .channelRecalComplete stack channel ok => Sys2Proof.Machine.execChannelRecalComplete stack channel ok s
  | .pair w ackKey => Sys2Proof.Machine.execPair w ackKey s
  | .pairGraft w ackKey => Sys2Proof.Machine.execPairGraft w ackKey s
  | .unpair w => Sys2Proof.Machine.execUnpair w s
  | .pairReq p => Sys2Proof.Machine.execPairReq p s
  | .pairAck p => Sys2Proof.Machine.execPairAck p s
  | .pairResponseTimeout => Sys2Proof.Machine.execPairResponseTimeout s
  | .unpairMsg p => Sys2Proof.Machine.execUnpairMsg p s
  | .remirror p => Sys2Proof.Machine.execRemirror p s
  | .mirrorSend => Sys2Proof.Machine.execMirrorSend s
  | .base p => Sys2Proof.Machine.execBase p s
  | .delta p => Sys2Proof.Machine.execDelta p s
  | .record p => Sys2Proof.Machine.execRecord p s
  | .heartbeat p => Sys2Proof.Machine.execHeartbeat p s
  | .heartbeatTimer => Sys2Proof.Machine.execHeartbeatTimer s
  | .partnerSilenceTimeout => Sys2Proof.Machine.execPartnerSilenceTimeout s
  | .restoreReq p => Sys2Proof.Machine.execRestoreReq p s
  | .restoreData p => Sys2Proof.Machine.execRestoreData p s
  | .restoreEnd p => Sys2Proof.Machine.execRestoreEnd p s
  | .refetch p => Sys2Proof.Machine.execRefetch p s
  | .logData p => Sys2Proof.Machine.execLogData p s
  | .inPlaceReplay cause => Sys2Proof.Machine.execInPlaceReplay cause s
  | .recoveryGo w => Sys2Proof.Machine.execRecoveryGo w s
  | .recoveryAbort w => Sys2Proof.Machine.execRecoveryAbort w s
  | .recoveryGoTimeout => Sys2Proof.Machine.execRecoveryGoTimeout s
  | .harvest c => Sys2Proof.Machine.execHarvest c s
  | .harvestMsg p => Sys2Proof.Machine.execHarvestMsg p s
  | .harvestComplete => Sys2Proof.Machine.execHarvestComplete s
  | .ingest c => Sys2Proof.Machine.execIngest c s
  | .sampleFetchComplete plot slot unit r => Sys2Proof.Machine.execSampleFetchComplete plot slot unit r s
  | .fetchRetryTimer plot slot => Sys2Proof.Machine.execFetchRetryTimer plot slot s
  | .pipelineSlotComplete plot slot unit => Sys2Proof.Machine.execPipelineSlotComplete plot slot unit s
  | .ingestComplete plot => Sys2Proof.Machine.execIngestComplete plot s
  | .flush w => Sys2Proof.Machine.execFlush w s
  | .mediaSessionOpen die roundtrip maxPixels length => Sys2Proof.Machine.execMediaSessionOpen die roundtrip maxPixels length s
  | .decodePicture slice context u => Sys2Proof.Machine.execDecodePicture slice context u s
  | .encOpen c => Sys2Proof.Machine.execEncOpen c s
  | .encPicture c => Sys2Proof.Machine.execEncPicture c s
  | .encPictureStart slice context => Sys2Proof.Machine.execEncPictureStart slice context s
  | .encSliceComplete slice context poisoned => Sys2Proof.Machine.execEncSliceComplete slice context poisoned s
  | .encKeyreq c => Sys2Proof.Machine.execEncKeyreq c s
  | .encRelease c => Sys2Proof.Machine.execEncRelease c s
  | .encClose c => Sys2Proof.Machine.execEncClose c s
  | .medKeyreq w slice session => Sys2Proof.Machine.execMedKeyreq w slice session s
  | .hotSwapClose => Sys2Proof.Machine.execHotSwapClose s
  | .railPowerUp => Sys2Proof.Machine.execRailPowerUp s
  | .inputDip => Sys2Proof.Machine.execInputDip s
  | .hotSwapOpen => Sys2Proof.Machine.execHotSwapOpen s
  | .railOutOfWindow rail back => Sys2Proof.Machine.execRailOutOfWindow rail back s
  | .railFaultTimeout rail => Sys2Proof.Machine.execRailFaultTimeout rail s
  | .rootPllLossOfLock => Sys2Proof.Machine.execRootPllLossOfLock s
  | .powerPolicyTick p => Sys2Proof.Machine.execPowerPolicyTick p s
  | .thermalTrip group => Sys2Proof.Machine.execThermalTrip group s
  | .sensorNoValueTimeout group => Sys2Proof.Machine.execSensorNoValueTimeout group s
  | .thermalRestart => Sys2Proof.Machine.execThermalRestart s
  | .cold w key => Sys2Proof.Machine.execCold w key s
  | .warmReset => Sys2Proof.Machine.execWarmReset s
  | .boot f => Sys2Proof.Machine.execBoot f s
  | .mcWatchdogExpiry => Sys2Proof.Machine.execMcWatchdogExpiry s
  | .mcSramUncorrectable => Sys2Proof.Machine.execMcSramUncorrectable s
  | .sramUncorrectable site => Sys2Proof.Machine.execSramUncorrectable site s
  | .fwUpdateWrite w good => Sys2Proof.Machine.execFwUpdateWrite w good s
  | .fwUpdateComplete readBackGood => Sys2Proof.Machine.execFwUpdateComplete readBackGood s
  | .fwActivate w => Sys2Proof.Machine.execFwActivate w s
  | .mcfHandover => Sys2Proof.Machine.execMcfHandover s
  | .handoverWatchdogTimeout => Sys2Proof.Machine.execHandoverWatchdogTimeout s
  | .moduleResetPin low => Sys2Proof.Machine.execModuleResetPin low s
  | .pciePortReset port => Sys2Proof.Machine.execPciePortReset port s
  | .pop w => Sys2Proof.Machine.execPop w s
  | .clearDropped w => Sys2Proof.Machine.execClearDropped w s
  | .rasFirstClear w => Sys2Proof.Machine.execRasFirstClear w s
  | .attest w => Sys2Proof.Machine.execAttest w s
  | .cert w => Sys2Proof.Machine.execCert w s
  | .attestTokenRefill => Sys2Proof.Machine.execAttestTokenRefill s
  | .attestReq p => Sys2Proof.Machine.execAttestReq p s
  | .attestResp p => Sys2Proof.Machine.execAttestResp p s
  | .idProbe p => Sys2Proof.Machine.execIdProbe p s
  | .idReply p => Sys2Proof.Machine.execIdReply p s
  | .svnCommit w typ => Sys2Proof.Machine.execSvnCommit w typ s
  | .authorise w => Sys2Proof.Machine.execAuthorise w s
  | .revoke w => Sys2Proof.Machine.execRevoke w s
  | .trustTableClear w => Sys2Proof.Machine.execTrustTableClear w s
  | .sqTail port ring v => Sys2Proof.Machine.execSqTail port ring v s
  | .cqHead port ring v => Sys2Proof.Machine.execCqHead port ring v s
  | .commandFetch port ring e => Sys2Proof.Machine.execCommandFetch port ring e s
  | .ringEnable port ring kind log2 irq => Sys2Proof.Machine.execRingEnable port ring kind log2 irq s
  | .bar2Write port offset data => Sys2Proof.Machine.execBar2Write port offset data s
  | .bar2Read port offset len => Sys2Proof.Machine.execBar2Read port offset len s
  | .claim port => Sys2Proof.Machine.execClaim port s
  | .request port => Sys2Proof.Machine.execRequest port s
  | .grant port => Sys2Proof.Machine.execGrant port s
  | .deny port => Sys2Proof.Machine.execDeny port s
  | .release port => Sys2Proof.Machine.execRelease port s
  | .ownershipTimeout => Sys2Proof.Machine.execOwnershipTimeout s
  | .linkDown port => Sys2Proof.Machine.execLinkDown port s
  | .pcieLinkUp port width speed => Sys2Proof.Machine.execPcieLinkUp port width speed s
  | .channelMarginRecal stack channel => Sys2Proof.Machine.execChannelMarginRecal stack channel s

end Sys2Proof.Machine
end

