-- ==== Sys2Proof/Safety.lean ====
section
/-! DEFINITION. What the claims call safe: the ownership token stays legal, memory keeps its canonical
form, and a run goes on. -/

namespace Sys2Proof

/-- The ownership token is legal (R528, R529): the owner is none, port A or port B; a pending request
comes from a port that does not own. -/
def Machine.Own.legal (o : Machine.Own) : Prop :=
  o.owner ≤ 2 ∧ (o.pending = true → (o.requester = 1 ∨ o.requester = 2) ∧ o.requester ≠ o.owner)

/-- Stacked memory is in canonical form. -/
abbrev Machine.Mem.wf (m : Machine.Mem) : Prop := Machine.bytesWf m.bytes = true

/-- Register fields at every other key are unchanged. -/
def Machine.Dev.FieldsKept (d t : Machine.Dev) (keys : List Nat) : Prop :=
  ∀ k, k ∉ keys → Machine.mfind k t.fields = Machine.mfind k d.fields

/-- The records of every other cell are unchanged. -/
def Machine.Dev.CellsKept (d t : Machine.Dev) (p : Nat) : Prop := ∀ q, q ≠ p → t.cell q = d.cell q

/-- The command answers a next state that keeps the queue and the ownership token and whose device is described by
`post`. -/
def Answers (c : Instr) (s : Machine.State) (post : Machine.Dev → Prop) : Prop :=
  ∃ t, Machine.exec c s = .next t ∧ t.pending = s.pending ∧ t.own = s.own ∧ post t.dev

/-- The writer of a register command (R40); the other commands come from no register write. -/
def writerOf : Instr → Option Writer
  | .registerWrite w _ _ _ => some w
  | .enable w _ _ => some w
  | .softReset w _ => some w
  | .glbSoftReset w => some w
  | .clocheReq w _ _ => some w
  | .quiesceReq w _ _ => some w
  | .blkCommit w _ _ _ => some w
  | .blkCommitAbort w _ => some w
  | .groupCommit w _ => some w
  | .groupCommitAbort w => some w
  | .negotiationGo w => some w
  | .jobStart w => some w
  | .jobEnd w => some w
  | .numRingCons w _ => some w
  | .numXrecSel w _ _ => some w
  | .numXrecClear w _ _ => some w
  | .flwCmdRead w => some w
  | .flwCmdWrite w => some w
  | .flwCmdClose w => some w
  | .routeTableLoad w => some w
  | .flwShadowWrite w _ _ => some w
  | .lnkVlBufWrite w _ _ _ => some w
  | .retrain w _ => some w
  | .memMapWrite w _ => some w
  | .memRegionsWrite w _ _ => some w
  | .memSpillWrite w _ _ => some w
  | .recal w _ _ => some w
  | .pair w _ => some w
  | .pairGraft w _ => some w
  | .unpair w => some w
  | .recoveryGo w => some w
  | .recoveryAbort w => some w
  | .flush w => some w
  | .medKeyreq w _ _ => some w
  | .cold w _ => some w
  | .fwUpdateWrite w _ => some w
  | .fwActivate w => some w
  | .pop w => some w
  | .clearDropped w => some w
  | .rasFirstClear w => some w
  | .attest w => some w.who
  | .cert w => some w
  | .svnCommit w _ => some w
  | .authorise w => some w.who
  | .revoke w => some w.who
  | .trustTableClear w => some w
  | _ => none

/-- The cell can issue: the device is up, the cell is RUNNING and its sequencer runs (R44, R116). -/
def Issues (s : Machine.State) (cell : Nat) : Prop := s.dev.up = true ∧ s.dev.canIssue cell = true

/-- A sequencer instruction runs: its cell's record becomes `c'`, its index `pc`; every other cell, every other
register field and every other component of the device is unchanged. -/
def CellStep (c : Instr) (s : Machine.State) (cell : Nat) (c' : Machine.Cell) (pc : Nat) : Prop :=
  Answers c s fun t =>
    t.cell cell = c' ∧ t.getF Machine.R.CEL_SEQ_STATUS_PC cell = pc ∧ s.dev.CellsKept t cell
      ∧ s.dev.FieldsKept t [Machine.R.CEL_SEQ_STATUS_PC.key cell]
      ∧ t = { s.dev with cells := t.cells, fields := t.fields }

/-- An instruction that reads and writes these cell-store ranges issues and stays inside the store (R91, R97). -/
def RangesFree (s : Machine.State) (cell : Nat) (reads writes : List (Nat × Nat)) : Prop :=
  (s.dev.cell cell).conflicts reads writes = false
    ∧ ∀ r ∈ reads ++ writes, r.2 = 0 ∨ r.1 + r.2 ≤ Machine.storeTop

/-- A vector instruction runs: its cell's v-registers become `vregs`, its event counter of vector completions
advances, and its scalar registers, cell store, staking file, banks, rescale table and lookup tables stay; numeric
exceptions may be recorded, which touches register fields and the RAS log. -/
def VectorStep (c : Instr) (s : Machine.State) (cell : Nat) (vregs : Machine.NMap (BitVec 1024)) (pc : Nat) : Prop :=
  Answers c s fun t =>
    let a := s.dev.cell cell
    let b := t.cell cell
    b.vregs = vregs ∧ b.events = Machine.mput 2 (Machine.mget 0 a.events 2 + 1) a.events ∧ b.sregs = a.sregs
      ∧ b.store = a.store ∧ b.sf = a.sf ∧ b.bankA = a.bankA ∧ b.bankB = a.bankB ∧ b.rescale = a.rescale ∧ b.lut = a.lut
      ∧ b.tiles = a.tiles ∧ b.dma = a.dma
      ∧ t.getF Machine.R.CEL_SEQ_STATUS_PC cell = pc ∧ s.dev.CellsKept t cell
      ∧ t = { s.dev with cells := t.cells, fields := t.fields, rasLog := t.rasLog, out := t.out }

/-- A command completes from a state: `exec` answers a next state. -/
def Completes (c : Instr) (s : Machine.State) : Prop := ∃ t, Machine.exec c s = .next t

end Sys2Proof
end

