-- ==== Sys2Proof/Certificates/Slice0/Obligations.lean ====
section
/-! DEFINITION. The statements about this model. -/

open Sys2Proof Sys2Proof.Machine

/-! ### The queue -/

/-- Commands run first in, first out; an empty queue leaves the state as it is (log entry 1). -/
def Obligations.StepRunsFrontCommand : Prop :=
  (∀ (c : Instr) (rest : List Instr) (s : State), step { s with pending := c :: rest } = exec c { s with pending := rest })
    ∧ ∀ s : State, s.pending = [] → step s = .next s

/-! ### Scalar and control instructions of a cell -/

/-- The index after an instruction of n words (R95). -/
def nextPc (s : State) (cell n : Nat) : Nat := (s.dev.getF R.CEL_SEQ_STATUS_PC cell + n) % 16384

/-- R96: ADD, SUB, MUL, AND, OR, XOR, CMP and LI write one s-register. What CMP writes is a free value (log entry 10). -/
def ScalarOperationsWriteOneRegister : Prop :=
  ∀ (s : State) (cell rd rs rt cond : Nat) (imm : Word) (long : Bool),
    Issues s cell → rd < 32 → rs < 32 → rt < 32 →
      let c := s.dev.cell cell
      let writes (i : Instr) (v : Word) : Prop := CellStep i s cell (c.setS rd v) (nextPc s cell 1)
      writes (.add cell rd rs rt) (c.s rs + c.s rt) ∧ writes (.sub cell rd rs rt) (c.s rs - c.s rt)
        ∧ writes (.mul cell rd rs rt) (c.s rs * c.s rt) ∧ writes (.and cell rd rs rt) (c.s rs &&& c.s rt)
        ∧ writes (.or cell rd rs rt) (c.s rs ||| c.s rt) ∧ writes (.xor cell rd rs rt) (c.s rs ^^^ c.s rt)
        ∧ writes (.cmp cell cond rd rs rt) (Config.cmpValue cond (c.s rs) (c.s rt))
        ∧ CellStep (.li cell rd imm long) s cell (c.setS rd imm) (nextPc s cell (if long then 2 else 1))

/-- R96: SHL and SHR by less than 64 bits; a right shift of a value whose top bit is 1 and a shift by 64 or more write a
free value (log entry 10). -/
def ShiftsWriteOneRegister : Prop :=
  ∀ (s : State) (cell rd rs rt : Nat), Issues s cell → rd < 32 → rs < 32 → rt < 32 →
    let c := s.dev.cell cell
    let n := (c.s rt).toNat
    CellStep (.shl cell rd rs rt) s cell
        (c.setS rd (if n < 64 then c.s rs <<< n else Config.shiftLeftOver (c.s rs) (c.s rt))) (nextPc s cell 1)
      ∧ CellStep (.shr cell rd rs rt) s cell
        (c.setS rd (if n < 64 ∧ (c.s rs).msb = false then c.s rs >>> n else Config.shiftRightOpen (c.s rs) (c.s rt)))
        (nextPc s cell 1)

/-- R96: the scalar operations and the shifts, each into one s-register. -/
def Obligations.ScalarRegisterOperations : Prop := ScalarOperationsWriteOneRegister ∧ ShiftsWriteOneRegister

/-- R95: s0 reads zero whatever is written to it; any other s-register reads as written. -/
def ScalarRegisterZeroReadsZero : Prop :=
  ∀ (c : Cell) (r q : Nat) (v : Word),
    (c.setS r v).s 0 = 0 ∧ (r ≠ 0 → (c.setS r v).s r = v) ∧ (q ≠ r → (c.setS r v).s q = c.s q)

/-- R96: BR, BCC, CALL and RET; whether BCC branches is a free value (log entry 10). -/
def ControlTransfersSetTheIndex : Prop :=
  ∀ (s : State) (cell rs target cond : Nat), Issues s cell → rs < 32 → target < 16384 →
    let c := s.dev.cell cell
    CellStep (.br cell target) s cell c target
      ∧ CellStep (.bcc cell cond rs target) s cell c (if Config.bccTaken cond (c.s rs) then target else nextPc s cell 1)
      ∧ (c.stack.length < 16 → CellStep (.call cell target) s cell { c with stack := nextPc s cell 1 :: c.stack } target)
      ∧ (∀ a rest, c.stack = a :: rest → a < 16384 → CellStep (.ret cell) s cell { c with stack := rest } a)

/-! ### The machine as a whole -/

/-- No command touches the commands that wait behind it. -/
def Obligations.CommandsKeepTheQueue : Prop :=
  ∀ (c : Instr) (s t : State), exec c s = .next t → t.pending = s.pending

/-- R528, R529: whatever command runs, the owner stays none, port A or port B, and a pending request comes from a port
that does not own. -/
def Obligations.OwnershipStaysLegal : Prop := ∀ s t : State, s.own.legal → step s = .next t → t.own.legal

/-- Sparse memory has one form: stacked memory and every cell store list rising addresses and no zero byte. -/
def Canonical (s : State) : Prop := s.dev.mem.wf ∧ ∀ e ∈ s.dev.cells, bytesWf e.2.store = true

/-- R285, R298: whatever command runs, stacked memory and every cell store keep their one form, so that equal memories are
equal data. -/
def Obligations.StoredBytesStayCanonical : Prop := ∀ s t : State, Canonical s → step s = .next t → Canonical t

/-- R44, R285, R298, R461, R479, R529: after reset no command waits, no port owns the device, stacked memory lists
nothing, every page is OFF, no job is active, and every field but PLT_MEMBER of plot 0 and the reset cause has the reset
value of its table. -/
def Obligations.ResetState : Prop :=
  State.reset.own.legal ∧ State.reset.own.owner = 0 ∧ State.reset.pending = [] ∧ State.reset.dev.mem.wf
    ∧ State.reset.dev.mem.bytes = [] ∧ State.reset.dev.up = true ∧ State.reset.dev.jobActive = false
    ∧ (∀ c i, pageExists c i = true → State.reset.dev.blk c i = stOff)
    ∧ State.reset.dev.getF R.PWR_RESET_CAUSE_CAUSE 0 = 1
    ∧ ∀ c f i, f ∈ R.fieldsOf c → i < instancesOf c → f ≠ R.PWR_RESET_CAUSE_CAUSE → (∀ k, f ≠ R.PLT_MEMBER k) →
        State.reset.dev.getF f i = f.reset

/-- R40: a register command of a port that does not own the device changes nothing. -/
def Obligations.UnacceptedWritersChangeNothing : Prop :=
  ∀ (c : Instr) (s : State) (w : Writer), writerOf c = some w → s.own.mayWrite w = false → exec c s = .next s

/-! ### Registers -/

/-- A register command takes effect: the device is up and the writer is the MC or the owner (R40). -/
def Writes (s : State) (w : Writer) : Prop := s.dev.up = true ∧ s.own.mayWrite w = true

/-- No command in command order waits to begin, a STEP_MARK apart, so that nothing but the command acts. -/
def NothingHeld (s : State) : Prop := ∀ e ∈ s.dev.ctl.order, e.phase = .running ∨ e.cmd.opc = 1

/-- The BAR0 offset of a field (R37). -/
def fieldOffset (f : Field) (i : Nat) : Nat := f.cls * 2 ^ 23 + i * 2 ^ 12 + f.off

/-- R37: an offset of BAR0 names one register of one page: every class code, instance and register offset stand in their
own bits of it, and the 32 classes fill the 256 MiB of BAR0. -/
def Obligations.BarOffsetsNameRegisters : Prop :=
  (∀ cls inst reg, cls < 32 → inst < 2048 → reg < 4096 →
    let off := cls <<< 23 ||| inst <<< 12 ||| reg
    barClass off = cls ∧ barInstance off = inst ∧ barReg off = reg ∧ off < 256 * 2 ^ 20)
  ∧ ∀ off, off < 256 * 2 ^ 20 → off = barClass off <<< 23 ||| barInstance off <<< 12 ||| barReg off

/-- The fields whose write has a condition of its own beside its class (R238, R252, R404, R429, R533). -/
def conditional (f : Field) : Bool :=
  isRingReg f || (decide (f.cls = SOW) && decide (f.off = 128))
    || f ∈ [R.NUM_SIEVE_CFG_EN, R.NUM_RING_CFG_EN, R.PIP_CACHE_CFG_EN, R.PCI_BAR2_BASE_GIB]

/-- R39, R47, R48, R53: what REGISTER_WRITE of 32 bits does to a field of each access class; the fields that a rule of
their own guards are stated where they are refused. -/
def Obligations.RegisterWritesFollowTheClass : Prop :=
  ∀ (s : State) (w : Writer) (c i v : Nat) (f : Field), Writes s w → f ∈ R.fieldsOf c → i < instancesOf c → v < 2 ^ 32 →
    (c = CEL → s.dev.nv.disabled.contains i = false) → hasOwnRow f = false → (f.only0 = true → i = 0) →
    let x := bitsOf v f.lo f.width
    let write := Answers (.registerWrite w (fieldOffset f i) 4 v) s
    (f.acc = .rw → conditional f = false → write fun t => t.getF f i = x ∧ t.actF f i = s.dev.actF f i ∧ t.mem = s.dev.mem)
    ∧ (f.acc = .rs → s.dev.armedOn c i = none → write fun t =>
        mfind (f.key i) t.shadow = some x ∧ t.getF f i = s.dev.getF f i ∧ t.actF f i = s.dev.actF f i ∧ t.mem = s.dev.mem)
    ∧ (f.acc = .rs → (s.dev.armedOn c i).isSome = true → write fun t =>
        t.shadow = s.dev.shadow ∧ t.errBit c i 2 = true ∧ t.getF f i = s.dev.getF f i)
    ∧ (f.acc = .rl → conditional f = false → s.dev.rlOpen (jobLocked f) c i = true → write fun t =>
        t.getF f i = x ∧ t.actF f i = x)
    ∧ (f.acc = .rl → conditional f = false → s.dev.rlOpen (jobLocked f) c i = false → write fun t =>
        t.getF f i = s.dev.getF f i ∧ (s.dev.getF f i ≠ x → t.errBit c i 0 = true))
    ∧ (f.acc = .w1c → (c = NUM → s.dev.getF R.NUM_RING_CFG_EN 0 = 0) → write fun t =>
        t.getF f i = clearBits (s.dev.getF f i) x)
    ∧ (f = R.PCI_BAR2_BASE_GIB → 0x180 ≤ x → write fun t => t.getF f i = s.dev.getF f i ∧ t.errBit PCI i 21 = true)
    ∧ (f = R.NUM_SIEVE_CFG_EN → x = 1 → s.dev.feature 5 = false → write fun t =>
        t.getF f i = s.dev.getF f i ∧ t.errBit NUM 0 7 = true)

/-- R39, R67: an access of another size or alignment, or to a page that does not exist, sets BAD_ACCESS and has no other
effect; the first one is recorded. -/
def BadAccessesAreRecorded : Prop :=
  ∀ (s : State) (w : Writer) (offset size v : Nat), Writes s w →
    widthOk offset size = false ∨ pageExists (barClass offset) (barInstance offset) = false →
      let recorded (t : Dev) (write : Nat) : Prop :=
        t.errBit GLB 0 16 = true
          ∧ (s.dev.getF R.GLB_BAD_ACCESS_VALID 0 = 0 →
              t.getF R.GLB_BAD_ACCESS_VALID 0 = 1 ∧ t.getF R.GLB_BAD_ACCESS_WRITE 0 = write
                ∧ t.getF R.GLB_BAD_ACCESS_OFFSET 0 = offset % 2 ^ R.GLB_BAD_ACCESS_OFFSET.width)
          ∧ t.mem = s.dev.mem ∧ t.shadow = s.dev.shadow ∧ t.acting = s.dev.acting
      (Answers (.registerWrite w offset size v) s fun t => recorded t 1)
        ∧ Answers (.counterLoRead offset size) s fun t => recorded t 0 ∧ Out.readData 0 ∈ t.out

/-- No session waits for a context of a media slice, and no request for a thin engine (R223, R431). -/
def NoneWaits (s : State) (c : Nat) : Prop :=
  (c = MED → s.dev.mediaWait = []) ∧ (c = THN → ∀ u, s.dev.thnHolds u = false)

/-- R43, R47, R49: a read of the _LO half of a 64-bit field returns its low half and latches the high half, which the next
read of _HI returns; and RW values act from a block's live boundary on, and not before: a RUNNING cell waits for its pass
boundary, a RUNNING page of GLB, TRL or PLT for the step boundary. -/
def CounterReadsLatchAndWrittenValuesAct : Prop :=
  ∀ (s : State) (c i v : Nat) (f : Field), s.dev.up = true → f ∈ R.fieldsOf c → i < instancesOf c →
    (f.width = 64 → mfind (latchKey c i f.off) s.dev.latches = none →
      Answers (.counterLoRead (fieldOffset f i) 4) s fun t =>
        let value := s.dev.readField s.own f i
        t.out = s.dev.out ++ [.readData (value % 2 ^ 32)]
          ∧ mfind (latchKey c i (f.off + 4)) t.latches = some (value / 2 ^ 32)
          ∧ t = { s.dev with out := t.out, latches := t.latches })
    ∧ (f.width = 64 → mfind (latchKey c i (f.off + 4)) s.dev.latches = some v →
      Answers (.counterLoRead (fieldOffset f i + 4) 4) s fun t =>
        t.out = s.dev.out ++ [.readData v]
          ∧ t = { s.dev with out := t.out, latches := mdel (latchKey c i (f.off + 4)) s.dev.latches })
    ∧ (f.acc = .rw → (c = CEL → s.dev.nv.disabled.contains i = false) → NoneWaits s c →
      (s.dev.rwReady c i = true → Answers (.rwFieldTakesEffect ⟨c, i⟩) s fun t =>
        t.actF f i = s.dev.getF f i % 2 ^ f.width ∧ t.getF f i = s.dev.getF f i ∧ t.mem = s.dev.mem)
      ∧ (s.dev.rwReady c i = false → Answers (.rwFieldTakesEffect ⟨c, i⟩) s fun t => t = s.dev))

/-! ### Blocks -/

/-- The fields that follow a block's state beside BLK_STATE: those of a link that is DOWN (R320), and NEXT_TAG of a cell that
enters RUNNING (R80). -/
def stateFields (c i : Nat) : List Nat :=
  if c = LNK then [R.LNK_STATUS_LSTATE.key i, R.LNK_STATUS_LANES.key i, R.LNK_STATUS_SPARED.key i]
  else if c = CEL then [R.CEL_ARRAY_STATUS_NEXT_TAG.key i] else []

/-- A change of a block's state touches the request bits and the state of its page with what follows the state, the
interrupt bits and vectors, the count of returned blocks, the marks that the model keeps of a returned block, and what a
port that goes DOWN holds; nothing else. -/
def BlockFrame (d t : Dev) (c i : Nat) : Prop :=
  d.FieldsKept t ([(R.BLK_CTRL_ENABLE c).key i, (R.BLK_CTRL_CLOCHE_REQ c).key i, (R.BLK_CTRL_QUIESCE_REQ c).key i,
      (R.BLK_STATE_STATE c).key i, (R.BLK_IRQ_PEND c).key i, (R.COUNTER RAS 5).key 0] ++ stateFields c i)
    ∧ t = { d with fields := t.fields, acting := t.acting, testFails := t.testFails, out := t.out,
                   fab := { d.fab with ports := t.fab.ports } }
    ∧ (c ≠ LNK → t.fab = d.fab)

/-- R44 to R46, R545: the transitions of a block's state, each on the state that the table of R44 gives it. -/
def Obligations.BlocksChangeStateByTheTable : Prop :=
  ∀ (s : State) (w : Writer) (p : Page), Writes s w → pageExists p.cls p.inst = true →
    (p.cls = CEL → s.dev.nv.disabled.contains p.inst = false) →
    let st := s.dev.blk p.cls p.inst
    let goes (i : Instr) (new : Nat) : Prop := Answers i s fun t => t.blk p.cls p.inst = new
    let only (i : Instr) (new : Nat) : Prop := Answers i s fun t => t.blk p.cls p.inst = new ∧ BlockFrame s.dev t p.cls p.inst
    (st = stReady → only (.enable w p false) stOff ∧ only (.enable w p true) stReady)
    ∧ (st = stOff → s.dev.getF (R.BLK_CTRL_ENABLE p.cls) p.inst = 1 → NothingHeld s → NoneWaits s p.cls →
        only (.blockInitComplete p) stReady)
    ∧ (p.cls ≠ GLB → st ∈ [stReady, stQuiesced, stCloched, stFailed] → goes (.softReset w p) stOff)
    ∧ (p.cls ≠ GLB → st = stRunning → Answers (.softReset w p) s fun t =>
        t.blk p.cls p.inst = stRunning ∧ t.errBit p.cls p.inst 0 = true ∧ t.mem = s.dev.mem ∧ t.cells = s.dev.cells)
    ∧ (p.cls = GLB ∨ st = stOff ∨ st = stRetired → Answers (.softReset w p) s fun t => t = s.dev)
    ∧ (clochable p.cls = true → st ∈ [stReady, stQuiesced, stFailed] → goes (.clocheReq w p true) stCloched)
    ∧ (clochable p.cls = true → st ∈ [stOff, stRunning, stRetired] → only (.clocheReq w p true) st)
    ∧ (clochable p.cls = true → st = stCloched → s.dev.testPassed p.cls p.inst = true → NothingHeld s → NoneWaits s p.cls →
        only (.clocheReq w p false) stReady)
    ∧ only (.quiesceReq w p true) st
    ∧ (p.cls ≠ GLB → st = stQuiesced → NothingHeld s → NoneWaits s p.cls →
        only (.quiesceReq w p false) (if s.dev.jobActive then stRunning else stReady))
    ∧ (p.cls ≠ GLB → st = stRunning → s.dev.actF (R.BLK_CTRL_QUIESCE_REQ p.cls) p.inst = 1 →
        s.dev.actF (R.BLK_CTRL_CLOCHE_REQ p.cls) p.inst = 0 → s.dev.atBoundary p.cls p.inst = true →
        only (.blockQuiesced p) stQuiesced)
    ∧ (clochable p.cls = true → st = stRunning → s.dev.actF (R.BLK_CTRL_CLOCHE_REQ p.cls) p.inst = 1 →
        s.dev.atBoundary p.cls p.inst = true → goes (.blockClochedAtBoundary p) stCloched)
    ∧ (p.cls ∈ [COL, MED, PIP, THN] → st = stCloched → s.dev.getF (R.BLK_CTRL_CLOCHE_REQ p.cls) p.inst = 0 → NothingHeld s →
        NoneWaits s p.cls →
        only (.clocheTestComplete p .pass) stReady)
    ∧ (st ∈ [stReady, stRunning, stQuiesced] → goes (.blockFailed p) stFailed)
    ∧ (st ∈ [stOff, stCloched, stFailed, stRetired] → Answers (.blockFailed p) s fun t => t = s.dev)

/-! ### Commits, negotiation, the job -/

/-- R51 to R53, R57: a commit with the next SEQ arms the staged set, one with another SEQ or on an armed page is
rejected; an applied commit copies the shadow, and ABORT discards it; a group member is discarded by the group alone. -/
def Obligations.CommitsFollowTheStagingProtocol : Prop :=
  ∀ (s : State) (w : Writer) (p : Page) (seq v : Nat) (group : Bool) (a : ArmedCommit) (f : Field), Writes s w →
    pageExists p.cls p.inst = true → (p.cls = CEL → s.dev.nv.disabled.contains p.inst = false) →
    let next := s.dev.getF (R.BLK_STAGE_SEQ_NEXT_SEQ p.cls) p.inst
    let state (t : Dev) : Nat := t.getF (R.BLK_COMMIT_STAT_STATE p.cls) p.inst
    let kept (t : Dev) : Prop := t.shadow = s.dev.shadow ∧ t.getF (R.BLK_STAGE_SEQ_NEXT_SEQ p.cls) p.inst = next
    (seq = next → s.dev.armedOn p.cls p.inst = none → NothingHeld s →
      Answers (.blkCommit w p seq group) s fun t =>
        t.armedOn p.cls p.inst = some ⟨seq, group⟩ ∧ state t = (if group then 2 else 1) ∧ kept t ∧ t.mem = s.dev.mem)
    ∧ (seq ≠ next → Answers (.blkCommit w p seq group) s fun t =>
        t.armed = s.dev.armed ∧ state t = 4 ∧ kept t ∧ t.errBit p.cls p.inst 1 = true)
    ∧ (seq = next → (s.dev.armedOn p.cls p.inst).isSome = true → Answers (.blkCommit w p seq group) s fun t =>
        t.armed = s.dev.armed ∧ state t = 5 ∧ kept t ∧ t.errBit p.cls p.inst 1 = true)
    ∧ ((∀ b, s.dev.armedOn p.cls p.inst = some b → b.group = false) → mwf s.dev.armed = true → Answers (.blkCommitAbort w p) s fun t =>
        t.armedOn p.cls p.inst = none ∧ t.staged p.cls p.inst = [] ∧ state t = 6
          ∧ t.getF (R.BLK_STAGE_SEQ_NEXT_SEQ p.cls) p.inst = next)
    ∧ (s.dev.armedOn p.cls p.inst = some a → a.group = true → Answers (.blkCommitAbort w p) s fun t =>
        t.armed = s.dev.armed ∧ state t = state s.dev ∧ kept t ∧ t.errBit p.cls p.inst 1 = true)
    ∧ (s.dev.armedOn p.cls p.inst = some a → s.dev.commitReady p.cls p.inst = true → f ∈ R.fieldsOf p.cls → f.acc = .rs →
        f ≠ R.CEL_ARRAY_CFG_T3_MODE → mfind (f.key p.inst) s.dev.shadow = some v → mwf s.dev.shadow = true →
        mwf s.dev.armed = true →
        Answers (.commitApply p) s fun t =>
          t.getF f p.inst = v % 2 ^ f.width ∧ t.actF f p.inst = v % 2 ^ f.width ∧ t.armedOn p.cls p.inst = none
            ∧ t.staged p.cls p.inst = [] ∧ state t = 3
            ∧ t.getF (R.BLK_COMMIT_STAT_LAST_SEQ p.cls) p.inst = a.seq % 2 ^ 16
            ∧ t.getF (R.BLK_STAGE_SEQ_NEXT_SEQ p.cls) p.inst = (a.seq + 1) % 2 ^ 16)
    ∧ (seq = s.dev.getF R.GLB_GROUP_STAT_NEXT_SEQ 0 → s.dev.groupSeq = none → Answers (.groupCommit w seq) s fun t =>
        t.groupSeq = some seq ∧ t.getF R.GLB_GROUP_STAT_STATE 0 = 1 ∧ t.armed = s.dev.armed
          ∧ t = { s.dev with groupSeq := t.groupSeq, fields := t.fields })
    ∧ (seq ≠ s.dev.getF R.GLB_GROUP_STAT_NEXT_SEQ 0 ∨ s.dev.groupSeq ≠ none → Answers (.groupCommit w seq) s fun t =>
        t = s.dev.setF R.GLB_GROUP_STAT_STATE 0 3)
    ∧ Answers (.groupCommitAbort w) s fun t =>
        t.groupSeq = none ∧ (∀ b, s.dev.armedOn p.cls p.inst = some b → b.group = true → mwf s.dev.armed = true →
          t.armedOn p.cls p.inst = none ∧ state t = 6)

/-- R61, R62: GO is taken while GLB is READY; the result then posts its code, the lowest offending bit and the active
word: 3 for a mandatory feature not asked for, 4 for an undefined one, 5 for a missing dependency, else the features that
both sides name. A failure sets NEG_FAILED. -/
def NegotiationPostsItsResult : Prop :=
  ∀ (s : State) (w : Writer), Writes s w →
    let r := negotiate (s.dev.featureWord R.GLB_DEV_FEATURES) (s.dev.featureWord R.GLB_DEV_MANDATORY)
      (s.dev.featureWord R.GLB_DRV_FEATURES)
    (s.dev.blk GLB 0 = stReady → Answers (.negotiationGo w) s fun t =>
      t.ctl.negPending = true ∧ t.getF R.GLB_NEG_STATUS_CODE 0 = 1 ∧ t.mem = s.dev.mem ∧ t.cells = s.dev.cells)
    ∧ (s.dev.blk GLB 0 ≠ stReady → Answers (.negotiationGo w) s fun t =>
      t.ctl = s.dev.ctl ∧ t.errBit GLB 0 0 = true ∧ t.getF R.GLB_NEG_STATUS_CODE 0 = s.dev.getF R.GLB_NEG_STATUS_CODE 0)
    ∧ (s.dev.ctl.negPending = true → Answers .negotiationComplete s fun t =>
      t.ctl.negPending = false ∧ t.getF R.GLB_NEG_STATUS_CODE 0 = r.1
        ∧ t.getF (R.GLB_FEATURES_ACTIVE 0) 0 = r.2.2 % 2 ^ 32
        ∧ (r.1 = 2 ∨ t.errBit GLB 0 17 = true) ∧ t.mem = s.dev.mem ∧ t.cells = s.dev.cells)
    ∧ (s.dev.ctl.negPending = false → Answers .negotiationComplete s fun t => t = s.dev)

/-- R61: the code, the bit and the word of a negotiation. -/
def NegotiationRule : Prop :=
  ∀ (offered mandatory request : Nat),
    let r := negotiate offered mandatory request
    (r.1 = 2 → r.2.2 = request &&& offered ∧ (∀ n, n < 256 → bitOf mandatory n = true → bitOf request n = true)
      ∧ (∀ n, n < 256 → 14 ≤ n → bitOf request n = false)
      ∧ ∀ n q, n < 256 → bitOf r.2.2 n = true → requiredBy n = some q → bitOf r.2.2 q = true)
    ∧ (r.1 ≠ 2 → r.2.2 = 0 ∧ r.2.1 < 256)
    ∧ (r.1 = 3 → bitOf mandatory r.2.1 = true ∧ bitOf request r.2.1 = false)
    ∧ (r.1 = 4 → 14 ≤ r.2.1 ∧ bitOf request r.2.1 = true) ∧ r.1 ∈ [2, 3, 4, 5]

/-- R58 to R63: NEGOTIATION_GO posts the result that the rule of R61 gives. -/
def Obligations.NegotiationPostsTheRule : Prop := NegotiationPostsItsResult ∧ NegotiationRule

/-- R68: START is ignored while a job is active, posts why it is refused, or opens step 0 of a job that is RUNNING; END
asks that the job end after the next boundary. -/
def Obligations.JobsStartAndEnd : Prop :=
  ∀ (s : State) (w : Writer), Writes s w →
    (s.dev.jobActive = true →
      (Answers (.jobStart w) s fun t => t = s.dev)
        ∧ Answers (.jobEnd w) s fun t => t = { s.dev with ctl := { s.dev.ctl with endAsked := true } })
    ∧ (s.dev.jobActive = false →
      (Answers (.jobEnd w) s fun t => t = s.dev)
      ∧ (s.dev.startRefused ≠ 0 → Answers (.jobStart w) s fun t => t = s.dev.setF R.GLB_JOB_STATUS_REFUSE 0 s.dev.startRefused)
      ∧ (s.dev.startRefused = 0 → s.dev.checkItems.1 = false → Answers (.jobStart w) s fun t =>
          t.jobActive = false ∧ t.getF R.GLB_JOB_STATUS_REFUSE 0 = 4)
      ∧ (s.dev.startRefused = 0 → s.dev.checkItems.1 = true → s.dev.ctl.order = [] → Answers (.jobStart w) s fun t =>
          t.jobActive = true ∧ t.getF R.GLB_JOB_STATUS_REFUSE 0 = 0 ∧ t.step = 0 ∧ t.blk GLB 0 = stRunning
            ∧ t.getF R.PCI_JOB_NEXT 0 = 0 ∧ t.ctl.gsbChecked = false ∧ t.sow.unsealed = [] ∧ t.sow.replay = []))

/-! ### Cell faults and tests -/

/-- R388, R389, R97, R481: a fault of a cell in service sets the flag of its kind, cloches the cell at once and returns
its tiles; a fetch or store error stops its sequencer as a trap does. A retired cell takes no fault. -/
def CellFaultsCloche : Prop :=
  ∀ (s : State) (cell : Nat) (k : CellFaultKind), s.dev.up = true → cell < 1152 →
    (s.dev.blk CEL cell ∈ [stReady, stRunning, stQuiesced] →
      Answers (.cellFault cell k) s fun t =>
        t.blk CEL cell = stCloched ∧ (t.cell cell).tiles = [] ∧ (t.cell cell).adds = [] ∧ t.mem = s.dev.mem
          ∧ mget [] t.nv.faultCloches cell = 0 :: mget [] s.dev.nv.faultCloches cell
          ∧ (k = .arrayParity ∨ k = .stagingSram → t.errBit CEL cell 22 = true)
          ∧ (k = .ifetchUncorr → t.getF R.CEL_SEQ_STATUS_RUN cell = 3 ∧ t.getF R.CEL_SEQ_STATUS_TRAP_CAUSE cell = 2)
          ∧ (k = .storeUncorr → t.getF R.CEL_SEQ_STATUS_RUN cell = 3 ∧ t.getF R.CEL_SEQ_STATUS_TRAP_CAUSE cell = 8
              ∧ t.errBit CEL cell 20 = true))
    ∧ (s.dev.blk CEL cell = stRetired → Answers (.cellFault cell k) s fun t => t = s.dev)

/-- R485 to R488, R499: a test of a cloched cell is recorded; a cell that passes returns to READY once CLOCHE_REQ is 0, which
the MC clears after a cloche on a fault; one that fails, whose faults no set of at most two row and two column bypasses
covers, or that has been cloched as often within the window as the limit allows, is retired for good; a cell whose faults
new bypasses cover and whose policy allows them takes them and returns. -/
def CellTestsReturnOrRetire : Prop :=
  ∀ (s : State) (cell : Nat) (x : CellTest) (rows cols : List Nat), s.dev.up = true → cell < 1152 →
    s.dev.blk CEL cell = stCloched →
    let within : Prop := s.dev.recentFaults cell < max 1 (s.dev.getF R.TRL_CELL_POLICY_FAULT_LIM 0)
    let test := Answers (.cellTestComplete cell x) s
    let asked := s.dev.getF (R.BLK_CTRL_CLOCHE_REQ CEL) cell
    let onFault : Prop := (mfind (faultKey cell) s.dev.testFails).isSome = true
    let failed : Prop := x.outcome = .fail ∨ (x.outcome = .repairable rows cols ∧ s.dev.bypassesCover cell rows cols = false)
    let shows (t : Dev) (result unit : Nat) : Prop := t.getF R.TRL_TEST_PHYSICAL 0 = cell
      ∧ t.getF R.TRL_TEST_RESULT 0 = result ∧ t.getF R.TRL_TEST_UNIT 0 = unit % 2 ^ R.TRL_TEST_UNIT.width
    (test fun t => t.getF R.TRL_TEST_VALID 0 = 1 ∧ t.mem = s.dev.mem)
    ∧ (x.outcome = .pass → within → asked = 0 ∨ onFault → test fun t =>
        t.blk CEL cell = stReady ∧ t.nv = s.dev.nv ∧ t.getF (R.BLK_CTRL_CLOCHE_REQ CEL) cell = 0 ∧ shows t 0 x.unit)
    ∧ (x.outcome = .pass → within → asked = 1 → ¬ onFault → test fun t =>
        t.blk CEL cell = stCloched ∧ t.nv = s.dev.nv ∧ shows t 0 x.unit)
    ∧ (failed ∨ ¬ within → test fun t => t.blk CEL cell = stRetired ∧ cell ∈ t.nv.retired)
    ∧ (failed → s.dev.held TRL 0 = true → test fun t => shows t 2 x.unit ∧ t.errBit TRL 0 18 = true)
    ∧ (x.outcome = .repairable rows cols → within → s.dev.getF R.CEL_SPARE_POLICY_POLICY cell ≠ 1 →
        s.dev.bypassesCover cell rows cols = true → s.dev.held CEL cell = false → x.retest = true → asked = 0 ∨ onFault → test fun t =>
        t.blk CEL cell = stReady ∧ shows t 0 0 ∧ mfind cell t.nv.fieldBypass =
          some ⟨mergeAsc (mget ⟨[], []⟩ s.dev.nv.fieldBypass cell).rows (s.dev.uncovered cell rows cols).1,
            mergeAsc (mget ⟨[], []⟩ s.dev.nv.fieldBypass cell).cols (s.dev.uncovered cell rows cols).2⟩)

/-- R389, R485 to R489, R498: a cell fault cloches, and tests return or retire. -/
def Obligations.CellsClocheAndReturn : Prop := CellFaultsCloche ∧ CellTestsReturnOrRetire

/-- R96: LD and ST of 1, 2, 4 or 8 naturally aligned bytes inside the cell store. The bits above a loaded width follow
log entry 10 when the loaded value's top bit is 1. -/
def ScalarLoadAndStore : Prop :=
  ∀ (s : State) (cell r rs n : Nat) (off : Int),
    let c := s.dev.cell cell
    let a := s.dev.effAddr cell rs off
    Issues s cell → r < 32 → rs < 32 → n ∈ [1, 2, 4, 8] → a % n = 0 →
      (RangesFree s cell [(a, n)] [] →
        CellStep (.ld cell r rs off n) s cell
          (c.setS r (let v := rdNat c.rd a n
                     if n = 8 ∨ v < 2 ^ (8 * n - 1) then BitVec.ofNat 64 v
                     else BitVec.ofNat 64 v ||| (Config.loadExtend n v <<< (8 * n)))) (nextPc s cell 1))
      ∧ (RangesFree s cell [] [(a, n)] →
        CellStep (.st cell r rs off n) s cell { c with store := setBytes c.store a (leBytes n (c.s r).toNat) }
          (nextPc s cell 1))

/-- R6, R96: the eight bytes that ST writes read back, by LD, as the register's value; every other byte of the cell store
reads as before. -/
def CellStoreReadsAsWritten : Prop :=
  ∀ (c : Cell) (a : Nat) (v : Word), bytesWf c.store = true →
    let c' := { c with store := setBytes c.store a (leBytes 8 v.toNat) }
    rdNat c'.rd a 8 = v.toNat ∧ bytesWf c'.store = true ∧ ∀ b, b < a ∨ a + 8 ≤ b → c'.rd b = c.rd b

/-- R6, R95, R96: s-registers and the cell store read as written; s0 reads zero. -/
def Obligations.CellStateReadsAsWritten : Prop := ScalarRegisterZeroReadsZero ∧ CellStoreReadsAsWritten

/-- R97: a trap records its cause and its address, leaves RUN = 3, cloches the cell at once and writes no memory. -/
def TrapStep (c : Instr) (s : State) (cell cause addr : Nat) : Prop :=
  Answers c s fun t =>
    t.getF R.CEL_SEQ_STATUS_TRAP_CAUSE cell = cause ∧ t.getF R.CEL_TRAP_ADDR_ADDR cell = addr % 2 ^ 32
      ∧ t.getF R.CEL_SEQ_STATUS_RUN cell = 3 ∧ t.blk CEL cell = stCloched ∧ (t.cell cell).tiles = []
      ∧ t.errBit CEL cell 16 = true ∧ t.mem = s.dev.mem

/-- R97: where the scalar instructions trap: a register number above 31, an access size that R96 does not name, a call
deeper than 16, a return without a call and a target beyond the instruction store with ILLEGAL; a cell-store address
beyond the store with STORE_RANGE; one that is not naturally aligned with MISALIGNED. -/
def ScalarInstructionsTrap : Prop :=
  ∀ (s : State) (cell rd rs rt n target : Nat) (off : Int),
    Issues s cell → 
      let c := s.dev.cell cell
      let a := s.dev.effAddr cell rs off
      (32 ≤ rd ∨ 32 ≤ rs ∨ 32 ≤ rt → TrapStep (.add cell rd rs rt) s cell 1 0)
      ∧ (rd < 32 → rs < 32 → n ∉ [1, 2, 4, 8] → TrapStep (.ld cell rd rs off n) s cell 1 0)
      ∧ (rd < 32 → rs < 32 → n ∈ [1, 2, 4, 8] → storeTop < a + n →
          TrapStep (.ld cell rd rs off n) s cell 3 a ∧ TrapStep (.st cell rd rs off n) s cell 3 a)
      ∧ (rd < 32 → rs < 32 → n ∈ [1, 2, 4, 8] → a + n ≤ storeTop → a % n ≠ 0 →
          TrapStep (.ld cell rd rs off n) s cell 4 a ∧ TrapStep (.st cell rd rs off n) s cell 4 a)
      ∧ (c.stack.length = 16 → TrapStep (.call cell target) s cell 1 0)
      ∧ (c.stack = [] → TrapStep (.ret cell) s cell 1 0)
      ∧ (16384 ≤ target → TrapStep (.br cell target) s cell 1 0)

/-- R96 to R98: branches, calls and returns set the index, and traps stop the cell. -/
def Obligations.ControlTransfersAndTraps : Prop := ControlTransfersSetTheIndex ∧ ScalarInstructionsTrap

/-! ### Stream instructions -/

/-- R96: SCFG sets the operand descriptor of its role; SCAN writes E_max of the pre-scan (0 when no pair qualifies) while
every tag agrees; LOAD fills the bank that the next pass's tag names (R80). -/
def StreamInstructionsSetUpAPass : Prop :=
  ∀ (s : State) (cell rd chunk : Nat) (mode : ArrayMode) (o x w : OperandDesc),
    Issues s cell →
      let c := s.dev.cell cell
      (s.dev.descOk .stationary o = true →
        CellStep (.scfg cell .stationary o) s cell { c with descX := some o } (nextPc s cell 1))
      ∧ (s.dev.descOk .weight o = true →
        CellStep (.scfg cell .weight o) s cell { c with descW := some o } (nextPc s cell 1))
      ∧ (s.dev.descOk .output o = true →
        CellStep (.scfg cell .output o) s cell { c with descO := some o } (nextPc s cell 1))
      ∧ (c.descX = some x → c.descW = some w → c.poisoned = false → RangesFree s cell (scanRanges x ++ scanRanges w) [] →
          rd < 32 → pairingOk mode x.format w.format x.block = true → x.block = w.block → (preScan c.rd x w).2 = true →
          CellStep (.scan cell rd mode) s cell
            { c.setS rd (BitVec.ofInt 64 ((preScan c.rd x w).1.getD 0)) with
              scanned := some ((preScan c.rd x w).1.isSome, opAnyE4M3 c.rd w) } (nextPc s cell 1))
      ∧ (c.descX = some x → c.poisoned = false → c.boardFull = false → chunk % 64 = 0 →
          let rows := List.range (min 64 x.rows)
          let affine := c.descW.elim false (fun w => w.affine && isCode w.format)
          let cols := rows.map (loadColumn c.rd x affine chunk)
          RangesFree s cell (dataRanges x rows chunk (chunk + 64) ++ scaleRanges x rows chunk (chunk + 64)
            ++ (if affine then sumRanges x 4 rows chunk else [])) [] →
          cols.all (·.2) = true →
          CellStep (.load cell chunk) s cell
            (if s.dev.getF R.CEL_ARRAY_STATUS_NEXT_TAG cell = 0 then { c with bankA := ⟨x.format, cols.map (·.1)⟩ }
             else { c with bankB := ⟨x.format, cols.map (·.1)⟩ }) (nextPc s cell 1))

/-- R151, R182: a STAKE whose outputs name no scale-state entry stakes its entries, and the companion entries that the
operands call for, in every column: the mode is the one that the operand descriptors give, S is E_max + D_mode cut to 16
bits, and the headroom follows K. -/
def StakeFixesTheWindow : Prop :=
  ∀ (s : State) (cell : Nat) (a : StakeArgs) (m : ArrayMode) (x w : OperandDesc),
    let c := s.dev.cell cell
    Issues s cell → c.descX = some x → c.descW = some w → stakeMode x w = some m → x.block = w.block → c.poisoned = false →
      c.entriesBusy (c.stakePlaces a) = false → a.emaxReg < 32 → 1 ≤ a.count →
      a.first + a.count ≤ 256 → 1 ≤ a.kLen → a.kLen ≤ 2 ^ 32 →
      (a.recomp = true ∨ (c.descO.bind (·.entry) = none ∧ a.save.bind (·.entry) = none)) →
      let fr := stakeFrame m x w (c.scanned.getD (false, false)).2
      let S : Int := sext 16 (twos 16 (sext 64 (c.s a.emaxReg).toNat + fr.1))
      let own := (List.range a.count).map (· + a.first)
      let es := own ++ companions x w own
      Answers (.stake cell a) s fun t =>
        (∀ col e, col < 64 → e ∈ es →
          (t.cell cell).entry col e = stakedEntry S (headroom a.kLen) fr.2 fr.1 (productsOf m))
        ∧ (∀ col e, col < 64 → e < 256 → e ∉ es → (t.cell cell).entry col e = c.entry col e)
        ∧ t.cell cell = { c with sf := (t.cell cell).sf, hits := (t.cell cell).hits, used := (t.cell cell).used }
        ∧ t.getF R.CEL_SEQ_STATUS_PC cell = nextPc s cell 1 ∧ s.dev.CellsKept t cell
        ∧ t = { s.dev with cells := t.cells, fields := t.fields }

/-- R79 to R88, R96: stream instructions set up a pass, and STAKE fixes its window. -/
def Obligations.StreamInstructionsAndStake : Prop := StreamInstructionsSetUpAPass ∧ StakeFixesTheWindow

/-- R80, R153: a pass that may run delivers its results into the staking file, toggles the tag of the next pass and
enters the array; registers, cell store and banks stay. -/
def PassStreamsIntoTheStakingFile : Prop :=
  ∀ (s : State) (cell : Nat) (a : PassArgs) (x w : OperandDesc),
    let c := s.dev.cell cell
    let rows := (List.range (min 512 (passOutputs a))).map (· + a.firstOut)
    let tag := s.dev.getF R.CEL_ARRAY_STATUS_NEXT_TAG cell
    let rs := c.passResults a (if tag = 0 then c.bankA else c.bankB) x w
    let reads := dataRanges w rows a.chunk (a.chunk + 64) ++ scaleRanges w rows a.chunk (a.chunk + 64) ++ expandRanges w rows
      ++ (if x.zx ≠ 0 then sumRanges w (if w.affine && isCode w.format then 2 else 8) rows a.chunk else [])
    let own := (List.range (passOutputs a)).map (· + a.base)
    Issues s cell → c.descX = some x → c.descW = some w → c.poisoned = false → c.boardFull = false →
      s.dev.passLegal cell a x w = true → (a.mode = .split64 → s.dev.feature 6 = true) → entriesOk a x w = true →
      RangesFree s cell reads [] →
      rows.all (fun r => (rowBands c.rd w r a.chunk).all (·.2)) = true → rs.all (fun r => r.2.2.fits) = true →
      Answers (.pass cell a) s fun t =>
        let b := t.cell cell
        b.sf = (c.putResults a.base rs).sf ∧ b.passes = c.passes ++ [⟨a, reads, own ++ companions x w own⟩] ∧ b.sregs = c.sregs ∧ b.vregs = c.vregs
          ∧ b.store = c.store ∧ b.bankA = c.bankA ∧ b.bankB = c.bankB ∧ b.events = c.events ∧ b.tiles = c.tiles
          ∧ t.getF R.CEL_ARRAY_STATUS_NEXT_TAG cell = 1 - tag ∧ t.getF R.CEL_ARRAY_STATUS_IN_FLIGHT cell = 1
          ∧ t.getF R.CEL_SEQ_STATUS_PC cell = nextPc s cell 1 ∧ s.dev.CellsKept t cell
          ∧ t = { s.dev with cells := t.cells, fields := t.fields, rasLog := t.rasLog, out := t.out }

/-- R74, R115, R457: at a pass boundary the oldest pass closes, the counter of pass completions advances, IN_FLIGHT falls
with the last pass, and the cell takes up the target divider; the staking file, registers and cell store stay. -/
def PassBoundaryClosesThePass : Prop :=
  ∀ (s : State) (cell : Nat) (p : PassRun) (rest : List PassRun),
    let c := s.dev.cell cell
    s.dev.up = true → c.passes = p :: rest →
      Answers (.passBoundary cell) s fun t =>
        let b := t.cell cell
        b.passes = rest ∧ b.events = mput 0 (mget 0 c.events 0 + 1) c.events ∧ b.sf = c.sf ∧ b.sregs = c.sregs
          ∧ b.vregs = c.vregs ∧ b.store = c.store
          ∧ t.getF R.CEL_ARRAY_STATUS_IN_FLIGHT cell = (if rest = [] then 0 else 1)
          ∧ t.getF R.CEL_ARRAY_STATUS_DIVIDER cell = s.dev.getF R.PWR_CLK_STATUS_TARGET 0 % 8
          ∧ s.dev.CellsKept t cell ∧ t = { s.dev with cells := t.cells, fields := t.fields }

/-- R96, R178: a DRAIN whose outputs name no scale-state entry writes its output rows, and those of its save copy, into
the cell store and completes; the staking file and the registers stay. -/
def DrainWritesOutputRows : Prop :=
  ∀ (s : State) (cell : Nat) (a : DrainArgs) (x w o : OperandDesc),
    let c := s.dev.cell cell
    let rows := min 64 o.rows
    let ranges := outRanges o rows a.count ++ a.save.elim [] (fun sv => outRanges sv a.count rows)
    let values := (List.range rows).map (fun r => (List.range a.count).map (fun i => (s.dev.drainOne cell a x w r i).1))
    let own := (List.range a.count).map (· + a.first)
    Issues s cell → c.descX = some x → c.descW = some w → c.descO = some o → c.poisoned = false → c.boardFull = false →
      c.entriesBusy (own ++ companions x w own) = false → RangesFree s cell [] ranges → 1 ≤ a.count → a.first + a.count ≤ 256 → outputOk o a.count = true →
      (∀ sv, a.save = some sv →
        s.dev.descOk .output sv = true ∧ sv.col0 % 64 = 0 ∧ outputOk sv rows = true ∧ sv.entry = none) →
      (a.rescale = true → a.rescaleBase + a.count ≤ 4096) → o.entry = none →
      (∀ col i, col < 64 → i < a.count →
        (c.entry col (a.first + i)).staked = true ∨ (c.entry col (a.first + i)).t3.isSome = true) →
      Answers (.drain cell a) s fun t =>
        let b := t.cell cell
        let d1 := s.dev.putRows cell o (values.map (writeRow o 0))
        b.store = (a.save.elim d1 (fun sv => d1.putRows cell sv ((columnsOf a.count values).map (writeRow sv 0)))
            |>.cell cell).store
          ∧ b.events = mput 1 (mget 0 c.events 1 + 1) c.events ∧ b.sf = c.sf ∧ b.sregs = c.sregs ∧ b.vregs = c.vregs
          ∧ b.bankA = c.bankA ∧ b.bankB = c.bankB ∧ b.stats = c.stats ∧ b.tiles = c.tiles
          ∧ t.getF R.CEL_SEQ_STATUS_PC cell = nextPc s cell 1 ∧ s.dev.CellsKept t cell
          ∧ t = { s.dev with cells := t.cells, fields := t.fields, rasLog := t.rasLog, out := t.out }

/-- R80 to R86, R96, R178, R179: a PASS streams into the staking file, its boundary closes it, and DRAIN writes its rows. -/
def Obligations.PassesStreamAndDrain : Prop := PassStreamsIntoTheStakingFile ∧ PassBoundaryClosesThePass ∧ DrainWritesOutputRows

/-! ### Vector instructions -/

/-- R102 to R105, R262: VOP, VRED, VRNG and the register forms of VTBL write one v-register, lane by lane; a result with
fewer lanes leaves the other lanes. -/
def Obligations.VectorOperationsWriteOneRegister : Prop :=
  ∀ (s : State) (cell vd va vb vc sa sb purpose base : Nat) (k : VOpKind) (t : LaneType) (red : VRedKind) (v0 : Nat)
      (vs : List Nat) (conv : RngConv),
    let c := s.dev.cell cell
    let lanes (q : LaneType) (r : Nat) : List Nat := lanesOf q (c.v r)
    let writes (i : Instr) (v : BitVec 1024) : Prop := VectorStep i s cell (mput vd v c.vregs) (nextPc s cell 1)
    Issues s cell → vd < 32 → va < 32 → vb < 32 → vc < 32 →
      (vopTypeOk k t = true → k ≠ .rowSum →
        let u := vopTarget k t
        let n := min (laneCount t) (laneCount u)
        writes (.vop cell k t vd va vb vc) (ofLanes u ((List.range n).map (fun i =>
          (vopLane k t ((lanes t va).getD i 0) ((lanes t vb).getD i 0) ((lanes t vc).getD i 0)).1) ++ (lanes u vd).drop n)))
      ∧ (isInt t = true →
        let sums := (List.range (laneCount t / 16)).map (fun g =>
          intResult .i32 5 (((List.range 16).map (fun i => laneInt t ((lanes t va).getD (16 * g + i) 0))).sum) g 0 0)
        writes (.vop cell .rowSum t vd va vb vc) (ofLanes .i32 (sums ++ (lanes .i32 vd).drop sums.length)))
      ∧ ((∀ v ∈ v0 :: vs, v < 32) →
        let r := (vs.map (fun v => redTree red t (lanes t v))).foldl (redStep red t) (redTree red t (lanes t v0))
        writes (.vred cell red t vd (v0 :: vs)) (ofLanes t (r.1 :: (lanes t vd).tail)))
      ∧ (base + 256 ≤ 32768 →
        writes (.vtbl cell (.lookup vd va base)) (ofLanes .i8 ((lanes .i8 va).map (fun x => (byteAt c.lut (base + x)).toNat))))
      ∧ (isInt t = false →
        writes (.vtbl cell (.recip vd va t)) (ofLanes t ((lanes t va).map (tableFn 0 (laneFormat t))))
        ∧ writes (.vtbl cell (.sqrt vd va t)) (ofLanes t ((lanes t va).map (tableFn 1 (laneFormat t))))
        ∧ writes (.vtbl cell (.rsqrt vd va t)) (ofLanes t ((lanes t va).map (tableFn 2 (laneFormat t)))))
      ∧ writes (.vtbl cell (.exp2 vd va)) (ofLanes .f32 ((lanes .f32 va).map (tableFn 3 11)))
      ∧ writes (.vtbl cell (.log2 vd va)) (ofLanes .f32 ((lanes .f32 va).map (tableFn 4 11)))
      ∧ (sa < 32 → sb < 32 → purposeOk purpose = true → c.convOk conv = true →
        writes (.vrng cell purpose vd sa sb conv)
          (c.convLanes (rngWords s.dev.jobSeed purpose (c.s sa).toNat (c.s sb).toNat) conv))

/-- R105, R179: the table forms of VTBL load the rescale table and the lookup tables from the cell store. -/
def TableLoadsFillTheTables : Prop :=
  ∀ (s : State) (cell first src count : Nat),
    let c := s.dev.cell cell
    let bump (c : Cell) : Cell := { c with events := mput 2 (mget 0 c.events 2 + 1) c.events }
    Issues s cell → c.boardFull = false →
      (first + count ≤ 4096 → RangesFree s cell [(src, 8 * count)] [] →
        CellStep (.vtbl cell (.loadRescale first src count)) s cell
          (bump { c with rescale := (List.range count).foldl (fun m i =>
            mput (first + i) (rdNat c.rd (src + 8 * i) 4, rdNat c.rd (src + 8 * i + 4) 4) m) c.rescale }) (nextPc s cell 1))
      ∧ (first + count ≤ 32768 → RangesFree s cell [(src, count)] [] →
        CellStep (.vtbl cell (.loadTable first src count)) s cell
          (bump { c with lut := setBytes c.lut first (bytesAt c.store src count) }) (nextPc s cell 1))

/-- R91, R136, R190, R192: while the scoreboard has room, VLD without the remainder option takes each element with its
factors and rounds it once into its lane; VST of INT32 lanes writes their patterns. -/
def VectorLoadAndStore : Prop :=
  ∀ (s : State) (cell : Nat) (a : VMemArgs),
    let c := s.dev.cell cell
    Issues s cell → c.boardFull = false →
      (vmemOk s.dev a false = true → a.rem = none → RangesFree s cell (vmemRanges a) [] →
        let elem (i : Nat) : Nat :=
          let x := (s.dev.readElem c.rd a.desc a.row (a.first + i)).1
          if isInt a.lanes then (toInt a.lanes x).1 else (encodeWide (laneFormat a.lanes) x).1
        let n := laneCount a.lanes
        VectorStep (.vld cell a) s cell
          ((List.range a.regs).foldl (fun m r =>
            mput (a.vreg + r) (ofLanes a.lanes ((List.range n).map (fun i => elem (r * n + i)))) m) c.vregs) (nextPc s cell 1))
      ∧ (vmemOk s.dev a true = true → a.desc.format = 13 → a.desc.col0 = a.first → RangesFree s cell [] (vmemRanges a) →
        CellStep (.vst cell a) s cell
          { c with
            store := setBytes c.store (a.desc.data + a.row * a.desc.pitch) (packElems 32 (((List.range a.regs).flatMap
              (fun r => lanesOf a.lanes (c.v (a.vreg + r)))).map (fun v => twos 32 (laneInt a.lanes v))))
            events := mput 2 (mget 0 c.events 2 + 1) c.events } (nextPc s cell 1))

/-- R91, R96, R103: loads and stores of cell store values, tables and v-registers. -/
def Obligations.LoadsAndStores : Prop := ScalarLoadAndStore ∧ TableLoadsFillTheTables ∧ VectorLoadAndStore

/-! ### DMA, tiles and waiting -/

/-- R91, R92, R96, R336: while the scoreboard has room, a local DMA occupies its channel; a global one sends its packets on
the plot's flow and occupies its channel, one of a tile whose writes are suppressed sends none, and one without a flow
completes with NO_FLOW and traps. DMAS holds its adds with the tile, in element order, and occupies its channel; where
they find neither staging nor spill area it waits (R309). -/
def DmaOccupiesItsChannel : Prop :=
  ∀ (s : State) (cell ch entry first vreg count flow : Nat) (op : DmaOp) (t : LaneType) (plan : GradPlan),
    let c := s.dev.cell cell
    let runs (remote : Option Nat) : Cell := { c with dma := mput ch ⟨op, false, remote, c.order⟩ c.dma, order := c.order + 1 }
    let sent : Nat := if dmaWritesOut op = true ∧ s.dev.suppressed cell = true then 0 else (s.dev.globalPackets cell op).length
    Issues s cell → ch < 8 → mfind ch c.dma = none → c.boardFull = false →
      (RangesFree s cell (dmaReads op) (dmaWrites c.rd op) → dmaLegal c.rd false op = true →
        (∀ r ∈ dmaSources c.rd op ++ dmaTargets op, s.dev.localOk r.1 r.2 = true) →
        CellStep (.dma cell ch false op) s cell (runs none) (nextPc s cell 1))
      ∧ (RangesFree s cell (dmaReads op) (dmaWrites c.rd op) → dmaLegal c.rd true op = true →
        c.plot.bind (fun k => s.dev.flowOf (dmaPeer op) 0 k) = some flow →
        (sent = 0 → CellStep (.dma cell ch true op) s cell (runs (some 0)) (nextPc s cell 1))
        ∧ Answers (.dma cell ch true op) s fun t =>
            t.cell cell = runs (some sent) ∧ t.getF R.CEL_SEQ_STATUS_PC cell = nextPc s cell 1 ∧ s.dev.CellsKept t cell
              ∧ (t.flow flow).ops.length = (s.dev.flow flow).ops.length + sent ∧ t.mem = s.dev.mem)
      ∧ (RangesFree s cell (dmaReads op) (dmaWrites c.rd op) → dmaLegal c.rd true op = true →
        c.plot.bind (fun k => s.dev.flowOf (dmaPeer op) 0 k) = none →
        TrapStep (.dma cell ch true op) s cell 6 0
        ∧ Answers (.dma cell ch true op) s fun t => t.fab.opCodes = s.dev.fab.opCodes ++ [(s.dev.fab.nextTag % 2 ^ 32, 4)])
      ∧ (let regs := (count + laneCount t - 1) / laneCount t
         let lanes := ((List.range regs).flatMap (fun r => lanesOf t (c.v (vreg + r)))).take count
         let adds := (List.range count).map (fun i => (⟨plan.acc + 16 * (plan.offset entry + first) + 16 * i, 128,
           gradAddend (s.dev.windowTop entry) (laneVal t (lanes.getD i 0))⟩ : SetAdd))
         let held := if s.dev.suppressed cell then c.adds else c.adds ++ adds
         s.dev.train.plan = some plan → isInt t = false → 1 ≤ count → vreg + regs ≤ 32 →
         (∃ g, plan.grads[entry]? = some g ∧ first + count ≤ g.count) →
         ((s.dev.setCell cell { c with adds := held }).stagingFits = true →
           CellStep (.dmas cell ch entry first vreg t count) s cell
             { c with adds := held, dma := mput ch ⟨.staked 0 0 128 0, false, none, c.order⟩ c.dma, order := c.order + 1,
                      stageWait := false } (nextPc s cell 1))
         ∧ ((s.dev.setCell cell { c with adds := held }).stagingFits = false →
           Answers (.dmas cell ch entry first vreg t count) s fun t => t = s.dev.setCell cell { c with stageWait := true }))

/-- R92, R93, R96, R294 to R296, R306, R548: a local DMA of any form completes once the earlier ones that touch its bytes
have and its reads meet no uncorrectable word: its data has moved and its channel is free; a global one once all its
packets have. A read that meets an uncorrectable word, or finds one, halts the channel and shows the address; a halted
operation restarts from its beginning. -/
def DmaCompletesOrHalts : Prop :=
  ∀ (s : State) (cell ch a st x w order n flow : Nat) (sh : DmaShape) (op : DmaOp),
    let c := s.dev.cell cell
    let moved (t : Dev) : Prop :=
      (t.cell cell).dma = mdel ch c.dma
        ∧ (t.cell cell).events = mput (8 + ch) (mget 0 c.events (8 + ch) + 1) c.events
        ∧ (t.cell cell).sregs = c.sregs ∧ (t.cell cell).vregs = c.vregs ∧ (t.cell cell).sf = c.sf ∧ s.dev.CellsKept t cell
    let slot (op : DmaOp) : DmaSlot := ⟨op, false, none, order⟩
    let src := dmaSources c.rd op
    let read := src.foldl (fun d r => d.noteRead r.1 r.2) s.dev
    let halted (op : DmaOp) (w : Nat) (t : Dev) : Prop :=
      mfind ch (t.cell cell).dma = some ⟨op, true, none, order⟩ ∧ (t.cell cell).store = c.store
        ∧ t.getF R.CEL_DMA_FAULT_HI_VALID cell = 1 ∧ t.getF R.CEL_DMA_FAULT_HI_CHANNEL cell = ch % 8
        ∧ t.getF R.CEL_DMA_FAULT_LO_ADDR_LO cell = w % 2 ^ 32 ∧ t.getF R.CEL_DMA_FAULT_HI_ADDR_HI cell = w / 2 ^ 32 % 2 ^ 16
        ∧ t.errBit CEL cell 21 = true ∧ t.mem.bytes = s.dev.mem.bytes
    s.dev.up = true →
      (mfind ch c.dma = some (slot op) → c.mustFollow (slot op) = false → (∀ r ∈ src, s.dev.poisonIn r.1 r.2 = none) →
        (isStaked op = true → (read.moveDma cell op).stagingFits = true) →
        Answers (.dmaComplete cell ch none) s fun t =>
          moved t ∧ (t.cell cell).store = ((read.moveDma cell op).cell cell).store
            ∧ (t.cell cell).adds = ((read.moveDma cell op).cell cell).adds ∧ t.mem = (read.moveDma cell op).mem)
      ∧ (op = .toStore a st sh → mfind ch c.dma = some (slot op) → c.mustFollow (slot op) = false →
        (∀ r ∈ src, s.dev.poisonIn r.1 r.2 = none) →
        Answers (.dmaComplete cell ch none) s fun t =>
          moved t ∧ t.mem.bytes = s.dev.mem.bytes
            ∧ (t.cell cell).store
                = (shapePieces a st sh).foldl (fun m p => setBytes m p.2.1 (s.dev.bytes p.1 p.2.2)) c.store)
      ∧ (op = .fromStore st a sh → mfind ch c.dma = some (slot op) → c.mustFollow (slot op) = false →
        s.dev.suppressed cell = false →
        Answers (.dmaComplete cell ch none) s fun t =>
          moved t ∧ (t.cell cell).store = c.store
            ∧ t.mem = ((shapePieces a st sh).foldl (fun d p => d.write p.1 (bytesAt c.store p.2.1 p.2.2)) s.dev).mem)
      ∧ (mfind ch c.dma = some ⟨op, false, some 0, order⟩ →
        Answers (.dmaComplete cell ch none) s fun t => moved t ∧ (t.cell cell).store = c.store ∧ t.mem = s.dev.mem)
      ∧ (mfind ch c.dma = some (slot op) → c.mustFollow (slot op) = false →
        src.findSome? (fun r => s.dev.poisonIn r.1 r.2) = some w →
        Answers (.dmaComplete cell ch none) s (halted op w))
      ∧ (op = .toStore a st (.plain n) → mfind ch c.dma = some (slot op) → c.mustFollow (slot op) = false →
        s.dev.poisonIn a n = none → a ≤ x → x < a + n → s.dev.lineValid x = true →
        Answers (.dmaComplete cell ch (some x)) s fun t => halted op (x / 8 * 8) t ∧ x / 8 ∈ t.mem.poison)
      ∧ (mfind ch c.dma = some ⟨op, true, none, order⟩ →
        Answers (.dmaRestart cell ch) s fun t =>
          t = s.dev.setCell cell { c with dma := mput ch ⟨op, false, none, order⟩ c.dma })
      ∧ (mfind ch c.dma = some ⟨op, true, some n, order⟩ → c.plot.bind (fun k => s.dev.flowOf (dmaPeer op) 0 k) = some flow →
        Answers (.dmaRestart cell ch) s fun t =>
          mfind ch (t.cell cell).dma = some ⟨op, false,
              some (if dmaWritesOut op = true ∧ s.dev.suppressed cell = true then 0 else (s.dev.globalPackets cell op).length),
              c.order⟩
            ∧ (t.cell cell).store = c.store ∧ s.dev.CellsKept t cell ∧ t.mem = s.dev.mem)

/-- R92, R93: DMA occupies its channel until it completes or halts. -/
def Obligations.DmaRuns : Prop := DmaOccupiesItsChannel ∧ DmaCompletesOrHalts

/-- R99, R101: TGET takes a returned tile of the phase first, then the next untaken one, and the cell holds it; with none
left it writes END, a free value (log entry 10). The first TGET of a phase that writes an entry under R177 puts the phase
into MEASURE with MARK set on that entry, and takes its first tile (R185). A cell that waits at TBAR or has halted takes a
returned tile of its phase and goes on behind its last TGET (R30, R101). -/
def TileGetTakesTheNextTile : Prop :=
  ∀ (s : State) (cell rd tiles k : Nat) (writes : List Nat),
    let c := s.dev.cell cell
    let d := (s.dev.setCell cell { c with getPc := s.dev.getF R.CEL_SEQ_STATUS_PC cell, getStack := c.stack }).openPhase k c.phase
    let p := (d.plot k).phase c.phase
    let r := if p.tiles = 0 then { p with tiles := tiles } else p
    let opened : Prop := (mfind c.phase (d.plot k).phases).isSome = true ∨ d.warmAmong writes = [] ∨ tiles = 0
    let takes (i : Nat) (t : Dev) : Prop :=
      (t.cell cell).s rd = (if rd = 0 then 0 else BitVec.ofNat 64 i) ∧ (t.cell cell).tiles = c.tiles ++ [⟨k, c.phase, i⟩]
        ∧ t.getF R.CEL_TILE_TILE cell = i % 2 ^ 32 ∧ t.getF R.CEL_TILE_STATUS_HOLDING cell = 1
        ∧ (t.cell cell).vregs = c.vregs ∧ (t.cell cell).store = c.store
    s.dev.up = true → c.plot = some k → rd < 32 →
      (s.dev.canIssue cell = true → c.waiting = none → opened → ∀ i r', r.take = some (i, r') →
        Answers (.tget cell rd ⟨tiles, writes⟩) s fun t =>
          takes i t ∧ (t.plot k).phase c.phase = r' ∧ t.getF R.CEL_SEQ_STATUS_PC cell = nextPc s cell 1
            ∧ s.dev.CellsKept t cell)
      ∧ (s.dev.canIssue cell = true → c.waiting = none → opened → r.take = none →
        Answers (.tget cell rd ⟨tiles, writes⟩) s fun t =>
          (t.cell cell).s rd = (if rd = 0 then 0 else Config.tileEnd) ∧ (t.cell cell).tiles = c.tiles
            ∧ t.getF R.CEL_SEQ_STATUS_PC cell = nextPc s cell 1 ∧ s.dev.CellsKept t cell)
      ∧ (s.dev.canIssue cell = true → ¬opened → d.holders k c.phase none = [] →
        Answers (.tget cell rd ⟨tiles, writes⟩) s fun t =>
          takes 0 t ∧ t.getF R.CEL_SEQ_STATUS_PC cell = nextPc s cell 1
            ∧ ((t.plot k).phase c.phase).kind = .measure ∧ ∀ i ∈ d.warmAmong writes, i ∈ ((t.plot k).phase c.phase).marked)
      ∧ (s.dev.canIssue cell = false → s.dev.canGet cell = true → ∀ i rest, ((s.dev.plot k).phase c.phase).returned = i :: rest →
        Answers (.tget cell rd ⟨tiles, writes⟩) s fun t =>
          takes i t ∧ (t.cell cell).waiting = none ∧ t.getF R.CEL_SEQ_STATUS_RUN cell = 1
            ∧ t.getF R.CEL_SEQ_STATUS_PC cell = (c.getPc % 16384 + 1) % 16384
            ∧ (t.plot k).halted = (s.dev.plot k).halted.erase cell
            ∧ ((t.plot k).phase c.phase).returned = rest ∧ s.dev.CellsKept t cell)

/-- R99: of the untaken tiles TGET takes the lowest, and it takes none beyond the number of tiles. -/
def TilesAreTakenOnceInOrder : Prop :=
  ∀ (r r' : PhaseRun) (i : Nat), r.take = some (i, r') →
    (r.returned = [] → i = r.next ∧ i < r.tiles ∧ r'.next = r.next + 1 ∧ r'.returned = [])
      ∧ (∀ x xs, r.returned = x :: xs → i = x ∧ r'.returned = xs ∧ r'.next = r.next) ∧ r'.done = r.done ∧ r'.tiles = r.tiles

/-- R99 to R101: TILE_GET takes the next tile, each tile once and in order, returned ones first. -/
def Obligations.TilesAreHandedOut : Prop := TileGetTakesTheNextTile ∧ TilesAreTakenOnceInOrder

/-- R94, R99: TDONE completes the earliest tile that the cell holds, once its DMA is idle: the tile is done in its phase and
leaves the cell, and outside MEASURE its open set is closed; a poisoned tile completes nothing (R87). -/
def TileDoneCompletesTheTile : Prop :=
  ∀ (s : State) (cell : Nat) (x : Tile) (xs : List Tile),
    let c := s.dev.cell cell
    Issues s cell → c.dma = [] → c.tiles = x :: xs →
      (c.poisoned = false →
        Answers (.tdone cell) s fun t =>
          x.index ∈ ((t.plot x.plot).phase x.phase).done ∧ (t.cell cell).tiles = xs ∧ (t.cell cell).adds = []
            ∧ t.sets = (if ((s.dev.plot x.plot).phase x.phase).kind = .measure ∨ c.adds = [] then s.dev.sets
                else s.dev.sets ++ [⟨cell, x.index, c.adds⟩]))
      ∧ (c.poisoned = true →
        Answers (.tdone cell) s fun t =>
          t.plots = s.dev.plots ∧ t.sets = s.dev.sets ∧ t.mem = s.dev.mem ∧ (t.cell cell).tiles = xs
            ∧ (t.cell cell).poisoned = false)

/-- R99: a cell at TBAR waits while a tile of its phase is not done; once every tile is done it goes on in the next phase. -/
def BarrierWaitsForThePhase : Prop :=
  ∀ (s : State) (cell k : Nat),
    let c := s.dev.cell cell
    let p := (s.dev.plot k).phase c.phase
    Issues s cell → c.plot = some k →
      (p.over = false →
        Answers (.tbar cell) s fun t =>
          t = (s.dev.setCell cell { c with waiting := some .barrier }).setF R.CEL_SEQ_STATUS_RUN cell 2)
      ∧ (p.over = true → mwf s.dev.cells = true →
        Answers (.tbar cell) s fun t =>
          (t.cell cell).phase = c.phase + 1 ∧ (t.cell cell).waiting = none ∧ t.getF R.CEL_SEQ_STATUS_RUN cell = 1
            ∧ t.getF R.CEL_SEQ_STATUS_PC cell = nextPc s cell 1 ∧ (t.cell cell).tiles = c.tiles
            ∧ (t.cell cell).sregs = c.sregs ∧ t.plots = s.dev.plots)

/-- R96: WAIT goes on once the counter that it names has reached the count, FENCE once nothing of the cell is in flight;
until then the cell waits. HALT ends the cell's part in its plot's run. -/
def WaitFenceAndHalt : Prop :=
  ∀ (s : State) (cell count : Nat) (e : EventKind),
    let c := s.dev.cell cell
    let waits (i : Instr) (w : WaitFor) : Prop := Answers i s fun t =>
      t = (s.dev.setCell cell { c with waiting := some w }).setF R.CEL_SEQ_STATUS_RUN cell 2
    Issues s cell →
      (eventOk e = true → count ≤ mget 0 c.events (eventKey e) →
        CellStep (.wait cell e count) s cell { c with waiting := none } (nextPc s cell 1))
      ∧ (eventOk e = true → mget 0 c.events (eventKey e) < count → waits (.wait cell e count) (.events e count))
      ∧ (c.passes = [] → c.dma = [] → CellStep (.fence cell) s cell { c with waiting := none } (nextPc s cell 1))
      ∧ (c.passes ≠ [] ∨ c.dma ≠ [] → waits (.fence cell) .fence)
      ∧ (∀ k, c.plot = some k →
        Answers (.halt cell) s fun t => (t.plot k).halted = insertSet cell (s.dev.plot k).halted ∧ t.nv = s.dev.nv)
      ∧ (c.plot = none → Answers (.halt cell) s fun t => t.getF R.CEL_SEQ_STATUS_RUN cell = 0 ∧ t.plots = s.dev.plots)

/-- R99, R100, R102, R103: TILE_DONE, BARRIER, WAIT, FENCE and HALT. -/
def Obligations.TilesEndAndWaitsRelease : Prop := TileDoneCompletesTheTile ∧ BarrierWaitsForThePhase ∧ WaitFenceAndHalt

/-- R94, R309: the logic dies apply the oldest closed set of a tile, add by add, and forget it. Where every
cell that holds an open set waits for staging, the step does not close and STAGE_DEADLOCK is set (R310); with a cell that
does not wait nothing happens. -/
def StakedSetsApplyWhole : Prop :=
  ∀ (s : State) (cell tile : Nat) (x : ClosedSet), s.dev.up = true →
    (s.dev.sets.find? (fun y => decide (y.cell = cell) && decide (y.tile = tile)) = some x →
      Answers (.stakedSetApply cell tile) s fun t =>
        t.sets = s.dev.sets.erase x
          ∧ t.mem = (x.adds.foldl (fun d a => d.stakedAdd a.width a.addr (twos a.width a.q)) s.dev).mem
          ∧ t.cells = s.dev.cells.map (fun (e : Nat × Cell) => (e.1, { e.2 with stageWait := false }))
          ∧ t.plots = s.dev.plots)
    ∧ ((∃ e ∈ s.dev.cells, e.2.adds ≠ []) → (∀ e ∈ s.dev.cells, e.2.adds ≠ [] → e.2.stageWait = true) →
      Answers .stageDeadlock s fun t =>
        t.ctl.noClose = true ∧ (∀ k, k < 8 → t.errBit MEM k 24 = true) ∧ t.cells = s.dev.cells ∧ t.mem = s.dev.mem)
    ∧ (¬((∃ e ∈ s.dev.cells, e.2.adds ≠ []) ∧ ∀ e ∈ s.dev.cells, e.2.adds ≠ [] → e.2.stageWait = true) →
      Answers .stageDeadlock s fun t => t = s.dev)

/-- R185: once every tile of a phase in MEASURE is done, each marked entry gets a just-in-time decision and the phase
runs again in FINAL. -/
def MeasureEndsInFinal : Prop :=
  ∀ (s : State) (plot phase : Nat),
    let r := (s.dev.plot plot).phase phase
    s.dev.up = true → r.kind = .measure → r.done.length = r.tiles → r.tiles ≠ 0 →
      Answers (.measureComplete plot phase) s fun t =>
        ((t.plot plot).phase phase).kind = .final ∧ ((t.plot plot).phase phase).done = []
          ∧ ∀ i ∈ r.marked, ∃ sigma cause, Decision.jit 0 plot phase i sigma cause ∈ t.ctl.decisions

/-- R177, R184 to R186, R308: staked sets apply whole, and measuring ends in its final scales. -/
def Obligations.StakedSetsAndMeasures : Prop := StakedSetsApplyWhole ∧ MeasureEndsInFinal

/-! ### Numeric events, sieve, thin-channel engine -/

/-- R237, R252, R253: a consumer index within the ring is taken, one beyond it is ignored; NUM_XREC_SEL shows the selected
record, and NUM_XREC_CLEAR shows it and empties its slot. -/
def NumericPageCommands : Prop :=
  ∀ (s : State) (w : Writer) (v cell kind : Nat), Writes s w →
    let held := (2 ^ 32 + s.dev.getF R.NUM_RING_PROD_PROD 0 - v % 2 ^ 32) % 2 ^ 32
    let shown (t : Dev) : Prop :=
      t.getF R.NUM_XREC_SEL_CELL 0 = cell % 2 ^ 11 ∧ t.getF R.NUM_XREC_SEL_KIND 0 = kind % 4
        ∧ (∀ r, mfind (kind % 4) (s.dev.cell cell).xrec = some r →
          t.getF R.NUM_XREC_0_VALID 0 = 1 ∧ t.getF R.NUM_XREC_STEP_STEP 0 = r.step % 2 ^ 32
            ∧ t.getF R.NUM_XREC_TILE_TILE 0 = r.tile % 2 ^ 32 ∧ t.getF R.NUM_XREC_BLOCK_BLOCK 0 = r.block % 2 ^ 32
            ∧ t.getF R.NUM_XREC_COUNT_COUNT 0 = r.count % 2 ^ 32)
        ∧ (mfind (kind % 4) (s.dev.cell cell).xrec = none → t.getF R.NUM_XREC_0_VALID 0 = 0)
    (held ≤ 2 ^ s.dev.getF R.NUM_RING_CFG_LOG2_SIZE 0 → s.dev.numx.droppedSince = 0 →
      Answers (.numRingCons w v) s fun t => t = (s.dev.setF R.NUM_RING_CONS_CONS 0 v).setAct R.NUM_RING_CONS_CONS 0 v)
    ∧ (2 ^ s.dev.getF R.NUM_RING_CFG_LOG2_SIZE 0 < held → Answers (.numRingCons w v) s fun t => t = s.dev)
    ∧ (cell < 1152 →
      (Answers (.numXrecSel w cell kind) s fun t =>
        shown t ∧ t = { s.dev with fields := t.fields, acting := t.acting })
      ∧ Answers (.numXrecClear w cell kind) s fun t =>
        shown t ∧ t.cell cell = { s.dev.cell cell with xrec := mdel (kind % 4) (s.dev.cell cell).xrec }
          ∧ s.dev.CellsKept t cell ∧ t = { s.dev with fields := t.fields, acting := t.acting, cells := t.cells })

/-- R243: a slot without a host gets a spare cell in service; with none and BORROW = 1 a cell of its plot that holds no tile,
which is cloched. A check frees the slot. -/
def SieveSlotsGetAHostAndAreFreed : Prop :=
  ∀ (s : State) (slot p : Nat) (sl : SieveSlot), s.dev.up = true → mfind slot s.dev.numx.sieve = some sl →
    (sl.host = none → s.dev.spareHost = some p →
      Answers (.sieveRecompute slot) s fun t =>
        t = { s.dev with numx := { s.dev.numx with sieve := mput slot { sl with host := some p } s.dev.numx.sieve } })
    ∧ (sl.host = none → s.dev.spareHost = none → s.dev.actF R.NUM_SIEVE_CFG_BORROW 0 = 1 →
        s.dev.borrowHost sl = some p →
      Answers (.sieveRecompute slot) s fun t =>
        (mfind slot t.numx.sieve).bind (·.host) = some p ∧ t.blk CEL p = stCloched ∧ t.mem = s.dev.mem)
    ∧ (sl.host = some p → mwf s.dev.numx.sieve = true →
      Answers (.sieveCheck slot) s fun t => mfind slot t.numx.sieve = none ∧ t.pip = s.dev.pip ∧ t.fab = s.dev.fab)
    ∧ (sl.host = some p → sl.copies = [] →
      Answers (.sieveCheck slot) s fun t =>
        t = { s.dev with numx := { s.dev.numx with sieve := mdel slot s.dev.numx.sieve } }.freeHost p)

/-- R238 to R252: the commands of the NUM page and the sieve. -/
def Obligations.NumericPageAndSieve : Prop := NumericPageCommands ∧ SieveSlotsGetAHostAndAreFreed

/-- R219, R223, R227, R228: an idle unit in service takes its next request by its OP, with the COOKIE of its descriptor, and
holds its outcome until the request completes; no result is written before. A source that is uncorrectable shows in
THN_FAULT. `hs` is what a request with SRC_HOST reads from the bus. -/
def ThinRequestsStart : Prop :=
  ∀ (s : State) (unit : Nat) (hs : List Byte) (q : ThnReq) (u : Thn),
    let d := if s.dev.blk THN unit = stReady then s.dev.setBlk THN unit stRunning else s.dev
    let runs (c : Instr) (op : Nat) (o : ThnOut) : Prop :=
      s.dev.thnOp unit = some op →
        Answers c s fun t =>
          (∃ q', (t.thnUnit unit) = { u with current := some q' } ∧ q'.cmd = q.cmd ∧ q'.addr = q.addr ∧ q'.host = q.host
            ∧ q'.status = o.status ∧ q'.count = o.count ∧ q'.writes = o.writes ∧ q'.cookie = s.dev.nat (q.addr + 12) 4)
          ∧ t.blk THN unit = stRunning ∧ (op ≠ 1 → t.mem.bytes = s.dev.mem.bytes)
          ∧ ∀ a, o.fault = some a → t.getF R.THN_FAULT_HI_VALID unit = 1 ∧ t.getF R.THN_FAULT_LO_ADDR_LO unit = a % 2 ^ 32
    let q₀ := s.dev.thnCookie q
    s.dev.up = true → unit < 2 → s.dev.thnNext unit = some (q, u) →
      runs (.thnConv ⟨unit, hs⟩) 1 (d.thnConvRun unit q₀ hs).2 ∧ runs (.thnArgmax ⟨unit, hs⟩) 3 (d.thnArg q₀ hs)
        ∧ runs (.thnTopk unit hs) 4 (d.thnScores q₀ hs false) ∧ runs (.thnSort unit hs) 5 (d.thnScores q₀ hs true)

/-- R224: ARGMAX picks the first index whose value no other value exceeds. -/
def ArgmaxPicksTheFirstLargest : Prop :=
  ∀ (x : Machine.Num) (xs : List Machine.Num), (∀ y ∈ x :: xs, y.isNan = false) →
    let r := argBest (x :: xs)
    r.1 < (x :: xs).length ∧ (x :: xs)[r.1]? = some r.2
      ∧ (∀ y ∈ x :: xs, scoreLe false y r.2 = true) ∧ ∀ i y, i < r.1 → (x :: xs)[i]? = some y → scoreLe false r.2 y = false

/-- R219, R227, R228: the request in progress completes: its writes are performed, its completion carries the COOKIE of its
descriptor, and the unit is free. -/
def ThinRequestsComplete : Prop :=
  ∀ (s : State) (unit : Nat) (q : ThnReq), s.dev.up = true → (s.dev.thnUnit unit).current = some q →
    q.stats = [] → q.events = [] →
      Answers (.thnRequestComplete unit) s fun t =>
        (t.thnUnit unit) = { s.dev.thnUnit unit with current := none }
          ∧ t.mem = (q.writes.foldl (fun d w => d.write w.1 w.2) s.dev).mem
          ∧ t.cells = s.dev.cells ∧ t.plots = s.dev.plots
          ∧ (q.host = false → ∀ e ∈ t.ctl.order, e.cmd ≠ q.cmd)
          ∧ (q.host = true → t.ctl.order = s.dev.ctl.order)
          ∧ ((s.dev.ring q.cmd.port q.cmd.ring).kind ≠ 1 →
            ∃ addr rest, Out.completion q.cmd.port q.cmd.ring addr (leBytes 4 q.cookie ++ rest) ∈ t.out)

/-- R218 to R230: requests of the thin-channel engine start, complete, and pick as their rules say. -/
def Obligations.ThinRequestsRun : Prop := ThinRequestsStart ∧ ArgmaxPicksTheFirstLargest ∧ ThinRequestsComplete

/-! ### Policy -/

/-- R65, R111 to R113: once in a step, a rebalance that the busy times call for is recorded as one decision per plot whose
cells change; nothing else of the plots changes before the boundary. Plots under POLICY_HOLD take no part, and where they
would have, POLICY is set on each. -/
def Obligations.RebalanceIsDecidedOnce : Prop :=
  ∀ (s : State) (ps : List RebPlot),
    let able := s.dev.rebAble
    let busy (ks : List Nat) : List Nat := (s.dev.rebInputs ks).map (·.2.1)
    let xs := s.dev.rebInputs (able.filter (fun k => !s.dev.held PLT k))
    s.dev.up = true → s.dev.jobActive = true → s.dev.recorded = none → s.dev.step ≠ 0 →
      (s.dev.ctl.rebTried = false → spreadLarge (xs.map (·.2.1)) = true → s.dev.rebCounts xs = some ps →
        Answers .plotRebalanceCompute s fun t =>
          t.ctl.decisions = s.dev.ctl.decisions
              ++ (s.dev.rebMoves ps).map (fun m => Decision.rebalance m.1 m.2.1.length m.2.2 m.2.1)
            ∧ t.ctl.rebTried = true ∧ t = { s.dev with ctl := t.ctl, fields := t.fields, out := t.out }
            ∧ ∀ k l, t.isMember k l = s.dev.isMember k l)
      ∧ (s.dev.ctl.rebTried = false → spreadLarge (busy able) = true → ∀ k ∈ able, s.dev.held PLT k = true →
        Answers .plotRebalanceCompute s fun t => bitOf (t.getF (R.BLK_IRQ_PEND PLT) k) 3 = true)
      ∧ (s.dev.ctl.rebTried = true → Answers .plotRebalanceCompute s fun t => t = s.dev)

/-- R195: in step n, FORMAT_PROMOTION_DECIDE promotes an entry that is considered for promotion when the statistics of step
n - 1 call for it, and no other; an entry with ELEMENTS = 0 is not promoted. -/
def Obligations.StatisticsPromoteEntries : Prop :=
  ∀ s : State, s.dev.up = true → s.dev.jobActive = true → s.dev.recorded = none → s.dev.statsWithheld = false → s.dev.step ≠ 0 →
    s.dev.feature 12 = true → s.dev.held NUM 0 = false →
    Answers .formatPromotionDecide s fun t => ∃ ds, t.ctl.decisions = s.dev.ctl.decisions ++ ds
      ∧ (∀ i, i < s.dev.sstCount → s.dev.promotable i = true → s.dev.promoted i = false → ∀ g, s.dev.promoteTo i = some g →
          let stat := s.dev.statAt i (s.dev.step - 1)
          let vanish := s.dev.nat (stat + 8) 8
          let sat := s.dev.nat (stat + 16) 8
          let elements := s.dev.nat (stat + 24) 8
          let vanishLim := s.dev.nat (s.dev.sstAt i + 0xC) 2
          let satLim := s.dev.nat (s.dev.sstAt i + 0xE) 2
          (Decision.promotion i (s.dev.entryFormat i) g 0 ∈ ds ↔
            elements ≠ 0 ∧ (vanish * 65536 > vanishLim * elements ∨ (sat * 65536 > satLim * elements ∧ sat > 0))))
      ∧ t = { s.dev with ctl := t.ctl, fields := t.fields, out := t.out }

/-! ### Steps and seals -/

/-- R11, R18, R36, R403: a STEP_MARK enters command order and is held; at the boundary of a step that is ready the step
closes and the next one opens, its records are logged, and on an unpaired device it seals at once; with two boundaries
unsealed, with too many records (R382) or with a poisoned word that its updates would meet (R547), it does not close. -/
def StepsCloseAtTheirMark : Prop :=
  ∀ (s : State) (c : JobCmd) (m : BoundaryMeasure) (w cause : Nat), s.dev.up = true → NothingHeld s →
    let n := s.dev.step
    let r := s.dev.batchShort.boundaryState
    let recs := r.2.stepRecords r.1 s.dev.voteSkip s.dev.ctl.markHeld
    let boundary := Answers (.stepBoundary m) s
    (c.opc = 1 → argsClear c 0 = true → Answers (.stepMark c) s fun t =>
      t.ctl.order = s.dev.ctl.order ++ [⟨c, .held⟩] ∧ t.step = n ∧ t.mem = s.dev.mem ∧ t.cells = s.dev.cells)
    ∧ (s.dev.boundaryReady = false → boundary fun t => t = s.dev)
    ∧ (s.dev.boundaryReady = true → 2 ≤ s.dev.unsealedCount → boundary fun t =>
        t.step = n ∧ t.ctl.heldMeasure = some m ∧ t.ctl.order = s.dev.ctl.order ∧ t.mem = s.dev.mem ∧ t.cells = s.dev.cells)
    ∧ (s.dev.boundaryReady = true → s.dev.unsealedCount < 2 → s.dev.boundaryPoison = some (w, cause) → boundary fun t =>
        t.step = n ∧ t.ctl.replayAsked = cause ∧ t.mem.bytes = s.dev.mem.bytes)
    ∧ (s.dev.boundaryReady = true → s.dev.unsealedCount < 2 → s.dev.boundaryPoison = none → 16384 < recs.length →
        boundary fun t => t.step = n ∧ t.ctl.noClose = true ∧ t.errBit SOW 0 23 = true ∧ t.mem = s.dev.mem)
    ∧ (s.dev.boundaryReady = true → s.dev.unsealedCount < 2 → s.dev.boundaryPoison = none → recs.length ≤ 16384 →
        s.dev.ctl.order.length = 1 → boundary fun t =>
          t.step = (n + 1) % 2 ^ 64 ∧ t.ctl.order = [] ∧ (t.jobActive = true ↔ s.dev.ctl.endAsked = false)
            ∧ t.getF R.SOW_LSN 0 = (s.dev.getF R.SOW_LSN 0 + recs.length) % 2 ^ 64
            ∧ (s.dev.captures = false →
                t.getF R.SOW_LAST_SEALED 0 = n % 2 ^ 64 ∧ t.getF R.SOW_SEAL_STATUS_SEALED_VALID 0 = 1)
            ∧ (s.dev.captures = true → s.dev.sow.baseActive = false → t.sow.unsealed = s.dev.sow.unsealed ++ [n]))

/-- R17, R380: SEAL_ACK(n) seals boundary n with every earlier one; the acknowledgement of a boundary that is not open
changes nothing. -/
def SealsCoverEarlierBoundaries : Prop :=
  ∀ (s : State) (n : Nat), s.dev.up = true → NothingHeld s →
    (s.dev.streaming = true → n ∈ s.dev.sow.unsealed → s.dev.ctl.heldMeasure = none → Answers (.sealAck n) s fun t =>
      t.sow.unsealed = s.dev.sow.unsealed.filter (fun k => decide (n < k)) ∧ t.getF R.SOW_LAST_SEALED 0 = n % 2 ^ 64
        ∧ t.getF R.SOW_SEAL_STATUS_SEALED_VALID 0 = 1 ∧ t.step = s.dev.step)
    ∧ (s.dev.streaming = false ∨ n ∉ s.dev.sow.unsealed → Answers (.sealAck n) s fun t => t = s.dev)

/-- R11, R17, R18, R36, R372, R380, R382: steps close at their mark, and seals cover earlier boundaries. -/
def Obligations.StepsCloseAndSeal : Prop := StepsCloseAtTheirMark ∧ SealsCoverEarlierBoundaries

/-! ### Job commands -/

/-- The device once a command has taken its place in the open step's command order (R342, R383). -/
def placed (d : Dev) (c : JobCmd) : Dev := if d.jobActive && !d.markAhead then d.place c else d

/-- The command may begin at once, and stands in command order once. -/
def Begins (s : State) (c : JobCmd) : Prop :=
  (placed s.dev c).mayBegin s.dev.ctl.order c = true ∧ c.update = false ∧ ∀ e ∈ s.dev.ctl.order, e.cmd ≠ c

/-- R36: a job command that may not begin yet is held at the end of command order, and does nothing else. -/
def JobCommandsWaitInOrder : Prop :=
  ∀ (s : State) (c : JobCmd), s.dev.up = true → NothingHeld s → (placed s.dev c).mayBegin s.dev.ctl.order c = false →
    let waits (i : Instr) (opc : Nat) : Prop := c.opc = opc → Answers i s fun t =>
      t.ctl.order = s.dev.ctl.order ++ [⟨c, .held⟩]
        ∧ t = { s.dev with train := t.train, ctl := { s.dev.ctl with order := t.ctl.order }, sow := t.sow }
        ∧ t.train = (placed s.dev c).train
    waits (.plotRun c) 2 ∧ waits (.ingest c) 3 ∧ waits (.gradPlan c) 4 ∧ waits (.gradDone c) 5 ∧ waits (.positionLoad c) 6
      ∧ waits (.allGather c) 7 ∧ waits (.broadcast c) 8 ∧ waits (.barrier c) 9

/-- R95, R99, R523: PLOT_RUN gives its plot the program and starts the plot's cells in service at its entry; once every
cell has halted the run completes and its cells are free. -/
def PlotRunsStartAndComplete : Prop :=
  ∀ (s : State) (c : JobCmd), s.dev.up = true → NothingHeld s →
    let k := argOf c 0
    (c.opc = 2 → Begins s c → k < 64 → argOf c 2 ≤ 65536 → argOf c 3 < 16384 → argsClear c 4 = true →
      s.dev.plotActive k = true → s.dev.inJob (argOf c 1) (argOf c 2) = true → Answers (.plotRun c) s fun t =>
        (t.plot k).cmd = some c ∧ (t.plot k).program = (argOf c 1, argOf c 2)
          ∧ (t.plot k).code = s.dev.bytes (argOf c 1) (argOf c 2) ∧ (t.plot k).halted = []
          ∧ (t.plot k).stopped = false ∧ ⟨c, .running⟩ ∈ t.ctl.order
          ∧ (∀ l ∈ s.dev.members k, ∀ p, s.dev.physOf l = some p → s.dev.inService p = true → s.dev.isReturned CEL p = false →
              s.dev.getF R.CEL_SEQ_STATUS_RUN p ∉ [1, 2] →
              (t.cell p).plot = some k ∧ (t.cell p).istore = s.dev.bytes (argOf c 1) (argOf c 2)
                ∧ t.getF R.CEL_SEQ_STATUS_RUN p = 1 ∧ t.getF R.CEL_SEQ_STATUS_PC p = argOf c 3)
          ∧ t.mem.bytes = s.dev.mem.bytes)
    ∧ (c.opc = 2 → Begins s c → s.dev.plotActive k = false → Answers (.plotRun c) s fun t =>
        t.ctl.order = s.dev.ctl.order ∧ t.plots = s.dev.plots ∧ t.cells = s.dev.cells)
    ∧ (∀ plot, (s.dev.plot plot).cmd = some c → s.dev.runOver plot = true → Answers (.plotRunComplete plot) s fun t =>
        (t.plot plot).cmd = none ∧ (∀ e ∈ t.ctl.order, e.cmd ≠ c) ∧ (∀ p ∈ s.dev.runners plot, (t.cell p).plot = none)
          ∧ t.mem = s.dev.mem)
    ∧ (∀ plot, s.dev.runOver plot = false → Answers (.plotRunComplete plot) s fun t => t = s.dev)

/-- R36, R95, R99, R274, R523: job commands wait in order, and plots run. -/
def Obligations.JobCommandsRunInOrder : Prop := JobCommandsWaitInOrder ∧ PlotRunsStartAndComplete

/-- R269, R270, R275: a gradient plan that breaks no condition waits for the next boundary; GRAD_DONE marks its entry
done, and a second one is only counted; POSITION_LOAD checks the data positions, and commands run once they pass. -/
def Obligations.GradientPlansAndPositions : Prop :=
  ∀ (s : State) (c : JobCmd) (p : GradPlan), s.dev.up = true → NothingHeld s → Begins s c →
    let list := argOf c 0
    let n := argOf c 1 % 2 ^ 32
    let plan : GradPlan := { grads := (List.range (min n 65536)).map (fun i => s.dev.gradAt (list + 32 * i)), acc := argOf c 2,
                             width := if bitOf (argOf c 1) 32 then 32 else 64, group := bitsOf (argOf c 1) 40 8, list := list }
    let dup := s.dev.getF R.COL_GRAD_DUP_COUNT 0
    (c.opc = 4 → s.dev.sow.planAtOnce = false → s.dev.sow.planFirst ≠ some c.num → bitsOf (argOf c 1) 33 7 = 0 →
      bitsOf (argOf c 1) 48 16 = 0 → argsClear c 3 = true → (bitOf (argOf c 1) 32 = true → s.dev.feature 3 = true) →
      bitsOf (argOf c 1) 40 8 < min 256 (s.dev.getF R.COL_GROUP_COUNT_COUNT 0) →
      s.dev.planOk list n plan.acc plan = true → Answers (.gradPlan c) s fun t =>
        t.train.nextPlan = some plan ∧ t.train.plan = s.dev.train.plan ∧ t.ctl.order = s.dev.ctl.order ∧ t.mem = s.dev.mem
          ∧ t.cells = s.dev.cells)
    ∧ (c.opc = 4 → s.dev.planOk list n plan.acc plan = false → Answers (.gradPlan c) s fun t =>
        t.train.nextPlan = s.dev.train.nextPlan ∧ t.train.plan = s.dev.train.plan ∧ t.ctl.order = s.dev.ctl.order)
    ∧ (c.opc = 5 → s.dev.train.plan = some p → argOf c 0 < p.grads.length → argsClear c 1 = true →
      Answers (.gradDone c) s fun t =>
        argOf c 0 ∈ t.train.doneGrads ∧ t.ctl.order = s.dev.ctl.order ∧ t.mem = s.dev.mem ∧ t.cells = s.dev.cells
          ∧ t.getF R.COL_GRAD_DUP_COUNT 0 =
            (if argOf c 0 ∈ s.dev.train.doneGrads then min (2 ^ R.COL_GRAD_DUP_COUNT.width - 1) (dup + 1) else dup))
    ∧ (c.opc = 6 → argsClear c 0 = true → Answers (.positionLoad c) s fun t =>
        t.ctl.gsbChecked = decide (s.dev.gsbCheck.1 = 0) ∧ t.mem.bytes = s.dev.gsbCheck.2.mem.bytes
          ∧ t.ctl.order = s.dev.ctl.order ∧ t.cells = s.dev.cells)

/-- R274, R341, R342, R351: a direct collective enters flight in its place among those of its group, and a complete bucket
of the plan in its turn; behind a shut gate they wait to contribute, otherwise they contribute at once, and one that waits
for nobody ends at once. -/
def Obligations.CollectivesEnterFlight : Prop :=
  ∀ (s : State) (c : JobCmd) (b : Nat) (p : GradPlan), s.dev.up = true → NothingHeld s →
    let g := argOf c 0 % 256
    let cidx := mget 0 s.dev.train.cidx g
    let x := (s.dev.group g).coll g s.dev.step cidx (cidx % 4) 64 (directKind c) (some c)
    let fresh (x : Coll) : Prop := s.dev.coll x.key = none ∧ ∀ q ∈ s.dev.fab.parked, packetKey q ≠ x.key
    let noBucket : Prop := ∀ y ∈ s.dev.fab.colls, y.isBucket = false
    let finishes : Prop := match x.kind with
      | .allGather _ _ len => x.n = 1 ∨ len = 0
      | .broadcast _ _ len root => x.rank = root ∨ len = 0
      | _ => x.n = 1
    let starts (i : Instr) (opc : Nat) : Prop := c.opc = opc →
      (s.dev.gateShut = true → Answers i s fun t =>
        t.coll x.key = some x ∧ ⟨c, .running⟩ ∈ t.ctl.order ∧ t.cells = s.dev.cells ∧ (noBucket → t.mem = s.dev.mem))
      ∧ (s.dev.gateShut = false → ¬finishes → Answers i s fun t =>
        t.coll x.key = some { x with sent := true, barSeen := if x.kind = .barrier ∧ x.rank = 0 then [0] else [] }
          ∧ ⟨c, .running⟩ ∈ t.ctl.order ∧ t.cells = s.dev.cells)
      ∧ (s.dev.gateShut = false → finishes → Answers i s fun t =>
        t.coll x.key = none ∧ (∀ e ∈ t.ctl.order, e.cmd ≠ c) ∧ t.cells = s.dev.cells)
    (Begins s c → (∀ y ∈ s.dev.train.places, y.1 ≠ c.num) → directArgsBad c = false → s.dev.groupOk g = true → fresh x →
      (∀ a d n r, directKind c = .broadcast a d n r → r < x.n) → s.dev.directWindows (s.dev.group g) (directKind c) = true →
      starts (.allGather c) 7 ∧ starts (.broadcast c) 8 ∧ starts (.barrier c) 9)
    ∧ (s.dev.train.plan = some p → s.dev.jobActive = true → b = s.dev.train.started → b < s.dev.bucketCount →
      s.dev.bucketIn s.dev.train.doneGrads b = true → s.dev.engineUp (b % 4) = true → s.dev.groupOk p.group = true →
      fresh (s.dev.bucketColl p b) →
      (Answers (.bucketExchangeStart b) s fun t => t.train.started = b + 1 ∧ t.cells = s.dev.cells)
        ∧ (s.dev.gateShut = true → Answers (.bucketExchangeStart b) s fun t =>
          t.coll (s.dev.bucketColl p b).key = some (s.dev.bucketColl p b) ∧ (noBucket → t.mem = s.dev.mem)))
    ∧ (b ≠ s.dev.train.started ∨ s.dev.jobActive = false → Answers (.bucketExchangeStart b) s fun t => t = s.dev)

/-- R520 to R526, R532: a fetched entry advances the ring's head, a job entry the numbering of job commands; an opcode
that the ring's KIND does not take completes with BAD_OPCODE; a failed fetch stops the ring; a port that does not own the
device fetches nothing. -/
def Obligations.SubmissionEntriesAreFetched : Prop :=
  ∀ (s : State) (port ring : Nat) (e : FetchedEntry) (bs : List Byte), s.dev.up = true → NothingHeld s →
    let r := s.dev.ring port ring
    let fetch (e : FetchedEntry) := Answers (.commandFetch port ring e) s
    let c := entryCmd (if r.kind = 1 then s.dev.getF R.PCI_JOB_NEXT 0 else 0) port ring r.head bs
    (s.own.owner ≠ port + 1 ∨ r.fetches = false → fetch e fun t => t = s.dev)
    ∧ (s.own.owner = port + 1 → r.fetches = true → fetch .failed fun t =>
        t.ring port ring = { r with enabled := false, fault := true } ∧ t.errBit PCI port 18 = true ∧ t.ctl = s.dev.ctl
          ∧ t.mem = s.dev.mem)
    ∧ (s.own.owner = port + 1 → r.fetches = true → kindAccepts r.kind c.opc = false → fetch (.entry bs) fun t =>
        t.ctl = s.dev.ctl ∧ t.ring port ring = { r with head := (r.head + 1) % 2 ^ 32, cqTail := r.cqTail + 1 }
          ∧ t.mem = s.dev.mem ∧ t.cells = s.dev.cells
          ∧ t.getF R.PCI_JOB_NEXT 0 =
            (if r.kind = 1 then (s.dev.getF R.PCI_JOB_NEXT 0 + 1) % 2 ^ 64 else s.dev.getF R.PCI_JOB_NEXT 0))
    ∧ (s.own.owner = port + 1 → r.fetches = true → r.kind = 1 → c.opc = 1 → leNat ((bs.drop 1).take 1) < 8 →
        leNat ((bs.drop 2).take 2) = 0 → argsClear c 0 = true → fetch (.entry bs) fun t =>
        t.ctl.order = s.dev.ctl.order ++ [⟨c, .held⟩] ∧ t.ring port ring = { r with head := (r.head + 1) % 2 ^ 32 }
          ∧ t.getF R.PCI_JOB_NEXT 0 = (s.dev.getF R.PCI_JOB_NEXT 0 + 1) % 2 ^ 64
          ∧ t.mem = s.dev.mem ∧ t.cells = s.dev.cells)

/-! ### Collective messages -/

/-- A packet of an opcode that comes next in sequence on an open flow of its sender and acknowledges nothing new (R335). -/
def InSequence (s : State) (p : Packet) : Prop :=
  let w := s.dev.flow p.dstFlow
  s.dev.up = true ∧ (w.state = 1 ∨ w.state = 2) ∧ w.peer = p.src ∧ p.dst = s.dev.devNum ∧ seqDiff p.seq w.rxSeq = 0
    ∧ seqDiff p.ack w.txAcked ≤ 0

/-- A packet of an opcode that comes next in sequence on an open flow of its sender (R335). -/
def InOrder (s : State) (p : Packet) : Prop :=
  let w := s.dev.flow p.dstFlow
  s.dev.up = true ∧ (w.state = 1 ∨ w.state = 2) ∧ w.peer = p.src ∧ p.dst = s.dev.devNum ∧ seqDiff p.seq w.rxSeq = 0

/-- The packet comes in order and meets a collective in flight, to which it belongs (R335, R346). -/
def Reaches (s : State) (p : Packet) (c : Coll) : Prop :=
  InOrder s p ∧ NothingHeld s ∧ s.dev.coll (packetKey p) = some c ∧ c.from? p = true ∧ s.dev.mismatched c p = false

/-- The packet has been performed: the next one of its flow is awaited (R335). -/
def Performed (s : State) (p : Packet) (t : Dev) : Prop :=
  (t.flow p.dstFlow).rxSeq = ((s.dev.flow p.dstFlow).rxSeq + 1) % 2 ^ 32

/-- The packet meets the one collective in flight, of a group without leaves, which holds no owner state and no header
words of a result yet. -/
def Meets (s : State) (p : Packet) (c : Coll) : Prop :=
  InSequence s p ∧ NothingHeld s ∧ s.dev.fab.colls = [c] ∧ packetKey p = c.key ∧ c.from? p = true
    ∧ s.dev.mismatched c p = false ∧ c.leaf = 1 ∧ 2 ≤ c.n ∧ c.rank < c.n ∧ packetRank p ≠ c.rank ∧ c.seg = []
    ∧ c.hdrRes = none

/-- R343, R345, R346, R350: a message of a bucket exchange in flight, DIRECT or TWO_LEVEL, is performed: while the exchange
goes on, the exponents and integers of the contributor are counted at their level, M of the segments is held, and their
results are written. A message without its results ends the exchange or shows poison. -/
def BucketMessagesArePerformed : Prop :=
  ∀ (s : State) (p : Packet) (c : Coll) (t1 tx : Nat), Reaches s p c →
    let r := packetRank p
    let level := if c.leafOf r = c.leafOf c.rank ∧ 1 < c.leaf then 1 else 2
    let who := if level = 1 then c.inLeaf r else c.leafOf r
    let ints := cutSegs (fun s => (c.segPlaces s).length * (c.width / 8)) (packetCount p) (packetSeg p) p.payload
    let res := cutSegs c.resultLen (packetCount p) (packetSeg p) p.payload
    let goesOn (i : Instr) (q : Coll → Prop) : Prop :=
      Answers i s fun t => Performed s p t ∧ ∀ c', t.coll c.key = some c' → q c'
    (p.opc = 0x20 → goesOn (.cExp p) fun c' => ∀ x ∈ packetExps p, who ∈ (c'.segAt level x.1).expSeen)
    ∧ (p.opc = 0x22 → goesOn (.cInt p) fun c' =>
        ∀ x ∈ ints, who ∈ (c'.segAt level x.1).intSeen ∨ (c'.segAt level x.1).done = true)
    ∧ (p.opc = 0x21 → p.status = 0 → goesOn (.cM p) fun c' => ∀ x ∈ packetExps p, (mfind x.1 c'.mSeg).isSome = true)
    ∧ (p.opc = 0x21 → p.status ≠ 0 → s.dev.replaying = false → Answers (.cM p) s fun t =>
        Performed s p t ∧ t.coll c.key = none ∧ t.ctl.noClose = true ∧ t.errBit COL c.engine 19 = true)
    ∧ (p.opc = 0x23 → bitOf p.flags 0 = false → goesOn (.cRes p t1 tx) fun c' => ∀ x ∈ res, x.1 ∈ c'.resSeg)
    ∧ (p.opc = 0x23 → bitOf p.flags 0 = true → Answers (.cRes p t1 tx) s fun t =>
        Performed s p t ∧ t.errBit COL c.engine 20 = true)

/-- R343, R346: in a DIRECT bucket exchange the owner takes the exponents and integers of a contributor, a member the M
of a segment and its results. -/
def DirectExchangeTakesItsMessages : Prop :=
  ∀ (s : State) (p : Packet) (c : Coll) (b t1 tx : Nat) (z : Bool), Meets s p c → c.kind = .bucket b z →
    let r := packetRank p
    let now (t : Dev) (q : Coll → Prop) : Prop := ∃ c', t.coll c.key = some c' ∧ q c'
    let ints := (cutSegs (fun s => (c.segPlaces s).length * (c.width / 8)) (packetCount p) (packetSeg p) p.payload).map
      (fun x => (x.1, bytesInts c.width 256 x.2))
    let res := cutSegs c.resultLen (packetCount p) (packetSeg p) p.payload
    (p.opc = 0x20 → Answers (.cExp p) s fun t => now t fun c' =>
      (∀ x ∈ packetExps p, (c'.segAt 2 x.1).expSeen = [r] ∧ (c'.segAt 2 x.1).expMax = some x.2.1)
        ∧ c'.mSeg = c.mSeg ∧ c'.resSeg = c.resSeg)
    ∧ (p.opc = 0x22 → Answers (.cInt p) s fun t => now t fun c' =>
        (∀ x ∈ ints, (c'.segAt 2 x.1).intSeen = [r] ∧ (c'.segAt 2 x.1).acc = x.2) ∧ c'.mSeg = c.mSeg)
    ∧ (p.opc = 0x21 → p.status = 0 → bitOf p.flags 3 = false → c.mode = 0 → (∃ q < c.segs, q ∉ c.resSeg) →
        (∀ x ∈ packetExps p, x.2.1 ≠ -32768 ∧ c.owner x.1 ≠ c.rank) → Answers (.cM p) s fun t => now t fun c' =>
          (∀ x ∈ packetExps p, mfind x.1 c.mSeg = none → mfind x.1 c'.mSeg = some x.2.1) ∧ c'.resSeg = c.resSeg)
    ∧ (p.opc = 0x23 → bitOf p.flags 0 = false → Answers (.cRes p t1 tx) s fun t => (now t fun c' =>
          (∀ x ∈ res, x.1 ∈ c'.resSeg) ∧ ∀ q ∈ c.resSeg, q ∈ c'.resSeg)
        ∧ t.mem = ((res.filter (fun x => !c.resSeg.contains x.1)).foldl (fun d x => d.writeResults c x.1 x.2) s.dev).mem)

/-- R343, R345, R346, R350: messages of bucket exchanges are performed. -/
def Obligations.BucketMessagesAreTaken : Prop := BucketMessagesArePerformed ∧ DirectExchangeTakesItsMessages

/-- R346, R347, R351: bytes of a gather go to their rank's place, those of a broadcast to its destination; rank 0 of a
barrier notes who has come, releases the others and ends it, and the release ends it elsewhere; a first message of a collective not yet issued waits, or is answered with NACK; a collective that has
waited too long is reported, and ended when a limit is set. -/
def Obligations.GathersBarriersAndWaits : Prop :=
  ∀ (s : State) (p : Packet) (c : Coll) (src dst len root engine : Nat) (j : JobCmd),
    let r := packetRank p
    let n := mget 0 c.got r
    let parks (i : Instr) (opc : Nat) : Prop := InSequence s p → NothingHeld s → p.opc = opc → s.dev.parks p = true →
      (s.dev.canPark p = true → Answers i s fun t =>
        Performed s p t ∧ p ∈ t.fab.parked ∧ t.fab.colls = s.dev.fab.colls ∧ t.mem = s.dev.mem)
      ∧ (s.dev.canPark p = false → Answers i s fun t =>
        t.fab.parked = s.dev.fab.parked ∧ t.mem = s.dev.mem ∧ (t.flow p.dstFlow).rxSeq = (s.dev.flow p.dstFlow).rxSeq)
    (Reaches s p c → p.opc = 0x24 → Answers (.cData p) s fun t =>
      Performed s p t ∧ (bitOf p.flags 0 = true → t.errBit COL c.engine 20 = true)
        ∧ ∀ c', t.coll c.key = some c' → mget 0 c'.got r = n + min p.payload.length (c.expects r - n))
    ∧ (Reaches s p c → p.opc = 0x25 → c.kind = .barrier → c.rank = 0 → Answers (.cBar p) s fun t =>
        Performed s p t ∧ (∀ c', t.coll c.key = some c' → r ∈ c'.barSeen)
          ∧ (r ∉ c.barSeen → c.barSeen.length + 1 = c.n → t.coll c.key = none ∧ ∀ e ∈ t.ctl.order, c.cmd ≠ some e.cmd))
    ∧ (Reaches s p c → p.opc = 0x26 → c.kind = .barrier → c.rank ≠ 0 → r = 0 → Answers (.cBarRel p) s fun t =>
        Performed s p t ∧ t.coll c.key = none ∧ ∀ e ∈ t.ctl.order, c.cmd ≠ some e.cmd)
    ∧
    (Meets s p c → p.opc = 0x24 → c.kind = .broadcast src dst len root → r = root → Answers (.cData p) s fun t =>
      t.mem = (s.dev.write (dst + n) (p.payload.take (len - n))).mem ∧ t.cells = s.dev.cells)
    ∧ (Meets s p c → p.opc = 0x24 → c.kind = .allGather src dst len → Answers (.cData p) s fun t =>
      t.mem = (s.dev.write (dst + r * len + n) (p.payload.take (len - n))).mem ∧ t.cells = s.dev.cells
        ∧ (bitOf p.flags 0 = true → t.errBit COL c.engine 20 = true))
    ∧ (Meets s p c → p.opc = 0x25 → c.kind = .barrier → c.rank = 0 → r ∉ c.barSeen → c.barSeen.length + 1 < c.n →
        Answers (.cBar p) s fun t => t.coll c.key = some { c with barSeen := insertSet r c.barSeen } ∧ t.mem = s.dev.mem)
    ∧ (Meets s p c → p.opc = 0x26 → c.kind = .barrier → c.rank ≠ 0 → r = 0 → c.cmd = some j →
        Answers (.cBarRel p) s fun t => t.fab.colls = [] ∧ (∀ e ∈ t.ctl.order, e.cmd ≠ j)
          ∧ (∃ x ∈ t.fab.past, x.key = c.key ∧ x.done = true) ∧ t.mem = s.dev.mem)
    ∧ parks (.cExp p) 0x20 ∧ parks (.cData p) 0x24 ∧ parks (.cBar p) 0x25
    ∧ (s.dev.up = true → engine < 4 → s.dev.oldestColl engine = some c → s.dev.coll c.key = some c →
        (Answers (.collectiveWaitLong engine) s fun t =>
          t.getF R.COL_MISSING_VALID engine = 1 ∧ t.errBit COL engine 17 = true ∧ t.fab = s.dev.fab ∧ t.mem = s.dev.mem
            ∧ t.getF R.COL_WAIT_ID_CIDX engine = c.cidx % 2 ^ R.COL_WAIT_ID_CIDX.width)
        ∧ (s.dev.actF R.COL_WAIT_LIMIT engine = 0 → Answers (.collectiveWaitLimit engine) s fun t => t = s.dev)
        ∧ (s.dev.actF R.COL_WAIT_LIMIT engine ≠ 0 → Answers (.collectiveWaitLimit engine) s fun t =>
          t.coll c.key = none ∧ t.ctl.noClose = true ∧ t.errBit COL c.engine 18 = true
            ∧ ((∀ y ∈ s.dev.fab.colls, y.isBucket = true → y.key = c.key) → t.mem = s.dev.mem) ∧ ∀ q, c.cmd = some q → ∀ e ∈ t.ctl.order, e.cmd ≠ q))

/-! ### Flows -/

/-- A packet that the device sends on a flow, and that waits for its acknowledgement. -/
def Sends (t : Dev) (f opc : Nat) (q : Packet → Prop) : Prop := ∃ x ∈ (t.flow f).unacked, x.opc = opc ∧ q x

/-- R291 to R294, R308, R326, R336, R338 to R340: a put, a staked add and an atomic in sequence write local memory, a get
reads it, and answers go back on the flow, with POISON where a word was poisoned; a packet outside the window writes nothing and is answered with WINDOW, a malformed
one with BAD_OP, an atomic on poison with POISON. -/
def RemoteOperationsAct : Prop :=
  ∀ (s : State) (p : Packet), InSequence s p → (s.dev.flow p.dstFlow).waiting = [] → 0 < (s.dev.flow p.dstFlow).credits →
    let f := p.dstFlow
    let w := s.dev.flow f
    let taken (t : Dev) : Prop := (t.flow f).rxSeq = (w.rxSeq + 1) % 2 ^ 32 ∧ t.cells = s.dev.cells
    let answered (t : Dev) (code : Nat) : Prop := taken t ∧ t.mem.bytes = s.dev.mem.bytes
      ∧ Sends t f 8 fun x => x.status = code ∧ x.tag = p.tag
    let k := saddWidth p.attr / 8
    let old := s.dev.nat p.addr 8
    let new := atomicValue (p.attr % 16) (BitVec.ofNat 64 old) (BitVec.ofNat 64 p.op1) (BitVec.ofNat 64 p.op2)
    (p.opc = 1 → lenOk p = true → p.payload.length = p.len →
      (w.allows p.addr p.len 1 = true → Answers (.put p) s fun t =>
        taken t ∧ t.mem = (s.dev.write p.addr p.payload).mem
          ∧ ((∃ x ∈ partWords p.addr p.len, (s.dev.poisonIn x.1 x.2).isSome = true) →
            Sends t f 8 fun x => x.status = 2 ∧ x.tag = p.tag))
      ∧ (w.allows p.addr p.len 1 = false → Answers (.put p) s fun t => answered t 1 ∧ t.errBit FLW 0 18 = true))
    ∧ (p.opc = 1 → lenOk p = false ∨ p.payload.length ≠ p.len → Answers (.put p) s fun t => answered t 5)
    ∧ (p.opc = 2 → lenOk p = true → w.allows p.addr p.len 0 = true → Answers (.get p) s fun t =>
        taken t ∧ t.mem.bytes = s.dev.mem.bytes ∧ Sends t f 3 fun x =>
          x.tag = p.tag ∧ x.payload = s.dev.bytes p.addr p.len ∧ x.flags = b2n (s.dev.poisonIn p.addr p.len).isSome)
    ∧ (p.opc = 2 → lenOk p = false → Answers (.get p) s fun t => answered t 5)
    ∧ (p.opc = 2 → lenOk p = true → w.allows p.addr p.len 0 = false → Answers (.get p) s fun t =>
        answered t 1 ∧ t.errBit FLW 0 18 = true)
    ∧ (p.opc = 4 → p.addr % 8 = 0 → p.attr % 16 < 8 → w.allows p.addr 8 2 = true →
        (s.dev.poisonIn p.addr 8 = none → Answers (.atomic p) s fun t =>
          taken t ∧ t.mem.bytes = (s.dev.write p.addr (leBytes 8 new.toNat)).mem.bytes
            ∧ Sends t f 5 fun x => x.tag = p.tag ∧ x.payload = leBytes 8 old)
        ∧ (∀ a, s.dev.poisonIn p.addr 8 = some a → s.dev.lineValid p.addr = true →
          Answers (.atomic p) s fun t => answered t 2))
    ∧ (p.opc = 4 → p.addr % 8 ≠ 0 ∨ 8 ≤ p.attr % 16 → Answers (.atomic p) s fun t => answered t 5)
    ∧ (p.opc = 6 → k ≠ 0 → p.len ≠ 0 → p.len % k = 0 → p.addr % k = 0 → p.payload.length = p.len →
        w.allows p.addr p.len 3 = true → Answers (.sadd p) s fun t =>
          taken t ∧ t.mem = (((chunks k p.len p.payload).zipIdx).foldl (fun d q =>
            d.stakedAdd (8 * k) (p.addr + k * q.2) (leNat q.1)) s.dev).mem
          ∧ ((s.dev.poisonIn p.addr p.len).isSome = true → Sends t f 8 fun x => x.status = 2 ∧ x.tag = p.tag))
    ∧ ((knownOpc p.opc = false ∨ (p.opc = 0x30 ∧ knownSub (p.attr % 256) = false)) →
        Answers (.packetBadOpcode p) s fun t => answered t 5)

/-- R335: a packet that comes again is answered with ACK and one that comes early with NACK; neither is performed. -/
def PacketsOutOfSequenceDoNothing : Prop :=
  ∀ (s : State) (p : Packet), s.dev.up = true → p.opc = 1 →
    let w := s.dev.flow p.dstFlow
    w.state = 1 → w.peer = p.src → p.dst = s.dev.devNum → seqDiff p.ack w.txAcked ≤ 0 → seqDiff p.seq w.rxSeq ≠ 0 →
      Answers (.put p) s fun t =>
        t.mem = s.dev.mem ∧ t.cells = s.dev.cells ∧ (t.flow p.dstFlow).rxSeq = w.rxSeq
          ∧ (t.flow p.dstFlow).ops = w.ops ∧ (t.flow p.dstFlow).unacked = w.unacked

/-- R291 to R294, R326, R335 to R340: remote operations in sequence act, others do not. -/
def Obligations.RemoteOperationsRun : Prop := RemoteOperationsAct ∧ PacketsOutOfSequenceDoNothing

/-- R335 to R338, R510: answers end the operation that they name, and a get's data reaches the cell store;
acknowledgements move the flow on, and what is unacknowledged goes again; RESYNC starts the flow again, RESYNC_ACK opens
it; a standalone ACK pays what is owed; a flow without progress is STALLED. -/
def FlowsAcknowledgeAndRecover : Prop :=
  ∀ (s : State) (p : Packet) (o : FlowOp),
    let f := p.dstFlow
    let w := s.dev.flow f
    let open' : Prop := s.dev.up = true ∧ w.peer = p.src ∧ p.dst = s.dev.devNum ∧ w.state ≠ 0
    let ends (t : Dev) : Prop := ∀ x ∈ (t.flow f).ops, x.tag ≠ o.tag
    let noBucket : Prop := ∀ y ∈ s.dev.fab.colls, y.isBucket = false
    (InSequence s p → p.opc = 3 → s.dev.opByTag f p.tag 2 = some o → bitOf p.flags 0 = true →
      Answers (.getResp p) s fun t => ends t ∧ (o.tag, 2) ∈ t.fab.opCodes)
    ∧ (InSequence s p → p.opc = 3 → s.dev.opByTag f p.tag 2 = some o → bitOf p.flags 0 = false → o.cell < 1152 →
      Answers (.getResp p) s fun t => ends t ∧ (noBucket → t.mem = s.dev.mem)
        ∧ (t.cell o.cell).store = setBytes (s.dev.cell o.cell).store o.store (p.payload.take o.len))
    ∧ (InSequence s p → p.opc = 5 → s.dev.opByTag f p.tag 4 = some o → Answers (.atomicResp p) s fun t =>
        ends t ∧ t.mem = s.dev.mem)
    ∧ (InSequence s p → p.opc = 8 → w.ops.find? (fun x => decide (x.tag = p.tag)) = some o → Answers (.opStatus p) s fun t =>
        ends t ∧ (o.tag, p.status) ∈ t.fab.opCodes ∧ (noBucket → t.mem = s.dev.mem))
    ∧ (open' → p.opc = 0x10 → 0 < seqDiff p.ack w.txAcked → 0 ≤ seqDiff w.txSeq p.ack → Answers (.ack p) s fun t =>
        (t.flow f).txAcked = p.ack % 2 ^ 32 ∧ (t.flow f).retries = 0 ∧ (t.flow f).rxSeq = w.rxSeq
          ∧ (t.flow f).state = (if w.state = 2 then 1 else w.state) ∧ t.mem = s.dev.mem)
    ∧ (open' → p.opc = 0x11 → seqDiff p.ack w.txAcked ≤ 0 → Answers (.nack p) s fun t =>
        (t.flow f).retries = min 255 (w.retries + 1) ∧ (t.flow f).unacked = w.unacked ∧ t.mem = s.dev.mem)
    ∧ (open' → p.opc = 0x12 → Answers (.resync p) s fun t =>
        (t.flow f).state = 1 ∧ (t.flow f).rxSeq = 0 ∧ (t.flow f).ops = [] ∧ t.errBit FLW 0 17 = true)
    ∧ (open' → p.opc = 0x13 → w.state = 3 → Answers (.resyncAck p) s fun t =>
        (t.flow f).state = 1 ∧ t.mem = s.dev.mem ∧ t.cells = s.dev.cells)
    ∧ (s.dev.up = true → w.owed = true → Answers (.standaloneAckTimer f) s fun t =>
        (t.flow f).owed = false ∧ (t.flow f).txSeq = w.txSeq ∧ t.mem = s.dev.mem ∧ t.cells = s.dev.cells)
    ∧ (s.dev.up = true → w.owed = false → Answers (.standaloneAckTimer f) s fun t => t = s.dev)
    ∧ (s.dev.up = true → w.pendingAck = true → Answers (.e2eRetransmitTimeout f) s fun t =>
        (t.flow f).retries = min 255 (w.retries + 1) ∧ (t.flow f).unacked = w.unacked ∧ t.mem = s.dev.mem
          ∧ t.cells = s.dev.cells)
    ∧ (s.dev.up = true → w.pendingAck = true → w.state = 1 → Answers (.flowStalled f) s fun t =>
        t.flow f = { w with state := 2 } ∧ t.errBit FLW 0 16 = true ∧ t.mem = s.dev.mem ∧ t.cells = s.dev.cells)

/-- R293, R329, R333, R334, R360: READ stages a context; WRITE installs the staged one with fresh sequences, where
operations that still wait end (log entry 42), or refuses it with its code and CTX_BAD; CLOSE ends its operations; a route table image with no bad entry in job memory is loaded; the
shadow table is placed in job memory alone. -/
def FlowContextsAndRoutes : Prop :=
  ∀ (s : State) (w : Writer) (v : Nat), Writes s w →
    let f := s.dev.getF R.FLW_INDEX_INDEX 0
    let bs := s.dev.stagedContext
    let code := s.dev.contextCode f bs
    let lo := s.dev.setF R.FLW_SHADOW_LO_ADDR_LO 0 (v / 2 ^ 16)
    let hi := s.dev.setF R.FLW_SHADOW_HI_ADDR_HI 0 v
    (Answers (.flwCmdRead w) s fun t =>
      (∀ k, k < 16 → t.getF (R.FLW_DATA k) 0 = leNat (((s.dev.flow f).bytes.drop (4 * k)).take 4) % 2 ^ 32)
        ∧ t.getF R.FLW_CMD_STAT_CODE 0 = 2 ∧ t.fab = s.dev.fab ∧ t.mem = s.dev.mem)
    ∧ (code = 2 → Answers (.flwCmdWrite w) s fun t =>
        (t.flow f).peer = (flowFrom bs 1).peer ∧ (t.flow f).tc = (flowFrom bs 1).tc ∧ (t.flow f).kind = (flowFrom bs 1).kind
          ∧ (t.flow f).winBase = (flowFrom bs 1).winBase ∧ (t.flow f).winLimit = (flowFrom bs 1).winLimit
          ∧ (t.flow f).rights = (flowFrom bs 1).rights ∧ (t.flow f).rxSeq = 0 ∧ (t.flow f).state = (flowFrom bs 1).state
          ∧ t.getF R.FLW_CMD_STAT_CODE 0 = 2 ∧ (t.flow f).ops = []
          ∧ ((s.dev.flow f).ops = [] → t.cells = s.dev.cells))
    ∧ (code ≠ 2 → Answers (.flwCmdWrite w) s fun t =>
        t.getF R.FLW_CMD_STAT_CODE 0 = code ∧ t.errBit FLW 0 19 = true ∧ t.fab = s.dev.fab ∧ t.mem = s.dev.mem)
    ∧ (Answers (.flwCmdClose w) s fun t =>
        (t.flow f).state = 0 ∧ (t.flow f).ops = [] ∧ (t.flow f).unacked = []
          ∧ ((∀ y ∈ s.dev.fab.colls, y.isBucket = false) → (t.flow f).waiting = []) ∧ t.getF R.FLW_CMD_STAT_CODE 0 = 2)
    ∧ (s.dev.inJob s.dev.routeBase 524288 = true → s.dev.routeImage.any (fun e => badRoute e.2) = false →
        Answers (.routeTableLoad w) s fun t => t.fab.routes = s.dev.routeImage ∧ t.getF R.FLW_RT_STATUS_CODE 0 = 2
          ∧ t.mem = s.dev.mem ∧ t.cells = s.dev.cells)
    ∧ (s.dev.inJob s.dev.routeBase 524288 = false → Answers (.routeTableLoad w) s fun t =>
        t.fab = s.dev.fab ∧ t.getF R.FLW_RT_STATUS_CODE 0 = 3 ∧ t.errBit FLW 0 20 = true ∧ t.mem = s.dev.mem)
    ∧ (s.dev.rlOpen false FLW 0 = true →
        (lo.inJob lo.shadowBase (2 ^ 24) = true → Answers (.flwShadowWrite w false v) s fun t => t = lo)
        ∧ (hi.inJob hi.shadowBase (2 ^ 24) = true → Answers (.flwShadowWrite w true v) s fun t => t = hi)
        ∧ (hi.inJob hi.shadowBase (2 ^ 24) = false → Answers (.flwShadowWrite w true v) s fun t =>
            t.getF R.FLW_SHADOW_HI_ADDR_HI 0 = s.dev.getF R.FLW_SHADOW_HI_ADDR_HI 0 ∧ t.errBit FLW 0 19 = true))

/-- R329, R333 to R337, R348, R360: flows acknowledge and recover, and their contexts and routes are installed and checked. -/
def Obligations.FlowsRunAndRecover : Prop := FlowsAcknowledgeAndRecover ∧ FlowContextsAndRoutes

/-! ### Ports and links -/

/-- R318 to R320, R323, R353, R354, R357, R460, R510: a DOWN port of a block in service trains on a signal, tells who it is
and, unless its neighbour's fingerprint does not match, which buffers it grants; training that completes on enough lanes
makes it ACTIVE under the buffers that its neighbour granted. RETRAIN and a first lane failure with SPARE_EN start
retraining, another lane failure loses the port; retraining ends on 8 lanes, on 7 with SPARE_EN, or LOST. -/
def Obligations.PortsTrainAndRetrain : Prop :=
  ∀ (s : State) (w : Writer) (port lane lanes : Nat) (n : Neighbour) (ls : List (Nat × Nat)), s.dev.up = true → port < 32 →
    let st := s.dev.lstate port
    let spare := s.dev.getF R.LNK_CTRL_SPARE_EN port
    let failed := s.dev.getF R.LNK_STATUS_FAILED_LANES port
    let inService : Prop := s.dev.blk LNK port = stReady ∨ s.dev.blk LNK port = stRunning
    let rest (t : Dev) : Prop := t.mem = s.dev.mem ∧ t.cells = s.dev.cells ∧ t.fab.flows = s.dev.fab.flows
    let mismatch : Prop := n.isSwitch = false ∧ ∃ v, n.device = some v ∧ (s.dev.compareTrust 0 port v n.fingerprint).1 = false
    let enough (k : Nat) : Prop := k = 8 ∨ (k = 7 ∧ spare = 1)
    let active (k : Nat) (t : Dev) : Prop := t.live port = true ∧ (t.port port).txSeq = 0 ∧ (t.port port).rxSeq = 0
      ∧ (t.port port).replay = [] ∧ t.getF R.LNK_STATUS_LANES port = k ∧ t.getF R.LNK_STATUS_SPARED port = b2n (decide (k = 7))
    let lost (t : Dev) : Prop := t.lstate port = 4 ∧ t.errBit LNK port 17 = true ∧ t.getF R.LNK_STATUS_LANES port = 0
      ∧ t.getF R.LNK_STATUS_SPARED port = 0
    (st = 0 → inService → Answers (.portSignalDetect port n) s fun t =>
      t.lstate port = 1 ∧ t.getF R.LNK_NEIGHBOUR_VALID port = 1 ∧ (t.port port).neighbour = some n
        ∧ Out.identity port (if s.dev.getF R.GLB_DEV_NUM_VALID 0 = 1 then some s.dev.devNum else none)
            (if n.isSwitch then [] else s.dev.ownPrint) Config.linkRevision ∈ t.out
        ∧ (¬ mismatch → (t.port port).train = .credits
          ∧ Out.grants port ((List.range 8).map (fun v => s.dev.vlBuf port v)) ∈ t.out)
        ∧ (mismatch → (t.port port).train = .identity ∧ t.errBit LNK port 23 = true ∧ t.errBit SEC 0 16 = true) ∧ rest t)
    ∧ (st ≠ 0 ∨ ¬ inService → Answers (.portSignalDetect port n) s fun t => t = s.dev)
    ∧ (st = 1 → (s.dev.port port).train = .credits → (s.dev.port port).neighbour = some n →
        (enough n.lanes → Answers (.portTrainingComplete port) s fun t =>
          active n.lanes t ∧ (∀ v, v < 8 → mget 0 (t.port port).grants v = n.grants.getD v 0) ∧ rest t)
        ∧ (¬ enough n.lanes → Answers (.portTrainingComplete port) s fun t => lost t ∧ rest t))
    ∧ (s.own.mayWrite w = true → inService → st ≠ 1 → st ≠ 3 → Answers (.retrain w port) s fun t =>
        t.lstate port = 3 ∧ t.errBit LNK port 18 = true ∧ (t.port port).replay = [] ∧ rest t)
    ∧ (s.own.mayWrite w = true → st = 1 ∨ st = 3 ∨ ¬ inService → Answers (.retrain w port) s fun t => t = s.dev)
    ∧ (lane < 8 → st = 2 → failed = 0 → Answers (.laneFailure port lane) s fun t =>
        t.lstate port = (if spare = 1 then 3 else 4) ∧ bitOf (t.getF R.LNK_STATUS_FAILED_LANES port) lane = true
          ∧ t.errBit LNK port 16 = true ∧ t.errBit LNK port (if spare = 1 then 18 else 17) = true ∧ rest t)
    ∧ (lane < 8 → st = 2 ∨ st = 3 → failed ≠ 0 → bitOf failed lane = false → Answers (.laneFailure port lane) s fun t =>
        lost t ∧ rest t)
    ∧ (lane < 8 → st = 3 → failed = 0 → spare = 1 → Answers (.laneFailure port lane) s fun t =>
        t.lstate port = 3 ∧ bitOf (t.getF R.LNK_STATUS_FAILED_LANES port) lane = true ∧ t.errBit LNK port 16 = true ∧ rest t)
    ∧ (((ls.map (·.1)).Nodup → (∀ l ∈ ls, l.1 < 32 ∧ l.2 < 8 ∧ s.dev.lstate l.1 = 2 ∧
        bitOf (s.dev.getF R.LNK_STATUS_FAILED_LANES l.1) l.2 = false) → Answers (.serdesPllLoss ls) s fun t =>
        (∀ l ∈ ls, (t.lstate l.1 = 3 ∨ t.lstate l.1 = 4)) ∧ rest t))
    ∧ (st = 3 → enough lanes → Answers (.retrainComplete port lanes) s fun t =>
        active lanes t ∧ (lanes = 8 → t.getF R.LNK_STATUS_FAILED_LANES port = 0) ∧ rest t)
    ∧ (st = 3 → ¬ enough lanes → Answers (.retrainComplete port lanes) s fun t => lost t ∧ rest t)

/-- R316, R321 to R324, R328, R331, R358: a live port sends one flit of the VL that the arbiter picks, with the bytes of its
packet and a tail whose CRC is good, or an idle one; it takes the flit that comes next in sequence, forwards a transit
packet from its head flit on, and asks for a replay of a flit that is damaged or out of sequence; without progress it
replays, and retrains after too many replays; a transit packet that has waited too long is dropped; the receive buffers
of the eight VLs together stay within 1,024 flits. -/
def Obligations.LinksCarryFlits : Prop :=
  ∀ (s : State) (w : Writer) (port v n o : Nat) (f : Flit) (fec : FecWords) (e : QPkt) (rest : List QPkt) (hi : Bool),
    s.dev.up = true → port < 32 →
    let q := s.dev.port port
    let kept (t : Dev) : Prop := t.mem = s.dev.mem ∧ t.cells = s.dev.cells ∧ t.fab.flows = s.dev.fab.flows
    let tail := tailOf f.tail
    let p := packetWith (packetOfHeader f.bytes) (f.bytes.drop 64)
    let damaged : Prop := (fec.joins = true ∧ q.badWord = true)
      ∨ (∃ x ∈ fec.words, rsDecode (laneSymbols x) = .uncorrectable) ∨ crcGood f = false
    let accepted : Prop := s.dev.live port = true ∧ ¬ damaged ∧ tail.nack = false ∧ tail.seq = q.rxSeq ∧ tail.kind ≠ .idle
    let receives := Answers (.flitReceive port ⟨f, fec⟩) s
    let sends (t : Dev) (x : Flit) : Prop := t.out = s.dev.out ++ [.flit port x] ∧ crcGood x = true
      ∧ (tailOf x.tail).ack = q.rxSeq % 4096 ∧ (tailOf x.tail).nack = q.nackNext
    (s.dev.live port = true → s.dev.arbitrate port = some v → q.replay.length < 1024 → Answers (.flitTransmit port) s fun t =>
      (t.port port).txSeq = (q.txSeq + 1) % 4096 ∧ (t.port port).replay.length = q.replay.length + 1
        ∧ (∃ x e es, mget [] q.queue v = e :: es ∧ sends t x ∧ x.bytes = flitBytes e.pkt e.sent ∧ (tailOf x.tail).vl = v
          ∧ (tailOf x.tail).seq = q.txSeq % 4096 ∧ (tailOf x.tail).kind = (if e.sent = 0 then .head else .data)
          ∧ (tailOf x.tail).last = decide (e.sent + 1 = wireFlits e.pkt)) ∧ kept t)
    ∧ (s.dev.live port = true → s.dev.arbitrate port = none ∨ 1024 ≤ q.replay.length → Answers (.flitTransmit port) s fun t =>
        (t.port port).txSeq = q.txSeq ∧ (t.port port).replay = q.replay
          ∧ (∃ x, sends t x ∧ (tailOf x.tail).kind = .idle) ∧ kept t)
    ∧ (accepted → receives fun t => (t.port port).rxSeq = (q.rxSeq + 1) % 4096 ∧ kept t)
    ∧ (accepted → tail.kind = .head → tail.last = true → p.dst = s.dev.devNum → receives fun t => p ∈ t.fab.arrived)
    ∧ (accepted → tail.kind = .head → tail.last = false → p.dst ≠ s.dev.devNum → p.hops ≠ 0 →
        s.dev.getF R.LNK_TRANSIT_TRANSIT_EN port = 1 → s.dev.pickPort p = some o → receives fun t =>
          mget [] (t.port o).queue tail.vl
            = mget [] (s.dev.port o).queue tail.vl ++ [⟨{ p with hops := p.hops - 1 }, 0, 1, some (port, tail.vl)⟩])
    ∧ (s.dev.live port = true → ¬ damaged → tail.nack = false → tail.kind ≠ .idle → tail.seq ≠ q.rxSeq → receives fun t =>
        (t.port port).rxSeq = q.rxSeq ∧ (t.port port).nackNext = true ∧ kept t)
    ∧ (s.dev.live port = true → damaged → receives fun t =>
        (t.port port).rxSeq = q.rxSeq ∧ (t.port port).nackNext = true ∧ (t.port port).replay = q.replay ∧ kept t)
    ∧ (s.dev.live port = true → q.replay ≠ [] → q.replays < max 1 (s.dev.actF R.LNK_TIMERS_REPLAY_LIM port) →
        Answers (.linkReplayTimeout port) s fun t => (t.port port).replays = q.replays + 1 ∧ (t.port port).replay = q.replay
          ∧ t.out.length = s.dev.out.length + q.replay.length ∧ kept t)
    ∧ (s.dev.live port = true → q.replay ≠ [] → max 1 (s.dev.actF R.LNK_TIMERS_REPLAY_LIM port) ≤ q.replays →
        Answers (.linkReplayTimeout port) s fun t => t.lstate port = 3 ∧ t.errBit LNK port 20 = true ∧ kept t)
    ∧ (mget [] q.queue v = e :: rest → e.sent = 0 → e.pkt.src ≠ s.dev.devNum → Answers (.transitTimeout port v) s fun t =>
        mget [] (t.port port).queue v = rest ∧ t.errBit LNK port 21 = true ∧ kept t
          ∧ ∀ j u, e.inp = some (j, u) → mget 0 (t.port j).freed u = (mget 0 (s.dev.port j).freed u + e.here) % 2048)
    ∧ (s.own.mayWrite w = true → s.dev.rlOpen false LNK port = true →
        let byte (k : Nat) : Nat := bitsOf n (8 * k) 8
        let others := if hi then (List.range 4).map (fun k => s.dev.vlBuf port k) else (List.range 4).map (fun k => s.dev.vlBuf port (k + 4))
        let sizes := others ++ (List.range 4).map (fun k => 16 * byte k)
        (sizes.sum ≤ 1024 → 0 ∉ sizes → Answers (.lnkVlBufWrite w port hi n) s fun t =>
          (∀ k, k < 4 → t.vlBuf port (if hi then k + 4 else k) = 16 * byte k) ∧ kept t)
        ∧ (1024 < sizes.sum → Answers (.lnkVlBufWrite w port hi n) s fun t =>
          (∀ k, t.vlBuf port k = s.dev.vlBuf port k) ∧ t.errBit LNK port 24 = true ∧ kept t))

/-! ### Stacked memory -/

/-- R285, R296 to R298: bytes written to stacked memory read back, every other byte stays, the lines become valid, a word
wholly written loses its poison, and memory keeps its canonical form; where no memory exists the command faults. -/
def MemoryWritesReadBack : Prop :=
  ∀ (s : State) (a : Nat) (data : List Byte), s.dev.up = true →
    (memTop < a + data.length → exec (.memoryWrite a data) s = .fault (.noMemory a))
    ∧ (a + data.length ≤ memTop → s.dev.poisonIn a data.length = none → s.dev.mem.wf →
        Answers (.memoryWrite a data) s fun t =>
          t.mem.wf ∧ t.bytes a data.length = data
            ∧ (∀ b, b < a ∨ a + data.length ≤ b → byteAt t.mem.bytes b = byteAt s.dev.mem.bytes b)
            ∧ (∀ b, a ≤ b → b < a + data.length → b / 64 ∈ t.mem.valid) ∧ t.mem.poison = s.dev.mem.poison
            ∧ t.cells = s.dev.cells ∧ t.fab = s.dev.fab)
    ∧ (data.length = 8 → a % 8 = 0 → a + 8 ≤ memTop → s.dev.mem.poison.Nodup → Answers (.memoryWrite a data) s fun t =>
        a / 8 ∉ t.mem.poison ∧ t.bytes a 8 = data)
    ∧ (data.length < 8 → data ≠ [] → a % 8 + data.length ≤ 8 → a + data.length ≤ memTop → a / 8 ∈ s.dev.mem.poison →
        Answers (.memoryWrite a data) s fun t =>
          t.mem.bytes = s.dev.mem.bytes ∧ a / 8 ∈ t.mem.poison ∧ t.errBit MEM (s.dev.stackOf a) 21 = true
            ∧ (s.dev.flippedIn a data.length = [] → t.mem.poison = s.dev.mem.poison))

/-- R295, R296, R301: a read delivers the bytes, with the poison flag when a word of the range is poisoned, a word with a
double-bit error among them, and changes no byte; a word with a single-bit error is delivered without the flag, counted
and written back. -/
def MemoryReadsDeliver : Prop :=
  ∀ (s : State) (a n w : Nat) (e : DramErrors), s.dev.up = true →
    (memTop < a + n → exec (.memoryRead a n e) s = .fault (.noMemory a))
    ∧ (a + n ≤ memTop → s.dev.poisonedIn a n = [] → s.dev.flippedIn a n = [] →
        Answers (.memoryRead a n ⟨[], []⟩) s fun t =>
          t.out = s.dev.out ++ [.bytes (s.dev.bytes a n) false] ∧ t.mem = s.dev.mem ∧ t.cells = s.dev.cells)
    ∧ (a + n ≤ memTop → ∀ p ∈ s.dev.poisonedIn a n, Answers (.memoryRead a n ⟨[], []⟩) s fun t =>
        Out.bytes (s.dev.bytes a n) true ∈ t.out ∧ t.errBit MEM (s.dev.stackOf (p * 8)) 16 = true
          ∧ t.mem.bytes = s.dev.mem.bytes ∧ t.cells = s.dev.cells)
    ∧ (a + n ≤ memTop → a ≤ w → w < a + n → w / 64 ∈ s.dev.mem.valid → Answers (.memoryRead a n ⟨[], [w]⟩) s fun t =>
        Out.bytes (s.dev.bytes a n) true ∈ t.out ∧ w / 8 ∈ t.mem.poison ∧ t.mem.bytes = s.dev.mem.bytes
          ∧ t.errBit MEM (s.dev.stackOf w) 16 = true)
    ∧ (a + n ≤ memTop → a ≤ w → w < a + n → w / 64 ∈ s.dev.mem.valid → s.dev.poisonedIn a n = [] →
        s.dev.flippedIn a n = [] → Answers (.memoryRead a n ⟨[w], []⟩) s fun t =>
          Out.bytes (s.dev.bytes a n) false ∈ t.out ∧ t.errBit MEM (s.dev.stackOf w) 3 = true
            ∧ mget 0 t.mem.flips (w / 8) = 0 ∧ t.mem.bytes = s.dev.mem.bytes ∧ t.mem.poison = s.dev.mem.poison)

/-- R297, R308: a staked add of an aligned word adds modulo its width, 128 bits with the sticky value −2^127; one that
meets a poisoned word drops its addend. Every other byte stays. -/
def StakedAddsAccumulate : Prop :=
  ∀ (s : State) (a : Nat) (q : BitVec 128) (q64 : BitVec 64) (q32 : BitVec 32), s.dev.up = true →
    let adds (c : Instr) (n new : Nat) : Prop :=
      (memTop < a + n → exec c s = .fault (.noMemory a))
      ∧ (a + n ≤ memTop → a % n = 0 → s.dev.poisonIn a n = none → s.dev.mem.wf → mwf s.dev.mem.flips = true → Answers c s fun t =>
          t.nat a n = new ∧ t.mem.wf ∧ t.cells = s.dev.cells
            ∧ ∀ b, b < a ∨ a + n ≤ b → byteAt t.mem.bytes b = byteAt s.dev.mem.bytes b)
      ∧ (a + n ≤ memTop → a % n = 0 → s.dev.poisonedIn a n ≠ [] → Answers c s fun t =>
          t.mem.bytes = s.dev.mem.bytes ∧ t.mem.valid = s.dev.mem.valid ∧ t.errBit MEM (s.dev.stackOf a) 21 = true
            ∧ t.cells = s.dev.cells)
      ∧ (a + n ≤ memTop → a % n ≠ 0 → Answers c s fun t => t = s.dev)
    adds (.sadd128 a q) 16 (if s.dev.nat a 16 = 2 ^ 127 ∨ q.toNat = 2 ^ 127 then 2 ^ 127 else (s.dev.nat a 16 + q.toNat) % 2 ^ 128)
      ∧ adds (.sadd64 a q64) 8 ((s.dev.nat a 8 + q64.toNat) % 2 ^ 64)
      ∧ adds (.sadd32 a q32) 4 ((s.dev.nat a 4 + q32.toNat) % 2 ^ 32)

/-- R295 to R298, R306 to R308: writes, reads and staked adds at stacked memory. -/
def Obligations.MemoryCommands : Prop := MemoryWritesReadBack ∧ MemoryReadsDeliver ∧ StakedAddsAccumulate

/-- R301, R302, R305, R311, R391: the sweep reads the stack's next valid line and no other, keeps its bytes and reports
each poisoned word of it with SOURCE 1; the sweep period halves or doubles within its bounds; a recalibration is busy until it completes, and the second failure in a row faults the channel and
fails the device; an uncorrectable word asks for the recovery of its region. -/
def Obligations.StacksScrubRecalibrateAndReport : Prop :=
  ∀ (s : State) (w : Writer) (k ch line corrected a source : Nat), s.dev.up = true → k < 8 → ch < 16 →
    let per := s.dev.getF R.MEM_SCRUB_STATUS_PERIOD k
    let lo := max 15 (s.dev.getF R.MEM_SCRUB_BOUNDS_MIN_PERIOD k)
    let hi := max lo (s.dev.getF R.MEM_SCRUB_BOUNDS_MAX_PERIOD k)
    let busy := s.dev.getF R.MEM_CHAN_STATUS_RECAL_BUSY k
    let st := s.dev.stackOf (line * 64)
    let off := s.dev.offsetOf (line * 64)
    let next := s.dev.nextScrub st = some line
    (line * 64 < memTop → next → s.dev.poisonedIn (line * 64) 64 = [] → s.dev.flippedIn (line * 64) 64 = [] →
      Answers (.patrolScrubLine line ⟨[], []⟩) s fun t =>
        t.mem = { s.dev.mem with sweep := mput st (off + 64) s.dev.mem.sweep }
          ∧ t = { s.dev with fields := t.fields, mem := t.mem }
          ∧ t.getF R.MEM_SCRUB_STATUS_PROGRESS st = off * 256 / 0xC00000000 % 256)
    ∧ (line * 64 < memTop → next → s.dev.poisonedIn (line * 64) 64 ≠ [] → Answers (.patrolScrubLine line ⟨[], []⟩) s fun t =>
        t.errBit MEM st 17 = true ∧ t.mem.bytes = s.dev.mem.bytes ∧ t.cells = s.dev.cells)
    ∧ (∀ e, (memTop ≤ line * 64 ∨ ¬ next) → Answers (.patrolScrubLine line e) s fun t => t = s.dev)
    ∧ (s.dev.held MEM k = false → per < 2 ^ 16 → Answers (.scrubRateUpdate k corrected) s fun t =>
        t.getF R.MEM_SCRUB_STATUS_PERIOD k = (if s.dev.getF R.MEM_SCRUB_THRESH_CE_HI k < corrected then max (per / 2) lo
          else if corrected < s.dev.getF R.MEM_SCRUB_THRESH_CE_LO k then min (2 * per) hi else per) % 2 ^ 16
        ∧ t.mem = s.dev.mem)
    ∧ (s.dev.held MEM k = true → Answers (.scrubRateUpdate k corrected) s fun t =>
        t.getF R.MEM_SCRUB_STATUS_PERIOD k = per ∧ t.mem = s.dev.mem)
    ∧ (s.own.mayWrite w = true → Answers (.recal w k ch) s fun t =>
        bitOf (t.getF R.MEM_CHAN_STATUS_RECAL_BUSY k) ch = true ∧ t.getF R.MEM_CHAN_CTRL_CHANNEL k = ch ∧ t.mem = s.dev.mem)
    ∧ (Answers (.channelMarginRecal k ch) s fun t =>
        bitOf (t.getF R.MEM_CHAN_STATUS_RECAL_BUSY k) ch = true ∧ t = { s.dev with fields := t.fields })
    ∧ (bitOf busy ch = true → Answers (.channelRecalComplete k ch true) s fun t =>
        bitOf (t.getF R.MEM_CHAN_STATUS_RECAL_BUSY k) ch = false ∧ t.nv = s.dev.nv ∧ t.mem.bytes = s.dev.mem.bytes)
    ∧ (bitOf busy ch = true → mget 0 s.dev.mem.recalFails (k * 16 + ch) = 0 → Answers (.channelRecalComplete k ch false) s fun t =>
        t.nv = s.dev.nv ∧ mget 0 t.mem.recalFails (k * 16 + ch) = 1 ∧ t.mem.bytes = s.dev.mem.bytes)
    ∧ (bitOf busy ch = true → 1 ≤ mget 0 s.dev.mem.recalFails (k * 16 + ch) → Answers (.channelRecalComplete k ch false) s fun t =>
        bitOf (mget 0 t.nv.chanFault k) ch = true ∧ t.blk GLB 0 = stFailed ∧ t.errBit MEM k 22 = true
          ∧ t.getF (R.BLK_HEALTH_REPLACE_REQ MEM) k = 1)
    ∧ (s.dev.regionOf a = 0 → s.dev.jobActive = true → s.dev.configuring = false → source ≠ 1 → s.dev.ctl.updateBegun = true →
        Answers (.ueReport a source) s fun t => t.ctl.replayAsked = 7 ∧ t.mem = s.dev.mem ∧ t.cells = s.dev.cells)
    ∧ (s.dev.regionOf a = 1 → s.dev.inStatRecord a = false → s.dev.jobActive = true → s.dev.configuring = false →
        s.dev.pairState = 0 → Answers (.ueReport a source) s fun t =>
          t.getF R.SOW_RECOVERY_PHASE 0 = 7 ∧ t.errBit SOW 0 21 = true ∧ t.ctl.noClose = true ∧ t.mem = s.dev.mem)

/-- R48, R287, R289, R313, R315: while no job runs, a new interleave invalidates all of memory and 3 is refused; the
mirror region and the sample cache together stay within 383 GiB; the spill area lies in job memory; while a job runs the
map is locked. -/
def Obligations.MemoryMapIsGuarded : Prop :=
  ∀ (s : State) (w : Writer) (v m c offset : Nat), Writes s w →
    let openMap := s.dev.rlOpen true MEM 0
    let old := s.dev.getF R.MEM_MAP_INTERLEAVE 0
    let spill := if offset = 0x94 then s.dev.setF R.MEM_SPILL_BASE_LO_ADDR_LO 0 (v / 2 ^ 16)
      else if offset = 0x98 then s.dev.setF R.MEM_SPILL_BASE_HI_ADDR_HI 0 v else s.dev.setF R.MEM_SPILL_SIZE_MIB 0 v
    (openMap = true → v < 3 → v ≠ old → Answers (.memMapWrite w v) s fun t =>
      t.getF R.MEM_MAP_INTERLEAVE 0 = v ∧ t.mem.bytes = [] ∧ t.mem.valid = [] ∧ t.mem.poison = [] ∧ t.cells = s.dev.cells)
    ∧ (openMap = true → Answers (.memMapWrite w 3) s fun t =>
        t.getF R.MEM_MAP_INTERLEAVE 0 = old ∧ t.errBit MEM 0 23 = true ∧ t.mem = s.dev.mem)
    ∧ (openMap = false → v < 4 → v ≠ old → Answers (.memMapWrite w v) s fun t =>
        t.getF R.MEM_MAP_INTERLEAVE 0 = old ∧ t.errBit MEM 0 0 = true ∧ t.mem = s.dev.mem)
    ∧ (openMap = true → m < 512 → c < 512 → m + c ≤ 383 → Answers (.memRegionsWrite w m c) s fun t =>
        t.getF R.MEM_REGIONS_MIRROR_GIB 0 = m ∧ t.getF R.MEM_REGIONS_CACHE_GIB 0 = c
          ∧ t.mirrorBase + m * 2 ^ 30 = logBase ∧ t.cacheBase + c * 2 ^ 30 = t.mirrorBase ∧ t.mem = s.dev.mem)
    ∧ (openMap = true → m < 512 → c < 512 → 383 < m + c → Answers (.memRegionsWrite w m c) s fun t =>
        t.getF R.MEM_REGIONS_MIRROR_GIB 0 = s.dev.getF R.MEM_REGIONS_MIRROR_GIB 0
          ∧ t.getF R.MEM_REGIONS_CACHE_GIB 0 = s.dev.getF R.MEM_REGIONS_CACHE_GIB 0 ∧ t.errBit MEM 0 23 = true)
    ∧ (openMap = true → offset ∈ [0x94, 0x98, 0x9C] →
        (spill.inJob spill.spillBase spill.spillSize = true → Answers (.memSpillWrite w offset v) s fun t => t = spill)
        ∧ (spill.inJob spill.spillBase spill.spillSize = false → Answers (.memSpillWrite w offset v) s fun t =>
            t.spillBase = s.dev.spillBase ∧ t.spillSize = s.dev.spillSize ∧ t.errBit MEM 0 23 = true))

/-! ### Partners -/

/-- A message of a subtype from the partner comes next in sequence. -/
def FromPartner (s : State) (sub : Nat) (p : Packet) : Prop :=
  InSequence s p ∧ NothingHeld s ∧ p.opc = 0x30 ∧ p.attr % 256 = sub ∧ s.dev.isPartner p.src = true

/-- A message that the device sends on a flow: it goes out and waits for its acknowledgement, or waits for a credit. -/
def Queued (t : Dev) (f sub : Nat) (q : Packet → Prop) : Prop :=
  ∃ x ∈ (t.flow f).unacked ++ (t.flow f).waiting, x.opc = 0x30 ∧ x.attr = sub ∧ q x

/-- No collective waits at SEAL_GATE (R379). -/
def NoneGated (s : State) : Prop := ∀ c ∈ s.dev.fab.colls, c.sent = true

/-- R369 to R372, R376, R378, R386, R404: PAIR opens the exchange; a failed check or a refusal ends in REFUSED with its code; no answer
is NO_RESPONSE; UNPAIR, from either side, ends the pairing; heartbeats go out every 100 ms, with the REMIRROR that a cold
reset owes, and a second of silence is LOST; REMIRROR begins a base transfer. -/
def Obligations.PairingFollowsItsExchange : Prop :=
  ∀ (s : State) (w : Writer) (key : Nat) (p : Packet), s.dev.up = true → NothingHeld s → s.dev.ctl.heldMeasure = none →
    NoneGated s →
    let st := s.dev.pairState
    let opened (t : Dev) (graft : Bool) : Prop := t.pairState = 1 ∧ t.getF R.SOW_PAIR_STATUS_CODE 0 = 0
      ∧ t.sow.pairKey = decide (key = 0xA55A) ∧ t.sow.pairIsGraft = graft ∧ t.cells = s.dev.cells
    let refused (t : Dev) (code : Nat) : Prop := t.pairState = 5 ∧ t.getF R.SOW_PAIR_STATUS_CODE 0 = code % 16
      ∧ t.errBit SOW 0 16 = true ∧ t.sow.queue = [] ∧ t.sow.reqSeen = none ∧ t.cells = s.dev.cells
    let silent := s.dev.getF R.SOW_HEARTBEAT_SILENT_MS 0
    (s.own.mayWrite w = true → s.dev.partnerOpen = true → s.dev.sow.reqSeen = none →
      (Answers (.pair w key) s fun t => opened t false) ∧ Answers (.pairGraft w key) s fun t => opened t true)
    ∧ (s.own.mayWrite w = true → s.dev.partnerOpen = false → Answers (.pair w key) s fun t =>
        t.pairState = st ∧ t.errBit SOW 0 0 = true ∧ t.sow = s.dev.sow ∧ t.mem = s.dev.mem)
    ∧ (s.own.mayWrite w = true → st = 0 → Answers (.unpair w) s fun t => t = s.dev)
    ∧ (s.own.mayWrite w = true → st ≠ 0 → Answers (.unpair w) s fun t =>
        t.pairState = 0 ∧ t.sow.queue = [] ∧ t.sow.partnerSteps = [] ∧ t.cells = s.dev.cells)
    ∧ (FromPartner s 14 p → st ≠ 0 → Answers (.unpairMsg p) s fun t => t.pairState = 0 ∧ t.sow.queue = [])
    ∧ (FromPartner s 1 p → st = 0 ∨ st = 5 → Answers (.pairReq p) s fun t =>
        t.sow.reqSeen = some p ∧ t.pairState = st ∧ t.mem = s.dev.mem)
    ∧ (FromPartner s 1 p → st = 1 → s.dev.ownFailure ≠ 0 → Answers (.pairReq p) s fun t => refused t s.dev.ownFailure)
    ∧ (FromPartner s 2 p → st = 1 → p.status ≠ 0 → Answers (.pairAck p) s fun t => refused t p.status)
    ∧ (FromPartner s 2 p → st = 1 → p.status = 0 → s.dev.sow.ownAck = none → Answers (.pairAck p) s fun t =>
        t.sow.peerAck = some 0 ∧ t.pairState = 1 ∧ t.mem = s.dev.mem)
    ∧ (st = 1 → s.dev.sow.ownAck = none → Answers .pairResponseTimeout s fun t =>
        refused t (if s.dev.ownFailure ≠ 0 then s.dev.ownFailure else 4))
    ∧ (FromPartner s 7 p → Answers (.heartbeat p) s fun t =>
        t.getF R.SOW_HEARTBEAT_SILENT_MS 0 = 0 ∧ t.sow = s.dev.sow ∧ t.mem = s.dev.mem ∧ t.cells = s.dev.cells)
    ∧ (s.dev.pairStands = true → Answers .heartbeatTimer s fun t =>
        t.getF R.SOW_HEARTBEAT_SILENT_MS 0 = min (2 ^ R.SOW_HEARTBEAT_SILENT_MS.width - 1) (silent + 100)
          ∧ (s.dev.sow.remirror = false → t.sow = s.dev.sow)
          ∧ (s.dev.sow.remirror = true → s.dev.getF R.SOW_PARTNER_VALID 0 = 1 → s.dev.getF R.SOW_RECOVERY_PHASE 0 ≠ 3 →
              ∀ f, t.flowKind s.dev.partner 3 = some f → t.sow.remirror = false ∧ Queued t f 15 fun _ => True)
          ∧ t.mem = s.dev.mem ∧ ∀ f, t.flowKind s.dev.partner 3 = some f →
            Queued t f 7 fun x => x.op1 = s.dev.sow.reached ∧ x.op2 = s.dev.getF R.SOW_LAST_SEALED 0)
    ∧ (s.dev.streaming = true → Answers .partnerSilenceTimeout s fun t =>
        t.pairState = 4 ∧ t.errBit SOW 0 17 = true ∧ t.harvest.asked = [] ∧ t.mem = s.dev.mem)
    ∧ (FromPartner s 15 p → s.dev.pairStands = true → Answers (.remirror p) s fun t =>
        t.pairState = 2 ∧ t.getF R.SOW_SEAL_STATUS_SEALED_VALID 0 = 0 ∧ t.sow.unsealed = []
          ∧ (s.dev.sow.recCopies = [] → t.mem = s.dev.mem)
          ∧ ∀ b, b < logBase → byteAt t.mem.bytes b = byteAt s.dev.mem.bytes b)

/-- R374, R375 to R377, R380: the mirror stream sends its queue in order; the partner takes base bytes into its image, deltas
into the journal slot of their step, records into its copy of the log, and seals a whole step whose turn it is. The first packet of a base transfer sets the
region to BASE, and the item table that comes with it (log entry 21) is what the region then holds. -/
def Obligations.MirrorStreamReachesThePartner : Prop :=
  ∀ (s : State) (p : Packet) (n off : Nat) (line r table : List Byte) (rest : List MirrorItem) (x : PartnerStep), s.dev.up = true → s.dev.mem.wf →
    let slot := s.dev.pSlot (p.op1 % 2)
    (s.dev.streaming = true → s.dev.sow.queue = .delta n off line :: rest → Answers .mirrorSend s fun t =>
      t.sow.queue = s.dev.sow.queue.drop (frontDeltas 56 n s.dev.sow.queue).length ∧ t.mem = s.dev.mem
        ∧ t.sow.queue.length < s.dev.sow.queue.length
        ∧ ∀ f, t.flowKind s.dev.partner 1 = some f →
          Queued t f 4 fun y => y.op1 = n ∧ y.payload = (frontDeltas 56 n s.dev.sow.queue).flatten)
    ∧ (s.dev.streaming = false → Answers .mirrorSend s fun t => t = s.dev)
    ∧ (FromPartner s 3 p → s.dev.sow.partnerBase = true → p.addr ≠ 0 → Answers (.base ⟨p, table⟩) s fun t =>
        t.mem = (s.dev.writeRaw (s.dev.pImageBase + p.addr) p.payload).mem ∧ t.sow.partnerBase = !bitOf p.op1 0
          ∧ t.cells = s.dev.cells)
    ∧ (FromPartner s 3 p → s.dev.sow.partnerBase = false ∨ p.addr = 0 → s.dev.poisonIn s.dev.mirrorBase 1 = none →
        s.dev.mirrorBase % 64 = 0 → Answers (.base ⟨p, table⟩) s fun t =>
          t.regionState = 3 ∧ t.sow.partnerSteps = [] ∧ t.sow.partnerBase = !bitOf p.op1 0 ∧ t.cells = s.dev.cells
            ∧ (table ≠ [] → table.length ≤ 64 * 65534 → s.dev.poisonIn (s.dev.mirrorBase + 0x200000) table.length = none →
                t.bytes (s.dev.mirrorBase + 0x200000) table.length = table ∧ t.sow.partnerItems = table.length / 64))
    ∧ (FromPartner s 4 p → s.dev.sow.partnerBase = false → p.payload = leBytes 8 off ++ line → line.length = 64 → off < 2 ^ 64 →
        off % 64 = 0 → off + 64 ≤ s.dev.pImage → s.dev.poisonIn (slot + off) 64 = none → Answers (.delta p) s fun t =>
          t.bytes (slot + off) 64 = line ∧ (t.partnerStep p.op1).lines = (s.dev.partnerStep p.op1).lines + 1
            ∧ (t.partnerStep p.op1).crc = crc64Run (s.dev.partnerStep p.op1).crc p.payload ∧ t.cells = s.dev.cells)
    ∧ (FromPartner s 5 p → s.dev.sow.partnerBase = true → p.payload = r → recordOk r = true →
        s.dev.poisonIn (logSlot s.dev.pLog (recField r 16 8)) 512 = none → Answers (.record p) s fun t =>
          t.bytes (logSlot s.dev.pLog (recField r 16 8)) 512 = r
            ∧ (t.partnerStep (recField r 8 8)).records = (s.dev.partnerStep (recField r 8 8)).records ++ [r])
    ∧ (FromPartner s 5 p → p.payload = [] → s.dev.sow.partnerSteps = [x] → s.dev.sealable = some x → s.dev.pinned = false →
        s.dev.poisonIn s.dev.mirrorBase 24 = none → s.dev.mirrorBase % 64 = 0 → Answers (.record p) s fun t =>
          t.regionState = 1 ∧ t.regionSealed = x.step % 2 ^ 64 ∧ t.sow.partnerSteps = [] ∧ t.cells = s.dev.cells
            ∧ ∀ f, t.flowKind s.dev.partner 3 = some f → Queued t f 6 fun y => y.op1 = x.step)

/-! ### Recovery and harvest -/

/-- R364, R390, R391, R394 to R396: a replay that was asked for returns the device to CONFIG with the open step's work dropped,
or fails without a sealed boundary; GO restores, or runs a re-executed step again; ABORT and 10 s without GO end the
recovery; the records, once here, begin the replay at the step after the restored boundary. The partner serves the whole image of
its last sealed boundary, or one item of it. -/
def Obligations.RecoveriesReplay : Prop :=
  ∀ (s : State) (w : Writer) (cause b lsn : Nat) (p : Packet) (it : Item), s.dev.up = true → NothingHeld s →
    let ph := s.dev.getF R.SOW_RECOVERY_PHASE 0
    let failed (t : Dev) : Prop := t.getF R.SOW_RECOVERY_PHASE 0 = 7 ∧ t.errBit SOW 0 21 = true ∧ t.ctl.noClose = true
      ∧ t.mem = s.dev.mem
    let v := natAt s.dev.sow.mcBytes (s.dev.mcOffset 6) 32
    let offered := s.dev.featureWord R.GLB_DEV_FEATURES
    (cause ≠ 0 → s.dev.ctl.replayAsked = cause → s.dev.jobActive = true → (cause = 7 → s.dev.ctl.updateBegun = true) →
      s.dev.canRestore = true →
      Answers (.inPlaceReplay cause) s fun t =>
        t.getF R.SOW_RECOVERY_PHASE 0 = 3 ∧ t.getF R.SOW_RECOVERY_CAUSE 0 = cause % 2 ^ R.SOW_RECOVERY_CAUSE.width
          ∧ t.getF R.SOW_REPLAY_FROM 0 = (s.dev.getF R.SOW_LAST_SEALED 0 + 1) % 2 ^ 64 ∧ t.ctl.order = [] ∧ t.sets = []
          ∧ t.ctl.replayAsked = 0 ∧ t.ctl.decisions = [])
    ∧ (cause ≠ 0 → s.dev.ctl.replayAsked = cause → s.dev.jobActive = true → (cause = 7 → s.dev.ctl.updateBegun = true) →
        s.dev.canRestore = false → Answers (.inPlaceReplay cause) s fun t => failed t)
    ∧ (s.dev.ctl.replayAsked = 7 → s.dev.jobActive = true → s.dev.ctl.updateBegun = false → Answers (.inPlaceReplay 7) s fun t =>
        t.getF R.SOW_RECOVERY_PHASE 0 = 3 ∧ t.getF R.SOW_RECOVERY_CAUSE 0 = 7 ∧ t.getF R.SOW_REPLAY_FROM 0 = s.dev.step % 2 ^ 64
          ∧ t.sow.reexec = true ∧ t.ctl.order = [] ∧ t.sets = [] ∧ t.ctl.decisions = [])
    ∧ (s.dev.ctl.replayAsked ≠ cause → Answers (.inPlaceReplay cause) s fun t => t = s.dev)
    ∧ (s.own.mayWrite w = true → ph ≠ 3 → Answers (.recoveryGo w) s fun t => t = s.dev)
    ∧ (s.own.mayWrite w = true → ph = 3 → s.dev.sow.reexec = true → Answers (.recoveryGo w) s fun t =>
        t.getF R.SOW_RECOVERY_PHASE 0 = 5 ∧ t.sow.reexec = false ∧ t.train.plan = none ∧ t.step = s.dev.step)
    ∧ (s.own.mayWrite w = true → ph = 3 → s.dev.sow.reexec = false → s.dev.sow.items ≠ [] → Answers (.recoveryGo w) s fun t =>
        t.getF R.SOW_RECOVERY_PHASE 0 = 4 ∧ t.train.plan = none ∧ t.sow.queue = [] ∧ t.sow.unsealed = [] ∧ t.mem = s.dev.mem
          ∧ ∀ f, t.flowKind s.dev.partner 3 = some f → Queued t f 8 fun x => x.op1 = 2 ^ 64 - 1)
    ∧ (s.own.mayWrite w = true → 3 ≤ ph → ph ≤ 5 → Answers (.recoveryAbort w) s fun t => failed t)
    ∧ (s.own.mayWrite w = true → ph < 3 ∨ 5 < ph → Answers (.recoveryAbort w) s fun t => t = s.dev)
    ∧ (ph = 3 → Answers .recoveryGoTimeout s fun t => failed t)
    ∧ (FromPartner s 8 p → p.op1 = 2 ^ 64 - 1 → s.dev.regionState = 1 → s.dev.pairState = 3 ∨ s.dev.pairState = 4 →
        s.dev.getF R.SOW_SEAL_STATUS_SEALED_VALID 0 = 1 → Answers (.restoreReq p) s fun t =>
          t.pairState = 3 ∧ t.sow.partnerSteps = [] ∧ t.cells = s.dev.cells
            ∧ ∀ f, t.flowKind s.dev.partner 3 = some f → Queued t f 10 fun x =>
              x.status = 0 ∧ x.op1 = s.dev.regionSealed ∧ x.op2 = s.dev.regionLsn)
    ∧ (FromPartner s 8 p → s.dev.regionState = 1 → s.dev.pItems[p.op1]? = some it → it.valid = true → p.op1 < 2 ^ 64 - 1 →
        0 < it.length + it.sLength → Answers (.restoreReq p) s fun t =>
          t.mem = s.dev.mem ∧ t.cells = s.dev.cells
            ∧ (∀ f, t.flowKind s.dev.partner 1 = some f → Queued t f 9 fun x =>
                x.addr = it.imageOff ∧ x.payload = s.dev.pBytes it.imageOff (min 4096 (it.length + it.sLength)))
            ∧ ∀ f, t.flowKind s.dev.partner 3 = some f → Queued t f 10 fun x => x.status = 0 ∧ x.op1 = s.dev.regionSealed)
    ∧ (FromPartner s 9 p → ph = 4 → Answers (.restoreData p) s fun t =>
        t.mem = (s.dev.restoreBytes p.addr p.payload).mem ∧ t.cells = s.dev.cells ∧ t.getF R.SOW_RECOVERY_PHASE 0 = 4)
    ∧ (FromPartner s 10 p → ph = 4 → s.dev.sow.logWait = none → p.status ≠ 0 → Answers (.restoreEnd p) s fun t => failed t)
    ∧ (FromPartner s 10 p → ph = 4 → s.dev.sow.logWait = none → p.status = 0 → s.dev.getF R.SOW_RECOVERY_CAUSE 0 = 8 →
        lowestBit (fun n => bitOf v n && !bitOf offered n) = none → s.dev.gsbCheck.1 = 0 → Answers (.restoreEnd p) s fun t =>
          t.sow.logWait = some (p.op1, p.op2) ∧ t.ctl.gsbChecked = true ∧ t.getF R.SOW_RECOVERY_PHASE 0 = 4
            ∧ t.getF R.SOW_REPLAY_FROM 0 = (p.op1 + 1) % 2 ^ 64)
    ∧ (FromPartner s 12 p → ph = 4 → s.dev.sow.logWait = some (b, lsn) → p.payload.length < 8 * 512 → b < 2 ^ 64 →
        s.dev.ctl.order = [] → Answers (.logData p) s fun t =>
          t.getF R.SOW_RECOVERY_PHASE 0 = 5 ∧ t.step = (b + 1) % 2 ^ 64 ∧ t.jobActive = true ∧ t.blk GLB 0 = stRunning
            ∧ t.getF R.SOW_LAST_SEALED 0 = b ∧ t.sow.logWait = none)
    ∧ (FromPartner s 11 p → p.op1 = 0 → Answers (.refetch p) s fun t =>
        t.mem = s.dev.mem ∧ t.cells = s.dev.cells ∧ ∀ f, t.flowKind s.dev.partner 1 = some f →
          Queued t f 9 fun x => x.addr = p.addr ∧ x.payload = s.dev.imageBytes p.addr p.op2)

/-- R279 to R283: a harvest goes to a partner that acknowledged the pairing, and is refused without one; the partner takes
one at a time, and writes the image of its boundary, cut at LIMIT, with STATE last; a destination without a flow, or that
refused a write, is WINDOW; the answer completes the command. -/
def Obligations.HarvestsGoThroughThePartner : Prop :=
  ∀ (s : State) (c : JobCmd) (p : Packet) (h : HarvestJob) (f : Nat) (ts : List Nat), s.dev.up = true →
    let body := s.dev.harvestBody h.mask
    let image := s.dev.harvestHeader h (s.dev.harvestItems h.mask).length 0 body ++ body
    let asked := s.dev.harvest.asked
    let code (k : Nat) : Option Nat := (s.dev.fab.opCodes.find? (fun e => decide (e.1 = k))).map (·.2)
    let still := s.dev.harvest.journal = [] ∧ s.dev.sow.partnerSteps = []
    let flow := s.dev.flowKind (h.dst / 2 ^ 48) 0
    let ended (t : Dev) (status n : Nat) : Prop := t.harvest.serving = none ∧ t.mem = s.dev.mem ∧ t.cells = s.dev.cells
      ∧ ∀ f, t.flowKind s.dev.partner 3 = some f → Queued t f 13 fun x =>
        x.status = status ∧ x.tag = h.cookie ∧ x.op2 = n ∧ bitOf x.flags 3 = true
    (c.opc = 16 → argsClear c 4 = true → bitOf (argOf c 1) 7 = false → argOf c 1 < 2 ^ 10 → bitsOf (argOf c 1) 8 2 ≠ 3 →
      (s.dev.streaming = true → Answers (.harvest c) s fun t =>
        t.harvest.asked = asked ++ [c] ∧ t.mem = s.dev.mem ∧ t.ctl = s.dev.ctl
          ∧ ∀ f, t.flowKind s.dev.partner 3 = some f → Queued t f 13 fun x =>
            x.addr = argOf c 0 ∧ x.op1 = argOf c 1 ∧ x.op2 = argOf c 2)
      ∧ (s.dev.streaming = false → Answers (.harvest c) s fun t =>
          t.harvest = s.dev.harvest ∧ (t.ring c.port c.ring).cqTail = (s.dev.ring c.port c.ring).cqTail + 1 ∧ t.mem = s.dev.mem))
    ∧ (FromPartner s 13 p → bitOf p.flags 3 = true → asked.find? (fun c => decide (c.cookie = p.tag)) = some c →
        Answers (.harvestMsg p) s fun t => t.harvest.asked = asked.erase c ∧ t.mem = s.dev.mem ∧ t.cells = s.dev.cells)
    ∧ (FromPartner s 13 p → bitOf p.flags 3 = false → s.dev.sealedPast p.addr = false → s.dev.harvest.serving = none →
        Answers (.harvestMsg p) s fun t => ∃ h', t.harvest.serving = some h' ∧ h'.subject = p.src ∧ h'.step = p.addr
          ∧ h'.dst = p.op2 ∧ h'.mask = p.op1 % 128 ∧ t.mem = s.dev.mem
          ∧ h'.pinned = (decide (s.dev.regionState = 1) && decide (s.dev.regionSealed = p.addr)))
    ∧ (s.dev.harvest.serving = some h → h.pinned = false → Answers .harvestComplete s fun t => t = s.dev)
    ∧ (s.dev.harvest.serving = some h → h.pinned = true → h.tags = none →
      (h.kind ≠ 0 → still →
        (image.length ≤ h.limit → Answers .harvestComplete s fun t => ended t 0 image.length
          ∧ Out.hostWrite (h.kind - 1) h.dst image ∈ t.out ∧ Out.hostWrite (h.kind - 1) (h.dst + 7) [1] ∈ t.out)
        ∧ (h.limit < image.length → Answers .harvestComplete s fun t => ended t 3 h.limit
          ∧ Out.hostWrite (h.kind - 1) h.dst (image.take h.limit) ∈ t.out))
      ∧ (h.kind = 0 → flow = none → still → Answers .harvestComplete s fun t => ended t 5 0)
      ∧ (h.kind = 0 → flow = some f → Answers .harvestComplete s fun t =>
          (∃ ks, t.harvest.serving = some { h with tags := some ks }) ∧ t.mem = s.dev.mem ∧ t.cells = s.dev.cells))
    ∧ (s.dev.harvest.serving = some h → h.pinned = true → h.tags = some ts →
      ((∃ k ∈ ts, code k = none) → Answers .harvestComplete s fun t => t = s.dev)
      ∧ (still → (∀ k ∈ ts, code k = some 0) → Answers .harvestComplete s fun t =>
          if image.length ≤ h.limit then ended t 0 image.length else ended t 3 h.limit)
      ∧ (still → (∀ k ∈ ts, code k ≠ none) → (∃ k ∈ ts, code k ≠ some 0) → Answers .harvestComplete s fun t => ended t 5 0))

/-! ### Input pipeline and media engine -/

/-- The batch that a command created holds this slot. -/
def HasSlot (t : Dev) (c : JobCmd) (slot : Nat) (q : PipSlot → Prop) : Prop :=
  ∃ b ∈ t.pip.batches, b.cmd = c ∧ ∃ x, b.slot slot = some x ∧ q x

/-- R405, R406, R427, R429: an INGEST that passes its checks makes a batch of its slots, any other completes without one;
once every slot is placed the batch table is written and the command completes; FLUSH outside a job empties the sample
cache. -/
def Obligations.IngestsMakeBatches : Prop :=
  ∀ (s : State) (w : Writer) (c : JobCmd) (plot : Nat) (b : Batch), s.dev.up = true → NothingHeld s →
    let blk := argOf c 0
    let a := s.dev.ingestArgs blk
    let n := mget 0 s.dev.pip.ingested a.plot
    let cache := s.dev.invalidate s.dev.cacheBase (s.dev.mirrorBase - s.dev.cacheBase)
    (c.opc = 3 → Begins s c → argsClear c 1 = true → s.dev.inJob blk 128 = true → s.dev.poisonIn blk 128 = none →
      (s.dev.ingestOk blk a = true → s.dev.recorded = none → Answers (.ingest c) s fun t =>
        (∃ b ∈ t.pip.batches, b.cmd = c ∧ b.args = a ∧ b.firstSlot = n ∧ b.slots = (List.range a.count).map (fun i =>
            PipSlot.fresh (s.dev.nat (a.list + 32 * i) 8) (s.dev.pipDesc (a.list + 32 * i))))
          ∧ mget 0 t.pip.ingested a.plot = n + a.count ∧ ⟨c, .running⟩ ∈ t.ctl.order ∧ t.mem = s.dev.mem)
      ∧ (s.dev.ingestOk blk a = false → Answers (.ingest c) s fun t =>
        t.pip = s.dev.pip ∧ t.errBit PIP 0 17 = true ∧ t.ctl.order = s.dev.ctl.order ∧ t.mem = s.dev.mem))
    ∧ (c.opc = 3 → Begins s c → s.dev.inJob blk 128 = false → Answers (.ingest c) s fun t =>
        t.pip = s.dev.pip ∧ t.ctl.order = s.dev.ctl.order ∧ t.mem = s.dev.mem)
    ∧ (s.dev.pip.batches.find? (fun b => decide (b.args.plot = plot) && decide (b.placed = b.slots.length)) = some b →
        s.dev.mem.wf → s.dev.poisonIn b.args.table (64 + 32 * b.slots.length) = none → Answers (.ingestComplete plot) s fun t =>
          t.bytes b.args.table (64 + 32 * b.slots.length) = b.table s.dev.step ∧ (∀ x ∈ t.pip.batches, x.cmd ≠ b.cmd)
            ∧ (∀ e ∈ t.ctl.order, e.cmd ≠ b.cmd) ∧ t.cells = s.dev.cells)
    ∧ ((∀ b ∈ s.dev.pip.batches, b.args.plot = plot → b.placed ≠ b.slots.length) → Answers (.ingestComplete plot) s fun t => t = s.dev)
    ∧ (s.own.mayWrite w = true → s.dev.jobActive = false → Answers (.flush w) s fun t => t = cache)
    ∧ (s.own.mayWrite w = true → s.dev.jobActive = true → Answers (.flush w) s fun t =>
        t.mem = s.dev.mem ∧ t.errBit PIP 0 0 = true)

/-- R411, R416, R417, R423, R424: a fetched and decoded slot holds its form in the unit; a fetch that failed waits 1 ms and
is tried again; a slot without a usable source takes a reserve descriptor, or is EMPTY after the eighth; a slot with its
form is finished with as many positions as a row holds. -/
def Obligations.SlotsAreFetchedAndFinished : Prop :=
  ∀ (s : State) (plot slot u : Nat) (b : Batch) (x : PipSlot) (f : PipForm) (bs stored : List Byte) (dec : DecodeResult),
    s.dev.up = true → s.dev.batchOf plot slot = some b → b.slot slot = some x → x.finished = false →
    let p := s.dev.prog x.desc.typ
    let o := s.dev.slotOut b.args p x.desc.sample f
    let next := x.attempt.elim 0 (· + 1)
    let taken : Prop := s.dev.pipUp u = true ∧ x.waiting = false ∧ x.form = none ∧ s.dev.tablePoison p = none
    let plain : Prop := taken ∧ s.dev.sourceBad b.args p x.desc = false ∧ s.dev.cacheUsed p = false
    (plain → x.desc.source ≠ 3 → (x.desc.source = 1 → s.dev.localOk x.desc.addr x.desc.length = true
        ∧ s.dev.poisonIn x.desc.addr x.desc.length = none) → s.dev.storedBytes x.desc bs = some stored →
        slotForm p x.desc b.args.stageSize stored dec = .ok f → f.bytes.length = formLen p f →
        Answers (.sampleFetchComplete plot slot u (.fetched bs dec)) s fun t =>
          HasSlot t b.cmd slot (fun y => y = { x with unit := some u, form := some (p.roundTrip f) }) ∧ t.cells = s.dev.cells
            ∧ ∀ a, a < b.args.stage ∨ b.args.stage + b.args.stageSize ≤ a → byteAt t.mem.bytes a = byteAt s.dev.mem.bytes a)
    ∧ (plain → x.desc.source = 0 ∨ x.desc.source = 2 → s.dev.recorded = none → x.tries < s.dev.actF R.PIP_FETCH_RETRIES 0 →
        Answers (.sampleFetchComplete plot slot u .failed) s fun t =>
          HasSlot t b.cmd slot (fun y => y = { x with tries := x.tries + 1, waiting := true, unit := some u })
            ∧ t.mem = s.dev.mem ∧ t.cells = s.dev.cells)
    ∧ (taken → s.dev.sourceBad b.args p x.desc = true →
        (next < 8 → s.dev.reserveCount ≠ 0 → Answers (.sampleFetchComplete plot slot u .failed) s fun t =>
          HasSlot t b.cmd slot (fun y => y.attempt = some next ∧ y.subst = some (s.dev.reserveIndex plot slot next)
            ∧ y.reason = some (x.reason.getD 4) ∧ y.finished = false
            ∧ y.desc = s.dev.pipDesc (s.dev.reserveAt (s.dev.reserveIndex plot slot next))))
        ∧ (8 ≤ next → s.dev.recorded = none → Answers (.sampleFetchComplete plot slot u .failed) s fun t =>
          HasSlot t b.cmd slot (fun y => y.empty = true ∧ y.finished = true ∧ y.subst = some (2 ^ 64 - 1))
            ∧ .subst x.orig (2 ^ 64 - 1) slot plot (x.reason.getD 4) ∈ t.ctl.decisions))
    ∧ (x.waiting = true → Answers (.fetchRetryTimer plot slot) s fun t =>
        HasSlot t b.cmd slot (fun y => y = { x with waiting := false }) ∧ t.mem = s.dev.mem ∧ t.cells = s.dev.cells)
    ∧ (x.waiting = false → Answers (.fetchRetryTimer plot slot) s fun t => t = s.dev)
    ∧ (x.form = some f → x.unit = some u → s.dev.pipUp u = true → p.kind ≠ 5 → Answers (.pipelineSlotComplete plot slot u) s fun t =>
        HasSlot t b.cmd slot (fun y => y.finished = true ∧ y.positions = min o.rows.length b.args.rowLen
          ∧ y.truncated = decide (b.args.rowLen < o.rows.length) ∧ y.form = none) ∧ t.cells = s.dev.cells)
    ∧ (x.form = none → Answers (.pipelineSlotComplete plot slot u) s fun t => t = s.dev)

/-- R430, R431, R434, R437: a pipeline's session takes a context of the slice that R431 names, or waits; a picture within
the budgets is delivered and counted, one beyond them ends the session, as bad input and the end of the stream do. -/
def Obligations.DecodeSessionsRun : Prop :=
  ∀ (s : State) (die slice context maxPix len i j w h planes : Nat) (rt : Bool) (x : Session) (data : List Byte),
    s.dev.up = true →
    let k := slice * 256 + context
    let kind := if rt then 2 else 1
    let budget := max 1 (s.dev.getF R.MED_BUDGET_MAX_EXPANSION 0)
    let session (y : Session) : Prop := y.kind = kind ∧ y.maxPix = maxPix ∧ y.length = len ∧ y.expansion = budget
      ∧ y.outBytes = 0 ∧ y.samples = 0 ∧ y.delivered = [] ∧ y.enc = none
    let rest (t : Dev) : Prop := t.mem = s.dev.mem ∧ t.cells = s.dev.cells
    let decode (u : DecodeUnit) := Answers (.decodePicture slice context u) s
    (s.dev.placeSession kind die = some i → s.dev.freeContext i = some j →
      Answers (.mediaSessionOpen die rt maxPix len) s fun t => (∃ y, mfind (i * 256 + j) t.media = some y ∧ session y)
        ∧ (∀ q, q ≠ i * 256 + j → mfind q t.media = mfind q s.dev.media) ∧ t.mediaWait = s.dev.mediaWait ∧ rest t)
    ∧ (s.dev.placeSession kind die = none → Answers (.mediaSessionOpen die rt maxPix len) s fun t =>
        (∃ y, t.mediaWait = s.dev.mediaWait ++ [.pipe die y] ∧ session y) ∧ t.media = s.dev.media ∧ rest t)
    ∧ (mfind k s.dev.media = some x → s.dev.sliceUp slice = true → x.kind ≠ 3 →
        (w * h ≤ x.maxPix → x.outBytes + 2 * planes ≤ x.expansion * x.length → decode (.picture w h planes data) fun t =>
          mfind k t.media = some { x with outBytes := x.outBytes + 2 * planes, delivered := x.delivered ++ data, pics := x.pics + 1 }
            ∧ rest t)
        ∧ (x.maxPix < w * h ∨ x.expansion * x.length < x.outBytes + 2 * planes → s.dev.mediaWait = [] →
          decode (.picture w h planes data) fun t => t.media = mdel k s.dev.media ∧ t.errBit MED slice 16 = true ∧ rest t)
        ∧ (s.dev.mediaWait = [] → decode .badStream fun t => t.media = mdel k s.dev.media ∧ t.errBit MED slice 17 = true ∧ rest t)
        ∧ (s.dev.mediaWait = [] → decode .unsupported fun t => t.media = mdel k s.dev.media ∧ t.errBit MED slice 18 = true ∧ rest t)
        ∧ (s.dev.mediaWait = [] → decode .finish fun t => t = { s.dev with media := mdel k s.dev.media }))
    ∧ (mfind k s.dev.media = none → ∀ u, decode u fun t => t = s.dev)

/-- R431, R436, R438 to R446, R520: the slice that an encoder session codes next is the one that EncState.code gives of its
picture, its references, its QP and ENC_REV; the commands of an encoder session, on a MED ring or in command order; a
poisoned word of WORK ends the session. -/
def Obligations.EncoderSessionsRun : Prop :=
  ∀ (s : State) (w : Writer) (c : JobCmd) (i j k slice context addr : Nat) (se : Session) (x : EncState) (p : EncPic),
    s.dev.up = true → NothingHeld s →
    let a := argOf c 0
    let e := s.dev.encParams c
    let med : Prop := (s.dev.ring c.port c.ring).kind = 3
    let runs : Prop := med ∨ Begins s c
    let now (t : Dev) (q : EncState → Prop) : Prop := ∃ se' y, mfind k t.media = some se' ∧ se'.enc = some y ∧ q y
    let rest (t : Dev) : Prop := t.mem = s.dev.mem ∧ t.cells = s.dev.cells
    let ended (t : Dev) : Prop := ∀ q ∈ t.ctl.order, q.cmd ≠ c
    let rows := (planesOf c x.par).flatMap planeRows
    let codes := rows.flatMap (fun r => (List.range (r.2 / 2)).map (fun i => min 1023 (s.dev.nat (r.1 + 2 * i) 2)))
    let cs := x.code (s.dev.getF R.PWR_FW_RESULT_REV_MEF 0) p
    (c.opc = 11 → runs → argsClear c 1 = true → s.dev.featureIn MED 8 = true → s.dev.localOk a 64 = true →
      s.dev.poisonIn a 64 = none →
      (s.dev.encOk a e = true → s.dev.placeSession 3 e.port = some i → s.dev.freeContext i = some j →
        Answers (.encOpen c) s fun t => ended t ∧ rest t ∧ ∃ y, mfind (i * 256 + j) t.media = some y ∧ y.kind = 3
          ∧ y.handle = i * 256 + j ∧ y.enc = some (EncState.fresh e))
      ∧ (s.dev.encOk a e = true → s.dev.placeSession 3 e.port = none → Answers (.encOpen c) s fun t =>
        t.mediaWait = s.dev.mediaWait ++ [.enc c e] ∧ t.media = s.dev.media ∧ rest t)
      ∧ (s.dev.encOk a e = false → Answers (.encOpen c) s fun t => ended t ∧ t.media = s.dev.media ∧ rest t))
    ∧ (runs → s.dev.byHandle a = some (k, se, x) → mfind k s.dev.media = some se → se.enc = some x → a < 2048 → a % 256 < 64 →
        (c.opc = 12 → x.closing = none → argsClear c 5 = true → (∀ r ∈ rows, s.dev.localOk r.1 r.2 = true
            ∧ s.dev.poisonIn r.1 r.2 = none) → Answers (.encPicture c) s fun t =>
          now t (fun y => y = { x with items := x.items ++ [.picture codes] }) ∧ ended t ∧ rest t)
        ∧ (c.opc = 13 → x.closing = none → argsClear c 1 = true → Answers (.encKeyreq c) s fun t =>
          now t (fun y => y = { x with items := x.items ++ [.key] }) ∧ ended t ∧ rest t)
        ∧ (c.opc = 14 → argsClear c 2 = true → argOf c 1 ≤ x.outUsed → x.held = none → Answers (.encRelease c) s fun t =>
          now t (fun y => y = { x with outUsed := x.outUsed - argOf c 1 }) ∧ ended t ∧ rest t)
        ∧ (c.opc = 15 → x.closing = none → argsClear c 1 = true →
          (x.idle = false → Answers (.encClose c) s fun t => now t (fun y => y = { x with closing := some c }) ∧ rest t)
          ∧ (x.idle = true → s.dev.mediaWait = [] → Answers (.encClose c) s fun t =>
            ended t ∧ t.media = mdel k (mput k { se with enc := some { x with closing := some c } } s.dev.media) ∧ rest t)))
    ∧ (runs → s.dev.byHandle a = none → ∀ q ∈ [(12, Instr.encPicture c), (13, .encKeyreq c), (14, .encRelease c), (15, .encClose c)],
        c.opc = q.1 → Answers q.2 s fun t => ended t ∧ t.media = s.dev.media ∧ rest t)
    ∧ (context < 64 → k = slice * 256 + context → mfind k s.dev.media = some se → se.enc = some x → s.dev.sliceUp slice = true →
        (x.current = none → x.items.any EncItem.isPicture = true → Answers (.encPictureStart slice context) s fun t =>
          now t (fun y => y.current = some ⟨decide (x.keyCause ≠ 0), x.keyCause, x.nextCodes, [], []⟩
              ∧ y.items = (x.items.dropWhile (fun q => decide (q = .key))).drop 1
              ∧ y.refs = (if x.keyCause = 0 then x.refs else [])) ∧ t.cells = s.dev.cells
            ∧ ∀ b, b < x.par.work ∨ x.par.work + x.par.workSize ≤ b → byteAt t.mem.bytes b = byteAt s.dev.mem.bytes b)
        ∧ (x.current = some p → x.held = none → x.closing = none → x.outUsed + cs.data.length ≤ x.par.outSize →
          Answers (.encSliceComplete slice context none) s fun t =>
            now t (fun y => y = x.after p (x.qp p) cs (decide (p.slices.length + 1 = x.par.slices)))
              ∧ (x.par.outHost = true → t.mem = s.dev.mem)
              ∧ (t.ring x.par.port x.par.ring).cqTail = (s.dev.ring x.par.port x.par.ring).cqTail + 1)
        ∧ (x.current = some p → x.held = none → cs.data.length ≤ x.par.outSize → x.par.outSize < x.outUsed + cs.data.length →
          Answers (.encSliceComplete slice context none) s fun t =>
            now t (fun y => y = { x with held := some cs }) ∧ t.errBit MED slice 20 = true ∧ t.mem = s.dev.mem)
        ∧ (x.current = some p → x.held = none → x.closing = none → s.dev.mediaWait = [] → x.par.work ≤ addr →
          addr < x.par.work + x.par.workSize → (s.dev.poisonIn addr 1).isSome = true →
          Answers (.encSliceComplete slice context (some addr)) s fun t =>
            t.media = mdel k s.dev.media ∧ t.errBit MED slice 19 = true ∧ t.getF R.MED_FAULT_HI_VALID slice = 1
              ∧ t.getF R.MED_FAULT_LO_ADDR_LO slice = addr % 2 ^ 32 ∧ t.mem.bytes = s.dev.mem.bytes
              ∧ (t.ring x.par.port x.par.ring).cqTail = (s.dev.ring x.par.port x.par.ring).cqTail + 1)
        ∧ (x.current = none → ∀ poisoned, Answers (.encSliceComplete slice context poisoned) s fun t => t = s.dev))
    ∧ (s.own.mayWrite w = true → pageExists MED slice = true → context < 64 → k = slice * 256 + context →
        mfind k s.dev.media = some se → se.enc = some x → Answers (.medKeyreq w slice context) s fun t =>
          now t (fun y => y = { x with regKey := true }) ∧ rest t)

/-! ### Power, resets and boot -/

/-- The command answers a next state that keeps the queue, in which no port owns the device and whose device is described
by `post` (R529). -/
def Reboots (c : Instr) (s : State) (post : Dev → Prop) : Prop :=
  ∃ t, exec c s = .next t ∧ t.pending = s.pending ∧ t.own = ⟨0, 0, false⟩ ∧ post t.dev

/-- What a cold reset leaves: memory and job are lost, PWR_RESET_CAUSE shows the cause, the device secret stays (R461, R501). -/
def ColdReset (s : State) (t : Dev) (phase : PowerPhase) (cause : Nat) : Prop :=
  t.pwr.phase = phase ∧ t.mem = Dev.reset.mem ∧ t.cells = [] ∧ t.fab = Fabric.reset ∧ t.rasLog = [] ∧ t.jobActive = false
    ∧ t.getF R.PWR_RESET_CAUSE_TYPE 0 = 1 ∧ t.getF R.PWR_RESET_CAUSE_CAUSE 0 = cause % 16
    ∧ t.nv.secret = s.dev.nv.secret ∧ t.pwr.booted = false ∧ t.pwr.held = s.dev.pins.mrstLow

/-- R451, R453 to R455, R459, R461, R538, R539, R543: the switch, the rails, a dip, a trip, a restart and a cold reset move
the power stage; the third restart within 60 s and a trip assert FAULT_L. -/
def Obligations.PowerStageMoves : Prop :=
  ∀ (s : State) (w : Writer) (rail group key : Nat) (back : Bool),
    let ph := s.dev.pwr.phase
    let same (t : Dev) : Prop := t = s.dev
    let restarts (i : Instr) (cause : Nat) : Prop :=
      (s.dev.pwr.restarts.length < 2 → Reboots i s fun t => ColdReset s t .sequencing cause ∧ t.faultL = false)
        ∧ (2 ≤ s.dev.pwr.restarts.length → Reboots i s fun t => ColdReset s t .off cause ∧ t.faultL = true)
    let trips (i : Instr) : Prop := Reboots i s fun t => ColdReset s t .off 10 ∧ t.faultL = true
    (ph = .off → s.dev.pwr.latched = false → s.dev.pwr.tripped = false → Answers .hotSwapClose s fun t =>
      t = { s.dev with pwr := { s.dev.pwr with phase := .charging } })
    ∧ (ph ≠ .off ∨ s.dev.pwr.latched = true ∨ s.dev.pwr.tripped = true → Answers .hotSwapClose s same)
    ∧ (ph = .charging ∨ ph = .sequencing → Answers .railPowerUp s fun t =>
        t.pwr.phase = .on ∧ t.pwr.held = s.dev.pins.mrstLow ∧ t.mem = s.dev.mem ∧ t.nv = s.dev.nv)
    ∧ (ph = .off ∨ ph = .on → Answers .railPowerUp s same)
    ∧ (Reboots .hotSwapOpen s fun t => t.pwr.phase = .off ∧ t.faultL = false ∧ t.mem = Dev.reset.mem ∧ t.cells = []
        ∧ t.fields = (Dev.mapReset { t with fields := Dev.reset.fields }).fields ∧ t.nv.secret = s.dev.nv.secret)
    ∧ (s.dev.up = true → Answers .inputDip s fun t => t.errBit PWR 0 16 = true ∧ t.mem = s.dev.mem ∧ t.cells = s.dev.cells
        ∧ t.getF (R.COUNTER PWR 6) 0 = min (2 ^ 64 - 1) (s.dev.getF (R.COUNTER PWR 6) 0 + 1))
    ∧ (ph = .on → rail = 1 ∨ rail = 2 → restarts (.railOutOfWindow rail back) 9)
    ∧ (ph = .on → rail < 9 → rail ≠ 1 → rail ≠ 2 → Answers (.railOutOfWindow rail false) s fun t =>
        bitOf (t.getF R.PWR_RAILS_PGOOD 0) rail = false ∧ t.mem = s.dev.mem ∧ t.cells = s.dev.cells ∧ t.pwr = s.dev.pwr)
    ∧ (ph = .on → rail < 9 → bitOf (s.dev.getF R.PWR_RAILS_PGOOD 0) rail = false → restarts (.railFaultTimeout rail) 11)
    ∧ (bitOf (s.dev.getF R.PWR_RAILS_PGOOD 0) rail = true → Answers (.railFaultTimeout rail) s same)
    ∧ (ph = .on → group < 4 → trips (.thermalTrip group) ∧ trips (.sensorNoValueTimeout group))
    ∧ (ph ≠ .on → Answers (.thermalTrip group) s same ∧ Answers (.sensorNoValueTimeout group) s same)
    ∧ (s.dev.pwr.tripped = true → Answers .thermalRestart s fun t =>
        t = { s.dev with pwr := { s.dev.pwr with tripped := false, phase := .sequencing } })
    ∧ (s.dev.pwr.tripped = false → Answers .thermalRestart s same)
    ∧ (s.own.mayWrite w = true → s.dev.up = true → Reboots (.cold w 0xC01D) s fun t => ColdReset s t .on 2)
    ∧ (key ≠ 0xC01D → Answers (.cold w key) s same)

/-- R300, R303, R392 to R394, R460, R462, R472, R481, R538: each trigger of a warm reset holds every block and keeps memory and
the fields of R462; a second trigger replaces the cause that ranks behind it; WARM_RESET releases the blocks unless the
reset pin is low. -/
def Obligations.WarmResetsKeepMemory : Prop :=
  ∀ (s : State) (w : Writer) (rail : Nat), s.dev.pwr.phase = .on →
    let recovers := s.dev.mustRecover
    let warm (i : Instr) (q : Nat → Prop) : Prop := Reboots i s fun t =>
      t.pwr.held = true ∧ t.up = false ∧ t.getF R.PWR_RESET_CAUSE_TYPE 0 = 2 ∧ q (t.getF R.PWR_RESET_CAUSE_CAUSE 0)
        ∧ (s.dev.harvest.journal = [] → t.mem.bytes = s.dev.mem.bytes ∧ t.mem.valid = s.dev.mem.valid
            ∧ t.mem.poison = s.dev.mem.poison ∧ t.mem.rowCe = s.dev.mem.rowCe)
        ∧ (∀ f ∈ keptFields, t.getF f 0 = s.dev.getF f 0)
        ∧ t.getF R.FLW_RT_STATUS_CODE 0 = (if s.dev.getF R.FLW_RT_STATUS_CODE 0 = 2 then 2 else 0) ∧ t.cells = [] ∧ t.fab = Fabric.reset ∧ t.jobActive = false
        ∧ t.getF R.SOW_RECOVERY_PHASE 0 = b2n recovers
    let by' (i : Instr) (cause : Nat) : Prop := warm i (fun c => c = cause)
    let mcReset (i : Instr) : Prop := s.dev.up = true → s.dev.pwr.booted = true →
      (2 ≤ s.dev.pwr.mcResets.length → by' i 6)
        ∧ (s.dev.pwr.mcResets.length < 2 → Answers i s fun t => t.pwr.mcResets = s.dev.pwr.mcResets ++ [0]
            ∧ t.getF R.PWR_MC_RESETS_600S 0 = s.dev.pwr.mcResets.length + 1 ∧ t.errBit PWR 0 4 = true ∧ t.mem = s.dev.mem
            ∧ t.cells = s.dev.cells)
    (s.own.mayWrite w = true → s.dev.up = true → by' (.glbSoftReset w) 3)
    ∧ (s.dev.up = true → s.dev.pwr.booted = true → s.dev.pwr.handover = false → by' .mcWatchdogExpiry 4)
    ∧ (s.dev.pwr.booted = false → Answers .mcWatchdogExpiry s fun t => t = s.dev)
    ∧ (s.dev.pwr.held = false → rail < 9 → rail ≠ 1 → rail ≠ 2 → by' (.railOutOfWindow rail true) 5)
    ∧ (s.dev.pwr.held = false → by' (.moduleResetPin true) 7)
    ∧ (s.dev.pwr.held = false → by' .rootPllLossOfLock 8)
    ∧ mcReset .mcSramUncorrectable ∧ mcReset (.sramUncorrectable .mcSram)
    ∧ (s.dev.up = true → warm (.sramUncorrectable .responsePool) (fun _ => True) ∧ warm (.sramUncorrectable .ownerState) (fun _ => True))
    ∧ (s.dev.pwr.held = true → s.dev.pwr.resetType = 2 → causeRank 8 < causeRank s.dev.pwr.resetCause →
        Answers .rootPllLossOfLock s fun t => t.getF R.PWR_RESET_CAUSE_CAUSE 0 = 8 ∧ t.pwr.held = true ∧ t.mem = s.dev.mem)
    ∧ (s.dev.pwr.held = true → s.dev.pwr.resetType = 2 → causeRank s.dev.pwr.resetCause ≤ causeRank 8 →
        Answers .rootPllLossOfLock s fun t => t = s.dev)
    ∧ (s.dev.pwr.held = true → s.dev.pins.mrstLow = false → Answers .warmReset s fun t =>
        t.up = true ∧ t.mem = s.dev.mem ∧ t.cells = s.dev.cells
          ∧ (s.dev.pwr.recovering = true → t.getF R.SOW_RECOVERY_PHASE 0 = 2))
    ∧ (s.dev.pwr.held = false ∨ s.dev.pins.mrstLow = true → Answers .warmReset s fun t => t = s.dev)
    ∧ (s.dev.pwr.held = true → s.dev.pwr.resetType ≠ 2 → Answers (.moduleResetPin false) s fun t =>
        t.up = true ∧ t.pins.mrstLow = false ∧ t.mem = s.dev.mem)
    ∧ (s.dev.pwr.held = true → s.dev.pwr.resetType = 2 → Answers (.moduleResetPin false) s fun t =>
        t = { s.dev with pins := { s.dev.pins with mrstLow := false } })

/-- R457 to R459, R478, R479, R543: a tick of the power policy shows what was measured; while no cell lags, a hot group or
10 ms above the cap raises the divider target, and 1 s of cool readings lowers it unless POLICY_HOLD withholds that, never
below DIV_MIN; a reading at its trip threshold trips. Every tick shows the corrected errors that its sample names on their
pages (R481). -/
def Obligations.PolicyTicksSetTheDivider : Prop :=
  ∀ (s : State) (p : PowerSample), s.dev.up = true → s.dev.pwr.booted = true → s.dev.getF R.PWR_FW_STATUS_BOOT 0 ≠ 2 →
    let old := s.dev.getF R.PWR_CLK_STATUS_TARGET 0
    let cap := s.dev.powerCap
    let tripping := (readings p).any (fun x => decide (x.2.2 ≤ x.1))
    let hot := (readings p).any (fun x => decide (x.2.1 ≤ x.1))
    let above := if cap < p.p1ms then s.dev.pwr.overMs + 1 else 0
    let cool := if 100 * p.p1ms < 85 * cap ∧ ∀ x ∈ readings p, x.1 + 5 ≤ x.2.1 then s.dev.pwr.coolMs + 1 else 0
    let ticks (q : Dev → Prop) : Prop := Answers (.powerPolicyTick p) s fun t =>
      q t ∧ t.getF R.PWR_INPUT_VIN 0 = p.vin % 2 ^ 16 ∧ t.getF R.PWR_POWER_P_1MS 0 = p.p1ms % 2 ^ 16
        ∧ t.getF R.PWR_POWER_P_1S 0 = p.p1s % 2 ^ 16 ∧ t.pwr.overMs = above ∧ t.pwr.coolMs = cool ∧ t.mem.bytes = s.dev.mem.bytes
        ∧ t.mem.valid = s.dev.mem.valid ∧ t.mem.poison = s.dev.mem.poison
        ∧ (∀ x ∈ p.corrected, pageExists x.1.cls x.1.inst = true → x.2 ≠ 0 → t.errBit x.1.cls x.1.inst 3 = true)
        ∧ t.cells = s.dev.cells ∧ t.fab = s.dev.fab
    let target (n : Nat) : Prop := ticks fun t => t.getF R.PWR_CLK_STATUS_TARGET 0 = n
    (tripping = true → Reboots (.powerPolicyTick p) s fun t => ColdReset s t .off 10 ∧ t.faultL = true)
    ∧ (tripping = false → s.dev.pwr.handover = false → (∀ c, (s.dev.cell c).passes = []) → 4 ≤ old → old ≤ 6 →
        (hot = true ∨ 10 ≤ above → target (max (min 6 (old + 1)) s.dev.divMin))
        ∧ (hot = false → above < 10 → 1000 ≤ cool → s.dev.divMin < old → s.dev.held PWR 0 = false → target (old - 1))
        ∧ (hot = false → above < 10 → cool < 1000 ∨ old ≤ s.dev.divMin ∨ s.dev.held PWR 0 = true → target (max old s.dev.divMin)))
    ∧ (tripping = false → s.dev.pwr.handover = false → (∃ c < 1152, s.dev.desig c ≠ 2 ∧ (s.dev.cell c).passes ≠ []
        ∧ s.dev.getF R.CEL_ARRAY_STATUS_DIVIDER c ≠ old) → target old)

/-- R464, R470, R471, R482, R501: BOOT derives the keys of the key engine from the device secret, takes the first valid and compatible combination, shows it and offers the features of R59
and R60; without one, or without the records of the flash, GLB fails; it runs once after each release of the blocks. -/
def Obligations.BootTakesACombination : Prop :=
  ∀ (s : State) (f : BootFindings) (bs : List Nat) (ims : List FwImage), s.dev.up = true →
    let m := s.dev.manifestBank
    let tested := testedUnder (s.dev.manifestOf m) ims
    (s.dev.pwr.booted = false → s.dev.bootCombo.2 = some (bs, ims) → f.recordsLost = false → Answers (.boot f) s fun t =>
      t.pwr.booted = true ∧ t.pwr.running = bs ∧ t.pwr.manifest = m ∧ t.getF R.PWR_FW_STATUS_BOOT 0 = b2n (!tested)
        ∧ t.getF R.PWR_FW_STATUS_SKIPPED 0 = b2n s.dev.bootCombo.1
        ∧ t.featureWord R.GLB_DEV_FEATURES = offeredFeatures tested (stableUnder (s.dev.manifestOf m))
        ∧ (∀ k, k < 4 → t.getF (R.PWR_FW_BUILD k) 0 = (ims[k]?).elim 0 (·.build) % 2 ^ 32)
        ∧ t.pwr.keys = some (IdKeys.derive s.dev.nv.secret) ∧ t.blk GLB 0 ∈ [stReady, stFailed] ∧ t.cells = s.dev.cells)
    ∧ (s.dev.pwr.booted = false → s.dev.bootCombo.2 = none → Answers (.boot f) s fun t =>
        t.blk GLB 0 = stFailed ∧ t.getF R.PWR_FW_STATUS_BOOT 0 = 2 ∧ t.errBit GLB 0 5 = true ∧ t.mem = s.dev.mem
          ∧ t.cells = s.dev.cells)
    ∧ (s.dev.pwr.booted = false → f.recordsLost = true → Answers (.boot f) s fun t =>
        t.blk GLB 0 = stFailed ∧ t.errBit GLB 0 5 = true ∧ t.mem = s.dev.mem ∧ t.cells = s.dev.cells)
    ∧ (s.dev.pwr.booted = true → Answers (.boot f) s fun t => t = s.dev)

/-- R463, R465, R466, R473 to R477: an update reads the image at its source and programs the bank that does not run, or ends with its code; an activation runs the newly
written bank, or is refused with its code; MCF changes through its handover, which a silent new MCF loses. -/
def Obligations.FirmwareUpdatesAndActivates : Prop :=
  ∀ (s : State) (w : Writer) (ty b n : Nat) (win good : Bool) (im : FwImage) (p : PowerSample), s.dev.up = true →
    let code (t : Dev) : Nat := t.getF R.PWR_UPD_STATUS_CODE 0
    let rest (t : Dev) : Prop := t.mem = s.dev.mem ∧ t.cells = s.dev.cells ∧ t.pwr.running = s.dev.pwr.running
    let key := 2 * ty + s.dev.targetBank ty
    (s.own.mayWrite w = true → s.dev.pwr.update = none →
        s.dev.flippedIn s.dev.updateSource (s.dev.getF R.PWR_UPD_LEN_BYTES 0) = [] → Answers (.fwUpdateWrite w good) s fun t =>
      t.pwr.update = some (.write (s.dev.getF R.PWR_UPD_CTRL_TYPE 0)
        (s.dev.inJob s.dev.updateSource (s.dev.getF R.PWR_UPD_LEN_BYTES 0)) (s.dev.sourceImage good)) ∧ code t = 1
        ∧ t.nv = s.dev.nv ∧ rest t)
    ∧ (s.own.mayWrite w = true → s.dev.pwr.update = none → Answers (.fwUpdateWrite w good) s fun t =>
        code t = 1 ∧ t.pwr.update ≠ none ∧ t.cells = s.dev.cells ∧ t.pwr.running = s.dev.pwr.running)
    ∧ (s.own.mayWrite w = true → s.dev.pwr.update ≠ none → Answers (.fwUpdateWrite w good) s fun t =>
        t.pwr = s.dev.pwr ∧ t.errBit PWR 0 0 = true ∧ t.nv = s.dev.nv ∧ rest t)
    ∧ (s.dev.pwr.update = some (.write ty win im) →
        (s.dev.updateCode ty win im = 0 → imageFits ty im = true → Answers (.fwUpdateComplete true) s fun t =>
          t.nv.banks = mput key im s.dev.nv.banks ∧ mfind ty t.pwr.written = some (s.dev.targetBank ty) ∧ code t = 2
            ∧ t.pwr.update = none ∧ rest t)
        ∧ (s.dev.updateCode ty win im = 0 → imageFits ty im = false ∨ good = false → Answers (.fwUpdateComplete good) s fun t =>
          t.nv.banks = mdel key s.dev.nv.banks ∧ code t = 9 ∧ t.errBit PWR 0 20 = true ∧ t.pwr.update = none ∧ rest t)
        ∧ (s.dev.updateCode ty win im ≠ 0 → Answers (.fwUpdateComplete good) s fun t =>
          t.nv.banks = s.dev.nv.banks ∧ code t = s.dev.updateCode ty win im ∧ t.errBit PWR 0 20 = true
            ∧ t.pwr.update = none ∧ rest t))
    ∧ (s.own.mayWrite w = true → s.dev.pwr.update = none → s.dev.getF R.PWR_UPD_CTRL_TYPE 0 = ty → 1 ≤ ty → ty ≤ 4 →
        mfind ty s.dev.pwr.written = some b → s.dev.bank ty b = some im →
        (s.dev.activateCode ty im = 0 → 2 ≤ ty → Answers (.fwActivate w) s fun t =>
          t.pwr.running = listSet s.dev.pwr.running (ty - 1) b ∧ code t = 2 ∧ t.mem = s.dev.mem ∧ t.cells = s.dev.cells)
        ∧ (s.dev.activateCode 1 im = 0 → ty = 1 → Answers (.fwActivate w) s fun t =>
          t.pwr.update = some (.activate 1) ∧ t.pwr.handAsk = some s.dev.step ∧ code t = 1 ∧ rest t)
        ∧ (s.dev.activateCode ty im ≠ 0 → Answers (.fwActivate w) s fun t =>
          code t = s.dev.activateCode ty im ∧ t.pwr = s.dev.pwr ∧ rest t))
    ∧ (s.dev.pwr.handAsk = some n → s.dev.jobActive = false ∨ s.dev.step ≠ n → Answers .mcfHandover s fun t =>
        t = { s.dev with pwr := { s.dev.pwr with handAsk := none, handover := true } })
    ∧ (s.dev.pwr.handAsk = none → Answers .mcfHandover s fun t => t = s.dev)
    ∧ (s.dev.pwr.handover = true → s.dev.pwr.booted = true → s.dev.getF R.PWR_FW_STATUS_BOOT 0 ≠ 2 →
        mfind 1 s.dev.pwr.written = some b → (readings p).all (fun x => decide (x.1 < x.2.2)) = true →
        Answers (.powerPolicyTick p) s fun t =>
          t.pwr.running = listSet s.dev.pwr.running 0 b ∧ t.pwr.handover = false ∧ code t = 2 ∧ t.mem.bytes = s.dev.mem.bytes)
    ∧ (s.dev.pwr.handover = true → Answers .handoverWatchdogTimeout s fun t =>
        code t = 11 ∧ t.pwr.handover = false ∧ t.pwr.update = none ∧ t.errBit PWR 0 21 = true ∧ rest t)
    ∧ (s.dev.pwr.handover = false → Answers .handoverWatchdogTimeout s fun t => t = s.dev)

/-! ### The RAS log, security, the host interface and ownership -/

/-- R497: POP takes the oldest entry of the log, CLEAR_DROPPED clears its count of dropped entries, and RAS_FIRST_CLEAR
clears RAS_FIRST. -/
def RasLogIsReadAndCleared : Prop :=
  ∀ (s : State) (w : Writer), s.own.mayWrite w = true → s.dev.up = true →
    (Answers (.pop w) s fun t => t = { s.dev with rasLog := s.dev.rasLog.tail })
    ∧ (Answers (.clearDropped w) s fun t => t.getF R.RAS_LOG_STATUS_DROPPED 0 = 0
        ∧ s.dev.FieldsKept t [R.RAS_LOG_STATUS_DROPPED.key 0] ∧ t = { s.dev with fields := t.fields })
    ∧ (Answers (.rasFirstClear w) s fun t => t.getF R.RAS_FIRST_LO_ENTRY 0 = 0 ∧ t.getF R.RAS_FIRST_HI_STEP 0 = 0
        ∧ s.dev.FieldsKept t [R.RAS_FIRST_LO_ENTRY.key 0, R.RAS_FIRST_HI_STEP.key 0] ∧ t = { s.dev with fields := t.fields })

/-- R37 to R43, R47, R49, R497: bad accesses are recorded, counters latch, written values act, the RAS log is read. -/
def Obligations.AccessesAndRecords : Prop := BadAccessesAreRecorded ∧ CounterReadsLatchAndWrittenValuesAct ∧ RasLogIsReadAndCleared

/-- R503 to R505, R507 to R509, R513 to R515: a report that is not refused uses a token and a leaf and goes to SEC_DST, or
back on the flow that asked; where the flash fails, the signature is withheld; the certificate goes to SEC_DST; a token comes back, up to 8; a floor rises to the SVN of the
image in use. -/
def Obligations.AttestationSignsReports : Prop :=
  ∀ (s : State) (w : Writer) (p : Packet) (typ b : Nat) (im : FwImage), s.dev.up = true →
    let flash (good : Bool) : FlashCmd := ⟨w, good⟩
    let a := s.dev.secDst
    let code (t : Dev) : Nat := t.getF R.SEC_CMD_STAT_CODE 0
    let tokens := s.dev.getF R.SEC_CMD_STAT_TOKENS 0
    let report (nonce : List Byte) := s.dev.report s.dev.nv.lmsQ nonce
    let refused (t : Dev) (n : Nat) : Prop := code t = n ∧ t.errBit SEC 0 19 = true ∧ t.nv = s.dev.nv ∧ t.mem = s.dev.mem
    let asks : Prop := InSequence s p ∧ p.opc = 0x30 ∧ p.attr % 256 = 0x40
    let open' : Prop := s.dev.actF R.SEC_TRUST_CTRL_PEER_ATTEST 0 = 1 ∧ (s.dev.isPartner p.src || s.dev.liveNeighbour p.src) = true
    let k := typ % 8
    let old := s.dev.floorOf k
    let new := min im.svn 64
    let svn (t : Dev) : Nat := t.getF R.SEC_SVN_STATUS_CODE 0
    (s.own.mayWrite w = true →
      (s.dev.inJob a 3692 = true → s.dev.reportCode = 0 → tokens ≤ 8 → Answers (.attest (flash true)) s fun t =>
        code t = 2 ∧ t.mem = (s.dev.write a (report (s.dev.words12 R.SEC_NONCE))).mem ∧ t.nv.lmsQ = s.dev.nv.lmsQ + 1
          ∧ t.getF R.SEC_CMD_STAT_TOKENS 0 = tokens - 1 ∧ t.cells = s.dev.cells)
      ∧ (s.dev.inJob a 3692 = true → s.dev.reportCode = 0 → Answers (.attest (flash false)) s fun t =>
        code t = 7 ∧ t.errBit SEC 0 19 = true ∧ t.mem = s.dev.mem ∧ s.dev.nv.lmsQ ≤ t.nv.lmsQ)
      ∧ (∀ good, s.dev.inJob a 3692 = false → Answers (.attest (flash good)) s fun t => refused t 5)
      ∧ (∀ good, s.dev.inJob a 3692 = true → s.dev.reportCode ≠ 0 → Answers (.attest (flash good)) s fun t => refused t s.dev.reportCode)
      ∧ (s.dev.inJob a 4096 = true → Answers (.cert w) s fun t =>
        code t = 2 ∧ t.mem = (s.dev.write a (fitBytes 4096 s.dev.nv.certificate)).mem ∧ t.nv = s.dev.nv ∧ t.cells = s.dev.cells)
      ∧ (s.dev.inJob a 4096 = false → Answers (.cert w) s fun t => refused t 5))
    ∧ (Answers .attestTokenRefill s fun t => t.getF R.SEC_CMD_STAT_TOKENS 0 = min 8 (tokens + 1)
        ∧ s.dev.FieldsKept t [R.SEC_CMD_STAT_TOKENS.key 0] ∧ t = { s.dev with fields := t.fields })
    ∧ (asks → open' → s.dev.reportCode = 0 → Answers (.attestReq ⟨p, true⟩) s fun t =>
        t.nv.lmsQ = s.dev.nv.lmsQ + 1 ∧ t.mem = s.dev.mem ∧ ∀ f, t.flowKind p.src 3 = some f →
          Queued t f 0x41 fun x => x.status = 2 ∧ x.payload = report p.payload)
    ∧ (asks → open' → s.dev.reportCode = 0 → Answers (.attestReq ⟨p, false⟩) s fun t =>
        t.mem = s.dev.mem ∧ t.errBit SEC 0 19 = true ∧ s.dev.nv.lmsQ ≤ t.nv.lmsQ ∧ ∀ f, t.flowKind p.src 3 = some f →
          Queued t f 0x41 fun x => x.status = 7)
    ∧ (∀ good, asks → open' → s.dev.reportCode ≠ 0 → Answers (.attestReq ⟨p, good⟩) s fun t =>
        t.nv = s.dev.nv ∧ t.mem = s.dev.mem ∧ ∀ f, t.flowKind p.src 3 = some f →
          Queued t f 0x41 fun x => x.status = s.dev.reportCode)
    ∧ (∀ good, asks → ¬ open' → Answers (.attestReq ⟨p, good⟩) s fun t => t.nv = s.dev.nv ∧ t.mem = s.dev.mem
        ∧ ∃ x ∈ (t.flow p.dstFlow).unacked ++ (t.flow p.dstFlow).waiting, x.opc = 8 ∧ x.status = 5 ∧ x.tag = p.tag)
    ∧ (InSequence s p → p.opc = 0x30 → p.attr % 256 = 0x41 → Answers (.attestResp p) s fun t =>
        (t.flow p.dstFlow).rxSeq = ((s.dev.flow p.dstFlow).rxSeq + 1) % 2 ^ 32 ∧ t.nv = s.dev.nv ∧ t.mem = s.dev.mem)
    ∧ (s.own.mayWrite w = true → 1 ≤ k → k ≤ 5 →
        (s.dev.jobActive = true → Answers (.svnCommit w typ) s fun t => svn t = 3 ∧ t.nv = s.dev.nv)
        ∧ (s.dev.jobActive = false → s.dev.svnImage k = some (b, im) →
          let other := (s.dev.validBank k (1 - b)).elim false (fun x => decide (x.svn < new))
          (other = true → Answers (.svnCommit w typ) s fun t => svn t = 4 ∧ t.nv = s.dev.nv)
          ∧ (other = false → new ≤ old → Answers (.svnCommit w typ) s fun t => svn t = 5 ∧ t.nv = s.dev.nv)
          ∧ (other = false → old < new → Answers (.svnCommit w typ) s fun t => svn t = 2
            ∧ t.nv = { s.dev.nv with svnFloors := listSet s.dev.nv.svnFloors (k - 1) new } ∧ t.mem = s.dev.mem)))

/-- R510 to R513: a probe is answered with this module's fingerprint; a reply whose fingerprint does not match closes the
flow that was probed; AUTHORISE installs an entry of the trust table, REVOKE empties one, neither does where the
flash fails, and the table is cleared outside a job only. -/
def Obligations.TrustTableGovernsPeers : Prop :=
  ∀ (s : State) (w : Writer) (p : Packet), s.dev.up = true →
    let dev := s.dev.getF R.SEC_AUTH_DEV_DEVICE 0
    let w' := s.dev.flow p.op1
    let good := (s.dev.compareTrust 2 0 p.src (p.payload.take 48)).1
    let ended (t : Dev) (tr : NMap (List Byte)) : Prop := t.nv.trust = tr ∧ t.getF R.SEC_AUTH_STATUS_CODE 0 = 2
      ∧ t.getF R.SEC_AUTH_STATUS_DEVICE 0 = dev % 2 ^ R.SEC_AUTH_STATUS_DEVICE.width ∧ t.mem = s.dev.mem ∧ t.cells = s.dev.cells
    let lost (t : Dev) : Prop := t.nv = s.dev.nv ∧ t.getF R.SEC_AUTH_STATUS_CODE 0 = 3 ∧ t.errBit SEC 0 20 = true
      ∧ t.mem = s.dev.mem ∧ t.cells = s.dev.cells
    (InSequence s p → p.opc = 0x30 → p.attr % 256 = 0x42 → Answers (.idProbe p) s fun t =>
      t.mem = s.dev.mem ∧ t.nv = s.dev.nv ∧ ∀ f, t.flowKind p.src 3 = some f →
        Queued t f 0x43 fun x => x.op1 = p.op1 ∧ x.payload = s.dev.ownPrint)
    ∧ (InSequence s p → p.opc = 0x30 → p.attr % 256 = 0x43 → w'.state ≠ 0 → w'.peer = p.src →
        (good = true → Answers (.idReply p) s fun t => (t.flow p.op1).state = w'.state ∧ t.mem = s.dev.mem ∧ t.cells = s.dev.cells)
        ∧ (good = false → Answers (.idReply p) s fun t => (t.flow p.op1).state = 0 ∧ t.errBit SEC 0 16 = true ∧ t.nv = s.dev.nv))
    ∧ (s.own.mayWrite w = true →
        (Answers (.authorise ⟨w, true⟩) s fun t => ended t (mput dev (s.dev.words12 R.SEC_AUTH_FP) s.dev.nv.trust))
        ∧ (Answers (.authorise ⟨w, false⟩) s lost) ∧ (Answers (.revoke ⟨w, false⟩) s lost)
        ∧ (s.dev.getF R.SEC_TRUST_CTRL_ENROLL 0 = 0 → Answers (.revoke ⟨w, true⟩) s fun t => ended t (mdel dev s.dev.nv.trust))
        ∧ (s.dev.jobActive = false → Answers (.trustTableClear w) s fun t => t = { s.dev with nv := { s.dev.nv with trust := [] } })
        ∧ (s.dev.jobActive = true → Answers (.trustTableClear w) s fun t => t.nv = s.dev.nv ∧ t.errBit SEC 0 0 = true ∧ t.mem = s.dev.mem))

/-- R519 to R521, R531 to R533: doorbells and ring enables of the owner act on the ring, another port's are dropped; BAR2
reads and writes local memory in the ranges open to it; link events show in PCI_LINK; a port reset takes its page back to
its reset values and disables its rings, whose last completions still go to the old addresses. -/
def Obligations.PortsServeTheHost : Prop :=
  ∀ (s : State) (port ring v kind log2 off len width speed : Nat) (irq : Bool) (data : List Byte), s.dev.up = true → port < 2 →
    let r := s.dev.ring port ring
    let owner := s.own.isOwner port
    let a := s.dev.bar2Addr port off
    let rest (t : Dev) : Prop := t.mem = s.dev.mem ∧ t.cells = s.dev.cells
    let kept (t : Dev) : Prop := t.pci = s.dev.pci ∧ rest t
    let held (n : Nat) : Prop := off + n ≤ s.dev.bar2Size port
    let dropped (i : Instr) : Prop := Answers i s fun t => kept t ∧ t.errBit PCI port 19 = true
    let distance := (2 ^ 32 + v % 2 ^ 32 - r.head % 2 ^ 32) % 2 ^ 32
    let enable := Instr.ringEnable port ring kind log2 irq
    (owner = false → dropped (.sqTail port ring v) ∧ dropped (.cqHead port ring v))
    ∧ (owner = true → r.enabled = true →
        (distance ≤ r.size → Answers (.sqTail port ring v) s fun t => t = s.dev.setRing port ring { r with tail := v % 2 ^ 32 })
        ∧ (r.size < distance → Answers (.sqTail port ring v) s kept)
        ∧ (Answers (.cqHead port ring v) s fun t => t = s.dev.setRing port ring { r with cqHead := v % 2 ^ 32 }))
    ∧ (owner = true → r.enabled = false → (Answers (.sqTail port ring v) s fun t => t = s.dev)
        ∧ Answers (.cqHead port ring v) s fun t => t = s.dev)
    ∧ (1 ≤ ring → ring < 256 →
        (r.enabled = true → Answers enable s fun t => kept t ∧ t.errBit PCI port 0 = true)
        ∧ (r.enabled = false → owner = false ∨ kind % 8 = 0 ∨ (kind % 8 = 1 ∧ s.dev.jobRingOn = true) →
          Answers enable s fun t => kept t ∧ t.errBit PCI port 21 = true)
        ∧ (r.enabled = false → owner = true → kind % 8 ≠ 0 → (kind % 8 = 1 → s.dev.jobRingOn = false) →
          Answers enable s fun t => rest t ∧ t.ring port ring = { r with
            enabled := true, kind := kind % 8, log2 := log2 % 32, irq := irq, head := 0, tail := 0, cqHead := 0, cqTail := 0
            fault := false } ∧ ∀ p' k, ringKey p' k ≠ ringKey port ring → t.ring p' k = s.dev.ring p' k))
    ∧ (held data.length → owner = true → s.dev.localOk a data.length = true → Answers (.bar2Write port off data) s fun t =>
        t.mem = (s.dev.write a data).mem ∧ t.cells = s.dev.cells)
    ∧ (held data.length → owner = true → s.dev.localOk a data.length = false → Answers (.bar2Write port off data) s fun t =>
        kept t ∧ t.errBit PCI port 20 = true)
    ∧ (owner = false → Answers (.bar2Write port off data) s kept)
    ∧ (¬ held data.length → Answers (.bar2Write port off data) s fun t => t = s.dev)
    ∧ (¬ held len → Answers (.bar2Read port off len) s fun t => t = s.dev)
    ∧ (held len → s.dev.flippedIn a (min len (memTop - a)) = [] → Answers (.bar2Read port off len) s fun t => kept t
        ∧ Out.bytes (s.dev.bytes a len) (s.dev.poisonIn a (min len (memTop - a))).isSome ∈ t.out)
    ∧ (held len → Answers (.bar2Read port off len) s fun t => t.pci = s.dev.pci ∧ t.mem.bytes = s.dev.mem.bytes ∧ t.cells = s.dev.cells
        ∧ ∃ bad, Out.bytes (s.dev.bytes a len) bad ∈ t.out
          ∧ (s.dev.poisonedIn a (min len (memTop - a)) ≠ [] → bad = true))
    ∧ (Answers (.linkDown port) s fun t => kept t ∧ t.getF R.PCI_LINK_UP port = 0 ∧ t.errBit PCI port 16 = true)
    ∧ (Answers (.pcieLinkUp port width speed) s fun t => kept t ∧ t.getF R.PCI_LINK_UP port = 1
        ∧ t.getF R.PCI_LINK_WIDTH port = width % 2 ^ R.PCI_LINK_WIDTH.width
        ∧ t.getF R.PCI_LINK_SPEED port = speed % 2 ^ R.PCI_LINK_SPEED.width)
    ∧ (Answers (.pciePortReset port) s fun t => rest t ∧ (∀ k, k < 256 → t.ring port k = Ring.reset
          ∧ ((s.dev.ring port k).enabled = true → (t.completionRing port k).cqBase = (s.dev.ring port k).cqBase))
        ∧ (∀ f ∈ R.fieldsOf PCI, f ≠ R.PCI_JOB_NEXT → t.getF f port = f.reset))

/-- R56, R529, R530, R532: CLAIM, REQUEST, GRANT, DENY, RELEASE and the ownership timeout; a transfer aborts the sets that
are staged but not armed and disables the rings of the port that loses the device. -/
def Obligations.OwnershipChangesHands : Prop :=
  ∀ (s : State) (port : Nat), s.dev.up = true → port < 2 →
    let o := s.own
    let mine := o.isOwner port
    let becomes (i : Instr) (o' : Own) (q : Dev → Prop) : Prop :=
      ∃ t, exec i s = .next t ∧ t.pending = s.pending ∧ t.own = o' ∧ q t.dev ∧ t.dev.mem = s.dev.mem ∧ t.dev.cells = s.dev.cells
    let changed (t : Dev) : Prop := t.errBit PCI 0 22 = true ∧ t.errBit PCI 1 22 = true
    let same (i : Instr) : Prop := Answers i s fun t => t = s.dev
    let passes (i : Instr) : Prop := becomes i ⟨o.requester, 0, false⟩ fun t => changed t
      ∧ (∀ e ∈ t.shadow, (mfind (keyPage e.1) s.dev.armed).isSome = true)
      ∧ (o.owner ≠ 0 → ∀ k, k < 256 → (t.ring (o.owner - 1) k).enabled = false)
    let mayAsk : Prop := o.owner ≠ port + 1 ∧ (s.dev.feature 9 = true ∨ s.dev.jobActive = false)
    (o.owner = 0 → becomes (.claim port)
      (if o.pending = true ∧ o.requester = port + 1 then ⟨port + 1, 0, false⟩ else { o with owner := port + 1 }) changed)
    ∧ (o.owner ≠ 0 → same (.claim port))
    ∧ (mayAsk → becomes (.request port) { o with requester := port + 1, pending := true } fun t => t = s.dev.vectors 0)
    ∧ (¬ mayAsk → same (.request port))
    ∧ (mine = true → o.pending = true → passes (.grant port)
        ∧ becomes (.deny port) { o with requester := 0, pending := false } fun t => t = s.dev.vectors 0)
    ∧ (mine = false ∨ o.pending = false → same (.grant port) ∧ same (.deny port))
    ∧ (mine = true → becomes (.release port) ⟨0, 0, false⟩ changed) ∧ (mine = false → same (.release port))
    ∧ (o.pending = true → s.dev.actF R.PCI_OWN_TIMEOUT_SECONDS 0 ≠ 0 → passes .ownershipTimeout)
    ∧ (o.pending = false ∨ s.dev.actF R.PCI_OWN_TIMEOUT_SECONDS 0 = 0 → same .ownershipTimeout)
end

