-- ==== Sys2Proof/Laws/Links.lean ====
section
/-! SUPPORT. Laws of a link's flits (R321): a flit that is made carries a good CRC and the fields it was made of. -/

namespace Sys2Proof.Machine

/-- One bit of the CRC-64 keeps 64 bits. -/
theorem crc64Bit_lt {c : Nat} (h : c < 2 ^ 64) : crc64Bit c < 2 ^ 64 := by
  unfold crc64Bit
  split
  · exact Nat.xor_lt_two_pow (Nat.mod_lt _ (by decide)) (by decide)
  · next hb =>
    have h63 : c < 2 ^ 63 := by
      have : ¬ c / 2 ^ 63 % 2 = 1 := by simpa [bitOf, Nat.testBit_eq_decide_div_mod_eq] using hb
      omega
    omega

/-- The running CRC-64 keeps 64 bits. -/
theorem crc64Run_lt : ∀ (bs : List Byte) {c : Nat}, c < 2 ^ 64 → crc64Run c bs < 2 ^ 64
  | [], _, h => h
  | b :: bs, c, h => by
    unfold crc64Run
    apply crc64Run_lt bs
    have hb : c ^^^ b.toNat * 2 ^ 56 < 2 ^ 64 := Nat.xor_lt_two_pow h (by have := b.isLt; omega)
    repeat' first | exact hb | apply crc64Bit_lt

/-- The CRC of a flit has 64 bits. -/
theorem flitCrc_lt (f : Flit) : flitCrc f < 2 ^ 64 := by
  unfold flitCrc
  exact Nat.xor_lt_two_pow (crc64Run_lt _ (by decide)) (by decide)

/-- The tail's fields above its CRC, as `makeFlit` lays them out. -/
def tailHigh (t : Tail) : Nat :=
  t.vl % 8 * 2 ^ 117 + kindCode t.kind * 2 ^ 115 + b2n t.last * 2 ^ 114 + b2n t.nack * 2 ^ 113 + t.seq % 2 ^ 12 * 2 ^ 101
    + t.ack % 2 ^ 12 * 2 ^ 89 + t.crVl % 8 * 2 ^ 86 + t.crCount % 2 ^ 11 * 2 ^ 75

theorem makeFlit_tail (bs : List Byte) (t : Tail) : (makeFlit bs t).tail = tailHigh t + flitCrc ⟨bs, tailHigh t⟩ := rfl
@[simp] theorem makeFlit_bytes (bs : List Byte) (t : Tail) : (makeFlit bs t).bytes = bs := rfl

/-- The CRC of a flit does not read the CRC field. -/
theorem flitCrc_high (bs : List Byte) (v c : Nat) (h : c < 2 ^ 64) (hv : v % 2 ^ 64 = 0) : flitCrc ⟨bs, v + c⟩ = flitCrc ⟨bs, v⟩ := by
  have e : (v + c) / 2 ^ 64 = v / 2 ^ 64 := by omega
  unfold flitCrc
  rw [e]

/-- A flit that is made carries a good CRC. -/
@[simp] theorem crcGood_makeFlit (bs : List Byte) (t : Tail) : crcGood (makeFlit bs t) = true := by
  have hv : tailHigh t % 2 ^ 64 = 0 := by unfold tailHigh; omega
  have hc := flitCrc_lt ⟨bs, tailHigh t⟩
  have e : makeFlit bs t = ⟨bs, tailHigh t + flitCrc ⟨bs, tailHigh t⟩⟩ := rfl
  have m : (tailHigh t + flitCrc ⟨bs, tailHigh t⟩) % 2 ^ 64 = flitCrc ⟨bs, tailHigh t⟩ := by omega
  unfold crcGood
  rw [e, flitCrc_high bs _ _ hc hv]
  simpa using m.symm

/-- A number laid out as the fields of a tail reads back field by field. -/
theorem tail_fields (vl k l n seq ack cr cnt c : Nat) (hk : k < 4) (hl : l < 2) (hn : n < 2) (hc : c < 2 ^ 64) :
    let v := vl % 8 * 2 ^ 117 + k * 2 ^ 115 + l * 2 ^ 114 + n * 2 ^ 113 + seq % 2 ^ 12 * 2 ^ 101 + ack % 2 ^ 12 * 2 ^ 89
      + cr % 8 * 2 ^ 86 + cnt % 2 ^ 11 * 2 ^ 75 + c
    v / 2 ^ 117 % 2 ^ 3 = vl % 8 ∧ v / 2 ^ 115 % 2 ^ 2 = k ∧ v / 2 ^ 114 % 2 = l ∧ v / 2 ^ 113 % 2 = n
      ∧ v / 2 ^ 101 % 2 ^ 12 = seq % 4096 ∧ v / 2 ^ 89 % 2 ^ 12 = ack % 4096 ∧ v / 2 ^ 86 % 2 ^ 3 = cr % 8
      ∧ v / 2 ^ 75 % 2 ^ 11 = cnt % 2048 := by
  omega

/-- The fields of a tail that is made are those it was made of, each cut to its width. -/
theorem tailOf_makeFlit (bs : List Byte) (t : Tail) :
    tailOf (makeFlit bs t).tail = { t with vl := t.vl % 8, seq := t.seq % 4096, ack := t.ack % 4096, crVl := t.crVl % 8,
                                           crCount := t.crCount % 2048 } := by
  have b2 (x : Bool) : b2n x < 2 := by cases x <;> decide
  have k4 : kindCode t.kind < 4 := by cases t.kind <;> decide
  have h := tail_fields t.vl (kindCode t.kind) (b2n t.last) (b2n t.nack) t.seq t.ack t.crVl t.crCount (flitCrc ⟨bs, tailHigh t⟩)
    k4 (b2 _) (b2 _) (flitCrc_lt _)
  have e := makeFlit_tail bs t
  generalize flitCrc ⟨bs, tailHigh t⟩ = c at h e
  unfold tailHigh at e
  rw [e]
  obtain ⟨h1, h2, h3, h4, h5, h6, h7, h8⟩ := h
  obtain ⟨vl, kind, last, nack, seq, ack, crVl, crCount⟩ := t
  simp only [tailOf, bitsOf, bitOf, Nat.testBit_eq_decide_div_mod_eq, h1, h2, h3, h4, h5, h6, h7, h8]
  cases kind <;> cases last <;> cases nack <;> rfl

end Sys2Proof.Machine
end

