-- ==== Sys2Proof/Laws/Store.lean ====
section
/-! SUPPORT. Laws of sparse maps and sparse memory bytes: read after write, other keys unchanged, and the
canonical form that every memory operation keeps. -/

namespace Sys2Proof.Machine

/-! ### Sparse maps -/

@[simp] theorem mfind_nil {α : Type} (k : Nat) : mfind (α := α) k [] = none := rfl

theorem mfind_mput {α : Type} (k j : Nat) (v : α) (m : NMap α) :
    mfind j (mput k v m) = if j = k then some v else mfind j m := by
  induction m with
  | nil => simp [mput, mfind]
  | cons e m ih =>
    simp only [mput]
    split
    · simp [mfind]
    · split
      · simp only [mfind]
        split <;> simp_all
      · simp only [mfind, ih]
        split <;> simp_all [eq_comm]

@[simp] theorem mfind_mput_same {α : Type} (k : Nat) (v : α) (m : NMap α) : mfind k (mput k v m) = some v := by
  simp [mfind_mput]

theorem mfind_mput_other {α : Type} {k j : Nat} (h : j ≠ k) (v : α) (m : NMap α) :
    mfind j (mput k v m) = mfind j m := by
  simp [mfind_mput, h]

theorem mget_mput {α : Type} (d : α) (k j : Nat) (v : α) (m : NMap α) :
    mget d (mput k v m) j = if j = k then v else mget d m j := by
  unfold mget
  rw [mfind_mput]
  split <;> rfl

@[simp] theorem mget_mput_same {α : Type} (d : α) (k : Nat) (v : α) (m : NMap α) : mget d (mput k v m) k = v := by
  simp [mget_mput]

theorem mget_mput_other {α : Type} {k j : Nat} (h : j ≠ k) (d v : α) (m : NMap α) :
    mget d (mput k v m) j = mget d m j := by
  simp [mget_mput, h]

theorem mfind_mdel_other {α : Type} {k j : Nat} (h : j ≠ k) (m : NMap α) : mfind j (mdel k m) = mfind j m := by
  induction m with
  | nil => rfl
  | cons e m ih =>
    simp only [mdel]
    split
    · subst_vars; simp [mfind, h]
    · simp [mfind, ih]

/-! ### The canonical form -/

theorem mem_mput {α : Type} {k : Nat} {v : α} {m : NMap α} {e : Nat × α} (h : e ∈ mput k v m) :
    e = (k, v) ∨ e ∈ m := by
  induction m with
  | nil => simpa [mput] using h
  | cons x m ih =>
    simp only [mput] at h
    split at h
    · simpa using h
    · split at h
      · rcases List.mem_cons.1 h with h | h
        · exact .inl h
        · exact .inr (List.mem_cons_of_mem _ h)
      · rcases List.mem_cons.1 h with h | h
        · exact .inr (h ▸ List.mem_cons_self ..)
        · exact (ih h).imp id (List.mem_cons_of_mem _)

theorem mwf_mput {α : Type} (k : Nat) (v : α) {m : NMap α} (h : mwf m = true) : mwf (mput k v m) = true := by
  simp only [mwf, decide_eq_true_eq] at *
  induction m with
  | nil => simp [mput]
  | cons x m ih =>
    rw [List.pairwise_cons] at h
    simp only [mput]
    split
    · rename_i hk
      refine List.pairwise_cons.2 ⟨fun e he => ?_, List.pairwise_cons.2 h⟩
      rcases List.mem_cons.1 he with he | he
      · exact he ▸ hk
      · exact Nat.lt_trans hk (h.1 e he)
    · split
      · rename_i hk
        exact List.pairwise_cons.2 ⟨fun e he => hk ▸ h.1 e he, h.2⟩
      · refine List.pairwise_cons.2 ⟨fun e he => ?_, ih h.2⟩
        rcases mem_mput he with he | he
        · subst he; show x.1 < k; omega
        · exact h.1 e he

theorem mem_mdel {α : Type} {k : Nat} {m : NMap α} {e : Nat × α} (h : e ∈ mdel k m) : e ∈ m := by
  induction m with
  | nil => simp [mdel] at h
  | cons x m ih =>
    simp only [mdel] at h
    split at h
    · exact List.mem_cons_of_mem _ h
    · rcases List.mem_cons.1 h with h | h
      · exact h ▸ List.mem_cons_self ..
      · exact List.mem_cons_of_mem _ (ih h)

theorem mwf_mdel {α : Type} (k : Nat) {m : NMap α} (h : mwf m = true) : mwf (mdel k m) = true := by
  simp only [mwf, decide_eq_true_eq] at *
  induction m with
  | nil => simp [mdel]
  | cons x m ih =>
    rw [List.pairwise_cons] at h
    simp only [mdel]
    split
    · exact h.2
    · exact List.pairwise_cons.2 ⟨fun e he => h.1 e (mem_mdel he), ih h.2⟩

/-- A byte write keeps the canonical form (R298). -/
theorem bytesWf_setByte (a : Nat) (v : Byte) {m : NMap Byte} (h : bytesWf m = true) : bytesWf (setByte m a v) = true := by
  simp only [bytesWf, Bool.and_eq_true, List.all_eq_true, decide_eq_true_eq] at *
  simp only [setByte]
  split
  · exact ⟨mwf_mdel a h.1, fun e he => h.2 e (mem_mdel he)⟩
  · rename_i hv
    refine ⟨mwf_mput a v h.1, fun e he => ?_⟩
    rcases mem_mput he with he | he
    · subst he; exact hv
    · exact h.2 e he

/-- A run of byte writes keeps the canonical form. -/
theorem bytesWf_setBytes (bs : List Byte) (a : Nat) {m : NMap Byte} (h : bytesWf m = true) :
    bytesWf (setBytes m a bs) = true := by
  induction bs generalizing a m with
  | nil => exact h
  | cons b bs ih => exact ih (a + 1) (bytesWf_setByte a b h)

/-- Taking entries out keeps the canonical form. -/
theorem bytesWf_filter (p : Nat × Byte → Bool) {m : NMap Byte} (h : bytesWf m = true) : bytesWf (m.filter p) = true := by
  simp only [bytesWf, mwf, Bool.and_eq_true, List.all_eq_true, decide_eq_true_eq] at *
  exact ⟨h.1.filter p, fun e he => h.2 e (List.mem_of_mem_filter he)⟩

@[simp] theorem bytesWf_nil : bytesWf [] = true := by decide

/-! ### Bytes -/

theorem mfind_none_of_lt {α : Type} {m : NMap α} {k : Nat} (h : ∀ e ∈ m, k < e.1) : mfind k m = none := by
  induction m with
  | nil => rfl
  | cons x m ih =>
    have hx := h x (List.mem_cons_self ..)
    have hk : ¬ k = x.1 := by omega
    simp only [mfind, if_neg hk]
    exact ih fun e he => h e (List.mem_cons_of_mem _ he)

theorem mfind_mdel_same {α : Type} (k : Nat) {m : NMap α} (h : mwf m = true) : mfind k (mdel k m) = none := by
  simp only [mwf, decide_eq_true_eq] at h
  induction m with
  | nil => rfl
  | cons x m ih =>
    rw [List.pairwise_cons] at h
    simp only [mdel]
    split
    · rename_i hk
      exact mfind_none_of_lt fun e he => hk ▸ h.1 e he
    · rename_i hk
      simp only [mfind, if_neg hk]
      exact ih h.2

/-- A byte read after a byte write in memory in canonical form. -/
theorem byteAt_setByte {m : NMap Byte} (h : bytesWf m = true) (a b : Nat) (v : Byte) :
    byteAt (setByte m a v) b = if b = a then v else byteAt m b := by
  simp only [bytesWf, Bool.and_eq_true] at h
  simp only [byteAt, setByte]
  split
  · split
    · subst_vars; simp [mfind_mdel_same _ h.1]
    · rename_i hb; rw [mfind_mdel_other hb]
  · rw [mfind_mput]; split <;> simp

/-- A byte outside a written run reads as before. -/
theorem byteAt_setBytes_outside (bs : List Byte) {m : NMap Byte} (h : bytesWf m = true) (a b : Nat)
    (hb : b < a ∨ a + bs.length ≤ b) : byteAt (setBytes m a bs) b = byteAt m b := by
  induction bs generalizing a m with
  | nil => rfl
  | cons v bs ih =>
    simp only [List.length_cons] at hb
    simp only [setBytes]
    rw [ih (bytesWf_setByte a v h) (a + 1) (by omega), byteAt_setByte h, if_neg (by omega)]

/-- A byte inside a written run reads as written. -/
theorem byteAt_setBytes_inside (bs : List Byte) {m : NMap Byte} (h : bytesWf m = true) (a k : Nat)
    (hk : k < bs.length) : byteAt (setBytes m a bs) (a + k) = bs[k] := by
  induction bs generalizing a m k with
  | nil => simp at hk
  | cons v bs ih =>
    simp only [setBytes]
    cases k with
    | zero =>
      rw [byteAt_setBytes_outside bs (bytesWf_setByte a v h) (a + 1) (a + 0) (by omega), byteAt_setByte h]
      simp
    | succ k =>
      have := ih (bytesWf_setByte a v h) (a + 1) k (by simpa using hk)
      simpa [Nat.add_assoc, Nat.add_comm 1 k] using this

/-- The run that was written is read back. -/
theorem bytesAt_setBytes (bs : List Byte) {m : NMap Byte} (h : bytesWf m = true) (a : Nat) :
    bytesAt (setBytes m a bs) a bs.length = bs := by
  induction bs generalizing a m with
  | nil => rfl
  | cons v bs ih =>
    simp only [List.length_cons, bytesAt, setBytes]
    rw [ih (bytesWf_setByte a v h) (a + 1),
      byteAt_setBytes_outside bs (bytesWf_setByte a v h) (a + 1) a (by omega), byteAt_setByte h]
    simp

@[simp] theorem leBytes_length (n v : Nat) : (leBytes n v).length = n := by
  induction n generalizing v with
  | zero => rfl
  | succ n ih => simp [leBytes, ih]

/-- R6: the little-endian bytes of a number read back as the number, cut to their width. -/
theorem leNat_leBytes (n v : Nat) : leNat (leBytes n v) = v % 256 ^ n := by
  induction n generalizing v with
  | zero => simp [leBytes, leNat, Nat.mod_one]
  | succ n ih =>
    have h : leNat (leBytes (n + 1) v) = v % 256 + 256 * leNat (leBytes n (v / 256)) := rfl
    rw [h, ih, Nat.pow_succ', Nat.mod_mul]
theorem crc32Bit_lt {c : Nat} (h : c < 2 ^ 32) : crc32Bit c < 2 ^ 32 := by
  unfold crc32Bit
  split
  · exact Nat.xor_lt_two_pow (by omega) (by decide)
  · omega
theorem crc32Run_nil (c : Nat) : crc32Run c [] = c := rfl
theorem crc32Run_cons (c : Nat) (b : Byte) (bs : List Byte) : crc32Run c (b :: bs) =
    crc32Run (crc32Bit (crc32Bit (crc32Bit (crc32Bit (crc32Bit (crc32Bit (crc32Bit (crc32Bit (c ^^^ b.toNat))))))))) bs := rfl
theorem crc32Run_lt (bs : List Byte) : ∀ {c : Nat}, c < 2 ^ 32 → crc32Run c bs < 2 ^ 32 := by
  induction bs with
  | nil => intro c h; rw [crc32Run_nil]; exact h
  | cons b bs ih =>
    intro c h
    rw [crc32Run_cons]
    refine ih ?_
    have hb : c ^^^ b.toNat < 2 ^ 32 := Nat.xor_lt_two_pow h (by have := b.isLt; omega)
    repeat' first | exact hb | apply crc32Bit_lt
/-- A CRC-32C has 32 bits. -/
theorem crc32c_lt (bs : List Byte) : crc32c bs < 2 ^ 32 := by
  unfold crc32c
  exact Nat.xor_lt_two_pow (crc32Run_lt bs (by decide)) (by decide)

end Sys2Proof.Machine
end

