-- ==== Sys2Proof/Laws/Reports.lean ====
section
/-! SUPPORT. What reporting an error, raising an interrupt and counting can do: they touch register fields, the RAS
log and what goes out, and nothing else. -/

namespace Sys2Proof.Machine

/-- The device differs at most in its register fields, its RAS log and what it has sent out. -/
def Reports (d t : Dev) : Prop := ∃ fs log out, t = { d with fields := fs, rasLog := log, out := out }

namespace Reports

theorem refl (d : Dev) : Reports d d := ⟨_, _, _, rfl⟩

theorem trans {d e t : Dev} (h1 : Reports d e) (h2 : Reports e t) : Reports d t := by
  obtain ⟨_, _, _, rfl⟩ := h1
  obtain ⟨_, _, _, rfl⟩ := h2
  exact ⟨_, _, _, rfl⟩

theorem mem {d t : Dev} (h : Reports d t) : t.mem = d.mem := by obtain ⟨_, _, _, rfl⟩ := h; rfl
theorem cells {d t : Dev} (h : Reports d t) : t.cells = d.cells := by obtain ⟨_, _, _, rfl⟩ := h; rfl
theorem plots {d t : Dev} (h : Reports d t) : t.plots = d.plots := by obtain ⟨_, _, _, rfl⟩ := h; rfl
theorem sow {d t : Dev} (h : Reports d t) : t.sow = d.sow := by obtain ⟨_, _, _, rfl⟩ := h; rfl
theorem ctl {d t : Dev} (h : Reports d t) : t.ctl = d.ctl := by obtain ⟨_, _, _, rfl⟩ := h; rfl
theorem fab {d t : Dev} (h : Reports d t) : t.fab = d.fab := by obtain ⟨_, _, _, rfl⟩ := h; rfl
theorem nv {d t : Dev} (h : Reports d t) : t.nv = d.nv := by obtain ⟨_, _, _, rfl⟩ := h; rfl
theorem pwr {d t : Dev} (h : Reports d t) : t.pwr = d.pwr := by obtain ⟨_, _, _, rfl⟩ := h; rfl
theorem acting {d t : Dev} (h : Reports d t) : t.acting = d.acting := by obtain ⟨_, _, _, rfl⟩ := h; rfl

theorem setF (d : Dev) (f : Field) (i v : Nat) : Reports d (d.setF f i v) := ⟨_, _, _, rfl⟩
theorem emit (d : Dev) (o : Out) : Reports d (d.emit o) := ⟨_, _, _, rfl⟩
theorem satAdd (d : Dev) (f : Field) (i n : Nat) : Reports d (d.satAdd f i n) := setF ..
theorem bump (d : Dev) (c i k n : Nat) : Reports d (d.bump c i k n) := setF ..
theorem vectors (d : Dev) (v : Nat) : Reports d (d.vectors v) := (emit ..).trans (emit ..)

theorem irq (d : Dev) (c i b : Nat) : Reports d (d.irq c i b) := by
  unfold Dev.irq
  dsimp only
  split
  · exact (setF ..).trans (vectors ..)
  · exact setF ..

theorem flagErr (d : Dev) (c i b : Nat) : Reports d (d.flagErr c i b) := by
  unfold Dev.flagErr
  dsimp only
  split
  · exact setF ..
  · split
    · exact ((setF ..).trans (irq ..)).trans (irq ..)
    · exact (setF ..).trans (irq ..)

theorem rasAppend (d : Dev) (w a : Nat) : Reports d (d.rasAppend w a) := by
  unfold Dev.rasAppend
  split
  · exact ⟨_, _, _, rfl⟩
  · exact (satAdd ..).trans (bump ..)

theorem rasNote (d : Dev) (c i b sev act addr : Nat) : Reports d (d.rasNote c i b sev act addr) := by
  unfold Dev.rasNote
  dsimp only
  refine trans ?_ (rasAppend ..)
  split
  · exact setF ..
  · exact ((setF ..).trans (setF ..)).trans (setF ..)

theorem setErrOnce (d : Dev) (c i b sev act addr : Nat) : Reports d (d.setErrOnce c i b sev act addr) := by
  unfold Dev.setErrOnce
  split
  · exact refl d
  · split
    · exact flagErr ..
    · exact (flagErr ..).trans (rasNote ..)

theorem rasFollow (d : Dev) (x y : Bool) : Reports d (d.rasFollow x y) := by
  unfold Dev.rasFollow
  cases x <;> cases y
  · exact refl d
  · exact setErrOnce ..
  · exact setErrOnce ..
  · exact (setErrOnce ..).trans (setErrOnce ..)

theorem setErrFull (d : Dev) (c i b sev act addr : Nat) : Reports d (d.setErrFull c i b sev act addr) := by
  unfold Dev.setErrFull
  have h : Reports d (if b = 3 then d.bump RAS 0 0 1 else d) := by
    split
    · exact bump ..
    · exact refl d
  dsimp only
  refine h.trans ?_
  generalize (if b = 3 then d.bump RAS 0 0 1 else d) = e
  split
  · exact setErrOnce ..
  · exact (setErrOnce ..).trans (rasFollow ..)

theorem setErr (d : Dev) (c i b : Nat) : Reports d (d.setErr c i b) := setErrFull ..
theorem lockedWrite (d : Dev) (c i : Nat) : Reports d (d.lockedWrite c i) := (bump ..).trans (setErr ..)
theorem commitReject (d : Dev) (c i : Nat) : Reports d (d.commitReject c i) := (bump ..).trans (setErr ..)
theorem policyTaken (d : Dev) (c i : Nat) : Reports d (d.policyTaken c i) := irq ..
theorem policyWithheld (d : Dev) (c i : Nat) : Reports d (d.policyWithheld c i) := (irq ..).trans (bump ..)

/-! ### Poison and counted reads (R295 to R297) -/

theorem recordUe (d : Dev) (a n : Nat) : Reports d (d.recordUe a n) := by
  unfold Dev.recordUe
  dsimp only
  split
  · exact refl d
  · exact ((((setF ..).trans (setF ..)).trans (setF ..)).trans (setF ..)).trans (setF ..)

theorem poisonRead (d : Dev) (a : Nat) : Reports d (d.poisonRead a) :=
  ((recordUe ..).trans (setErrFull ..)).trans (setErrFull ..)

theorem rmwDropped (d : Dev) (a : Nat) : Reports d (d.rmwDropped a) :=
  ((recordUe ..).trans (bump ..)).trans (setErrFull ..)

theorem ite {d a b : Dev} {p : Prop} [Decidable p] (ha : Reports d a) (hb : Reports d b) : Reports d (if p then a else b) := by
  split
  · exact ha
  · exact hb

theorem foldl {α : Type} {f : Dev → α → Dev} (h : ∀ e x, Reports e (f e x)) (xs : List α) (d : Dev) :
    Reports d (xs.foldl f d) := by
  induction xs generalizing d with
  | nil => exact refl d
  | cons x xs ih => exact (h d x).trans (ih _)

/-! ### Health (R42, R304, R491, R492) -/

theorem healthFrom (d₀ d : Dev) : Reports d (d₀.healthFrom d) := by
  unfold Dev.healthFrom
  have h : Reports d (if d₀.trlWear = d.trlWear then d else d.irq TRL 0 4) := ite (refl d) (irq ..)
  exact h.trans (ite (refl _) (irq ..))

theorem mark₁ (e : Dev) (c i reason : Nat) : Reports e (if e.getF (R.BLK_HEALTH_REASON c) i = 0
    then (e.setF (R.BLK_HEALTH_REPLACE_REQ c) i 1).setF (R.BLK_HEALTH_REASON c) i reason
    else e.setF (R.BLK_HEALTH_REPLACE_REQ c) i 1) := ite ((setF ..).trans (setF ..)) (setF ..)

/-- REPLACE_REQ and REASON of one page (R491). -/
theorem replaceMark (e : Dev) (c i reason : Nat) : Reports e
    (let e' := e.setF (R.BLK_HEALTH_REPLACE_REQ c) i 1
     let e' := if e.getF (R.BLK_HEALTH_REASON c) i = 0 then e'.setF (R.BLK_HEALTH_REASON c) i reason else e'
     if e.getF (R.BLK_HEALTH_REPLACE_REQ c) i = 1 then e' else e'.irq c i 4) :=
  ite (mark₁ ..) ((mark₁ ..).trans (irq ..))

theorem raiseReplace (d : Dev) (c i reason : Nat) : Reports d (d.raiseReplace c i reason) := by
  unfold Dev.raiseReplace
  extract_lets mark rs e e₁ e₂
  refine ite (refl d) ?_
  have h : Reports d e := (replaceMark d c i reason).trans (replaceMark _ GLB 0 reason)
  exact (((h.trans (setF ..)).trans (ite (setF ..) (refl _))).trans (bump ..)).trans (setErr ..)

theorem memHealth (d₀ d : Dev) (k : Nat) : Reports d (d₀.memHealth d k) := by
  unfold Dev.memHealth
  have h : Reports d (if d₀.memWear k = d.memWear k then d else d.irq MEM k 4) := ite (refl d) (irq ..)
  exact (h.trans (healthFrom ..)).trans (ite ((setErr ..).trans (raiseReplace ..)) (refl _))

end Reports

end Sys2Proof.Machine
end

