-- ==== Sys2Proof/Laws/Memory.lean ====
section
/-! SUPPORT. What each operation on stacked memory can do (R295 to R299, R308, R375): it keeps the canonical form, leaves
every byte outside its range as it was, poisons only words in which two wrong bits stood, and touches no other component
than the register fields, the RAS log, what goes out, the mirror stream's state and the record of retired rows. -/

namespace Sys2Proof.Machine

/-- A byte write leaves every other byte alone, in any memory. -/
theorem byteAt_setByte_other {m : NMap Byte} {a b : Nat} (h : b ≠ a) (v : Byte) : byteAt (setByte m a v) b = byteAt m b := by
  simp only [byteAt, setByte]
  split
  · rw [mfind_mdel_other h]
  · rw [mfind_mput_other h]

/-- A run of byte writes leaves every byte outside it alone, in any memory. -/
theorem byteAt_setBytes_other (bs : List Byte) (m : NMap Byte) (a b : Nat) (hb : b < a ∨ a + bs.length ≤ b) :
    byteAt (setBytes m a bs) b = byteAt m b := by
  induction bs generalizing a m with
  | nil => rfl
  | cons v bs ih =>
    simp only [List.length_cons] at hb
    rw [setBytes, ih _ _ (by omega), byteAt_setByte_other (by omega)]

theorem mfind_filter {α : Type} (p : Nat × α → Bool) (k : Nat) (m : NMap α) (h : ∀ v, p (k, v) = true) :
    mfind k (m.filter p) = mfind k m := by
  induction m with
  | nil => rfl
  | cons x m ih =>
    obtain ⟨k', v⟩ := x
    by_cases hk : k = k'
    · subst hk; simp [h, mfind]
    · rw [List.filter_cons]
      split <;> simp [mfind, hk, ih]

/-- An operation on the `n` bytes at `a` of stacked memory. -/
structure MemWrite (d t : Dev) (a n : Nat) : Prop where
  kept : t = { d with
    mem := t.mem, fields := t.fields, rasLog := t.rasLog, out := t.out, sow := t.sow
    nv := { d.nv with rowRemap := t.nv.rowRemap, bankSpares := t.nv.bankSpares, rowsUsed := t.nv.rowsUsed,
                      rowsUnspared := t.nv.rowsUnspared } }
  wf : d.mem.wf → t.mem.wf
  outside : ∀ b, b < a ∨ a + n ≤ b → byteAt t.mem.bytes b = byteAt d.mem.bytes b
  poison : ∀ w ∈ t.mem.poison, w ∈ d.mem.poison ∨ ∃ v, (w, v) ∈ d.mem.flips ∧ 2 ≤ v
  flips : ∀ e ∈ t.mem.flips, e ∈ d.mem.flips

namespace MemWrite

theorem of_reports {d t : Dev} (a n : Nat) (h : Reports d t) : MemWrite d t a n := by
  obtain ⟨_, _, _, rfl⟩ := h
  exact ⟨rfl, id, fun _ _ => rfl, fun _ h => .inl h, fun _ h => h⟩

/-- Any other memory may stand in what is kept. -/
theorem kept_mem {d t : Dev} {a n : Nat} (h : MemWrite d t a n) (m : Mem) :
    { t with mem := m } = { d with
      mem := m, fields := t.fields, rasLog := t.rasLog, out := t.out, sow := t.sow
      nv := { d.nv with rowRemap := t.nv.rowRemap, bankSpares := t.nv.bankSpares, rowsUsed := t.nv.rowsUsed,
                        rowsUnspared := t.nv.rowsUnspared } } := by
  have e := congrArg (fun x : Dev => { x with mem := m }) h.kept
  exact e

theorem refl (d : Dev) (a n : Nat) : MemWrite d d a n := of_reports a n (Reports.refl d)

theorem mono {d t : Dev} {a n a' n' : Nat} (h : MemWrite d t a n) (h1 : a' ≤ a) (h2 : a + n ≤ a' + n') : MemWrite d t a' n' :=
  ⟨h.kept, h.wf, fun b hb => h.outside b (by omega), h.poison, h.flips⟩

theorem trans {d e t : Dev} {a n : Nat} (h1 : MemWrite d e a n) (h2 : MemWrite e t a n) : MemWrite d t a n := by
  refine ⟨?_, fun h => h2.wf (h1.wf h), fun b hb => (h2.outside b hb).trans (h1.outside b hb), fun w hw => ?_,
    fun x hx => h1.flips x (h2.flips x hx)⟩
  · have e2 := h2.kept
    rw [h1.kept] at e2
    exact e2
  · rcases h2.poison w hw with h | ⟨v, hv, h⟩
    · exact h1.poison w h
    · exact .inr ⟨v, h1.flips _ hv, h⟩

theorem cells {d t : Dev} {a n : Nat} (h : MemWrite d t a n) : t.cells = d.cells := by rw [h.kept]
theorem ctl {d t : Dev} {a n : Nat} (h : MemWrite d t a n) : t.ctl = d.ctl := by rw [h.kept]
theorem acting {d t : Dev} {a n : Nat} (h : MemWrite d t a n) : t.acting = d.acting := by rw [h.kept]
theorem fab {d t : Dev} {a n : Nat} (h : MemWrite d t a n) : t.fab = d.fab := by rw [h.kept]
theorem pwr {d t : Dev} {a n : Nat} (h : MemWrite d t a n) : t.pwr = d.pwr := by rw [h.kept]

/-- A fold of operations inside one range. -/
theorem foldl {α : Type} {f : Dev → α → Dev} {a n : Nat} (xs : List α) (d : Dev)
    (h : ∀ x ∈ xs, ∀ e, MemWrite e (f e x) a n) : MemWrite d (xs.foldl f d) a n := by
  induction xs generalizing d with
  | nil => exact refl d a n
  | cons x xs ih =>
    exact (h x (List.mem_cons_self ..) d).trans (ih _ fun y hy => h y (List.mem_cons_of_mem _ hy))

end MemWrite

/-- Every piece of a run lies inside the run. -/
theorem mem_pieces {unit fuel a : Nat} {bs : List Byte} {p : Nat × List Byte} (h : p ∈ pieces unit fuel a bs) :
    a ≤ p.1 ∧ p.1 + p.2.length ≤ a + bs.length := by
  induction fuel generalizing a bs with
  | zero => simp [pieces] at h
  | succ fuel ih =>
    simp only [pieces] at h
    split at h
    · simp at h
    · rcases List.mem_cons.1 h with h | h
      · subst h
        simp only [List.length_take]
        omega
      · by_cases hb : unit - a % unit ≤ bs.length
        · have := ih h
          simp only [List.length_drop] at this
          omega
        · have hd : bs.drop (unit - a % unit) = [] := List.drop_eq_nil_of_le (by omega)
          rw [hd] at h
          cases fuel <;> simp [pieces] at h

/-- The entry that a key finds stands in the list. -/
theorem mem_of_mfind {α : Type} {k : Nat} {v : α} {m : NMap α} (h : mfind k m = some v) : (k, v) ∈ m := by
  induction m with
  | nil => simp [mfind] at h
  | cons x m ih =>
    obtain ⟨k', v'⟩ := x
    simp only [mfind] at h
    split at h
    · next hk => cases h; subst hk; exact List.mem_cons_self ..
    · exact List.mem_cons_of_mem _ (ih h)

/-- The deletion of a key adds no entry. -/
theorem mem_of_mem_mdel {α : Type} {k : Nat} {x : Nat × α} {m : NMap α} (h : x ∈ mdel k m) : x ∈ m := by
  induction m with
  | nil => simp [mdel] at h
  | cons y m ih =>
    obtain ⟨k', v'⟩ := y
    simp only [mdel] at h
    split at h
    · exact List.mem_cons_of_mem _ h
    · rcases List.mem_cons.1 h with h | h
      · exact h ▸ List.mem_cons_self ..
      · exact List.mem_cons_of_mem _ (ih h)

/-- A member of an extended set. -/
theorem mem_insertSet {k x : Nat} {xs : List Nat} (h : x ∈ insertSet k xs) : x = k ∨ x ∈ xs := by
  induction xs with
  | nil => exact .inl (by simpa [insertSet] using h)
  | cons y ys ih =>
    simp only [insertSet] at h
    split at h
    · simpa using h
    · split at h
      · exact .inr h
      · rcases List.mem_cons.1 h with h | h
        · exact .inr (h ▸ List.mem_cons_self ..)
        · exact (ih h).imp_right (List.mem_cons_of_mem _)

/-- A change of the wrong bits and of the record of rows, which adds no wrong bit. -/
theorem MemWrite.of_rows (d : Dev) (a n : Nat) (rm : NMap Nat) (bs ru rn : NMap Nat) (fs : NMap Nat)
    (h : ∀ e ∈ fs, e ∈ d.mem.flips) :
    MemWrite d { d with
      nv := { d.nv with rowRemap := rm, bankSpares := bs, rowsUsed := ru, rowsUnspared := rn }
      mem := { d.mem with flips := fs } } a n :=
  ⟨rfl, id, fun _ _ => rfl, fun _ h => .inl h, h⟩

/-- A change of the words that count towards a row's retirement. -/
theorem MemWrite.of_rowCe (d : Dev) (a n : Nat) (ce : NMap (List (Nat × Nat))) :
    MemWrite d { d with mem := { d.mem with rowCe := ce } } a n :=
  ⟨rfl, id, fun _ _ => rfl, fun _ h => .inl h, fun _ h => h⟩

/-- The retirement of a row touches the record of rows and what reports it, and may mend single wrong bits (R303, R304). -/
theorem Dev.retireRow_spec (d : Dev) (k off a n : Nat) : MemWrite d (d.retireRow k off) a n := by
  unfold Dev.retireRow
  dsimp only
  split
  · exact .refl d a n
  · split
    · refine MemWrite.trans ?_ (.of_reports a n (((Reports.bump ..).trans (Reports.setErrFull ..)).trans (Reports.memHealth ..)))
      exact .of_rows d a n _ _ _ _ _ fun _ h => List.mem_of_mem_filter h
    · refine MemWrite.trans ?_ (.of_reports a n (Reports.setErr ..))
      exact .of_rows d a n _ _ _ _ _ fun _ h => h

/-- The correction of a word (R295, R303). -/
theorem Dev.correctWord_spec (d : Dev) (w a n : Nat) : MemWrite d (d.correctWord w) a n := by
  unfold Dev.correctWord
  split
  · exact .refl d a n
  · extract_lets k off e row words lim
    have h : MemWrite d e a n := .of_reports a n ((Reports.bump ..).trans (Reports.setErr ..))
    refine h.trans ?_
    clear_value e
    split
    · exact (MemWrite.of_rowCe e a n _).trans (Dev.retireRow_spec ..)
    · exact .of_rowCe e a n _

/-- The poisoning of a word in which two wrong bits stood when the access began (R296). -/
theorem Dev.poisonWord_spec {d₀ d : Dev} {w a n v : Nat} (h : MemWrite d₀ d a n) (hv : (w / 8, v) ∈ d₀.mem.flips) (h2 : 2 ≤ v)
    (source : Nat) : MemWrite d₀ (d.poisonWord w source) a n := by
  unfold Dev.poisonWord
  split
  · exact h
  · extract_lets k w' m e₁ e₂ e₃
    have h₁ : MemWrite d₀ e₁ a n := by
      refine ⟨h.kept_mem _, h.wf, h.outside, fun x hx => ?_, h.flips⟩
      rcases mem_insertSet hx with h' | h'
      · exact .inr ⟨v, h' ▸ hv, h2⟩
      · exact h.poison x h'
    have h₂ : Reports e₁ e₂ := (Reports.recordUe ..).trans (Reports.bump ..)
    have h₃ : Reports e₂ e₃ := .ite ((Reports.setErrFull ..).trans (Reports.setErrFull ..))
      ((Reports.setErrFull ..).trans (Reports.setErrFull ..))
    exact h₁.trans ((MemWrite.of_reports a n (h₂.trans h₃)).trans (Dev.retireRow_spec ..))

/-- An access that reads a word meets its wrong bits (R295, R296). -/
theorem Dev.meetWord_spec (d : Dev) (w source a n : Nat) : MemWrite d (d.meetWord w source) a n := by
  have del : MemWrite d { d with mem := { d.mem with flips := mdel w d.mem.flips } } a n :=
    ⟨rfl, id, fun _ _ => rfl, fun _ h => .inl h, fun _ h => mem_of_mem_mdel h⟩
  unfold Dev.meetWord
  split
  · exact .refl d a n
  · exact del.trans (Dev.correctWord_spec ..)
  · next v h0 h1 =>
    obtain ⟨u, hu⟩ : ∃ u, mfind w d.mem.flips = some u := by
      cases h : mfind w d.mem.flips with
      | none => exact absurd (by simp [mget, h]) h0
      | some u => exact ⟨u, rfl⟩
    have e : mget 0 d.mem.flips w = u := by simp [mget, hu]
    refine Dev.poisonWord_spec del (v := u) ?_ ?_ source
    · rw [Nat.mul_div_cancel w (by decide)]
      exact mem_of_mfind hu
    · have h2 : ∀ z, z ≠ 0 → z ≠ 1 → 2 ≤ z := fun z _ _ => by omega
      exact h2 u (e ▸ h0) (e ▸ h1)

theorem Dev.meetRange_spec (d : Dev) (b m source a n : Nat) : MemWrite d (d.meetRange b m source) a n :=
  .foldl _ d fun _ _ _ => Dev.meetWord_spec ..

/-- A read of a range changes no byte (R295, R296, R313). -/
theorem Dev.noteRead_spec (d : Dev) (a n : Nat) : MemWrite d (d.noteRead a n) a 0 := by
  unfold Dev.noteRead
  dsimp only
  exact ((MemWrite.of_reports _ _ (.foldl (fun _ _ => Reports.bump ..) _ _)).trans (Dev.meetRange_spec ..)).trans
    (.of_reports _ _ (.foldl (fun _ _ => Reports.poisonRead ..) _ _))

/-- A write inside one word (R295 to R297). -/
theorem Dev.writeWord_spec (d : Dev) (a : Nat) (bs : List Byte) : MemWrite d (d.writeWord a bs) a bs.length := by
  unfold Dev.writeWord
  dsimp only
  have h : MemWrite d (if bs.length < 8 then d.meetWord (a / 8) 2 else d) a bs.length := by
    split
    · exact Dev.meetWord_spec ..
    · exact .refl ..
  refine h.trans ?_
  generalize (if bs.length < 8 then d.meetWord (a / 8) 2 else d) = e
  split
  · exact .of_reports _ _ (Reports.rmwDropped ..)
  · exact ⟨rfl, fun h => bytesWf_setBytes bs a h, fun b hb => byteAt_setBytes_other bs _ a b hb,
      fun w hw => .inl (List.mem_of_mem_erase hw), fun _ h => mem_of_mem_mdel h⟩

theorem Dev.queueDelta_spec (d : Dev) (off : Nat) (line : List Byte) (a n : Nat) : MemWrite d (d.queueDelta off line) a n :=
  ⟨rfl, id, fun _ _ => rfl, fun _ h => .inl h, fun _ h => h⟩

/-- The capture of a written line (R375). -/
theorem Dev.capture_spec (d : Dev) (line a n : Nat) : MemWrite d (d.capture line) a n := by
  unfold Dev.capture
  split
  · dsimp only
    have h : ∀ ts, MemWrite d { d with sow := { d.sow with touched := ts } } a n :=
      fun _ => ⟨rfl, id, fun _ _ => rfl, fun _ h => .inl h, fun _ h => h⟩
    split
    · exact (h _).trans (Dev.queueDelta_spec ..)
    · exact h _
  · exact .refl d a n

/-- A write inside one line (R298). -/
theorem Dev.writeLine_spec (d : Dev) (cap : Bool) (a : Nat) (bs : List Byte) : MemWrite d (d.writeLine cap a bs) a bs.length := by
  unfold Dev.writeLine
  dsimp only
  have h1 : ∀ vs, MemWrite d { d with mem := { d.mem with valid := vs } } a bs.length :=
    fun _ => ⟨rfl, id, fun _ _ => rfl, fun _ h => .inl h, fun _ h => h⟩
  have h2 : ∀ e : Dev, MemWrite e ((Machine.pieces 8 9 a bs).foldl (fun d p => d.writeWord p.1 p.2) e) a bs.length := fun e =>
    .foldl _ e fun p hp e' => (Dev.writeWord_spec e' p.1 p.2).mono (mem_pieces hp).1 (mem_pieces hp).2
  have h3 : ∀ e : Dev, ∀ k, MemWrite e (e.bump MEM k 1 bs.length) a bs.length := fun e k => .of_reports _ _ (Reports.bump ..)
  split
  · exact (((h1 _).trans (h2 _)).trans (h3 _ _)).trans (Dev.capture_spec ..)
  · exact ((h1 _).trans (h2 _)).trans (h3 _ _)

/-- A write of a run of bytes (R298, R375). -/
theorem Dev.write_spec (d : Dev) (a : Nat) (bs : List Byte) : MemWrite d (d.write a bs) a bs.length :=
  .foldl _ d fun p hp e => (Dev.writeLine_spec e true p.1 p.2).mono (mem_pieces hp).1 (mem_pieces hp).2

/-- A write that is not captured (R290, R375). -/
theorem Dev.writeRaw_spec (d : Dev) (a : Nat) (bs : List Byte) : MemWrite d (d.writeRaw a bs) a bs.length :=
  .foldl _ d fun p hp e => (Dev.writeLine_spec e false p.1 p.2).mono (mem_pieces hp).1 (mem_pieces hp).2

/-- A staked add (R297, R308). -/
theorem Dev.stakedAdd_spec (d : Dev) (width a q : Nat) : MemWrite d (d.stakedAdd width a q) a (width / 8) := by
  unfold Dev.stakedAdd
  extract_lets n e
  refine (Dev.meetRange_spec d a n 2 a n).trans (?_ : MemWrite e _ a n)
  clear_value e
  split
  · exact .of_reports _ _ (Reports.rmwDropped ..)
  · refine (MemWrite.of_reports a n (Reports.bump e MEM (e.stackOf a) 5 1)).trans ?_
    simpa using Dev.write_spec (e.bump MEM (e.stackOf a) 5 1) a (leBytes n _)

/-- The invalidation of a range (R299). -/
theorem Dev.invalidate_spec (d : Dev) (a n : Nat) : MemWrite d (d.invalidate a n) a n := by
  refine ⟨rfl, fun h => bytesWf_filter _ h, fun b hb => ?_, fun w hw => .inl (List.mem_of_mem_filter hw),
    fun _ h => List.mem_of_mem_filter h⟩
  simp only [Dev.invalidate, byteAt]
  rw [mfind_filter]
  intro v
  simp only [inRange, Bool.not_eq_true', Bool.and_eq_false_iff, decide_eq_false_iff_not]
  omega

/-- Invalidating everything leaves the canonical form (R287). -/
theorem Dev.invalidateAll_wf (d : Dev) : d.invalidateAll.mem.wf := by
  simp [Dev.invalidateAll, Mem.wf]

/-- The clearing of an accumulator area (R271). -/
theorem Dev.clearArea_spec (d : Dev) (a n : Nat) : MemWrite d (d.clearArea a n) a n := by
  refine ⟨rfl, fun h => bytesWf_filter _ h, fun b hb => ?_, fun w hw => .inl (List.mem_of_mem_filter hw),
    fun _ h => List.mem_of_mem_filter h⟩
  simp only [Dev.clearArea, byteAt]
  rw [mfind_filter]
  intro v
  simp only [inRange, Bool.not_eq_true', Bool.and_eq_false_iff, decide_eq_false_iff_not]
  omega

/-- Reset memory is in canonical form. -/
theorem State.reset_mem_wf : State.reset.dev.mem.wf := by decide

end Sys2Proof.Machine
end

