-- ==== Sys2Proof/Laws/State.lean ====
section
/-! SUPPORT. Laws of State: for each elementary update one lemma per field that it leaves alone, and the
frames of the register and state accessors. -/

namespace Sys2Proof.Machine

/-! ### setF -/

@[simp] theorem Dev.setF_fresh (d : Dev) (f : Field) (i v : Nat) : (d.setF f i v).fresh = d.fresh := rfl
@[simp] theorem Dev.setF_acting (d : Dev) (f : Field) (i v : Nat) : (d.setF f i v).acting = d.acting := rfl
@[simp] theorem Dev.setF_shadow (d : Dev) (f : Field) (i v : Nat) : (d.setF f i v).shadow = d.shadow := rfl
@[simp] theorem Dev.setF_latches (d : Dev) (f : Field) (i v : Nat) : (d.setF f i v).latches = d.latches := rfl
@[simp] theorem Dev.setF_armed (d : Dev) (f : Field) (i v : Nat) : (d.setF f i v).armed = d.armed := rfl
@[simp] theorem Dev.setF_groupSeq (d : Dev) (f : Field) (i v : Nat) : (d.setF f i v).groupSeq = d.groupSeq := rfl
@[simp] theorem Dev.setF_testFails (d : Dev) (f : Field) (i v : Nat) : (d.setF f i v).testFails = d.testFails := rfl
@[simp] theorem Dev.setF_nv (d : Dev) (f : Field) (i v : Nat) : (d.setF f i v).nv = d.nv := rfl
@[simp] theorem Dev.setF_pins (d : Dev) (f : Field) (i v : Nat) : (d.setF f i v).pins = d.pins := rfl
@[simp] theorem Dev.setF_ctl (d : Dev) (f : Field) (i v : Nat) : (d.setF f i v).ctl = d.ctl := rfl
@[simp] theorem Dev.setF_plots (d : Dev) (f : Field) (i v : Nat) : (d.setF f i v).plots = d.plots := rfl
@[simp] theorem Dev.setF_cells (d : Dev) (f : Field) (i v : Nat) : (d.setF f i v).cells = d.cells := rfl
@[simp] theorem Dev.setF_sets (d : Dev) (f : Field) (i v : Nat) : (d.setF f i v).sets = d.sets := rfl
@[simp] theorem Dev.setF_mem (d : Dev) (f : Field) (i v : Nat) : (d.setF f i v).mem = d.mem := rfl
@[simp] theorem Dev.setF_sow (d : Dev) (f : Field) (i v : Nat) : (d.setF f i v).sow = d.sow := rfl
@[simp] theorem Dev.setF_harvest (d : Dev) (f : Field) (i v : Nat) : (d.setF f i v).harvest = d.harvest := rfl
@[simp] theorem Dev.setF_train (d : Dev) (f : Field) (i v : Nat) : (d.setF f i v).train = d.train := rfl
@[simp] theorem Dev.setF_fab (d : Dev) (f : Field) (i v : Nat) : (d.setF f i v).fab = d.fab := rfl
@[simp] theorem Dev.setF_pip (d : Dev) (f : Field) (i v : Nat) : (d.setF f i v).pip = d.pip := rfl
@[simp] theorem Dev.setF_media (d : Dev) (f : Field) (i v : Nat) : (d.setF f i v).media = d.media := rfl
@[simp] theorem Dev.setF_mediaWait (d : Dev) (f : Field) (i v : Nat) : (d.setF f i v).mediaWait = d.mediaWait := rfl
@[simp] theorem Dev.setF_thn (d : Dev) (f : Field) (i v : Nat) : (d.setF f i v).thn = d.thn := rfl
@[simp] theorem Dev.setF_pci (d : Dev) (f : Field) (i v : Nat) : (d.setF f i v).pci = d.pci := rfl
@[simp] theorem Dev.setF_pwr (d : Dev) (f : Field) (i v : Nat) : (d.setF f i v).pwr = d.pwr := rfl
@[simp] theorem Dev.setF_numx (d : Dev) (f : Field) (i v : Nat) : (d.setF f i v).numx = d.numx := rfl
@[simp] theorem Dev.setF_rasLog (d : Dev) (f : Field) (i v : Nat) : (d.setF f i v).rasLog = d.rasLog := rfl
@[simp] theorem Dev.setF_out (d : Dev) (f : Field) (i v : Nat) : (d.setF f i v).out = d.out := rfl

/-! ### setAct -/

@[simp] theorem Dev.setAct_fresh (d : Dev) (f : Field) (i v : Nat) : (d.setAct f i v).fresh = d.fresh := rfl
@[simp] theorem Dev.setAct_fields (d : Dev) (f : Field) (i v : Nat) : (d.setAct f i v).fields = d.fields := rfl
@[simp] theorem Dev.setAct_shadow (d : Dev) (f : Field) (i v : Nat) : (d.setAct f i v).shadow = d.shadow := rfl
@[simp] theorem Dev.setAct_latches (d : Dev) (f : Field) (i v : Nat) : (d.setAct f i v).latches = d.latches := rfl
@[simp] theorem Dev.setAct_armed (d : Dev) (f : Field) (i v : Nat) : (d.setAct f i v).armed = d.armed := rfl
@[simp] theorem Dev.setAct_groupSeq (d : Dev) (f : Field) (i v : Nat) : (d.setAct f i v).groupSeq = d.groupSeq := rfl
@[simp] theorem Dev.setAct_testFails (d : Dev) (f : Field) (i v : Nat) : (d.setAct f i v).testFails = d.testFails := rfl
@[simp] theorem Dev.setAct_nv (d : Dev) (f : Field) (i v : Nat) : (d.setAct f i v).nv = d.nv := rfl
@[simp] theorem Dev.setAct_pins (d : Dev) (f : Field) (i v : Nat) : (d.setAct f i v).pins = d.pins := rfl
@[simp] theorem Dev.setAct_ctl (d : Dev) (f : Field) (i v : Nat) : (d.setAct f i v).ctl = d.ctl := rfl
@[simp] theorem Dev.setAct_plots (d : Dev) (f : Field) (i v : Nat) : (d.setAct f i v).plots = d.plots := rfl
@[simp] theorem Dev.setAct_cells (d : Dev) (f : Field) (i v : Nat) : (d.setAct f i v).cells = d.cells := rfl
@[simp] theorem Dev.setAct_sets (d : Dev) (f : Field) (i v : Nat) : (d.setAct f i v).sets = d.sets := rfl
@[simp] theorem Dev.setAct_mem (d : Dev) (f : Field) (i v : Nat) : (d.setAct f i v).mem = d.mem := rfl
@[simp] theorem Dev.setAct_sow (d : Dev) (f : Field) (i v : Nat) : (d.setAct f i v).sow = d.sow := rfl
@[simp] theorem Dev.setAct_harvest (d : Dev) (f : Field) (i v : Nat) : (d.setAct f i v).harvest = d.harvest := rfl
@[simp] theorem Dev.setAct_train (d : Dev) (f : Field) (i v : Nat) : (d.setAct f i v).train = d.train := rfl
@[simp] theorem Dev.setAct_fab (d : Dev) (f : Field) (i v : Nat) : (d.setAct f i v).fab = d.fab := rfl
@[simp] theorem Dev.setAct_pip (d : Dev) (f : Field) (i v : Nat) : (d.setAct f i v).pip = d.pip := rfl
@[simp] theorem Dev.setAct_media (d : Dev) (f : Field) (i v : Nat) : (d.setAct f i v).media = d.media := rfl
@[simp] theorem Dev.setAct_mediaWait (d : Dev) (f : Field) (i v : Nat) : (d.setAct f i v).mediaWait = d.mediaWait := rfl
@[simp] theorem Dev.setAct_thn (d : Dev) (f : Field) (i v : Nat) : (d.setAct f i v).thn = d.thn := rfl
@[simp] theorem Dev.setAct_pci (d : Dev) (f : Field) (i v : Nat) : (d.setAct f i v).pci = d.pci := rfl
@[simp] theorem Dev.setAct_pwr (d : Dev) (f : Field) (i v : Nat) : (d.setAct f i v).pwr = d.pwr := rfl
@[simp] theorem Dev.setAct_numx (d : Dev) (f : Field) (i v : Nat) : (d.setAct f i v).numx = d.numx := rfl
@[simp] theorem Dev.setAct_rasLog (d : Dev) (f : Field) (i v : Nat) : (d.setAct f i v).rasLog = d.rasLog := rfl
@[simp] theorem Dev.setAct_out (d : Dev) (f : Field) (i v : Nat) : (d.setAct f i v).out = d.out := rfl

/-! ### satAdd -/

@[simp] theorem Dev.satAdd_fresh (d : Dev) (f : Field) (i n : Nat) : (d.satAdd f i n).fresh = d.fresh := rfl
@[simp] theorem Dev.satAdd_acting (d : Dev) (f : Field) (i n : Nat) : (d.satAdd f i n).acting = d.acting := rfl
@[simp] theorem Dev.satAdd_shadow (d : Dev) (f : Field) (i n : Nat) : (d.satAdd f i n).shadow = d.shadow := rfl
@[simp] theorem Dev.satAdd_latches (d : Dev) (f : Field) (i n : Nat) : (d.satAdd f i n).latches = d.latches := rfl
@[simp] theorem Dev.satAdd_armed (d : Dev) (f : Field) (i n : Nat) : (d.satAdd f i n).armed = d.armed := rfl
@[simp] theorem Dev.satAdd_groupSeq (d : Dev) (f : Field) (i n : Nat) : (d.satAdd f i n).groupSeq = d.groupSeq := rfl
@[simp] theorem Dev.satAdd_testFails (d : Dev) (f : Field) (i n : Nat) : (d.satAdd f i n).testFails = d.testFails := rfl
@[simp] theorem Dev.satAdd_nv (d : Dev) (f : Field) (i n : Nat) : (d.satAdd f i n).nv = d.nv := rfl
@[simp] theorem Dev.satAdd_pins (d : Dev) (f : Field) (i n : Nat) : (d.satAdd f i n).pins = d.pins := rfl
@[simp] theorem Dev.satAdd_ctl (d : Dev) (f : Field) (i n : Nat) : (d.satAdd f i n).ctl = d.ctl := rfl
@[simp] theorem Dev.satAdd_plots (d : Dev) (f : Field) (i n : Nat) : (d.satAdd f i n).plots = d.plots := rfl
@[simp] theorem Dev.satAdd_cells (d : Dev) (f : Field) (i n : Nat) : (d.satAdd f i n).cells = d.cells := rfl
@[simp] theorem Dev.satAdd_sets (d : Dev) (f : Field) (i n : Nat) : (d.satAdd f i n).sets = d.sets := rfl
@[simp] theorem Dev.satAdd_mem (d : Dev) (f : Field) (i n : Nat) : (d.satAdd f i n).mem = d.mem := rfl
@[simp] theorem Dev.satAdd_sow (d : Dev) (f : Field) (i n : Nat) : (d.satAdd f i n).sow = d.sow := rfl
@[simp] theorem Dev.satAdd_harvest (d : Dev) (f : Field) (i n : Nat) : (d.satAdd f i n).harvest = d.harvest := rfl
@[simp] theorem Dev.satAdd_train (d : Dev) (f : Field) (i n : Nat) : (d.satAdd f i n).train = d.train := rfl
@[simp] theorem Dev.satAdd_fab (d : Dev) (f : Field) (i n : Nat) : (d.satAdd f i n).fab = d.fab := rfl
@[simp] theorem Dev.satAdd_pip (d : Dev) (f : Field) (i n : Nat) : (d.satAdd f i n).pip = d.pip := rfl
@[simp] theorem Dev.satAdd_media (d : Dev) (f : Field) (i n : Nat) : (d.satAdd f i n).media = d.media := rfl
@[simp] theorem Dev.satAdd_mediaWait (d : Dev) (f : Field) (i n : Nat) : (d.satAdd f i n).mediaWait = d.mediaWait := rfl
@[simp] theorem Dev.satAdd_thn (d : Dev) (f : Field) (i n : Nat) : (d.satAdd f i n).thn = d.thn := rfl
@[simp] theorem Dev.satAdd_pci (d : Dev) (f : Field) (i n : Nat) : (d.satAdd f i n).pci = d.pci := rfl
@[simp] theorem Dev.satAdd_pwr (d : Dev) (f : Field) (i n : Nat) : (d.satAdd f i n).pwr = d.pwr := rfl
@[simp] theorem Dev.satAdd_numx (d : Dev) (f : Field) (i n : Nat) : (d.satAdd f i n).numx = d.numx := rfl
@[simp] theorem Dev.satAdd_rasLog (d : Dev) (f : Field) (i n : Nat) : (d.satAdd f i n).rasLog = d.rasLog := rfl
@[simp] theorem Dev.satAdd_out (d : Dev) (f : Field) (i n : Nat) : (d.satAdd f i n).out = d.out := rfl

/-! ### bump -/

@[simp] theorem Dev.bump_fresh (d : Dev) (c i k n : Nat) : (d.bump c i k n).fresh = d.fresh := rfl
@[simp] theorem Dev.bump_acting (d : Dev) (c i k n : Nat) : (d.bump c i k n).acting = d.acting := rfl
@[simp] theorem Dev.bump_shadow (d : Dev) (c i k n : Nat) : (d.bump c i k n).shadow = d.shadow := rfl
@[simp] theorem Dev.bump_latches (d : Dev) (c i k n : Nat) : (d.bump c i k n).latches = d.latches := rfl
@[simp] theorem Dev.bump_armed (d : Dev) (c i k n : Nat) : (d.bump c i k n).armed = d.armed := rfl
@[simp] theorem Dev.bump_groupSeq (d : Dev) (c i k n : Nat) : (d.bump c i k n).groupSeq = d.groupSeq := rfl
@[simp] theorem Dev.bump_testFails (d : Dev) (c i k n : Nat) : (d.bump c i k n).testFails = d.testFails := rfl
@[simp] theorem Dev.bump_nv (d : Dev) (c i k n : Nat) : (d.bump c i k n).nv = d.nv := rfl
@[simp] theorem Dev.bump_pins (d : Dev) (c i k n : Nat) : (d.bump c i k n).pins = d.pins := rfl
@[simp] theorem Dev.bump_ctl (d : Dev) (c i k n : Nat) : (d.bump c i k n).ctl = d.ctl := rfl
@[simp] theorem Dev.bump_plots (d : Dev) (c i k n : Nat) : (d.bump c i k n).plots = d.plots := rfl
@[simp] theorem Dev.bump_cells (d : Dev) (c i k n : Nat) : (d.bump c i k n).cells = d.cells := rfl
@[simp] theorem Dev.bump_sets (d : Dev) (c i k n : Nat) : (d.bump c i k n).sets = d.sets := rfl
@[simp] theorem Dev.bump_mem (d : Dev) (c i k n : Nat) : (d.bump c i k n).mem = d.mem := rfl
@[simp] theorem Dev.bump_sow (d : Dev) (c i k n : Nat) : (d.bump c i k n).sow = d.sow := rfl
@[simp] theorem Dev.bump_harvest (d : Dev) (c i k n : Nat) : (d.bump c i k n).harvest = d.harvest := rfl
@[simp] theorem Dev.bump_train (d : Dev) (c i k n : Nat) : (d.bump c i k n).train = d.train := rfl
@[simp] theorem Dev.bump_fab (d : Dev) (c i k n : Nat) : (d.bump c i k n).fab = d.fab := rfl
@[simp] theorem Dev.bump_pip (d : Dev) (c i k n : Nat) : (d.bump c i k n).pip = d.pip := rfl
@[simp] theorem Dev.bump_media (d : Dev) (c i k n : Nat) : (d.bump c i k n).media = d.media := rfl
@[simp] theorem Dev.bump_mediaWait (d : Dev) (c i k n : Nat) : (d.bump c i k n).mediaWait = d.mediaWait := rfl
@[simp] theorem Dev.bump_thn (d : Dev) (c i k n : Nat) : (d.bump c i k n).thn = d.thn := rfl
@[simp] theorem Dev.bump_pci (d : Dev) (c i k n : Nat) : (d.bump c i k n).pci = d.pci := rfl
@[simp] theorem Dev.bump_pwr (d : Dev) (c i k n : Nat) : (d.bump c i k n).pwr = d.pwr := rfl
@[simp] theorem Dev.bump_numx (d : Dev) (c i k n : Nat) : (d.bump c i k n).numx = d.numx := rfl
@[simp] theorem Dev.bump_rasLog (d : Dev) (c i k n : Nat) : (d.bump c i k n).rasLog = d.rasLog := rfl
@[simp] theorem Dev.bump_out (d : Dev) (c i k n : Nat) : (d.bump c i k n).out = d.out := rfl

/-! ### emit -/

@[simp] theorem Dev.emit_fresh (d : Dev) (o : Out) : (d.emit o).fresh = d.fresh := rfl
@[simp] theorem Dev.emit_fields (d : Dev) (o : Out) : (d.emit o).fields = d.fields := rfl
@[simp] theorem Dev.emit_acting (d : Dev) (o : Out) : (d.emit o).acting = d.acting := rfl
@[simp] theorem Dev.emit_shadow (d : Dev) (o : Out) : (d.emit o).shadow = d.shadow := rfl
@[simp] theorem Dev.emit_latches (d : Dev) (o : Out) : (d.emit o).latches = d.latches := rfl
@[simp] theorem Dev.emit_armed (d : Dev) (o : Out) : (d.emit o).armed = d.armed := rfl
@[simp] theorem Dev.emit_groupSeq (d : Dev) (o : Out) : (d.emit o).groupSeq = d.groupSeq := rfl
@[simp] theorem Dev.emit_testFails (d : Dev) (o : Out) : (d.emit o).testFails = d.testFails := rfl
@[simp] theorem Dev.emit_nv (d : Dev) (o : Out) : (d.emit o).nv = d.nv := rfl
@[simp] theorem Dev.emit_pins (d : Dev) (o : Out) : (d.emit o).pins = d.pins := rfl
@[simp] theorem Dev.emit_ctl (d : Dev) (o : Out) : (d.emit o).ctl = d.ctl := rfl
@[simp] theorem Dev.emit_plots (d : Dev) (o : Out) : (d.emit o).plots = d.plots := rfl
@[simp] theorem Dev.emit_cells (d : Dev) (o : Out) : (d.emit o).cells = d.cells := rfl
@[simp] theorem Dev.emit_sets (d : Dev) (o : Out) : (d.emit o).sets = d.sets := rfl
@[simp] theorem Dev.emit_mem (d : Dev) (o : Out) : (d.emit o).mem = d.mem := rfl
@[simp] theorem Dev.emit_sow (d : Dev) (o : Out) : (d.emit o).sow = d.sow := rfl
@[simp] theorem Dev.emit_harvest (d : Dev) (o : Out) : (d.emit o).harvest = d.harvest := rfl
@[simp] theorem Dev.emit_train (d : Dev) (o : Out) : (d.emit o).train = d.train := rfl
@[simp] theorem Dev.emit_fab (d : Dev) (o : Out) : (d.emit o).fab = d.fab := rfl
@[simp] theorem Dev.emit_pip (d : Dev) (o : Out) : (d.emit o).pip = d.pip := rfl
@[simp] theorem Dev.emit_media (d : Dev) (o : Out) : (d.emit o).media = d.media := rfl
@[simp] theorem Dev.emit_mediaWait (d : Dev) (o : Out) : (d.emit o).mediaWait = d.mediaWait := rfl
@[simp] theorem Dev.emit_thn (d : Dev) (o : Out) : (d.emit o).thn = d.thn := rfl
@[simp] theorem Dev.emit_pci (d : Dev) (o : Out) : (d.emit o).pci = d.pci := rfl
@[simp] theorem Dev.emit_pwr (d : Dev) (o : Out) : (d.emit o).pwr = d.pwr := rfl
@[simp] theorem Dev.emit_numx (d : Dev) (o : Out) : (d.emit o).numx = d.numx := rfl
@[simp] theorem Dev.emit_rasLog (d : Dev) (o : Out) : (d.emit o).rasLog = d.rasLog := rfl

/-! ### setCell -/

@[simp] theorem Dev.setCell_fresh (d : Dev) (p : Nat) (c : Cell) : (d.setCell p c).fresh = d.fresh := rfl
@[simp] theorem Dev.setCell_fields (d : Dev) (p : Nat) (c : Cell) : (d.setCell p c).fields = d.fields := rfl
@[simp] theorem Dev.setCell_acting (d : Dev) (p : Nat) (c : Cell) : (d.setCell p c).acting = d.acting := rfl
@[simp] theorem Dev.setCell_shadow (d : Dev) (p : Nat) (c : Cell) : (d.setCell p c).shadow = d.shadow := rfl
@[simp] theorem Dev.setCell_latches (d : Dev) (p : Nat) (c : Cell) : (d.setCell p c).latches = d.latches := rfl
@[simp] theorem Dev.setCell_armed (d : Dev) (p : Nat) (c : Cell) : (d.setCell p c).armed = d.armed := rfl
@[simp] theorem Dev.setCell_groupSeq (d : Dev) (p : Nat) (c : Cell) : (d.setCell p c).groupSeq = d.groupSeq := rfl
@[simp] theorem Dev.setCell_testFails (d : Dev) (p : Nat) (c : Cell) : (d.setCell p c).testFails = d.testFails := rfl
@[simp] theorem Dev.setCell_nv (d : Dev) (p : Nat) (c : Cell) : (d.setCell p c).nv = d.nv := rfl
@[simp] theorem Dev.setCell_pins (d : Dev) (p : Nat) (c : Cell) : (d.setCell p c).pins = d.pins := rfl
@[simp] theorem Dev.setCell_ctl (d : Dev) (p : Nat) (c : Cell) : (d.setCell p c).ctl = d.ctl := rfl
@[simp] theorem Dev.setCell_plots (d : Dev) (p : Nat) (c : Cell) : (d.setCell p c).plots = d.plots := rfl
@[simp] theorem Dev.setCell_sets (d : Dev) (p : Nat) (c : Cell) : (d.setCell p c).sets = d.sets := rfl
@[simp] theorem Dev.setCell_mem (d : Dev) (p : Nat) (c : Cell) : (d.setCell p c).mem = d.mem := rfl
@[simp] theorem Dev.setCell_sow (d : Dev) (p : Nat) (c : Cell) : (d.setCell p c).sow = d.sow := rfl
@[simp] theorem Dev.setCell_harvest (d : Dev) (p : Nat) (c : Cell) : (d.setCell p c).harvest = d.harvest := rfl
@[simp] theorem Dev.setCell_train (d : Dev) (p : Nat) (c : Cell) : (d.setCell p c).train = d.train := rfl
@[simp] theorem Dev.setCell_fab (d : Dev) (p : Nat) (c : Cell) : (d.setCell p c).fab = d.fab := rfl
@[simp] theorem Dev.setCell_pip (d : Dev) (p : Nat) (c : Cell) : (d.setCell p c).pip = d.pip := rfl
@[simp] theorem Dev.setCell_media (d : Dev) (p : Nat) (c : Cell) : (d.setCell p c).media = d.media := rfl
@[simp] theorem Dev.setCell_mediaWait (d : Dev) (p : Nat) (c : Cell) : (d.setCell p c).mediaWait = d.mediaWait := rfl
@[simp] theorem Dev.setCell_thn (d : Dev) (p : Nat) (c : Cell) : (d.setCell p c).thn = d.thn := rfl
@[simp] theorem Dev.setCell_pci (d : Dev) (p : Nat) (c : Cell) : (d.setCell p c).pci = d.pci := rfl
@[simp] theorem Dev.setCell_pwr (d : Dev) (p : Nat) (c : Cell) : (d.setCell p c).pwr = d.pwr := rfl
@[simp] theorem Dev.setCell_numx (d : Dev) (p : Nat) (c : Cell) : (d.setCell p c).numx = d.numx := rfl
@[simp] theorem Dev.setCell_rasLog (d : Dev) (p : Nat) (c : Cell) : (d.setCell p c).rasLog = d.rasLog := rfl
@[simp] theorem Dev.setCell_out (d : Dev) (p : Nat) (c : Cell) : (d.setCell p c).out = d.out := rfl

/-! ### setPlot -/

@[simp] theorem Dev.setPlot_fresh (d : Dev) (k : Nat) (r : PlotRun) : (d.setPlot k r).fresh = d.fresh := rfl
@[simp] theorem Dev.setPlot_fields (d : Dev) (k : Nat) (r : PlotRun) : (d.setPlot k r).fields = d.fields := rfl
@[simp] theorem Dev.setPlot_acting (d : Dev) (k : Nat) (r : PlotRun) : (d.setPlot k r).acting = d.acting := rfl
@[simp] theorem Dev.setPlot_shadow (d : Dev) (k : Nat) (r : PlotRun) : (d.setPlot k r).shadow = d.shadow := rfl
@[simp] theorem Dev.setPlot_latches (d : Dev) (k : Nat) (r : PlotRun) : (d.setPlot k r).latches = d.latches := rfl
@[simp] theorem Dev.setPlot_armed (d : Dev) (k : Nat) (r : PlotRun) : (d.setPlot k r).armed = d.armed := rfl
@[simp] theorem Dev.setPlot_groupSeq (d : Dev) (k : Nat) (r : PlotRun) : (d.setPlot k r).groupSeq = d.groupSeq := rfl
@[simp] theorem Dev.setPlot_testFails (d : Dev) (k : Nat) (r : PlotRun) : (d.setPlot k r).testFails = d.testFails := rfl
@[simp] theorem Dev.setPlot_nv (d : Dev) (k : Nat) (r : PlotRun) : (d.setPlot k r).nv = d.nv := rfl
@[simp] theorem Dev.setPlot_pins (d : Dev) (k : Nat) (r : PlotRun) : (d.setPlot k r).pins = d.pins := rfl
@[simp] theorem Dev.setPlot_ctl (d : Dev) (k : Nat) (r : PlotRun) : (d.setPlot k r).ctl = d.ctl := rfl
@[simp] theorem Dev.setPlot_cells (d : Dev) (k : Nat) (r : PlotRun) : (d.setPlot k r).cells = d.cells := rfl
@[simp] theorem Dev.setPlot_sets (d : Dev) (k : Nat) (r : PlotRun) : (d.setPlot k r).sets = d.sets := rfl
@[simp] theorem Dev.setPlot_mem (d : Dev) (k : Nat) (r : PlotRun) : (d.setPlot k r).mem = d.mem := rfl
@[simp] theorem Dev.setPlot_sow (d : Dev) (k : Nat) (r : PlotRun) : (d.setPlot k r).sow = d.sow := rfl
@[simp] theorem Dev.setPlot_harvest (d : Dev) (k : Nat) (r : PlotRun) : (d.setPlot k r).harvest = d.harvest := rfl
@[simp] theorem Dev.setPlot_train (d : Dev) (k : Nat) (r : PlotRun) : (d.setPlot k r).train = d.train := rfl
@[simp] theorem Dev.setPlot_fab (d : Dev) (k : Nat) (r : PlotRun) : (d.setPlot k r).fab = d.fab := rfl
@[simp] theorem Dev.setPlot_pip (d : Dev) (k : Nat) (r : PlotRun) : (d.setPlot k r).pip = d.pip := rfl
@[simp] theorem Dev.setPlot_media (d : Dev) (k : Nat) (r : PlotRun) : (d.setPlot k r).media = d.media := rfl
@[simp] theorem Dev.setPlot_mediaWait (d : Dev) (k : Nat) (r : PlotRun) : (d.setPlot k r).mediaWait = d.mediaWait := rfl
@[simp] theorem Dev.setPlot_thn (d : Dev) (k : Nat) (r : PlotRun) : (d.setPlot k r).thn = d.thn := rfl
@[simp] theorem Dev.setPlot_pci (d : Dev) (k : Nat) (r : PlotRun) : (d.setPlot k r).pci = d.pci := rfl
@[simp] theorem Dev.setPlot_pwr (d : Dev) (k : Nat) (r : PlotRun) : (d.setPlot k r).pwr = d.pwr := rfl
@[simp] theorem Dev.setPlot_numx (d : Dev) (k : Nat) (r : PlotRun) : (d.setPlot k r).numx = d.numx := rfl
@[simp] theorem Dev.setPlot_rasLog (d : Dev) (k : Nat) (r : PlotRun) : (d.setPlot k r).rasLog = d.rasLog := rfl
@[simp] theorem Dev.setPlot_out (d : Dev) (k : Nat) (r : PlotRun) : (d.setPlot k r).out = d.out := rfl

/-! ### setPhase -/

@[simp] theorem Dev.setPhase_fresh (d : Dev) (k ph : Nat) (p : PhaseRun) : (d.setPhase k ph p).fresh = d.fresh := rfl
@[simp] theorem Dev.setPhase_fields (d : Dev) (k ph : Nat) (p : PhaseRun) : (d.setPhase k ph p).fields = d.fields := rfl
@[simp] theorem Dev.setPhase_acting (d : Dev) (k ph : Nat) (p : PhaseRun) : (d.setPhase k ph p).acting = d.acting := rfl
@[simp] theorem Dev.setPhase_shadow (d : Dev) (k ph : Nat) (p : PhaseRun) : (d.setPhase k ph p).shadow = d.shadow := rfl
@[simp] theorem Dev.setPhase_latches (d : Dev) (k ph : Nat) (p : PhaseRun) : (d.setPhase k ph p).latches = d.latches := rfl
@[simp] theorem Dev.setPhase_armed (d : Dev) (k ph : Nat) (p : PhaseRun) : (d.setPhase k ph p).armed = d.armed := rfl
@[simp] theorem Dev.setPhase_groupSeq (d : Dev) (k ph : Nat) (p : PhaseRun) : (d.setPhase k ph p).groupSeq = d.groupSeq := rfl
@[simp] theorem Dev.setPhase_testFails (d : Dev) (k ph : Nat) (p : PhaseRun) : (d.setPhase k ph p).testFails = d.testFails := rfl
@[simp] theorem Dev.setPhase_nv (d : Dev) (k ph : Nat) (p : PhaseRun) : (d.setPhase k ph p).nv = d.nv := rfl
@[simp] theorem Dev.setPhase_pins (d : Dev) (k ph : Nat) (p : PhaseRun) : (d.setPhase k ph p).pins = d.pins := rfl
@[simp] theorem Dev.setPhase_ctl (d : Dev) (k ph : Nat) (p : PhaseRun) : (d.setPhase k ph p).ctl = d.ctl := rfl
@[simp] theorem Dev.setPhase_cells (d : Dev) (k ph : Nat) (p : PhaseRun) : (d.setPhase k ph p).cells = d.cells := rfl
@[simp] theorem Dev.setPhase_sets (d : Dev) (k ph : Nat) (p : PhaseRun) : (d.setPhase k ph p).sets = d.sets := rfl
@[simp] theorem Dev.setPhase_mem (d : Dev) (k ph : Nat) (p : PhaseRun) : (d.setPhase k ph p).mem = d.mem := rfl
@[simp] theorem Dev.setPhase_sow (d : Dev) (k ph : Nat) (p : PhaseRun) : (d.setPhase k ph p).sow = d.sow := rfl
@[simp] theorem Dev.setPhase_harvest (d : Dev) (k ph : Nat) (p : PhaseRun) : (d.setPhase k ph p).harvest = d.harvest := rfl
@[simp] theorem Dev.setPhase_train (d : Dev) (k ph : Nat) (p : PhaseRun) : (d.setPhase k ph p).train = d.train := rfl
@[simp] theorem Dev.setPhase_fab (d : Dev) (k ph : Nat) (p : PhaseRun) : (d.setPhase k ph p).fab = d.fab := rfl
@[simp] theorem Dev.setPhase_pip (d : Dev) (k ph : Nat) (p : PhaseRun) : (d.setPhase k ph p).pip = d.pip := rfl
@[simp] theorem Dev.setPhase_media (d : Dev) (k ph : Nat) (p : PhaseRun) : (d.setPhase k ph p).media = d.media := rfl
@[simp] theorem Dev.setPhase_mediaWait (d : Dev) (k ph : Nat) (p : PhaseRun) : (d.setPhase k ph p).mediaWait = d.mediaWait := rfl
@[simp] theorem Dev.setPhase_thn (d : Dev) (k ph : Nat) (p : PhaseRun) : (d.setPhase k ph p).thn = d.thn := rfl
@[simp] theorem Dev.setPhase_pci (d : Dev) (k ph : Nat) (p : PhaseRun) : (d.setPhase k ph p).pci = d.pci := rfl
@[simp] theorem Dev.setPhase_pwr (d : Dev) (k ph : Nat) (p : PhaseRun) : (d.setPhase k ph p).pwr = d.pwr := rfl
@[simp] theorem Dev.setPhase_numx (d : Dev) (k ph : Nat) (p : PhaseRun) : (d.setPhase k ph p).numx = d.numx := rfl
@[simp] theorem Dev.setPhase_rasLog (d : Dev) (k ph : Nat) (p : PhaseRun) : (d.setPhase k ph p).rasLog = d.rasLog := rfl
@[simp] theorem Dev.setPhase_out (d : Dev) (k ph : Nat) (p : PhaseRun) : (d.setPhase k ph p).out = d.out := rfl

/-! ### storeBytes -/

@[simp] theorem Dev.storeBytes_fresh (d : Dev) (c a : Nat) (bs : List Byte) : (d.storeBytes c a bs).fresh = d.fresh := rfl
@[simp] theorem Dev.storeBytes_fields (d : Dev) (c a : Nat) (bs : List Byte) : (d.storeBytes c a bs).fields = d.fields := rfl
@[simp] theorem Dev.storeBytes_acting (d : Dev) (c a : Nat) (bs : List Byte) : (d.storeBytes c a bs).acting = d.acting := rfl
@[simp] theorem Dev.storeBytes_shadow (d : Dev) (c a : Nat) (bs : List Byte) : (d.storeBytes c a bs).shadow = d.shadow := rfl
@[simp] theorem Dev.storeBytes_latches (d : Dev) (c a : Nat) (bs : List Byte) : (d.storeBytes c a bs).latches = d.latches := rfl
@[simp] theorem Dev.storeBytes_armed (d : Dev) (c a : Nat) (bs : List Byte) : (d.storeBytes c a bs).armed = d.armed := rfl
@[simp] theorem Dev.storeBytes_groupSeq (d : Dev) (c a : Nat) (bs : List Byte) : (d.storeBytes c a bs).groupSeq = d.groupSeq := rfl
@[simp] theorem Dev.storeBytes_testFails (d : Dev) (c a : Nat) (bs : List Byte) : (d.storeBytes c a bs).testFails = d.testFails := rfl
@[simp] theorem Dev.storeBytes_nv (d : Dev) (c a : Nat) (bs : List Byte) : (d.storeBytes c a bs).nv = d.nv := rfl
@[simp] theorem Dev.storeBytes_pins (d : Dev) (c a : Nat) (bs : List Byte) : (d.storeBytes c a bs).pins = d.pins := rfl
@[simp] theorem Dev.storeBytes_ctl (d : Dev) (c a : Nat) (bs : List Byte) : (d.storeBytes c a bs).ctl = d.ctl := rfl
@[simp] theorem Dev.storeBytes_plots (d : Dev) (c a : Nat) (bs : List Byte) : (d.storeBytes c a bs).plots = d.plots := rfl
@[simp] theorem Dev.storeBytes_sets (d : Dev) (c a : Nat) (bs : List Byte) : (d.storeBytes c a bs).sets = d.sets := rfl
@[simp] theorem Dev.storeBytes_mem (d : Dev) (c a : Nat) (bs : List Byte) : (d.storeBytes c a bs).mem = d.mem := rfl
@[simp] theorem Dev.storeBytes_sow (d : Dev) (c a : Nat) (bs : List Byte) : (d.storeBytes c a bs).sow = d.sow := rfl
@[simp] theorem Dev.storeBytes_harvest (d : Dev) (c a : Nat) (bs : List Byte) : (d.storeBytes c a bs).harvest = d.harvest := rfl
@[simp] theorem Dev.storeBytes_train (d : Dev) (c a : Nat) (bs : List Byte) : (d.storeBytes c a bs).train = d.train := rfl
@[simp] theorem Dev.storeBytes_fab (d : Dev) (c a : Nat) (bs : List Byte) : (d.storeBytes c a bs).fab = d.fab := rfl
@[simp] theorem Dev.storeBytes_pip (d : Dev) (c a : Nat) (bs : List Byte) : (d.storeBytes c a bs).pip = d.pip := rfl
@[simp] theorem Dev.storeBytes_media (d : Dev) (c a : Nat) (bs : List Byte) : (d.storeBytes c a bs).media = d.media := rfl
@[simp] theorem Dev.storeBytes_mediaWait (d : Dev) (c a : Nat) (bs : List Byte) : (d.storeBytes c a bs).mediaWait = d.mediaWait := rfl
@[simp] theorem Dev.storeBytes_thn (d : Dev) (c a : Nat) (bs : List Byte) : (d.storeBytes c a bs).thn = d.thn := rfl
@[simp] theorem Dev.storeBytes_pci (d : Dev) (c a : Nat) (bs : List Byte) : (d.storeBytes c a bs).pci = d.pci := rfl
@[simp] theorem Dev.storeBytes_pwr (d : Dev) (c a : Nat) (bs : List Byte) : (d.storeBytes c a bs).pwr = d.pwr := rfl
@[simp] theorem Dev.storeBytes_numx (d : Dev) (c a : Nat) (bs : List Byte) : (d.storeBytes c a bs).numx = d.numx := rfl
@[simp] theorem Dev.storeBytes_rasLog (d : Dev) (c a : Nat) (bs : List Byte) : (d.storeBytes c a bs).rasLog = d.rasLog := rfl
@[simp] theorem Dev.storeBytes_out (d : Dev) (c a : Nat) (bs : List Byte) : (d.storeBytes c a bs).out = d.out := rfl

/-! ### event -/

@[simp] theorem Dev.event_fresh (d : Dev) (c k n : Nat) : (d.event c k n).fresh = d.fresh := rfl
@[simp] theorem Dev.event_fields (d : Dev) (c k n : Nat) : (d.event c k n).fields = d.fields := rfl
@[simp] theorem Dev.event_acting (d : Dev) (c k n : Nat) : (d.event c k n).acting = d.acting := rfl
@[simp] theorem Dev.event_shadow (d : Dev) (c k n : Nat) : (d.event c k n).shadow = d.shadow := rfl
@[simp] theorem Dev.event_latches (d : Dev) (c k n : Nat) : (d.event c k n).latches = d.latches := rfl
@[simp] theorem Dev.event_armed (d : Dev) (c k n : Nat) : (d.event c k n).armed = d.armed := rfl
@[simp] theorem Dev.event_groupSeq (d : Dev) (c k n : Nat) : (d.event c k n).groupSeq = d.groupSeq := rfl
@[simp] theorem Dev.event_testFails (d : Dev) (c k n : Nat) : (d.event c k n).testFails = d.testFails := rfl
@[simp] theorem Dev.event_nv (d : Dev) (c k n : Nat) : (d.event c k n).nv = d.nv := rfl
@[simp] theorem Dev.event_pins (d : Dev) (c k n : Nat) : (d.event c k n).pins = d.pins := rfl
@[simp] theorem Dev.event_ctl (d : Dev) (c k n : Nat) : (d.event c k n).ctl = d.ctl := rfl
@[simp] theorem Dev.event_plots (d : Dev) (c k n : Nat) : (d.event c k n).plots = d.plots := rfl
@[simp] theorem Dev.event_sets (d : Dev) (c k n : Nat) : (d.event c k n).sets = d.sets := rfl
@[simp] theorem Dev.event_mem (d : Dev) (c k n : Nat) : (d.event c k n).mem = d.mem := rfl
@[simp] theorem Dev.event_sow (d : Dev) (c k n : Nat) : (d.event c k n).sow = d.sow := rfl
@[simp] theorem Dev.event_harvest (d : Dev) (c k n : Nat) : (d.event c k n).harvest = d.harvest := rfl
@[simp] theorem Dev.event_train (d : Dev) (c k n : Nat) : (d.event c k n).train = d.train := rfl
@[simp] theorem Dev.event_fab (d : Dev) (c k n : Nat) : (d.event c k n).fab = d.fab := rfl
@[simp] theorem Dev.event_pip (d : Dev) (c k n : Nat) : (d.event c k n).pip = d.pip := rfl
@[simp] theorem Dev.event_media (d : Dev) (c k n : Nat) : (d.event c k n).media = d.media := rfl
@[simp] theorem Dev.event_mediaWait (d : Dev) (c k n : Nat) : (d.event c k n).mediaWait = d.mediaWait := rfl
@[simp] theorem Dev.event_thn (d : Dev) (c k n : Nat) : (d.event c k n).thn = d.thn := rfl
@[simp] theorem Dev.event_pci (d : Dev) (c k n : Nat) : (d.event c k n).pci = d.pci := rfl
@[simp] theorem Dev.event_pwr (d : Dev) (c k n : Nat) : (d.event c k n).pwr = d.pwr := rfl
@[simp] theorem Dev.event_numx (d : Dev) (c k n : Nat) : (d.event c k n).numx = d.numx := rfl
@[simp] theorem Dev.event_rasLog (d : Dev) (c k n : Nat) : (d.event c k n).rasLog = d.rasLog := rfl
@[simp] theorem Dev.event_out (d : Dev) (c k n : Nat) : (d.event c k n).out = d.out := rfl

/-! ### advance -/

@[simp] theorem Dev.advance_fresh (d : Dev) (c n : Nat) : (d.advance c n).fresh = d.fresh := rfl
@[simp] theorem Dev.advance_acting (d : Dev) (c n : Nat) : (d.advance c n).acting = d.acting := rfl
@[simp] theorem Dev.advance_shadow (d : Dev) (c n : Nat) : (d.advance c n).shadow = d.shadow := rfl
@[simp] theorem Dev.advance_latches (d : Dev) (c n : Nat) : (d.advance c n).latches = d.latches := rfl
@[simp] theorem Dev.advance_armed (d : Dev) (c n : Nat) : (d.advance c n).armed = d.armed := rfl
@[simp] theorem Dev.advance_groupSeq (d : Dev) (c n : Nat) : (d.advance c n).groupSeq = d.groupSeq := rfl
@[simp] theorem Dev.advance_testFails (d : Dev) (c n : Nat) : (d.advance c n).testFails = d.testFails := rfl
@[simp] theorem Dev.advance_nv (d : Dev) (c n : Nat) : (d.advance c n).nv = d.nv := rfl
@[simp] theorem Dev.advance_pins (d : Dev) (c n : Nat) : (d.advance c n).pins = d.pins := rfl
@[simp] theorem Dev.advance_ctl (d : Dev) (c n : Nat) : (d.advance c n).ctl = d.ctl := rfl
@[simp] theorem Dev.advance_plots (d : Dev) (c n : Nat) : (d.advance c n).plots = d.plots := rfl
@[simp] theorem Dev.advance_cells (d : Dev) (c n : Nat) : (d.advance c n).cells = d.cells := rfl
@[simp] theorem Dev.advance_sets (d : Dev) (c n : Nat) : (d.advance c n).sets = d.sets := rfl
@[simp] theorem Dev.advance_mem (d : Dev) (c n : Nat) : (d.advance c n).mem = d.mem := rfl
@[simp] theorem Dev.advance_sow (d : Dev) (c n : Nat) : (d.advance c n).sow = d.sow := rfl
@[simp] theorem Dev.advance_harvest (d : Dev) (c n : Nat) : (d.advance c n).harvest = d.harvest := rfl
@[simp] theorem Dev.advance_train (d : Dev) (c n : Nat) : (d.advance c n).train = d.train := rfl
@[simp] theorem Dev.advance_fab (d : Dev) (c n : Nat) : (d.advance c n).fab = d.fab := rfl
@[simp] theorem Dev.advance_pip (d : Dev) (c n : Nat) : (d.advance c n).pip = d.pip := rfl
@[simp] theorem Dev.advance_media (d : Dev) (c n : Nat) : (d.advance c n).media = d.media := rfl
@[simp] theorem Dev.advance_mediaWait (d : Dev) (c n : Nat) : (d.advance c n).mediaWait = d.mediaWait := rfl
@[simp] theorem Dev.advance_thn (d : Dev) (c n : Nat) : (d.advance c n).thn = d.thn := rfl
@[simp] theorem Dev.advance_pci (d : Dev) (c n : Nat) : (d.advance c n).pci = d.pci := rfl
@[simp] theorem Dev.advance_pwr (d : Dev) (c n : Nat) : (d.advance c n).pwr = d.pwr := rfl
@[simp] theorem Dev.advance_numx (d : Dev) (c n : Nat) : (d.advance c n).numx = d.numx := rfl
@[simp] theorem Dev.advance_rasLog (d : Dev) (c n : Nat) : (d.advance c n).rasLog = d.rasLog := rfl
@[simp] theorem Dev.advance_out (d : Dev) (c n : Nat) : (d.advance c n).out = d.out := rfl

/-! ### Registers -/

/-- The stored value after a store of any field. -/
theorem Dev.getF_setF (d : Dev) (f g : Field) (i j v : Nat) :
    (d.setF f i v).getF g j = if g.key j = f.key i then v % 2 ^ f.width else d.getF g j := by
  simp [Dev.getF, Dev.setF, mget_mput]

@[simp] theorem Dev.getF_setF_same (d : Dev) (f : Field) (i v : Nat) : (d.setF f i v).getF f i = v % 2 ^ f.width := by
  simp [Dev.getF_setF]

theorem Dev.getF_setF_other (d : Dev) {f g : Field} {i j : Nat} (h : g.key j ≠ f.key i) (v : Nat) :
    (d.setF f i v).getF g j = d.getF g j := by
  simp [Dev.getF_setF, h]

@[simp] theorem Dev.getF_setCell (d : Dev) (p : Nat) (c : Cell) (f : Field) (i : Nat) :
    (d.setCell p c).getF f i = d.getF f i := rfl

@[simp] theorem Dev.cell_setF (d : Dev) (f : Field) (i v p : Nat) : (d.setF f i v).cell p = d.cell p := rfl

/-- A cell record after a store of any cell record. -/
theorem Dev.cell_setCell (d : Dev) (p q : Nat) (c : Cell) : (d.setCell p c).cell q = if q = p then c else d.cell q := by
  simp [Dev.cell, Dev.setCell, mget_mput]

@[simp] theorem Dev.cell_setCell_same (d : Dev) (p : Nat) (c : Cell) : (d.setCell p c).cell p = c := by
  simp [Dev.cell_setCell]

theorem Dev.cell_setCell_other (d : Dev) {p q : Nat} (h : q ≠ p) (c : Cell) : (d.setCell p c).cell q = d.cell q := by
  simp [Dev.cell_setCell, h]

/-- An s-register after a write (R95). -/
theorem Cell.s_setS (c : Cell) (r q : Nat) (v : Word) :
    (c.setS r v).s q = if q = 0 then 0 else if q = r then v else c.s q := by
  unfold Cell.setS Cell.s
  by_cases hq : q = 0 <;> by_cases hr : r = 0 <;> simp [hq, hr, mget_mput]


/-- The mark of `onDev`: a device that is up takes the command, one that is not keeps its state. -/
theorem State.onDev_up {s : State} (h : s.dev.up = true) (f : Dev → Dev) : s.onDev f = .next { s with dev := f s.dev } := by
  simp [State.onDev, h]

theorem State.onDev_down {s : State} (h : s.dev.up = false) (f : Dev → Dev) : s.onDev f = .next s := by
  simp [State.onDev, h]

/-- `onDev` always answers a next state that keeps the queue and the ownership token. -/
theorem State.onDev_next (s : State) (f : Dev → Dev) :
    ∃ t, s.onDev f = .next t ∧ t.pending = s.pending ∧ t.own = s.own := by
  by_cases h : s.dev.up = true
  · exact ⟨_, State.onDev_up h f, rfl, rfl⟩
  · exact ⟨s, State.onDev_down (by simpa using h) f, rfl, rfl⟩

end Sys2Proof.Machine
end

