-- ==== Sys2Proof/Laws/Steps.lean ====
section
/-! SUPPORT. How a statement about an outcome follows from the meaning: commands that act on the device, and
sequencer instructions that change only their cell's record. -/

namespace Sys2Proof

open Machine

/-- A command whose meaning is an effect on the device answers what the effect gives, on a device that is up. -/
theorem Answers.of_onDev {c : Instr} {s : State} {post : Dev → Prop} (f : Dev → Dev) (he : exec c s = s.onDev f)
    (hu : s.dev.up = true) (hp : post (f s.dev)) : Answers c s post :=
  ⟨_, he.trans (State.onDev_up hu f), rfl, rfl, hp⟩

/-- The post-condition of an answer may be weakened. -/
theorem Answers.imp {c : Instr} {s : State} {p q : Dev → Prop} (h : Answers c s p) (hpq : ∀ t, p t → q t) : Answers c s q :=
  let ⟨t, h1, h2, h3, h4⟩ := h
  ⟨t, h1, h2, h3, hpq _ h4⟩

/-- A cell that issues has RUN = 1. -/
theorem Machine.Dev.run_of_canIssue {d : Dev} {cell : Nat} (h : d.canIssue cell = true) :
    d.getF R.CEL_SEQ_STATUS_RUN cell = 1 := by
  simp only [Dev.canIssue, Bool.and_eq_true, decide_eq_true_eq] at h
  exact h.2

/-- An instruction that stores its cell's record and moves on by n words. -/
theorem CellStep.of_eq {c : Instr} {s : State} {cell : Nat} (c' : Cell) (pc : Nat) (hi : Issues s cell) (hpc : pc < 16384)
    (he : exec c s = s.onDev (fun d => (d.setCell cell c').setF R.CEL_SEQ_STATUS_PC cell pc)) : CellStep c s cell c' pc := by
  refine Answers.of_onDev _ he hi.1 ⟨?_, ?_, ?_, ?_, rfl⟩
  · simp
  · simpa [R.CEL_SEQ_STATUS_PC] using Nat.mod_eq_of_lt hpc
  · intro q hq; simp [Dev.cell_setCell_other _ hq]
  · intro k hk; simp only [Dev.setF]; exact mfind_mput_other (by simpa using hk) _ _

end Sys2Proof
end

