-- ==== Sys2Proof/WellFormed.lean ====
section
/-! DEFINITION. The range of every operand of a command: what the fields of the spec can hold. `exec` answers for
every command; an operand outside its range names nothing the device has. -/

namespace Sys2Proof

/-- One of the 1,152 cells (R70). -/
def cellOk (n : Nat) : Bool := decide (n < 1152)
/-- One of the 64 plots (R38). -/
def plotOk (n : Nat) : Bool := decide (n < 64)
/-- One of the 32 s- or v-registers (R95). -/
def regOk (n : Nat) : Bool := decide (n < 32)
/-- An index of the 16,384-word instruction store (R95). -/
def targetOk (n : Nat) : Bool := decide (n < 16384)
/-- One of the two PCIe ports (R38). -/
def pcieOk (n : Nat) : Bool := decide (n < 2)
/-- One of the 32 fabric ports (R38). -/
def portOk (n : Nat) : Bool := decide (n < 32)
/-- One of the eight media slices (R38). -/
def sliceOk (n : Nat) : Bool := decide (n < 8)
/-- One of the eight stacks (R284). -/
def stackOk (n : Nat) : Bool := decide (n < 8)
/-- One of the 16 channels of a stack (R284). -/
def chanOk (n : Nat) : Bool := decide (n < 16)
/-- A ring of a port (R521); page 0 of BAR4 is the ownership page. -/
def ringOk (n : Nat) : Bool := decide (0 < n) && decide (n < 256)
/-- A 48-bit address (R285). -/
def addrOk (n : Nat) : Bool := decide (n < 2 ^ 48)
/-- A 32-bit value. -/
def w32 (n : Nat) : Bool := decide (n < 2 ^ 32)
/-- A 16-bit value. -/
def w16 (n : Nat) : Bool := decide (n < 2 ^ 16)
/-- An 8-bit value. -/
def w8 (n : Nat) : Bool := decide (n < 2 ^ 8)
/-- A 64-bit value. -/
def w64 (n : Nat) : Bool := decide (n < 2 ^ 64)

/-- A page of the 17 classes, an instance of 11 bits (R37, R38). -/
def Page.wellFormed (p : Page) : Bool := decide (p.cls < 17) && decide (p.inst < 2048)

/-- The fields of a submission entry and of the ring that held it (R515, R520). -/
def JobCmd.wellFormed (c : JobCmd) : Bool :=
  w32 c.num && pcieOk c.port && ringOk c.ring && w16 c.head && w8 c.opc && w32 c.cookie && c.args.all w64

/-- The header fields and the payload of a packet (R325). -/
def Packet.wellFormed (p : Packet) : Bool :=
  w8 p.opc && w8 p.flags && decide (p.tc < 8) && decide (p.hops < 4) && w8 p.status && w16 p.dst && w16 p.src
    && decide (p.dstFlow < 2 ^ 18) && w32 p.seq && w32 p.ack && decide (p.srcFlow < 2 ^ 18) && w64 p.addr
    && decide (p.len ≤ 4096) && w16 p.attr && w32 p.tag && w64 p.op1 && w64 p.op2 && decide (p.payload.length = p.len)

/-- The bytes and the tail of a flit (R317, R321). -/
def Flit.wellFormed (f : Flit) : Bool := decide (f.bytes.length = 256) && decide (f.tail < 2 ^ 120)

/-- A descriptor's planes start in the cell store, whose addresses have 20 bits (R91, R126). -/
def OperandDesc.wellFormed (d : OperandDesc) : Bool :=
  decide (d.data < 2 ^ 20) && decide (d.scale < 2 ^ 20) && d.entry.all (fun e => decide (e < 65536))

/-- VLD and VST: registers from `vreg` (R95). -/
def VMemArgs.wellFormed (a : VMemArgs) : Bool := regOk a.vreg && decide (a.vreg + a.regs ≤ 32) && a.desc.wellFormed

/-- A use of the table unit (R105). -/
def VTblOp.wellFormed : VTblOp → Bool
  | .loadRescale _ src _ => decide (src < 2 ^ 20)
  | .loadTable _ src _ => decide (src < 2 ^ 20)
  | .lookup vd vs _ => regOk vd && regOk vs
  | .recip vd vs _ => regOk vd && regOk vs
  | .sqrt vd vs _ => regOk vd && regOk vs
  | .rsqrt vd vs _ => regOk vd && regOk vs
  | .exp2 vd vs => regOk vd && regOk vs
  | .log2 vd vs => regOk vd && regOk vs

/-- The register that a conversion of VRNG names (R262). -/
def RngConv.wellFormed : RngConv → Bool
  | .raw => true
  | .unif32 => true
  | .unif64 => true
  | .keep8 t => regOk t
  | .keep32 t => regOk t
  | .range t => regOk t

/-- The channel that an event names (R92, R96). -/
def EventKind.wellFormed : EventKind → Bool
  | .dma ch => decide (ch < 8)
  | _ => true

/-- Every operand of a command is in its range. -/
def Instr.wellFormed : Instr → Bool
  | .stepMark c => c.wellFormed
  | .stepBoundary m => m.busy.all (fun b => plotOk b.1)
  | .sealAck n => w64 n
  | .registerWrite _ o n v => decide (o < 2 ^ 28) && decide (n ≤ 8) && w64 v
  | .counterLoRead o n => decide (o < 2 ^ 28) && decide (n ≤ 8)
  | .rwFieldTakesEffect p => p.wellFormed
  | .enable _ p _ => p.wellFormed
  | .blockInitComplete p => p.wellFormed
  | .softReset _ p => p.wellFormed
  | .clocheReq _ p _ => p.wellFormed
  | .quiesceReq _ p _ => p.wellFormed
  | .blockQuiesced p => p.wellFormed
  | .blockClochedAtBoundary p => p.wellFormed
  | .clocheTestComplete p _ => p.wellFormed
  | .blockFailed p => p.wellFormed
  | .blkCommit _ p q _ => p.wellFormed && w16 q
  | .blkCommitAbort _ p => p.wellFormed
  | .commitApply p => p.wellFormed
  | .groupCommit _ q => w16 q
  | .cellFault p _ => cellOk p
  | .cellTestComplete p _ => cellOk p
  | .add p a b c => cellOk p && regOk a && regOk b && regOk c
  | .sub p a b c => cellOk p && regOk a && regOk b && regOk c
  | .mul p a b c => cellOk p && regOk a && regOk b && regOk c
  | .and p a b c => cellOk p && regOk a && regOk b && regOk c
  | .or p a b c => cellOk p && regOk a && regOk b && regOk c
  | .xor p a b c => cellOk p && regOk a && regOk b && regOk c
  | .shl p a b c => cellOk p && regOk a && regOk b && regOk c
  | .shr p a b c => cellOk p && regOk a && regOk b && regOk c
  | .cmp p _ a b c => cellOk p && regOk a && regOk b && regOk c
  | .li p a v long => cellOk p && regOk a && (long || w32 v.toNat)
  | .br p t => cellOk p && targetOk t
  | .bcc p _ a t => cellOk p && regOk a && targetOk t
  | .call p t => cellOk p && targetOk t
  | .ret p => cellOk p
  | .halt p => cellOk p
  | .ld p a b _ n => cellOk p && regOk a && regOk b && decide (n ∈ [1, 2, 4, 8])
  | .st p a b _ n => cellOk p && regOk a && regOk b && decide (n ∈ [1, 2, 4, 8])
  | .scfg p _ d => cellOk p && d.wellFormed
  | .scan p a _ => cellOk p && regOk a
  | .stake p a => cellOk p && regOk a.emaxReg && a.save.all OperandDesc.wellFormed
  | .measureComplete p _ => plotOk p
  | .load p _ => cellOk p
  | .pass p _ => cellOk p
  | .passBoundary p => cellOk p
  | .drain p a => cellOk p && a.save.all OperandDesc.wellFormed
  | .vld p a => cellOk p && a.wellFormed
  | .vst p a => cellOk p && a.wellFormed
  | .vop p _ _ d a b c => cellOk p && regOk d && regOk a && regOk b && regOk c
  | .vred p _ _ d vs => cellOk p && regOk d && vs.all regOk
  | .vtbl p op => cellOk p && op.wellFormed
  | .vrng p u d a b k => cellOk p && w8 u && regOk d && regOk a && regOk b && k.wellFormed
  | .dma p ch _ _ => cellOk p && decide (ch < 8)
  | .dmas p ch _ _ v _ _ => cellOk p && decide (ch < 8) && regOk v
  | .dmaComplete p ch u => cellOk p && decide (ch < 8) && u.all addrOk
  | .dmaRestart p ch => cellOk p && decide (ch < 8)
  | .tget p a _ => cellOk p && regOk a
  | .tdone p => cellOk p
  | .tbar p => cellOk p
  | .wait p e _ => cellOk p && e.wellFormed
  | .fence p => cellOk p
  | .stakedSetApply p _ => cellOk p
  | .thnConv r => decide (r.unit < 2)
  | .thnArgmax r => decide (r.unit < 2)
  | .thnTopk u _ => decide (u < 2)
  | .thnSort u _ => decide (u < 2)
  | .thnRequestComplete u => decide (u < 2)
  | .numRingCons _ v => w32 v
  | .numXrecSel _ p k => decide (p < 2048) && decide (k < 4)
  | .numXrecClear _ p k => decide (p < 2048) && decide (k < 4)
  | .plotRun c => c.wellFormed
  | .plotRunComplete p => plotOk p
  | .gradPlan c => c.wellFormed
  | .gradDone c => c.wellFormed
  | .positionLoad c => c.wellFormed
  | .allGather c => c.wellFormed
  | .broadcast c => c.wellFormed
  | .barrier c => c.wellFormed
  | .cExp p => p.wellFormed
  | .cM p => p.wellFormed
  | .cInt p => p.wellFormed
  | .cRes p _ _ => p.wellFormed
  | .cData p => p.wellFormed
  | .cBar p => p.wellFormed
  | .cBarRel p => p.wellFormed
  | .collectiveWaitLong e => decide (e < 4)
  | .collectiveWaitLimit e => decide (e < 4)
  | .put p => p.wellFormed
  | .get p => p.wellFormed
  | .getResp p => p.wellFormed
  | .atomic p => p.wellFormed
  | .atomicResp p => p.wellFormed
  | .sadd p => p.wellFormed
  | .opStatus p => p.wellFormed
  | .ack p => p.wellFormed
  | .nack p => p.wellFormed
  | .resync p => p.wellFormed
  | .resyncAck p => p.wellFormed
  | .packetBadOpcode p => p.wellFormed
  | .standaloneAckTimer f => decide (f < 2 ^ 18)
  | .e2eRetransmitTimeout f => decide (f < 2 ^ 18)
  | .flowStalled f => decide (f < 2 ^ 18)
  | .flwShadowWrite _ _ v => w32 v
  | .lnkVlBufWrite _ p _ v => portOk p && w32 v
  | .portSignalDetect p n => portOk p && decide (n.port < 32) && decide (n.lanes ≤ 8)
  | .portTrainingComplete p => portOk p
  | .retrain _ p => portOk p
  | .laneFailure p l => portOk p && decide (l < 8)
  | .serdesPllLoss ls => ls.all (fun e => portOk e.1 && decide (e.2 < 8))
  | .retrainComplete p n => portOk p && decide (n ≤ 8)
  | .flitReceive p f => portOk p && f.flit.wellFormed
  | .flitTransmit p => portOk p
  | .linkReplayTimeout p => portOk p
  | .transitTimeout p v => portOk p && decide (v < 8)
  | .memoryRead a _ _ => addrOk a
  | .memoryWrite a _ => addrOk a
  | .sadd128 a _ => addrOk a
  | .sadd64 a _ => addrOk a
  | .sadd32 a _ => addrOk a
  | .scrubRateUpdate k _ => stackOk k
  | .ueReport a src => addrOk a && decide (src < 3)
  | .memMapWrite _ v => w32 v
  | .memRegionsWrite _ a b => w32 a && w32 b
  | .memSpillWrite _ o v => decide (o < 4096) && w32 v
  | .recal _ k ch => stackOk k && chanOk ch
  | .channelRecalComplete k ch _ => stackOk k && chanOk ch
  | .channelMarginRecal k ch => stackOk k && chanOk ch
  | .pair _ k => w32 k
  | .pairGraft _ k => w32 k
  | .pairReq p => p.wellFormed
  | .pairAck p => p.wellFormed
  | .unpairMsg p => p.wellFormed
  | .remirror p => p.wellFormed
  | .base p => p.packet.wellFormed
  | .delta p => p.wellFormed
  | .record p => p.wellFormed
  | .heartbeat p => p.wellFormed
  | .restoreReq p => p.wellFormed
  | .restoreData p => p.wellFormed
  | .restoreEnd p => p.wellFormed
  | .refetch p => p.wellFormed
  | .logData p => p.wellFormed
  | .harvest c => c.wellFormed
  | .harvestMsg p => p.wellFormed
  | .ingest c => c.wellFormed
  | .sampleFetchComplete p _ u _ => plotOk p && decide (u < 4)
  | .fetchRetryTimer p _ => plotOk p
  | .pipelineSlotComplete p _ u => plotOk p && decide (u < 4)
  | .ingestComplete p => plotOk p
  | .mediaSessionOpen die _ _ _ => decide (die < 2)
  | .decodePicture k _ _ => sliceOk k
  | .encOpen c => c.wellFormed
  | .encPicture c => c.wellFormed
  | .encPictureStart k _ => sliceOk k
  | .encSliceComplete k _ _ => sliceOk k
  | .encKeyreq c => c.wellFormed
  | .encRelease c => c.wellFormed
  | .encClose c => c.wellFormed
  | .medKeyreq _ k n => sliceOk k && w16 n
  | .railOutOfWindow r _ => decide (r < 9)
  | .railFaultTimeout r => decide (r < 9)
  | .thermalTrip g => decide (g < 4)
  | .sensorNoValueTimeout g => decide (g < 4)
  | .cold _ k => w32 k
  | .pciePortReset p => pcieOk p
  | .attestReq p => p.pkt.wellFormed
  | .attestResp p => p.wellFormed
  | .idProbe p => p.wellFormed
  | .idReply p => p.wellFormed
  | .svnCommit _ t => w32 t
  | .sqTail p r v => pcieOk p && ringOk r && w32 v
  | .cqHead p r v => pcieOk p && ringOk r && w32 v
  | .commandFetch p r e => pcieOk p && ringOk r
      && (match e with
          | .entry b => decide (b.length = 64)
          | .failed => true)
  | .ringEnable p r k _ _ => pcieOk p && ringOk r && decide (k < 5)
  | .bar2Write p o _ => pcieOk p && w64 o
  | .bar2Read p o _ => pcieOk p && w64 o
  | .claim p => pcieOk p
  | .request p => pcieOk p
  | .grant p => pcieOk p
  | .deny p => pcieOk p
  | .release p => pcieOk p
  | .linkDown p => pcieOk p
  | .pcieLinkUp p _ _ => pcieOk p
  | _ => true

end Sys2Proof
end

