-- ==== Sys2Proof/Tests/Slice0.lean ====
section
/-! SUPPORT. Small tests: an ill-formed term for every range check; states that meet the hypotheses of the
statements; single steps whose results the spec gives. -/

set_option Elab.async false

open Sys2Proof Sys2Proof.Machine

namespace Sys2Proof.Tests

/-! ### WellFormed -/

/-- A packet with no payload whose fields are in range. -/
def packet0 : Packet := ⟨1, 0, 0, 0, 0, 0, 0, 0, 0, 0, 0, 0, 0, 0, 0, 0, 0, []⟩
/-- A job command whose fields are in range. -/
def cmd0 : JobCmd := ⟨0, 0, 1, 0, 1, true, false, false, 0, []⟩
/-- A flit whose fields are in range. -/
def flit0 : Flit := ⟨List.replicate 256 0, 0⟩
/-- An operand descriptor whose fields are in range. -/
def desc0 : OperandDesc := ⟨0, 64, 0, 64, 0x1000, 2, 64, 0, 0, 64, none, false, false, 0, 0, 0⟩

theorem test_wf_accepts : (Instr.add 1151 31 0 31).wellFormed = true ∧ (Instr.put packet0).wellFormed = true
    ∧ (Instr.stepMark cmd0).wellFormed = true ∧ (Instr.flitReceive 31 ⟨flit0, false, []⟩).wellFormed = true
    ∧ (Instr.scfg 0 .stationary desc0).wellFormed = true := by decide +kernel
theorem test_wf_refuses_cell : (Instr.halt 1152).wellFormed = false := by decide
theorem test_wf_refuses_plot : (Instr.plotRunComplete 64).wellFormed = false := by decide
theorem test_wf_refuses_register : (Instr.add 0 32 0 0).wellFormed = false := by decide
theorem test_wf_refuses_short_immediate : (Instr.li 0 1 (BitVec.ofNat 64 (2 ^ 32)) false).wellFormed = false := by decide
theorem test_wf_refuses_target : (Instr.br 0 16384).wellFormed = false := by decide
theorem test_wf_refuses_size : (Instr.ld 0 1 2 0 3).wellFormed = false := by decide
theorem test_wf_refuses_pcie_port : (Instr.claim 2).wellFormed = false := by decide
theorem test_wf_refuses_ring : (Instr.sqTail 0 0 1).wellFormed = false ∧ (Instr.sqTail 0 256 1).wellFormed = false := by decide
theorem test_wf_refuses_ring_kind : (Instr.ringEnable 0 1 5 4 false).wellFormed = false := by decide
theorem test_wf_refuses_entry : (Instr.commandFetch 0 1 (.entry [])).wellFormed = false := by decide
theorem test_wf_refuses_fabric_port : (Instr.flitTransmit 32).wellFormed = false := by decide
theorem test_wf_refuses_lane : (Instr.laneFailure 0 8).wellFormed = false := by decide
theorem test_wf_refuses_slice : (Instr.encPictureStart 8 0).wellFormed = false := by decide
theorem test_wf_refuses_stack : (Instr.scrubRateUpdate 8 0).wellFormed = false := by decide
theorem test_wf_refuses_channel : (Instr.recal .mc 0 16).wellFormed = false := by decide
theorem test_wf_refuses_address : (Instr.memoryWrite (2 ^ 48) []).wellFormed = false := by decide
theorem test_wf_refuses_value32 : (Instr.numRingCons .mc (2 ^ 32)).wellFormed = false := by decide
theorem test_wf_refuses_value16 : (Instr.groupCommit .mc 65536).wellFormed = false := by decide
theorem test_wf_refuses_value8 : (Instr.vrng 0 256 0 0 0 .raw).wellFormed = false := by decide
theorem test_wf_refuses_value64 : (Instr.sealAck (2 ^ 64)).wellFormed = false := by decide
theorem test_wf_refuses_page_class : (Instr.blockFailed ⟨17, 0⟩).wellFormed = false := by decide
theorem test_wf_refuses_page_instance : (Instr.blockFailed ⟨2, 2048⟩).wellFormed = false := by decide
theorem test_wf_refuses_offset : (Instr.registerWrite .mc (2 ^ 28) 4 0).wellFormed = false := by decide
theorem test_wf_refuses_command : (Instr.stepMark { cmd0 with ring := 0 }).wellFormed = false
    ∧ (Instr.stepMark { cmd0 with opc := 256 }).wellFormed = false
    ∧ (Instr.stepMark { cmd0 with args := [2 ^ 64] }).wellFormed = false := by decide
theorem test_wf_refuses_packet : (Instr.put { packet0 with tc := 8 }).wellFormed = false
    ∧ (Instr.put { packet0 with len := 4097 }).wellFormed = false
    ∧ (Instr.put { packet0 with payload := [0] }).wellFormed = false
    ∧ (Instr.put { packet0 with dstFlow := 2 ^ 18 }).wellFormed = false := by decide
theorem test_wf_refuses_flit : (Instr.flitReceive 0 ⟨{ flit0 with tail := 2 ^ 120 }, false, []⟩).wellFormed = false
    ∧ (Instr.flitReceive 0 ⟨{ flit0 with bytes := [] }, false, []⟩).wellFormed = false := by decide +kernel
theorem test_wf_refuses_descriptor : (Instr.scfg 0 .output { desc0 with data := 2 ^ 20 }).wellFormed = false := by decide
theorem test_wf_refuses_vector_range : (Instr.vld 0 ⟨31, 2, desc0, 0, 0, .f32, none⟩).wellFormed = false := by decide
theorem test_wf_refuses_table : (Instr.vtbl 0 (.exp2 32 0)).wellFormed = false := by decide
theorem test_wf_refuses_conversion : (Instr.vrng 0 0 0 0 0 (.keep8 32)).wellFormed = false := by decide
theorem test_wf_refuses_event : (Instr.wait 0 (.dma 8) 0).wellFormed = false := by decide
theorem test_wf_refuses_dma_channel : (Instr.dmaRestart 0 8).wellFormed = false := by decide
theorem test_wf_refuses_thin_unit : (Instr.thnConv ⟨2, []⟩).wellFormed = false := by decide
theorem test_wf_refuses_record_kind : (Instr.numXrecSel .mc 0 4).wellFormed = false := by decide
theorem test_wf_refuses_engine : (Instr.collectiveWaitLong 4).wellFormed = false := by decide
theorem test_wf_refuses_flow : (Instr.flowStalled (2 ^ 18)).wellFormed = false := by decide
theorem test_wf_refuses_rail : (Instr.railFaultTimeout 9).wellFormed = false := by decide
theorem test_wf_refuses_sensor_group : (Instr.thermalTrip 4).wellFormed = false := by decide
theorem test_wf_refuses_unit : (Instr.pipelineSlotComplete 0 0 4).wellFormed = false := by decide
theorem test_wf_refuses_die : (Instr.mediaSessionOpen 2 false 0 0).wellFormed = false := by decide

/-! ### States that meet the statements' hypotheses -/

/-- The state after reset with its device changed. -/
def base (f : Dev → Dev) : State := { State.reset with dev := f Dev.reset }
/-- After reset, one cell in service whose sequencer runs, and whose record is c. -/
def cellUp (c : Cell) (d : Dev) : Dev :=
  { (d.setF (R.BLK_STATE_STATE CEL) 0 stRunning).setF R.CEL_SEQ_STATUS_RUN 0 1 with cells := [(0, c)] }
/-- After reset, cell 0 runs with the record c. -/
def cellState (c : Cell) : State := base (cellUp c)

theorem test_witness_Issues : Issues (cellState Cell.reset) 0 := by
  unfold Issues; decide

/-- Sets a field of the device that came out of reset. -/
def withF (f : Field) (i v : Nat) : Dev → Dev := fun d => d.setF f i v

/-! Queue, ownership, registers -/

theorem test_witness_StepRunsFrontCommand : State.reset.pending = [] := by decide
theorem test_witness_CommandsKeepTheQueue : ∃ t, exec .hotSwapClose State.reset = .next t := ⟨_, rfl⟩
theorem test_witness_OwnershipStaysLegal :
    State.reset.own.legal ∧ ∃ t, step { State.reset with pending := [.claim 1] } = .next t ∧ t.own.owner = 2 := by
  refine ⟨by unfold Own.legal; decide, _, rfl, by decide⟩
theorem test_witness_StoredBytesStayCanonical :
    Canonical State.reset ∧ ∃ t, step { State.reset with pending := [.memoryWrite 7 [1]] } = .next t :=
  ⟨⟨by decide, by decide⟩, _, rfl⟩
theorem test_witness_UnacceptedWritersChangeNothing :
    writerOf (.pair .portB 0) = some .portB ∧ State.reset.own.mayWrite .portB = false := by decide
theorem test_witness_Writes : Writes State.reset .mc := by unfold Writes; decide
theorem test_witness_NothingHeld : NothingHeld State.reset := by unfold NothingHeld; decide

theorem test_witness_RegisterWritesFollowTheClass_rw :
    let f := R.BLK_IRQ_EN_EN CEL
    f ∈ R.fieldsOf CEL ∧ 1151 < instancesOf CEL ∧ Dev.reset.nv.disabled.contains 1151 = false ∧ hasOwnRow f = false
      ∧ f.only0 = false ∧ f.acc = .rw ∧ conditional f = false := by decide
theorem test_witness_RegisterWritesFollowTheClass_rs :
    let f := R.MEM_SCRUB_BOUNDS_MIN_PERIOD
    f ∈ R.fieldsOf MEM ∧ 7 < instancesOf MEM ∧ hasOwnRow f = false ∧ f.only0 = false ∧ f.acc = .rs
      ∧ Dev.reset.armedOn MEM 7 = none
      ∧ (Dev.armedOn { Dev.reset with armed := [(MEM * 2048 + 7, ⟨0, false⟩)] } MEM 7).isSome = true := by decide
theorem test_witness_RegisterWritesFollowTheClass_rl :
    let f := R.GLB_DEV_NUM_DEV_NUM
    f ∈ R.fieldsOf GLB ∧ hasOwnRow f = false ∧ f.acc = .rl ∧ conditional f = false ∧ Dev.reset.rlOpen (jobLocked f) GLB 0 = true
      ∧ (Dev.reset.setF R.GLB_JOB_STATUS_ACTIVE 0 1).rlOpen (jobLocked f) GLB 0 = false := by decide
theorem test_witness_RegisterWritesFollowTheClass_w1c :
    let f := R.BLK_ERR NUM
    f ∈ R.fieldsOf NUM ∧ hasOwnRow f = false ∧ f.acc = .w1c ∧ Dev.reset.getF R.NUM_RING_CFG_EN 0 = 0 := by decide
theorem test_witness_RegisterWritesFollowTheClass_refused :
    bitsOf 0x180 R.PCI_BAR2_BASE_GIB.lo R.PCI_BAR2_BASE_GIB.width = 0x180 ∧ R.PCI_BAR2_BASE_GIB ∈ R.fieldsOf PCI
      ∧ hasOwnRow R.PCI_BAR2_BASE_GIB = false ∧ hasOwnRow R.NUM_SIEVE_CFG_EN = false
      ∧ R.NUM_SIEVE_CFG_EN ∈ R.fieldsOf NUM ∧ Dev.reset.feature 5 = false
      ∧ bitsOf (2 ^ R.NUM_SIEVE_CFG_EN.lo) R.NUM_SIEVE_CFG_EN.lo R.NUM_SIEVE_CFG_EN.width = 1 := by decide
theorem test_witness_BarOffsetsNameRegisters : 31 < 32 ∧ 2047 < 2048 ∧ 4095 < 4096 ∧ 256 * 2 ^ 20 - 1 < 256 * 2 ^ 20 := by decide
theorem test_witness_BadAccessesAreRecorded :
    widthOk 2 4 = false ∧ pageExists (barClass (17 * 2 ^ 23)) (barInstance (17 * 2 ^ 23)) = false := by decide
theorem test_witness_CounterReadsLatchAndWrittenValuesAct :
    let f := R.COUNTER LNK 0
    f ∈ R.fieldsOf LNK ∧ f.width = 64 ∧ mfind (latchKey LNK 31 f.off) Dev.reset.latches = none
      ∧ mfind (latchKey LNK 31 (f.off + 4)) [(latchKey LNK 31 (f.off + 4), 5)] = some 5
      ∧ R.BLK_IRQ_EN_EN CEL ∈ R.fieldsOf CEL ∧ (R.BLK_IRQ_EN_EN CEL).acc = .rw ∧ Dev.reset.rwReady CEL 1151 = true
      ∧ (Dev.reset.setBlk GLB 0 stRunning).rwReady GLB 0 = false
      ∧ ((Dev.reset.setBlk CEL 3 stRunning).setF R.CEL_ARRAY_STATUS_IN_FLIGHT 3 1).rwReady CEL 3 = false := by decide

/-! Blocks, commits, negotiation, jobs -/

theorem test_witness_NoneWaits : NoneWaits State.reset MED ∧ NoneWaits State.reset THN :=
  ⟨⟨fun _ => rfl, fun h => absurd h (by decide)⟩, ⟨fun _ => rfl, fun _ _ => rfl⟩⟩

/-- The page of the second thin-channel unit is in the state st. -/
def thnIn (st : Nat) : Dev := Dev.reset.setBlk THN 1 st

theorem test_witness_BlocksChangeStateByTheTable :
    pageExists THN 1 = true ∧ THN ≠ CEL ∧ THN ≠ GLB ∧ clochable THN = true ∧ THN ∈ [COL, MED, PIP, THN]
      ∧ Dev.reset.blk THN 1 = stOff ∧ (Dev.reset.setF (R.BLK_CTRL_ENABLE THN) 1 1).blk THN 1 = stOff
      ∧ (Dev.reset.setF (R.BLK_CTRL_ENABLE THN) 1 1).getF (R.BLK_CTRL_ENABLE THN) 1 = 1
      ∧ (thnIn stReady).blk THN 1 = stReady ∧ (thnIn stRunning).blk THN 1 = stRunning ∧ (thnIn stQuiesced).blk THN 1 = stQuiesced
      ∧ (thnIn stCloched).blk THN 1 = stCloched ∧ (thnIn stFailed).blk THN 1 = stFailed ∧ (thnIn stRetired).blk THN 1 = stRetired
      ∧ ((thnIn stCloched).setPassed THN 1 true).testPassed THN 1 = true
      ∧ (thnIn stCloched).getF (R.BLK_CTRL_CLOCHE_REQ THN) 1 = 0
      ∧ ((thnIn stRunning).setAct (R.BLK_CTRL_QUIESCE_REQ THN) 1 1).actF (R.BLK_CTRL_QUIESCE_REQ THN) 1 = 1
      ∧ ((thnIn stRunning).setAct (R.BLK_CTRL_QUIESCE_REQ THN) 1 1).actF (R.BLK_CTRL_CLOCHE_REQ THN) 1 = 0
      ∧ (thnIn stRunning).atBoundary THN 1 = true
      ∧ ((thnIn stRunning).setAct (R.BLK_CTRL_CLOCHE_REQ THN) 1 1).actF (R.BLK_CTRL_CLOCHE_REQ THN) 1 = 1 := by decide

/-- Page MEM 7 is armed with the commit a, and a value is staged on it. -/
def memArmed (a : ArmedCommit) : Dev :=
  { Dev.reset with armed := [(MEM * 2048 + 7, a)], shadow := [(R.MEM_SCRUB_BOUNDS_MIN_PERIOD.key 7, 60)] }

theorem test_witness_CommitsFollowTheStagingProtocol :
    pageExists MEM 7 = true ∧ Dev.reset.getF (R.BLK_STAGE_SEQ_NEXT_SEQ MEM) 7 ≠ 65535 ∧ Dev.reset.armedOn MEM 7 = none
      ∧ (memArmed ⟨0, false⟩).armedOn MEM 7 = some ⟨0, false⟩ ∧ (memArmed ⟨0, true⟩).armedOn MEM 7 = some ⟨0, true⟩
      ∧ mwf (memArmed ⟨0, false⟩).armed = true ∧ mwf (memArmed ⟨0, false⟩).shadow = true
      ∧ (memArmed ⟨0, false⟩).commitReady MEM 7 = true ∧ R.MEM_SCRUB_BOUNDS_MIN_PERIOD ∈ R.fieldsOf MEM
      ∧ R.MEM_SCRUB_BOUNDS_MIN_PERIOD.acc = .rs ∧ R.MEM_SCRUB_BOUNDS_MIN_PERIOD ≠ R.CEL_ARRAY_CFG_T3_MODE
      ∧ mfind (R.MEM_SCRUB_BOUNDS_MIN_PERIOD.key 7) (memArmed ⟨0, false⟩).shadow = some 60
      ∧ Dev.reset.groupSeq = none ∧ Dev.reset.getF R.GLB_GROUP_STAT_NEXT_SEQ 0 ≠ 65535 := by decide

theorem test_witness_NegotiationPostsItsResult :
    (Dev.reset.setBlk GLB 0 stReady).blk GLB 0 = stReady ∧ Dev.reset.blk GLB 0 ≠ stReady
      ∧ Dev.reset.ctl.negPending = false ∧ { Dev.reset.ctl with negPending := true }.negPending = true := by decide
/-- R61: features that both sides name; a mandatory feature left out; an undefined one. -/
theorem test_negotiate : negotiate 7 1 5 = (2, 0, 5) ∧ (negotiate 7 1 2).1 = 3 ∧ (negotiate 7 1 (1 + 2 ^ 14)).1 = 4 := by decide
theorem test_witness_NegotiationRule : ∃ o m r, (negotiate o m r).1 = 5 :=
  ⟨2 ^ 14 - 1, 0, 2 ^ 3, by decide⟩

/-- The state fields of the pages of some classes, all READY. -/
def pageStates (cs : List Nat) : NMap Nat :=
  cs.flatMap (fun c => (List.range (instancesOf c)).map (fun i => ((R.BLK_STATE_STATE c).key i, stReady)))
/-- Every page READY, every cell retired, a negotiation that passed, a device number, n entries in the item table. -/
def mayStart (n : Nat) : Dev :=
  { Dev.reset with
    nv := { Dev.reset.nv with retired := List.range 1152 }
    fields := pageStates [0] ++ [(R.GLB_DEV_NUM_VALID.key 0, 1), (R.GLB_NEG_STATUS_CODE.key 0, 2)]
      ++ pageStates [1, 3, 4, 5, 6, 7, 8, 9, 10, 11, 12, 13] ++ [(R.SOW_ITEM_COUNT_COUNT.key 0, n)] ++ pageStates [14, 15, 16] }

theorem test_mayStart_pages : ∀ n ∈ [0, 65535], ∀ c ∈ [0, 1, 3, 4, 5, 6, 7, 8, 9, 10, 11, 12, 13, 14, 15, 16],
    ∀ i < instancesOf c, (mayStart n).blk c i = stReady := by decide +kernel
theorem test_mayStart_refuse (n : Nat) (hn : n ∈ [0, 65535]) : (mayStart n).startRefused = 0 := by
  have h : allPages.any (fun p => decide ((mayStart n).blk p.1 p.2 ≠ stReady) && decide ((mayStart n).blk p.1 p.2 ≠ stCloched)
      && decide ((mayStart n).blk p.1 p.2 ≠ stRetired)) = false := by
    rw [List.any_eq_false]
    rintro ⟨c, i⟩ hp
    simp only [allPages, List.mem_flatMap, List.mem_map, List.mem_range, Prod.mk.injEq] at hp
    obtain ⟨c', hc, i', hi, rfl, rfl⟩ := hp
    by_cases h2 : c' = 2
    · subst h2
      have hm : i' ∈ List.range 1152 := List.mem_range.2 hi
      have : (mayStart n).blk 2 i' = stRetired := by simp [Dev.blk, mayStart, hm]
      simp [this]
    · have := test_mayStart_pages n hn c' (by simp; omega) i' hi
      simp [this]
  unfold Dev.startRefused
  rw [h]
  simp only [List.mem_cons, List.not_mem_nil, or_false] at hn
  rcases hn with rfl | rfl <;> decide +kernel

theorem test_witness_JobsStartAndEnd :
    (Dev.reset.setF R.GLB_JOB_STATUS_ACTIVE 0 1).jobActive = true ∧ Dev.reset.jobActive = false
      ∧ Dev.reset.startRefused ≠ 0 ∧ (mayStart 0).startRefused = 0 ∧ (mayStart 65535).startRefused = 0 :=
  ⟨by decide, by decide, by decide, test_mayStart_refuse 0 (by decide), test_mayStart_refuse 65535 (by decide)⟩
theorem test_witness_JobsStartAndEnd_items :
    (mayStart 0).checkItems.1 = true ∧ (mayStart 0).ctl.order = [] ∧ (mayStart 0).jobActive = false
      ∧ (mayStart 65535).checkItems.1 = false := by
  decide +kernel

/-! Cells -/

theorem test_witness_CellFaultsCloche :
    Dev.reset.up = true ∧ (Dev.reset.setBlk CEL 1151 stRunning).blk CEL 1151 ∈ [stReady, stRunning, stQuiesced]
      ∧ (Dev.reset.setBlk CEL 1151 stRetired).blk CEL 1151 = stRetired := by decide
theorem test_witness_CellTestsReturnOrRetire :
    (Dev.reset.setBlk CEL 0 stCloched).blk CEL 0 = stCloched
      ∧ Dev.reset.recentFaults 0 < max 1 (Dev.reset.getF R.TRL_CELL_POLICY_FAULT_LIM 0)
      ∧ ¬ (1000 < max 1 (Dev.reset.getF R.TRL_CELL_POLICY_FAULT_LIM 0))
      ∧ Dev.reset.getF (R.BLK_CTRL_CLOCHE_REQ CEL) 0 = 0
      ∧ (Dev.reset.setF (R.BLK_CTRL_CLOCHE_REQ CEL) 0 1).getF (R.BLK_CTRL_CLOCHE_REQ CEL) 0 = 1
      ∧ Dev.reset.getF R.CEL_SPARE_POLICY_POLICY 0 ≠ 1 ∧ Dev.reset.held CEL 0 = false
      ∧ Dev.reset.bypassesCover 0 [3, 65] [0, 65] = true ∧ Dev.reset.bypassesCover 0 [1, 2, 3] [] = false
      ∧ (Dev.reset.setAct (R.BLK_CTRL_POLICY_HOLD TRL) 0 1).held TRL 0 = true
      ∧ (mfind (faultKey 0) { Dev.reset with testFails := [(faultKey 0, 1)] }.testFails).isSome = true
      ∧ mfind (faultKey 0) Dev.reset.testFails = none := by decide
theorem test_witness_RangesFree : RangesFree (cellState Cell.reset) 0 [(storeTop - 8, 8)] [(0, 1)] := by
  unfold RangesFree; decide
theorem test_witness_ScalarLoadAndStore : (cellState Cell.reset).dev.effAddr 0 0 (storeTop - 8) = storeTop - 8
    ∧ (cellState Cell.reset).dev.effAddr 0 0 (storeTop - 8) % 8 = 0 := by decide
theorem test_witness_CellStoreReadsAsWritten : bytesWf Cell.reset.store = true := by decide
theorem test_witness_ControlTransfersSetTheIndex :
    ({ Cell.reset with stack := List.replicate 15 7 }).stack.length < 16 ∧ ({ Cell.reset with stack := [16383] }).stack = [16383] := by
  decide
theorem test_witness_ScalarInstructionsTrap :
    3 ∉ [1, 2, 4, 8] ∧ storeTop < (cellState Cell.reset).dev.effAddr 0 0 (storeTop - 7) + 8
      ∧ (cellState Cell.reset).dev.effAddr 0 0 1 % 2 ≠ 0 ∧ (cellState Cell.reset).dev.effAddr 0 0 1 + 2 ≤ storeTop
      ∧ ({ Cell.reset with stack := List.replicate 16 0 }).stack.length = 16 ∧ Cell.reset.stack = [] := by decide

/-! Stream and vector instructions, DMA -/

/-- A descriptor of 64 rows of one block of 32 one-byte elements. -/
def tile8 : OperandDesc := { desc0 with block := 32, kLen := 32 }
/-- A cell with both operands set. -/
def operands : Cell := { Cell.reset with descX := some tile8, descW := some { tile8 with data := 0x2000, scale := 0x3000 } }

theorem test_witness_StreamInstructionsSetUpAPass :
    Dev.reset.descOk .stationary tile8 = true ∧ Dev.reset.descOk .weight tile8 = true ∧ Dev.reset.descOk .output tile8 = true
      ∧ pairingOk .m8 0 0 32 = true ∧ operands.poisoned = false ∧ operands.boardFull = false := by decide +kernel
theorem test_witness_StreamInstructions_scan :
    (preScan operands.rd tile8 { tile8 with data := 0x2000, scale := 0x3000 }).2 = true
      ∧ operands.conflicts (scanRanges tile8 ++ scanRanges { tile8 with data := 0x2000, scale := 0x3000 }) [] = false
      ∧ ∀ r ∈ scanRanges tile8 ++ scanRanges { tile8 with data := 0x2000, scale := 0x3000 }, r.2 = 0 ∨ r.1 + r.2 ≤ storeTop := by
  decide +kernel
theorem test_witness_StreamInstructions_load :
    ((List.range (min 64 tile8.rows)).map (loadColumn operands.rd tile8 false 0)).all (·.2) = true
      ∧ ∀ r ∈ dataRanges tile8 (List.range 64) 0 64 ++ scaleRanges tile8 (List.range 64) 0 64, r.2 = 0 ∨ r.1 + r.2 ≤ storeTop := by
  decide +kernel
theorem test_witness_StakeFixesTheWindow :
    let a : StakeArgs := ⟨255, 1, 2 ^ 32, 31, false, true, none⟩
    1 ≤ a.count ∧ a.first + a.count ≤ 256 ∧ a.kLen ≤ 2 ^ 32 ∧ a.emaxReg < 32 ∧ a.recomp = true
      ∧ stakeMode tile8 { tile8 with data := 0x2000, scale := 0x3000 } = some .m8
      ∧ operands.entriesBusy (operands.stakePlaces a) = false
      ∧ operands.descO.bind (·.entry) = none := by decide
/-- A cell whose entry 255 is staked in every column, with an output. -/
def drainable : Cell :=
  { operands with descO := some { tile8 with format := 11, data := 0x4000, pitch := 4 }
                  sf := (List.range 64).map (fun c => (sfKey c 255, { Entry.reset with staked := true })) }
theorem test_witness_PassStreamsIntoTheStakingFile :
    let a : PassArgs := ⟨.m8, 1, 255, true, 0, 0⟩
    let w := { tile8 with data := 0x2000, scale := 0x3000 }
    (cellState drainable).dev.passLegal 0 a tile8 w = true ∧ entriesOk a tile8 w = true
      ∧ (rowBands drainable.rd w 0 0).all (·.2) = true ∧ (drainable.passResults a drainable.bankA tile8 w).all (fun r => r.2.2.fits) = true
      ∧ (∀ r ∈ dataRanges w [0] 0 64 ++ scaleRanges w [0] 0 64, r.2 = 0 ∨ r.1 + r.2 ≤ storeTop) := by decide +kernel
theorem test_witness_PassBoundaryClosesThePass : ∃ p : PassRun, ({ operands with passes := [p] }).passes = p :: [] :=
  ⟨⟨⟨.m8, 1, 0, true, 0, 0⟩, [], [0]⟩, rfl⟩
theorem test_witness_DrainWritesOutputRows :
    let o := { tile8 with format := 11, data := 0x4000, pitch := 4 }
    drainable.descO = some o ∧ outputOk o 1 = true ∧ o.entry = none
      ∧ (∀ col < 64, (drainable.entry col 255).staked = true) ∧ drainable.conflicts [] (outRanges o 64 1) = false
      ∧ (∀ r ∈ outRanges o 64 1, r.2 = 0 ∨ r.1 + r.2 ≤ storeTop) := by decide +kernel
theorem test_witness_VectorOperationsWriteOneRegister :
    vopTypeOk .fma .f32 = true ∧ VOpKind.fma ≠ .rowSum ∧ isInt .i8 = true ∧ isInt .f64 = false ∧ 32512 + 256 ≤ 32768
      ∧ purposeOk 1 = true ∧ purposeOk 0xFFFF = true ∧ Cell.reset.convOk (.keep32 31) = true
      ∧ (Cell.reset.setS 31 1).convOk (.range 31) = true := by decide
theorem test_witness_TableLoadsFillTheTables :
    4095 + 1 ≤ 4096 ∧ 32767 + 1 ≤ 32768 ∧ Cell.reset.conflicts [(storeTop - 8, 8)] [] = false
      ∧ Cell.reset.boardFull = false := by decide
theorem test_witness_VectorLoadAndStore :
    vmemOk Dev.reset ⟨31, 1, { tile8 with format := 13, pitch := 128 }, 63, 0, .i32, none⟩ false = true
      ∧ vmemOk Dev.reset ⟨31, 1, { tile8 with format := 13, pitch := 128 }, 63, 0, .i32, none⟩ true = true := by decide

theorem test_witness_DmaOccupiesItsChannel :
    let op : DmaOp := .fromStore 0 0x5FFDFFFFF8 (.plain 8)
    dmaLegal Cell.reset.rd false op = true ∧ (∀ r ∈ dmaSources Cell.reset.rd op ++ dmaTargets op, Dev.reset.localOk r.1 r.2 = true)
      ∧ mfind 7 Cell.reset.dma = none ∧ dmaLegal Cell.reset.rd true op = true ∧ dmaWritesOut op = true
      ∧ ({ Cell.reset with plot := some 3 }).plot.bind (fun k => Dev.reset.flowOf (dmaPeer op) 0 k) = none
      ∧ (cellState { Cell.reset with poisoned := true }).dev.suppressed 0 = true
      ∧ Cell.reset.conflicts (dmaReads op) (dmaWrites Cell.reset.rd op) = false := by decide
/-- A valid flow to device 0 for traffic class 0 and queue 3. -/
def flow0 : Flow :=
  ⟨0, 0, 3, 0, 0, 0, 2 ^ 20, 15, 64, 0, 0, 0, 64, 1, 0, none, [], [], [], false⟩
theorem test_witness_DmaOccupiesItsChannel_global :
    ({ Dev.reset with fab := { Dev.reset.fab with flows := [(5, flow0)] } }).flowOf 0 0 3 = some 5 := by decide
/-- Cell 0 holds one open add, and n closed sets with one add each wait in stack 0. -/
def stageBase : Dev := cellUp { Cell.reset with adds := [⟨0x20000, 128, 0⟩] } Dev.reset
def stageDev (n : Nat) : Dev :=
  { stageBase with sets := List.replicate n ⟨0, 0, [⟨0, 128, 0⟩]⟩ }
theorem stageDev_bytes (n : Nat) : 32 * n ≤ (stageDev n).stagingBytes 0 := by
  have e : (stageDev n).openSets = [0x20000] :: List.replicate n [0] := by
    simp [Dev.openSets, stageDev, stageBase, cellUp, List.map_replicate]
  have h : ([0].filter (fun a => decide ((stageDev n).stackOf a = 0))).eraseDups.length = 1 := by
    have : (stageDev n).stackOf 0 = 0 := rfl
    simp [this, List.eraseDups_cons]
  unfold Dev.stagingBytes
  rw [e]
  simp only [List.map_cons, List.sum_cons, List.map_replicate, List.sum_replicate_nat, h]
  omega
theorem eight_sum_pos (f : Nat → Nat) (h : 1 ≤ f 0) : 1 ≤ ((List.range 8).map f).sum := by
  rw [show List.range 8 = [0, 1, 2, 3, 4, 5, 6, 7] from rfl]
  simp only [List.map_cons, List.sum_cons]
  omega
theorem roundUp_pos (k x : Nat) (hk : 0 < k) (h : 1 ≤ x) : 0 < (x + k - 1) / k := Nat.div_pos (by omega) hk
/-- A stack that needs more than its 8 MiB of staging does not fit where the spill area is empty. -/
theorem stagingFits_false (d : Dev) (h : 8388609 ≤ d.stagingBytes 0) (z : d.getF R.MEM_SPILL_SIZE_MIB 0 = 0) :
    d.stagingFits = false := by
  have p : 0 < d.spillMib :=
    roundUp_pos _ _ (Nat.two_pow_pos 20) (eight_sum_pos (fun k => d.stagingBytes k - 8 * 2 ^ 20) (Nat.le_sub_of_add_le h))
  unfold Dev.stagingFits
  rw [z, decide_eq_false_iff_not]
  exact Nat.not_le.mpr p
theorem stageDev_spill (n : Nat) : (stageDev n).getF R.MEM_SPILL_SIZE_MIB 0 = 0 := by
  have z : stageBase.getF R.MEM_SPILL_SIZE_MIB 0 = 0 := by decide +kernel
  simpa only [Dev.getF, stageDev] using z
theorem test_witness_DmaOccupiesItsChannel_stage : ∃ n, (stageDev n).stagingFits = false :=
  ⟨262145, stagingFits_false _ (Nat.le_trans (by decide) (stageDev_bytes 262145)) (stageDev_spill _)⟩
theorem test_witness_DmaOccupiesItsChannel_dmas :
    let plan : GradPlan := ⟨[⟨16, 0x10000, 0, 11⟩], 0x20000, 64, 0, 0⟩
    (∃ g, plan.grads[0]? = some g ∧ 0 + 16 ≤ g.count) ∧ isInt .f64 = false
      ∧ (cellState Cell.reset).dev.suppressed 0 = false ∧ (cellState Cell.reset).dev.stagingFits = true := by
  exact ⟨⟨_, rfl, by decide⟩, by decide, by decide, by decide⟩
/-- A cell whose channel 7 moves 8 bytes. -/
def moving (op : DmaOp) (halted : Bool) : State := cellState { Cell.reset with dma := [(7, ⟨op, halted, none, 0⟩)] }
theorem test_witness_DmaCompletesOrHalts :
    (moving (.toStore 64 0 (.plain 8)) false).dev.stagingFits = true
      ∧ (moving (.toStore 64 0 (.plain 8)) false).dev.poisonIn 64 8 = none
      ∧ (moving (.fromStore 0 64 (.plain 8)) false).dev.suppressed 0 = false
      ∧ ({ Dev.reset with mem := { Dev.reset.mem with poison := [8] } }).poisonIn 64 8 = some 64
      ∧ mfind 7 ((moving (.toStore 64 0 (.plain 8)) true).dev.cell 0).dma = some ⟨.toStore 64 0 (.plain 8), true, none, 0⟩
      ∧ ((moving (.toStore 64 0 (.plain 8)) false).dev.cell 0).mustFollow ⟨.toStore 64 0 (.plain 8), false, none, 0⟩ = false
      ∧ ({ Dev.reset with mem := { Dev.reset.mem with valid := [1] } }).lineValid 71 = true
      ∧ [(64, 8)].findSome? (fun r => ({ Dev.reset with mem := { Dev.reset.mem with poison := [8] } }).poisonIn r.1 r.2) = some 64
      ∧ mfind 7 [(7, (⟨.toStore 64 0 (.plain 8), true, some 2, 0⟩ : DmaSlot))] = some ⟨.toStore 64 0 (.plain 8), true, some 2, 0⟩ := by
  decide

/-! Tiles, waiting, staked sets -/

theorem test_witness_TileGetTakesTheNextTile :
    (PhaseRun.start).take = none ∧ ({ PhaseRun.start with tiles := 1 }).take = some (0, { PhaseRun.start with tiles := 1, next := 1 })
      ∧ ({ PhaseRun.start with returned := [4], tiles := 5, next := 5 }).take
        = some (4, { PhaseRun.start with tiles := 5, next := 5 }) := by decide
/-- Cell 0 runs plot 0, and scale-state entry 0 takes the just-in-time path in its first phase. -/
def warmDev : Dev :=
  let d := cellUp { Cell.reset with plot := some 0 } (Dev.reset.setF R.NUM_SST_COUNT_COUNT 0 1)
  { d with mem := { d.mem with bytes := [(3, 1#8), (11, 1#8)] } }
theorem test_witness_TileGetTakesTheNextTile_warm :
    warmDev.canIssue 0 = true ∧ (mfind (warmDev.cell 0).phase (warmDev.plot 0).phases).isSome = false
      ∧ warmDev.warmAmong [0] ≠ [] ∧ warmDev.holders 0 (warmDev.cell 0).phase none = [] ∧ warmDev.warmAmong [] = [] := by
  decide +kernel
/-- Cell 0 has halted in the run of plot 0, and tile 4 of its phase has come back. -/
def getAgain : Dev :=
  let d := (cellUp { Cell.reset with plot := some 0 } Dev.reset).setF R.CEL_SEQ_STATUS_RUN 0 0
  { d with plots := [(0, { PlotRun.idle with cmd := some cmd0, halted := [0], phases := [(0, { PhaseRun.start with returned := [4], tiles := 5, next := 5 })] })] }
theorem test_witness_TileGetTakesTheNextTile_again :
    getAgain.canIssue 0 = false ∧ getAgain.canGet 0 = true ∧ ((getAgain.plot 0).phase (getAgain.cell 0).phase).returned = [4] := by
  decide
theorem test_witness_TileDoneCompletesTheTile :
    let c := { Cell.reset with tiles := [⟨0, 0, 3⟩], plot := some 0 }
    c.dma = [] ∧ c.poisoned = false ∧ ({ c with poisoned := true }).poisoned = true := by decide
theorem test_witness_BarrierWaitsForThePhase :
    ({ PhaseRun.start with tiles := 1 }).over = false ∧ PhaseRun.start.over = true
      ∧ mwf (cellState { Cell.reset with plot := some 0 }).dev.cells = true := by decide
theorem test_witness_WaitFenceAndHalt :
    eventOk (.dma 7) = true ∧ 0 ≤ mget 0 Cell.reset.events (eventKey (.dma 7)) ∧ mget 0 Cell.reset.events (eventKey .pass) < 1
      ∧ Cell.reset.passes = [] ∧ Cell.reset.dma = [] ∧ Cell.reset.plot = none
      ∧ ({ Cell.reset with passes := [⟨⟨.m8, 1, 0, true, 0, 0⟩, [], [0]⟩] }).passes ≠ [] := by decide
theorem test_witness_StakedSetsApplyWhole :
    let x : ClosedSet := ⟨3, 4, [⟨0, 128, 5⟩]⟩
    [x].find? (fun y => decide (y.cell = 3) && decide (y.tile = 4)) = some x
      ∧ ∃ e ∈ (cellState { Cell.reset with adds := x.adds }).dev.cells, e.2.adds ≠ [] := by
  exact ⟨by decide, _, List.mem_cons_self, by decide⟩
theorem test_witness_MeasureEndsInFinal :
    let r : PhaseRun := ⟨.measure, 1, [], [0], 1, [], []⟩
    ({ Dev.reset with plots := [(63, { PlotRun.idle with phases := [(2, r)] })] }.plot 63).phase 2 = r
      ∧ r.kind = .measure ∧ r.done.length = r.tiles ∧ r.tiles ≠ 0 := by decide

/-! Numeric page, thin-channel engine, policy -/

theorem test_witness_NumericPageCommands :
    (2 ^ 32 + Dev.reset.getF R.NUM_RING_PROD_PROD 0 - 0 % 2 ^ 32) % 2 ^ 32 ≤ 2 ^ Dev.reset.getF R.NUM_RING_CFG_LOG2_SIZE 0
      ∧ 2 ^ Dev.reset.getF R.NUM_RING_CFG_LOG2_SIZE 0 < (2 ^ 32 + Dev.reset.getF R.NUM_RING_PROD_PROD 0 - 1) % 2 ^ 32
      ∧ Dev.reset.numx.droppedSince = 0 ∧ 1151 < 1152 := by decide
/-- A sieve slot of cell 3. -/
def slot3 (host : Option Nat) : SieveSlot := ⟨⟨0, 0, 0⟩, 3, 0, [], host⟩
/-- The device with that slot. -/
def withSlot (host : Option Nat) (d : Dev) : Dev := { d with numx := { d.numx with sieve := [(2, slot3 host)] } }
theorem test_witness_SieveSlots :
    mfind 2 (withSlot none Dev.reset).numx.sieve = some (slot3 none) ∧ (withSlot none Dev.reset).spareHost = none
      ∧ (withSlot none (Dev.reset.setBlk CEL 1024 stReady)).spareHost = some 1024
      ∧ (withSlot none (Dev.reset.setBlk CEL 5 stReady)).borrowHost (slot3 none) = some 5
      ∧ ((withSlot none Dev.reset).setAct R.NUM_SIEVE_CFG_BORROW 0 1).actF R.NUM_SIEVE_CFG_BORROW 0 = 1
      ∧ mwf (withSlot (some 1024) Dev.reset).numx.sieve = true ∧ (slot3 (some 1024)).copies = [] := by decide +kernel
/-- A thin-channel request at address 4096. -/
def thnReq : ThnReq := ⟨false, 4096, { cmd0 with opc := 10 }, 0, 0, 0, 0, 0, none, 0, [], [], [], false⟩
/-- Unit 1 is READY with one request whose OP is op and whose bytes beyond stand in ms. -/
def thnDev (op : Nat) (ms : List (Nat × Byte)) : Dev :=
  let d := Dev.reset.setBlk THN 1 stReady
  { d with thn := [(1, { Thn.reset with jobs := [thnReq] })], mem := { d.mem with bytes := (4096, BitVec.ofNat 8 op) :: ms } }
theorem test_witness_ThinRequestsStart :
    (thnDev 4 []).thnNext 1 = some (thnReq, Thn.reset) ∧ (thnDev 1 []).thnOp 1 = some 1
      ∧ (thnDev 3 []).thnOp 1 = some 3 ∧ (thnDev 4 []).thnOp 1 = some 4 ∧ (thnDev 5 []).thnOp 1 = some 5
      ∧ ((thnDev 4 []).thnChecked [(4096, 64)] [] (ThnOut.ended 0 none)).status = 0
      ∧ ((thnDev 1 []).thnConvRun 1 thnReq []).2.fault = none ∧ ((thnDev 3 []).thnArg thnReq []).fault = none
      ∧ ((thnDev 3 [(4108, 7#8)]).thnCookie thnReq).cookie = 7
      ∧ ((thnDev 4 []).thnScores thnReq [] false).fault = none ∧ ((thnDev 5 []).thnScores thnReq [] true).fault = none := by
  decide +kernel
theorem test_witness_ArgmaxPicksTheFirstLargest : ∀ y ∈ [Machine.Num.zero, .fin true 1 0], y.isNan = false := by decide
theorem test_witness_ThinRequestsComplete :
    thnReq.stats = [] ∧ thnReq.events = [] ∧ thnReq.host = false ∧ { thnReq with host := true }.host = true := by decide
/-- A job in step 1 of which nothing is recorded, with the features n. -/
def job (n : Nat) : Dev := ((Dev.reset.setF R.GLB_JOB_STATUS_ACTIVE 0 1).setF R.GLB_STEP 0 1).setF (R.GLB_FEATURES_ACTIVE 0) 0 n
/-- A job with REBALANCE on 64 logical cells, where plot 1 has cells 0 and 1 and plot 0 the others, with busy times 16 and 18. -/
def rebDev : Dev :=
  { Dev.reset with
    fields := [((R.GLB_FEATURES_ACTIVE 0).key 0, 0x800), (R.GLB_STEP.key 0, 1), (R.GLB_JOB_STATUS_ACTIVE.key 0, 1),
      (R.PLT_REBAL_EN.key 0, 1), ((R.PLT_MEMBER 0).key 0, 0xFFFFFFFC), ((R.PLT_MEMBER 1).key 0, 0xFFFFFFFF),
      (R.PLT_REBAL_EN.key 1, 1), ((R.PLT_MEMBER 0).key 1, 3)]
    nv := { Dev.reset.nv with grade := 15 }
    ctl := { Dev.reset.ctl with prevBusy := [(0, 16), (1, 18)] } }
theorem test_witness_RebalanceIsDecidedOnce :
    let d := rebDev
    d.jobActive = true ∧ d.recorded = none ∧ d.ctl.rebTried = false ∧ d.step ≠ 0 ∧ d.rebAble = [0, 1]
      ∧ spreadLarge ((d.rebInputs (d.rebAble.filter (fun k => !d.held PLT k))).map (·.2.1)) = true
      ∧ (d.rebCounts (d.rebInputs d.rebAble)).isSome = true := by
  decide +kernel
theorem test_witness_RebalanceIsDecidedOnce_held :
    let d := rebDev.setAct (R.BLK_CTRL_POLICY_HOLD PLT) 1 1
    d.rebAble = [0, 1] ∧ d.held PLT 1 = true ∧ spreadLarge ((d.rebInputs d.rebAble).map (·.2.1)) = true := by
  decide +kernel
theorem test_witness_StatisticsPromoteEntries :
    (job 0x1000).jobActive = true ∧ (job 0x1000).recorded = none ∧ (job 0x1000).statsWithheld = false ∧ (job 0x1000).step ≠ 0
      ∧ (job 0x1000).feature 12 = true ∧ (job 0x1000).held NUM 0 = false := by decide
/-- An entry at address 0 of format 0 with FLAGS bit 1 and MAX_FORMAT 9 is considered for promotion. -/
def entryDev : Dev :=
  let d := (job 0x1000).setF R.NUM_SST_COUNT_COUNT 0 1
  { d with mem := { d.mem with bytes := [(1, 9#8), (11, 2#8)] } }
theorem test_witness_StatisticsPromoteEntries_entry :
    entryDev.sstCount = 1 ∧ entryDev.promotable 0 = true ∧ (entryDev.promoteTo 0).isSome = true ∧ entryDev.promoted 0 = false := by
  decide +kernel

/-! Steps, seals, job commands -/

/-- A job whose positions have passed and whose command order holds the command c alone. -/
def jobWith (c : JobCmd) (st : OrderPhase) : Dev :=
  { job 0 with ctl := { (job 0).ctl with gsbChecked := true, order := [⟨c, st⟩] } }
/-- The device is paired and streams to its partner, device 0, on flow 0 of a KIND. -/
def paired (kind : Nat) (d : Dev) : Dev :=
  let d := (((d.setF R.SOW_PAIR_STATUS_STATE 0 3).setF R.SOW_PARTNER_VALID 0 1).setF R.SOW_PARTNER_DEVICE 0 0)
  { d with fab := { d.fab with flows := [(0, { flow0 with kind := kind })] } }
theorem test_witness_StepsCloseAtTheirMark :
    (jobWith cmd0 .held).boundaryReady = true ∧ Dev.reset.boundaryReady = false ∧ cmd0.opc = 1 ∧ argsClear cmd0 0 = true
      ∧ (jobWith cmd0 .held).unsealedCount < 2 ∧ (jobWith cmd0 .held).boundaryPoison = none
      ∧ (jobWith cmd0 .held).ctl.order.length = 1 ∧ (jobWith cmd0 .held).captures = false := by decide +kernel
theorem test_witness_StepsCloseAtTheirMark_held :
    let d := paired 1 (jobWith cmd0 .held)
    { d with sow := { d.sow with unsealed := [0, 1] } }.unsealedCount = 2
      ∧ { d with sow := { d.sow with unsealed := [0, 1] } }.boundaryReady = true ∧ d.captures = true ∧ d.sow.baseActive = false
      ∧ { d with mem := { d.mem with poison := [d.gsbBase / 8] } }.boundaryPoison = some (d.gsbBase / 8 * 8, 6) := by
  decide +kernel
theorem test_witness_StepsCloseAtTheirMark_records :
    (({ jobWith cmd0 .held with ctl := { (jobWith cmd0 .held).ctl with
        decisions := [] } }).batchShort.boundaryState.2.stepRecords [] false false).length ≤ 16384 := by
  decide +kernel
theorem test_witness_SealsCoverEarlierBoundaries :
    (paired 1 Dev.reset).streaming = true ∧ Dev.reset.streaming = false ∧ Dev.reset.ctl.heldMeasure = none
      ∧ 7 ∈ { Dev.reset.sow with unsealed := [6, 7] }.unsealed := by decide
/-- A command of an opcode with arguments. -/
def cmd (opc : Nat) (args : List Nat) : JobCmd := { cmd0 with opc := opc, args := args }
/-- A job whose positions have passed, with collective engine 0 in service. -/
def running : Dev := { job 0 with ctl := { (job 0).ctl with gsbChecked := true } }.setBlk COL 0 stReady
theorem test_witness_Begins : ∀ opc ∈ [2, 3, 4, 5, 6, 9], Begins (base (fun _ => running)) (cmd opc [0]) := by
  intro opc h
  simp only [List.mem_cons, List.not_mem_nil, or_false] at h
  rcases h with rfl | rfl | rfl | rfl | rfl | rfl <;> exact ⟨by decide, by decide, by decide⟩
theorem test_witness_JobCommandsWaitInOrder :
    ∀ opc ∈ [2, 3, 4, 5, 6, 7, 8, 9], (placed (job 0) (cmd opc [0])).mayBegin (jobWith cmd0 .held).ctl.order (cmd opc [0]) = false := by
  decide
theorem test_witness_PlotRunsStartAndComplete :
    let c := cmd 2 [0, 0, 65536, 16383]
    Begins (base (fun _ => running)) c ∧ argOf c 0 < 64 ∧ argOf c 2 ≤ 65536 ∧ argOf c 3 < 16384 ∧ argsClear c 4 = true
      ∧ running.inJob (argOf c 1) (argOf c 2) = true ∧ Dev.reset.runOver 0 = false := by
  exact ⟨⟨by decide, by decide, by decide⟩, by decide, by decide, by decide, by decide, by decide, by decide⟩
theorem test_witness_PlotRunsStartAndComplete_active : Dev.reset.plotActive 0 = true ∧ Dev.reset.plotActive 63 = false := by
  decide +kernel
/-- Cell 3, the only one in service, has run plot 0 and halted. -/
def halted3 : Dev :=
  let d := running.setBlk CEL 3 stRunning
  { d with plots := [(0, { PlotRun.idle with cmd := some (cmd 2 [0]), halted := [3] })], cells := [(3, { Cell.reset with plot := some 0 })] }
theorem test_witness_PlotRunsStartAndComplete_over : halted3.runOver 0 = true ∧ (halted3.plot 0).cmd = some (cmd 2 [0]) := by
  decide +kernel
/-- The fields of one gradient list entry at 0x1000: 16 elements, result at 0x10000, RFORMAT 11. -/
def gradBytes : List (Nat × Byte) := [(0x1000, 16#8), (0x100A, 1#8), (0x1014, 11#8)]
theorem test_witness_GradientPlansAndPositions :
    let c := cmd 4 [0x1000, 1, 0x20000]
    let p : GradPlan := ⟨[⟨16, 0x10000, 0, 11⟩], 0x20000, 64, 0, 0x1000⟩
    running.sow.planAtOnce = false ∧ running.sow.planFirst ≠ some c.num ∧ bitsOf (argOf c 1) 33 7 = 0
      ∧ bitsOf (argOf c 1) 48 16 = 0 ∧ argsClear c 3 = true ∧ bitOf (argOf c 1) 32 = false
      ∧ argOf (cmd 5 [0]) 0 < p.grads.length ∧ argsClear (cmd 5 [0]) 1 = true ∧ argsClear (cmd 6 []) 0 = true := by decide
theorem test_witness_GradientPlansAndPositions_refused : running.planOk 0x1000 0 0x20000 ⟨[], 0x20000, 64, 0, 0x1000⟩ = false := by
  decide
/-- The device of a plan at 0x1000 whose entry names scale-state entry 0. -/
def planDev : Dev :=
  let d := running.setF R.NUM_SST_COUNT_COUNT 0 1
  { d with mem := { d.mem with bytes := [(0x1000, 16#8), (0x100A, 1#8), (0x1014, 11#8)] } }
theorem test_witness_GradientPlansAndPositions_plan :
    planDev.planOk 0x1000 1 0x20000 ⟨[planDev.gradAt 0x1000], 0x20000, 64, 0, 0x1000⟩ = true
      ∧ bitsOf (argOf (cmd 4 [0x1000, 1, 0x20000]) 1) 40 8
          < min 256 ((planDev.setF R.COL_GROUP_COUNT_COUNT 0 1).getF R.COL_GROUP_COUNT_COUNT 0) := by decide +kernel

/-! Collectives -/

/-- A group of two at 0x2000: the device is rank 1; rank 0 is device 0 on flow 0. -/
def groupDev (d : Dev) : Dev :=
  let d := ((d.setF R.COL_GROUP_BASE_LO_ADDR_LO 0 (0x2000 / 2 ^ R.COL_GROUP_BASE_LO_ADDR_LO.lo)).setF R.COL_GROUP_COUNT_COUNT 0 1)
  { d with mem := { d.mem with bytes := [(0x2004, 2#8), (0x2006, 1#8), (0x2011, 0x30#8)] }
           fab := { d.fab with flows := [(0, { flow0 with kind := 2 })] } }
theorem test_witness_CollectivesEnterFlight :
    let d := groupDev running
    let c := cmd 9 [0]
    d.groupOk 0 = true ∧ directArgsBad c = false ∧ directArgsBad (cmd 7 [0, 0, 0x3000, 64]) = false
      ∧ directArgsBad (cmd 8 [0, 0, 0x3000, 64]) = false ∧ (d.group 0).rank ≠ 0 ∧ 2 ≤ (d.group 0).n ∧ d.gateShut = false
      ∧ d.fab.parked = [] ∧ d.fab.colls = [] ∧ d.directWindows (d.group 0) (.allGather 0 0x3000 64) = true := by decide +kernel
theorem test_witness_CollectivesEnterFlight_gate :
    let d := paired 1 (running.setF R.SOW_CFG_SEAL_GATE 0 1)
    { d with sow := { d.sow with unsealed := [0] } }.gateShut = true := by decide +kernel
/-- An all-gather of no bytes waits for nobody. -/
theorem test_witness_CollectivesEnterFlight_ends :
    directArgsBad (cmd 7 [0, 0, 0x3000, 0]) = false ∧ directKind (cmd 7 [0, 0, 0x3000, 0]) = .allGather 0 0x3000 0
      ∧ ((groupDev running).group 0).n ≠ 1 ∧ ((groupDev running).group 0).rank ≠ 0
      ∧ (groupDev running).directWindows ((groupDev running).group 0) (.allGather 0 0x3000 0) = true := by decide +kernel
/-- A plan of one bucket of 16 elements, whose entry is done. -/
def bucketDev : Dev :=
  let d := groupDev running
  { d with train := { d.train with plan := some ⟨[⟨16, 0x10000, 0, 11⟩], 0x20000, 64, 0, 0x1000⟩, doneGrads := [0] } }
theorem test_witness_CollectivesEnterFlight_bucket :
    bucketDev.train.started < bucketDev.bucketCount ∧ bucketDev.bucketIn bucketDev.train.doneGrads 0 = true
      ∧ bucketDev.engineUp 0 = true ∧ bucketDev.groupOk 0 = true := by decide +kernel
/-- A JOB ring of port A with one entry to fetch. -/
def ringDev (kind : Nat) : Dev :=
  Dev.reset.setRing 0 1 { Ring.reset with enabled := true, kind := kind, tail := 1 }
theorem test_witness_SubmissionEntriesAreFetched :
    ((ringDev 1).ring 0 1).fetches = true ∧ (Dev.reset.ring 0 1).fetches = false ∧ ((ringDev 1).ring 0 1).kind = 1
      ∧ (entryCmd 0 0 1 0 (1 :: List.replicate 63 0)).opc = 1 ∧ kindAccepts 1 (entryCmd 0 0 1 0 (List.replicate 64 0)).opc = false
      ∧ argsClear (entryCmd 0 0 1 0 (1 :: List.replicate 63 0)) 0 = true := by decide +kernel
/-- A collective of two members in flight, of rank r. -/
def coll2 (r : Nat) (k : CollKind) : Coll :=
  { (⟨0, 2, r, 0, 0, 1, [(0, 0), (0, 0)]⟩ : Group).coll 0 1 0 0 64 k (some (cmd 9 [0])) with segs := 1, sent := true }
/-- The device with that collective, on flow 0 from device 0. -/
def collDev (r : Nat) (k : CollKind) : Dev :=
  let d := groupDev running
  { d with fab := { d.fab with colls := [coll2 r k] } }
/-- A message of the collective from the other member. -/
def collPacket (opc r : Nat) (pay : List Byte) : Packet :=
  { packet0 with opc := opc, addr := r * 2 ^ 32 + 2 * 2 ^ 48, tag := 1, op2 := 1, len := pay.length, payload := pay }
theorem test_witness_Meets :
    let s := base (fun _ => collDev 1 (.bucket 0 false))
    let p := collPacket 0x20 0 []
    let c := coll2 1 (.bucket 0 false)
    InSequence s p ∧ s.dev.fab.colls = [c] ∧ packetKey p = c.key ∧ c.from? p = true ∧ s.dev.mismatched c p = false ∧ c.leaf = 1
      ∧ packetRank p ≠ c.rank ∧ c.seg = [] ∧ c.hdrRes = none ∧ NothingHeld s := by
  unfold InSequence NothingHeld; decide +kernel
theorem test_witness_Reaches :
    Reaches (base (fun _ => collDev 1 (.bucket 0 false))) (collPacket 0x20 0 []) (coll2 1 (.bucket 0 false))
      ∧ (collDev 1 (.bucket 0 false)).replaying = false ∧ { collPacket 0x21 0 [] with status := 1 }.status ≠ 0
      ∧ bitOf { collPacket 0x23 0 [] with flags := 1 }.flags 0 = true
      ∧ Reaches (base (fun _ => collDev 1 .barrier)) (collPacket 0x26 0 []) (coll2 1 .barrier)
      ∧ Reaches (base (fun _ => collDev 0 .barrier)) (collPacket 0x25 1 []) { coll2 0 .barrier with barSeen := [] }
      ∧ Reaches (base (fun _ => collDev 1 (.broadcast 0 0x3000 64 0))) (collPacket 0x24 0 [1]) (coll2 1 (.broadcast 0 0x3000 64 0)) := by
  unfold Reaches InOrder NothingHeld; decide +kernel
theorem test_witness_BucketMessagesAreTaken :
    let p := collPacket 0x21 0 []
    p.status = 0 ∧ bitOf p.flags 3 = false ∧ (coll2 1 (.bucket 0 false)).mode = 0
      ∧ ∃ q < (coll2 1 (.bucket 0 false)).segs, q ∉ (coll2 1 (.bucket 0 false)).resSeg := by decide +kernel
theorem test_witness_GathersBarriersAndWaits :
    let c := coll2 0 .barrier
    let d := collDev 0 .barrier
    c.kind = .barrier ∧ (1 ∉ c.barSeen) ∧ c.barSeen.length + 1 < c.n ∧ c.cmd = some (cmd 9 [0])
      ∧ d.oldestColl 0 = some c ∧ d.coll c.key = some c ∧ d.actF R.COL_WAIT_LIMIT 0 = 0
      ∧ (d.setAct R.COL_WAIT_LIMIT 0 1).actF R.COL_WAIT_LIMIT 0 ≠ 0
      ∧ (∀ opc ∈ [0x20, 0x24, 0x25], (groupDev running).parks (collPacket opc 0 []) = true)
      ∧ (groupDev running).canPark (collPacket 0x24 0 []) = true ∧ (1 ∉ ([0] : List Nat)) ∧ [0].length + 1 = c.n
      ∧ ((groupDev running).setF R.FLW_POOL_FREE_N 0 0).canPark (collPacket 0x24 0 [0]) = false := by
  decide +kernel

/-! Flows, ports, links -/

/-- Flow 0 is open to device 0 with a window of 1 MiB and every right. -/
def flowDev (d : Dev) : Dev := { d with fab := { d.fab with flows := [(0, flow0)] } }
/-- After reset, with that flow. -/
def flowState : State := base flowDev
/-- A packet of an opcode on flow 0. -/
def packetOn (opc attr addr : Nat) (pay : List Byte) : Packet :=
  { packet0 with opc := opc, attr := attr, addr := addr, len := pay.length, payload := pay }
theorem test_witness_InSequence : InSequence flowState (packetOn 1 0 (2 ^ 20 - 7) (List.replicate 8 0)) := by
  unfold InSequence; decide
/-- After reset, with word 0 poisoned in a valid line. -/
def poisoned0 : Dev := { Dev.reset with mem := { Dev.reset.mem with poison := [0], valid := [0] } }
theorem test_witness_RemoteOperationsAct :
    (flowState.dev.flow 0).waiting = [] ∧ 0 < (flowState.dev.flow 0).credits ∧ lenOk (packetOn 1 0 0 [0]) = true
      ∧ lenOk (packetOn 1 0 0 []) = false ∧ flow0.allows (2 ^ 20 - 7) 8 1 = true ∧ flow0.allows (2 ^ 20 - 6) 8 1 = false
      ∧ flow0.allows 0 8 2 = true ∧ flow0.allows 0 16 3 = true ∧ flow0.allows 0 1 0 = true
      ∧ flowState.dev.poisonIn 0 8 = none ∧ ({ Dev.reset with mem := { Dev.reset.mem with poison := [0] } }).poisonIn 0 8 = some 0
      ∧ saddWidth 2 / 8 = 16 ∧ knownOpc 7 = false ∧ knownOpc 0x30 = true ∧ knownSub 0x44 = false := by decide
/-- A put that covers part of a poisoned word; a get beyond the window; poison in a valid line. -/
theorem test_witness_RemoteOperationsAct_poison :
    (∃ x ∈ partWords 4 8, (poisoned0.poisonIn x.1 x.2).isSome = true) ∧ flow0.allows (2 ^ 20 - 6) 8 0 = false
      ∧ poisoned0.poisonIn 0 8 = some 0 ∧ poisoned0.lineValid 0 = true ∧ Dev.reset.fab.colls = [] := by
  exact ⟨⟨(4, 1), by decide, by decide⟩, by decide, by decide, by decide, rfl⟩
theorem test_witness_PacketsOutOfSequenceDoNothing :
    seqDiff 1 flow0.rxSeq ≠ 0 ∧ seqDiff (2 ^ 32 - 1) flow0.rxSeq ≠ 0 ∧ seqDiff 0 flow0.txAcked ≤ 0 := by decide
/-- An operation of an opcode with tag 9 outstanding on flow 0, and a packet that waits for its acknowledgement. -/
def opDev (opc : Nat) : Dev :=
  let d := flowDev Dev.reset
  { d with fab := { d.fab with flows := [(0, { flow0 with ops := [⟨9, opc, 1151, 7, 0, 8, 1, 0⟩], unacked := [packet0], txSeq := 1, owed := true })] } }
theorem test_witness_FlowsAcknowledgeAndRecover :
    (opDev 2).opByTag 0 9 2 = some ⟨9, 2, 1151, 7, 0, 8, 1, 0⟩ ∧ (opDev 4).opByTag 0 9 4 = some ⟨9, 4, 1151, 7, 0, 8, 1, 0⟩
      ∧ ((opDev 1).flow 0).ops.find? (fun x => decide (x.tag = 9)) = some ⟨9, 1, 1151, 7, 0, 8, 1, 0⟩
      ∧ 0 < seqDiff 1 ((opDev 1).flow 0).txAcked ∧ 0 ≤ seqDiff ((opDev 1).flow 0).txSeq 1
      ∧ seqDiff 0 ((opDev 1).flow 0).txAcked ≤ 0 ∧ ((opDev 1).flow 0).owed = true ∧ flow0.owed = false
      ∧ ((opDev 1).flow 0).pendingAck = true ∧ ((opDev 1).flow 0).state = 1 ∧ { flow0 with state := 3 }.state = 3 := by decide
/-- A staged context whose window is bytes 0 to 4095, with one credit. -/
def contextDev (d : Dev) : Dev := (d.setF (R.FLW_DATA 4) 0 4095).setF (R.FLW_DATA 6) 0 0x10000
theorem test_witness_FlowContextsAndRoutes :
    (contextDev Dev.reset).contextCode 0 (contextDev Dev.reset).stagedContext = 2
      ∧ (opDev 1).contextCode 0 (contextDev Dev.reset).stagedContext = 5
      ∧ Dev.reset.inJob Dev.reset.routeBase 524288 = true ∧ Dev.reset.routeImage.any (fun e => badRoute e.2) = false
      ∧ (Dev.reset.setF R.FLW_RT_BASE_HI_ADDR_HI 0 0x60).inJob (Dev.reset.setF R.FLW_RT_BASE_HI_ADDR_HI 0 0x60).routeBase 524288 = false
      ∧ Dev.reset.rlOpen false FLW 0 = true := by decide +kernel
theorem test_witness_FlowContexts_shadow :
    let lo := Dev.reset.setF R.FLW_SHADOW_LO_ADDR_LO 0 1
    let hi := Dev.reset.setF R.FLW_SHADOW_HI_ADDR_HI 0 0x60
    lo.inJob lo.shadowBase (2 ^ 24) = true ∧ Dev.reset.inJob Dev.reset.shadowBase (2 ^ 24) = true
      ∧ hi.inJob hi.shadowBase (2 ^ 24) = false := by decide

/-- Port 31 in an LSTATE, READY. -/
def portIn (st : Nat) : Dev := (Dev.reset.setBlk LNK 31 stReady).setF R.LNK_STATUS_LSTATE 31 st
theorem test_witness_PortsTrainAndRetrain :
    (portIn 0).lstate 31 = 0 ∧ (portIn 0).blk LNK 31 ∈ [stReady, stRunning] ∧ (portIn 1).lstate 31 = 1 ∧ (portIn 2).lstate 31 = 2
      ∧ (portIn 3).lstate 31 = 3 ∧ (portIn 2).getF R.LNK_STATUS_FAILED_LANES 31 = 0
      ∧ ((portIn 2).setF R.LNK_STATUS_FAILED_LANES 31 1).getF R.LNK_STATUS_FAILED_LANES 31 ≠ 0
      ∧ bitOf (((portIn 2).setF R.LNK_STATUS_FAILED_LANES 31 1).getF R.LNK_STATUS_FAILED_LANES 31) 7 = false
      ∧ ([(31, 7), (30, 0)].map (·.1)).Nodup ∧ (portIn 2).getF R.LNK_CTRL_SPARE_EN 31 ∈ [0, 1] := by decide
/-- A neighbour without a device number that shows n lanes in lock. -/
def neighbour (n : Nat) : Neighbour := ⟨false, none, 3, [], 0, List.replicate 8 128, 100, n⟩
/-- Port 31 has passed the identity exchange with that neighbour. -/
def creditsDev (n : Nat) : Dev := (portIn 1).setPort 31 { Port.reset with train := .credits, neighbour := some (neighbour n) }
theorem test_witness_PortsTrainAndRetrain_lanes :
    (creditsDev 8).lstate 31 = 1 ∧ ((creditsDev 8).port 31).train = .credits ∧ ((creditsDev 8).port 31).neighbour = some (neighbour 8)
      ∧ (neighbour 8).lanes = 8 ∧ ((creditsDev 6).port 31).neighbour = some (neighbour 6)
      ∧ (portIn 3).getF R.LNK_STATUS_FAILED_LANES 31 = 0
      ∧ ((portIn 3).setF R.LNK_CTRL_SPARE_EN 31 1).getF R.LNK_CTRL_SPARE_EN 31 = 1 := by decide
theorem test_witness_PortsTrainAndRetrain_trust :
    (Dev.reset.compareTrust 0 31 5 []).1 = false
      ∧ ((Dev.reset.setF R.SEC_TRUST_CTRL_ENROLL 0 1).compareTrust 0 31 5 []).1 = true := by decide +kernel
/-- Port 31 is live, one packet in transit waits on VL 3, one flit waits for its acknowledgement. -/
def liveDev : Dev :=
  (portIn 2).setPort 31 { Port.reset with train := .active, queue := [(3, [⟨{ packet0 with src := 4 }, 0, 1, some (30, 3)⟩])]
                                          grants := (List.range 8).map (fun k => (k, 128)), replay := [⟨0, 3, .head, true, []⟩] }
theorem test_witness_LinksCarryFlits :
    liveDev.live 31 = true ∧ liveDev.arbitrate 31 = some 3 ∧ (portIn 2).arbitrate 31 = none ∧ (liveDev.port 31).replay ≠ []
      ∧ (liveDev.port 31).replay.length < 1024 ∧ (liveDev.port 31).replays < max 1 (liveDev.actF R.LNK_TIMERS_REPLAY_LIM 31)
      ∧ max 1 (liveDev.actF R.LNK_TIMERS_REPLAY_LIM 31) ≤ 255
      ∧ mget [] (liveDev.port 31).queue 3 = ⟨{ packet0 with src := 4 }, 0, 1, some (30, 3)⟩ :: [] ∧ 4 ≠ liveDev.devNum
      ∧ Dev.reset.rlOpen false LNK 31 = true := by decide +kernel
/-- A flit whose head names a packet, with a sequence number. -/
def headFlit (p : Packet) (last : Bool) (seq : Nat) : Flit :=
  makeFlit (headerBytes p ++ List.replicate 192 0) ⟨0, .head, last, false, seq, 0, 0, 0⟩
/-- A flit that is made is accepted where it comes next, and is out of sequence elsewhere; its head is its packet's. -/
theorem test_witness_LinksCarryFlits_accepted (p : Packet) (last : Bool) :
    liveDev.live 31 = true ∧ (liveDev.port 31).rxSeq = 0 ∧ (tailOf (headFlit p last 0).tail).nack = false
      ∧ (tailOf (headFlit p last 0).tail).seq = 0 ∧ (tailOf (headFlit p last 0).tail).kind = .head
      ∧ (tailOf (headFlit p last 0).tail).last = last ∧ crcGood (headFlit p last 0) = true
      ∧ (tailOf (headFlit p last 5).tail).seq = 5 ∧ (tailOf (headFlit p last 5).tail).kind ≠ .idle := by
  refine ⟨by decide, by decide, ?_⟩
  simp [headFlit, tailOf_makeFlit]
theorem test_witness_LinksCarryFlits_local : (packetOfHeader (headerBytes packet0)).dst = liveDev.devNum := by decide +kernel
/-- Transit is enabled on port 31, and device 9 is reached over the live port 31. -/
def transitDev : Dev :=
  let d := liveDev.setF R.LNK_TRANSIT_TRANSIT_EN 31 1
  { d with fab := { d.fab with routes := [(9, 2 ^ 63 + 0x9F)] } }
theorem test_witness_LinksCarryFlits_transit :
    let p := packetOfHeader (headerBytes { packet0 with dst := 9, hops := 3 })
    p.dst ≠ transitDev.devNum ∧ p.hops ≠ 0 ∧ transitDev.getF R.LNK_TRANSIT_TRANSIT_EN 31 = 1
      ∧ transitDev.pickPort p = some 31 := by decide +kernel
theorem test_witness_LinksCarryFlits_damaged :
    crcGood ⟨[], 1⟩ = false ∧ ({ Port.reset with badWord := true }).badWord = true := by decide +kernel
theorem test_witness_LinksCarryFlits_buffers :
    let low (n : Nat) := (List.range 4).map (fun k => Dev.reset.vlBuf 31 (k + 4)) ++ (List.range 4).map (fun k => 16 * bitsOf n (8 * k) 8)
    (low 0x01010101).sum ≤ 1024 ∧ 0 ∉ low 0x01010101 ∧ 1024 < (low 0xFFFFFFFF).sum := by decide

/-! Memory -/

/-- After reset, with the words of byte addresses 0 and memTop - 8 poisoned and their lines valid. -/
def poisonState : State :=
  base (fun d => { d with mem := { d.mem with poison := [0, (memTop - 8) / 8], valid := [0, (memTop - 8) / 64] } })
theorem test_witness_MemoryWritesReadBack :
    memTop < memTop - 7 + 8 ∧ memTop - 8 + 8 ≤ memTop ∧ State.reset.dev.poisonIn (memTop - 8) 8 = none
      ∧ State.reset.dev.mem.poison.Nodup ∧ (memTop - 8) / 8 ∈ poisonState.dev.mem.poison ∧ poisonState.dev.mem.poison.Nodup := by
  decide
/-- After reset, with line 1 valid. -/
def lineState : State := base (fun d => { d with mem := { d.mem with valid := [1] } })
theorem test_witness_MemoryReadsDeliver :
    (memTop - 8) / 8 ∈ poisonState.dev.poisonedIn (memTop - 8) 8 ∧ (memTop - 8) / 64 ∈ poisonState.dev.mem.valid
      ∧ lineState.dev.poisonedIn 64 8 = [] ∧ lineState.dev.flippedIn 64 8 = [] ∧ 64 / 64 ∈ lineState.dev.mem.valid := by decide
theorem test_witness_StakedAddsAccumulate :
    State.reset.dev.poisonIn (memTop - 16) 16 = none ∧ (memTop - 16) % 16 = 0 ∧ 4 % 16 ≠ 0
      ∧ mwf State.reset.dev.mem.flips = true ∧ poisonState.dev.poisonedIn (memTop - 16) 16 ≠ [] := by decide
theorem test_witness_StacksScrub_next :
    let d := { lineState.dev with mem := { lineState.dev.mem with poison := [9] } }
    lineState.dev.nextScrub (lineState.dev.stackOf 64) = some 1 ∧ lineState.dev.poisonedIn 64 64 = []
      ∧ lineState.dev.flippedIn 64 64 = [] ∧ lineState.dev.nextScrub 7 = none
      ∧ d.nextScrub (d.stackOf 64) = some 1 ∧ d.poisonedIn 64 64 ≠ [] := by decide +kernel
theorem test_witness_StacksScrubRecalibrateAndReport :
    Dev.reset.held MEM 7 = false ∧ (Dev.reset.setAct (R.BLK_CTRL_POLICY_HOLD MEM) 7 1).held MEM 7 = true
      ∧ bitOf ((Dev.reset.setF R.MEM_CHAN_STATUS_RECAL_BUSY 7 0x8000).getF R.MEM_CHAN_STATUS_RECAL_BUSY 7) 15 = true
      ∧ mget 0 Dev.reset.mem.recalFails (7 * 16 + 15) = 0 ∧ 1 ≤ mget 0 [(7 * 16 + 15, 1)] (7 * 16 + 15)
      ∧ Dev.reset.getF R.MEM_SCRUB_STATUS_PERIOD 7 < 2 ^ 16 ∧ Dev.reset.regionOf 0 = 0 ∧ Dev.reset.configuring = false
      ∧ Dev.reset.pairState = 0 ∧ Dev.reset.inStatRecord 0 = false := by decide
theorem test_witness_StacksScrub_item :
    let d := job 0
    ({ d with sow := { d.sow with items := [⟨0, 0, true, 0, 64, 0, 0, 0⟩] } }).regionOf 63 = 1 := by decide
theorem test_witness_MemoryMapIsGuarded :
    Dev.reset.rlOpen true MEM 0 = true ∧ (job 0).rlOpen true MEM 0 = false ∧ 2 ≠ Dev.reset.getF R.MEM_MAP_INTERLEAVE 0
      ∧ 383 + 0 ≤ 383 ∧ 383 < 1 + 383 := by decide
theorem test_witness_MemoryMapIsGuarded_spill :
    let ok := Dev.reset.setF R.MEM_SPILL_SIZE_MIB 0 1
    let bad := Dev.reset.setF R.MEM_SPILL_BASE_HI_ADDR_HI 0 0x60
    ok.inJob ok.spillBase ok.spillSize = true ∧ bad.inJob bad.spillBase bad.spillSize = false := by decide

/-! Partners -/

/-- The device is paired with device 0, whose MANAGEMENT flow is flow 0, in the pairing state st. -/
def pairIn (st : Nat) (d : Dev) : Dev := (paired 3 d).setF R.SOW_PAIR_STATUS_STATE 0 st
/-- A message of a subtype from the partner. -/
def mgmt (sub : Nat) (pay : List Byte) : Packet := packetOn 0x30 sub 0 pay
theorem test_witness_FromPartner : ∀ sub ∈ [1, 2, 7, 14, 15], FromPartner (base (pairIn 3)) sub (mgmt sub []) := by
  intro sub h
  simp only [List.mem_cons, List.not_mem_nil, or_false] at h
  unfold FromPartner InSequence NothingHeld
  rcases h with rfl | rfl | rfl | rfl | rfl <;> decide
theorem test_witness_PairingFollowsItsExchange :
    (pairIn 0 Dev.reset).partnerOpen = true ∧ (pairIn 3 (job 0)).partnerOpen = false ∧ Dev.reset.sow.reqSeen = none
      ∧ (pairIn 1 Dev.reset).pairState = 1 ∧ (pairIn 5 Dev.reset).pairState = 5 ∧ Dev.reset.ownFailure ≠ 0
      ∧ Dev.reset.sow.ownAck = none ∧ (pairIn 4 Dev.reset).pairStands = true ∧ (pairIn 3 Dev.reset).streaming = true
      ∧ Dev.reset.ctl.heldMeasure = none := by decide
/-- The remirror that a cold reset owes waits for a heartbeat. -/
theorem test_witness_PairingFollowsItsExchange_remirror :
    let d := pairIn 3 Dev.reset
    NoneGated (base (pairIn 3)) ∧ d.pairStands = true ∧ { d.sow with remirror := true }.remirror = true
      ∧ d.getF R.SOW_PARTNER_VALID 0 = 1 ∧ d.getF R.SOW_RECOVERY_PHASE 0 ≠ 3 ∧ d.flowKind d.partner 3 = some 0 := by
  refine ⟨?_, by decide, by decide, by decide, by decide, by decide⟩
  have e : (base (pairIn 3)).dev.fab.colls = [] := rfl
  intro c h
  rw [e] at h
  exact absurd h List.not_mem_nil
theorem test_witness_MirrorStream_first :
    FromPartner (base (pairIn 3)) 3 (mgmt 3 []) ∧ (pairIn 3 Dev.reset).poisonIn (pairIn 3 Dev.reset).mirrorBase 1 = none
      ∧ ([1] : List Byte) ≠ [] ∧ ([1] : List Byte).length ≤ 64 * 65534 := by
  unfold FromPartner InSequence NothingHeld; decide
theorem test_witness_MirrorStreamReachesThePartner :
    (pairIn 3 Dev.reset).streaming = true ∧ Dev.reset.streaming = false
      ∧ { Dev.reset.sow with queue := [.delta 1 0 []] }.queue = .delta 1 0 [] :: []
      ∧ (mgmt 4 (leBytes 8 64 ++ List.replicate 64 7)).payload = leBytes 8 64 ++ List.replicate 64 7
      ∧ 64 + 64 ≤ { Dev.reset with sow := { Dev.reset.sow with partnerImage := 1 } }.pImage
      ∧ Dev.reset.poisonIn (Dev.reset.pSlot 1 + 64) 64 = none ∧ Dev.reset.mirrorBase % 64 = 0 ∧ Dev.reset.pinned = false := by decide
theorem test_witness_MirrorStream_base :
    let d (x : Dev) := let y := pairIn 3 x; { y with sow := { y.sow with partnerBase := true } }
    FromPartner (base d) 3 { mgmt 3 [1] with addr := 64 } ∧ (base d).dev.sow.partnerBase = true ∧ FromPartner (base d) 5 (mgmt 5 [])
      ∧ FromPartner (base (pairIn 3)) 4 (mgmt 4 []) ∧ (base (pairIn 3)).dev.sow.partnerBase = false := by
  unfold FromPartner InSequence NothingHeld; decide
theorem test_witness_MirrorStream_record : ∃ r, recordOk r = true := by
  refine ⟨List.replicate 28 0 ++ (leBytes 4 (crc32c (List.replicate 512 0)) ++ List.replicate 480 0), ?_⟩
  generalize h : crc32c (List.replicate 512 0) = x
  have hx : x < 256 ^ 4 := h ▸ crc32c_lt _
  have h28 : (List.replicate 28 (0 : Byte)).length = 28 := List.length_replicate
  have h4 : (leBytes 4 x).length = 4 := leBytes_length 4 x
  have t28 : (List.replicate 28 (0 : Byte) ++ (leBytes 4 x ++ List.replicate 480 0)).take 28 = List.replicate 28 0 :=
    List.take_left' h28
  have d28 : (List.replicate 28 (0 : Byte) ++ (leBytes 4 x ++ List.replicate 480 0)).drop 28 = leBytes 4 x ++ List.replicate 480 0 :=
    List.drop_left' h28
  have d32 : (List.replicate 28 (0 : Byte) ++ (leBytes 4 x ++ List.replicate 480 0)).drop 32 = List.replicate 480 0 := by
    rw [← List.drop_drop (i := 4) (j := 28), d28, List.drop_left' h4]
  have e : List.replicate 28 (0 : Byte) ++ List.replicate 4 0 ++ List.replicate 480 0 = List.replicate 512 0 := by
    rw [List.replicate_append_replicate, List.replicate_append_replicate]
  unfold recordOk
  rw [t28, d28, d32, e, h, List.take_left' h4, leNat_leBytes, Nat.mod_eq_of_lt hx]
  simp only [List.length_append, h4, List.length_replicate]
  decide

/-! Recovery and harvest -/

/-- A recovery is in a PHASE. -/
def phaseDev (ph : Nat) (d : Dev) : Dev := d.setF R.SOW_RECOVERY_PHASE 0 ph
theorem test_witness_RecoveriesReplay :
    (paired 3 ((job 0).setF R.SOW_SEAL_STATUS_SEALED_VALID 0 1)).canRestore = true ∧ (job 0).canRestore = false
      ∧ { (job 0).ctl with replayAsked := 7 }.replayAsked = 7 ∧ (job 0).ctl.replayAsked ≠ 1
      ∧ { (job 0).ctl with updateBegun := true }.updateBegun = true ∧ (job 0).ctl.updateBegun = false
      ∧ (phaseDev 3 (job 0)).getF R.SOW_RECOVERY_PHASE 0 = 3 ∧ (phaseDev 5 (job 0)).getF R.SOW_RECOVERY_PHASE 0 ≤ 5
      ∧ 5 < (phaseDev 6 (job 0)).getF R.SOW_RECOVERY_PHASE 0 ∧ (phaseDev 2 (job 0)).getF R.SOW_RECOVERY_PHASE 0 < 3
      ∧ Dev.reset.sow.logWait = none ∧ Dev.reset.sow.reexec = false := by decide
theorem test_witness_RecoveriesReplay_restore :
    let d := pairIn 4 (Dev.reset.setF R.SOW_SEAL_STATUS_SEALED_VALID 0 1)
    { d with mem := { d.mem with bytes := [(d.mirrorBase, 1#8)] } }.regionState = 1 ∧ (d.gsbCheck).1 = 0
      ∧ lowestBit (fun n => bitOf (natAt d.sow.mcBytes (d.mcOffset 6) 32) n && !bitOf (d.featureWord R.GLB_DEV_FEATURES) n) = none
      ∧ (phaseDev 4 (d.setF R.SOW_RECOVERY_CAUSE 0 8)).getF R.SOW_RECOVERY_CAUSE 0 = 8 := by decide +kernel
theorem test_witness_RecoveriesReplay_messages : ∀ sub ∈ [8, 9, 10, 11, 12], FromPartner (base (fun d => phaseDev 4 (pairIn 3 d))) sub (mgmt sub []) := by
  intro sub h
  simp only [List.mem_cons, List.not_mem_nil, or_false] at h
  unfold FromPartner InSequence NothingHeld
  rcases h with rfl | rfl | rfl | rfl | rfl <;> decide
/-- The partner's region is consistent and holds one item table entry, a valid item of 64 bytes. -/
def itemDev : Dev :=
  let d := pairIn 3 Dev.reset
  let b (o v : Nat) : Nat × Byte := (d.mirrorBase + o, BitVec.ofNat 8 v)
  { d with sow := { d.sow with partnerItems := 1 }, mem := { d.mem with bytes := [b 0 1, b 0x200002 1, b 0x200010 64] } }
theorem test_witness_RecoveriesReplay_item :
    itemDev.regionState = 1 ∧ itemDev.pItems[0]?.elim false (fun it => it.valid && decide (0 < it.length + it.sLength)) = true := by
  decide +kernel
/-- A harvest of everything for host A with room for 1 MiB. -/
def harvest0 (pinned : Bool) : HarvestJob := ⟨0, 0, 0, 1, 0x1000, 2 ^ 20, 0, pinned, none⟩
theorem test_witness_HarvestsGoThroughThePartner :
    let c := cmd 16 [5, 0x27F, 0x1000, 2 ^ 20]
    argsClear c 4 = true ∧ bitOf (argOf c 1) 7 = false ∧ argOf c 1 < 2 ^ 10 ∧ bitsOf (argOf c 1) 8 2 ≠ 3 := by decide
theorem test_witness_HarvestsGoThroughThePartner_message :
    FromPartner (base (pairIn 3)) 13 (mgmt 13 []) ∧ bitOf { mgmt 13 [] with flags := 8 }.flags 3 = true
      ∧ (pairIn 3 Dev.reset).sealedPast 0 = false ∧ Dev.reset.harvest.serving = none
      ∧ [cmd0].find? (fun c => decide (c.cookie = 0)) = some cmd0 := by
  unfold FromPartner InSequence NothingHeld; decide
theorem test_witness_HarvestsGoThroughThePartner_image :
    (∃ limit, let h := { harvest0 true with limit := limit }
      (Dev.reset.harvestHeader h (Dev.reset.harvestItems h.mask).length 0 (Dev.reset.harvestBody h.mask)
        ++ Dev.reset.harvestBody h.mask).length ≤ h.limit)
      ∧ (harvest0 true).kind ≠ 0 ∧ Dev.reset.harvest.journal = [] ∧ (harvest0 false).pinned = false := by
  exact ⟨⟨(Dev.reset.harvestHeader (harvest0 true) (Dev.reset.harvestItems 0).length 0 (Dev.reset.harvestBody 0)
    ++ Dev.reset.harvestBody 0).length, Nat.le_refl _⟩, by decide, by decide, by decide⟩
/-- A harvest with room for no byte is cut; one for a device has a flow or none; its writes have been answered or not. -/
theorem test_witness_HarvestsGoThroughThePartner_ends :
    let h := { harvest0 true with limit := 0 }
    (∀ bs : List Byte, bs ≠ [] → h.limit < bs.length) ∧ { h with kind := 0 }.kind = 0
      ∧ Dev.reset.flowKind (h.dst / 2 ^ 48) 0 = none ∧ (paired 0 Dev.reset).flowKind (h.dst / 2 ^ 48) 0 = some 0
      ∧ Dev.reset.fab.opCodes.find? (fun e => decide (e.1 = 4)) = none
      ∧ ([(4, 0)].find? (fun e => decide (e.1 = 4))).map (·.2) = some 0
      ∧ ([(4, 1)].find? (fun e => decide (e.1 = 4))).map (·.2) = some 1 ∧ Dev.reset.sow.partnerSteps = [] := by
  refine ⟨fun bs h => ?_, by decide, by decide, by decide, by decide, by decide, by decide, by decide⟩
  exact List.length_pos_iff.mpr h

/-! Input pipeline and media engine -/

/-- A slot of an INGEST of plot 0 that has come to a source s of 4 bytes at address 0x3000. -/
def slotOf (s : Nat) : PipSlot := PipSlot.fresh 7 ⟨7, 0x3000, 4, s, 0, 0, 0, 0, false⟩
/-- An INGEST of one slot. -/
def batchOf1 (x : PipSlot) : Batch :=
  ⟨cmd 3 [0x1000], ⟨0, 1, 0, 0, 1, 0, 1, 8, 1, 0x4000, 0x8000, 0, 0xA000, 0x100000, 0x4000000⟩, 0, [x], 0, [], []⟩
/-- A job with that INGEST, pipeline unit 3 READY and no program. -/
def pipDev (x : PipSlot) : Dev :=
  let d := running.setBlk PIP 3 stReady
  { d with pip := ⟨[batchOf1 x], []⟩ }
theorem test_witness_IngestsMakeBatches :
    let c := cmd 3 [0x1000]
    Begins (base (fun _ => running)) c ∧ argsClear c 1 = true ∧ running.inJob (argOf c 0) 128 = true
      ∧ running.poisonIn (argOf c 0) 128 = none ∧ running.ingestOk 0x1000 (running.ingestArgs 0x1000) = false
      ∧ running.inJob (2 ^ 48) 128 = false ∧ running.recorded = none := by
  exact ⟨⟨by decide, by decide, by decide⟩, by decide, by decide, by decide, by decide, by decide, by decide⟩
/-- A job whose plot 0 has an active position record of 4 samples, with an INGEST block at 0x2000 of no slot. -/
def ingestDev : Dev :=
  let d := running
  let b (o v : Nat) : Nat × Byte := (0x2000 + o, BitVec.ofNat 8 v)
  { d with mem := { d.mem with bytes := [(d.posAt 0 + 2, 1#8), (d.posAt 0 + 4, 4#8), (d.posAt 0 + 16, 8#8),
      b 2 9, b 16 1, b 20 1, b 0x22 1, b 0x2A 2, b 0x3A 4, b 0x42 0x10, b 0x4B 4] } }
theorem test_witness_IngestsMakeBatches_ok : ingestDev.ingestOk 0x2000 (ingestDev.ingestArgs 0x2000) = true := by decide +kernel
theorem test_witness_IngestsMakeBatches_complete :
    let b := { batchOf1 { slotOf 0 with finished := true } with placed := 1 }
    [b].find? (fun b => decide (b.args.plot = 0) && decide (b.placed = b.slots.length)) = some b
      ∧ Dev.reset.poisonIn b.args.table (64 + 32 * b.slots.length) = none ∧ ∀ b ∈ Dev.reset.pip.batches, b.placed ≠ b.slots.length := by
  decide
theorem test_witness_SlotsAreFetchedAndFinished :
    (pipDev (slotOf 0)).batchOf 0 0 = some (batchOf1 (slotOf 0)) ∧ (batchOf1 (slotOf 0)).slot 0 = some (slotOf 0)
      ∧ (slotOf 0).finished = false ∧ (pipDev (slotOf 0)).pipUp 3 = true ∧ (slotOf 0).waiting = false ∧ (slotOf 0).form = none
      ∧ (pipDev (slotOf 0)).tablePoison ((pipDev (slotOf 0)).prog 0) = none
      ∧ (pipDev (slotOf 0)).sourceBad (batchOf1 (slotOf 0)).args ((pipDev (slotOf 0)).prog 0) (slotOf 0).desc = true
      ∧ (pipDev (slotOf 0)).recorded = none ∧ (slotOf 0).tries < (pipDev (slotOf 0)).actF R.PIP_FETCH_RETRIES 0 := by
  decide +kernel
/-- The same, with a TOKENS program at the program table. -/
def tokenDev (s : Nat) : Dev :=
  let d := pipDev (slotOf s)
  { d with mem := { d.mem with bytes := [(d.progBase, 4#8), (d.progBase + 24, 16#8), (d.progBase + 12, 0xFF#8), (d.progBase + 13, 0xFF#8),
      (d.progBase + 14, 0xFF#8), (d.progBase + 15, 0xFF#8)] } }
theorem test_witness_SlotsAreFetchedAndFinished_plain :
    (tokenDev 0).cacheUsed ((tokenDev 0).prog 0) = false ∧ ((tokenDev 0).prog 0).kind ≠ 5
      ∧ (tokenDev 0).sourceBad (batchOf1 (slotOf 0)).args ((tokenDev 0).prog 0) (slotOf 0).desc = false
      ∧ (tokenDev 0).storedBytes (slotOf 0).desc [1, 2, 3, 4] = some [1, 2, 3, 4] ∧ (slotOf 0).desc.source ≠ 3
      ∧ slotForm ((tokenDev 0).prog 0) (slotOf 0).desc 0x4000000 [1, 2, 3, 4] .identity = .ok ⟨[1, 2, 3, 4], 0, 0, 1, 1, 32⟩
      ∧ formLen ((tokenDev 0).prog 0) ⟨[1, 2, 3, 4], 0, 0, 1, 1, 32⟩ = 4 := by decide +kernel

/-- An encoder session of 64 by 64 pictures in slice 0, context 0, with its items. -/
def enc0 (items : List EncItem) (cur : Option EncPic) : EncState :=
  { EncState.fresh ⟨0, 1, 0, 64, 64, false, true, 1, 4, 20, 8, 0, 16, 0, 0x100000, 0x800000, 0x1000, 0x800000⟩ with
    items := items, current := cur }
/-- The session. -/
def session0 (kind : Nat) (x : Option EncState) : Session := ⟨kind, 0, 4096, 100, 16, 0, 0, [], 0, x⟩
/-- Media slice 0 is READY and holds the session. -/
def mediaDev (s : Session) : Dev := { running.setBlk MED 0 stReady with media := [(0, s)] }
theorem test_witness_DecodeSessionsRun :
    (mediaDev (session0 1 none)).placeSession 1 0 = some 0 ∧ (mediaDev (session0 1 none)).freeContext 0 = some 1
      ∧ running.placeSession 1 0 = none ∧ mfind 0 (mediaDev (session0 1 none)).media = some (session0 1 none)
      ∧ (mediaDev (session0 1 none)).sliceUp 0 = true ∧ (session0 1 none).kind ≠ 3 ∧ 64 * 64 ≤ (session0 1 none).maxPix
      ∧ (session0 1 none).outBytes + 2 * 800 ≤ (session0 1 none).expansion * (session0 1 none).length
      ∧ (session0 1 none).expansion * (session0 1 none).length < (session0 1 none).outBytes + 2 * 801
      ∧ Dev.reset.mediaWait = [] := by decide +kernel
theorem test_witness_EncoderSessionsRun :
    let s := session0 3 (some (enc0 [.picture []] none))
    (mediaDev s).byHandle 0 = some (0, s, enc0 [.picture []] none) ∧ argsClear (cmd 12 [0, 0, 0, 0, 0]) 5 = true
      ∧ (enc0 [.picture []] none).closing = none ∧ (enc0 [.picture []] none).idle = false ∧ (enc0 [] none).idle = true
      ∧ (enc0 [.picture []] none).held = none ∧ (enc0 [.picture []] none).items.any EncItem.isPicture = true ∧ (mediaDev s).sliceUp 0 = true
      ∧ running.byHandle 0 = none ∧ (running.setF (R.GLB_FEATURES_ACTIVE 0) 0 0x100).featureIn MED 8 = true
      ∧ (mediaDev s).placeSession 3 0 = some 0 ∧ pageExists MED 7 = true := by decide +kernel
/-- The OUT ring of that session has n bytes, k of which are in use. -/
def encRing (n k : Nat) (p : EncPic) : EncState :=
  { enc0 [] (some p) with par := { (enc0 [] none).par with outSize := n }, outUsed := k }
/-- A coded slice fits an OUT ring of its own size that is free, and waits where a byte of it is in use. -/
theorem test_witness_EncoderSessionsRun_slice (rev : Nat) (p : EncPic) :
    ∃ n, (encRing n 0 p).outUsed + ((encRing n 0 p).code rev p).data.length ≤ (encRing n 0 p).par.outSize
      ∧ ((encRing n 1 p).code rev p).data.length ≤ (encRing n 1 p).par.outSize
      ∧ (encRing n 1 p).par.outSize < (encRing n 1 p).outUsed + ((encRing n 1 p).code rev p).data.length := by
  obtain ⟨m, h⟩ : ∃ m, ∀ n k, ((encRing n k p).code rev p).data.length = m :=
    ⟨((encRing 0 0 p).code rev p).data.length, fun _ _ => rfl⟩
  refine ⟨m, ?_⟩
  rw [h, h]
  have a (k : Nat) : (encRing m k p).outUsed = k := rfl
  have b (k : Nat) : (encRing m k p).par.outSize = m := rfl
  rw [a, a, b, b]
  omega
/-- A poisoned word at the start of WORK. -/
theorem test_witness_EncoderSessionsRun_poison :
    let d : Dev := { mediaDev (session0 3 (some (enc0 [] none))) with mem := ⟨[], [0x4000], [0x20000], [], [], [], []⟩ }
    (d.poisonIn 0x100000 1).isSome = true ∧ (enc0 [] none).par.work ≤ 0x100000
      ∧ 0x100000 < (enc0 [] none).par.work + (enc0 [] none).par.workSize ∧ d.mediaWait = [] := by decide +kernel
theorem test_witness_EncoderSessionsRun_open :
    Dev.reset.encOk 0 (enc0 [] none).par = true ∧ Dev.reset.encOk 0 { (enc0 [] none).par with width := 7 } = false := by decide

/-! Power, boot, firmware -/

theorem test_witness_PowerStageMoves :
    State.reset.dev.pwr.phase = .on ∧ State.reset.dev.pwr.restarts.length < 2
      ∧ bitOf (State.reset.dev.getF R.PWR_RAILS_PGOOD 0) 8 = true
      ∧ bitOf ((State.reset.dev.setF R.PWR_RAILS_PGOOD 0 0x0FF).getF R.PWR_RAILS_PGOOD 0) 8 = false
      ∧ State.reset.own.mayWrite .mc = true ∧ State.reset.dev.up = true ∧ State.reset.dev.pwr.tripped = false := by decide
theorem test_witness_WarmResetsKeepMemory :
    { Dev.reset.pwr with booted := true }.booted = true ∧ Dev.reset.pwr.booted = false ∧ Dev.reset.pwr.held = false
      ∧ Dev.reset.pwr.mcResets.length < 2 ∧ Dev.reset.pwr.handover = false ∧ Dev.reset.harvest.journal = []
      ∧ causeRank 8 < causeRank 7 ∧ causeRank 8 ≤ causeRank 8 ∧ Dev.reset.pins.mrstLow = false := by decide
/-- A cool sample, and one with the first compute die at t °C. -/
def sampleAt (t : Int) : PowerSample := ⟨500, 500, t, 40, 40, 40, 720, 8, [], ⟨[], []⟩⟩
theorem test_witness_PolicyTicksSetTheDivider :
    (readings (sampleAt 40)).any (fun x => decide (x.2.2 ≤ x.1)) = false
      ∧ (readings (sampleAt 200)).any (fun x => decide (x.2.2 ≤ x.1)) = true
      ∧ Dev.reset.getF R.PWR_FW_STATUS_BOOT 0 ≠ 2 ∧ 4 ≤ Dev.reset.getF R.PWR_CLK_STATUS_TARGET 0
      ∧ Dev.reset.getF R.PWR_CLK_STATUS_TARGET 0 ≤ 6 ∧ Dev.reset.held PWR 0 = false
      ∧ (∀ x ∈ readings (sampleAt 40), x.1 + 5 ≤ x.2.1) := by decide
theorem test_witness_PolicyTicks_idle : ∀ c, (Dev.reset.cell c).passes = [] := fun _ => rfl
theorem test_witness_BootTakesACombination :
    Dev.reset.pwr.booted = false
      ∧ Dev.reset.bootCombo.2 = some ([0, 0, 0, 0], [1, 2, 3, 4].map FwImage.delivered)
      ∧ ({ Dev.reset with nv := { Dev.reset.nv with banks := [] } }).bootCombo.2 = none := by decide +kernel
/-- After boot, as the boot ROM leaves it. -/
def bootedDev : Dev := { Dev.reset with pwr := { Dev.reset.pwr with booted := true, manifest := some 0, written := [(2, 1)] }
                                        nv := { Dev.reset.nv with banks := mput 5 (FwImage.delivered 2) Dev.reset.nv.banks } }
/-- The header of a CMC image with an empty payload, as R465 lays it out: BUILD 7, SVN 2, any MCF of revision 6 to 7. -/
def cmcHeader : List Byte :=
  leBytes 4 0x45465748 ++ [2, 1] ++ leBytes 2 12 ++ leBytes 4 7 ++ leBytes 4 2 ++ leBytes 16 0
    ++ leBytes 2 6 ++ leBytes 2 7 ++ leBytes 12 0 ++ leBytes 2 3
theorem test_header_fields :
    let im := FwImage.ofBytes [] cmcHeader true
    im.typ = 2 ∧ im.iface = 12 ∧ im.build = 7 ∧ im.svn = 2 ∧ im.length = 0 ∧ im.resultRev = 3
      ∧ im.intervals = [(6, 7), (0, 0), (0, 0), (0, 0)] ∧ im.reservedZero = true ∧ im.tested = [] := by decide +kernel
theorem test_header_refused :
    headerGood (0 :: cmcHeader.tail) = false ∧ headerGood (cmcHeader ++ [0, 1]) = false := by decide +kernel
theorem test_witness_FirmwareUpdatesAndActivates_source :
    Dev.reset.pwr.update = none ∧ Dev.reset.flippedIn Dev.reset.updateSource (Dev.reset.getF R.PWR_UPD_LEN_BYTES 0) = []
      ∧ State.reset.own.mayWrite .mc = true := by decide
theorem test_witness_FirmwareUpdatesAndActivates :
    bootedDev.updateCode 2 true (FwImage.delivered 2) = 0 ∧ imageFits 2 (FwImage.delivered 2) = true
      ∧ imageFits 2 { FwImage.delivered 2 with length := 2 ^ 32 } = false
      ∧ bootedDev.updateCode 2 false (FwImage.delivered 2) = 10 ∧ mfind 2 bootedDev.pwr.written = some 1
      ∧ bootedDev.bank 2 1 = some (FwImage.delivered 2) ∧ bootedDev.activateCode 2 (FwImage.delivered 2) = 0
      ∧ bootedDev.activateCode 1 (FwImage.delivered 1) = 0
      ∧ (phaseDev 3 bootedDev).activateCode 2 (FwImage.delivered 2) = 12 ∧ bootedDev.pwr.update = none := by decide +kernel

/-! Security and the host interface -/

theorem test_witness_RasLogIsReadAndCleared : State.reset.own.mayWrite .mc = true ∧ State.reset.dev.up = true := by decide
theorem test_witness_AttestationSignsReports :
    bootedDev.inJob bootedDev.secDst 3692 = true ∧ bootedDev.reportCode = 0 ∧ bootedDev.getF R.SEC_CMD_STAT_TOKENS 0 ≤ 8
      ∧ (bootedDev.setF R.SEC_CMD_STAT_TOKENS 0 0).reportCode = 3
      ∧ (bootedDev.setF R.SEC_DST_HI_ADDR_HI 0 0x60).inJob (bootedDev.setF R.SEC_DST_HI_ADDR_HI 0 0x60).secDst 3692 = false
      ∧ (bootedDev.setF R.SEC_DST_HI_ADDR_HI 0 0x60).inJob (bootedDev.setF R.SEC_DST_HI_ADDR_HI 0 0x60).secDst 4096 = false
      ∧ bootedDev.svnImage 5 = some (0, FwImage.delivered 5) ∧ bootedDev.svnImage 2 = some (0, FwImage.delivered 2)
      ∧ (pairIn 3 Dev.reset).actF R.SEC_TRUST_CTRL_PEER_ATTEST 0 = 1 ∧ (pairIn 3 Dev.reset).isPartner 0 = true
      ∧ Dev.reset.isPartner 0 = false ∧ Dev.reset.liveNeighbour 0 = false := by decide +kernel
theorem test_witness_TrustTableGovernsPeers :
    InSequence flowState (mgmt 0x42 []) ∧ InSequence flowState (mgmt 0x43 []) ∧ (flowState.dev.flow 0).state ≠ 0
      ∧ (flowState.dev.flow 0).peer = 0 ∧ State.reset.dev.getF R.SEC_TRUST_CTRL_ENROLL 0 = 0 ∧ State.reset.dev.jobActive = false := by
  unfold InSequence; decide
theorem test_witness_PortsServeTheHost :
    ({ owner := 2, requester := 0, pending := false } : Own).isOwner 1 = true ∧ State.reset.own.isOwner 1 = false
      ∧ ((ringDev 1).ring 0 1).enabled = true ∧ (Dev.reset.ring 1 255).enabled = false
      ∧ (2 ^ 32 + 16 % 2 ^ 32 - 0 % 2 ^ 32) % 2 ^ 32 ≤ ((ringDev 1).ring 0 1).size
      ∧ ((ringDev 1).ring 0 1).size < (2 ^ 32 + 17 % 2 ^ 32 - 0 % 2 ^ 32) % 2 ^ 32
      ∧ Dev.reset.bar2Size 1 = 64 * 2 ^ 30 ∧ 0 + 4 ≤ Dev.reset.bar2Size 1 ∧ ¬ 2 ^ 36 + 4 ≤ Dev.reset.bar2Size 1
      ∧ Dev.reset.flippedIn (Dev.reset.bar2Addr 1 0) 4 = [] ∧ (ringDev 1).jobRingOn = true ∧ Dev.reset.jobRingOn = false ∧ Dev.reset.localOk (Dev.reset.bar2Addr 1 0) 4 = true
      ∧ Dev.reset.localOk (Dev.reset.bar2Addr 1 logBase) 4 = false := by decide +kernel
theorem test_witness_OwnershipChangesHands :
    State.reset.own.owner = 0 ∧ State.reset.dev.jobActive = false ∧ State.reset.own.isOwner 0 = false
      ∧ ({ owner := 1, requester := 2, pending := true } : Own).isOwner 0 = true
      ∧ (State.reset.dev.setAct R.PCI_OWN_TIMEOUT_SECONDS 0 5).actF R.PCI_OWN_TIMEOUT_SECONDS 0 ≠ 0 := by decide

end Sys2Proof.Tests
end

