-- ==== Sys2Proof/Proofs/BarOffsets.lean ====
section
/-! Offsets of BAR0 (R37): how an offset is made of a class, an instance and a register, and what its fields are. -/

namespace Sys2Proof.Machine

/-- The offset of BAR0 of a class, an instance and a register, as a sum (R37). -/
def barOffset (cls inst reg : Nat) : Nat := cls * 2 ^ 23 + inst * 2 ^ 12 + reg

/-- The three fields of an offset do not overlap, so that joining them by OR adds them. -/
theorem or_eq_barOffset (cls : Nat) {inst reg : Nat} (hi : inst < 2048) (hr : reg < 4096) :
    cls <<< 23 ||| inst <<< 12 ||| reg = barOffset cls inst reg := by
  have page : cls <<< 23 ||| inst <<< 12 = (cls <<< 11 + inst) <<< 12 := by
    rw [Nat.shiftLeft_add_eq_or_of_lt hi, Nat.shiftLeft_or_distrib, ← Nat.shiftLeft_add]
  rw [page, ← Nat.shiftLeft_add_eq_or_of_lt hr]
  simp only [Nat.shiftLeft_eq, barOffset]
  omega

@[simp] theorem barReg_barOffset (cls inst : Nat) {reg : Nat} (hr : reg < 4096) :
    barReg (barOffset cls inst reg) = reg := by
  simp only [barReg, barOffset]
  omega

@[simp] theorem barInstance_barOffset (cls : Nat) {inst reg : Nat} (hi : inst < 2048) (hr : reg < 4096) :
    barInstance (barOffset cls inst reg) = inst := by
  simp only [barInstance, bitsOf, barOffset]
  omega

@[simp] theorem barClass_barOffset {cls inst reg : Nat} (hc : cls < 32) (hi : inst < 2048) (hr : reg < 4096) :
    barClass (barOffset cls inst reg) = cls := by
  simp only [barClass, bitsOf, barOffset]
  omega

/-- The pages of the 32 classes end with the 256 MiB of BAR0. -/
theorem barOffset_lt {cls inst reg : Nat} (hc : cls < 32) (hi : inst < 2048) (hr : reg < 4096) :
    barOffset cls inst reg < 256 * 2 ^ 20 := by
  simp only [barOffset]
  omega

theorem barInstance_lt (off : Nat) : barInstance off < 2048 := Nat.mod_lt _ (by decide)

theorem barReg_lt (off : Nat) : barReg off < 4096 := Nat.mod_lt _ (by decide)

/-- No bit of an offset within BAR0 lies outside its three fields. -/
theorem barOffset_of_fields {off : Nat} (h : off < 256 * 2 ^ 20) :
    barOffset (barClass off) (barInstance off) (barReg off) = off := by
  simp only [barOffset, barClass, barInstance, barReg, bitsOf]
  omega

/-- Settles O8: the OR of the three fields is their sum, from which division and remainder give each of them back. -/
theorem barOffsetsNameRegisters : Obligations.BarOffsetsNameRegisters := by
  unfold Obligations.BarOffsetsNameRegisters
  constructor
  · intro cls inst reg hc hi hr
    simp only [or_eq_barOffset cls hi hr]
    exact ⟨barClass_barOffset hc hi hr, barInstance_barOffset cls hi hr, barReg_barOffset cls inst hr,
      barOffset_lt hc hi hr⟩
  · intro off hoff
    rw [or_eq_barOffset _ (barInstance_lt off) (barReg_lt off), barOffset_of_fields hoff]

end Sys2Proof.Machine
end

