-- ==== Sys2Proof/Proofs/Promotions.lean ====
section
/-! Format promotion on statistics (R194, R195, R197): what one decision appends, that it does not disturb the next entry's
decision, and what all of them append together. -/

namespace Sys2Proof.Machine

/-! ### What a policy decision touches -/

/-- The second device differs from the first at most as decisions of the NUM page make it: in the control state, in NUM's
BLK_IRQ_PEND and in what has gone out (R32, R42). -/
structure NumDecided (d t : Dev) : Prop where
  rest : t = { d with ctl := t.ctl, fields := t.fields, out := t.out }
  getF : ∀ (f : Field) (i : Nat), f.key i ≠ (R.BLK_IRQ_PEND NUM).key 0 → t.getF f i = d.getF f i

namespace NumDecided

theorem refl (d : Dev) : NumDecided d d := ⟨rfl, fun _ _ _ => rfl⟩

theorem trans {d e t : Dev} (h₁ : NumDecided d e) (h₂ : NumDecided e t) : NumDecided d t where
  rest := by rw [h₂.rest, h₁.rest]
  getF f i hk := (h₂.getF f i hk).trans (h₁.getF f i hk)

theorem setCtl (d : Dev) (c : Ctl) : NumDecided d { d with ctl := c } := ⟨rfl, fun _ _ _ => rfl⟩

/-- An interrupt of NUM, unlike an error, leaves no entry in the RAS log. -/
theorem policyTaken (d : Dev) : NumDecided d (d.policyTaken NUM 0) := by
  unfold Dev.policyTaken Dev.irq
  dsimp only
  split
  · exact ⟨rfl, fun _ _ hk => Dev.getF_setF_other d hk _⟩
  · exact ⟨rfl, fun _ _ hk => Dev.getF_setF_other d hk _⟩

section
variable {d t : Dev} (h : NumDecided d t)
include h

theorem held (c i : Nat) : t.held c i = d.held c i := by rw [h.rest]; rfl

theorem nat (a n : Nat) : t.nat a n = d.nat a n := by rw [h.rest]; rfl

theorem feature12 : t.feature 12 = d.feature 12 := by
  unfold Dev.feature
  rw [h.getF _ _ (by decide)]

theorem sstAt (i : Nat) : t.sstAt i = d.sstAt i := by
  unfold Dev.sstAt Dev.sstBase
  rw [h.getF _ _ (by decide), h.getF _ _ (by decide)]

theorem entryFormat (i : Nat) : t.entryFormat i = d.entryFormat i := by
  simp only [Dev.entryFormat, h.nat, h.sstAt]

theorem promoteTo (i : Nat) : t.promoteTo i = d.promoteTo i := by
  simp only [Dev.promoteTo, h.entryFormat, h.nat, h.sstAt]

theorem promotable (i : Nat) : t.promotable i = d.promotable i := by
  simp only [Dev.promotable, h.promoteTo, h.nat, h.sstAt]

end

end NumDecided

/-! ### One entry -/

/-- The promotion that a device decides for an entry when promotion is in force and not held: none for an entry that is not
considered or that has one in the open step (R194, R196). -/
def Dev.promotionOf (d : Dev) (cause i : Nat) : Option Decision :=
  if !d.promotable i || d.promoted i then none
  else (d.promoteTo i).map (fun g => .promotion i (d.entryFormat i) g cause)

theorem Dev.promotionOf_of_considered {d : Dev} {i g : Nat} (hp : d.promotable i = true) (hn : d.promoted i = false)
    (hg : d.promoteTo i = some g) (cause : Nat) :
    d.promotionOf cause i = some (.promotion i (d.entryFormat i) g cause) := by
  simp [Dev.promotionOf, hp, hn, hg]

/-- A decided promotion names its entry. -/
theorem Dev.entry_of_promotionOf {d : Dev} {cause j i f g c : Nat} (h : d.promotionOf cause j = some (.promotion i f g c)) :
    j = i := by
  unfold Dev.promotionOf at h
  split at h
  · cases h
  · obtain ⟨_, -, he⟩ := Option.map_eq_some_iff.mp h
    cases he
    rfl

/-- The device after a promotion decision that is taken (R32, R197). -/
def Dev.takePromotion (d : Dev) (x : Decision) : Dev :=
  Dev.policyTaken { d with ctl := { d.ctl with decisions := d.ctl.decisions ++ [x] } } NUM 0

theorem Dev.takePromotion_decided (d : Dev) (x : Decision) : NumDecided d (d.takePromotion x) :=
  (NumDecided.setCtl d _).trans (.policyTaken _)

theorem Dev.takePromotion_decisions (d : Dev) (x : Decision) :
    (d.takePromotion x).ctl.decisions = d.ctl.decisions ++ [x] :=
  congrArg Ctl.decisions (Reports.policyTaken _ NUM 0).ctl

/-- Where promotion is in force and not held, deciding an entry takes its promotion, if it has one. -/
theorem Dev.decidePromotion_eq {d : Dev} (hf : d.feature 12 = true) (hh : d.held NUM 0 = false) (cause i : Nat) :
    d.decidePromotion cause i = (d.promotionOf cause i).elim d d.takePromotion := by
  unfold Dev.decidePromotion Dev.promotionOf
  rw [hf, Bool.not_true, Bool.false_or, hh]
  split
  · rfl
  · cases d.promoteTo i <;> rfl

/-- Deciding an entry, where promotion is in force and not held, appends its promotion to the open step's decisions. -/
theorem Dev.decidePromotion_spec {d : Dev} (hf : d.feature 12 = true) (hh : d.held NUM 0 = false) (cause i : Nat) :
    NumDecided d (d.decidePromotion cause i)
      ∧ (d.decidePromotion cause i).ctl.decisions = d.ctl.decisions ++ (d.promotionOf cause i).toList := by
  rw [Dev.decidePromotion_eq hf hh]
  cases d.promotionOf cause i with
  | none => exact ⟨.refl d, (List.append_nil _).symm⟩
  | some x => exact ⟨d.takePromotion_decided x, d.takePromotion_decisions x⟩

/-- Deciding one entry leaves what would be decided for another entry as it was. -/
theorem Dev.promotionOf_decidePromotion_other {d : Dev} (hf : d.feature 12 = true) (hh : d.held NUM 0 = false) {i j : Nat}
    (hij : i ≠ j) (cause c : Nat) : (d.decidePromotion cause i).promotionOf c j = d.promotionOf c j := by
  obtain ⟨hd, hds⟩ := Dev.decidePromotion_spec hf hh cause i
  have hn : (d.decidePromotion cause i).promoted j = d.promoted j := by
    unfold Dev.promoted
    rw [hds, List.any_append]
    unfold Dev.promotionOf
    split
    · simp
    · cases d.promoteTo i <;> simp [hij]
  simp only [Dev.promotionOf, hd.promotable, hd.promoteTo, hd.entryFormat, hn]

/-! ### All entries -/

/-- Deciding different entries one after the other appends the promotion of each, as it stood before the first. -/
theorem Dev.decidePromotions_spec (cause : Nat) (is : List Nat) (hnd : is.Nodup) {d : Dev} (hf : d.feature 12 = true)
    (hh : d.held NUM 0 = false) :
    NumDecided d (is.foldl (fun d i => d.decidePromotion cause i) d)
      ∧ (is.foldl (fun d i => d.decidePromotion cause i) d).ctl.decisions
          = d.ctl.decisions ++ is.filterMap (d.promotionOf cause) := by
  induction is generalizing d with
  | nil => exact ⟨.refl d, by simp⟩
  | cons i is ih =>
    obtain ⟨hi, hnd⟩ := List.nodup_cons.mp hnd
    obtain ⟨hd, hds⟩ := Dev.decidePromotion_spec hf hh cause i
    obtain ⟨hd', hds'⟩ := ih hnd (hd.feature12.trans hf) ((hd.held NUM 0).trans hh)
    have hrest : is.filterMap ((d.decidePromotion cause i).promotionOf cause) = is.filterMap (d.promotionOf cause) :=
      List.filterMap_congr fun j hj =>
        Dev.promotionOf_decidePromotion_other hf hh (ne_of_mem_of_not_mem hj hi).symm cause cause
    refine ⟨hd.trans hd', ?_⟩
    rw [List.foldl_cons, hds', hrest, hds, List.append_assoc]
    cases hp : d.promotionOf cause i <;> simp [hp]

/-- The promotion of an entry that is considered and has none yet is among those of a list of entries exactly when the entry
is in the list. -/
theorem Dev.promotion_mem_filterMap {d : Dev} {i g : Nat} (hp : d.promotable i = true) (hn : d.promoted i = false)
    (hg : d.promoteTo i = some g) (cause : Nat) (is : List Nat) :
    Decision.promotion i (d.entryFormat i) g cause ∈ is.filterMap (d.promotionOf cause) ↔ i ∈ is := by
  rw [List.mem_filterMap]
  constructor
  · rintro ⟨j, hj, he⟩
    rwa [← Dev.entry_of_promotionOf he]
  · exact fun hi => ⟨i, hi, Dev.promotionOf_of_considered hp hn hg cause⟩

/-! ### The statistics of the step before -/

/-- R195's condition, with both products as natural numbers. -/
theorem Dev.statPromotes_iff (d : Dev) (i n : Nat) :
    d.statPromotes i n = true ↔
      d.nat (d.statAt i n + 24) 8 ≠ 0
        ∧ (d.nat (d.statAt i n + 8) 8 * 65536 > d.nat (d.sstAt i + 0xC) 2 * d.nat (d.statAt i n + 24) 8
          ∨ (d.nat (d.statAt i n + 16) 8 * 65536 > d.nat (d.sstAt i + 0xE) 2 * d.nat (d.statAt i n + 24) 8
            ∧ d.nat (d.statAt i n + 16) 8 > 0)) := by
  simp only [Dev.statPromotes, Bool.and_eq_true, Bool.or_eq_true, decide_eq_true_eq, gt_iff_lt]
  rw [and_comm (a := 0 < d.nat (d.statAt i n + 16) 8)]

/-- The entries that the statistics of step n promote (R195). -/
def Dev.statEntries (d : Dev) (n : Nat) : List Nat := (List.range d.sstCount).filter (fun i => d.statPromotes i n)

theorem Dev.mem_statEntries {d : Dev} {i n : Nat} (hi : i < d.sstCount) : i ∈ d.statEntries n ↔ d.statPromotes i n = true := by
  simp [Dev.statEntries, hi]

theorem Dev.statEntries_nodup (d : Dev) (n : Nat) : (d.statEntries n).Nodup := List.nodup_range.filter _

/-- After the first step of a job, and outside of a replay and of a blind step, FORMAT_PROMOTION_DECIDE decides each entry
that the statistics of the step before promote (R195, R397). -/
theorem exec_formatPromotionDecide {s : State} (hj : s.dev.jobActive = true) (hr : s.dev.recorded = none)
    (hw : s.dev.statsWithheld = false) (hs : s.dev.step ≠ 0) :
    exec .formatPromotionDecide s =
      s.onDev (fun d => (d.statEntries (s.dev.step - 1)).foldl (fun d i => d.decidePromotion 0 i) d) := by
  show execFormatPromotionDecide s = _
  simp [execFormatPromotionDecide, State.onDev, Dev.statEntries, hj, hr, hw, hs]

/-- Settles O28: the entries that the statistics of step n - 1 promote are decided one after the other, and the decision for
one does not disturb another's, so that each of them, and no other, gets the promotion it had at the start. -/
theorem statisticsPromoteEntries : Obligations.StatisticsPromoteEntries := by
  unfold Obligations.StatisticsPromoteEntries
  intro s hu hj hr hw hs hf hh
  obtain ⟨hd, hds⟩ :=
    Dev.decidePromotions_spec 0 (s.dev.statEntries (s.dev.step - 1)) (Dev.statEntries_nodup _ _) hf hh
  refine Answers.of_onDev _ (exec_formatPromotionDecide hj hr hw hs) hu ⟨_, hds, fun i hi hp hn g hg => ?_, hd.rest⟩
  exact (Dev.promotion_mem_filterMap hp hn hg 0 _).trans
    ((Dev.mem_statEntries hi).trans (s.dev.statPromotes_iff i (s.dev.step - 1)))

end Sys2Proof.Machine
end

