-- ==== Sys2Proof/Proofs/Whole.lean ====
section
/-! What every command keeps whatever it does: the queue behind it and a legal ownership token, and what a writer who does
not own the device cannot change (R40, R528, R529). -/

namespace Sys2Proof.Machine

/-- Every next state that an outcome answers satisfies `P`. -/
structure Leads (P : State → Prop) (r : Res) : Prop where
  of_next : ∀ t, r = .next t → P t

namespace Leads

variable {P : State → Prop} {s t : State}

theorem next (h : P t) : Leads P (.next t) := ⟨fun _ e => Host.Outcome.next.inj e ▸ h⟩

theorem fault (e : Fault) : Leads P (.fault e) := ⟨fun _ h => nomatch h⟩

theorem ite {c : Prop} [Decidable c] {a b : Res} (ha : Leads P a) (hb : Leads P b) : Leads P (if c then a else b) := by
  split
  · exact ha
  · exact hb

end Leads

/-! ### Queue and ownership -/

/-- The next state has the same queue, and a legal token where the token was legal. -/
structure State.Follows (s t : State) : Prop where
  pending : t.pending = s.pending
  legal : s.own.legal → t.own.legal

namespace State.Follows

variable {s t : State}

theorem refl (s : State) : s.Follows s := ⟨rfl, id⟩

theorem dev (s : State) (d : Dev) : s.Follows { s with dev := d } := ⟨rfl, id⟩

/-- A token without an owner is legal. -/
theorem unowned (s : State) (d : Dev) : s.Follows { s with own := ⟨0, 0, false⟩, dev := d } :=
  ⟨rfl, fun _ => ⟨Nat.zero_le _, by simp⟩⟩

theorem onDev (s : State) (f : Dev → Dev) : Leads s.Follows (s.onDev f) := .ite (.next (dev ..)) (.next (refl s))

theorem byWriter (s : State) (w : Writer) (f : Dev → Dev) : Leads s.Follows (s.byWriter w f) := .ite (onDev ..) (.next (refl s))

theorem onMemory (s : State) (a n : Nat) (f : Dev → Dev) : Leads s.Follows (s.onMemory a n f) := .ite (.fault _) (onDev ..)

theorem whenUp {r : Res} (h : Leads s.Follows r) : Leads s.Follows (s.whenUp r) := .ite h (.next (refl s))

/-- A state that differs in its device follows by what the other state leads to. -/
theorem of_dev {s : State} {r : Res} (d : Dev) (h : Leads ({ s with dev := d } : State).Follows r) : Leads s.Follows r :=
  ⟨fun t e => ⟨(h.of_next t e).pending, (h.of_next t e).legal⟩⟩

theorem warmTrigger (s : State) (cause : Nat) : Leads s.Follows (s.warmTrigger cause) :=
  .ite (.next (refl s)) (.ite (.next (unowned ..)) (.ite (.next (dev ..)) (.next (refl s))))

theorem mcReset (s : State) : Leads s.Follows s.mcReset :=
  .ite (.next (refl s)) (.ite (warmTrigger ..) (.ite (.next (dev ..)) (.next (dev ..))))

theorem restart (s : State) (cause : Nat) : Leads s.Follows (s.restart cause) := .ite (.next (unowned ..)) (.next (unowned ..))

theorem trip (s : State) : Leads s.Follows s.trip := .ite (.next (unowned ..)) (.next (refl s))

/-- A transfer hands the device to the port whose request was pending. -/
theorem transfer (hp : s.own.pending = true) : Leads s.Follows s.transfer :=
  .next ⟨rfl, fun h => ⟨by rcases (h.2 hp).1 with e | e <;> simp [e], by simp⟩⟩

theorem execClaim (port : Nat) (s : State) : Leads s.Follows (Machine.execClaim port s) := by
  refine whenUp ?_
  split
  · next h =>
    refine .next ⟨rfl, fun hl => ?_⟩
    obtain ⟨hfree, hport⟩ := h
    split
    · exact ⟨by show port + 1 ≤ 2; omega, by simp⟩
    · next hn => exact ⟨by show port + 1 ≤ 2; omega, fun hp => ⟨(hl.2 hp).1, fun e => hn ⟨hp, e⟩⟩⟩
  · exact .next (refl s)

theorem execRequest (port : Nat) (s : State) : Leads s.Follows (Machine.execRequest port s) := by
  refine whenUp ?_
  split
  · next h =>
    obtain ⟨hne, hport, -⟩ := h
    exact .next ⟨rfl, fun hl => ⟨hl.1, fun _ => ⟨by show port + 1 = 1 ∨ port + 1 = 2; omega, Ne.symm hne⟩⟩⟩
  · exact .next (refl s)

/-- Whatever command runs, the queue stays and the token stays legal. -/
theorem of_exec (c : Instr) (s : State) : Leads s.Follows (exec c s) := by
  cases c
  case claim port => exact execClaim port s
  case request port => exact execRequest port s
  case grant port =>
    refine whenUp ?_
    split
    · next h => exact transfer h.2
    · exact .next (refl s)
  case ownershipTimeout =>
    refine whenUp ?_
    split
    · next h => exact transfer h.1
    · exact .next (refl s)
  case deny port => exact whenUp (.ite (.next ⟨rfl, fun h => ⟨h.1, by simp⟩⟩) (.next (refl s)))
  case release port => exact whenUp (.ite (.next (unowned ..)) (.next (refl s)))
  case memoryRead | memoryWrite | sadd128 | sadd64 | sadd32 => exact onMemory ..
  case glbSoftReset | mcWatchdogExpiry => exact .ite (warmTrigger ..) (.next (refl s))
  case rootPllLossOfLock => exact warmTrigger ..
  case moduleResetPin => exact of_dev _ (.ite (warmTrigger ..) (.ite (.next (dev ..)) (.next (refl _))))
  case mcSramUncorrectable => exact mcReset s
  case sramUncorrectable site =>
    cases site
    case mcSram => exact mcReset s
    case responsePool | ownerState => exact .ite (of_dev _ (warmTrigger ..)) (.next (refl s))
    all_goals exact onDev s fun d => d.sramFault _
  case cold => exact .ite (.next (unowned ..)) (.next (refl s))
  case hotSwapOpen => exact .next (unowned ..)
  case hotSwapClose | railPowerUp | thermalRestart | warmReset => exact .ite (.next (dev ..)) (.next (refl s))
  case railOutOfWindow =>
    exact .ite (.next (refl s)) (.ite (restart ..) (.ite (warmTrigger ..) (.next (dev ..))))
  case railFaultTimeout => exact .ite (restart ..) (.next (refl s))
  case thermalTrip | sensorNoValueTimeout => exact .ite (trip s) (.next (refl s))
  case powerPolicyTick => exact .ite (.ite (trip s) (.next (dev ..))) (.next (refl s))
  case attestReq =>
    unfold exec execAttestReq
    exact onDev ..
  case registerWrite | enable | softReset | clocheReq | quiesceReq | blkCommit | blkCommitAbort | groupCommit |
    groupCommitAbort | negotiationGo | jobStart | jobEnd | numRingCons | numXrecSel | numXrecClear | flwCmdRead |
    flwCmdWrite | flwCmdClose | routeTableLoad | flwShadowWrite | lnkVlBufWrite | retrain | memMapWrite |
    memRegionsWrite | memSpillWrite | recal | pair | pairGraft | unpair | recoveryGo | recoveryAbort | flush |
    medKeyreq | fwUpdateWrite | fwActivate | pop | clearDropped | rasFirstClear | attest | cert | svnCommit |
    authorise | revoke | trustTableClear => exact byWriter ..
  all_goals
    unfold exec
    exact onDev ..

end State.Follows

/-- Settles O3. -/
theorem commandsKeepTheQueue : Obligations.CommandsKeepTheQueue := by
  unfold Obligations.CommandsKeepTheQueue
  exact fun c s t h => ((State.Follows.of_exec c s).of_next t h).pending

/-- Settles O1: both equations are the two cases of `step`. -/
theorem stepRunsFrontCommand : Obligations.StepRunsFrontCommand := by
  unfold Obligations.StepRunsFrontCommand
  refine ⟨fun c rest s => rfl, fun s h => ?_⟩
  unfold step
  rw [h]

/-- Settles O4: `exec` keeps the token legal, and a step runs `exec` or nothing. -/
theorem ownershipStaysLegal : Obligations.OwnershipStaysLegal := by
  unfold Obligations.OwnershipStaysLegal
  intro s t hl h
  unfold step at h
  split at h
  · cases h
    exact hl
  · next c rest _ => exact ((State.Follows.of_exec c _).of_next t h).legal hl

/-! ### Writers -/

theorem State.byWriter_unaccepted {s : State} {w : Writer} (h : s.own.mayWrite w = false) (f : Dev → Dev) :
    s.byWriter w f = .next s := by
  simp [State.byWriter, h]

/-- Settles O7: every register command asks first whether its writer may write. -/
theorem unacceptedWritersChangeNothing : Obligations.UnacceptedWritersChangeNothing := by
  unfold Obligations.UnacceptedWritersChangeNothing
  intro c s w hw hm
  cases c
  case glbSoftReset | cold =>
    obtain rfl := Option.some.inj hw
    simp [exec, execGlbSoftReset, execCold, hm]
  case registerWrite | enable | softReset | clocheReq | quiesceReq | blkCommit | blkCommitAbort | groupCommit |
    groupCommitAbort | negotiationGo | jobStart | jobEnd | numRingCons | numXrecSel | numXrecClear | flwCmdRead |
    flwCmdWrite | flwCmdClose | routeTableLoad | flwShadowWrite | lnkVlBufWrite | retrain | memMapWrite |
    memRegionsWrite | memSpillWrite | recal | pair | pairGraft | unpair | recoveryGo | recoveryAbort | flush |
    medKeyreq | fwUpdateWrite | fwActivate | pop | clearDropped | rasFirstClear | attest | cert | svnCommit |
    authorise | revoke | trustTableClear =>
    obtain rfl := Option.some.inj hw
    exact State.byWriter_unaccepted hm _
  all_goals exact nomatch hw

end Sys2Proof.Machine
end

