-- ==== Sys2Proof/Proofs/Fields.lean ====
section
/-! Register fields as homes of values: which fields never share a home, what a report of errors leaves alone, and which bits
it sets (R42, R48, R52, R494). -/

namespace Sys2Proof.Machine

/-! ### Homes -/

/-- The place of a field within its page, which its home tells apart from every other place. -/
def Field.place (f : Field) : Nat := (f.off * 32 + f.lo) % 131072

theorem Field.key_mod (f : Field) (i : Nat) : f.key i % 131072 = f.place := by
  simp only [Field.key, Field.place]
  omega

/-- Fields at different places have different homes on whatever pages. -/
theorem Field.key_ne {f g : Field} (h : f.place ≠ g.place) (i j : Nat) : f.key i ≠ g.key j := fun e => h (by
  rw [← f.key_mod i, ← g.key_mod j, e])

/-- The same field of two pages of a class. -/
theorem Field.key_inj (f : Field) {i j : Nat} : f.key i = f.key j ↔ i = j := by
  simp only [Field.key]
  omega

theorem Dev.getF_setF_place {f g : Field} (h : g.place ≠ f.place) (d : Dev) (i j v : Nat) :
    (d.setF f i v).getF g j = d.getF g j := Dev.getF_setF_other d (Field.key_ne h j i) v

theorem Dev.getF_setF_page (d : Dev) (f : Field) {i j : Nat} (h : j ≠ i) (v : Nat) :
    (d.setF f i v).getF f j = d.getF f j := Dev.getF_setF_other d (fun e => h (f.key_inj.1 e)) v

/-- A field reads back what its width holds of a stored value. -/
theorem Dev.getF_setF_of_lt (d : Dev) {f : Field} {v : Nat} (h : v < 2 ^ f.width) (i : Nat) : (d.setF f i v).getF f i = v := by
  rw [Dev.getF_setF_same, Nat.mod_eq_of_lt h]

theorem mput_mput_same {α : Type} (k : Nat) (v w : α) (m : NMap α) : mput k v (mput k w m) = mput k v m := by
  induction m with
  | nil => simp [mput]
  | cons e m ih =>
    obtain ⟨j, x⟩ := e
    simp only [mput]
    split
    · simp [mput]
    · split
      · next h => simp [mput]
      · next h1 h2 => simp [mput, h1, h2, ih]

theorem Dev.setF_setF (d : Dev) (f : Field) (i v w : Nat) : (d.setF f i w).setF f i v = d.setF f i v := by
  simp [Dev.setF, mput_mput_same]

/-- A field keeps of a value what its width holds. -/
theorem Dev.setF_mod (d : Dev) (f : Field) (i v : Nat) : d.setF f i (v % 2 ^ f.width) = d.setF f i v := by
  simp [Dev.setF]

/-! ### What reports touch -/

/-- The homes that a report of an error can change: BLK_ERR, BLK_IRQ_PEND, BLK_HEALTH and the counters of any page, and the
first registers of the RAS block's own, of which no field begins at bit 14. -/
def noiseKey (k : Nat) : Bool :=
  let off := k / 32 % 4096
  decide (off = 32) || decide (off = 40) || decide (off = 60) || (decide (64 ≤ off) && decide (off < 128))
    || (decide (k / 131072 = 32768) && decide (128 ≤ off) && decide (off < 160) && decide (k % 32 ≠ 14))

/-- A place that no report touches on a page other than the RAS block's. -/
def Field.quiet (f : Field) : Bool :=
  decide (f.off ≠ 32) && decide (f.off ≠ 40) && decide (f.off ≠ 60) && (decide (f.off < 64) || decide (128 ≤ f.off))
    && decide (f.off < 4096) && decide (f.lo < 32) && decide (f.cls < 16)

/-- No report touches the home of a page's state. -/
theorem noiseKey_state (c i : Nat) : noiseKey ((R.BLK_STATE_STATE c).key i) = false := by
  have off : (R.BLK_STATE_STATE c).key i / 32 % 4096 = 28 := by simp only [Field.key, R.BLK_STATE_STATE]; omega
  simp [noiseKey, off]

theorem Field.noiseKey_of_quiet {f : Field} (h : f.quiet = true) {i : Nat} (hi : i < 2048) : noiseKey (f.key i) = false := by
  simp only [Field.quiet, Bool.and_eq_true, Bool.or_eq_true, decide_eq_true_eq] at h
  obtain ⟨⟨⟨⟨⟨⟨h1, h2⟩, h3⟩, h4⟩, h5⟩, h6⟩, h7⟩ := h
  have off : f.key i / 32 % 4096 = f.off := by simp only [Field.key]; omega
  have page : f.key i / 131072 ≠ 32768 := by simp only [Field.key]; omega
  simp only [noiseKey, off, Bool.or_eq_false_iff, Bool.and_eq_false_iff, decide_eq_false_iff_not]
  refine ⟨⟨⟨⟨h1, h2⟩, h3⟩, ?_⟩, .inl (.inl (.inl page))⟩
  omega

/-- The device reports errors: nothing but noise changes, and no error bit falls. -/
structure Noise (d t : Dev) : Prop where
  reports : Reports d t
  kept : ∀ k, noiseKey k = false → mfind k t.fields = mfind k d.fields
  errs : ∀ c i b, b < 32 → d.errBit c i b = true → t.errBit c i b = true

namespace Noise

theorem refl (d : Dev) : Noise d d := ⟨.refl d, fun _ _ => rfl, fun _ _ _ _ h => h⟩

theorem trans {d e t : Dev} (h1 : Noise d e) (h2 : Noise e t) : Noise d t :=
  ⟨h1.reports.trans h2.reports, fun k hk => (h2.kept k hk).trans (h1.kept k hk),
    fun c i b hb h => h2.errs c i b hb (h1.errs c i b hb h)⟩

theorem ite {d a b : Dev} {p : Prop} [Decidable p] (ha : Noise d a) (hb : Noise d b) : Noise d (if p then a else b) := by
  split
  · exact ha
  · exact hb

theorem foldl {α : Type} {f : Dev → α → Dev} (h : ∀ e x, Noise e (f e x)) (xs : List α) (d : Dev) :
    Noise d (xs.foldl f d) := by
  induction xs generalizing d with
  | nil => exact refl d
  | cons x xs ih => exact (h d x).trans (ih _)

/-- A quiet field keeps its value. -/
theorem getF {d t : Dev} (h : Noise d t) {f : Field} (hf : f.quiet = true) {i : Nat} (hi : i < 2048) :
    t.getF f i = d.getF f i := by
  simp only [Dev.getF, mget, h.kept _ (Field.noiseKey_of_quiet hf hi)]

theorem blk {d t : Dev} (h : Noise d t) {c i : Nat} : t.blk c i = d.blk c i := by
  simp only [Dev.blk, Dev.getF, mget, h.reports.nv, h.kept _ (noiseKey_state c i)]

theorem place_BLK_ERR (c : Nat) : (R.BLK_ERR c).place = 1024 := by simp [Field.place, R.BLK_ERR]

theorem cell {d t : Dev} (h : Noise d t) (p : Nat) : t.cell p = d.cell p := by simp only [Dev.cell, h.reports.cells]

/-- A store into a noisy home other than BLK_ERR's. -/
theorem setF (d : Dev) {f : Field} {i : Nat} (h : noiseKey (f.key i) = true) (he : f.place ≠ 1024) (v : Nat) :
    Noise d (d.setF f i v) := by
  refine ⟨.setF .., fun k hk => ?_, fun c j b hb hd => ?_⟩
  · exact mfind_mput_other (fun e => by rw [e, h] at hk; cases hk) _ _
  · rw [Dev.errBit, Dev.getF_setF_place (f := f) (g := R.BLK_ERR c) (by rw [place_BLK_ERR]; exact he.symm)]
    exact hd

/-- A place that is noisy on every page. -/
theorem noiseKey_of_off {f : Field} (h : f.off = 40 ∨ f.off = 60 ∨ (64 ≤ f.off ∧ f.off < 128)) (hl : f.lo < 32) (i : Nat) :
    noiseKey (f.key i) = true := by
  have off : f.key i / 32 % 4096 = f.off := by simp only [Field.key]; omega
  simp only [noiseKey, off, Bool.or_eq_true, Bool.and_eq_true, decide_eq_true_eq]
  omega

theorem place_of_off {f : Field} (h : f.off = 40 ∨ f.off = 60 ∨ (64 ≤ f.off ∧ f.off < 128)) (hl : f.lo < 32) :
    f.place ≠ 1024 := by
  simp only [Field.place]
  omega

theorem setF_off (d : Dev) {f : Field} (h : f.off = 40 ∨ f.off = 60 ∨ (64 ≤ f.off ∧ f.off < 128)) (hl : f.lo < 32) (i v : Nat) :
    Noise d (d.setF f i v) := setF d (noiseKey_of_off h hl i) (place_of_off h hl) v

/-- A store into the RAS page. -/
theorem setF_ras (d : Dev) {f : Field} (hc : f.cls = 16) (ho : 128 ≤ f.off ∧ f.off < 160) (hl : f.lo < 32 ∧ f.lo ≠ 14) (v : Nat) :
    Noise d (d.setF f 0 v) := by
  refine setF d ?_ ?_ v
  · have page : f.key 0 / 131072 = 32768 := by simp only [Field.key, hc]; omega
    have off : f.key 0 / 32 % 4096 = f.off := by simp only [Field.key]; omega
    have lo : f.key 0 % 32 = f.lo := by simp only [Field.key]; omega
    simp [noiseKey, page, off, ho, lo, hl.2]
  · simp only [Field.place]
    omega

theorem emit (d : Dev) (o : Out) : Noise d (d.emit o) := ⟨.emit .., fun _ _ => rfl, fun _ _ _ _ h => h⟩
theorem vectors (d : Dev) (v : Nat) : Noise d (d.vectors v) := (emit ..).trans (emit ..)

theorem bump (d : Dev) (c i : Nat) {k : Nat} (hk : k < 8) (n : Nat) : Noise d (d.bump c i k n) :=
  have h : 64 + 8 * k < 128 := by omega
  setF_off d (f := R.COUNTER c k) (.inr (.inr ⟨Nat.le_add_right _ _, h⟩)) (Nat.zero_lt_succ _) i _

theorem irq (d : Dev) (c i b : Nat) : Noise d (d.irq c i b) :=
  have h : Noise d (d.setF (R.BLK_IRQ_PEND c) i (setBit (d.getF (R.BLK_IRQ_PEND c) i) b)) :=
    setF_off d (.inl rfl) (Nat.zero_lt_succ _) i _
  ite (h.trans (vectors ..)) h

/-- BLK_ERR takes a bit, and loses none. -/
theorem setErrBit (d : Dev) (c i b : Nat) :
    Noise d (d.setF (R.BLK_ERR c) i (setBit (d.getF (R.BLK_ERR c) i) b)) := by
  refine ⟨.setF .., fun k hk => ?_, fun c' j b' hb h => ?_⟩
  · refine mfind_mput_other (fun e => ?_) _ _
    have off : (R.BLK_ERR c).key i / 32 % 4096 = 32 := by simp only [Field.key, R.BLK_ERR]; omega
    simp [e, noiseKey, off] at hk
  · simp only [Dev.errBit, Dev.getF_setF]
    split
    · next e =>
      have same : d.getF (R.BLK_ERR c') j = d.getF (R.BLK_ERR c) i := by simp only [Dev.getF, e]; rfl
      rw [Dev.errBit, same] at h
      simp only [bitOf, setBit, R.BLK_ERR, Nat.testBit_mod_two_pow, Nat.testBit_or, Bool.and_eq_true, Bool.or_eq_true,
        decide_eq_true_eq]
      exact ⟨hb, .inl h⟩
    · exact h

theorem flagErr (d : Dev) (c i b : Nat) : Noise d (d.flagErr c i b) :=
  ite (setErrBit ..) (ite (((setErrBit ..).trans (irq ..)).trans (irq ..)) ((setErrBit ..).trans (irq ..)))

theorem errBit_flagErr (d : Dev) (c i : Nat) {b : Nat} (hb : b < 32) : (d.flagErr c i b).errBit c i b = true := by
  have h : (d.setF (R.BLK_ERR c) i (setBit (d.getF (R.BLK_ERR c) i) b)).errBit c i b = true := by
    simp only [Dev.errBit, Dev.getF_setF_same, bitOf, setBit, R.BLK_ERR, Nat.testBit_mod_two_pow, Nat.testBit_or,
      Nat.testBit_two_pow_self, Bool.or_true, Bool.and_true, decide_eq_true_eq]
    exact hb
  unfold Dev.flagErr
  dsimp only
  split
  · exact h
  · split
    · exact ((irq ..).trans (irq ..)).errs _ _ _ hb h
    · exact (irq ..).errs _ _ _ hb h

theorem log (d : Dev) (es : List RasEntry) : Noise d { d with rasLog := es } :=
  ⟨⟨_, _, _, rfl⟩, fun _ _ => rfl, fun _ _ _ _ h => h⟩

theorem rasAppend (d : Dev) (w a : Nat) : Noise d (d.rasAppend w a) := by
  unfold Dev.rasAppend
  split
  · have sev : bitsOf w 29 2 < 4 := Nat.mod_lt _ (by decide)
    exact (log d _).trans (bump _ _ _ (by omega) _)
  · exact (setF_ras d rfl (by decide) (by decide) _).trans (bump _ _ _ (by decide) _)

theorem rasNote (d : Dev) (c i b sev act addr : Nat) : Noise d (d.rasNote c i b sev act addr) := by
  unfold Dev.rasNote
  refine trans (trans (setF_ras d (f := R.RAS_SUMMARY_CLASSES) rfl (by decide) (by decide) _) (ite (refl _) ?_)) (rasAppend ..)
  exact (setF_ras _ (f := R.RAS_FIRST_LO_ENTRY) rfl (by decide) (by decide) _).trans
    (setF_ras _ (f := R.RAS_FIRST_HI_STEP) rfl (by decide) (by decide) _)

theorem setErrOnce (d : Dev) (c i b sev act addr : Nat) : Noise d (d.setErrOnce c i b sev act addr) :=
  ite (refl d) (ite (flagErr ..) ((flagErr ..).trans (rasNote ..)))

theorem errBit_setErrOnce (d : Dev) (c i : Nat) {b : Nat} (hb : b < 32) (sev act addr : Nat) :
    (d.setErrOnce c i b sev act addr).errBit c i b = true := by
  unfold Dev.setErrOnce
  split
  · assumption
  · split
    · exact errBit_flagErr d c i hb
    · exact (rasNote ..).errs _ _ _ hb (errBit_flagErr d c i hb)

theorem rasFollow (d : Dev) (x y : Bool) : Noise d (d.rasFollow x y) :=
  trans (ite (setErrOnce ..) (refl d)) (ite (setErrOnce ..) (refl _))

theorem setErrFull (d : Dev) (c i b sev act addr : Nat) : Noise d (d.setErrFull c i b sev act addr) := by
  unfold Dev.setErrFull
  extract_lets e
  refine trans (e := e) (ite (bump _ _ _ (by decide) _) (refl d)) ?_
  clear_value e
  exact ite (setErrOnce ..) ((setErrOnce ..).trans (rasFollow ..))

theorem errBit_setErrFull (d : Dev) (c i : Nat) {b : Nat} (hb : b < 32) (sev act addr : Nat) :
    (d.setErrFull c i b sev act addr).errBit c i b = true := by
  unfold Dev.setErrFull
  extract_lets e
  clear_value e
  split
  · exact errBit_setErrOnce _ c i hb ..
  · exact (rasFollow ..).errs _ _ _ hb (errBit_setErrOnce _ c i hb ..)

theorem setErr (d : Dev) (c i b : Nat) : Noise d (d.setErr c i b) := setErrFull ..
theorem errBit_setErr (d : Dev) (c i : Nat) {b : Nat} (hb : b < 32) : (d.setErr c i b).errBit c i b = true :=
  errBit_setErrFull d c i hb ..

theorem lockedWrite (d : Dev) (c i : Nat) : Noise d (d.lockedWrite c i) := (bump _ _ _ (by decide) _).trans (setErr ..)
theorem errBit_lockedWrite (d : Dev) (c i : Nat) : (d.lockedWrite c i).errBit c i 0 = true := errBit_setErr _ c i (by decide)
theorem commitReject (d : Dev) (c i : Nat) : Noise d (d.commitReject c i) := (bump _ _ _ (by decide) _).trans (setErr ..)
theorem errBit_commitReject (d : Dev) (c i : Nat) : (d.commitReject c i).errBit c i 1 = true := errBit_setErr _ c i (by decide)
theorem policyTaken (d : Dev) (c i : Nat) : Noise d (d.policyTaken c i) := irq ..
theorem policyWithheld (d : Dev) (c i : Nat) : Noise d (d.policyWithheld c i) := (irq ..).trans (bump _ _ _ (by decide) _)

end Noise

/-- An error bit is not in another field. -/
theorem Dev.errBit_setF_place {f : Field} (h : f.place ≠ 1024) (d : Dev) (i v c j b : Nat) :
    (d.setF f i v).errBit c j b = d.errBit c j b := by
  rw [Dev.errBit, Dev.getF_setF_place (f := f) (g := R.BLK_ERR c) (by rw [Noise.place_BLK_ERR]; exact h.symm), Dev.errBit]

/-! ### What an operation touches -/

/-- Beside noise the operation changes at most the homes of `S`, and no error bit falls. -/
structure Touches (S : Nat → Prop) (d t : Dev) : Prop where
  kept : ∀ k, noiseKey k = false → ¬ S k → mfind k t.fields = mfind k d.fields
  errs : ∀ c i b, b < 32 → d.errBit c i b = true → t.errBit c i b = true

/-- The homes of these fields. -/
def homes (xs : List (Field × Nat)) (k : Nat) : Prop := ∃ x ∈ xs, x.1.key x.2 = k

/-- The homes on these pages of a class. -/
def pages (c : Nat) (P : Nat → Prop) (k : Nat) : Prop := ∃ i, P i ∧ k / 131072 = c * 2048 + i

theorem Noise.touches {d t : Dev} (h : Noise d t) (S : Nat → Prop) : Touches S d t := ⟨fun k hk _ => h.kept k hk, h.errs⟩

namespace Touches

variable {S T : Nat → Prop} {d e t : Dev}

theorem of_fields (h : t.fields = d.fields) : Touches S d t :=
  ⟨fun _ _ _ => by rw [h], fun _ _ _ _ he => by simpa only [Dev.errBit, Dev.getF, h] using he⟩

theorem refl (d : Dev) (S : Nat → Prop) : Touches S d d := of_fields rfl

theorem trans (h1 : Touches S d e) (h2 : Touches S e t) : Touches S d t :=
  ⟨fun k hk hs => (h2.kept k hk hs).trans (h1.kept k hk hs), fun c i b hb h => h2.errs c i b hb (h1.errs c i b hb h)⟩

theorem mono (h : Touches S d t) (hs : ∀ k, S k → T k) : Touches T d t := ⟨fun k hk ht => h.kept k hk fun h' => ht (hs k h'), h.errs⟩

theorem ite {a b : Dev} {p : Prop} [Decidable p] (ha : Touches S d a) (hb : Touches S d b) : Touches S d (if p then a else b) := by
  split
  · exact ha
  · exact hb

theorem foldl {α : Type} {f : Dev → α → Dev} (h : ∀ e x, Touches S e (f e x)) (xs : List α) (d : Dev) :
    Touches S d (xs.foldl f d) := by
  induction xs generalizing d with
  | nil => exact refl d S
  | cons x xs ih => exact (h d x).trans (ih _)

theorem setF (d : Dev) {f : Field} {i : Nat} (hs : S (f.key i)) (he : f.place ≠ 1024) (v : Nat) : Touches S d (d.setF f i v) := by
  refine ⟨fun k _ hk => mfind_mput_other (fun e => hk (by rw [e]; exact hs)) _ _, fun c j b _ h => ?_⟩
  rw [Dev.errBit, Dev.getF_setF_place (f := f) (g := R.BLK_ERR c) (by rw [Noise.place_BLK_ERR]; exact he.symm)]
  exact h

theorem getF (h : Touches S d t) {f : Field} (hf : f.quiet = true) {i : Nat} (hi : i < 2048) (hs : ¬ S (f.key i)) :
    t.getF f i = d.getF f i := by
  simp only [Dev.getF, mget, h.kept _ (Field.noiseKey_of_quiet hf hi) hs]

theorem blk (h : Touches S d t) {c i : Nat} (hs : ¬ S ((R.BLK_STATE_STATE c).key i)) (hn : t.nv = d.nv) : t.blk c i = d.blk c i := by
  simp only [Dev.blk, Dev.getF, mget, hn, h.kept _ (noiseKey_state c i) hs]

end Touches

/-- A field at another place has none of these homes. -/
theorem not_homes {xs : List (Field × Nat)} {f : Field} (h : f.place ∉ xs.map (·.1.place)) (i : Nat) : ¬ homes xs (f.key i) := by
  rintro ⟨x, hx, e⟩
  exact Field.key_ne (fun e' => h (e' ▸ List.mem_map_of_mem hx)) x.2 i e

theorem not_homes_map {fs : List Field} {f : Field} (h : f.place ∉ fs.map Field.place) (p i : Nat) :
    ¬ homes (fs.map (·, p)) (f.key i) := not_homes (by simpa using h) i

theorem Field.key_page {f : Field} (hf : f.quiet = true) (i : Nat) : f.key i / 131072 = f.cls * 2048 + i := by
  simp only [Field.quiet, Bool.and_eq_true, Bool.or_eq_true, decide_eq_true_eq] at hf
  obtain ⟨⟨⟨-, h5⟩, h6⟩, -⟩ := hf
  simp only [Field.key]
  omega

/-- A field of another page of the class. -/
theorem not_pages {c : Nat} {P : Nat → Prop} {f : Field} (hf : f.quiet = true) (hc : f.cls = c) {i : Nat} (h : ¬ P i) :
    ¬ pages c P (f.key i) := by
  rintro ⟨j, hj, e⟩
  rw [Field.key_page hf, hc] at e
  exact h ((show i = j by omega) ▸ hj)

theorem pages_key {c : Nat} {P : Nat → Prop} {f : Field} (hf : f.quiet = true) (hc : f.cls = c) {i : Nat} (h : P i) :
    pages c P (f.key i) := ⟨i, h, by rw [Field.key_page hf, hc]⟩

end Sys2Proof.Machine
end

