-- ==== Sys2Proof/Proofs/Cloche.lean ====
section
/-! Block states and the cloche of a cell (R31, R44, R97, R389): what a change of state touches, what a cell that leaves
service loses, and what its plot's other cells do about it. -/

namespace Sys2Proof.Machine

/-! ### Block states -/

/-- The homes that a change of a page's state touches. -/
def stateHomes (c i k : Nat) : Prop := k = (R.BLK_STATE_STATE c).key i ∨ k ∈ stateFields c i

/-- The place of BLK_STATE is not that of a field that follows it. -/
theorem state_not_follower (c i b j : Nat) : (R.BLK_STATE_STATE b).key j ∉ stateFields c i := by
  have ne (f : Field) (h : f.place ≠ (R.BLK_STATE_STATE b).place) : (R.BLK_STATE_STATE b).key j ≠ f.key i :=
    Field.key_ne (Ne.symm h) j i
  unfold stateFields
  split
  · simp [ne R.LNK_STATUS_LSTATE (by simp [Field.place, R.LNK_STATUS_LSTATE, R.BLK_STATE_STATE]),
      ne R.LNK_STATUS_LANES (by simp [Field.place, R.LNK_STATUS_LANES, R.BLK_STATE_STATE]),
      ne R.LNK_STATUS_SPARED (by simp [Field.place, R.LNK_STATUS_SPARED, R.BLK_STATE_STATE])]
  · split
    · simp [ne R.CEL_ARRAY_STATUS_NEXT_TAG (by simp [Field.place, R.CEL_ARRAY_STATUS_NEXT_TAG, R.BLK_STATE_STATE])]
    · simp

/-- Everything but these components is unchanged: fields, the marks of blocks, what goes out and the ports. -/
def StateFrame (d t : Dev) : Prop :=
  t = { d with fields := t.fields, testFails := t.testFails, rasLog := t.rasLog, out := t.out, fab := { d.fab with ports := t.fab.ports } }

namespace StateFrame

theorem refl (d : Dev) : StateFrame d d := rfl

theorem of_reports {d t : Dev} (h : Reports d t) : StateFrame d t := by
  obtain ⟨_, _, _, rfl⟩ := h
  rfl

theorem trans {d e t : Dev} (h1 : StateFrame d e) (h2 : StateFrame e t) : StateFrame d t := by
  unfold StateFrame at *
  rw [h1] at h2
  exact h2

theorem ite {d a b : Dev} {p : Prop} [Decidable p] (ha : StateFrame d a) (hb : StateFrame d b) : StateFrame d (if p then a else b) := by
  split
  · exact ha
  · exact hb

theorem foldl {α : Type} {f : Dev → α → Dev} (h : ∀ e x, StateFrame e (f e x)) (xs : List α) (d : Dev) :
    StateFrame d (xs.foldl f d) := by
  induction xs generalizing d with
  | nil => exact refl d
  | cons x xs ih => exact (h d x).trans (ih _)

theorem nv {d t : Dev} (h : StateFrame d t) : t.nv = d.nv := by rw [h]
theorem mem {d t : Dev} (h : StateFrame d t) : t.mem = d.mem := by rw [h]
theorem cells {d t : Dev} (h : StateFrame d t) : t.cells = d.cells := by rw [h]

theorem setF (d : Dev) (f : Field) (i v : Nat) : StateFrame d (d.setF f i v) := rfl
theorem setPort (d : Dev) (i : Nat) (p : Port) : StateFrame d (d.setPort i p) := rfl
theorem setReturned (d : Dev) (c i : Nat) (v : Bool) : StateFrame d (d.setReturned c i v) := rfl

theorem freeTransit (d : Dev) (e : QPkt) : StateFrame d (d.freeTransit e) := by
  unfold Dev.freeTransit
  split
  · exact setPort ..
  · exact refl d

theorem portDrop (d : Dev) (i : Nat) : StateFrame d (d.portDrop i) :=
  ((foldl freeTransit _ d).trans (show StateFrame _ (Dev.forgetInput _ i) from rfl)).trans (setPort ..)

theorem portDown (d : Dev) (i : Nat) : StateFrame d (d.portDown i) :=
  have h := (((portDrop d i).trans (setF ..)).trans (setF ..)).trans (setF ..)
  ite (h.trans (of_reports (.irq ..))) h

theorem stateFollows (d : Dev) (c i v : Nat) : StateFrame d (d.stateFollows c i v) :=
  ite (portDown ..) (ite (setF ..) (ite (of_reports (.irq ..)) (refl d)))

theorem setBlk (d : Dev) (c i v : Nat) : StateFrame d (d.setBlk c i v) :=
  ite (refl d) ((((setReturned ..).trans (setF ..)).trans (of_reports (.irq ..))).trans (stateFollows ..))

end StateFrame

theorem Dev.freeTransit_fields (d : Dev) (e : QPkt) : (d.freeTransit e).fields = d.fields := by
  unfold Dev.freeTransit
  split <;> rfl

theorem Dev.portDrop_fields (d : Dev) (i : Nat) : (d.portDrop i).fields = d.fields := by
  have h : ∀ (es : List QPkt) (e : Dev), (es.foldl (fun d e => d.freeTransit e) e).fields = e.fields := by
    intro es
    induction es with
    | nil => exact fun _ => rfl
    | cons x xs ih => exact fun e => (ih _).trans (Dev.freeTransit_fields e x)
  exact h _ d

namespace Touches

theorem portDown (d : Dev) (i : Nat) : Touches (· ∈ stateFields LNK i) d (d.portDown i) := by
  have drop : Touches (· ∈ stateFields LNK i) d (d.portDrop i) := of_fields (Dev.portDrop_fields d i)
  have h := ((drop.trans (setF (f := R.LNK_STATUS_LSTATE) (i := i) _ (by simp [stateFields]) (by decide) 0)).trans
    (setF (f := R.LNK_STATUS_LANES) (i := i) _ (by simp [stateFields]) (by decide) 0)).trans
    (setF (f := R.LNK_STATUS_SPARED) (i := i) _ (by simp [stateFields]) (by decide) 0)
  exact ite (h.trans ((Noise.irq ..).touches _)) h

theorem stateFollows (d : Dev) (c i v : Nat) : Touches (· ∈ stateFields c i) d (d.stateFollows c i v) := by
  unfold Dev.stateFollows
  split
  · next h => exact h.1 ▸ portDown d i
  · split
    · next h =>
      obtain ⟨rfl, -⟩ := h
      exact setF d (by simp [stateFields]) (by decide) 0
    · exact ite ((Noise.irq ..).touches _) (refl d _)

theorem setBlk (d : Dev) (c i v : Nat) : Touches (stateHomes c i) d (d.setBlk c i v) := by
  have mark (b : Bool) : Touches (stateHomes c i) d (d.setReturned c i b) := of_fields rfl
  have place : (R.BLK_STATE_STATE c).place ≠ 1024 := by simp [Field.place, R.BLK_STATE_STATE]
  have follow (e : Dev) : Touches (stateHomes c i) e (e.stateFollows c i v) := (stateFollows e c i v).mono fun _ => .inr
  exact ite (refl d _) ((((mark _).trans (setF _ (.inl rfl) place v)).trans ((Noise.irq ..).touches _)).trans (follow _))

end Touches

/-- A page that is not a fused-off or retired cell shows the state that it is given. -/
theorem Dev.blk_setBlk (d : Dev) {c i v : Nat} (hv : v < 16) (h : d.blk c i ≠ stRetired) :
    (d.setBlk c i v).blk c i = v := by
  unfold Dev.setBlk
  split
  · assumption
  · have live : (decide (c = CEL) && (d.nv.disabled.contains i || d.nv.retired.contains i)) = false := by
      rw [← Bool.not_eq_true]
      intro e
      simp only [Dev.blk, e, if_true] at h
      exact h rfl
    rw [(Touches.stateFollows _ c i v).blk (state_not_follower c i c i) (StateFrame.stateFollows ..).nv,
      (Noise.irq ..).blk]
    generalize (decide (d.blk c i = stCloched) && decide (v = stReady) && d.jobActive) = b
    have e : (d.setReturned c i b).nv = d.nv := rfl
    simp only [Dev.blk, Dev.setF_nv, e, live, Dev.getF_setF_same]
    exact Nat.mod_eq_of_lt hv

/-! ### A cell leaves service -/

/-- What happens beside cell p: its record and its page stay but for reports, as do memory and flash. -/
structure Aside (p : Nat) (d t : Dev) : Prop where
  mem : t.mem = d.mem
  nv : t.nv = d.nv
  cell : t.cell p = d.cell p
  touches : Touches (pages CEL (· ≠ p)) d t

namespace Aside

variable {p : Nat} {d e t : Dev}

theorem refl (p : Nat) (d : Dev) : Aside p d d := ⟨rfl, rfl, rfl, .refl d _⟩

theorem trans (h1 : Aside p d e) (h2 : Aside p e t) : Aside p d t :=
  ⟨h2.mem.trans h1.mem, h2.nv.trans h1.nv, h2.cell.trans h1.cell, h1.touches.trans h2.touches⟩

theorem ite {a b : Dev} {c : Prop} [Decidable c] (ha : Aside p d a) (hb : Aside p d b) : Aside p d (if c then a else b) := by
  split
  · exact ha
  · exact hb

theorem of_noise (h : Noise d t) : Aside p d t := by
  obtain ⟨hr, -⟩ := id h
  exact ⟨hr.mem, hr.nv, by simp only [Dev.cell, hr.cells], h.touches _⟩

theorem setPlot (p : Nat) (d : Dev) (k : Nat) (r : PlotRun) : Aside p d (d.setPlot k r) := ⟨rfl, rfl, rfl, .of_fields rfl⟩

theorem setCell {q : Nat} (h : q ≠ p) (d : Dev) (c : Cell) : Aside p d (d.setCell q c) :=
  ⟨rfl, rfl, Dev.cell_setCell_other d (Ne.symm h) c, .of_fields rfl⟩

theorem setF {q : Nat} (h : q ≠ p) (d : Dev) {f : Field} (hf : f.quiet = true) (hc : f.cls = CEL) (he : f.place ≠ 1024) (v : Nat) :
    Aside p d (d.setF f q v) := ⟨rfl, rfl, rfl, .setF d (pages_key (P := (· ≠ p)) hf hc h) he v⟩

theorem setBlk {q : Nat} (h : q ≠ p) (d : Dev) (v : Nat) : Aside p d (d.setBlk CEL q v) := by
  have frame := StateFrame.setBlk d CEL q v
  refine ⟨frame.mem, frame.nv, by simp only [Dev.cell, frame.cells], (Touches.setBlk d CEL q v).mono ?_⟩
  rintro k (rfl | hk)
  · exact pages_key (by decide) rfl h
  · obtain rfl : k = R.CEL_ARRAY_STATUS_NEXT_TAG.key q := by simpa [stateFields] using hk
    exact pages_key (by decide) rfl h

/-- A cell other than p takes part in a run, and p does not while it is out of service. -/
theorem joinRun (d : Dev) (k q : Nat) (h : q ≠ p ∨ d.inService p = false) : Aside p d (d.joinRun k q) := by
  unfold Dev.joinRun
  split
  · exact refl p d
  · next hq =>
    have hne : q ≠ p := by
      rcases h with h | h
      · exact h
      · rintro rfl
        simp [h] at hq
    extract_lets r c e₁ e₂ e₃
    have h₂ : Aside p d e₂ := (setPlot p d k _).trans (setCell hne e₁ _)
    have h₃ : Aside p e₂ e₃ := ((setF hne e₂ (f := R.CEL_SEQ_STATUS_RUN) (by decide) rfl (by decide) 1).trans
      (setF hne _ (f := R.CEL_SEQ_STATUS_PC) (by decide) rfl (by decide) _)).trans
      (setF hne _ (f := R.CEL_TILE_STATUS_HOLDING) (by decide) rfl (by decide) 0)
    exact ite ((h₂.trans h₃).trans (setBlk hne _ _)) (h₂.trans h₃)

theorem blk (h : Aside p d t) : t.blk CEL p = d.blk CEL p :=
  h.touches.blk (not_pages (by decide) rfl (by simp)) h.nv

theorem inService (h : Aside p d t) : t.inService p = d.inService p := by
  simp only [Dev.inService, h.blk]

theorem getF (h : Aside p d t) (hp : p < 2048) {f : Field} (hf : f.quiet = true) (hc : f.cls = CEL) : t.getF f p = d.getF f p :=
  h.touches.getF hf hp (not_pages hf hc (by simp))

/-- The plot of a cell that is out of service may borrow cells; it is none of them. -/
theorem borrow (d : Dev) (k : Nat) (h : d.inService p = false) : Aside p d (d.borrow k) := by
  have loop : ∀ (xs : List Nat) (e : Dev), Aside p d e → Aside p d (xs.foldl (fun d p =>
      if d.getF R.CEL_SEQ_STATUS_RUN p = 0 ∧ (d.plot k).halted.contains p = false then d.joinRun k p else d) e) := by
    intro xs
    induction xs with
    | nil => exact fun e he => he
    | cons x xs ih =>
      intro e he
      exact ih _ (he.trans (ite (joinRun e k x (.inr (he.inService.trans h))) (refl p e)))
  unfold Dev.borrow
  split
  · split
    · exact loop _ d (refl p d)
    · exact refl p d
  · exact refl p d

end Aside

/-- Components that no return of a tile touches. -/
def TileFrame (d t : Dev) : Prop := t = { d with plots := t.plots }

theorem Dev.dropTiles_plots (d : Dev) (ts : List Tile) :
    TileFrame d (ts.foldl (fun (d : Dev) (t : Tile) =>
      let ph := (d.plot t.plot).phase t.phase
      d.setPhase t.plot t.phase { ph with returned := insertSet t.index ph.returned }) d) := by
  induction ts generalizing d with
  | nil => rfl
  | cons x xs ih =>
    have h := ih (d.setPhase x.plot x.phase
      { (d.plot x.plot).phase x.phase with returned := insertSet x.index ((d.plot x.plot).phase x.phase).returned })
    unfold TileFrame at *
    exact h

/-- A record with the work of its tiles dropped. -/
def Cell.dropped (c : Cell) : Cell :=
  { c with tiles := [], adds := [], stats := [], sums := [], hits := [], lostSums := [], poisoned := false,
           passes := [], zeroPts := [], dma := [], waiting := none, samples := [], used := [] }

theorem mfind_map_values {α β : Type} (f : α → β) (k : Nat) (m : NMap α) :
    mfind k (m.map fun e => (e.1, f e.2)) = (mfind k m).map f := by
  induction m with
  | nil => rfl
  | cons e m ih =>
    simp only [List.map_cons, mfind]
    split
    · rfl
    · exact ih

theorem Dev.cell_stageFreed (d : Dev) (p : Nat) : d.stageFreed.cell p = { d.cell p with stageWait := false } := by
  simp only [Dev.cell, Dev.stageFreed, mget, mfind_map_values (fun c : Cell => { c with stageWait := false })]
  cases mfind p d.cells <;> rfl

/-- What `dropTiles` changes: plots and cell records. -/
theorem Dev.dropTiles_frame (d : Dev) (p : Nat) :
    d.dropTiles p = { d with plots := (d.dropTiles p).plots, cells := (d.dropTiles p).cells } := by
  unfold Dev.dropTiles
  dsimp only
  rw [Dev.dropTiles_plots d (d.cell p).tiles]
  rfl

theorem Dev.cell_dropTiles (d : Dev) (p : Nat) :
    (d.dropTiles p).cell p = { (d.cell p).dropped with stageWait := false } := by
  unfold Dev.dropTiles
  dsimp only
  rw [Dev.cell_stageFreed, Dev.cell_setCell_same]
  rfl

theorem Dev.returnTile_noise (d : Dev) (p : Nat) :
    Noise d ((d.cell p).tiles.foldl (fun (d : Dev) (t : Tile) => d.bump PLT t.plot 3 1) d) := by
  have count (e : Dev) (x : Tile) : Noise e (e.bump PLT x.plot 3 1) := Noise.bump e PLT x.plot (by decide) 1
  exact .foldl count _ d

/-- The fields of a cell's page that `clearTileRegs` clears. -/
def tileFields : List Field := [R.CEL_TILE_STATUS_HOLDING, R.CEL_ARRAY_STATUS_IN_FLIGHT, R.CEL_SEQ_STATUS_RUN]

/-- The fields of a cell's page that a cloche changes. -/
def clocheFields : List Field := R.BLK_STATE_STATE CEL :: R.CEL_ARRAY_STATUS_NEXT_TAG :: tileFields

/-- What cell p has lost when it has left service: its tiles with their work, and the state of its page. -/
structure Cloched (p : Nat) (d t : Dev) : Prop where
  mem : t.mem = d.mem
  nv : t.nv = d.nv
  cell : t.cell p = { (d.cell p).dropped with stageWait := false }
  blk : t.blk CEL p = stCloched
  kept : ∀ f : Field, f.quiet = true → f.cls = CEL → f.place ∉ clocheFields.map Field.place → t.getF f p = d.getF f p
  errs : ∀ c i b, b < 32 → d.errBit c i b = true → t.errBit c i b = true

theorem Dev.clearTileRegs_touches (d : Dev) (p : Nat) : Touches (homes (tileFields.map (·, p))) d (d.clearTileRegs p) := by
  have set (e : Dev) (f : Field) (h : f ∈ tileFields) (hp : f.place ≠ 1024) :
      Touches (homes (tileFields.map (·, p))) e (e.setF f p 0) := .setF e ⟨(f, p), List.mem_map_of_mem h, rfl⟩ hp 0
  exact ((set _ _ (by decide) (by decide)).trans (set _ _ (by decide) (by decide))).trans (set _ _ (by decide) (by decide))

/-- The return of a cell's tiles (R101). -/
theorem Dev.returnTile_spec (d : Dev) (p : Nat) :
    (d.returnTile p).mem = d.mem ∧ (d.returnTile p).nv = d.nv
      ∧ (d.returnTile p).cell p = { (d.cell p).dropped with stageWait := false } ∧ ∀ S, Touches S d (d.returnTile p) := by
  have noise := Dev.returnTile_noise d p
  unfold Dev.returnTile
  refine ⟨?_, ?_, ?_, ?_⟩
  · rw [Dev.dropTiles_frame]
    exact noise.reports.mem
  · rw [Dev.dropTiles_frame]
    exact noise.reports.nv
  · rw [Dev.cell_dropTiles, noise.cell]
  · rw [Dev.dropTiles_frame]
    exact fun S => (noise.touches S).trans (.of_fields rfl)

theorem stateHomes_cloche {p k : Nat} (h : stateHomes CEL p k) : homes (clocheFields.map (·, p)) k := by
  rcases h with rfl | h
  · exact ⟨(R.BLK_STATE_STATE CEL, p), by simp [clocheFields], rfl⟩
  · have e : k = R.CEL_ARRAY_STATUS_NEXT_TAG.key p := by simpa [stateFields] using h
    exact ⟨(R.CEL_ARRAY_STATUS_NEXT_TAG, p), by simp [clocheFields], e.symm⟩

/-- A cell leaves service into CLOCHED, before its plot borrows (R44, R101). -/
theorem Dev.leaveService_spec {d : Dev} {p : Nat} (hp : p < 1152) (h : d.blk CEL p ≠ stRetired) :
    Cloched p d ((((d.returnTile p).clearTileRegs p).setBlk CEL p stCloched).bump TRL 0 0 1) := by
  have hp' : p < 2048 := by omega
  obtain ⟨mem, nv, cell, kept⟩ := Dev.returnTile_spec d p
  have regs := (kept _).trans (Dev.clearTileRegs_touches (d.returnTile p) p)
  have blk : ((d.returnTile p).clearTileRegs p).blk CEL p = d.blk CEL p := regs.blk (not_homes_map (by decide) p p) nv
  have frame := StateFrame.setBlk ((d.returnTile p).clearTileRegs p) CEL p stCloched
  have count := Noise.bump (((d.returnTile p).clearTileRegs p).setBlk CEL p stCloched) TRL 0 (k := 0) (by decide) 1
  have all : Touches (homes (clocheFields.map (·, p))) d _ := ((regs.mono fun k ⟨x, hx, e⟩ =>
    ⟨x, List.mem_cons_of_mem _ (List.mem_cons_of_mem _ hx), e⟩).trans ((Touches.setBlk _ CEL p stCloched).mono
      fun _ => stateHomes_cloche)).trans (count.touches _)
  refine ⟨?_, ?_, ?_, ?_, fun f hf _ hn => all.getF hf hp' (not_homes_map hn p p), all.errs⟩
  · rw [count.reports.mem, frame.mem]
    exact mem
  · rw [count.reports.nv, frame.nv]
    exact nv
  · rw [count.cell, Dev.cell, frame.cells]
    exact cell
  · rw [count.blk, Dev.blk_setBlk _ (by decide) (blk ▸ h)]

theorem Cloched.trans {p : Nat} {d e t : Dev} (hp : p < 2048) (h : Cloched p d e) (a : Aside p e t) : Cloched p d t :=
  ⟨a.mem.trans h.mem, a.nv.trans h.nv, a.cell.trans h.cell, a.blk.trans h.blk,
    fun f hf hc hn => (a.getF hp hf hc).trans (h.kept f hf hc hn), fun c i b hb he => a.touches.errs c i b hb (h.errs c i b hb he)⟩

/-- A cell leaves service into CLOCHED (R31, R44, R101). -/
theorem Dev.clocheCell_spec {d : Dev} {p : Nat} (hp : p < 1152) (h : d.blk CEL p ≠ stRetired) : Cloched p d (d.clocheCell p) := by
  have core := Dev.leaveService_spec hp h
  have hp' : p < 2048 := by omega
  unfold Dev.clocheCell
  dsimp only
  split
  · next k _ => exact core.trans hp' (.borrow _ k (by simp [Dev.inService, core.blk]))
  · exact core

/-- The MC cloches a cell in service on a fault: the flash counts it (R389, R487). -/
theorem Dev.clocheFault_spec {d : Dev} {p : Nat} (hp : p < 1152) (h : d.inService p = true) :
    Cloched p { d with nv := { d.nv with faultCloches := mput p (0 :: mget [] d.nv.faultCloches p) d.nv.faultCloches } }
      (d.clocheFault p) := by
  have hp' : p < 2048 := by omega
  simp only [Dev.inService, Bool.and_eq_true, decide_eq_true_eq] at h
  unfold Dev.clocheFault
  extract_lets flash e f
  have noise : Noise e (e.bump RAS 0 4 1) := .bump _ _ _ (by decide) _
  have blk : f.blk CEL p = d.blk CEL p := noise.blk
  rw [if_neg (by rw [blk]; simp only [stCloched, stOff]; omega)]
  have core := Dev.clocheCell_spec (d := { f with testFails := mput (faultKey p) 1 f.testFails }) hp
    (by show f.blk CEL p ≠ _; rw [blk]; simp only [stRetired]; omega)
  have done := core.trans hp' (.of_noise (.policyTaken _ CEL p))
  refine ⟨done.mem.trans noise.reports.mem, done.nv.trans noise.reports.nv, ?_, done.blk,
    fun g hg hc hn => (done.kept g hg hc hn).trans (noise.getF hg hp'),
    fun c i b hb he => done.errs c i b hb (noise.errs c i b hb he)⟩
  rw [done.cell]
  exact congrArg (fun c : Cell => { c.dropped with stageWait := false }) (noise.cell p)

end Sys2Proof.Machine
end

