-- ==== Sys2Proof/Proofs/Scalar.lean ====
section
/-! The scalar instructions of a cell (R95, R96): what an instruction that issues does, and the s-registers and the cell
store that it reads and writes. -/

namespace Sys2Proof.Machine

/-! ### Registers and cell store -/

theorem regsOk_iff (rs : List Nat) : regsOk rs = true ↔ ∀ r ∈ rs, r < 32 := by simp [regsOk]

theorem sizeOk_iff (n : Nat) : sizeOk n = true ↔ n ∈ [1, 2, 4, 8] := by simp [sizeOk, or_assoc]

/-- What a reader of a byte map sees as a number is the number of its bytes. -/
theorem rdNat_byteAt (m : NMap Byte) (a n : Nat) : rdNat (byteAt m) a n = leNat (bytesAt m a n) := by
  have h : ∀ a, (List.range n).map (fun i => byteAt m (a + i)) = bytesAt m a n := by
    induction n with
    | zero => intro a; rfl
    | succ n ih =>
      intro a
      rw [List.range_succ_eq_map, List.map_cons, List.map_map, bytesAt, ← ih (a + 1)]
      refine congrArg₂ List.cons rfl (List.map_congr_left fun i _ => ?_)
      simp only [Function.comp, Nat.succ_eq_add_one]
      congr 1
      omega
  rw [rdNat, h]

/-- Settles O15: `setS` writes one register but s0, and the eight bytes stored are those read. -/
theorem cellStateReadsAsWritten : Obligations.CellStateReadsAsWritten := by
  unfold Obligations.CellStateReadsAsWritten
  refine ⟨fun c r q v => ⟨?_, fun hr => ?_, fun hq => ?_⟩, fun c a v h => ⟨?_, bytesWf_setBytes _ _ h, fun b hb => ?_⟩⟩
  · simp [Cell.s_setS]
  · simp [Cell.s_setS, hr]
  · by_cases h0 : q = 0
    · simp [Cell.s, h0]
    · simp [Cell.s_setS, h0, hq]
  · have read : bytesAt (setBytes c.store a (leBytes 8 v.toNat)) a 8 = leBytes 8 v.toNat := by
      simpa using bytesAt_setBytes (leBytes 8 v.toNat) h a
    show rdNat (byteAt (setBytes c.store a (leBytes 8 v.toNat))) a 8 = v.toNat
    rw [rdNat_byteAt, read, leNat_leBytes]
    exact Nat.mod_eq_of_lt v.isLt
  · exact byteAt_setBytes_other _ _ _ _ (by simpa using hb)

/-! ### An instruction that issues -/

/-- The cell's record and its sequencer's index change. -/
def Dev.stepCell (d : Dev) (cell : Nat) (c' : Cell) (pc : Nat) : Dev := (d.setCell cell c').setF R.CEL_SEQ_STATUS_PC cell pc

/-- An instruction that stores its cell's record moves on by one word. -/
theorem Dev.instr_setCell {d : Dev} {cell : Nat} {f : Dev → Dev} {c' : Cell} (hi : d.canIssue cell = true)
    (hf : f d = d.setCell cell c') : d.instr cell f = d.stepCell cell c' (d.getF R.CEL_SEQ_STATUS_PC cell + 1) := by
  have run : (d.setCell cell c').getF R.CEL_SEQ_STATUS_RUN cell ≠ 3 := by
    rw [Dev.getF_setCell, Dev.run_of_canIssue hi]
    decide
  simp only [Dev.instr, hi, hf, if_true, if_neg run]
  rfl

end Sys2Proof.Machine

namespace Sys2Proof

open Machine

/-- An instruction whose effect is such a change. -/
theorem CellStep.of_dev {c : Instr} {s : State} {cell pc : Nat} {c' : Cell} {f : Dev → Dev} (hi : Issues s cell)
    (he : exec c s = s.onDev f) (hf : f s.dev = s.dev.stepCell cell c' pc) : CellStep c s cell c' (pc % 16384) := by
  refine CellStep.of_eq c' _ hi (Nat.mod_lt _ (by decide)) ?_
  rw [he, State.onDev_up hi.1, State.onDev_up hi.1, hf]
  exact congrArg (fun d => Host.Outcome.next { s with dev := d }) (Dev.setF_mod _ R.CEL_SEQ_STATUS_PC cell pc).symm

/-- An instruction whose effect on the cell's record is `c'`. -/
theorem CellStep.of_instr {c : Instr} {s : State} {cell : Nat} {c' : Cell} {f : Dev → Dev} (hi : Issues s cell)
    (he : exec c s = s.onDev (fun d => d.instr cell f)) (hf : f s.dev = s.dev.setCell cell c') :
    CellStep c s cell c' (nextPc s cell 1) :=
  .of_dev hi he (Dev.instr_setCell hi.2 hf)

/-- A three-register operation. -/
theorem CellStep.of_alu {c : Instr} {s : State} {cell rd rs rt : Nat} (g : Word → Word → Word) (hi : Issues s cell)
    (hd : rd < 32) (hs : rs < 32) (ht : rt < 32) (he : exec c s = s.onDev (fun d => d.alu cell rd rs rt g)) :
    CellStep c s cell ((s.dev.cell cell).setS rd (g ((s.dev.cell cell).s rs) ((s.dev.cell cell).s rt))) (nextPc s cell 1) :=
  .of_instr hi he (if_pos ((regsOk_iff _).2 (by simp [hd, hs, ht])))

/-- LI of one word or two. -/
theorem CellStep.of_li {s : State} {cell rd : Nat} (imm : Word) (long : Bool) (hi : Issues s cell) (hd : rd < 32) :
    CellStep (.li cell rd imm long) s cell ((s.dev.cell cell).setS rd imm) (nextPc s cell (if long then 2 else 1)) := by
  have ok : regsOk [rd] = true := (regsOk_iff _).2 (by simp [hd])
  cases long
  case false => exact .of_instr hi rfl (if_pos ok)
  case true =>
    refine .of_dev hi (f := fun d => d.instr cell _) rfl ?_
    have run : ((s.dev.setCell cell ((s.dev.cell cell).setS rd imm)).advance cell 1).getF R.CEL_SEQ_STATUS_RUN cell ≠ 3 := by
      rw [Dev.advance, Dev.getF_setF_place (by decide), Dev.getF_setCell, Dev.run_of_canIssue hi.2]
      decide
    simp only [Dev.instr, hi.2, ok, if_true, if_neg run]
    simp only [Dev.advance, Dev.stepCell, Dev.getF_setF_same, Dev.setF_setF]
    rw [← Dev.setF_mod, Nat.mod_add_mod, Dev.setF_mod]
    rfl

/-- Settles O2. -/
theorem scalarRegisterOperations : Obligations.ScalarRegisterOperations := by
  unfold Obligations.ScalarRegisterOperations
  refine ⟨fun s cell rd rs rt cond imm long hi hd hs ht => ?_, fun s cell rd rs rt hi hd hs ht => ?_⟩
  · have alu := fun (c : Instr) (g : Word → Word → Word) => CellStep.of_alu (c := c) g hi hd hs ht
    exact ⟨alu _ (· + ·) rfl, alu _ (· - ·) rfl, alu _ (· * ·) rfl, alu _ (· &&& ·) rfl, alu _ (· ||| ·) rfl,
      alu _ (· ^^^ ·) rfl, alu _ (Config.cmpValue cond) rfl, .of_li imm long hi hd⟩
  · exact ⟨.of_alu shl hi hd hs ht rfl, .of_alu shr hi hd hs ht rfl⟩

/-! ### Control transfers -/

theorem Machine.Dev.jump_of_lt (d : Dev) (cell : Nat) {target : Nat} (h : target < 16384) :
    d.jump cell target = d.setF R.CEL_SEQ_STATUS_PC cell target := if_pos h

/-- What BCC does (R96). -/
def Machine.Dev.doBranch (d : Dev) (cell : Nat) (cond : CondCode) (rs target : Nat) : Dev :=
  if !regsOk [rs] then d.illegal cell
  else if Config.bccTaken cond ((d.cell cell).s rs) then d.jump cell target
  else d.advance cell 1

/-- What CALL does (R96). -/
def Machine.Dev.doCall (d : Dev) (cell target : Nat) : Dev :=
  if 16 ≤ (d.cell cell).stack.length ∨ 16384 ≤ target then d.illegal cell
  else (d.setCell cell { d.cell cell with stack := (d.getF R.CEL_SEQ_STATUS_PC cell + 1) % 16384 :: (d.cell cell).stack }).jump cell target

/-- What RET does (R96). -/
def Machine.Dev.doReturn (d : Dev) (cell : Nat) : Dev :=
  match (d.cell cell).stack with
  | [] => d.illegal cell
  | a :: rest => (d.setCell cell { d.cell cell with stack := rest }).jump cell a

theorem Machine.Dev.doReturn_cons {d : Dev} {cell a : Nat} {rest : List Nat} (h : (d.cell cell).stack = a :: rest) :
    d.doReturn cell = (d.setCell cell { d.cell cell with stack := rest }).jump cell a := by
  simp only [Dev.doReturn, h]

theorem Machine.Dev.doReturn_nil {d : Dev} {cell : Nat} (h : (d.cell cell).stack = []) : d.doReturn cell = d.illegal cell := by
  simp only [Dev.doReturn, h]

/-- An instruction that changes the index alone. -/
theorem CellStep.of_pc {c : Instr} {s : State} {cell : Nat} (pc : Nat) {f : Dev → Dev} (hi : Issues s cell)
    (he : exec c s = s.onDev f) (hf : f s.dev = s.dev.setF R.CEL_SEQ_STATUS_PC cell pc) :
    CellStep c s cell (s.dev.cell cell) (pc % 16384) := by
  refine Answers.of_onDev f he hi.1 ?_
  rw [hf]
  exact ⟨rfl, Dev.getF_setF_same .., fun _ _ => rfl, fun k hk => mfind_mput_other (by simpa using hk) _ _, rfl⟩

theorem CellStep.of_jump {c : Instr} {s : State} {cell pc : Nat} {f : Dev → Dev} (hi : Issues s cell) (hp : pc < 16384)
    (he : exec c s = s.onDev f) (hf : f s.dev = s.dev.jump cell pc) : CellStep c s cell (s.dev.cell cell) pc := by
  have h := CellStep.of_pc pc hi he (hf.trans (Machine.Dev.jump_of_lt _ _ hp))
  rwa [Nat.mod_eq_of_lt hp] at h

/-- A transfer that also changes the cell's record. -/
theorem CellStep.of_setCell_jump {c : Instr} {s : State} {cell pc : Nat} {c' : Cell} {f : Dev → Dev} (hi : Issues s cell)
    (hp : pc < 16384) (he : exec c s = s.onDev f) (hf : f s.dev = (s.dev.setCell cell c').jump cell pc) :
    CellStep c s cell c' pc := by
  have h := CellStep.of_dev hi he (hf.trans (Machine.Dev.jump_of_lt _ _ hp))
  rwa [Nat.mod_eq_of_lt hp] at h

theorem controlTransfersSetTheIndex : ControlTransfersSetTheIndex := by
  intro s cell rs target cond hi hs ht c
  have issue := hi.2
  refine ⟨.of_jump hi ht rfl (if_pos issue), ?_, fun hd => ?_, fun a rest hst ha => ?_⟩
  · have ok : (!regsOk [rs]) ≠ true := by simp [regsOk, hs]
    by_cases h : Config.bccTaken cond ((s.dev.cell cell).s rs) = true
    · rw [if_pos h]
      exact .of_jump hi ht (f := fun d => if d.canIssue cell = true then d.doBranch cell cond rs target else d) rfl
        ((if_pos issue).trans ((if_neg ok).trans (if_pos h)))
    · rw [if_neg h]
      exact .of_pc _ hi (f := fun d => if d.canIssue cell = true then d.doBranch cell cond rs target else d) rfl
        ((if_pos issue).trans ((if_neg ok).trans (if_neg h)))
  · have fits : ¬ (16 ≤ (s.dev.cell cell).stack.length ∨ 16384 ≤ target) := not_or.2 ⟨Nat.not_le.2 hd, Nat.not_le.2 ht⟩
    exact .of_setCell_jump hi ht (f := fun d => if d.canIssue cell = true then d.doCall cell target else d) rfl
      ((if_pos issue).trans (if_neg fits))
  · exact .of_setCell_jump hi ha (f := fun d => if d.canIssue cell = true then d.doReturn cell else d) rfl
      ((if_pos issue).trans (Machine.Dev.doReturn_cons hst))

/-! ### Traps -/

/-- What the flags of a trap show (R97, R115, R116). -/
structure Machine.Dev.TrapShown (d t : Dev) (cell cause addr : Nat) : Prop where
  cause : t.getF R.CEL_SEQ_STATUS_TRAP_CAUSE cell = cause
  addr : t.getF R.CEL_TRAP_ADDR_ADDR cell = addr % 2 ^ 32
  err : t.errBit CEL cell 16 = true
  blk : t.blk CEL cell = d.blk CEL cell
  frame : Reports d t
  kept : ∀ f : Field, f.quiet = true → f.place ≠ R.CEL_SEQ_STATUS_TRAP_CAUSE.place → f.place ≠ R.CEL_TRAP_ADDR_ADDR.place →
    t.getF f cell = d.getF f cell

theorem Machine.Dev.trapFlags_spec (d : Dev) {cell cause : Nat} (hp : cell < 2048) (addr : Nat) (hc : cause < 16) :
    TrapShown d (d.trapFlags cell cause addr) cell cause addr := by
  unfold Dev.trapFlags
  extract_lets d₁ d₂
  have stored : Reports d d₁ := (Reports.setF ..).trans (Reports.setF ..)
  have kind : Noise d₁ d₂ := .ite (.setErr ..) (.ite (.setErr ..) (.refl _))
  have noise : Noise d₁ ((d₂.bump CEL cell 7 1).setErrFull CEL cell 16 0 1 0) := (kind.trans (.bump d₂ CEL cell (k := 7) (by decide) 1)).trans (.setErrFull ..)
  have kept : ∀ f : Field, f.quiet = true → f.place ≠ R.CEL_SEQ_STATUS_TRAP_CAUSE.place → f.place ≠ R.CEL_TRAP_ADDR_ADDR.place →
      ((d₂.bump CEL cell 7 1).setErrFull CEL cell 16 0 1 0).getF f cell = d.getF f cell := fun f hf h1 h2 => by
    rw [noise.getF hf hp]
    exact (Dev.getF_setF_place h2 ..).trans (Dev.getF_setF_place h1 ..)
  refine ⟨?_, ?_, Noise.errBit_setErrFull _ _ _ (by decide) .., ?_, stored.trans noise.reports, kept⟩
  · rw [noise.getF (by decide) hp]
    exact (Dev.getF_setF_place (by decide) ..).trans (Dev.getF_setF_of_lt _ hc _)
  · rw [noise.getF (by decide) hp]
    exact Dev.getF_setF_same ..
  · rw [noise.blk]
    have state : d₁.getF (R.BLK_STATE_STATE CEL) cell = d.getF (R.BLK_STATE_STATE CEL) cell :=
      (Dev.getF_setF_place (by decide) ..).trans (Dev.getF_setF_place (by decide) ..)
    simp only [Dev.blk, stored.nv, state]

/-- The Trellis's side of a trap touches other cells only (R98). -/
theorem Machine.Aside.trapNote (d : Dev) (k cell : Nat) (n : TrapNote) : Aside cell d (d.trapNote k cell n) := by
  unfold Dev.trapNote
  extract_lets r
  split
  · next m hm =>
    obtain ⟨-, hne⟩ : m.sameAs n = true ∧ m.cell ≠ cell := by simpa using List.find?_some hm
    exact .ite (((Aside.setPlot cell d k _).trans (.ite (.setBlk hne _ _) (.refl _ _))).trans (.of_noise (.setErr ..))) (.refl _ _)
  · exact .setPlot ..

/-- A trap of a cell that issues (R97, R98). -/
theorem Machine.Dev.trap_spec {d : Dev} {cell cause : Nat} (addr : Nat) (h : d.canIssue cell = true) (hc : cause < 16) :
    let t := d.trap cell cause addr
    t.getF R.CEL_SEQ_STATUS_TRAP_CAUSE cell = cause ∧ t.getF R.CEL_TRAP_ADDR_ADDR cell = addr % 2 ^ 32
      ∧ t.getF R.CEL_SEQ_STATUS_RUN cell = 3 ∧ t.blk CEL cell = stCloched ∧ (t.cell cell).tiles = []
      ∧ t.errBit CEL cell 16 = true ∧ t.mem = d.mem := by
  have hp : cell < 1152 := by
    simp only [Dev.canIssue, Bool.and_eq_true, decide_eq_true_eq] at h
    exact h.1.1
  have hp' : cell < 2048 := by omega
  have running : d.blk CEL cell = stRunning := by
    simp only [Dev.canIssue, Bool.and_eq_true, decide_eq_true_eq] at h
    exact h.1.2
  have flags := Dev.trapFlags_spec d hp' addr hc
  have service : (d.trapFlags cell cause addr).inService cell = true := by
    simp only [Dev.inService, flags.blk, running]
    decide
  have left := Dev.clocheFault_spec hp service
  have note : Aside cell (((d.trapFlags cell cause addr).clocheFault cell).setF R.CEL_SEQ_STATUS_RUN cell 3) (d.trap cell cause addr) := by
    unfold Dev.trap
    dsimp only
    split
    · exact .trapNote ..
    · exact .refl ..
  have shown (f : Field) (hf : f.quiet = true) (hc : f.cls = CEL) (hn : f.place ∉ clocheFields.map Field.place)
      (hr : f.place ≠ R.CEL_SEQ_STATUS_RUN.place) : (d.trap cell cause addr).getF f cell = (d.trapFlags cell cause addr).getF f cell :=
    ((note.getF hp' hf hc).trans (Dev.getF_setF_place hr ..)).trans (left.kept f hf hc hn)
  refine ⟨?_, ?_, ?_, ?_, ?_, ?_, ?_⟩
  · exact (shown _ (by decide) rfl (by decide) (by decide)).trans flags.cause
  · exact (shown _ (by decide) rfl (by decide) (by decide)).trans flags.addr
  · exact (note.getF hp' (by decide) rfl).trans (Dev.getF_setF_same ..)
  · rw [note.blk]
    have state := Dev.getF_setF_place (f := R.CEL_SEQ_STATUS_RUN) (g := R.BLK_STATE_STATE CEL) (by decide)
      ((d.trapFlags cell cause addr).clocheFault cell) cell cell 3
    rw [← left.blk]
    simp only [Dev.blk, Dev.setF_nv, state]
  · rw [note.cell, Dev.cell_setF, left.cell]
    rfl
  · exact note.touches.errs _ _ _ (by decide) ((Dev.errBit_setF_place (by decide) ..).trans (left.errs _ _ _ (by decide) flags.err))
  · exact (note.mem.trans left.mem).trans flags.frame.mem

/-- The accesses that LD and ST refuse (R97; log entry 18). -/
theorem Machine.Dev.scalarMem_size {d : Dev} {cell : Nat} {regs : List Nat} {n : Nat} (h : d.canIssue cell = true) (hn : n ∉ [1, 2, 4, 8])
    (a : Nat) (st : Bool) (f : Dev → Dev) : d.scalarMem cell regs a n st f = d.trap cell 1 0 := by
  have size : sizeOk n = false := by rwa [← Bool.not_eq_true, sizeOk_iff]
  simp [Dev.scalarMem, h, size, Dev.illegal]

theorem Machine.Dev.scalarMem_range {d : Dev} {cell : Nat} {regs : List Nat} {a n : Nat} (h : d.canIssue cell = true)
    (hr : regsOk regs = true) (hn : n ∈ [1, 2, 4, 8]) (ha : storeTop < a + n) (st : Bool) (f : Dev → Dev) :
    d.scalarMem cell regs a n st f = d.trap cell 3 a := by
  simp [Dev.scalarMem, h, hr, (sizeOk_iff n).2 hn, if_pos ha]

theorem Machine.Dev.scalarMem_misaligned {d : Dev} {cell : Nat} {regs : List Nat} {a n : Nat} (h : d.canIssue cell = true)
    (hr : regsOk regs = true) (hn : n ∈ [1, 2, 4, 8]) (ha : a + n ≤ storeTop) (hm : a % n ≠ 0) (st : Bool) (f : Dev → Dev) :
    d.scalarMem cell regs a n st f = d.trap cell 4 a := by
  simp [Dev.scalarMem, h, hr, (sizeOk_iff n).2 hn, if_neg (Nat.not_lt.2 ha), hm]

theorem Machine.Dev.scalarMem_runs {d : Dev} {cell : Nat} {regs : List Nat} {a n : Nat} (h : d.canIssue cell = true)
    (hr : regsOk regs = true) (hn : n ∈ [1, 2, 4, 8]) (ha : a + n ≤ storeTop) (hm : a % n = 0) (st : Bool) (f : Dev → Dev) :
    d.scalarMem cell regs a n st f = d.access cell (if st then [] else [(a, n)]) (if st then [(a, n)] else []) f := by
  simp [Dev.scalarMem, h, hr, (sizeOk_iff n).2 hn, if_neg (Nat.not_lt.2 ha), hm]

theorem Machine.Dev.alu_illegal {d : Dev} {cell rd rs rt : Nat} (h : d.canIssue cell = true) (hr : ¬ regsOk [rd, rs, rt] = true)
    (f : Word → Word → Word) : d.alu cell rd rs rt f = d.trap cell 1 0 :=
  (if_pos h).trans ((congrArg (fun t : Dev => if t.getF R.CEL_SEQ_STATUS_RUN cell = 3 then t else t.advance cell 1) (if_neg hr)).trans
    (if_pos (Machine.Dev.trap_spec 0 h (by decide)).2.2.1))

/-- A cell's trap, by a function that the instruction runs. -/
theorem TrapStep.of_dev {i : Instr} {s : State} {cell cause addr : Nat} (hi : Issues s cell) (hc : cause < 16) (f : Dev → Dev)
    (he : exec i s = s.onDev f) (hf : f s.dev = s.dev.trap cell cause addr) : TrapStep i s cell cause addr :=
  .of_onDev f he hi.1 (hf ▸ Machine.Dev.trap_spec addr hi.2 hc)

/-- What LD does with the bytes at its address. -/
def Machine.Dev.loadReg (d : Dev) (cell rd a n : Nat) : Dev :=
  d.setCell cell ((d.cell cell).setS rd (loadValue n (rdNat (d.cell cell).rd a n)))

theorem exec_ld (s : State) (cell rd rs n : Nat) (off : Int) : exec (.ld cell rd rs off n) s =
    s.onDev (fun d => d.scalarMem cell [rd, rs] (d.effAddr cell rs off) n false fun d' => d'.loadReg cell rd (d.effAddr cell rs off) n) := rfl

theorem exec_st (s : State) (cell rv rs n : Nat) (off : Int) : exec (.st cell rv rs off n) s =
    s.onDev (fun d => d.scalarMem cell [rv, rs] (d.effAddr cell rs off) n true fun d' =>
      d'.storeBytes cell (d.effAddr cell rs off) (leBytes n ((d'.cell cell).s rv).toNat)) := rfl

theorem scalarInstructionsTrap : ScalarInstructionsTrap := by
  intro s cell rd rs rt n target off hi c a
  have issue := hi.2
  have regs (hd : rd < 32) (hs : rs < 32) : regsOk [rd, rs] = true := (regsOk_iff _).2 (by simp [hd, hs])
  refine ⟨fun h => ?_, fun _ _ hn => ?_, fun hd hs hn ha => ⟨?_, ?_⟩, fun hd hs hn ha hm => ⟨?_, ?_⟩, fun h => ?_, fun h => ?_, fun h => ?_⟩
  · have bad : ¬ regsOk [rd, rs, rt] = true := by
      rw [regsOk_iff]
      simp only [List.mem_cons, List.not_mem_nil, or_false, forall_eq_or_imp, forall_eq]
      omega
    exact TrapStep.of_dev hi (by decide) (fun d => d.alu cell rd rs rt (· + ·)) rfl (Machine.Dev.alu_illegal issue bad _)
  · exact TrapStep.of_dev hi (by decide) _ (exec_ld ..) (Machine.Dev.scalarMem_size issue hn ..)
  · exact TrapStep.of_dev hi (by decide) _ (exec_ld ..) (Machine.Dev.scalarMem_range issue (regs hd hs) hn ha ..)
  · exact TrapStep.of_dev hi (by decide) _ (exec_st ..) (Machine.Dev.scalarMem_range issue (regs hd hs) hn ha ..)
  · exact TrapStep.of_dev hi (by decide) _ (exec_ld ..) (Machine.Dev.scalarMem_misaligned issue (regs hd hs) hn ha hm ..)
  · exact TrapStep.of_dev hi (by decide) _ (exec_st ..) (Machine.Dev.scalarMem_misaligned issue (regs hd hs) hn ha hm ..)
  · have deep : 16 ≤ (s.dev.cell cell).stack.length ∨ 16384 ≤ target := .inl (Nat.le_of_eq h.symm)
    exact TrapStep.of_dev hi (by decide) (fun d => if d.canIssue cell = true then d.doCall cell target else d) rfl
      ((if_pos issue).trans (if_pos deep))
  · exact TrapStep.of_dev hi (by decide) (fun d => if d.canIssue cell = true then d.doReturn cell else d) rfl
      ((if_pos issue).trans (Machine.Dev.doReturn_nil h))
  · exact TrapStep.of_dev hi (by decide) (fun d => if d.canIssue cell = true then d.jump cell target else d) rfl
      ((if_pos issue).trans (if_neg (Nat.not_lt.2 h)))

/-- Settles O16. -/
theorem controlTransfersAndTraps : Obligations.ControlTransfersAndTraps := by
  unfold Obligations.ControlTransfersAndTraps
  exact ⟨controlTransfersSetTheIndex, scalarInstructionsTrap⟩

end Sys2Proof
end

