-- ==== Sys2Proof/Proofs/Vector.lean ====
section
/-! The instructions of the vector and table unit, and the loads and stores (R91, R96, R102 to R105, R262): what an access
that issues does, and what a recorded exception leaves alone. -/

namespace Sys2Proof.Machine

/-! ### Exceptions -/

/-- A record with what an instruction notes in it beside its result: exceptions (R231 to R236), the sieve's copies (R242)
and the zero points of a pass (R181). -/
def Cell.Noted (c b : Cell) : Prop :=
  b = { c with hits := b.hits, xrec := b.xrec, sums := b.sums, lostSums := b.lostSums, samples := b.samples, used := b.used,
               zeroPts := b.zeroPts }

theorem Cell.Noted.refl (c : Cell) : c.Noted c := rfl

theorem Cell.Noted.trans {a b c : Cell} (h1 : a.Noted b) (h2 : b.Noted c) : a.Noted c := by
  unfold Cell.Noted at *
  rw [h1] at h2
  exact h2

/-- What an instruction of cell p leaves alone: the other cells' records, every component but register fields, the RAS log and
what goes out, and of the fields all but reports and the counter of lost events. -/
structure CellFrame (p : Nat) (d t : Dev) : Prop where
  kept : d.CellsKept t p
  frame : t = { d with cells := t.cells, fields := t.fields, rasLog := t.rasLog, out := t.out }
  touches : Touches (homes [(R.NUM_RING_DROPPED_DROPPED, 0)]) d t

namespace CellFrame

variable {p : Nat} {d e t : Dev}

theorem refl (p : Nat) (d : Dev) : CellFrame p d d := ⟨fun _ _ => rfl, rfl, .refl d _⟩

theorem trans (h1 : CellFrame p d e) (h2 : CellFrame p e t) : CellFrame p d t := by
  refine ⟨fun q hq => (h2.kept q hq).trans (h1.kept q hq), ?_, h1.touches.trans h2.touches⟩
  have frame := h2.frame
  rw [h1.frame] at frame
  exact frame

theorem of_noise (h : Noise d t) : CellFrame p d t := by
  refine ⟨fun q _ => h.cell q, ?_, h.touches _⟩
  obtain ⟨_, _, _, rfl⟩ := h.reports
  rfl

theorem setCell (p : Nat) (d : Dev) (c : Cell) : CellFrame p d (d.setCell p c) :=
  ⟨fun _ hq => Dev.cell_setCell_other d hq c, rfl, .of_fields rfl⟩

theorem countLost (d : Dev) : CellFrame p d (d.satAdd R.NUM_RING_DROPPED_DROPPED 0 1) :=
  ⟨fun _ _ => rfl, rfl, .setF d ⟨_, List.mem_singleton_self _, rfl⟩ (by decide) _⟩

theorem getF (h : CellFrame p d t) {f : Field} (hf : f.quiet = true) (hn : f.place ≠ R.NUM_RING_DROPPED_DROPPED.place) {i : Nat}
    (hi : i < 2048) : t.getF f i = d.getF f i :=
  h.touches.getF hf hi (not_homes (by simpa using hn) i)

theorem setF_frame (h : CellFrame p d t) (f : Field) (i v : Nat) :
    t.setF f i v = { d with cells := (t.setF f i v).cells, fields := (t.setF f i v).fields, rasLog := (t.setF f i v).rasLog, out := (t.setF f i v).out } :=
  congrArg (fun d : Dev => d.setF f i v) h.frame

end CellFrame

theorem Dev.recordX_spec (d : Dev) (p kind : Nat) (h : Nat × Nat × Nat) (n : Nat) :
    CellFrame p d (d.recordX p kind h n) ∧ (d.cell p).Noted ((d.recordX p kind h n).cell p) := by
  refine ⟨.setCell .., ?_⟩
  unfold Dev.recordX
  rw [Dev.cell_setCell_same]
  rfl

theorem Dev.summarise_spec (d : Dev) (p kind : Nat) (vector t3 : Bool) (h : Nat × Nat × Nat) (n : Nat) :
    CellFrame p d (d.summarise p kind vector t3 h n) ∧ (d.cell p).Noted ((d.summarise p kind vector t3 h n).cell p) := by
  unfold Dev.summarise
  dsimp only
  split
  · refine ⟨.setCell .., ?_⟩
    rw [Dev.cell_setCell_same]
    rfl
  · split
    · exact ⟨.refl .., .refl _⟩
    · split
      · refine ⟨(CellFrame.setCell ..).trans (.countLost _), ?_⟩
        show (d.cell p).Noted ((d.setCell p _).cell p)
        rw [Dev.cell_setCell_same]
        rfl
      · refine ⟨.setCell .., ?_⟩
        rw [Dev.cell_setCell_same]
        rfl

/-- Exceptions are noted in the cell's record and reported (R231 to R236). -/
theorem Dev.exceptions_spec (d : Dev) (p kind : Nat) (hits : List (Nat × Nat × Nat)) (vector t3 quiet : Bool) :
    CellFrame p d (d.exceptions p kind hits vector t3 quiet) ∧ (d.cell p).Noted ((d.exceptions p kind hits vector t3 quiet).cell p) := by
  cases hits with
  | nil => exact ⟨.refl .., .refl _⟩
  | cons h hs =>
    unfold Dev.exceptions
    dsimp -zeta only
    extract_lets c keys fresh e₁ c₁ e₂ f e₃
    have raised : Noise d e₁ := .setErr ..
    have hit : CellFrame p e₁ e₂ ∧ (e₁.cell p).Noted (e₂.cell p) := by
      simp only [e₂]
      split
      · exact ⟨.refl .., .refl _⟩
      · refine ⟨.setCell .., ?_⟩
        rw [Dev.cell_setCell_same]
        rfl
    have record := Dev.recordX_spec e₂ p kind f fresh.length
    have sofar : CellFrame p d e₃ ∧ (d.cell p).Noted (e₃.cell p) :=
      ⟨((CellFrame.of_noise raised).trans hit.1).trans record.1, ((raised.cell p) ▸ hit.2).trans record.2⟩
    split
    · exact sofar
    · have sum := Dev.summarise_spec e₃ p kind vector t3 f fresh.length
      exact ⟨sofar.1.trans sum.1, sofar.2.trans sum.2⟩

/-- The work of an instruction on its cell's record, which becomes `c` but for exceptions noted in it. -/
structure CellWork (p : Nat) (c : Cell) (d t : Dev) : Prop where
  frame : CellFrame p d t
  cell : c.Noted (t.cell p)

namespace CellWork

variable {p : Nat} {c : Cell} {d t : Dev}

theorem refl (p : Nat) (d : Dev) : CellWork p (d.cell p) d d := ⟨.refl .., .refl _⟩

theorem setCell (p : Nat) (d : Dev) (c : Cell) : CellWork p c d (d.setCell p c) :=
  ⟨.setCell .., by rw [Dev.cell_setCell_same]; exact .refl c⟩

theorem trans {e : Dev} (h1 : CellWork p c d e) (h2 : CellFrame p e t) (hc : (e.cell p).Noted (t.cell p)) : CellWork p c d t :=
  ⟨h1.frame.trans h2, h1.cell.trans hc⟩

theorem exceptions (h : CellWork p c d t) (kind : Nat) (hits : List (Nat × Nat × Nat)) (vector t3 quiet : Bool) :
    CellWork p c d (t.exceptions p kind hits vector t3 quiet) :=
  have e := Dev.exceptions_spec t p kind hits vector t3 quiet
  h.trans e.1 e.2

/-- A further change of the record that does not look at what is noted in it. -/
theorem andThen (h : CellWork p c d t) (g : Cell → Cell) (hg : ∀ a b : Cell, a.Noted b → (g a).Noted (g b)) :
    CellWork p (g c) d (t.setCell p (g (t.cell p))) :=
  ⟨h.frame.trans (.setCell ..), by rw [Dev.cell_setCell_same]; exact hg _ _ h.cell⟩

end CellWork

/-! ### Issue -/

theorem Dev.lt_of_canIssue {d : Dev} {p : Nat} (h : d.canIssue p = true) : p < 1152 := by
  simp only [Dev.canIssue, Bool.and_eq_true, decide_eq_true_eq] at h
  exact h.1.1

/-- An instruction that leaves RUN alone moves on by one word. -/
theorem Dev.instr_of_frame {d : Dev} {p : Nat} {f : Dev → Dev} (hi : d.canIssue p = true) (h : CellFrame p d (f d)) :
    d.instr p f = (f d).advance p 1 := by
  have run : (f d).getF R.CEL_SEQ_STATUS_RUN p ≠ 3 := by
    rw [h.getF (by decide) (by decide) (by have := Dev.lt_of_canIssue hi; omega), Dev.run_of_canIssue hi]
    decide
  simp only [Dev.instr, hi, if_true, if_neg run]

end Sys2Proof.Machine

namespace Sys2Proof

open Machine

/-- An access that issues within the store runs its instruction (R91, R97). -/
theorem RangesFree.access {s : State} {cell : Nat} {reads writes : List (Nat × Nat)} (h : RangesFree s cell reads writes)
    (hi : s.dev.canIssue cell = true) (f : Dev → Dev) : s.dev.access cell reads writes f = s.dev.instr cell f := by
  have inside : (reads ++ writes).find? (fun r => decide (0 < r.2) && decide (storeTop < r.1 + r.2)) = none := by
    rw [List.find?_eq_none]
    intro r hr
    have := h.2 r hr
    simp only [Bool.and_eq_true, decide_eq_true_eq]
    omega
  simp only [Dev.access, hi, h.1, inside]
  rfl

theorem RangesFree.launch {s : State} {cell : Nat} {reads writes : List (Nat × Nat)} (h : RangesFree s cell reads writes)
    (hi : s.dev.canIssue cell = true) (hb : (s.dev.cell cell).boardFull = false) (f : Dev → Dev) :
    s.dev.launch cell reads writes f = s.dev.instr cell f := by
  rw [Dev.launch, if_neg (by simp [hb]), h.access hi]

/-- A vector instruction that notes no more than exceptions beside its result (R96, R97). -/
theorem VectorStep.of_instr {i : Instr} {s : State} {cell : Nat} {vregs : NMap (BitVec 1024)} {f g : Dev → Dev} (hi : Issues s cell)
    (he : exec i s = s.onDev f) (hf : f s.dev = s.dev.instr cell g) {t : Dev}
    (hg : g s.dev = t.event cell 2 1) (h : CellWork cell { s.dev.cell cell with vregs := vregs } s.dev t) :
    VectorStep i s cell vregs (nextPc s cell 1) := by
  refine .of_onDev f he hi.1 ?_
  have moved : CellFrame cell s.dev (g s.dev) := hg ▸ h.frame.trans (.setCell ..)
  have pc : t.getF R.CEL_SEQ_STATUS_PC cell = s.dev.getF R.CEL_SEQ_STATUS_PC cell :=
    h.frame.getF (by decide) (by decide) (by have := Dev.lt_of_canIssue hi.2; omega)
  have cell' : ((t.event cell 2 1).advance cell 1).cell cell
      = { t.cell cell with events := mput 2 (mget 0 (t.cell cell).events 2 + 1) (t.cell cell).events } := Dev.cell_setCell_same ..
  rw [hf, Dev.instr_of_frame hi.2 moved, hg]
  have cell := h.cell
  unfold Cell.Noted at cell
  refine ⟨?_, ?_, ?_, ?_, ?_, ?_, ?_, ?_, ?_, ?_, ?_, ?_, (hg ▸ moved).kept, ?_⟩
  iterate 11 rw [cell', cell]
  · rw [Dev.advance, Dev.getF_setF_same]
    exact congrArg (fun n => (n + 1) % 16384) pc
  · exact (hg ▸ moved).setF_frame ..

/-- A vector operation whose operands are legal. -/
theorem VectorStep.of_vectorOp {i : Instr} {s : State} {cell : Nat} {vregs : NMap (BitVec 1024)} {legal : Dev → Bool}
    {g : Dev → Dev → Dev} (hi : Issues s cell) (he : exec i s = s.onDev (fun d => d.vectorOp cell (legal d) (g d)))
    (hl : legal s.dev = true) (h : CellWork cell { s.dev.cell cell with vregs := vregs } s.dev (g s.dev s.dev)) :
    VectorStep i s cell vregs (nextPc s cell 1) :=
  .of_instr hi he rfl (if_pos hl) h

/-! ### VOP, VRED, VTBL and VRNG -/

/-- One register written. -/
theorem Machine.CellWork.setV (p : Nat) (d : Dev) (r : Nat) (v : BitVec 1024) :
    CellWork p { d.cell p with vregs := mput r v (d.cell p).vregs } d (d.setV p r v) := .setCell ..

/-- What a VOP that is not `rowSum` does to its register (R102). -/
def Machine.Dev.vopLanes (d : Dev) (cell : Nat) (k : VOpKind) (t : LaneType) (vd va vb vc : Nat) : Dev :=
  let c := d.cell cell
  let u := vopTarget k t
  let n := min (laneCount t) (laneCount u)
  let rs := (List.range n).map (fun i =>
    vopLane k t ((lanesOf t (c.v va)).getD i 0) ((lanesOf t (c.v vb)).getD i 0) ((lanesOf t (c.v vc)).getD i 0))
  ((d.setV cell vd (ofLanes u (rs.map (·.1) ++ (lanesOf u (c.v vd)).drop n))).exceptions cell 1
    (laneHits t 0xFFFFFFFF (rs.map (·.2.1))) true false false).exceptions cell 4 (laneHits t 0xFFFFFFFF (rs.map (·.2.2))) true false false

theorem Machine.Dev.vopLanes_work (d : Dev) (p : Nat) (k : VOpKind) (t : LaneType) (vd va vb vc : Nat) :
    let c := d.cell p
    let u := vopTarget k t
    let n := min (laneCount t) (laneCount u)
    CellWork p { c with vregs := mput vd (ofLanes u ((List.range n).map (fun i => (vopLane k t ((lanesOf t (c.v va)).getD i 0)
      ((lanesOf t (c.v vb)).getD i 0) ((lanesOf t (c.v vc)).getD i 0)).1) ++ (lanesOf u (c.v vd)).drop n)) c.vregs }
      d (d.vopLanes p k t vd va vb vc) := by
  intro c u n
  unfold Dev.vopLanes
  extract_lets rs
  have results : rs.map (·.1) = (List.range n).map (fun i => (vopLane k t ((lanesOf t (c.v va)).getD i 0)
      ((lanesOf t (c.v vb)).getD i 0) ((lanesOf t (c.v vc)).getD i 0)).1) := List.map_map
  rw [← results]
  exact ((CellWork.setV ..).exceptions ..).exceptions ..

theorem exec_vop (s : State) (cell : Nat) {k : VOpKind} (h : k ≠ .rowSum) (t : LaneType) (vd va vb vc : Nat) :
    exec (.vop cell k t vd va vb vc) s = s.onDev (fun d => d.vectorOp cell (regsOk [vd, va, vb, vc] && vopTypeOk k t)
      (fun d => d.vopLanes cell k t vd va vb vc)) := by
  cases k
  case rowSum => exact absurd rfl h
  all_goals rfl

theorem Machine.Dev.tableLanes_work (d : Dev) (p op vd vs : Nat) (t : LaneType) :
    CellWork p { d.cell p with vregs := mput vd (ofLanes t ((lanesOf t ((d.cell p).v vs)).map (tableFn op (laneFormat t)))) (d.cell p).vregs }
      d (d.tableLanes p op vd vs t) := (CellWork.setV ..).exceptions ..

/-- What the lookup form of VTBL does (R105). -/
def Machine.Dev.lookupLanes (d : Dev) (cell vd va base : Nat) : Dev :=
  d.setV cell vd (ofLanes .i8 ((lanesOf .i8 ((d.cell cell).v va)).map (fun x => (byteAt (d.cell cell).lut (base + x)).toNat)))

/-- Settles O19: each form writes its register in one store and then notes at most exceptions. -/
theorem vectorOperationsWriteOneRegister : Obligations.VectorOperationsWriteOneRegister := by
  unfold Obligations.VectorOperationsWriteOneRegister
  intro s cell vd va vb vc sa sb purpose base k t red v0 vs conv c lanes writes hi hd ha hb hc
  have two : regsOk [vd, va] = true := (regsOk_iff _).2 (by simp [hd, ha])
  have four : regsOk [vd, va, vb, vc] = true := (regsOk_iff _).2 (by simp [hd, ha, hb, hc])
  have table {op : VTblOp} {n : Nat} {u : LaneType} (legal : Bool) (hl : legal = true)
      (he : exec (.vtbl cell op) s = s.onDev (fun d => d.vectorOp cell legal (fun d => d.tableLanes cell n vd va u))) :
      writes (.vtbl cell op) (ofLanes u ((lanes u va).map (tableFn n (laneFormat u)))) :=
    .of_vectorOp hi he hl (Machine.Dev.tableLanes_work ..)
  refine ⟨fun hk hr => ?_, fun ht => ?_, fun hv => ?_, fun hbase => ?_, fun ht => ⟨?_, ?_, ?_⟩, ?_, ?_, fun hsa hsb hp hconv => ?_⟩
  · refine .of_vectorOp hi (exec_vop s cell hr t vd va vb vc) ?_ (Machine.Dev.vopLanes_work ..)
    simp [four, hk]
  · refine .of_vectorOp hi (Eq.refl (execVop ..)) ?_ ?_
    · simp [four, vopTypeOk, ht]
    · exact .setV ..
  · refine .of_vectorOp hi (Eq.refl (execVred ..)) ((regsOk_iff _).2 ?_) ?_
    · simpa [hd] using hv
    · exact (CellWork.setV ..).exceptions ..
  · refine .of_vectorOp hi (legal := fun _ => regsOk [vd, va] && decide (base + 256 ≤ 32768))
      (g := fun _ d => d.lookupLanes cell vd va base) rfl ?_ (.setV ..)
    simp [two, hbase]
  · exact table (regsOk [vd, va] && !isInt t) (by simp [two, ht]) rfl
  · exact table (regsOk [vd, va] && !isInt t) (by simp [two, ht]) rfl
  · exact table (regsOk [vd, va] && !isInt t) (by simp [two, ht]) rfl
  · exact table _ two rfl
  · exact table _ two rfl
  · refine .of_vectorOp hi (Eq.refl (execVrng ..)) ?_ ?_
    · simpa [regsOk, hd, hsa, hsb, hp] using hconv
    · exact .setV ..

/-! ### Loads and stores -/

/-- An instruction behind its checks whose effect on the cell's record is `c'`. -/
theorem CellStep.of_checked {c : Instr} {s : State} {cell : Nat} {c' : Cell} {f g : Dev → Dev} (hi : Issues s cell)
    (he : exec c s = s.onDev f) (hf : f s.dev = s.dev.instr cell g) (hg : g s.dev = s.dev.setCell cell c') :
    CellStep c s cell c' (nextPc s cell 1) := .of_dev hi he (hf.trans (Dev.instr_setCell hi.2 hg))

theorem scalarLoadAndStore : ScalarLoadAndStore := by
  intro s cell r rs n off c a hi hr hrs hn ha
  have regs : regsOk [r, rs] = true := (regsOk_iff _).2 (by simp [hr, hrs])
  have inside (h : n = 0 ∨ a + n ≤ storeTop) : a + n ≤ storeTop := by
    rcases h with rfl | h
    · simp at hn
    · exact h
  refine ⟨fun h => ?_, fun h => ?_⟩
  · exact .of_checked hi (exec_ld ..) ((Machine.Dev.scalarMem_runs hi.2 regs hn (inside (h.2 (a, n) (by simp))) ha ..).trans
      (h.access hi.2 _)) rfl
  · exact .of_checked hi (exec_st ..) ((Machine.Dev.scalarMem_runs hi.2 regs hn (inside (h.2 (a, n) (by simp))) ha ..).trans
      (h.access hi.2 _)) rfl

/-- A completed vector operation is counted in the record that it has stored (R96). -/
theorem Machine.Dev.event_setCell (d : Dev) (p k n : Nat) (c : Cell) :
    (d.setCell p c).event p k n = d.setCell p { c with events := mput k (mget 0 c.events k + n) c.events } := by
  simp only [Dev.event, Dev.cell_setCell_same]
  simp only [Dev.setCell, mput_mput_same]

/-- What the load of the rescale table does (R179). -/
def Machine.Dev.loadRescale (d : Dev) (cell first src count : Nat) : Dev :=
  if 4096 < first + count then d.illegal cell
  else
    let c := d.cell cell
    let t := (List.range count).foldl (fun m i =>
      mput (first + i) (rdNat c.rd (src + 8 * i) 4, rdNat c.rd (src + 8 * i + 4) 4) m) c.rescale
    (d.setCell cell { c with rescale := t }).event cell 2 1

/-- What the load of the lookup tables does (R105). -/
def Machine.Dev.loadTable (d : Dev) (cell first src count : Nat) : Dev :=
  if 32768 < first + count then d.illegal cell
  else
    let c := d.cell cell
    (d.setCell cell { c with lut := setBytes c.lut first (bytesAt c.store src count) }).event cell 2 1

theorem tableLoadsFillTheTables : TableLoadsFillTheTables := by
  intro s cell first src count c bump hi hb
  refine ⟨fun hf hr => ?_, fun hf hr => ?_⟩
  · refine .of_checked (f := fun d => d.launch cell [(src, 8 * count)] [] fun d => d.loadRescale cell first src count) hi rfl
      (hr.launch hi.2 hb _) ?_
    exact (if_neg (Nat.not_lt.2 hf)).trans (Machine.Dev.event_setCell ..)
  · refine .of_checked (f := fun d => d.launch cell [(src, count)] [] fun d => d.loadTable cell first src count) hi rfl
      (hr.launch hi.2 hb _) ?_
    exact (if_neg (Nat.not_lt.2 hf)).trans (Machine.Dev.event_setCell ..)

/-! ### VLD and VST -/

theorem Machine.CellWork.then_setV {p : Nat} {c : Cell} {d t : Dev} (h : CellWork p c d t) (r : Nat) (v : BitVec 1024) :
    CellWork p { c with vregs := mput r v c.vregs } d (t.setV p r v) :=
  h.andThen (fun c => { c with vregs := mput r v c.vregs }) fun a b h => by rw [h]; rfl

/-- Registers written one after another. -/
theorem Machine.CellWork.foldl_setV (xs : List Nat) (r : Nat → Nat) (v : Nat → BitVec 1024) {p : Nat} {c : Cell} {d t : Dev}
    (h : CellWork p c d t) : CellWork p { c with vregs := xs.foldl (fun m i => mput (r i) (v i) m) c.vregs } d
      (xs.foldl (fun d i => d.setV p (r i) (v i)) t) := by
  induction xs generalizing c t with
  | nil => exact h
  | cons x xs ih => exact ih (h.then_setV (r x) (v x))

/-- The lanes of one register of a row of them. -/
theorem take_drop_lanes (f : Nat → Nat) {n regs r : Nat} (h : r < regs) :
    (((List.range (regs * n)).map f).drop (r * n)).take n = (List.range n).map (fun i => f (r * n + i)) := by
  have room : (r + 1) * n ≤ regs * n := Nat.mul_le_mul_right n h
  rw [Nat.succ_mul] at room
  refine List.ext_getElem (by simp; omega) fun i h1 h2 => ?_
  simp

/-- An element as VLD rounds it into its lane, without the remainder option (R131, R136). -/
def vldLane (s : State) (cell : Nat) (a : VMemArgs) (i : Nat) : Nat :=
  let x := (s.dev.readElem (s.dev.cell cell).rd a.desc a.row (a.first + i)).1
  if isInt a.lanes then (toInt a.lanes x).1 else (encodeWide (laneFormat a.lanes) x).1

theorem vldWritesRegisters {s : State} {cell : Nat} {a : VMemArgs} (hi : Issues s cell) (hb : (s.dev.cell cell).boardFull = false)
    (ok : vmemOk s.dev a false = true) (hrem : a.rem = none) (hr : RangesFree s cell (vmemRanges a) []) :
    VectorStep (.vld cell a) s cell ((List.range a.regs).foldl (fun m r => mput (a.vreg + r) (ofLanes a.lanes
      ((List.range (laneCount a.lanes)).map (fun i => vldLane s cell a (r * laneCount a.lanes + i)))) m) (s.dev.cell cell).vregs)
      (nextPc s cell 1) := by
  refine .of_instr hi (Eq.refl (execVld ..)) (hr.launch hi.2 hb _) (if_pos ok) (CellWork.exceptions ?_ ..)
  simp only [hrem, List.length_map, List.length_range]
  have lanes : (List.range (vmemCount a)).map (fun i =>
      let e := ((List.range (vmemCount a)).map (fun i => s.dev.readElem (s.dev.cell cell).rd a.desc a.row (a.first + i))).getD i (.zero, 0, false)
      if isInt a.lanes then (toInt a.lanes e.1).1 else (encodeWide (laneFormat a.lanes) e.1).1)
      = (List.range (a.regs * laneCount a.lanes)).map (vldLane s cell a) :=
    List.map_congr_left fun i h => by simp [List.getD, List.getElem?_range (List.mem_range.1 h), vldLane]
  dsimp only at lanes
  have regs : (List.range a.regs).foldl (fun m r => mput (a.vreg + r) (ofLanes a.lanes
        ((((List.range (a.regs * laneCount a.lanes)).map (vldLane s cell a)).drop (r * laneCount a.lanes)).take (laneCount a.lanes))) m)
        (s.dev.cell cell).vregs
      = (List.range a.regs).foldl (fun m r => mput (a.vreg + r) (ofLanes a.lanes
        ((List.range (laneCount a.lanes)).map (fun i => vldLane s cell a (r * laneCount a.lanes + i)))) m) (s.dev.cell cell).vregs :=
    List.foldl_ext _ _ _ fun m r hr => by rw [take_drop_lanes (vldLane s cell a) (List.mem_range.1 hr)]
  rw [lanes, ← regs]
  exact (CellWork.refl cell s.dev).foldl_setV ..

theorem rowSpan_zero (o : OperandDesc) : rowSpan o 0 0 = (0, 0) := by simp [rowSpan]

/-- What a VST of INT32 patterns does (R192). -/
theorem vstWritesPatterns {s : State} {cell : Nat} {a : VMemArgs} (hi : Issues s cell) (hb : (s.dev.cell cell).boardFull = false)
    (ok : vmemOk s.dev a true = true) (hf : a.desc.format = 13) (hc : a.desc.col0 = a.first) (hr : RangesFree s cell [] (vmemRanges a)) :
    CellStep (.vst cell a) s cell
      { s.dev.cell cell with
        store := setBytes (s.dev.cell cell).store (a.desc.data + a.row * a.desc.pitch) (packElems 32 (((List.range a.regs).flatMap
          (fun r => lanesOf a.lanes ((s.dev.cell cell).v (a.vreg + r)))).map (fun v => twos 32 (laneInt a.lanes v))))
        events := mput 2 (mget 0 (s.dev.cell cell).events 2 + 1) (s.dev.cell cell).events } (nextPc s cell 1) := by
  refine .of_checked hi (Eq.refl (execVst ..)) (hr.launch hi.2 hb _) ?_
  simp only [ok, hf, decide_true, Bool.or_true, Bool.true_or, Bool.and_self, if_true, ← hc, Nat.sub_self, rowSpan_zero, Nat.add_zero]
  exact Machine.Dev.event_setCell ..

theorem vectorLoadAndStore : VectorLoadAndStore := by
  intro s cell a c hi hb
  exact ⟨fun ok hrem hr => vldWritesRegisters hi hb ok hrem hr, fun ok hf hc hr => vstWritesPatterns hi hb ok hf hc hr⟩

/-- Settles O20. -/
theorem loadsAndStores : Obligations.LoadsAndStores := by
  unfold Obligations.LoadsAndStores
  exact ⟨scalarLoadAndStore, tableLoadsFillTheTables, vectorLoadAndStore⟩

end Sys2Proof
end

