-- ==== Sys2Proof/Proofs/Stream.lean ====
section
/-! The stream instructions (R80, R85, R96, R151, R153): what SCFG, SCAN and LOAD set up, and what STAKE writes into the
staking file. -/

namespace Sys2Proof

open Machine

theorem Machine.Cell.rd_setS (c : Cell) (r : Nat) (v : Word) : (c.setS r v).rd = c.rd := by
  unfold Cell.setS
  split <;> rfl

/-! ### SCFG, SCAN and LOAD -/

theorem streamInstructionsSetUpAPass : StreamInstructionsSetUpAPass := by
  intro s cell rd chunk mode o x w hi c
  refine ⟨fun h => ?_, fun h => ?_, fun h => ?_, fun hx hw hp hr hrd hpair hblock htags => ?_, fun hx hp hb hc => ?_⟩
  · exact .of_checked hi (Eq.refl (execScfg ..)) rfl (if_pos h)
  · exact .of_checked hi (Eq.refl (execScfg ..)) rfl (if_pos h)
  · exact .of_checked hi (Eq.refl (execScfg ..)) rfl (if_pos h)
  · refine .of_checked hi (Eq.refl (execScan ..)) (g := ?_) ?_ ?_
    rotate_left
    · dsimp only
      split
      · next x' w' ex ew =>
        obtain rfl : x = x' := Option.some.inj (hx.symm.trans ex)
        obtain rfl : w = w' := Option.some.inj (hw.symm.trans ew)
        exact hr.access hi.2 _
      · next h => exact absurd hw (h x w hx)
    · have legal : (!regsOk [rd] || !pairingOk mode x.format w.format x.block || decide (x.block ≠ w.block)) ≠ true := by
        simp [regsOk, hrd, hpair, ← hblock]
      refine (if_neg legal).trans ((if_neg (show ¬ (s.dev.cell cell).poisoned = true by simp [c, hp])).trans
        ((if_pos htags).trans ?_))
      rw [Machine.Cell.rd_setS]
  · intro rows affine cols hr hall
    refine .of_checked hi (Eq.refl (execLoad ..)) (g := ?_) ?_ ?_
    rotate_left
    · dsimp only
      split
      · next x' ex =>
        obtain rfl : x = x' := Option.some.inj (hx.symm.trans ex)
        exact hr.launch hi.2 hb _
      · next h => exact absurd (hx.symm.trans h) (by simp)
    · refine (if_neg (not_not.2 hc)).trans ((if_neg (show ¬ (s.dev.cell cell).poisoned = true by simp [c, hp])).trans
        ((if_pos hall).trans ?_))
      split <;> rfl

/-! ### STAKE -/

/-- Entries written with one value. -/
theorem mget_foldl_mput {α β : Type} (z v : α) (key : β → Nat) (ps : List β) (m : NMap α) (k : Nat) :
    mget z (ps.foldl (fun m p => mput (key p) v m) m) k = if k ∈ ps.map key then v else mget z m k := by
  induction ps generalizing m with
  | nil => simp
  | cons p ps ih =>
    simp only [List.foldl_cons, ih, mget_mput, List.map_cons, List.mem_cons]
    by_cases h1 : k ∈ ps.map key <;> by_cases h2 : k = key p <;> simp [h1, h2]

/-- The same entries of every column. -/
theorem Machine.Cell.entry_mapEntries (c : Cell) {es : List Nat} (E : Entry) (hes : ∀ e ∈ es, e < 256) {col e : Nat} (hc : col < 64)
    (he : e < 256) : (c.mapEntries es (fun _ _ _ => E)).entry col e = if e ∈ es then E else c.entry col e := by
  have key : sfKey col e ∈ (sfPlaces es).map (fun p => sfKey p.1 p.2) ↔ e ∈ es := by
    simp only [sfPlaces, List.mem_map, List.mem_flatMap, List.mem_range, sfKey]
    constructor
    · rintro ⟨p, ⟨col', -, e', h', rfl⟩, h⟩
      have := hes e' h'
      dsimp only at h
      obtain rfl : e' = e := by omega
      exact h'
    · exact fun h => ⟨(col, e), ⟨col, hc, e, h, rfl⟩, rfl⟩
  simp only [Cell.entry, Cell.mapEntries, mget_foldl_mput, key]

theorem companions_lt (x w : OperandDesc) (own : List Nat) : ∀ e ∈ companions x w own, e < 256 := by
  intro e he
  simpa using (List.mem_filter.1 he).2

/-- A STAKE whose outputs name no scale-state entry checks no range (R184). -/
theorem Machine.Dev.stake_plain (d : Dev) (cell : Nat) (a : StakeArgs) (m : ArrayMode) (x w : OperandDesc)
    (h : a.recomp = true ∨ ((d.cell cell).descO.bind (·.entry) = none ∧ a.save.bind (·.entry) = none)) :
    d.stake cell a m x w =
      let c := d.cell cell
      let fr := stakeFrame m x w (c.scanned.getD (false, false)).2
      let own := (List.range a.count).map (· + a.first)
      d.stakeEntries cell a (own ++ companions x w own) (stakedEntry (sext 16 (twos 16 (sext 64 (c.s a.emaxReg).toNat + fr.1)))
        (headroom a.kLen) fr.2 fr.1 (productsOf m)) := by
  have note (e : Dev) : (e.noteEntry cell none).warmJit cell none = e := by simp [Dev.noteEntry, Dev.warmJit]
  unfold Dev.stake
  rcases h with h | ⟨h1, h2⟩
  · simp [h]
  · by_cases hr : a.recomp = true
    · simp [hr]
    · simp [hr, h1, h2, note, Dev.rangeBad]

/-- A record after a STAKE of entries `es` with the value E. -/
def Machine.Cell.staked (c : Cell) (a : StakeArgs) (es : List Nat) (E : Entry) : Cell :=
  Cell.clearUsed { c.mapEntries es (fun _ _ _ => E) with hits := c.hits.filter (fun h => !es.contains h.2.2) } a.first a.count

theorem stakeFixesTheWindow : StakeFixesTheWindow := by
  intro s cell a m x w c hi hx hw hm hblock hp hbusy hreg hcount hfirst hk hk' houts fr S own es
  let E : Entry := stakedEntry S (headroom a.kLen) fr.2 fr.1 (productsOf m)
  have places : c.stakePlaces a = es := by simp only [Machine.Cell.stakePlaces, hx, hw]; rfl
  have legal : ¬ (!regsOk [a.emaxReg] || decide (a.count = 0) || decide (a.kLen = 0) || decide (2 ^ 32 < a.kLen)
      || decide (x.block ≠ w.block)) = true := by
    simp only [regsOk, List.all_cons, List.all_nil, Bool.and_true, Bool.or_eq_true, Bool.not_eq_true', decide_eq_false_iff_not,
      decide_eq_true_eq]
    omega
  have poisoned : ¬ (s.dev.cell cell).poisoned = true := by simp [c, hp]
  have body : s.dev.stakeBody cell a = s.dev.setCell cell (c.staked a es E) := by
    unfold Dev.stakeBody
    simp only [show (s.dev.cell cell).descX = some x from hx, show (s.dev.cell cell).descW = some w from hw, hm]
    rw [if_neg legal, if_neg (Nat.not_lt.2 hfirst), if_neg poisoned, Machine.Dev.stake_plain _ _ _ _ _ _ houts]
    rfl
  have runs : (if (s.dev.cell cell).entriesBusy ((s.dev.cell cell).stakePlaces a) then s.dev
      else if (s.dev.cell cell).cur.isSome && ((s.dev.stakeBody cell a).cell cell).cur.isNone && s.dev.canIssue cell then
        s.dev.stakeBody cell a
      else s.dev.instr cell (fun d => d.stakeBody cell a)) = s.dev.instr cell (fun d => d.stakeBody cell a) := by
    have tile : (c.staked a es E).cur = c.cur := rfl
    rw [if_neg (by simp [c, hbusy]), if_neg]
    rw [body, Dev.cell_setCell_same, tile]
    cases c.cur <;> simp
  have step : CellStep (.stake cell a) s cell (c.staked a es E) (nextPc s cell 1) :=
    .of_checked hi (Eq.refl (execStake ..)) runs body
  refine step.imp fun t ht => ?_
  obtain ⟨hcell, hpc, hkept, -, hframe⟩ := ht
  have small : ∀ e ∈ es, e < 256 := by
    intro e he
    rcases List.mem_append.1 he with he | he
    · obtain ⟨i, hi', rfl⟩ := List.mem_map.1 he
      have := List.mem_range.1 hi'
      omega
    · exact companions_lt x w own e he
  have entry {col e : Nat} (hc : col < 64) (he : e < 256) : (t.cell cell).entry col e = if e ∈ es then E else c.entry col e :=
    hcell ▸ Machine.Cell.entry_mapEntries c E small hc he
  refine ⟨fun col e hc he => ?_, fun col e hc he hn => ?_, ?_, hpc, hkept, hframe⟩
  · rw [entry hc (small e he), if_pos he]
  · rw [entry hc he, if_neg hn]
  · rw [hcell]
    rfl

/-- Settles O17. -/
theorem streamInstructionsAndStake : Obligations.StreamInstructionsAndStake := by
  unfold Obligations.StreamInstructionsAndStake
  exact ⟨streamInstructionsSetUpAPass, stakeFixesTheWindow⟩

end Sys2Proof
end

