-- ==== Sys2Proof/Proofs/Passes.lean ====
section
/-! PASS, the pass boundary and DRAIN (R74, R80, R96, R115, R153, R178). -/

namespace Sys2Proof

open Machine

/-! ### PASS -/

namespace Machine

/-- What an instruction of cell p leaves alone, whatever it does to register fields. -/
structure CellOnly (p : Nat) (d t : Dev) : Prop where
  kept : d.CellsKept t p
  frame : t = { d with cells := t.cells, fields := t.fields, rasLog := t.rasLog, out := t.out }

theorem CellFrame.only {p : Nat} {d t : Dev} (h : CellFrame p d t) : CellOnly p d t := ⟨h.kept, h.frame⟩

namespace CellOnly

variable {p : Nat} {d e t : Dev}

theorem trans (h1 : CellOnly p d e) (h2 : CellOnly p e t) : CellOnly p d t := by
  refine ⟨fun q hq => (h2.kept q hq).trans (h1.kept q hq), ?_⟩
  have frame := h2.frame
  rw [h1.frame] at frame
  exact frame

theorem setF (p : Nat) (d : Dev) (f : Field) (i v : Nat) : CellOnly p d (d.setF f i v) := ⟨fun _ _ => rfl, rfl⟩

theorem ite {a b : Dev} {c : Prop} [Decidable c] (ha : CellOnly p d a) (hb : CellOnly p d b) : CellOnly p d (if c then a else b) := by
  split
  · exact ha
  · exact hb

end CellOnly

/-- The sieve's record of a pass (R240 to R243). -/
theorem Dev.recordPass_work (d : Dev) (p : Nat) (a : PassArgs) (bank : Bank) (x w : OperandDesc) (reads : List (Nat × Nat)) :
    CellWork p (d.cell p) d (d.recordPass p a bank x w reads) := by
  have noted (u : List SievePart) : (d.cell p).Noted { d.cell p with used := u } := rfl
  have cleared : (d.cell p).Noted (if a.clear then (d.cell p).clearUsed a.base (passOutputs a) else d.cell p) := by
    split
    · exact noted _
    · exact .refl _
  have set (c : Cell) (h : (d.cell p).Noted c) : CellWork p (d.cell p) d (d.setCell p c) :=
    ⟨.setCell .., by rw [Dev.cell_setCell_same]; exact h⟩
  unfold Dev.recordPass
  extract_lets c c'
  split
  · split
    · exact set _ (cleared.trans rfl)
    · exact set _ cleared
  · exact set _ cleared

theorem Cell.latchZ_noted (c : Cell) (a : PassArgs) (w : OperandDesc) : c.Noted (c.latchZ a w) := by
  unfold Cell.latchZ
  split <;> rfl

theorem Dev.noteBorrow_noise (d : Dev) (p : Nat) : Noise d (d.noteBorrow p) := by
  unfold Dev.noteBorrow
  split
  · exact .ite (.refl d) (.setErr ..)
  · exact .refl d

/-- The record of a cell whose pass has entered the array. -/
def Cell.passEntered (c : Cell) (run : PassRun) (rs : List (Nat × Nat × OutResult)) : Cell :=
  { c.putResults run.args.base rs with passes := c.passes ++ [run] }

/-- A pass that runs (R77 to R80, R115, R153). -/
theorem Dev.runPass_spec (d : Dev) {p : Nat} (hp : p < 1152) (run : PassRun) (rs : List (Nat × Nat × OutResult)) :
    let t := d.runPass p run rs
    CellOnly p d t ∧ ((d.cell p).passEntered run rs).Noted (t.cell p)
      ∧ t.getF R.CEL_ARRAY_STATUS_NEXT_TAG p = (1 - d.getF R.CEL_ARRAY_STATUS_NEXT_TAG p) % 2
      ∧ t.getF R.CEL_ARRAY_STATUS_IN_FLIGHT p = 1
      ∧ ∀ f ∈ [R.CEL_SEQ_STATUS_RUN, R.CEL_SEQ_STATUS_PC], t.getF f p = d.getF f p := by
  unfold Dev.runPass
  extract_lets a c cleared c₀ c₁ d₁ tag d₂ d₃ hit t3
  have hp' : p < 2048 := by omega
  have skip : Noise d₂ d₃ := .ite (.bump _ _ _ (by decide) _) (.refl _)
  have cell₃ : d₃.cell p = c₁ := by rw [skip.cell, Dev.cell_setF, Dev.cell_setF]; exact Dev.cell_setCell_same d p c₁
  have entered : ((d.cell p).passEntered run rs).Noted (d₃.cell p) := cell₃ ▸ rfl
  have rest : CellWork p ((d.cell p).passEntered run rs) d₃
      ((d₃.exceptions p 1 (hit (·.inv)) false t3 false).exceptions p 2 (hit (·.ns)) false t3 false) :=
    CellWork.exceptions (CellWork.exceptions ⟨.refl .., entered⟩ ..) ..
  have shown (f : Field) (hf : f.quiet = true) (hn : f.place ≠ R.NUM_RING_DROPPED_DROPPED.place) :
      ((d₃.exceptions p 1 (hit (·.inv)) false t3 false).exceptions p 2 (hit (·.ns)) false t3 false).getF f p = d₂.getF f p :=
    (rest.frame.getF hf hn hp').trans (skip.getF hf hp')
  have frame : CellOnly p d d₃ := (((CellFrame.setCell p d c₁).only.trans (.setF ..)).trans (.setF ..)).trans (CellFrame.of_noise skip).only
  refine ⟨frame.trans rest.frame.only, rest.cell, ?_, ?_, ?_⟩
  · rw [shown _ (by decide) (by decide)]
    exact (Dev.getF_setF_place (by decide) ..).trans (Dev.getF_setF_same ..)
  · rw [shown _ (by decide) (by decide)]
    exact Dev.getF_setF_same ..
  · intro f hf
    have place : f.place ≠ R.CEL_ARRAY_STATUS_NEXT_TAG.place ∧ f.place ≠ R.CEL_ARRAY_STATUS_IN_FLIGHT.place ∧ f.quiet = true
        ∧ f.place ≠ R.NUM_RING_DROPPED_DROPPED.place := by
      revert f
      decide
    obtain ⟨h1, h2, h3, h4⟩ := place
    rw [shown f h3 h4]
    exact (Dev.getF_setF_place h2 ..).trans (Dev.getF_setF_place h1 ..)

end Machine

/-- An instruction behind its checks that leaves RUN alone answers the device that it makes, one word on. -/
theorem Answers.of_checked {i : Instr} {s : State} {cell : Nat} {f g : Dev → Dev} {t : Dev} {post : Dev → Prop} (hi : Issues s cell)
    (he : exec i s = s.onDev f) (hf : f s.dev = s.dev.instr cell g) (hg : g s.dev = t)
    (hr : t.getF R.CEL_SEQ_STATUS_RUN cell = s.dev.getF R.CEL_SEQ_STATUS_RUN cell) (hp : post (t.advance cell 1)) : Answers i s post := by
  refine .of_onDev f he hi.1 ?_
  have run : t.getF R.CEL_SEQ_STATUS_RUN cell ≠ 3 := by
    rw [hr, Dev.run_of_canIssue hi.2]
    decide
  rw [hf]
  simp only [Dev.instr, hi.2, hg, if_true, if_neg run]
  exact hp

/-- The index after an instruction that leaves it alone. -/
theorem Machine.Dev.pc_advance {d t : Dev} {cell : Nat} (h : t.getF R.CEL_SEQ_STATUS_PC cell = d.getF R.CEL_SEQ_STATUS_PC cell) :
    (t.advance cell 1).getF R.CEL_SEQ_STATUS_PC cell = (d.getF R.CEL_SEQ_STATUS_PC cell + 1) % 16384 := by
  rw [Dev.advance, Dev.getF_setF_same, h]
  rfl

theorem passStreamsIntoTheStakingFile : PassStreamsIntoTheStakingFile := by
  intro s cell a x w c rows tag rs reads own hi hx hw hp hb hlegal hsplit hentries hr htags hfits
  have small := Machine.Dev.lt_of_canIssue hi.2
  let run : PassRun := ⟨a, reads, own ++ companions x w own⟩
  let latched := s.dev.setCell cell (c.latchZ a w)
  let bank := if tag = 0 then c.bankA else c.bankB
  let xr := List.range (min 64 x.rows)
  let used := reads ++ dataRanges x xr a.chunk (a.chunk + 64) ++ scaleRanges x xr a.chunk (a.chunk + 64)
  let recorded := (latched.recordPass cell a bank x w used).noteBorrow cell
  have before : CellWork cell c s.dev recorded := by
    have latch : CellWork cell c s.dev latched :=
      ⟨.setCell .., by rw [Dev.cell_setCell_same]; exact c.latchZ_noted a w⟩
    have rec' := Dev.recordPass_work latched cell a bank x w used
    have noise := Dev.noteBorrow_noise (latched.recordPass cell a bank x w used) cell
    exact (latch.trans rec'.frame rec'.cell).trans (.of_noise noise) (by rw [noise.cell]; exact .refl _)
  obtain ⟨only, noted, htag, hflight, hseq⟩ := Dev.runPass_spec recorded small run rs
  have keep (f : Field) (hf : f.quiet = true) (hn : f.place ≠ R.NUM_RING_DROPPED_DROPPED.place) :
      recorded.getF f cell = s.dev.getF f cell := before.frame.getF hf hn (by omega)
  have body : (if !s.dev.passLegal cell a x w then s.dev.illegal cell
      else if a.mode = .split64 ∧ s.dev.feature 6 = false then s.dev.trap cell 7 0
      else if !entriesOk a x w then s.dev.trap cell 5 0
      else if c.poisoned then s.dev
      else if !rows.all (fun r => (rowBands c.rd w r a.chunk).all (·.2)) then s.dev.scaleSkew cell
      else if rs.all (fun r => r.2.2.fits) then recorded.runPass cell run rs
      else s.dev.trap cell 5 0) = recorded.runPass cell run rs := by
    have split : ¬ (a.mode = .split64 ∧ s.dev.feature 6 = false) := fun h => by simp [hsplit h.1] at h
    rw [if_neg (by simp [hlegal]), if_neg split, if_neg (by simp [hentries]), if_neg (by simp [hp]), if_neg (by simp [htags]),
      if_pos hfits]
  refine .of_checked hi (Eq.refl (execPass ..)) (g := ?_) ?_ (t := recorded.runPass cell run rs) ?_ ?_ ?_
  rotate_left
  · dsimp only
    split
    · next x' w' ex ew =>
      obtain rfl : x = x' := Option.some.inj (hx.symm.trans ex)
      obtain rfl : w = w' := Option.some.inj (hw.symm.trans ew)
      exact hr.launch hi.2 hb _
    · next h => exact absurd hw (h x w hx)
  · exact body
  · exact (hseq _ (by simp)).trans (keep _ (by decide) (by decide))
  · have entered : ((recorded.cell cell).passEntered run rs).Noted (((recorded.runPass cell run rs).advance cell 1).cell cell) := noted
    have work := before.cell
    unfold Machine.Cell.Noted at entered work
    rw [work] at entered
    have tagKept : recorded.getF R.CEL_ARRAY_STATUS_NEXT_TAG cell = tag := keep _ (by decide) (by decide)
    refine ⟨?_, ?_, ?_, ?_, ?_, ?_, ?_, ?_, ?_, ?_, ?_, ?_, (before.frame.only.trans only).kept, ?_⟩
    iterate 9
      rw [entered]
      rfl
    · rw [Dev.advance, Dev.getF_setF_place (by decide), htag, tagKept]
      omega
    · rw [Dev.advance, Dev.getF_setF_place (by decide), hflight]
    · exact Machine.Dev.pc_advance ((hseq _ (by simp)).trans (keep _ (by decide) (by decide)))
    · exact ((before.frame.only.trans only).trans (.setF ..)).frame

/-! ### The pass boundary -/

/-- Nothing but records of cells and register fields changes. -/
def Machine.OnlyRecords (d t : Dev) : Prop := t = { d with cells := t.cells, fields := t.fields }

namespace Machine.OnlyRecords

variable {d e t : Dev}

theorem trans (h1 : OnlyRecords d e) (h2 : OnlyRecords e t) : OnlyRecords d t := by
  unfold OnlyRecords at *
  rw [h1] at h2
  exact h2

theorem setF (d : Dev) (f : Field) (i v : Nat) : OnlyRecords d (d.setF f i v) := rfl
theorem setCell (d : Dev) (p : Nat) (c : Cell) : OnlyRecords d (d.setCell p c) := rfl

end Machine.OnlyRecords

/-- A woken cell's record, its RUN and its index change (R96). -/
theorem Machine.Dev.wake_spec (d : Dev) (p : Nat) :
    (d.wake p).cell p = { d.cell p with waiting := ((d.wake p).cell p).waiting } ∧ d.CellsKept (d.wake p) p
      ∧ OnlyRecords d (d.wake p)
      ∧ ∀ f : Field, f.place ≠ R.CEL_SEQ_STATUS_RUN.place → f.place ≠ R.CEL_SEQ_STATUS_PC.place → ∀ q, (d.wake p).getF f q = d.getF f q := by
  unfold Dev.wake
  extract_lets c
  split
  · refine ⟨?_, fun q hq => ?_, ((OnlyRecords.setCell ..).trans (.setF ..)).trans (.setF ..), fun f h1 h2 q => ?_⟩
    · simp only [Dev.advance, Dev.cell_setF, Dev.cell_setCell_same, c]
    · simp only [Dev.advance, Dev.cell_setF, Dev.cell_setCell_other d hq]
    · rw [Dev.advance, Dev.getF_setF_place h2, Dev.getF_setF_place h1, Dev.getF_setCell]
  · exact ⟨rfl, fun _ _ => rfl, rfl, fun _ _ _ _ => rfl⟩

theorem passBoundaryClosesThePass : PassBoundaryClosesThePass := by
  intro s cell p rest c hu hpasses
  let closed : Cell := { c with passes := rest, events := mput 0 (mget 0 c.events 0 + 1) c.events }
  let flight := (s.dev.setCell cell closed).setF R.CEL_ARRAY_STATUS_IN_FLIGHT cell (if rest.isEmpty then 0 else 1)
  let counted := flight.bump CEL cell 0 1
  let taken := counted.takeDivider cell
  have runs : (match (s.dev.cell cell).passes with
      | [] => s.dev
      | _ :: rest =>
        ((((s.dev.setCell cell { s.dev.cell cell with passes := rest }).event cell 0 1).setF R.CEL_ARRAY_STATUS_IN_FLIGHT cell
          (if rest.isEmpty then 0 else 1)).bump CEL cell 0 1 |>.takeDivider cell).wake cell) = taken.wake cell := by
    simp only [show (s.dev.cell cell).passes = p :: rest from hpasses, Machine.Dev.event_setCell]
    rfl
  have target : counted.getF R.PWR_CLK_STATUS_TARGET 0 = s.dev.getF R.PWR_CLK_STATUS_TARGET 0 :=
    (Dev.getF_setF_place (by decide) ..).trans (Dev.getF_setF_place (by decide) ..)
  have inFlight : taken.getF R.CEL_ARRAY_STATUS_IN_FLIGHT cell = if rest = [] then 0 else 1 := by
    refine (Dev.getF_setF_place (by decide) ..).trans ((Dev.getF_setF_place (by decide) ..).trans
      ((Dev.getF_setF_place (by decide) ..).trans ((Dev.getF_setF_same ..).trans ?_)))
    cases rest <;> rfl
  have divider : taken.getF R.CEL_ARRAY_STATUS_DIVIDER cell = s.dev.getF R.PWR_CLK_STATUS_TARGET 0 % 8 := by
    refine (Dev.getF_setF_place (by decide) ..).trans ((Dev.getF_setF_same ..).trans ?_)
    rw [target]
    rfl
  have record : taken.cell cell = closed := Dev.cell_setCell_same s.dev cell closed
  refine .of_onDev _ (Eq.refl (execPassBoundary ..)) hu ?_
  have others : s.dev.CellsKept taken cell := fun q hq => Dev.cell_setCell_other s.dev hq closed
  have frame : OnlyRecords s.dev taken :=
    (((OnlyRecords.setCell ..).trans (.setF ..)).trans (.setF ..)).trans ((OnlyRecords.setF ..).trans (.setF ..))
  clear_value taken
  obtain ⟨hcell, hkept, hframe, hfields⟩ := Machine.Dev.wake_spec taken cell
  rw [record] at hcell
  have hflight := hfields R.CEL_ARRAY_STATUS_IN_FLIGHT (by decide) (by decide) cell
  have hdiv := hfields R.CEL_ARRAY_STATUS_DIVIDER (by decide) (by decide) cell
  have hothers : s.dev.CellsKept (taken.wake cell) cell := fun q hq => (hkept q hq).trans (others q hq)
  have hall := frame.trans hframe
  rw [← runs] at hcell hflight hdiv hothers hall
  refine ⟨?_, ?_, ?_, ?_, ?_, ?_, hflight.trans inFlight, hdiv.trans divider, hothers, hall⟩
  iterate 6
    refine (congrArg _ hcell).trans ?_
    rfl

/-! ### DRAIN -/

namespace Machine

/-- The cell store with output rows written into it. -/
def putRowsInto (o : OperandDesc) (rs : List RowOut) (m : NMap Byte) : NMap Byte :=
  (List.range rs.length).foldl (fun m r =>
    let x := rs.getD r RowOut.empty
    let m := setBytes m (o.data + r * o.pitch) x.data
    if isNarrow o.format then setBytes m (o.scale + r * o.scalePitch) x.scales else m) m

theorem CellWork.storeBytes {p : Nat} {c : Cell} {d t : Dev} (h : CellWork p c d t) (a : Nat) (bs : List Byte) :
    CellWork p { c with store := setBytes c.store a bs } d (t.storeBytes p a bs) :=
  h.andThen (fun c => { c with store := setBytes c.store a bs }) fun a b h => by rw [h]; rfl

theorem CellWork.putRows {p : Nat} {c : Cell} {d t : Dev} (h : CellWork p c d t) (o : OperandDesc) (rs : List RowOut) :
    CellWork p { c with store := putRowsInto o rs c.store } d (t.putRows p o rs) := by
  unfold putRowsInto Dev.putRows
  generalize List.range rs.length = xs
  induction xs generalizing c t with
  | nil => exact h
  | cons x xs ih =>
    simp only [List.foldl_cons]
    by_cases hn : isNarrow o.format = true
    · simp only [hn, if_true] at ih ⊢
      exact ih ((h.storeBytes _ _).storeBytes _ _)
    · simp only [hn] at ih ⊢
      exact ih (h.storeBytes _ _)

/-- One output of a DRAIN that names no scale-state entry (R178). -/
theorem CellWork.drainInto {p : Nat} {c : Cell} {d t : Dev} (h : CellWork p c d t) (a : DrainArgs) {o : OperandDesc}
    (ho : o.entry = none) (vs : List (List Num)) (byChannel : Bool) :
    CellWork p { c with store := putRowsInto o (vs.map (writeRow o 0)) c.store } d (t.drainInto p a o vs byChannel).1 := by
  unfold Dev.drainInto
  simp only [ho]
  exact (h.putRows o _).exceptions ..

/-- A DRAIN whose outputs name no scale-state entry: its rows, its save copy, and its completion (R96, R178). -/
theorem Dev.drain_work (d : Dev) (p : Nat) (a : DrainArgs) (x w : OperandDesc) {o : OperandDesc} (ho : o.entry = none)
    (hs : ∀ sv, a.save = some sv → sv.entry = none) :
    let values := (List.range (min 64 o.rows)).map (fun r => (List.range a.count).map (fun i => (d.drainOne p a x w r i).1))
    let m := putRowsInto o (values.map (writeRow o 0)) (d.cell p).store
    let c := d.cell p
    CellWork p { c with
        store := a.save.elim m (fun sv => putRowsInto sv ((columnsOf a.count values).map (writeRow sv 0)) m)
        events := mput 1 (mget 0 c.events 1 + 1) c.events } d (d.drain p a x w o) := by
  intro values m c
  have note (e : Dev) : (e.noteEntry p none).warmJit p none = e := by simp [Dev.noteEntry, Dev.warmJit]
  unfold Dev.drain
  extract_lets rows d₁ d₂ grid vs invs t3 d₃ q r d₄ c₄ saved d₅
  have e₁ : d₁ = d := by simp [d₁, ho, note]
  have e₂ : d₂ = d := by
    simp only [d₂]
    split
    · next sv h _ => rw [hs sv h, note, e₁]
    · exact e₁
  have hv : vs = values := by simp [vs, grid, e₂, values, rows, List.map_map, Function.comp_def]
  have w₃ : CellWork p c d d₃ := by
    simp only [d₃, e₂]
    exact (CellWork.refl p d).exceptions ..
  have w₄ : CellWork p { c with
      store := a.save.elim m (fun sv => putRowsInto sv ((columnsOf a.count values).map (writeRow sv 0)) m) } d d₄ := by
    have first : CellWork p { c with store := m } d q.1 := by
      simp only [q, hv]
      exact w₃.drainInto a ho values false
    clear_value q
    simp only [d₄, r]
    cases h : a.save with
    | none => exact first
    | some sv => exact hv ▸ first.drainInto a (hs sv h) (columnsOf a.count vs) true
  clear_value d₄
  have w₅ : CellWork p { c with
      store := a.save.elim m (fun sv => putRowsInto sv ((columnsOf a.count values).map (writeRow sv 0)) m) } d d₅ := by
    simp only [d₅]
    split
    · split
      · exact w₄.trans (.setCell ..) (by rw [Dev.cell_setCell_same]; rfl)
      · exact w₄
    · exact w₄
  exact w₅.andThen (fun c => { c with events := mput 1 (mget 0 c.events 1 + 1) c.events }) fun a b h => by rw [h]; rfl

end Machine

/-- Every entry that a DRAIN names holds a value (R156). -/
theorem drained_entries_staked {c : Cell} {first count : Nat}
    (h : ∀ col i, col < 64 → i < count → (c.entry col (first + i)).staked = true ∨ (c.entry col (first + i)).t3.isSome = true) :
    ¬ (sfPlaces ((List.range count).map (· + first))).any (fun p => !(c.entry p.1 p.2).staked && (c.entry p.1 p.2).t3.isNone) = true := by
  rw [List.any_eq_true]
  rintro ⟨q, hq, hbad⟩
  simp only [sfPlaces, List.mem_flatMap, List.mem_range, List.mem_map] at hq
  obtain ⟨col, hcol, e, ⟨i, hi, rfl⟩, rfl⟩ := hq
  have := h col i hcol hi
  rw [Nat.add_comm first i] at this
  simp only [Bool.and_eq_true, Bool.not_eq_true', Option.isNone_iff_eq_none] at hbad
  rcases this with h | h <;> simp [hbad] at h

/-- The checks of a DRAIN that issues, and the DRAIN (R97, R156). -/
def Machine.Dev.drainChecked (d : Dev) (cell : Nat) (a : DrainArgs) (x w o : OperandDesc) (c : Cell) : Dev :=
  if c.poisoned then d
  else if decide (a.count = 0) || decide (256 < a.first + a.count) || !outputOk o a.count
      || !(a.save.elim true fun sv => d.descOk .output sv && decide (sv.col0 % 64 = 0) && outputOk sv (min 64 o.rows))
      || (a.rescale && decide (4096 < a.rescaleBase + a.count)) then d.illegal cell
  else if (sfPlaces ((List.range a.count).map (· + a.first))).any (fun p => !(c.entry p.1 p.2).staked && (c.entry p.1 p.2).t3.isNone) then
    d.trap cell 5 0
  else d.drain cell a x w o

theorem drainWritesOutputRows : DrainWritesOutputRows := by
  intro s cell a x w o c rows ranges values own hi hx hw ho hp hb hbusy hr hcount hfirst hout hsave hrescale hentry hstaked
  have small := Machine.Dev.lt_of_canIssue hi.2
  have work := Dev.drain_work s.dev cell a x w hentry fun sv h => (hsave sv h).2.2.2
  have saveOk : (a.save.elim true fun sv => s.dev.descOk .output sv && decide (sv.col0 % 64 = 0) && outputOk sv rows) = true := by
    cases h : a.save with
    | none => rfl
    | some sv =>
      obtain ⟨h1, h2, h3, -⟩ := hsave sv h
      simp [h1, h2, h3]
  have legal : ¬ (decide (a.count = 0) || decide (256 < a.first + a.count) || !outputOk o a.count
      || !(a.save.elim true fun sv => s.dev.descOk .output sv && decide (sv.col0 % 64 = 0) && outputOk sv rows)
      || (a.rescale && decide (4096 < a.rescaleBase + a.count))) = true := by
    simp only [saveOk, hout, Bool.or_eq_true, decide_eq_true_eq, Bool.not_true, Bool.and_eq_true, Bool.false_eq_true, or_false]
    rintro ((h | h) | ⟨h1, h2⟩)
    · omega
    · omega
    · have := hrescale h1
      omega
  refine .of_checked hi (Eq.refl (execDrain ..)) (g := fun d => d.drainChecked cell a x w o c) ?_ (t := s.dev.drain cell a x w o)
    ?_ ?_ ?_
  · dsimp only
    split
    · next x' w' o' ex ew eo =>
      obtain rfl : x = x' := Option.some.inj (hx.symm.trans ex)
      obtain rfl : w = w' := Option.some.inj (hw.symm.trans ew)
      obtain rfl : o = o' := Option.some.inj (ho.symm.trans eo)
      exact (if_neg (show ¬ c.entriesBusy (own ++ companions x w own) = true by simp [hbusy])).trans (hr.launch hi.2 hb _)
    · next h => exact absurd ho (h x w o hx hw)
  · exact (if_neg (show ¬ c.poisoned = true by simp [hp])).trans ((if_neg legal).trans (if_neg (drained_entries_staked hstaked)))
  · exact work.frame.getF (by decide) (by decide) (by omega)
  · have cell' : (((s.dev.drain cell a x w o).advance cell 1).cell cell) = (s.dev.drain cell a x w o).cell cell := rfl
    have noted := work.cell
    unfold Machine.Cell.Noted at noted
    have written := ((CellWork.refl cell s.dev).putRows o (values.map (writeRow o 0)))
    refine ⟨?_, ?_, ?_, ?_, ?_, ?_, ?_, ?_, ?_, ?_, work.frame.kept, ?_⟩
    · refine (congrArg _ (cell'.trans noted)).trans ?_
      cases a.save with
      | none => exact (congrArg Cell.store written.cell).symm
      | some sv => exact (congrArg Cell.store (written.putRows sv _).cell).symm
    iterate 8
      refine (congrArg _ (cell'.trans noted)).trans ?_
      rfl
    · exact Machine.Dev.pc_advance (work.frame.getF (by decide) (by decide) (by omega))
    · exact (work.frame.only.trans (.setF ..)).frame

/-- Settles O18. -/
theorem passesStreamAndDrain : Obligations.PassesStreamAndDrain := by
  unfold Obligations.PassesStreamAndDrain
  exact ⟨passStreamsIntoTheStakingFile, passBoundaryClosesThePass, drainWritesOutputRows⟩

end Sys2Proof
end

