-- ==== Sys2Proof/Proofs/MemFields.lean ====
section
/-! What operations on stacked memory do to register fields (R295 to R299, R314): beside reports they touch MEM_UE alone. -/

namespace Sys2Proof.Machine

/-- The homes of MEM_UE on whatever page of the MEM class or beyond. -/
def ueHome (k : Nat) : Prop := (k / 32 % 4096 = 192 ∨ k / 32 % 4096 = 196) ∧ 8192 ≤ k / 131072

/-- An operation on stacked memory: beside memory, the mirror stream's state and the record of retired rows it changes reports
and MEM_UE. -/
structure MemOnly (d t : Dev) : Prop where
  kept : t = { d with
    mem := t.mem, fields := t.fields, rasLog := t.rasLog, out := t.out, sow := t.sow
    nv := { d.nv with rowRemap := t.nv.rowRemap, bankSpares := t.nv.bankSpares, rowsUsed := t.nv.rowsUsed,
                      rowsUnspared := t.nv.rowsUnspared } }
  touches : Touches ueHome d t

theorem not_ueHome {f : Field} (hf : f.quiet = true) (h : f.off ≠ 192 ∧ f.off ≠ 196) (i : Nat) : ¬ ueHome (f.key i) := by
  simp only [Field.quiet, Bool.and_eq_true, Bool.or_eq_true, decide_eq_true_eq] at hf
  obtain ⟨⟨⟨-, h5⟩, h6⟩, -⟩ := hf
  simp only [ueHome, Field.key]
  omega

namespace MemOnly

variable {d e t : Dev}

theorem of_memWrite {a n : Nat} (h : MemWrite d t a n) (ht : Touches ueHome d t) : MemOnly d t := ⟨h.kept, ht⟩

theorem of_noise (h : Noise d t) : MemOnly d t := by
  refine ⟨?_, h.touches _⟩
  obtain ⟨_, _, _, rfl⟩ := h.reports
  rfl

theorem refl (d : Dev) : MemOnly d d := of_noise (.refl d)

theorem trans (h1 : MemOnly d e) (h2 : MemOnly e t) : MemOnly d t := by
  refine ⟨?_, h1.touches.trans h2.touches⟩
  have kept := h2.kept
  rw [h1.kept] at kept
  exact kept

theorem ite {a b : Dev} {p : Prop} [Decidable p] (ha : MemOnly d a) (hb : MemOnly d b) : MemOnly d (if p then a else b) := by
  split
  · exact ha
  · exact hb

theorem foldl {α : Type} {f : Dev → α → Dev} (h : ∀ e x, MemOnly e (f e x)) (xs : List α) (d : Dev) :
    MemOnly d (xs.foldl f d) := by
  induction xs generalizing d with
  | nil => exact refl d
  | cons x xs ih => exact (h d x).trans (ih _)

theorem cells (h : MemOnly d t) : t.cells = d.cells := by rw [h.kept]
theorem plots (h : MemOnly d t) : t.plots = d.plots := by rw [h.kept]
theorem ctl (h : MemOnly d t) : t.ctl = d.ctl := by rw [h.kept]
theorem sets (h : MemOnly d t) : t.sets = d.sets := by rw [h.kept]
theorem cell (h : MemOnly d t) (p : Nat) : t.cell p = d.cell p := by simp only [Dev.cell, h.cells]
theorem plot (h : MemOnly d t) (k : Nat) : t.plot k = d.plot k := by simp only [Dev.plot, h.plots]

theorem getF (h : MemOnly d t) {f : Field} (hf : f.quiet = true) (ho : f.off ≠ 192 ∧ f.off ≠ 196) {i : Nat} (hi : i < 2048) :
    t.getF f i = d.getF f i := h.touches.getF hf hi (not_ueHome hf ho i)

theorem blk (h : MemOnly d t) {c i : Nat} (hc : c < 16) (hi : i < 2048) : t.blk c i = d.blk c i := by
  have e := h.getF (f := R.BLK_STATE_STATE c) (by simp [Field.quiet, R.BLK_STATE_STATE, hc]) (by simp [R.BLK_STATE_STATE]) hi
  have hd : t.nv.disabled = d.nv.disabled := by rw [h.kept]
  have hr : t.nv.retired = d.nv.retired := by rw [h.kept]
  simp only [Dev.blk, hd, hr, e]

/-! ### Reports of memory -/

/-- A store into MEM_UE. -/
theorem setUe (d : Dev) {f : Field} (h : f = R.MEM_UE_LO_ADDR_LO ∨ f = R.MEM_UE_HI_ADDR_HI ∨ f = R.MEM_UE_HI_REGION
    ∨ f = R.MEM_UE_HI_SOURCE ∨ f = R.MEM_UE_HI_VALID) (i v : Nat) : MemOnly d (d.setF f i v) := by
  refine ⟨rfl, ?_⟩
  have home : ueHome (f.key i) ∧ f.place ≠ 1024 := by
    rcases h with rfl | rfl | rfl | rfl | rfl <;>
    · simp only [ueHome, Field.key, Field.place, R.MEM_UE_LO_ADDR_LO, R.MEM_UE_HI_ADDR_HI, R.MEM_UE_HI_REGION, R.MEM_UE_HI_SOURCE,
        R.MEM_UE_HI_VALID]
      omega
  exact .setF d home.1 home.2 v

theorem recordUe (d : Dev) (a source : Nat) : MemOnly d (d.recordUe a source) := by
  unfold Dev.recordUe
  exact ite (refl d) (((((setUe _ (by simp) _ _).trans (setUe _ (by simp) _ _)).trans (setUe _ (by simp) _ _)).trans
    (setUe _ (by simp) _ _)).trans (setUe _ (by simp) _ _))

theorem poisonRead (d : Dev) (a : Nat) : MemOnly d (d.poisonRead a) :=
  ((recordUe ..).trans (of_noise (.setErrFull ..))).trans (of_noise (.setErrFull ..))

theorem rmwDropped (d : Dev) (a : Nat) : MemOnly d (d.rmwDropped a) :=
  ((recordUe ..).trans (of_noise (.bump _ _ _ (by decide) _))).trans (of_noise (.setErrFull ..))

end MemOnly

/-! ### Health (R491) -/

namespace Noise

theorem healthFrom (d₀ d : Dev) : Noise d (d₀.healthFrom d) := by
  unfold Dev.healthFrom
  extract_lets e
  have h : Noise d e := .ite (.refl d) (.irq ..)
  exact h.trans (.ite (.refl _) (.irq ..))

theorem raiseReplace (d : Dev) (c i reason : Nat) : Noise d (d.raiseReplace c i reason) := by
  have req (e : Dev) (c i : Nat) : Noise e (e.setF (R.BLK_HEALTH_REPLACE_REQ c) i 1) :=
    setF_off e (.inr (.inl rfl)) (show 16 < 32 by decide) i 1
  have why (e : Dev) (c i : Nat) : Noise e (e.setF (R.BLK_HEALTH_REASON c) i reason) :=
    setF_off e (.inr (.inl rfl)) (show 24 < 32 by decide) i reason
  unfold Dev.raiseReplace
  extract_lets mark rs e₁ e₂ e₃
  have marked (e : Dev) (c i : Nat) : Noise e (mark e c i) := by
    have h : Noise e (if e.getF (R.BLK_HEALTH_REASON c) i = 0 then (e.setF (R.BLK_HEALTH_REPLACE_REQ c) i 1).setF (R.BLK_HEALTH_REASON c) i reason
        else e.setF (R.BLK_HEALTH_REPLACE_REQ c) i 1) := .ite ((req ..).trans (why ..)) (req ..)
    exact .ite h (h.trans (irq ..))
  have first : Noise e₂ e₃ := .ite (setF_ras e₂ (f := R.RAS_REPLACE_FIRST) rfl (by decide) (by decide) _) (.refl _)
  exact .ite (.refl d) ((((((marked ..).trans (marked ..)).trans (setF_ras e₁ (f := R.RAS_REPLACE_REASONS) rfl (by decide)
    (by decide) _)).trans first).trans (bump _ _ _ (by decide) _)).trans (setErr ..))

theorem memHealth (d₀ d : Dev) (k : Nat) : Noise d (d₀.memHealth d k) := by
  unfold Dev.memHealth
  extract_lets e
  have wear : Noise d (if d₀.memWear k = d.memWear k then d else d.irq MEM k 4) := .ite (.refl d) (.irq ..)
  have graded : Noise d e := wear.trans (healthFrom ..)
  exact graded.trans (.ite ((setErr ..).trans (raiseReplace ..)) (.refl _))

end Noise

/-! ### Words, lines and ranges -/

namespace Touches

variable {S : Nat → Prop}

/-- An operation that begins from a device with the same fields. -/
theorem before {d e t : Dev} (h : Touches S e t) (hf : e.fields = d.fields) : Touches S d t := (of_fields hf).trans h

theorem retireRow (d : Dev) (k off : Nat) : Touches S d (d.retireRow k off) := by
  have swapped (e : Dev) : Touches S e (d.memHealth ((e.bump MEM k 6 1).setErrFull MEM k 18 0 2 0) k) :=
    (((Noise.bump e MEM k (by decide) 1).trans (.setErrFull ..)).trans (.memHealth ..)).touches S
  have unspared (e : Dev) : Touches S e (e.setErr MEM k 20) := (Noise.setErr ..).touches S
  unfold Dev.retireRow
  exact ite (refl d S) (ite ((swapped _).before rfl) ((unspared _).before rfl))

theorem correctWord (d : Dev) (a : Nat) : Touches S d (d.correctWord a) := by
  unfold Dev.correctWord
  extract_lets k off e row words lim
  have seen : Touches S d e := ((Noise.bump d MEM k (by decide) 1).trans (.setErr ..)).touches _
  clear_value e
  exact ite (refl d _) (ite (seen.trans ((retireRow ..).before rfl)) (seen.trans (of_fields rfl)))

theorem poisonWord (d : Dev) (a source : Nat) : Touches ueHome d (d.poisonWord a source) := by
  unfold Dev.poisonWord
  extract_lets k w m e₁ e₂ e₃
  have shown : Touches ueHome d e₂ :=
    Touches.before ((MemOnly.recordUe e₁ (w * 8) source).touches.trans ((Noise.bump _ _ _ (by decide) _).touches _)) rfl
  have flagged : Noise e₂ e₃ := .ite ((Noise.setErrFull ..).trans (.setErrFull ..)) ((Noise.setErrFull ..).trans (.setErrFull ..))
  exact ite (refl d _) ((shown.trans (flagged.touches _)).trans (retireRow ..))

theorem meetWord (d : Dev) (w source : Nat) : Touches ueHome d (d.meetWord w source) := by
  unfold Dev.meetWord
  split
  · exact refl d _
  · exact (correctWord ..).before rfl
  · exact (poisonWord ..).before rfl

theorem meetRange (d : Dev) (a n source : Nat) : Touches ueHome d (d.meetRange a n source) :=
  foldl (fun e w => meetWord e w source) _ d

theorem noteRead (d : Dev) (a n : Nat) : Touches ueHome d (d.noteRead a n) := by
  unfold Dev.noteRead
  extract_lets bad e₁ e₂
  have counted : Touches ueHome d e₁ := foldl (fun e p => (Noise.bump e _ _ (k := 0) (by decide) _).touches _) _ d
  have met : Touches ueHome e₁ e₂ := meetRange ..
  have read (e : Dev) (w : Nat) : Touches ueHome e (e.poisonRead (w * 8)) := (MemOnly.poisonRead ..).touches
  exact (counted.trans met).trans (foldl read _ _)

theorem writeWord (d : Dev) (a : Nat) (bs : List Byte) : Touches ueHome d (d.writeWord a bs) := by
  unfold Dev.writeWord
  extract_lets e
  have met : Touches ueHome d e := ite (meetWord ..) (refl ..)
  exact met.trans (ite (MemOnly.rmwDropped ..).touches (of_fields rfl))

theorem capture (d : Dev) (line : Nat) : Touches S d (d.capture line) := by
  unfold Dev.capture
  split
  · exact ite (of_fields rfl) (of_fields rfl)
  · exact refl d _

theorem writeLine (d : Dev) (cap : Bool) (a : Nat) (bs : List Byte) : Touches ueHome d (d.writeLine cap a bs) := by
  unfold Dev.writeLine
  extract_lets m e₁ e₂ e₃
  have words : Touches ueHome e₁ e₂ := foldl (fun e (p : Nat × List Byte) => writeWord e p.1 p.2) _ e₁
  have counted : Touches ueHome e₂ e₃ := (Noise.bump e₂ _ _ (by decide) _).touches _
  have stored : Touches ueHome d e₃ := (words.trans counted).before rfl
  exact ite (stored.trans (capture ..)) stored

end Touches

namespace MemOnly

theorem noteRead (d : Dev) (a n : Nat) : MemOnly d (d.noteRead a n) := of_memWrite (d.noteRead_spec a n) (.noteRead ..)

theorem meetRange (d : Dev) (a n source : Nat) : MemOnly d (d.meetRange a n source) :=
  of_memWrite (d.meetRange_spec a n source 0 0) (.meetRange ..)

theorem write (d : Dev) (a : Nat) (bs : List Byte) : MemOnly d (d.write a bs) := by
  refine of_memWrite (d.write_spec a bs) ?_
  unfold Dev.write
  exact .foldl (fun e (p : Nat × List Byte) => .writeLine e true p.1 p.2) _ d

theorem writeRaw (d : Dev) (a : Nat) (bs : List Byte) : MemOnly d (d.writeRaw a bs) := by
  refine of_memWrite (d.writeRaw_spec a bs) ?_
  unfold Dev.writeRaw
  exact .foldl (fun e (p : Nat × List Byte) => .writeLine e false p.1 p.2) _ d

theorem rmw (d : Dev) (a n : Nat) (f : Dev → Dev) (h : ∀ e, MemOnly e (f e)) : MemOnly d (d.rmw a n f) := by
  unfold Dev.rmw
  extract_lets e
  have met : MemOnly d e := meetRange ..
  split
  · exact met.trans (rmwDropped ..)
  · exact met.trans (h _)

theorem stakedAdd (d : Dev) (width a q : Nat) : MemOnly d (d.stakedAdd width a q) := by
  unfold Dev.stakedAdd
  extract_lets n e₁ e₂ old stick new
  have met : MemOnly d e₁ := meetRange ..
  split
  · exact met.trans (rmwDropped ..)
  · exact met.trans ((of_noise (.bump e₁ _ _ (by decide) _)).trans (write ..))

theorem clearStat (d : Dev) (i n : Nat) : MemOnly d (d.clearStat i n) := write ..

theorem setStatFlag (d : Dev) (i n b : Nat) : MemOnly d (d.setStatFlag i n b) := rmw _ _ _ _ fun _ => write ..

theorem setJit (d : Dev) (i n : Nat) (sigma : Int) : MemOnly d (d.setJit i n sigma) :=
  (rmw _ _ _ _ fun _ => write ..).trans (setStatFlag ..)

end MemOnly

end Sys2Proof.Machine
end

