-- ==== Sys2Proof/Proofs/Events.lean ====
section
/-! The numeric event ring (R237, R238): what posting an event touches, and that it retires no row. -/

namespace Sys2Proof.Machine

/-- The homes that posting events touches beside reports. -/
def postHome (k : Nat) : Prop := ueHome k ∨ homes [(R.NUM_RING_PROD_PROD, 0), (R.NUM_RING_DROPPED_DROPPED, 0)] k

/-- Events are posted: beside memory, the mirror stream's state, the record of retired rows and the state of the NUM page, reports,
MEM_UE and two fields of the ring change. -/
structure Posted (d t : Dev) : Prop where
  kept : t = { d with
    mem := t.mem, fields := t.fields, rasLog := t.rasLog, out := t.out, sow := t.sow, numx := t.numx, fresh := t.fresh
    nv := { d.nv with rowRemap := t.nv.rowRemap, bankSpares := t.nv.bankSpares, rowsUsed := t.nv.rowsUsed,
                      rowsUnspared := t.nv.rowsUnspared } }
  touches : Touches postHome d t

namespace Posted

variable {d e t : Dev}

theorem of_mem (h : MemOnly d t) : Posted d t := by
  refine ⟨?_, h.touches.mono fun _ => .inl⟩
  have numx : t.numx = d.numx := by rw [h.kept]
  have fresh : t.fresh = d.fresh := by rw [h.kept]
  rw [numx, fresh]
  exact h.kept

theorem of_noise (h : Noise d t) : Posted d t := of_mem (.of_noise h)

theorem refl (d : Dev) : Posted d d := of_noise (.refl d)

theorem trans (h1 : Posted d e) (h2 : Posted e t) : Posted d t := by
  refine ⟨?_, h1.touches.trans h2.touches⟩
  have kept := h2.kept
  rw [h1.kept] at kept
  exact kept

theorem ite {a b : Dev} {p : Prop} [Decidable p] (ha : Posted d a) (hb : Posted d b) : Posted d (if p then a else b) := by
  split
  · exact ha
  · exact hb

theorem foldl {α : Type} {f : Dev → α → Dev} (h : ∀ e x, Posted e (f e x)) (xs : List α) (d : Dev) :
    Posted d (xs.foldl f d) := by
  induction xs generalizing d with
  | nil => exact refl d
  | cons x xs ih => exact (h d x).trans (ih _)

theorem cells (h : Posted d t) : t.cells = d.cells := by rw [h.kept]
theorem plots (h : Posted d t) : t.plots = d.plots := by rw [h.kept]
theorem sets (h : Posted d t) : t.sets = d.sets := by rw [h.kept]
theorem ctl (h : Posted d t) : t.ctl = d.ctl := by rw [h.kept]
theorem cell (h : Posted d t) (p : Nat) : t.cell p = d.cell p := by simp only [Dev.cell, h.cells]
theorem plot (h : Posted d t) (k : Nat) : t.plot k = d.plot k := by simp only [Dev.plot, h.plots]

theorem getF (h : Posted d t) {f : Field} (hf : f.quiet = true) (ho : f.off ≠ 192 ∧ f.off ≠ 196)
    (hn : f.place ∉ [R.NUM_RING_PROD_PROD.place, R.NUM_RING_DROPPED_DROPPED.place]) {i : Nat} (hi : i < 2048) : t.getF f i = d.getF f i :=
  h.touches.getF hf hi (not_or.2 ⟨not_ueHome hf ho i, not_homes (by simpa using hn) i⟩)

theorem of_numx (d : Dev) (x : Numx) : Posted d { d with numx := x } := ⟨rfl, .of_fields rfl⟩

theorem setRing (d : Dev) {f : Field} (h : f = R.NUM_RING_PROD_PROD ∨ f = R.NUM_RING_DROPPED_DROPPED) (v : Nat) : Posted d (d.setF f 0 v) := by
  refine ⟨rfl, ?_⟩
  rcases h with rfl | rfl
  · exact .setF d (.inr ⟨_, List.mem_cons_self, rfl⟩) (by decide) v
  · exact .setF d (.inr ⟨_, List.mem_cons_of_mem _ List.mem_cons_self, rfl⟩) (by decide) v

theorem putEvent (d : Dev) (e : Event) : Posted d (d.putEvent e) :=
  ((of_mem (.write ..)).trans (setRing _ (.inl rfl) _)).trans (of_noise (.irq ..))

theorem putOverflow (d : Dev) : Posted d d.putOverflow := by
  have due (x : Numx) (ev : Event) : Posted d (Dev.putEvent { d with numx := x } ev) := (of_numx d x).trans (putEvent ..)
  unfold Dev.putOverflow
  exact ite (due ..) (refl d)

theorem postEvent (d : Dev) (e : Event) : Posted d (d.postEvent e) := by
  unfold Dev.postEvent
  extract_lets e₁ e₂ x e₃
  have counted : Posted d e₁ := by
    simp only [e₁]
    split
    · next k h =>
      have small : k < 8 := by
        unfold eventCounter at h
        split at h <;> simp at h <;> omega
      exact of_noise (.bump d _ _ small _)
    · exact refl d
  have due : Posted e₁ e₂ := putOverflow _
  have lost : Posted e₂ ((e₃.satAdd R.NUM_RING_DROPPED_DROPPED 0 1).setErr NUM 0 16) :=
    ((of_numx e₂ _).trans (setRing e₃ (.inr rfl) _)).trans (of_noise (.setErr ..))
  exact ite ((counted.trans due).trans (ite (putEvent ..) lost)) counted

theorem postSummary (d : Dev) (cell : Nat) (s : Summary) : Posted d (d.postSummary cell s) := postEvent ..

end Posted

end Sys2Proof.Machine
end

