-- ==== Sys2Proof/Proofs/Tiles.lean ====
section
/-! Tiles, barriers and waiting (R96, R99, R101, R185). -/

namespace Sys2Proof.Machine

/-! ### What happens beside the cells' records -/

/-- The records of the cells stay, and of the register fields all but reports and those of memory and the event ring. -/
structure OffCells (d t : Dev) : Prop where
  cells : t.cells = d.cells
  touches : Touches postHome d t

namespace OffCells

variable {d e t : Dev}

theorem of_posted (h : Posted d t) : OffCells d t := ⟨h.cells, h.touches⟩
theorem of_mem (h : MemOnly d t) : OffCells d t := of_posted (.of_mem h)
theorem refl (d : Dev) : OffCells d d := ⟨rfl, .refl d _⟩
theorem trans (h1 : OffCells d e) (h2 : OffCells e t) : OffCells d t := ⟨h2.cells.trans h1.cells, h1.touches.trans h2.touches⟩

theorem ite {a b : Dev} {p : Prop} [Decidable p] (ha : OffCells d a) (hb : OffCells d b) : OffCells d (if p then a else b) := by
  split
  · exact ha
  · exact hb

theorem foldl {α : Type} {f : Dev → α → Dev} (h : ∀ e x, OffCells e (f e x)) (xs : List α) (d : Dev) :
    OffCells d (xs.foldl f d) := by
  induction xs generalizing d with
  | nil => exact refl d
  | cons x xs ih => exact (h d x).trans (ih _)

theorem cell (h : OffCells d t) (p : Nat) : t.cell p = d.cell p := by simp only [Dev.cell, h.cells]

theorem getF (h : OffCells d t) {f : Field} (hf : f.quiet = true) (ho : f.off ≠ 192 ∧ f.off ≠ 196)
    (hn : f.place ∉ [R.NUM_RING_PROD_PROD.place, R.NUM_RING_DROPPED_DROPPED.place]) {i : Nat} (hi : i < 2048) : t.getF f i = d.getF f i :=
  h.touches.getF hf hi (not_or.2 ⟨not_ueHome hf ho i, not_homes (by simpa using hn) i⟩)

theorem setPhase (d : Dev) (k ph : Nat) (r : PhaseRun) : OffCells d (d.setPhase k ph r) := ⟨rfl, .of_fields rfl⟩
theorem setCtl (d : Dev) (x : Ctl) : OffCells d { d with ctl := x } := ⟨rfl, .of_fields rfl⟩

/-- The first tile of a phase in a replay (R186). -/
theorem openPhase (d : Dev) (k ph : Nat) : OffCells d (d.openPhase k ph) := by
  have step (e : Dev) (x : Decision) : OffCells e (match x with | .jit _ _ _ i sg _ => e.setJit i e.step sg | _ => e) := by
    split
    · exact of_mem (.setJit ..)
    · exact refl e
  unfold Dev.openPhase
  split
  · extract_lets js e x e'
    refine ite (refl d) ?_
    have set : OffCells d e := foldl step js d
    exact (set.trans (setCtl ..)).trans (setPhase ..)
  · exact refl d

end OffCells

theorem Dev.phase_setPhase (d : Dev) (k ph : Nat) (r : PhaseRun) : ((d.setPhase k ph r).plot k).phase ph = r := by
  simp [Dev.setPhase, Dev.setPlot, Dev.plot, PlotRun.phase]

/-! ### A phase that opens in MEASURE -/

theorem mem_insertSet_iff {k x : Nat} {xs : List Nat} : x ∈ insertSet k xs ↔ x = k ∨ x ∈ xs := by
  refine ⟨mem_insertSet, fun h => ?_⟩
  induction xs with
  | nil => simpa [insertSet] using h
  | cons y ys ih =>
    rw [insertSet]
    split
    · simpa using h
    · split
      · next e =>
        rcases h with rfl | h
        · exact e ▸ List.mem_cons_self
        · exact h
      · rw [List.mem_cons] at h ⊢
        rcases h with h | h | h
        · exact .inr (ih (.inl h))
        · exact .inl h
        · exact .inr (ih (.inr h))

theorem mem_foldl_insertSet {es m : List Nat} {i : Nat} (h : i ∈ es ∨ i ∈ m) : i ∈ es.foldl (fun m i => insertSet i m) m := by
  induction es generalizing m with
  | nil => simpa using h
  | cons e es ih =>
    refine ih ?_
    rw [List.mem_cons] at h
    rcases h with (h | h) | h
    · exact .inr (mem_insertSet_iff.2 (.inl h))
    · exact .inl h
    · exact .inr (mem_insertSet_iff.2 (.inr h))

/-- MARK set on entries of a phase in MEASURE (R185). -/
theorem Dev.markEntries_spec (es : List Nat) {d : Dev} {k ph j : Nat} {r : PhaseRun} (h : (d.plot k).phase ph = r) :
    let t := es.foldl (fun d i => d.markEntry ⟨k, ph, j⟩ i) d
    OffCells d t ∧ (t.plot k).phase ph = { r with marked := es.foldl (fun m i => insertSet i m) r.marked } := by
  induction es generalizing d r with
  | nil => exact ⟨.refl d, h⟩
  | cons e es ih =>
    have flag := MemOnly.setStatFlag (d.setPhase k ph { r with marked := insertSet e r.marked }) e d.step 1
    have mark : d.markEntry ⟨k, ph, j⟩ e = (d.setPhase k ph { r with marked := insertSet e r.marked }).setStatFlag e d.step 1 := by
      unfold Dev.markEntry
      rw [h]
    have next : ((d.markEntry ⟨k, ph, j⟩ e).plot k).phase ph = { r with marked := insertSet e r.marked } := by
      rw [mark, flag.plot, Dev.phase_setPhase]
    obtain ⟨off, run⟩ := ih next
    refine ⟨.trans ?_ off, run⟩
    rw [mark]
    exact (OffCells.setPhase ..).trans (.of_mem flag)

/-- What opening a phase in MEASURE leaves of the cells, and the phase that it opens (R177, R185). -/
structure Warmed (d g : Dev) (k ph : Nat) (es : List Nat) : Prop where
  cell : ∀ q, g.cell q = { d.cell q with phaseSums := (g.cell q).phaseSums }
  touches : Touches postHome d g
  kind : ((g.plot k).phase ph).kind = .measure
  fresh : ((g.plot k).phase ph).tiles = 0 ∧ ((g.plot k).phase ph).next = 0 ∧ ((g.plot k).phase ph).returned = []
  marked : ∀ i ∈ es, i ∈ ((g.plot k).phase ph).marked

theorem Dev.cell_dropPhaseSums (d : Dev) (k ph q : Nat) :
    (d.dropPhaseSums k ph).cell q = { d.cell q with phaseSums := ((d.dropPhaseSums k ph).cell q).phaseSums } := by
  simp only [Dev.cell, Dev.dropPhaseSums, mget,
    mfind_map_values (fun c : Cell => { c with phaseSums := c.phaseSums.filter (fun s => !s.tile.inPhase k ph) })]
  cases mfind q d.cells <;> rfl

theorem Dev.openWarm_warm {d : Dev} {k ph tiles : Nat} {writes : List Nat}
    (h : ¬ ((mfind ph (d.plot k).phases).isSome = true ∨ d.warmAmong writes = [] ∨ tiles = 0)) (hh : d.holders k ph none = []) :
    Warmed d (d.openWarm k ph tiles writes) k ph (d.warmAmong writes) := by
  obtain ⟨h1, h2, h3⟩ : (mfind ph (d.plot k).phases).isSome = false ∧ d.warmAmong writes ≠ [] ∧ tiles ≠ 0 := by
    simpa [not_or] using h
  have warm : ¬ ((mfind ph (d.plot k).phases).isSome || (d.warmAmong writes).isEmpty || decide (tiles = 0)) = true := by
    simp [h1, h2, h3]
  let r : PhaseRun := { PhaseRun.start with entries := writes.foldl (fun a i => insertSet i a) [] }
  let opened := d.setPhase k ph r
  let measuring := (opened.setPhase k ph { r with kind := .measure }).dropPhaseSums k ph
  have restart : opened.restartPhase k ph .measure none = measuring := by
    have none_holds : opened.holders k ph none = [] := hh
    unfold Dev.restartPhase
    simp only [none_holds, List.foldl_nil, opened, Dev.phase_setPhase]
    rfl
  let cleared := (((opened.plot k).phase ph).entries).foldl (fun d i => d.clearStat i d.step) measuring
  have clear : MemOnly measuring cleared := .foldl (fun e i => .clearStat e i e.step) _ _
  have begun : opened.beginMeasure k ph none = cleared := by
    unfold Dev.beginMeasure
    rw [restart]
  have run : (cleared.plot k).phase ph = { r with kind := .measure } := by
    rw [clear.plot]
    exact Dev.phase_setPhase ..
  have eq : d.openWarm k ph tiles writes = (d.warmAmong writes).foldl (fun d i => d.markEntry ⟨k, ph, 0⟩ i) cleared := by
    unfold Dev.openWarm
    rw [if_neg warm, ← begun]
  obtain ⟨off, phase⟩ := Dev.markEntries_spec (d.warmAmong writes) (j := 0) run
  rw [← eq] at off phase
  refine ⟨fun q => ?_, ?_, by rw [phase], by rw [phase]; exact ⟨rfl, rfl, rfl⟩, fun i hi => ?_⟩
  · rw [off.cell, clear.cell]
    exact Dev.cell_dropPhaseSums ..
  · exact ((clear.touches.mono fun _ => .inl).trans off.touches).before rfl
  · rw [phase]
    exact mem_foldl_insertSet (.inl hi)

/-! ### TGET -/

/-- A cell has taken tile i of phase `ph`, whose run is now r. -/
structure TookTile (g t : Dev) (cell rd k ph i : Nat) (r : PhaseRun) : Prop where
  record : t.cell cell = { (g.cell cell).setS rd (BitVec.ofNat 64 i) with tiles := (g.cell cell).tiles ++ [⟨k, (g.cell cell).phase, i⟩] }
  kept : g.CellsKept t cell
  tile : t.getF R.CEL_TILE_TILE cell = i % 2 ^ 32
  holding : t.getF R.CEL_TILE_STATUS_HOLDING cell = 1
  phase : (t.plot k).phase ph = r
  halted : (t.plot k).halted = (g.plot k).halted
  fields : ∀ f : Field, f.place ≠ R.CEL_TILE_TILE.place → f.place ≠ R.CEL_TILE_STATUS_HOLDING.place → ∀ q, t.getF f q = g.getF f q

theorem Dev.takeTile_spec (g : Dev) (cell rd k ph i : Nat) (r : PhaseRun) :
    TookTile g ((g.setPhase k ph r).takeTile cell rd k i) cell rd k ph i r := by
  unfold Dev.takeTile
  extract_lets c c₁ e
  have record : e.cell cell = { (g.cell cell).setS rd (BitVec.ofNat 64 i) with
      tiles := (g.cell cell).tiles ++ [⟨k, (g.cell cell).phase, i⟩] } := Dev.cell_setCell_same ..
  have kept : g.CellsKept e cell := fun q hq => Dev.cell_setCell_other _ hq _
  have phase : (e.plot k).phase ph = r := Dev.phase_setPhase g k ph r
  have halted : (e.plot k).halted = (g.plot k).halted := by
    show ((g.setPhase k ph r).plot k).halted = _
    simp [Dev.setPhase, Dev.setPlot, Dev.plot]
  have fields (f : Field) (q : Nat) : e.getF f q = g.getF f q := rfl
  clear_value e
  refine ⟨record, kept, ?_, Dev.getF_setF_same .., phase, halted, fun f h1 h2 q => ?_⟩
  · exact (Dev.getF_setF_place (by decide) ..).trans (Dev.getF_setF_same ..)
  · exact (Dev.getF_setF_place h2 ..).trans ((Dev.getF_setF_place h1 ..).trans (fields f q))

/-- The run of a phase with the number of its tiles (R99). -/
def PhaseRun.sized (r : PhaseRun) (tiles : Nat) : PhaseRun := if r.tiles = 0 then { r with tiles := tiles } else r

/-- A phase that is open, or that no warm entry delays, opens as it stands. -/
theorem Dev.openWarm_open {d : Dev} {k ph tiles : Nat} {writes : List Nat}
    (h : (mfind ph (d.plot k).phases).isSome = true ∨ d.warmAmong writes = [] ∨ tiles = 0) : d.openWarm k ph tiles writes = d := by
  refine if_pos ?_
  rcases h with h | h | h <;> simp [h]

/-- What TGET does on a cell that issues (R99). -/
def Dev.tgetBody (d : Dev) (cell rd : Nat) (a : TileArgs) : Dev :=
  match (d.cell cell).plot with
  | none => d.illegal cell
  | some k =>
    if !regsOk [rd] then d.illegal cell
    else (d.setCell cell { d.cell cell with getPc := d.getF R.CEL_SEQ_STATUS_PC cell, getStack := (d.cell cell).stack }).tget cell rd a.tiles k a.writes

/-- The device on which TGET looks for a tile. -/
def Dev.atGet (d : Dev) (cell k : Nat) : Dev :=
  (d.setCell cell { d.cell cell with getPc := d.getF R.CEL_SEQ_STATUS_PC cell, getStack := (d.cell cell).stack }).openPhase k (d.cell cell).phase

theorem Dev.tgetBody_eq {d : Dev} {cell rd k : Nat} {a : TileArgs} (hk : (d.cell cell).plot = some k) (hr : rd < 32) :
    let g := (d.atGet cell k).openWarm k (d.cell cell).phase a.tiles a.writes
    let r := ((g.plot k).phase (d.cell cell).phase).sized a.tiles
    d.tgetBody cell rd a = match r.take with
      | some (i, r') => (g.setPhase k (d.cell cell).phase r').takeTile cell rd k i
      | none => (g.setPhase k (d.cell cell).phase r).setCell cell ((g.cell cell).setS rd Config.tileEnd) := by
  have regs : ¬ (!regsOk [rd]) = true := by simp [regsOk, hr]
  intro g r
  unfold Dev.tgetBody
  split
  · next h => simp [h] at hk
  · next k' h =>
    obtain rfl : k = k' := Option.some.inj (hk.symm.trans h)
    rw [if_neg regs]
    simp only [Dev.tget, Dev.cell_setCell_same]
    rfl

/-- What TGET leaves of a cell's record beside its tiles and its register. -/
theorem Dev.atGet_cell (d : Dev) (cell k : Nat) : (d.atGet cell k).cell cell =
    { d.cell cell with getPc := d.getF R.CEL_SEQ_STATUS_PC cell, getStack := (d.cell cell).stack } := by
  rw [Dev.atGet, (OffCells.openPhase ..).cell, Dev.cell_setCell_same]

theorem Dev.atGet_kept (d : Dev) (cell k : Nat) : d.CellsKept (d.atGet cell k) cell := fun q hq => by
  rw [Dev.atGet, (OffCells.openPhase ..).cell, Dev.cell_setCell_other d hq]

theorem Dev.atGet_getF (d : Dev) {cell : Nat} (k : Nat) (hp : cell < 1152) {f : Field} (hf : f.quiet = true)
    (ho : f.off ≠ 192 ∧ f.off ≠ 196) (hn : f.place ∉ [R.NUM_RING_PROD_PROD.place, R.NUM_RING_DROPPED_DROPPED.place]) :
    (d.atGet cell k).getF f cell = d.getF f cell := (OffCells.openPhase ..).getF hf ho hn (by omega)

/-- The effect of an instruction that leaves RUN alone. -/
theorem Dev.instr_of_run {d t : Dev} {p : Nat} {f : Dev → Dev} (hi : d.canIssue p = true) (hf : f d = t)
    (hr : t.getF R.CEL_SEQ_STATUS_RUN p = d.getF R.CEL_SEQ_STATUS_RUN p) : d.instr p f = t.advance p 1 := by
  have run : t.getF R.CEL_SEQ_STATUS_RUN p ≠ 3 := by
    rw [hr, Dev.run_of_canIssue hi]
    decide
  simp only [Dev.instr, hi, hf, if_true, if_neg run]

/-- A cell that issues takes tile i of its phase, which g has opened, and goes on. -/
theorem Dev.tget_takes {d g : Dev} {cell rd k i : Nat} {a : TileArgs} {r : PhaseRun} (hi : d.canIssue cell = true)
    (hk : (d.cell cell).plot = some k) (hr : rd < 32) (hg : (d.atGet cell k).openWarm k (d.cell cell).phase a.tiles a.writes = g)
    (hrun : g.getF R.CEL_SEQ_STATUS_RUN cell = d.getF R.CEL_SEQ_STATUS_RUN cell)
    (ht : (((g.plot k).phase (d.cell cell).phase).sized a.tiles).take = some (i, r)) :
    ∃ t, TookTile g t cell rd k (d.cell cell).phase i r ∧ d.instr cell (fun d => d.tgetBody cell rd a) = t.advance cell 1 := by
  have body := Dev.tgetBody_eq (a := a) hk hr
  simp only [hg, ht] at body
  have took := Dev.takeTile_spec g cell rd k (d.cell cell).phase i r
  exact ⟨_, took, Dev.instr_of_run hi body ((took.fields _ (by decide) (by decide) cell).trans hrun)⟩

end Sys2Proof.Machine

namespace Sys2Proof

open Machine

theorem exec_tget (s : State) (cell rd : Nat) (a : TileArgs) : exec (.tget cell rd a) s = s.onDev (fun d =>
    if !d.canGet cell then d
    else (if d.canIssue cell then d else d.resumeGet cell).instr cell (fun d => d.tgetBody cell rd a)) := rfl

/-- TGET of a cell that issues runs its body (R99). -/
theorem Answers.of_tget {s : State} {cell rd : Nat} {a : TileArgs} {t : Dev} {post : Dev → Prop} (hu : s.dev.up = true)
    (hi : s.dev.canIssue cell = true) (ht : s.dev.instr cell (fun d => d.tgetBody cell rd a) = t) (hp : post t) :
    Answers (.tget cell rd a) s post := by
  refine .of_onDev _ (exec_tget ..) hu ?_
  have get : ¬ (!s.dev.canGet cell) = true := by simp [Dev.canGet, hi]
  rw [if_neg get, if_pos hi, ht]
  exact hp

/-- What a cell holds that has taken tile i (R99, R116). -/
structure Holds (d t : Dev) (cell rd k i : Nat) : Prop where
  s : (t.cell cell).s rd = (if rd = 0 then 0 else BitVec.ofNat 64 i)
  tiles : (t.cell cell).tiles = (d.cell cell).tiles ++ [⟨k, (d.cell cell).phase, i⟩]
  tile : t.getF R.CEL_TILE_TILE cell = i % 2 ^ 32
  holding : t.getF R.CEL_TILE_STATUS_HOLDING cell = 1
  vregs : (t.cell cell).vregs = (d.cell cell).vregs
  store : (t.cell cell).store = (d.cell cell).store

theorem Machine.Cell.waiting_setS (c : Cell) (r : Nat) (v : Word) : (c.setS r v).waiting = c.waiting := by
  unfold Cell.setS
  split <;> rfl

theorem Machine.Cell.s_setS_same (c : Cell) (r : Nat) (v : Word) : (c.setS r v).s r = if r = 0 then 0 else v := by
  simp [Cell.s_setS]

/-- From the opened phase to the cell that goes on. -/
theorem Machine.TookTile.holds {d g t : Dev} {cell rd k ph i : Nat} {r : PhaseRun} (h : TookTile g t cell rd k ph i r) {ps : List Summary}
    {pc : Nat} {st : List Nat} (hg : g.cell cell = { d.cell cell with getPc := pc, getStack := st, phaseSums := ps }) :
    Holds d (t.advance cell 1) cell rd k i := by
  have record : (t.advance cell 1).cell cell = _ := h.record
  rw [hg] at record
  have setS (c : Cell) (v : Word) : (c.setS rd v).vregs = c.vregs ∧ (c.setS rd v).store = c.store := by
    unfold Machine.Cell.setS
    split <;> exact ⟨rfl, rfl⟩
  refine ⟨?_, ?_, ?_, ?_, ?_, ?_⟩
  · rw [record]
    exact Machine.Cell.s_setS_same ..
  · rw [record]
  · exact (Dev.getF_setF_place (by decide) ..).trans h.tile
  · exact (Dev.getF_setF_place (by decide) ..).trans h.holding
  · rw [record]
    exact (setS _ _).1
  · rw [record]
    exact (setS _ _).2

theorem Machine.Dev.resumeGet_eq {d : Dev} {cell k : Nat} (hk : (d.cell cell).plot = some k) : d.resumeGet cell =
    (d.setPlot k { d.plot k with halted := (d.plot k).halted.erase cell }).backToGet cell := by
  unfold Dev.resumeGet
  split
  · next k' h =>
    obtain rfl : k = k' := Option.some.inj (hk.symm.trans h)
    rfl
  · next h => simp [h] at hk

/-- A cell that goes back to its last TGET (log entry 18). -/
structure Resumed (d e : Dev) (cell k : Nat) : Prop where
  record : e.cell cell = { d.cell cell with waiting := none, stack := (d.cell cell).getStack }
  kept : d.CellsKept e cell
  run : e.getF R.CEL_SEQ_STATUS_RUN cell = 1
  pc : e.getF R.CEL_SEQ_STATUS_PC cell = (d.cell cell).getPc % 16384
  blk : e.blk CEL cell = d.blk CEL cell
  plot : e.plot k = { d.plot k with halted := (d.plot k).halted.erase cell }

theorem Machine.Dev.backToGet_getF (d : Dev) (cell : Nat) {f : Field} (h1 : f.place ≠ R.CEL_SEQ_STATUS_RUN.place)
    (h2 : f.place ≠ R.CEL_SEQ_STATUS_PC.place) (q : Nat) : (d.backToGet cell).getF f q = d.getF f q := by
  rw [Dev.backToGet, Dev.getF_setF_place h2, Dev.getF_setF_place h1, Dev.getF_setCell]

theorem Machine.Dev.resumeGet_spec {d : Dev} {cell k : Nat} (hk : (d.cell cell).plot = some k) : Resumed d (d.resumeGet cell) cell k := by
  rw [Machine.Dev.resumeGet_eq hk]
  have state := Machine.Dev.backToGet_getF (d.setPlot k { d.plot k with halted := (d.plot k).halted.erase cell }) cell
    (f := R.BLK_STATE_STATE CEL) (by decide) (by decide) cell
  refine ⟨?_, fun q hq => ?_, ?_, ?_, ?_, mget_mput_same ..⟩
  · rw [Dev.backToGet, Dev.cell_setF, Dev.cell_setF, Dev.cell_setCell_same]
    rfl
  · rw [Dev.backToGet, Dev.cell_setF, Dev.cell_setF, Dev.cell_setCell_other _ hq]
    rfl
  · rw [Dev.backToGet, Dev.getF_setF_place (by decide), Dev.getF_setF_same]
    rfl
  · rw [Dev.backToGet, Dev.getF_setF_same]
    rfl
  · simp only [Dev.blk]
    rw [state]
    rfl

/-- A phase with a returned tile is open. -/
theorem Machine.PlotRun.isSome_of_returned {r : PlotRun} {ph i : Nat} {rest : List Nat} (h : (r.phase ph).returned = i :: rest) :
    (mfind ph r.phases).isSome = true := by
  cases hf : mfind ph r.phases with
  | some _ => rfl
  | none => simp [PlotRun.phase, mget, hf, PhaseRun.start] at h

theorem Machine.Dev.openPhase_open {d : Dev} {k ph : Nat} (h : (mfind ph (d.plot k).phases).isSome = true) : d.openPhase k ph = d := by
  unfold Dev.openPhase
  split
  · next h' _ => simp [h'] at h
  · rfl

theorem tileGetTakesTheNextTile : TileGetTakesTheNextTile := by
  intro s cell rd tiles k writes c d p r opened takes hu hk hr
  have shown {g t : Dev} {i : Nat} {r' : PhaseRun} (h : TookTile g t cell rd k c.phase i r') {ps : List Summary} {pc : Nat} {st : List Nat}
      (hg : g.cell cell = { c with getPc := pc, getStack := st, phaseSums := ps }) : takes i (t.advance cell 1) := by
    obtain ⟨h1, h2, h3, h4, h5, h6⟩ := h.holds (d := s.dev) hg
    exact ⟨h1, h2, h3, h4, h5, h6⟩
  refine ⟨fun hi hw ho i r' ht => ?_, fun hi hw ho ht => ?_, fun hi ho hh => ?_, fun hi hg i rest hret => ?_⟩
  · have small := Machine.Dev.lt_of_canIssue hi
    obtain ⟨t, took, ht'⟩ := Dev.tget_takes (a := ⟨tiles, writes⟩) (g := d) hi hk hr (Dev.openWarm_open ho)
      (Dev.atGet_getF s.dev k small (by decide) (by decide) (by decide)) ht
    refine .of_tget hu hi ht' ⟨shown took (Dev.atGet_cell ..), took.phase, ?_, ?_⟩
    · refine Machine.Dev.pc_advance ((took.fields _ (by decide) (by decide) cell).trans ?_)
      exact Dev.atGet_getF s.dev k small (by decide) (by decide) (by decide)
    · exact fun q hq => (took.kept q hq).trans (Dev.atGet_kept s.dev cell k q hq)
  · have small := Machine.Dev.lt_of_canIssue hi
    have body := Dev.tgetBody_eq (a := ⟨tiles, writes⟩) hk hr
    have warm : (s.dev.atGet cell k).openWarm k (s.dev.cell cell).phase tiles writes = d := Dev.openWarm_open ho
    have none_left : (((d.plot k).phase (s.dev.cell cell).phase).sized tiles).take = none := ht
    simp only [warm, none_left] at body
    have same (f : Field) (hf : f.quiet = true) (h1 : f.off ≠ 192 ∧ f.off ≠ 196)
        (h2 : f.place ∉ [R.NUM_RING_PROD_PROD.place, R.NUM_RING_DROPPED_DROPPED.place]) : d.getF f cell = s.dev.getF f cell :=
      Dev.atGet_getF s.dev k small hf h1 h2
    refine .of_tget hu hi (Dev.instr_of_run hi body (same _ (by decide) (by decide) (by decide))) ⟨?_, ?_, ?_, ?_⟩
    · refine (congrArg (Cell.s · rd) (Dev.cell_setCell_same ..)).trans ?_
      exact Machine.Cell.s_setS_same ..
    · refine (congrArg Cell.tiles (Dev.cell_setCell_same ..)).trans ?_
      have tiles_setS (c : Cell) (v : Word) : (c.setS rd v).tiles = c.tiles := by
        unfold Machine.Cell.setS
        split <;> rfl
      rw [tiles_setS, show d = s.dev.atGet cell k from rfl, Dev.atGet_cell]
    · exact Machine.Dev.pc_advance (same _ (by decide) (by decide) (by decide))
    · exact fun q hq => (Dev.cell_setCell_other _ hq _).trans (Dev.atGet_kept s.dev cell k q hq)
  · have small := Machine.Dev.lt_of_canIssue hi
    have warm := Dev.openWarm_warm ho hh
    have same (f : Field) (hf : f.quiet = true) (h1 : f.off ≠ 192 ∧ f.off ≠ 196)
        (h2 : f.place ∉ [R.NUM_RING_PROD_PROD.place, R.NUM_RING_DROPPED_DROPPED.place]) :
        (d.openWarm k c.phase tiles writes).getF f cell = s.dev.getF f cell :=
      (warm.touches.getF hf (by omega) (not_or.2 ⟨not_ueHome hf h1 cell, not_homes (by simpa using h2) cell⟩)).trans
        (Dev.atGet_getF s.dev k small hf h1 h2)
    have some_left : tiles ≠ 0 := fun h => ho (.inr (.inr h))
    obtain ⟨untiled, unread, unreturned⟩ := warm.fresh
    have first : (((d.openWarm k c.phase tiles writes).plot k).phase c.phase |>.sized tiles).take
        = some (0, { (((d.openWarm k c.phase tiles writes).plot k).phase c.phase) with tiles := tiles, next := 1 }) := by
      have room : 0 < tiles := Nat.pos_of_ne_zero some_left
      simp [PhaseRun.sized, untiled, PhaseRun.take, unreturned, unread, room]
    obtain ⟨t, took, ht'⟩ := Dev.tget_takes (a := ⟨tiles, writes⟩) hi hk hr rfl (same _ (by decide) (by decide) (by decide)) first
    have record := warm.cell cell
    rw [show d.cell cell = _ from Dev.atGet_cell s.dev cell k] at record
    have phase : ((t.advance cell 1).plot k).phase c.phase = _ := took.phase
    refine .of_tget hu hi ht' ⟨shown took record, ?_, ?_, ?_⟩
    · exact Machine.Dev.pc_advance ((took.fields _ (by decide) (by decide) cell).trans (same _ (by decide) (by decide) (by decide)))
    · rw [phase]
      exact warm.kind
    · rw [phase]
      exact warm.marked
  · have waits : cell < 1152 ∧ s.dev.blk CEL cell = stRunning := by
      simp only [Dev.canGet, hi, Bool.false_or, Bool.and_eq_true, decide_eq_true_eq] at hg
      exact hg.1
    obtain ⟨small, running⟩ := waits
    let e := s.dev.resumeGet cell
    obtain ⟨record, others, run, pc, blk, plot⟩ : Resumed s.dev e cell k := Machine.Dev.resumeGet_spec hk
    have runs : (if !s.dev.canGet cell then s.dev else (if s.dev.canIssue cell then s.dev else s.dev.resumeGet cell).instr cell
        (fun d => d.tgetBody cell rd ⟨tiles, writes⟩)) = e.instr cell (fun d => d.tgetBody cell rd ⟨tiles, writes⟩) := by
      simp [hg, hi, e]
    clear_value e
    have issue : e.canIssue cell = true := by simp [Dev.canIssue, small, blk, running, run]
    have isOpen : (mfind c.phase ((e.atGet cell k).plot k).phases).isSome = true ∧ e.atGet cell k
        = e.setCell cell { e.cell cell with getPc := e.getF R.CEL_SEQ_STATUS_PC cell, getStack := (e.cell cell).stack } := by
      have some : (mfind c.phase (e.plot k).phases).isSome = true := by
        rw [plot]
        exact Machine.PlotRun.isSome_of_returned hret
      have eq : e.atGet cell k = e.setCell cell { e.cell cell with getPc := e.getF R.CEL_SEQ_STATUS_PC cell, getStack := (e.cell cell).stack } := by
        refine Machine.Dev.openPhase_open ?_
        rw [record]
        exact some
      exact ⟨by rw [eq]; exact some, eq⟩
    obtain ⟨isSome, atGet⟩ := isOpen
    have phase : (e.cell cell).phase = c.phase := by rw [record]
    have queue : ((e.atGet cell k).plot k).phase c.phase = (s.dev.plot k).phase c.phase := by
      rw [atGet]
      exact (congrArg (fun r : PlotRun => r.phase c.phase) plot).trans rfl
    have first : ((((e.atGet cell k).plot k).phase (e.cell cell).phase).sized tiles).take
        = some (i, { (((s.dev.plot k).phase c.phase).sized tiles) with returned := rest }) := by
      have returned : (((s.dev.plot k).phase c.phase).sized tiles).returned = i :: rest := by
        unfold PhaseRun.sized
        split <;> exact hret
      rw [phase, queue, PhaseRun.take, returned]
    obtain ⟨t, took, ht'⟩ := Dev.tget_takes (a := ⟨tiles, writes⟩) (g := e.atGet cell k) issue (by rw [record]; exact hk) hr
      (Dev.openWarm_open (.inl (by rw [phase]; exact isSome))) (Dev.atGet_getF e k small (by decide) (by decide) (by decide)) first
    have held := took.holds (d := e) (Dev.atGet_cell e cell k)
    refine .of_onDev _ (exec_tget ..) hu ?_
    rw [runs, ht']
    have plot' : ((t.advance cell 1).plot k).halted = _ := took.halted
    have cell' : (t.advance cell 1).cell cell = _ := took.record
    refine ⟨⟨held.s, ?_, held.tile, held.holding, ?_, ?_⟩, ?_, ?_, ?_, ?_, ?_, ?_⟩
    · rw [held.tiles, record]
    · rw [held.vregs, record]
    · rw [held.store, record]
    · refine (congrArg Cell.waiting cell').trans ?_
      dsimp only
      rw [Machine.Cell.waiting_setS, Dev.atGet_cell, record]
    · exact (Dev.getF_setF_place (by decide) ..).trans ((took.fields _ (by decide) (by decide) cell).trans
        ((Dev.atGet_getF e k small (by decide) (by decide) (by decide)).trans run))
    · rw [← pc]
      exact Machine.Dev.pc_advance ((took.fields _ (by decide) (by decide) cell).trans
        (Dev.atGet_getF e k small (by decide) (by decide) (by decide)))
    · rw [plot', atGet]
      exact congrArg PlotRun.halted plot
    · have phase' : ((t.advance cell 1).plot k).phase (e.cell cell).phase = _ := took.phase
      rw [phase] at phase'
      rw [phase']
    · exact fun q hq => (took.kept q hq).trans ((Dev.atGet_kept e cell k q hq).trans (others q hq))

theorem tilesAreTakenOnceInOrder : TilesAreTakenOnceInOrder := by
  intro r r' i h
  unfold PhaseRun.take at h
  split at h
  · next x xs hr =>
    obtain ⟨rfl, rfl⟩ := Prod.mk.inj (Option.some.inj h)
    exact ⟨fun h => by simp [hr] at h, fun y ys hy => by
      obtain ⟨rfl, rfl⟩ := List.cons.inj (hr.symm.trans hy)
      exact ⟨rfl, rfl, rfl⟩, rfl, rfl⟩
  · next hr =>
    split at h
    · next room =>
      obtain ⟨rfl, rfl⟩ := Prod.mk.inj (Option.some.inj h)
      exact ⟨fun _ => ⟨rfl, room, rfl, hr⟩, fun y ys hy => (by simp [hr] at hy), rfl, rfl⟩
    · cases h

/-- Settles O22. -/
theorem tilesAreHandedOut : Obligations.TilesAreHandedOut := by
  unfold Obligations.TilesAreHandedOut
  exact ⟨tileGetTakesTheNextTile, tilesAreTakenOnceInOrder⟩

end Sys2Proof
end

