-- ==== Sys2Proof/Proofs/Owners.lean ====
section
/-! Ownership of the device: the token, the sets staged but not armed, and the rings of a port. -/

namespace Sys2Proof.Machine

theorem mdel_of_none {α : Type} {k : Nat} {m : NMap α} (h : mfind k m = none) : mdel k m = m := by
  induction m with
  | nil => rfl
  | cons e m ih =>
    obtain ⟨k', v⟩ := e
    by_cases hk : k = k'
    · simp [mfind, hk] at h
    · rw [mfind, if_neg hk] at h
      rw [mdel, if_neg hk, ih h]

/-- Staged sets are dropped and shown as aborted: nothing else but reports changes. -/
def Unstaged (d t : Dev) : Prop :=
  t = { d with fields := t.fields, shadow := t.shadow, rasLog := t.rasLog, out := t.out } ∧ ∀ e ∈ t.shadow, e ∈ d.shadow

theorem Reports.setCommitState (d : Dev) (c i v : Nat) : Reports d (d.setCommitState c i v) :=
  .ite (.refl d) ((Reports.setF ..).trans (.irq ..))

/-- A page without an armed commit loses its staged set. -/
theorem Dev.abortCommit_unstaged {d : Dev} {k : Nat} (h : mfind k d.armed = none) :
    Unstaged d (d.abortCommit (k / 2048) (k % 2048)) ∧
      ∀ e ∈ (d.abortCommit (k / 2048) (k % 2048)).shadow, keyPage e.1 ≠ k := by
  have hk : k / 2048 * 2048 + k % 2048 = k := Nat.div_add_mod' k 2048
  have ht : Reports { d with shadow := d.shadow.filter (fun e => decide (keyPage e.1 ≠ k)) } (d.abortCommit (k / 2048) (k % 2048)) := by
    have e : (d.dropStaged (k / 2048) (k % 2048)).disarm (k / 2048) (k % 2048) =
        { d with shadow := d.shadow.filter (fun e => decide (keyPage e.1 ≠ k)) } := by
      simp only [Dev.disarm, Dev.dropStaged, hk, mdel_of_none h]
    exact e ▸ Reports.setCommitState ..
  obtain ⟨fs, log, out, e⟩ := ht
  rw [e]
  exact ⟨⟨rfl, fun _ => List.mem_of_mem_filter⟩, fun e he => by simpa using List.of_mem_filter he⟩

/-- After the sweep every staged set left is armed (R56). -/
theorem Dev.abortUnarmed_spec (d : Dev) : Unstaged d d.abortUnarmed ∧
    ∀ e ∈ d.abortUnarmed.shadow, (mfind (keyPage e.1) d.armed).isSome = true := by
  have sweep : ∀ (ks : List Nat) (e : Dev), Unstaged d e →
      Unstaged d (ks.foldl (fun d k => if (mfind k d.armed).isSome then d else d.abortCommit (k / 2048) (k % 2048)) e) ∧
      ∀ x ∈ (ks.foldl (fun d k => if (mfind k d.armed).isSome then d else d.abortCommit (k / 2048) (k % 2048)) e).shadow,
        x ∈ e.shadow ∧ (keyPage x.1 ∈ ks → (mfind (keyPage x.1) d.armed).isSome = true) := by
    intro ks
    induction ks with
    | nil => exact fun e he => ⟨he, fun x hx => ⟨hx, fun h => nomatch h⟩⟩
    | cons k ks ih =>
      intro e he
      have ha : e.armed = d.armed := by rw [he.1]
      rw [List.foldl_cons, ha]
      split
      case isTrue hk =>
        refine ⟨(ih e he).1, fun x hx => ⟨((ih e he).2 x hx).1, fun hm => ?_⟩⟩
        rcases List.mem_cons.mp hm with h | h
        · exact h ▸ hk
        · exact ((ih e he).2 x hx).2 h
      case isFalse hk =>
        obtain ⟨hu, hg⟩ := Dev.abortCommit_unstaged (d := e) (k := k) (ha ▸ Option.not_isSome_iff_eq_none.mp hk)
        have he' : Unstaged d (e.abortCommit (k / 2048) (k % 2048)) := ⟨hu.1.trans (by rw [he.1]), fun x hx => he.2 x (hu.2 x hx)⟩
        refine ⟨(ih _ he').1, fun x hx => ?_⟩
        obtain ⟨hm, hl⟩ := (ih _ he').2 x hx
        exact ⟨hu.2 x hm, fun h => hl ((List.mem_cons.mp h).resolve_left (hg x hm))⟩
  obtain ⟨hu, hs⟩ := sweep (d.shadow.map (fun e => keyPage e.1)).eraseDups d ⟨rfl, fun _ h => h⟩
  exact ⟨hu, fun e he => (hs e he).2 (List.mem_eraseDups.mpr (List.mem_map_of_mem (hs e he).1))⟩

theorem Noise.ownerChanged (d : Dev) : Noise d (d.ownerChanged.vectors 0) :=
  ((Noise.setErr ..).trans (.setErr ..)).trans (.vectors ..)

/-- Both pages show a change of ownership (R532). -/
theorem Dev.errBit_ownerChanged (d : Dev) :
    (d.ownerChanged.vectors 0).errBit PCI 0 22 = true ∧ (d.ownerChanged.vectors 0).errBit PCI 1 22 = true :=
  ⟨((Noise.setErr ..).trans (.vectors ..)).errs _ _ _ (by decide) (Noise.errBit_setErr d PCI 0 (by decide)),
    (Noise.vectors ..).errs _ _ _ (by decide) (Noise.errBit_setErr (d.setErr PCI 0 22) PCI 1 (by decide))⟩

theorem Dev.ring_disableRings (d : Dev) (p : Nat) {k : Nat} (hk : k < 256) : ((d.disableRings p).ring p k).enabled = false := by
  have hm : ∀ m : NMap Ring, (mget Ring.reset (m.map (fun e => if e.1 / 256 = p then (e.1, { e.2 with enabled := false }) else e))
      (ringKey p k)).enabled = false := by
    intro m
    induction m with
    | nil => rfl
    | cons e m ih =>
      obtain ⟨j, r⟩ := e
      by_cases hj : ringKey p k = j
      · have : j / 256 = p := by
          rw [← hj]
          unfold ringKey
          omega
        simp [mget, mfind, hj, this]
      · rw [mget] at ih ⊢
        rw [List.map_cons]
        by_cases hp : j / 256 = p <;> simpa [mfind, hj, hp] using ih
  exact hm _

theorem Reports.ownerChanged (d : Dev) : Reports d (d.ownerChanged.vectors 0) := (Noise.ownerChanged d).reports

/-- What a passing of the device leaves of it (R56, R530). -/
theorem State.transfer_spec (s : State) : ∃ t, s.transfer = .next { s with own := ⟨s.own.requester, 0, false⟩, dev := t } ∧
    t.mem = s.dev.mem ∧ t.cells = s.dev.cells ∧ t.errBit PCI 0 22 = true ∧ t.errBit PCI 1 22 = true ∧
    (∀ e ∈ t.shadow, (mfind (keyPage e.1) s.dev.armed).isSome = true) ∧
    (s.own.owner ≠ 0 → ∀ k, k < 256 → (t.ring (s.own.owner - 1) k).enabled = false) := by
  obtain ⟨⟨ha, -⟩, hs⟩ := s.dev.abortUnarmed_spec
  obtain ⟨hmem, hcells⟩ : s.dev.abortUnarmed.mem = s.dev.mem ∧ s.dev.abortUnarmed.cells = s.dev.cells := by
    rw [ha]
    exact ⟨rfl, rfl⟩
  by_cases ho : s.own.owner = 0
  · refine ⟨s.dev.abortUnarmed.ownerChanged.vectors 0, by rw [State.transfer, if_pos ho], (Reports.ownerChanged _).mem.trans hmem, (Reports.ownerChanged _).cells.trans hcells,
      (Dev.errBit_ownerChanged _).1, (Dev.errBit_ownerChanged _).2, ?_, fun h => absurd ho h⟩
    obtain ⟨fs, log, out, e⟩ := Reports.ownerChanged s.dev.abortUnarmed
    rw [e]
    exact hs
  · refine ⟨(s.dev.abortUnarmed.disableRings (s.own.owner - 1)).ownerChanged.vectors 0, by rw [State.transfer, if_neg ho], (Reports.ownerChanged _).mem.trans hmem, (Reports.ownerChanged _).cells.trans hcells,
      (Dev.errBit_ownerChanged _).1, (Dev.errBit_ownerChanged _).2, ?_, fun _ k hk => ?_⟩
    · obtain ⟨fs, log, out, e⟩ := Reports.ownerChanged (s.dev.abortUnarmed.disableRings (s.own.owner - 1))
      rw [e]
      exact hs
    · obtain ⟨fs, log, out, e⟩ := Reports.ownerChanged (s.dev.abortUnarmed.disableRings (s.own.owner - 1))
      rw [e]
      exact Dev.ring_disableRings _ _ hk

theorem State.whenUp_up {s : State} (hu : s.dev.up = true) (r : Res) : s.whenUp r = r := if_pos hu

end Sys2Proof.Machine

namespace Sys2Proof

open Machine

/-- Settles O60, command by command; GRANT and the timeout by what a passing of the device leaves. -/
theorem ownershipChangesHands : Obligations.OwnershipChangesHands := by
  unfold Obligations.OwnershipChangesHands
  intro s port hu hp
  dsimp only
  have unchanged : ∀ (i : Instr) (c : Prop) [Decidable c] (r : Res), exec i s = s.whenUp (if c then r else .next s) → ¬ c →
      Answers i s fun t => t = s.dev :=
    fun i c _ r he hc => ⟨s, he.trans ((State.whenUp_up hu _).trans (if_neg hc)), rfl, rfl, rfl⟩
  have moved : ∀ (i : Instr) (c : Prop) [Decidable c] (o' : Own), exec i s = s.whenUp (if c then .next
      { s with own := o', dev := s.dev.ownerChanged.vectors 0 } else .next s) → c → ∃ t, exec i s = .next t ∧ t.pending = s.pending ∧
      t.own = o' ∧ (t.dev.errBit PCI 0 22 = true ∧ t.dev.errBit PCI 1 22 = true) ∧ t.dev.mem = s.dev.mem ∧ t.dev.cells = s.dev.cells :=
    fun i c _ o' he hc => ⟨_, he.trans ((State.whenUp_up hu _).trans (if_pos hc)), rfl, rfl, Dev.errBit_ownerChanged _,
      (Reports.ownerChanged _).mem, (Reports.ownerChanged _).cells⟩
  have passed : ∀ (i : Instr) (c : Prop) [Decidable c], exec i s = s.whenUp (if c then s.transfer else .next s) → c →
      ∃ t, exec i s = .next t ∧ t.pending = s.pending ∧ t.own = ⟨s.own.requester, 0, false⟩ ∧
      ((t.dev.errBit PCI 0 22 = true ∧ t.dev.errBit PCI 1 22 = true) ∧
        (∀ e ∈ t.dev.shadow, (mfind (keyPage e.1) s.dev.armed).isSome = true) ∧
        (s.own.owner ≠ 0 → ∀ k, k < 256 → (t.dev.ring (s.own.owner - 1) k).enabled = false)) ∧
      t.dev.mem = s.dev.mem ∧ t.dev.cells = s.dev.cells := by
    intro i c _ he hc
    obtain ⟨t, ht, hmem, hcells, h0, h1, hs, hr⟩ := s.transfer_spec
    exact ⟨_, he.trans ((State.whenUp_up hu _).trans ((if_pos hc).trans ht)), rfl, rfl, ⟨⟨h0, h1⟩, hs, hr⟩, hmem, hcells⟩
  have noted : ∀ (i : Instr) (c : Prop) [Decidable c] (o' : Own), exec i s = s.whenUp (if c then .next
      { s with own := o', dev := s.dev.vectors 0 } else .next s) → c → ∃ t, exec i s = .next t ∧ t.pending = s.pending ∧
      t.own = o' ∧ t.dev = s.dev.vectors 0 ∧ t.dev.mem = s.dev.mem ∧ t.dev.cells = s.dev.cells :=
    fun i c _ o' he hc => ⟨_, he.trans ((State.whenUp_up hu _).trans (if_pos hc)), rfl, rfl, rfl, rfl, rfl⟩
  refine ⟨fun h => moved (.claim port) _ _ rfl ⟨h, hp⟩, fun h => unchanged (.claim port) _ _ rfl fun h' => h h'.1,
    fun h => noted (.request port) _ _ rfl ⟨h.1, hp, h.2⟩, fun h => unchanged (.request port) _ _ rfl fun h' => h ⟨h'.1, h'.2.2⟩,
    fun hm hq => ⟨passed (.grant port) _ rfl ⟨hm, hq⟩, noted (.deny port) _ _ rfl ⟨hm, hq⟩⟩, fun h => ?_,
    fun hm => moved (.release port) _ _ rfl hm,
    fun hm => unchanged (.release port) _ _ rfl (by simp [hm]),
    fun h h' => passed .ownershipTimeout _ rfl ⟨h, h'⟩, fun h => unchanged .ownershipTimeout _ _ rfl fun h' => ?_⟩
  · have hn : ¬ (s.own.isOwner port = true ∧ s.own.pending = true) := by
      rintro ⟨h1, h2⟩
      simp [h1, h2] at h
    exact ⟨unchanged (.grant port) _ _ rfl hn, unchanged (.deny port) _ _ rfl hn⟩
  · obtain ⟨h1, h2⟩ := h'
    simp [h1, h2] at h

end Sys2Proof
end

