-- ==== Sys2Proof/Proofs/Agree.lean ====
section
/-! What an access to memory leaves depends on nothing but memory, the sowing state, the flash and the register fields
that no report and no record of an uncorrectable word touches. -/

namespace Sys2Proof.Machine

/-- The homes of the fields that an access to memory reads: the interleave, the limit of corrected words in a row, the state of the
pairing and the step. -/
def memoryReads (k : Nat) : Prop :=
  k = R.MEM_MAP_INTERLEAVE.key 0 ∨ (∃ j, k = R.MEM_RETIRE_CFG_CE_ROW_LIM.key j) ∨ k = R.SOW_PAIR_STATUS_STATE.key 0 ∨ k = R.GLB_STEP.key 0

/-- No such field is a report or a record of an uncorrectable word. -/
theorem memoryReads_quiet {k : Nat} (h : memoryReads k) : noiseKey k = false ∧ ¬ ueHome k := by
  rcases h with rfl | ⟨j, rfl⟩ | rfl | rfl
  · exact ⟨by decide, by simp [ueHome, Field.key, R.MEM_MAP_INTERLEAVE]⟩
  · have off : R.MEM_RETIRE_CFG_CE_ROW_LIM.key j / 32 % 4096 = 172 := by
      simp only [Field.key, R.MEM_RETIRE_CFG_CE_ROW_LIM]
      omega
    exact ⟨by simp [noiseKey, off], by simp [ueHome, off]⟩
  · exact ⟨by decide, by simp [ueHome, Field.key, R.SOW_PAIR_STATUS_STATE]⟩
  · exact ⟨by decide, by simp [ueHome, Field.key, R.GLB_STEP]⟩

/-- Fields at other places are not read by an access to memory. -/
theorem memoryReads_place {k : Nat} (h : memoryReads k) {xs : List (Field × Nat)}
    (hx : ∀ f ∈ [R.MEM_MAP_INTERLEAVE, R.MEM_RETIRE_CFG_CE_ROW_LIM, R.SOW_PAIR_STATUS_STATE, R.GLB_STEP], f.place ∉ xs.map (·.1.place)) :
    ¬ homes xs k := by
  rcases h with rfl | ⟨j, rfl⟩ | rfl | rfl <;> exact not_homes (hx _ (by simp)) _

/-- The sowing state but for the marks of the first plan after GO, which no access to memory reads. -/
def Sow.stream (w : Sow) : Sow := { w with planAtOnce := false, planFirst := none }

/-- Both streams take a delta. -/
theorem Sow.stream_queued {w v : Sow} (h : w.stream = v.stream) (x : MirrorItem) (crc : Nat → Nat) :
    Sow.stream { w with queue := w.queue ++ [x], deltaLines := w.deltaLines + 1, deltaCrc := crc w.deltaCrc }
      = Sow.stream { v with queue := v.queue ++ [x], deltaLines := v.deltaLines + 1, deltaCrc := crc v.deltaCrc } :=
  (congrArg (fun w : Sow => { w with queue := w.queue ++ [x], deltaLines := w.deltaLines + 1, deltaCrc := crc w.deltaCrc }) h :)

/-- Two devices that no access to memory tells apart. -/
structure Alike (d e : Dev) : Prop where
  mem : d.mem = e.mem
  sow : d.sow.stream = e.sow.stream
  nv : d.nv = e.nv
  kept : ∀ k, memoryReads k → mfind k d.fields = mfind k e.fields

namespace Alike

variable {d e t : Dev}

theorem refl (d : Dev) : Alike d d := ⟨rfl, rfl, rfl, fun _ _ => rfl⟩
theorem symm (h : Alike d e) : Alike e d := ⟨h.mem.symm, h.sow.symm, h.nv.symm, fun k hk => (h.kept k hk).symm⟩
theorem trans (h : Alike d e) (g : Alike e t) : Alike d t :=
  ⟨h.mem.trans g.mem, h.sow.trans g.sow, h.nv.trans g.nv, fun k hk => (h.kept k hk).trans (g.kept k hk)⟩

theorem of_noise (h : Noise d e) : Alike d e :=
  ⟨h.reports.mem.symm, by rw [h.reports.sow], h.reports.nv.symm, fun k hk => (h.kept k (memoryReads_quiet hk).1).symm⟩

/-- Both devices take a step that memory does not see. -/
theorem step {d' e' : Dev} (h : Alike d e) (hd : Alike d d') (he : Alike e e') : Alike d' e' := hd.symm.trans (h.trans he)

theorem noise {d' e' : Dev} (h : Alike d e) (hd : Noise d d') (he : Noise e e') : Alike d' e' := h.step (of_noise hd) (of_noise he)

theorem foldl {α : Type} {f g : Dev → α → Dev} (hf : ∀ {d e} x, Alike d e → Alike (f d x) (g e x)) (xs : List α) (h : Alike d e) :
    Alike (xs.foldl f d) (xs.foldl g e) := by
  induction xs generalizing d e with
  | nil => exact h
  | cons x xs ih => exact ih (hf x h)

/-- What touches no field that an access to memory reads. -/
theorem of_touches {S : Nat → Prop} (h : Touches S d t) (hs : ∀ k, memoryReads k → ¬ S k) (hm : t.mem = d.mem) (hw : t.sow = d.sow)
    (hn : t.nv = d.nv) : Alike d t :=
  ⟨hm.symm, by rw [hw], hn.symm, fun k hk => (h.kept k (memoryReads_quiet hk).1 (hs k hk)).symm⟩

theorem getF (h : Alike d e) {f : Field} {i : Nat} (hf : memoryReads (f.key i)) : d.getF f i = e.getF f i := by
  simp only [Dev.getF, mget, h.kept _ hf]

theorem interleave (h : Alike d e) : d.getF R.MEM_MAP_INTERLEAVE 0 = e.getF R.MEM_MAP_INTERLEAVE 0 := h.getF (.inl rfl)

theorem stackOf (h : Alike d e) (a : Nat) : d.stackOf a = e.stackOf a := by rw [Dev.stackOf, Dev.stackOf, h.interleave]
theorem offsetOf (h : Alike d e) (a : Nat) : d.offsetOf a = e.offsetOf a := by rw [Dev.offsetOf, Dev.offsetOf, h.interleave]

theorem rowLimit (h : Alike d e) (k : Nat) : d.getF R.MEM_RETIRE_CFG_CE_ROW_LIM k = e.getF R.MEM_RETIRE_CFG_CE_ROW_LIM k :=
  h.getF (.inr (.inl ⟨k, rfl⟩))

/-- Both devices take the same flash and memory. -/
theorem setNvMem (h : Alike d e) (n : NonVol) (m : Mem) : Alike { d with nv := n, mem := m } { e with nv := n, mem := m } :=
  ⟨rfl, h.sow, rfl, h.kept⟩

theorem setMem (h : Alike d e) (m : Mem) : Alike { d with mem := m } { e with mem := m } := ⟨rfl, h.sow, h.nv, h.kept⟩

/-- The records of uncorrectable words are not looked at. -/
theorem recordUe (d : Dev) (a source : Nat) : Alike d (d.recordUe a source) :=
  ⟨(Reports.recordUe d a source).mem.symm, by rw [(Reports.recordUe d a source).sow], (Reports.recordUe d a source).nv.symm,
    fun k hk => ((MemOnly.recordUe d a source).touches.kept k (memoryReads_quiet hk).1 (memoryReads_quiet hk).2).symm⟩

theorem rmwDropped (d : Dev) (a : Nat) : Alike d (d.rmwDropped a) :=
  (recordUe d a 2).trans (of_noise ((Noise.bump _ _ _ (by decide) _).trans (.setErrFull ..)))

theorem poisonRead (d : Dev) (a : Nat) : Alike d (d.poisonRead a) :=
  (recordUe d a 0).trans (of_noise ((Noise.setErrFull ..).trans (.setErrFull ..)))

/-- What shows a row moved onto a spare one. -/
theorem spared (h : Alike d e) (d₀ e₀ : Dev) (k : Nat) :
    Alike (Dev.memHealth d₀ ((d.bump MEM k 6 1).setErrFull MEM k 18 0 2 0) k) (Dev.memHealth e₀ ((e.bump MEM k 6 1).setErrFull MEM k 18 0 2 0) k) :=
  h.noise (((Noise.bump _ _ _ (by decide) _).trans (.setErrFull ..)).trans (.memHealth ..))
    (((Noise.bump _ _ _ (by decide) _).trans (.setErrFull ..)).trans (.memHealth ..))

theorem retireRow (h : Alike d e) (k off : Nat) : Alike (d.retireRow k off) (e.retireRow k off) := by
  have hf : ∀ m : NMap Nat, m.filter (fun x => !(decide (x.2 = 1) && decide (d.stackOf (8 * x.1) = k)
      && decide (rowKey k (d.offsetOf (8 * x.1)) = rowKey k off))) = m.filter (fun x => !(decide (x.2 = 1) && decide (e.stackOf (8 * x.1) = k)
      && decide (rowKey k (e.offsetOf (8 * x.1)) = rowKey k off))) := fun m => by simp only [h.stackOf, h.offsetOf]
  unfold Dev.retireRow
  dsimp only
  rw [h.nv, h.mem, hf]
  split
  · exact h
  · split
    · refine spared ?_ d e k
      exact h.setNvMem _ _
    · refine noise ?_ (.setErr ..) (.setErr ..)
      exact h.setNvMem _ _

theorem ite {a b a' b' : Dev} {p : Prop} [Decidable p] (ha : Alike a a') (hb : Alike b b') :
    Alike (if p then a else b) (if p then a' else b') := by
  split
  · exact ha
  · exact hb

theorem counted (h : Alike d e) (k : Nat) :
    Alike ((d.bump MEM k 2 1).setErr MEM k 3) ((e.bump MEM k 2 1).setErr MEM k 3) :=
  h.noise ((Noise.bump _ _ _ (by decide) _).trans (.setErr ..)) ((Noise.bump _ _ _ (by decide) _).trans (.setErr ..))

/-- The row of a corrected word ages, or is retired. -/
theorem aged (h : Alike d e) (a k off : Nat) : Alike
    (if max 1 (d.getF R.MEM_RETIRE_CFG_CE_ROW_LIM k) ≤ (mput (a / 8) 0 (mget [] d.mem.rowCe (rowKey k off))).length then
        { d with mem := { d.mem with rowCe := mdel (rowKey k off) d.mem.rowCe } }.retireRow k off
      else { d with mem := { d.mem with rowCe := mput (rowKey k off) (mput (a / 8) 0 (mget [] d.mem.rowCe (rowKey k off))) d.mem.rowCe } })
    (if max 1 (e.getF R.MEM_RETIRE_CFG_CE_ROW_LIM k) ≤ (mput (a / 8) 0 (mget [] e.mem.rowCe (rowKey k off))).length then
        { e with mem := { e.mem with rowCe := mdel (rowKey k off) e.mem.rowCe } }.retireRow k off
      else { e with mem := { e.mem with rowCe := mput (rowKey k off) (mput (a / 8) 0 (mget [] e.mem.rowCe (rowKey k off))) e.mem.rowCe } }) := by
  rw [h.rowLimit, h.mem]
  exact ite ((h.setMem _).retireRow k off) (h.setMem _)

theorem correctWord (h : Alike d e) (a : Nat) : Alike (d.correctWord a) (e.correctWord a) := by
  unfold Dev.correctWord Dev.lineValid
  rw [h.mem]
  split
  · exact h
  · dsimp only
    rw [h.stackOf, h.offsetOf]
    exact (h.counted _).aged a _ _

/-- The report of a poisoned word. -/
theorem shown (h : Alike d e) (w source k : Nat) : Alike
    (if source = 1 then (((d.recordUe w source).bump MEM k 3 1).setErrFull MEM k 4 1 0 w).setErrFull MEM k 17 1 0 w
      else (((d.recordUe w source).bump MEM k 3 1).setErrFull MEM k 4 1 0 w).setErrFull MEM k 16 1 0 w)
    (if source = 1 then (((e.recordUe w source).bump MEM k 3 1).setErrFull MEM k 4 1 0 w).setErrFull MEM k 17 1 0 w
      else (((e.recordUe w source).bump MEM k 3 1).setErrFull MEM k 4 1 0 w).setErrFull MEM k 16 1 0 w) := by
  have g : Alike (d.recordUe w source) (e.recordUe w source) := h.step (.recordUe ..) (.recordUe ..)
  exact ite (g.noise (((Noise.bump _ _ _ (by decide) _).trans (.setErrFull ..)).trans (.setErrFull ..))
      (((Noise.bump _ _ _ (by decide) _).trans (.setErrFull ..)).trans (.setErrFull ..)))
    (g.noise (((Noise.bump _ _ _ (by decide) _).trans (.setErrFull ..)).trans (.setErrFull ..))
      (((Noise.bump _ _ _ (by decide) _).trans (.setErrFull ..)).trans (.setErrFull ..)))

theorem poisonWord (h : Alike d e) (a source : Nat) : Alike (d.poisonWord a source) (e.poisonWord a source) := by
  unfold Dev.poisonWord Dev.lineValid
  rw [h.mem]
  split
  · exact h
  · dsimp only
    rw [h.stackOf]
    have g := shown (h.setMem { e.mem with poison := insertSet (a / 8) e.mem.poison }) (a / 8 * 8) source (e.stackOf a)
    have ho := g.offsetOf a
    rw [ho]
    exact g.retireRow _ _

theorem meetWord (h : Alike d e) (w source : Nat) : Alike (d.meetWord w source) (e.meetWord w source) := by
  unfold Dev.meetWord
  rw [h.mem]
  split
  · exact h
  · exact (h.setMem _).correctWord _
  · exact (h.setMem _).poisonWord _ _

theorem meetRange (h : Alike d e) (a n source : Nat) : Alike (d.meetRange a n source) (e.meetRange a n source) := by
  unfold Dev.meetRange Dev.flippedIn
  rw [h.mem]
  exact foldl (fun w g => g.meetWord w source) _ h

theorem writeWord (h : Alike d e) (a : Nat) (bs : List Byte) : Alike (d.writeWord a bs) (e.writeWord a bs) := by
  have g : Alike (if bs.length < 8 then d.meetWord (a / 8) 2 else d) (if bs.length < 8 then e.meetWord (a / 8) 2 else e) :=
    ite (h.meetWord _ _) h
  unfold Dev.writeWord
  dsimp only
  generalize (if bs.length < 8 then d.meetWord (a / 8) 2 else d) = d' at g ⊢
  generalize (if bs.length < 8 then e.meetWord (a / 8) 2 else e) = e' at g ⊢
  rw [g.mem]
  exact ite (g.step (.rmwDropped ..) (.rmwDropped ..)) (g.setMem _)

theorem setSow (h : Alike d e) {w v : Sow} (hw : w.stream = v.stream) : Alike { d with sow := w } { e with sow := v } := ⟨h.mem, hw, h.nv, h.kept⟩

theorem items (h : Alike d e) : d.sow.items = e.sow.items := (congrArg Sow.items h.sow :)

theorem captures (h : Alike d e) : d.captures = e.captures := by
  simp only [Dev.captures, h.getF (f := R.SOW_PAIR_STATUS_STATE) (i := 0) (.inr (.inr (.inl rfl)))]

theorem openStep (h : Alike d e) : d.step = e.step := h.getF (.inr (.inr (.inr rfl)))

theorem queueDelta (h : Alike d e) (off : Nat) (line : List Byte) : Alike (d.queueDelta off line) (e.queueDelta off line) := by
  unfold Dev.queueDelta
  rw [h.openStep]
  exact h.setSow (Sow.stream_queued h.sow (.delta e.step off line) fun crc => crc64Run crc (leBytes 8 off ++ line))

theorem bytes (h : Alike d e) (a n : Nat) : d.bytes a n = e.bytes a n := by rw [Dev.bytes, Dev.bytes, h.mem]

theorem capture (h : Alike d e) (line : Nat) : Alike (d.capture line) (e.capture line) := by
  have index : itemIndex (line * 64) 0 d.sow.items = itemIndex (line * 64) 0 e.sow.items := by rw [h.items]
  have offset : itemOffset (line * 64) d.sow.items = itemOffset (line * 64) e.sow.items := by rw [h.items]
  unfold Dev.capture
  rw [index]
  split
  next k _ =>
    have g : Alike { d with sow := { d.sow with touched := insertSet k d.sow.touched } } { e with sow := { e.sow with touched := insertSet k e.sow.touched } } :=
      h.setSow (congrArg (fun w : Sow => { w with touched := insertSet k w.touched }) h.sow :)
    dsimp only
    rw [g.captures, g.bytes, offset]
    exact ite (g.queueDelta _ _) g
  next => exact h

theorem counts (h : Alike d e) {k : Nat} (hk : k < 8) (a n : Nat) :
    Alike (d.bump MEM (d.stackOf a) k n) (e.bump MEM (e.stackOf a) k n) := h.noise (.bump _ _ _ hk _) (.bump _ _ _ hk _)

theorem writeLine (h : Alike d e) (cap : Bool) (a : Nat) (bs : List Byte) : Alike (d.writeLine cap a bs) (e.writeLine cap a bs) := by
  have g : Alike ((pieces 8 9 a bs).foldl (fun d p => d.writeWord p.1 p.2) { d with mem := { d.mem with valid := insertSet (a / 64) d.mem.valid } })
      ((pieces 8 9 a bs).foldl (fun d p => d.writeWord p.1 p.2) { e with mem := { e.mem with valid := insertSet (a / 64) e.mem.valid } }) := by
    rw [h.mem]
    refine foldl (fun p g => g.writeWord p.1 p.2) _ ?_
    exact h.setMem _
  unfold Dev.writeLine
  dsimp only
  have b := g.counts (k := 1) (by decide) a bs.length
  exact ite (b.capture _) b

theorem write (h : Alike d e) (a : Nat) (bs : List Byte) : Alike (d.write a bs) (e.write a bs) :=
  foldl (fun p g => g.writeLine true p.1 p.2) _ h

theorem writeRaw (h : Alike d e) (a : Nat) (bs : List Byte) : Alike (d.writeRaw a bs) (e.writeRaw a bs) :=
  foldl (fun p g => g.writeLine false p.1 p.2) _ h

theorem poisonIn (h : Alike d e) (a n : Nat) : d.poisonIn a n = e.poisonIn a n := by
  simp only [Dev.poisonIn, Dev.poisonedIn, Dev.flippedIn, h.mem]

theorem stakedAdd (h : Alike d e) (width a q : Nat) : Alike (d.stakedAdd width a q) (e.stakedAdd width a q) := by
  have g := h.meetRange a (width / 8) 2
  unfold Dev.stakedAdd
  dsimp only
  rw [g.poisonIn]
  split
  · exact g.step (.rmwDropped ..) (.rmwDropped ..)
  · have b := g.counts (k := 5) (by decide) a 1
    unfold Dev.nat
    rw [b.mem]
    exact b.write _ _

end Alike

end Sys2Proof.Machine
end

