-- ==== Sys2Proof/Proofs/Ports.lean ====
section
/-! The ports: where the last completions of a reset port go. -/

namespace Sys2Proof

open Machine

/-- What an answer says holds of the device that the command makes. -/
theorem Answers.made {i : Instr} {s : State} {post : Dev → Prop} (h : Answers i s post) {t : State} (he : exec i s = .next t) :
    post t.dev := by
  obtain ⟨t', he', -, -, hp⟩ := h
  exact Host.Outcome.next.inj (he'.symm.trans he) ▸ hp

theorem exec_pciePortReset {s : State} {port : Nat} (hu : s.dev.up = true) (hp : port < 2) :
    exec (.pciePortReset port) s = .next { s with dev := (s.dev.resetPortPage port).dropRings port } := by
  show execPciePortReset port s = _
  rw [execPciePortReset, State.onDev_up hu, if_neg (Nat.not_le.mpr hp)]

/-- A device in service whose list of rings names one ring of port A twice. -/
def twiceListedRing : State :=
  { State.reset with dev := { State.reset.dev with pci := { State.reset.dev.pci with
      rings := [(ringKey 0 1, { Ring.reset with enabled := true, cqBase := 64 }), (ringKey 0 1, { Ring.reset with enabled := true })] } } }

/-- Refutes O59: of a ring that is listed twice the first entry is in force, but the port reset keeps the last one for the
completions still to come, whose base is another. -/
theorem not_portsServeTheHost : ¬ Obligations.PortsServeTheHost := by
  unfold Obligations.PortsServeTheHost
  intro h
  obtain ⟨-, -, -, -, -, -, -, -, -, -, -, -, -, reset⟩ := h twiceListedRing 0 0 0 0 0 0 0 0 0 false [] (by decide) (by decide)
  obtain ⟨-, rings, -⟩ := reset.made (exec_pciePortReset (by decide) (by decide))
  exact absurd ((rings 1 (by decide)).2 (by decide)) (by decide)

end Sys2Proof
end

