-- ==== Sys2Proof/Proofs/Stacks.lean ====
section
/-! Stacked memory: its map, its sweep and its channels. -/

namespace Sys2Proof

open Machine

/-- A register command of an accepted writer. -/
theorem Answers.of_byWriter {c : Instr} {s : State} {w : Writer} {post : Dev → Prop} (h : Writes s w) (f : Dev → Dev)
    (he : exec c s = s.byWriter w f) (hp : post (f s.dev)) : Answers c s post :=
  .of_onDev f (he.trans (if_pos h.2)) h.1 hp

/-- A check of the event ring can switch it off, with a report. -/
theorem Machine.Dev.checkRing_spec (d : Dev) : Touches (homes [(R.NUM_RING_CFG_EN, 0)]) d d.checkRing ∧ d.checkRing.mem = d.mem := by
  unfold Dev.checkRing
  split
  · have off : Touches (homes [(R.NUM_RING_CFG_EN, 0)]) d (d.setF R.NUM_RING_CFG_EN 0 0) :=
      .setF d ⟨(R.NUM_RING_CFG_EN, 0), List.mem_singleton.mpr rfl, rfl⟩ (by decide) 0
    have shown := (Noise.setErr ((d.setF R.NUM_RING_CFG_EN 0 0).setAct R.NUM_RING_CFG_EN 0 0) NUM 0 17).touches (homes [(R.NUM_RING_CFG_EN, 0)])
    exact ⟨off.trans (shown.before (Dev.setAct_fields ..)), (Reports.setErr ..).mem⟩
  · exact ⟨.refl .., rfl⟩

/-- Settles O42, register by register. -/
theorem memoryMapIsGuarded : Obligations.MemoryMapIsGuarded := by
  unfold Obligations.MemoryMapIsGuarded
  intro s w v m c offset hw
  refine ⟨fun ho hv hn => ?_, fun ho => ?_, fun ho hv hn => ?_, fun ho hm hc hs => ?_, fun ho hm hc hs => ?_, fun ho hoff => ?_⟩
  · refine .of_byWriter hw _ (Eq.refl (execMemMapWrite ..)) ?_
    have e : v % 4 = v := Nat.mod_eq_of_lt (by omega)
    dsimp only
    rw [e, if_neg (by simp [ho]), if_neg (by omega), if_neg hn]
    exact ⟨Dev.getF_setF_of_lt _ (by simp [R.MEM_MAP_INTERLEAVE]; omega) 0, rfl, rfl, rfl, rfl⟩
  · refine .of_byWriter hw _ (Eq.refl (execMemMapWrite ..)) ?_
    dsimp only
    rw [if_neg (by simp [ho]), if_pos rfl]
    exact ⟨(Noise.setErr ..).getF (by decide) (by decide), Noise.errBit_setErr _ _ _ (by decide), (Reports.setErr ..).mem⟩
  · refine .of_byWriter hw _ (Eq.refl (execMemMapWrite ..)) ?_
    have e : v % 4 = v := Nat.mod_eq_of_lt (by omega)
    dsimp only
    rw [e, if_pos ho, if_neg hn]
    exact ⟨(Noise.lockedWrite ..).getF (by decide) (by decide), Noise.errBit_lockedWrite .., (Reports.lockedWrite ..).mem⟩
  · refine .of_byWriter hw _ (Eq.refl (execMemRegionsWrite ..)) ?_
    have em : m % 512 = m := Nat.mod_eq_of_lt hm
    have ec : c % 512 = c := Nat.mod_eq_of_lt hc
    dsimp only
    rw [em, ec, if_neg (by simp [ho]), if_neg (by omega)]
    obtain ⟨ht, hmem⟩ := Dev.checkRing_spec ((s.dev.setF R.MEM_REGIONS_MIRROR_GIB 0 m).setF R.MEM_REGIONS_CACHE_GIB 0 c)
    have mirror : Dev.getF _ R.MEM_REGIONS_MIRROR_GIB 0 = m := (ht.getF (by decide) (by decide) (not_homes (by decide) _)).trans
      ((Dev.getF_setF_place (by decide) ..).trans (Dev.getF_setF_of_lt _ (by simp [R.MEM_REGIONS_MIRROR_GIB]; omega) 0))
    have cache : Dev.getF _ R.MEM_REGIONS_CACHE_GIB 0 = c := (ht.getF (by decide) (by decide) (not_homes (by decide) _)).trans
      (Dev.getF_setF_of_lt _ (by simp [R.MEM_REGIONS_CACHE_GIB]; omega) 0)
    refine ⟨mirror, cache, ?_, ?_, hmem⟩
    · rw [Dev.mirrorBase, mirror]
      simp only [logBase]
      omega
    · rw [Dev.cacheBase, Dev.mirrorBase, mirror, cache]
      simp only [logBase]
      omega
  · refine .of_byWriter hw _ (Eq.refl (execMemRegionsWrite ..)) ?_
    have em : m % 512 = m := Nat.mod_eq_of_lt hm
    have ec : c % 512 = c := Nat.mod_eq_of_lt hc
    dsimp only
    rw [em, ec, if_neg (by simp [ho]), if_pos hs]
    exact ⟨(Noise.setErr ..).getF (by decide) (by decide), (Noise.setErr ..).getF (by decide) (by decide),
      Noise.errBit_setErr _ _ _ (by decide)⟩
  · have target : ∀ (d : Dev), (if offset = 0x94 then d.setF R.MEM_SPILL_BASE_LO_ADDR_LO 0 (v / 2 ^ 16)
        else if offset = 0x98 then d.setF R.MEM_SPILL_BASE_HI_ADDR_HI 0 v
        else if offset = 0x9C then d.setF R.MEM_SPILL_SIZE_MIB 0 v else d) =
        (if offset = 0x94 then d.setF R.MEM_SPILL_BASE_LO_ADDR_LO 0 (v / 2 ^ 16)
        else if offset = 0x98 then d.setF R.MEM_SPILL_BASE_HI_ADDR_HI 0 v else d.setF R.MEM_SPILL_SIZE_MIB 0 v) := by
      intro d
      simp only [List.mem_cons, List.not_mem_nil, or_false] at hoff
      split
      · rfl
      · split
        · rfl
        · rw [if_pos (by omega)]
    refine ⟨fun h => .of_byWriter hw _ (Eq.refl (execMemSpillWrite ..)) ?_, fun h => .of_byWriter hw _ (Eq.refl (execMemSpillWrite ..)) ?_⟩
    · dsimp only
      rw [target, if_neg (by simp [ho]), if_pos h]
    · dsimp only
      rw [target, if_neg (by simp [ho]), if_neg (ne_true_of_eq_false h)]
      refine ⟨?_, ?_, Noise.errBit_setErr _ _ _ (by decide)⟩
      · simp only [Dev.spillBase, Dev.mapRefused, (Noise.setErr s.dev MEM 0 23).getF (f := R.MEM_SPILL_BASE_LO_ADDR_LO) (by decide) (i := 0) (by decide),
          (Noise.setErr s.dev MEM 0 23).getF (f := R.MEM_SPILL_BASE_HI_ADDR_HI) (by decide) (i := 0) (by decide)]
      · simp only [Dev.spillSize, Dev.mapRefused, (Noise.setErr s.dev MEM 0 23).getF (f := R.MEM_SPILL_SIZE_MIB) (by decide) (i := 0) (by decide)]


/-! ### Accesses that change no byte -/

/-- The bytes and the valid lines of memory stay. -/
def Machine.SameBytes (d t : Dev) : Prop := t.mem.bytes = d.mem.bytes ∧ t.mem.valid = d.mem.valid

namespace Machine.SameBytes

variable {d e t : Dev}

theorem refl (d : Dev) : SameBytes d d := ⟨rfl, rfl⟩
theorem trans (h : SameBytes d e) (g : SameBytes e t) : SameBytes d t := ⟨g.1.trans h.1, g.2.trans h.2⟩
theorem of_mem (h : t.mem = d.mem) : SameBytes d t := by rw [SameBytes, h]; exact ⟨rfl, rfl⟩
theorem of_reports (h : Reports d t) : SameBytes d t := of_mem h.mem

theorem foldl {α : Type} {f : Dev → α → Dev} (h : ∀ e x, SameBytes e (f e x)) (xs : List α) (d : Dev) : SameBytes d (xs.foldl f d) := by
  induction xs generalizing d with
  | nil => exact refl d
  | cons x xs ih => exact (h d x).trans (ih _)

theorem retireRow (d : Dev) (k off : Nat) : SameBytes d (d.retireRow k off) := by
  unfold Dev.retireRow
  dsimp only
  split
  · exact refl d
  · split
    · rw [SameBytes, (Reports.memHealth ..).mem, (Reports.setErrFull ..).mem, (Reports.bump ..).mem]
      exact ⟨rfl, rfl⟩
    · exact of_mem (Reports.setErr ..).mem

theorem correctWord (d : Dev) (a : Nat) : SameBytes d (d.correctWord a) := by
  unfold Dev.correctWord
  split
  · exact refl d
  · extract_lets k off e row words lim
    have h : SameBytes d e := of_reports ((Reports.bump ..).trans (Reports.setErr ..))
    refine h.trans ?_
    clear_value e
    split
    · exact trans (e := { e with mem := { e.mem with rowCe := mdel row e.mem.rowCe } }) ⟨rfl, rfl⟩ (retireRow ..)
    · exact ⟨rfl, rfl⟩

theorem poisonWord (d : Dev) (a source : Nat) : SameBytes d (d.poisonWord a source) := by
  unfold Dev.poisonWord
  split
  · exact refl d
  · extract_lets k w m e₁ e₂ e₃
    have h₁ : SameBytes d e₁ := ⟨rfl, rfl⟩
    have h₂ : SameBytes e₁ e₂ := of_reports ((Reports.recordUe ..).trans (Reports.bump ..))
    have h₃ : SameBytes e₂ e₃ := of_reports (.ite ((Reports.setErrFull ..).trans (Reports.setErrFull ..))
      ((Reports.setErrFull ..).trans (Reports.setErrFull ..)))
    exact ((h₁.trans h₂).trans h₃).trans (retireRow ..)

theorem meetWord (d : Dev) (w source : Nat) : SameBytes d (d.meetWord w source) := by
  have del : SameBytes d { d with mem := { d.mem with flips := mdel w d.mem.flips } } := ⟨rfl, rfl⟩
  unfold Dev.meetWord
  split
  · exact refl d
  · exact del.trans (correctWord ..)
  · exact del.trans (poisonWord ..)

theorem meetRange (d : Dev) (a n source : Nat) : SameBytes d (d.meetRange a n source) := foldl (fun e w => meetWord e w source) _ d

theorem noteRead (d : Dev) (a n : Nat) : SameBytes d (d.noteRead a n) :=
  ((foldl (fun _ _ => of_reports (Reports.bump ..)) _ d).trans (meetRange ..)).trans (foldl (fun _ _ => of_reports (Reports.poisonRead ..)) _ _)

end Machine.SameBytes

namespace Machine

theorem Dev.stackOf_lt (d : Dev) {a : Nat} (h : a < memTop) : d.stackOf a < 8 := by
  unfold Dev.stackOf stackIn
  simp only [memTop] at h
  split
  · exact Nat.mod_lt _ (by decide)
  · exact Nat.mod_lt _ (by decide)
  · omega

/-- The words of a line lie on the stack of the line. -/
theorem Dev.stackOf_word (d : Dev) {line w : Nat} (h : touches (line * 64) 64 w = true) : d.stackOf (w * 8) = d.stackOf (line * 64) := by
  simp only [touches, Bool.and_eq_true, decide_eq_true_eq] at h
  unfold Dev.stackOf stackIn bitsOf
  split <;> omega

theorem Dev.takeFlips_none (d : Dev) (a n : Nat) : d.takeFlips a n ⟨[], []⟩ = d := rfl

/-- What the sweep reports of an uncorrectable word (R296, R301). -/
def Dev.scrubReport (d : Dev) (w : Nat) : Dev :=
  ((d.recordUe (w * 8) 1).setErrFull MEM (d.stackOf (w * 8)) 4 1 0 (w * 8)).setErrFull MEM (d.stackOf (w * 8)) 17 1 0 (w * 8)

theorem Dev.scrubLine_eq (d : Dev) (line : Nat) :
    d.scrubLine line = (d.poisonedIn (line * 64) 64).foldl Dev.scrubReport (d.meetRange (line * 64) 64 1) := rfl

theorem MemOnly.scrubReport (d : Dev) (w : Nat) : MemOnly d (d.scrubReport w) :=
  (recordUe ..).trans (of_noise ((Noise.setErrFull ..).trans (.setErrFull ..)))

theorem SameBytes.scrubReport (d : Dev) (w : Nat) : SameBytes d (d.scrubReport w) :=
  of_reports ((Reports.recordUe ..).trans ((Reports.setErrFull ..).trans (.setErrFull ..)))

theorem MemOnly.stackOf {d t : Dev} (h : MemOnly d t) (a : Nat) : t.stackOf a = d.stackOf a := by
  rw [Dev.stackOf, Dev.stackOf, h.getF (by decide) (by decide) (by decide)]

/-- A poisoned word of a line that the sweep reads shows on its stack. -/
theorem Dev.scrubLine_shows (d : Dev) {line : Nat} (h : d.poisonedIn (line * 64) 64 ≠ []) :
    (d.scrubLine line).errBit MEM (d.stackOf (line * 64)) 17 = true := by
  have reported : ∀ (ws : List Nat) (e : Dev), MemOnly d e → (∀ w ∈ ws, touches (line * 64) 64 w = true) →
      (ws ≠ [] ∨ e.errBit MEM (d.stackOf (line * 64)) 17 = true) →
      (ws.foldl Dev.scrubReport e).errBit MEM (d.stackOf (line * 64)) 17 = true := by
    intro ws
    induction ws with
    | nil => exact fun e _ _ h => h.resolve_left (fun h => h rfl)
    | cons w ws ih =>
      intro e he hw _
      refine ih _ (he.trans (.scrubReport ..)) (fun x hx => hw x (.tail _ hx)) (.inr ?_)
      rw [← Dev.stackOf_word d (hw w (.head _)), ← he.stackOf]
      exact Noise.errBit_setErrFull _ MEM _ (by decide) ..
  rw [Dev.scrubLine_eq]
  exact reported _ _ (.meetRange ..) (fun w hw => List.of_mem_filter hw) (.inl h)

/-- A line without a wrong bit or a poisoned word is left as it is. -/
theorem Dev.scrubLine_clean (d : Dev) {line : Nat} (hp : d.poisonedIn (line * 64) 64 = []) (hf : d.flippedIn (line * 64) 64 = []) :
    d.scrubLine line = d := by
  rw [Dev.scrubLine_eq, hp, Dev.meetRange, hf]
  rfl

end Machine


/-! ### The sweep, recalibrations and uncorrectable words -/

/-- What the sweep sets before it looks at its line. -/
def Machine.Dev.sweepTo (d : Dev) (line : Nat) : Dev :=
  let k := d.stackOf (line * 64)
  let off := d.offsetOf (line * 64)
  let d := d.setF R.MEM_SCRUB_STATUS_PROGRESS k (off * 256 / 0xC00000000)
  { d with mem := { d.mem with sweep := mput k (off + 64) d.mem.sweep } }

/-- The sweep reads its stack's next line without new wrong bits. -/
theorem Answers.of_scrub {s : State} {line : Nat} {post : Dev → Prop} (hu : s.dev.up = true) (hl : line * 64 < memTop)
    (hn : s.dev.nextScrub (s.dev.stackOf (line * 64)) = some line)
    (hp : post (((s.dev.sweepTo line).scrubLine line).bump MEM (s.dev.stackOf (line * 64)) 4 1)) :
    Answers (.patrolScrubLine line ⟨[], []⟩) s post := by
  refine .of_onDev _ (Eq.refl (execPatrolScrubLine ..)) hu ?_
  dsimp only
  rw [if_neg (by rintro (h | h); exacts [absurd hl (Nat.not_lt.mpr h), h hn])]
  exact hp

theorem patrolScrub (s : State) (line : Nat) (hu : s.dev.up = true) (hl : line * 64 < memTop)
    (hn : s.dev.nextScrub (s.dev.stackOf (line * 64)) = some line) :
    (s.dev.poisonedIn (line * 64) 64 = [] → s.dev.flippedIn (line * 64) 64 = [] →
      Answers (.patrolScrubLine line ⟨[], []⟩) s fun t =>
        t.mem = { s.dev.mem with sweep := mput (s.dev.stackOf (line * 64)) (s.dev.offsetOf (line * 64) + 64) s.dev.mem.sweep }
          ∧ t = { s.dev with fields := t.fields, mem := t.mem }
          ∧ t.getF R.MEM_SCRUB_STATUS_PROGRESS (s.dev.stackOf (line * 64)) = s.dev.offsetOf (line * 64) * 256 / 0xC00000000 % 256)
    ∧ (s.dev.poisonedIn (line * 64) 64 ≠ [] → Answers (.patrolScrubLine line ⟨[], []⟩) s fun t =>
        t.errBit MEM (s.dev.stackOf (line * 64)) 17 = true ∧ t.mem.bytes = s.dev.mem.bytes ∧ t.cells = s.dev.cells) := by
  have hk := s.dev.stackOf_lt hl
  refine ⟨fun hp hf => .of_scrub hu hl hn ?_, fun hp => .of_scrub hu hl hn ?_⟩
  · rw [Dev.scrubLine_clean (s.dev.sweepTo line) hp hf]
    refine ⟨rfl, rfl, ((Noise.bump _ _ _ (by decide) _).getF (by decide) (by omega)).trans ?_⟩
    exact Dev.getF_setF_same ..
  · have same : (s.dev.sweepTo line).stackOf (line * 64) = s.dev.stackOf (line * 64) := by
      rw [Dev.stackOf, Dev.stackOf, show (s.dev.sweepTo line).getF R.MEM_MAP_INTERLEAVE 0 = s.dev.getF R.MEM_MAP_INTERLEAVE 0 from
        Dev.getF_setF_place (by decide) ..]
    have swept : MemOnly (s.dev.sweepTo line) ((s.dev.sweepTo line).scrubLine line) :=
      (MemOnly.meetRange ..).trans (.foldl MemOnly.scrubReport _ _)
    have bytes : SameBytes (s.dev.sweepTo line) ((s.dev.sweepTo line).scrubLine line) :=
      (SameBytes.meetRange ..).trans (.foldl SameBytes.scrubReport _ _)
    exact ⟨(Noise.bump _ _ _ (by decide) _).errs _ _ _ (by decide) (same ▸ Dev.scrubLine_shows (s.dev.sweepTo line) hp), bytes.1, swept.cells⟩


namespace Machine

/-- A bit that is set in a field that holds it. -/
theorem bitOf_setBit {k w : Nat} (h : k < w) (v : Nat) : bitOf (setBit v k % 2 ^ w) k = true := by
  simp [bitOf, setBit, h, Nat.testBit_mod_two_pow, Nat.testBit_two_pow_self]

theorem bitOf_clearBit (v k : Nat) : bitOf (clearBits v (2 ^ k)) k = false := by
  rw [bitOf, clearBits, Nat.and_two_pow]
  cases h : v.testBit k with
  | false => simpa using h
  | true =>
    rw [Nat.testBit_eq_decide_div_mod_eq, decide_eq_true_eq] at h
    rw [Nat.testBit_eq_decide_div_mod_eq, decide_eq_false_iff_not]
    simp only [Bool.toNat_true, one_mul]
    have : (v - 2 ^ k) / 2 ^ k = v / 2 ^ k - 1 := by simpa using Nat.sub_mul_div v (2 ^ k) 1
    omega

theorem bitOf_clearBit_mod (v k w : Nat) : bitOf (clearBits v (2 ^ k) % 2 ^ w) k = false := by
  have h := bitOf_clearBit v k
  rw [bitOf] at h ⊢
  rw [Nat.testBit_mod_two_pow, h, Bool.and_false]

end Machine

/-- The sweep period that an hour's corrected words ask for (R302). -/
def Machine.Dev.askedPeriod (d : Dev) (k corrected : Nat) : Nat :=
  let p := d.getF R.MEM_SCRUB_STATUS_PERIOD k
  let lo := max 15 (d.getF R.MEM_SCRUB_BOUNDS_MIN_PERIOD k)
  let hi := max lo (d.getF R.MEM_SCRUB_BOUNDS_MAX_PERIOD k)
  if d.getF R.MEM_SCRUB_THRESH_CE_HI k < corrected then max (p / 2) lo
    else if corrected < d.getF R.MEM_SCRUB_THRESH_CE_LO k then min (2 * p) hi else p

theorem Answers.of_scrubRate {s : State} {k corrected : Nat} {post : Dev → Prop} (hu : s.dev.up = true) (hk : k < 8)
    (hp : post (if s.dev.askedPeriod k corrected = s.dev.getF R.MEM_SCRUB_STATUS_PERIOD k then s.dev
      else if s.dev.held MEM k then s.dev.policyWithheld MEM k
      else (s.dev.setF R.MEM_SCRUB_STATUS_PERIOD k (s.dev.askedPeriod k corrected)).policyTaken MEM k)) :
    Answers (.scrubRateUpdate k corrected) s post := by
  refine .of_onDev _ (Eq.refl (execScrubRateUpdate ..)) hu ?_
  dsimp only
  rw [if_neg (by omega)]
  exact hp

theorem scrubRate (s : State) (k corrected : Nat) (hu : s.dev.up = true) (hk : k < 8) :
    let per := s.dev.getF R.MEM_SCRUB_STATUS_PERIOD k
    let lo := max 15 (s.dev.getF R.MEM_SCRUB_BOUNDS_MIN_PERIOD k)
    let hi := max lo (s.dev.getF R.MEM_SCRUB_BOUNDS_MAX_PERIOD k)
    (s.dev.held MEM k = false → per < 2 ^ 16 → Answers (.scrubRateUpdate k corrected) s fun t =>
        t.getF R.MEM_SCRUB_STATUS_PERIOD k = (if s.dev.getF R.MEM_SCRUB_THRESH_CE_HI k < corrected then max (per / 2) lo
          else if corrected < s.dev.getF R.MEM_SCRUB_THRESH_CE_LO k then min (2 * per) hi else per) % 2 ^ 16
        ∧ t.mem = s.dev.mem)
    ∧ (s.dev.held MEM k = true → Answers (.scrubRateUpdate k corrected) s fun t =>
        t.getF R.MEM_SCRUB_STATUS_PERIOD k = per ∧ t.mem = s.dev.mem) := by
  intro per lo hi
  refine ⟨fun hh hp => .of_scrubRate hu hk ?_, fun hh => .of_scrubRate hu hk ?_⟩
  · show _ = s.dev.askedPeriod k corrected % 2 ^ 16 ∧ _
    by_cases e : s.dev.askedPeriod k corrected = s.dev.getF R.MEM_SCRUB_STATUS_PERIOD k
    · rw [if_pos e, e]
      exact ⟨(Nat.mod_eq_of_lt hp).symm, rfl⟩
    · rw [if_neg e, if_neg (ne_true_of_eq_false hh)]
      exact ⟨((Noise.policyTaken ..).getF (by decide) (by omega)).trans (Dev.getF_setF_same ..), (Reports.policyTaken ..).mem⟩
  · by_cases e : s.dev.askedPeriod k corrected = s.dev.getF R.MEM_SCRUB_STATUS_PERIOD k
    · rw [if_pos e]
      exact ⟨rfl, rfl⟩
    · rw [if_neg e, if_pos hh]
      exact ⟨(Noise.policyWithheld ..).getF (by decide) (by omega), (Reports.policyWithheld ..).mem⟩

theorem recalibrations (s : State) (w : Writer) (k ch : Nat) (hu : s.dev.up = true) (hk : k < 8) (hc : ch < 16) :
    (s.own.mayWrite w = true → Answers (.recal w k ch) s fun t =>
        bitOf (t.getF R.MEM_CHAN_STATUS_RECAL_BUSY k) ch = true ∧ t.getF R.MEM_CHAN_CTRL_CHANNEL k = ch ∧ t.mem = s.dev.mem)
    ∧ (Answers (.channelMarginRecal k ch) s fun t =>
        bitOf (t.getF R.MEM_CHAN_STATUS_RECAL_BUSY k) ch = true ∧ t = { s.dev with fields := t.fields }) := by
  have started : ∀ d : Dev, d.startRecal k ch = d.setF R.MEM_CHAN_STATUS_RECAL_BUSY k (setBit (d.getF R.MEM_CHAN_STATUS_RECAL_BUSY k) ch) :=
    fun d => if_neg (by omega)
  refine ⟨fun hw => .of_byWriter ⟨hu, hw⟩ _ (Eq.refl (execRecal ..)) ?_, .of_onDev _ (Eq.refl (execChannelMarginRecal ..)) hu ?_⟩
  · dsimp only
    rw [if_neg (by omega), Nat.mod_eq_of_lt hc, started]
    refine ⟨by rw [Dev.getF_setF_same]; exact bitOf_setBit hc _, ?_, rfl⟩
    exact (Dev.getF_setF_place (by decide) ..).trans (Dev.getF_setF_of_lt _ hc k)
  · rw [started]
    exact ⟨by rw [Dev.getF_setF_same]; exact bitOf_setBit hc _, rfl⟩


namespace Machine

/-- A block other than a cell shows the state that it is given. -/
theorem Dev.blk_setBlk_page (d : Dev) {c i v : Nat} (hv : v < 16) (h : c ≠ CEL) :
    (d.setBlk c i v).blk c i = v := by
  by_cases hr : d.blk c i = stRetired
  · by_cases he : v = stRetired
    · rw [Dev.setBlk, if_pos (hr.trans he.symm), hr, he]
    · have live : ∀ e : Dev, e.blk c i = e.getF (R.BLK_STATE_STATE c) i := fun e => by simp [Dev.blk, h]
      have hn : d.blk c i ≠ v := fun e => he (e.symm.trans hr)
      rw [Dev.setBlk, if_neg hn, (Touches.stateFollows _ c i v).blk (state_not_follower c i c i) (StateFrame.stateFollows ..).nv,
        (Noise.irq ..).blk, live, Dev.getF_setF_same]
      exact Nat.mod_eq_of_lt hv
  · exact Dev.blk_setBlk d hv hr

/-- BLK_HEALTH of every page stays. -/
structure HealthKept (d t : Dev) : Prop where
  kept : ∀ k, k / 32 % 4096 = 60 → mfind k t.fields = mfind k d.fields

namespace HealthKept

variable {d e t : Dev}

theorem refl (d : Dev) : HealthKept d d := ⟨fun _ _ => rfl⟩
theorem trans (h : HealthKept d e) (g : HealthKept e t) : HealthKept d t := ⟨fun k hk => (g.kept k hk).trans (h.kept k hk)⟩
theorem of_fields (h : t.fields = d.fields) : HealthKept d t := ⟨fun k _ => by rw [h]⟩

theorem ite {a b : Dev} {p : Prop} [Decidable p] (ha : HealthKept d a) (hb : HealthKept d b) : HealthKept d (if p then a else b) := by
  split
  · exact ha
  · exact hb

theorem setF (d : Dev) {f : Field} (h : f.off ≠ 60) (ho : f.off < 4096) (hl : f.lo < 32) (i v : Nat) : HealthKept d (d.setF f i v) := by
  refine ⟨fun k hk => mfind_mput_other (fun e => ?_) _ _⟩
  rw [e, Field.key] at hk
  omega

theorem bump (d : Dev) (c i : Nat) {k : Nat} (hk : k < 8) (n : Nat) : HealthKept d (d.bump c i k n) := by
  have h : 64 + 8 * k < 128 := by omega
  exact setF d (f := R.COUNTER c k) (show 64 + 8 * k ≠ 60 by omega) (show 64 + 8 * k < 4096 by omega) (Nat.zero_lt_succ _) i _

theorem irq (d : Dev) (c i b : Nat) : HealthKept d (d.irq c i b) := by
  have h : HealthKept d (d.setF (R.BLK_IRQ_PEND c) i (setBit (d.getF (R.BLK_IRQ_PEND c) i) b)) :=
    setF d (by simp [R.BLK_IRQ_PEND]) (by simp [R.BLK_IRQ_PEND]) (by simp [R.BLK_IRQ_PEND]) i _
  exact ite (h.trans (of_fields rfl)) h

theorem flagErr (d : Dev) (c i b : Nat) : HealthKept d (d.flagErr c i b) := by
  have h : HealthKept d (d.setF (R.BLK_ERR c) i (setBit (d.getF (R.BLK_ERR c) i) b)) :=
    setF d (by simp [R.BLK_ERR]) (by simp [R.BLK_ERR]) (by simp [R.BLK_ERR]) i _
  exact ite h (ite ((h.trans (irq ..)).trans (irq ..)) (h.trans (irq ..)))

theorem log (d : Dev) (es : List RasEntry) : HealthKept d { d with rasLog := es } := of_fields rfl

theorem rasAppend (d : Dev) (w a : Nat) : HealthKept d (d.rasAppend w a) := by
  have sev : bitsOf w 29 2 < 4 := Nat.mod_lt _ (by decide)
  unfold Dev.rasAppend
  split
  · exact (log d _).trans (bump _ _ _ (by omega) _)
  · exact (setF d (by decide) (by decide) (by decide) _ _).trans (bump _ _ _ (by decide) _)

theorem rasNote (d : Dev) (c i b sev act addr : Nat) : HealthKept d (d.rasNote c i b sev act addr) := by
  unfold Dev.rasNote
  refine trans (trans (setF d (f := R.RAS_SUMMARY_CLASSES) (by decide) (by decide) (by decide) 0 _) (ite (refl _) ?_)) (rasAppend ..)
  exact (setF _ (f := R.RAS_FIRST_LO_ENTRY) (by decide) (by decide) (by decide) 0 _).trans
    (setF _ (f := R.RAS_FIRST_HI_STEP) (by decide) (by decide) (by decide) 0 _)

theorem setErrOnce (d : Dev) (c i b sev act addr : Nat) : HealthKept d (d.setErrOnce c i b sev act addr) :=
  ite (refl d) (ite (flagErr ..) ((flagErr ..).trans (rasNote ..)))

theorem setErrFull (d : Dev) (c i b sev act addr : Nat) : HealthKept d (d.setErrFull c i b sev act addr) := by
  unfold Dev.setErrFull
  extract_lets e
  refine trans (e := e) (ite (bump _ _ _ (by decide) _) (refl d)) ?_
  clear_value e
  exact ite (setErrOnce ..) ((setErrOnce ..).trans
    (trans (ite (setErrOnce ..) (refl _)) (ite (setErrOnce ..) (refl _))))

theorem getF (h : HealthKept d t) (c i : Nat) : t.getF (R.BLK_HEALTH_REPLACE_REQ c) i = d.getF (R.BLK_HEALTH_REPLACE_REQ c) i := by
  have off : (R.BLK_HEALTH_REPLACE_REQ c).key i / 32 % 4096 = 60 := by
    simp only [Field.key, R.BLK_HEALTH_REPLACE_REQ]
    omega
  simp only [Dev.getF, mget, h.kept _ off]

theorem setReturned (d : Dev) (c i : Nat) (v : Bool) : HealthKept d (d.setReturned c i v) := of_fields rfl

/-- The GLB block shows FAILED (R44). -/
theorem failGlb (d : Dev) (sev : Nat) : HealthKept d (d.failBlock GLB 0 sev) := by
  refine trans ?_ (setErrFull ..)
  unfold Dev.setBlk
  refine ite (refl d) ?_
  have state : ∀ e : Dev, HealthKept e (e.setF (R.BLK_STATE_STATE GLB) 0 stFailed) := fun e => setF e (by decide) (by decide) (by decide) 0 _
  have follows : ∀ e : Dev, HealthKept e (e.stateFollows GLB 0 stFailed) := fun e => irq e GLB 0 4
  exact (((setReturned ..).trans (state _)).trans (irq ..)).trans (follows _)

end HealthKept

/-- REPLACE_REQ of a page, with its reason (R491). -/
def Dev.askReplace (d : Dev) (c i reason : Nat) : Dev :=
  let d' := d.setF (R.BLK_HEALTH_REPLACE_REQ c) i 1
  let d' := if d.getF (R.BLK_HEALTH_REASON c) i = 0 then d'.setF (R.BLK_HEALTH_REASON c) i reason else d'
  if d.getF (R.BLK_HEALTH_REPLACE_REQ c) i = 1 then d' else d'.irq c i 4

/-- What the RAS block shows of a replacement asked for. -/
def Dev.noteReplace (d : Dev) (rs reason : Nat) : Dev :=
  let d := d.setF R.RAS_REPLACE_REASONS 0 (setBit rs (reason - 1))
  let d := if d.getF R.RAS_REPLACE_FIRST 0 = 0 then d.setF R.RAS_REPLACE_FIRST 0 reason else d
  (d.bump RAS 0 7 1).setErr RAS 0 18

theorem Dev.raiseReplace_eq (d : Dev) (c i reason : Nat) : d.raiseReplace c i reason =
    if bitOf (d.getF R.RAS_REPLACE_REASONS 0) (reason - 1) && decide (d.getF (R.BLK_HEALTH_REPLACE_REQ c) i = 1) then d
    else ((d.askReplace c i reason).askReplace GLB 0 reason).noteReplace (d.getF R.RAS_REPLACE_REASONS 0) reason := rfl

theorem HealthKept.noteReplace (d : Dev) (rs reason : Nat) : HealthKept d (d.noteReplace rs reason) := by
  unfold Dev.noteReplace
  refine trans (trans ?_ (bump _ _ _ (by decide) _)) (setErrFull ..)
  exact (setF d (f := R.RAS_REPLACE_REASONS) (by decide) (by decide) (by decide) 0 _).trans
    (ite (setF _ (f := R.RAS_REPLACE_FIRST) (by decide) (by decide) (by decide) 0 _) (refl _))

/-- The request of a page, before and after that of another or of the same one. -/
theorem Dev.askReplace_asks (d : Dev) (c i c' i' reason : Nat) (h : d.getF (R.BLK_HEALTH_REPLACE_REQ c) i = 1 ∨ (c' = c ∧ i' = i)) :
    (d.askReplace c' i' reason).getF (R.BLK_HEALTH_REPLACE_REQ c) i = 1 := by
  have set : (d.setF (R.BLK_HEALTH_REPLACE_REQ c') i' 1).getF (R.BLK_HEALTH_REPLACE_REQ c) i = 1 := by
    rw [Dev.getF_setF]
    split
    · rfl
    · next hn => exact h.resolve_right (by rintro ⟨rfl, rfl⟩; exact hn rfl)
  have why : (if d.getF (R.BLK_HEALTH_REASON c') i' = 0 then (d.setF (R.BLK_HEALTH_REPLACE_REQ c') i' 1).setF (R.BLK_HEALTH_REASON c') i' reason
      else d.setF (R.BLK_HEALTH_REPLACE_REQ c') i' 1).getF (R.BLK_HEALTH_REPLACE_REQ c) i = 1 := by
    split
    · rw [Dev.getF_setF_place (by simp [Field.place, R.BLK_HEALTH_REPLACE_REQ, R.BLK_HEALTH_REASON]), set]
    · exact set
  unfold Dev.askReplace
  dsimp only
  split
  · exact why
  · exact ((HealthKept.irq ..).getF c i).trans why

/-- A page that asks for a replacement shows it (R491). -/
theorem Dev.raiseReplace_asks (d : Dev) (c i reason : Nat) : (d.raiseReplace c i reason).getF (R.BLK_HEALTH_REPLACE_REQ c) i = 1 := by
  rw [Dev.raiseReplace_eq]
  split
  next h => exact of_decide_eq_true (Bool.and_eq_true_iff.mp h).2
  next => exact ((HealthKept.noteReplace ..).getF c i).trans (Dev.askReplace_asks _ c i GLB 0 reason (.inl (Dev.askReplace_asks d c i c i reason (.inr ⟨rfl, rfl⟩))))

end Machine


theorem recalibrationEnds (s : State) (k ch : Nat) (hu : s.dev.up = true) (hk : k < 8)
    (hb : bitOf (s.dev.getF R.MEM_CHAN_STATUS_RECAL_BUSY k) ch = true) :
    (Answers (.channelRecalComplete k ch true) s fun t =>
        bitOf (t.getF R.MEM_CHAN_STATUS_RECAL_BUSY k) ch = false ∧ t.nv = s.dev.nv ∧ t.mem.bytes = s.dev.mem.bytes)
    ∧ (mget 0 s.dev.mem.recalFails (k * 16 + ch) = 0 → Answers (.channelRecalComplete k ch false) s fun t =>
        t.nv = s.dev.nv ∧ mget 0 t.mem.recalFails (k * 16 + ch) = 1 ∧ t.mem.bytes = s.dev.mem.bytes)
    ∧ (1 ≤ mget 0 s.dev.mem.recalFails (k * 16 + ch) → Answers (.channelRecalComplete k ch false) s fun t =>
        bitOf (mget 0 t.nv.chanFault k) ch = true ∧ t.blk GLB 0 = stFailed ∧ t.errBit MEM k 22 = true
          ∧ t.getF (R.BLK_HEALTH_REPLACE_REQ MEM) k = 1) := by
  have busy : ¬ (8 ≤ k ∨ bitOf (s.dev.getF R.MEM_CHAN_STATUS_RECAL_BUSY k) ch = false) := by simp [hb, hk]
  refine ⟨.of_onDev _ (Eq.refl (execChannelRecalComplete ..)) hu ?_, fun h => .of_onDev _ (Eq.refl (execChannelRecalComplete ..)) hu ?_,
    fun h => .of_onDev _ (Eq.refl (execChannelRecalComplete ..)) hu ?_⟩
  · dsimp only
    rw [if_neg busy, if_pos rfl]
    refine ⟨?_, rfl, rfl⟩
    rw [(Noise.bump _ _ _ (by decide) _).getF (by decide) (by omega)]
    refine (congrArg (bitOf · ch) (Dev.getF_setF_same ..)).trans (bitOf_clearBit_mod _ _ _)
  · dsimp only
    rw [if_neg busy, if_neg Bool.false_ne_true, if_pos (by simp [h])]
    exact ⟨rfl, by simp [h], rfl⟩
  · dsimp only
    rw [if_neg busy, if_neg Bool.false_ne_true, if_neg (by simp; omega)]
    generalize hd : Dev.setErrFull _ MEM k 22 2 9 0 = e
    have fault : bitOf (mget 0 e.nv.chanFault k) ch = true := by
      rw [← hd, (Reports.setErrFull ..).nv, mget_mput_same]
      simp [bitOf, setBit, Nat.testBit_two_pow_self]
    have shown : e.errBit MEM k 22 = true := hd ▸ Noise.errBit_setErrFull _ MEM k (by decide) ..
    have asked : Noise e (e.raiseReplace MEM k 4) := .raiseReplace ..
    refine ⟨?_, ?_, ?_, ((HealthKept.failGlb ..).getF MEM k).trans (Dev.raiseReplace_asks ..)⟩
    · rw [Dev.failBlock, (Reports.setErrFull ..).nv, (StateFrame.setBlk ..).nv, asked.reports.nv]
      exact fault
    · exact ((Noise.setErrFull ..).blk).trans (Dev.blk_setBlk_page _ (by decide) (by decide))
    · exact (Noise.setErrFull ..).errs _ _ _ (by decide) ((Touches.setBlk ..).errs _ _ _ (by decide) (asked.errs _ _ _ (by decide) shown))

/-- What a failed recovery shows (R391, R396). -/
theorem Machine.Dev.recoveryFailed_spec (d : Dev) : d.recoveryFailed.getF R.SOW_RECOVERY_PHASE 0 = 7 ∧ d.recoveryFailed.errBit SOW 0 21 = true
    ∧ d.recoveryFailed.ctl.noClose = true ∧ d.recoveryFailed.mem = d.mem := by
  refine ⟨((Noise.setErr ..).getF (by decide) (by decide)).trans (Dev.getF_setF_of_lt _ (by decide) 0),
    Noise.errBit_setErr _ SOW 0 (by decide), ?_, (Reports.setErr ..).mem⟩
  rw [Dev.recoveryFailed, (Reports.setErr ..).ctl]
  rfl

theorem uncorrectableWords (s : State) (a source : Nat) (hu : s.dev.up = true) :
    (s.dev.regionOf a = 0 → s.dev.jobActive = true → s.dev.configuring = false → source ≠ 1 → s.dev.ctl.updateBegun = true →
        Answers (.ueReport a source) s fun t => t.ctl.replayAsked = 7 ∧ t.mem = s.dev.mem ∧ t.cells = s.dev.cells)
    ∧ (s.dev.regionOf a = 1 → s.dev.inStatRecord a = false → s.dev.jobActive = true → s.dev.configuring = false →
        s.dev.pairState = 0 → Answers (.ueReport a source) s fun t =>
          t.getF R.SOW_RECOVERY_PHASE 0 = 7 ∧ t.errBit SOW 0 21 = true ∧ t.ctl.noClose = true ∧ t.mem = s.dev.mem) := by
  refine ⟨fun hr hj hc hs hb => .of_onDev _ (Eq.refl (execUeReport ..)) hu ?_, fun hr hi hj hc hp => .of_onDev _ (Eq.refl (execUeReport ..)) hu ?_⟩
  · have e : s.dev.ueRegenerable source = { s.dev with ctl := { s.dev.ctl with replayAsked := 7 } } := by
      rw [Dev.ueRegenerable, if_neg (by simp [hj, hs, hc]), if_pos hb]
    rw [hr, e]
    exact ⟨rfl, rfl, rfl⟩
  · have e : s.dev.uePersistent a source = s.dev.recoveryFailed := by
      rw [Dev.uePersistent, if_neg (by simp [hj, hc]), if_pos (.inl hp)]
    rw [hr, hi, if_neg Bool.false_ne_true, e]
    exact s.dev.recoveryFailed_spec

/-- Settles O41, from the sweep, the sweep's period, the recalibrations and the uncorrectable words. -/
theorem stacksScrubRecalibrateAndReport : Obligations.StacksScrubRecalibrateAndReport := by
  unfold Obligations.StacksScrubRecalibrateAndReport
  intro s w k ch line corrected a source hu hk hc
  obtain ⟨rate, held⟩ := scrubRate s k corrected hu hk
  obtain ⟨recal, margin⟩ := recalibrations s w k ch hu hk hc
  obtain ⟨regenerable, persistent⟩ := uncorrectableWords s a source hu
  refine ⟨fun hl hn => (patrolScrub s line hu hl hn).1, fun hl hn => (patrolScrub s line hu hl hn).2, fun e h => ?_, rate, held, recal, margin,
    fun hb => (recalibrationEnds s k ch hu hk hb).1, fun hb => (recalibrationEnds s k ch hu hk hb).2.1,
    fun hb => (recalibrationEnds s k ch hu hk hb).2.2, regenerable, persistent⟩
  exact .of_onDev _ (Eq.refl (execPatrolScrubLine ..)) hu (if_pos h)

end Sys2Proof
end

