-- ==== Sys2Proof/Proofs/Classes.lean ====
section
/-! Register writes: what a W1C field keeps of a value beyond its width. -/

namespace Sys2Proof

open Machine

/-- A device in service whose BLK_IRQ_PEND of GLB holds a value that its 32 bits cannot. -/
def overfullPend : State :=
  { State.reset with dev := { State.reset.dev with fields := [((R.BLK_IRQ_PEND GLB).key 0, 2 ^ 32)] } }

theorem exec_registerWrite {s : State} {w : Writer} (hw : Writes s w) (offset size v : Nat) :
    exec (.registerWrite w offset size v) s = .next { s with dev := s.dev.busWrite offset size v } := by
  show execRegisterWrite w offset size v s = _
  rw [execRegisterWrite, State.byWriter, if_pos hw.2, State.onDev_up hw.1]

/-- Refutes O9: writing no bit of a W1C field stores its value again, cut to the field's width, so that a value beyond the
width does not stay as it was. -/
theorem not_registerWritesFollowTheClass : ¬ Obligations.RegisterWritesFollowTheClass := by
  unfold Obligations.RegisterWritesFollowTheClass
  intro h
  have hw : Writes overfullPend .mc := ⟨by decide, rfl⟩
  obtain ⟨-, -, -, -, -, w1c, -⟩ := h overfullPend .mc GLB 0 0 (R.BLK_IRQ_PEND GLB) hw (by decide) (by decide) (by decide)
    (by decide) (by decide) (by decide)
  have kept := (w1c rfl (by decide)).made (exec_registerWrite hw ..)
  exact absurd kept (by decide +kernel)

end Sys2Proof
end

