-- ==== Sys2Proof/Proofs/Commits.lean ====
section
/-! Staged commits (R51 to R57): what an applied commit changes, and what a group's abort leaves. -/

namespace Sys2Proof.Machine

/-- A device on whose command order nothing waits to begin. -/
theorem Dev.settle_of_nothing_held {d : Dev} (h : ∀ e ∈ d.ctl.order, e.phase = .running ∨ e.cmd.opc = 1) : d.settle = d := by
  have none (es ahead : List OrderEntry) (hes : ∀ e ∈ es, e.phase = .running ∨ e.cmd.opc = 1) : d.nextHeld ahead es = none := by
    induction es generalizing ahead with
    | nil => rfl
    | cons e es ih =>
      rw [Dev.nextHeld, if_neg, ih _ (fun x hx => hes x (List.mem_cons_of_mem _ hx))]
      rcases hes e List.mem_cons_self with h | h <;> simp [h]
  unfold Dev.settle
  cases d.ctl.order.length with
  | zero => rfl
  | succ n => rw [Dev.settleN, none _ _ h]

/-- A command aimed at a page that stands and is no fused-off cell's. -/
theorem Dev.onPage_of_exists (d : Dev) {p : Page} (off : Nat) (f : Dev → Dev) (hp : pageExists p.cls p.inst = true)
    (hd : p.cls = CEL → d.nv.disabled.contains p.inst = false) : d.onPage p off f = f d := by
  rw [Dev.onPage, if_neg (by simp [hp]), if_neg (fun h => by rw [hd h.1] at h; exact absurd h.2 (by decide))]

/-- No report of an error reaches the field. -/
def Field.calm (f : Field) : Bool :=
  decide (f.off ≠ 32) && decide (f.off ≠ 40) && decide (f.off ≠ 60) && (decide (f.off < 64) || decide (128 ≤ f.off))
    && (decide (f.cls ≠ 16) || decide (f.off < 128) || decide (160 ≤ f.off)) && decide (f.off < 4096) && decide (f.lo < 32)

theorem Field.noiseKey_of_calm {f : Field} (h : f.calm = true) {i : Nat} (hi : i < 2048) : noiseKey (f.key i) = false := by
  simp only [Field.calm, Bool.and_eq_true, Bool.or_eq_true, decide_eq_true_eq] at h
  obtain ⟨⟨⟨⟨⟨⟨h1, h2⟩, h3⟩, h4⟩, h5⟩, h6⟩, h7⟩ := h
  have off : f.key i / 32 % 4096 = f.off := by simp only [Field.key]; omega
  have page : f.key i / 131072 = f.cls * 2048 + i := by simp only [Field.key]; omega
  simp only [noiseKey, off, page, Bool.or_eq_false_iff, Bool.and_eq_false_iff, decide_eq_false_iff_not]
  refine ⟨⟨⟨⟨h1, h2⟩, h3⟩, ?_⟩, ?_⟩ <;> omega

theorem Noise.getF_calm {d t : Dev} (h : Noise d t) {f : Field} (hf : f.calm = true) {i : Nat} (hi : i < 2048) :
    t.getF f i = d.getF f i := by simp only [Dev.getF, mget, h.kept _ (Field.noiseKey_of_calm hf hi)]

theorem class_lt {c i : Nat} (h : i < instancesOf c) : c < 17 ∧ i < 2048 := by
  simp only [instancesOf] at h
  split at h <;> omega

/-- Of the stored and acting values the operation changes at most the homes of `S`, noise apart; what is staged and what is armed
stay. -/
structure Within (S : Nat → Prop) (d t : Dev) : Prop where
  kept : ∀ k, noiseKey k = false → ¬ S k → mfind k t.fields = mfind k d.fields
  acts : ∀ k, ¬ S k → mfind k t.acting = mfind k d.acting
  shadow : t.shadow = d.shadow
  armed : t.armed = d.armed

namespace Within

variable {S T : Nat → Prop} {d e t : Dev}

theorem refl (d : Dev) : Within S d d := ⟨fun _ _ _ => rfl, fun _ _ => rfl, rfl, rfl⟩

theorem trans (h1 : Within S d e) (h2 : Within S e t) : Within S d t :=
  ⟨fun k hk hs => (h2.kept k hk hs).trans (h1.kept k hk hs), fun k hs => (h2.acts k hs).trans (h1.acts k hs),
    h2.shadow.trans h1.shadow, h2.armed.trans h1.armed⟩

theorem mono (h : Within S d t) (hs : ∀ k, S k → T k) : Within T d t :=
  ⟨fun k hk ht => h.kept k hk fun h' => ht (hs k h'), fun k ht => h.acts k fun h' => ht (hs k h'), h.shadow, h.armed⟩

theorem ite {a b : Dev} {p : Prop} [Decidable p] (ha : Within S d a) (hb : Within S d b) : Within S d (if p then a else b) := by
  split
  · exact ha
  · exact hb

theorem of_noise (h : Noise d t) : Within S d t := by
  have kept := h.kept
  obtain ⟨_, _, _, rfl⟩ := h.reports
  exact ⟨fun k hk _ => kept k hk, fun _ _ => rfl, rfl, rfl⟩

theorem setF (d : Dev) {f : Field} {i : Nat} (hs : S (f.key i)) (v : Nat) : Within S d (d.setF f i v) :=
  ⟨fun _ _ hk => mfind_mput_other (fun e => hk (by rw [e]; exact hs)) _ _, fun _ _ => rfl, rfl, rfl⟩

theorem setAct (d : Dev) {f : Field} {i : Nat} (hs : S (f.key i)) (v : Nat) : Within S d (d.setAct f i v) :=
  ⟨fun _ _ _ => rfl, fun _ hk => mfind_mput_other (fun e => hk (by rw [e]; exact hs)) _ _, rfl, rfl⟩

theorem getF (h : Within S d t) {f : Field} {i : Nat} (hf : f.calm = true) (hi : i < 2048) (hs : ¬ S (f.key i)) : t.getF f i = d.getF f i := by
  simp only [Dev.getF, mget, h.kept _ (Field.noiseKey_of_calm hf hi) hs]

theorem actF (h : Within S d t) {f : Field} {i : Nat} (hs : ¬ S (f.key i)) : t.actF f i = d.actF f i := by
  simp only [Dev.actF, mget, h.acts _ hs]

end Within

/-! ### Commits that apply -/

/-- A staged value becomes the field's, except that a tier whose feature is off is refused (R51, R64). -/
def Dev.applyEntry (c i : Nat) (d : Dev) (e : Nat × Nat) : Dev :=
  match fieldAt c i e.1 with
  | some f =>
    if f = R.CEL_ARRAY_CFG_T3_MODE ∧ e.2 = 1 ∧ d.featureIn CEL 4 = false then d.setErr CEL i 7
    else (d.setF f i e.2).setAct f i e.2
  | none => d

theorem fieldAt_key {c i k : Nat} {f : Field} (h : fieldAt c i k = some f) : f.key i = k := by simpa using List.find?_some h

theorem Dev.applyEntry_within (c i : Nat) (d : Dev) (e : Nat × Nat) : Within (· = e.1) d (d.applyEntry c i e) := by
  unfold Dev.applyEntry
  split
  · next f hf =>
    have hk := fieldAt_key hf
    exact .ite (.of_noise (.setErr ..)) ((Within.setF d hk _).trans (.setAct _ hk _))
  · exact .refl d

theorem Dev.applyEntries_within (c i : Nat) (es : List (Nat × Nat)) (d : Dev) :
    Within (fun k => ∃ e ∈ es, k = e.1) d (es.foldl (Dev.applyEntry c i) d) := by
  induction es generalizing d with
  | nil => exact .refl d
  | cons e es ih =>
    exact ((Dev.applyEntry_within c i d e).mono fun k hk => ⟨e, by simp, hk⟩).trans
      ((ih _).mono fun k ⟨x, hx, hk⟩ => ⟨x, List.mem_cons_of_mem _ hx, hk⟩)

theorem nodup_places : ∀ c < 17, ((R.fieldsOf c).map Field.place).Nodup := by decide +kernel

/-- A home of a page belongs to one field. -/
theorem fieldAt_of_mem {c : Nat} (hc : c < 17) {f : Field} (hf : f ∈ R.fieldsOf c) (i : Nat) : fieldAt c i (f.key i) = some f := by
  have found : (fieldAt c i (f.key i)).isSome = true := List.find?_isSome.mpr ⟨f, hf, by simp⟩
  obtain ⟨g, hg⟩ := Option.isSome_iff_exists.mp found
  have place : g.place = f.place := by rw [← g.key_mod i, ← f.key_mod i, fieldAt_key hg]
  rw [hg, List.inj_on_of_nodup_map (nodup_places c hc) (List.mem_of_find?_eq_some hg) hf place]

/-- The staged values of a page become those of its fields. -/
theorem Dev.applyEntries_spec {c i v : Nat} (hi : i < instancesOf c) {f : Field} (hf : f ∈ R.fieldsOf c) (hcalm : f.calm = true)
    (ht : f ≠ R.CEL_ARRAY_CFG_T3_MODE) {es : List (Nat × Nat)} (he : (f.key i, v) ∈ es) (hn : (es.map (·.1)).Nodup) (d : Dev) :
    (es.foldl (Dev.applyEntry c i) d).getF f i = v % 2 ^ f.width ∧ (es.foldl (Dev.applyEntry c i) d).actF f i = v % 2 ^ f.width := by
  obtain ⟨l1, l2, rfl⟩ := List.append_of_mem he
  rw [List.foldl_append, List.foldl_cons]
  generalize l1.foldl (Dev.applyEntry c i) d = e
  have later := Dev.applyEntries_within c i l2 (e.applyEntry c i (f.key i, v))
  have other : ¬ ∃ x ∈ l2, f.key i = x.1 := by
    rintro ⟨x, hx, h⟩
    rw [List.map_append, List.map_cons, List.nodup_append, List.nodup_cons] at hn
    exact hn.2.1.1 (List.mem_map.mpr ⟨x, hx, h.symm⟩)
  have now : e.applyEntry c i (f.key i, v) = (e.setF f i v).setAct f i v := by
    rw [Dev.applyEntry, fieldAt_of_mem (class_lt hi).1 hf]
    exact if_neg (fun h => ht h.1)
  rw [later.getF hcalm (class_lt hi).2 other, later.actF other, now]
  refine ⟨Dev.getF_setF_same .., ?_⟩
  rw [Dev.actF, Dev.setAct, mget, mfind_mput_same]
  rfl

/-- The settings that a bound commit of a class can move (R64). -/
def clamped : Nat → List Field
  | 4 => [R.MEM_SCRUB_STATUS_PERIOD]
  | 7 => [R.COL_BUCKET_STATUS_CURRENT]
  | 13 => [R.SOW_MIRROR_STATUS_CAP]
  | 15 => [R.PWR_CLK_STATUS_TARGET, R.PWR_CLK_STATUS_LAGGING]
  | _ => []

theorem Dev.clampPolicy_within (d : Dev) (c i : Nat) :
    Within (homes ((clamped c).flatMap (fun f => [(f, i), (f, 0)]))) d (d.clampPolicy c i) := by
  have move {S : Nat → Prop} (e : Dev) (f : Field) (v : Nat) (hs : S (f.key i)) :
      Within S e (if e.getF f i = v then e else ((e.setF f i v).setAct f i v).setErr c i 6) :=
    .ite (.refl e) (((Within.setF e hs v).trans (.setAct _ hs v)).trans (.of_noise (.setErr ..)))
  unfold Dev.clampPolicy
  split
  · exact move d _ _ ⟨(R.MEM_SCRUB_STATUS_PERIOD, i), by simp [clamped], rfl⟩
  · exact .ite (.refl d) (move d _ _ ⟨(R.COL_BUCKET_STATUS_CURRENT, i), by simp [clamped], rfl⟩)
  · exact move d _ _ ⟨(R.SOW_MIRROR_STATUS_CAP, i), by simp [clamped], rfl⟩
  · extract_lets move' lo e
    have h : Within (homes ((clamped 15).flatMap (fun f => [(f, i), (f, 0)]))) d e :=
      (move d R.PWR_CLK_STATUS_TARGET lo ⟨(R.PWR_CLK_STATUS_TARGET, i), by simp [clamped], rfl⟩).trans
        (.of_noise (.bump _ PWR 0 (by decide) 1))
    clear_value e
    exact .ite (h.trans (.setF e ⟨(R.PWR_CLK_STATUS_LAGGING, 0), by simp [clamped], rfl⟩ _)) (.refl d)
  · exact .refl d

theorem Dev.finishGroup_within (d : Dev) :
    Within (homes [(R.GLB_GROUP_STAT_STATE, 0), (R.GLB_GROUP_STAT_NEXT_SEQ, 0)]) d d.finishGroup := by
  unfold Dev.finishGroup
  split
  · refine .ite (.trans (e := { d with groupSeq := none }) ⟨fun _ _ _ => rfl, fun _ _ => rfl, rfl, rfl⟩
      ((Within.setF _ ⟨(R.GLB_GROUP_STAT_STATE, 0), by simp, rfl⟩ _).trans (.setF _ ⟨(R.GLB_GROUP_STAT_NEXT_SEQ, 0), by simp, rfl⟩ _))) (.refl d)
  · exact .refl d

/-- The fields of a page that tell of its commits. -/
def commitFields (c : Nat) : List Field := [R.BLK_COMMIT_STAT_STATE c, R.BLK_COMMIT_STAT_LAST_SEQ c, R.BLK_STAGE_SEQ_NEXT_SEQ c]

/-- What a page's commit changes beside the staged values: the fields that tell of it, and a setting that new bounds move. -/
def commitAside (c : Nat) : List Field :=
  commitFields c ++ clamped c ++ [R.GLB_GROUP_STAT_STATE, R.GLB_GROUP_STAT_NEXT_SEQ]

theorem rs_commit : ∀ c < 17, ∀ f ∈ R.fieldsOf c, f.acc = .rs → f.calm = true ∧ f.place ∉ (commitAside c).map Field.place := by
  decide +kernel

theorem tidy_fieldsOf : ∀ c < 17, ∀ f ∈ R.fieldsOf c, f.cls = c := by decide +kernel

theorem commitFields_apart : ∀ c < 17, ∀ f ∈ commitFields c, f.calm = true ∧
    f.place ∉ (clamped c ++ [R.GLB_GROUP_STAT_STATE, R.GLB_GROUP_STAT_NEXT_SEQ]).map Field.place := by decide +kernel

theorem not_clamped {c i : Nat} {f : Field} (h : f.place ∉ (clamped c).map Field.place) (j : Nat) :
    ¬ homes ((clamped c).flatMap (fun f => [(f, i), (f, 0)])) (f.key j) := by
  rintro ⟨x, hx, e⟩
  obtain ⟨g, hg, hx⟩ := List.mem_flatMap.mp hx
  have : x.1 = g := by rcases List.mem_cons.mp hx with rfl | hx; · rfl
                       · rw [List.mem_singleton.mp hx]
  rw [this] at e
  exact Field.key_ne (fun e' => h (e' ▸ List.mem_map_of_mem hg)) x.2 j e

theorem Dev.setCommitState_within {S : Nat → Prop} (d : Dev) {c i : Nat} (hs : S ((R.BLK_COMMIT_STAT_STATE c).key i)) (v : Nat) :
    Within S d (d.setCommitState c i v) := .ite (.refl d) ((Within.setF d hs v).trans (.of_noise (.irq ..)))

theorem Dev.getF_setCommitState (d : Dev) {c i v : Nat} (hc : c < 17) (hi : i < 2048) (hv : v < 8) :
    (d.setCommitState c i v).getF (R.BLK_COMMIT_STAT_STATE c) i = v := by
  unfold Dev.setCommitState
  split
  · assumption
  · exact ((Noise.irq ..).getF_calm (commitFields_apart c hc _ (by simp [commitFields])).1 hi).trans (Dev.getF_setF_of_lt _ (f := R.BLK_COMMIT_STAT_STATE c) hv i)

/-- What an armed commit leaves on its page when it applies (R51, R67). -/
theorem Dev.applyCommit_spec (d : Dev) {c i v : Nat} (hi : i < instancesOf c) {a : ArmedCommit} (ha : d.armedOn c i = some a)
    {f : Field} (hf : f ∈ R.fieldsOf c) (hrs : f.acc = .rs) (ht : f ≠ R.CEL_ARRAY_CFG_T3_MODE)
    (hv : mfind (f.key i) d.shadow = some v) (hw : mwf d.shadow = true) (hwa : mwf d.armed = true) :
    let t := d.applyCommit c i
    t.getF f i = v % 2 ^ f.width ∧ t.actF f i = v % 2 ^ f.width ∧ t.armedOn c i = none ∧ t.staged c i = []
      ∧ t.getF (R.BLK_COMMIT_STAT_STATE c) i = 3 ∧ t.getF (R.BLK_COMMIT_STAT_LAST_SEQ c) i = a.seq % 2 ^ 16
      ∧ t.getF (R.BLK_STAGE_SEQ_NEXT_SEQ c) i = (a.seq + 1) % 2 ^ 16 := by
  obtain ⟨hc, hi'⟩ := class_lt hi
  obtain ⟨hcalm, haside⟩ := rs_commit c hc f hf hrs
  simp only [commitAside, commitFields, List.map_append, List.mem_append, List.map_cons, List.mem_cons, not_or] at haside
  obtain ⟨⟨⟨hstate, hlast, hnext, -⟩, hclamp⟩, -⟩ := haside
  have calm (g : Field) (hg : g ∈ commitFields c) := (commitFields_apart c hc g hg).1
  have free (g : Field) (hg : g ∈ commitFields c) : g.place ∉ (clamped c).map Field.place := fun h =>
    (commitFields_apart c hc g hg).2 (by rw [List.map_append]; exact List.mem_append_left _ h)
  have entries : (f.key i, v) ∈ d.staged c i := List.mem_filter.mpr ⟨mem_of_mfind hv, by
    have cls : f.cls = c := by simpa using tidy_fieldsOf c hc f hf
    have place : f.off < 4096 ∧ f.lo < 32 := by simp only [Field.calm, Bool.and_eq_true, decide_eq_true_eq] at hcalm; exact ⟨hcalm.1.2, hcalm.2⟩
    simp only [keyPage, Field.key, cls, decide_eq_true_eq]
    omega⟩
  have once : ((d.staged c i).map (·.1)).Nodup := by
    have sorted : (d.staged c i).Pairwise (fun a b => a.1 < b.1) := (of_decide_eq_true hw).sublist List.filter_sublist
    exact List.Pairwise.map _ (fun a b h => Nat.ne_of_lt h) sorted
  obtain ⟨hval, hact⟩ := Dev.applyEntries_spec hi hf hcalm ht entries once d
  have within := Dev.applyEntries_within c i (d.staged c i) d
  intro t
  have whole : ∃ e0, e0 = (d.staged c i).foldl (Dev.applyEntry c i) d ∧ ∃ e1 : Dev, e1 = (((e0.dropStaged c i).disarm c i).bump GLB 0 0 1)
      ∧ ∃ e3, e3 = (e1.setF (R.BLK_COMMIT_STAT_LAST_SEQ c) i a.seq).setF (R.BLK_STAGE_SEQ_NEXT_SEQ c) i (a.seq + 1)
      ∧ Within (homes ((clamped c).flatMap (fun f => [(f, i), (f, 0)]))) (e3.setCommitState c i 3) t := by
    refine ⟨_, rfl, _, rfl, _, rfl, ?_⟩
    simp only [t, Dev.applyCommit, ha]
    exact .ite (Dev.clampPolicy_within ..) (.refl _)
  obtain ⟨e0, h0, e1, h1, e3, h3, hlastly⟩ := whole
  rw [← h0] at hval hact within
  have shown : Within (· = (R.BLK_COMMIT_STAT_STATE c).key i) e3 (e3.setCommitState c i 3) := Dev.setCommitState_within (S := (· = (R.BLK_COMMIT_STAT_STATE c).key i)) e3 rfl 3
  have told : ∀ g : Field, g.calm = true → g.place ≠ (R.BLK_COMMIT_STAT_STATE c).place → g.place ∉ (clamped c).map Field.place →
      t.getF g i = e3.getF g i := fun g hg hs hn =>
    (hlastly.getF hg hi' (not_clamped hn i)).trans (shown.getF hg hi' (Field.key_ne hs i i))
  have counted : Noise ((e0.dropStaged c i).disarm c i) e1 := h1 ▸ Noise.bump _ _ _ (by decide) _
  have kept : t.shadow = (e0.dropStaged c i).shadow ∧ t.armed = mdel (c * 2048 + i) e0.armed := by
    rw [hlastly.shadow, hlastly.armed, shown.shadow, shown.armed, h3, h1]
    exact ⟨rfl, rfl⟩
  refine ⟨?_, ?_, ?_, ?_, ?_, ?_, ?_⟩
  · rw [told f hcalm hstate hclamp, h3, Dev.getF_setF_place hnext, Dev.getF_setF_place hlast, counted.getF_calm hcalm hi']
    exact hval
  · rw [hlastly.actF (not_clamped hclamp i), shown.actF (Field.key_ne hstate i i), h3, h1]
    exact hact
  · rw [Dev.armedOn, kept.2, within.armed, mfind_mdel_same _ hwa]
  · rw [Dev.staged, kept.1]
    simp [Dev.dropStaged]
  · rw [hlastly.getF (calm _ (by simp [commitFields])) hi' (not_clamped (free _ (by simp [commitFields])) i)]
    exact Dev.getF_setCommitState e3 hc hi' (by decide)
  · rw [told _ (calm _ (by simp [commitFields])) (by simp [Field.place, R.BLK_COMMIT_STAT_LAST_SEQ, R.BLK_COMMIT_STAT_STATE])
      (free _ (by simp [commitFields])), h3, Dev.getF_setF_place (by simp [Field.place, R.BLK_COMMIT_STAT_LAST_SEQ, R.BLK_STAGE_SEQ_NEXT_SEQ])]
    exact Dev.getF_setF_same ..
  · rw [told _ (calm _ (by simp [commitFields])) (by simp [Field.place, R.BLK_STAGE_SEQ_NEXT_SEQ, R.BLK_COMMIT_STAT_STATE])
      (free _ (by simp [commitFields])), h3]
    exact Dev.getF_setF_same ..

/-- An abort shows on its page, and leaves what another page shows. -/
theorem Dev.getF_abortCommit (d : Dev) {a b c i : Nat} (hb : b < 2048) (hc : c < 17) (hi : i < 2048) :
    (d.abortCommit a b).getF (R.BLK_COMMIT_STAT_STATE c) i =
      if a * 2048 + b = c * 2048 + i then 6 else d.getF (R.BLK_COMMIT_STAT_STATE c) i := by
  split
  · next h =>
    obtain ⟨rfl, rfl⟩ : a = c ∧ b = i := by omega
    exact Dev.getF_setCommitState _ hc hi (by decide)
  · next h =>
    refine (Dev.setCommitState_within (S := (· = (R.BLK_COMMIT_STAT_STATE a).key b)) _ rfl 6).getF
      (commitFields_apart c hc _ (by simp [commitFields])).1 hi (fun e => h ?_)
    simp only [Field.key, R.BLK_COMMIT_STAT_STATE] at e
    omega

theorem Dev.abortCommit_armed (d : Dev) (a b : Nat) : (d.abortCommit a b).armed = mdel (a * 2048 + b) d.armed :=
  (Dev.setCommitState_within (S := fun _ => True) _ trivial 6).armed

/-- Every page of the list has its commit aborted. -/
theorem Dev.abortCommits_spec {c i : Nat} (hc : c < 17) (hi : i < 2048) (ps : List (Nat × Nat)) (hp : ∀ p ∈ ps, p.2 < 2048) (d : Dev)
    (hw : mwf d.armed = true) (hm : (c, i) ∈ ps ∨ (d.armedOn c i = none ∧ d.getF (R.BLK_COMMIT_STAT_STATE c) i = 6)) :
    let t := ps.foldl (fun d p => d.abortCommit p.1 p.2) d
    t.armedOn c i = none ∧ t.getF (R.BLK_COMMIT_STAT_STATE c) i = 6 := by
  induction ps generalizing d with
  | nil => exact hm.resolve_left (List.not_mem_nil)
  | cons p ps ih =>
    have armed := d.abortCommit_armed p.1 p.2
    refine ih (fun q hq => hp q (List.mem_cons_of_mem _ hq)) (d.abortCommit p.1 p.2) (by rw [armed]; exact mwf_mdel _ hw) ?_
    by_cases he : p.1 * 2048 + p.2 = c * 2048 + i
    · exact .inr ⟨by rw [Dev.armedOn, armed, he, mfind_mdel_same _ hw],
        by rw [Dev.getF_abortCommit d (hp p (by simp)) hc hi, if_pos he]⟩
    · rcases hm with hm | ⟨ha, hs⟩
      · refine .inl ((List.mem_cons.mp hm).resolve_left fun e => he ?_)
        rw [← e]
      · exact .inr ⟨by rw [Dev.armedOn, armed, mfind_mdel_other (Ne.symm he)]; exact ha,
          by rw [Dev.getF_abortCommit d (hp p (by simp)) hc hi, if_neg he, hs]⟩

/-- A page whose armed commit is a member of the group is one of the group's pages. -/
theorem Dev.mem_groupPages {d : Dev} {c i : Nat} (hi : i < 2048) {a : ArmedCommit} (h : d.armedOn c i = some a) (hg : a.group = true) :
    (c, i) ∈ d.groupPages :=
  List.mem_map.mpr ⟨(c * 2048 + i, a), List.mem_filter.mpr ⟨mem_of_mfind h, hg⟩, Prod.ext (by show _ / _ = c; omega) (by show _ % _ = i; omega)⟩

theorem Dev.newBounds_eq (d : Dev) (w : Writer) (c i : Nat) : ∃ b, d.newBounds w c i = { d with ctl := { d.ctl with waitBounds := b } } := by
  unfold Dev.newBounds
  dsimp only
  split
  · exact ⟨_, rfl⟩
  · exact ⟨_, rfl⟩

end Sys2Proof.Machine

namespace Sys2Proof

open Machine

/-- Settles O11, command by command. -/
theorem commitsFollowTheStagingProtocol : Obligations.CommitsFollowTheStagingProtocol := by
  unfold Obligations.CommitsFollowTheStagingProtocol
  intro s w p seq v group a f hw hp hd next state kept
  have hi : p.inst < instancesOf p.cls := of_decide_eq_true hp
  obtain ⟨hc, hi'⟩ := class_lt hi
  have calm (g : Field) (hg : g ∈ commitFields p.cls) : g.calm = true := (commitFields_apart _ hc g hg).1
  have apart : (R.BLK_STAGE_SEQ_NEXT_SEQ p.cls).place ≠ (R.BLK_COMMIT_STAT_STATE p.cls).place := by
    simp [Field.place, R.BLK_STAGE_SEQ_NEXT_SEQ, R.BLK_COMMIT_STAT_STATE]
  have stateKept {e t : Dev} (h : Noise e t) : state t = state e := h.getF_calm (calm _ (by simp [commitFields])) hi'
  have posted (e : Dev) (n : Nat) (hn : n < 8) : state (e.setCommitState p.cls p.inst n) = n := Dev.getF_setCommitState e hc hi' hn
  have keeps {e t : Dev} (h : Within (· = (R.BLK_COMMIT_STAT_STATE p.cls).key p.inst) e t) (he : kept e) : kept t :=
    ⟨h.shadow.trans he.1, (h.getF (calm _ (by simp [commitFields])) hi' (Field.key_ne apart _ _)).trans he.2⟩
  have shows (e : Dev) (n : Nat) : Within (· = (R.BLK_COMMIT_STAT_STATE p.cls).key p.inst) e (e.setCommitState p.cls p.inst n) :=
    Dev.setCommitState_within (S := (· = (R.BLK_COMMIT_STAT_STATE p.cls).key p.inst)) e rfl n
  have refused (n : Nat) (hn : n < 8) : let t := (s.dev.setCommitState p.cls p.inst n).commitReject p.cls p.inst
      t.armed = s.dev.armed ∧ state t = n ∧ kept t ∧ t.errBit p.cls p.inst 1 = true :=
    ⟨((shows s.dev n).trans (.of_noise (.commitReject ..))).armed, (stateKept (.commitReject ..)).trans (posted _ n hn),
      keeps ((shows s.dev n).trans (.of_noise (.commitReject ..))) ⟨rfl, rfl⟩, Noise.errBit_commitReject ..⟩
  refine ⟨fun he hn hh => ?_, fun he => ?_, fun he hn => ?_, fun hb hwf => ?_, fun hb hg => ?_, fun ha hr hf hrs ht hv hws hwa => ?_,
    fun he hn => ?_, fun he => ?_, ?_⟩
  · refine .of_byWriter hw _ (Eq.refl (execBlkCommit ..)) ?_
    rw [Dev.onPage_of_exists _ _ _ hp hd]
    dsimp only
    rw [if_neg (not_not_intro he), if_neg (by simp [hn])]
    obtain ⟨b, hb⟩ := Dev.newBounds_eq { s.dev with armed := mput (p.cls * 2048 + p.inst) ⟨seq, group⟩ s.dev.armed } w p.cls p.inst
    rw [hb]
    generalize hn : (if group = true then 2 else 1) = n
    have hn8 : n < 8 := by rw [← hn]; split <;> decide
    set e : Dev := { s.dev with armed := mput (p.cls * 2048 + p.inst) ⟨seq, group⟩ s.dev.armed, ctl := { s.dev.ctl with waitBounds := b } } with hE
    have rep := Reports.setCommitState e p.cls p.inst n
    rw [Dev.settle_of_nothing_held (by rw [rep.ctl]; exact hh)]
    refine ⟨?_, posted e n hn8, keeps (shows e n) ⟨rfl, rfl⟩, rep.mem⟩
    rw [Dev.armedOn, (shows e n).armed]
    exact mfind_mput_same ..
  · refine .of_byWriter hw _ (Eq.refl (execBlkCommit ..)) ?_
    rw [Dev.onPage_of_exists _ _ _ hp hd]
    dsimp only
    rw [if_pos he]
    exact refused 4 (by decide)
  · refine .of_byWriter hw _ (Eq.refl (execBlkCommit ..)) ?_
    rw [Dev.onPage_of_exists _ _ _ hp hd]
    dsimp only
    rw [if_neg (not_not_intro he), if_pos hn]
    exact refused 5 (by decide)
  · refine .of_byWriter hw _ (Eq.refl (execBlkCommitAbort ..)) ?_
    rw [Dev.onPage_of_exists _ _ _ hp hd]
    have single : (s.dev.armedOn p.cls p.inst).elim false (·.group) = false := by
      cases hs : s.dev.armedOn p.cls p.inst with
      | none => rfl
      | some b => exact hb b hs
    rw [if_neg (by simp [single])]
    have h := shows ((s.dev.dropStaged p.cls p.inst).disarm p.cls p.inst) 6
    refine ⟨?_, ?_, posted _ 6 (by decide), h.getF (calm _ (by simp [commitFields])) hi' (Field.key_ne apart _ _)⟩
    · rw [Dev.armedOn, Dev.abortCommit_armed, mfind_mdel_same _ hwf]
    · rw [Dev.abortCommit, Dev.staged, h.shadow]
      simp [Dev.dropStaged, Dev.disarm]
  · refine .of_byWriter hw _ (Eq.refl (execBlkCommitAbort ..)) ?_
    rw [Dev.onPage_of_exists _ _ _ hp hd]
    rw [if_pos (by simp [hb, hg])]
    have h : Within (· = (R.BLK_COMMIT_STAT_STATE p.cls).key p.inst) s.dev (s.dev.commitReject p.cls p.inst) := .of_noise (.commitReject ..)
    exact ⟨h.armed, stateKept (.commitReject ..), keeps h ⟨rfl, rfl⟩, Noise.errBit_commitReject ..⟩
  · refine .of_onDev _ (Eq.refl (execCommitApply ..)) hw.1 ?_
    rw [Dev.onPage_of_exists _ _ _ hp hd, if_pos hr]
    obtain ⟨hval, hact, harm, hst, hsh, hlast, hnext⟩ := Dev.applyCommit_spec s.dev hi ha hf hrs ht hv hws hwa
    obtain ⟨hcalm, haside⟩ := rs_commit _ hc f hf hrs
    have ends := Dev.finishGroup_within (s.dev.applyCommit p.cls p.inst)
    have free (g : Field) (hg : g ∈ commitFields p.cls) : ¬ homes [(R.GLB_GROUP_STAT_STATE, 0), (R.GLB_GROUP_STAT_NEXT_SEQ, 0)] (g.key p.inst) :=
      not_homes (fun h => (commitFields_apart _ hc g hg).2 (by rw [List.map_append]; exact List.mem_append_right _ h)) _
    have own : ¬ homes [(R.GLB_GROUP_STAT_STATE, 0), (R.GLB_GROUP_STAT_NEXT_SEQ, 0)] (f.key p.inst) :=
      not_homes (fun h => haside (by rw [commitAside, List.map_append]; exact List.mem_append_right _ h)) _
    exact ⟨(ends.getF hcalm hi' own).trans hval, (ends.actF own).trans hact, by rw [Dev.armedOn, ends.armed]; exact harm,
      by rw [Dev.staged, ends.shadow]; exact hst,
      (ends.getF (calm _ (by simp [commitFields])) hi' (free _ (by simp [commitFields]))).trans hsh,
      (ends.getF (calm _ (by simp [commitFields])) hi' (free _ (by simp [commitFields]))).trans hlast,
      (ends.getF (calm _ (by simp [commitFields])) hi' (free _ (by simp [commitFields]))).trans hnext⟩
  · refine .of_byWriter hw _ (Eq.refl (execGroupCommit ..)) ?_
    dsimp only
    rw [if_neg (by simp [he, hn])]
    exact ⟨rfl, Dev.getF_setF_of_lt _ (by decide) 0, rfl, rfl⟩
  · refine .of_byWriter hw _ (Eq.refl (execGroupCommit ..)) ?_
    rw [if_pos (by rcases he with h | h
                   · exact .inl h
                   · exact .inr (Option.isSome_iff_ne_none.mpr h))]
  · refine .of_byWriter hw _ (Eq.refl (execGroupCommitAbort ..)) ?_
    refine ⟨rfl, fun b hb hg hwf => ?_⟩
    obtain ⟨harm, hst⟩ := Dev.abortCommits_spec hc hi' s.dev.groupPages (fun q hq => by
      obtain ⟨e, -, rfl⟩ := List.mem_map.mp hq
      exact Nat.mod_lt _ (by decide)) s.dev hwf (.inl (Dev.mem_groupPages hi' hb hg))
    refine ⟨harm, (Dev.getF_setF_place ?_ ..).trans hst⟩
    simp [Field.place, R.BLK_COMMIT_STAT_STATE, R.GLB_GROUP_STAT_STATE]

end Sys2Proof
end

