-- ==== Sys2Proof/Proofs/Blocks.lean ====
section
/-! Block states (R44 to R46, R545): what a change of state touches, and that the work which a block gives up leaves its state
alone. -/

namespace Sys2Proof.Machine

/-! ### The state of one page -/

/-- The state of page i of class c is untouched, and so are the cells that are fused off or retired. -/
structure StateKept (c i : Nat) (d t : Dev) : Prop where
  nv : t.nv = d.nv
  state : mfind ((R.BLK_STATE_STATE c).key i) t.fields = mfind ((R.BLK_STATE_STATE c).key i) d.fields

theorem calm_state (c : Nat) : (R.BLK_STATE_STATE c).calm = true := by simp [Field.calm, R.BLK_STATE_STATE]

namespace StateKept

variable {c i : Nat} {d e t : Dev}

theorem blk (h : StateKept c i d t) : t.blk c i = d.blk c i := by simp only [Dev.blk, Dev.getF, mget, h.nv, h.state]

theorem refl (d : Dev) : StateKept c i d d := ⟨rfl, rfl⟩

theorem trans (h1 : StateKept c i d e) (h2 : StateKept c i e t) : StateKept c i d t :=
  ⟨h2.nv.trans h1.nv, h2.state.trans h1.state⟩

theorem ite {a b : Dev} {p : Prop} [Decidable p] (ha : StateKept c i d a) (hb : StateKept c i d b) : StateKept c i d (if p then a else b) := by
  split
  · exact ha
  · exact hb

theorem foldl {α : Type} {f : Dev → α → Dev} (h : ∀ e x, StateKept c i e (f e x)) (xs : List α) (d : Dev) :
    StateKept c i d (xs.foldl f d) := by
  induction xs generalizing d with
  | nil => exact refl d
  | cons x xs ih => exact (h d x).trans (ih _)

theorem of_fields (hn : t.nv = d.nv) (hf : t.fields = d.fields) : StateKept c i d t := ⟨hn, by rw [hf]⟩

theorem of_noise (h : Noise d t) (hi : i < 2048) : StateKept c i d t :=
  ⟨h.reports.nv, h.kept _ (Field.noiseKey_of_calm (calm_state c) hi)⟩

theorem of_touches {S : Nat → Prop} (h : Touches S d t) (hn : t.nv = d.nv) (hi : i < 2048) (hs : ¬ S ((R.BLK_STATE_STATE c).key i)) :
    StateKept c i d t := ⟨hn, h.kept _ (Field.noiseKey_of_calm (calm_state c) hi) hs⟩

theorem setF (d : Dev) {f : Field} (h : (R.BLK_STATE_STATE c).place ≠ f.place) (j v : Nat) : StateKept c i d (d.setF f j v) :=
  ⟨rfl, mfind_mput_other (Field.key_ne h i j) _ _⟩

/-- The state of another page changes. -/
theorem setBlk (d : Dev) {b j : Nat} (h : b * 2048 + j ≠ c * 2048 + i) (hi : i < 2048) (v : Nat) : StateKept c i d (d.setBlk b j v) := by
  have hn : (d.setBlk b j v).nv = d.nv := (StateFrame.setBlk d b j v).nv
  refine of_touches (Touches.setBlk d b j v) hn hi ?_
  rintro (hk | hk)
  · simp only [Field.key, R.BLK_STATE_STATE] at hk
    omega
  · exact state_not_follower b j c i hk

end StateKept

/-! ### Work that a block gives up -/

theorem Dev.emptiest_mem {d : Dev} {is : List Nat} {j : Nat} (h : d.emptiest is = some j) : j ∈ is := by
  have loop : ∀ (is : List Nat) (b : Option Nat), is.foldl (fun b i => match b with
      | none => some i
      | some j => if d.contextsUsed i < d.contextsUsed j then some i else some j) b = some j → b = some j ∨ j ∈ is := by
    intro is
    induction is with
    | nil => exact fun b h => .inl h
    | cons x xs ih =>
      intro b h
      rcases ih _ h with h | h
      · cases b with
        | none => exact .inr (by simp at h; simp [h])
        | some k =>
          dsimp only at h
          split at h
          · exact .inr (by simp at h; simp [h])
          · exact .inl h
      · exact .inr (List.mem_cons_of_mem _ h)
  exact (loop is none h).resolve_left nofun

/-- A session is placed on a slice in service. -/
theorem Dev.placeSession_up {d : Dev} {kind die j : Nat} (h : d.placeSession kind die = some j) : d.sliceUp j = true := by
  have up {is : List Nat} (hm : d.emptiest (is.filter (d.sliceFree kind)) = some j) : d.sliceUp j = true := by
    have free := (List.mem_filter.mp (Dev.emptiest_mem hm)).2
    simp only [Dev.sliceFree, Bool.and_eq_true] at free
    exact free.1.1
  unfold Dev.placeSession at h
  rcases Option.or_eq_some_iff.mp h with h | ⟨-, h⟩
  · exact up h
  · exact up h

namespace StateKept

variable {i : Nat} (hi : i < 2048)
include hi

/-- A moved session does not go to a slice that is out of service. -/
theorem openMoved {d t : Dev} (hu : d.sliceUp i = false) {die : Nat} {s : Session} (h : d.openWaiting (.moved die s) = some t) :
    StateKept MED i d t := by
  obtain ⟨j, hj, h⟩ := Option.bind_eq_some_iff.mp h
  obtain ⟨r, hr, rfl⟩ := Option.map_eq_some_iff.mp h
  have hne : j ≠ i := fun e => by rw [e] at hj; exact absurd (Dev.placeSession_up hj) (by simp [hu])
  obtain ⟨k, -, rfl⟩ := Option.map_eq_some_iff.mp hr
  exact .trans (.ite (.setBlk d (by omega) hi stRunning) (.refl d)) (.of_fields rfl rfl)

theorem medMove {d : Dev} (hu : d.sliceUp i = false) : StateKept MED i d (d.medMove i) := by
  have loop : ∀ (ss : List Session) (e : Dev), e.sliceUp i = false →
      StateKept MED i e (ss.foldl (fun (d : Dev) s => d.openOrWait (.moved (i / 4) s.again)) e) := by
    intro ss
    induction ss with
    | nil => exact fun e _ => refl e
    | cons s ss ih =>
      intro e he
      have step : StateKept MED i e (e.openOrWait (.moved (i / 4) s.again)) := by
        unfold Dev.openOrWait
        split
        · next h => exact openMoved hi he h
        · exact .of_fields rfl rfl
      exact step.trans (ih _ (by rw [Dev.sliceUp, step.blk, ← Dev.sliceUp, he]))
  exact .trans (e := { d with media := d.media.filter (fun e => decide (e.1 / 256 ≠ i)) }) (.of_fields rfl rfl) (loop _ _ hu)

end StateKept

theorem StateKept.thnMove (d : Dev) (u c i : Nat) : StateKept c i d (d.thnMove u) := by
  unfold Dev.thnMove
  dsimp only
  exact .ite (.of_fields rfl rfl) (.of_fields rfl rfl)

/-- The work of a block out of service goes on elsewhere. -/
theorem StateKept.moveWork {d : Dev} {c i : Nat} (hi : i < 2048) (h : d.blk c i ≠ stReady ∧ d.blk c i ≠ stRunning) :
    StateKept c i d (d.moveWork c i) := by
  unfold Dev.moveWork
  split
  · next hc =>
    subst hc
    exact medMove hi (by simp [Dev.sliceUp, h.1, h.2])
  · exact .ite (.of_fields rfl rfl) (.ite (thnMove ..) (refl d))

/-- A block that is cloched shows it (R44, R45). -/
theorem Dev.blk_clocheBlock {d : Dev} {c i : Nat} (hi : i < instancesOf c) (h : d.blk c i ≠ stRetired) :
    (d.clocheBlock c i).blk c i = stCloched := by
  obtain ⟨-, hi'⟩ := class_lt hi
  unfold Dev.clocheBlock
  dsimp only
  split
  · next hc =>
    subst hc
    exact (Dev.clocheCell_spec (d := d.setPassed CEL i false) hi h).blk
  · have now : ((d.setPassed c i false).setBlk c i stCloched).blk c i = stCloched := Dev.blk_setBlk _ (by decide) h
    exact (StateKept.moveWork hi' (by simp [now])).blk.trans now

/-- A failed block shows it. -/
theorem Dev.blk_failBlock {d : Dev} {c i : Nat} (hi : i < 2048) (h : d.blk c i ≠ stRetired) (sev : Nat) :
    (d.failBlock c i sev).blk c i = stFailed :=
  (StateKept.of_noise (.setErrFull ..) hi).blk.trans (Dev.blk_setBlk d (by decide) h)

/-! ### A block that is reset -/

theorem mfind_filter_none {α : Type} {p : Nat → Bool} {k : Nat} (h : p k = false) (m : NMap α) :
    mfind k (m.filter (fun e => p e.1)) = none := by
  induction m with
  | nil => rfl
  | cons e m ih =>
    by_cases hp : p e.1 = true
    · rw [List.filter_cons_of_pos (by exact hp), mfind, if_neg (fun hk => by rw [hk, hp] at h; exact absurd h (by decide)), ih]
    · rw [List.filter_cons_of_neg (by exact hp), ih]

theorem state_resets (d : Dev) : ∀ c < 17, d.resetKeeps (R.BLK_STATE_STATE c) = false ∧ R.BLK_STATE_STATE c ∈ R.fieldsOf c := by
  unfold Dev.resetKeeps
  generalize d.jobActive = j
  revert j
  decide +kernel

theorem Dev.getF_resetPage (d : Dev) {c i : Nat} (hi : i < instancesOf c) : (d.resetPage c i).getF (R.BLK_STATE_STATE c) i = stOff := by
  obtain ⟨hc, hi'⟩ := class_lt hi
  obtain ⟨keeps, mem⟩ := state_resets d c hc
  have page : keyPage ((R.BLK_STATE_STATE c).key i) = c * 2048 + i := by
    simp only [keyPage, Field.key, R.BLK_STATE_STATE]
    omega
  have gone := mfind_filter_none (k := (R.BLK_STATE_STATE c).key i) (p := fun k => !(decide (keyPage k = c * 2048 + i) && !((fieldAt c i k).elim false d.resetKeeps)))
    (by simp only [page, fieldAt_of_mem hc mem, Option.elim, keeps]; decide) d.fields
  have fields : (d.resetPage c i).fields = d.fields.filter (fun e =>
      !(decide (keyPage e.1 = c * 2048 + i) && !((fieldAt c i e.1).elim false d.resetKeeps))) := rfl
  rw [Dev.getF, mget, fields, gone]
  rfl

namespace StateKept

variable {c i : Nat} {d : Dev}

theorem setMask (d : Dev) (k m : Nat) : StateKept c i d (d.setMask k m) := by
  have step : ∀ (ws : List Nat), (∀ w ∈ ws, w < 32) → ∀ e : Dev,
      StateKept c i e (ws.foldl (fun d w => d.setF (R.PLT_MEMBER w) k (m / 2 ^ (32 * w))) e) := by
    intro ws
    induction ws with
    | nil => exact fun _ e => refl e
    | cons w ws ih =>
      intro h e
      have hw := h w List.mem_cons_self
      exact (setF e (by simp only [Field.place, R.BLK_STATE_STATE, R.PLT_MEMBER]; omega) k _).trans
        (ih (fun x hx => h x (List.mem_cons_of_mem _ hx)) _)
  exact step _ (fun w hw => List.mem_range.mp hw) d

theorem resolveMap (d : Dev) (before : List Nat) (hi : i < 2048) : StateKept c i d (d.resolveMap before) := by
  unfold Dev.resolveMap
  extract_lets after res _ e
  have h : StateKept c i d e := .of_fields rfl rfl
  clear_value e
  refine .ite h (h.trans ?_)
  have loop := foldl (c := c) (i := i) (f := fun (d : Dev) k => if res.getD k 0 = after.getD k 0 then d else (d.setMask k (res.getD k 0)).setErr PLT k 16)
    (fun e k => .ite (refl e) ((setMask e k _).trans (.of_noise (.setErr ..) hi))) (List.range 64) e
  exact loop.trans (.of_fields rfl rfl)

theorem remoteDone (d : Dev) (cell ch : Nat) : StateKept c i d (d.remoteDone cell ch) := by
  unfold Dev.remoteDone
  dsimp only
  split
  · exact .of_fields rfl rfl
  · exact refl d

theorem endOps (d : Dev) (f : Nat) : StateKept c i d (d.endOps f 6) := by
  have pool (o : FlowOp) : (R.BLK_STATE_STATE c).place ≠ (poolField o.cell).place := by
    unfold poolField
    split <;> simp [Field.place, R.BLK_STATE_STATE, R.FLW_POOL_FREE_N, R.FLW_POOL_FREE_S]
  have one (e : Dev) (o : FlowOp) : StateKept c i e (e.endOp f o 0 6) := by
    unfold Dev.endOp
    extract_lets w e1 p e2 _ e3
    have h1 : StateKept c i e e1 := .of_fields rfl rfl
    clear_value e1
    have h2 : StateKept c i e1 e2 := .ite (refl e1) (setF e1 (pool o) _ _)
    clear_value e2
    have h3 : StateKept c i e2 e3 := .of_fields rfl rfl
    clear_value e3
    refine (h1.trans (h2.trans h3)).trans ?_
    unfold Dev.issuerDone
    split
    · exact refl e3
    · exact remoteDone ..
  exact foldl one _ d

end StateKept

theorem Dev.blk_resetInside {d : Dev} {c i : Nat} (hi : i < 2048) (h : d.blk c i = stOff) : StateKept c i d (d.resetInside c i) := by
  unfold Dev.resetInside
  split
  · exact .of_fields rfl rfl
  · obtain ⟨-, nv, -, kept⟩ := Dev.returnTile_spec d i
    exact (StateKept.of_touches (kept fun _ => False) nv hi (fun h => h)).trans (.of_fields rfl rfl)
  · exact .of_fields rfl rfl
  · exact (StateKept.foldl (fun e f => .endOps e f) _ d).trans (.of_fields rfl rfl)
  · exact .of_fields rfl rfl
  · exact .medMove hi (by simp [Dev.sliceUp, h])
  · exact .of_fields rfl rfl
  · exact .thnMove ..
  · exact .of_fields rfl rfl
  · exact .of_fields rfl rfl
  · exact .of_fields rfl rfl
  · exact .refl d

/-- A block that is reset is OFF (R45, R461). -/
theorem Dev.blk_resetBlock {d : Dev} {c i : Nat} (hi : i < instancesOf c) (h : d.blk c i ≠ stRetired) :
    (d.resetBlock c i).blk c i = stOff := by
  obtain ⟨hc, hi'⟩ := class_lt hi
  have live : (decide (c = CEL) && (d.nv.disabled.contains i || d.nv.retired.contains i)) = false := by
    rw [← Bool.not_eq_true]
    intro e
    simp only [Dev.blk, e, if_true] at h
    exact h rfl
  have off : ∀ e : Dev, e.nv = d.nv → e.getF (R.BLK_STATE_STATE c) i = stOff → e.blk c i = stOff := fun e hn hs => by
    simp only [Dev.blk, hn, live, Bool.false_eq_true, if_false, hs]
  have page : ((if c = PCI then d.resetPortPage i else d.resetPage c i).forgetMarks c i).blk c i = stOff := by
    split
    · next hp =>
      subst hp
      refine off _ ?_ ?_
      · simp only [Dev.forgetMarks, Dev.resetPortPage]
        split <;> rfl
      · have h0 := d.getF_resetPage hi
        unfold Dev.resetPortPage
        dsimp only
        split
        · exact (Dev.getF_setF_place (by decide) ..).trans h0
        · exact h0
    · exact off _ rfl (d.getF_resetPage hi)
  unfold Dev.resetBlock
  extract_lets before e1 e2
  have h2 : e2.blk c i = stOff := (Dev.blk_resetInside hi' page).blk.trans page
  clear_value e2
  split
  · exact ((StateKept.setMask ..).trans (.resolveMap _ _ hi')).blk.trans h2
  · split
    · next hcel =>
      subst hcel
      split
      · exact (Aside.borrow e2 _ (by simp [Dev.inService, h2])).blk |>.trans h2
      · exact h2
    · exact h2

end Sys2Proof.Machine

namespace Sys2Proof

open Machine

/-! ### What a change of state touches -/

theorem Machine.Dev.FieldsKept.trans {d e t : Dev} {ks : List Nat} (h1 : d.FieldsKept e ks) (h2 : e.FieldsKept t ks) : d.FieldsKept t ks :=
  fun k hk => (h2 k hk).trans (h1 k hk)

theorem Machine.Dev.FieldsKept.setF (d : Dev) {f : Field} {i : Nat} {ks : List Nat} (h : f.key i ∈ ks) (v : Nat) : d.FieldsKept (d.setF f i v) ks :=
  fun _ hk => mfind_mput_other (fun e => hk (by rw [e]; exact h)) _ _

theorem Machine.Dev.FieldsKept.irq (d : Dev) {c i : Nat} {ks : List Nat} (h : (R.BLK_IRQ_PEND c).key i ∈ ks) (b : Nat) : d.FieldsKept (d.irq c i b) ks := by
  unfold Dev.irq
  dsimp only
  split
  · exact .setF d h _
  · exact .setF d h _

/-- The homes that a block's change of state touches. -/
def blockKeys (c i : Nat) : List Nat :=
  [(R.BLK_CTRL_ENABLE c).key i, (R.BLK_CTRL_CLOCHE_REQ c).key i, (R.BLK_CTRL_QUIESCE_REQ c).key i,
    (R.BLK_STATE_STATE c).key i, (R.BLK_IRQ_PEND c).key i, (R.COUNTER RAS 5).key 0] ++ stateFields c i

/-- The change of a block's state, as R44 to R46 bound it. -/
structure Moved (c i : Nat) (d t : Dev) : Prop where
  kept : d.FieldsKept t (blockKeys c i)
  rest : t = { d with fields := t.fields, acting := t.acting, testFails := t.testFails, out := t.out,
                      fab := { d.fab with ports := t.fab.ports } }
  fab : c ≠ LNK → t.fab = d.fab

namespace Moved

variable {c i : Nat} {d e t : Dev}

theorem frame (h : Moved c i d t) : BlockFrame d t c i := ⟨h.kept, h.rest, h.fab⟩

theorem refl (d : Dev) : Moved c i d d := ⟨fun _ _ => rfl, rfl, fun _ => rfl⟩

theorem trans (h1 : Moved c i d e) (h2 : Moved c i e t) : Moved c i d t := by
  obtain ⟨f1, e1, l1⟩ := h1
  obtain ⟨f2, e2, l2⟩ := h2
  refine ⟨f1.trans f2, ?_, fun h => (l2 h).trans (l1 h)⟩
  rw [e1] at e2
  exact e2

theorem ite {a b : Dev} {p : Prop} [Decidable p] (ha : Moved c i d a) (hb : Moved c i d b) : Moved c i d (if p then a else b) := by
  split
  · exact ha
  · exact hb

theorem foldl {α : Type} {f : Dev → α → Dev} (h : ∀ e x, Moved c i e (f e x)) (xs : List α) (d : Dev) :
    Moved c i d (xs.foldl f d) := by
  induction xs generalizing d with
  | nil => exact refl d
  | cons x xs ih => exact (h d x).trans (ih _)

theorem setF (d : Dev) {f : Field} {j : Nat} (h : f.key j ∈ blockKeys c i) (v : Nat) : Moved c i d (d.setF f j v) :=
  ⟨.setF d h v, rfl, fun _ => rfl⟩

theorem setAct (d : Dev) (f : Field) (j v : Nat) : Moved c i d (d.setAct f j v) := ⟨fun _ _ => rfl, rfl, fun _ => rfl⟩

theorem setBoth (d : Dev) {f : Field} {j : Nat} (h : f.key j ∈ blockKeys c i) (v : Nat) : Moved c i d (d.setBoth f j v) :=
  (setF d h v).trans (setAct ..)

theorem setPassed (d : Dev) (b j : Nat) (v : Bool) : Moved c i d (d.setPassed b j v) := ⟨fun _ _ => rfl, rfl, fun _ => rfl⟩
theorem setReturned (d : Dev) (b j : Nat) (v : Bool) : Moved c i d (d.setReturned b j v) := ⟨fun _ _ => rfl, rfl, fun _ => rfl⟩

theorem irq (d : Dev) (b : Nat) : Moved c i d (d.irq c i b) := by
  refine ⟨.irq d (by simp [blockKeys]) b, ?_, fun _ => (Reports.irq ..).fab⟩
  unfold Dev.irq
  dsimp only
  split <;> rfl

theorem count (d : Dev) : Moved c i d (d.bump RAS 0 5 1) := setF d (by simp [blockKeys]) _

theorem setPort (d : Dev) (j : Nat) (q : Port) : Moved LNK i d (d.setPort j q) := ⟨fun _ _ => rfl, rfl, fun h => absurd rfl h⟩

theorem freeTransit (d : Dev) (e : QPkt) : Moved LNK i d (d.freeTransit e) := by
  unfold Dev.freeTransit
  split
  · exact setPort ..
  · exact refl d

theorem portDown (d : Dev) : Moved LNK i d (d.portDown i) := by
  have forget (e : Dev) : Moved LNK i e (e.forgetInput i) := ⟨fun _ _ => rfl, rfl, fun h => absurd rfl h⟩
  have drop : Moved LNK i d (d.portDrop i) := ((foldl freeTransit _ d).trans (forget _)).trans (setPort ..)
  have h := ((drop.trans (setF (f := R.LNK_STATUS_LSTATE) (j := i) _ (by simp [blockKeys, stateFields]) 0)).trans
    (setF (f := R.LNK_STATUS_LANES) (j := i) _ (by simp [blockKeys, stateFields]) 0)).trans
    (setF (f := R.LNK_STATUS_SPARED) (j := i) _ (by simp [blockKeys, stateFields]) 0)
  exact ite (h.trans (irq ..)) h

theorem stateFollows (d : Dev) {v : Nat} (hv : v ≠ stFailed) : Moved c i d (d.stateFollows c i v) := by
  unfold Dev.stateFollows
  split
  · next h => exact h.1 ▸ portDown d
  · split
    · next h =>
      obtain ⟨rfl, -⟩ := h
      exact setF d (by simp [blockKeys, stateFields]) 0
    · rw [if_neg (fun h => hv h.2)]
      exact refl d

theorem setBlk (d : Dev) {v : Nat} (hv : v ≠ stFailed) : Moved c i d (d.setBlk c i v) :=
  ite (refl d) ((((setReturned ..).trans (setF _ (by simp [blockKeys]) v)).trans (irq ..)).trans (stateFollows _ hv))

theorem takeWaiting (h : Moved c i d t) {b : Nat} (j : Nat) (hm : b = MED → d.mediaWait = []) (ht : b = THN → ∀ u, d.thnHolds u = false) :
    t.takeWaiting b j = t := by
  have media : t.mediaWait = d.mediaWait := by rw [h.rest]
  have thn : t.thn = d.thn := by rw [h.rest]
  have holds (u : Nat) : t.thnHolds u = d.thnHolds u := by simp only [Dev.thnHolds, Dev.thnUnit, thn]
  unfold Dev.takeWaiting
  split
  · next hb => rw [Dev.medWake, media, hm hb]; rfl
  · split
    · next hb => rw [Dev.thnTakeOver, if_neg (by simp [holds, ht hb])]
    · rfl

theorem settle (h : Moved c i d t) (hh : ∀ e ∈ d.ctl.order, e.phase = .running ∨ e.cmd.opc = 1) : t.settle = t :=
  Dev.settle_of_nothing_held (by rw [show t.ctl = d.ctl by rw [h.rest]]; exact hh)

end Moved

/-- The place of CLOCHE_REQ is not that of a field that follows a block's state. -/
theorem request_not_follower (c i b j : Nat) : (R.BLK_CTRL_CLOCHE_REQ b).key j ∉ stateFields c i := by
  have ne (f : Field) (h : (R.BLK_CTRL_CLOCHE_REQ b).place ≠ f.place) : (R.BLK_CTRL_CLOCHE_REQ b).key j ≠ f.key i := Field.key_ne h j i
  unfold stateFields
  split
  · simp [ne R.LNK_STATUS_LSTATE (by simp [Field.place, R.LNK_STATUS_LSTATE, R.BLK_CTRL_CLOCHE_REQ]),
      ne R.LNK_STATUS_LANES (by simp [Field.place, R.LNK_STATUS_LANES, R.BLK_CTRL_CLOCHE_REQ]),
      ne R.LNK_STATUS_SPARED (by simp [Field.place, R.LNK_STATUS_SPARED, R.BLK_CTRL_CLOCHE_REQ])]
  · split
    · simp [ne R.CEL_ARRAY_STATUS_NEXT_TAG (by simp [Field.place, R.CEL_ARRAY_STATUS_NEXT_TAG, R.BLK_CTRL_CLOCHE_REQ])]
    · simp

/-- A cloched block that has passed its test returns, with nothing waiting for it (R44, R486). -/
theorem Machine.Dev.returnBlock_spec {d : Dev} {c i : Nat} (hi : i < 2048) (hb : d.blk c i = stCloched) (ht : d.testPassed c i = true)
    (hr : d.getF (R.BLK_CTRL_CLOCHE_REQ c) i = 0) (hm : c = MED → d.mediaWait = []) (hth : c = THN → ∀ u, d.thnHolds u = false) :
    Moved c i d (d.returnBlock c i) ∧ (d.returnBlock c i).blk c i = stReady
      ∧ (d.returnBlock c i).getF (R.BLK_CTRL_CLOCHE_REQ c) i = 0 := by
  have moved : Moved c i d (((d.setPassed c i false).setBlk c i stReady).bump RAS 0 5 1) :=
    ((Moved.setPassed ..).trans (.setBlk _ (by decide))).trans (.count _)
  have e : d.returnBlock c i = ((d.setPassed c i false).setBlk c i stReady).bump RAS 0 5 1 := by
    rw [Dev.returnBlock, if_pos ⟨hb, ht, hr⟩]
    exact moved.takeWaiting i hm hth
  rw [e]
  refine ⟨moved, (StateKept.of_noise (.bump _ _ _ (by decide) _) hi).blk.trans (Dev.blk_setBlk _ (by decide) ?_), ?_⟩
  · show d.blk c i ≠ _
    rw [hb]
    decide
  · have calm : (R.BLK_CTRL_CLOCHE_REQ c).calm = true := by simp [Field.calm, R.BLK_CTRL_CLOCHE_REQ]
    refine ((Noise.bump _ RAS 0 (k := 5) (by decide) 1).getF_calm calm hi).trans (Eq.trans ?_ hr)
    rw [Dev.getF, mget, (Touches.setBlk (d.setPassed c i false) c i stReady).kept _ (Field.noiseKey_of_calm calm hi) ?_]
    · rfl
    · rintro (h | h)
      · exact Field.key_ne (by simp [Field.place, R.BLK_CTRL_CLOCHE_REQ, R.BLK_STATE_STATE]) _ _ h
      · exact request_not_follower c i c i h

/-- A quiesced block runs again, or is READY without a job, with nothing waiting for it (R44, R46). -/
theorem Machine.Dev.resumeBlock_spec {d : Dev} {c i : Nat} (hb : d.blk c i = stQuiesced)
    (hm : c = MED → d.mediaWait = []) (hth : c = THN → ∀ u, d.thnHolds u = false) :
    Moved c i d (d.resumeBlock c i) ∧ (d.resumeBlock c i).blk c i = if d.jobActive then stRunning else stReady := by
  have runs : Moved c i d (d.setBlk c i stRunning) := .setBlk d (by decide)
  have shows : (d.setBlk c i stRunning).blk c i = stRunning := Dev.blk_setBlk d (by decide) (by rw [hb]; decide)
  have job : (d.setBlk c i stRunning).jobActive = d.jobActive := by
    have key : R.GLB_JOB_STATUS_ACTIVE.key 0 ∉ stateFields c i := by
      unfold stateFields
      split
      · simp [Field.key_ne (f := R.GLB_JOB_STATUS_ACTIVE) (g := R.LNK_STATUS_LSTATE) (by decide),
          Field.key_ne (f := R.GLB_JOB_STATUS_ACTIVE) (g := R.LNK_STATUS_LANES) (by decide),
          Field.key_ne (f := R.GLB_JOB_STATUS_ACTIVE) (g := R.LNK_STATUS_SPARED) (by decide)]
      · split
        · simp [Field.key_ne (f := R.GLB_JOB_STATUS_ACTIVE) (g := R.CEL_ARRAY_STATUS_NEXT_TAG) (by decide)]
        · simp
    rw [Dev.jobActive, (Touches.setBlk d c i stRunning).getF (by decide) (by decide) ?_, Dev.jobActive]
    rintro (h | h)
    · exact Field.key_ne (f := R.GLB_JOB_STATUS_ACTIVE) (g := R.BLK_STATE_STATE c) (by simp [Field.place, R.GLB_JOB_STATUS_ACTIVE, R.BLK_STATE_STATE]) _ _ h
    · exact key h
  unfold Dev.resumeBlock
  dsimp only
  rw [job]
  split
  · rw [runs.takeWaiting i hm hth]
    exact ⟨runs, shows⟩
  · have ready := runs.trans (.setBlk (v := stReady) _ (by decide))
    rw [ready.takeWaiting i hm hth]
    exact ⟨ready, Dev.blk_setBlk _ (by decide) (by rw [shows]; decide)⟩

/-- Settles O10, command by command. -/
theorem blocksChangeStateByTheTable : Obligations.BlocksChangeStateByTheTable := by
  unfold Obligations.BlocksChangeStateByTheTable
  intro s w p hw hp hd st goes only
  have hi : p.inst < instancesOf p.cls := of_decide_eq_true hp
  obtain ⟨hc, hi'⟩ := class_lt hi
  have req (e : Dev) (f : Field) (h : f.key p.inst ∈ blockKeys p.cls p.inst) (hf : (R.BLK_STATE_STATE p.cls).place ≠ f.place) (v : Nat) :
      Moved p.cls p.inst e (e.setBoth f p.inst v) ∧ (e.setBoth f p.inst v).blk p.cls p.inst = e.blk p.cls p.inst :=
    ⟨.setBoth e h v, (StateKept.setF (c := p.cls) (i := p.inst) e hf p.inst v).blk⟩
  have enable (hs : st = stReady) (b : Bool) := req s.dev (R.BLK_CTRL_ENABLE p.cls) (by simp [blockKeys]) (by simp [Field.place, R.BLK_STATE_STATE, R.BLK_CTRL_ENABLE]) (b2n b)
  have writes (hs : st = stReady) (b : Bool) : s.dev.writeRl (R.BLK_CTRL_ENABLE p.cls) p.inst (b2n b) false = s.dev.setBoth (R.BLK_CTRL_ENABLE p.cls) p.inst (b2n b) := by
    rw [Dev.writeRl, if_pos (by simp [Dev.rlOpen, rlState, R.BLK_CTRL_ENABLE, show s.dev.blk p.cls p.inst = stReady from hs])]
    rfl
  have request (e : Dev) (b : Bool) := req e (R.BLK_CTRL_CLOCHE_REQ p.cls) (by simp [blockKeys]) (by simp [Field.place, R.BLK_STATE_STATE, R.BLK_CTRL_CLOCHE_REQ]) (b2n b)
  have quiet (e : Dev) (b : Bool) := req e (R.BLK_CTRL_QUIESCE_REQ p.cls) (by simp [blockKeys]) (by simp [Field.place, R.BLK_STATE_STATE, R.BLK_CTRL_QUIESCE_REQ]) (b2n b)
  refine ⟨fun hs => ⟨?_, ?_⟩, ?_, ?_, ?_, ?_, ?_, ?_, ?_, ?_, ?_, ?_, ?_, ?_, ?_, ?_⟩
  · refine .of_byWriter hw _ (Eq.refl (execEnable ..)) ?_
    rw [Dev.onPage_of_exists _ _ _ hp hd]
    dsimp only
    rw [if_pos ⟨rfl, hs⟩, writes hs]
    obtain ⟨moved, same⟩ := enable hs false
    refine ⟨Dev.blk_setBlk _ (by decide) ?_, (moved.trans (.setBlk _ (by decide))).frame⟩
    rw [same, show s.dev.blk p.cls p.inst = stReady from hs]
    decide
  · refine .of_byWriter hw _ (Eq.refl (execEnable ..)) ?_
    rw [Dev.onPage_of_exists _ _ _ hp hd]
    dsimp only
    rw [if_neg (fun h => absurd h.1 (by decide)), writes hs]
    obtain ⟨moved, same⟩ := enable hs true
    exact ⟨same.trans hs, moved.frame⟩
  · intro hs he hh hwait
    refine .of_onDev _ (Eq.refl (execBlockInitComplete ..)) hw.1 ?_
    rw [Dev.onPage_of_exists _ _ _ hp hd, if_pos ⟨hs, he⟩]
    have moved : Moved p.cls p.inst s.dev ((s.dev.setBlk p.cls p.inst stReady).setReturned p.cls p.inst (decide (p.cls = CEL) && s.dev.jobActive)) :=
      (Moved.setBlk s.dev (by decide)).trans (.setReturned ..)
    rw [moved.takeWaiting p.inst hwait.1 hwait.2, moved.settle hh]
    exact ⟨Dev.blk_setBlk s.dev (by decide) (by rw [show s.dev.blk p.cls p.inst = stOff from hs]; decide), moved.frame⟩
  · intro hg hs
    refine .of_byWriter hw _ (Eq.refl (execSoftReset ..)) ?_
    rw [Dev.onPage_of_exists _ _ _ hp hd]
    dsimp only
    have states : st = stReady ∨ st = stQuiesced ∨ st = stCloched ∨ st = stFailed := by simpa using hs
    have live : st ≠ stRunning ∧ st ≠ stRetired := by
      constructor <;> rcases states with h | h | h | h <;> rw [h] <;> decide
    rw [if_neg hg, if_neg live.1, if_pos states]
    exact Dev.blk_resetBlock hi live.2
  · intro hg hs
    refine .of_byWriter hw _ (Eq.refl (execSoftReset ..)) ?_
    rw [Dev.onPage_of_exists _ _ _ hp hd]
    dsimp only
    rw [if_neg hg, if_pos hs]
    exact ⟨(StateKept.of_noise (.lockedWrite ..) hi').blk.trans hs, Noise.errBit_lockedWrite .., (Reports.lockedWrite ..).mem,
      (Reports.lockedWrite ..).cells⟩
  · intro hs
    refine .of_byWriter hw _ (Eq.refl (execSoftReset ..)) ?_
    rw [Dev.onPage_of_exists _ _ _ hp hd]
    dsimp only
    split
    · rfl
    · next hg =>
      have states : st = stOff ∨ st = stRetired := hs.resolve_left hg
      have idle : st ≠ stRunning ∧ ¬ (st = stReady ∨ st = stQuiesced ∨ st = stCloched ∨ st = stFailed) := by
        rcases states with h | h <;> rw [h] <;> decide
      rw [if_neg idle.1, if_neg idle.2]
  · intro hcl hs
    refine .of_byWriter hw _ (Eq.refl (execClocheReq ..)) ?_
    rw [Dev.onPage_of_exists _ _ _ hp hd]
    obtain ⟨-, same⟩ := request s.dev true
    have states : st = stReady ∨ st = stQuiesced ∨ st = stFailed := by simpa using hs
    dsimp only
    rw [if_neg (by simp [hcl]), if_pos rfl, same, if_pos states]
    exact Dev.blk_clocheBlock hi (by rw [same]; show st ≠ _; rcases states with h | h | h <;> rw [h] <;> decide)
  · intro hcl hs
    refine .of_byWriter hw _ (Eq.refl (execClocheReq ..)) ?_
    rw [Dev.onPage_of_exists _ _ _ hp hd]
    obtain ⟨moved, same⟩ := request s.dev true
    have states : st = stOff ∨ st = stRunning ∨ st = stRetired := by simpa using hs
    dsimp only
    rw [if_neg (by simp [hcl]), if_pos rfl, same, if_neg (by show ¬ (st = _ ∨ st = _ ∨ st = _); rcases states with h | h | h <;> rw [h] <;> decide)]
    exact ⟨same, moved.frame⟩
  · intro hcl hs ht hh hwait
    refine .of_byWriter hw _ (Eq.refl (execClocheReq ..)) ?_
    rw [Dev.onPage_of_exists _ _ _ hp hd]
    obtain ⟨moved, same⟩ := request s.dev false
    obtain ⟨back, shows, -⟩ := Dev.returnBlock_spec (d := s.dev.setBoth (R.BLK_CTRL_CLOCHE_REQ p.cls) p.inst (b2n false)) hi' (same.trans hs) ht
      (Dev.getF_setF_of_lt s.dev (by show b2n false < 2 ^ 1; decide) p.inst) hwait.1 hwait.2
    dsimp only
    rw [if_neg (by simp [hcl]), if_neg (by decide), (moved.trans back).settle hh]
    exact ⟨shows, (moved.trans back).frame⟩
  · refine .of_byWriter hw _ (Eq.refl (execQuiesceReq ..)) ?_
    rw [Dev.onPage_of_exists _ _ _ hp hd]
    obtain ⟨moved, same⟩ := quiet s.dev true
    exact ⟨same, moved.frame⟩
  · intro hg hs hh hwait
    refine .of_byWriter hw _ (Eq.refl (execQuiesceReq ..)) ?_
    rw [Dev.onPage_of_exists _ _ _ hp hd]
    obtain ⟨moved, same⟩ := quiet s.dev false
    obtain ⟨back, shows⟩ := Dev.resumeBlock_spec (d := s.dev.setBoth (R.BLK_CTRL_QUIESCE_REQ p.cls) p.inst (b2n false)) (same.trans hs)
      hwait.1 hwait.2
    dsimp only
    rw [if_neg (by decide), if_neg hg, if_pos (same.trans hs), (moved.trans back).settle hh]
    refine ⟨shows.trans ?_, (moved.trans back).frame⟩
    have job : (s.dev.setF (R.BLK_CTRL_QUIESCE_REQ p.cls) p.inst (b2n false)).jobActive = s.dev.jobActive := by
      rw [Dev.jobActive, Dev.getF_setF_place (by simp [Field.place, R.GLB_JOB_STATUS_ACTIVE, R.BLK_CTRL_QUIESCE_REQ]), Dev.jobActive]
    exact congrArg (fun b : Bool => if b then stRunning else stReady) job
  · intro hg hs hq hcr hb
    refine .of_onDev _ (Eq.refl (execBlockQuiesced ..)) hw.1 ?_
    rw [Dev.onPage_of_exists _ _ _ hp hd, if_pos ⟨hg, hs, hq, hcr, hb⟩]
    exact ⟨Dev.blk_setBlk s.dev (by decide) (by rw [show s.dev.blk p.cls p.inst = stRunning from hs]; decide), (Moved.setBlk s.dev (by decide)).frame⟩
  · intro hcl hs hcr hb
    refine .of_onDev _ (Eq.refl (execBlockClochedAtBoundary ..)) hw.1 ?_
    rw [Dev.onPage_of_exists _ _ _ hp hd, if_pos ⟨hcl, hcr, by simp [Dev.mayCloche, hb, show s.dev.blk p.cls p.inst = stRunning from hs]⟩]
    exact Dev.blk_clocheBlock hi (by rw [show s.dev.blk p.cls p.inst = stRunning from hs]; decide)
  · intro hcl hs hcr hh hwait
    refine .of_onDev _ (Eq.refl (execClocheTestComplete p .pass s)) hw.1 ?_
    rw [Dev.onPage_of_exists _ _ _ hp hd]
    have kind : clochable p.cls = true ∧ p.cls ≠ CEL ∧ p.cls ≠ LNK := by
      simp only [List.mem_cons, List.not_mem_nil, or_false] at hcl
      rcases hcl with h | h | h | h <;> rw [h] <;> decide
    obtain ⟨hk, hcel, hlnk⟩ := kind
    set e : Dev := { s.dev with testFails := mdel (p.cls * 2048 + p.inst) s.dev.testFails }.setPassed p.cls p.inst true with hE
    have passed : Moved p.cls p.inst s.dev e := ⟨fun _ _ => rfl, rfl, fun _ => rfl⟩
    obtain ⟨back, shows, -⟩ := Dev.returnBlock_spec (d := e) hi' hs
      (by simp [hE, Dev.testPassed, Dev.setPassed]) hcr hwait.1 hwait.2
    dsimp only
    rw [if_neg (by simp [hk, hcel, show s.dev.blk p.cls p.inst = stCloched from hs]), if_neg hlnk, ← hE, (passed.trans back).settle hh]
    exact ⟨shows, (passed.trans back).frame⟩
  · intro hs
    refine .of_onDev _ (Eq.refl (execBlockFailed ..)) hw.1 ?_
    rw [Dev.onPage_of_exists _ _ _ hp hd]
    have states : st = stReady ∨ st = stRunning ∨ st = stQuiesced := by simpa using hs
    dsimp only
    rw [if_pos states]
    have tiles : StateKept p.cls p.inst s.dev (if p.cls = CEL then ((s.dev.returnTile p.inst).clearTileRegs p.inst).setF R.CEL_SEQ_STATUS_RUN p.inst
        (s.dev.getF R.CEL_SEQ_STATUS_RUN p.inst) else s.dev) := by
      obtain ⟨-, nv, -, kept⟩ := Dev.returnTile_spec s.dev p.inst
      have back : StateKept p.cls p.inst s.dev (s.dev.returnTile p.inst) := .of_touches (kept fun _ => False) nv hi' (fun h => h)
      have cleared (e : Dev) : StateKept p.cls p.inst e (e.clearTileRegs p.inst) :=
        ((StateKept.setF e (f := R.CEL_TILE_STATUS_HOLDING) (by simp [Field.place, R.BLK_STATE_STATE, R.CEL_TILE_STATUS_HOLDING]) _ _).trans
          (.setF _ (f := R.CEL_ARRAY_STATUS_IN_FLIGHT) (by simp [Field.place, R.BLK_STATE_STATE, R.CEL_ARRAY_STATUS_IN_FLIGHT]) _ _)).trans
          (.setF _ (f := R.CEL_SEQ_STATUS_RUN) (by simp [Field.place, R.BLK_STATE_STATE, R.CEL_SEQ_STATUS_RUN]) _ _)
      exact .ite ((back.trans (cleared _)).trans (.setF _ (by simp [Field.place, R.BLK_STATE_STATE, R.CEL_SEQ_STATUS_RUN]) _ _)) (.refl _)
    revert tiles
    generalize (if p.cls = CEL then ((s.dev.returnTile p.inst).clearTileRegs p.inst).setF R.CEL_SEQ_STATUS_RUN p.inst
        (s.dev.getF R.CEL_SEQ_STATUS_RUN p.inst) else s.dev) = e
    intro tiles
    have failed := Dev.blk_failBlock (d := e) (c := p.cls) (i := p.inst) hi'
      (by rw [tiles.blk]; show st ≠ _; rcases states with h | h | h <;> rw [h] <;> decide) (if p.cls = GLB then 2 else 0)
    have work := StateKept.moveWork (c := p.cls) (i := p.inst) hi' (d := e.failBlock p.cls p.inst (if p.cls = GLB then 2 else 0)) (by simp [failed])
    have units (t : Dev) : StateKept p.cls p.inst t (t.checkUnits p.cls) := .ite (.of_noise (.raiseReplace ..) hi') (.refl t)
    exact (units _).blk.trans (work.blk.trans failed)
  · intro hs
    refine .of_onDev _ (Eq.refl (execBlockFailed ..)) hw.1 ?_
    rw [Dev.onPage_of_exists _ _ _ hp hd]
    have states : st = stOff ∨ st = stCloched ∨ st = stFailed ∨ st = stRetired := by simpa using hs
    exact if_neg (by show ¬ (st = _ ∨ st = _ ∨ st = _); rcases states with h | h | h | h <;> rw [h] <;> decide)

end Sys2Proof
end

