-- ==== Sys2Proof/Proofs/CellTests.lean ====
section
/-! Cell faults and cell tests (R389, R485 to R488). -/

namespace Sys2Proof.Machine

/-- The fields of TRL_TEST. -/
def testFields : List Field := [R.TRL_TEST_VALID, R.TRL_TEST_RESULT, R.TRL_TEST_UNIT, R.TRL_TEST_PHYSICAL]

/-- What a record of a test, and what follows it, leaves of the device: memory, the retired cells, and a valid TRL_TEST. -/
structure Recorded (d t : Dev) : Prop where
  mem : t.mem = d.mem
  retired : ∀ p ∈ d.nv.retired, p ∈ t.nv.retired
  valid : d.getF R.TRL_TEST_VALID 0 = 1 → t.getF R.TRL_TEST_VALID 0 = 1

namespace Recorded

variable {d e t : Dev}

theorem refl (d : Dev) : Recorded d d := ⟨rfl, fun _ h => h, id⟩

theorem trans (h1 : Recorded d e) (h2 : Recorded e t) : Recorded d t :=
  ⟨h2.mem.trans h1.mem, fun p hp => h2.retired p (h1.retired p hp), fun h => h2.valid (h1.valid h)⟩

theorem of_noise (h : Noise d t) : Recorded d t :=
  ⟨h.reports.mem, fun p hp => by rw [h.reports.nv]; exact hp, fun hv => (h.getF (by decide) (by decide)).trans hv⟩

theorem ite {a b : Dev} {p : Prop} [Decidable p] (ha : Recorded d a) (hb : Recorded d b) : Recorded d (if p then a else b) := by
  split
  · exact ha
  · exact hb

theorem of_fields (hm : t.mem = d.mem) (hr : t.nv.retired = d.nv.retired) (hf : t.fields = d.fields) : Recorded d t :=
  ⟨hm, fun p hp => by rw [hr]; exact hp, fun h => by simpa only [Dev.getF, hf] using h⟩

theorem setF (d : Dev) {f : Field} (h : R.TRL_TEST_VALID.place ≠ f.place) (i v : Nat) : Recorded d (d.setF f i v) :=
  ⟨rfl, fun _ hp => hp, fun hv => (Dev.getF_setF_place h ..).trans hv⟩

theorem setBlk (d : Dev) (i v : Nat) : Recorded d (d.setBlk CEL i v) := by
  have frame := StateFrame.setBlk d CEL i v
  refine ⟨frame.mem, fun p hp => by rw [frame.nv]; exact hp, fun hv => ?_⟩
  refine ((Touches.setBlk d CEL i v).getF (by decide) (by decide) ?_).trans hv
  rintro (h | h)
  · exact Field.key_ne (f := R.TRL_TEST_VALID) (g := R.BLK_STATE_STATE CEL) (by decide) _ _ h
  · simp only [stateFields, CEL, LNK] at h
    exact Field.key_ne (f := R.TRL_TEST_VALID) (g := R.CEL_ARRAY_STATUS_NEXT_TAG) (by decide) _ _ (by simpa using h)

end Recorded

/-- TRL_TEST shows the test that is recorded, and FAIL sets TEST_FAIL (R485, R498, R499). -/
theorem Dev.recordTest_shows (d : Dev) (cell : Nat) {result : Nat} (hr : result < 4) (unit : Nat) :
    let t := d.recordTest cell result unit
    t.getF R.TRL_TEST_VALID 0 = 1 ∧ t.getF R.TRL_TEST_PHYSICAL 0 = cell % 2 ^ 11 ∧ t.getF R.TRL_TEST_RESULT 0 = result
      ∧ t.getF R.TRL_TEST_UNIT 0 = unit % 2 ^ R.TRL_TEST_UNIT.width ∧ (result = 2 → t.errBit TRL 0 18 = true) := by
  intro t
  obtain ⟨e, he, noise, err⟩ : ∃ e, e = (((d.setF R.TRL_TEST_VALID 0 1).setF R.TRL_TEST_RESULT 0 result).setF R.TRL_TEST_UNIT 0 unit).setF
      R.TRL_TEST_PHYSICAL 0 cell ∧ Noise e t ∧ (result = 2 → t.errBit TRL 0 18 = true) := by
    refine ⟨_, rfl, (Noise.bump _ TRL 0 (k := 1) (by decide) 1).trans (.ite (.setErrFull ..) (.refl _)), fun h2 => ?_⟩
    simp only [t, Dev.recordTest, if_pos h2]
    exact Noise.errBit_setErrFull _ _ _ (by decide) ..
  refine ⟨(noise.getF (by decide) (by decide)).trans ?_, (noise.getF (by decide) (by decide)).trans ?_,
    (noise.getF (by decide) (by decide)).trans ?_, (noise.getF (by decide) (by decide)).trans ?_, err⟩ <;> rw [he]
  · rw [Dev.getF_setF_place (by decide), Dev.getF_setF_place (by decide), Dev.getF_setF_place (by decide)]
    exact Dev.getF_setF_of_lt _ (by decide) 0
  · exact Dev.getF_setF_same ..
  · rw [Dev.getF_setF_place (by decide), Dev.getF_setF_place (by decide)]
    exact Dev.getF_setF_of_lt _ hr 0
  · rw [Dev.getF_setF_place (by decide)]
    exact Dev.getF_setF_same ..

/-- A record of a test touches TRL_TEST and reports. -/
theorem Dev.recordTest_touches (d : Dev) (cell result unit : Nat) :
    Touches (homes (testFields.map (·, 0))) d (d.recordTest cell result unit) := by
  have set (e : Dev) (f : Field) (h : f ∈ testFields) (hp : f.place ≠ 1024) (v : Nat) :
      Touches (homes (testFields.map (·, 0))) e (e.setF f 0 v) := .setF e ⟨(f, 0), List.mem_map_of_mem h, rfl⟩ hp v
  have noise (e : Dev) : Noise e (if result = 2 then (e.bump TRL 0 1 1).setErrFull TRL 0 18 0 2 0 else e.bump TRL 0 1 1) :=
    .ite ((Noise.bump e TRL 0 (by decide) 1).trans (.setErrFull ..)) (.bump e TRL 0 (by decide) 1)
  exact ((((set d R.TRL_TEST_VALID (by decide) (by decide) 1).trans (set _ R.TRL_TEST_RESULT (by decide) (by decide) result)).trans
    (set _ R.TRL_TEST_UNIT (by decide) (by decide) unit)).trans (set _ R.TRL_TEST_PHYSICAL (by decide) (by decide) cell)).trans
    ((noise _).touches _)

theorem Dev.recordTest_reports (d : Dev) (cell result unit : Nat) : Reports d (d.recordTest cell result unit) := by
  have noise (e : Dev) : Reports e (if result = 2 then (e.bump TRL 0 1 1).setErrFull TRL 0 18 0 2 0 else e.bump TRL 0 1 1) :=
    .ite ((Reports.bump ..).trans (.setErrFull ..)) (.bump ..)
  exact ((((Reports.setF ..).trans (.setF ..)).trans (.setF ..)).trans (.setF ..)).trans (noise _)

namespace Recorded

theorem recordTest (d : Dev) (cell : Nat) {result : Nat} (hr : result < 4) (unit : Nat) :
    Recorded d (d.recordTest cell result unit) := by
  have h := d.recordTest_reports cell result unit
  exact ⟨h.mem, fun p hp => by rw [h.nv]; exact hp, fun _ => (d.recordTest_shows cell hr unit).1⟩

theorem retireCell (d : Dev) (p : Nat) : Recorded d (d.retireCell p) := by
  unfold Dev.retireCell
  refine ite (refl d) ?_
  extract_lets nv e
  have noise : Noise e ((((e.irq CEL p 2).irq CEL p 4).bump TRL 0 3 1).checkCells) :=
    (((Noise.irq ..).trans (.irq ..)).trans (.bump _ TRL 0 (by decide) 1)).trans (.ite (.raiseReplace ..) (.refl _))
  exact .trans (e := e) ⟨rfl, fun q hq => mem_insertSet_iff.mpr (.inr hq), id⟩ (.of_noise noise)

theorem spareReady (d : Dev) (q : Nat) : Recorded d (d.spareReady q) := ite (refl d) (setBlk ..)

theorem graftInto (d : Dev) (l old : Nat) (x : CellTest) (qs : List Nat) : Recorded d (d.graftInto l old x qs) := by
  induction qs generalizing d with
  | nil => exact .trans (e := { d with nv := { d.nv with mapChanges := mput l none d.nv.mapChanges } }) ⟨rfl, fun _ h => h, id⟩ (.of_noise (.setErrFull ..))
  | cons q qs ih =>
    unfold Dev.graftInto
    split
    · extract_lets e1 nv e2 e3 e4
      have h1 : Recorded d e1 := recordTest d q (by decide) 0
      clear_value e1
      have h2 : Recorded e1 e3 := ⟨rfl, fun _ h => h, id⟩
      clear_value e3
      have h3 : Recorded e3 e4 :=
        (((setF e3 (by decide) 0 q).trans (setF _ (by decide) 0 old)).trans (setF _ (by decide) 0 l)).trans (.of_noise (.bump _ TRL 0 (by decide) 1))
      clear_value e4
      have h4 : Recorded e4 ((e4.spareReady q).setReturned CEL q e4.jobActive) := (spareReady e4 q).trans (.of_fields rfl rfl rfl)
      have h5 (e : Dev) : Recorded e (e.checkCells.policyTaken TRL 0) := (of_noise (.ite (.raiseReplace ..) (.refl _))).trans (of_noise (.policyTaken ..))
      exact ((h1.trans h2).trans h3).trans (h4.trans (h5 _))
    · exact ((recordTest d q (by decide) _).trans (retireCell ..)).trans (ih _)

theorem graftFor (d : Dev) (p : Nat) (l : Option Nat) (x : CellTest) : Recorded d (d.graftFor p l x) := by
  unfold Dev.graftFor
  split
  · exact refl d
  · exact ite (of_noise ((Noise.policyWithheld ..).trans (.setErr ..))) (graftInto ..)

theorem retireTested (d : Dev) (p : Nat) (x : CellTest) : Recorded (d.retireCell p) (d.retireTested p x) :=
  have h := graftFor (d.retireCell p) p (d.logicalOf p) x
  h.trans (of_noise (Noise.healthFrom d ((d.retireCell p).graftFor p (d.logicalOf p) x)))

end Recorded

/-- The retirement of a cell, apart from the reports that follow (R45). -/
theorem Dev.retireCell_noise (d : Dev) (p : Nat) :
    ∃ e : Dev, p ∈ e.nv.retired ∧ e.fields = d.fields ∧ e.acting = d.acting ∧ Noise e (d.retireCell p) := by
  unfold Dev.retireCell
  split
  · next h => exact ⟨d, by simpa using h, rfl, rfl, .refl d⟩
  · refine ⟨{ d with nv := { d.nv with retired := insertSet p d.nv.retired } }, mem_insertSet_iff.mpr (.inl rfl), rfl, rfl, ?_⟩
    exact (((Noise.irq ..).trans (.irq ..)).trans (.bump _ TRL 0 (by decide) 1)).trans (.ite (.raiseReplace ..) (.refl _))

theorem Dev.mem_retireTested (d : Dev) (p : Nat) (x : CellTest) : p ∈ (d.retireTested p x).nv.retired := by
  obtain ⟨e, he, -, -, noise⟩ := d.retireCell_noise p
  exact (Recorded.retireTested d p x).retired p (by rw [noise.reports.nv]; exact he)

/-- A retired cell stays so (R45, R486). -/
theorem Dev.blk_of_retired {d : Dev} {p : Nat} (h : p ∈ d.nv.retired) : d.blk CEL p = stRetired := by
  have hc : d.nv.retired.contains p = true := by simpa using h
  rw [Dev.blk, hc, Bool.or_true]
  rfl

/-- While grafts are withheld, reports alone follow a retirement (R65). -/
theorem Dev.retireTested_held (d : Dev) (p : Nat) (x : CellTest) (hh : d.held TRL 0 = true) :
    ∃ e : Dev, e.fields = d.fields ∧ Noise e (d.retireTested p x) := by
  obtain ⟨e, -, hf, ha, noise⟩ := d.retireCell_noise p
  refine ⟨e, hf, ?_⟩
  have held : (d.retireCell p).held TRL 0 = true := by
    simp only [Dev.held, Dev.actF, noise.reports.acting, ha] at hh ⊢
    exact hh
  have graft : Noise (d.retireCell p) ((d.retireCell p).graftFor p (d.logicalOf p) x) := by
    unfold Dev.graftFor
    split
    · exact .refl _
    · rw [if_pos held]
      exact (Noise.policyWithheld ..).trans (.setErr ..)
  exact (noise.trans graft).trans (Noise.healthFrom d _)

end Sys2Proof.Machine

namespace Sys2Proof

open Machine

/-- The fields that a change of a cell's state touches. -/
def cellStateFields : List Field :=
  [R.BLK_CTRL_ENABLE CEL, R.BLK_CTRL_CLOCHE_REQ CEL, R.BLK_CTRL_QUIESCE_REQ CEL, R.BLK_STATE_STATE CEL, R.BLK_IRQ_PEND CEL,
    R.COUNTER RAS 5, R.CEL_ARRAY_STATUS_NEXT_TAG]

theorem mem_blockKeys_cell {p k : Nat} (h : k ∈ blockKeys CEL p) : ∃ f ∈ cellStateFields, ∃ j, k = f.key j := by
  have hs : stateFields CEL p = [R.CEL_ARRAY_STATUS_NEXT_TAG.key p] := rfl
  rw [blockKeys, hs] at h
  simp only [List.cons_append, List.nil_append, List.mem_cons, List.not_mem_nil, or_false] at h
  rcases h with h | h | h | h | h | h | h
  · exact ⟨R.BLK_CTRL_ENABLE CEL, by simp [cellStateFields], p, h⟩
  · exact ⟨R.BLK_CTRL_CLOCHE_REQ CEL, by simp [cellStateFields], p, h⟩
  · exact ⟨R.BLK_CTRL_QUIESCE_REQ CEL, by simp [cellStateFields], p, h⟩
  · exact ⟨R.BLK_STATE_STATE CEL, by simp [cellStateFields], p, h⟩
  · exact ⟨R.BLK_IRQ_PEND CEL, by simp [cellStateFields], p, h⟩
  · exact ⟨R.COUNTER RAS 5, by simp [cellStateFields], 0, h⟩
  · exact ⟨R.CEL_ARRAY_STATUS_NEXT_TAG, by simp [cellStateFields], p, h⟩

/-- A field that no change of a cell's state touches. -/
theorem Moved.getF {p : Nat} {d t : Dev} (h : Moved CEL p d t) {f : Field} (hf : f.place ∉ cellStateFields.map Field.place) (i : Nat) :
    t.getF f i = d.getF f i := by
  have out : f.key i ∉ blockKeys CEL p := fun hk => by
    obtain ⟨g, hg, j, e⟩ := mem_blockKeys_cell hk
    exact Field.key_ne (fun e' => hf (by rw [e']; exact List.mem_map_of_mem hg)) i j e
  rw [Dev.getF, mget, h.kept _ out]
  rfl

/-- A cell that has passed its test returns once CLOCHE_REQ is 0, which the end of a cloche on a fault makes it (R486). -/
theorem Machine.Dev.cellPassed_spec {d : Dev} {p : Nat} (hp : p < 1152) (hb : d.blk CEL p = stCloched) :
    Moved CEL p d (d.cellPassed p)
      ∧ (d.getF (R.BLK_CTRL_CLOCHE_REQ CEL) p = 0 ∨ (mfind (faultKey p) d.testFails).isSome = true →
          (d.cellPassed p).blk CEL p = stReady ∧ (d.cellPassed p).getF (R.BLK_CTRL_CLOCHE_REQ CEL) p = 0)
      ∧ (d.getF (R.BLK_CTRL_CLOCHE_REQ CEL) p ≠ 0 → (mfind (faultKey p) d.testFails).isSome = false →
          (d.cellPassed p).blk CEL p = stCloched) := by
  have hp' : p < 2048 := by omega
  obtain ⟨ended, same, asked⟩ : Moved CEL p d (d.endFault p) ∧ (d.endFault p).blk CEL p = stCloched
      ∧ (d.endFault p).getF (R.BLK_CTRL_CLOCHE_REQ CEL) p = if (mfind (faultKey p) d.testFails).isSome then 0 else d.getF (R.BLK_CTRL_CLOCHE_REQ CEL) p := by
    unfold Dev.endFault
    cases hm : mfind (faultKey p) d.testFails with
    | none => exact ⟨.refl d, hb, rfl⟩
    | some n =>
      have mark : Moved CEL p d { d with testFails := mdel (faultKey p) d.testFails } := ⟨fun _ _ => rfl, rfl, fun _ => rfl⟩
      exact ⟨mark.trans (.setBoth _ (f := R.BLK_CTRL_CLOCHE_REQ CEL) (j := p) (by simp [blockKeys]) 0),
        (StateKept.setF (c := CEL) (i := p) _ (f := R.BLK_CTRL_CLOCHE_REQ CEL) (by decide) p 0).blk.trans hb, Dev.getF_setF_of_lt _ (by decide) p⟩
  set e : Dev := (d.endFault p).setPassed CEL p true with he
  have passed : Moved CEL p d e := ended.trans (.setPassed ..)
  have req : e.getF (R.BLK_CTRL_CLOCHE_REQ CEL) p = (d.endFault p).getF (R.BLK_CTRL_CLOCHE_REQ CEL) p := rfl
  have returns (h0 : e.getF (R.BLK_CTRL_CLOCHE_REQ CEL) p = 0) : Moved CEL p e (e.returnBlock CEL p) ∧ (e.returnBlock CEL p).blk CEL p = stReady
      ∧ (e.returnBlock CEL p).getF (R.BLK_CTRL_CLOCHE_REQ CEL) p = 0 :=
    Dev.returnBlock_spec hp' same (by simp [he, Dev.testPassed, Dev.setPassed]) h0 (fun h => absurd h (by decide)) (fun h => absurd h (by decide))
  have stays (h0 : e.getF (R.BLK_CTRL_CLOCHE_REQ CEL) p ≠ 0) : e.returnBlock CEL p = e := by
    rw [Dev.returnBlock, if_neg (fun h => h0 h.2.2)]
  show Moved CEL p d (e.returnBlock CEL p) ∧ (_ → (e.returnBlock CEL p).blk CEL p = stReady ∧ (e.returnBlock CEL p).getF _ p = 0)
    ∧ (_ → _ → (e.returnBlock CEL p).blk CEL p = stCloched)
  by_cases h0 : e.getF (R.BLK_CTRL_CLOCHE_REQ CEL) p = 0
  · obtain ⟨moved, ready⟩ := returns h0
    refine ⟨passed.trans moved, fun _ => ready, fun hn hf => ?_⟩
    rw [req, asked, hf] at h0
    exact absurd h0 hn
  · rw [stays h0]
    refine ⟨passed, fun h => absurd ?_ h0, fun _ _ => same⟩
    rw [req, asked]
    rcases h with h | h
    · split
      · rfl
      · exact h
    · rw [if_pos h]

/-- What follows the record of a test, by its outcome (R486). -/
def Machine.Dev.concludeTest (d : Dev) (cell : Nat) (x : CellTest) : TestOutcome → Dev
  | .pass => d.cellPassed cell
  | .fail => d.retireTested cell x
  | .repairable rows cols =>
    if d.getF R.CEL_SPARE_POLICY_POLICY cell = 1 then d.retireTested cell x
    else if d.held CEL cell then d.policyWithheld CEL cell
    else
      let d := d.repairCell cell rows cols
      if x.retest then (d.recordTest cell 0 0).cellPassed cell
      else (d.recordTest cell 2 (mget 0 x.spareUnits cell)).retireTested cell x

theorem exec_cellTestComplete {s : State} {cell : Nat} (x : CellTest) (hc : cell < 1152) (hb : s.dev.blk CEL cell = stCloched) :
    exec (.cellTestComplete cell x) s = s.onDev fun _ =>
      let o := s.dev.testOutcome cell x
      let e := s.dev.recordTest cell (testCode o) x.unit
      if max 1 (e.getF R.TRL_CELL_POLICY_FAULT_LIM 0) ≤ e.recentFaults cell then (e.retireTested cell x).setErrFull TRL 0 19 0 2 0
      else e.concludeTest cell x o := by
  show execCellTestComplete cell x s = _
  have h : ¬ (s.dev.blk CEL cell ≠ stCloched ∨ 1152 ≤ cell) := not_or.mpr ⟨not_not_intro hb, Nat.not_le.mpr hc⟩
  rw [execCellTestComplete, State.onDev, State.onDev]
  simp only [if_neg h]
  unfold Dev.concludeTest
  rfl

/-- The device with the bypasses that a repair adds (R108, R484). -/
def Machine.Dev.bypassed (d : Dev) (cell : Nat) (rows cols : List Nat) : Dev :=
  let b := mget ⟨[], []⟩ d.nv.fieldBypass cell
  let u := d.uncovered cell rows cols
  { d with nv := { d.nv with fieldBypass := mput cell ⟨mergeAsc b.rows u.1, mergeAsc b.cols u.2⟩ d.nv.fieldBypass } }

/-- Reports follow the bypasses of a repair (R108, R484). -/
theorem Machine.Dev.repairCell_noise (d : Dev) (cell : Nat) (rows cols : List Nat) :
    Noise (d.bypassed cell rows cols) (d.repairCell cell rows cols) :=
  ((Noise.bump _ TRL 0 (by decide) _).trans (.irq ..)).trans (.policyTaken ..)

theorem Moved.recorded {p : Nat} {d t : Dev} (h : Moved CEL p d t) : Recorded d t := by
  have valid := h.getF (f := R.TRL_TEST_VALID) (by decide) 0
  have mem : t.mem = d.mem := by rw [h.rest]
  have nv : t.nv = d.nv := by rw [h.rest]
  exact ⟨mem, fun p hp => by rw [nv]; exact hp, fun hv => valid.trans hv⟩

/-- A cell that is cloched after its test is recorded, and what follows keeps the record. -/
theorem Machine.Recorded.concludeTest {d : Dev} {cell : Nat} (hc : cell < 1152) (hb : d.blk CEL cell = stCloched) (x : CellTest) (o : TestOutcome) :
    Recorded d (d.concludeTest cell x o) := by
  have hp : cell < 2048 := by omega
  have retired (e : Dev) : Recorded e (e.retireTested cell x) := (Recorded.retireCell e cell).trans (Recorded.retireTested e cell x)
  cases o with
  | pass => exact (Dev.cellPassed_spec hc hb).1.recorded
  | fail => exact retired d
  | repairable rows cols =>
    have noise := d.repairCell_noise cell rows cols
    have repaired : Recorded d (d.repairCell cell rows cols) := .trans (e := d.bypassed cell rows cols) ⟨rfl, fun _ h => h, id⟩ (.of_noise noise)
    have again := Recorded.recordTest (d.repairCell cell rows cols) cell (result := 2) (by decide) (mget 0 x.spareUnits cell)
    have cloched : ((d.repairCell cell rows cols).recordTest cell 0 0).blk CEL cell = stCloched := by
      rw [(Dev.recordTest_touches _ cell 0 0).blk (not_homes_map (by decide) 0 cell) (Dev.recordTest_reports ..).nv,
        noise.blk]
      exact hb
    exact .ite (retired d) (.ite (.of_noise (.policyWithheld ..)) (.ite ((repaired.trans (.recordTest _ cell (by decide) 0)).trans
      (Dev.cellPassed_spec hc cloched).1.recorded) ((repaired.trans again).trans (retired _))))

/-- The trap of a cell-store error sets STORE_UNCORR (R97). -/
theorem Machine.Dev.errBit_trapFlags_store (d : Dev) (cell addr : Nat) : (d.trapFlags cell 8 addr).errBit CEL cell 20 = true :=
  ((Noise.bump _ CEL cell (k := 7) (by decide) 1).trans (.setErrFull ..)).errs _ _ _ (by decide) (Noise.errBit_setErr _ _ _ (by decide))

/-- A cell in service that is cloched on a fault, after the flags of its kind (R389). -/
theorem Machine.Dev.faultCloche_spec {d e : Dev} {cell : Nat} (hc : cell < 1152) (h : Reports d e) (hb : e.blk CEL cell = d.blk CEL cell)
    (hs : d.blk CEL cell ∈ [stReady, stRunning, stQuiesced]) :
    let t := (e.setPassed CEL cell false).clocheFault cell
    t.blk CEL cell = stCloched ∧ (t.cell cell).tiles = [] ∧ (t.cell cell).adds = [] ∧ t.mem = d.mem
      ∧ mget [] t.nv.faultCloches cell = 0 :: mget [] d.nv.faultCloches cell
      ∧ (∀ b, b < 32 → e.errBit CEL cell b = true → t.errBit CEL cell b = true)
      ∧ t.getF R.CEL_SEQ_STATUS_TRAP_CAUSE cell = e.getF R.CEL_SEQ_STATUS_TRAP_CAUSE cell := by
  have serves : (e.setPassed CEL cell false).inService cell = true := by
    have state : (e.setPassed CEL cell false).blk CEL cell = d.blk CEL cell := hb
    have states : d.blk CEL cell = stReady ∨ d.blk CEL cell = stRunning ∨ d.blk CEL cell = stQuiesced := by simpa using hs
    rw [Dev.inService, state]
    rcases states with h | h | h <;> rw [h] <;> decide
  have spec := Dev.clocheFault_spec hc serves
  refine ⟨spec.blk, by rw [spec.cell]; rfl, by rw [spec.cell]; rfl, spec.mem.trans h.mem, ?_, fun b hb he => spec.errs _ _ b hb he,
    spec.kept _ (by decide) rfl (by decide)⟩
  rw [spec.nv, mget, mfind_mput_same, ← h.nv]
  rfl

/-- The sequencer of a cell that has been cloched is marked as stopped by a trap (R97). -/
theorem Machine.Dev.blk_setF_run (t : Dev) (cell v : Nat) : (t.setF R.CEL_SEQ_STATUS_RUN cell v).blk CEL cell = t.blk CEL cell :=
  (StateKept.setF (c := CEL) (i := cell) t (f := R.CEL_SEQ_STATUS_RUN) (by decide) cell v).blk

theorem cellFaultsCloche : CellFaultsCloche := by
  intro s cell k hu hc
  have hp : cell < 2048 := by omega
  refine ⟨fun hs => ?_, fun hs => ?_⟩
  · have live : ¬ (1152 ≤ cell ∨ s.dev.blk CEL cell = stRetired) := by
      have states : s.dev.blk CEL cell = stReady ∨ s.dev.blk CEL cell = stRunning ∨ s.dev.blk CEL cell = stQuiesced := by simpa using hs
      refine not_or.mpr ⟨Nat.not_le.mpr hc, ?_⟩
      rcases states with h | h | h <;> rw [h] <;> decide
    have array : let t := ((s.dev.setErrFull CEL cell 22 0 1 0).setPassed CEL cell false).clocheFault cell
        t.blk CEL cell = stCloched ∧ (t.cell cell).tiles = [] ∧ (t.cell cell).adds = [] ∧ t.mem = s.dev.mem
          ∧ mget [] t.nv.faultCloches cell = 0 :: mget [] s.dev.nv.faultCloches cell ∧ t.errBit CEL cell 22 = true := by
      have noise := Noise.setErrFull s.dev CEL cell 22 0 1 0
      obtain ⟨hb, ht, ha, hm, hf, he, -⟩ := Dev.faultCloche_spec hc noise.reports (noise.blk) hs
      exact ⟨hb, ht, ha, hm, hf, he 22 (by decide) (Noise.errBit_setErrFull _ _ _ (by decide) ..)⟩
    have trap (cause : Nat) (hcause : cause < 16) :
        let t := (((s.dev.trapFlags cell cause 0).setPassed CEL cell false).clocheFault cell).setF R.CEL_SEQ_STATUS_RUN cell 3
        t.blk CEL cell = stCloched ∧ (t.cell cell).tiles = [] ∧ (t.cell cell).adds = [] ∧ t.mem = s.dev.mem
          ∧ mget [] t.nv.faultCloches cell = 0 :: mget [] s.dev.nv.faultCloches cell ∧ t.getF R.CEL_SEQ_STATUS_RUN cell = 3
          ∧ t.getF R.CEL_SEQ_STATUS_TRAP_CAUSE cell = cause
          ∧ ((s.dev.trapFlags cell cause 0).errBit CEL cell 20 = true → t.errBit CEL cell 20 = true) := by
      have flags := Dev.trapFlags_spec s.dev hp 0 hcause
      obtain ⟨hb, ht, ha, hm, hf, he, hk⟩ := Dev.faultCloche_spec hc flags.frame flags.blk hs
      exact ⟨(Dev.blk_setF_run ..).trans hb, ht, ha, hm, hf, Dev.getF_setF_of_lt _ (by decide) cell,
        (Dev.getF_setF_place (by decide) ..).trans (hk.trans flags.cause),
        fun h => (Dev.errBit_setF_place (by decide) ..).trans (he 20 (by decide) h)⟩
    refine .of_onDev _ (Eq.refl (execCellFault ..)) hu ?_
    unfold Dev.cellFault
    rw [if_neg live]
    cases k with
    | arrayParity =>
      obtain ⟨hb, ht, ha, hm, hf, he⟩ := array
      exact ⟨hb, ht, ha, hm, hf, fun _ => he, nofun, nofun⟩
    | stagingSram =>
      obtain ⟨hb, ht, ha, hm, hf, he⟩ := array
      exact ⟨hb, ht, ha, hm, hf, fun _ => he, nofun, nofun⟩
    | ifetchUncorr =>
      obtain ⟨hb, ht, ha, hm, hf, hr, hk, -⟩ := trap 2 (by decide)
      exact ⟨hb, ht, ha, hm, hf, by simp, fun _ => ⟨hr, hk⟩, nofun⟩
    | storeUncorr =>
      obtain ⟨hb, ht, ha, hm, hf, hr, hk, he⟩ := trap 8 (by decide)
      exact ⟨hb, ht, ha, hm, hf, by simp, nofun, fun _ => ⟨hr, hk, he (Dev.errBit_trapFlags_store ..)⟩⟩
  · refine .of_onDev _ (Eq.refl (execCellFault ..)) hu ?_
    exact if_pos (.inr hs)

theorem cellTestsReturnOrRetire : CellTestsReturnOrRetire := by
  intro s cell x rows cols hu hc hb within test asked onFault failed shows
  have hp : cell < 2048 := by omega
  set o := s.dev.testOutcome cell x with ho
  have code : testCode o < 4 := by
    cases o with
    | pass => decide
    | fail => decide
    | repairable => exact (by decide : 1 < 4)
  set e := s.dev.recordTest cell (testCode o) x.unit with he
  have rep : Reports s.dev e := s.dev.recordTest_reports ..
  have touched : Touches (homes (testFields.map (·, 0))) s.dev e := s.dev.recordTest_touches ..
  obtain ⟨valid, phys, result, unit, errd⟩ := s.dev.recordTest_shows cell code x.unit
  have cellNum : cell % 2 ^ 11 = cell := Nat.mod_eq_of_lt hp
  rw [cellNum] at phys
  have same : e.blk CEL cell = stCloched := (touched.blk (not_homes_map (by decide) 0 cell) rep.nv).trans hb
  have limit : (max 1 (e.getF R.TRL_CELL_POLICY_FAULT_LIM 0) ≤ e.recentFaults cell) ↔ ¬ within := by
    have lim : e.getF R.TRL_CELL_POLICY_FAULT_LIM 0 = s.dev.getF R.TRL_CELL_POLICY_FAULT_LIM 0 :=
      touched.getF (by decide) (by decide) (not_homes_map (by decide) 0 0)
    have window : e.getF R.TRL_CELL_POLICY_FAULT_WINDOW_H 0 = s.dev.getF R.TRL_CELL_POLICY_FAULT_WINDOW_H 0 :=
      touched.getF (by decide) (by decide) (not_homes_map (by decide) 0 0)
    rw [Dev.recentFaults, lim, window, rep.nv]
    exact Nat.not_lt.symm
  have above {post : Dev → Prop} (hw : ¬ within) (h : post ((e.retireTested cell x).setErrFull TRL 0 19 0 2 0)) : test post :=
    .of_onDev _ (exec_cellTestComplete x hc hb) hu (by dsimp only; rw [← ho, ← he, if_pos (limit.mpr hw)]; exact h)
  have below {post : Dev → Prop} (hw : within) (h : post (e.concludeTest cell x o)) : test post :=
    .of_onDev _ (exec_cellTestComplete x hc hb) hu (by dsimp only; rw [← ho, ← he, if_neg (fun h' => limit.mp h' hw)]; exact h)
  have retired : Recorded e ((e.retireTested cell x).setErrFull TRL 0 19 0 2 0) :=
    ((Recorded.retireCell e cell).trans (Recorded.retireTested e cell x)).trans (.of_noise (.setErrFull ..))
  have fails (hf : failed) : o = .fail := by
    rcases hf with h | ⟨h, hn⟩
    · rw [ho, Dev.testOutcome, h]
    · rw [ho, Dev.testOutcome, h]
      exact if_neg (by simp [hn])
  have request : e.getF (R.BLK_CTRL_CLOCHE_REQ CEL) cell = asked :=
    touched.getF (by decide) hp (not_homes_map (by decide) 0 cell)
  have mark : e.testFails = s.dev.testFails := by
    obtain ⟨_, _, _, h⟩ := rep
    rw [h]
  have kept {t : Dev} (h : Moved CEL cell e t) : shows t (testCode o) x.unit ∧ t.nv = s.dev.nv :=
    ⟨⟨(h.getF (by decide) 0).trans phys, (h.getF (by decide) 0).trans result, (h.getF (by decide) 0).trans unit⟩,
      by rw [h.rest]; exact rep.nv⟩
  refine ⟨?_, fun hx hw hr => ?_, fun hx hw hr hf => ?_, fun hf => ?_, fun hf hh => ?_, fun hx hw hpol hcov hheld hre hr => ?_⟩
  · by_cases hw : within
    · have h := Recorded.concludeTest hc same x o
      exact below hw ⟨h.valid valid, h.mem.trans rep.mem⟩
    · exact above hw ⟨retired.valid valid, retired.mem.trans rep.mem⟩
  · have hpass : o = .pass := by rw [ho, Dev.testOutcome, hx]
    obtain ⟨moved, ready, -⟩ := Dev.cellPassed_spec hc same
    obtain ⟨hb', hr'⟩ := ready (by rw [request, mark]; exact hr)
    obtain ⟨hs, hn⟩ := kept moved
    refine below hw ?_
    rw [hpass, Dev.concludeTest]
    exact ⟨hb', hn, hr', by rw [hpass] at hs; exact hs⟩
  · have hpass : o = .pass := by rw [ho, Dev.testOutcome, hx]
    obtain ⟨moved, -, stays⟩ := Dev.cellPassed_spec hc same
    obtain ⟨hs, hn⟩ := kept moved
    refine below hw ?_
    rw [hpass, Dev.concludeTest]
    exact ⟨stays (by rw [request, hr]; decide) (by rw [mark]; simpa [onFault] using hf), hn, by rw [hpass] at hs; exact hs⟩
  · have gone : cell ∈ (e.retireTested cell x).nv.retired := e.mem_retireTested cell x
    by_cases hw : within
    · refine below hw ?_
      rw [fails (hf.resolve_right (not_not_intro hw)), Dev.concludeTest]
      exact ⟨Dev.blk_of_retired gone, gone⟩
    · have gone' : cell ∈ ((e.retireTested cell x).setErrFull TRL 0 19 0 2 0).nv.retired := by
        rw [(Noise.setErrFull ..).reports.nv]
        exact gone
      exact above hw ⟨Dev.blk_of_retired gone', gone'⟩
  · have ofail := fails hf
    have two : testCode o = 2 := by rw [ofail]; rfl
    obtain ⟨e', hf', noise⟩ := e.retireTested_held cell x (by
      simp only [Dev.held, Dev.actF, rep.acting]
      exact hh)
    have reads {t : Dev} (h : Noise e' t) : shows t 2 x.unit ∧ t.errBit TRL 0 18 = true := by
      have fields (f : Field) (hq : f.quiet = true) : t.getF f 0 = e.getF f 0 :=
        (h.getF hq (by decide)).trans (by rw [Dev.getF, hf', Dev.getF])
      refine ⟨⟨(fields _ (by decide)).trans phys, (fields _ (by decide)).trans (result.trans two), (fields _ (by decide)).trans unit⟩, ?_⟩
      refine h.errs _ _ _ (by decide) ?_
      have err := errd two
      rw [Dev.errBit, Dev.getF] at err ⊢
      rw [hf']
      exact err
    by_cases hw : within
    · refine below hw ?_
      rw [ofail, Dev.concludeTest]
      exact reads noise
    · exact above hw (reads (noise.trans (.setErrFull ..)))
  · have orep : o = .repairable rows cols := by
      rw [ho, Dev.testOutcome, hx]
      exact if_pos hcov
    have pol : e.getF R.CEL_SPARE_POLICY_POLICY cell ≠ 1 := by
      rw [touched.getF (by decide) hp (not_homes_map (by decide) 0 cell)]
      exact hpol
    have free : e.held CEL cell = false := by
      simp only [Dev.held, Dev.actF, rep.acting] at hheld ⊢
      exact hheld
    refine below hw ?_
    rw [orep, Dev.concludeTest, if_neg pol, if_neg (by simp [free])]
    dsimp only
    rw [if_pos hre]
    have noise := e.repairCell_noise cell rows cols
    generalize e.repairCell cell rows cols = r at noise ⊢
    have again := Dev.recordTest_touches r cell 0 0
    obtain ⟨-, phys', result', unit', -⟩ := r.recordTest_shows cell (result := 0) (by decide) 0
    have nv : (r.recordTest cell 0 0).nv = (e.bypassed cell rows cols).nv := (Dev.recordTest_reports ..).nv.trans noise.reports.nv
    have cloched : (r.recordTest cell 0 0).blk CEL cell = stCloched := by
      rw [again.blk (not_homes_map (by decide) 0 cell) (Dev.recordTest_reports ..).nv, noise.blk]
      exact same
    obtain ⟨moved, ready, -⟩ := Dev.cellPassed_spec hc cloched
    obtain ⟨hb', -⟩ := ready (by
      have req : (r.recordTest cell 0 0).getF (R.BLK_CTRL_CLOCHE_REQ CEL) cell = asked :=
        ((again.getF (by decide) hp (not_homes_map (by decide) 0 cell)).trans (noise.getF (by decide) hp)).trans request
      have mark' : (r.recordTest cell 0 0).testFails = s.dev.testFails := by
        obtain ⟨_, _, _, h⟩ := (Dev.recordTest_reports r cell 0 0)
        obtain ⟨_, _, _, h'⟩ := noise.reports
        rw [h, h']
        exact mark
      rw [req, mark']
      exact hr)
    refine ⟨hb', ⟨((moved.getF (by decide) 0).trans phys').trans cellNum, (moved.getF (by decide) 0).trans result', (moved.getF (by decide) 0).trans unit'⟩, ?_⟩
    have unc : e.uncovered cell rows cols = s.dev.uncovered cell rows cols := by simp only [Dev.uncovered, Dev.bypasses, rep.nv]
    rw [moved.rest]
    show mfind cell (r.recordTest cell 0 0).nv.fieldBypass = _
    rw [nv, ← unc, ← rep.nv]
    exact mfind_mput_same ..

/-- Settles O14. -/
theorem cellsClocheAndReturn : Obligations.CellsClocheAndReturn := by
  unfold Obligations.CellsClocheAndReturn
  exact ⟨cellFaultsCloche, cellTestsReturnOrRetire⟩

end Sys2Proof
end

