-- ==== Sys2Proof/Proofs/Waiting.lean ====
section
/-! TDONE, TBAR, WAIT, FENCE and HALT (R96, R99, R100): what completing a tile and passing a barrier leave of the cells. -/

namespace Sys2Proof.Machine

/-! ### Whole words -/

theorem length_of_mem_pieces {unit fuel a : Nat} {bs : List Byte} {p : Nat × List Byte} (h : p ∈ pieces unit fuel a bs)
    (hu : 8 ∣ unit) (hp : 0 < unit) (ha : 8 ∣ a) (hb : 8 ∣ bs.length) : 8 ∣ p.1 ∧ 8 ∣ p.2.length ∧ p.2 ≠ [] := by
  induction fuel generalizing a bs with
  | zero => simp [pieces] at h
  | succ fuel ih =>
    have cut : 8 ∣ unit - a % unit := Nat.dvd_sub hu ((Nat.dvd_mod_iff hu).2 ha)
    have some_left : 0 < unit - a % unit := Nat.sub_pos_of_lt (Nat.mod_lt _ hp)
    simp only [pieces] at h
    split at h
    · simp at h
    · next hne =>
      rcases List.mem_cons.1 h with rfl | h
      · refine ⟨ha, ?_, by simpa [List.take_eq_nil_iff, some_left.ne'] using hne⟩
        simp only [List.length_take]
        omega
      · refine ih h (by omega) ?_
        simp only [List.length_drop]
        omega

theorem Dev.writeWord_nv (d : Dev) (a : Nat) {bs : List Byte} (h : 8 ≤ bs.length) : (d.writeWord a bs).nv = d.nv := by
  have whole : ¬ bs.length < 8 := by omega
  simp [Dev.writeWord, whole]

theorem foldl_nv {α : Type} {f : Dev → α → Dev} {xs : List α} (h : ∀ x ∈ xs, ∀ d, (f d x).nv = d.nv) (d : Dev) : (xs.foldl f d).nv = d.nv := by
  induction xs generalizing d with
  | nil => rfl
  | cons x xs ih => exact (ih (fun y hy => h y (List.mem_cons_of_mem _ hy)) _).trans (h x List.mem_cons_self d)

theorem Dev.capture_nv (d : Dev) (line : Nat) : (d.capture line).nv = d.nv := by
  unfold Dev.capture
  split
  · dsimp only
    split <;> rfl
  · rfl

theorem Dev.writeLine_nv (d : Dev) (cap : Bool) {a : Nat} {bs : List Byte} (ha : 8 ∣ a) (hb : 8 ∣ bs.length) :
    (d.writeLine cap a bs).nv = d.nv := by
  unfold Dev.writeLine
  extract_lets _ e1 e2 e3
  have words : e2.nv = e1.nv := foldl_nv (f := fun d (p : Nat × List Byte) => d.writeWord p.1 p.2) (fun p hp e => by
    obtain ⟨-, hl, hne⟩ := length_of_mem_pieces hp (by decide) (by decide) ha hb
    have := List.length_pos_iff.2 hne
    exact Dev.writeWord_nv _ _ (by omega)) e1
  have counted : e3.nv = e2.nv := rfl
  have kept : e3.nv = d.nv := counted.trans words
  split
  · exact (Dev.capture_nv ..).trans kept
  · exact kept

/-- A write of whole words meets no word that could retire a row (R295, R303). -/
theorem Dev.write_nv (d : Dev) {a : Nat} {bs : List Byte} (ha : 8 ∣ a) (hb : 8 ∣ bs.length) : (d.write a bs).nv = d.nv :=
  foldl_nv (fun p hp e => by
    obtain ⟨hp1, hl, -⟩ := length_of_mem_pieces hp (by decide) (by decide) ha hb
    exact Dev.writeLine_nv e true hp1 hl) d

theorem Event.length_bytes (e : Event) (seq : Nat) : (e.bytes seq).length = 64 := by
  simp [Event.bytes, leBytes]

theorem Dev.ringBase_dvd (d : Dev) (i : Nat) : 8 ∣ d.ringBase + 64 * i := by
  have high : 8 ∣ 2 ^ 32 := pow_dvd_pow 2 (by decide : 3 ≤ 32)
  exact Nat.dvd_add (Nat.dvd_add (Dvd.dvd.mul_left (by decide) _) (Dvd.dvd.mul_left high _)) (Dvd.dvd.mul_right (by decide) _)

theorem Dev.putEvent_nv (d : Dev) (e : Event) : (d.putEvent e).nv = d.nv := by
  have wrote (a : Nat) (x : Event) (seq : Nat) (h : 8 ∣ a) : (d.write a (x.bytes seq)).nv = d.nv :=
    Dev.write_nv d h (by rw [Event.length_bytes]; decide)
  have shown (e : Dev) (v : Nat) : ((e.setF R.NUM_RING_PROD_PROD 0 v).irq NUM 0 21).nv = e.nv := (Noise.irq ..).reports.nv
  exact (shown ..).trans (wrote _ _ _ (Dev.ringBase_dvd ..))

theorem Dev.postEvent_nv (d : Dev) (e : Event) : (d.postEvent e).nv = d.nv := by
  unfold Dev.postEvent
  extract_lets e₁ e₂ x e₃
  have counted : e₁.nv = d.nv := by
    simp only [e₁]
    split <;> rfl
  have due : e₂.nv = e₁.nv := by
    simp only [e₂, Dev.putOverflow]
    split
    · exact Dev.putEvent_nv ..
    · rfl
  have lost : e₃.nv = e₂.nv := rfl
  clear_value e₃ x e₂
  split
  · split
    · exact (Dev.putEvent_nv ..).trans (due.trans counted)
    · exact ((Noise.setErr ..).reports.nv).trans (lost.trans (due.trans counted))
  · exact counted

/-! ### Summaries -/

/-- Summaries are posted: what the cells hold of them goes; of the registers and the plots' runs, as when events are posted. -/
structure Summed (d t : Dev) : Prop where
  cell : ∀ q, t.cell q = { d.cell q with sums := (t.cell q).sums, phaseSums := (t.cell q).phaseSums, lostSums := (t.cell q).lostSums }
  plots : t.plots = d.plots
  sets : t.sets = d.sets
  nv : t.nv = d.nv
  touches : Touches postHome d t

namespace Summed

variable {d e t : Dev}

theorem refl (d : Dev) : Summed d d := ⟨fun _ => rfl, rfl, rfl, rfl, .of_fields rfl⟩

theorem trans (h1 : Summed d e) (h2 : Summed e t) : Summed d t := by
  refine ⟨fun q => ?_, h2.plots.trans h1.plots, h2.sets.trans h1.sets, h2.nv.trans h1.nv, h1.touches.trans h2.touches⟩
  have h := h2.cell q
  rw [h1.cell q] at h
  exact h

theorem foldl {α : Type} {f : Dev → α → Dev} (h : ∀ e x, Summed e (f e x)) (xs : List α) (d : Dev) :
    Summed d (xs.foldl f d) := by
  induction xs generalizing d with
  | nil => exact refl d
  | cons x xs ih => exact (h d x).trans (ih _)

theorem setCell (d : Dev) (p : Nat) {c : Cell}
    (h : c = { d.cell p with sums := c.sums, phaseSums := c.phaseSums, lostSums := c.lostSums }) : Summed d (d.setCell p c) := by
  refine ⟨fun q => ?_, rfl, rfl, rfl, .of_fields rfl⟩
  by_cases hq : q = p
  · subst hq
    rw [Dev.cell_setCell_same]
    exact h
  · rw [Dev.cell_setCell_other d hq]

theorem postEvent (d : Dev) (e : Event) : Summed d (d.postEvent e) := by
  have h : Posted d (d.postEvent e) := .postEvent d e
  exact ⟨fun q => by rw [h.cell], h.plots, h.sets, Dev.postEvent_nv d e, h.touches⟩

theorem postLoose (d : Dev) (p : Nat) : Summed d (d.postLoose p) := by
  unfold Dev.postLoose
  extract_lets c
  exact (setCell d p rfl).trans (foldl (fun e s => postEvent e _) _ _)

theorem postPhase (d : Dev) (k ph : Nat) : Summed d (d.postPhase k ph) := by
  refine foldl (fun e x => ?_) _ d
  extract_lets mine c e1
  have h : Summed e e1 := setCell e x.1 rfl
  clear_value e1
  exact h.trans (foldl (fun e s => postEvent e _) _ _)

theorem getF (h : Summed d t) {f : Field} (hf : f.quiet = true) (ho : f.off ≠ 192 ∧ f.off ≠ 196)
    (hn : f.place ∉ [R.NUM_RING_PROD_PROD.place, R.NUM_RING_DROPPED_DROPPED.place]) {i : Nat} (hi : i < 2048) : t.getF f i = d.getF f i :=
  h.touches.getF hf hi (not_or.2 ⟨not_ueHome hf ho i, not_homes (by simpa using hn) i⟩)

theorem waiting (h : Summed d t) (q : Nat) : (t.cell q).waiting = (d.cell q).waiting := by rw [h.cell]
theorem phase (h : Summed d t) (q : Nat) : (t.cell q).phase = (d.cell q).phase := by rw [h.cell]
theorem plot (h : Summed d t) (k : Nat) : t.plot k = d.plot k := by simp only [Dev.plot, h.plots]

end Summed

/-! ### Barriers -/

/-- Beside the summaries of the cells, whether they wait and the phases that they are in, their records stay, and so do the runs of
the plots and the closed sets. -/
structure Passed (d t : Dev) : Prop where
  cell : ∀ q, t.cell q = { d.cell q with sums := (t.cell q).sums, phaseSums := (t.cell q).phaseSums, lostSums := (t.cell q).lostSums,
                                         waiting := (t.cell q).waiting, phase := (t.cell q).phase }
  plots : t.plots = d.plots
  sets : t.sets = d.sets

namespace Passed

variable {d e t : Dev}

theorem of_summed (h : Summed d t) : Passed d t := ⟨fun q => by rw [h.cell q], h.plots, h.sets⟩

theorem of_posted (h : Posted d t) : Passed d t := ⟨fun q => by rw [h.cell], h.plots, h.sets⟩

theorem refl (d : Dev) : Passed d d := of_summed (.refl d)

theorem trans (h1 : Passed d e) (h2 : Passed e t) : Passed d t := by
  refine ⟨fun q => ?_, h2.plots.trans h1.plots, h2.sets.trans h1.sets⟩
  have h := h2.cell q
  rw [h1.cell q] at h
  exact h

theorem ite {a b : Dev} {p : Prop} [Decidable p] (ha : Passed d a) (hb : Passed d b) : Passed d (if p then a else b) := by
  split
  · exact ha
  · exact hb

theorem foldl {α : Type} {f : Dev → α → Dev} (h : ∀ e x, Passed e (f e x)) (xs : List α) (d : Dev) :
    Passed d (xs.foldl f d) := by
  induction xs generalizing d with
  | nil => exact refl d
  | cons x xs ih => exact (h d x).trans (ih _)

theorem setF (d : Dev) (f : Field) (i v : Nat) : Passed d (d.setF f i v) := ⟨fun _ => rfl, rfl, rfl⟩

theorem setCell (d : Dev) (p : Nat) {c : Cell}
    (h : c = { d.cell p with sums := c.sums, phaseSums := c.phaseSums, lostSums := c.lostSums, waiting := c.waiting, phase := c.phase }) :
    Passed d (d.setCell p c) := by
  refine ⟨fun q => ?_, rfl, rfl⟩
  by_cases hq : q = p
  · subst hq
    rw [Dev.cell_setCell_same]
    exact h
  · rw [Dev.cell_setCell_other d hq]

theorem passBarrier (d : Dev) (p : Nat) : Passed d (d.passBarrier p) := by
  unfold Dev.passBarrier
  extract_lets e c
  have h : Passed d e := of_summed (.postLoose d p)
  clear_value e
  have h1 : Passed e (e.setCell p { c with waiting := none, phase := c.phase + 1 }) := setCell e p rfl
  exact (h.trans h1).trans ((setF ..).trans (setF ..))

theorem checkBarrier (d : Dev) (k ph : Nat) : Passed d (d.checkBarrier k ph) :=
  ite (((of_summed (.postPhase d k ph))).trans (foldl (fun e c => passBarrier e c) _ _)) (refl d)

theorem plot (h : Passed d t) (k : Nat) : t.plot k = d.plot k := by simp only [Dev.plot, h.plots]

end Passed

/-- Where a cell stands: whether it waits, its phase, RUN and PC. -/
structure Dev.StandsAt (d : Dev) (q : Nat) (waiting : Option WaitFor) (phase run pc : Nat) : Prop where
  waiting : (d.cell q).waiting = waiting
  phase : (d.cell q).phase = phase
  run : d.getF R.CEL_SEQ_STATUS_RUN q = run
  pc : d.getF R.CEL_SEQ_STATUS_PC q = pc

theorem Dev.StandsAt.summed {d t : Dev} {q ph run pc : Nat} {w : Option WaitFor} (hs : d.StandsAt q w ph run pc) (h : Summed d t)
    (hq : q < 2048) : t.StandsAt q w ph run pc :=
  ⟨(h.waiting q).trans hs.waiting, (h.phase q).trans hs.phase, (h.getF (by decide) (by decide) (by decide) hq).trans hs.run,
    (h.getF (by decide) (by decide) (by decide) hq).trans hs.pc⟩

theorem Dev.StandsAt.passBarrier_other {d : Dev} {p q ph run pc : Nat} {w : Option WaitFor} (hs : d.StandsAt q w ph run pc)
    (hq : q < 2048) (hpq : q ≠ p) : (d.passBarrier p).StandsAt q w ph run pc := by
  unfold Dev.passBarrier
  extract_lets e c
  obtain ⟨hw, hp, hr, hc⟩ : e.StandsAt q w ph run pc := hs.summed (.postLoose d p) hq
  clear_value e
  refine ⟨?_, ?_, ?_, ?_⟩
  · rw [Dev.advance, Dev.cell_setF, Dev.cell_setF, Dev.cell_setCell_other _ hpq, hw]
  · rw [Dev.advance, Dev.cell_setF, Dev.cell_setF, Dev.cell_setCell_other _ hpq, hp]
  · rw [Dev.advance, Dev.getF_setF_place (by decide), Dev.getF_setF_page _ _ hpq, Dev.getF_setCell, hr]
  · rw [Dev.advance, Dev.getF_setF_page _ _ hpq, Dev.getF_setF_place (by decide), Dev.getF_setCell, hc]

theorem Dev.StandsAt.passBarrier {d : Dev} {q ph run pc : Nat} {w : Option WaitFor} (hs : d.StandsAt q w ph run pc)
    (hq : q < 2048) : (d.passBarrier q).StandsAt q none (ph + 1) 1 ((pc + 1) % 16384) := by
  unfold Dev.passBarrier
  extract_lets e c
  obtain ⟨-, hp, -, hc⟩ : e.StandsAt q w ph run pc := hs.summed (.postLoose d q) hq
  clear_value e
  refine ⟨?_, ?_, ?_, ?_⟩
  · rw [Dev.advance, Dev.cell_setF, Dev.cell_setF, Dev.cell_setCell_same]
  · rw [Dev.advance, Dev.cell_setF, Dev.cell_setF, Dev.cell_setCell_same]
    exact congrArg (· + 1) hp
  · rw [Dev.advance, Dev.getF_setF_place (by decide), Dev.getF_setF_same]
    rfl
  · rw [Dev.advance, Dev.getF_setF_same, Dev.getF_setF_place (by decide), Dev.getF_setCell, hc]
    rfl

theorem Dev.StandsAt.barriers_other {d : Dev} {q ph run pc : Nat} {w : Option WaitFor} (hs : d.StandsAt q w ph run pc) (hq : q < 2048)
    {ps : List Nat} (hn : q ∉ ps) : (ps.foldl (fun e p => e.passBarrier p) d).StandsAt q w ph run pc := by
  induction ps generalizing d with
  | nil => exact hs
  | cons p ps ih =>
    obtain ⟨hpq, hn⟩ : q ≠ p ∧ q ∉ ps := by simpa using hn
    exact ih (hs.passBarrier_other hq hpq) hn

/-- A cell that is named once goes on in the next phase, at its next instruction (R99). -/
theorem Dev.StandsAt.barriers {d : Dev} {q ph run pc : Nat} {w : Option WaitFor} (hs : d.StandsAt q w ph run pc) (hq : q < 2048)
    {ps : List Nat} (hm : q ∈ ps) (hd : ps.Nodup) :
    (ps.foldl (fun e p => e.passBarrier p) d).StandsAt q none (ph + 1) 1 ((pc + 1) % 16384) := by
  obtain ⟨l, r, rfl⟩ := List.append_of_mem hm
  rw [List.nodup_middle, List.nodup_cons, List.mem_append, not_or] at hd
  obtain ⟨⟨hl, hr⟩, -⟩ := hd
  rw [List.foldl_append, List.foldl_cons]
  exact ((hs.barriers_other hq hl).passBarrier hq).barriers_other hq hr

theorem nodup_keys_of_mwf {α : Type} {m : NMap α} (h : mwf m = true) (p : Nat × α → Bool) : ((m.filter p).map (·.1)).Nodup := by
  have rising : (m.map (·.1)).Pairwise (· < ·) := List.pairwise_map.2 (by simpa [mwf] using h)
  exact (rising.imp Nat.ne_of_lt).sublist (List.filter_sublist.map _)

/-! ### TDONE -/

theorem MemOnly.applyStat (d : Dev) (n : Nat) (m : Bool) (u : StatUpdate) : MemOnly d (d.applyStat n m u) := by
  unfold Dev.applyStat
  refine .rmw _ _ _ _ fun e => ?_
  refine .ite (.write ..) ?_
  extract_lets e1 e2 e3 e4
  have h1 : MemOnly e e1 := .write ..
  clear_value e1
  have h2 : MemOnly e1 e2 := .ite (.write ..) (.refl _)
  clear_value e2
  have h3 : MemOnly e2 e3 := .write ..
  clear_value e3
  have h4 : MemOnly e3 e4 := .write ..
  clear_value e4
  exact (((h1.trans h2).trans h3).trans h4).trans (.write ..)

/-- A sampled tile is copied or dropped: no cell, run or closed set changes. -/
theorem Dev.sampleTile_passed (d : Dev) (cell : Nat) (x : Tile) (cs : List SieveCopy) : Passed d (d.sampleTile cell x cs) := by
  have count (e : Dev) (k : Nat) (hk : k < 8) : Passed e (e.bump NUM 0 k 1) := .of_posted (.of_noise (.bump _ _ _ hk _))
  unfold Dev.sampleTile
  extract_lets _ _
  split
  · refine .ite (count d 5 (by decide)) ?_
    extract_lets e
    have h : Passed d e := ⟨fun _ => rfl, rfl, rfl⟩
    clear_value e
    exact (h.trans (.of_posted (.of_mem (.write ..)))).trans (count _ 4 (by decide))
  · exact count d 5 (by decide)

/-- What a completed tile leaves behind: its set is closed (R94). -/
theorem Dev.tileEffects_spec (d : Dev) (cell : Nat) (x : Tile) :
    Passed { d with sets := if (d.cell cell).adds = [] then d.sets else d.sets ++ [⟨cell, x.index, (d.cell cell).adds⟩] } (d.tileEffects cell x) := by
  unfold Dev.tileEffects
  extract_lets c set e1 e2 _ e3
  have h1 : e1 = { d with sets := if (d.cell cell).adds = [] then d.sets else d.sets ++ [⟨cell, x.index, (d.cell cell).adds⟩] } := by
    simp only [e1, c, set, List.isEmpty_iff]
  rw [← h1]
  have h2 : Passed e1 e2 := .of_posted (.of_mem (.foldl (fun e u => .applyStat ..) _ _))
  have h3 : Passed e2 e3 := .setCell e2 cell rfl
  exact (h2.trans h3).trans (.ite (.refl _) (Dev.sampleTile_passed ..))

/-- The tile leaves the cell; no run, closed set or memory changes. -/
theorem Dev.leaveTile_spec (d : Dev) (p : Nat) :
    ((d.leaveTile p).cell p).tiles = (d.cell p).tiles.tail ∧ ((d.leaveTile p).cell p).adds = []
      ∧ ((d.leaveTile p).cell p).poisoned = false ∧ (d.leaveTile p).plots = d.plots ∧ (d.leaveTile p).sets = d.sets
      ∧ (d.leaveTile p).mem = d.mem := by
  unfold Dev.leaveTile
  extract_lets c rest e
  have record : e.cell p = { c with
    tiles := rest, adds := [], stats := [], hits := [], samples := [], used := [], poisoned := false, sums := c.sums.filter (·.loose)
    lostSums := c.lostSums.filter (fun x => decide (x.2.plot = 0xFF)) } := Dev.cell_setCell_same ..
  have frame : e.plots = d.plots ∧ e.sets = d.sets ∧ e.mem = d.mem := ⟨rfl, rfl, rfl⟩
  clear_value e
  split <;> refine ⟨?_, ?_, ?_, frame⟩ <;> rw [Dev.cell_setF, record]

/-- A tile that completes: it is done in its phase, leaves the cell, and outside MEASURE closes the cell's set (R94, R99). -/
theorem Dev.tdone_spec {d : Dev} {cell : Nat} {x : Tile} {xs : List Tile} (hx : (d.cell cell).tiles = x :: xs)
    (hp : (d.cell cell).poisoned = false) :
    let t := d.tdone cell x
    x.index ∈ ((t.plot x.plot).phase x.phase).done ∧ (t.cell cell).tiles = xs ∧ (t.cell cell).adds = []
      ∧ t.sets = (if ((d.plot x.plot).phase x.phase).kind = .measure ∨ (d.cell cell).adds = [] then d.sets
          else d.sets ++ [⟨cell, x.index, (d.cell cell).adds⟩]) := by
  dsimp only
  unfold Dev.tdone
  extract_lets c r e r' e'
  rw [if_neg (by simp [c, hp])]
  have effects : (e.cell cell).tiles = x :: xs ∧ e.sets = if ((d.plot x.plot).phase x.phase).kind = .measure ∨ (d.cell cell).adds = [] then d.sets
      else d.sets ++ [⟨cell, x.index, (d.cell cell).adds⟩] := by
    by_cases hk : r.kind = .measure
    · have h : Posted d e := by
        simp only [e, if_pos hk]
        exact .of_mem (.foldl (fun e u => .applyStat ..) _ _)
      exact ⟨by rw [h.cell, hx], by rw [h.sets, if_pos (.inl hk)]⟩
    · have h := Dev.tileEffects_spec d cell x
      have he : e = d.tileEffects cell x := if_neg hk
      rw [← he] at h
      refine ⟨by rw [h.cell]; exact hx, h.sets.trans ?_⟩
      have other : ¬ ((d.plot x.plot).phase x.phase).kind = .measure := hk
      simp only [other, false_or]
  obtain ⟨tiles, sets⟩ := effects
  clear_value e
  have done : x.index ∈ ((e'.plot x.plot).phase x.phase).done := by
    rw [Dev.phase_setPhase]
    exact (mem_insertSet_iff ..).2 (.inl rfl)
  have kept : e'.sets = e.sets ∧ e'.cell cell = e.cell cell := ⟨rfl, rfl⟩
  clear_value e'
  obtain ⟨left, noAdds, -, plots, sets', -⟩ := Dev.leaveTile_spec e' cell
  have after : Passed (e'.leaveTile cell) (((e'.leaveTile cell).bump CEL cell 6 1).checkBarrier x.plot x.phase) :=
    (Passed.of_posted (.of_noise (.bump _ _ _ (by decide) _))).trans (.checkBarrier ..)
  refine ⟨?_, ?_, ?_, ?_⟩
  · rw [after.plot, Dev.plot, plots]
    exact done
  · rw [after.cell]
    exact left.trans (by rw [kept.2, tiles]; rfl)
  · rw [after.cell]
    exact noAdds
  · rw [after.sets, sets', kept.1, sets]

theorem Dev.poisoned_tdone {d : Dev} {cell : Nat} (x : Tile) (hp : (d.cell cell).poisoned = true) : d.tdone cell x = d.leaveTile cell := by
  unfold Dev.tdone
  exact if_pos hp

end Sys2Proof.Machine

namespace Sys2Proof

open Machine

/-- TDONE with an idle DMA completes the earliest tile, and what holds of the device then holds of the answer but for RUN and PC. -/
theorem Answers.of_tdone {s : State} {cell : Nat} {x : Tile} {xs : List Tile} {post : Dev → Prop} (hi : Issues s cell)
    (hd : (s.dev.cell cell).dma = []) (hx : (s.dev.cell cell).tiles = x :: xs) (h : post (s.dev.tdone cell x))
    (ha : ∀ t, post t → post (t.advance cell 1)) : Answers (.tdone cell) s post := by
  refine .of_onDev _ (Eq.refl (execTdone cell s)) hi.1 ?_
  have idle : ¬ (!(s.dev.cell cell).dma.isEmpty) = true := by simp [hd]
  have cur : (s.dev.cell cell).cur = some x := by simp [Cell.cur, hx]
  dsimp only
  rw [if_neg idle, Dev.instr, if_pos hi.2]
  simp only [cur]
  split
  · exact h
  · exact ha _ h

theorem tileDoneCompletesTheTile : TileDoneCompletesTheTile := by
  intro s cell x xs c hi hd hx
  refine ⟨fun hp => .of_tdone hi hd hx (Dev.tdone_spec hx hp) fun t h => h, fun hp => .of_tdone hi hd hx ?_ fun t h => h⟩
  obtain ⟨tiles, -, clean, plots, sets, mem⟩ := Dev.leaveTile_spec s.dev cell
  rw [Dev.poisoned_tdone x hp]
  exact ⟨plots, sets, mem, tiles.trans (by rw [hx]; rfl), clean⟩

/-- TBAR of a cell that issues waits, and its phase is looked at (R99). -/
def Machine.Dev.atTbar (d : Dev) (cell : Nat) : Dev :=
  (d.setCell cell { d.cell cell with waiting := some .barrier }).setF R.CEL_SEQ_STATUS_RUN cell 2

theorem Answers.of_tbar {s : State} {cell k : Nat} {post : Dev → Prop} (hi : Issues s cell) (hk : (s.dev.cell cell).plot = some k)
    (h : post ((s.dev.atTbar cell).checkBarrier k (s.dev.cell cell).phase)) : Answers (.tbar cell) s post := by
  refine .of_onDev _ (Eq.refl (execTbar cell s)) hi.1 ?_
  dsimp only
  rw [if_neg (by simp [hi.2])]
  split
  · next hn => simp [hn] at hk
  · next j hj =>
    obtain rfl : j = k := Option.some.inj (hj.symm.trans hk)
    exact h

theorem barrierWaitsForThePhase : BarrierWaitsForThePhase := by
  intro s cell k c p hi hk
  refine ⟨fun ho => .of_tbar hi hk ?_, fun ho hw => .of_tbar hi hk ?_⟩
  · exact if_neg (by simp [show ((s.dev.atTbar cell).plot k).phase (s.dev.cell cell).phase = p from rfl, ho])
  · have small : cell < 2048 := by
      have := Machine.Dev.lt_of_canIssue hi.2
      omega
    let e := s.dev.atTbar cell
    have record : e.cell cell = { c with waiting := some .barrier } := Dev.cell_setCell_same ..
    have stands : e.StandsAt cell (some .barrier) c.phase 2 (s.dev.getF R.CEL_SEQ_STATUS_PC cell) :=
      ⟨by rw [record], by rw [record], (Dev.getF_setF_same ..).trans rfl, (Dev.getF_setF_place (by decide) ..).trans (Dev.getF_setCell ..)⟩
    have there : cell ∈ e.atBarrier k c.phase := by
      refine List.mem_map.2 ⟨(cell, { c with waiting := some .barrier }), List.mem_filter.2 ⟨mem_of_mfind (mfind_mput_same ..), ?_⟩, rfl⟩
      simpa using hk
    have once : (e.atBarrier k c.phase).Nodup := nodup_keys_of_mwf (mwf_mput _ _ hw) _
    have all : Passed e (e.checkBarrier k c.phase) := .checkBarrier ..
    have runs : e.checkBarrier k c.phase = (e.atBarrier k c.phase).foldl (fun d c => d.passBarrier c) (e.postPhase k c.phase) := by
      refine if_pos ?_
      simp [show ((e.plot k).phase c.phase).over = true from ho, List.ne_nil_of_mem there]
    have plots : e.plots = s.dev.plots := rfl
    have on := (stands.summed (.postPhase e k c.phase) small).barriers small there once
    rw [← runs] at on
    refine ⟨on.phase, on.waiting, on.run, on.pc, ?_, ?_, all.plots.trans plots⟩
    · rw [show (s.dev.atTbar cell) = e from rfl, all.cell, record]
    · rw [show (s.dev.atTbar cell) = e from rfl, all.cell, record]

/-! ### WAIT, FENCE and HALT -/

/-- The record of a cell that waits (R96). -/
def Machine.Dev.waits (d : Dev) (cell : Nat) (w : WaitFor) : Dev :=
  (d.setCell cell { d.cell cell with waiting := some w }).setF R.CEL_SEQ_STATUS_RUN cell 2

theorem Machine.Dev.waits_cell (d : Dev) (cell : Nat) (w : WaitFor) : (d.waits cell w).cell cell = { d.cell cell with waiting := some w } :=
  Dev.cell_setCell_same ..

/-- A cell whose wait is not over stays as it waits. -/
theorem Answers.of_waits {i : Instr} {s : State} {cell : Nat} {w : WaitFor} {f : Dev → Dev} (hi : Issues s cell) (he : exec i s = s.onDev f)
    (hf : f s.dev = s.dev.waitFor cell w) (hr : ({ s.dev.cell cell with waiting := some w } : Cell).ready = false) :
    Answers i s fun t => t = (s.dev.setCell cell { s.dev.cell cell with waiting := some w }).setF R.CEL_SEQ_STATUS_RUN cell 2 := by
  refine .of_onDev f he hi.1 ?_
  have asleep : (s.dev.waits cell w).wake cell = s.dev.waits cell w := by
    unfold Dev.wake
    refine if_neg fun h => ?_
    rw [Machine.Dev.waits_cell, hr] at h
    exact absurd h.1 (by decide)
  rw [hf, Dev.waitFor, if_pos hi.2]
  exact asleep

/-- A cell whose wait is over goes on. -/
theorem CellStep.of_wakes {i : Instr} {s : State} {cell : Nat} {w : WaitFor} {f : Dev → Dev} (hi : Issues s cell) (he : exec i s = s.onDev f)
    (hf : f s.dev = s.dev.waitFor cell w) (hr : ({ s.dev.cell cell with waiting := some w } : Cell).ready = true) :
    CellStep i s cell { s.dev.cell cell with waiting := none } (nextPc s cell 1) := by
  refine Answers.of_onDev f he hi.1 ?_
  let e := s.dev.waits cell w
  have record : e.cell cell = { s.dev.cell cell with waiting := some w } := Machine.Dev.waits_cell ..
  have run : e.getF R.CEL_SEQ_STATUS_RUN cell = 2 := (Dev.getF_setF_same ..).trans rfl
  have awake : e.wake cell
      = ((e.setCell cell { e.cell cell with waiting := none }).setF R.CEL_SEQ_STATUS_RUN cell 1).advance cell 1 := by
    unfold Dev.wake
    refine if_pos ⟨?_, run⟩
    rw [record]
    exact hr
  rw [hf, Dev.waitFor, if_pos hi.2, show ((s.dev.setCell cell { s.dev.cell cell with waiting := some w }).setF R.CEL_SEQ_STATUS_RUN cell 2).wake cell
    = e.wake cell from rfl, awake]
  have was : mfind (R.CEL_SEQ_STATUS_RUN.key cell) s.dev.fields = some 1 := by
    have h : mget 0 s.dev.fields (R.CEL_SEQ_STATUS_RUN.key cell) = 1 := Machine.Dev.run_of_canIssue hi.2
    cases hx : mfind (R.CEL_SEQ_STATUS_RUN.key cell) s.dev.fields with
    | none => simp [mget, hx] at h
    | some x =>
      obtain rfl : x = 1 := by simpa [mget, hx] using h
      rfl
  refine ⟨?_, ?_, fun q hq => ?_, fun k hk => ?_, rfl⟩
  · rw [Dev.advance, Dev.cell_setF, Dev.cell_setF, Dev.cell_setCell_same, record]
  · refine Machine.Dev.pc_advance (d := s.dev) ?_
    rw [Dev.getF_setF_place (by decide), Dev.getF_setCell]
    exact (Dev.getF_setF_place (by decide) ..).trans (Dev.getF_setCell ..)
  · rw [Dev.advance, Dev.cell_setF, Dev.cell_setF, Dev.cell_setCell_other _ hq]
    exact Dev.cell_setCell_other _ hq _
  · refine (mfind_mput_other (by simpa using hk) _ _).trans ?_
    by_cases hr : k = R.CEL_SEQ_STATUS_RUN.key cell
    · subst hr
      exact (mfind_mput_same ..).trans was.symm
    · exact (mfind_mput_other hr _ _).trans (mfind_mput_other hr _ _)

/-- A cell that joins a plot's run leaves the other plots' runs. -/
theorem Machine.Dev.joinRun_others (d : Dev) {j k : Nat} (h : k ≠ j) (p : Nat) :
    (d.joinRun j p).plot k = d.plot k ∧ (d.joinRun j p).nv = d.nv := by
  unfold Dev.joinRun
  split
  · exact ⟨rfl, rfl⟩
  · extract_lets r c e1 e2 e3
    have joined : e3.plot k = d.plot k ∧ e3.nv = d.nv := ⟨mget_mput_other h .., rfl⟩
    clear_value e3
    split
    · have state : StateFrame e3 (e3.setBlk CEL p stRunning) := .setBlk ..
      have plots : (e3.setBlk CEL p stRunning).plots = e3.plots := by rw [state]
      exact ⟨by simp only [Dev.plot, plots]; exact joined.1, state.nv.trans joined.2⟩
    · exact joined

/-- A cell that has halted goes on in another plot's run, if in any (R31). -/
theorem Machine.Dev.nextRun_spec (d : Dev) (cell k : Nat) : (d.nextRun cell k).plot k = d.plot k ∧ (d.nextRun cell k).nv = d.nv := by
  unfold Dev.nextRun
  split
  · exact ⟨rfl, rfl⟩
  · next own _ =>
    split
    · next h => exact Machine.Dev.joinRun_others d (Ne.symm h.1) cell
    · split
      · next j hj =>
        have other : j ≠ k := by
          have := List.find?_some hj
          simp only [Bool.and_eq_true, decide_eq_true_eq] at this
          exact this.1.1.1.1
        exact Machine.Dev.joinRun_others d other.symm cell
      · exact ⟨rfl, rfl⟩

theorem waitFenceAndHalt : WaitFenceAndHalt := by
  intro s cell count e c waits hi
  have wait (he : eventOk e = true) : (if s.dev.canIssue cell && !eventOk e then s.dev.illegal cell else s.dev.waitFor cell (.events e count))
      = s.dev.waitFor cell (.events e count) := if_neg (by simp [he])
  have loose : Summed s.dev (s.dev.postLoose cell) := .postLoose ..
  have halts {post : Dev → Prop} (h : post (match (((s.dev.postLoose cell).setF R.CEL_SEQ_STATUS_RUN cell 0).cell cell).plot with
      | some k =>
        (((s.dev.postLoose cell).setF R.CEL_SEQ_STATUS_RUN cell 0).setPlot k
          { ((s.dev.postLoose cell).setF R.CEL_SEQ_STATUS_RUN cell 0).plot k with
            halted := insertSet cell (((s.dev.postLoose cell).setF R.CEL_SEQ_STATUS_RUN cell 0).plot k).halted }).nextRun cell k
      | none => (s.dev.postLoose cell).setF R.CEL_SEQ_STATUS_RUN cell 0)) : Answers (.halt cell) s post := by
    refine .of_onDev _ (Eq.refl (execHalt cell s)) hi.1 ?_
    dsimp only
    rw [if_pos hi.2]
    exact h
  have plot : (((s.dev.postLoose cell).setF R.CEL_SEQ_STATUS_RUN cell 0).cell cell).plot = c.plot := by
    rw [Dev.cell_setF, loose.cell]
  refine ⟨fun he hc => ?_, fun he hc => ?_, fun hp hd => ?_, fun h => ?_, fun k hk => halts ?_, fun hn => halts ?_⟩
  · exact .of_wakes hi (Eq.refl (execWait cell e count s)) (wait he) (by simpa [Cell.ready] using hc)
  · exact .of_waits hi (Eq.refl (execWait cell e count s)) (wait he) (by simpa [Cell.ready] using hc)
  · exact .of_wakes hi (Eq.refl (execFence cell s)) rfl (by simp [Cell.ready, show (s.dev.cell cell).passes = [] from hp,
      show (s.dev.cell cell).dma = [] from hd])
  · refine .of_waits hi (Eq.refl (execFence cell s)) rfl ?_
    have busy : (s.dev.cell cell).passes ≠ [] ∨ (s.dev.cell cell).dma ≠ [] := h
    rw [← not_and_or] at busy
    simpa [Cell.ready] using busy
  · rw [plot, hk]
    obtain ⟨runs, nv⟩ := Machine.Dev.nextRun_spec (((s.dev.postLoose cell).setF R.CEL_SEQ_STATUS_RUN cell 0).setPlot k
          { ((s.dev.postLoose cell).setF R.CEL_SEQ_STATUS_RUN cell 0).plot k with
            halted := insertSet cell (((s.dev.postLoose cell).setF R.CEL_SEQ_STATUS_RUN cell 0).plot k).halted }) cell k
    refine ⟨?_, nv.trans loose.nv⟩
    dsimp only
    rw [runs]
    refine (congrArg PlotRun.halted (mget_mput_same ..)).trans ?_
    exact congrArg (fun r : PlotRun => insertSet cell r.halted) (loose.plot k)
  · rw [plot, hn]
    exact ⟨Dev.getF_setF_same .., loose.plots⟩

/-- Settles O23. -/
theorem tilesEndAndWaitsRelease : Obligations.TilesEndAndWaitsRelease := by
  unfold Obligations.TilesEndAndWaitsRelease
  exact ⟨tileDoneCompletesTheTile, barrierWaitsForThePhase, waitFenceAndHalt⟩

end Sys2Proof
end

