-- ==== Sys2Proof/Proofs/Sets.lean ====
section
/-! Closed sets, the staging deadlock and the end of a measured phase (R94, R177, R185, R308 to R310). -/

namespace Sys2Proof.Machine

theorem Alike.stakedAdds {d e : Dev} (h : Alike d e) (xs : List SetAdd) :
    Alike (xs.foldl (fun d a => d.stakedAdd a.width a.addr (twos a.width a.q)) d)
      (xs.foldl (fun d a => d.stakedAdd a.width a.addr (twos a.width a.q)) e) :=
  .foldl (fun a h => h.stakedAdd a.width a.addr (twos a.width a.q)) xs h

/-- A fold of an error per page shows it on each of them. -/
theorem Dev.errBit_foldl_setErr (d : Dev) (c : Nat) {b : Nat} (hb : b < 32) {ks : List Nat} {k : Nat} (hk : k ∈ ks) :
    (ks.foldl (fun e k => e.setErr c k b) d).errBit c k b = true := by
  induction ks generalizing d with
  | nil => cases hk
  | cons j ks ih =>
    rcases List.mem_cons.1 hk with rfl | hk
    · exact (Noise.foldl (fun e k => Noise.setErr e c k b) ks _).errs _ _ _ hb (Noise.errBit_setErr d c k hb)
    · exact ih _ hk

/-! ### The end of MEASURE -/

/-- An entry's just-in-time decision, with what its event shows (R186). -/
def Dev.jitStep (k ph : Nat) (a : Dev × List (Nat × Int × Nat × Nat)) (i : Nat) : Dev × List (Nat × Int × Nat × Nat) :=
  let d := a.1
  let m := d.nat (d.statAt i d.step + 2) 2
  let sg := if m = 0x8000 then d.entrySigma i else clampSigma (sext 16 m - fmtEmax (d.entryFormat i))
  let cause := if d.warmEntry i then 1 else 0
  let d := d.setJit i d.step sg
  ({ d with ctl := { d.ctl with decisions := d.ctl.decisions ++ [.jit 0 k ph i sg cause] } }, a.2 ++ [(i, sg, cause, m)])

theorem Dev.measureDone_eq (d : Dev) (k ph : Nat) : d.measureDone k ph
    = ((((d.plot k).phase ph).marked.foldl (Dev.jitStep k ph) (d, [])).1.restartPhase k ph .final none,
      (((d.plot k).phase ph).marked.foldl (Dev.jitStep k ph) (d, [])).2) := rfl

theorem Dev.jitStep_decisions (k ph : Nat) (a : Dev × List (Nat × Int × Nat × Nat)) (i : Nat) :
    ∃ sg cause, (Dev.jitStep k ph a i).1.ctl.decisions = a.1.ctl.decisions ++ [.jit 0 k ph i sg cause] := by
  unfold Dev.jitStep
  extract_lets d m sg cause d'
  have ctl : d'.ctl = d.ctl := (MemOnly.setJit ..).ctl
  exact ⟨sg, cause, by rw [ctl]⟩

/-- Every entry named gets a decision, and none is taken back. -/
theorem Dev.jitSteps_decisions (k ph : Nat) (is : List Nat) (a : Dev × List (Nat × Int × Nat × Nat)) :
    (∀ x ∈ a.1.ctl.decisions, x ∈ (is.foldl (Dev.jitStep k ph) a).1.ctl.decisions)
      ∧ ∀ i ∈ is, ∃ sg cause, Decision.jit 0 k ph i sg cause ∈ (is.foldl (Dev.jitStep k ph) a).1.ctl.decisions := by
  induction is generalizing a with
  | nil => exact ⟨fun _ h => h, fun _ h => nomatch h⟩
  | cons j is ih =>
    obtain ⟨sg, cause, added⟩ := Dev.jitStep_decisions k ph a j
    obtain ⟨kept, all⟩ := ih (Dev.jitStep k ph a j)
    refine ⟨fun x hx => kept x (added ▸ List.mem_append_left _ hx), fun i hi => ?_⟩
    rcases List.mem_cons.1 hi with rfl | hi
    · exact ⟨sg, cause, kept _ (added ▸ List.mem_append_right _ List.mem_cons_self)⟩
    · exact all i hi

theorem Dev.abandon_ctl (d : Dev) (p : Nat) : (d.abandon p).ctl = d.ctl := by
  have dropped : (d.dropTiles p).ctl = d.ctl := by rw [Dev.dropTiles_frame]
  unfold Dev.abandon
  extract_lets e
  have h : e.ctl = d.ctl := dropped
  clear_value e
  split
  · exact h
  · exact h

theorem Dev.restartPhase_spec (d : Dev) (k ph : Nat) (kind : PhaseKind) (keep : Option Nat) :
    (((d.restartPhase k ph kind keep).plot k).phase ph).kind = kind ∧ (((d.restartPhase k ph kind keep).plot k).phase ph).done = []
      ∧ (d.restartPhase k ph kind keep).ctl = d.ctl := by
  unfold Dev.restartPhase
  extract_lets e r kept
  have ctl : e.ctl = d.ctl := by
    have each (ps : List Nat) (d : Dev) : (ps.foldl (fun e p => e.abandon p) d).ctl = d.ctl := by
      induction ps generalizing d with
      | nil => rfl
      | cons p ps ih => exact (ih _).trans (Dev.abandon_ctl d p)
    exact each ..
  clear_value e
  have shown (r : PhaseRun) : (((e.setPhase k ph r).dropPhaseSums k ph).plot k).phase ph = r := Dev.phase_setPhase e k ph r
  rw [shown]
  exact ⟨rfl, rfl, ctl⟩

end Sys2Proof.Machine

namespace Sys2Proof

open Machine

theorem stakedSetsApplyWhole : StakedSetsApplyWhole := by
  intro s cell tile x hu
  let opened := s.dev.cells.filter (fun e => !e.2.adds.isEmpty)
  let locked : Dev := { s.dev with ctl := { s.dev.ctl with noClose := true } }
  have dead {post : Dev → Prop} (h : post (if (!opened.isEmpty && opened.all (fun e => e.2.stageWait)) = true
      then (List.range 8).foldl (fun d k => d.setErr MEM k 24) locked else s.dev)) : Answers .stageDeadlock s post :=
    .of_onDev _ (Eq.refl (execStageDeadlock s)) hu h
  have stuck : (!opened.isEmpty && opened.all (fun e => e.2.stageWait)) = true
      ↔ (∃ e ∈ s.dev.cells, e.2.adds ≠ []) ∧ ∀ e ∈ s.dev.cells, e.2.adds ≠ [] → e.2.stageWait = true := by
    simp [opened, List.filter_eq_nil_iff, or_iff_not_imp_left]
  refine ⟨fun hx => ?_, fun h1 h2 => dead ?_, fun h => dead ?_⟩
  · refine .of_onDev _ (Eq.refl (execStakedSetApply cell tile s)) hu ?_
    simp only [hx]
    let freed : Dev := Dev.stageFreed { s.dev with sets := s.dev.sets.erase x }
    have adds : MemOnly freed (x.adds.foldl (fun d a => d.stakedAdd a.width a.addr (twos a.width a.q)) freed) :=
      .foldl (fun e a => .stakedAdd ..) _ _
    have same : Alike freed s.dev := ⟨rfl, rfl, rfl, fun _ _ => rfl⟩
    exact ⟨adds.sets, (same.stakedAdds x.adds).mem, adds.cells, adds.plots⟩
  · rw [if_pos (stuck.2 ⟨h1, h2⟩)]
    have noise : Noise locked ((List.range 8).foldl (fun d k => d.setErr MEM k 24) locked) := .foldl (fun e k => .setErr ..) _ _
    refine ⟨?_, fun k hk => Dev.errBit_foldl_setErr _ _ (by decide) (List.mem_range.2 hk), noise.reports.cells, noise.reports.mem⟩
    rw [noise.reports.ctl]
  · exact if_neg (fun e => h (stuck.1 e))

theorem measureEndsInFinal : MeasureEndsInFinal := by
  intro s plot phase r hu hk hd hn
  refine .of_onDev _ (Eq.refl (execMeasureComplete plot phase s)) hu ?_
  dsimp only
  rw [if_pos ⟨hk, hd, hn⟩, Dev.measureDone_eq]
  obtain ⟨-, all⟩ := Dev.jitSteps_decisions plot phase ((s.dev.plot plot).phase phase).marked (s.dev, [])
  obtain ⟨kind, done, ctl⟩ := Dev.restartPhase_spec (((s.dev.plot plot).phase phase).marked.foldl (Dev.jitStep plot phase) (s.dev, [])).1
    plot phase .final none
  have told (es : List (Nat × Int × Nat × Nat)) (d : Dev) : Posted d (es.foldl (fun d (e : Nat × Int × Nat × Nat) =>
      d.postEvent { Event.blank 3 5 d.step with
        plot := plot, phase := phase, entry := e.1, format := d.entryFormat e.1, layer := d.layerOf (some e.1),
        value := twos 16 e.2.1 + e.2.2.1 * 65536, aux := e.2.2.2 }) d) := .foldl (fun e x => .postEvent ..) _ _
  refine ⟨?_, ?_, fun i hi => ?_⟩
  · rw [(told ..).plot]
    exact kind
  · rw [(told ..).plot]
    exact done
  · rw [(told ..).ctl, ctl]
    exact all i hi

/-- Settles O24. -/
theorem stakedSetsAndMeasures : Obligations.StakedSetsAndMeasures := by
  unfold Obligations.StakedSetsAndMeasures
  exact ⟨stakedSetsApplyWhole, measureEndsInFinal⟩

end Sys2Proof
end

