-- ==== Sys2Proof/Proofs/Sieve.lean ====
section
/-! The consumer index of the numeric event ring and the exception records (R237, R252, R253), and the hosts of sieve slots (R243). -/

namespace Sys2Proof

open Machine

/-! ### The NUM page -/

theorem Machine.Dev.putOverflow_of_none {d : Dev} (h : d.numx.droppedSince = 0) : d.putOverflow = d := if_neg fun e => e.1 h

/-- The record that NUM_XREC_SEL selects. -/
theorem Machine.Dev.latchXrec_shows (d : Dev) {cell : Nat} (kind : Nat) (hc : cell < 1152) {t : Dev} (ht : t.fields = (d.latchXrec cell kind).fields) :
    t.getF R.NUM_XREC_SEL_CELL 0 = cell % 2 ^ 11 ∧ t.getF R.NUM_XREC_SEL_KIND 0 = kind % 4
      ∧ (∀ r, mfind (kind % 4) (d.cell cell).xrec = some r →
        t.getF R.NUM_XREC_0_VALID 0 = 1 ∧ t.getF R.NUM_XREC_STEP_STEP 0 = r.step % 2 ^ 32
          ∧ t.getF R.NUM_XREC_TILE_TILE 0 = r.tile % 2 ^ 32 ∧ t.getF R.NUM_XREC_BLOCK_BLOCK 0 = r.block % 2 ^ 32
          ∧ t.getF R.NUM_XREC_COUNT_COUNT 0 = r.count % 2 ^ 32)
      ∧ (mfind (kind % 4) (d.cell cell).xrec = none → t.getF R.NUM_XREC_0_VALID 0 = 0) := by
  have same (f : Field) : t.getF f 0 = (d.latchXrec cell kind).getF f 0 := by simp only [Dev.getF, ht]
  have acts (e : Dev) (g f : Field) (i v : Nat) : (e.setAct f i v).getF g 0 = e.getF g 0 := rfl
  simp only [same]
  unfold Dev.latchXrec
  rw [if_pos hc]
  simp (disch := decide) only [Dev.getF_setF_place, Dev.getF_setF_same, acts]
  refine ⟨rfl, rfl, fun r hr => ?_, fun hr => ?_⟩
  · rw [hr]
    exact ⟨rfl, rfl, rfl, rfl, rfl⟩
  · rw [hr]
    rfl

/-- Only register values, shown and acting, change. -/
def Machine.OnlyRegisters (d t : Dev) : Prop := t = { d with fields := t.fields, acting := t.acting }

namespace Machine.OnlyRegisters

variable {d e t : Dev}

theorem trans (h1 : OnlyRegisters d e) (h2 : OnlyRegisters e t) : OnlyRegisters d t := by
  unfold OnlyRegisters at *
  rw [h1] at h2
  exact h2

theorem setF (d : Dev) (f : Field) (i v : Nat) : OnlyRegisters d (d.setF f i v) := rfl
theorem setAct (d : Dev) (f : Field) (i v : Nat) : OnlyRegisters d (d.setAct f i v) := rfl

theorem set2 (d : Dev) (f g : Field) (i j v w : Nat) : OnlyRegisters d ((d.setF f i v).setF g j w) := (setF ..).trans (setF ..)

theorem latchXrec (d : Dev) (cell kind : Nat) : OnlyRegisters d (d.latchXrec cell kind) := by
  unfold Dev.latchXrec
  extract_lets r x e1 e2 e3 e4 e5
  have h1 : OnlyRegisters d e1 := set2 ..
  clear_value e1
  have h2 : OnlyRegisters e1 e2 := (setAct ..).trans (setAct ..)
  clear_value e2
  have h3 : OnlyRegisters e2 e3 := set2 ..
  clear_value e3
  have h4 : OnlyRegisters e3 e4 := set2 ..
  clear_value e4
  have h5 : OnlyRegisters e4 e5 := set2 ..
  clear_value e5
  exact ((((h1.trans h2).trans h3).trans h4).trans h5).trans ((set2 ..).trans (setF ..))

end Machine.OnlyRegisters

theorem numericPageCommands : NumericPageCommands := by
  intro s w v cell kind hw held shown
  refine ⟨fun hh hd => ?_, fun hh => ?_, fun hc => ⟨?_, ?_⟩⟩
  · refine .of_byWriter hw _ (Eq.refl (execNumRingCons w v s)) ?_
    dsimp only
    rw [if_neg (Nat.not_lt.2 hh), Machine.Dev.putOverflow_of_none (d := (s.dev.setF R.NUM_RING_CONS_CONS 0 v).setAct R.NUM_RING_CONS_CONS 0 v) hd,
      ite_self]
  · exact .of_byWriter hw _ (Eq.refl (execNumRingCons w v s)) (if_pos hh)
  · exact .of_byWriter hw _ (Eq.refl (execNumXrecSel w cell kind s)) ⟨Machine.Dev.latchXrec_shows (t := s.dev.latchXrec cell kind) s.dev kind hc rfl, OnlyRegisters.latchXrec ..⟩
  · refine .of_byWriter hw _ (Eq.refl (execNumXrecClear w cell kind s)) ?_
    have frame : OnlyRegisters s.dev (s.dev.latchXrec cell kind) := .latchXrec ..
    have shows := Machine.Dev.latchXrec_shows (t := s.dev.latchXrec cell kind) s.dev kind hc rfl
    dsimp only
    rw [if_pos hc]
    generalize s.dev.latchXrec cell kind = e at frame shows ⊢
    unfold OnlyRegisters at frame
    have cells (q : Nat) : e.cell q = s.dev.cell q := by rw [frame]; rfl
    refine ⟨shows, ?_, fun q hq => (Dev.cell_setCell_other _ hq _).trans (cells q), ?_⟩
    · rw [Dev.cell_setCell_same, cells]
    · rw [frame]
      rfl

/-! ### A cell is cloched -/

/-- A cell in service leaves it and shows CLOCHED; memory stays (R31, R44). -/
theorem Machine.Dev.clocheCell_blk {d : Dev} {p : Nat} (h : d.blk CEL p ≠ stRetired) :
    (d.clocheCell p).blk CEL p = stCloched ∧ (d.clocheCell p).mem = d.mem := by
  obtain ⟨mem, nv, -, kept⟩ := Dev.returnTile_spec d p
  have regs := (kept _).trans (Dev.clearTileRegs_touches (d.returnTile p) p)
  have blk : ((d.returnTile p).clearTileRegs p).blk CEL p = d.blk CEL p := regs.blk (not_homes_map (by decide) p p) nv
  have frame := StateFrame.setBlk ((d.returnTile p).clearTileRegs p) CEL p stCloched
  have count := Noise.bump (((d.returnTile p).clearTileRegs p).setBlk CEL p stCloched) TRL 0 (k := 0) (by decide) 1
  have shows : ((((d.returnTile p).clearTileRegs p).setBlk CEL p stCloched).bump TRL 0 0 1).blk CEL p = stCloched := by
    rw [count.blk, Dev.blk_setBlk _ (by decide) (blk ▸ h)]
  have still : ((((d.returnTile p).clearTileRegs p).setBlk CEL p stCloched).bump TRL 0 0 1).mem = d.mem :=
    count.reports.mem.trans (frame.mem.trans mem)
  unfold Dev.clocheCell
  extract_lets e1 e2
  have shows2 : e2.blk CEL p = stCloched := shows
  have still2 : e2.mem = d.mem := still
  clear_value e2
  split
  · next k _ =>
    have aside : Aside p e2 (e2.borrow k) := .borrow _ k (by simp [Dev.inService, shows2])
    exact ⟨aside.blk.trans shows2, aside.mem.trans still2⟩
  · exact ⟨shows2, still2⟩

/-! ### A slot that a check has freed -/

/-- The fabric, the input pipeline and a slot of the sieve that is empty stay. -/
structure Machine.SlotKept (slot : Nat) (d t : Dev) : Prop where
  pip : t.pip = d.pip
  fab : t.fab = d.fab
  empty : mfind slot d.numx.sieve = none → mfind slot t.numx.sieve = none

namespace Machine.SlotKept

variable {slot : Nat} {d e t : Dev}

theorem of_eq (hp : t.pip = d.pip) (hf : t.fab = d.fab) (hs : t.numx.sieve = d.numx.sieve) : SlotKept slot d t :=
  ⟨hp, hf, fun h => by rw [hs]; exact h⟩

theorem refl (d : Dev) : SlotKept slot d d := of_eq rfl rfl rfl

theorem trans (h1 : SlotKept slot d e) (h2 : SlotKept slot e t) : SlotKept slot d t :=
  ⟨h2.pip.trans h1.pip, h2.fab.trans h1.fab, fun h => h2.empty (h1.empty h)⟩

theorem ite {a b : Dev} {p : Prop} [Decidable p] (ha : SlotKept slot d a) (hb : SlotKept slot d b) : SlotKept slot d (if p then a else b) := by
  split
  · exact ha
  · exact hb

theorem foldl {α : Type} {f : Dev → α → Dev} (h : ∀ e x, SlotKept slot e (f e x)) (xs : List α) (d : Dev) : SlotKept slot d (xs.foldl f d) := by
  induction xs generalizing d with
  | nil => exact refl d
  | cons x xs ih => exact (h d x).trans (ih _)

theorem of_reports (h : Reports d t) : SlotKept slot d t := by
  obtain ⟨fs, log, out, rfl⟩ := h
  exact of_eq rfl rfl rfl

theorem setF (d : Dev) (f : Field) (i v : Nat) : SlotKept slot d (d.setF f i v) := of_eq rfl rfl rfl
theorem setCtl (d : Dev) (c : Ctl) : SlotKept slot d { d with ctl := c } := of_eq rfl rfl rfl
theorem setTests (d : Dev) (m : NMap Nat) : SlotKept slot d { d with testFails := m } := of_eq rfl rfl rfl
theorem setNv (d : Dev) (n : NonVol) : SlotKept slot d { d with nv := n } := of_eq rfl rfl rfl
theorem bump (d : Dev) (c i k n : Nat) : SlotKept slot d (d.bump c i k n) := of_eq rfl rfl rfl
theorem draw (d : Dev) : SlotKept slot d d.draw.2 := of_eq rfl rfl rfl

theorem setNumx (d : Dev) {x : Numx} (h : x.sieve = d.numx.sieve) : SlotKept slot d { d with numx := x } := of_eq rfl rfl h

theorem of_mem (h : MemOnly d t) : SlotKept slot d t := of_eq (by rw [h.kept]) (by rw [h.kept]) (by rw [h.kept])

theorem putEvent (d : Dev) (e : Event) : SlotKept slot d (d.putEvent e) := by
  have wrote (a : Nat) (bs : List Byte) : SlotKept slot d (d.write a bs) := of_mem (.write ..)
  have shown (e : Dev) (v : Nat) : SlotKept slot e ((e.setF R.NUM_RING_PROD_PROD 0 v).irq NUM 0 21) :=
    (setF ..).trans (of_reports (.irq ..))
  exact (wrote ..).trans (shown ..)

theorem putOverflow (d : Dev) : SlotKept slot d d.putOverflow := by
  have due (x : Numx) (h : x.sieve = d.numx.sieve) (ev : Event) : SlotKept slot d (Dev.putEvent { d with numx := x } ev) :=
    (setNumx d h).trans (putEvent ..)
  unfold Dev.putOverflow
  exact ite (due { d.numx with droppedSince := 0 } rfl _) (refl d)

theorem postEvent (d : Dev) (e : Event) : SlotKept slot d (d.postEvent e) := by
  unfold Dev.postEvent
  extract_lets e₁ e₂ x e₃
  have counted : SlotKept slot d e₁ := by
    simp only [e₁]
    split
    · exact bump ..
    · exact refl d
  have due : SlotKept slot e₁ e₂ := putOverflow _
  have lost : SlotKept slot e₂ ((e₃.satAdd R.NUM_RING_DROPPED_DROPPED 0 1).setErr NUM 0 16) :=
    ((setNumx e₂ (x := { e₂.numx with droppedSince := e₂.numx.droppedSince + 1 }) rfl).trans (setF e₃ ..)).trans (of_reports (.setErr ..))
  exact ite ((counted.trans due).trans (ite (putEvent ..) lost)) counted

theorem setBlk (d : Dev) (p v : Nat) : SlotKept slot d (d.setBlk CEL p v) := by
  have follows (e : Dev) : SlotKept slot e (e.stateFollows CEL p v) := by
    unfold Dev.stateFollows
    rw [if_neg (fun h => absurd h.1 (by decide))]
    exact ite (of_eq rfl rfl rfl) (ite (of_reports (.irq ..)) (refl e))
  have mark (b : Bool) : SlotKept slot d (d.setReturned CEL p b) := setTests ..
  exact ite (refl d) ((((mark _).trans (setF ..)).trans (of_reports (.irq ..))).trans (follows _))

theorem joinRun (d : Dev) (k p : Nat) : SlotKept slot d (d.joinRun k p) := by
  unfold Dev.joinRun
  split
  · exact refl d
  · extract_lets r c e1 e2 e3
    have joined : SlotKept slot d e3 := of_eq rfl rfl rfl
    clear_value e3
    exact ite (joined.trans (setBlk ..)) joined

theorem borrow (d : Dev) (k : Nat) : SlotKept slot d (d.borrow k) := by
  unfold Dev.borrow
  split
  · split
    · exact foldl (fun e p => ite (joinRun ..) (refl _)) _ _
    · exact refl d
  · exact refl d

theorem returnTile (d : Dev) (p : Nat) : SlotKept slot d (d.returnTile p) := by
  have dropped (e : Dev) : SlotKept slot e (e.dropTiles p) := by
    rw [Dev.dropTiles_frame]
    exact of_eq rfl rfl rfl
  exact (of_reports (Dev.returnTile_noise d p).reports).trans (dropped _)

theorem clocheCell (d : Dev) (p : Nat) : SlotKept slot d (d.clocheCell p) := by
  have left : SlotKept slot d ((((d.returnTile p).clearTileRegs p).setBlk CEL p stCloched).bump TRL 0 0 1) :=
    (((returnTile d p).trans (((setF ..).trans (setF ..)).trans (setF ..))).trans (setBlk ..)).trans (bump ..)
  unfold Dev.clocheCell
  extract_lets e1 e2
  have left2 : SlotKept slot d e2 := left
  clear_value e2
  split
  · exact left2.trans (borrow ..)
  · exact left2

theorem dropHost (d : Dev) (p : Nat) : SlotKept slot d (d.dropHost p) := by
  refine ⟨rfl, rfl, fun h => ?_⟩
  have drop : (fun e : Nat × SieveSlot => if e.2.host = some p then (e.1, { e.2 with host := none }) else e)
      = fun e => (e.1, if e.2.host = some p then { e.2 with host := none } else e.2) := by
    funext e
    split <;> rfl
  have none_left : mfind slot (d.numx.sieve.map fun e => if e.2.host = some p then (e.1, { e.2 with host := none }) else e) = none := by
    rw [drop, mfind_map_values (fun x : SieveSlot => if x.host = some p then { x with host := none } else x), h]
    rfl
  exact none_left

theorem clocheFault (d : Dev) (p : Nat) : SlotKept slot d (d.clocheFault p) := by
  unfold Dev.clocheFault
  extract_lets flash e1 e2
  have counted : SlotKept slot d e2 := ((setNv d _).trans (bump e1 ..)).trans (dropHost ..)
  clear_value e2
  refine ite counted (counted.trans ?_)
  exact ((setTests e2 _).trans (clocheCell ..)).trans (of_reports (.policyTaken ..))

theorem decidePromotion (d : Dev) (cause i : Nat) : SlotKept slot d (d.decidePromotion cause i) := by
  refine ite (refl d) (ite (of_reports (.policyWithheld ..)) ?_)
  split
  · exact (setCtl d _).trans (of_reports (.policyTaken ..))
  · exact refl d

theorem checkPrecision (d : Dev) (sl : SieveSlot) (c : SieveCopy) : SlotKept slot d (d.checkPrecision sl c) := by
  unfold Dev.checkPrecision
  extract_lets err lim r _ e
  split
  · have posted : SlotKept slot d e := (draw d).trans (postEvent ..)
    clear_value e
    have promoted (e : Dev) (l : Nat) : SlotKept slot e (e.promoteLayer l) := ite (refl e) (foldl (fun e i => decidePromotion ..) _ _)
    exact (posted.trans (of_reports (.setErr ..))).trans (promoted ..)
  · exact refl d

theorem convict (d : Dev) (cell step : Nat) : SlotKept slot d (d.convict cell step) := by
  unfold Dev.convict
  extract_lets e v
  have faulted : SlotKept slot d e := (setTests d _).trans (clocheFault ..)
  clear_value e
  exact (faulted.trans (setF ..)).trans (of_reports (.setErr ..))

theorem checkIntegrity (d : Dev) (sl : SieveSlot) (host : Nat) : SlotKept slot d (d.checkIntegrity sl host) := by
  unfold Dev.checkIntegrity
  extract_lets es
  split
  · exact refl d
  · extract_lets big e n _ e'
    have posted : SlotKept slot d e := postEvent ..
    clear_value e
    have counted : SlotKept slot e e' :=
      (setNumx e (x := { e.numx with miscompares := mput sl.cell n e.numx.miscompares }) rfl).trans (of_reports (.setErr ..))
    clear_value e'
    exact (posted.trans counted).trans (ite (convict ..) (refl _))

theorem freeHost (d : Dev) (host : Nat) : SlotKept slot d (d.freeHost host) := ite (setBlk ..) (refl d)

theorem check (d : Dev) (sl : SieveSlot) (p : Nat) :
    SlotKept slot d ((sl.outputs.foldl (fun (d : Dev) c => d.checkPrecision sl c) (d.freeHost p)).checkIntegrity sl p) :=
  ((freeHost d p).trans (foldl (fun e c => checkPrecision e sl c) _ _)).trans (checkIntegrity ..)

end Machine.SlotKept

theorem sieveSlotsGetAHostAndAreFreed : SieveSlotsGetAHostAndAreFreed := by
  intro s slot p sl hu hs
  have check {post : Dev → Prop} (hh : sl.host = some p)
      (h : post ((sl.outputs.foldl (fun (d : Dev) c => d.checkPrecision sl c)
        ({ s.dev with numx := { s.dev.numx with sieve := mdel slot s.dev.numx.sieve } }.freeHost p)).checkIntegrity sl p)) :
      Answers (.sieveCheck slot) s post := by
    refine .of_onDev _ (Eq.refl (execSieveCheck slot s)) hu ?_
    simp only [hs, hh]
    exact h
  refine ⟨fun hh hp => ?_, fun hh hp hb hq => ?_, fun hh hw => check hh ?_, fun hh hc => check hh ?_⟩
  · refine .of_onDev _ (Eq.refl (execSieveRecompute slot s)) hu ?_
    simp only [hs, hh, hp, Option.isSome_none, Bool.false_eq_true, if_false]
  · refine .of_onDev _ (Eq.refl (execSieveRecompute slot s)) hu ?_
    simp only [hs, hh, hp, hb, hq, Option.isSome_none, Bool.false_eq_true, if_false, if_true]
    have live : s.dev.blk CEL p ≠ stRetired := by
      have mem : p ∈ s.dev.plotCells sl.tile.plot := by
        unfold Dev.borrowHost at hq
        dsimp only at hq
        split at hq
        · exact List.mem_of_find?_eq_some hq
        · exact List.mem_of_mem_filter (List.mem_of_find?_eq_some hq)
      have serves : s.dev.blk CEL p < stCloched := by
        have := (List.mem_filter.1 mem).2
        simp only [Bool.and_eq_true, decide_eq_true_eq] at this
        exact this.2
      exact fun e => absurd (e ▸ serves) (by decide)
    obtain ⟨shows, mem⟩ := Machine.Dev.clocheCell_blk live
    generalize s.dev.clocheCell p = e at shows mem ⊢
    exact ⟨by rw [mfind_mput_same]; rfl, shows, mem⟩
  · have kept := SlotKept.check (slot := slot) { s.dev with numx := { s.dev.numx with sieve := mdel slot s.dev.numx.sieve } } sl p
    exact ⟨kept.empty (mfind_mdel_same slot hw), kept.pip, kept.fab⟩
  · have outputs : sl.outputs = [] := by simp [SieveSlot.outputs, hc]
    have elements : sl.elements = [] := by simp [SieveSlot.elements, hc]
    rw [outputs]
    unfold Dev.checkIntegrity
    simp only [elements]
    rfl

/-- Settles O25. -/
theorem numericPageAndSieve : Obligations.NumericPageAndSieve := by
  unfold Obligations.NumericPageAndSieve
  exact ⟨numericPageCommands, sieveSlotsGetAHostAndAreFreed⟩

end Sys2Proof
end

