-- ==== Sys2Proof/Proofs/Flits.lean ====
section
/-! Links (R316, R321 to R324, R328, R331, R358): what sending, taking, forwarding and replaying a flit does to the port and leaves of
the device. -/

namespace Sys2Proof.Machine

theorem Dev.port_setPort_same (d : Dev) (i : Nat) (q : Port) : (d.setPort i q).port i = q := mget_mput_same ..

theorem Dev.port_setPort_other (d : Dev) {i j : Nat} (h : j ≠ i) (q : Port) : (d.setPort i q).port j = d.port j := mget_mput_other h ..

/-! ### What work on links leaves alone -/

/-- Memory, the cells and the flows stay. -/
structure LinkSide (d t : Dev) : Prop where
  mem : t.mem = d.mem
  cells : t.cells = d.cells
  flows : t.fab.flows = d.fab.flows

namespace LinkSide

variable {d e t : Dev}

theorem refl (d : Dev) : LinkSide d d := ⟨rfl, rfl, rfl⟩

theorem trans (h1 : LinkSide d e) (h2 : LinkSide e t) : LinkSide d t :=
  ⟨h2.mem.trans h1.mem, h2.cells.trans h1.cells, h2.flows.trans h1.flows⟩

theorem ite {a b : Dev} {p : Prop} [Decidable p] (ha : LinkSide d a) (hb : LinkSide d b) : LinkSide d (if p then a else b) := by
  split
  · exact ha
  · exact hb

theorem foldl {α : Type} {f : Dev → α → Dev} (h : ∀ e x, LinkSide e (f e x)) (xs : List α) (d : Dev) : LinkSide d (xs.foldl f d) := by
  induction xs generalizing d with
  | nil => exact refl d
  | cons x xs ih => exact (h d x).trans (ih _)

theorem of_reports (h : Reports d t) : LinkSide d t := ⟨h.mem, h.cells, by rw [h.fab]⟩

theorem setF (d : Dev) (f : Field) (i v : Nat) : LinkSide d (d.setF f i v) := ⟨rfl, rfl, rfl⟩
theorem setPort (d : Dev) (i : Nat) (q : Port) : LinkSide d (d.setPort i q) := ⟨rfl, rfl, rfl⟩

theorem freeTransit (d : Dev) (e : QPkt) : LinkSide d (d.freeTransit e) := by
  unfold Dev.freeTransit
  split
  · exact setPort ..
  · exact refl d

theorem forgetInput (d : Dev) (i : Nat) : LinkSide d (d.forgetInput i) := ⟨rfl, rfl, rfl⟩

theorem portDrop (d : Dev) (i : Nat) : LinkSide d (d.portDrop i) :=
  ((foldl freeTransit _ d).trans (forgetInput _ i)).trans (setPort ..)

theorem portIdle (d : Dev) (i v : Nat) : LinkSide d (d.portIdle i v) := (((portDrop d i).trans (setF ..)).trans (setF ..)).trans (setF ..)

theorem routeOut (d : Dev) (p : Packet) : LinkSide d (d.routeOut p) := by
  unfold Dev.routeOut
  split
  · exact ⟨rfl, rfl, rfl⟩
  · split
    · exact ⟨rfl, rfl, rfl⟩
    · have held : LinkSide d { d with fab := { d.fab with unrouted := d.fab.unrouted ++ [p] } } := ⟨rfl, rfl, rfl⟩
      exact held.trans (of_reports (.setErr ..))

end LinkSide

/-- Reports of the health of a port. -/
theorem Noise.lnkHealth (d₀ d : Dev) (i : Nat) : Noise d (Dev.lnkHealth d₀ d i) :=
  (ite (refl d) (irq ..)).trans (healthFrom ..)

theorem LinkSide.startRetrain (d : Dev) (i : Nat) : LinkSide d (d.startRetrain i) :=
  ((portIdle d i 3).trans (of_reports (.setErr ..))).trans (of_reports (Noise.lnkHealth ..).reports)

/-! ### A flit is sent -/

/-- What is sent stands in the outbox, with a good CRC and this side's ACK and NACK. -/
theorem Dev.sendTail_spec (d : Dev) (i : Nat) (kind : FlitKind) (vl seq : Nat) (last : Bool) (bs : List Byte) :
    ∃ x, (d.sendTail i kind vl seq last bs).out = d.out ++ [.flit i x] ∧ crcGood x = true ∧ x.bytes = bs
      ∧ (∃ cr n, tailOf x.tail = { vl := vl % 8, kind := kind, last := last, nack := (d.port i).nackNext, seq := seq % 4096,
                                   ack := (d.port i).rxSeq % 4096, crVl := cr, crCount := n })
      ∧ (∃ b n, (d.sendTail i kind vl seq last bs).port i = { d.port i with nackNext := b, crVl := n })
      ∧ LinkSide d (d.sendTail i kind vl seq last bs) := by
  let t : Tail := { vl := vl, kind := kind, last := last, nack := (d.port i).nackNext, seq := seq, ack := (d.port i).rxSeq,
                    crVl := (d.port i).crVl, crCount := mget 0 (d.port i).freed (d.port i).crVl }
  refine ⟨makeFlit bs t, rfl, crcGood_makeFlit .., rfl, ⟨_, _, tailOf_makeFlit bs t⟩, ⟨_, _, Dev.port_setPort_same ..⟩, rfl, rfl, rfl⟩

/-- A transit flit that leaves frees its receive buffer: ports differ in what they have freed. -/
theorem Dev.transitLeft_spec (d : Dev) (i : Nat) (e : QPkt) :
    LinkSide d (d.transitLeft i e) ∧ (d.transitLeft i e).out = d.out
      ∧ ∀ j, ∃ f, (d.transitLeft i e).port j = { d.port j with freed := f } := by
  have counted (t : Dev) : LinkSide t (if e.pkt.src = t.devNum then t else t.bump LNK i 6 1)
      ∧ (if e.pkt.src = t.devNum then t else t.bump LNK i 6 1).out = t.out
      ∧ ∀ j, (if e.pkt.src = t.devNum then t else t.bump LNK i 6 1).port j = t.port j := by
    split
    · exact ⟨.refl t, rfl, fun _ => rfl⟩
    · exact ⟨.of_reports (.bump ..), rfl, fun _ => rfl⟩
  unfold Dev.transitLeft
  dsimp only
  split
  · next k v _ =>
    obtain ⟨side, out, ports⟩ := counted (d.setPort k ((d.port k).free v 1))
    refine ⟨(LinkSide.setPort ..).trans side, out, fun j => ?_⟩
    rw [ports]
    by_cases hj : j = k
    · subst hj
      exact ⟨_, Dev.port_setPort_same ..⟩
    · exact ⟨_, Dev.port_setPort_other d hj _⟩
  · obtain ⟨side, out, ports⟩ := counted d
    exact ⟨side, out, fun j => ⟨(d.port j).freed, ports j⟩⟩

theorem rrNext_eq (q : Port) (w v : Nat) : ∃ a b, rrNext q w v = { q with rrVl := a, rrLeft := b } := by
  unfold rrNext
  split
  · exact ⟨q.rrVl, q.rrLeft, rfl⟩
  · split
    · exact ⟨q.rrVl, _, rfl⟩
    · exact ⟨_, _, rfl⟩

/-- The VL that the arbiter picks is one of the eight and has a packet. -/
theorem Dev.arbitrate_spec {d : Dev} {i v : Nat} (h : d.arbitrate i = some v) : v < 8 ∧ (d.port i).canSend v = true := by
  unfold Dev.arbitrate at h
  dsimp only at h
  split at h
  · next u hu =>
    obtain rfl := Option.some.inj h
    have mem := List.mem_of_find?_eq_some hu
    have ok := List.find?_some hu
    simp only [List.mem_cons, List.not_mem_nil, or_false, Bool.and_eq_true] at mem ok
    exact ⟨by omega, ok.2⟩
  · have mem := List.mem_of_find?_eq_some h
    have ok := List.find?_some h
    simp only [Bool.and_eq_true] at ok
    refine ⟨?_, ok.2⟩
    split at mem <;>
    · obtain ⟨k, -, rfl⟩ := List.mem_map.1 mem
      exact Nat.mod_lt _ (by decide)

theorem Port.queue_of_canSend {q : Port} {v : Nat} (h : q.canSend v = true) : ∃ e es, mget [] q.queue v = e :: es := by
  cases hq : mget [] q.queue v with
  | nil => simp [Port.canSend, hq] at h
  | cons e es => exact ⟨e, es, rfl⟩

/-- A flit of the packet at the head of a VL goes out and is kept for replay. -/
theorem Dev.sendFlit_spec {d : Dev} {i v : Nat} {e : QPkt} {es : List QPkt} (hq : mget [] (d.port i).queue v = e :: es) (hv : v < 8) :
    LinkSide d (d.sendFlit i v) ∧ ((d.sendFlit i v).port i).txSeq = ((d.port i).txSeq + 1) % 4096
      ∧ ((d.sendFlit i v).port i).replay.length = (d.port i).replay.length + 1
      ∧ ∃ x, (d.sendFlit i v).out = d.out ++ [.flit i x] ∧ crcGood x = true ∧ x.bytes = flitBytes e.pkt e.sent
        ∧ ∃ cr n, tailOf x.tail = { vl := v, kind := if e.sent = 0 then .head else .data, last := decide (e.sent + 1 = wireFlits e.pkt)
                                    nack := (d.port i).nackNext, seq := (d.port i).txSeq % 4096, ack := (d.port i).rxSeq % 4096
                                    crVl := cr, crCount := n } := by
  unfold Dev.sendFlit
  extract_lets q
  split
  · next h => simp [q, hq] at h
  next e' es' h =>
  obtain ⟨rfl, rfl⟩ := List.cons.inj (h.symm.trans hq)
  extract_lets last f q'
  obtain ⟨a, b, round⟩ := rrNext_eq q' (d.vlWeight i v) v
  rw [round]
  let d1 := d.setPort i { q' with rrVl := a, rrLeft := b }
  have port1 : d1.port i = { q' with rrVl := a, rrLeft := b } := Dev.port_setPort_same ..
  obtain ⟨side, out, ports⟩ := Dev.transitLeft_spec d1 i e'
  obtain ⟨fr, port2⟩ := ports i
  rw [port1] at port2
  show LinkSide d ((d1.transitLeft i e').sendKept i f) ∧ _
  have out1 : d1.out = d.out := rfl
  have side1 : LinkSide d d1 := .setPort ..
  change LinkSide d ((d1.transitLeft i e').sendKept i f) ∧ (((d1.transitLeft i e').sendKept i f).port i).txSeq = _
    ∧ (((d1.transitLeft i e').sendKept i f).port i).replay.length = _ ∧ ∃ x, ((d1.transitLeft i e').sendKept i f).out = _ ∧ _
  clear_value d1
  generalize d1.transitLeft i e' = d2 at side out port2
  obtain ⟨x, sent, crc, bytes, ⟨cr, n, tail⟩, ⟨b1, n1, port3⟩, side3⟩ := Dev.sendTail_spec d2 i f.kind f.vl f.seq f.last f.bytes
  have kept : d2.sendKept i f = d2.sendTail i f.kind f.vl f.seq f.last f.bytes := rfl
  rw [kept]
  refine ⟨(side1.trans side).trans side3, ?_, ?_, x, ?_, crc, bytes, cr, n, ?_⟩
  · rw [port3, port2]
  · rw [port3, port2]
    simp [q', q]
  · rw [sent, out, out1]
  · rw [tail, port2]
    simp only [f, Nat.mod_eq_of_lt hv]
    rfl

/-- A replay sends every kept flit again and changes no replay buffer. -/
theorem Dev.sendKept_foldl (i : Nat) (fs : List SentFlit) (d : Dev) :
    LinkSide d (fs.foldl (fun d f => d.sendKept i f) d) ∧ (fs.foldl (fun d f => d.sendKept i f) d).out.length = d.out.length + fs.length
      ∧ ((fs.foldl (fun d f => d.sendKept i f) d).port i).replays = (d.port i).replays
      ∧ ((fs.foldl (fun d f => d.sendKept i f) d).port i).replay = (d.port i).replay := by
  induction fs generalizing d with
  | nil => exact ⟨.refl d, rfl, rfl, rfl⟩
  | cons f fs ih =>
    obtain ⟨x, sent, -, -, -, ⟨b, n, port⟩, side⟩ := Dev.sendTail_spec d i f.kind f.vl f.seq f.last f.bytes
    have kept : d.sendKept i f = d.sendTail i f.kind f.vl f.seq f.last f.bytes := rfl
    rw [← kept] at sent port side
    obtain ⟨side', out, replays, replay⟩ := ih (d.sendKept i f)
    rw [port] at replays replay
    refine ⟨side.trans side', ?_, replays, replay⟩
    rw [List.foldl_cons, out, sent, List.length_append, List.length_cons, List.length_cons, List.length_nil]
    omega

/-! ### A flit is taken -/

/-- What taking the codewords and the tail of a flit changes of its port, beside reports. -/
structure Heard (i : Nat) (d t : Dev) : Prop where
  kept : t = { d with fab := { d.fab with ports := t.fab.ports }, fields := t.fields, rasLog := t.rasLog, out := t.out }
  port : t.port i = { d.port i with badWord := (t.port i).badWord, replay := (t.port i).replay, replays := (t.port i).replays,
                                    freedByPeer := (t.port i).freedByPeer, nackNext := (t.port i).nackNext }
  others : ∀ j, j ≠ i → t.port j = d.port j
  touches : Touches (fun _ => False) d t

namespace Heard

variable {i : Nat} {d e t : Dev}

theorem of_noise (h : Noise d t) : Heard i d t := by
  have ports : ∀ j, t.port j = d.port j := fun j => by simp only [Dev.port, h.reports.fab]
  refine ⟨?_, by rw [ports], fun j _ => ports j, h.touches _⟩
  obtain ⟨_, _, _, rfl⟩ := h.reports
  rfl

theorem refl (i : Nat) (d : Dev) : Heard i d d := of_noise (.refl d)

theorem trans (h1 : Heard i d e) (h2 : Heard i e t) : Heard i d t := by
  refine ⟨?_, ?_, fun j hj => (h2.others j hj).trans (h1.others j hj), h1.touches.trans h2.touches⟩
  · have kept := h2.kept
    rw [h1.kept] at kept
    exact kept
  · have port := h2.port
    rw [h1.port] at port
    exact port

theorem setPort (d : Dev) (i : Nat) {q : Port} (h : q = { d.port i with badWord := q.badWord, replay := q.replay, replays := q.replays, freedByPeer := q.freedByPeer, nackNext := q.nackNext }) :
    Heard i d (d.setPort i q) := by
  refine ⟨rfl, ?_, fun j hj => Dev.port_setPort_other d hj q, .of_fields rfl⟩
  rw [Dev.port_setPort_same]
  exact h

theorem side (h : Heard i d t) : LinkSide d t := ⟨by rw [h.kept], by rw [h.kept], by rw [h.kept]⟩

theorem getF (h : Heard i d t) {f : Field} (hf : f.quiet = true) {j : Nat} (hj : j < 2048) : t.getF f j = d.getF f j :=
  h.touches.getF hf hj (fun h => h)

theorem live (h : Heard i d t) {j : Nat} (hj : j < 2048) : t.live j = d.live j := by
  simp only [Dev.live, Dev.lstate, h.getF (f := R.LNK_STATUS_LSTATE) (by decide) hj]
  rfl

theorem devNum (h : Heard i d t) : t.devNum = d.devNum := h.getF (by decide) (by decide)

theorem pickPort (h : Heard i d t) (p : Packet) : t.pickPort p = d.pickPort p := by
  have routes : t.fab.routes = d.fab.routes := by rw [h.kept]
  have small (e k : Nat) : bitsOf e k 5 < 2048 := lt_trans (Nat.mod_lt _ (by decide)) (by decide)
  have same : t.candidates p.dst = d.candidates p.dst := by
    simp only [Dev.candidates, routes]
    split
    · rfl
    · split
      · refine List.filter_congr fun x hx => ?_
        obtain ⟨k, -, rfl⟩ := List.mem_map.1 hx
        exact h.live (small ..)
      · rfl
  simp only [Dev.pickPort, same]

theorem rxSeq (h : Heard i d t) : (t.port i).rxSeq = (d.port i).rxSeq := by rw [h.port]

end Heard

/-- A flit is damaged when it overlaps a codeword that could not be corrected (R316). -/
theorem Dev.takeFec_spec (d : Dev) (i : Nat) (fec : FecWords) :
    ((d.takeFec i fec).1 = true ↔ (fec.joins = true ∧ (d.port i).badWord = true) ∨ ∃ x ∈ fec.words, rsDecode (laneSymbols x) = .uncorrectable)
      ∧ Heard i d (d.takeFec i fec).2 ∧ ((d.takeFec i fec).2.port i).replay = (d.port i).replay := by
  unfold Dev.takeFec
  extract_lets vs lost q bad e1 e2
  refine ⟨?_, ?_, ?_⟩
  · simp only [bad, q, lost, vs, fecVerdicts, Bool.or_eq_true, Bool.and_eq_true, Bool.not_eq_true', List.isEmpty_eq_false_iff, ne_eq,
      List.filter_eq_nil_iff]
    simp
  all_goals
    have h1 : Heard i d e1 := .setPort d i rfl
    have replay : (e1.port i).replay = (d.port i).replay := by rw [Dev.port_setPort_same]
    have h2 : Noise e1 e2 := (Noise.bump e1 LNK i (k := 2) (by decide) _).trans (.bump _ LNK i (k := 3) (by decide) _)
    have noise : Noise e1 (if lost.isEmpty then e2 else e2.setErr LNK i 19) := .ite h2 (h2.trans (.setErr ..))
  · exact h1.trans (.of_noise noise)
  · simp only [Dev.port, noise.reports.fab]
    exact replay

theorem Dev.takeTail_spec (d : Dev) (i : Nat) {f : Tail} (h : f.nack = false) : Heard i d (d.takeTail i f) := by
  unfold Dev.takeTail
  simp only [h, Bool.false_eq_true, if_false]
  exact .setPort d i rfl

/-- Packets open, grow and close: no receive sequence moves. -/
structure LinkWork (d t : Dev) : Prop where
  side : LinkSide d t
  rxSeq : ∀ j, (t.port j).rxSeq = (d.port j).rxSeq

namespace LinkWork

variable {d e t : Dev}

theorem refl (d : Dev) : LinkWork d d := ⟨.refl d, fun _ => rfl⟩

theorem trans (h1 : LinkWork d e) (h2 : LinkWork e t) : LinkWork d t :=
  ⟨h1.side.trans h2.side, fun j => (h2.rxSeq j).trans (h1.rxSeq j)⟩

theorem of_reports (h : Reports d t) : LinkWork d t := ⟨.of_reports h, fun j => by simp only [Dev.port, h.fab]⟩

theorem setPort (d : Dev) {i : Nat} {q : Port} (h : q.rxSeq = (d.port i).rxSeq) : LinkWork d (d.setPort i q) := by
  refine ⟨.setPort .., fun j => ?_⟩
  by_cases hj : j = i
  · subst hj
    rw [Dev.port_setPort_same, h]
  · rw [Dev.port_setPort_other d hj]

theorem freeRx (d : Dev) (i v n : Nat) : LinkWork d (d.freeRx i v n) := setPort d rfl

theorem setOpen (d : Dev) (i v : Nat) (o : Option RxOpen) : LinkWork d (d.setOpen i v o) := setPort d rfl

theorem routeOut (d : Dev) (p : Packet) : LinkWork d (d.routeOut p) := by
  refine ⟨.routeOut .., fun j => ?_⟩
  unfold Dev.routeOut
  split
  · rfl
  · split
    · next i _ => exact (setPort d (q := { d.port i with queue := mput p.tc (mget [] (d.port i).queue p.tc ++ [⟨p, 0, wireFlits p, none⟩]) (d.port i).queue }) rfl).rxSeq j
    · exact (of_reports (Reports.setErr { d with fab := { d.fab with unrouted := d.fab.unrouted ++ [p] } } FLW 0 21)).rxSeq j

theorem openPacket (d : Dev) (i v : Nat) (p : Packet) : LinkWork d (d.openPacket i v p) := by
  unfold Dev.openPacket
  split
  · exact (freeRx ..).trans (setOpen ..)
  · exact (((freeRx ..).trans (of_reports (.bump ..))).trans (of_reports (.setErr ..))).trans (setOpen ..)
  · exact (of_reports (.setErr ..)).trans (setOpen ..)
  · extract_lets p' q e1
    have queued : LinkWork d e1 := setPort d rfl
    clear_value e1
    exact (queued.trans (of_reports (.emit ..))).trans (setOpen ..)

theorem growTransit (d : Dev) (o i v : Nat) (bs : List Byte) : LinkWork d (d.growTransit o i v bs) := setPort d rfl

theorem growPacket (d : Dev) (i v : Nat) (o : RxOpen) (bs : List Byte) : LinkWork d (d.growPacket i v o bs) := by
  unfold Dev.growPacket
  extract_lets o'
  split
  · exact (freeRx ..).trans (setOpen ..)
  · exact (freeRx ..).trans (setOpen ..)
  · exact setOpen ..
  · exact (growTransit ..).trans (setOpen ..)

theorem closePacket (d : Dev) (i v : Nat) : LinkWork d (d.closePacket i v) := by
  unfold Dev.closePacket
  split
  · exact refl d
  · next o _ =>
    extract_lets e
    have closed : LinkWork d e := setOpen ..
    clear_value e
    split
    · exact closed.trans ⟨⟨rfl, rfl, rfl⟩, fun _ => rfl⟩
    · exact (closed.trans (freeRx ..)).trans (routeOut ..)
    · exact closed

end LinkWork

/-- The receive sequence moves on, and the flit is worked on. -/
def Dev.nextFlit (d : Dev) (i : Nat) : Dev := d.setPort i { d.port i with rxSeq := ((d.port i).rxSeq + 1) % 4096 }

theorem Dev.acceptFlit_spec (d : Dev) (i : Nat) (f : Flit) (t : Tail) : LinkWork (d.nextFlit i) (d.acceptFlit i f t) := by
  have worked (e : Dev) : LinkWork e (if t.last then e.closePacket i t.vl else e) := by
    split
    · exact .closePacket ..
    · exact .refl e
  refine LinkWork.trans (e := match t.kind with
    | .head => (d.nextFlit i).openPacket i t.vl (packetWith (packetOfHeader f.bytes) (f.bytes.drop 64))
    | .data =>
      match mfind t.vl (d.port i).rxOpen with
      | some o => (d.nextFlit i).growPacket i t.vl o f.bytes
      | none => (d.nextFlit i).freeRx i t.vl 1
    | _ => d.nextFlit i) ?_ (worked _)
  split
  · exact .openPacket ..
  · split
    · exact .growPacket ..
    · exact .freeRx ..
  · exact .refl _

end Sys2Proof.Machine

namespace Sys2Proof

open Machine

/-! ### The receive buffers of the eight VLs -/

/-- The four sizes of one VL_BUF register, as written (R358). -/
def Machine.Dev.putVlBuf (d : Dev) (port : Nat) (hi : Bool) (n : Nat) : Dev :=
  let put (d : Dev) (f : Field) (k : Nat) : Dev := d.setF f port (bitsOf n (8 * k) 8)
  if hi then put (put (put (put d R.LNK_VL_BUF_HI_VL4 0) R.LNK_VL_BUF_HI_VL5 1) R.LNK_VL_BUF_HI_VL6 2) R.LNK_VL_BUF_HI_VL7 3
  else put (put (put (put d R.LNK_VL_BUF_LO_VL0 0) R.LNK_VL_BUF_LO_VL1 1) R.LNK_VL_BUF_LO_VL2 2) R.LNK_VL_BUF_LO_VL3 3

theorem Machine.Dev.putVlBuf_vlBuf (d : Dev) (port : Nat) (hi : Bool) (n : Nat) :
    (∀ k, k < 4 → (d.putVlBuf port hi n).vlBuf port (if hi then k + 4 else k) = 16 * bitsOf n (8 * k) 8)
      ∧ ∀ k, k < 4 → (d.putVlBuf port hi n).vlBuf port (if hi then k else k + 4) = d.vlBuf port (if hi then k else k + 4) := by
  have fits (k : Nat) : bitsOf n (8 * k) 8 % 2 ^ 8 = bitsOf n (8 * k) 8 := Nat.mod_eq_of_lt (Nat.mod_lt _ (by decide))
  have small (P : Nat → Prop) (h : P 0 ∧ P 1 ∧ P 2 ∧ P 3) (k : Nat) (hk : k < 4) : P k := by
    obtain ⟨h0, h1, h2, h3⟩ := h
    interval_cases k <;> assumption
  cases hi <;> unfold Machine.Dev.putVlBuf Machine.Dev.vlBuf <;>
    refine ⟨small _ ⟨?_, ?_, ?_, ?_⟩, small _ ⟨?_, ?_, ?_, ?_⟩⟩ <;>
    simp (disch := decide) only [Dev.getF_setF_place, Dev.getF_setF_same, if_true, Bool.false_eq_true, if_false, Nat.zero_add, Nat.reduceAdd] <;>
    exact congrArg (16 * ·) (fits _)

theorem Machine.Dev.vlBuf_noise {d t : Dev} (h : Noise d t) {port : Nat} (hp : port < 2048) (k : Nat) : t.vlBuf port k = d.vlBuf port k := by
  have same (f : Field) (hf : f.quiet = true) : t.getF f port = d.getF f port := h.getF hf hp
  unfold Dev.vlBuf
  simp (disch := decide) only [same]

/-- The sizes of the eight VLs after a write, whichever register it names. -/
theorem Machine.Dev.putVlBuf_sizes (d : Dev) (port : Nat) (hi : Bool) (n : Nat) :
    ((List.range 8).map (fun k => (d.putVlBuf port hi n).vlBuf port k)).Perm
      ((if hi then (List.range 4).map (fun k => d.vlBuf port k) else (List.range 4).map (fun k => d.vlBuf port (k + 4)))
        ++ (List.range 4).map (fun k => 16 * bitsOf n (8 * k) 8)) := by
  obtain ⟨now, kept⟩ := Machine.Dev.putVlBuf_vlBuf d port hi n
  have low : (List.range 8).map (fun k => (d.putVlBuf port hi n).vlBuf port k)
      = (List.range 4).map (fun k => (d.putVlBuf port hi n).vlBuf port k) ++ (List.range 4).map (fun k => (d.putVlBuf port hi n).vlBuf port (k + 4)) := rfl
  rw [low]
  have range (f g : Nat → Nat) (h : ∀ k, k < 4 → f k = g k) : (List.range 4).map f = (List.range 4).map g :=
    List.map_congr_left fun k hk => h k (List.mem_range.1 hk)
  cases hi with
  | true => exact List.Perm.of_eq (congrArg₂ (· ++ ·) (range _ _ kept) (range _ _ now))
  | false => exact (List.Perm.of_eq (congrArg₂ (· ++ ·) (range _ _ now) (range _ _ kept))).trans List.perm_append_comm

theorem Answers.of_vlBufWrite {s : State} {w : Writer} {port n : Nat} {hi : Bool} {post : Dev → Prop} (hw : Writes s w) (hp : port < 32)
    (ho : s.dev.rlOpen false LNK port = true)
    (h : post (if 1024 < ((List.range 8).map (fun k => (s.dev.putVlBuf port hi n).vlBuf port k)).sum
        ∨ ((List.range 8).map (fun k => (s.dev.putVlBuf port hi n).vlBuf port k)).contains 0 = true then s.dev.setErr LNK port 24
      else s.dev.putVlBuf port hi n)) : Answers (.lnkVlBufWrite w port hi n) s post := by
  refine .of_byWriter hw _ (Eq.refl (execLnkVlBufWrite w port hi n s)) ?_
  dsimp only
  rw [if_neg (Nat.not_le.2 hp), if_neg (by simp [ho])]
  exact h

/-! ### The links -/

theorem Machine.LinkSide.all {d t : Dev} (h : LinkSide d t) : t.mem = d.mem ∧ t.cells = d.cells ∧ t.fab.flows = d.fab.flows :=
  ⟨h.mem, h.cells, h.flows⟩

/-- A port sends: the packet that the arbiter picks, or an idle flit (R321, R328). -/
theorem Answers.of_flitTransmit {s : State} {port : Nat} {post : Dev → Prop} (hu : s.dev.up = true) (hl : s.dev.live port = true)
    (h : post (match s.dev.arbitrate port with
      | some v =>
        if (s.dev.port port).replay.length < 1024 then s.dev.sendFlit port v
        else s.dev.sendTail port .idle 0 (s.dev.port port).txSeq false (List.replicate 256 0)
      | none => s.dev.sendTail port .idle 0 (s.dev.port port).txSeq false (List.replicate 256 0))) : Answers (.flitTransmit port) s post := by
  refine .of_onDev _ (Eq.refl (execFlitTransmit port s)) hu ?_
  dsimp only
  rw [if_pos hl]
  exact h

/-- The device once a flit's codewords have been taken. -/
def Machine.Dev.heard (d : Dev) (port : Nat) (fec : FecWords) : Dev := ((d.bump LNK port 1 1).takeFec port fec).2

theorem Machine.Dev.heard_spec (d : Dev) (port : Nat) (fec : FecWords) :
    (((d.bump LNK port 1 1).takeFec port fec).1 = true
        ↔ (fec.joins = true ∧ (d.port port).badWord = true) ∨ ∃ x ∈ fec.words, rsDecode (laneSymbols x) = .uncorrectable)
      ∧ Heard port d (d.heard port fec) ∧ ((d.heard port fec).port port).replay = (d.port port).replay := by
  obtain ⟨bad, heard, replay⟩ := Dev.takeFec_spec (d.bump LNK port 1 1) port fec
  exact ⟨bad, (Heard.of_noise (.bump d LNK port (by decide) 1)).trans heard, replay⟩

/-- A damaged flit is rejected, and another one read by its tail (R316, R321). -/
theorem Answers.of_damaged {s : State} {port : Nat} {f : Flit} {fec : FecWords} {post : Dev → Prop} (hu : s.dev.up = true)
    (hl : s.dev.live port = true)
    (hd : (fec.joins = true ∧ (s.dev.port port).badWord = true) ∨ (∃ x ∈ fec.words, rsDecode (laneSymbols x) = .uncorrectable) ∨ crcGood f = false)
    (h : post (((s.dev.heard port fec).bump LNK port 4 1).rejectFlit port)) : Answers (.flitReceive port ⟨f, fec⟩) s post := by
  obtain ⟨bad, -, -⟩ := Machine.Dev.heard_spec s.dev port fec
  refine .of_onDev _ (Eq.refl (execFlitReceive port ⟨f, fec⟩ s)) hu ?_
  dsimp only
  rw [if_pos hl, if_pos ?_]
  · exact h
  · rw [Bool.or_eq_true, bad]
    rcases hd with h | h | h
    · exact .inl (.inl h)
    · exact .inl (.inr h)
    · exact .inr (by simp [h])

theorem Answers.of_sound {s : State} {port : Nat} {f : Flit} {fec : FecWords} {post : Dev → Prop} (hu : s.dev.up = true) (hp : port < 32)
    (hl : s.dev.live port = true)
    (hd : ¬ ((fec.joins = true ∧ (s.dev.port port).badWord = true) ∨ (∃ x ∈ fec.words, rsDecode (laneSymbols x) = .uncorrectable) ∨ crcGood f = false))
    (hn : (tailOf f.tail).nack = false) (hk : (tailOf f.tail).kind ≠ .idle)
    (h : ∀ e, Heard port s.dev e → post (if (tailOf f.tail).seq = (s.dev.port port).rxSeq then e.acceptFlit port f (tailOf f.tail) else e.rejectFlit port)) :
    Answers (.flitReceive port ⟨f, fec⟩) s post := by
  obtain ⟨bad, heard, -⟩ := Machine.Dev.heard_spec s.dev port fec
  have taken : Heard port s.dev ((s.dev.heard port fec).takeTail port (tailOf f.tail)) := heard.trans (Dev.takeTail_spec _ _ hn)
  have live : ((s.dev.heard port fec).takeTail port (tailOf f.tail)).live port = true := (taken.live (by omega)).trans hl
  refine .of_onDev _ (Eq.refl (execFlitReceive port ⟨f, fec⟩ s)) hu ?_
  dsimp only
  rw [if_pos hl, if_neg ?_, if_neg ?_]
  · have seq := taken.rxSeq
    have := h _ taken
    rw [← seq] at this
    exact this
  · rw [not_or]
    exact ⟨hk, by rw [show (((s.dev.bump LNK port 1 1).takeFec port fec).2.takeTail port (tailOf f.tail)).live port = true from live]; decide⟩
  · rw [Bool.or_eq_true, bad]
    rintro (h | h)
    · exact hd (h.imp_right .inl)
    · exact hd (.inr (.inr (by simpa using h)))

/-- The device accepts a flit in sequence. -/
theorem Machine.Dev.acceptFlit_all {d e : Dev} {i : Nat} (h : Heard i d e) (f : Flit) (t : Tail) :
    LinkSide d (e.acceptFlit i f t) ∧ ((e.acceptFlit i f t).port i).rxSeq = ((d.port i).rxSeq + 1) % 4096 := by
  have work := Dev.acceptFlit_spec e i f t
  have next : LinkSide e (e.nextFlit i) := .setPort ..
  refine ⟨(h.side.trans next).trans work.side, ?_⟩
  rw [work.rxSeq, Dev.nextFlit, Dev.port_setPort_same, h.rxSeq]

/-- A packet of one flit for this device has arrived. -/
theorem Machine.Dev.acceptFlit_arrived {e : Dev} {i : Nat} {f : Flit} {t : Tail} (hk : t.kind = .head) (hl : t.last = true)
    (hd : (packetWith (packetOfHeader f.bytes) (f.bytes.drop 64)).dst = e.devNum) :
    packetWith (packetOfHeader f.bytes) (f.bytes.drop 64) ∈ (e.acceptFlit i f t).fab.arrived := by
  unfold Dev.acceptFlit
  simp only [hk, hl, if_true]
  unfold Dev.openPacket Dev.wayOf
  rw [if_pos (show _ = (e.setPort i { e.port i with rxSeq := ((e.port i).rxSeq + 1) % 4096 }).devNum from hd)]
  dsimp only
  unfold Dev.closePacket
  have open' (d : Dev) (o : RxOpen) : mfind t.vl ((d.setOpen i t.vl (some o)).port i).rxOpen = some o := by
    unfold Dev.setOpen
    rw [Dev.port_setPort_same]
    exact mfind_mput_same ..
  rw [open']
  exact List.mem_append_right _ List.mem_cons_self

/-- A transit packet stands on the queue of its port from its head flit on (R331). -/
theorem Machine.Dev.acceptFlit_forwards {d e : Dev} {i o : Nat} {f : Flit} {t : Tail} (h : Heard i d e) (hi : i < 2048)
    (hk : t.kind = .head) (hl : t.last = false)
    (hd : (packetWith (packetOfHeader f.bytes) (f.bytes.drop 64)).dst ≠ d.devNum)
    (hh : (packetWith (packetOfHeader f.bytes) (f.bytes.drop 64)).hops ≠ 0) (ht : d.getF R.LNK_TRANSIT_TRANSIT_EN i = 1)
    (ho : d.pickPort (packetWith (packetOfHeader f.bytes) (f.bytes.drop 64)) = some o) :
    mget [] ((e.acceptFlit i f t).port o).queue t.vl = mget [] (d.port o).queue t.vl
      ++ [⟨{ packetWith (packetOfHeader f.bytes) (f.bytes.drop 64) with
              hops := (packetWith (packetOfHeader f.bytes) (f.bytes.drop 64)).hops - 1 }, 0, 1, some (i, t.vl)⟩] := by
  have accepts : e.acceptFlit i f t = (e.nextFlit i).openPacket i t.vl (packetWith (packetOfHeader f.bytes) (f.bytes.drop 64)) := by
    unfold Dev.acceptFlit
    simp only [hk, hl, Bool.false_eq_true, if_false]
    rfl
  rw [accepts]
  generalize packetWith (packetOfHeader f.bytes) (f.bytes.drop 64) = p at hd hh ho ⊢
  have queue (j : Nat) : (e.port j).queue = (d.port j).queue := by
    by_cases hj : j = i
    · subst hj
      rw [h.port]
    · rw [h.others j hj]
  have queue' (j : Nat) : ((e.nextFlit i).port j).queue = (d.port j).queue := by
    unfold Dev.nextFlit
    by_cases hj : j = i
    · subst hj
      rw [Dev.port_setPort_same, queue]
    · rw [Dev.port_setPort_other _ hj, queue]
  have way : (e.nextFlit i).wayOf i p = .onto o := by
    have dev : (e.nextFlit i).devNum = d.devNum := h.devNum
    have transit : (e.nextFlit i).getF R.LNK_TRANSIT_TRANSIT_EN i = 1 := (h.getF (by decide) hi).trans ht
    have pick : (e.nextFlit i).pickPort p = some o := (h.pickPort p).trans ho
    unfold Dev.wayOf
    rw [if_neg (by rw [dev]; exact hd), if_neg (by rw [transit]; simp [hh]), pick]
  have opened (d : Dev) (x : Option RxOpen) (v : Nat) (j : Nat) : ((d.setOpen i v x).port j).queue = (d.port j).queue := by
    unfold Dev.setOpen
    by_cases hj : j = i
    · subst hj
      rw [Dev.port_setPort_same]
    · rw [Dev.port_setPort_other _ hj]
  unfold Dev.openPacket
  rw [way]
  dsimp only
  rw [opened]
  refine (congrArg (fun q : Port => mget [] q.queue t.vl) (Dev.port_setPort_same ..)).trans ?_
  rw [mget_mput_same, queue']

/-- A replay sends the kept flits again, or retrains the port after too many in a row (R322). -/
theorem Answers.of_replayTimeout {s : State} {port : Nat} {post : Dev → Prop} (hu : s.dev.up = true) (hl : s.dev.live port = true)
    (h : post (s.dev.replayPort port)) : Answers (.linkReplayTimeout port) s post :=
  .of_onDev _ (Eq.refl (execLinkReplayTimeout port s)) hu (by rw [if_pos hl]; exact h)

theorem Machine.Dev.replayPort_again {d : Dev} {i : Nat} (hr : (d.port i).replay ≠ [])
    (hl : (d.port i).replays < max 1 (d.actF R.LNK_TIMERS_REPLAY_LIM i)) :
    ((d.replayPort i).port i).replays = (d.port i).replays + 1 ∧ ((d.replayPort i).port i).replay = (d.port i).replay
      ∧ (d.replayPort i).out.length = d.out.length + (d.port i).replay.length ∧ LinkSide d (d.replayPort i) := by
  unfold Dev.replayPort
  extract_lets q e
  have port : e.port i = { d.port i with replays := (d.port i).replays + 1 } := Dev.port_setPort_same ..
  have side1 : LinkSide d e := .setPort ..
  have out1 : e.out = d.out := rfl
  clear_value e
  rw [if_neg (by simpa [q] using hr), if_neg (Nat.not_le.2 hl)]
  obtain ⟨side, out, replays, replay⟩ := Dev.sendKept_foldl i q.replay e
  rw [port] at replays replay
  rw [out1] at out
  exact ⟨replays, replay, out, (side1.trans side).trans (.of_reports (.bump ..))⟩

theorem Machine.Dev.lstate_startRetrain (d : Dev) {i : Nat} (hi : i < 2048) : (d.startRetrain i).lstate i = 3 := by
  unfold Dev.startRetrain
  refine (Noise.getF (Noise.lnkHealth ..) (by decide) hi).trans ((Noise.getF (Noise.setErr ..) (by decide) hi).trans ?_)
  exact (Dev.getF_setF_place (by decide) ..).trans ((Dev.getF_setF_place (by decide) ..).trans (Dev.getF_setF_same ..))

/-- A port that goes idle keeps the error bits of every page. -/
theorem Machine.Touches.portIdle (d : Dev) (i v : Nat) :
    Touches (homes [(R.LNK_STATUS_LSTATE, i), (R.LNK_STATUS_LANES, i), (R.LNK_STATUS_SPARED, i)]) d (d.portIdle i v) := by
  have set (e : Dev) (f : Field) (h : f ∈ [R.LNK_STATUS_LSTATE, R.LNK_STATUS_LANES, R.LNK_STATUS_SPARED]) (hp : f.place ≠ 1024) (v : Nat) :
      Touches (homes [(R.LNK_STATUS_LSTATE, i), (R.LNK_STATUS_LANES, i), (R.LNK_STATUS_SPARED, i)]) e (e.setF f i v) :=
    .setF e ⟨(f, i), List.mem_map_of_mem (f := fun f => (f, i)) h, rfl⟩ hp v
  exact (((Touches.of_fields (Dev.portDrop_fields d i)).trans (set _ _ (by decide) (by decide) v)).trans (set _ _ (by decide) (by decide) 0)).trans
    (set _ _ (by decide) (by decide) 0)

theorem Machine.Touches.startRetrain (d : Dev) (i : Nat) :
    Touches (homes [(R.LNK_STATUS_LSTATE, i), (R.LNK_STATUS_LANES, i), (R.LNK_STATUS_SPARED, i)]) d (d.startRetrain i) :=
  ((portIdle d i 3).trans ((Noise.setErr ..).touches _)).trans ((Noise.lnkHealth ..).touches _)

theorem Machine.Dev.replayPort_retrains {d : Dev} {i : Nat} (hi : i < 2048) (hr : (d.port i).replay ≠ [])
    (hl : max 1 (d.actF R.LNK_TIMERS_REPLAY_LIM i) ≤ (d.port i).replays) :
    (d.replayPort i).lstate i = 3 ∧ (d.replayPort i).errBit LNK i 20 = true ∧ LinkSide d (d.replayPort i) := by
  unfold Dev.replayPort
  dsimp only
  rw [if_neg (by simpa using hr), if_pos hl]
  exact ⟨Machine.Dev.lstate_startRetrain _ hi, (Touches.startRetrain ..).errs _ _ _ (by decide) (Noise.errBit_setErr d LNK i (by decide)),
    (LinkSide.of_reports (.setErr ..)).trans (.startRetrain ..)⟩

/-- A transit packet none of whose flits has left is dropped, and its receive buffer is free (R331). -/
theorem Machine.Dev.transitDropped (d : Dev) {port v : Nat} {e : QPkt} {rest : List QPkt} (hs : e.sent = 0) :
    let t := (((d.setPort port { d.port port with queue := mput v rest (d.port port).queue }).freeTransit e).bump LNK port 7 1).setErr LNK port 21
    mget [] (t.port port).queue v = rest ∧ t.errBit LNK port 21 = true ∧ LinkSide d t
      ∧ ∀ j u, e.inp = some (j, u) → mget 0 (t.port j).freed u = (mget 0 (d.port j).freed u + e.here) % 2048 := by
  intro t
  let e1 := d.setPort port { d.port port with queue := mput v rest (d.port port).queue }
  have shown : Noise (e1.freeTransit e) t := (Noise.bump _ LNK port (k := 7) (by decide) 1).trans (.setErr ..)
  have ports (j : Nat) : t.port j = (e1.freeTransit e).port j := by simp only [Dev.port, shown.reports.fab]
  have freed1 (j : Nat) : (e1.port j).freed = (d.port j).freed := by
    by_cases hj : j = port
    · subst hj
      rw [Dev.port_setPort_same]
    · rw [Dev.port_setPort_other d hj]
  have queue1 : (e1.port port).queue = mput v rest (d.port port).queue := by rw [Dev.port_setPort_same]
  have side1 : LinkSide d e1 := .setPort ..
  clear_value e1
  refine ⟨?_, Noise.errBit_setErr _ LNK port (by decide), (side1.trans (.freeTransit e1 e)).trans (.of_reports shown.reports), fun j u hj => ?_⟩
  · rw [ports]
    have queue : ((e1.freeTransit e).port port).queue = (e1.port port).queue := by
      unfold Dev.freeTransit
      split
      · next j u _ =>
        by_cases hj : port = j
        · subst hj
          rw [Dev.port_setPort_same]
          split <;> rfl
        · rw [Dev.port_setPort_other _ hj]
      · rfl
    rw [queue, queue1, mget_mput_same]
  · rw [ports]
    unfold Dev.freeTransit
    simp only [hj, hs, Nat.sub_zero]
    rw [Dev.port_setPort_same]
    have free (q : Port) : mget 0 (q.free u e.here).freed u = (mget 0 q.freed u + e.here) % 2048 := mget_mput_same ..
    split
    · exact (free _).trans (by rw [freed1])
    · exact (free _).trans (by rw [freed1])

/-- Settles O39. -/
theorem linksCarryFlits : Obligations.LinksCarryFlits := by
  unfold Obligations.LinksCarryFlits
  intro s w port v n o f fec e rest hi hu hp q kept tail p damaged accepted receives sends
  have small : port < 2048 := by omega
  have rejects {e : Dev} (h : Heard port s.dev e) : ((e.rejectFlit port).port port).rxSeq = q.rxSeq ∧ ((e.rejectFlit port).port port).nackNext = true
      ∧ kept (e.rejectFlit port) := by
    unfold Dev.rejectFlit
    rw [Dev.port_setPort_same]
    exact ⟨h.rxSeq, rfl, (h.side.trans (.setPort ..)).all⟩
  have taken {post : Dev → Prop} (ha : accepted) (h : ∀ e, Heard port s.dev e → post (e.acceptFlit port f tail)) : receives post := by
    obtain ⟨hl, hd, hn, hs, hk⟩ := ha
    exact .of_sound hu hp hl hd hn hk fun e he => by rw [if_pos hs]; exact h e he
  refine ⟨fun hl ha hr => .of_flitTransmit hu hl ?_, fun hl ha => .of_flitTransmit hu hl ?_, fun ha => taken ha fun e he => ?_,
    fun ha hk hl hd => taken ha fun e he => ?_, fun ha hk hl hd hh ht ho => taken ha fun e he => ?_, fun hl hd hn hk hs => ?_,
    fun hl hd => ?_, fun hl hr hn => .of_replayTimeout hu hl ?_, fun hl hr hn => .of_replayTimeout hu hl ?_, fun hq hs hd => ?_, fun hw ho => ?_⟩
  · simp only [ha]
    rw [if_pos hr]
    obtain ⟨hv, can⟩ := Dev.arbitrate_spec ha
    obtain ⟨e, es, hq⟩ := Port.queue_of_canSend can
    obtain ⟨side, seq, replay, x, out, crc, bytes, cr, m, shown⟩ := Dev.sendFlit_spec hq hv
    refine ⟨seq, replay, ⟨x, e, es, hq, ⟨out, crc, by rw [shown], by rw [shown]⟩, bytes, ?_, ?_, ?_, ?_⟩, side.all⟩ <;> rw [shown]
  · obtain ⟨x, out, crc, -, ⟨cr, m, shown⟩, ⟨b, k, port'⟩, side⟩ :=
      Dev.sendTail_spec s.dev port .idle 0 (s.dev.port port).txSeq false (List.replicate 256 0)
    have idle : (match s.dev.arbitrate port with
        | some v =>
          if (s.dev.port port).replay.length < 1024 then s.dev.sendFlit port v
          else s.dev.sendTail port .idle 0 (s.dev.port port).txSeq false (List.replicate 256 0)
        | none => s.dev.sendTail port .idle 0 (s.dev.port port).txSeq false (List.replicate 256 0))
        = s.dev.sendTail port .idle 0 (s.dev.port port).txSeq false (List.replicate 256 0) := by
      split
      · next h =>
        rcases ha with ha | ha
        · simp [ha] at h
        · exact if_neg (Nat.not_lt.2 ha)
      · rfl
    rw [idle]
    refine ⟨by rw [port'], by rw [port'], ⟨x, ⟨out, crc, by rw [shown], by rw [shown]⟩, by rw [shown]⟩, side.all⟩
  · obtain ⟨side, seq⟩ := Machine.Dev.acceptFlit_all he f tail
    exact ⟨seq, side.all⟩
  · exact Machine.Dev.acceptFlit_arrived hk hl (hd.trans he.devNum.symm)
  · exact Machine.Dev.acceptFlit_forwards he small hk hl hd hh ht ho
  · exact .of_sound hu hp hl hd hn hk fun e he => by rw [if_neg hs]; exact rejects he
  · refine .of_damaged hu hl hd ?_
    obtain ⟨-, heard, replay⟩ := Machine.Dev.heard_spec s.dev port fec
    have counted : Noise (s.dev.heard port fec) ((s.dev.heard port fec).bump LNK port 4 1) := .bump _ _ _ (by decide) _
    obtain ⟨seq, nack, side⟩ := rejects (heard.trans (.of_noise counted))
    refine ⟨seq, nack, ?_, side⟩
    unfold Dev.rejectFlit
    rw [Dev.port_setPort_same]
    exact replay
  · obtain ⟨replays, replay, out, side⟩ := Machine.Dev.replayPort_again hr hn
    exact ⟨replays, replay, out, side.all⟩
  · obtain ⟨state, err, side⟩ := Machine.Dev.replayPort_retrains small hr hn
    exact ⟨state, err, side.all⟩
  · refine .of_onDev _ (Eq.refl (execTransitTimeout port v s)) hu ?_
    have head : mget [] (s.dev.port port).queue v = e :: rest := hq
    dsimp only
    rw [head]
    dsimp only
    rw [if_neg (not_or.2 ⟨fun h => h hs, hd⟩)]
    obtain ⟨queue, err, side, freed⟩ := Machine.Dev.transitDropped s.dev (port := port) (v := v) (rest := rest) hs
    exact ⟨queue, err, side.all, freed⟩
  · intro byte others sizes
    have perm := Machine.Dev.putVlBuf_sizes s.dev port hi n
    have sum := perm.sum_eq
    refine ⟨fun hs h0 => .of_vlBufWrite ⟨hu, hw⟩ hp ho ?_, fun hs => .of_vlBufWrite ⟨hu, hw⟩ hp ho ?_⟩
    · have room : ¬ (1024 < ((List.range 8).map (fun k => (s.dev.putVlBuf port hi n).vlBuf port k)).sum
          ∨ ((List.range 8).map (fun k => (s.dev.putVlBuf port hi n).vlBuf port k)).contains 0 = true) := by
        rw [sum, List.contains_iff_mem, perm.mem_iff]
        exact not_or.2 ⟨Nat.not_lt.2 hs, h0⟩
      rw [if_neg room]
      refine ⟨(Machine.Dev.putVlBuf_vlBuf s.dev port hi n).1, ?_⟩
      cases hi <;> exact ⟨rfl, rfl, rfl⟩
    · rw [if_pos (.inl (sum ▸ hs))]
      exact ⟨fun k => Machine.Dev.vlBuf_noise (.setErr ..) small k, Noise.errBit_setErr _ _ _ (by decide), (LinkSide.of_reports (.setErr ..)).all⟩

end Sys2Proof
end

