-- ==== Sys2Proof/Proofs/Training.lean ====
section
/-! Training and retraining (R318 to R320, R353, R354, R357, R460, R510): how a port becomes ACTIVE or LOST and what it keeps. -/

namespace Sys2Proof.Machine

/-- The homes of a port's state, its lanes in use and its spared mark. -/
def linkHomes (i : Nat) : Nat → Prop := homes ([R.LNK_STATUS_LSTATE, R.LNK_STATUS_LANES, R.LNK_STATUS_SPARED].map (·, i))

theorem not_linkHomes {f : Field} (h : f.place ∉ [R.LNK_STATUS_LSTATE, R.LNK_STATUS_LANES, R.LNK_STATUS_SPARED].map Field.place) (i j : Nat) :
    ¬ linkHomes i (f.key j) := not_homes_map h i j

theorem not_linkHomes_page {f : Field} (hf : f ∈ [R.LNK_STATUS_LSTATE, R.LNK_STATUS_LANES, R.LNK_STATUS_SPARED]) {i j : Nat} (h : j ≠ i) :
    ¬ linkHomes i (f.key j) := by
  rintro ⟨x, hx, e⟩
  simp only [List.map_cons, List.map_nil, List.mem_cons, List.not_mem_nil, or_false] at hx hf
  rcases hx with rfl | rfl | rfl <;> rcases hf with rfl | rfl | rfl <;>
    exact absurd e (by simp only [Field.key, R.LNK_STATUS_LSTATE, R.LNK_STATUS_LANES, R.LNK_STATUS_SPARED]; omega)

/-- A port out of ACTIVE runs on no lane. -/
theorem Dev.portIdle_shows (d : Dev) (i : Nat) {v : Nat} (hv : v < 16) : (d.portIdle i v).lstate i = v
    ∧ (d.portIdle i v).getF R.LNK_STATUS_LANES i = 0 ∧ (d.portIdle i v).getF R.LNK_STATUS_SPARED i = 0 := by
  simp (disch := decide) only [Dev.portIdle, Dev.setLstate, Dev.lstate, Dev.getF_setF_place, Dev.getF_setF_same]
  exact ⟨Nat.mod_eq_of_lt hv, rfl, rfl⟩

theorem Dev.portIdle_replay (d : Dev) (i v : Nat) : ((d.portIdle i v).port i).replay = [] := congrArg Port.replay (mget_mput_same ..)

/-- A port is LOST: it shows so, and the rest is reports. -/
theorem Dev.portLost_noise (d : Dev) (i : Nat) : Noise (d.portIdle i 4) (d.portLost i) ∧ (d.portLost i).errBit LNK i 17 = true := by
  unfold Dev.portLost
  extract_lets e
  have lost : Noise (d.portIdle i 4) e := (Noise.setErr _ LNK i 17).trans (.lnkHealth ..)
  have err : e.errBit LNK i 17 = true := (Noise.lnkHealth ..).errs _ _ _ (by decide) (Noise.errBit_setErr _ LNK i (by decide))
  clear_value e
  split
  · exact ⟨lost.trans (.raiseReplace ..), (Noise.raiseReplace ..).errs _ _ _ (by decide) err⟩
  · exact ⟨lost, err⟩

theorem Dev.portLost_spec (d : Dev) {i : Nat} (hi : i < 2048) : (d.portLost i).lstate i = 4 ∧ (d.portLost i).errBit LNK i 17 = true
    ∧ (d.portLost i).getF R.LNK_STATUS_LANES i = 0 ∧ (d.portLost i).getF R.LNK_STATUS_SPARED i = 0 := by
  obtain ⟨noise, err⟩ := Dev.portLost_noise d i
  obtain ⟨state, lanes, spared⟩ := Dev.portIdle_shows d i (v := 4) (by decide)
  exact ⟨(noise.getF (by decide) hi).trans state, err, (noise.getF (by decide) hi).trans lanes, (noise.getF (by decide) hi).trans spared⟩

theorem LinkSide.portLost (d : Dev) (i : Nat) : LinkSide d (d.portLost i) :=
  (portIdle ..).trans (of_reports (Dev.portLost_noise d i).1.reports)

theorem Touches.portLost (d : Dev) (i : Nat) : Touches (linkHomes i) d (d.portLost i) :=
  (portIdle d i 4).trans ((Dev.portLost_noise d i).1.touches _)

/-- Packets are routed: queues grow, and the ports keep the rest. -/
structure Routed (d t : Dev) : Prop where
  side : LinkSide d t
  touches : Touches (fun _ => False) d t
  ports : ∀ j, ∃ q, t.port j = { d.port j with queue := q }

namespace Routed

variable {d e t : Dev}

theorem refl (d : Dev) : Routed d d := ⟨.refl d, .of_fields rfl, fun _ => ⟨_, rfl⟩⟩

theorem trans (h1 : Routed d e) (h2 : Routed e t) : Routed d t := by
  refine ⟨h1.side.trans h2.side, h1.touches.trans h2.touches, fun j => ?_⟩
  obtain ⟨q1, p1⟩ := h1.ports j
  obtain ⟨q2, p2⟩ := h2.ports j
  exact ⟨q2, by rw [p2, p1]⟩

theorem of_noise (h : Noise d t) : Routed d t :=
  ⟨.of_reports h.reports, h.touches _, fun j => ⟨(d.port j).queue, by simp only [Dev.port, h.reports.fab]⟩⟩

theorem enqueue (d : Dev) (i : Nat) (p : Packet) : Routed d (d.enqueue i p) := by
  refine ⟨⟨rfl, rfl, rfl⟩, .of_fields rfl, fun j => ?_⟩
  by_cases hj : j = i
  · subst hj
    exact ⟨_, Dev.port_setPort_same ..⟩
  · exact ⟨_, Dev.port_setPort_other d hj _⟩

theorem routeOut (d : Dev) (p : Packet) : Routed d (d.routeOut p) := by
  unfold Dev.routeOut
  split
  · exact ⟨⟨rfl, rfl, rfl⟩, .of_fields rfl, fun _ => ⟨_, rfl⟩⟩
  · split
    · exact enqueue ..
    · have held : Routed d { d with fab := { d.fab with unrouted := d.fab.unrouted ++ [p] } } :=
        ⟨⟨rfl, rfl, rfl⟩, .of_fields rfl, fun _ => ⟨_, rfl⟩⟩
      exact held.trans (of_noise (.setErr ..))

theorem foldl {α : Type} {f : Dev → α → Dev} (h : ∀ e x, Routed e (f e x)) (xs : List α) (d : Dev) : Routed d (xs.foldl f d) := by
  induction xs generalizing d with
  | nil => exact refl d
  | cons x xs ih => exact (h d x).trans (ih _)

theorem rerouteAll (d : Dev) : Routed d d.rerouteAll := by
  have emptied : Routed d { d with fab := { d.fab with unrouted := [] } } := ⟨⟨rfl, rfl, rfl⟩, .of_fields rfl, fun _ => ⟨_, rfl⟩⟩
  exact emptied.trans (foldl routeOut _ _)

end Routed

/-- A port that retrains says so, and holds nothing (R319, R353). -/
theorem Dev.errBit_startRetrain (d : Dev) (i : Nat) : (d.startRetrain i).errBit LNK i 18 = true :=
  (Noise.lnkHealth ..).errs _ _ _ (by decide) (Noise.errBit_setErr _ LNK i (by decide))

theorem Dev.replay_startRetrain (d : Dev) (i : Nat) : ((d.startRetrain i).port i).replay = [] := by
  have shown : Noise (d.portIdle i 3) (d.startRetrain i) := (Noise.setErr ..).trans (.lnkHealth ..)
  rw [Dev.port, shown.reports.fab]
  exact Dev.portIdle_replay d i 3

/-- A list as a map from places to entries. -/
theorem mget_zipIdx (xs : List Nat) (v : Nat) : mget 0 (xs.zipIdx.map (fun x => (x.2, x.1))) v = xs.getD v 0 := by
  have from' : ∀ (xs : List Nat) (k : Nat), k ≤ v → mget 0 ((xs.zipIdx k).map (fun x => (x.2, x.1))) v = xs.getD (v - k) 0 := by
    intro xs
    induction xs with
    | nil => exact fun _ _ => rfl
    | cons x xs ih =>
      intro k hk
      rw [List.zipIdx_cons, List.map_cons]
      unfold mget mfind
      split
      · next h =>
        have h : v = k := h
        simp [h]
      · next h =>
        have := ih (k + 1) (by omega)
        unfold mget at this
        rw [this, show v - k = (v - (k + 1)) + 1 by omega, List.getD_cons_succ]
  exact from' xs 0 (Nat.zero_le v)

/-- What an ACTIVE port shows and holds (R353, R357, R358). -/
structure PortUp (i k : Nat) (q : Port) (t : Dev) : Prop where
  lstate : t.lstate i = 2
  lanes : t.getF R.LNK_STATUS_LANES i = k
  spared : t.getF R.LNK_STATUS_SPARED i = b2n (decide (k = 7))
  port : ∃ x, t.port i = { Port.reset with train := .active, neighbour := q.neighbour, grants := q.granted, queue := x }

theorem Dev.portActive_spec (d : Dev) {i k : Nat} (hi : i < 2048) (hk : k < 16) : PortUp i k (d.port i) (d.portActive i k)
    ∧ LinkSide d (d.portActive i k) ∧ Touches (linkHomes i) d (d.portActive i k) := by
  unfold Dev.portActive
  extract_lets q _ e1 e2
  have side1 : LinkSide d e1 := .setPort ..
  have fields1 : e1.fields = d.fields := rfl
  have port1 : e1.port i = { Port.reset with train := .active, neighbour := q.neighbour, grants := q.granted } := Dev.port_setPort_same ..
  clear_value e1
  have side2 : LinkSide e1 e2 := ((LinkSide.setF ..).trans (.setF ..)).trans (.setF ..)
  have port2 : e2.port i = e1.port i := rfl
  have state : e2.lstate i = 2 ∧ e2.getF R.LNK_STATUS_LANES i = k ∧ e2.getF R.LNK_STATUS_SPARED i = b2n (decide (k = 7)) := by
    simp (disch := decide) only [e2, Dev.setLstate, Dev.lstate, Dev.getF_setF_place, Dev.getF_setF_same]
    refine ⟨rfl, Nat.mod_eq_of_lt hk, Nat.mod_eq_of_lt ?_⟩
    unfold b2n
    split <;> decide
  have touches2 : Touches (linkHomes i) e1 e2 := by
    have set (e : Dev) (f : Field) (h : f ∈ [R.LNK_STATUS_LSTATE, R.LNK_STATUS_LANES, R.LNK_STATUS_SPARED]) (hp : f.place ≠ 1024) (v : Nat) :
        Touches (linkHomes i) e (e.setF f i v) := .setF e ⟨(f, i), List.mem_map_of_mem (f := fun f => (f, i)) h, rfl⟩ hp v
    exact ((set e1 _ (by decide) (by decide) 2).trans (set _ _ (by decide) (by decide) k)).trans (set _ _ (by decide) (by decide) _)
  clear_value e2
  obtain ⟨lstate, lanes, spared⟩ := state
  have routed : Routed e2 (Dev.lnkHealth d e2 i).rerouteAll := (Routed.of_noise (.lnkHealth ..)).trans (.rerouteAll _)
  have kept {f : Field} (hf : f.quiet = true) : (Dev.lnkHealth d e2 i).rerouteAll.getF f i = e2.getF f i := routed.touches.getF hf hi id
  obtain ⟨x, port⟩ := routed.ports i
  refine ⟨⟨(kept (by decide)).trans lstate, (kept (by decide)).trans lanes, (kept (by decide)).trans spared, x, ?_⟩,
    (side1.trans side2).trans routed.side, ((Touches.of_fields fields1).trans touches2).trans (routed.touches.mono fun _ h => h.elim)⟩
  rw [port, port2, port1]

/-- Enough lanes in lock (R319). -/
def Dev.enoughLanes (d : Dev) (i k : Nat) : Prop := k = 8 ∨ (k = 7 ∧ d.getF R.LNK_CTRL_SPARE_EN i = 1)

theorem Dev.portDone_active {d : Dev} {i k : Nat} (hi : i < 2048) (h : d.enoughLanes i k) : PortUp i k (d.port i) (d.portDone i k)
    ∧ LinkSide d (d.portDone i k) ∧ (k = 8 → (d.portDone i k).getF R.LNK_STATUS_FAILED_LANES i = 0) := by
  unfold Dev.portDone
  rcases h with rfl | ⟨rfl, spare⟩
  · obtain ⟨up, side, touches⟩ := Dev.portActive_spec (d.setF R.LNK_STATUS_FAILED_LANES i 0) hi (k := 8) (by decide)
    refine ⟨up, (LinkSide.setF ..).trans side, fun _ => ?_⟩
    exact (touches.getF (f := R.LNK_STATUS_FAILED_LANES) (by decide) hi (not_linkHomes (by decide) i i)).trans (Dev.getF_setF_same ..)
  · obtain ⟨up, side, -⟩ := Dev.portActive_spec d hi (k := 7) (by decide)
    rw [if_neg (by decide), if_pos ⟨rfl, spare⟩]
    exact ⟨up, side, fun h => absurd h (by decide)⟩

theorem Dev.portDone_lost {d : Dev} {i k : Nat} (h : ¬ d.enoughLanes i k) : d.portDone i k = d.portLost i :=
  (if_neg fun e => h (.inl e)).trans (if_neg fun e => h (.inr e))

/-! ### Lane failures -/

theorem Dev.laneFail_spec {d : Dev} {i lane : Nat} (hi : i < 32) (hl : lane < 8) (hs : d.lstate i = 2 ∨ d.lstate i = 3)
    (hb : bitOf (d.getF R.LNK_STATUS_FAILED_LANES i) lane = false) :
    ∃ e, LinkSide d e ∧ Touches (homes ([R.LNK_STATUS_FAILED_LANES].map (·, i))) d e
      ∧ bitOf (e.getF R.LNK_STATUS_FAILED_LANES i) lane = true ∧ e.errBit LNK i 16 = true
      ∧ d.laneFail i lane = if d.getF R.LNK_STATUS_FAILED_LANES i = 0 ∧ d.getF R.LNK_CTRL_SPARE_EN i = 1 then
          (if d.lstate i = 2 then (e.policyTaken LNK i).startRetrain i else e.policyTaken LNK i) else e.portLost i := by
  let e := (d.setF R.LNK_STATUS_FAILED_LANES i (setBit (d.getF R.LNK_STATUS_FAILED_LANES i) lane)).setErr LNK i 16
  have noise : Noise (d.setF R.LNK_STATUS_FAILED_LANES i (setBit (d.getF R.LNK_STATUS_FAILED_LANES i) lane)) e := .setErr ..
  have touches : Touches (homes ([R.LNK_STATUS_FAILED_LANES].map (·, i))) d e :=
    (Touches.setF d ⟨_, List.mem_singleton_self _, rfl⟩ (by decide) _).trans (noise.touches _)
  refine ⟨e, (LinkSide.setF ..).trans (.of_reports noise.reports), touches, ?_, Noise.errBit_setErr _ LNK i (by decide), ?_⟩
  · rw [noise.getF (by decide) (by omega), Dev.getF_setF_same]
    simp only [bitOf, setBit, R.LNK_STATUS_FAILED_LANES, Nat.testBit_mod_two_pow, Nat.testBit_or, Nat.testBit_two_pow_self, Bool.or_true,
      Bool.and_true, decide_eq_true_eq]
    exact hl
  · have spare : e.getF R.LNK_CTRL_SPARE_EN i = d.getF R.LNK_CTRL_SPARE_EN i :=
      touches.getF (by decide) (by omega) (not_homes_map (by decide) i i)
    unfold Dev.laneFail
    dsimp only
    rw [if_neg (by omega), hb, if_neg Bool.false_ne_true, spare]

/-- A lane failure of a port in ACTIVE or RETRAINING, and what it leaves of the other ports. -/
theorem Dev.laneFail_shows {d : Dev} {i lane : Nat} (hi : i < 32) (hl : lane < 8) (hs : d.lstate i = 2 ∨ d.lstate i = 3)
    (hb : bitOf (d.getF R.LNK_STATUS_FAILED_LANES i) lane = false) :
    ((d.laneFail i lane).lstate i = 3 ∨ (d.laneFail i lane).lstate i = 4) ∧ LinkSide d (d.laneFail i lane)
      ∧ ∀ j, j < 32 → j ≠ i → (d.laneFail i lane).lstate j = d.lstate j
        ∧ (d.laneFail i lane).getF R.LNK_STATUS_FAILED_LANES j = d.getF R.LNK_STATUS_FAILED_LANES j := by
  obtain ⟨e, side, touches, -, -, eq⟩ := Dev.laneFail_spec hi hl hs hb
  have hi' : i < 2048 := by omega
  have mark : e.lstate i = d.lstate i := touches.getF (by decide) hi' (not_homes_map (by decide) i i)
  have taken : Noise e (e.policyTaken LNK i) := .policyTaken ..
  have others {t : Dev} (h : Touches (linkHomes i) e t) (j : Nat) (hj : j < 32) (hn : j ≠ i) : t.lstate j = d.lstate j
      ∧ t.getF R.LNK_STATUS_FAILED_LANES j = d.getF R.LNK_STATUS_FAILED_LANES j := by
    have hj' : j < 2048 := by omega
    refine ⟨(h.getF (by decide) hj' (not_linkHomes_page (by decide) hn)).trans (touches.getF (by decide) hj' (not_homes_map (by decide) i j)),
      (h.getF (f := R.LNK_STATUS_FAILED_LANES) (by decide) hj' (not_linkHomes (by decide) i j)).trans (touches.getF (by decide) hj' ?_)⟩
    rintro ⟨x, hx, k⟩
    obtain rfl := List.mem_singleton.1 hx
    exact hn (Field.key_inj _ |>.1 k).symm
  rw [eq]
  split
  · split
    · exact ⟨.inl (Dev.lstate_startRetrain _ hi'), (side.trans (.of_reports taken.reports)).trans (.startRetrain ..),
        others ((taken.touches _).trans (.startRetrain ..))⟩
    · next h => exact ⟨.inl ((taken.getF (by decide) hi').trans (mark.trans (hs.resolve_left h))), side.trans (.of_reports taken.reports),
        others (taken.touches _)⟩
  · exact ⟨.inr (Dev.portLost_spec e hi').1, side.trans (.portLost ..), others (.portLost ..)⟩

theorem Dev.laneFail_foldl (ls : List (Nat × Nat)) (d : Dev) (nodup : (ls.map (·.1)).Nodup)
    (h : ∀ l ∈ ls, l.1 < 32 ∧ l.2 < 8 ∧ d.lstate l.1 = 2 ∧ bitOf (d.getF R.LNK_STATUS_FAILED_LANES l.1) l.2 = false) :
    (∀ l ∈ ls, (ls.foldl (fun d l => d.laneFail l.1 l.2) d).lstate l.1 = 3 ∨ (ls.foldl (fun d l => d.laneFail l.1 l.2) d).lstate l.1 = 4)
      ∧ LinkSide d (ls.foldl (fun d l => d.laneFail l.1 l.2) d)
      ∧ ∀ j, j < 32 → j ∉ ls.map (·.1) → (ls.foldl (fun d l => d.laneFail l.1 l.2) d).lstate j = d.lstate j := by
  induction ls generalizing d with
  | nil => exact ⟨fun _ h => absurd h List.not_mem_nil, .refl d, fun _ _ _ => rfl⟩
  | cons l ls ih =>
    obtain ⟨fresh, nodup⟩ := List.nodup_cons.1 nodup
    obtain ⟨hp, hl, hs, hb⟩ := h l List.mem_cons_self
    obtain ⟨now, side, others⟩ := Dev.laneFail_shows hp hl (.inl hs) hb
    obtain ⟨rest, side', kept⟩ := ih (d.laneFail l.1 l.2) nodup fun x hx => by
      obtain ⟨hp', hl', hs', hb'⟩ := h x (List.mem_cons_of_mem _ hx)
      obtain ⟨state, failed⟩ := others x.1 hp' fun e => fresh (List.mem_map.2 ⟨x, hx, e⟩)
      exact ⟨hp', hl', state.trans hs', by rw [failed]; exact hb'⟩
    refine ⟨fun x hx => ?_, side.trans side', fun j hj hn => ?_⟩
    · rcases List.mem_cons.1 hx with rfl | hx
      · rw [List.foldl_cons, kept _ hp fresh]
        exact now
      · exact rest x hx
    · rw [List.map_cons, List.mem_cons, not_or] at hn
      exact (kept j hj hn.2).trans (others j hj hn.1).1

/-! ### The identity exchange -/

/-- The outbox grows. -/
def Grown (d t : Dev) : Prop := d.out <+: t.out

namespace Grown

theorem refl (d : Dev) : Grown d d := List.prefix_refl _
theorem trans {d e t : Dev} (h1 : Grown d e) (h2 : Grown e t) : Grown d t := List.IsPrefix.trans h1 h2

theorem ite {d a b : Dev} {p : Prop} [Decidable p] (ha : Grown d a) (hb : Grown d b) : Grown d (if p then a else b) := by
  split
  · exact ha
  · exact hb

theorem emit (d : Dev) (o : Out) : Grown d (d.emit o) := List.prefix_append ..
theorem setF (d : Dev) (f : Field) (i v : Nat) : Grown d (d.setF f i v) := refl d
theorem bump (d : Dev) (c i k n : Nat) : Grown d (d.bump c i k n) := refl d

theorem irq (d : Dev) (c i b : Nat) : Grown d (d.irq c i b) := ite ((emit ..).trans (emit ..)) (refl d)

theorem flagErr (d : Dev) (c i b : Nat) : Grown d (d.flagErr c i b) :=
  ite (setF ..) (ite (((setF d _ i _).trans (irq ..)).trans (irq ..)) ((setF d _ i _).trans (irq ..)))

theorem rasNote (d : Dev) (c i b sev act addr : Nat) : Grown d (d.rasNote c i b sev act addr) := by
  have append (e : Dev) (w : Nat) : Grown e (e.rasAppend w addr) := by
    unfold Dev.rasAppend
    split <;> exact refl e
  unfold Dev.rasNote
  extract_lets w e f
  refine Grown.trans (e := f) (ite (setF ..) ?_) (append ..)
  exact (setF e R.RAS_FIRST_LO_ENTRY 0 w).trans (setF ..)

theorem setErrOnce (d : Dev) (c i b sev act addr : Nat) : Grown d (d.setErrOnce c i b sev act addr) :=
  ite (refl d) (ite (flagErr ..) ((flagErr ..).trans (rasNote ..)))

theorem rasFollow (d : Dev) (x y : Bool) : Grown d (d.rasFollow x y) :=
  trans (ite (setErrOnce ..) (refl d)) (ite (setErrOnce ..) (refl _))

theorem setErr (d : Dev) (c i b : Nat) : Grown d (d.setErr c i b) := by
  unfold Dev.setErr Dev.setErrFull
  extract_lets e
  refine Grown.trans (e := e) (ite (bump ..) (refl d)) ?_
  clear_value e
  exact ite (setErrOnce ..) ((setErrOnce ..).trans (rasFollow ..))

theorem mem {d t : Dev} (h : Grown d t) {o : Out} (ho : o ∈ d.out) : o ∈ t.out := List.IsPrefix.subset h ho

end Grown

/-- What an identity check changes beside reports: the record of the first mismatch, or an entry that it enrols. -/
structure Compared (d t : Dev) : Prop where
  kept : t = { d with nv := { d.nv with trust := t.nv.trust }, fields := t.fields, rasLog := t.rasLog, out := t.out }
  touches : Touches (homes ([R.SEC_MISMATCH_VALID, R.SEC_MISMATCH_SOURCE, R.SEC_MISMATCH_PORT, R.SEC_MISMATCH_DEVICE].map (·, 0))) d t
  grown : Grown d t

theorem Compared.of_noise {d t : Dev} (h : Noise d t) (g : Grown d t) : Compared d t := by
  refine ⟨?_, h.touches _, g⟩
  obtain ⟨_, _, _, rfl⟩ := h.reports
  rfl

theorem Compared.trans {d e t : Dev} (h1 : Compared d e) (h2 : Compared e t) : Compared d t := by
  refine ⟨?_, h1.touches.trans h2.touches, h1.grown.trans h2.grown⟩
  have kept := h2.kept
  rw [h1.kept] at kept
  exact kept

theorem Compared.side {d t : Dev} (h : Compared d t) : LinkSide d t := ⟨by rw [h.kept], by rw [h.kept], by rw [h.kept]⟩

theorem Dev.noteMismatch_spec (d : Dev) (source port dev : Nat) :
    Compared d (d.noteMismatch source port dev) ∧ (d.noteMismatch source port dev).errBit SEC 0 16 = true := by
  unfold Dev.noteMismatch
  extract_lets e
  have shown : Noise d e := (Noise.bump d SEC 0 (k := 1) (by decide) 1).trans (.setErr ..)
  have grown : Grown d e := (Grown.bump ..).trans (.setErr ..)
  have err : e.errBit SEC 0 16 = true := Noise.errBit_setErr _ SEC 0 (by decide)
  clear_value e
  have set (e : Dev) (f : Field) (h : f ∈ [R.SEC_MISMATCH_VALID, R.SEC_MISMATCH_SOURCE, R.SEC_MISMATCH_PORT, R.SEC_MISMATCH_DEVICE])
      (hp : f.place ≠ 1024) (v : Nat) : Compared e (e.setF f 0 v) :=
    ⟨rfl, .setF e ⟨(f, 0), List.mem_map_of_mem (f := fun f => (f, 0)) h, rfl⟩ hp v, .setF ..⟩
  have first : Compared e ((((e.setF R.SEC_MISMATCH_VALID 0 1).setF R.SEC_MISMATCH_SOURCE 0 source).setF R.SEC_MISMATCH_PORT 0 port).setF
      R.SEC_MISMATCH_DEVICE 0 dev) :=
    (((set e _ (by decide) (by decide) 1).trans (set _ _ (by decide) (by decide) source)).trans (set _ _ (by decide) (by decide) port)).trans
      (set _ _ (by decide) (by decide) dev)
  split
  · exact ⟨.of_noise shown grown, err⟩
  · exact ⟨(Compared.of_noise shown grown).trans first, first.touches.errs _ _ _ (by decide) err⟩

/-- A comparison with the trust table reports a mismatch. -/
theorem Dev.compareTrust_spec (d : Dev) (source port dev : Nat) (fp : List Byte) : Compared d (d.compareTrust source port dev fp).2
    ∧ ((d.compareTrust source port dev fp).1 = false → (d.compareTrust source port dev fp).2.errBit SEC 0 16 = true) := by
  obtain ⟨compared, err⟩ := Dev.noteMismatch_spec d source port dev
  have refl : Compared d d := .of_noise (.refl d) (.refl d)
  have enrolled : Compared d ((d.setTrust dev fp).bump SEC 0 2 1) :=
    Compared.trans (e := d.setTrust dev fp) ⟨rfl, .of_fields rfl, .refl d⟩ (.of_noise (.bump _ _ _ (by decide) _) (.bump ..))
  unfold Dev.compareTrust
  split
  · split
    · exact ⟨refl, fun h => by cases h⟩
    · exact ⟨compared, fun _ => err⟩
  · split
    · exact ⟨enrolled, fun h => by cases h⟩
    · exact ⟨compared, fun _ => err⟩

/-- Whether the table refuses a neighbour depends on the table and ENROLL alone. -/
theorem Dev.compareTrust_fst {d e : Dev} (hn : e.nv = d.nv) (hf : e.getF R.SEC_TRUST_CTRL_ENROLL 0 = d.getF R.SEC_TRUST_CTRL_ENROLL 0)
    (source port dev : Nat) (fp : List Byte) : (e.compareTrust source port dev fp).1 = (d.compareTrust source port dev fp).1 := by
  unfold Dev.compareTrust
  rw [hn, hf]
  split <;> split <;> rfl

/-- The comparison of training step 3: a neighbour other than a switch that tells its device number (R318). -/
def Dev.checkNeighbour (d : Dev) (port : Nat) (n : Neighbour) : Bool × Dev :=
  match n.isSwitch, n.device with
  | false, some v => d.compareTrust 0 port v n.fingerprint
  | _, _ => (true, d)

theorem Dev.checkNeighbour_spec (d : Dev) (port : Nat) (n : Neighbour) : Compared d (d.checkNeighbour port n).2
    ∧ ((d.checkNeighbour port n).1 = false ↔ n.isSwitch = false ∧ ∃ v, n.device = some v ∧ (d.compareTrust 0 port v n.fingerprint).1 = false)
    ∧ ((d.checkNeighbour port n).1 = false → (d.checkNeighbour port n).2.errBit SEC 0 16 = true) := by
  unfold Dev.checkNeighbour
  split
  · next v hs hd =>
    obtain ⟨compared, err⟩ := Dev.compareTrust_spec d 0 port v n.fingerprint
    exact ⟨compared, ⟨fun h => ⟨hs, v, hd, h⟩, fun ⟨_, u, hu, h⟩ => by rw [hd] at hu; cases hu; exact h⟩, err⟩
  · next hn => exact ⟨.of_noise (.refl d) (.refl d), ⟨fun h => (by cases h), fun ⟨hs, v, hv, _⟩ => (hn v hs hv).elim⟩, fun h => (by cases h)⟩

theorem Dev.identify_eq (d : Dev) (port : Nat) (n : Neighbour) : d.identify port n =
    let r := (d.emit (d.ownIdentity port n)).checkNeighbour port n
    if r.1 then (r.2.setPort port { Port.reset with train := .credits, neighbour := some n }).emit
      (.grants port ((List.range 8).map (fun v => (d.emit (d.ownIdentity port n)).vlBuf port v)))
    else (r.2.setPort port { Port.reset with train := .identity, neighbour := some n }).setErr LNK port 23 := rfl

/-- A signal is detected: the port is TRAINING and shows its neighbour. -/
def Dev.signalled (d : Dev) (port : Nat) (n : Neighbour) : Dev := (d.setLstate port 1).noteNeighbour port n

end Sys2Proof.Machine

namespace Sys2Proof

open Machine

theorem Answers.of_portSignalDetect {s : State} {port : Nat} {n : Neighbour} {post : Dev → Prop} (hu : s.dev.up = true) (hp : port < 32)
    (hs : s.dev.lstate port = 0) (hb : s.dev.blk LNK port = stReady ∨ s.dev.blk LNK port = stRunning)
    (h : post ((s.dev.signalled port n).identify port n)) : Answers (.portSignalDetect port n) s post := by
  refine .of_onDev _ (Eq.refl (execPortSignalDetect port n s)) hu ?_
  dsimp only
  rw [if_neg (by rw [hs]; simp only [ne_eq, not_true, false_or]; omega)]
  exact h

/-- What the identity exchange of a port that detects a signal leaves (R318, R320, R510). -/
theorem Machine.Dev.signalled_spec (d : Dev) {port : Nat} (hp : port < 2048) (n : Neighbour) : LinkSide d (d.signalled port n)
    ∧ (d.signalled port n).lstate port = 1 ∧ (d.signalled port n).getF R.LNK_NEIGHBOUR_VALID port = 1
    ∧ (∀ v, (d.signalled port n).vlBuf port v = d.vlBuf port v)
    ∧ ((d.signalled port n).checkNeighbour port n).1 = (d.checkNeighbour port n).1
    ∧ (d.signalled port n).ownIdentity port n = d.ownIdentity port n := by
  have written : Touches (homes ([R.LNK_STATUS_LSTATE, R.LNK_NEIGHBOUR_VALID, R.LNK_NEIGHBOUR_SWITCH, R.LNK_NEIGHBOUR_PORT,
      R.LNK_NEIGHBOUR_DEVICE].map (·, port))) d (d.signalled port n) := by
    have set (e : Dev) (f : Field) (h : f ∈ [R.LNK_STATUS_LSTATE, R.LNK_NEIGHBOUR_VALID, R.LNK_NEIGHBOUR_SWITCH, R.LNK_NEIGHBOUR_PORT,
        R.LNK_NEIGHBOUR_DEVICE]) (hp : f.place ≠ 1024) (v : Nat) : Touches (homes ([R.LNK_STATUS_LSTATE, R.LNK_NEIGHBOUR_VALID,
          R.LNK_NEIGHBOUR_SWITCH, R.LNK_NEIGHBOUR_PORT, R.LNK_NEIGHBOUR_DEVICE].map (·, port))) e (e.setF f port v) :=
      .setF e ⟨(f, port), List.mem_map_of_mem (f := fun f => (f, port)) h, rfl⟩ hp v
    exact ((((set d _ (by decide) (by decide) _).trans (set _ _ (by decide) (by decide) _)).trans (set _ _ (by decide) (by decide) _)).trans
      (set _ _ (by decide) (by decide) _)).trans (set _ _ (by decide) (by decide) _)
  have kept {f : Field} (hf : f.quiet = true) (hc : f.cls ≠ LNK) : (d.signalled port n).getF f 0 = d.getF f 0 := by
    refine written.getF hf (by decide) ?_
    rintro ⟨x, hx, e⟩
    have page : x.1.key x.2 / 131072 = LNK * 2048 + port := by
      obtain ⟨g, hg, rfl⟩ := List.mem_map.1 hx
      have ofPort : ∀ g ∈ [R.LNK_STATUS_LSTATE, R.LNK_NEIGHBOUR_VALID, R.LNK_NEIGHBOUR_SWITCH, R.LNK_NEIGHBOUR_PORT, R.LNK_NEIGHBOUR_DEVICE],
          g.quiet = true ∧ g.cls = LNK := by decide
      exact (ofPort g hg).2 ▸ Field.key_page (ofPort g hg).1 port
    rw [e, Field.key_page hf] at page
    omega
  refine ⟨⟨rfl, rfl, rfl⟩, ?_, ?_, fun v => ?_, ?_, ?_⟩
  · simp (disch := decide) only [Dev.signalled, Dev.setLstate, Dev.noteNeighbour, Dev.lstate, Dev.getF_setF_place, Dev.getF_setF_same]
    rfl
  · simp (disch := decide) only [Dev.signalled, Dev.setLstate, Dev.noteNeighbour, Dev.getF_setF_place, Dev.getF_setF_same]
    rfl
  · unfold Dev.vlBuf
    have same (f : Field) (hf : f.quiet = true) (hn : f.place ∉ [R.LNK_STATUS_LSTATE, R.LNK_NEIGHBOUR_VALID, R.LNK_NEIGHBOUR_SWITCH,
        R.LNK_NEIGHBOUR_PORT, R.LNK_NEIGHBOUR_DEVICE].map Field.place) : (d.signalled port n).getF f port = d.getF f port :=
      written.getF hf hp (not_homes_map hn port port)
    simp (disch := decide) only [same]
  · unfold Dev.checkNeighbour
    split
    · exact Dev.compareTrust_fst (d := d) (e := d.signalled port n) rfl (kept (f := R.SEC_TRUST_CTRL_ENROLL) (by decide) (by decide)) ..
    · rfl
  · have num : (d.signalled port n).devNum = d.devNum := kept (by decide) (by decide)
    have own : (d.signalled port n).ownPrint = d.ownPrint := rfl
    simp only [Dev.ownIdentity, num, own, kept (f := R.GLB_DEV_NUM_VALID) (by decide) (by decide)]

/-- A port that detects a signal is TRAINING; a neighbour that the trust table refuses holds it at step 3. -/
theorem Machine.Dev.identify_spec {d : Dev} {port : Nat} (hp : port < 2048) (n : Neighbour) :
    let t := d.identify port n
    LinkSide d t ∧ (∀ f : Field, f.quiet = true → f.place ∉ [R.SEC_MISMATCH_VALID, R.SEC_MISMATCH_SOURCE, R.SEC_MISMATCH_PORT,
        R.SEC_MISMATCH_DEVICE].map Field.place → t.getF f port = d.getF f port)
      ∧ (t.port port).neighbour = some n ∧ d.ownIdentity port n ∈ t.out
      ∧ ((d.checkNeighbour port n).1 = true → (t.port port).train = .credits
          ∧ Out.grants port ((List.range 8).map (fun v => d.vlBuf port v)) ∈ t.out)
      ∧ ((d.checkNeighbour port n).1 = false → (t.port port).train = .identity ∧ t.errBit LNK port 23 = true ∧ t.errBit SEC 0 16 = true) := by
  intro t
  obtain ⟨compared, -, err⟩ := Dev.checkNeighbour_spec (d.emit (d.ownIdentity port n)) port n
  have said : d.ownIdentity port n ∈ ((d.emit (d.ownIdentity port n)).checkNeighbour port n).2.out :=
    compared.grown.mem (List.mem_append_right _ List.mem_cons_self)
  have check : ((d.emit (d.ownIdentity port n)).checkNeighbour port n).1 = (d.checkNeighbour port n).1 := by
    unfold Dev.checkNeighbour
    split
    · exact Dev.compareTrust_fst (d := d) (e := d.emit (d.ownIdentity port n)) rfl rfl ..
    · rfl
  have told : LinkSide d (d.emit (d.ownIdentity port n)) := ⟨rfl, rfl, rfl⟩
  have side := told.trans compared.side
  have quiet {f : Field} (hf : f.quiet = true) (hn : f.place ∉ [R.SEC_MISMATCH_VALID, R.SEC_MISMATCH_SOURCE, R.SEC_MISMATCH_PORT,
      R.SEC_MISMATCH_DEVICE].map Field.place) : ((d.emit (d.ownIdentity port n)).checkNeighbour port n).2.getF f port = d.getF f port :=
    compared.touches.getF hf hp (not_homes_map hn 0 port)
  have ht : t = _ := Dev.identify_eq d port n
  dsimp only at ht
  rw [check] at ht err
  clear_value t
  generalize ((d.emit (d.ownIdentity port n)).checkNeighbour port n).2 = e at said side quiet err ht
  cases hc : (d.checkNeighbour port n).1 with
  | true =>
    rw [hc, if_pos rfl] at ht
    subst ht
    refine ⟨side.trans ⟨rfl, rfl, rfl⟩, fun f hf hn => quiet hf hn, ?_, List.mem_append_left _ said, fun _ => ⟨?_, ?_⟩, fun h => (by cases h)⟩
    · exact congrArg Port.neighbour (Dev.port_setPort_same ..)
    · exact congrArg Port.train (Dev.port_setPort_same ..)
    · exact List.mem_append_right _ List.mem_cons_self
  | false =>
    rw [hc, if_neg Bool.false_ne_true] at ht
    subst ht
    let q : Port := { Port.reset with train := .identity, neighbour := some n }
    have shown : Noise (e.setPort port q) ((e.setPort port q).setErr LNK port 23) := .setErr ..
    have port' : (((e.setPort port q).setErr LNK port 23).port port) = q := by
      rw [Dev.port, shown.reports.fab]
      exact Dev.port_setPort_same ..
    refine ⟨(side.trans (.setPort e port q)).trans (.of_reports shown.reports), fun f hf hn => (shown.getF hf hp).trans (quiet hf hn),
      congrArg Port.neighbour port', (Grown.setErr (e.setPort port q) ..).mem said, fun h => (by cases h),
      fun _ => ⟨congrArg Port.train port', Noise.errBit_setErr _ LNK port (by decide), shown.errs _ _ _ (by decide) (err hc)⟩⟩

/-- Settles O38. -/
theorem portsTrainAndRetrain : Obligations.PortsTrainAndRetrain := by
  unfold Obligations.PortsTrainAndRetrain
  intro s w port lane lanes n ls hu hp st spare failed inService rest mismatch enough active lost
  have hp' : port < 2048 := by omega
  have isLost (d : Dev) : lost (d.portLost port) := Dev.portLost_spec d hp'
  have isActive {k : Nat} {q : Port} {t : Dev} (h : PortUp port k q t) : active k t := by
    obtain ⟨x, hx⟩ := h.port
    refine ⟨?_, ?_, ?_, ?_, h.lanes, h.spared⟩
    · rw [Dev.live, h.lstate]
      rfl
    all_goals rw [hx]; rfl
  refine ⟨fun h0 hi => ?_, fun h => ?_, fun h1 ht hn => ?_, fun hw hi h1 h3 => ?_, fun hw h => ?_, fun hl h2 hf => ?_, fun hl h2 hf hb => ?_,
    fun hl h3 hf hs => ?_, fun nodup h => ?_, fun h3 he => ?_, fun h3 he => ?_⟩
  · obtain ⟨side, state, valid, buf, check, own⟩ := Machine.Dev.signalled_spec s.dev hp' n
    obtain ⟨side', quiet, neighbour, said, good, bad⟩ := Machine.Dev.identify_spec (d := s.dev.signalled port n) hp' n
    have refused : (s.dev.checkNeighbour port n).1 = false ↔ mismatch := (Dev.checkNeighbour_spec s.dev port n).2.1
    simp only [buf, check, own] at said good bad
    refine .of_portSignalDetect hu hp h0 hi ⟨(quiet _ (by decide) (by decide)).trans state, (quiet _ (by decide) (by decide)).trans valid,
      neighbour, said, fun h => good ?_, fun h => bad (refused.2 h), (side.trans side').all⟩
    exact Bool.eq_true_of_not_eq_false fun e => h (refused.1 e)
  · refine .of_onDev _ (Eq.refl (execPortSignalDetect port n s)) hu ?_
    dsimp only
    rw [if_pos (.inr (h.imp_right not_or.1))]
  · have trained {post : Dev → Prop} (h : post ((s.dev.setF R.LNK_RTT_RTT port n.rtt).portDone port n.lanes)) :
        Answers (.portTrainingComplete port) s post := by
      refine .of_onDev _ (Eq.refl (execPortTrainingComplete port s)) hu ?_
      dsimp only
      rw [if_pos ⟨h1, ht⟩, hn]
      exact h
    have same : (s.dev.setF R.LNK_RTT_RTT port n.rtt).enoughLanes port n.lanes ↔ enough n.lanes := by
      simp (disch := decide) only [Dev.enoughLanes, Dev.getF_setF_place]
      rfl
    refine ⟨fun he => trained ?_, fun he => trained ?_⟩
    · obtain ⟨up, side, -⟩ := Dev.portDone_active hp' (same.2 he)
      refine ⟨isActive up, fun v _ => ?_, ((LinkSide.setF ..).trans side).all⟩
      obtain ⟨x, port'⟩ := up.port
      have here : (s.dev.port port).neighbour = some n := hn
      rw [port']
      show mget 0 (s.dev.port port).granted v = _
      rw [Port.granted, here]
      exact mget_zipIdx n.grants v
    · rw [Dev.portDone_lost fun h => he (same.1 h)]
      exact ⟨isLost _, ((LinkSide.setF ..).trans (.portLost ..)).all⟩
  · refine .of_byWriter ⟨hu, hw⟩ _ (Eq.refl (execRetrain w port s)) ?_
    rw [if_neg (by omega), if_neg ?_]
    · exact ⟨Machine.Dev.lstate_startRetrain _ hp', Machine.Dev.errBit_startRetrain .., Machine.Dev.replay_startRetrain .., (LinkSide.startRetrain ..).all⟩
    · rintro (h | h | h)
      · exact h1 h
      · exact h3 h
      · exact hi.elim h.1 h.2
  · refine .of_byWriter ⟨hu, hw⟩ _ (Eq.refl (execRetrain w port s)) ?_
    rw [if_neg (by omega), if_pos (h.imp_right (Or.imp_right not_or.1))]
  · obtain ⟨e, side, touches, lanes', err, eq⟩ := Dev.laneFail_spec hp hl (.inl h2) (by rw [show s.dev.getF R.LNK_STATUS_FAILED_LANES port = 0 from hf]; simp [bitOf])
    rw [if_pos (show s.dev.lstate port = 2 from h2)] at eq
    have taken : Noise e (e.policyTaken LNK port) := .policyTaken ..
    have shown {t : Dev} (h : Touches (linkHomes port) e t) : bitOf (t.getF R.LNK_STATUS_FAILED_LANES port) lane = true ∧ t.errBit LNK port 16 = true :=
      ⟨by rw [h.getF (by decide) hp' (not_linkHomes (by decide) port port)]; exact lanes', h.errs _ _ _ (by decide) err⟩
    refine .of_onDev _ (Eq.refl (execLaneFailure port lane s)) hu ?_
    rw [eq]
    by_cases hs : spare = 1
    · rw [if_pos ⟨hf, hs⟩, if_pos hs, if_pos hs]
      obtain ⟨bit, err'⟩ := shown ((taken.touches _).trans (.startRetrain _ port))
      exact ⟨Machine.Dev.lstate_startRetrain _ hp', bit, err', Machine.Dev.errBit_startRetrain .., ((side.trans (.of_reports taken.reports)).trans (.startRetrain ..)).all⟩
    · rw [if_neg fun h => hs h.2, if_neg hs, if_neg hs]
      obtain ⟨bit, err'⟩ := shown (.portLost e port)
      obtain ⟨state, err2, -⟩ := Dev.portLost_spec e hp'
      exact ⟨state, bit, err', err2, (side.trans (.portLost ..)).all⟩
  · obtain ⟨e, side, -, -, -, eq⟩ := Dev.laneFail_spec hp hl h2 hb
    rw [if_neg fun h => hf h.1] at eq
    refine .of_onDev _ (Eq.refl (execLaneFailure port lane s)) hu ?_
    rw [eq]
    exact ⟨isLost e, (side.trans (.portLost ..)).all⟩
  · obtain ⟨e, side, touches, lanes', err, eq⟩ := Dev.laneFail_spec hp hl (.inr h3) (by rw [show s.dev.getF R.LNK_STATUS_FAILED_LANES port = 0 from hf]; simp [bitOf])
    have taken : Noise e (e.policyTaken LNK port) := .policyTaken ..
    rw [if_pos ⟨hf, hs⟩, if_neg (by rw [show s.dev.lstate port = 3 from h3]; decide)] at eq
    refine .of_onDev _ (Eq.refl (execLaneFailure port lane s)) hu ?_
    rw [eq]
    refine ⟨?_, by rw [taken.getF (by decide) hp']; exact lanes', taken.errs _ _ _ (by decide) err, (side.trans (.of_reports taken.reports)).all⟩
    exact (taken.getF (by decide) hp').trans ((touches.getF (f := R.LNK_STATUS_LSTATE) (by decide) hp' (not_homes_map (by decide) port port)).trans h3)
  · obtain ⟨states, side, -⟩ := Dev.laneFail_foldl ls s.dev nodup h
    exact .of_onDev _ (Eq.refl (execSerdesPllLoss ls s)) hu ⟨states, side.all⟩
  · obtain ⟨up, side, whole⟩ := Dev.portDone_active hp' he
    refine .of_onDev _ (Eq.refl (execRetrainComplete port lanes s)) hu ?_
    rw [if_pos (show s.dev.lstate port = 3 from h3)]
    exact ⟨isActive up, whole, side.all⟩
  · refine .of_onDev _ (Eq.refl (execRetrainComplete port lanes s)) hu ?_
    rw [if_pos (show s.dev.lstate port = 3 from h3), Dev.portDone_lost he]
    exact ⟨isLost _, (LinkSide.portLost ..).all⟩

end Sys2Proof
end

