-- ==== Sys2Proof/Proofs/Atomics.lean ====
section
/-! Remote operations: an atomic on a word that the map of wrong bits lists twice. -/

namespace Sys2Proof

open Machine

/-- A device in service with one open flow, whose map of wrong bits lists word 0 twice: first with one wrong bit, then with two. -/
def twiceListedFlip : State :=
  { State.reset with dev := { State.reset.dev with
      mem := { State.reset.dev.mem with valid := [0], flips := [(0, 1), (0, 2)] }
      fab := { State.reset.dev.fab with flows := [(0, { Flow.none with state := 1, credits := 1, winLimit := 4095, rights := 15 })] } } }

/-- The opcodes that wait for their acknowledgement on a flow. -/
def unackedOpcodes (r : Res) (f : Nat) : List Nat :=
  match r with
  | .next t => (t.dev.flow f).unacked.map (·.opc)
  | _ => []

/-- Refutes O36: the word is not yet poisoned, for the first entry is in force; the atomic takes that entry away, meets the second
one, poisons the word and answers OP_STATUS. -/
theorem not_remoteOperationsRun : ¬ Obligations.RemoteOperationsRun := by
  rintro ⟨h, -⟩
  obtain ⟨-, -, -, -, -, atomic, -⟩ := h twiceListedFlip (packetOf 4) ⟨by decide, .inl (by decide), by decide, by decide, by decide, by decide⟩ (by decide) (by decide)
  obtain ⟨t, he, -, -, -, -, x, hx, opc, -⟩ := (atomic (by decide) (by decide) (by decide) (by decide)).1 (by decide)
  have answered : unackedOpcodes (exec (.atomic (packetOf 4)) twiceListedFlip) 0 = [8] := by decide +kernel
  rw [he] at answered
  have mem : x.opc ∈ [8] := answered ▸ List.mem_map_of_mem hx
  rw [opc] at mem
  exact absurd mem (by decide)

end Sys2Proof
end

