-- ==== Sys2Proof/Proofs/Requests.lean ====
section
/-! Thin-channel requests: a completion that goes to a ring whose port was reset. -/

namespace Sys2Proof

open Machine

/-- A device in service whose port A was reset while ring 1 was a JOB ring, with a host request of that ring in progress. -/
def drainingJobRing : State :=
  { State.reset with dev := { State.reset.dev with
      pci := { State.reset.dev.pci with draining := [(ringKey 0 1, { Ring.reset with kind := 1 })] }
      thn := [(0, { Thn.reset with current := some (ThnReq.queued true 0 0 (entryCmd 0 0 1 0 [])) })] } }

/-- An answer that has sent no completion. -/
def postsNothing (r : Res) : Bool :=
  match r with
  | .next t => t.dev.out.all (fun o => match o with
    | .completion _ _ _ _ => false
    | _ => true)
  | _ => false

/-- Refutes O26: the ring as it stands after the reset is no JOB ring, but the completion goes by the ring as it stood, which posts
no success that was not asked for. -/
theorem not_thinRequestsRun : ¬ Obligations.ThinRequestsRun := by
  rintro ⟨-, -, h⟩
  obtain ⟨t, he, -, -, -, -, -, -, -, -, posts⟩ := h drainingJobRing 0 (ThnReq.queued true 0 0 (entryCmd 0 0 1 0 [])) (by decide) (by decide)
    (by decide) (by decide)
  obtain ⟨addr, rest, mem⟩ := posts (by decide)
  have nothing : postsNothing (exec (.thnRequestComplete 0) drainingJobRing) = true := by decide +kernel
  rw [he] at nothing
  exact Bool.false_ne_true (List.all_eq_true.1 nothing _ mem)

end Sys2Proof
end

