-- ==== Sys2Proof/Proofs/Rebal.lean ====
section
/-! Rebalancing: what a decision leaves of the members that a plot's fields name. -/

namespace Sys2Proof

open Machine

/-- A device in service and in step 1 of a job, of 64 logical cells, whose plots 0 and 1 have a cell each and very different busy
times. -/
def unevenPlots : State :=
  let blank : Dev := { State.reset.dev with fields := [], nv := { State.reset.dev.nv with grade := 15, spares := [] }, ctl := { State.reset.dev.ctl with prevBusy := [(0, 1), (1, 100)] } }
  let job := ((blank.setF (R.GLB_FEATURES_ACTIVE 0) 0 (2 ^ 11)).setF R.GLB_JOB_STATUS_ACTIVE 0 1).setF R.GLB_STEP 0 1
  let one := (job.setF (R.PLT_MEMBER 0) 0 1).setF R.PLT_REBAL_EN 0 1
  let two := (one.setF (R.PLT_MEMBER 0) 1 2).setF R.PLT_REBAL_EN 1 1
  { State.reset with dev := ((two.setF R.PLT_REBAL_MAX_DELTA 0 1).setF R.PLT_REBAL_MAX_DELTA 1 1).setF R.PLT_BOUNDS_MAX_CELLS 1 2 }

/-- Whether an answer names a cell as a member of a plot. -/
def namesMember (r : Res) (k l : Nat) : Bool :=
  match r with
  | .next t => t.dev.isMember k l
  | _ => false

/-- The cell number whose bit among the members of plot 0 stands where plot 1 shows a policy decision. -/
def strayCell : Nat := 986 * 32 + 3

theorem rebAble_unevenPlots : unevenPlots.dev.rebAble.filter (fun k => !unevenPlots.dev.held PLT k) = [0, 1] := by decide +kernel

theorem rebInputs_unevenPlots : unevenPlots.dev.rebInputs [0, 1] = [(0, 1, 1), (1, 100, 1)] := by decide +kernel

theorem rebCounts_unevenPlots : ∃ ps, unevenPlots.dev.rebCounts [(0, 1, 1), (1, 100, 1)] = some ps :=
  Option.isSome_iff_exists.1 (by decide +kernel)

theorem strayCell_named : namesMember (exec .plotRebalanceCompute unevenPlots) 0 strayCell = true := by decide +kernel

theorem strayCell_absent : unevenPlots.dev.isMember 0 strayCell = false := by decide +kernel

theorem job_unevenPlots : unevenPlots.dev.up = true ∧ unevenPlots.dev.jobActive = true ∧ unevenPlots.dev.recorded = none
    ∧ unevenPlots.dev.step ≠ 0 ∧ unevenPlots.dev.ctl.rebTried = false := by decide +kernel

/-- Refutes O27: the bits of a plot's members are counted beyond its cells into the page of the next plot, whose POLICY bit the
decision sets. -/
theorem not_rebalanceIsDecidedOnce : ¬ Obligations.RebalanceIsDecidedOnce := by
  unfold Obligations.RebalanceIsDecidedOnce
  intro h
  obtain ⟨ps, hps⟩ := rebCounts_unevenPlots
  obtain ⟨up, job, fresh, step, untried⟩ := job_unevenPlots
  obtain ⟨decides, -⟩ := h unevenPlots ps up job fresh step
  rw [rebAble_unevenPlots, rebInputs_unevenPlots] at decides
  obtain ⟨t, he, -, -, -, -, -, members⟩ := decides untried (by decide) hps
  have stray := strayCell_named
  rw [he] at stray
  exact Bool.false_ne_true ((strayCell_absent.symm.trans (members 0 strayCell).symm).trans stray)

end Sys2Proof
end

