-- ==== Sys2Proof/Proofs/Strays.lean ====
section
/-! Step boundaries: a recorded decision about a plot that does not exist. -/

namespace Sys2Proof

open Machine

/-- The plot number whose page of members the register of the log sequence number stands on. -/
def strayPlot : Nat := (SOW - PLT) * 2048

/-- A device in service of 64 logical cells, in a job whose step 0 is ready to close, with a rebalance decided for a plot that does
not exist. -/
def strayDecision : State :=
  let d : Dev := { State.reset.dev with
    fields := [], nv := { State.reset.dev.nv with grade := 15, spares := [] }
    ctl := { State.reset.dev.ctl with gsbChecked := true, order := [⟨{ entryCmd 0 0 0 0 [] with opc := 1 }, .held⟩]
                                      decisions := [.rebalance strayPlot 1 0 [0]] } }
  { State.reset with dev := d.setF R.GLB_JOB_STATUS_ACTIVE 0 1 }

/-- The measures of a step in which no plot ran. -/
def idleStep : BoundaryMeasure := ⟨0, 0, []⟩

theorem strayDecision_ready : strayDecision.dev.boundaryReady = true ∧ strayDecision.dev.unsealedCount < 2
    ∧ strayDecision.dev.boundaryPoison = none ∧ strayDecision.dev.ctl.order.length = 1 := by decide +kernel

theorem strayDecision_records :
    (strayDecision.dev.batchShort.boundaryState.2.stepRecords strayDecision.dev.batchShort.boundaryState.1 strayDecision.dev.voteSkip
      strayDecision.dev.ctl.markHeld).length = 3 := by decide +kernel

/-- No decision of a step is a vote. -/
def unvoted (ds : List Decision) : Bool :=
  ds.all (fun x => match x with
    | .vote _ _ _ => false
    | _ => true)

theorem strayDecision_unvoted : unvoted strayDecision.dev.batchShort.boundaryState.1 = true := by
  show unvoted (strayDecision.dev.batchShort.recorded.getD _) = true
  decide +kernel

/-- The device once the maps, scale state and positions of the boundary have changed. -/
def strayUpdated : Dev := strayDecision.dev.batchShort.applyMaps.2.boundaryUpdates

/-- The decision moves the log sequence number. -/
theorem strayUpdated_lsn : strayUpdated.getF R.SOW_LSN 0 = 1 := by decide +kernel

theorem strayUpdated_order : strayUpdated.ctl.order = strayDecision.dev.ctl.order := by decide +kernel

theorem strayDecision_bounds : strayDecision.dev.batchShort.newBucketBounds = false := by decide +kernel

end Sys2Proof

namespace Sys2Proof.Machine

/-! ### What the rest of a boundary leaves alone once the records are written -/

/-- The log sequence number and command order stay. -/
structure Logged (d t : Dev) : Prop where
  lsn : t.getF R.SOW_LSN 0 = d.getF R.SOW_LSN 0
  order : t.ctl.order = d.ctl.order

namespace Logged

variable {d e t : Dev}

theorem refl (d : Dev) : Logged d d := ⟨rfl, rfl⟩

theorem trans (h1 : Logged d e) (h2 : Logged e t) : Logged d t := ⟨h2.lsn.trans h1.lsn, h2.order.trans h1.order⟩

theorem ite {a b : Dev} {p : Prop} [Decidable p] (ha : Logged d a) (hb : Logged d b) : Logged d (if p then a else b) := by
  split
  · exact ha
  · exact hb

theorem foldl {α : Type} {f : Dev → α → Dev} (h : ∀ e x, Logged e (f e x)) (xs : List α) (d : Dev) : Logged d (xs.foldl f d) := by
  induction xs generalizing d with
  | nil => exact refl d
  | cons x xs ih => exact (h d x).trans (ih _)

theorem of_noise (h : Noise d t) : Logged d t := ⟨h.getF (by decide) (by decide), by rw [h.reports.ctl]⟩

theorem of_fields (hf : t.fields = d.fields) (ho : t.ctl.order = d.ctl.order) : Logged d t := ⟨by simp only [Dev.getF, hf], ho⟩

theorem setF (d : Dev) {f : Field} (h : R.SOW_LSN.place ≠ f.place) (i v : Nat) : Logged d (d.setF f i v) := ⟨Dev.getF_setF_place h .., rfl⟩

/-- A field of another page than SOW's. -/
theorem setF_elsewhere (d : Dev) {f : Field} {i : Nat} (h : R.SOW_LSN.key 0 ≠ f.key i) (v : Nat) : Logged d (d.setF f i v) :=
  ⟨Dev.getF_setF_other d h v, rfl⟩

theorem setBlk (d : Dev) (c i v : Nat) : Logged d (d.setBlk c i v) := by
  refine ⟨(Touches.setBlk d c i v).getF (by decide) (by decide) ?_, by rw [StateFrame.setBlk d c i v]⟩
  rintro (h | h)
  · exact Field.key_ne (f := R.SOW_LSN) (g := R.BLK_STATE_STATE c) (by simp [Field.place, R.SOW_LSN, R.BLK_STATE_STATE]) 0 i h
  · unfold stateFields at h
    split_ifs at h <;> simp only [List.mem_cons, List.not_mem_nil, or_false] at h
    · rcases h with h | h | h <;> exact Field.key_ne (by decide) _ _ h
    · exact Field.key_ne (by decide) _ _ h

theorem sealTo (d : Dev) (n count : Nat) : Logged d (d.sealTo n count) := by
  have first : Logged d { d with sow := { d.sow with unsealed := d.sow.unsealed.filter (fun k => decide (n < k)), baseSteps := [], recCopies := d.sow.recCopies.filter (fun e => decide (n < recField e.2 8 8)) } } :=
    of_fields rfl rfl
  exact ((first.trans (setF _ (by decide) _ _)).trans (setF _ (by decide) _ _)).trans (of_noise (.bump _ _ _ (by decide) _))

theorem addBoundary (d : Dev) (n : Nat) : Logged d (d.addBoundary n) := by
  unfold Dev.addBoundary
  extract_lets _ e
  have first : Logged d e := of_fields rfl rfl
  clear_value e
  exact ite (first.trans (sealTo ..)) (ite (first.trans (of_fields rfl rfl)) (first.trans (of_fields rfl rfl)))

theorem boundaryCap (d : Dev) (m : BoundaryMeasure) : Logged d (d.boundaryCap m) := by
  have capped (v : Nat) : Logged d (Dev.setF (if max d.capBounds.1 (min d.capBounds.2 v) = v then d else d.setErr SOW 0 6) R.SOW_MIRROR_STATUS_CAP 0
      (max d.capBounds.1 (min d.capBounds.2 v))) := (ite (refl d) (of_noise (.setErr ..))).trans (setF _ (by decide) _ _)
  have acted : Logged d (match d.sow.capNext with
      | some v => Dev.setF (if max d.capBounds.1 (min d.capBounds.2 v) = v then d else d.setErr SOW 0 6) R.SOW_MIRROR_STATUS_CAP 0
          (max d.capBounds.1 (min d.capBounds.2 v))
      | none => d) := by
    split
    · exact capped _
    · exact refl d
  have spent (e : Dev) : Logged e { e with sow := { e.sow with capNext := none } } := of_fields rfl rfl
  have decided (e : Dev) (v : Nat) : Logged e { e with sow := { e.sow with capNext := some v } } := of_fields rfl rfl
  have counted (e : Dev) : Logged e (e.bump SOW 0 7 m.lambda) := of_noise (.bump _ _ _ (by decide) _)
  have whole := (acted.trans (spent _)).trans (counted _)
  exact ite (refl d) (ite whole (ite (whole.trans (of_noise (.policyWithheld ..))) ((whole.trans (decided _ _)).trans (of_noise (.policyTaken ..)))))

/-- A step that the vote does not skip is not reported. -/
theorem reportVote {ds : List Decision} (h : unvoted ds = true) (d : Dev) : Logged d (d.reportVote ds) := by
  unfold Dev.reportVote
  induction ds generalizing d with
  | nil => exact refl d
  | cons x xs ih =>
    unfold unvoted at h
    rw [List.all_cons, Bool.and_eq_true] at h
    obtain ⟨hx, hxs⟩ := h
    cases x with
    | vote => cases hx
    | _ => exact ih hxs d

theorem boundaryBusy (d : Dev) (ps : List Nat) (m : BoundaryMeasure) : Logged d (d.boundaryBusy ps m) := by
  unfold Dev.boundaryBusy
  extract_lets busy e1 e2
  have first : Logged d e1 := foldl (fun e k => setF e (by decide) k _) _ d
  clear_value e1
  have second : Logged e1 e2 := foldl (fun e k => of_noise ((Noise.bump _ _ _ (by decide) _).trans (.bump _ _ _ (by decide) _))) _ e1
  clear_value e2
  exact (first.trans second).trans (of_fields rfl rfl)

theorem underfill (d : Dev) : Logged d d.underfill := by
  unfold Dev.underfill
  extract_lets short e
  have first : Logged d e := ite (of_noise (.setErr ..)) (refl d)
  clear_value e
  exact first.trans (of_fields rfl rfl)

theorem rwBoundary (d : Dev) : Logged d d.rwBoundary := by
  refine foldl (fun e p => ite ?_ (refl e)) _ d
  unfold Dev.rwActs
  extract_lets was e1 now e2
  have acts : Logged e e1 := foldl (f := fun d f => d.setAct f p.2 (d.getF f p.2)) (fun e f => of_fields rfl rfl) _ e
  clear_value e1
  have raised : Logged e1 e2 := ite (of_noise (.vectors ..)) (refl e1)
  clear_value e2
  exact (acts.trans raised).trans (ite (setF e2 (by decide) _ _) (refl e2))

theorem noteHeld (d : Dev) : Logged d d.noteHeld := by
  unfold Dev.noteHeld
  split
  · have marked : Logged d { d with ctl := { d.ctl with markHeld := true } } := of_fields rfl rfl
    exact ite (marked.trans (of_noise (.bump _ _ _ (by decide) _))) (refl d)
  · exact refl d

theorem postCompletion (d : Dev) (c : JobCmd) (status value : Nat) : Logged d (d.postCompletion c status value) := by
  have ring (e : Dev) (r : Ring) : Logged e (e.setCompletionRing c.port c.ring r) := ite (of_fields rfl rfl) (of_fields rfl rfl)
  refine ite (refl d) ?_
  unfold Dev.post
  extract_lets r e1 e2
  have sent : Logged d e1 := of_fields rfl rfl
  clear_value e1
  have counted : Logged e1 e2 := ((ring ..).trans (of_noise (.bump _ _ _ (by decide) _))).trans (of_noise (.bump _ _ _ (by decide) _))
  clear_value e2
  exact ite ((sent.trans counted).trans (of_fields rfl rfl)) (sent.trans counted)

theorem rejoin (d : Dev) : Logged d d.rejoin := by
  have ended : Logged d { d with sow := { d.sow with replayUntil := none } } := of_fields rfl rfl
  exact ite (((ended.trans (of_noise (.bump _ _ _ (by decide) _))).trans (setF _ (by decide) _ _)).trans (of_noise (.setErr ..))) (refl d)

theorem replayClosed (d : Dev) (n : Nat) : Logged d (d.replayClosed n) := by
  unfold Dev.replayClosed
  extract_lets _ e
  have ended : Logged d { d with sow := { d.sow with replay := d.sow.replay.filter (fun r => decide (n < r.step)) } } := of_fields rfl rfl
  have first : Logged d e := ite (ended.trans (of_noise (.bump _ _ _ (by decide) _))) (refl d)
  clear_value e
  exact ite (first.trans (rejoin e)) first

theorem resumeReturned (d : Dev) : Logged d d.resumeReturned := by
  refine foldl (fun e k => ?_) _ d
  have marked : Logged e (e.setReturned (k / 2048) (k % 2048) false) := of_fields rfl rfl
  exact ite (marked.trans (setBlk ..)) marked

theorem fromRunning (d : Dev) (now : Nat) (p : Dev → Nat → Nat → Bool) : Logged d (d.fromRunning now p) :=
  foldl (fun e _ => ite (setBlk ..) (refl e)) _ d

theorem quiesceAll (d : Dev) : Logged d d.quiesceAll := ite (fromRunning ..) (refl d)

theorem endJob (d : Dev) : Logged d d.endJob := by
  unfold Dev.endJob
  extract_lets e1 _ _ e2 e3
  have first : Logged d e1 := (setF d (by decide) _ _).trans (resumeReturned _)
  clear_value e1
  have second : Logged e1 e2 := of_fields rfl rfl
  clear_value e2
  have third : Logged e2 e3 := fromRunning ..
  clear_value e3
  exact ite (((first.trans second).trans third).trans (setBlk ..)) ((first.trans second).trans third)

theorem place (d : Dev) (c : JobCmd) : Logged d (d.place c) := by
  have buckets (g : Nat) : ∀ n (e : Dev), Logged e (e.placeBuckets g n) := by
    intro n
    induction n with
    | zero => exact refl
    | succ n ih =>
      intro e
      refine ite ?_ (refl e)
      exact (show Logged e { (e.takeCidx g).2 with train := { (e.takeCidx g).2.train with placed := (e.takeCidx g).2.train.placed ++ [(e.takeCidx g).1] } } from of_fields rfl rfl).trans (ih _)
  have named (x : Train) : Logged d { d with train := x } := of_fields rfl rfl
  unfold Dev.place
  split
  · split
    · exact (named _).trans (buckets _ _ _)
    · exact refl d
  · split
    · exact of_fields rfl rfl
    · exact ite (of_fields rfl rfl) (refl d)

theorem openWindows (d : Dev) : Logged d d.openWindows := by
  have step (gs : List (Grad × Nat)) : ∀ a : Dev × NMap Int, Logged a.1 (gs.foldl (fun a g =>
      let f := a.1.entryFormat g.1.entry
      let known := isNarrow f || isWide f
      let r := if known then (0, a.1) else a.1.draw
      let emax := if known then fmtEmax f else sext 16 r.1
      (r.2, a.2 ++ [(g.2, a.1.entrySigma g.1.entry + emax + 33)])) a).1 := by
    induction gs with
    | nil => exact fun a => refl a.1
    | cons g gs ih =>
      intro a
      refine Logged.trans ?_ (ih _)
      dsimp only
      split
      · exact refl a.1
      · exact of_fields rfl rfl
  exact (step _ (d, [])).trans (of_fields rfl rfl)

theorem closeVote (d : Dev) : Logged d d.closeVote :=
  ite ((((setF_elsewhere d (by decide) _).trans (setF_elsewhere _ (by decide) _)).trans (setF_elsewhere _ (by decide) _)).trans
    (setF_elsewhere _ (by decide) _)) (refl d)

theorem freshStep (d : Dev) : Logged d d.freshStep := by
  unfold Dev.freshStep
  extract_lets t _ _ _ _ e
  have first : Logged d e := of_fields rfl rfl
  clear_value e
  exact ((first.trans (foldl (fun e (x : OrderEntry) => place e x.cmd) _ e)).trans (openWindows _)).trans (closeVote _)

end Logged

theorem Logged.queueMcItems (d : Dev) : Logged d d.queueMcItems :=
  .ite (.foldl (fun e _ => .foldl (f := fun (d : Dev) (_ : List Byte × Nat) => d.queueDelta _ _) (fun _ _ => .of_fields rfl rfl) _ e) _ d) (.refl d)

/-- The records move the log sequence number by their count. -/
theorem Dev.putRecords_spec (d : Dev) (rs : List (List Byte)) :
    (d.putRecords rs).getF R.SOW_LSN 0 = (d.getF R.SOW_LSN 0 + rs.length) % 2 ^ 64 ∧ (d.putRecords rs).ctl.order = d.ctl.order := by
  unfold Dev.putRecords
  extract_lets lsn n e
  have order : e.ctl.order = d.ctl.order := by
    have loop (xs : List (List Byte × Nat)) : ∀ d : Dev, (xs.foldl (fun d x =>
        let d := d.logOwn (lsn + x.2) x.1
        { d with sow := { d.sow with recCopies := mput (lsn + x.2) x.1 d.sow.recCopies,
                                     queue := if d.captures then d.sow.queue ++ [.record n x.1] else d.sow.queue } }) d).ctl.order = d.ctl.order := by
      induction xs with
      | nil => exact fun _ => rfl
      | cons x xs ih => exact fun d => (ih _).trans (congrArg Ctl.order (MemOnly.writeRaw ..).ctl)
    exact loop _ d
  clear_value e
  have counted : Logged (e.setF R.SOW_LSN 0 (lsn + rs.length)) ((e.setF R.SOW_LSN 0 (lsn + rs.length)).bump SOW 0 1 rs.length) :=
    .of_noise (.bump _ _ _ (by decide) _)
  exact ⟨counted.lsn.trans (Dev.getF_setF_same ..), counted.order.trans order⟩

/-- A step closes: the mark leaves command order, and the log sequence number counts the records. -/
theorem Dev.closeStep_spec {d : Dev} {e : OrderEntry} (m : BoundaryMeasure) (hv : unvoted d.batchShort.boundaryState.1 = true)
    (ho : d.batchShort.boundaryState.2.ctl.order = [e])
    (hn : (d.batchShort.boundaryState.2.stepRecords d.batchShort.boundaryState.1 d.voteSkip d.ctl.markHeld).length ≤ 16384) :
    (d.closeStep m).getF R.SOW_LSN 0 = (d.batchShort.boundaryState.2.getF R.SOW_LSN 0
        + (d.batchShort.boundaryState.2.stepRecords d.batchShort.boundaryState.1 d.voteSkip d.ctl.markHeld).length) % 2 ^ 64
      ∧ (d.closeStep m).ctl.order = [] := by
  unfold Dev.closeStep
  extract_lets n skip active r recs _ e1 e2 _ e3 e4 e5
  rw [if_neg (Nat.not_lt.2 hn)]
  obtain ⟨lsn, order⟩ := Dev.putRecords_spec r.2 recs
  have h1 : Logged (r.2.putRecords recs) e1 := ((Logged.addBoundary ..).trans (.boundaryCap ..)).trans (.reportVote hv _)
  clear_value e1
  have h2 : Logged e1 e2 := (((Logged.setF _ (by decide) _ _).trans (.boundaryBusy ..)).trans (.underfill _)).trans (.rwBoundary _)
  clear_value e2
  have h3 : Logged e2 e3 := .of_fields rfl rfl
  have before : e3.ctl.order = [e] := (h3.order.trans (h2.order.trans h1.order)).trans (order.trans ho)
  clear_value e3
  have done : e4.getF R.SOW_LSN 0 = e3.getF R.SOW_LSN 0 ∧ e4.ctl.order = [] := by
    have left : Logged { e3 with ctl := { e3.ctl with order := e3.ctl.order.filter (fun x => decide (x.cmd ≠ e.cmd)) } } (e3.complete e.cmd 0 0) :=
      (Logged.noteHeld _).trans (.postCompletion ..)
    have none : e3.ctl.order.filter (fun x => decide (x.cmd ≠ e.cmd)) = [] := by
      rw [before]
      simp
    have head : e3.ctl.order.head? = some e := by rw [before]; rfl
    simp only [e4, head]
    exact ⟨left.lsn, left.order.trans none⟩
  clear_value e4
  have h5 : Logged e4 e5 := (Logged.setF _ (by decide) _ _).trans (.replayClosed ..)
  clear_value e5
  have h6 : Logged e5 (if e5.ctl.endAsked then e5.endJob else e5.resumeReturned.quiesceAll.freshStep) :=
    .ite (.endJob e5) (((Logged.resumeReturned e5).trans (.quiesceAll _)).trans (.freshStep _))
  refine ⟨?_, (h6.order.trans h5.order).trans done.2⟩
  rw [h6.lsn, h5.lsn, done.1, h3.lsn, h2.lsn, h1.lsn, lsn]

/-- The items of the MC leave what the boundary has made of the device. -/
theorem Dev.boundaryState_spec {d : Dev} (h : d.newBucketBounds = false) : Logged d.applyMaps.2.boundaryUpdates d.boundaryState.2 := by
  unfold Dev.boundaryState
  simp only [h, Bool.false_eq_true, if_false]
  exact .ite (.refl _) (.queueMcItems _)

end Sys2Proof.Machine

namespace Sys2Proof

open Machine

/-- Refutes O29: the members of a plot that does not exist stand on the page of another block, and the boundary that applies the
decision about them changes the log sequence number beside counting its records. -/
theorem not_stepsCloseAndSeal : ¬ Obligations.StepsCloseAndSeal := by
  rintro ⟨h, -⟩
  obtain ⟨ready, unsealed, sound, one⟩ := strayDecision_ready
  have records := strayDecision_records
  have updated : Logged strayUpdated strayDecision.dev.batchShort.boundaryState.2 := Dev.boundaryState_spec strayDecision_bounds
  have order₀ : strayDecision.dev.batchShort.boundaryState.2.ctl.order = [⟨{ entryCmd 0 0 0 0 [] with opc := 1 }, .held⟩] :=
    updated.order.trans strayUpdated_order
  obtain ⟨lsn, order⟩ := Dev.closeStep_spec idleStep strayDecision_unvoted order₀ (by rw [records]; decide)
  rw [updated.lsn, records] at lsn
  obtain ⟨-, -, -, -, -, closes⟩ := h strayDecision { entryCmd 0 0 0 0 [] with opc := 1 } idleStep 0 0 (by decide) (fun e he => .inr (by rw [List.mem_singleton.1 he]))
  obtain ⟨t, he, -, -, -, -, -, shown, -⟩ := closes ready unsealed sound (by rw [records]; decide) one
  have made : exec (.stepBoundary idleStep) strayDecision = .next { strayDecision with dev := strayDecision.dev.closeStep idleStep } := by
    show execStepBoundary idleStep strayDecision = _
    rw [execStepBoundary, State.onDev_up (by decide), Dev.stepBoundary, ready, if_neg (by decide), if_neg (Nat.not_le.2 unsealed), Dev.tryClose,
      sound]
    dsimp only
    rw [Dev.settle_of_nothing_held]
    rw [order]
    exact fun _ h => absurd h List.not_mem_nil
  obtain rfl := Host.Outcome.next.inj (made.symm.trans he)
  rw [show (strayDecision.dev.closeStep idleStep).getF R.SOW_LSN 0 = (1 + 3) % 2 ^ 64 from strayUpdated_lsn ▸ lsn, records] at shown
  exact absurd shown (by decide)

end Sys2Proof
end

