-- ==== Sys2Proof/Proofs/Resets.lean ====
section
/-! What a reset leaves (R461, R462, R538): a device at its reset values, but for what the reset keeps and the fields that show
its cause. -/

namespace Sys2Proof.Machine

/-- An update that a reset interrupts changes its bank at most. -/
theorem Dev.interrupted_spec (d : Dev) : ∃ n bs, d.interrupted = { d with fresh := n, nv := { d.nv with banks := bs } } := by
  unfold Dev.interrupted
  split
  · dsimp only
    split
    · exact ⟨_, _, rfl⟩
    · split
      · exact ⟨_, _, rfl⟩
      · exact ⟨_, _, rfl⟩
  · exact ⟨_, _, rfl⟩

/-- The fields kept have the old value where there is one. -/
theorem mfind_keepFields (fs : List Field) (src dst : NMap Nat) (k : Nat) :
    mfind k (keepFields fs src dst) = if k ∈ fs.map (·.key 0) then (mfind k src).or (mfind k dst) else mfind k dst := by
  unfold keepFields
  induction fs generalizing dst with
  | nil => simp
  | cons f fs ih =>
    rw [List.foldl_cons, ih]
    cases hs : mfind (f.key 0) src with
    | none =>
      by_cases hk : k = f.key 0
      · simp [hk, hs]
      · simp [hk]
    | some v =>
      by_cases hk : k = f.key 0
      · simp [hk, hs]
      · simp [hk, mfind_mput_other hk]

/-- Nothing but register fields changes. -/
def OnlyFields (d t : Dev) : Prop := t = { d with fields := t.fields }

theorem OnlyFields.trans {d e t : Dev} (h : OnlyFields d e) (g : OnlyFields e t) : OnlyFields d t := by
  unfold OnlyFields at *
  rw [h] at g
  exact g

theorem OnlyFields.setF (d : Dev) (f : Field) (i v : Nat) : OnlyFields d (d.setF f i v) := rfl

theorem Dev.setMask_eq (d : Dev) (k m : Nat) : OnlyFields d (d.setMask k m) := by
  unfold Dev.setMask
  induction List.range 32 generalizing d with
  | nil => rfl
  | cons w ws ih => exact (OnlyFields.setF ..).trans (ih _)

theorem Dev.getF_setMask {f : Field} {i k : Nat} (h : ∀ w ∈ List.range 32, f.key i ≠ (R.PLT_MEMBER w).key k) (d : Dev) (m : Nat) :
    (d.setMask k m).getF f i = d.getF f i := by
  unfold Dev.setMask
  generalize List.range 32 = ws at h
  induction ws generalizing d with
  | nil => rfl
  | cons w ws ih =>
    rw [List.foldl_cons, ih _ fun v hv => h v (List.mem_cons_of_mem _ hv)]
    exact Dev.getF_setF_other d (h w List.mem_cons_self) _

theorem Dev.mapReset_eq (d : Dev) : OnlyFields d d.mapReset := by
  unfold Dev.mapReset Dev.resetMembers
  exact d.setMask_eq ..

/-- The fields that show a reset and the recovery that it begins. -/
def resetShown : List Field := [R.SOW_RECOVERY_PHASE, R.SOW_RECOVERY_CAUSE, R.PWR_RESET_CAUSE_TYPE, R.PWR_RESET_CAUSE_CAUSE]

/-- A field whose value a reset neither shows nor gives to the plots. -/
def Field.unshown (f : Field) : Bool :=
  resetShown.all (fun g => decide (f.key 0 ≠ g.key 0)) && (List.range 32).all (fun w => decide (f.key 0 ≠ (R.PLT_MEMBER w).key 0))

section
variable (d : Dev) (c : Nat)

/-- A device that shows the reset and the recovery that it begins (R118, R394, R479). -/
theorem Dev.openRecovery_eq : OnlyFields d (d.openRecovery c) := by
  unfold Dev.openRecovery
  split
  · exact (OnlyFields.setF ..).trans (OnlyFields.setF ..)
  · rfl

theorem Dev.shown_eq : OnlyFields d (d.openRecovery c).showReset.mapReset :=
  ((d.openRecovery_eq c).trans ((OnlyFields.setF ..).trans (OnlyFields.setF ..))).trans (Dev.mapReset_eq _)

theorem Dev.getF_shown {f : Field} (h : f.unshown = true) : (d.openRecovery c).showReset.mapReset.getF f 0 = d.getF f 0 := by
  simp only [Field.unshown, Bool.and_eq_true, List.all_eq_true, decide_eq_true_eq] at h
  obtain ⟨hs, hm⟩ := h
  have stays (g : Field) (hg : g ∈ resetShown) (e : Dev) (v : Nat) : (e.setF g 0 v).getF f 0 = e.getF f 0 := Dev.getF_setF_other e (hs g hg) v
  rw [Dev.mapReset, Dev.resetMembers, Dev.getF_setMask hm, Dev.showReset, stays _ (by simp [resetShown]), stays _ (by simp [resetShown]),
    Dev.openRecovery]
  split
  · rw [stays _ (by simp [resetShown]), stays _ (by simp [resetShown])]
  · rfl

theorem Dev.getF_shown_type : (d.openRecovery c).showReset.mapReset.getF R.PWR_RESET_CAUSE_TYPE 0 = d.pwr.resetType % 2 ^ R.PWR_RESET_CAUSE_TYPE.width := by
  rw [Dev.mapReset, Dev.resetMembers, Dev.getF_setMask (by decide), Dev.showReset, Dev.getF_setF_place (by decide),
    Dev.getF_setF_same, show (d.openRecovery c).pwr = d.pwr from congrArg (·.pwr) (d.openRecovery_eq c)]

theorem Dev.getF_shown_cause : (d.openRecovery c).showReset.mapReset.getF R.PWR_RESET_CAUSE_CAUSE 0 = d.pwr.resetCause % 2 ^ R.PWR_RESET_CAUSE_CAUSE.width := by
  rw [Dev.mapReset, Dev.resetMembers, Dev.getF_setMask (by decide), Dev.showReset, Dev.getF_setF_same, show (d.openRecovery c).pwr = d.pwr from congrArg (·.pwr) (d.openRecovery_eq c)]

theorem Dev.getF_shown_phase (h : d.getF R.SOW_RECOVERY_PHASE 0 = 0) :
    (d.openRecovery c).showReset.mapReset.getF R.SOW_RECOVERY_PHASE 0 = b2n d.pwr.recovering := by
  rw [Dev.mapReset, Dev.resetMembers, Dev.getF_setMask (by decide), Dev.showReset, Dev.getF_setF_place (by decide),
    Dev.getF_setF_place (by decide), Dev.openRecovery]
  split
  · next hr =>
    rw [Dev.getF_setF_place (by decide), Dev.getF_setF_same, hr]
    rfl
  · next hr =>
    rw [h, Bool.eq_false_iff.2 hr]
    rfl

end

/-! ### Cold resets -/

/-- A cold reset before it shows itself: the device at its reset values, with what survives. -/
def Dev.coldBase (d : Dev) (phase : PowerPhase) (cause : Nat) : Dev :=
  { Dev.reset with
    fresh := d.fresh, out := d.out, nv := { d.nv with chanFault := [] }, pins := d.pins
    fields := keepFields keptHealth d.fields resetFields, acting := []
    sow := { d.keptSow with partnerBase := false, partnerSteps := [], partnerImage := 0, partnerItems := 0, refetch := [] }
    pwr := { Pwr.reset with phase := phase, restarts := d.pwr.restarts, held := d.pins.mrstLow, resetType := 1,
                            resetCause := cause, recovering := d.mustRecover } }

theorem Dev.coldState_shown (d : Dev) (phase : PowerPhase) (cause : Nat) :
    d.coldState phase cause = ((d.interrupted.coldBase phase cause).openRecovery 9).showReset.mapReset := rfl

theorem Dev.coldState_eq (d : Dev) (phase : PowerPhase) (cause : Nat) :
    OnlyFields (d.interrupted.coldBase phase cause) (d.coldState phase cause) := Dev.shown_eq _ 9

/-- A field that no reset keeps has its reset value. -/
theorem Dev.getF_coldState {f : Field} (h : f.unshown = true) (hk : f.key 0 ∉ keptHealth.map (·.key 0))
    (hr : mfind (f.key 0) resetFields = none) (d : Dev) (phase : PowerPhase) (cause : Nat) :
    (d.coldState phase cause).getF f 0 = f.reset := by
  rw [Dev.coldState_shown, Dev.getF_shown _ _ h, Dev.getF, mget, Dev.coldBase, mfind_keepFields, if_neg hk, hr]
  rfl

end Sys2Proof.Machine

namespace Sys2Proof

open Machine

section
variable {s : State} {d : Dev} (hn : d.nv.secret = s.dev.nv.secret) (hp : d.pins = s.dev.pins)
include hn hp

/-- What a cold reset leaves of a device with the secret and the pins of the state. -/
theorem coldReset (phase : PowerPhase) (cause : Nat) : ColdReset s (d.coldState phase cause) phase cause := by
  obtain ⟨n, bs, e⟩ := d.interrupted_spec
  have eq := d.coldState_eq phase cause
  have secret : d.interrupted.nv.secret = d.nv.secret := by rw [e]
  have pins : d.interrupted.pins = d.pins := by rw [e]
  have type : (d.coldState phase cause).getF R.PWR_RESET_CAUSE_TYPE 0 = 1 := Dev.getF_shown_type ..
  have shown : (d.coldState phase cause).getF R.PWR_RESET_CAUSE_CAUSE 0 = cause % 16 := Dev.getF_shown_cause ..
  have job : (d.coldState phase cause).jobActive = false := by
    rw [Dev.jobActive, Dev.getF_coldState (by decide) (by decide) (by decide)]
    rfl
  refine ⟨congrArg (·.pwr.phase) eq, congrArg (·.mem) eq, congrArg (·.cells) eq, congrArg (·.fab) eq, congrArg (·.rasLog) eq, job,
    type, shown, (congrArg (·.nv.secret) eq).trans (secret.trans hn), congrArg (·.pwr.booted) eq,
    (congrArg (·.pwr.held) eq).trans ?_⟩
  exact congrArg (·.mrstLow) (pins.trans hp)

end

/-- Off, a device shows no fault but one that it latched. -/
theorem Machine.Dev.faultL_coldState (d : Dev) (phase : PowerPhase) (cause : Nat) : (d.coldState phase cause).faultL = false := by
  have state : (d.coldState phase cause).blk GLB 0 = 0 := by
    rw [Dev.blk, if_neg (by simp [GLB, CEL]), Dev.getF_coldState (by decide) (by decide) (by decide)]
    rfl
  have eq := d.coldState_eq phase cause
  have latched : (d.coldState phase cause).pwr.latched = false := congrArg (·.pwr.latched) eq
  have tripped : (d.coldState phase cause).pwr.tripped = false := congrArg (·.pwr.tripped) eq
  rw [Dev.faultL, state, latched, tripped]
  rfl

end Sys2Proof
end

