-- ==== Sys2Proof/Proofs/PowerStage.lean ====
section
/-! The power stage (R451 to R461, R539). -/

namespace Sys2Proof.Machine

/-! ### Counters -/

/-- Every counter but those of the RAS block stays. -/
structure CountersKept (d t : Dev) : Prop where
  kept : ∀ k, 64 ≤ k / 32 % 4096 ∧ k / 32 % 4096 < 128 ∧ k / 131072 ≠ 32768 → mfind k t.fields = mfind k d.fields

namespace CountersKept

variable {d e t : Dev}

theorem refl (d : Dev) : CountersKept d d := ⟨fun _ _ => rfl⟩
theorem trans (h : CountersKept d e) (g : CountersKept e t) : CountersKept d t := ⟨fun k hk => (g.kept k hk).trans (h.kept k hk)⟩
theorem of_fields (h : t.fields = d.fields) : CountersKept d t := ⟨fun k _ => by rw [h]⟩

theorem ite {a b : Dev} {p : Prop} [Decidable p] (ha : CountersKept d a) (hb : CountersKept d b) : CountersKept d (if p then a else b) := by
  split
  · exact ha
  · exact hb

theorem setF (d : Dev) {f : Field} (h : f.off < 64 ∨ 128 ≤ f.off) (ho : f.off < 4096) (hl : f.lo < 32) (i v : Nat) :
    CountersKept d (d.setF f i v) := by
  refine ⟨fun k hk => mfind_mput_other (fun e => ?_) _ _⟩
  rw [e, Field.key] at hk
  omega

/-- A store into the RAS page. -/
theorem setRas (d : Dev) {f : Field} (hc : f.cls = 16) (ho : f.off < 4096) (hl : f.lo < 32) (v : Nat) : CountersKept d (d.setF f 0 v) := by
  refine ⟨fun k hk => mfind_mput_other (fun e => ?_) _ _⟩
  rw [e, Field.key, hc] at hk
  omega

theorem bumpRas (d : Dev) {k : Nat} (hk : k < 8) (n : Nat) : CountersKept d (d.bump RAS 0 k n) :=
  setRas d rfl (show 64 + 8 * k < 4096 by omega) (Nat.zero_lt_succ _) _

theorem irq (d : Dev) (c i b : Nat) : CountersKept d (d.irq c i b) := by
  have h : CountersKept d (d.setF (R.BLK_IRQ_PEND c) i (setBit (d.getF (R.BLK_IRQ_PEND c) i) b)) :=
    setF d (by simp [R.BLK_IRQ_PEND]) (by simp [R.BLK_IRQ_PEND]) (by simp [R.BLK_IRQ_PEND]) i _
  exact ite (h.trans (of_fields rfl)) h

theorem flagErr (d : Dev) (c i b : Nat) : CountersKept d (d.flagErr c i b) := by
  have h : CountersKept d (d.setF (R.BLK_ERR c) i (setBit (d.getF (R.BLK_ERR c) i) b)) :=
    setF d (by simp [R.BLK_ERR]) (by simp [R.BLK_ERR]) (by simp [R.BLK_ERR]) i _
  exact ite h (ite ((h.trans (irq ..)).trans (irq ..)) (h.trans (irq ..)))

theorem log (d : Dev) (es : List RasEntry) : CountersKept d { d with rasLog := es } := of_fields rfl

theorem rasAppend (d : Dev) (w a : Nat) : CountersKept d (d.rasAppend w a) := by
  have sev : bitsOf w 29 2 < 4 := Nat.mod_lt _ (by decide)
  unfold Dev.rasAppend
  split
  · exact (log d _).trans (bumpRas _ (k := 1 + bitsOf w 29 2) (by omega) _)
  · exact (setRas d rfl (by decide) (by decide) _).trans (bumpRas _ (by decide) _)

theorem rasNote (d : Dev) (c i b sev act addr : Nat) : CountersKept d (d.rasNote c i b sev act addr) := by
  unfold Dev.rasNote
  refine trans (trans (setRas d (f := R.RAS_SUMMARY_CLASSES) rfl (by decide) (by decide) _) (ite (refl _) ?_)) (rasAppend ..)
  exact (setRas _ (f := R.RAS_FIRST_LO_ENTRY) rfl (by decide) (by decide) _).trans
    (setRas _ (f := R.RAS_FIRST_HI_STEP) rfl (by decide) (by decide) _)

theorem setErrOnce (d : Dev) (c i b sev act addr : Nat) : CountersKept d (d.setErrOnce c i b sev act addr) :=
  ite (refl d) (ite (flagErr ..) ((flagErr ..).trans (rasNote ..)))

theorem setErrFull (d : Dev) (c i b sev act addr : Nat) : CountersKept d (d.setErrFull c i b sev act addr) := by
  unfold Dev.setErrFull
  extract_lets e
  refine trans (e := e) (ite (bumpRas _ (by decide) _) (refl d)) ?_
  clear_value e
  exact ite (setErrOnce ..) ((setErrOnce ..).trans
    (trans (ite (setErrOnce ..) (refl _)) (ite (setErrOnce ..) (refl _))))

theorem counter (h : CountersKept d t) {c i k : Nat} (hc : c < 16) (hi : i < 2048) (hk : k < 8) :
    t.getF (R.COUNTER c k) i = d.getF (R.COUNTER c k) i := by
  have home : 64 ≤ (R.COUNTER c k).key i / 32 % 4096 ∧ (R.COUNTER c k).key i / 32 % 4096 < 128 ∧ (R.COUNTER c k).key i / 131072 ≠ 32768 := by
    simp only [Field.key, R.COUNTER]
    omega
  simp only [Dev.getF, mget, h.kept _ home]

end CountersKept

end Sys2Proof.Machine

namespace Sys2Proof

open Machine

/-- A command that changes the device alone. -/
theorem Answers.of_next {c : Instr} {s : State} {t : Dev} {post : Dev → Prop} (h : exec c s = .next { s with dev := t }) (hp : post t) :
    Answers c s post := ⟨_, h, rfl, rfl, hp⟩

/-- A command without effect. -/
theorem Answers.unchanged {c : Instr} {s : State} (h : exec c s = .next s) : Answers c s fun t => t = s.dev := ⟨_, h, rfl, rfl, rfl⟩

theorem reboots {c : Instr} {s : State} {t : Dev} {post : Dev → Prop} (h : exec c s = s.reboot t) (hp : post t) :
    Reboots c s post := ⟨_, h, rfl, rfl, hp⟩

theorem coldReset_setPwr {s : State} {t : Dev} {phase : PowerPhase} {cause : Nat} (h : ColdReset s t phase cause) {p : Pwr}
    (hp : p.phase = t.pwr.phase ∧ p.booted = t.pwr.booted ∧ p.held = t.pwr.held) : ColdReset s { t with pwr := p } phase cause := by
  obtain ⟨h1, h2, h3, h4, h5, h6, h7, h8, h9, h10, h11⟩ := h
  exact ⟨hp.1.trans h1, h2, h3, h4, h5, h6, h7, h8, h9, hp.2.1.trans h10, hp.2.2.trans h11⟩

/-- The device that counts one more restart. -/
def Machine.Dev.countRestart (d : Dev) : Dev := { d with pwr := { d.pwr with restarts := d.pwr.restarts ++ [0] } }

theorem restart_early {s : State} (h : s.dev.pwr.restarts.length < 2) (cause : Nat) :
    s.restart cause = s.reboot (s.dev.countRestart.coldState .sequencing cause) := if_neg (by simp; omega)

theorem restart_third {s : State} (h : 2 ≤ s.dev.pwr.restarts.length) (cause : Nat) : s.restart cause = s.reboot
    { s.dev.countRestart.coldState .off cause with pwr := { (s.dev.countRestart.coldState .off cause).pwr with latched := true } } :=
  if_pos (by simp; omega)

/-- A restart of the power-up: the third latches the fault. -/
theorem restarts (s : State) (i : Instr) (cause : Nat) (he : exec i s = s.restart cause) :
    (s.dev.pwr.restarts.length < 2 → Reboots i s fun t => ColdReset s t .sequencing cause ∧ t.faultL = false)
      ∧ (2 ≤ s.dev.pwr.restarts.length → Reboots i s fun t => ColdReset s t .off cause ∧ t.faultL = true) := by
  have reset (phase : PowerPhase) := coldReset (s := s) (d := s.dev.countRestart) rfl rfl phase cause
  constructor
  · intro h
    exact reboots (he.trans (restart_early h cause)) ⟨reset .sequencing, Dev.faultL_coldState ..⟩
  · intro h
    exact reboots (he.trans (restart_third h cause)) ⟨coldReset_setPwr (reset .off) ⟨rfl, rfl, rfl⟩, by simp [Dev.faultL]⟩

/-- A thermal trip. -/
theorem trips (s : State) (i : Instr) (he : exec i s = s.trip) (h : s.dev.pwr.phase = .on) :
    Reboots i s fun t => ColdReset s t .off 10 ∧ t.faultL = true := by
  unfold State.trip at he
  rw [if_pos h] at he
  exact reboots he ⟨coldReset_setPwr (coldReset (d := s.dev) rfl rfl ..) ⟨rfl, rfl, rfl⟩, by simp [Dev.faultL]⟩

/-- The release of the blocks touches no more than their hold, the recovery's phase and reports. -/
theorem Machine.Dev.release_spec (d : Dev) : d.release.pwr = { d.pwr with held := false } ∧ d.release.mem = d.mem ∧ d.release.nv = d.nv
    ∧ d.release.cells = d.cells ∧ d.release.pins = d.pins
    ∧ (d.pwr.recovering = true → d.release.getF R.SOW_RECOVERY_PHASE 0 = 2) := by
  unfold Dev.release
  extract_lets _ e f
  have he : f = { e with fields := f.fields } := by
    unfold f
    split <;> rfl
  have phase : d.pwr.recovering = true → f.getF R.SOW_RECOVERY_PHASE 0 = 2 := fun h => by
    unfold f
    rw [if_pos h, Dev.getF_setF_same]
    rfl
  split
  · have noise := Noise.setErr f PWR 0 17
    obtain ⟨_, _, _, heq⟩ := noise.reports
    refine ⟨?_, ?_, ?_, ?_, ?_, fun h => (noise.getF (by decide) (by decide)).trans (phase h)⟩ <;> rw [heq, he]
  · refine ⟨?_, ?_, ?_, ?_, ?_, phase⟩ <;> rw [he]

/-- The rails have started. -/
theorem railPowerUp (s : State) (h : s.dev.pwr.phase = .charging ∨ s.dev.pwr.phase = .sequencing) : Answers .railPowerUp s fun t =>
    t.pwr.phase = .on ∧ t.pwr.held = s.dev.pins.mrstLow ∧ t.mem = s.dev.mem ∧ t.nv = s.dev.nv := by
  refine .of_next (if_pos h) ?_
  dsimp only
  split
  · next hp => exact ⟨rfl, hp.symm, rfl, rfl⟩
  · next hp =>
    obtain ⟨pwr, mem, nv, -⟩ := Dev.release_spec (Dev.showReset { s.dev with pwr := { s.dev.pwr with phase := .on, held := true } })
    exact ⟨congrArg (·.phase) pwr, (congrArg (·.held) pwr).trans (Bool.eq_false_iff.2 hp).symm, mem, nv⟩

/-- The switch opens: no rail, no memory, no fault. -/
theorem hotSwapOpen (s : State) : Reboots .hotSwapOpen s fun t => t.pwr.phase = .off ∧ t.faultL = false ∧ t.mem = Dev.reset.mem ∧ t.cells = []
    ∧ t.fields = (Dev.mapReset { t with fields := Dev.reset.fields }).fields ∧ t.nv.secret = s.dev.nv.secret := by
  refine reboots (Eq.refl (execHotSwapOpen s)) ?_
  obtain ⟨n, bs, e⟩ := s.dev.interrupted_spec
  unfold Dev.offState
  rw [e]
  dsimp only
  generalize hb : ({ Dev.reset with fresh := _, out := _, nv := _, pins := _, pwr := _ } : Dev) = b
  have eq : b.mapReset = { b with fields := b.mapReset.fields } := b.mapReset_eq
  have whole : { b.mapReset with fields := Dev.reset.fields } = b := by
    rw [eq, ← hb]
  have fields : b.fields = resetFields := by
    rw [← hb]
    simp only [Dev.reset]
  have unlisted : mfind ((R.BLK_STATE_STATE GLB).key 0) resetFields = none := by decide
  have off : b.mapReset.blk GLB 0 = 0 := by
    have home : ∀ w ∈ List.range 32, (R.BLK_STATE_STATE GLB).key 0 ≠ (R.PLT_MEMBER w).key 0 := by decide
    rw [Dev.blk, if_neg (by simp [GLB, CEL]), Dev.mapReset, Dev.resetMembers, Dev.getF_setMask home, Dev.getF, fields, mget, unlisted]
    rfl
  refine ⟨?_, ?_, ?_, ?_, by rw [whole], ?_⟩
  · rw [eq, ← hb]
  · rw [Dev.faultL, off, eq, ← hb]
    rfl
  · rw [eq, ← hb]
  · rw [eq, ← hb]
    rfl
  · rw [eq, ← hb]

/-- A dip of the input is counted. -/
theorem inputDip (s : State) (hu : s.dev.up = true) : Answers .inputDip s fun t => t.errBit PWR 0 16 = true ∧ t.mem = s.dev.mem ∧ t.cells = s.dev.cells
    ∧ t.getF (R.COUNTER PWR 6) 0 = min (2 ^ 64 - 1) (s.dev.getF (R.COUNTER PWR 6) 0 + 1) := by
  refine .of_onDev _ (Eq.refl (execInputDip s)) hu ?_
  have noise := Noise.setErr (s.dev.bump PWR 0 6 1) PWR 0 16
  refine ⟨Noise.errBit_setErr _ _ _ (by decide), noise.reports.mem, noise.reports.cells, ?_⟩
  refine ((CountersKept.setErrFull (s.dev.bump PWR 0 6 1) PWR 0 16 0 0 0).counter (by decide) (by decide) (by decide)).trans ?_
  exact Dev.getF_setF_of_lt _ (Nat.lt_of_le_of_lt (Nat.min_le_left ..) (by simp [R.COUNTER])) 0

/-- A rail that leaves its window for more than a moment shows. -/
theorem railShows (s : State) (rail : Nat) (h : s.dev.pwr.phase = .on) (hr : rail < 9) (h1 : rail ≠ 1) (h2 : rail ≠ 2) :
    Answers (.railOutOfWindow rail false) s fun t =>
      bitOf (t.getF R.PWR_RAILS_PGOOD 0) rail = false ∧ t.mem = s.dev.mem ∧ t.cells = s.dev.cells ∧ t.pwr = s.dev.pwr := by
  refine .of_next ((if_neg (not_or.2 ⟨fun c => c h, by omega⟩)).trans ((if_neg (by omega)).trans (if_neg (by decide)))) ?_
  exact ⟨by rw [Dev.getF_setF_same]; exact bitOf_clearBit_mod .., rfl, rfl, rfl⟩

/-- Settles O51, event by event. -/
theorem powerStageMoves : Obligations.PowerStageMoves := by
  unfold Obligations.PowerStageMoves
  intro s w rail group key back
  refine ⟨fun h hl ht => .of_next (if_pos ⟨h, hl, ht⟩) rfl, fun h => .unchanged (if_neg ?_), railPowerUp s, fun h => .unchanged (if_neg ?_),
    hotSwapOpen s, inputDip s, fun h hr => restarts s _ 9 ?_, railShows s rail, fun h hr hb => restarts s _ 11 (if_pos ⟨h, hr, hb⟩),
    fun h => .unchanged (if_neg ?_), fun h hg => ⟨trips s _ (if_pos hg) h, trips s _ (if_pos hg) h⟩, fun h => ?_,
    fun h => .of_next (if_pos h) rfl, fun h => .unchanged (if_neg (by simp [h])), fun hw hu => ?_, fun h => .unchanged (if_neg (by simp [h]))⟩
  · rintro ⟨h1, h2, h3⟩
    simp [h1, h2, h3] at h
  · rcases h with h | h <;> simp [h]
  · exact (if_neg (not_or.2 ⟨fun c => c h, by omega⟩)).trans (if_pos hr)
  · simp [h]
  · have still : s.trip = .next s := if_neg h
    constructor
    · exact .unchanged ((ite_congr rfl (fun _ => still) fun _ => rfl).trans (ite_self _))
    · exact .unchanged ((ite_congr rfl (fun _ => still) fun _ => rfl).trans (ite_self _))
  · exact reboots (if_pos (by simp [hw, hu])) (coldReset rfl rfl ..)

end Sys2Proof
end

