-- ==== Sys2Proof/Proofs/WarmResets.lean ====
section
/-! Warm resets (R460 to R462, R538): what a trigger keeps, and who triggers one. -/

namespace Sys2Proof.Machine

theorem MemOnly.saveJournal (d : Dev) : MemOnly d d.saveJournal := .foldl (fun _ _ => .writeRaw ..) _ d

/-- The fields that a warm reset of a device keeps. -/
def Dev.warmKept (d : Dev) : List Field :=
  keptFields ++ keptHealth ++ (if d.getF R.FLW_RT_STATUS_CODE 0 = 2 then [R.FLW_RT_STATUS_CODE] else [])

/-- A warm reset before it shows itself: the device at its reset values, with what survives. -/
def Dev.warmBase (d : Dev) (cause : Nat) : Dev :=
  { Dev.reset with
    fresh := d.fresh, out := d.out, nv := d.nv, pins := d.pins
    mem := { d.mem with recalFails := [], sweep := [] }
    fields := keepFields d.warmKept d.fields resetFields, acting := keepFields d.warmKept d.acting [], sow := d.keptSow
    pwr := { Pwr.reset with restarts := d.pwr.restarts, held := true, resetType := 2, resetCause := cause,
                            recovering := d.mustRecover } }

theorem Dev.warmState_shown (d : Dev) (cause : Nat) : d.warmState cause =
    ((d.interrupted.saveJournal.warmBase cause).openRecovery (sowCause cause)).showReset.mapReset.bump PWR 0 4 1 := rfl

theorem Dev.warmState_eq (d : Dev) (cause : Nat) : OnlyFields (d.interrupted.saveJournal.warmBase cause) (d.warmState cause) := by
  rw [Dev.warmState_shown]
  generalize d.interrupted.saveJournal.warmBase cause = b
  exact (Dev.shown_eq _ (sowCause cause)).trans (OnlyFields.setF ..)

/-- A field that a warm reset neither counts nor shows. -/
theorem Dev.getF_warmState {f : Field} (h : f.unshown = true) (hc : f.key 0 ≠ (R.COUNTER PWR 4).key 0) (d : Dev) (cause : Nat) :
    (d.warmState cause).getF f 0 = mget f.reset (keepFields d.interrupted.saveJournal.warmKept d.interrupted.saveJournal.fields resetFields) (f.key 0) := by
  rw [Dev.warmState_shown, Dev.bump, Dev.satAdd, Dev.getF_setF_other _ hc, Dev.getF_shown _ _ h]
  simp only [Dev.getF, Dev.warmBase]

section
variable (d : Dev)

/-- Until it is reset, the device differs from the one before the trigger in no home that stays. -/
theorem Dev.saved_kept {k : Nat} (hk : noiseKey k = false) (hu : ¬ ueHome k) : mfind k d.interrupted.saveJournal.fields = mfind k d.fields := by
  obtain ⟨n, bs, e⟩ := d.interrupted_spec
  rw [(MemOnly.saveJournal d.interrupted).touches.kept k hk hu, e]

theorem Dev.saved_pwr : d.interrupted.saveJournal.pwr = d.pwr := by
  obtain ⟨n, bs, e⟩ := d.interrupted_spec
  rw [(MemOnly.saveJournal d.interrupted).kept, e]

theorem Dev.saved_mem (h : d.harvest.journal = []) : d.interrupted.saveJournal.mem = d.mem := by
  obtain ⟨n, bs, e⟩ := d.interrupted_spec
  have none : d.interrupted.harvest.journal = [] := by rw [e]; exact h
  rw [Dev.saveJournal, none, e]
  rfl

theorem Dev.saved_getF {f : Field} (hf : f.quiet = true) (ho : f.off ≠ 192 ∧ f.off ≠ 196) : d.interrupted.saveJournal.getF f 0 = d.getF f 0 := by
  simp only [Dev.getF, mget, d.saved_kept (Field.noiseKey_of_quiet hf (i := 0) (by decide)) (not_ueHome hf ho 0)]

theorem Dev.saved_mustRecover : d.interrupted.saveJournal.mustRecover = d.mustRecover := by
  rw [Dev.mustRecover, Dev.mustRecover, Dev.jobActive, Dev.jobActive, d.saved_pwr, d.saved_getF (by decide) (by decide),
    d.saved_getF (by decide) (by decide)]

/-- A field that a warm reset keeps. -/
theorem Dev.getF_warmState_kept {f : Field} (h : f ∈ keptFields) (cause : Nat) : (d.warmState cause).getF f 0 = d.getF f 0 := by
  have all : ∀ f ∈ keptFields, f.unshown = true ∧ f.key 0 ≠ (R.COUNTER PWR 4).key 0 ∧ f.quiet = true ∧ f.off ≠ 192 ∧ f.off ≠ 196
      ∧ mfind (f.key 0) resetFields = none := by decide
  obtain ⟨unshown, uncounted, quiet, h192, h196, unlisted⟩ := all f h
  have listed : f.key 0 ∈ d.interrupted.saveJournal.warmKept.map (·.key 0) :=
    List.mem_map_of_mem (List.mem_append_left _ (List.mem_append_left _ h))
  rw [Dev.getF_warmState unshown uncounted, mget, mfind_keepFields, if_pos listed, unlisted, Option.or_none,
    d.saved_kept (Field.noiseKey_of_quiet quiet (by decide)) (not_ueHome quiet ⟨h192, h196⟩ 0)]
  rfl

/-- A field that a warm reset does not keep has its reset value. -/
theorem Dev.getF_warmState_lost {f : Field} (h : f.unshown = true) (hc : f.key 0 ≠ (R.COUNTER PWR 4).key 0)
    (hk : f.key 0 ∉ d.interrupted.saveJournal.warmKept.map (·.key 0)) (hr : mfind (f.key 0) resetFields = none) (cause : Nat) :
    (d.warmState cause).getF f 0 = f.reset := by
  rw [Dev.getF_warmState h hc, mget, mfind_keepFields, if_neg hk, hr]
  rfl

/-- The route table stays loaded. -/
theorem Dev.getF_warmState_routes (cause : Nat) :
    (d.warmState cause).getF R.FLW_RT_STATUS_CODE 0 = if d.getF R.FLW_RT_STATUS_CODE 0 = 2 then 2 else 0 := by
  have old : d.interrupted.saveJournal.getF R.FLW_RT_STATUS_CODE 0 = d.getF R.FLW_RT_STATUS_CODE 0 := d.saved_getF (by decide) (by decide)
  split
  · next h =>
    have listed : R.FLW_RT_STATUS_CODE.key 0 ∈ d.interrupted.saveJournal.warmKept.map (·.key 0) := by
      rw [Dev.warmKept, if_pos (old.trans h)]
      exact List.mem_map_of_mem (List.mem_append_right _ (List.mem_singleton.mpr rfl))
    have unlisted : mfind (R.FLW_RT_STATUS_CODE.key 0) resetFields = none := by decide
    rw [Dev.getF_warmState (by decide) (by decide), mget, mfind_keepFields, if_pos listed, unlisted, Option.or_none]
    exact old.trans h
  · next h =>
    refine d.getF_warmState_lost (by decide) (by decide) ?_ (by decide) cause
    rw [Dev.warmKept, if_neg (fun c => h (old.symm.trans c))]
    decide

end

end Sys2Proof.Machine

namespace Sys2Proof

open Machine

/-- The device as it meets a trigger: the state's, but for free values and pins. -/
structure AtTrigger (s : State) (d : Dev) : Prop where
  fields : d.fields = s.dev.fields
  mem : d.mem = s.dev.mem
  pwr : d.pwr = s.dev.pwr
  harvest : d.harvest = s.dev.harvest

/-- What a warm reset keeps and shows, but for its cause. -/
def KeptByWarm (s : State) (t : Dev) : Prop :=
  (s.dev.harvest.journal = [] → t.mem.bytes = s.dev.mem.bytes ∧ t.mem.valid = s.dev.mem.valid
      ∧ t.mem.poison = s.dev.mem.poison ∧ t.mem.rowCe = s.dev.mem.rowCe)
    ∧ (∀ f ∈ keptFields, t.getF f 0 = s.dev.getF f 0)
    ∧ t.getF R.FLW_RT_STATUS_CODE 0 = (if s.dev.getF R.FLW_RT_STATUS_CODE 0 = 2 then 2 else 0) ∧ t.cells = [] ∧ t.fab = Fabric.reset ∧ t.jobActive = false
    ∧ t.getF R.SOW_RECOVERY_PHASE 0 = b2n s.dev.mustRecover

theorem AtTrigger.mustRecover {s : State} {d : Dev} (h : AtTrigger s d) : d.mustRecover = s.dev.mustRecover := by
  simp only [Dev.mustRecover, Dev.jobActive, Dev.getF, h.fields, h.pwr]
  rfl

/-- What a warm reset leaves. -/
theorem warmState_keeps {s : State} {d : Dev} (h : AtTrigger s d) (cause : Nat) : KeptByWarm s (d.warmState cause) := by
  have eq := d.warmState_eq cause
  have getF (f : Field) : d.getF f 0 = s.dev.getF f 0 := by rw [Dev.getF, Dev.getF, h.fields]
  refine ⟨fun hj => ?_, fun f hf => (d.getF_warmState_kept hf cause).trans (getF f), ?_, congrArg (·.cells) eq, congrArg (·.fab) eq, ?_, ?_⟩
  · have mem : (d.warmState cause).mem = { s.dev.mem with recalFails := [], sweep := [] } := by
      have old := d.saved_mem (by rw [h.harvest]; exact hj)
      rw [eq, ← h.mem, ← old]
      rfl
    rw [mem]
    exact ⟨rfl, rfl, rfl, rfl⟩
  · rw [d.getF_warmState_routes cause, getF]
  · rw [Dev.jobActive, d.getF_warmState_lost (by decide) (by decide) ?_ (by decide)]
    · rfl
    · rw [Dev.warmKept]
      split <;> decide
  · rw [Dev.warmState_shown, Dev.bump, Dev.satAdd, Dev.getF_setF_place (by decide), Dev.getF_shown_phase, ← h.mustRecover, ← d.saved_mustRecover]
    · rfl
    · have unlisted : mfind (R.SOW_RECOVERY_PHASE.key 0) resetFields = none := by decide
      rw [Dev.getF, mget, Dev.warmBase, mfind_keepFields, unlisted, if_neg]
      · rfl
      · rw [Dev.warmKept]
        split <;> decide

/-- A trigger on a device whose blocks run. -/
theorem warmTriggered {s : State} {d : Dev} {i : Instr} {cause : Nat} (h : AtTrigger s d) (hp : s.dev.pwr.phase = .on)
    (hh : s.dev.pwr.held = false) (he : exec i s = State.warmTrigger { s with dev := d } cause) : Reboots i s fun t =>
      t.pwr.held = true ∧ t.up = false ∧ t.getF R.PWR_RESET_CAUSE_TYPE 0 = 2 ∧ t.getF R.PWR_RESET_CAUSE_CAUSE 0 = cause % 16 ∧ KeptByWarm s t := by
  have eq := d.warmState_eq cause
  have held : (d.warmState cause).pwr.held = true := congrArg (·.pwr.held) eq
  have ran : State.warmTrigger { s with dev := d } cause = s.reboot (d.warmState cause) := by
    rw [State.warmTrigger]
    dsimp only
    rw [if_neg (by simp [h.pwr, hp]), if_pos (by simp [h.pwr, hh])]
    rfl
  refine reboots (he.trans ran) ⟨held, by simp [Dev.up, held], ?_, ?_, warmState_keeps h cause⟩
  · rw [Dev.warmState_shown, Dev.bump, Dev.satAdd, Dev.getF_setF_place (by decide), Dev.getF_shown_type]
    rfl
  · rw [Dev.warmState_shown, Dev.bump, Dev.satAdd, Dev.getF_setF_place (by decide), Dev.getF_shown_cause]
    rfl

/-- Rebalances withdrawn are reported. -/
theorem Machine.Noise.withdraw (d : Dev) (ds : List Decision) : Noise d (d.withdraw ds) :=
  .ite (.refl _) ((Noise.foldl (fun _ _ => .irq ..) _ d).trans (.bump _ _ _ (by decide) _))

/-- The device after a reset of its MC alone: the ages of such resets and what shows them. -/
def Machine.Dev.mcRestarted (d : Dev) : Dev :=
  ((Dev.setErrFull { d with pwr := { d.pwr with mcResets := d.pwr.mcResets ++ [0] } } PWR 0 4 1 0 0).bump PWR 0 5 1).setF
    R.PWR_MC_RESETS_600S 0 (d.pwr.mcResets ++ [0]).length

theorem Machine.Dev.mcRestarted_spec (d : Dev) (h : d.pwr.mcResets.length < 2) :
    d.mcRestarted.pwr.mcResets = d.pwr.mcResets ++ [0] ∧ d.mcRestarted.getF R.PWR_MC_RESETS_600S 0 = d.pwr.mcResets.length + 1
      ∧ d.mcRestarted.errBit PWR 0 4 = true ∧ d.mcRestarted.mem = d.mem ∧ d.mcRestarted.cells = d.cells := by
  have noise := (Noise.setErrFull { d with pwr := { d.pwr with mcResets := d.pwr.mcResets ++ [0] } } PWR 0 4 1 0 0).trans
    (.bump _ PWR 0 (k := 5) (by decide) 1)
  have err := (Noise.bump (Dev.setErrFull { d with pwr := { d.pwr with mcResets := d.pwr.mcResets ++ [0] } } PWR 0 4 1 0 0) PWR 0 (k := 5)
    (by decide) 1).errs PWR 0 4 (by decide) (Noise.errBit_setErrFull _ _ _ (by decide) ..)
  obtain ⟨_, _, _, heq⟩ := noise.reports
  unfold Dev.mcRestarted
  refine ⟨?_, ?_, (Dev.errBit_setF_place (by decide) ..).trans err, ?_, ?_⟩
  · exact congrArg (·.pwr.mcResets) heq
  · rw [Dev.getF_setF_of_lt _ (by simp [R.PWR_MC_RESETS_600S]; omega)]
    simp
  · exact congrArg (·.mem) heq
  · exact congrArg (·.cells) heq

/-- A reset of the MC: the third within 600 s is a warm reset. -/
theorem mcResets (s : State) (i : Instr) (he : exec i s = s.mcReset) (hp : s.dev.pwr.phase = .on) (hu : s.dev.up = true)
    (hb : s.dev.pwr.booted = true) :
    (2 ≤ s.dev.pwr.mcResets.length → Reboots i s fun t =>
      t.pwr.held = true ∧ t.up = false ∧ t.getF R.PWR_RESET_CAUSE_TYPE 0 = 2 ∧ t.getF R.PWR_RESET_CAUSE_CAUSE 0 = 6 ∧ KeptByWarm s t)
      ∧ (s.dev.pwr.mcResets.length < 2 → Answers i s fun t => t.pwr.mcResets = s.dev.pwr.mcResets ++ [0]
        ∧ t.getF R.PWR_MC_RESETS_600S 0 = s.dev.pwr.mcResets.length + 1 ∧ t.errBit PWR 0 4 = true ∧ t.mem = s.dev.mem
        ∧ t.cells = s.dev.cells) := by
  have held : s.dev.pwr.held = false := by
    simp only [Dev.up, Bool.and_eq_true, Bool.not_eq_true'] at hu
    exact hu.2
  have ages : (s.dev.pwr.mcResets ++ [0]).length = s.dev.pwr.mcResets.length + 1 := List.length_append
  unfold State.mcReset at he
  dsimp only at he
  rw [if_neg (by simp [hu, hb])] at he
  constructor
  · intro h
    rw [if_pos (by omega)] at he
    exact warmTriggered (cause := 6) ⟨rfl, rfl, rfl, rfl⟩ hp held he
  · intro h
    rw [if_neg (by omega)] at he
    have spec := s.dev.mcRestarted_spec h
    by_cases hd : (s.dev.mcRestarted.draw).1 % 2 = 0
    · exact .of_next (he.trans (if_pos hd)) spec
    · obtain ⟨resets, shown, err, mem, cells⟩ := spec
      refine .of_next (he.trans (if_neg hd)) ?_
      have noise := Noise.withdraw { s.dev.mcRestarted.draw.2 with
        ctl := { s.dev.mcRestarted.ctl with decisions := s.dev.mcRestarted.ctl.decisions.filter (fun x => !isRebalance x) }
        sow := { s.dev.mcRestarted.sow with capNext := none } } (s.dev.mcRestarted.ctl.decisions.filter isRebalance)
      refine ⟨?_, (noise.getF (by decide) (by decide)).trans shown, noise.errs _ _ _ (by decide) err, noise.reports.mem.trans mem,
        noise.reports.cells.trans cells⟩
      obtain ⟨_, _, _, heq⟩ := noise.reports
      exact (congrArg (·.pwr.mcResets) heq).trans resets

/-- A second trigger while a warm reset holds the blocks. -/
theorem secondTrigger (s : State) (hp : s.dev.pwr.phase = .on) (hh : s.dev.pwr.held = true) (ht : s.dev.pwr.resetType = 2) :
    (causeRank 8 < causeRank s.dev.pwr.resetCause → Answers .rootPllLossOfLock s fun t =>
      t.getF R.PWR_RESET_CAUSE_CAUSE 0 = 8 ∧ t.pwr.held = true ∧ t.mem = s.dev.mem)
      ∧ (causeRank s.dev.pwr.resetCause ≤ causeRank 8 → Answers .rootPllLossOfLock s fun t => t = s.dev) := by
  have he : exec .rootPllLossOfLock s = s.warmTrigger 8 := rfl
  unfold State.warmTrigger at he
  dsimp only at he
  rw [if_neg (by simp [hp]), if_neg (by simp [hh])] at he
  constructor
  · intro h
    rw [if_pos ⟨ht, h⟩] at he
    have eq := Dev.openRecovery_eq { s.dev with pwr := { s.dev.pwr with resetCause := 8 } } (sowCause 8)
    refine .of_next he ⟨?_, (congrArg (·.pwr.held) eq).trans hh, congrArg (·.mem) eq⟩
    rw [Dev.showReset, Dev.getF_setF_same, congrArg (·.pwr.resetCause) eq]
    rfl
  · intro h
    rw [if_neg (by omega)] at he
    exact .unchanged he

/-- Settles O52, trigger by trigger. -/
theorem warmResetsKeepMemory : Obligations.WarmResetsKeepMemory := by
  unfold Obligations.WarmResetsKeepMemory
  intro s w rail hp
  have held (hu : s.dev.up = true) : s.dev.pwr.held = false := by
    simp only [Dev.up, Bool.and_eq_true, Bool.not_eq_true'] at hu
    exact hu.2
  have still : AtTrigger s s.dev := ⟨rfl, rfl, rfl, rfl⟩
  refine ⟨fun hw hu => warmTriggered (cause := 3) still hp (held hu) (if_pos (by simp [hw, hu])),
    fun hu hb hh => warmTriggered (cause := 4) still hp (held hu) (if_pos (by simp [hu, hb, hh])), fun hb => .unchanged (if_neg (by simp [hb])),
    fun hh hr h1 h2 => warmTriggered (cause := 5) still hp hh ?_, fun hh => warmTriggered (d := { s.dev with pins := { s.dev.pins with mrstLow := true } }) (cause := 7) ⟨rfl, rfl, rfl, rfl⟩ hp hh rfl,
    fun hh => warmTriggered (cause := 8) still hp hh rfl, fun hu hb => mcResets s _ rfl hp hu hb, fun hu hb => mcResets s _ rfl hp hu hb,
    fun hu => ?_, fun hh ht => (secondTrigger s hp hh ht).1, fun hh ht => (secondTrigger s hp hh ht).2, fun hh hl => ?_,
    fun h => .unchanged (if_neg ?_), fun hh ht => ?_, fun hh ht => ?_⟩
  · exact (if_neg (not_or.2 ⟨fun c => c hp, by omega⟩)).trans ((if_neg (by omega)).trans (if_pos rfl))
  · have pool (site : SramSite) (he : exec (.sramUncorrectable site) s = State.warmTrigger { s with dev := s.dev.draw.2 } (16 + s.dev.draw.1)) :
        Reboots (.sramUncorrectable site) s fun t => t.pwr.held = true ∧ t.up = false ∧ t.getF R.PWR_RESET_CAUSE_TYPE 0 = 2 ∧ True
          ∧ KeptByWarm s t := by
      obtain ⟨t, h, hq, ho, h1, h2, h3, -, h5⟩ := warmTriggered (d := s.dev.draw.2) ⟨rfl, rfl, rfl, rfl⟩ hp (held hu) he
      exact ⟨t, h, hq, ho, h1, h2, h3, trivial, h5⟩
    exact ⟨pool _ (if_pos hu), pool _ (if_pos hu)⟩
  · obtain ⟨pwr, mem, nv, cells, pins, phase⟩ := s.dev.release_spec
    exact .of_next (if_pos ⟨hp, hh, hl⟩) ⟨by rw [Dev.up, pwr]; simp [hp], mem, cells, phase⟩
  · rintro ⟨-, h1, h2⟩
    simp [h1, h2] at h
  · obtain ⟨pwr, mem, nv, cells, pins, phase⟩ := Dev.release_spec { s.dev with pins := { s.dev.pins with mrstLow := false } }
    refine .of_next (if_pos ⟨hp, hh, ht⟩) ⟨by rw [Dev.up, pwr]; simp [hp], congrArg (·.mrstLow) pins, mem⟩
  · exact .of_next (if_neg fun c => c.2.2 ht) rfl

end Sys2Proof
end

