-- ==== Sys2Proof/Proofs/Policy.lean ====
section
/-! The tick of the power policy (R457, R458, R478, R479, R543): what each of its steps touches. -/

namespace Sys2Proof.Machine

/-- The home of one of these fields of the device; the divider among them stands for those of all cells. -/
def powerHome (L : List Field) (k : Nat) : Prop :=
  (R.CEL_ARRAY_STATUS_DIVIDER ∈ L ∧ k / 131072 < 6144) ∨ homes (L.map (·, 0)) k

theorem not_powerHome {L : List Field} {f : Field} (hq : f.quiet = true) (hc : 3 ≤ f.cls) (h : f.place ∉ L.map Field.place) :
    ¬ powerHome L (f.key 0) := by
  rintro (⟨-, hk⟩ | hk)
  · rw [Field.key_page hq] at hk
    omega
  · exact not_homes_map h 0 0 hk

/-- A step of the policy: beside reports it touches at most these fields and the dividers of cells, and it leaves what the
device computes with. -/
structure Paced (L : List Field) (d t : Dev) : Prop where
  cells : t.cells = d.cells
  acting : t.acting = d.acting
  fab : t.fab = d.fab
  bytes : t.mem.bytes = d.mem.bytes
  valid : t.mem.valid = d.mem.valid
  poison : t.mem.poison = d.mem.poison
  disabled : t.nv.disabled = d.nv.disabled
  spares : t.nv.spares = d.nv.spares
  running : t.pwr.running = d.pwr.running
  handover : t.pwr.handover = d.pwr.handover
  touches : Touches (powerHome L) d t

theorem Dev.pwr_spreadDivider (d : Dev) : d.spreadDivider.pwr = d.pwr := by
  unfold Dev.spreadDivider
  extract_lets t idle e
  have fold : ∀ (cs : List Nat) (g : Dev), (cs.foldl (fun d c => d.setF R.CEL_ARRAY_STATUS_DIVIDER c t) g).pwr = g.pwr := by
    intro cs
    induction cs with
    | nil => exact fun _ => rfl
    | cons c cs ih => exact fun g => (ih _).trans rfl
  have whole : e.pwr = d.pwr := fold _ d
  clear_value e
  exact whole

namespace Paced

variable {L : List Field} {d e t : Dev}

theorem refl (d : Dev) : Paced L d d := ⟨rfl, rfl, rfl, rfl, rfl, rfl, rfl, rfl, rfl, rfl, .refl ..⟩

theorem trans (h : Paced L d e) (g : Paced L e t) : Paced L d t :=
  ⟨g.cells.trans h.cells, g.acting.trans h.acting, g.fab.trans h.fab, g.bytes.trans h.bytes, g.valid.trans h.valid, g.poison.trans h.poison,
    g.disabled.trans h.disabled, g.spares.trans h.spares, g.running.trans h.running, g.handover.trans h.handover,
    h.touches.trans g.touches⟩

theorem ite {a b : Dev} {p : Prop} [Decidable p] (ha : Paced L d a) (hb : Paced L d b) : Paced L d (if p then a else b) := by
  split
  · exact ha
  · exact hb

theorem foldl {α : Type} {f : Dev → α → Dev} {xs : List α} (h : ∀ e, ∀ x ∈ xs, Paced L e (f e x)) (d : Dev) : Paced L d (xs.foldl f d) := by
  induction xs generalizing d with
  | nil => exact refl d
  | cons x xs ih => exact (h d x List.mem_cons_self).trans (ih (fun e y hy => h e y (List.mem_cons_of_mem _ hy)) _)

theorem mono {M : List Field} (h : Paced L d t) (hs : L ⊆ M) : Paced M d t :=
  { h with touches := h.touches.mono fun _ hk => hk.imp (fun hd => ⟨hs hd.1, hd.2⟩) fun ⟨x, hx, e⟩ => ⟨x, List.map_subset _ hs hx, e⟩ }

theorem of_noise (h : Noise d t) : Paced L d t := by
  have ht := h.touches (powerHome L)
  obtain ⟨_, _, _, rfl⟩ := h.reports
  exact ⟨rfl, rfl, rfl, rfl, rfl, rfl, rfl, rfl, rfl, rfl, ht⟩

theorem setF (d : Dev) {f : Field} (h : f ∈ L) (he : f.place ≠ 1024) (v : Nat) : Paced L d (d.setF f 0 v) :=
  ⟨rfl, rfl, rfl, rfl, rfl, rfl, rfl, rfl, rfl, rfl, .setF d (.inr ⟨(f, 0), List.mem_map_of_mem h, rfl⟩) he v⟩

theorem setDivider (d : Dev) (h : R.CEL_ARRAY_STATUS_DIVIDER ∈ L) {c : Nat} (hc : c < 1152) (v : Nat) : Paced L d (d.setF R.CEL_ARRAY_STATUS_DIVIDER c v) := by
  refine ⟨rfl, rfl, rfl, rfl, rfl, rfl, rfl, rfl, rfl, rfl, .setF d (.inl ⟨h, ?_⟩) (by decide) v⟩
  rw [Field.key_page (by decide)]
  have page : R.CEL_ARRAY_STATUS_DIVIDER.cls = 2 := rfl
  omega

/-- A field of the device that the step does not name. -/
theorem getF (h : Paced L d t) {f : Field} (hq : f.quiet = true) (hc : 3 ≤ f.cls) (hf : f.place ∉ L.map Field.place) :
    t.getF f 0 = d.getF f 0 := h.touches.getF hq (by decide) (not_powerHome hq hc hf)

theorem desig (h : Paced L d t) (c : Nat) : t.desig c = d.desig c := by rw [Dev.desig, Dev.desig, h.disabled, h.spares]
theorem held (h : Paced L d t) (c i : Nat) : t.held c i = d.held c i := by rw [Dev.held, Dev.held, Dev.actF, Dev.actF, Dev.actF, Dev.actF, h.acting]
theorem cell (h : Paced L d t) (c : Nat) : t.cell c = d.cell c := by rw [Dev.cell, Dev.cell, h.cells]

/-! ### The steps -/

theorem passMs (d : Dev) (p : PowerSample) : Paced [R.PWR_MC_RESETS_600S, R.PWR_MC_WDT_MS] d (d.passMs p) := by
  unfold Dev.passMs
  extract_lets _ _ _ _ e f g
  have he : Paced [R.PWR_MC_RESETS_600S, R.PWR_MC_WDT_MS] d e := ⟨rfl, rfl, rfl, rfl, rfl, rfl, rfl, rfl, rfl, rfl, .of_fields rfl⟩
  have hf : Paced [R.PWR_MC_RESETS_600S, R.PWR_MC_WDT_MS] e f := of_noise (.bump _ _ _ (by decide) _)
  have hg : Paced [R.PWR_MC_RESETS_600S, R.PWR_MC_WDT_MS] f g :=
    ite (of_noise (.bump _ _ _ (by decide) _)) (ite (of_noise (.bump _ _ _ (by decide) _)) (refl _))
  exact ((he.trans hf).trans hg).trans ((setF _ (by simp) (by decide) _).trans (setF _ (by simp) (by decide) _))

theorem noteErrors (d : Dev) (p : PowerSample) : Paced [] d (d.noteErrors p) := by
  unfold Dev.noteErrors
  extract_lets count
  have hc (e : Dev) (x : Page × Nat) : Noise e (count e x) :=
    .ite (.refl _) (have h := (Noise.setErr e x.1.cls x.1.inst 3).trans (.bump _ RAS 0 (by decide) _)
      .ite (h.trans (.bump _ _ _ (by decide) _)) h)
  exact (of_noise (.foldl hc _ d)).trans ⟨rfl, rfl, rfl, rfl, rfl, rfl, rfl, rfl, rfl, rfl, .of_fields rfl⟩

theorem showTemp (d : Dev) {f : Field} (h : f ∈ L) (he : f.place ≠ 1024) (v : Int) : Paced L d (d.showTemp f v) := by
  unfold Dev.showTemp
  dsimp only
  split
  · have drawn : Paced L d d.draw.2 := ⟨rfl, rfl, rfl, rfl, rfl, rfl, rfl, rfl, rfl, rfl, .of_fields rfl⟩
    exact drawn.trans (setF _ h he _)
  · exact setF d h he _

/-- The four temperatures that the registers show. -/
def temps : List Field := [R.PWR_TEMP_CD0, R.PWR_TEMP_CD1, R.PWR_TEMP_IOD, R.PWR_TEMP_STK]

theorem showTemps (d : Dev) (xs : List (Int × Int × Int)) : Paced temps d ((temps.zip xs).foldl (fun d x => d.showTemp x.1 x.2.1) d) :=
  foldl (fun e x hx => showTemp e (List.of_mem_zip (a := x.1) (b := x.2) hx).1
    ((show ∀ f ∈ temps, f.place ≠ 1024 by decide) _ (List.of_mem_zip (a := x.1) (b := x.2) hx).1) _) d

theorem showPower (d : Dev) (p : PowerSample) :
    Paced (temps ++ [R.PWR_INPUT_VIN, R.PWR_INPUT_IIN, R.PWR_POWER_P_1MS, R.PWR_POWER_P_1S]) d (d.showPower p)
      ∧ (d.showPower p).getF R.PWR_INPUT_VIN 0 = p.vin % 2 ^ 16 ∧ (d.showPower p).getF R.PWR_POWER_P_1MS 0 = p.p1ms % 2 ^ 16
      ∧ (d.showPower p).getF R.PWR_POWER_P_1S 0 = p.p1s % 2 ^ 16 ∧ (d.showPower p).pwr = d.pwr := by
  unfold Dev.showPower
  extract_lets e f
  have h := showTemps f (readings p)
  have pwr : ∀ (ys : List (Field × Int × Int × Int)) (g : Dev), (ys.foldl (fun d x => d.showTemp x.1 x.2.1) g).pwr = g.pwr := by
    intro ys
    induction ys with
    | nil => exact fun _ => rfl
    | cons y ys ih =>
      intro g
      rw [List.foldl_cons, ih, Dev.showTemp]
      split <;> rfl
  refine ⟨.trans ?_ (h.mono (by simp)), (h.getF (by decide) (by decide) (by decide)).trans ?_, (h.getF (by decide) (by decide) (by decide)).trans ?_,
    (h.getF (by decide) (by decide) (by decide)).trans ?_, pwr _ _⟩
  · exact (((setF _ (by simp) (by decide) _).trans (setF _ (by simp) (by decide) _)).trans (setF _ (by simp) (by decide) _)).trans
      (setF _ (by simp) (by decide) _)
  · simp (disch := decide) only [f, e, Dev.getF_setF_place, Dev.getF_setF_same]
    rfl
  · simp (disch := decide) only [f, e, Dev.getF_setF_place, Dev.getF_setF_same]
    rfl
  · simp only [f, Dev.getF_setF_same]
    rfl

theorem countPower (d : Dev) (p : PowerSample) : Paced [] d (d.countPower p)
    ∧ (d.countPower p).pwr.overMs = (if d.powerCap < p.p1ms then d.pwr.overMs + 1 else 0)
    ∧ (d.countPower p).pwr.coolMs = (if 100 * p.p1ms < 85 * d.powerCap ∧ ∀ x ∈ readings p, x.1 + 5 ≤ x.2.1 then d.pwr.coolMs + 1 else 0) := by
  unfold Dev.countPower
  extract_lets t above cool miss _ e
  have he : Paced [] d e := ⟨rfl, rfl, rfl, rfl, rfl, rfl, rfl, rfl, rfl, rfl, .of_fields rfl⟩
  have hot : e.pwr.overMs = if d.powerCap < p.p1ms then d.pwr.overMs + 1 else 0 := by
    simp only [e, above, decide_eq_true_eq]
  have cooled : e.pwr.coolMs = if 100 * p.p1ms < 85 * d.powerCap ∧ ∀ x ∈ readings p, x.1 + 5 ≤ x.2.1 then d.pwr.coolMs + 1 else 0 := by
    simp only [e, cool, Bool.and_eq_true, decide_eq_true_eq, List.all_eq_true]
  split
  · have noise := Noise.setErr e PWR 0 19
    obtain ⟨_, _, _, heq⟩ := noise.reports
    exact ⟨he.trans (of_noise noise), (congrArg (·.pwr.overMs) heq).trans hot, (congrArg (·.pwr.coolMs) heq).trans cooled⟩
  · exact ⟨he, hot, cooled⟩

theorem spreadDivider (d : Dev) : Paced [R.PWR_CLK_STATUS_LAGGING, R.CEL_ARRAY_STATUS_DIVIDER] d d.spreadDivider := by
  unfold Dev.spreadDivider
  extract_lets t idle e
  have he : Paced [R.PWR_CLK_STATUS_LAGGING, R.CEL_ARRAY_STATUS_DIVIDER] d e :=
    foldl (fun g c hc => setDivider g (by simp) (List.mem_range.1 (List.mem_of_mem_filter hc)) _) d
  exact he.trans (setF _ (by simp) (by decide) _)

/-- The fields of a new target. -/
def targets : List Field := [R.CEL_ARRAY_STATUS_DIVIDER, R.PWR_CLK_STATUS_LAGGING, R.PWR_CLK_STATUS_TARGET, R.PWR_CLK_STATUS_FORCED]

theorem newTarget (d : Dev) (n forced : Nat) : Paced Paced.targets d (d.newTarget n forced)
    ∧ (d.newTarget n forced).getF R.PWR_CLK_STATUS_TARGET 0 = n % 8 ∧ (d.newTarget n forced).pwr = d.pwr := by
  unfold Dev.newTarget
  extract_lets e f
  have set : Paced targets d ((d.setF R.PWR_CLK_STATUS_TARGET 0 n).setF R.PWR_CLK_STATUS_FORCED 0 forced) :=
    (setF _ (by simp [targets]) (by decide) _).trans (setF _ (by simp [targets]) (by decide) _)
  have hf : Noise ((d.setF R.PWR_CLK_STATUS_TARGET 0 n).setF R.PWR_CLK_STATUS_FORCED 0 forced) (f.policyTaken PWR 0) :=
    ((Noise.bump _ PWR 0 (k := 3) (by decide) 1).trans (.ite (.setErr ..) (.refl _))).trans (.policyTaken ..)
  have spread := spreadDivider (f.policyTaken PWR 0)
  refine ⟨(set.trans (of_noise hf)).trans (spread.mono (by simp [targets])), ?_, ?_⟩
  · rw [spread.getF (by decide) (by decide) (by decide), hf.getF (by decide) (by decide), Dev.getF_setF_place (by decide), Dev.getF_setF_same]
    rfl
  · rw [Dev.pwr_spreadDivider]
    obtain ⟨_, _, _, heq⟩ := hf.reports
    exact congrArg (·.pwr) heq

end Paced

/-! ### The dividers of cells -/

/-- Cells that take up a divider. -/
theorem Dev.getF_dividers (cs : List Nat) (d : Dev) (n c : Nat) :
    (cs.foldl (fun d c => d.setF R.CEL_ARRAY_STATUS_DIVIDER c n) d).getF R.CEL_ARRAY_STATUS_DIVIDER c
      = if c ∈ cs then n % 8 else d.getF R.CEL_ARRAY_STATUS_DIVIDER c := by
  induction cs generalizing d with
  | nil => rfl
  | cons x cs ih =>
    rw [List.foldl_cons, ih]
    by_cases hc : c ∈ cs
    · rw [if_pos hc, if_pos (List.mem_cons_of_mem _ hc)]
    · rw [if_neg hc]
      by_cases hx : c = x
      · subst hx
        rw [if_pos List.mem_cons_self, Dev.getF_setF_same]
        rfl
      · rw [if_neg (by simp [hx, hc]), Dev.getF_setF_page _ _ hx]

/-- What a cell without work has not yet taken up. -/
def Dev.idleCell (d : Dev) (c : Nat) : Bool :=
  decide (d.desig c ≠ 2) && (d.cell c).passes.isEmpty && decide (d.getF R.CEL_ARRAY_STATUS_DIVIDER c ≠ d.getF R.PWR_CLK_STATUS_TARGET 0)

/-- The device once its cells without work have the target. -/
def Dev.dividersSpread (d : Dev) : Dev :=
  ((List.range 1152).filter d.idleCell).foldl (fun e c => e.setF R.CEL_ARRAY_STATUS_DIVIDER c (d.getF R.PWR_CLK_STATUS_TARGET 0)) d

theorem Dev.spreadDivider_eq (d : Dev) : d.spreadDivider = d.dividersSpread.setF R.PWR_CLK_STATUS_LAGGING 0 d.dividersSpread.lagging := rfl

theorem Paced.dividersSpread (d : Dev) : Paced [R.CEL_ARRAY_STATUS_DIVIDER] d d.dividersSpread :=
  Paced.foldl (fun g _ hc => Paced.setDivider g (by simp) (List.mem_range.1 (List.mem_of_mem_filter hc)) _) d

theorem Dev.mem_lagging (d : Dev) {c : Nat} (hc : c < 1152) :
    c ∈ (List.range 1152).filter (fun c => decide (d.dividersSpread.desig c ≠ 2)
        && decide (d.dividersSpread.getF R.CEL_ARRAY_STATUS_DIVIDER c ≠ d.dividersSpread.getF R.PWR_CLK_STATUS_TARGET 0))
      ↔ d.desig c ≠ 2 ∧ (if d.idleCell c = true then d.getF R.PWR_CLK_STATUS_TARGET 0 % 8 else d.getF R.CEL_ARRAY_STATUS_DIVIDER c)
        ≠ d.getF R.PWR_CLK_STATUS_TARGET 0 := by
  have spread := Paced.dividersSpread d
  have target : d.dividersSpread.getF R.PWR_CLK_STATUS_TARGET 0 = d.getF R.PWR_CLK_STATUS_TARGET 0 := spread.getF (by decide) (by decide) (by decide)
  have divider : d.dividersSpread.getF R.CEL_ARRAY_STATUS_DIVIDER c
      = if d.idleCell c = true then d.getF R.PWR_CLK_STATUS_TARGET 0 % 8 else d.getF R.CEL_ARRAY_STATUS_DIVIDER c :=
    (Dev.getF_dividers ..).trans (if_congr (by simp [hc]) rfl rfl)
  simp only [List.mem_filter, List.mem_range, Bool.and_eq_true, decide_eq_true_eq, spread.desig, target, divider]
  exact ⟨fun h => h.2, fun h => ⟨hc, h⟩⟩

/-- With no pass in flight no cell lags. -/
theorem Dev.spread_settles (d : Dev) (h : ∀ c, (d.cell c).passes = []) (ht : d.getF R.PWR_CLK_STATUS_TARGET 0 < 8) :
    d.spreadDivider.getF R.PWR_CLK_STATUS_LAGGING 0 = 0 := by
  have none : d.dividersSpread.lagging = 0 := by
    refine List.length_eq_zero_iff.2 (List.eq_nil_iff_forall_not_mem.2 fun c hc => ?_)
    obtain ⟨hd, hne⟩ := (d.mem_lagging (List.mem_range.1 (List.mem_of_mem_filter hc))).1 hc
    split at hne
    · exact hne (Nat.mod_eq_of_lt ht)
    · next hi => exact hi (by simp [Dev.idleCell, hd, h c, hne])
  rw [Dev.spreadDivider_eq, Dev.getF_setF_same, none]
  rfl

/-- A cell with a pass in flight at another divider lags. -/
theorem Dev.spread_lags (d : Dev) {c : Nat} (hc : c < 1152) (hd : d.desig c ≠ 2) (hp : (d.cell c).passes ≠ [])
    (hne : d.getF R.CEL_ARRAY_STATUS_DIVIDER c ≠ d.getF R.PWR_CLK_STATUS_TARGET 0) : d.spreadDivider.getF R.PWR_CLK_STATUS_LAGGING 0 ≠ 0 := by
  have busy : d.idleCell c = false := by simp [Dev.idleCell, hp]
  have some : 0 < d.dividersSpread.lagging :=
    List.length_pos_of_mem ((d.mem_lagging hc).2 ⟨hd, by rw [if_neg (by simp [busy])]; exact hne⟩)
  have most : d.dividersSpread.lagging ≤ 1152 := (List.length_filter_le ..).trans (List.length_range.le)
  rw [Dev.spreadDivider_eq, Dev.getF_setF_of_lt _ (Nat.lt_of_le_of_lt most (by decide))]
  omega

/-! ### The target -/

theorem Paced.raiseTarget (d : Dev) : Paced targets d d.raiseTarget ∧ d.raiseTarget.getF R.PWR_CLK_STATUS_TARGET 0 = d.divMin % 8
    ∧ d.raiseTarget.pwr = d.pwr := by
  have hf : Noise (d.setF R.PWR_CLK_STATUS_TARGET 0 d.divMin) ((d.setF R.PWR_CLK_STATUS_TARGET 0 d.divMin).bump PWR 0 3 1) :=
    .bump _ _ _ (by decide) _
  have spread := Paced.spreadDivider ((d.setF R.PWR_CLK_STATUS_TARGET 0 d.divMin).bump PWR 0 3 1)
  refine ⟨((Paced.setF _ (by simp [targets]) (by decide) _).trans (Paced.of_noise hf)).trans (spread.mono (by simp [targets])), ?_, ?_⟩
  · rw [Dev.raiseTarget, spread.getF (by decide) (by decide) (by decide), hf.getF (by decide) (by decide), Dev.getF_setF_same]
    rfl
  · exact Dev.pwr_spreadDivider _

theorem Dev.divMin_bounds (d : Dev) : 4 ≤ d.divMin ∧ d.divMin ≤ 6 := by
  simp only [Dev.divMin]
  omega

section
variable (d : Dev) (p : PowerSample)

theorem Dev.moveTarget_spec : Paced Paced.targets d (d.moveTarget p) ∧ (d.moveTarget p).pwr = d.pwr := by
  have held : Noise d (d.policyWithheld PWR 0) := .policyWithheld ..
  have raised := Paced.raiseTarget d
  unfold Dev.moveTarget
  extract_lets t
  have new (n forced : Nat) : Paced Paced.targets d (d.newTarget n forced) ∧ (d.newTarget n forced).pwr = d.pwr :=
    ⟨(Paced.newTarget d n forced).1, (Paced.newTarget d n forced).2.2⟩
  split
  · exact ⟨.refl d, rfl⟩
  · split
    · split
      · exact new ..
      · exact ⟨.refl d, rfl⟩
    · split
      · split
        · obtain ⟨_, _, _, heq⟩ := held.reports
          exact ⟨.of_noise held, congrArg (·.pwr) heq⟩
        · exact new ..
      · split
        · exact ⟨raised.1, raised.2.2⟩
        · exact ⟨.refl d, rfl⟩

theorem Dev.moveTarget_lags (h : d.getF R.PWR_CLK_STATUS_LAGGING 0 ≠ 0) : d.moveTarget p = d := if_pos h

variable {d p} (hl : d.getF R.PWR_CLK_STATUS_LAGGING 0 = 0) (ht : d.getF R.PWR_CLK_STATUS_TARGET 0 ≤ 6)
include hl ht

/-- A hot group or 10 ms above the cap. -/
theorem Dev.moveTarget_raises (h : (readings p).any (fun x => decide (x.2.1 ≤ x.1)) = true ∨ 10 ≤ d.pwr.overMs) :
    (d.moveTarget p).getF R.PWR_CLK_STATUS_TARGET 0 = max (min 6 (d.getF R.PWR_CLK_STATUS_TARGET 0 + 1)) d.divMin := by
  have bounds := d.divMin_bounds
  unfold Dev.moveTarget
  dsimp only
  rw [if_neg (by omega), if_pos (by rcases h with h | h <;> simp [h])]
  split
  · rw [(Paced.newTarget ..).2.1, Nat.mod_eq_of_lt (by omega)]
    congr 1
    omega
  · omega

/-- A second of cool readings. -/
theorem Dev.moveTarget_lowers (h : (readings p).any (fun x => decide (x.2.1 ≤ x.1)) = false) (ho : d.pwr.overMs < 10)
    (hc : 1000 ≤ d.pwr.coolMs) (hm : d.divMin < d.getF R.PWR_CLK_STATUS_TARGET 0) (hh : d.held PWR 0 = false) :
    (d.moveTarget p).getF R.PWR_CLK_STATUS_TARGET 0 = d.getF R.PWR_CLK_STATUS_TARGET 0 - 1 := by
  unfold Dev.moveTarget
  dsimp only
  rw [if_neg (by omega), if_neg (by simp [h]; omega), if_pos ⟨hc, hm⟩, if_neg (by simp [hh]), (Paced.newTarget ..).2.1, Nat.mod_eq_of_lt (by omega)]

omit ht in
/-- Neither. -/
theorem Dev.moveTarget_stays (h : (readings p).any (fun x => decide (x.2.1 ≤ x.1)) = false) (ho : d.pwr.overMs < 10)
    (hc : d.pwr.coolMs < 1000 ∨ d.getF R.PWR_CLK_STATUS_TARGET 0 ≤ d.divMin ∨ d.held PWR 0 = true) :
    (d.moveTarget p).getF R.PWR_CLK_STATUS_TARGET 0 = max (d.getF R.PWR_CLK_STATUS_TARGET 0) d.divMin := by
  have bounds := d.divMin_bounds
  unfold Dev.moveTarget
  dsimp only
  rw [if_neg (by omega), if_neg (by simp [h]; omega)]
  split
  · next hm =>
    obtain ⟨cool, low⟩ := hm
    have held : d.held PWR 0 = true := by
      rcases hc with h | h | h
      · omega
      · omega
      · exact h
    rw [if_pos held, (Noise.policyWithheld ..).getF (by decide) (by decide)]
    omega
  · split
    · rw [(Paced.raiseTarget ..).2.1, Nat.mod_eq_of_lt (by omega)]
      omega
    · omega

end

/-! ### A tick -/

/-- The device of a tick before its policy decides: a millisecond has passed, what was met and measured shows and is counted. -/
def Dev.tickCounted (d : Dev) (p : PowerSample) : Dev := (((d.passMs p).ageRows.ageFaults.noteErrors p).showPower p).countPower p

theorem Dev.policyTick_eq (d : Dev) (p : PowerSample) : d.policyTick p = ((d.handoverDone.tickCounted p).spreadDivider).moveTarget p := rfl

/-- The fields that a tick shows before its policy decides. -/
def tickShown : List Field := [R.PWR_MC_RESETS_600S, R.PWR_MC_WDT_MS] ++ (Paced.temps ++ [R.PWR_INPUT_VIN, R.PWR_INPUT_IIN, R.PWR_POWER_P_1MS, R.PWR_POWER_P_1S])

/-- Corrected errors show on their pages. -/
theorem Dev.errBit_noteErrors (d : Dev) (p : PowerSample) {x : Page × Nat} (hx : x ∈ p.corrected) (he : pageExists x.1.cls x.1.inst = true)
    (hn : x.2 ≠ 0) : (d.noteErrors p).errBit x.1.cls x.1.inst 3 = true := by
  unfold Dev.noteErrors
  extract_lets count
  have hc (e : Dev) (y : Page × Nat) : Noise e (count e y) :=
    .ite (.refl _) (have h := (Noise.setErr e y.1.cls y.1.inst 3).trans (.bump _ RAS 0 (by decide) _)
      .ite (h.trans (.bump _ _ _ (by decide) _)) h)
  have met (e : Dev) : (count e x).errBit x.1.cls x.1.inst 3 = true := by
    unfold count
    dsimp only
    rw [if_neg (by simp [he, hn])]
    have h := (Noise.bump (e.setErr x.1.cls x.1.inst 3) RAS 0 (k := 0) (by decide) (x.2 - 1)).errs x.1.cls x.1.inst 3 (by decide)
      (Noise.errBit_setErr _ _ _ (by decide))
    split
    · exact (Noise.bump _ _ _ (by decide) _).errs _ _ _ (by decide) h
    · exact h
  obtain ⟨before, after, split⟩ := List.append_of_mem hx
  have all : (p.corrected.foldl count d).errBit x.1.cls x.1.inst 3 = true := by
    rw [split, List.foldl_append, List.foldl_cons]
    exact (Noise.foldl hc after _).errs _ _ _ (by decide) (met _)
  exact all

theorem Dev.pwr_noteErrors (d : Dev) (p : PowerSample) : (d.noteErrors p).pwr = d.pwr := by
  unfold Dev.noteErrors
  extract_lets count
  have hc (e : Dev) (x : Page × Nat) : Noise e (count e x) :=
    .ite (.refl _) (have h := (Noise.setErr e x.1.cls x.1.inst 3).trans (.bump _ RAS 0 (by decide) _)
      .ite (h.trans (.bump _ _ _ (by decide) _)) h)
  obtain ⟨_, _, _, heq⟩ := (Noise.foldl hc p.corrected d).reports
  exact congrArg (·.pwr) heq

theorem Dev.passMs_counts (d : Dev) (p : PowerSample) : (d.passMs p).pwr.overMs = d.pwr.overMs ∧ (d.passMs p).pwr.coolMs = d.pwr.coolMs := by
  unfold Dev.passMs
  extract_lets _ _ _ _ e f g
  have he : e.pwr.overMs = d.pwr.overMs ∧ e.pwr.coolMs = d.pwr.coolMs := ⟨rfl, rfl⟩
  have hf : f.pwr = e.pwr := rfl
  have hg : g.pwr = f.pwr := by
    unfold g
    split
    · rfl
    · split <;> rfl
  clear_value g f e
  show g.pwr.overMs = _ ∧ g.pwr.coolMs = _
  rw [hg, hf]
  exact he

theorem Dev.tickCounted_spec (d : Dev) (p : PowerSample) :
    Paced tickShown d (d.tickCounted p)
      ∧ (d.tickCounted p).pwr.overMs = (if d.powerCap < p.p1ms then d.pwr.overMs + 1 else 0)
      ∧ (d.tickCounted p).pwr.coolMs = (if 100 * p.p1ms < 85 * d.powerCap ∧ ∀ x ∈ readings p, x.1 + 5 ≤ x.2.1 then d.pwr.coolMs + 1 else 0)
      ∧ (d.tickCounted p).getF R.PWR_INPUT_VIN 0 = p.vin % 2 ^ 16 ∧ (d.tickCounted p).getF R.PWR_POWER_P_1MS 0 = p.p1ms % 2 ^ 16
      ∧ (d.tickCounted p).getF R.PWR_POWER_P_1S 0 = p.p1s % 2 ^ 16
      ∧ ∀ x ∈ p.corrected, pageExists x.1.cls x.1.inst = true → x.2 ≠ 0 → (d.tickCounted p).errBit x.1.cls x.1.inst 3 = true := by
  have aged (e : Dev) : Paced [] e e.ageRows.ageFaults := ⟨rfl, rfl, rfl, rfl, rfl, rfl, rfl, rfl, rfl, rfl, .of_fields rfl⟩
  have passed := ((Paced.passMs d p).trans ((aged (d.passMs p)).mono (List.nil_subset _))).trans
    ((Paced.noteErrors (d.passMs p).ageRows.ageFaults p).mono (List.nil_subset _))
  obtain ⟨shown, vin, p1ms, p1s, pwr⟩ := Paced.showPower ((d.passMs p).ageRows.ageFaults.noteErrors p) p
  obtain ⟨counted, over', cool⟩ := Paced.countPower (((d.passMs p).ageRows.ageFaults.noteErrors p).showPower p) p
  have counts := d.passMs_counts p
  have before : (((d.passMs p).ageRows.ageFaults.noteErrors p).showPower p).pwr = (d.passMs p).pwr := pwr.trans (Dev.pwr_noteErrors ..)
  have all : Paced tickShown d (((d.passMs p).ageRows.ageFaults.noteErrors p).showPower p) :=
    (passed.mono (List.subset_append_left ..)).trans (shown.mono (List.subset_append_right ..))
  have cap : (((d.passMs p).ageRows.ageFaults.noteErrors p).showPower p).powerCap = d.powerCap := by
    rw [Dev.powerCap, Dev.powerCap, all.getF (by decide) (by decide) (by decide)]
  rw [cap, before, counts.1] at over'
  rw [cap, before, counts.2] at cool
  refine ⟨all.trans (counted.mono (List.nil_subset _)), over', cool, (counted.getF (by decide) (by decide) (by decide)).trans vin,
    (counted.getF (by decide) (by decide) (by decide)).trans p1ms, (counted.getF (by decide) (by decide) (by decide)).trans p1s,
    fun x hx he hn => ?_⟩
  exact counted.touches.errs _ _ _ (by decide) (shown.touches.errs _ _ _ (by decide) (Dev.errBit_noteErrors _ p hx he hn))

/-- The fields that a tick shows. -/
def tickFields : List Field := tickShown ++ Paced.targets

/-- The device of a tick, which no handover awaits. -/
theorem Dev.policyTick_spec (d : Dev) (p : PowerSample) :
    let t := ((d.tickCounted p).spreadDivider).moveTarget p
    Paced tickFields d t
      ∧ t.getF R.PWR_INPUT_VIN 0 = p.vin % 2 ^ 16 ∧ t.getF R.PWR_POWER_P_1MS 0 = p.p1ms % 2 ^ 16
      ∧ t.getF R.PWR_POWER_P_1S 0 = p.p1s % 2 ^ 16
      ∧ t.pwr.overMs = (if d.powerCap < p.p1ms then d.pwr.overMs + 1 else 0)
      ∧ t.pwr.coolMs = (if 100 * p.p1ms < 85 * d.powerCap ∧ ∀ x ∈ readings p, x.1 + 5 ≤ x.2.1 then d.pwr.coolMs + 1 else 0)
      ∧ ∀ x ∈ p.corrected, pageExists x.1.cls x.1.inst = true → x.2 ≠ 0 → t.errBit x.1.cls x.1.inst 3 = true := by
  intro t
  obtain ⟨counted, hot, cool, vin, p1ms, p1s, errs⟩ := d.tickCounted_spec p
  obtain ⟨moved, pwr⟩ := ((d.tickCounted p).spreadDivider).moveTarget_spec p
  have last : Paced Paced.targets (d.tickCounted p) t := ((Paced.spreadDivider _).mono (by simp [Paced.targets])).trans moved
  have kept : t.pwr = (d.tickCounted p).pwr := pwr.trans (Dev.pwr_spreadDivider _)
  refine ⟨(counted.mono (List.subset_append_left ..)).trans (last.mono (List.subset_append_right ..)),
    (last.getF (by decide) (by decide) (by decide)).trans vin, (last.getF (by decide) (by decide) (by decide)).trans p1ms,
    (last.getF (by decide) (by decide) (by decide)).trans p1s, (congrArg (·.overMs) kept).trans hot, (congrArg (·.coolMs) kept).trans cool,
    fun x hx he hn => last.touches.errs _ _ _ (by decide) (errs x hx he hn)⟩

end Sys2Proof.Machine

namespace Sys2Proof

open Machine

section
variable {s : State} {p : PowerSample} (hu : s.dev.up = true) (hb : s.dev.pwr.booted = true) (hf : s.dev.getF R.PWR_FW_STATUS_BOOT 0 ≠ 2)
include hu hb hf

/-- A tick of a device that has booted. -/
theorem policyTick_runs (ht : (readings p).any (fun x => decide (x.2.2 ≤ x.1)) = false) :
    exec (.powerPolicyTick p) s = .next { s with dev := s.dev.policyTick p } :=
  (if_pos (by simp [hu, hb, hf])).trans (if_neg (by simp only [ht]; decide))

theorem policyTick_trips (ht : (readings p).any (fun x => decide (x.2.2 ≤ x.1)) = true) : exec (.powerPolicyTick p) s = s.trip :=
  (if_pos (by simp [hu, hb, hf])).trans (if_pos ht)

end

/-- Settles O53: the tick counts, then its policy decides. -/
theorem policyTicksSetTheDivider : Obligations.PolicyTicksSetTheDivider := by
  unfold Obligations.PolicyTicksSetTheDivider
  intro s p hu hb hf old cap tripping hot above cool ticks target
  have runs (q : Dev → Prop) (ht : tripping = false) (hh : s.dev.pwr.handover = false)
      (hq : q (((s.dev.tickCounted p).spreadDivider).moveTarget p)) : ticks q := by
    obtain ⟨paced, vin, p1ms, p1s, over', cool', errs⟩ := s.dev.policyTick_spec p
    have tick : s.dev.policyTick p = ((s.dev.tickCounted p).spreadDivider).moveTarget p := by
      rw [Dev.policyTick_eq, Dev.handoverDone, if_neg (by simp [hh])]
    exact .of_next ((policyTick_runs hu hb hf ht).trans (by rw [tick]))
      ⟨hq, vin, p1ms, p1s, over', cool', paced.bytes, paced.valid, paced.poison, errs, paced.cells, paced.fab⟩
  obtain ⟨counted, over', cool', -⟩ := s.dev.tickCounted_spec p
  have paced : Paced (tickShown ++ [R.PWR_CLK_STATUS_LAGGING, R.CEL_ARRAY_STATUS_DIVIDER]) s.dev (s.dev.tickCounted p).spreadDivider :=
    (counted.mono (List.subset_append_left ..)).trans ((Paced.spreadDivider _).mono (List.subset_append_right ..))
  have pwr := (s.dev.tickCounted p).pwr_spreadDivider
  have target0 : (s.dev.tickCounted p).getF R.PWR_CLK_STATUS_TARGET 0 = old := counted.getF (by decide) (by decide) (by decide)
  have target1 : (s.dev.tickCounted p).spreadDivider.getF R.PWR_CLK_STATUS_TARGET 0 = old := paced.getF (by decide) (by decide) (by decide)
  have divMin : (s.dev.tickCounted p).spreadDivider.divMin = s.dev.divMin := by
    rw [Dev.divMin, Dev.divMin, paced.getF (by decide) (by decide) (by decide)]
  have overMs : (s.dev.tickCounted p).spreadDivider.pwr.overMs = above := (congrArg (·.overMs) pwr).trans over'
  have coolMs : (s.dev.tickCounted p).spreadDivider.pwr.coolMs = cool := (congrArg (·.coolMs) pwr).trans cool'
  refine ⟨fun ht => trips s _ (policyTick_trips hu hb hf ht) (by simpa using (Bool.and_eq_true_iff.1 hu).1), fun ht hh hc h4 h6 => ?_,
    fun ht hh hc => runs _ ht hh ?_⟩
  · have settled := (s.dev.tickCounted p).spread_settles (fun c => by rw [counted.cell]; exact hc c) (by rw [target0]; omega)
    have most : (s.dev.tickCounted p).spreadDivider.getF R.PWR_CLK_STATUS_TARGET 0 ≤ 6 := by rw [target1]; exact h6
    refine ⟨fun h => runs _ ht hh ?_, fun h ho hl hm hheld => runs _ ht hh ?_, fun h ho hl => runs _ ht hh ?_⟩
    · have moved := Dev.moveTarget_raises settled most (p := p) (by rw [overMs]; exact h)
      rwa [target1, divMin] at moved
    · have moved := Dev.moveTarget_lowers settled most h (by rw [overMs]; exact ho) (by rw [coolMs]; exact hl) (by rw [divMin, target1]; exact hm)
        (by rw [paced.held]; exact hheld)
      rwa [target1] at moved
    · have moved := Dev.moveTarget_stays settled h (by rw [overMs]; exact ho) (by rw [coolMs, target1, divMin, paced.held]; exact hl)
      rwa [target1, divMin] at moved
  · obtain ⟨c, hc, hd, hp, hne⟩ := hc
    have divider : (s.dev.tickCounted p).getF R.CEL_ARRAY_STATUS_DIVIDER c = s.dev.getF R.CEL_ARRAY_STATUS_DIVIDER c := by
      refine counted.touches.getF (by decide) (by omega) ?_
      rintro (⟨h, -⟩ | h)
      · exact absurd h (by decide)
      · exact not_homes_map (by decide) 0 c h
    have lags := (s.dev.tickCounted p).spread_lags hc (by rw [counted.desig]; exact hd) (by rw [counted.cell]; exact hp)
      (by rw [divider, target0]; exact hne)
    rw [Dev.moveTarget_lags _ p lags]
    exact target1

end Sys2Proof
end

