-- ==== Sys2Proof/Proofs/Updates.lean ====
section
/-! Firmware updates, activations and the handover of MCF (R463 to R477). -/

namespace Sys2Proof.Machine

/-! ### Reads of memory without wrong bits -/

/-- A read that meets no wrong bits reports at most: memory, the mirror's state and the flash stay. -/
theorem Dev.noteRead_sound {d : Dev} {a n : Nat} (h : d.flippedIn a n = []) : Alike d (d.noteRead a n) := by
  unfold Dev.noteRead
  extract_lets bad e f
  have he : Noise d e := .foldl (fun _ _ => .bump _ _ _ (by decide) _) _ d
  have hf : f = e := by
    have none : e.flippedIn a n = [] := by rw [Dev.flippedIn, he.reports.mem]; exact h
    unfold f
    rw [Dev.meetRange, none]
    rfl
  rw [hf]
  clear_value e
  refine (Alike.of_noise he).trans ?_
  clear hf f he
  induction bad generalizing e with
  | nil => exact .refl e
  | cons w bad ih => exact (Alike.poisonRead e (w * 8)).trans (ih _)

/-! ### The running images -/

theorem OnlyFields.refl (d : Dev) : OnlyFields d d := rfl

theorem OnlyFields.foldl {α : Type} {f : Dev → α → Dev} (h : ∀ e x, OnlyFields e (f e x)) (xs : List α) (d : Dev) :
    OnlyFields d (xs.foldl f d) := by
  induction xs generalizing d with
  | nil => exact refl d
  | cons x xs ih => exact (h d x).trans (ih _)

theorem OnlyFields.showFirmware (d : Dev) (ims : List FwImage) : OnlyFields d (d.showFirmware ims) := by
  unfold Dev.showFirmware
  extract_lets im e f g k
  have he : OnlyFields d e := .foldl (fun _ _ => .setF ..) _ d
  have hf : OnlyFields e f := (OnlyFields.setF ..).trans (.setF ..)
  have hg : OnlyFields f g := (OnlyFields.setF ..).trans (.setF ..)
  have hk : OnlyFields g k := (OnlyFields.setF ..).trans (.setF ..)
  exact (((he.trans hf).trans hg).trans hk).trans (.setF ..)

/-- The selector may change with the bank that runs. -/
theorem Dev.preferSelected_eq (d : Dev) (t b : Nat) :
    d.preferSelected t b = { d with nv := { d.nv with selectors := (d.preferSelected t b).nv.selectors } } := by
  unfold Dev.preferSelected
  split <;> rfl

theorem Dev.runBank_spec (d : Dev) (t b : Nat) :
    (d.runBank t b).pwr = { d.pwr with running := listSet d.pwr.running (t - 1) b, written := mdel t d.pwr.written }
      ∧ (d.runBank t b).mem = d.mem ∧ (d.runBank t b).cells = d.cells := by
  unfold Dev.runBank
  extract_lets _ e
  have h := OnlyFields.showFirmware e e.runningImages
  rw [Dev.preferSelected_eq]
  refine ⟨congrArg (·.pwr) h, congrArg (·.mem) h, congrArg (·.cells) h⟩

/-! ### Ends -/

theorem Dev.updateEnds_spec (d : Dev) {code : Nat} (hc : code < 16) :
    (d.updateEnds code).getF R.PWR_UPD_STATUS_CODE 0 = code ∧ (d.updateEnds code).pwr = { d.pwr with update := none }
      ∧ (d.updateEnds code).nv = d.nv ∧ (d.updateEnds code).mem = d.mem ∧ (d.updateEnds code).cells = d.cells
      ∧ (code ≠ 2 → (d.updateEnds code).errBit PWR 0 20 = true) := by
  have shown : (Dev.setF { d with pwr := { d.pwr with update := none } } R.PWR_UPD_STATUS_CODE 0 code).getF R.PWR_UPD_STATUS_CODE 0 = code :=
    Dev.getF_setF_of_lt _ hc 0
  unfold Dev.updateEnds
  dsimp only
  split
  · next h => exact ⟨(Dev.getF_setF_place (by decide) ..).trans shown, rfl, rfl, rfl, rfl, fun c => absurd h c⟩
  · have noise := Noise.setErr (Dev.setF { d with pwr := { d.pwr with update := none } } R.PWR_UPD_STATUS_CODE 0 code) PWR 0 20
    have err := Noise.errBit_setErr (Dev.setF { d with pwr := { d.pwr with update := none } } R.PWR_UPD_STATUS_CODE 0 code) PWR 0 (b := 20) (by decide)
    have code' := (noise.getF (f := R.PWR_UPD_STATUS_CODE) (by decide) (i := 0) (by decide)).trans shown
    obtain ⟨_, _, _, heq⟩ := noise.reports
    exact ⟨code', congrArg (·.pwr) heq, congrArg (·.nv) heq, congrArg (·.mem) heq, congrArg (·.cells) heq, fun _ => err⟩

theorem Dev.activationEnds_code (d : Dev) {code : Nat} (hc : code < 16) : (d.activationEnds code).getF R.PWR_UPD_STATUS_CODE 0 = code :=
  Dev.getF_setF_of_lt _ hc 0

theorem Dev.activationEnds_kept (d : Dev) (code : Nat) :
    (d.activationEnds code).pwr.running = d.pwr.running ∧ (d.activationEnds code).pwr.handover = false
      ∧ (d.activationEnds code).mem = d.mem ∧ (d.activationEnds code).cells = d.cells := ⟨rfl, rfl, rfl, rfl⟩

theorem Dev.activateCode_lt (d : Dev) (t : Nat) (im : FwImage) : d.activateCode t im < 16 := by
  unfold Dev.activateCode
  dsimp only
  repeat' split
  all_goals omega

theorem Dev.updateCode_lt (d : Dev) (t : Nat) (window : Bool) (im : FwImage) : d.updateCode t window im < 16 := by
  unfold Dev.updateCode
  repeat' split
  all_goals omega

theorem Dev.updateCode_ne (d : Dev) (t : Nat) (window : Bool) (im : FwImage) : d.updateCode t window im ≠ 2 := by
  unfold Dev.updateCode
  repeat' split
  all_goals omega

theorem Dev.activationRefused_spec (d : Dev) (t : Nat) {code : Nat} (hc : code < 16) :
    (d.activationRefused t code).getF R.PWR_UPD_STATUS_CODE 0 = code ∧ (d.activationRefused t code).pwr = d.pwr
      ∧ (d.activationRefused t code).mem = d.mem ∧ (d.activationRefused t code).cells = d.cells := by
  have shown : (d.setF R.PWR_UPD_STATUS_CODE 0 code).getF R.PWR_UPD_STATUS_CODE 0 = code := Dev.getF_setF_of_lt _ hc 0
  unfold Dev.activationRefused
  dsimp only
  split
  · have noise : Noise (d.setF R.PWR_UPD_STATUS_CODE 0 code)
        ((List.range 8).foldl (fun d i => d.setErr MED i 22) (d.setF R.PWR_UPD_STATUS_CODE 0 code)) := .foldl (fun _ _ => .setErr ..) _ _
    have code' := (noise.getF (f := R.PWR_UPD_STATUS_CODE) (by decide) (i := 0) (by decide)).trans shown
    obtain ⟨_, _, _, heq⟩ := noise.reports
    exact ⟨code', congrArg (·.pwr) heq, congrArg (·.mem) heq, congrArg (·.cells) heq⟩
  · exact ⟨shown, rfl, rfl, rfl⟩

end Sys2Proof.Machine

namespace Sys2Proof.Machine

/-- The device with an image in the bank of a type. -/
def Dev.holdImage (d : Dev) (t b : Nat) (im : FwImage) : Dev :=
  { d with nv := { d.nv with banks := mput (2 * t + b) im d.nv.banks }, pwr := { d.pwr with written := mput t b d.pwr.written } }

/-- The device with no image in the bank of a type. -/
def Dev.dropImage (d : Dev) (t b : Nat) : Dev :=
  { d with nv := { d.nv with banks := mdel (2 * t + b) d.nv.banks }, pwr := { d.pwr with written := mdel t d.pwr.written } }

theorem Dev.programBank_spoils (d : Dev) (t b : Nat) {im : FwImage} {good : Bool} (h : imageFits t im = false ∨ good = false) :
    d.programBank t b im good = (false, d.dropImage t b) := if_neg (by rcases h with h | h <;> simp [h])

theorem Dev.programBank_fits (d : Dev) (t b : Nat) {im : FwImage} (h : imageFits t im = true) :
    d.programBank t b im true = (true, (d.holdImage t b im).bump PWR 0 7 (4096 + im.length)) := if_pos (by simp [h])

/-- The device whose new MCF waits for its handover. -/
def Dev.askHandover (d : Dev) : Dev := { d with pwr := { d.pwr with update := some (.activate 1), handAsk := some d.step } }

theorem Dev.askHandover_spec (d : Dev) :
    let t := d.askHandover.setF R.PWR_UPD_STATUS_CODE 0 1
    t.pwr.update = some (.activate 1) ∧ t.pwr.handAsk = some d.step ∧ t.getF R.PWR_UPD_STATUS_CODE 0 = 1 ∧ t.mem = d.mem
      ∧ t.cells = d.cells ∧ t.pwr.running = d.pwr.running := by
  refine ⟨rfl, rfl, ?_, rfl, rfl, rfl⟩
  generalize d.askHandover = e
  exact Dev.getF_setF_of_lt _ (by decide) 0

/-- The first tick of a new MCF. -/
theorem Dev.policyTick_handover {d : Dev} {b : Nat} (hh : d.pwr.handover = true) (hm : mfind 1 d.pwr.written = some b) (p : PowerSample) :
    (d.policyTick p).pwr.running = listSet d.pwr.running 0 b ∧ (d.policyTick p).pwr.handover = false
      ∧ (d.policyTick p).getF R.PWR_UPD_STATUS_CODE 0 = 2 ∧ (d.policyTick p).mem.bytes = d.mem.bytes := by
  have done : d.handoverDone = (d.runBank 1 b).activationEnds 2 := by rw [Dev.handoverDone, if_pos hh, hm]
  obtain ⟨pwr, mem, -⟩ := d.runBank_spec 1 b
  rw [Dev.policyTick_eq, done]
  have code := (d.runBank 1 b).activationEnds_code (code := 2) (by decide)
  obtain ⟨running, over', mem', -⟩ := (d.runBank 1 b).activationEnds_kept 2
  rw [pwr] at running
  have bytes : ((d.runBank 1 b).activationEnds 2).mem.bytes = d.mem.bytes := by rw [mem', mem]
  generalize (d.runBank 1 b).activationEnds 2 = e at code running over' bytes ⊢
  clear pwr mem mem' done hh hm
  have paced := (e.policyTick_spec p).1
  generalize ((e.tickCounted p).spreadDivider).moveTarget p = t at paced ⊢
  exact ⟨paced.running.trans running, paced.handover.trans over', (paced.getF (by decide) (by decide) (by decide)).trans code,
    paced.bytes.trans bytes⟩

/-- The device as it reads the source of an update. -/
def Dev.updateRead (d : Dev) : Dev :=
  if d.inJob d.updateSource (d.getF R.PWR_UPD_LEN_BYTES 0) then d.noteRead d.updateSource (d.getF R.PWR_UPD_LEN_BYTES 0) else d

/-- The device with the update that it has read. -/
def Dev.startUpdate (d : Dev) (window sigsGood : Bool) : Dev :=
  (Dev.setF { d with pwr := { d.pwr with update := some (.write (d.getF R.PWR_UPD_CTRL_TYPE 0) window (d.sourceImage sigsGood)) } }
    R.PWR_UPD_STATUS_CODE 0 1).setF R.PWR_UPD_STATUS_PROGRESS 0 0

theorem execFwUpdateWrite_eq (w : Writer) (good : Bool) (s : State) : execFwUpdateWrite w good s = s.byWriter w (fun d =>
    if d.updating then d.lockedWrite PWR 0
    else d.updateRead.startUpdate (d.inJob d.updateSource (d.getF R.PWR_UPD_LEN_BYTES 0)) good) := rfl

theorem MemOnly.updateRead (d : Dev) : MemOnly d d.updateRead := .ite (.noteRead ..) (.refl _)

/-- The device that holds an update. -/
def Dev.holdUpdate (d : Dev) (u : UpdateJob) : Dev := { d with pwr := { d.pwr with update := some u } }

theorem Dev.startUpdate_eq (d : Dev) (window good : Bool) : d.startUpdate window good =
    ((d.holdUpdate (.write (d.getF R.PWR_UPD_CTRL_TYPE 0) window (d.sourceImage good))).setF R.PWR_UPD_STATUS_CODE 0 1).setF R.PWR_UPD_STATUS_PROGRESS 0 0 := rfl

theorem OnlyFields.startUpdate (d : Dev) (window good : Bool) :
    OnlyFields (d.holdUpdate (.write (d.getF R.PWR_UPD_CTRL_TYPE 0) window (d.sourceImage good))) (d.startUpdate window good) := by
  rw [Dev.startUpdate_eq]
  generalize d.holdUpdate _ = e
  exact (OnlyFields.setF ..).trans (.setF ..)

theorem Dev.startUpdate_code (d : Dev) (window good : Bool) : (d.startUpdate window good).getF R.PWR_UPD_STATUS_CODE 0 = 1 := by
  rw [Dev.startUpdate_eq]
  generalize d.holdUpdate _ = e
  exact (Dev.getF_setF_place (by decide) ..).trans (Dev.getF_setF_of_lt _ (by decide) 0)

/-- An update that starts is held, busy, and changes nothing else but the fields. -/
theorem Dev.startUpdate_spec (d : Dev) (window good : Bool) :
    (d.startUpdate window good).pwr.update = some (.write (d.getF R.PWR_UPD_CTRL_TYPE 0) window (d.sourceImage good))
      ∧ (d.startUpdate window good).getF R.PWR_UPD_STATUS_CODE 0 = 1
      ∧ (d.startUpdate window good).nv = d.nv ∧ (d.startUpdate window good).mem = d.mem ∧ (d.startUpdate window good).cells = d.cells
      ∧ (d.startUpdate window good).pwr.running = d.pwr.running := by
  have h := OnlyFields.startUpdate d window good
  exact ⟨congrArg (·.pwr.update) h, d.startUpdate_code .., congrArg (·.nv) h, congrArg (·.mem) h, congrArg (·.cells) h,
    congrArg (·.pwr.running) h⟩

end Sys2Proof.Machine

namespace Sys2Proof

open Machine

section
variable {s : State} {w : Writer} (hu : s.dev.up = true) (hw : s.own.mayWrite w = true)
include hu hw

/-- An update starts. -/
theorem fwUpdateStarts (good : Bool) (h : s.dev.pwr.update = none) :
    Answers (.fwUpdateWrite w good) s fun t => t.getF R.PWR_UPD_STATUS_CODE 0 = 1 ∧ t.pwr.update ≠ none ∧ t.cells = s.dev.cells
      ∧ t.pwr.running = s.dev.pwr.running := by
  refine .of_byWriter ⟨hu, hw⟩ _ (execFwUpdateWrite_eq ..) ?_
  rw [if_neg (by simp [Dev.updating, h])]
  have read := MemOnly.updateRead s.dev
  generalize s.dev.updateRead = d at read ⊢
  have running : d.pwr.running = s.dev.pwr.running := congrArg (·.pwr.running) read.kept
  obtain ⟨held, code, -, -, cells, running'⟩ := d.startUpdate_spec (s.dev.inJob s.dev.updateSource (s.dev.getF R.PWR_UPD_LEN_BYTES 0)) good
  exact ⟨code, by rw [held]; exact Option.some_ne_none _, cells.trans read.cells, running'.trans running⟩

/-- An update whose source has no wrong bits starts with the image that stands there. -/
theorem fwUpdateTakes (good : Bool) (h : s.dev.pwr.update = none)
    (hf : s.dev.flippedIn s.dev.updateSource (s.dev.getF R.PWR_UPD_LEN_BYTES 0) = []) :
    Answers (.fwUpdateWrite w good) s fun t => t.pwr.update = some (.write (s.dev.getF R.PWR_UPD_CTRL_TYPE 0)
        (s.dev.inJob s.dev.updateSource (s.dev.getF R.PWR_UPD_LEN_BYTES 0)) (s.dev.sourceImage good)) ∧ t.getF R.PWR_UPD_STATUS_CODE 0 = 1
        ∧ t.nv = s.dev.nv ∧ t.mem = s.dev.mem ∧ t.cells = s.dev.cells ∧ t.pwr.running = s.dev.pwr.running := by
  refine .of_byWriter ⟨hu, hw⟩ _ (execFwUpdateWrite_eq ..) ?_
  rw [if_neg (by simp [Dev.updating, h])]
  have read := MemOnly.updateRead s.dev
  have alike : Alike s.dev s.dev.updateRead := by
    unfold Dev.updateRead
    split
    · exact Dev.noteRead_sound hf
    · exact .refl _
  generalize s.dev.updateRead = d at read alike ⊢
  have type : d.getF R.PWR_UPD_CTRL_TYPE 0 = s.dev.getF R.PWR_UPD_CTRL_TYPE 0 := read.getF (by decide) (by decide) (by decide)
  have len : d.getF R.PWR_UPD_LEN_BYTES 0 = s.dev.getF R.PWR_UPD_LEN_BYTES 0 := read.getF (by decide) (by decide) (by decide)
  have source : d.updateSource = s.dev.updateSource := by
    rw [Dev.updateSource, Dev.updateSource, read.getF (by decide) (by decide) (by decide), read.getF (by decide) (by decide) (by decide)]
  have image : d.sourceImage good = s.dev.sourceImage good := by
    rw [Dev.sourceImage, Dev.sourceImage, Dev.updateBytes, Dev.updateBytes, source, len, alike.bytes, alike.poisonIn, alike.nv]
  have running : d.pwr.running = s.dev.pwr.running := congrArg (·.pwr.running) read.kept
  obtain ⟨held, code, nv, mem, cells, running'⟩ := d.startUpdate_spec (s.dev.inJob s.dev.updateSource (s.dev.getF R.PWR_UPD_LEN_BYTES 0)) good
  rw [type, image] at held
  exact ⟨held, code, nv.trans alike.nv.symm, mem.trans alike.mem.symm, cells.trans read.cells, running'.trans running⟩

/-- A second update is refused while one runs. -/
theorem fwUpdateWaits (good : Bool) (h : s.dev.pwr.update ≠ none) :
    Answers (.fwUpdateWrite w good) s fun t => t.pwr = s.dev.pwr ∧ t.errBit PWR 0 0 = true ∧ t.nv = s.dev.nv ∧ t.mem = s.dev.mem
      ∧ t.cells = s.dev.cells ∧ t.pwr.running = s.dev.pwr.running := by
  refine .of_byWriter ⟨hu, hw⟩ _ (execFwUpdateWrite_eq ..) ?_
  rw [if_pos (by rw [Dev.updating]; exact Option.isSome_iff_ne_none.2 h)]
  have noise := Noise.lockedWrite s.dev PWR 0
  have err := Noise.errBit_lockedWrite s.dev PWR 0
  obtain ⟨_, _, _, heq⟩ := noise.reports
  exact ⟨congrArg (·.pwr) heq, err, congrArg (·.nv) heq, congrArg (·.mem) heq, congrArg (·.cells) heq, congrArg (·.pwr.running) heq⟩

end

section
variable {s : State} {ty : Nat} {win : Bool} {im : FwImage} (hu : s.dev.up = true) (hj : s.dev.pwr.update = some (.write ty win im))
include hu hj

/-- The image is in its bank. -/
theorem fwUpdateDone (hc : s.dev.updateCode ty win im = 0) (hf : imageFits ty im = true) : Answers (.fwUpdateComplete true) s fun t =>
    t.nv.banks = mput (2 * ty + s.dev.targetBank ty) im s.dev.nv.banks ∧ mfind ty t.pwr.written = some (s.dev.targetBank ty)
      ∧ t.getF R.PWR_UPD_STATUS_CODE 0 = 2 ∧ t.pwr.update = none ∧ t.mem = s.dev.mem ∧ t.cells = s.dev.cells
      ∧ t.pwr.running = s.dev.pwr.running := by
  refine .of_onDev _ (Eq.refl (execFwUpdateComplete ..)) hu ?_
  dsimp only
  rw [hj]
  dsimp only
  rw [if_neg (by simp [hc]), Dev.programBank_fits _ _ _ hf]
  dsimp only
  rw [if_pos rfl]
  obtain ⟨_, _, _, counted⟩ := (Noise.bump (s.dev.holdImage ty (s.dev.targetBank ty) im) PWR 0 (k := 7) (by decide) (4096 + im.length)).reports
  generalize (s.dev.holdImage ty (s.dev.targetBank ty) im).bump PWR 0 7 (4096 + im.length) = e at counted ⊢
  have preferred := e.preferSelected_eq ty (s.dev.targetBank ty)
  generalize e.preferSelected ty (s.dev.targetBank ty) = g at preferred ⊢
  have pwr : g.pwr = { s.dev.pwr with written := mput ty (s.dev.targetBank ty) s.dev.pwr.written } :=
    (congrArg (·.pwr) preferred).trans (congrArg (·.pwr) counted)
  have banks : g.nv.banks = mput (2 * ty + s.dev.targetBank ty) im s.dev.nv.banks :=
    (congrArg (·.nv.banks) preferred).trans (congrArg (·.nv.banks) counted)
  have mem : g.mem = s.dev.mem := (congrArg (·.mem) preferred).trans (congrArg (·.mem) counted)
  have cells : g.cells = s.dev.cells := (congrArg (·.cells) preferred).trans (congrArg (·.cells) counted)
  obtain ⟨code, ends, nv, mem', cells', -⟩ := g.updateEnds_spec (code := 2) (by decide)
  rw [pwr] at ends
  exact ⟨by rw [nv, banks], by rw [ends, mfind_mput_same], code, by rw [ends], mem'.trans mem, cells'.trans cells, by rw [ends]⟩

/-- The image does not fit, or does not read back. -/
theorem fwUpdateSpoils {good : Bool} (hc : s.dev.updateCode ty win im = 0) (hf : imageFits ty im = false ∨ good = false) :
    Answers (.fwUpdateComplete good) s fun t =>
      t.nv.banks = mdel (2 * ty + s.dev.targetBank ty) s.dev.nv.banks ∧ t.getF R.PWR_UPD_STATUS_CODE 0 = 9 ∧ t.errBit PWR 0 20 = true
        ∧ t.pwr.update = none ∧ t.mem = s.dev.mem ∧ t.cells = s.dev.cells ∧ t.pwr.running = s.dev.pwr.running := by
  refine .of_onDev _ (Eq.refl (execFwUpdateComplete ..)) hu ?_
  dsimp only
  rw [hj]
  dsimp only
  rw [if_neg (by simp [hc]), Dev.programBank_spoils _ _ _ hf]
  dsimp only
  rw [if_neg Bool.false_ne_true]
  obtain ⟨code, ends, nv, mem, cells, err⟩ := (s.dev.dropImage ty (s.dev.targetBank ty)).updateEnds_spec (code := 9) (by decide)
  exact ⟨congrArg (·.banks) nv, code, err (by decide), congrArg (·.update) ends, mem, cells, congrArg (·.running) ends⟩

/-- The image is refused. -/
theorem fwUpdateRefused (good : Bool) (hc : s.dev.updateCode ty win im ≠ 0) : Answers (.fwUpdateComplete good) s fun t =>
    t.nv.banks = s.dev.nv.banks ∧ t.getF R.PWR_UPD_STATUS_CODE 0 = s.dev.updateCode ty win im ∧ t.errBit PWR 0 20 = true
      ∧ t.pwr.update = none ∧ t.mem = s.dev.mem ∧ t.cells = s.dev.cells ∧ t.pwr.running = s.dev.pwr.running := by
  refine .of_onDev _ (Eq.refl (execFwUpdateComplete ..)) hu ?_
  dsimp only
  rw [hj]
  dsimp only
  rw [if_pos hc]
  obtain ⟨code, ends, nv, mem, cells, err⟩ := s.dev.updateEnds_spec (s.dev.updateCode_lt ty win im)
  exact ⟨congrArg (·.banks) nv, code, err (s.dev.updateCode_ne ty win im), congrArg (·.update) ends, mem, cells, congrArg (·.running) ends⟩

end

section
variable {s : State} {w : Writer} {ty b : Nat} {im : FwImage} (hu : s.dev.up = true) (hw : s.own.mayWrite w = true)
  (h : s.dev.pwr.update = none) (ht : s.dev.getF R.PWR_UPD_CTRL_TYPE 0 = ty) (h1 : 1 ≤ ty) (h4 : ty ≤ 4)
  (hb : mfind ty s.dev.pwr.written = some b) (hi : s.dev.bank ty b = some im)
include hu hw h ht h1 h4 hb hi

/-- The newly written bank runs. -/
theorem fwActivates (hc : s.dev.activateCode ty im = 0) (h2 : 2 ≤ ty) : Answers (.fwActivate w) s fun t =>
    t.pwr.running = listSet s.dev.pwr.running (ty - 1) b ∧ t.getF R.PWR_UPD_STATUS_CODE 0 = 2 ∧ t.mem = s.dev.mem
      ∧ t.cells = s.dev.cells := by
  refine .of_byWriter ⟨hu, hw⟩ _ (Eq.refl (execFwActivate ..)) ?_
  dsimp only
  rw [ht, if_neg (by simp [Dev.updating, h]), if_neg (by omega), hb]
  dsimp only
  rw [hi]
  dsimp only
  rw [if_neg (by simp [hc]), if_neg (by omega)]
  obtain ⟨pwr, mem, cells⟩ := s.dev.runBank_spec ty b
  obtain ⟨running, -, mem', cells'⟩ := (s.dev.runBank ty b).activationEnds_kept 2
  rw [pwr] at running
  exact ⟨running, Dev.activationEnds_code _ (by decide), mem'.trans mem, cells'.trans cells⟩

/-- A new MCF waits for its handover. -/
theorem fwActivateAsks (hc : s.dev.activateCode 1 im = 0) (he : ty = 1) : Answers (.fwActivate w) s fun t =>
    t.pwr.update = some (.activate 1) ∧ t.pwr.handAsk = some s.dev.step ∧ t.getF R.PWR_UPD_STATUS_CODE 0 = 1 ∧ t.mem = s.dev.mem
      ∧ t.cells = s.dev.cells ∧ t.pwr.running = s.dev.pwr.running := by
  subst he
  refine .of_byWriter ⟨hu, hw⟩ _ (Eq.refl (execFwActivate ..)) ?_
  dsimp only
  rw [ht, if_neg (by simp [Dev.updating, h]), if_neg (by omega), hb]
  dsimp only
  rw [hi]
  dsimp only
  rw [if_neg (by simp [hc]), if_pos rfl]
  exact s.dev.askHandover_spec

/-- An activation is refused. -/
theorem fwActivateRefused (hc : s.dev.activateCode ty im ≠ 0) : Answers (.fwActivate w) s fun t =>
    t.getF R.PWR_UPD_STATUS_CODE 0 = s.dev.activateCode ty im ∧ t.pwr = s.dev.pwr ∧ t.mem = s.dev.mem ∧ t.cells = s.dev.cells
      ∧ t.pwr.running = s.dev.pwr.running := by
  refine .of_byWriter ⟨hu, hw⟩ _ (Eq.refl (execFwActivate ..)) ?_
  dsimp only
  rw [ht, if_neg (by simp [Dev.updating, h]), if_neg (by omega), hb]
  dsimp only
  rw [hi]
  dsimp only
  rw [if_pos hc]
  obtain ⟨code, pwr, mem, cells⟩ := s.dev.activationRefused_spec ty (s.dev.activateCode_lt ty im)
  exact ⟨code, pwr, mem, cells, congrArg (·.running) pwr⟩

end

section
variable {s : State} (hu : s.dev.up = true)
include hu

/-- The handover starts. -/
theorem mcfHandoverStarts {n : Nat} (h : s.dev.pwr.handAsk = some n) (hs : s.dev.jobActive = false ∨ s.dev.step ≠ n) :
    Answers .mcfHandover s fun t => t = { s.dev with pwr := { s.dev.pwr with handAsk := none, handover := true } } := by
  refine .of_onDev _ (Eq.refl (execMcfHandover s)) hu ?_
  dsimp only
  rw [h]
  dsimp only
  rw [if_neg (by rcases hs with h | h <;> simp [h])]

/-- The handover ends with the first tick of the new MCF. -/
theorem mcfHandoverEnds {p : PowerSample} {b : Nat} (hh : s.dev.pwr.handover = true) (hb : s.dev.pwr.booted = true)
    (hf : s.dev.getF R.PWR_FW_STATUS_BOOT 0 ≠ 2) (hm : mfind 1 s.dev.pwr.written = some b)
    (ht : (readings p).all (fun x => decide (x.1 < x.2.2)) = true) : Answers (.powerPolicyTick p) s fun t =>
      t.pwr.running = listSet s.dev.pwr.running 0 b ∧ t.pwr.handover = false ∧ t.getF R.PWR_UPD_STATUS_CODE 0 = 2
        ∧ t.mem.bytes = s.dev.mem.bytes := by
  have cool : (readings p).any (fun x => decide (x.2.2 ≤ x.1)) = false := by
    refine List.any_eq_false.2 fun x hx => ?_
    have below := of_decide_eq_true (List.all_eq_true.1 ht x hx)
    simpa using below
  exact .of_next (policyTick_runs hu hb hf cool) (Dev.policyTick_handover hh hm p)

/-- A silent new MCF loses its handover. -/
theorem mcfHandoverLost (hh : s.dev.pwr.handover = true) : Answers .handoverWatchdogTimeout s fun t =>
    t.getF R.PWR_UPD_STATUS_CODE 0 = 11 ∧ t.pwr.handover = false ∧ t.pwr.update = none ∧ t.errBit PWR 0 21 = true ∧ t.mem = s.dev.mem
      ∧ t.cells = s.dev.cells ∧ t.pwr.running = s.dev.pwr.running := by
  refine .of_onDev _ (Eq.refl (execHandoverWatchdogTimeout s)) hu ?_
  rw [if_pos hh]
  have noise := Noise.setErr (s.dev.activationEnds 11) PWR 0 21
  have err := Noise.errBit_setErr (s.dev.activationEnds 11) PWR 0 (b := 21) (by decide)
  have code := (noise.getF (f := R.PWR_UPD_STATUS_CODE) (by decide) (i := 0) (by decide)).trans (s.dev.activationEnds_code (by decide))
  obtain ⟨_, _, _, heq⟩ := noise.reports
  exact ⟨code, congrArg (·.pwr.handover) heq, congrArg (·.pwr.update) heq, err, congrArg (·.mem) heq, congrArg (·.cells) heq,
    congrArg (·.pwr.running) heq⟩

end

/-- Settles O55: an update, an activation and a handover, each with its end. -/
theorem firmwareUpdatesAndActivates : Obligations.FirmwareUpdatesAndActivates := by
  unfold Obligations.FirmwareUpdatesAndActivates
  intro s w ty b n win good im p hu code rest key
  refine ⟨fun hw => fwUpdateTakes hu hw good, fun hw => fwUpdateStarts hu hw good, fun hw => fwUpdateWaits hu hw good,
    fun hj => ⟨fwUpdateDone hu hj, fwUpdateSpoils hu hj, fwUpdateRefused hu hj good⟩,
    fun hw h ht h1 h4 hb hi => ⟨fwActivates hu hw h ht h1 h4 hb hi, fwActivateAsks hu hw h ht h1 h4 hb hi, fwActivateRefused hu hw h ht h1 h4 hb hi⟩,
    mcfHandoverStarts hu, fun h => ?_, mcfHandoverEnds hu, mcfHandoverLost hu, fun h => ?_⟩
  · refine .of_onDev _ (Eq.refl (execMcfHandover s)) hu ?_
    dsimp only
    rw [h]
  · exact .of_onDev _ (Eq.refl (execHandoverWatchdogTimeout s)) hu (if_neg (by simp [h]))

end Sys2Proof
end

