-- ==== Sys2Proof/Proofs/Probes.lean ====
section
/-! Probes of a peer's identity: a flow that a mismatch closes lets a waiting collective go on, whose results meet wrong bits. -/

namespace Sys2Proof

open Machine

/-- A bucket of one element, whose only segment waits to go on with no exponent above the lowest. -/
def waitingBucket : Coll :=
  { group := 0, groupId := 0, n := 1, rank := 0, leaf := 1, mode := 0, step := 0, cidx := 0, kind := .bucket 0 false, engine := 0, width := 32,
    members := [], segs := 1, elems := [some (0, 0)], runs := [⟨0, 1, 0, 1⟩], seg := [(1, ⟨[0], none, false, [], [], false⟩)], hdrs := [],
    hdrRes := none, mSeg := [], resSeg := [], mute := [], barSeen := [], got := [], cmd := none, sent := true, fetching := false,
    done := false, status := 0 }

/-- A device in service with one open flow and an empty trust table, whose waiting bucket's result lies in a word with two wrong bits. -/
def mismatchedProbe : State :=
  { State.reset with dev := { State.reset.dev with
      nv := { State.reset.dev.nv with grade := 15, spares := [] }
      fields := []
      mem := { State.reset.dev.mem with valid := [0], flips := [(0, 2)] }
      fab := { State.reset.dev.fab with flows := [(0, { Flow.none with state := 1 })], colls := [waitingBucket] } } }

/-- The reply to a probe of flow 0. -/
def probeReply : Packet := { packetOf 0x30 with attr := 0x43 }

/-- The retired rows that the device's record counts. -/
def rowsRetired (r : Res) : List Nat :=
  match r with
  | .next t => t.dev.nv.rowsUsed.map (·.2)
  | _ => []

theorem rowsRetired_probeReply : rowsRetired (exec (.idReply probeReply) mismatchedProbe) = [1] := by decide +kernel

/-- Refutes O58: the flow closes, the pool's blocks go free, the waiting bucket writes its result, and the word that it covers in
part has two wrong bits: its row is retired, which the module's records keep. -/
theorem not_trustTableGovernsPeers : ¬ Obligations.TrustTableGovernsPeers := by
  intro h
  obtain ⟨-, reply, -⟩ := h mismatchedProbe .portA probeReply (by decide)
  have inSequence : InSequence mismatchedProbe probeReply := ⟨by decide, .inl (by decide), by decide, by decide, by decide, by decide⟩
  obtain ⟨t, ran, -, -, -, -, nv⟩ := (reply inSequence (by decide) (by decide) (by decide) (by decide)).2 (by decide)
  have retired := rowsRetired_probeReply
  rw [ran] at retired
  have none : t.dev.nv.rowsUsed.map (·.2) = [] := by rw [nv]; decide
  exact absurd (none.symm.trans retired) (by decide)

end Sys2Proof
end

