-- ==== Sys2Proof/Proofs/LateInts.lean ====
section
/-! Messages of a bucket exchange: integers of a segment that is done before its exponents are complete. -/

namespace Sys2Proof

open Machine

/-- An exchange between two devices: this one owns the only segment, which is done although its accumulator was not granted yet. -/
def doneUngranted : Coll :=
  { waitingBucket with n := 2, mode := 1, members := [(0, 0), (1, 0)], seg := [(1, ⟨[0, 1], some 5, false, [], [], true⟩)] }

/-- A device in service with one open flow to the other member, and blocks in its response pool. -/
def grantsLate : State :=
  { State.reset with dev := { State.reset.dev with
      nv := { State.reset.dev.nv with grade := 15, spares := [] }
      fields := [(R.FLW_POOL_FREE_N.key 0, 8)]
      fab := { State.reset.dev.fab with flows := [(0, { Flow.none with state := 1, peer := 1 })], colls := [doneUngranted] } } }

/-- The other member's integers of the segment. -/
def otherInts : Packet := { packetOf 0x22 with src := 1, addr := 2 ^ 32 + 2 * 2 ^ 48, attr := 1, op2 := 1 }

/-- Who has contributed integers to the first segment among the leaves, and whether it is done. -/
def intsCounted (r : Res) (k : CollKey) : Option (List Nat × Bool) :=
  match r with
  | .next t => (t.dev.coll k).map (fun c => ((c.segAt 2 0).intSeen, (c.segAt 2 0).done))
  | _ => none

theorem intsCounted_otherInts : intsCounted (exec (.cInt otherInts) grantsLate) doneUngranted.key = some ([0], false) := by decide +kernel

/-- Refutes O34: the integers of a done segment are a repeat and are not counted; then the segment's accumulator is granted, and it
is no longer done. -/
theorem not_bucketMessagesAreTaken : ¬ Obligations.BucketMessagesAreTaken := by
  rintro ⟨performed, -⟩
  have reaches : Reaches grantsLate otherInts doneUngranted :=
    ⟨⟨by decide, .inl (by decide), by decide, by decide, by decide⟩, fun e he => absurd he List.not_mem_nil, by decide, by decide, by decide⟩
  obtain ⟨-, ints, -⟩ := performed grantsLate otherInts doneUngranted 0 0 reaches
  obtain ⟨t, ran, -, -, -, counted⟩ := ints (by decide)
  have shown := intsCounted_otherInts
  rw [ran] at shown
  obtain ⟨c, found, values⟩ := Option.map_eq_some_iff.1 shown
  obtain ⟨seen, done⟩ := Prod.mk.inj values
  have taken : 1 ∈ (c.segAt 2 0).intSeen ∨ (c.segAt 2 0).done = true := counted c found (0, []) (by decide)
  rw [seen, done] at taken
  exact absurd taken (by decide)

end Sys2Proof
end

