-- ==== Sys2Proof/Proofs/Sending.lean ====
section
/-! What goes out on flows (R325 to R335, R387): a message that is sent waits for its acknowledgement or for a credit, and nothing
but the flows, the queues of the ports and the response pools changes. -/

namespace Sys2Proof

/-- The packet with another header for its way. -/
def Packet.Addressed (x y : Packet) : Prop :=
  y = { x with tc := y.tc, hops := y.hops, dst := y.dst, src := y.src, dstFlow := y.dstFlow, srcFlow := y.srcFlow, seq := y.seq, ack := y.ack }

theorem Packet.Addressed.refl (x : Packet) : x.Addressed x := rfl

theorem Packet.Addressed.trans {x y z : Packet} (h : x.Addressed y) (g : y.Addressed z) : x.Addressed z := by
  unfold Packet.Addressed at *
  rw [h] at g
  exact g

end Sys2Proof

namespace Sys2Proof.Machine

/-! ### Flows -/

/-- A flow on which messages may have gone out: its context, its sequence of arrivals and the tags of its operations stay, and what
waited is still there. -/
structure FlowSent (w v : Flow) : Prop where
  kept : v = { w with txSeq := v.txSeq, credits := v.credits, unacked := v.unacked, waiting := v.waiting, ops := v.ops, owed := v.owed, port := v.port }
  tags : v.ops.map (·.tag) = w.ops.map (·.tag)
  carried : ∀ x ∈ w.unacked ++ w.waiting, ∃ y ∈ v.unacked ++ v.waiting, x.Addressed y
  closed : w.state = 0 → v.unacked = w.unacked

namespace FlowSent

variable {w v u : Flow}

theorem refl (w : Flow) : FlowSent w w := ⟨rfl, rfl, fun x hx => ⟨x, hx, .refl x⟩, fun _ => rfl⟩

theorem state (h : FlowSent w v) : v.state = w.state := by rw [h.kept]

theorem trans (h : FlowSent w v) (g : FlowSent v u) : FlowSent w u := by
  refine ⟨?_, g.tags.trans h.tags, fun x hx => ?_, fun hs => (g.closed (h.state.trans hs)).trans (h.closed hs)⟩
  · have kept := g.kept
    rw [h.kept] at kept
    exact kept
  · obtain ⟨y, hy, xy⟩ := h.carried x hx
    obtain ⟨z, hz, yz⟩ := g.carried y hy
    exact ⟨z, hz, xy.trans yz⟩

theorem peer (h : FlowSent w v) : v.peer = w.peer := by rw [h.kept]
theorem kind (h : FlowSent w v) : v.kind = w.kind := by rw [h.kept]
theorem rxSeq (h : FlowSent w v) : v.rxSeq = w.rxSeq := by rw [h.kept]
theorem txAcked (h : FlowSent w v) : v.txAcked = w.txAcked := by rw [h.kept]
theorem retries (h : FlowSent w v) : v.retries = w.retries := by rw [h.kept]

end FlowSent

/-! ### Flows by number -/

theorem Dev.flow_setFlow_same (d : Dev) (f : Nat) (w : Flow) : (d.setFlow f w).flow f = w := mget_mput_same ..

theorem Dev.flow_setFlow_other (d : Dev) {f g : Nat} (h : g ≠ f) (w : Flow) : (d.setFlow f w).flow g = d.flow g := mget_mput_other h ..

/-- What finds an entry of a map finds it after the value of its key has changed to one that it takes no other way. -/
theorem find_mput {α : Type} (P : Nat × α → Bool) {k : Nat} {v : α} {m : NMap α} (hv : ∀ x, mfind k m = some x → P (k, v) = P (k, x))
    (h : (m.find? P).map (·.1) = some k) : ((mput k v m).find? P).map (·.1) = some k := by
  induction m with
  | nil => cases h
  | cons e m ih =>
    obtain ⟨j, x⟩ := e
    rw [mput]
    split
    · rw [List.find?_cons]
      split
      · rfl
      · exact h
    · split
      · next he =>
        subst he
        have same : P (k, v) = P (k, x) := hv x (if_pos rfl)
        rw [List.find?_cons] at h ⊢
        rw [same]
        split
        · rfl
        · next hp => rw [hp] at h; exact h
      · next hne =>
        rw [List.find?_cons] at h ⊢
        split
        · next hp =>
          rw [hp] at h
          exact h
        · next hp =>
          rw [hp] at h
          exact ih (fun y hy => hv y ((if_neg hne).trans hy)) h

theorem Dev.flowKind_setFlow {d : Dev} {peer kind f : Nat} {w : Flow} (h : FlowSent (d.flow f) w) (hf : d.flowKind peer kind = some f) :
    (d.setFlow f w).flowKind peer kind = some f := by
  refine find_mput _ (fun x hx => ?_) hf
  have found : d.flow f = x := by rw [Dev.flow, mget, hx, Option.getD_some]
  rw [← found, h.state, h.peer, h.kind]

/-! ### Sending -/

/-- Messages may have gone out. -/
structure Sent (d t : Dev) : Prop where
  kept : t = { d with
    fields := t.fields, rasLog := t.rasLog, out := t.out
    fab := { d.fab with ports := t.fab.ports, flows := t.fab.flows, arrived := t.fab.arrived, unrouted := t.fab.unrouted } }
  touches : Touches (homes [(R.FLW_POOL_FREE_N, 0), (R.FLW_POOL_FREE_S, 0)]) d t
  flows : ∀ f, FlowSent (d.flow f) (t.flow f)

namespace Sent

variable {d e t : Dev}

theorem of_noise (h : Noise d t) : Sent d t := by
  refine ⟨?_, h.touches _, fun f => ?_⟩
  · obtain ⟨_, _, _, rfl⟩ := h.reports
    rfl
  · rw [Dev.flow, Dev.flow, h.reports.fab]
    exact .refl _

theorem refl (d : Dev) : Sent d d := of_noise (.refl d)

theorem trans (h : Sent d e) (g : Sent e t) : Sent d t := by
  refine ⟨?_, h.touches.trans g.touches, fun f => (h.flows f).trans (g.flows f)⟩
  have kept := g.kept
  rw [h.kept] at kept
  exact kept

theorem ite {a b : Dev} {p : Prop} [Decidable p] (ha : Sent d a) (hb : Sent d b) : Sent d (if p then a else b) := by
  split
  · exact ha
  · exact hb

theorem foldl {α : Type} {f : Dev → α → Dev} (h : ∀ e x, Sent e (f e x)) (xs : List α) (d : Dev) : Sent d (xs.foldl f d) := by
  induction xs generalizing d with
  | nil => exact refl d
  | cons x xs ih => exact (h d x).trans (ih _)

theorem mem (h : Sent d t) : t.mem = d.mem := by rw [h.kept]
theorem cells (h : Sent d t) : t.cells = d.cells := by rw [h.kept]
theorem nv (h : Sent d t) : t.nv = d.nv := by rw [h.kept]
theorem sow (h : Sent d t) : t.sow = d.sow := by rw [h.kept]
theorem ctl (h : Sent d t) : t.ctl = d.ctl := by rw [h.kept]
theorem pwr (h : Sent d t) : t.pwr = d.pwr := by rw [h.kept]
theorem harvest (h : Sent d t) : t.harvest = d.harvest := by rw [h.kept]
theorem colls (h : Sent d t) : t.fab.colls = d.fab.colls := by rw [h.kept]
theorem coll (h : Sent d t) (k : CollKey) : t.coll k = d.coll k := by rw [Dev.coll, Dev.coll, h.colls]

/-- A field that is no response pool keeps its value. -/
theorem getF (h : Sent d t) {f : Field} (hq : f.quiet = true) (hp : f.place ∉ [R.FLW_POOL_FREE_N.place, R.FLW_POOL_FREE_S.place])
    {i : Nat} (hi : i < 2048) : t.getF f i = d.getF f i := h.touches.getF hq hi (not_homes hp i)

theorem setFlow (d : Dev) {f : Nat} {w : Flow} (h : FlowSent (d.flow f) w) : Sent d (d.setFlow f w) := by
  refine ⟨rfl, .of_fields rfl, fun g => ?_⟩
  by_cases hg : g = f
  · rw [hg, Dev.flow_setFlow_same]
    exact h
  · rw [Dev.flow_setFlow_other d hg]
    exact .refl _

theorem enqueue (d : Dev) (i : Nat) (p : Packet) : Sent d (d.enqueue i p) := ⟨rfl, .of_fields rfl, fun _ => .refl _⟩

theorem routeOut (d : Dev) (p : Packet) : Sent d (d.routeOut p) := by
  unfold Dev.routeOut
  split
  · exact ⟨rfl, .of_fields rfl, fun _ => .refl _⟩
  · split
    · exact enqueue ..
    · have held : Sent d { d with fab := { d.fab with unrouted := d.fab.unrouted ++ [p] } } := ⟨rfl, .of_fields rfl, fun _ => .refl _⟩
      exact held.trans (of_noise (.setErr ..))

end Sent

theorem Dev.flow_routeOut (d : Dev) (p : Packet) (f : Nat) : (d.routeOut p).flow f = d.flow f := by
  rw [Dev.flow, Dev.flow, (Routed.routeOut d p).side.flows]

theorem Dev.flowKind_routeOut (d : Dev) (p : Packet) (peer kind : Nat) : (d.routeOut p).flowKind peer kind = d.flowKind peer kind := by
  rw [Dev.flowKind, Dev.flowKind, (Routed.routeOut d p).side.flows]

/-- The flow as a packet goes out on it. -/
def Flow.outBy (w : Flow) (port : Option Nat) : Flow := { w with owed := false, port := port }

theorem FlowSent.outBy (w : Flow) (port : Option Nat) : FlowSent w (w.outBy port) := ⟨rfl, rfl, fun x hx => ⟨x, hx, .refl x⟩, fun _ => rfl⟩

/-- Where a packet of a flow goes out. -/
def Dev.outPort (d : Dev) (f : Nat) (p : Packet) : Option Nat :=
  if (d.stamp f p).dst = d.devNum then (d.flow f).port else d.pickPort (d.stamp f p)

theorem Dev.sendNow_eq (d : Dev) (f : Nat) (p : Packet) :
    d.sendNow f p = ((d.setFlow f ((d.flow f).outBy (d.outPort f p))).bump FLW 0 0 1).routeOut (d.stamp f p) := rfl

theorem Dev.flow_sendNow (d : Dev) (f : Nat) (p : Packet) : (d.sendNow f p).flow f = (d.flow f).outBy (d.outPort f p) := by
  rw [Dev.sendNow_eq, Dev.flow_routeOut]
  exact d.flow_setFlow_same f _

theorem Dev.flow_sendNow_other (d : Dev) {f g : Nat} (h : g ≠ f) (p : Packet) : (d.sendNow f p).flow g = d.flow g := by
  rw [Dev.sendNow_eq, Dev.flow_routeOut]
  exact d.flow_setFlow_other h _

theorem Sent.sendNow (d : Dev) (f : Nat) (p : Packet) : Sent d (d.sendNow f p) := by
  rw [Dev.sendNow_eq]
  exact ((Sent.setFlow d (.outBy ..)).trans (.of_noise (.bump _ _ _ (by decide) _))).trans (.routeOut ..)

theorem Sent.control (d : Dev) (f opc : Nat) : Sent d (d.control f opc) := .sendNow ..

theorem Dev.flowKind_sendNow {d : Dev} {peer kind f : Nat} (hf : d.flowKind peer kind = some f) (p : Packet) :
    (d.sendNow f p).flowKind peer kind = some f := by
  rw [Dev.sendNow_eq, Dev.flowKind_routeOut]
  exact Dev.flowKind_setFlow (.outBy ..) hf

/-! ### Sequenced packets -/

/-- The operation whose request goes out. -/
def FlowOp.issued (o : FlowOp) (p : Packet) (seq n : Nat) : FlowOp := if o.tag = p.tag ∧ o.opc = p.opc then { o with seq := seq, blocks := n } else o

theorem FlowOp.tag_issued (o : FlowOp) (p : Packet) (seq n : Nat) : (o.issued p seq n).tag = o.tag := by
  unfold FlowOp.issued
  split <;> rfl

/-- The flow that awaits the acknowledgement of a packet. -/
def Flow.awaits (w : Flow) (p p' : Packet) (n : Nat) : Flow :=
  { w with txSeq := (w.txSeq + 1) % 2 ^ 32, credits := w.credits - 1, unacked := w.unacked ++ [p'], ops := w.ops.map (·.issued p w.txSeq n) }

theorem FlowSent.awaits {w : Flow} (h : w.state ≠ 0) (p p' : Packet) (n : Nat) : FlowSent w (w.awaits p p' n) := by
  refine ⟨rfl, ?_, fun x hx => ⟨x, ?_, .refl x⟩, fun h0 => absurd h0 h⟩
  · show (w.ops.map _).map _ = _
    rw [List.map_map]
    exact List.map_congr_left fun o _ => o.tag_issued ..
  · show x ∈ (w.unacked ++ [p']) ++ w.waiting
    simp only [List.mem_append] at hx ⊢
    exact hx.elim (fun h => .inl (.inl h)) .inr

/-- The device that takes blocks of a pool. -/
def Dev.takeBlocks (d : Dev) (pool : Field) (n : Nat) : Dev := if n = 0 then d else d.setF pool 0 (d.getF pool 0 - n)

/-- A packet goes out, or waits for a credit or for blocks. -/
theorem Dev.trySend_eq (d : Dev) (f : Nat) (p : Packet) : d.trySend f p =
    if ((d.flow f).state = 1 ∨ (d.flow f).state = 2) ∧ 0 < (d.flow f).credits
        ∧ blocksFor p ≤ d.getF (poolField (((d.flow f).opOf p).elim 0 (·.cell))) 0 then
      some (((d.takeBlocks (poolField (((d.flow f).opOf p).elim 0 (·.cell))) (blocksFor p)).setFlow f
        ((d.flow f).awaits { p with seq := (d.flow f).txSeq } (d.stamp f { p with seq := (d.flow f).txSeq }) (blocksFor p))).sendNow f
          { p with seq := (d.flow f).txSeq })
    else none := rfl

theorem poolField_mem (cell : Nat) : (poolField cell, 0) ∈ [(R.FLW_POOL_FREE_N, 0), (R.FLW_POOL_FREE_S, 0)] := by
  unfold poolField
  split <;> simp

theorem poolField_place (cell : Nat) : (poolField cell).place ≠ 1024 := by
  unfold poolField
  split <;> decide

theorem Dev.flow_takeBlocks (d : Dev) (pool : Field) (n f : Nat) : (d.takeBlocks pool n).flow f = d.flow f := by
  unfold Dev.takeBlocks
  split <;> rfl

theorem Dev.flowKind_takeBlocks (d : Dev) (pool : Field) (n peer kind : Nat) : (d.takeBlocks pool n).flowKind peer kind = d.flowKind peer kind := by
  unfold Dev.takeBlocks
  split <;> rfl

theorem Sent.takeBlocks (d : Dev) (cell n : Nat) : Sent d (d.takeBlocks (poolField cell) n) := by
  unfold Dev.takeBlocks
  split
  · exact .refl d
  · exact ⟨rfl, .setF d ⟨_, poolField_mem cell, rfl⟩ (poolField_place cell) _, fun _ => .refl _⟩

/-- What a sequenced packet leaves. -/
theorem Dev.trySend_spec {d t : Dev} {f : Nat} {p : Packet} (h : d.trySend f p = some t) :
    Sent d t ∧ (∃ y, (t.flow f).unacked = (d.flow f).unacked ++ [y] ∧ p.Addressed y) ∧ (t.flow f).waiting = (d.flow f).waiting
      ∧ (∀ g, g ≠ f → t.flow g = d.flow g) ∧ ∀ peer kind, d.flowKind peer kind = some f → t.flowKind peer kind = some f := by
  rw [Dev.trySend_eq] at h
  split at h
  rotate_left
  · cases h
  next opened =>
  have runs : (d.flow f).state ≠ 0 := by omega
  have e := Option.some.inj h
  subst e
  generalize hq : { p with seq := (d.flow f).txSeq } = q
  generalize hn : blocksFor p = n
  have blocks := Sent.takeBlocks d (((d.flow f).opOf p).elim 0 (·.cell)) n
  have flow := d.flow_takeBlocks (poolField (((d.flow f).opOf p).elim 0 (·.cell))) n
  have find := d.flowKind_takeBlocks (poolField (((d.flow f).opOf p).elim 0 (·.cell))) n
  generalize d.takeBlocks _ n = e at blocks flow find ⊢
  have awaits : FlowSent (e.flow f) ((d.flow f).awaits q (d.stamp f q) n) := by rw [flow f]; exact .awaits runs ..
  refine ⟨(blocks.trans (.setFlow e awaits)).trans (.sendNow ..), ⟨d.stamp f q, ?_, ?_⟩, ?_, fun g hg => ?_, fun peer kind hk => ?_⟩
  · rw [Dev.flow_sendNow, Dev.flow_setFlow_same]
    rfl
  · rw [← hq]
    rfl
  · rw [Dev.flow_sendNow, Dev.flow_setFlow_same]
    rfl
  · rw [Dev.flow_sendNow_other _ hg, Dev.flow_setFlow_other _ hg, flow]
  · rw [← find] at hk
    exact Dev.flowKind_sendNow (Dev.flowKind_setFlow awaits hk) q

/-- The flow with a packet behind those that wait. -/
def Flow.holds (w : Flow) (p : Packet) : Flow := { w with waiting := w.waiting ++ [p] }

theorem FlowSent.holds (w : Flow) (p : Packet) : FlowSent w (w.holds p) :=
  ⟨rfl, rfl, fun x hx => ⟨x, by
    show x ∈ w.unacked ++ (w.waiting ++ [p])
    rw [← List.append_assoc]
    exact List.mem_append_left _ hx, .refl x⟩, fun _ => rfl⟩

theorem Dev.sendOn_cases (d : Dev) (f : Nat) (p : Packet) :
    d.trySend f p = some (d.sendOn f p) ∨ d.sendOn f p = d.setFlow f ((d.flow f).holds p) := by
  unfold Dev.sendOn
  dsimp only
  split
  · next h =>
    split
    · next t ht => exact .inl ht
    · next => exact .inr (by rw [Flow.holds, List.isEmpty_iff.1 h]; rfl)
  · exact .inr rfl

/-- A message that is sent on a flow waits there. -/
theorem Dev.sendOn_spec (d : Dev) (f : Nat) (p : Packet) :
    Sent d (d.sendOn f p) ∧ (∃ y ∈ ((d.sendOn f p).flow f).unacked ++ ((d.sendOn f p).flow f).waiting, p.Addressed y)
      ∧ ∀ peer kind, d.flowKind peer kind = some f → (d.sendOn f p).flowKind peer kind = some f := by
  rcases d.sendOn_cases f p with h | h
  · obtain ⟨sent, ⟨y, hy, hp⟩, -, -, kind⟩ := Dev.trySend_spec h
    exact ⟨sent, ⟨y, List.mem_append_left _ (by rw [hy]; exact List.mem_append_right _ (List.mem_singleton_self y)), hp⟩, kind⟩
  · rw [h]
    refine ⟨.setFlow d (.holds ..), ⟨p, ?_, .refl p⟩, fun _ _ => Dev.flowKind_setFlow (.holds ..)⟩
    rw [Dev.flow_setFlow_same]
    exact List.mem_append_right _ (List.mem_append_right _ (List.mem_singleton_self p))

theorem Sent.sendOn (d : Dev) (f : Nat) (p : Packet) : Sent d (d.sendOn f p) := (d.sendOn_spec f p).1

theorem Sent.sendKind (d : Dev) (peer kind : Nat) (p : Packet) : Sent d (d.sendKind peer kind p) := by
  unfold Dev.sendKind
  split
  · exact .sendOn ..
  · exact .refl d

theorem Sent.sendMgmt (d : Dev) (peer sub : Nat) (p : Packet) : Sent d (d.sendMgmt peer sub p) := .sendKind ..
theorem Sent.toPartner (d : Dev) (sub : Nat) (p : Packet) : Sent d (d.toPartner sub p) := .sendMgmt ..
theorem Sent.probe (d : Dev) (f : Nat) : Sent d (d.probe f) := .sendMgmt ..

/-! ### What waits goes on -/

/-- One packet of those that wait: it goes out unless one before it still waits. -/
def Dev.pumpStep (f : Nat) (a : Dev × List Packet) (p : Packet) : Dev × List Packet :=
  if a.2.isEmpty then
    match a.1.trySend f p with
    | some d' => (d', [])
    | none => (a.1, [p])
  else (a.1, a.2 ++ [p])

/-- What has become of the packets that waited on a flow: they went out, or are among those left. -/
structure Pumped (f : Nat) (d : Dev) (done : List Packet) (a : Dev × List Packet) : Prop where
  sent : Sent d a.1
  waiting : (a.1.flow f).waiting = (d.flow f).waiting
  unacked : ∀ x ∈ (d.flow f).unacked, x ∈ (a.1.flow f).unacked
  gone : ∀ x ∈ done, ∃ y ∈ (a.1.flow f).unacked ++ a.2, x.Addressed y
  others : ∀ g, g ≠ f → a.1.flow g = d.flow g
  empty : done = [] → a.2 = []

theorem Pumped.step {f : Nat} {d : Dev} {done : List Packet} {a : Dev × List Packet} (h : Pumped f d done a) (p : Packet) :
    Pumped f d (done ++ [p]) (Dev.pumpStep f a p) := by
  have last {a' : Dev × List Packet} (old : ∀ x ∈ (a.1.flow f).unacked ++ a.2, x ∈ (a'.1.flow f).unacked ++ a'.2)
      (new : ∃ y ∈ (a'.1.flow f).unacked ++ a'.2, p.Addressed y) : ∀ x ∈ done ++ [p], ∃ y ∈ (a'.1.flow f).unacked ++ a'.2, x.Addressed y := by
    intro x hx
    rcases List.mem_append.1 hx with hx | hx
    · obtain ⟨y, hy, xy⟩ := h.gone x hx
      exact ⟨y, old y hy, xy⟩
    · rw [List.mem_singleton.1 hx]
      exact new
  have none {q : Prop} (e : done ++ [p] = []) : q := absurd e (by simp)
  unfold Dev.pumpStep
  split
  · next he =>
    have left : a.2 = [] := List.isEmpty_iff.1 he
    split
    · next t ht =>
      obtain ⟨sent, ⟨y, hy, addressed⟩, waiting, others, -⟩ := Dev.trySend_spec ht
      refine ⟨h.sent.trans sent, waiting.trans h.waiting, fun x hx => ?_, last (fun x hx => ?_) ⟨y, ?_, addressed⟩,
        fun g hg => (others g hg).trans (h.others g hg), none⟩
      · rw [hy]
        exact List.mem_append_left _ (h.unacked x hx)
      · rw [left, List.append_nil] at hx
        rw [List.append_nil, hy]
        exact List.mem_append_left _ hx
      · rw [List.append_nil, hy]
        exact List.mem_append_right _ (List.mem_singleton_self y)
    · refine ⟨h.sent, h.waiting, h.unacked, last (fun x hx => ?_) ⟨p, List.mem_append_right _ (List.mem_singleton_self p), .refl p⟩, h.others, none⟩
      rw [left, List.append_nil] at hx
      exact List.mem_append_left _ hx
  · refine ⟨h.sent, h.waiting, h.unacked, last (fun x hx => ?_) ⟨p, ?_, .refl p⟩, h.others, none⟩
    · rw [← List.append_assoc]
      exact List.mem_append_left _ hx
    · exact List.mem_append_right _ (List.mem_append_right _ (List.mem_singleton_self p))

theorem Pumped.foldl {f : Nat} {d : Dev} {done : List Packet} {a : Dev × List Packet} (ps : List Packet) (h : Pumped f d done a) :
    Pumped f d (done ++ ps) (ps.foldl (Dev.pumpStep f) a) := by
  induction ps generalizing done a with
  | nil => rw [List.append_nil]; exact h
  | cons p ps ih =>
    rw [List.append_cons]
    exact ih (h.step p)

/-- The packets of a flow that go out, and those left. -/
def Dev.pumped (d : Dev) (f : Nat) : Dev × List Packet := (d.flow f).waiting.foldl (Dev.pumpStep f) (d, [])

theorem Dev.pump_eq (d : Dev) (f : Nat) : d.pump f = (d.pumped f).1.setFlow f { (d.pumped f).1.flow f with waiting := (d.pumped f).2 } := rfl

theorem Pumped.pumped (d : Dev) (f : Nat) : Pumped f d (d.flow f).waiting (d.pumped f) :=
  (Pumped.mk (done := []) (a := (d, [])) (.refl d) rfl (fun _ h => h) (fun _ h => absurd h List.not_mem_nil) (fun _ _ => rfl) (fun _ => rfl)).foldl _

theorem Sent.pump (d : Dev) (f : Nat) : Sent d (d.pump f) := by
  rw [Dev.pump_eq]
  obtain ⟨sent, waiting, unacked, gone, -, -⟩ := Pumped.pumped d f
  generalize d.pumped f = a at sent waiting unacked gone ⊢
  have flow := sent.flows f
  have next : FlowSent (d.flow f) { a.1.flow f with waiting := a.2 } := by
    refine ⟨by rw [flow.kept], flow.tags, fun x hx => ?_, flow.closed⟩
    rcases List.mem_append.1 hx with hx | hx
    · exact ⟨x, List.mem_append_left _ (unacked x hx), .refl x⟩
    · exact gone x hx
  refine ⟨?_, sent.touches.trans (.of_fields rfl), fun g => ?_⟩
  · rw [sent.kept]
    rfl
  · by_cases hg : g = f
    · rw [hg, Dev.flow_setFlow_same]
      exact next
    · rw [Dev.flow_setFlow_other _ hg]
      exact sent.flows g

theorem Sent.pumpAll (d : Dev) : Sent d d.pumpAll := .foldl (fun e f => .pump e f) _ d

/-- A flow on which nothing waits stays so as others are pumped. -/
theorem Dev.waiting_pump {d : Dev} {f : Nat} (h : (d.flow f).waiting = []) (g : Nat) : ((d.pump g).flow f).waiting = [] := by
  rw [Dev.pump_eq]
  by_cases hg : f = g
  · subst hg
    rw [Dev.flow_setFlow_same]
    exact (Pumped.pumped d f).empty h
  · rw [Dev.flow_setFlow_other _ hg, (Pumped.pumped d g).others f hg]
    exact h

theorem Dev.waiting_pumpAll {d : Dev} {f : Nat} (h : (d.flow f).waiting = []) : (d.pumpAll.flow f).waiting = [] := by
  unfold Dev.pumpAll
  generalize (d.fab.flows.filter _).map _ = gs
  induction gs generalizing d with
  | nil => exact h
  | cons g gs ih => exact ih (Dev.waiting_pump h g)

/-- A message to a peer waits on the flow that carries it, which the peer's flow stays. -/
theorem Dev.sendKind_spec (d : Dev) (peer kind : Nat) (p : Packet) :
    (d.sendKind peer kind p).flowKind peer kind = d.flowKind peer kind
      ∧ ∀ f, d.flowKind peer kind = some f →
        ∃ y ∈ ((d.sendKind peer kind p).flow f).unacked ++ ((d.sendKind peer kind p).flow f).waiting, p.Addressed y := by
  unfold Dev.sendKind
  split
  · next f hf =>
    obtain ⟨-, queued, kept⟩ := d.sendOn_spec f p
    refine ⟨(kept _ _ hf).trans hf.symm, fun g hg => ?_⟩
    rw [hf] at hg
    cases hg
    exact queued
  · next hn => exact ⟨rfl, fun g hg => by rw [hn] at hg; cases hg⟩

end Sys2Proof.Machine

namespace Sys2Proof

open Machine

/-- A message on a flow is still there after more has been sent. -/
theorem Queued.sent {d t : Dev} {f sub : Nat} {q : Packet → Prop} (hq : ∀ x y : Packet, x.Addressed y → q x → q y) (h : Queued d f sub q)
    (s : Sent d t) : Queued t f sub q := by
  obtain ⟨x, hx, opc, attr, holds⟩ := h
  obtain ⟨y, hy, same⟩ := (s.flows f).carried x hx
  exact ⟨y, hy, by rw [same]; exact opc, by rw [same]; exact attr, hq x y same holds⟩

/-- A message of the management is queued on the flow that carries it. -/
theorem queued_sendMgmt {d : Dev} {peer sub kind : Nat} {p : Packet} {q : Packet → Prop}
    (hk : (if [3, 4, 5, 9, 12].contains sub then 1 else 3) = kind) (hq : ∀ y, Packet.Addressed { p with opc := 0x30, attr := sub, len := p.payload.length } y → q y) :
    ∀ f, (d.sendMgmt peer sub p).flowKind peer kind = some f → Queued (d.sendMgmt peer sub p) f sub q := by
  intro f hf
  rw [Dev.sendMgmt, hk] at hf ⊢
  obtain ⟨same, queued⟩ := d.sendKind_spec peer kind { p with opc := 0x30, attr := sub, len := p.payload.length }
  rw [same] at hf
  obtain ⟨y, hy, addressed⟩ := queued f hf
  exact ⟨y, hy, by rw [addressed], by rw [addressed], hq y addressed⟩

end Sys2Proof
end

