-- ==== Sys2Proof/Proofs/Arrivals.lean ====
section
/-! Packets that arrive on an open flow of their sender (R333, R335): what is noted of them before they are performed, and what
their acknowledgement does behind. -/

namespace Sys2Proof.Machine

/-- The device without a packet among those that the links have handed over. -/
def Dev.erasePacket (d : Dev) (p : Packet) : Dev := { d with fab := { d.fab with arrived := d.fab.arrived.erase p } }

/-- The device that has heard from the sender of a packet. -/
def Dev.reached (d : Dev) (p : Packet) : Dev :=
  let d := (d.erasePacket p).bump FLW 0 1 1
  if d.getF R.SOW_PARTNER_VALID 0 = 1 ∧ d.getF R.SOW_PARTNER_DEVICE 0 = p.src then d.setF R.SOW_HEARTBEAT_SILENT_MS 0 0 else d

theorem Dev.onFlow_eq (d : Dev) (p : Packet) (f : Dev → Dev) (hs : (d.flow p.dstFlow).state ≠ 0) (hp : (d.flow p.dstFlow).peer = p.src)
    (hd : p.dst = d.devNum) : d.onFlow p f = f (d.reached p) := by
  unfold Dev.onFlow Dev.reached
  have cond : ¬ ((decide ((d.flow p.dstFlow).state = 0) || decide ((d.flow p.dstFlow).peer ≠ p.src) || decide (p.dst ≠ d.devNum)) = true) := by
    simp [hs, hp, hd]
  exact if_neg cond

/-- What a packet that has arrived changes before it is performed. -/
structure Reached (d t : Dev) : Prop where
  kept : t = { d with fields := t.fields, fab := { d.fab with arrived := t.fab.arrived } }
  touches : Touches (homes [(R.SOW_HEARTBEAT_SILENT_MS, 0)]) d t

theorem Reached.reached (d : Dev) (p : Packet) : Reached d (d.reached p) := by
  unfold Dev.reached
  extract_lets e
  have noise : Touches (homes [(R.SOW_HEARTBEAT_SILENT_MS, 0)]) d e :=
    Touches.trans (e := d.erasePacket p) (.of_fields rfl) ((Noise.bump _ _ _ (by decide) _).touches _)
  have kept : e = { d with fields := e.fields, fab := { d.fab with arrived := e.fab.arrived } } := rfl
  clear_value e
  split
  · refine ⟨?_, noise.trans (.setF e ⟨_, List.mem_singleton_self _, rfl⟩ (by decide) 0)⟩
    rw [kept]
    rfl
  · exact ⟨kept, noise⟩

namespace Reached

variable {d t : Dev}

theorem flow (h : Reached d t) (f : Nat) : t.flow f = d.flow f := by rw [Dev.flow, Dev.flow, h.kept]
theorem mem (h : Reached d t) : t.mem = d.mem := by rw [h.kept]
theorem cells (h : Reached d t) : t.cells = d.cells := by rw [h.kept]
theorem getF (h : Reached d t) {f : Field} (hq : f.quiet = true) (hp : f.place ∉ [R.SOW_HEARTBEAT_SILENT_MS.place]) {i : Nat}
    (hi : i < 2048) : t.getF f i = d.getF f i := h.touches.getF hq hi (not_homes hp i)

end Reached

/-- The flow that has taken a packet in sequence. -/
def Flow.takes (w : Flow) : Flow := { w with rxSeq := (w.rxSeq + 1) % 2 ^ 32, owed := true }

/-- The device that has taken a packet in sequence and has not performed it yet. -/
def Dev.takes (d : Dev) (p : Packet) : Dev := (d.reached p).setFlow p.dstFlow (d.flow p.dstFlow).takes

theorem Dev.flow_takes (d : Dev) (p : Packet) : (d.takes p).flow p.dstFlow = (d.flow p.dstFlow).takes := Dev.flow_setFlow_same ..

theorem Dev.flow_takes_other (d : Dev) (p : Packet) {f : Nat} (h : f ≠ p.dstFlow) : (d.takes p).flow f = d.flow f :=
  (Dev.flow_setFlow_other _ h _).trans ((Reached.reached d p).flow f)

/-- What a packet in sequence changes before it is performed. -/
structure Taken (d t : Dev) : Prop where
  kept : t = { d with fields := t.fields, fab := { d.fab with arrived := t.fab.arrived, flows := t.fab.flows } }
  touches : Touches (homes [(R.SOW_HEARTBEAT_SILENT_MS, 0)]) d t

theorem Taken.takes (d : Dev) (p : Packet) : Taken d (d.takes p) := by
  obtain ⟨kept, touches⟩ := Reached.reached d p
  refine ⟨?_, touches.trans (.of_fields rfl)⟩
  unfold Dev.takes
  generalize d.reached p = e at kept ⊢
  rw [kept]
  rfl

namespace Taken

variable {d t : Dev}

theorem mem (h : Taken d t) : t.mem = d.mem := by rw [h.kept]
theorem cells (h : Taken d t) : t.cells = d.cells := by rw [h.kept]
theorem nv (h : Taken d t) : t.nv = d.nv := by rw [h.kept]
theorem sow (h : Taken d t) : t.sow = d.sow := by rw [h.kept]
theorem ctl (h : Taken d t) : t.ctl = d.ctl := by rw [h.kept]
theorem getF (h : Taken d t) {f : Field} (hq : f.quiet = true) (hp : f.place ∉ [R.SOW_HEARTBEAT_SILENT_MS.place]) {i : Nat}
    (hi : i < 2048) : t.getF f i = d.getF f i := h.touches.getF hq hi (not_homes hp i)
theorem colls (h : Taken d t) : t.fab.colls = d.fab.colls := by rw [h.kept]
theorem alike (h : Taken d t) : Alike d t :=
  .of_touches h.touches (fun _ hk => memoryReads_place hk (by decide)) h.mem h.sow h.nv

end Taken

/-! ### In sequence -/

theorem Dev.takeAck_old (d : Dev) {f a : Nat} (h : seqDiff a (d.flow f).txAcked ≤ 0) : d.takeAck f a = d := if_pos (.inl h)

end Sys2Proof.Machine

namespace Sys2Proof

open Machine

/-- A packet in order is taken and performed, then its acknowledgement counts. -/
theorem Machine.Dev.arrive_inOrder {s : State} {p : Packet} (h : InOrder s p) (f : Dev → Dev) :
    s.dev.arrive p f = (f (s.dev.takes p)).takeAck p.dstFlow p.ack := by
  obtain ⟨-, state, peer, dst, seq⟩ := h
  rw [Dev.arrive, Dev.onFlow_eq _ _ _ (by omega) peer dst]
  have flow := (Reached.reached s.dev p).flow p.dstFlow
  dsimp only
  rw [flow, if_neg (by omega), if_pos seq]
  rfl

theorem inOrder_of_inSequence {s : State} {p : Packet} (h : InSequence s p) : InOrder s p := by
  obtain ⟨up, state, peer, dst, seq, -⟩ := h
  exact ⟨up, state, peer, dst, seq⟩

/-- A packet in sequence that acknowledges nothing new is taken and performed. -/
theorem Machine.Dev.arrive_inSequence {s : State} {p : Packet} (h : InSequence s p) {f : Dev → Dev}
    (ha : ((f (s.dev.takes p)).flow p.dstFlow).txAcked = (s.dev.flow p.dstFlow).txAcked) : s.dev.arrive p f = f (s.dev.takes p) := by
  rw [Dev.arrive_inOrder (inOrder_of_inSequence h)]
  obtain ⟨-, -, -, -, -, ack⟩ := h
  exact Dev.takeAck_old _ (by rw [ha]; exact ack)

/-- As above, for what sends at most. -/
theorem Machine.Dev.arrive_sent {s : State} {p : Packet} (h : InSequence s p) {f : Dev → Dev} (sent : Sent (s.dev.takes p) (f (s.dev.takes p))) :
    s.dev.arrive p f = f (s.dev.takes p) :=
  Dev.arrive_inSequence h (by rw [(sent.flows _).txAcked, Dev.flow_takes]; rfl)

end Sys2Proof
end

