-- ==== Sys2Proof/Proofs/Captures.lean ====
section
/-! What an access to memory leaves of the sowing state (R375, R391): a captured write adds to the mirror outbound queue and to the
items noted as written, a raw write and a read leave all of it. -/

namespace Sys2Proof.Machine

/-- The sowing state is another one in nothing but what a capture writes. -/
structure Captured (d t : Dev) : Prop where
  kept : t.sow = { d.sow with queue := t.sow.queue, deltaLines := t.sow.deltaLines, deltaCrc := t.sow.deltaCrc, touched := t.sow.touched }

namespace Captured

variable {d e t : Dev}

theorem of_sow (h : t.sow = d.sow) : Captured d t := ⟨by rw [h]⟩

theorem refl (d : Dev) : Captured d d := of_sow rfl

theorem trans (h : Captured d e) (g : Captured e t) : Captured d t := by
  refine ⟨?_⟩
  have kept := g.kept
  rw [h.kept] at kept
  exact kept

theorem foldl {α : Type} {f : Dev → α → Dev} (h : ∀ e x, Captured e (f e x)) (xs : List α) (d : Dev) : Captured d (xs.foldl f d) := by
  induction xs generalizing d with
  | nil => exact refl d
  | cons x xs ih => exact (h d x).trans (ih _)

theorem capture (d : Dev) (line : Nat) : Captured d (d.capture line) := by
  unfold Dev.capture
  split
  · next k _ =>
    dsimp only
    split
    · exact ⟨rfl⟩
    · exact ⟨rfl⟩
  · exact refl d

end Captured

/-! ### Accesses that capture nothing -/

theorem sow_foldl {α : Type} {f : Dev → α → Dev} (h : ∀ e x, (f e x).sow = e.sow) (xs : List α) (d : Dev) : (xs.foldl f d).sow = d.sow := by
  induction xs generalizing d with
  | nil => rfl
  | cons x xs ih => exact (ih _).trans (h d x)

theorem Dev.sow_retireRow (d : Dev) (k off : Nat) : (d.retireRow k off).sow = d.sow := by
  unfold Dev.retireRow
  dsimp only
  split
  · rfl
  · split
    · rw [(Reports.memHealth ..).sow, (Reports.setErrFull ..).sow, (Reports.bump ..).sow]
    · rw [(Reports.setErr ..).sow]

theorem Dev.sow_correctWord (d : Dev) (a : Nat) : (d.correctWord a).sow = d.sow := by
  unfold Dev.correctWord
  split
  · rfl
  · extract_lets k off e row words lim
    have h : e.sow = d.sow := ((Reports.bump ..).trans (Reports.setErr ..)).sow
    clear_value e
    split
    · exact (Dev.sow_retireRow ..).trans h
    · exact h

theorem Dev.sow_poisonWord (d : Dev) (a source : Nat) : (d.poisonWord a source).sow = d.sow := by
  unfold Dev.poisonWord
  split
  · rfl
  · extract_lets k w m e₁ e₂ e₃
    have h₂ : e₂.sow = e₁.sow := ((Reports.recordUe ..).trans (Reports.bump ..)).sow
    have h₃ : e₃.sow = e₂.sow := Reports.sow (.ite ((Reports.setErrFull ..).trans (Reports.setErrFull ..))
      ((Reports.setErrFull ..).trans (Reports.setErrFull ..)))
    exact (Dev.sow_retireRow ..).trans (h₃.trans h₂)

theorem Dev.sow_meetWord (d : Dev) (w source : Nat) : (d.meetWord w source).sow = d.sow := by
  unfold Dev.meetWord
  split
  · rfl
  · rw [Dev.sow_correctWord]
  · rw [Dev.sow_poisonWord]

theorem Dev.sow_meetRange (d : Dev) (a n source : Nat) : (d.meetRange a n source).sow = d.sow :=
  sow_foldl (fun e w => e.sow_meetWord w source) _ d

theorem Dev.sow_noteRead (d : Dev) (a n : Nat) : (d.noteRead a n).sow = d.sow := by
  unfold Dev.noteRead
  dsimp only
  rw [sow_foldl (fun e w => (Reports.poisonRead e (w * 8)).sow), Dev.sow_meetRange, sow_foldl (fun e p => (Reports.bump e ..).sow)]

theorem Dev.sow_writeWord (d : Dev) (a : Nat) (bs : List Byte) : (d.writeWord a bs).sow = d.sow := by
  unfold Dev.writeWord
  extract_lets e
  have met : e.sow = d.sow := by
    unfold e
    split
    · exact Dev.sow_meetWord ..
    · rfl
  clear_value e
  split
  · exact (Reports.rmwDropped ..).sow.trans met
  · exact met

/-- The bytes of a line go in, and the line is valid. -/
def Dev.storeLine (d : Dev) (a : Nat) (bs : List Byte) : Dev := d.writeLine false a bs

theorem Dev.writeLine_captured (d : Dev) (a : Nat) (bs : List Byte) : d.writeLine true a bs = (d.storeLine a bs).capture (a / 64) := rfl

theorem Dev.sow_storeLine (d : Dev) (a : Nat) (bs : List Byte) : (d.storeLine a bs).sow = d.sow :=
  sow_foldl (f := fun e (p : Nat × List Byte) => e.writeWord p.1 p.2) (fun e p => e.sow_writeWord p.1 p.2) _
    { d with mem := { d.mem with valid := insertSet (a / 64) d.mem.valid } }

theorem Dev.sow_writeRaw (d : Dev) (a : Nat) (bs : List Byte) : (d.writeRaw a bs).sow = d.sow :=
  sow_foldl (f := fun e (p : Nat × List Byte) => e.writeLine false p.1 p.2) (fun e p => e.sow_storeLine p.1 p.2) _ d

theorem Captured.write (d : Dev) (a : Nat) (bs : List Byte) : Captured d (d.write a bs) :=
  .foldl (f := fun e (p : Nat × List Byte) => e.writeLine true p.1 p.2)
    (fun e p => (Captured.of_sow (e.sow_storeLine p.1 p.2)).trans (.capture ..)) _ d

end Sys2Proof.Machine
end

