-- ==== Sys2Proof/Proofs/Posting.lean ====
section
/-! What a completion changes (R36, R525 to R527): its ring, the counters of its port, what goes out, and command order. -/

namespace Sys2Proof.Machine

/-- Completions may have been posted. -/
structure OnRings (d t : Dev) : Prop where
  kept : t = { d with fields := t.fields, rasLog := t.rasLog, out := t.out, pci := t.pci }
  touches : Touches (homes []) d t

namespace OnRings

variable {d e t : Dev}

theorem of_noise (h : Noise d t) : OnRings d t := by
  refine ⟨?_, h.touches _⟩
  obtain ⟨_, _, _, rfl⟩ := h.reports
  rfl

theorem refl (d : Dev) : OnRings d d := of_noise (.refl d)

theorem trans (h : OnRings d e) (g : OnRings e t) : OnRings d t := by
  refine ⟨?_, h.touches.trans g.touches⟩
  have kept := g.kept
  rw [h.kept] at kept
  exact kept

theorem ite {a b : Dev} {p : Prop} [Decidable p] (ha : OnRings d a) (hb : OnRings d b) : OnRings d (if p then a else b) := by
  split
  · exact ha
  · exact hb

theorem getF (h : OnRings d t) {f : Field} (hq : f.quiet = true) {i : Nat} (hi : i < 2048) : t.getF f i = d.getF f i :=
  h.touches.getF hq hi (by simp [homes])

theorem post (d : Dev) (port ring : Nat) (front back : List Byte) : OnRings d (d.post port ring front back) := by
  unfold Dev.post
  extract_lets r e1 e2
  have sent : OnRings d e1 := of_noise (.emit ..)
  clear_value e1
  have kept (r : Ring) : OnRings e1 (e1.setCompletionRing port ring r) := by
    unfold Dev.setCompletionRing
    split
    · exact ⟨rfl, .of_fields rfl⟩
    · exact ⟨rfl, .of_fields rfl⟩
  have counted : OnRings e1 e2 := ((kept _).trans (of_noise (.bump _ _ _ (by decide) _))).trans (of_noise (.bump _ _ _ (by decide) _))
  clear_value e2
  exact (sent.trans counted).trans (ite (of_noise (.emit ..)) (refl e2))

theorem postCompletion (d : Dev) (c : JobCmd) (status value : Nat) : OnRings d (d.postCompletion c status value) := ite (refl d) (post ..)

end OnRings

/-! ### Commands that leave command order -/

/-- The order of commands without one. -/
def Dev.dropped (d : Dev) (c : JobCmd) : Dev := { d with ctl := { d.ctl with order := d.ctl.order.filter (fun e => decide (e.cmd ≠ c)) } }

/-- Commands may have completed. -/
structure Completed (d t : Dev) : Prop where
  kept : t = { d with
    fields := t.fields, rasLog := t.rasLog, out := t.out, pci := t.pci
    ctl := { d.ctl with order := t.ctl.order, markHeld := t.ctl.markHeld } }
  touches : Touches (homes []) d t

namespace Completed

variable {d e t : Dev}

theorem of_onRings (h : OnRings d t) : Completed d t := by
  refine ⟨?_, h.touches⟩
  have kept := h.kept
  have ctl : t.ctl = d.ctl := by rw [kept]
  rw [kept]

theorem refl (d : Dev) : Completed d d := of_onRings (.refl d)

theorem trans (h : Completed d e) (g : Completed e t) : Completed d t := by
  refine ⟨?_, h.touches.trans g.touches⟩
  have kept := g.kept
  rw [h.kept] at kept
  exact kept

theorem foldl {α : Type} {f : Dev → α → Dev} (h : ∀ e x, Completed e (f e x)) (xs : List α) (d : Dev) : Completed d (xs.foldl f d) := by
  induction xs generalizing d with
  | nil => exact refl d
  | cons x xs ih => exact (h d x).trans (ih _)

theorem getF (h : Completed d t) {f : Field} (hq : f.quiet = true) {i : Nat} (hi : i < 2048) : t.getF f i = d.getF f i :=
  h.touches.getF hq hi (by simp [homes])

theorem noteHeld (d : Dev) : Completed d d.noteHeld := by
  have counted (n : Nat) : Completed d (Dev.bump { d with ctl := { d.ctl with markHeld := true } } SOW 0 4 n) :=
    trans (e := { d with ctl := { d.ctl with markHeld := true } }) ⟨rfl, .of_fields rfl⟩ (of_onRings (.of_noise (.bump _ _ _ (by decide) _)))
  unfold Dev.noteHeld
  split
  · split
    · exact counted 1
    · exact refl d
  · exact refl d

theorem dropped (d : Dev) (c : JobCmd) : Completed d (d.dropped c) := ⟨rfl, .of_fields rfl⟩

theorem leaveOrder (d : Dev) (c : JobCmd) : Completed d (d.leaveOrder c) := (dropped d c).trans (noteHeld _)

theorem complete (d : Dev) (c : JobCmd) (status value : Nat) : Completed d (d.complete c status value) :=
  (leaveOrder d c).trans (of_onRings (.postCompletion ..))

end Completed

/-! ### Command order -/

theorem Dev.order_noteHeld (d : Dev) : d.noteHeld.ctl.order = d.ctl.order := by
  unfold Dev.noteHeld
  split
  · next e _ h =>
    split
    · rfl
    · rfl
  · rfl

theorem Dev.order_leaveOrder (d : Dev) (c : JobCmd) : (d.leaveOrder c).ctl.order = d.ctl.order.filter (fun e => decide (e.cmd ≠ c)) :=
  Dev.order_noteHeld _

theorem Dev.order_complete (d : Dev) (c : JobCmd) (status value : Nat) :
    (d.complete c status value).ctl.order = d.ctl.order.filter (fun e => decide (e.cmd ≠ c)) := by
  have posted := OnRings.postCompletion (d.leaveOrder c) c status value
  have ctl : (d.complete c status value).ctl = (d.leaveOrder c).ctl := by
    show ((d.leaveOrder c).postCompletion c status value).ctl = _
    rw [posted.kept]
  rw [ctl, Dev.order_leaveOrder]

end Sys2Proof.Machine
end

