-- ==== Sys2Proof/Proofs/Pairing.lean ====
section
/-! Obligation O43: pairing (R369 to R372, R376, R378, R386, R404). While no collective waits at SEAL_GATE and no STEP_MARK is held,
nothing but the exchange moves. -/

namespace Sys2Proof.Machine

/-- No STEP_MARK is held and no collective waits at SEAL_GATE. -/
structure Ungated (d : Dev) : Prop where
  measure : d.ctl.heldMeasure = none
  sent : ∀ c ∈ d.fab.colls, c.sent = true

theorem Dev.closeHeld_of_ungated {d : Dev} (h : Ungated d) : d.closeHeld = d := by
  unfold Dev.closeHeld
  rw [h.measure]

theorem Dev.openGate_of_ungated {d : Dev} (h : Ungated d) : d.openGate = d := by
  have none : d.fab.colls.filter (fun c => !c.sent) = [] := List.filter_eq_nil_iff.2 fun c hc => by simp [h.sent c hc]
  unfold Dev.openGate
  rw [none]
  exact ite_self _

/-! ### What an exchange leaves -/

/-- Command order, cells, collectives and what the flows await stay. -/
structure Exchanged (d t : Dev) : Prop where
  ctl : t.ctl = d.ctl
  cells : t.cells = d.cells
  colls : t.fab.colls = d.fab.colls
  acked : ∀ f, (t.flow f).txAcked = (d.flow f).txAcked

namespace Exchanged

variable {d e t : Dev}

theorem refl (d : Dev) : Exchanged d d := ⟨rfl, rfl, rfl, fun _ => rfl⟩

theorem trans (h : Exchanged d e) (g : Exchanged e t) : Exchanged d t :=
  ⟨g.ctl.trans h.ctl, g.cells.trans h.cells, g.colls.trans h.colls, fun f => (g.acked f).trans (h.acked f)⟩

theorem ite {a b : Dev} {p : Prop} [Decidable p] (ha : Exchanged d a) (hb : Exchanged d b) : Exchanged d (if p then a else b) := by
  split
  · exact ha
  · exact hb

theorem foldl {α : Type} {f : Dev → α → Dev} (h : ∀ e x, Exchanged e (f e x)) (xs : List α) (d : Dev) : Exchanged d (xs.foldl f d) := by
  induction xs generalizing d with
  | nil => exact refl d
  | cons x xs ih => exact (h d x).trans (ih _)

theorem of_fab (hc : t.ctl = d.ctl) (hl : t.cells = d.cells) (hf : t.fab = d.fab) : Exchanged d t :=
  ⟨hc, hl, by rw [hf], fun f => by rw [Dev.flow, Dev.flow, hf]⟩

theorem of_memOnly (h : MemOnly d t) : Exchanged d t := of_fab h.ctl h.cells (by rw [h.kept])
theorem of_noise (h : Noise d t) : Exchanged d t := of_memOnly (.of_noise h)
theorem of_sent (h : Sent d t) : Exchanged d t := ⟨h.ctl, h.cells, h.colls, fun f => (h.flows f).txAcked⟩
theorem of_compared (h : Compared d t) : Exchanged d t := of_fab (by rw [h.kept]) (by rw [h.kept]) (by rw [h.kept])
theorem setF (d : Dev) (f : Field) (i v : Nat) : Exchanged d (d.setF f i v) := of_fab rfl rfl rfl

theorem ungated (h : Exchanged d t) (g : Ungated d) : Ungated t := ⟨by rw [h.ctl]; exact g.measure, by rw [h.colls]; exact g.sent⟩

theorem settle (h : Exchanged d t) (hn : ∀ e ∈ d.ctl.order, e.phase = .running ∨ e.cmd.opc = 1) : t.settle = t :=
  Dev.settle_of_nothing_held (by rw [h.ctl]; exact hn)

end Exchanged

theorem Taken.ungated {d t : Dev} (h : Taken d t) (g : Ungated d) : Ungated t := ⟨by rw [h.ctl]; exact g.measure, by rw [h.colls]; exact g.sent⟩

/-! ### Refusal and loss -/

/-- Pairing is refused: REFUSED with its code, and nothing is mirrored. -/
theorem Dev.refusePair_spec {d : Dev} (h : Ungated d) (code : Nat) :
    let t := d.refusePair code
    Exchanged d t ∧ t.pairState = 5 ∧ t.getF R.SOW_PAIR_STATUS_CODE 0 = code % 16 ∧ t.errBit SOW 0 16 = true ∧ t.sow.queue = []
      ∧ t.sow.reqSeen = none := by
  unfold Dev.refusePair
  extract_lets _ e t
  have spent : Exchanged d e := .of_fab rfl rfl rfl
  have sow : e.sow.queue = [] ∧ e.sow.reqSeen = none := ⟨rfl, rfl⟩
  clear_value e
  have noise : Noise ((e.setPair 5).setF R.SOW_PAIR_STATUS_CODE 0 code) (((e.setPair 5).setF R.SOW_PAIR_STATUS_CODE 0 code).setErr SOW 0 16) := .setErr ..
  have shown : Exchanged d (((e.setPair 5).setF R.SOW_PAIR_STATUS_CODE 0 code).setErr SOW 0 16) :=
    ((spent.trans (.setF ..)).trans (.setF ..)).trans (.of_noise noise)
  have ht : t = ((e.setPair 5).setF R.SOW_PAIR_STATUS_CODE 0 code).setErr SOW 0 16 := by
    unfold t
    rw [Dev.closeHeld_of_ungated (shown.ungated h), Dev.openGate_of_ungated (shown.ungated h)]
  rw [ht]
  refine ⟨shown, ?_, ?_, Noise.errBit_setErr _ _ _ (by decide), by rw [noise.reports.sow]; exact sow.1, by rw [noise.reports.sow]; exact sow.2⟩
  · rw [Dev.pairState, noise.getF (by decide) (by decide), Dev.getF_setF_place (by decide), Dev.setPair, Dev.getF_setF_of_lt _ (by decide)]
  · rw [noise.getF (by decide) (by decide), Dev.getF_setF_same]
    rfl

theorem Exchanged.dropRegion (d : Dev) : Exchanged d d.dropRegion := .of_fab rfl rfl rfl

/-- A pairing ends. -/
theorem Dev.dropPair_spec {d : Dev} (h : Ungated d) :
    let t := d.dropPair
    Exchanged d t ∧ t.pairState = 0 ∧ t.sow.queue = [] ∧ t.sow.partnerSteps = [] := by
  unfold Dev.dropPair
  extract_lets e1 _ e2 t
  have first : Exchanged d e1 := (Exchanged.of_sent (.toPartner ..)).trans (.dropRegion ..)
  have steps : e1.sow.partnerSteps = [] := rfl
  clear_value e1
  have second : Exchanged e1 e2 := .of_fab rfl rfl rfl
  have queue : e2.sow.queue = [] := rfl
  have steps2 : e2.sow.partnerSteps = [] := steps
  clear_value e2
  have shown : Exchanged d (e2.setPair 0) := (first.trans second).trans (.setF ..)
  have ht : t = e2.setPair 0 := by
    unfold t
    rw [Dev.closeHeld_of_ungated (shown.ungated h), Dev.openGate_of_ungated (shown.ungated h)]
  rw [ht]
  exact ⟨shown, Dev.getF_setF_of_lt _ (by decide) _, queue, steps2⟩

theorem Dev.unpair_spec {d : Dev} (h : Ungated d) (hs : d.pairState ≠ 0) :
    let t := d.unpair
    Exchanged d t ∧ t.pairState = 0 ∧ t.sow.queue = [] ∧ t.sow.partnerSteps = [] := by
  unfold Dev.unpair
  rw [if_neg hs]
  exact Dev.dropPair_spec h

/-! ### Requests and their answers -/

/-- What failed on this device is not what a comparison with the trust table changes. -/
theorem Dev.ownFailure_of {d t : Dev} (hf : t.getF (R.GLB_FEATURES_ACTIVE 0) 0 = d.getF (R.GLB_FEATURES_ACTIVE 0) 0) (hp : t.pins = d.pins) :
    t.ownFailure = d.ownFailure := by
  unfold Dev.ownFailure Dev.feature Dev.feedOdd
  rw [hp]
  simp only [Nat.zero_div, hf]

/-- A PAIR_REQ that meets this device's own failure is refused with it. -/
theorem Dev.answerReq_failing {d : Dev} (p : Packet) (hf : d.ownFailure ≠ 0) :
    ∃ e, Exchanged d e ∧ d.answerReq p = e.refusePair d.ownFailure := by
  obtain ⟨compared, -⟩ := Dev.compareTrust_spec d 1 0 p.src ((p.payload.drop 16).take 48)
  unfold Dev.answerReq
  extract_lets r code _ e1 _ e2
  have fail : r.2.ownFailure = d.ownFailure :=
    Dev.ownFailure_of (compared.touches.getF (f := R.GLB_FEATURES_ACTIVE 0) (by decide) (by decide) (not_homes (by decide) 0)) (by
      show (d.compareTrust ..).2.pins = _
      rw [compared.kept])
  have hcode : code = d.ownFailure := by
    unfold code Dev.pairCode
    rw [if_pos (by rw [fail]; exact hf), fail]
  have first : Exchanged d e1 := (Exchanged.of_compared compared).trans (.of_sent (.toPartner ..))
  clear_value e1
  have second : Exchanged e1 e2 := .of_fab rfl rfl rfl
  clear_value e2
  rw [hcode, if_neg hf]
  exact ⟨e2, first.trans second, rfl⟩

/-! ### The check of the item table -/

/-- An entry's IMAGE_OFF is written. -/
def Dev.noteOffset (d : Dev) (x : Item × Nat) : Dev := d.write (d.itemBase + 64 * x.2 + 40) (leBytes 8 x.1.imageOff)

theorem Dev.checkItems_spec (d : Dev) : Exchanged d d.checkItems.2 ∧ d.checkItems.2.sow.reqSeen = d.sow.reqSeen := by
  unfold Dev.checkItems
  extract_lets r e its e2
  have first : Exchanged d e := ((Exchanged.setF ..).trans (.setF ..)).trans (.setF ..)
  have seen : e.sow = d.sow := rfl
  clear_value e
  have second : Exchanged e e2 := .foldl (f := Dev.noteOffset) (fun e x => .of_memOnly (.write ..)) _ e
  have kept : Captured e e2 := .foldl (f := Dev.noteOffset) (fun e x => .write ..) _ e
  clear_value e2
  split
  · exact ⟨first, by rw [seen]⟩
  · have placed : Exchanged e2 { e2 with sow := { e2.sow with items := its } } := .of_fab rfl rfl rfl
    refine ⟨((first.trans second).trans placed).trans (.setF ..), ?_⟩
    show e2.sow.reqSeen = _
    rw [kept.kept, seen]

theorem Sent.sendPairReq (d : Dev) : Sent d d.sendPairReq := .ite (.toPartner ..) (.refl d)

/-- The exchange is open, and the request has not gone out yet. -/
def Dev.opening (d : Dev) (key : Nat) (graft : Bool) : Dev :=
  let d := ((d.setPair 1).setF R.SOW_PAIR_STATUS_CODE 0 0).setF R.SOW_PAIR_STATUS_OVERRIDE 0 0
  { d with sow := { d.sow with pairKey := decide (key = 0xA55A), pairIsGraft := graft, ownAck := none, remirror := false, peerAck := none } }

theorem Dev.startPair_eq (d : Dev) (key : Nat) (graft : Bool) (ho : d.partnerOpen = true) : d.startPair key graft =
    match (d.checkItems.2.opening key graft).sendPairReq.sow.reqSeen with
    | some p => if (d.checkItems.2.opening key graft).sendPairReq.isPartner p.src then (d.checkItems.2.opening key graft).sendPairReq.answerReq p
        else (d.checkItems.2.opening key graft).sendPairReq
    | none => (d.checkItems.2.opening key graft).sendPairReq := by
  unfold Dev.startPair
  rw [ho]
  rfl

theorem Dev.opening_spec (d : Dev) (key : Nat) (graft : Bool) :
    let t := d.opening key graft
    Exchanged d t ∧ t.pairState = 1 ∧ t.getF R.SOW_PAIR_STATUS_CODE 0 = 0 ∧ t.sow.reqSeen = d.sow.reqSeen
      ∧ t.sow.pairKey = decide (key = 0xA55A) ∧ t.sow.pairIsGraft = graft := by
  unfold Dev.opening
  extract_lets e _ t
  have set : Exchanged d e := ((Exchanged.setF ..).trans (.setF ..)).trans (.setF ..)
  have state : e.pairState = 1 := by
    rw [Dev.pairState, Dev.getF_setF_place (by decide), Dev.getF_setF_place (by decide), Dev.setPair, Dev.getF_setF_of_lt _ (by decide)]
  have code : e.getF R.SOW_PAIR_STATUS_CODE 0 = 0 := by rw [Dev.getF_setF_place (by decide), Dev.getF_setF_of_lt _ (by decide)]
  have seen : e.sow.reqSeen = d.sow.reqSeen := rfl
  clear_value e
  exact ⟨set.trans (.of_fab rfl rfl rfl), state, code, seen, rfl, rfl⟩

/-- PAIR without a request that waits opens the exchange. -/
theorem Dev.startPair_spec {d : Dev} (key : Nat) (graft : Bool) (ho : d.partnerOpen = true) (hr : d.sow.reqSeen = none) :
    let t := d.startPair key graft
    Exchanged d t ∧ t.pairState = 1 ∧ t.getF R.SOW_PAIR_STATUS_CODE 0 = 0 ∧ t.sow.pairKey = decide (key = 0xA55A)
      ∧ t.sow.pairIsGraft = graft := by
  obtain ⟨checked, seen⟩ := d.checkItems_spec
  obtain ⟨opened, state, code, kept, pairKey, isGraft⟩ := d.checkItems.2.opening_spec key graft
  have sent := Sent.sendPairReq (d.checkItems.2.opening key graft)
  rw [Dev.startPair_eq d key graft ho]
  generalize d.checkItems.2.opening key graft = e at opened state code kept pairKey isGraft sent ⊢
  rw [sent.sow, kept, seen, hr]
  refine ⟨(checked.trans opened).trans (.of_sent sent), ?_, ?_, ?_, ?_⟩
  · exact (sent.getF (by decide) (by decide) (by decide)).trans state
  · exact (sent.getF (by decide) (by decide) (by decide)).trans code
  · rw [sent.sow, pairKey]
  · rw [sent.sow, isGraft]

/-! ### A base transfer -/

theorem Dev.sendBase_spec (d : Dev) :
    ∃ o n a, Sent { d with out := o, sow := { d.sow with baseNext := n, baseActive := a } } d.sendBase := by
  have stream (e : Dev) (sub : Nat) (p : Packet) : Sent e (e.sendStream sub p) := (Sent.toPartner ..).trans (.of_noise (.bump _ _ _ (by decide) _))
  unfold Dev.sendBase
  extract_lets _ off e n last _ p _
  have told : ∃ o, e = { d with out := o } := by
    unfold e
    split
    · exact ⟨_, rfl⟩
    · exact ⟨d.out, rfl⟩
  clear_value e
  obtain ⟨o, rfl⟩ := told
  exact ⟨o, _, _, stream _ 3 p⟩

/-- The log is written at its slots alone. -/
theorem Dev.logOwn_below (d : Dev) (lsn : Nat) (r : List Byte) {b : Nat} (h : b < logBase) :
    byteAt (d.logOwn lsn r).mem.bytes b = byteAt d.mem.bytes b :=
  (d.writeRaw_spec (logSlot logBase lsn) r).outside b (.inl (by unfold logSlot; omega))

/-- Records of boundaries that a base transfer covers are kept and logged anew. -/
def Dev.logAgain (d : Dev) (recs : NMap (List Byte)) : Dev :=
  recs.foldl (fun d e => Dev.logOwn { d with sow := { d.sow with recCopies := mput e.1 e.2 d.sow.recCopies } } e.1 e.2) d

theorem Dev.logAgain_spec (d : Dev) (recs : NMap (List Byte)) :
    Exchanged d (d.logAgain recs) ∧ ∀ b, b < logBase → byteAt (d.logAgain recs).mem.bytes b = byteAt d.mem.bytes b := by
  unfold Dev.logAgain
  induction recs generalizing d with
  | nil => exact ⟨.refl d, fun _ _ => rfl⟩
  | cons x xs ih =>
    have noted : Exchanged d { d with sow := { d.sow with recCopies := mput x.1 x.2 d.sow.recCopies } } := .of_fab rfl rfl rfl
    obtain ⟨rest, bytes⟩ := ih (Dev.logOwn { d with sow := { d.sow with recCopies := mput x.1 x.2 d.sow.recCopies } } x.1 x.2)
    exact ⟨(noted.trans (.of_memOnly (.writeRaw ..))).trans rest, fun b hb => (bytes b hb).trans (Dev.logOwn_below _ _ _ hb)⟩

/-- Nothing is sealed until the base transfer has ended. -/
def Dev.unseal (d : Dev) : Dev :=
  ((d.setF R.SOW_SEAL_STATUS_SEALED_VALID 0 0).setF R.SOW_LAST_SEALED 0 (2 ^ 64 - 1)).setPair 2

theorem Dev.unseal_spec (d : Dev) : Exchanged d d.unseal ∧ d.unseal.pairState = 2 ∧ d.unseal.getF R.SOW_SEAL_STATUS_SEALED_VALID 0 = 0 := by
  refine ⟨((Exchanged.setF ..).trans (.setF ..)).trans (.setF ..), Dev.getF_setF_of_lt _ (by decide) _, ?_⟩
  rw [Dev.unseal, Dev.setPair, Dev.getF_setF_place (by decide), Dev.getF_setF_place (by decide), Dev.getF_setF_of_lt _ (by decide)]

/-- The steps that a base transfer covers. -/
def Dev.basedSteps (d : Dev) : List Nat := d.sow.baseSteps ++ d.sow.unsealed

/-- Their records as they go out again. -/
def Dev.basedRecords (d : Dev) : NMap (List Byte) :=
  (d.sow.recCopies.filter (fun e => d.basedSteps.contains (recField e.2 8 8))).map (fun e => (e.1, asBased e.2))

/-- The mirror stream of a new base transfer. -/
def Dev.rebase (d : Dev) (steps : List Nat) (recs : NMap (List Byte)) : Dev :=
  { d with sow := { d.sow with
    queue := recs.map (fun (e : Nat × List Byte) => MirrorItem.record (recField e.2 8 8) e.2), baseSteps := steps, unsealed := [], deltaLines := 0,
    deltaCrc := 2 ^ 64 - 1, baseActive := true, baseNext := 0 } }

theorem Dev.startBase_eq (d : Dev) :
    d.startBase = ((d.logAgain d.basedRecords).rebase d.basedSteps d.basedRecords).unseal.sendBase.openGate := rfl

theorem Dev.startBase_spec {d : Dev} (h : Ungated d) :
    let t := d.startBase
    Exchanged d t ∧ t.pairState = 2 ∧ t.getF R.SOW_SEAL_STATUS_SEALED_VALID 0 = 0 ∧ t.sow.unsealed = []
      ∧ (d.sow.recCopies = [] → t.mem = d.mem) ∧ ∀ b, b < logBase → byteAt t.mem.bytes b = byteAt d.mem.bytes b := by
  obtain ⟨logged, bytes⟩ := d.logAgain_spec d.basedRecords
  have none : d.sow.recCopies = [] → d.logAgain d.basedRecords = d := fun hn => by rw [Dev.basedRecords, hn]; rfl
  have based (e : Dev) (steps : List Nat) (recs : NMap (List Byte)) : Exchanged e (e.rebase steps recs) := .of_fab rfl rfl rfl
  rw [Dev.startBase_eq]
  generalize d.basedRecords = recs at logged bytes none ⊢
  generalize d.basedSteps = steps
  have noted := based (d.logAgain recs) steps recs
  have unsealed : ((d.logAgain recs).rebase steps recs).sow.unsealed = [] := rfl
  have mem : ((d.logAgain recs).rebase steps recs).mem = (d.logAgain recs).mem := rfl
  generalize d.logAgain recs = e1 at logged bytes none noted unsealed mem ⊢
  generalize e1.rebase steps recs = e2 at noted unsealed mem ⊢
  obtain ⟨shown, state, valid⟩ := e2.unseal_spec
  have same : e2.unseal.sow = e2.sow ∧ e2.unseal.mem = e2.mem := ⟨rfl, rfl⟩
  generalize e2.unseal = e3 at shown state valid same ⊢
  obtain ⟨o, n, a, sent⟩ := e3.sendBase_spec
  have whole : Exchanged d e3.sendBase :=
    ((((logged.trans noted).trans shown).trans (.of_fab (t := { e3 with out := o, sow := { e3.sow with baseNext := n, baseActive := a } }) rfl rfl rfl)).trans (.of_sent sent))
  rw [Dev.openGate_of_ungated (whole.ungated h)]
  have last : e3.sendBase.mem = e1.mem := by rw [sent.mem, ← mem, ← same.2]
  refine ⟨whole, (sent.getF (by decide) (by decide) (by decide)).trans state, (sent.getF (by decide) (by decide) (by decide)).trans valid, ?_,
    fun hn => ?_, fun b hb => ?_⟩
  · rw [sent.sow]
    show e3.sow.unsealed = []
    rw [same.1, unsealed]
  · rw [last, none hn]
  · rw [last]
    exact bytes b hb

end Sys2Proof.Machine

namespace Sys2Proof

open Machine

/-! ### Messages of the partner -/

theorem isPartner_takes (d : Dev) (p : Packet) (n : Nat) : (d.takes p).isPartner n = d.isPartner n := by
  have taken := Taken.takes d p
  rw [Dev.isPartner, Dev.isPartner, taken.getF (by decide) (by decide) (by decide), taken.getF (by decide) (by decide) (by decide)]

theorem pairState_takes (d : Dev) (p : Packet) : (d.takes p).pairState = d.pairState :=
  (Taken.takes d p).getF (by decide) (by decide) (by decide)

/-- A message in sequence is taken and performed. -/
theorem mgmt_eq {s : State} {sub : Nat} {p : Packet} {f : Dev → Dev} (h : InSequence s p) (hc : p.opc = 0x30) (ha : p.attr % 256 = sub)
    (hx : ∀ g, ((f (s.dev.takes p)).flow g).txAcked = ((s.dev.takes p).flow g).txAcked) : s.dev.mgmt sub p f = f (s.dev.takes p) := by
  rw [Dev.mgmt, if_neg (by simp [hc, ha])]
  exact Dev.arrive_inSequence h (by rw [hx, Dev.flow_takes]; rfl)

theorem fromPartner_eq {s : State} {sub : Nat} {p : Packet} {f : Dev → Dev} (h : FromPartner s sub p)
    (hx : ∀ g, ((f (s.dev.takes p)).flow g).txAcked = ((s.dev.takes p).flow g).txAcked) : s.dev.fromPartner sub p f = f (s.dev.takes p) := by
  obtain ⟨seq, -, opc, attr, partner⟩ := h
  have here : (if (s.dev.takes p).isPartner p.src = true then f (s.dev.takes p) else s.dev.takes p) = f (s.dev.takes p) :=
    if_pos (by rw [isPartner_takes]; exact partner)
  rw [Dev.fromPartner, mgmt_eq (f := fun d => if d.isPartner p.src = true then f d else d) seq opc attr (by rw [here]; exact hx)]
  exact here

/-- A message of the partner that opens, answers or ends an exchange. -/
theorem Answers.of_fromPartner {c : Instr} {s : State} {sub : Nat} {p : Packet} {f : Dev → Dev} {post : Dev → Prop} (hu : s.dev.up = true)
    (h : FromPartner s sub p) (he : exec c s = s.onDev (fun d => (d.fromPartner sub p f).settle))
    (hx : Exchanged (s.dev.takes p) (f (s.dev.takes p))) (hp : post (f (s.dev.takes p))) : Answers c s post := by
  refine .of_onDev _ he hu ?_
  have none : NothingHeld s := h.2.1
  rw [fromPartner_eq h hx.acked, hx.settle (by rw [(Taken.takes s.dev p).ctl]; exact none)]
  exact hp

section

variable {s : State} {w : Writer} {p : Packet} (hu : s.dev.up = true)

include hu

theorem pairs {graft : Bool} {c : Instr} {key : Nat} (hc : exec c s = s.byWriter w (fun d => (d.startPair key graft).settle))
    (hn : NothingHeld s) (hw : s.own.mayWrite w = true) (ho : s.dev.partnerOpen = true) (hr : s.dev.sow.reqSeen = none) :
    Answers c s fun t => t.pairState = 1 ∧ t.getF R.SOW_PAIR_STATUS_CODE 0 = 0 ∧ t.sow.pairKey = decide (key = 0xA55A)
      ∧ t.sow.pairIsGraft = graft ∧ t.cells = s.dev.cells := by
  obtain ⟨exchanged, state, code, pairKey, isGraft⟩ := Dev.startPair_spec key graft ho hr
  refine .of_byWriter ⟨hu, hw⟩ _ hc ?_
  rw [exchanged.settle hn]
  exact ⟨state, code, pairKey, isGraft, exchanged.cells⟩

theorem pair_locked (key : Nat) (hn : NothingHeld s) (hw : s.own.mayWrite w = true) (ho : s.dev.partnerOpen = false) :
    Answers (.pair w key) s fun t => t.pairState = s.dev.pairState ∧ t.errBit SOW 0 0 = true ∧ t.sow = s.dev.sow ∧ t.mem = s.dev.mem := by
  have noise : Noise s.dev (s.dev.lockedWrite SOW 0) := .lockedWrite ..
  have locked : s.dev.startPair key false = s.dev.lockedWrite SOW 0 := by
    unfold Dev.startPair
    rw [ho]
    rfl
  refine .of_byWriter ⟨hu, hw⟩ _ (Eq.refl (execPair ..)) ?_
  rw [locked, (Exchanged.of_noise noise).settle hn]
  exact ⟨noise.getF (by decide) (by decide), Noise.errBit_lockedWrite .., noise.reports.sow, noise.reports.mem⟩

theorem unpair_unpaired (hn : NothingHeld s) (hw : s.own.mayWrite w = true) (hs : s.dev.pairState = 0) :
    Answers (.unpair w) s fun t => t = s.dev := by
  refine .of_byWriter ⟨hu, hw⟩ _ (Eq.refl (execUnpair ..)) ?_
  rw [Dev.unpair, if_pos hs, Dev.settle_of_nothing_held hn]

theorem unpairs (hg : Ungated s.dev) (hn : NothingHeld s) (hw : s.own.mayWrite w = true) (hs : s.dev.pairState ≠ 0) :
    Answers (.unpair w) s fun t => t.pairState = 0 ∧ t.sow.queue = [] ∧ t.sow.partnerSteps = [] ∧ t.cells = s.dev.cells := by
  obtain ⟨exchanged, state, queue, steps⟩ := Dev.unpair_spec hg hs
  refine .of_byWriter ⟨hu, hw⟩ _ (Eq.refl (execUnpair ..)) ?_
  rw [exchanged.settle hn]
  exact ⟨state, queue, steps, exchanged.cells⟩

theorem unpaired_by_partner (hg : Ungated s.dev) (h : FromPartner s 14 p) (hs : s.dev.pairState ≠ 0) :
    Answers (.unpairMsg p) s fun t => t.pairState = 0 ∧ t.sow.queue = [] := by
  obtain ⟨exchanged, state, queue, -⟩ := Dev.unpair_spec ((Taken.takes s.dev p).ungated hg) (by rw [pairState_takes]; exact hs)
  exact .of_fromPartner hu h (Eq.refl (execUnpairMsg ..)) exchanged ⟨state, queue⟩

/-- A request that comes while no exchange is open waits for a PAIR. -/
theorem pairReq_waits (h : FromPartner s 1 p) (hs : s.dev.pairState = 0 ∨ s.dev.pairState = 5) :
    Answers (.pairReq p) s fun t => t.sow.reqSeen = some p ∧ t.pairState = s.dev.pairState ∧ t.mem = s.dev.mem := by
  obtain ⟨seq, none, opc, attr, -⟩ := h
  have taken := Taken.takes s.dev p
  have state := pairState_takes s.dev p
  refine .of_onDev _ (Eq.refl (execPairReq ..)) hu ?_
  have keeps : (s.dev.takes p).takePairReq p = { s.dev.takes p with sow := { (s.dev.takes p).sow with reqSeen := some p } } := by
    unfold Dev.takePairReq
    dsimp only
    rw [state, if_pos hs]
  rw [mgmt_eq (f := fun d => d.takePairReq p) seq opc attr (fun g => by rw [keeps]; rfl), keeps,
    Dev.settle_of_nothing_held (by show ∀ e ∈ (s.dev.takes p).ctl.order, _; rw [taken.ctl]; exact none)]
  exact ⟨rfl, state, taken.mem⟩

/-- What a refusal shows. -/
def Refused (d t : Dev) (code : Nat) : Prop :=
  t.pairState = 5 ∧ t.getF R.SOW_PAIR_STATUS_CODE 0 = code % 16 ∧ t.errBit SOW 0 16 = true ∧ t.sow.queue = [] ∧ t.sow.reqSeen = none
    ∧ t.cells = d.cells

omit hu in
theorem refused_of {d e : Dev} (hg : Ungated d) (hx : Exchanged d e) (code : Nat) :
    Exchanged d (e.refusePair code) ∧ Refused d (e.refusePair code) code := by
  obtain ⟨exchanged, state, shown, err, queue, seen⟩ := Dev.refusePair_spec (hx.ungated hg) code
  exact ⟨hx.trans exchanged, state, shown, err, queue, seen, (hx.trans exchanged).cells⟩

theorem pairReq_refused (hg : Ungated s.dev) (h : FromPartner s 1 p) (hs : s.dev.pairState = 1) (hf : s.dev.ownFailure ≠ 0) :
    Answers (.pairReq p) s fun t => Refused s.dev t s.dev.ownFailure := by
  obtain ⟨seq, none, opc, attr, partner⟩ := h
  have taken := Taken.takes s.dev p
  have fail : (s.dev.takes p).ownFailure = s.dev.ownFailure :=
    Dev.ownFailure_of (taken.touches.getF (f := R.GLB_FEATURES_ACTIVE 0) (by decide) (by decide) (by unfold homes; decide)) (by rw [taken.kept])
  obtain ⟨e, exchanged, answer⟩ := Dev.answerReq_failing (d := s.dev.takes p) p (by rw [fail]; exact hf)
  obtain ⟨whole, refused⟩ := refused_of (taken.ungated hg) exchanged s.dev.ownFailure
  have judged : (s.dev.takes p).takePairReq p = e.refusePair s.dev.ownFailure := by
    unfold Dev.takePairReq
    dsimp only
    rw [pairState_takes, if_neg (by omega), isPartner_takes, partner, if_neg (by simp), if_pos hs, answer, fail]
  refine .of_onDev _ (Eq.refl (execPairReq ..)) hu ?_
  rw [mgmt_eq (f := fun d => d.takePairReq p) seq opc attr (fun g => by rw [judged]; exact whole.acked g), judged,
    whole.settle (by rw [taken.ctl]; exact none)]
  rw [Refused, taken.cells] at refused
  exact refused

theorem pairAck_refused (hg : Ungated s.dev) (h : FromPartner s 2 p) (hs : s.dev.pairState = 1) (hp : p.status ≠ 0) :
    Answers (.pairAck p) s fun t => Refused s.dev t p.status := by
  have taken := Taken.takes s.dev p
  have noted : Exchanged (s.dev.takes p) { s.dev.takes p with sow := { (s.dev.takes p).sow with peerAck := some p.status } } := .of_fab rfl rfl rfl
  obtain ⟨whole, refused⟩ := refused_of (taken.ungated hg) noted (p.status % 16)
  have judged : (s.dev.takes p).takePairAck p =
      Dev.refusePair { s.dev.takes p with sow := { (s.dev.takes p).sow with peerAck := some p.status } } (p.status % 16) := by
    unfold Dev.takePairAck
    dsimp only
    rw [pairState_takes, if_neg (by omega), if_neg hp]
  refine .of_fromPartner (f := fun d => d.takePairAck p) hu h (Eq.refl (execPairAck ..)) (by rw [judged]; exact whole) ?_
  rw [judged]
  rw [Refused, taken.cells, Nat.mod_mod] at refused
  exact refused

theorem pairAck_waits (h : FromPartner s 2 p) (hs : s.dev.pairState = 1) (hp : p.status = 0) (ho : s.dev.sow.ownAck = none) :
    Answers (.pairAck p) s fun t => t.sow.peerAck = some 0 ∧ t.pairState = 1 ∧ t.mem = s.dev.mem := by
  have taken := Taken.takes s.dev p
  have noted : Exchanged (s.dev.takes p) { s.dev.takes p with sow := { (s.dev.takes p).sow with peerAck := some 0 } } := .of_fab rfl rfl rfl
  have judged : (s.dev.takes p).takePairAck p = { s.dev.takes p with sow := { (s.dev.takes p).sow with peerAck := some 0 } } := by
    unfold Dev.takePairAck
    dsimp only
    rw [pairState_takes, if_neg (by omega), if_pos hp, hp]
    exact if_neg (fun h => by rw [taken.sow, ho] at h; cases h.1)
  refine .of_fromPartner (f := fun d => d.takePairAck p) hu h (Eq.refl (execPairAck ..)) (by rw [judged]; exact noted) ?_
  rw [judged]
  exact ⟨rfl, (pairState_takes s.dev p).trans hs, taken.mem⟩

theorem pairResponse_times_out (hg : Ungated s.dev) (hn : NothingHeld s) (hs : s.dev.pairState = 1) (ho : s.dev.sow.ownAck = none) :
    Answers .pairResponseTimeout s fun t => Refused s.dev t (if s.dev.ownFailure ≠ 0 then s.dev.ownFailure else 4) := by
  obtain ⟨whole, refused⟩ := refused_of hg
    (.of_sent (.toPartner s.dev 2 { packetOf 0x30 with status := if s.dev.ownFailure ≠ 0 then s.dev.ownFailure else 4 }))
    (if s.dev.ownFailure ≠ 0 then s.dev.ownFailure else 4)
  refine .of_onDev _ (Eq.refl (execPairResponseTimeout ..)) hu ?_
  rw [Dev.pairTimeout, if_pos ⟨hs, ho⟩, whole.settle hn]
  exact refused

/-! ### Heartbeats and silence -/

theorem heartbeat_heard (h : FromPartner s 7 p) : Answers (.heartbeat p) s fun t =>
    t.getF R.SOW_HEARTBEAT_SILENT_MS 0 = 0 ∧ t.sow = s.dev.sow ∧ t.mem = s.dev.mem ∧ t.cells = s.dev.cells := by
  have taken := Taken.takes s.dev p
  refine .of_onDev _ (Eq.refl (execHeartbeat ..)) hu ?_
  rw [fromPartner_eq (f := fun d => d) h (fun _ => rfl)]
  refine ⟨?_, taken.sow, taken.mem, taken.cells⟩
  have partner : s.dev.isPartner p.src = true := h.2.2.2.2
  rw [Dev.isPartner, Bool.and_eq_true, decide_eq_true_eq, decide_eq_true_eq] at partner
  have noise : Noise (s.dev.erasePacket p) ((s.dev.erasePacket p).bump FLW 0 1 1) := .bump _ _ _ (by decide) _
  have silent : s.dev.reached p = ((s.dev.erasePacket p).bump FLW 0 1 1).setF R.SOW_HEARTBEAT_SILENT_MS 0 0 := by
    unfold Dev.reached
    extract_lets e
    refine if_pos ?_
    rw [noise.getF (by decide) (by decide), noise.getF (by decide) (by decide)]
    exact partner
  show (s.dev.reached p).getF R.SOW_HEARTBEAT_SILENT_MS 0 = 0
  rw [silent, Dev.getF_setF_of_lt _ (by decide)]

theorem silence_loses (hs : s.dev.streaming = true) : Answers .partnerSilenceTimeout s fun t =>
    t.pairState = 4 ∧ t.errBit SOW 0 17 = true ∧ t.harvest.asked = [] ∧ t.mem = s.dev.mem := by
  refine .of_onDev _ (Eq.refl (execPartnerSilenceTimeout ..)) hu ?_
  rw [if_pos hs]
  have noise : Noise (s.dev.setPair 4) ((s.dev.setPair 4).setErr SOW 0 17) := .setErr ..
  have state : ((s.dev.setPair 4).setErr SOW 0 17).pairState = 4 :=
    (noise.getF (by decide) (by decide)).trans (Dev.getF_setF_of_lt _ (by decide) _)
  have err : ((s.dev.setPair 4).setErr SOW 0 17).errBit SOW 0 17 = true := Noise.errBit_setErr _ _ _ (by decide)
  have mem : ((s.dev.setPair 4).setErr SOW 0 17).mem = s.dev.mem := noise.reports.mem
  dsimp only
  generalize (s.dev.setPair 4).setErr SOW 0 17 = e at state err mem ⊢
  have ended : Completed { e with harvest := { e.harvest with asked := [] } }
      (e.harvest.asked.foldl (fun d c => d.complete c 0x54 0) { e with harvest := { e.harvest with asked := [] } }) :=
    .foldl (fun d c => .complete ..) _ _
  refine ⟨(ended.getF (by decide) (by decide)).trans state, ended.touches.errs _ _ _ (by decide) err, ?_, ?_⟩
  · rw [ended.kept]
  · rw [ended.kept]
    exact mem

omit hu in
/-- A REMIRROR that is due goes out as soon as a flow carries it, outside CONFIG. -/
theorem Machine.Dev.askMirror_cases (d : Dev) :
    let t := if d.getF R.SOW_RECOVERY_PHASE 0 = 3 then d else d.askMirror
    t = d ∧ (d.sow.remirror = true → d.getF R.SOW_PARTNER_VALID 0 = 1 → d.getF R.SOW_RECOVERY_PHASE 0 ≠ 3 → ∀ f, t.flowKind d.partner 3 ≠ some f)
      ∨ d.sow.remirror = true ∧ t = { d with sow := { d.sow with remirror := false } }.toPartner 15 (packetOf 0x30) := by
  intro t
  by_cases hp : d.getF R.SOW_RECOVERY_PHASE 0 = 3
  · have ht : t = d := if_pos hp
    exact .inl ⟨ht, fun _ _ hn => absurd hp hn⟩
  · have ht : t = d.askMirror := if_neg hp
    unfold Dev.askMirror at ht
    split at ht
    · next due =>
      rw [Bool.and_eq_true, Bool.and_eq_true] at due
      exact .inr ⟨due.1.1, ht⟩
    · next due =>
      refine .inl ⟨ht, fun hr hv _ f hf => due ?_⟩
      rw [ht] at hf
      rw [hr, hf, decide_eq_true hv]
      rfl

/-- A heartbeat goes out, with the REMIRROR that a cold reset owes. -/
theorem heartbeat_sent (hs : s.dev.pairStands = true) : Answers .heartbeatTimer s fun t =>
    t.getF R.SOW_HEARTBEAT_SILENT_MS 0 = min (2 ^ R.SOW_HEARTBEAT_SILENT_MS.width - 1) (s.dev.getF R.SOW_HEARTBEAT_SILENT_MS 0 + 100)
      ∧ (s.dev.sow.remirror = false → t.sow = s.dev.sow)
      ∧ (s.dev.sow.remirror = true → s.dev.getF R.SOW_PARTNER_VALID 0 = 1 → s.dev.getF R.SOW_RECOVERY_PHASE 0 ≠ 3 →
          ∀ f, t.flowKind s.dev.partner 3 = some f → t.sow.remirror = false ∧ Queued t f 15 fun _ => True)
      ∧ t.mem = s.dev.mem ∧ ∀ f, t.flowKind s.dev.partner 3 = some f →
        Queued t f 7 fun x => x.op1 = s.dev.sow.reached ∧ x.op2 = s.dev.getF R.SOW_LAST_SEALED 0 := by
  refine .of_onDev _ (Eq.refl (execHeartbeatTimer ..)) hu ?_
  rw [if_pos hs]
  extract_lets _ e1 e2
  have sent : Sent s.dev e1 := .toPartner ..
  have beat : ∀ f, e1.flowKind s.dev.partner 3 = some f → Queued e1 f 7 fun x => x.op1 = s.dev.sow.reached ∧ x.op2 = s.dev.getF R.SOW_LAST_SEALED 0 :=
    queued_sendMgmt rfl fun y hy => by rw [hy]; exact ⟨rfl, rfl⟩
  have partner : e1.partner = s.dev.partner := sent.getF (by decide) (by decide) (by decide)
  have kept {f : Field} (hq : f.quiet = true) (hp : f.place ∉ [R.FLW_POOL_FREE_N.place, R.FLW_POOL_FREE_S.place]) :
      e1.getF f 0 = s.dev.getF f 0 := sent.getF hq hp (by decide)
  clear_value e1
  have silent : e2.satAdd R.SOW_HEARTBEAT_SILENT_MS 0 100 = e2.setF R.SOW_HEARTBEAT_SILENT_MS 0
      (min (2 ^ R.SOW_HEARTBEAT_SILENT_MS.width - 1) (e2.getF R.SOW_HEARTBEAT_SILENT_MS 0 + 100)) := rfl
  have lt (n : Nat) : min (2 ^ R.SOW_HEARTBEAT_SILENT_MS.width - 1) n < 2 ^ R.SOW_HEARTBEAT_SILENT_MS.width :=
    lt_of_le_of_lt (Nat.min_le_left ..) (by decide)
  have due : e2 = e1 ∧ (s.dev.sow.remirror = true → s.dev.getF R.SOW_PARTNER_VALID 0 = 1 → s.dev.getF R.SOW_RECOVERY_PHASE 0 ≠ 3 →
        ∀ f, e2.flowKind s.dev.partner 3 ≠ some f)
      ∨ s.dev.sow.remirror = true ∧ e2 = { e1 with sow := { e1.sow with remirror := false } }.toPartner 15 (packetOf 0x30) := by
    rw [← sent.sow, ← partner, ← kept (f := R.SOW_PARTNER_VALID) (by decide) (by decide), ← kept (f := R.SOW_RECOVERY_PHASE) (by decide) (by decide)]
    exact e1.askMirror_cases
  clear_value e2
  rw [silent]
  rcases due with ⟨rfl, none⟩ | ⟨remirror, rfl⟩
  · refine ⟨?_, fun _ => sent.sow, fun hr hv hp f hf => absurd hf (none hr hv hp f), sent.mem, beat⟩
    rw [Dev.getF_setF_of_lt _ (lt _), kept (by decide) (by decide)]
  · have again : Sent { e1 with sow := { e1.sow with remirror := false } }
        ({ e1 with sow := { e1.sow with remirror := false } }.toPartner 15 (packetOf 0x30)) := .toPartner ..
    have asked : ∀ f, ({ e1 with sow := { e1.sow with remirror := false } }.toPartner 15 (packetOf 0x30)).flowKind e1.partner 3 = some f →
        Queued ({ e1 with sow := { e1.sow with remirror := false } }.toPartner 15 (packetOf 0x30)) f 15 fun _ => True :=
      queued_sendMgmt rfl fun _ _ => trivial
    have same : ({ e1 with sow := { e1.sow with remirror := false } }.toPartner 15 (packetOf 0x30)).flowKind e1.partner 3 = e1.flowKind e1.partner 3 :=
      (Dev.sendKind_spec ..).1
    generalize { e1 with sow := { e1.sow with remirror := false } }.toPartner 15 (packetOf 0x30) = e2 at again asked same ⊢
    rw [partner] at asked same
    refine ⟨?_, fun hr => absurd (hr.symm.trans remirror) (by simp), fun _ _ _ f hf => ⟨by show e2.sow.remirror = false; rw [again.sow], asked f hf⟩,
      again.mem.trans sent.mem, fun f hf => ?_⟩
    · rw [Dev.getF_setF_of_lt _ (lt _), again.getF (by decide) (by decide) (by decide)]
      exact congrArg (fun n => min _ (n + 100)) (kept (by decide) (by decide))
    · have before : Queued { e1 with sow := { e1.sow with remirror := false } } f 7 fun x =>
          x.op1 = s.dev.sow.reached ∧ x.op2 = s.dev.getF R.SOW_LAST_SEALED 0 := beat f (same ▸ hf)
      exact Queued.sent (t := e2) (q := fun x => x.op1 = s.dev.sow.reached ∧ x.op2 = s.dev.getF R.SOW_LAST_SEALED 0) (fun x y xy hx => by rw [xy]; exact hx) before again

/-! ### The partner asks for a base transfer -/

theorem remirrors (hg : Ungated s.dev) (h : FromPartner s 15 p) (hs : s.dev.pairStands = true) : Answers (.remirror p) s fun t =>
    t.pairState = 2 ∧ t.getF R.SOW_SEAL_STATUS_SEALED_VALID 0 = 0 ∧ t.sow.unsealed = [] ∧ (s.dev.sow.recCopies = [] → t.mem = s.dev.mem)
      ∧ ∀ b, b < logBase → byteAt t.mem.bytes b = byteAt s.dev.mem.bytes b := by
  have taken := Taken.takes s.dev p
  obtain ⟨exchanged, state, valid, unsealed, mem, bytes⟩ := Dev.startBase_spec (taken.ungated hg)
  have begins : (if (s.dev.takes p).pairStands = true then (s.dev.takes p).newBase else s.dev.takes p) = (s.dev.takes p).startBase := by
    rw [if_pos (by rw [Dev.pairStands, pairState_takes]; exact hs), Dev.newBase,
      Dev.closeHeld_of_ungated (exchanged.ungated (taken.ungated hg))]
  refine .of_onDev _ (Eq.refl (execRemirror ..)) hu ?_
  rw [fromPartner_eq (f := fun d => if d.pairStands then d.newBase else d) h (fun g => by rw [begins]; exact exchanged.acked g), begins]
  rw [taken.sow, taken.mem] at mem
  rw [taken.mem] at bytes
  exact ⟨state, valid, unsealed, mem, bytes⟩

end

/-- Settles O43: while nothing is gated, each command of the exchange moves the pairing as its rules say. -/
theorem pairingFollowsItsExchange : Obligations.PairingFollowsItsExchange := by
  intro s w key p hu hn hm hg
  have ungated : Ungated s.dev := ⟨hm, hg⟩
  refine ⟨fun hw ho hr => ⟨pairs hu (Eq.refl (execPair ..)) hn hw ho hr, pairs hu (Eq.refl (execPairGraft ..)) hn hw ho hr⟩,
    pair_locked hu key hn, unpair_unpaired hu hn, unpairs hu ungated hn, unpaired_by_partner hu ungated, pairReq_waits hu,
    pairReq_refused hu ungated, pairAck_refused hu ungated, pairAck_waits hu, pairResponse_times_out hu ungated hn, heartbeat_heard hu,
    heartbeat_sent hu, silence_loses hu, remirrors hu ungated⟩

end Sys2Proof
end

