-- ==== Sys2Proof/Proofs/MirrorSeal.lean ====
section
/-! Obligation O44: the header of the mirror region is written a byte at a time, and between its two STATEs an access meets wrong bits that
were listed behind others of the same word. -/

namespace Sys2Proof

open Machine

/-- The device that a command on it leaves. -/
theorem dev_of_onDev {c : Instr} {s t : State} {f : Dev → Dev} (hu : s.dev.up = true) (he : exec c s = s.onDev f) (ran : exec c s = .next t) :
    t.dev = f s.dev := by
  rw [he, State.onDev, if_pos hu] at ran
  injection ran with h
  rw [← h]

/-- What a RECORD packet of the partner does. -/
def Machine.Dev.takeRecords (d : Dev) (p : Packet) : Dev :=
  ((chunks 512 8 p.payload).foldl (fun d r => d.takeRecord r) (d.streamIn p)).trySeals

theorem exec_record (p : Packet) (s : State) : exec (.record p) s = s.onDev (fun d => d.fromPartner 5 p (fun d => d.takeRecords p)) := rfl

/-- A record with its CHECK. -/
def checkedRecord (head body : List Byte) : List Byte := head ++ (leBytes 4 (crc32c (head ++ List.replicate 4 0 ++ body)) ++ body)

theorem recordOk_checkedRecord {head body : List Byte} (hh : head.length = 28) (hb : body.length = 480) :
    recordOk (checkedRecord head body) = true := by
  unfold checkedRecord
  generalize hx : crc32c (head ++ List.replicate 4 0 ++ body) = x
  have lt : x < 256 ^ 4 := hx ▸ crc32c_lt _
  have four : (leBytes 4 x).length = 4 := leBytes_length 4 x
  have front : (head ++ (leBytes 4 x ++ body)).take 28 = head := List.take_left' hh
  have behind : (head ++ (leBytes 4 x ++ body)).drop 28 = leBytes 4 x ++ body := List.drop_left' hh
  have last : (head ++ (leBytes 4 x ++ body)).drop 32 = body := by rw [← List.drop_drop (i := 4) (j := 28), behind, List.drop_left' four]
  rw [recordOk, front, behind, last, List.take_left' four, leNat_leBytes, Nat.mod_eq_of_lt lt, hx]
  simp [four, hh, hb]

/-- The head of step 0's STEP_SEAL up to CHECK. -/
def sealHead : List Byte := [1, 1] ++ List.replicate 26 0

/-- Its body: the step has one record, and no delta. -/
def sealBody : List Byte := [1] ++ List.replicate 479 0

/-- The STEP_SEAL of a step without any other record. -/
def lonelySeal : List Byte := checkedRecord sealHead sealBody

/-- Step 0 of the partner, whole with its seal. -/
def wholeStep : PartnerStep := ⟨0, [lonelySeal], 0, 2 ^ 64 - 1, false⟩

theorem whole_wholeStep : wholeStep.whole = true := by
  have ok : recordOk lonelySeal = true := recordOk_checkedRecord (by rw [sealHead, List.length_append, List.length_replicate]; rfl)
    (by rw [sealBody, List.length_append, List.length_replicate]; rfl)
  have count : isSeal lonelySeal = true ∧ recField lonelySeal 32 4 = 1 ∧ recField lonelySeal 2 2 = 0 ∧ recField lonelySeal 40 8 = 0
      ∧ recField lonelySeal 48 8 = 0 := by decide +kernel
  obtain ⟨typ, records, index, lines, crc⟩ := count
  simp [PartnerStep.whole, recordsWhole, wholeStep, ok, typ, records, index, lines, crc]

/-- A device in service with an open flow of its partner, whose step 0 can seal; the header's first word is listed with no wrong bits, and
again with two. -/
def metHeader : State :=
  { State.reset with dev := { State.reset.dev with
      nv := { State.reset.dev.nv with grade := 15, spares := [] }
      fields := [(R.SOW_PARTNER_VALID.key 0, 1)]
      mem := { State.reset.dev.mem with bytes := [(logBase, 3)], flips := [(logBase / 8, 0), (logBase / 8, 2)] }
      sow := { State.reset.dev.sow with partnerSteps := [wholeStep] }
      fab := { State.reset.dev.fab with flows := [(0, { Flow.none with state := 1 })] } } }

theorem sealable_of {d : Dev} (hb : d.sow.partnerBase = false) (hr : d.sow.refetch = []) (hs : d.regionState = 3)
    (hp : d.sow.partnerSteps = [wholeStep]) : d.sealable = some wholeStep := by
  have early : wholeStep.early = false := rfl
  have whole := whole_wholeStep
  unfold Dev.sealable
  rw [hb, hr, hs, hp]
  generalize wholeStep = x at early whole
  simp [early, whole]

/-- A RECORD packet without a record. -/
def emptyRecords : Packet := { packetOf 0x30 with attr := 5 }

/-- The device that has taken it. -/
def tookRecords : Dev := (metHeader.dev.takes emptyRecords).streamIn emptyRecords

theorem Machine.Exchanged.mergeSlot (d : Dev) (k : Nat) : Exchanged d (d.mergeSlot k) := by
  unfold Dev.mergeSlot
  generalize d.dirtyLines k = ls
  refine .foldl (fun e l => ?_) ls d
  have raw (a : Nat) (bs : List Byte) : Exchanged e (e.writeRaw a bs) := .of_memOnly (.writeRaw ..)
  have noted (j : List (Nat × List Byte)) : Exchanged e { e with harvest := { e.harvest with journal := j } } := .of_fab rfl rfl rfl
  extract_lets line
  exact .ite (noted _) (raw _ _)

/-- STATE, and what else the header shows of a sealed step. -/
def Machine.Dev.showSealed (d : Dev) (x : PartnerStep) : Dev :=
  (d.writeRaw (d.mirrorBase + 8) (leBytes 8 x.step ++ leBytes 8 ((x.records.getLast?).elim 0 (fun r => recField r 16 8 + 1)))).setRegion 1

/-- A sealed step is done with, and harvests that waited for it are pinned. -/
def Machine.Dev.forgetSealed (d : Dev) (x : PartnerStep) : Dev :=
  { d with sow := { d.sow with partnerSteps := d.sow.partnerSteps.filter (fun y => decide (x.step < y.step)) },
           harvest := { d.harvest with serving := d.harvest.serving.map (fun h => if h.step = x.step then { h with pinned := true } else h) } }

theorem Machine.Dev.sealPartner_eq (d : Dev) (x : PartnerStep) : d.sealPartner x =
    (((((d.toPartner 6 { packetOf 0x30 with op1 := x.step }).setRegion 2).mergeSlot (x.step % 2)).clearSlot (x.step % 2)).showSealed x).forgetSealed x := by
  unfold Dev.sealPartner Dev.showSealed Dev.forgetSealed
  with_reducible rfl

theorem Machine.Exchanged.sealPartner (d : Dev) (x : PartnerStep) : Exchanged d (d.sealPartner x) := by
  have sent := Exchanged.of_sent (.toPartner d 6 { packetOf 0x30 with op1 := x.step })
  have raw (e : Dev) (a : Nat) (bs : List Byte) : Exchanged e (e.writeRaw a bs) := .of_memOnly (.writeRaw ..)
  have cleared (e : Dev) (k : Nat) : Exchanged e (e.clearSlot k) := .of_fab rfl rfl rfl
  have forgotten (e : Dev) : Exchanged e (e.forgetSealed x) := .of_fab rfl rfl rfl
  rw [Dev.sealPartner_eq]
  exact ((((sent.trans (raw ..)).trans (.mergeSlot ..)).trans (cleared ..)).trans ((raw ..).trans (raw ..))).trans (forgotten _)

theorem trySeals_tookRecords : tookRecords.trySeals = tookRecords.sealPartner wholeStep := by
  have sow : tookRecords.sow = metHeader.dev.sow := (Taken.takes metHeader.dev emptyRecords).sow
  have able : tookRecords.sealable = some wholeStep := by
    refine sealable_of ?_ ?_ (by decide +kernel) ?_
    · rw [sow]; rfl
    · rw [sow]; rfl
    · rw [sow]; rfl
  have pinned : tookRecords.pinned = false := by decide +kernel
  have done : (tookRecords.sealPartner wholeStep).sealable = none := by decide +kernel
  have steps : tookRecords.sow.partnerSteps.length = 1 := by rw [sow]; rfl
  rw [Dev.trySeals, steps, Dev.trySeal, able, pinned]
  simp only [Bool.false_and, Bool.false_eq_true, if_false]
  rw [Dev.trySeal, done]

theorem regionState_tookRecords : (tookRecords.sealPartner wholeStep).regionState = 2 := by decide +kernel

/-- Refutes O44: the first STATE leaves the word's second entry of wrong bits standing, and the last STATE meets it and is dropped. -/
theorem not_mirrorStreamReachesThePartner : ¬ Obligations.MirrorStreamReachesThePartner := by
  intro h
  obtain ⟨-, -, -, -, -, -, sealed⟩ := h metHeader emptyRecords 0 0 [] [] [] [] wholeStep (by decide) (by decide)
  have inSequence : InSequence metHeader emptyRecords := ⟨by decide, .inl (by decide), by decide, by decide, by decide, by decide⟩
  have fromPartner : FromPartner metHeader 5 emptyRecords := ⟨inSequence, fun _ h => absurd h List.not_mem_nil, by decide, by decide, by decide⟩
  have able : metHeader.dev.sealable = some wholeStep := sealable_of rfl rfl (by decide +kernel) rfl
  obtain ⟨t, ran, -, -, state, -⟩ := sealed fromPartner rfl rfl able (by decide) (by decide) (by decide)
  have taken : metHeader.dev.fromPartner 5 emptyRecords (fun d => d.takeRecords emptyRecords) = tookRecords.sealPartner wholeStep := by
    have counted : Exchanged (metHeader.dev.takes emptyRecords) tookRecords := .of_noise (.bump _ _ _ (by decide) _)
    rw [fromPartner_eq fromPartner (fun g => ?_)]
    · exact trySeals_tookRecords
    · show (tookRecords.trySeals.flow g).txAcked = _
      rw [trySeals_tookRecords]
      exact (counted.trans (.sealPartner ..)).acked g
  have dev : t.dev = tookRecords.sealPartner wholeStep := (dev_of_onDev (by decide) (exec_record ..) ran).trans taken
  rw [dev, regionState_tookRecords] at state
  exact absurd state (by decide)

end Sys2Proof
end

