-- ==== Sys2Proof/Proofs/Draining.lean ====
section
/-! Obligation O50: after a port reset the completions of an encoder session still go to the ring as it stood (R530, R531), and the ring
that the page shows stays as it is. -/

namespace Sys2Proof

open Machine

/-- An encoder session whose work area is the first byte of memory, with a picture in progress. -/
def encodingState : EncState :=
  { EncState.fresh ⟨0, 0, 0, 8, 8, false, false, 1, 1, 0, 1, 0, 1, 0, 0, 1, 0, 0⟩ with current := some ⟨true, 1, [], [], []⟩ }

/-- The session in its context. -/
def encodingSession : Session := { Session.encode ⟨0, 0, 0, 8, 8, false, false, 1, 1, 0, 1, 0, 1, 0, 0, 1, 0, 0⟩ with enc := some encodingState }

/-- A device in service that encodes, whose first word is poisoned; the session's port was reset, and its ring drains. -/
def drainingEncoder : State :=
  { State.reset with dev := { State.reset.dev with
      nv := { State.reset.dev.nv with grade := 15, spares := [] }
      fields := [((R.BLK_STATE_STATE MED).key 0, stReady)]
      mem := { State.reset.dev.mem with poison := [0] }
      media := [(0, encodingSession)]
      pci := { State.reset.dev.pci with draining := [(ringKey 0 0, Ring.reset)] } } }

/-- The completion tail that port A's first ring shows. -/
def shownTail (r : Res) : Option Nat :=
  match r with
  | .next t => some (t.dev.ring 0 0).cqTail
  | _ => none

theorem shownTail_encSliceComplete : shownTail (exec (.encSliceComplete 0 0 (some 0)) drainingEncoder) = some 0 := by decide +kernel

/-- Refutes O50: the coding meets the poisoned word and ends the session, and its completion goes to the ring that drains. -/
theorem not_encoderSessionsRun : ¬ Obligations.EncoderSessionsRun := by
  intro h
  obtain ⟨-, -, -, slices, -⟩ := h drainingEncoder .portA ⟨0, 0, 0, 0, 0, false, false, false, 0, []⟩ 0 0 0 0 0 0 encodingSession encodingState
    ⟨true, 1, [], [], []⟩ (by decide) (fun _ h => absurd h List.not_mem_nil)
  obtain ⟨-, -, -, poisoned, -⟩ := slices (by decide) rfl rfl rfl (by decide)
  obtain ⟨t, ran, -, -, -, -, -, -, -, tail⟩ := poisoned rfl rfl rfl rfl (by decide) (by decide) (by decide)
  have shown := shownTail_encSliceComplete
  rw [ran] at shown
  exact absurd (tail.symm.trans (Option.some.inj shown)) (by decide)

end Sys2Proof
end

