-- ==== Sys2Proof/Proofs/TableDropped.lean ====
section
/-! Obligation O47: the padding of a batch is written before its table, and the first of the two leaves wrong bits standing that were listed
behind others of the same word; the second meets them. -/

namespace Sys2Proof

open Machine

/-- An INGEST of no sample: one row of one position, whose mark shares a word with the batch table. -/
def blankBatch : Batch :=
  { cmd := ⟨0, 0, 0, 0, 3, false, false, false, 0, []⟩
    args := { plot := 0, outKind := 2, format := 0, flags := 0, count := 0, list := 0, elems := 0, rowLen := 1, rowsMax := 1, table := 1,
              data := 128, scale := 128, marks := 0, stage := 128, stageSize := 0 }
    firstSlot := 0, slots := [], placed := 0, used := [], segs := [] }

/-- A device in service with that batch, whose first word is listed with no wrong bits, and again with two. -/
def metTable : State :=
  { State.reset with dev := { State.reset.dev with
      nv := { State.reset.dev.nv with grade := 15, spares := [] }
      fields := []
      mem := { State.reset.dev.mem with flips := [(0, 0), (0, 2)] }
      pip := { State.reset.dev.pip with batches := [blankBatch] } } }

/-- The first byte of the batch table. -/
def tableByte (r : Res) : Option (List Byte) :=
  match r with
  | .next t => some ((t.dev.bytes 1 64).take 1)
  | _ => none

theorem tableByte_ingestComplete : tableByte (exec (.ingestComplete 0) metTable) = some [0] := by decide +kernel

/-- Refutes O47: the mark takes the word's first entry of wrong bits away, and the table's first bytes meet the second and are dropped. -/
theorem not_ingestsMakeBatches : ¬ Obligations.IngestsMakeBatches := by
  intro h
  obtain ⟨-, -, table, -⟩ := h metTable .portA ⟨0, 0, 0, 0, 0, false, false, false, 0, []⟩ 0 blankBatch (by decide)
    (fun _ h => absurd h List.not_mem_nil)
  obtain ⟨t, ran, -, -, bytes, -⟩ := table (by decide) (by decide) (by decide)
  have shown := tableByte_ingestComplete
  rw [ran] at shown
  have first : (t.dev.bytes 1 64).take 1 = [0x42] := by rw [show t.dev.bytes 1 64 = _ from bytes]; decide
  exact absurd (first.symm.trans (Option.some.inj shown)) (by decide)

end Sys2Proof
end

