-- ==== Sys2Proof/Proofs/Media.lean ====
section
/-! Obligation O49: the sessions of the input pipeline (R430, R431, R433 to R437). -/

namespace Sys2Proof.Machine

/-- Memory, cells and what the media engine holds stay. -/
structure Seated (d t : Dev) : Prop where
  mem : t.mem = d.mem
  cells : t.cells = d.cells
  media : t.media = d.media
  waits : t.mediaWait = d.mediaWait

namespace Seated

variable {d e t : Dev}

theorem trans (h : Seated d e) (g : Seated e t) : Seated d t :=
  ⟨g.mem.trans h.mem, g.cells.trans h.cells, g.media.trans h.media, g.waits.trans h.waits⟩

theorem of_frame (h : StateFrame d t) : Seated d t := by
  unfold StateFrame at h
  exact ⟨by rw [h], by rw [h], by rw [h], by rw [h]⟩

theorem of_noise (h : Noise d t) : Seated d t := of_frame (.of_reports h.reports)

end Seated

/-- Nothing waits: a session that ends opens no other. -/
theorem Dev.closeSession_of_no_wait {d : Dev} (h : d.mediaWait = []) (k : Nat) : d.closeSession k = { d with media := mdel k d.media } := by
  unfold Dev.closeSession Dev.medWake
  rw [h]
  rfl

/-- A session takes its context, and the slice counts it. -/
theorem Dev.seat_spec {d : Dev} {i j : Nat} (h : d.freeContext i = some j) (x : Session) :
    ∃ e, Seated d e ∧ d.seat i x = some (i * 256 + j, e.setSession (i * 256 + j) x) := by
  unfold Dev.seat
  extract_lets e
  rw [h]
  refine ⟨e, ?_, rfl⟩
  unfold e
  split
  · exact .of_frame (.setBlk ..)
  · exact .of_frame (.refl d)

/-- A session that ends with an error: it leaves its context, and the slice shows the bit. -/
theorem Dev.endDecode_spec {d : Dev} {slice k bit : Nat} (h : d.mediaWait = []) (hb : bit < 32) :
    let t := d.endDecode slice k bit
    t.media = mdel k d.media ∧ t.errBit MED slice bit = true ∧ t.mem = d.mem ∧ t.cells = d.cells := by
  unfold Dev.endDecode
  extract_lets e t
  have counted : Noise d e := by
    unfold e
    split
    · exact .refl d
    · exact .bump _ _ _ (by decide) _
  clear_value e
  have noise : Noise d (e.setErr MED slice bit) := counted.trans (.setErr ..)
  obtain ⟨mem, cells, media, waits⟩ := Seated.of_noise noise
  have ht : t = { e.setErr MED slice bit with media := mdel k (e.setErr MED slice bit).media } :=
    Dev.closeSession_of_no_wait (waits.trans h) k
  rw [ht, media]
  exact ⟨rfl, Noise.errBit_setErr e MED slice hb, mem, cells⟩

/-- A picture within the budgets is delivered. -/
theorem Dev.decoded_spec {d : Dev} {x : Session} {w h planes : Nat} (fits : x.pictureFits w h planes = true) (slice k : Nat) (data : List Byte) :
    let t := d.decoded slice k x w h planes data
    mfind k t.media = some { x with outBytes := x.outBytes + 2 * planes, delivered := x.delivered ++ data, pics := x.pics + 1 }
      ∧ t.mem = d.mem ∧ t.cells = d.cells := by
  unfold Dev.decoded
  rw [if_pos fits]
  extract_lets t
  have noise : Noise (d.setSession k { x with outBytes := x.outBytes + 2 * planes, delivered := x.delivered ++ data, pics := x.pics + 1 }) t :=
    (Noise.bump _ _ _ (by decide) _).trans (.bump _ _ _ (by decide) _)
  obtain ⟨mem, cells, media, -⟩ := Seated.of_noise noise
  exact ⟨by rw [media, Dev.setSession, mfind_mput, if_pos rfl], mem, cells⟩

end Sys2Proof.Machine

namespace Sys2Proof

open Machine

/-- A unit of the stream of a session that decodes on a slice in service. -/
theorem Answers.of_decode {s : State} {slice context : Nat} {x : Session} {post : Dev → Prop} (hu : s.dev.up = true)
    (hx : mfind (slice * 256 + context) s.dev.media = some x) (hs : s.dev.sliceUp slice = true) (hk : x.kind ≠ 3) (u : DecodeUnit)
    (h : post (s.dev.decodeUnit slice (slice * 256 + context) x u)) : Answers (.decodePicture slice context u) s post := by
  refine Answers.of_onDev _ (Eq.refl (execDecodePicture slice context u s)) hu ?_
  dsimp only
  rw [hx]
  dsimp only
  rw [if_pos ⟨hs, hk⟩]
  exact h

/-- Settles O49: the open, the decoded pictures and the ends of a session. -/
theorem decodeSessionsRun : Obligations.DecodeSessionsRun := by
  intro s die slice context maxPix len i j w h planes rt x data hu k kind budget session rest decode
  refine ⟨fun hi hj => ?_, fun hi => ?_, fun hx hs hk => ⟨fun fits1 fits2 => ?_, fun beyond hn => ?_, fun hn => ?_, fun hn => ?_, fun hn => ?_⟩,
    fun hx u => ?_⟩
  · refine Answers.of_onDev _ (Eq.refl (execMediaSessionOpen die rt maxPix len s)) hu ?_
    generalize hy : (Session.mk kind (2 ^ 16) maxPix len budget 0 0 [] 0 none : Session) = y
    have good : session y := hy ▸ ⟨rfl, rfl, rfl, rfl, rfl, rfl, rfl, rfl⟩
    have hkind : y.kind = kind := good.1
    obtain ⟨e, seated, he⟩ := Dev.seat_spec hj y
    have opened : s.dev.openWaiting (.pipe die y) = some ((e.setSession (i * 256 + j) y).bump MED i 5 1) := by
      show (s.dev.seatNew die y).map (·.2) = _
      rw [Dev.seatNew, hkind, hi, Option.bind_some, he]
      rfl
    rw [Dev.openOrWait, opened]
    obtain ⟨mem, cells, media, waits⟩ := Seated.of_noise (Noise.bump (e.setSession (i * 256 + j) y) MED i (k := 5) (by decide) 1)
    refine ⟨⟨y, ?_, good⟩, fun q hq => ?_, waits.trans seated.waits, mem.trans seated.mem, cells.trans seated.cells⟩
    · rw [media, Dev.setSession, mfind_mput, if_pos rfl]
    · rw [media, Dev.setSession, mfind_mput_other hq, seated.media]
  · refine Answers.of_onDev _ (Eq.refl (execMediaSessionOpen die rt maxPix len s)) hu ?_
    generalize hy : (Session.mk kind (2 ^ 16) maxPix len budget 0 0 [] 0 none : Session) = y
    have good : session y := hy ▸ ⟨rfl, rfl, rfl, rfl, rfl, rfl, rfl, rfl⟩
    have waits : s.dev.openWaiting (.pipe die y) = none := by
      show (s.dev.seatNew die y).map (·.2) = _
      rw [Dev.seatNew, good.1, hi]
      rfl
    rw [Dev.openOrWait, waits]
    exact ⟨⟨y, rfl, good⟩, rfl, rfl, rfl⟩
  · have fits : x.pictureFits w h planes = true := by simp [Session.pictureFits, fits1, fits2]
    exact .of_decode hu hx hs hk _ (Dev.decoded_spec fits ..)
  · have unfit : ¬ x.pictureFits w h planes = true := by
      simp only [Session.pictureFits, Bool.and_eq_true, decide_eq_true_eq]
      omega
    refine .of_decode hu hx hs hk _ ?_
    rw [Dev.decodeUnit, Dev.decoded, if_neg unfit]
    exact Dev.endDecode_spec hn (by decide)
  · exact .of_decode hu hx hs hk _ (Dev.endDecode_spec hn (by decide))
  · exact .of_decode hu hx hs hk _ (Dev.endDecode_spec hn (by decide))
  · exact .of_decode hu hx hs hk _ (Dev.closeSession_of_no_wait hn k)
  · refine Answers.of_onDev _ (Eq.refl (execDecodePicture slice context u s)) hu ?_
    dsimp only
    rw [hx]

end Sys2Proof
end

