-- ==== Sys2Proof/Proofs/Slots.lean ====
section
/-! Obligation O48: the slots of a batch are fetched, tried again, substituted and finished (R411, R416, R417, R423, R424). -/

namespace Sys2Proof.Machine

theorem listSet_eq_set {α : Type} (xs : List α) (n : Nat) (v : α) : listSet xs n v = xs.set n v := by
  induction xs generalizing n with
  | nil => rfl
  | cons x xs ih =>
    cases n with
    | zero => rfl
    | succ n => simp [listSet, ih]

/-! ### What a fetch reads -/

/-- The registers that a fetch reads. -/
def pipReads : List Field :=
  [R.PIP_PROG_BASE_LO_ADDR_LO, R.PIP_PROG_BASE_HI_ADDR_HI, R.NUM_SST_COUNT_COUNT, R.MEM_REGIONS_MIRROR_GIB, R.MEM_REGIONS_CACHE_GIB,
    R.PIP_CACHE_CFG_EN, R.PIP_RESERVE_COUNT_COUNT, R.PIP_RESERVE_BASE_LO_ADDR_LO, R.PIP_RESERVE_BASE_HI_ADDR_HI,
    R.SOW_GSB_BASE_LO_ADDR_LO, R.SOW_GSB_BASE_HI_ADDR_HI, R.GLB_STEP]

/-- Nothing that a fetch reads changes, and nothing that it writes. -/
structure Steady (d t : Dev) : Prop where
  mem : t.mem = d.mem
  cells : t.cells = d.cells
  pip : t.pip = d.pip
  sow : t.sow = d.sow
  acting : t.acting = d.acting
  ctl : t.ctl = d.ctl
  reads : ∀ f ∈ pipReads, t.getF f 0 = d.getF f 0

namespace Steady

variable {d e t : Dev}

theorem trans (h : Steady d e) (g : Steady e t) : Steady d t :=
  ⟨g.mem.trans h.mem, g.cells.trans h.cells, g.pip.trans h.pip, g.sow.trans h.sow, g.acting.trans h.acting, g.ctl.trans h.ctl,
    fun f hf => (g.reads f hf).trans (h.reads f hf)⟩

theorem refl (d : Dev) : Steady d d := ⟨rfl, rfl, rfl, rfl, rfl, rfl, fun _ _ => rfl⟩

theorem ite {a b : Dev} {p : Prop} [Decidable p] (ha : Steady d a) (hb : Steady d b) : Steady d (if p then a else b) := by
  split
  · exact ha
  · exact hb

theorem of_frame (h : StateFrame d t) (hr : ∀ f ∈ pipReads, t.getF f 0 = d.getF f 0) : Steady d t := by
  unfold StateFrame at h
  exact ⟨by rw [h], by rw [h], by rw [h], by rw [h], by rw [h], by rw [h], hr⟩

theorem pipReads_quiet : ∀ f ∈ pipReads, f.quiet = true := by decide

theorem of_noise (h : Noise d t) : Steady d t :=
  of_frame (.of_reports h.reports) fun f hf => h.getF (pipReads_quiet f hf) (by decide)

/-- A unit of the pipeline that runs. -/
theorem setBlk (d : Dev) (u v : Nat) : Steady d (d.setBlk PIP u v) := by
  refine of_frame (.setBlk ..) fun f hf => (Touches.setBlk d PIP u v).getF (pipReads_quiet f hf) (by decide) ?_
  rintro (h | h)
  · exact Field.key_ne ((by decide : ∀ f ∈ pipReads, f.place ≠ (R.BLK_STATE_STATE PIP).place) f hf) _ _ h
  · simp [stateFields, PIP, LNK, CEL] at h

theorem nat (h : Steady d t) (a n : Nat) : t.nat a n = d.nat a n := by rw [Dev.nat, Dev.nat, h.mem]
theorem bytes (h : Steady d t) (a n : Nat) : t.bytes a n = d.bytes a n := by rw [Dev.bytes, Dev.bytes, h.mem]

theorem poisonIn (h : Steady d t) (a n : Nat) : t.poisonIn a n = d.poisonIn a n := by
  simp only [Dev.poisonIn, Dev.poisonedIn, Dev.flippedIn, h.mem]

theorem actF (h : Steady d t) (f : Field) (i : Nat) : t.actF f i = d.actF f i := by rw [Dev.actF, Dev.actF, h.acting]
theorem step (h : Steady d t) : t.step = d.step := h.reads R.GLB_STEP (by decide)
theorem recorded (h : Steady d t) : t.recorded = d.recorded := by rw [Dev.recorded, Dev.recorded, h.sow, h.step]
theorem reserveCount (h : Steady d t) : t.reserveCount = d.reserveCount := h.reads R.PIP_RESERVE_COUNT_COUNT (by decide)

theorem prog (h : Steady d t) (k : Nat) : t.prog k = d.prog k := by
  have base : t.progBase = d.progBase := by
    rw [Dev.progBase, Dev.progBase, h.reads R.PIP_PROG_BASE_LO_ADDR_LO (by decide), h.reads R.PIP_PROG_BASE_HI_ADDR_HI (by decide)]
  simp only [Dev.prog, base, h.nat]

theorem tablePoison (h : Steady d t) (p : Prog) : t.tablePoison p = d.tablePoison p := by simp only [Dev.tablePoison, h.poisonIn]

theorem sourceBad (h : Steady d t) (a : IngestArgs) (p : Prog) (x : PipDesc) : t.sourceBad a p x = d.sourceBad a p x := by
  simp only [Dev.sourceBad, Dev.progOk, Dev.sstCount, h.reads R.NUM_SST_COUNT_COUNT (by decide)]
  rfl

theorem cacheUsed (h : Steady d t) (p : Prog) : t.cacheUsed p = d.cacheUsed p := by
  simp only [Dev.cacheUsed, Dev.cacheSlots, h.reads R.PIP_CACHE_CFG_EN (by decide), h.reads R.MEM_REGIONS_CACHE_GIB (by decide)]
  rfl

theorem localOk (h : Steady d t) (a n : Nat) : t.localOk a n = d.localOk a n := by
  simp only [Dev.localOk, Dev.mirrorBase, h.reads R.MEM_REGIONS_MIRROR_GIB (by decide)]
  rfl

theorem storedBytes (h : Steady d t) (x : PipDesc) (bs : List Byte) : t.storedBytes x bs = d.storedBytes x bs := by
  simp only [Dev.storedBytes, h.bytes]

theorem reserveIndex (h : Steady d t) (plot slot a : Nat) : t.reserveIndex plot slot a = d.reserveIndex plot slot a := by
  have base : t.gsbBase = d.gsbBase := by
    rw [Dev.gsbBase, Dev.gsbBase, h.reads R.SOW_GSB_BASE_LO_ADDR_LO (by decide), h.reads R.SOW_GSB_BASE_HI_ADDR_HI (by decide)]
  simp only [Dev.reserveIndex, Dev.jobSeed, base, h.nat, h.step, h.reserveCount]

theorem reserveAt (h : Steady d t) (r : Nat) : t.reserveAt r = d.reserveAt r := by
  rw [Dev.reserveAt, Dev.reserveAt, h.reads R.PIP_RESERVE_BASE_LO_ADDR_LO (by decide), h.reads R.PIP_RESERVE_BASE_HI_ADDR_HI (by decide)]

theorem pipDesc (h : Steady d t) (a : Nat) : t.pipDesc a = d.pipDesc a := by simp only [Dev.pipDesc, h.nat, h.poisonIn]

theorem nextAttempt (h : Steady d t) (plot slot : Nat) (x : PipSlot) : t.nextAttempt plot slot x = d.nextAttempt plot slot x := by
  simp only [Dev.nextAttempt, Dev.useReserve, h.reserveCount, h.reserveIndex, h.reserveAt, h.pipDesc]

end Steady

/-! ### A slot of a batch -/

/-- A slot without what its placement says. -/
def PipSlot.unplaced (x : PipSlot) : PipSlot := { x with overflow := false, row := 0, start := 0, rows := [], scales := [] }

/-- A slot that goes on with a reserve descriptor. -/
theorem PipSlot.of_reserve {d : Dev} {x z : PipSlot} {why next r : Nat}
    (h : z.unplaced = ({ d.useReserve { x with reason := some why } r with attempt := some next } : PipSlot).unplaced) :
    z.attempt = some next ∧ z.subst = some r ∧ z.reason = some why ∧ z.finished = x.finished ∧ z.desc = d.pipDesc (d.reserveAt r) := by
  simp only [PipSlot.unplaced, Dev.useReserve, PipSlot.mk.injEq] at h
  obtain ⟨-, desc, tried, subst, why, -, -, -, -, finished, -⟩ := h
  exact ⟨tried, subst, why, finished, desc⟩

theorem Batch.slot_setSlot {b : Batch} {slot : Nat} {x : PipSlot} (h : b.slot slot = some x) (y : PipSlot) :
    (b.setSlot slot y).slot slot = some y := by
  obtain ⟨lt, -⟩ := List.getElem?_eq_some_iff.1 h
  simp only [Batch.slot, Batch.setSlot, listSet_eq_set]
  exact List.getElem?_set_self lt

/-- The batch differs in where its slots are placed. -/
structure Placed (b c : Batch) : Prop where
  cmd : c.cmd = b.cmd
  first : c.firstSlot = b.firstSlot
  slots : c.slots.map PipSlot.unplaced = b.slots.map PipSlot.unplaced

namespace Placed

variable {b c e : Batch}

theorem refl (b : Batch) : Placed b b := ⟨rfl, rfl, rfl⟩
theorem trans (h : Placed b c) (g : Placed c e) : Placed b e := ⟨g.cmd.trans h.cmd, g.first.trans h.first, g.slots.trans h.slots⟩

/-- Another placement of one slot. -/
theorem slot_set {s : Nat} {x y : PipSlot} (h : b.slots[s]? = some x) (hy : y.unplaced = x.unplaced) :
    (listSet b.slots s y).map PipSlot.unplaced = b.slots.map PipSlot.unplaced := by
  obtain ⟨lt, rfl⟩ := List.getElem?_eq_some_iff.1 h
  rw [listSet_eq_set, List.map_set, hy, ← List.getElem_map PipSlot.unplaced (h := by simpa using lt)]
  exact List.set_getElem_self _

theorem slot (h : Placed b c) {n : Nat} {x : PipSlot} (hx : b.slot n = some x) : ∃ y, c.slot n = some y ∧ y.unplaced = x.unplaced := by
  have e := congrArg (·[n - b.firstSlot]?) h.slots
  simp only [List.getElem?_map] at e
  rw [show b.slots[n - b.firstSlot]? = some x from hx] at e
  obtain ⟨y, hy, e⟩ := Option.map_eq_some_iff.1 e
  exact ⟨y, by rw [Batch.slot, h.first]; exact hy, e⟩

end Placed

theorem Dev.writeSlot_memOnly (d : Dev) (a : IngestArgs) (x : PipSlot) (seg : Nat) : MemOnly d (d.writeSlot a x seg) :=
  .foldl (fun e k => by
    dsimp only
    split
    · exact (MemOnly.write ..).trans (.write ..)
    · exact ((MemOnly.write ..).trans (.write ..)).trans (.write ..)) _ _

theorem Dev.placeSlot_spec (d : Dev) {b : Batch} {s : Nat} {x : PipSlot} (h : b.slots[s]? = some x) :
    MemOnly d (d.placeSlot b s x).2 ∧ Placed b (d.placeSlot b s x).1 := by
  unfold Dev.placeSlot
  extract_lets u
  split
  · exact ⟨.refl d, .refl b⟩
  · split
    · exact ⟨.of_noise ((Noise.bump _ _ _ (by decide) _).trans (.setErr ..)), rfl, rfl, Placed.slot_set h rfl⟩
    · extract_lets seg y e
      have written : MemOnly d e := Dev.writeSlot_memOnly ..
      refine ⟨?_, rfl, rfl, Placed.slot_set h rfl⟩
      exact .ite (written.trans (.of_noise (.bump _ _ _ (by decide) _))) written

theorem Dev.placeFrom_spec (d : Dev) (b : Batch) (n : Nat) : MemOnly d (d.placeFrom b n).2 ∧ Placed b (d.placeFrom b n).1 := by
  induction n generalizing d b with
  | zero => exact ⟨.refl d, .refl b⟩
  | succ n ih =>
    unfold Dev.placeFrom
    split
    · next x hx =>
      split
      · obtain ⟨mem, placed⟩ := d.placeSlot_spec hx
        obtain ⟨mem2, placed2⟩ := ih (d.placeSlot b b.placed x).2 { (d.placeSlot b b.placed x).1 with placed := (d.placeSlot b b.placed x).1.placed + 1 }
        exact ⟨mem.trans mem2, placed.trans ⟨placed2.cmd, placed2.first, placed2.slots⟩⟩
      · exact ⟨.refl d, .refl b⟩
    · exact ⟨.refl d, .refl b⟩

/-- A batch that is stored. -/
theorem Dev.setBatch_mem {d : Dev} {a b : Batch} (ha : a ∈ d.pip.batches) (hc : a.cmd = b.cmd) : b ∈ (d.setBatch b).pip.batches :=
  List.mem_map.2 ⟨a, ha, if_pos hc⟩

/-- The stored batch holds the slot that it was given. -/
theorem Dev.setBatch_hasSlot {d : Dev} {b : Batch} {slot : Nat} {x : PipSlot} (hb : b ∈ d.pip.batches) (hx : b.slot slot = some x)
    (y : PipSlot) : HasSlot (d.setBatch (b.setSlot slot y)) b.cmd slot fun z => z = y :=
  ⟨_, Dev.setBatch_mem (a := b) hb rfl, rfl, y, Batch.slot_setSlot hx y, rfl⟩

/-- A batch that is stored once what can be placed is placed. -/
theorem Dev.settleBatch_spec {d : Dev} {b : Batch} {slot : Nat} {x : PipSlot} (hb : b ∈ d.pip.batches) (hx : b.slot slot = some x)
    (y : PipSlot) :
    let t := d.settleBatch (b.setSlot slot y)
    HasSlot t b.cmd slot (fun z => z.unplaced = y.unplaced) ∧ t.cells = d.cells ∧ t.ctl = d.ctl := by
  unfold Dev.settleBatch
  extract_lets r
  obtain ⟨mem, placed⟩ : MemOnly d r.2 ∧ Placed (b.setSlot slot y) r.1 := d.placeFrom_spec ..
  clear_value r
  obtain ⟨z, hz, same⟩ := placed.slot (Batch.slot_setSlot hx y)
  have pip : r.2.pip = d.pip := by rw [mem.kept]
  exact ⟨⟨r.1, Dev.setBatch_mem (a := b) (by rw [pip]; exact hb) placed.cmd.symm, placed.cmd, z, hz, same⟩, mem.cells, mem.ctl⟩

/-- The form of a slot is written nowhere but in the staging area. -/
theorem Dev.stageForm_spec {d : Dev} {b : Batch} {slot : Nat} {x : PipSlot} (hb : b ∈ d.pip.batches) (hx : b.slot slot = some x) (u : Nat)
    (f : PipForm) :
    let t := d.stageForm b slot u x f
    HasSlot t b.cmd slot (fun y => y = { x with unit := some u, form := some f }) ∧ t.cells = d.cells
      ∧ ∀ a, a < b.args.stage ∨ b.args.stage + b.args.stageSize ≤ a → byteAt t.mem.bytes a = byteAt d.mem.bytes a := by
  unfold Dev.stageForm
  extract_lets n r off _ e t
  have written : MemWrite { r.2 with fresh := r.2.fresh + n } e (b.args.stage + off) (freeBytes r.2.fresh n).length := Dev.write_spec ..
  have drawn : r.2.pip = d.pip ∧ r.2.cells = d.cells ∧ r.2.mem = d.mem := ⟨rfl, rfl, rfl⟩
  have size : (freeBytes r.2.fresh n).length = n := by simp [freeBytes]
  have bound : off + n ≤ b.args.stageSize := by
    have : off < b.args.stageSize - n + 1 := Nat.mod_lt _ (by omega)
    have : n ≤ b.args.stageSize := Nat.min_le_right ..
    omega
  clear_value r off e n
  obtain ⟨pip, cells, mem⟩ := drawn
  have hp : e.pip = d.pip := by rw [written.kept]; exact pip
  have hc : e.cells = d.cells := by rw [written.kept]; exact cells
  refine ⟨Dev.setBatch_hasSlot (by rw [hp]; exact hb) hx _, hc, fun a ha => ?_⟩
  rw [← mem]
  refine written.outside a ?_
  rw [size]
  omega

/-- A corrupt slot: what becomes of it, and the decision of one that stays empty. -/
theorem Dev.corrupt_spec {d : Dev} {b : Batch} {slot : Nat} {x : PipSlot} (hb : b ∈ d.pip.batches) (hx : b.slot slot = some x) (u why : Nat) :
    let y := d.nextAttempt b.args.plot slot { x with reason := some (x.reason.getD why) }
    let t := d.corrupt b slot u why x
    HasSlot t b.cmd slot (fun z => z.unplaced = y.unplaced)
      ∧ (y.empty = true → y.reason = some (x.reason.getD why) → ∀ r, y.subst = some r → d.recorded = none →
        .subst y.orig r slot b.args.plot (x.reason.getD why) ∈ t.ctl.decisions) := by
  unfold Dev.corrupt
  extract_lets y plot e1 e2 z e3 t
  have first : Steady d e1 := .ite (.of_noise ((Noise.setErr ..).trans (.bump _ _ _ (by decide) _))) (.refl d)
  have second : Steady d e2 := first.trans (.ite (.of_noise (.setErr ..)) (.refl e1))
  have hz : z = y := second.nextAttempt ..
  clear_value e1 e2
  have third : e3.pip = e2.pip := by
    unfold e3 Dev.noteNew Dev.noteSubst
    split
    · split
      · exact (Steady.of_noise (.bump _ _ _ (by decide) _)).pip
      · split
        · exact (Steady.of_noise (Noise.bump e2 PIP u (k := 0) (by decide) 1)).pip
        · exact (Steady.of_noise (.bump _ _ _ (by decide) _)).pip
    · rfl
  obtain ⟨has, -, ctl⟩ := Dev.settleBatch_spec (d := e3) (by rw [third, second.pip]; exact hb) hx z
  have shown : HasSlot t b.cmd slot fun q => q.unplaced = z.unplaced := has
  have kept : t.ctl = e3.ctl := ctl
  rw [hz] at shown
  refine ⟨shown, fun empty why r hr hn => ?_⟩
  rw [kept]
  have bumped : Steady d (e2.bump PIP u 0 1) := second.trans (.of_noise (.bump _ _ _ (by decide) _))
  have noted : e3 = (e2.bump PIP u 0 1).noteSubst plot slot y := by
    unfold e3
    rw [hz, if_pos empty, Dev.noteNew, bumped.recorded, hn]
    rfl
  rw [noted, Dev.noteSubst, why, hr]
  exact List.mem_append_right _ (List.mem_singleton_self _)

/-- A command on a slot that is not finished. -/
theorem Dev.onSlot_open {d : Dev} {plot slot : Nat} {b : Batch} {x : PipSlot} (hb : d.batchOf plot slot = some b) (hx : b.slot slot = some x)
    (hf : x.finished = false) (f : Batch → PipSlot → Dev) : d.onSlot plot slot f = f b x := by
  unfold Dev.onSlot
  rw [hb]
  dsimp only
  rw [hx, Option.elim_some, hf]
  rfl

/-- A fetch that goes ahead on a unit in service, up to the program's tables. -/
theorem Dev.fetchDone_taken {d : Dev} {plot slot u : Nat} {b : Batch} {x : PipSlot} (hb : d.batchOf plot slot = some b)
    (hx : b.slot slot = some x) (hf : x.finished = false) (hu : d.pipUp u = true) (hw : x.waiting = false) (hn : x.form = none)
    (hp : d.tablePoison (d.prog x.desc.typ) = none) (r : FetchOutcome) :
    ∃ e, Steady d e ∧
      (d.sourceBad b.args (d.prog x.desc.typ) x.desc = true → d.fetchDone plot slot u r = e.corrupt b slot u 4 x)
      ∧ (d.sourceBad b.args (d.prog x.desc.typ) x.desc = false → d.cacheUsed (d.prog x.desc.typ) = false → x.desc.source ≠ 3 →
        (x.desc.source = 1 → d.localOk x.desc.addr x.desc.length = true ∧ d.poisonIn x.desc.addr x.desc.length = none) →
        d.fetchDone plot slot u r = match r with
          | .failed => if x.desc.source = 1 then e else e.fetchFailed b slot u x true
          | .refused => if x.desc.source = 1 then e else e.fetchFailed b slot u x false
          | .fetched bs dec => (e.storedBytes x.desc bs).elim e fun stored => e.built b slot u x (d.prog x.desc.typ) stored dec) := by
  unfold Dev.fetchDone
  rw [Dev.onSlot_open hb hx hf, if_neg (by simp [hu, hw, hn])]
  extract_lets e p look e' poison
  have steady : Steady d e := .ite (.setBlk ..) (.refl d)
  have prog : p = d.prog x.desc.typ := steady.prog _
  clear_value p
  subst prog
  refine ⟨e, steady, fun bad => ?_, fun good uncached other near => ?_⟩
  · rw [steady.tablePoison, hp]
    dsimp only
    rw [steady.sourceBad, if_pos bad]
  · have absent : ¬ (x.desc.source = 1 ∧ e.localOk x.desc.addr x.desc.length = false) := by
      rintro ⟨h1, h2⟩
      rw [steady.localOk, (near h1).1] at h2
      exact absurd h2 (by decide)
    have missed : look = (none, e) := if_neg (by simp [steady.cacheUsed, uncached])
    have same : e' = e := congrArg Prod.snd missed
    have clean : poison = none := by
      unfold poison
      rw [same]
      split
      · next h => rw [steady.poisonIn, (near h).2]
      · rfl
    rw [steady.tablePoison, hp]
    dsimp only
    rw [steady.sourceBad, if_neg (by simp [good]), missed]
    dsimp only
    rw [if_neg other, same, if_neg absent, clean]
    cases r <;> rfl

/-- A fetched form of the program's length is staged. -/
theorem Dev.built_spec {d : Dev} {b : Batch} {slot u : Nat} {x : PipSlot} {p : Prog} {f : PipForm} {stored : List Byte} {dec : DecodeResult}
    (hb : b ∈ d.pip.batches) (hx : b.slot slot = some x) (hf : slotForm p x.desc b.args.stageSize stored dec = .ok f)
    (hl : f.bytes.length = formLen p f) (hc : d.cacheUsed p = false) :
    let t := d.built b slot u x p stored dec
    HasSlot t b.cmd slot (fun y => y = { x with unit := some u, form := some (p.roundTrip f) }) ∧ t.cells = d.cells
      ∧ ∀ a, a < b.args.stage ∨ b.args.stage + b.args.stageSize ≤ a → byteAt t.mem.bytes a = byteAt d.mem.bytes a := by
  unfold Dev.built
  extract_lets e t
  have counted : Steady d e := .of_noise (.bump _ _ _ (by decide) _)
  have staged : t = e.stageForm b slot u x (p.roundTrip f) := by
    unfold t
    rw [hf]
    dsimp only
    rw [if_neg (by cases dec <;> simp [hl]), counted.cacheUsed, if_neg (by simp [hc])]
  rw [staged]
  obtain ⟨has, cells, outside⟩ := Dev.stageForm_spec (d := e) (by rw [counted.pip]; exact hb) hx u (p.roundTrip f)
  exact ⟨has, cells.trans counted.cells, fun a ha => (outside a ha).trans (by rw [counted.mem])⟩

/-- A fetch that may be tried again waits for it. -/
theorem Dev.fetchFailed_again {d : Dev} {b : Batch} {slot u : Nat} {x : PipSlot} (hb : b ∈ d.pip.batches) (hx : b.slot slot = some x)
    (hr : d.recorded = none) (ht : x.tries < d.actF R.PIP_FETCH_RETRIES 0) :
    let t := d.fetchFailed b slot u x true
    HasSlot t b.cmd slot (fun y => y = { x with tries := x.tries + 1, waiting := true, unit := some u }) ∧ t.mem = d.mem ∧ t.cells = d.cells := by
  unfold Dev.fetchFailed
  extract_lets n replay e t
  have waits : t = d.setBatch (b.setSlot slot { x with tries := x.tries + 1, waiting := true, unit := some u }) := by
    have fresh : replay = false := by simp [replay, hr]
    have same : e = d := if_neg (by simp [fresh])
    unfold t
    rw [if_pos (by simp [ht]), same]
  rw [waits]
  exact ⟨Dev.setBatch_hasSlot hb hx _, rfl, rfl⟩

/-- What the completion of a slot with a form does. -/
def Dev.finishSlot (d : Dev) (plot slot u : Nat) (b : Batch) (x : PipSlot) (f : PipForm) : Dev :=
  let p := d.prog x.desc.typ
  let o := d.slotOut b.args p x.desc.sample f
  let n := min o.rows.length b.args.rowLen
  let d := o.stats.foldl (fun (d : Dev) st => d.applyStat d.step false st) d
  let d := (convEvents 4 o.sats).foldl (fun (d : Dev) (e : Nat × Nat × Nat) =>
    (d.postEvent { Event.blank e.1 3 d.step with
      plot := plot, tile := x.desc.sample % 2 ^ 32, entry := p.entry.getD 0xFFFFFFFF, format := b.args.format,
      block := e.2.1, count := e.2.2, layer := d.layerOf p.entry }).setErr PIP u 24) d
  let d := (d.scoreWork u p f (o.rows.length * b.args.elems)).bump PIP u 0 1
  let y := { x with finished := true, positions := n, truncated := decide (b.args.rowLen < o.rows.length),
                    rows := o.rows.take n, scales := o.scales.take n, form := .none }
  let d := d.noteNew plot slot y
  d.settleBatch (b.setSlot slot y)

theorem Dev.slotDone_eq {d : Dev} {plot slot u : Nat} {b : Batch} {x : PipSlot} {f : PipForm} (hb : d.batchOf plot slot = some b)
    (hx : b.slot slot = some x) (hf : x.finished = false) (hform : x.form = some f) (hu : x.unit = some u) (hup : d.pipUp u = true)
    (hk : (d.prog x.desc.typ).kind ≠ 5) : d.slotDone plot slot u = d.finishSlot plot slot u b x f := by
  unfold Dev.slotDone
  rw [Dev.onSlot_open hb hx hf, hform]
  exact if_neg (by simp [hu, hup, hk])

/-- The finished slot of a form. -/
theorem Dev.slotDone_spec {d : Dev} {plot slot u : Nat} {b : Batch} {x : PipSlot} {f : PipForm} (hb : d.batchOf plot slot = some b)
    (hx : b.slot slot = some x) (hf : x.finished = false) (hform : x.form = some f) (hu : x.unit = some u) (hup : d.pipUp u = true)
    (hk : (d.prog x.desc.typ).kind ≠ 5) :
    let o := d.slotOut b.args (d.prog x.desc.typ) x.desc.sample f
    let t := d.slotDone plot slot u
    HasSlot t b.cmd slot (fun y => y.finished = true ∧ y.positions = min o.rows.length b.args.rowLen
      ∧ y.truncated = decide (b.args.rowLen < o.rows.length) ∧ y.form = none) ∧ t.cells = d.cells := by
  rw [Dev.slotDone_eq hb hx hf hform hu hup hk]
  unfold Dev.finishSlot
  extract_lets o p q n e1 e2 e3 y e4 t
  have first : MemOnly d e1 := .foldl (fun e st => .applyStat ..) _ _
  clear_value e1
  have second : Posted e1 e2 := .foldl (fun e st => (Posted.postEvent ..).trans (.of_noise (.setErr ..))) _ _
  clear_value e2
  have third : Noise e2 e3 := by
    unfold e3 Dev.scoreWork
    rw [if_neg hk]
    exact .bump _ _ _ (by decide) _
  clear_value e3
  have fourth : e4.pip = e3.pip ∧ e4.cells = e3.cells := by
    unfold e4 Dev.noteNew Dev.noteSubst
    split
    · exact ⟨rfl, rfl⟩
    · split <;> exact ⟨rfl, rfl⟩
  clear_value e4
  have pip : e4.pip = d.pip := by rw [fourth.1, (Steady.of_noise third).pip, second.kept, first.kept]
  have cells : e4.cells = d.cells := by rw [fourth.2, third.reports.cells, second.kept, first.kept]
  obtain ⟨⟨c, hc, hcmd, z, hz, same⟩, kept, -⟩ := Dev.settleBatch_spec (d := e4) (by rw [pip]; exact List.mem_of_find?_eq_some hb) hx y
  refine ⟨⟨c, hc, hcmd, z, hz, congrArg PipSlot.finished same, congrArg PipSlot.positions same, congrArg PipSlot.truncated same,
    congrArg PipSlot.form same⟩, kept.trans cells⟩

end Sys2Proof.Machine

namespace Sys2Proof

open Machine

/-- Settles O48: fetch, retry, substitution and output of a slot. -/
theorem slotsAreFetchedAndFinished : Obligations.SlotsAreFetchedAndFinished := by
  intro s plot slot u b x f bs stored dec hu hb hx hf p o next taken plain
  have held : b ∈ s.dev.pip.batches := List.mem_of_find?_eq_some hb
  have plotOf : b.args.plot = plot := by
    have found := List.find?_some hb
    simp only [Bool.and_eq_true, decide_eq_true_eq] at found
    exact found.1.1
  have fetch (r : FetchOutcome) {post : Dev → Prop} (h : post (s.dev.fetchDone plot slot u r)) :
      Answers (.sampleFetchComplete plot slot u r) s post :=
    Answers.of_onDev _ (Eq.refl (execSampleFetchComplete plot slot u r s)) hu h
  have timer {post : Dev → Prop} (h : post (if x.waiting then s.dev.setBatch (b.setSlot slot { x with waiting := false }) else s.dev)) :
      Answers (.fetchRetryTimer plot slot) s post := by
    refine Answers.of_onDev _ (Eq.refl (execFetchRetryTimer plot slot s)) hu ?_
    rw [Dev.onSlot_open hb hx hf]
    exact h
  refine ⟨?fetched, ?failed, fun ht bad => ⟨?substituted, ?emptied⟩, fun hw => ?_, fun hw => ?_, fun hform hunit hup hk => ?_, fun hform => ?_⟩
  case fetched =>
    rintro ⟨⟨hup, hw, hform, hp⟩, good, uncached⟩ other near kept formed whole
    obtain ⟨e, steady, -, goes⟩ := Dev.fetchDone_taken hb hx hf hup hw hform hp (.fetched bs dec)
    refine fetch _ ?_
    rw [goes good uncached other near]
    dsimp only
    rw [steady.storedBytes, kept, Option.elim_some]
    obtain ⟨has, cells, outside⟩ := Dev.built_spec (d := e) (u := u) (by rw [steady.pip]; exact held) hx formed whole (steady.cacheUsed _ ▸ uncached)
    exact ⟨has, cells.trans steady.cells, fun a ha => (outside a ha).trans (by rw [steady.mem])⟩
  case failed =>
    rintro ⟨⟨hup, hw, hform, hp⟩, good, uncached⟩ remote hr ht
    obtain ⟨e, steady, -, goes⟩ := Dev.fetchDone_taken hb hx hf hup hw hform hp .failed
    have far : x.desc.source ≠ 1 := by omega
    refine fetch _ ?_
    rw [goes good uncached (by omega) fun h => absurd h far]
    dsimp only
    rw [if_neg far]
    obtain ⟨has, mem, cells⟩ := Dev.fetchFailed_again (d := e) (u := u) (by rw [steady.pip]; exact held) hx (steady.recorded ▸ hr)
      (steady.actF .. ▸ ht)
    exact ⟨has, mem.trans steady.mem, cells.trans steady.cells⟩
  case substituted =>
    intro early reserves
    obtain ⟨hup, hw, hform, hp⟩ := ht
    obtain ⟨e, steady, goes, -⟩ := Dev.fetchDone_taken hb hx hf hup hw hform hp .failed
    refine fetch _ ?_
    rw [goes bad]
    obtain ⟨⟨c, hc, hcmd, z, hz, same⟩, -⟩ := Dev.corrupt_spec (d := e) (by rw [steady.pip]; exact held) hx u 4
    have again : e.nextAttempt b.args.plot slot { x with reason := some (x.reason.getD 4) }
        = { s.dev.useReserve { x with reason := some (x.reason.getD 4) } (s.dev.reserveIndex plot slot next) with attempt := some next } := by
      rw [steady.nextAttempt, plotOf]
      exact if_neg fun h => h.elim (Nat.not_le.2 early) reserves
    rw [again] at same
    obtain ⟨tried, subst, why, finished, desc⟩ := PipSlot.of_reserve same
    exact ⟨c, hc, hcmd, z, hz, tried, subst, why, finished.trans hf, desc⟩
  case emptied =>
    intro late hr
    obtain ⟨hup, hw, hform, hp⟩ := ht
    obtain ⟨e, steady, goes, -⟩ := Dev.fetchDone_taken hb hx hf hup hw hform hp .failed
    refine fetch _ ?_
    rw [goes bad]
    obtain ⟨⟨c, hc, hcmd, z, hz, same⟩, noted⟩ := Dev.corrupt_spec (d := e) (by rw [steady.pip]; exact held) hx u 4
    have ends : e.nextAttempt b.args.plot slot { x with reason := some (x.reason.getD 4) } = { x with reason := some (x.reason.getD 4) }.none :=
      if_pos (.inl late)
    rw [ends] at same noted
    rw [plotOf] at noted
    exact ⟨⟨c, hc, hcmd, z, hz, congrArg PipSlot.empty same, congrArg PipSlot.finished same, congrArg PipSlot.subst same⟩,
      noted rfl rfl _ rfl (steady.recorded ▸ hr)⟩
  · refine timer ?_
    rw [if_pos hw]
    exact ⟨Dev.setBatch_hasSlot held hx _, rfl, rfl⟩
  · refine timer ?_
    rw [if_neg (by simp [hw])]
  · exact Answers.of_onDev _ (Eq.refl (execPipelineSlotComplete plot slot u s)) hu (Dev.slotDone_spec hb hx hf hform hunit hup hk)
  · refine Answers.of_onDev _ (Eq.refl (execPipelineSlotComplete plot slot u s)) hu ?_
    unfold Dev.slotDone
    rw [Dev.onSlot_open hb hx hf, hform]

end Sys2Proof
end

