-- ==== Sys2Proof/Proofs/Boots.lean ====
section
/-! Obligation O54: BOOT (R394, R464, R470, R471, R482, R501). -/

namespace Sys2Proof.Machine

/-! ### Feature words -/

/-- A row of fields that is written from the first on: each shows its value. -/
theorem Dev.getF_foldl_setF (d : Dev) {reg : Nat → Field} {n : Nat} (h : ∀ j < n, ∀ k < n, j ≠ k → (reg j).place ≠ (reg k).place) (v : Nat → Nat)
    {k : Nat} (hk : k < n) :
    ((List.range n).foldl (fun d k => d.setF (reg k) 0 (v k)) d).getF (reg k) 0 = v k % 2 ^ (reg k).width := by
  induction n with
  | zero => exact absurd hk (Nat.not_lt_zero k)
  | succ n ih =>
    rw [List.range_succ, List.foldl_append, List.foldl_cons, List.foldl_nil]
    by_cases he : k = n
    · rw [he, Dev.getF_setF_same]
    · rw [Dev.getF_setF_place (h k hk n (Nat.lt_succ_self n) he)]
      exact ih (fun j hj k hk => h j (Nat.lt_succ_of_lt hj) k (Nat.lt_succ_of_lt hk)) (by omega)

/-- A field elsewhere keeps its value. -/
theorem Dev.getF_foldl_setF_other (d : Dev) {reg : Nat → Field} {n : Nat} {g : Field} {i : Nat} (h : ∀ k < n, g.key i ≠ (reg k).key 0)
    (v : Nat → Nat) : ((List.range n).foldl (fun d k => d.setF (reg k) 0 (v k)) d).getF g i = d.getF g i := by
  induction n with
  | zero => rfl
  | succ n ih =>
    rw [List.range_succ, List.foldl_append, List.foldl_cons, List.foldl_nil, Dev.getF_setF_other _ (h n (Nat.lt_succ_self n))]
    exact ih fun k hk => h k (Nat.lt_succ_of_lt hk)

theorem Dev.getF_setFeatureWord (d : Dev) {reg : Nat → Field} (h : ∀ j < 8, ∀ k < 8, j ≠ k → (reg j).place ≠ (reg k).place) (v : Nat) {k : Nat}
    (hk : k < 8) : (d.setFeatureWord reg v).getF (reg k) 0 = v / 2 ^ (32 * k) % 2 ^ (reg k).width :=
  d.getF_foldl_setF h (fun k => v / 2 ^ (32 * k)) hk

theorem Dev.getF_setFeatureWord_other (d : Dev) {reg : Nat → Field} {g : Field} {i : Nat} (h : ∀ k < 8, g.key i ≠ (reg k).key 0) (v : Nat) :
    (d.setFeatureWord reg v).getF g i = d.getF g i :=
  d.getF_foldl_setF_other h _

/-- A feature word of one limb. -/
theorem Dev.featureWord_of_limbs {d : Dev} {reg : Nat → Field} {v : Nat} (hv : v < 2 ^ 32)
    (h : ∀ k < 8, d.getF (reg k) 0 = v / 2 ^ (32 * k) % 2 ^ 32) : d.featureWord reg = v := by
  have first : d.getF (reg 0) 0 = v := by
    rw [h 0 (by decide), Nat.mul_zero, Nat.pow_zero, Nat.div_one, Nat.mod_eq_of_lt hv]
  have zero : ∀ k < 8, 0 < k → d.getF (reg k) 0 = 0 := fun k hk pos => by
    rw [h k hk, Nat.div_eq_of_lt (Nat.lt_of_lt_of_le hv (Nat.pow_le_pow_right (by decide) (by omega))), Nat.zero_mod]
  have rest : ∀ k ∈ (List.range 7).map Nat.succ, d.getF (reg k) 0 * 2 ^ (32 * k) = 0 := fun k hk => by
    obtain ⟨j, hj, rfl⟩ := List.mem_map.1 hk
    rw [zero _ (Nat.succ_lt_succ (List.mem_range.1 hj)) (Nat.succ_pos j), Nat.zero_mul]
  rw [Dev.featureWord, List.range_succ_eq_map, List.map_cons, List.sum_cons, first, List.map_congr_left rest, List.map_const', List.sum_replicate]
  simp

theorem offeredFeatures_lt (tested : Bool) (stable : Nat) : offeredFeatures tested stable < 2 ^ 32 := by
  unfold offeredFeatures
  split
  · decide
  · refine Nat.or_lt_two_pow (by decide) (Nat.lt_of_le_of_lt Nat.and_le_right (by decide))

theorem OnlyFields.setFeatureWord (d : Dev) (reg : Nat → Field) (v : Nat) : OnlyFields d (d.setFeatureWord reg v) := .foldl (fun _ _ => .setF ..) _ _

/-! ### What a boot shows and the start of the firmware leaves -/

/-- The fields that show what booted. -/
def bootFields : List Field :=
  [R.PWR_FW_STATUS_BOOT, R.PWR_FW_STATUS_SKIPPED] ++ (List.range 4).map R.PWR_FW_BUILD ++ (List.range 8).map R.GLB_DEV_FEATURES

/-- They and the state of GLB. -/
def startFields : List Field := R.BLK_STATE_STATE GLB :: bootFields

/-- These fields, the cells, the banks in flash and what runs stay. -/
structure Started (fs : List Field) (d t : Dev) : Prop where
  pwr : ∃ r, t.pwr = { d.pwr with recovering := r }
  cells : t.cells = d.cells
  banks : t.nv.banks = d.nv.banks
  reads : ∀ f ∈ fs, t.getF f 0 = d.getF f 0

theorem startFields_quiet : ∀ f ∈ startFields, f.quiet = true := by decide

namespace Started

variable {fs : List Field} {d e t : Dev}

theorem refl (d : Dev) : Started fs d d := ⟨⟨_, rfl⟩, rfl, rfl, fun _ _ => rfl⟩

theorem trans (h : Started fs d e) (g : Started fs e t) : Started fs d t := by
  obtain ⟨r, hp⟩ := h.pwr
  obtain ⟨q, gp⟩ := g.pwr
  exact ⟨⟨q, by rw [gp, hp]⟩, g.cells.trans h.cells, g.banks.trans h.banks, fun f hf => (g.reads f hf).trans (h.reads f hf)⟩

theorem ite {a b : Dev} {p : Prop} [Decidable p] (ha : Started fs d a) (hb : Started fs d b) : Started fs d (if p then a else b) := by
  split
  · exact ha
  · exact hb

theorem foldl {α : Type} {f : Dev → α → Dev} (h : ∀ e x, Started fs e (f e x)) (xs : List α) (d : Dev) : Started fs d (xs.foldl f d) := by
  induction xs generalizing d with
  | nil => exact refl d
  | cons x xs ih => exact (h d x).trans (ih _)

theorem of_fields (hp : t.pwr = d.pwr) (hc : t.cells = d.cells) (hn : t.nv.banks = d.nv.banks) (hf : t.fields = d.fields) : Started fs d t :=
  ⟨⟨_, hp⟩, hc, hn, fun f _ => by rw [Dev.getF, Dev.getF, hf]⟩

theorem setF (d : Dev) {f : Field} {i : Nat} (h : ∀ g ∈ fs, g.key 0 ≠ f.key i) (v : Nat) : Started fs d (d.setF f i v) :=
  ⟨⟨_, rfl⟩, rfl, rfl, fun g hg => Dev.getF_setF_other d (h g hg) v⟩

theorem of_noise (hq : ∀ f ∈ fs, f.quiet = true) (h : Noise d t) : Started fs d t :=
  ⟨⟨_, h.reports.pwr⟩, h.reports.cells, by rw [h.reports.nv], fun f hf => h.getF (hq f hf) (by decide)⟩

theorem of_sent (hq : ∀ f ∈ fs, f.quiet = true) (hp : ∀ f ∈ fs, ¬ homes [(R.FLW_POOL_FREE_N, 0), (R.FLW_POOL_FREE_S, 0)] (f.key 0)) (h : Sent d t) :
    Started fs d t :=
  ⟨⟨_, h.pwr⟩, h.cells, by rw [h.nv], fun f hf => h.touches.getF (hq f hf) (by decide) (hp f hf)⟩

theorem quiet (h : Noise d t) : Started startFields d t := of_noise startFields_quiet h
theorem sent (h : Sent d t) : Started startFields d t := of_sent startFields_quiet (by unfold homes; decide) h

theorem mono {gs : List Field} (h : Started fs d t) (hs : gs ⊆ fs) : Started gs d t := ⟨h.pwr, h.cells, h.banks, fun f hf => h.reads f (hs hf)⟩

/-- The state of GLB may differ. -/
theorem boot (h : Started startFields d t) : Started bootFields d t := ⟨h.pwr, h.cells, h.banks, fun f hf => h.reads f (List.mem_cons_of_mem _ hf)⟩

theorem blk (h : Started startFields d t) : t.blk GLB 0 = d.blk GLB 0 := by
  have live (e : Dev) : e.blk GLB 0 = e.getF (R.BLK_STATE_STATE GLB) 0 := by simp [Dev.blk, GLB, CEL]
  rw [live, live]
  exact h.reads _ (by decide)

/-- GLB enters another state. -/
theorem setBlk (d : Dev) (v : Nat) : Started bootFields d (d.setBlk GLB 0 v) := by
  have frame : StateFrame d (d.setBlk GLB 0 v) := .setBlk ..
  refine ⟨⟨d.pwr.recovering, by rw [frame]⟩, frame.cells, by rw [frame.nv], fun f hf => ?_⟩
  refine (Touches.setBlk d GLB 0 v).getF (startFields_quiet f (List.mem_cons_of_mem _ hf)) (by decide) ?_
  rintro (h | h)
  · exact Field.key_ne ((by decide : ∀ f ∈ bootFields, f.place ≠ (R.BLK_STATE_STATE GLB).place) f hf) _ _ h
  · simp [stateFields, GLB, LNK, CEL] at h

theorem failGlb (d : Dev) (sev : Nat) : Started bootFields d (d.failBlock GLB 0 sev) :=
  (setBlk ..).trans (boot (quiet (.setErrFull ..)))

/-! ### The steps of the start -/

theorem checkLeaf (d : Dev) : Started startFields d d.checkLeaf := by
  unfold Dev.checkLeaf
  extract_lets f
  have moved : Started startFields d { d with nv := { d.nv with lmsQ := 1024 * f } } := of_fields rfl rfl rfl rfl
  exact ite (refl d) (moved.trans (quiet (.setErr ..)))

theorem checkHealth (d : Dev) : Started bootFields d d.checkHealth := by
  unfold Dev.checkHealth
  extract_lets e
  have cells : Started startFields d d.checkCells := ite (quiet (.raiseReplace ..)) (refl d)
  have health : Started startFields d e := cells.trans (.foldl (fun e k => quiet (.memHealth ..)) _ _)
  refine health.boot.trans (.foldl (fun e k => ?_) _ _)
  exact ite (refl e) ((boot (quiet ((Noise.setErrFull ..).trans (.raiseReplace ..)))).trans (failGlb ..))

theorem loadRoutes (d : Dev) : Started startFields d d.loadRoutes := by
  have coded (e : Dev) (v : Nat) : Started startFields e (e.setF R.FLW_RT_STATUS_CODE 0 v) := setF _ (by decide) v
  have installed : Started startFields d { d with fab := { d.fab with routes := d.routeImage } } := of_fields rfl rfl rfl rfl
  have rerouted (e : Dev) : Started startFields e e.rerouteAll := by
    refine sent ?_
    have emptied : Sent e { e with fab := { e.fab with unrouted := [] } } := ⟨rfl, .of_fields rfl, fun _ => .refl _⟩
    exact emptied.trans (.foldl Sent.routeOut _ _)
  exact ite ((coded ..).trans (quiet (.setErr ..))) (ite (coded ..) ((installed.trans (coded ..)).trans (rerouted _)))

theorem reloadFabric (d : Dev) : Started startFields d d.reloadFabric := by
  unfold Dev.reloadFabric
  extract_lets e
  have routes : Started startFields d e := ite (loadRoutes d) (refl d)
  refine routes.trans (ite (refl e) (.foldl (fun e f => ?_) _ _))
  unfold Dev.reloadFlow
  extract_lets a
  have held (w : Flow) : Started startFields e (e.setFlow f w) := of_fields rfl rfl rfl rfl
  split
  · exact refl e
  · exact ite (refl e) ((held _).trans (sent (.control ..)))

theorem askMirror (d : Dev) : Started startFields d d.askMirror := by
  unfold Dev.askMirror
  have spent : Started startFields d { d with sow := { d.sow with remirror := false } } := of_fields rfl rfl rfl rfl
  exact ite (spent.trans (sent (.toPartner ..))) (refl d)

theorem resumePair (d : Dev) : Started startFields d d.resumePair := by
  unfold Dev.resumePair
  split
  · next st valid last _ =>
    extract_lets _ e f
    have spent : Started startFields d e := of_fields rfl rfl rfl rfl
    have shown : Started startFields e f := ((setF e (by decide) st).trans (setF _ (by decide) valid)).trans (setF _ (by decide) last)
    have due : Started startFields f { f with sow := { f.sow with remirror := true } } := of_fields rfl rfl rfl rfl
    exact ite ((spent.trans shown).trans (ite (due.trans (askMirror _)) (refl f))) spent
  · exact refl d

theorem resumeJob (d : Dev) : Started startFields d d.resumeJob := by
  unfold Dev.resumeJob
  extract_lets _ e
  have spent : Started startFields d e := ⟨⟨false, rfl⟩, rfl, rfl, fun _ _ => rfl⟩
  have config (f : Dev) (c : Nat) : Started startFields f (f.toConfig c) :=
    ((setF f (by decide) c).trans (setF _ (by decide) 3)).trans (quiet (.vectors ..))
  have failed : Started startFields e e.recoveryFailed := by
    have dropped : Started startFields e { e with ctl := { e.ctl with noClose := true }, sow := { e.sow with replayUntil := none, replay := [] } } :=
      of_fields rfl rfl rfl rfl
    exact (dropped.trans (setF _ (by decide) 7)).trans (quiet (.setErr ..))
  exact ite (setF d (by decide) 0) (spent.trans (ite ((setF e (by decide) _).trans (config ..)) failed))

end Started

/-- The features that are offered, and the rest that stays. -/
theorem Dev.offerFeatures_spec (d : Dev) :
    let t := d.offerFeatures
    t.featureWord R.GLB_DEV_FEATURES = offeredFeatures (decide (d.getF R.PWR_FW_STATUS_BOOT 0 = 0)) (stableUnder (d.manifestOf d.pwr.manifest))
      ∧ t.pwr = d.pwr ∧ t.cells = d.cells ∧ t.nv = d.nv
      ∧ (∀ f ∈ [R.PWR_FW_STATUS_BOOT, R.PWR_FW_STATUS_SKIPPED] ++ (List.range 4).map R.PWR_FW_BUILD, t.getF f 0 = d.getF f 0) := by
  unfold Dev.offerFeatures
  extract_lets tested stable e t
  have frame : OnlyFields d t :=
    (((OnlyFields.setFeatureWord ..).trans (.setFeatureWord ..)).trans (.setFeatureWord ..)).trans (.setF ..)
  have features {k : Nat} (hk : k < 8) : t.getF (R.GLB_DEV_FEATURES k) 0 = offeredFeatures tested stable / 2 ^ (32 * k) % 2 ^ 32 := by
    have last : t.getF (R.GLB_DEV_FEATURES k) 0 = (e.setFeatureWord R.GLB_DEV_STABLE stable).getF (R.GLB_DEV_FEATURES k) 0 :=
      Dev.getF_setF_other _ ((by decide : ∀ k < 8, (R.GLB_DEV_FEATURES k).key 0 ≠ R.GLB_NEG_STATUS_COMBO_UNTESTED.key 0) k hk) _
    rw [last, Dev.getF_setFeatureWord_other _ ((by decide : ∀ k < 8, ∀ j < 8, (R.GLB_DEV_FEATURES k).key 0 ≠ (R.GLB_DEV_STABLE j).key 0) k hk),
      Dev.getF_setFeatureWord_other _ ((by decide : ∀ k < 8, ∀ j < 8, (R.GLB_DEV_FEATURES k).key 0 ≠ (R.GLB_DEV_MANDATORY j).key 0) k hk),
      Dev.getF_setFeatureWord _ (by decide) _ hk]
    rfl
  refine ⟨Dev.featureWord_of_limbs (offeredFeatures_lt ..) fun k hk => features hk, congrArg (·.pwr) frame, congrArg (·.cells) frame,
    congrArg (·.nv) frame, fun f hf => ?_⟩
  have other := (by decide : ∀ f ∈ [R.PWR_FW_STATUS_BOOT, R.PWR_FW_STATUS_SKIPPED] ++ (List.range 4).map R.PWR_FW_BUILD,
    f.key 0 ≠ R.GLB_NEG_STATUS_COMBO_UNTESTED.key 0 ∧ ∀ j < 8, f.key 0 ≠ (R.GLB_DEV_STABLE j).key 0 ∧ f.key 0 ≠ (R.GLB_DEV_MANDATORY j).key 0
      ∧ f.key 0 ≠ (R.GLB_DEV_FEATURES j).key 0) f hf
  rw [Dev.getF_setF_other _ other.1, Dev.getF_setFeatureWord_other _ fun j hj => (other.2 j hj).1,
    Dev.getF_setFeatureWord_other _ fun j hj => (other.2 j hj).2.1, Dev.getF_setFeatureWord_other _ fun j hj => (other.2 j hj).2.2]

/-- The builds of the running images. -/
theorem Dev.showFirmware_builds (d : Dev) (ims : List FwImage) {k : Nat} (hk : k < 4) :
    (d.showFirmware ims).getF (R.PWR_FW_BUILD k) 0 = (ims[k]?).elim 0 (·.build) % 2 ^ 32 := by
  unfold Dev.showFirmware
  extract_lets im e f g h
  have builds : e.getF (R.PWR_FW_BUILD k) 0 = (ims[k]?).elim 0 (·.build) % 2 ^ 32 :=
    d.getF_foldl_setF (reg := R.PWR_FW_BUILD) (by decide) (fun k => im k (·.build)) hk
  have ne := (by decide : ∀ k < 4, (R.PWR_FW_BUILD k).key 0 ∉ [R.PWR_FW_IFACE_LO_MCF.key 0, R.PWR_FW_IFACE_LO_CMC.key 0, R.PWR_FW_IFACE_HI_LKF.key 0,
    R.PWR_FW_IFACE_HI_MEF.key 0, R.PWR_FW_RESULT_REV_CMC.key 0, R.PWR_FW_RESULT_REV_MEF.key 0, R.PWR_FW_STATUS_BANK.key 0]) k hk
  simp only [List.mem_cons, List.not_mem_nil, or_false, not_or] at ne
  obtain ⟨n1, n2, n3, n4, n5, n6, n7⟩ := ne
  rw [Dev.getF_setF_other _ n7, Dev.getF_setF_other _ n6, Dev.getF_setF_other _ n5, Dev.getF_setF_other _ n4, Dev.getF_setF_other _ n3,
    Dev.getF_setF_other _ n2, Dev.getF_setF_other _ n1]
  exact builds

/-- The other fields that a boot shows. -/
theorem Dev.showFirmware_other (d : Dev) (ims : List FwImage) {f : Field} (hf : f ∈ [R.PWR_FW_STATUS_BOOT, R.PWR_FW_STATUS_SKIPPED]) :
    (d.showFirmware ims).getF f 0 = d.getF f 0 := by
  unfold Dev.showFirmware
  extract_lets im e g h l
  have ne := (by decide : ∀ f ∈ [R.PWR_FW_STATUS_BOOT, R.PWR_FW_STATUS_SKIPPED], f.key 0 ∉ [R.PWR_FW_IFACE_LO_MCF.key 0, R.PWR_FW_IFACE_LO_CMC.key 0,
    R.PWR_FW_IFACE_HI_LKF.key 0, R.PWR_FW_IFACE_HI_MEF.key 0, R.PWR_FW_RESULT_REV_CMC.key 0, R.PWR_FW_RESULT_REV_MEF.key 0, R.PWR_FW_STATUS_BANK.key 0]) f hf
  simp only [List.mem_cons, List.not_mem_nil, or_false, not_or] at ne
  obtain ⟨n1, n2, n3, n4, n5, n6, n7⟩ := ne
  rw [Dev.getF_setF_other _ n7, Dev.getF_setF_other _ n6, Dev.getF_setF_other _ n5, Dev.getF_setF_other _ n4, Dev.getF_setF_other _ n3,
    Dev.getF_setF_other _ n2, Dev.getF_setF_other _ n1]
  exact Dev.getF_foldl_setF_other d
    ((by decide : ∀ f ∈ [R.PWR_FW_STATUS_BOOT, R.PWR_FW_STATUS_SKIPPED], ∀ k < 4, f.key 0 ≠ (R.PWR_FW_BUILD k).key 0) f hf) _

/-- The device once the banks are examined. -/
def Dev.bootMarked (d : Dev) : Dev :=
  let e : Dev := { d with pwr := { d.pwr with booted := true, manifest := d.manifestBank } }
  let fail := ((List.range 4).map (fun k => b2n (d.verifyFail (k + 1)) * 2 ^ k)).sum
  (((e.setF R.PWR_FW_STATUS_VERIFY_FAIL 0 fail).setF R.PWR_FW_STATUS_MANIFEST_VALID 0 (b2n d.manifestBank.isSome)).setF
    R.PWR_FW_STATUS_MANIFEST_BANK 0 (d.manifestBank.getD 0)).setF R.PWR_FW_STATUS_SKIPPED 0 (b2n d.bootCombo.1)

/-- The device once the images of a combination run. -/
def Dev.bootRunning (d : Dev) (bs : List Nat) (ims : List FwImage) : Dev :=
  let e : Dev := { d.bootMarked with pwr := { d.bootMarked.pwr with running := bs } }
  (e.setF R.PWR_FW_STATUS_BOOT 0 (b2n (!testedUnder (d.manifestOf d.manifestBank) ims))).showFirmware ims

theorem Dev.loadFirmware_of_some {d : Dev} {bs : List Nat} {ims : List FwImage} (h : d.bootCombo.2 = some (bs, ims)) :
    d.loadFirmware = (true, d.bootRunning bs ims) := by
  unfold Dev.loadFirmware
  dsimp only
  rw [h]
  rfl

theorem Dev.loadFirmware_of_none {d : Dev} (h : d.bootCombo.2 = none) : d.loadFirmware = (false, d.bootMarked.setF R.PWR_FW_STATUS_BOOT 0 2) := by
  unfold Dev.loadFirmware
  dsimp only
  rw [h]
  rfl

theorem b2n_lt (b : Bool) : b2n b < 2 := by cases b <;> decide

theorem Dev.bootRunning_spec (d : Dev) (bs : List Nat) (ims : List FwImage) :
    let t := d.bootRunning bs ims
    t.pwr = { d.pwr with booted := true, manifest := d.manifestBank, running := bs } ∧ t.cells = d.cells ∧ t.nv = d.nv
      ∧ t.mem = d.mem ∧ t.getF R.PWR_FW_STATUS_BOOT 0 = b2n (!testedUnder (d.manifestOf d.manifestBank) ims)
      ∧ t.getF R.PWR_FW_STATUS_SKIPPED 0 = b2n d.bootCombo.1
      ∧ ∀ k < 4, t.getF (R.PWR_FW_BUILD k) 0 = (ims[k]?).elim 0 (·.build) % 2 ^ 32 := by
  unfold Dev.bootRunning
  extract_lets _ _ e t
  have marked : e.pwr = { d.pwr with booted := true, manifest := d.manifestBank, running := bs } ∧ e.cells = d.cells ∧ e.nv = d.nv ∧ e.mem = d.mem :=
    ⟨rfl, rfl, rfl, rfl⟩
  have skipped : e.getF R.PWR_FW_STATUS_SKIPPED 0 = b2n d.bootCombo.1 := Dev.getF_setF_of_lt _ (b2n_lt _) 0
  clear_value e
  have frame : OnlyFields e t := OnlyFields.trans (.setF e R.PWR_FW_STATUS_BOOT 0 _) (.showFirmware ..)
  obtain ⟨pwr, cells, nv, mem⟩ := marked
  refine ⟨Eq.trans (congrArg (·.pwr) frame) pwr, Eq.trans (congrArg (·.cells) frame) cells, Eq.trans (congrArg (·.nv) frame) nv,
    Eq.trans (congrArg (·.mem) frame) mem, ?_, ?_, fun k hk => Dev.showFirmware_builds _ ims hk⟩
  · rw [Dev.showFirmware_other _ ims (by simp), Dev.getF_setF_same]
    exact Nat.mod_eq_of_lt (Nat.lt_of_lt_of_le (b2n_lt _) (by decide))
  · rw [Dev.showFirmware_other _ ims (by simp), Dev.getF_setF_place (by decide)]
    exact skipped

/-- GLB fails. -/
theorem Dev.failGlb_spec (d : Dev) (sev : Nat) :
    let t := d.failBlock GLB 0 sev
    t.blk GLB 0 = stFailed ∧ t.errBit GLB 0 5 = true ∧ t.mem = d.mem ∧ t.cells = d.cells := by
  have noise : Noise (d.setBlk GLB 0 stFailed) (d.failBlock GLB 0 sev) := .setErrFull ..
  have frame : StateFrame d (d.setBlk GLB 0 stFailed) := .setBlk ..
  exact ⟨noise.blk.trans (Dev.blk_setBlk_page d (by decide) (by decide)), Noise.errBit_setErrFull _ GLB 0 (by decide) ..,
    noise.reports.mem.trans frame.mem, noise.reports.cells.trans frame.cells⟩

/-- The firmware that starts: GLB is READY unless it failed, and the features are offered. -/
theorem Dev.startMcf_spec (d : Dev) :
    let t := d.startMcf
    Started ([R.PWR_FW_STATUS_BOOT, R.PWR_FW_STATUS_SKIPPED] ++ (List.range 4).map R.PWR_FW_BUILD) d t
      ∧ t.blk GLB 0 ∈ [stReady, stFailed]
      ∧ t.featureWord R.GLB_DEV_FEATURES
        = offeredFeatures (decide (d.getF R.PWR_FW_STATUS_BOOT 0 = 0)) (stableUnder (d.manifestOf d.pwr.manifest)) := by
  unfold Dev.startMcf
  extract_lets e1 e2 e3 e4 t
  have first : Started bootFields d e1 := (Started.checkLeaf d).boot.trans (.checkHealth ..)
  have second : Started bootFields d e2 := first.trans (.ite (Started.boot (.reloadFabric ..)) (.refl e1))
  clear_value e1 e2
  obtain ⟨features, pwr, cells, nv, kept⟩ := e2.offerFeatures_spec
  have fourth : Started bootFields e3 e4 := .ite (.refl e3) (.setBlk ..)
  have state : e4.blk GLB 0 ∈ [stReady, stFailed] := by
    unfold e4
    split
    · next h => simp [h]
    · simp [Dev.blk_setBlk_page e3 (c := GLB) (i := 0) (v := stReady) (by decide) (by decide)]
  have last : Started startFields e4 t := (Started.resumePair e4).trans (.resumeJob ..)
  clear_value e4
  have offered : Started ([R.PWR_FW_STATUS_BOOT, R.PWR_FW_STATUS_SKIPPED] ++ (List.range 4).map R.PWR_FW_BUILD) e2 e3 :=
    ⟨⟨_, pwr⟩, cells, by rw [nv], kept⟩
  have part : [R.PWR_FW_STATUS_BOOT, R.PWR_FW_STATUS_SKIPPED] ++ (List.range 4).map R.PWR_FW_BUILD ⊆ bootFields := List.subset_append_left ..
  have after : Started bootFields e3 t := fourth.trans last.boot
  have boot : e2.getF R.PWR_FW_STATUS_BOOT 0 = d.getF R.PWR_FW_STATUS_BOOT 0 := second.reads _ (by decide)
  have manifest : e2.manifestOf e2.pwr.manifest = d.manifestOf d.pwr.manifest := by
    obtain ⟨r, hp⟩ := second.pwr
    rw [hp, Dev.manifestOf, Dev.manifestOf]
    simp only [Dev.bank, second.banks]
  refine ⟨((second.mono part).trans offered).trans (after.mono part), by rw [last.blk]; exact state, ?_⟩
  rw [← boot, ← manifest, ← features, Dev.featureWord, Dev.featureWord]
  refine congrArg List.sum (List.map_congr_left fun k hk => ?_)
  rw [after.reads _ (List.mem_append_right _ (List.mem_map_of_mem hk))]

end Sys2Proof.Machine

namespace Sys2Proof

open Machine

/-- Settles O54: the combination that boots, the failures, and the boot that has been. -/
theorem bootTakesACombination : Obligations.BootTakesACombination := by
  intro s f bs ims hu m tested
  generalize hd : ({ s.dev with pwr := { s.dev.pwr with keys := some (IdKeys.derive s.dev.nv.secret) } } : Dev) = d
  have combo : d.bootCombo = s.dev.bootCombo := by rw [← hd]; rfl
  have keyed : d.pwr.keys = some (IdKeys.derive s.dev.nv.secret) ∧ d.mem = s.dev.mem ∧ d.cells = s.dev.cells ∧ d.nv = s.dev.nv := by
    rw [← hd]
    exact ⟨rfl, rfl, rfl, rfl⟩
  obtain ⟨keys, mem, cells, nv⟩ := keyed
  have boots (hb : s.dev.pwr.booted = false) {post : Dev → Prop}
      (h : post (if !d.loadFirmware.1 then d.loadFirmware.2.failBlock GLB 0 2
        else if f.recordsLost then (d.loadFirmware.2.raiseReplace GLB 0 5).failBlock GLB 0 2
        else (if f.recordCopyBad then d.loadFirmware.2.setErr PWR 0 22 else d.loadFirmware.2).startMcf)) : Answers (.boot f) s post := by
    refine Answers.of_onDev _ (Eq.refl (execBoot f s)) hu ?_
    dsimp only
    rw [hd, if_neg (by simp [hb])]
    exact h
  have lost (e : Dev) : let t := (e.raiseReplace GLB 0 5).failBlock GLB 0 2
      t.blk GLB 0 = stFailed ∧ t.errBit GLB 0 5 = true ∧ t.mem = e.mem ∧ t.cells = e.cells := by
    obtain ⟨state, err, mem, cells⟩ := (e.raiseReplace GLB 0 5).failGlb_spec 2
    have noise : Noise e (e.raiseReplace GLB 0 5) := .raiseReplace ..
    exact ⟨state, err, mem.trans noise.reports.mem, cells.trans noise.reports.cells⟩
  have none (h : s.dev.bootCombo.2 = none) : d.loadFirmware = (false, d.bootMarked.setF R.PWR_FW_STATUS_BOOT 0 2) :=
    Dev.loadFirmware_of_none (by rw [combo]; exact h)
  have marked : (d.bootMarked.setF R.PWR_FW_STATUS_BOOT 0 2).mem = s.dev.mem ∧ (d.bootMarked.setF R.PWR_FW_STATUS_BOOT 0 2).cells = s.dev.cells :=
    ⟨mem, cells⟩
  refine ⟨fun hb hc hf => boots hb ?booted, fun hb hc => boots hb ?without, fun hb hf => boots hb ?records, fun hb => ?again⟩
  case booted =>
    rw [Dev.loadFirmware_of_some (d := d) (by rw [combo]; exact hc), hf]
    dsimp only
    obtain ⟨pwr, cells1, nv1, -, boot, skipped, builds⟩ := d.bootRunning_spec bs ims
    generalize d.bootRunning bs ims = e at pwr cells1 nv1 boot skipped builds
    have copied : Noise e (if f.recordCopyBad then e.setErr PWR 0 22 else e) := .ite (.setErr ..) (.refl e)
    generalize he : (if f.recordCopyBad then e.setErr PWR 0 22 else e) = e2 at copied
    obtain ⟨⟨⟨r, hp⟩, cells2, -, reads⟩, state, features⟩ := e2.startMcf_spec
    have kept {g : Field} (hg : g ∈ bootFields) : e2.getF g 0 = e.getF g 0 :=
      (Started.of_noise (fun f hf => startFields_quiet f (List.mem_cons_of_mem _ hf)) copied).reads g hg
    have manifest : e2.manifestOf e2.pwr.manifest = s.dev.manifestOf m := by
      rw [copied.reports.pwr, pwr, Dev.manifestOf, Dev.manifestOf]
      simp only [Dev.bank, copied.reports.nv, nv1, nv]
      rw [show d.manifestBank = m by rw [← hd]; rfl]
    have judged : testedUnder (d.manifestOf d.manifestBank) ims = tested := by
      rw [← hd]
      rfl
    have untested : decide (e2.getF R.PWR_FW_STATUS_BOOT 0 = 0) = tested := by
      rw [kept (by decide), boot, judged]
      cases tested <;> rfl
    rw [manifest, untested] at features
    rw [if_neg (by decide), if_neg (by decide)]
    have shown {g : Field} (hg : g ∈ [R.PWR_FW_STATUS_BOOT, R.PWR_FW_STATUS_SKIPPED] ++ (List.range 4).map R.PWR_FW_BUILD) :
        e2.startMcf.getF g 0 = e.getF g 0 := (reads g hg).trans (kept (List.mem_append_left _ hg))
    have run : e2.startMcf.pwr = { e2.pwr with recovering := r } := hp
    rw [copied.reports.pwr, pwr] at run
    refine ⟨by rw [run], by rw [run], ?_, ?_, ?_, features, fun k hk => ?_, ?_, state, (cells2.trans copied.reports.cells).trans (cells1.trans cells)⟩
    · rw [run, ← hd]
      rfl
    · rw [shown (by decide), boot, judged]
    · rw [shown (by decide), skipped, combo]
    · rw [shown (List.mem_append_right _ (List.mem_map_of_mem (List.mem_range.2 hk))), builds k hk]
    · rw [run]
      exact keys
  case without =>
    rw [none hc]
    obtain ⟨state, err, hm, hcells⟩ := (d.bootMarked.setF R.PWR_FW_STATUS_BOOT 0 2).failGlb_spec 2
    refine ⟨state, ?_, err, hm.trans marked.1, hcells.trans marked.2⟩
    exact ((Started.failGlb _ 2).reads R.PWR_FW_STATUS_BOOT (by decide)).trans (Dev.getF_setF_of_lt _ (by decide) 0)
  case records =>
    rcases hc : s.dev.bootCombo.2 with _ | ⟨bs', ims'⟩
    · rw [none hc]
      obtain ⟨state, err, hm, hcells⟩ := (d.bootMarked.setF R.PWR_FW_STATUS_BOOT 0 2).failGlb_spec 2
      exact ⟨state, err, hm.trans marked.1, hcells.trans marked.2⟩
    · rw [Dev.loadFirmware_of_some (d := d) (by rw [combo]; exact hc), hf]
      obtain ⟨state, err, hm, hcells⟩ := lost (d.bootRunning bs' ims')
      obtain ⟨-, cells1, -, mem1, -⟩ := d.bootRunning_spec bs' ims'
      exact ⟨state, err, hm.trans (mem1.trans mem), hcells.trans (cells1.trans cells)⟩
  case again =>
    refine Answers.of_onDev _ (Eq.refl (execBoot f s)) hu ?_
    dsimp only
    rw [if_pos hb]

end Sys2Proof
end

