-- ==== Sys2Proof/Proofs/JobCommands.lean ====
section
/-! Job commands enter command order and begin, or are held (R36, R342). -/

namespace Sys2Proof.Machine

/-- The places of bucket exchanges are the step's. -/
theorem Dev.placeBuckets_kept (d : Dev) (g n : Nat) : d.placeBuckets g n = { d with train := (d.placeBuckets g n).train } := by
  induction n generalizing d with
  | zero => rfl
  | succ n ih =>
    unfold Dev.placeBuckets
    extract_lets b r
    split
    · rw [ih]
      rfl
    · rfl

/-- A command other than a thin-channel request changes no more than the step's places. -/
theorem placed_kept (d : Dev) {c : JobCmd} (h : c.opc ≠ 10) : placed d c = { d with train := (placed d c).train } := by
  have kept : d.place c = { d with train := (d.place c).train } := by
    unfold Dev.place
    split
    · split
      · rw [Dev.placeBuckets_kept]
      · rfl
    · split
      · rfl
      · rfl
  unfold placed
  split
  · exact kept
  · rfl

/-- A command that begins stands in command order. -/
def Dev.entered (d : Dev) (c : JobCmd) : Dev := (placed d c).enterOrder c .running

/-- What a command finds as it begins. -/
theorem Dev.entered_kept (d : Dev) {c : JobCmd} (h : c.opc ≠ 10) :
    d.entered c = { d with
      train := (placed d c).train
      ctl := { d.ctl with order := d.ctl.order ++ [⟨c, .running⟩] }
      sow := { d.sow with planAtOnce := false, planFirst := if d.sow.planAtOnce && decide (c.opc = 4) then some c.num else d.sow.planFirst } } := by
  unfold Dev.entered
  rw [placed_kept d h]
  rfl

theorem Dev.entered_alike (d : Dev) {c : JobCmd} (h : c.opc ≠ 10) : Alike (d.entered c) d := by
  rw [d.entered_kept h]
  exact ⟨rfl, rfl, rfl, fun _ _ => rfl⟩

/-- A command that completes as it begins leaves command order as it was. -/
theorem Dev.order_complete_entered {e : Dev} {c : JobCmd} {order : List OrderEntry} (h : e.ctl.order = order ++ [⟨c, .running⟩])
    (hn : ∀ x ∈ order, x.cmd ≠ c) (status value : Nat) : (e.complete c status value).ctl.order = order := by
  rw [Dev.order_complete, h, List.filter_append, List.filter_eq_self.2 (by simpa using hn), List.filter_cons_of_neg (by simp), List.filter_nil,
    List.append_nil]

end Sys2Proof.Machine

namespace Sys2Proof

open Machine

/-- A job command that may begin. -/
theorem Answers.of_begins {s : State} {c : JobCmd} {opc : Nat} {i : Instr} {post : Dev → Prop} (hu : s.dev.up = true) (hb : Begins s c)
    (he : exec i s = s.onDev fun d => d.jobCommand opc c) (ho : c.opc = opc) (h10 : opc ≠ 10)
    (h : post ((s.dev.entered c).startCmd c).settle) : Answers i s post := by
  obtain ⟨may, update, -⟩ := hb
  refine Answers.of_onDev _ he hu ?_
  have order : (placed s.dev c).ctl.order = s.dev.ctl.order := by rw [placed_kept s.dev (by rw [ho]; exact h10)]
  have issued : s.dev.issuePlaced c (fun d => d.startCmd c) = (s.dev.entered c).startCmd c := by
    show (placed s.dev c).issue c _ = _
    rw [Dev.issue, order, if_pos may, Dev.begin, if_neg (by simp [update])]
    rfl
  rw [Dev.jobCommand, if_pos ho, issued]
  exact h

/-- A job command that may not begin is held. -/
theorem Answers.of_held {s : State} {c : JobCmd} {opc : Nat} {i : Instr} {post : Dev → Prop} (hu : s.dev.up = true)
    (hb : (placed s.dev c).mayBegin s.dev.ctl.order c = false) (he : exec i s = s.onDev fun d => d.jobCommand opc c) (ho : c.opc = opc)
    (h10 : opc ≠ 10) (h : post ((placed s.dev c).enterOrder c .held).settle) : Answers i s post := by
  refine Answers.of_onDev _ he hu ?_
  have order : (placed s.dev c).ctl.order = s.dev.ctl.order := by rw [placed_kept s.dev (by rw [ho]; exact h10)]
  have issued : s.dev.issuePlaced c (fun d => d.startCmd c) = (placed s.dev c).enterOrder c .held := by
    show (placed s.dev c).issue c _ = _
    rw [Dev.issue, order, if_neg (by simp [hb])]
  rw [Dev.jobCommand, if_pos ho, issued]
  exact h

/-- Commands that run let nothing begin. -/
theorem Dev.settle_of_running {s : State} (hh : NothingHeld s) {c : JobCmd} {t : Dev}
    (ho : t.ctl.order = s.dev.ctl.order ∨ t.ctl.order = s.dev.ctl.order ++ [⟨c, .running⟩]) : t.settle = t := by
  refine Dev.settle_of_nothing_held fun e he => ?_
  rcases ho with ho | ho <;> rw [ho] at he
  · exact hh e he
  · rcases List.mem_append.1 he with he | he
    · exact hh e he
    · rw [List.mem_singleton.1 he]
      exact .inl rfl

end Sys2Proof
end

