-- ==== Sys2Proof/Proofs/Plans.lean ====
section
/-! Obligation O31: gradient plans, finished gradients and the position check (R269, R270, R274, R275). -/

namespace Sys2Proof.Machine

/-- The plan and the finished gradients are not changed by a place in command order. -/
theorem placed_trains (d : Dev) (c : JobCmd) : (placed d c).train.plan = d.train.plan ∧ (placed d c).train.doneGrads = d.train.doneGrads := by
  have buckets (e : Dev) (g n : Nat) : (e.placeBuckets g n).train.plan = e.train.plan ∧ (e.placeBuckets g n).train.doneGrads = e.train.doneGrads := by
    induction n generalizing e with
    | zero => exact ⟨rfl, rfl⟩
    | succ n ih =>
      unfold Dev.placeBuckets
      extract_lets b r
      split
      · exact ih _
      · exact ⟨rfl, rfl⟩
  unfold placed
  split
  · unfold Dev.place
    split
    · split
      · exact buckets _ _ _
      · exact ⟨rfl, rfl⟩
    · split
      · exact ⟨rfl, rfl⟩
      · split <;> exact ⟨rfl, rfl⟩
  · exact ⟨rfl, rfl⟩

/-! ### The positions -/

theorem Dev.gsbCheck_memOnly (d : Dev) : MemOnly d d.gsbCheck.2 := by
  unfold Dev.gsbCheck
  split
  · next p _ =>
    extract_lets st e
    have wrote : MemOnly d e := .write ..
    exact .ite (wrote.trans (.write ..)) wrote
  · extract_lets e
    have wrote : MemOnly d e := .write ..
    refine wrote.trans (.foldl (fun e p => ?_) _ _)
    exact .ite (.write ..) (.refl e)

/-- Two devices that no access to memory and no check of the positions tells apart. -/
structure Based (d e : Dev) : Prop where
  alike : Alike d e
  base : d.gsbBase = e.gsbBase

theorem Dev.gsbBase_write (d : Dev) (a : Nat) (bs : List Byte) : (d.write a bs).gsbBase = d.gsbBase := by
  have kept {f : Field} (hq : f.quiet = true) (ho : f.off ≠ 192 ∧ f.off ≠ 196) : (d.write a bs).getF f 0 = d.getF f 0 :=
    (MemOnly.write d a bs).getF hq ho (by decide)
  rw [Dev.gsbBase, Dev.gsbBase, kept (f := R.SOW_GSB_BASE_LO_ADDR_LO) (by decide) (by decide),
    kept (f := R.SOW_GSB_BASE_HI_ADDR_HI) (by decide) (by decide)]

namespace Based

variable {d e : Dev}

theorem write (h : Based d e) (a : Nat) (bs : List Byte) : Based (d.write a bs) (e.write a bs) :=
  ⟨h.alike.write a bs, by rw [Dev.gsbBase_write, Dev.gsbBase_write, h.base]⟩

theorem nat (h : Based d e) (a n : Nat) : d.nat a n = e.nat a n := by rw [Dev.nat, Dev.nat, h.alike.mem]
theorem posAt (h : Based d e) (p : Nat) : d.posAt p = e.posAt p := by rw [Dev.posAt, Dev.posAt, h.base]
theorem posActive (h : Based d e) (p : Nat) : d.posActive p = e.posActive p := by rw [Dev.posActive, Dev.posActive, h.posAt, h.nat]
theorem implied (h : Based d e) (p : Nat) : d.implied p = e.implied p := by simp only [Dev.implied, h.posAt, h.nat]
theorem posCheck (h : Based d e) (p : Nat) : d.posCheck p = e.posCheck p := by simp only [Dev.posCheck, h.posAt, h.nat, h.implied]

theorem foldl {α : Type} {f g : Dev → α → Dev} (hf : ∀ {d e} x, Based d e → Based (f d x) (g e x)) (xs : List α) (h : Based d e) :
    Based (xs.foldl f d) (xs.foldl g e) := by
  induction xs generalizing d e with
  | nil => exact h
  | cons x xs ih => exact ih (hf x h)

/-- The check of the same block ends alike. -/
theorem gsbCheck (h : Based d e) : Alike d.gsbCheck.2 e.gsbCheck.2 ∧ d.gsbCheck.1 = e.gsbCheck.1 := by
  have found : ((List.range 64).filter fun p => d.posActive p).find? (fun p => decide (d.posCheck p ≠ 0))
      = ((List.range 64).filter fun p => e.posActive p).find? fun p => decide (e.posCheck p ≠ 0) := by simp only [h.posActive, h.posCheck]
  unfold Dev.gsbCheck
  rw [found]
  split
  · next p _ =>
    dsimp only
    rw [h.posCheck, h.implied, h.base]
    have wrote := h.write (e.gsbBase + 8) (leBytes 1 (e.posCheck p) ++ leBytes 1 p)
    refine ⟨?_, rfl⟩
    split
    · exact (wrote.write _ _).alike
    · exact wrote.alike
  · dsimp only
    rw [h.base]
    refine ⟨(foldl (fun p g => ?_) _ (h.write _ _)).alike, rfl⟩
    rw [g.posAt, g.nat]
    split
    · exact g.write _ _
    · exact g

end Based

/-- A plan that breaks no condition comes from a list that meets no poisoned word. -/
theorem Dev.poisonIn_of_planOk {d : Dev} {list n acc : Nat} {p : GradPlan} (h : d.planOk list n acc p = true) : d.poisonIn list (32 * n) = none := by
  simp only [Dev.planOk, Bool.and_eq_true, Option.isNone_iff_eq_none] at h
  exact h.1.1.1.2

/-- The plan that a GRAD_PLAN names. -/
def Dev.planOf (d : Dev) (c : JobCmd) : GradPlan :=
  { grads := (List.range (min (argOf c 1 % 2 ^ 32) 65536)).map (fun i => d.gradAt (argOf c 0 + 32 * i)), acc := argOf c 2,
    width := if bitOf (argOf c 1) 32 then 32 else 64, group := bitsOf (argOf c 1) 40 8, list := argOf c 0 }

/-- The plan of a command breaks no condition. -/
def Dev.planGood (d : Dev) (c : JobCmd) : Bool := d.planOk (argOf c 0) (argOf c 1 % 2 ^ 32) (argOf c 2) (d.planOf c)

/-- A good plan waits for the next boundary. -/
theorem Dev.gradPlan_good {d : Dev} {c : JobCmd} (h1 : bitsOf (argOf c 1) 33 7 = 0) (h2 : bitsOf (argOf c 1) 48 16 = 0) (h3 : argsClear c 3 = true)
    (h4 : bitOf (argOf c 1) 32 = true → d.feature 3 = true) (h5 : bitsOf (argOf c 1) 40 8 < min 256 (d.getF R.COL_GROUP_COUNT_COUNT 0))
    (h6 : d.planGood c = true) (h7 : d.sow.planFirst ≠ some c.num) :
    ∃ e, d.gradPlan c = Dev.complete e c 0 0 ∧ e.train = { d.train with nextPlan := some (d.planOf c) } ∧ e.mem = d.mem ∧ e.cells = d.cells
      ∧ e.ctl = d.ctl := by
  have clean : d.poisonIn (argOf c 0) (32 * (argOf c 1 % 2 ^ 32)) = none := Dev.poisonIn_of_planOk h6
  unfold Dev.gradPlan
  extract_lets list a1 n wide once _ e p ok f
  have hf : f = e := by
    unfold f
    rw [show e.poisonIn list (32 * n) = none from clean]
  have good : ok = true := h6
  have later : once = false := decide_eq_false h7
  rw [if_neg (by simp [a1, h1, h2, h3]), if_neg (fun h => absurd (h4 h.1) (by rw [show e.feature 3 = d.feature 3 from rfl] at h; simp [h.2])),
    if_neg (show ¬ min 256 (e.getF R.COL_GROUP_COUNT_COUNT 0) ≤ bitsOf a1 40 8 from Nat.not_le.2 h5),
    if_neg (by simp [good]), if_neg (by simp [later])]
  have named : p = d.planOf c := rfl
  have kept : f.train = d.train ∧ f.mem = d.mem ∧ f.cells = d.cells ∧ f.ctl = d.ctl := by
    rw [hf]
    exact ⟨rfl, rfl, rfl, rfl⟩
  clear_value p f
  obtain ⟨train, mem, cells, ctl⟩ := kept
  refine ⟨_, rfl, ?_, mem, cells, ctl⟩
  show { f.train with nextPlan := some p } = _
  rw [train, named]

/-- A plan that breaks a condition leaves the plans. -/
theorem Dev.gradPlan_bad {d : Dev} {c : JobCmd} (h : d.planGood c = false) :
    ∃ e status, d.gradPlan c = Dev.complete e c status 0 ∧ e.train = d.train ∧ e.ctl = d.ctl := by
  unfold Dev.gradPlan
  extract_lets list a1 n wide once _ e p ok f
  have bad : ok = false := h
  split
  · exact ⟨_, _, rfl, rfl, rfl⟩
  · split
    · have noise : Noise e (e.setErr COL 0 7) := .setErr ..
      exact ⟨_, _, rfl, by obtain ⟨_, _, _, h⟩ := noise.reports; rw [h], noise.reports.ctl⟩
    · split
      · exact ⟨_, _, rfl, rfl, rfl⟩
      · have met : MemOnly e f := by
          unfold f
          split
          · exact .poisonRead ..
          · exact .refl e
        refine ⟨f, 0x11, if_pos (by simp [bad]), by rw [met.kept], by rw [met.kept]⟩

/-- A finished gradient is done; one that is done already is counted. -/
theorem Dev.gradDone_spec {d : Dev} {c : JobCmd} {p : GradPlan} (hp : d.train.plan = some p) (hg : argOf c 0 < p.grads.length)
    (hc : argsClear c 1 = true) :
    ∃ e, d.gradDone c = Dev.complete e c 0 0 ∧ argOf c 0 ∈ e.train.doneGrads ∧ e.ctl = d.ctl ∧ e.mem = d.mem ∧ e.cells = d.cells
      ∧ e.getF R.COL_GRAD_DUP_COUNT 0 = if argOf c 0 ∈ d.train.doneGrads then
          min (2 ^ R.COL_GRAD_DUP_COUNT.width - 1) (d.getF R.COL_GRAD_DUP_COUNT 0 + 1) else d.getF R.COL_GRAD_DUP_COUNT 0 := by
  unfold Dev.gradDone
  extract_lets g
  rw [hp]
  dsimp only
  rw [if_neg (by simp [g, hg, hc])]
  by_cases done : d.train.doneGrads.contains g = true
  · have mem : argOf c 0 ∈ d.train.doneGrads := by simpa using done
    rw [if_pos done]
    refine ⟨_, rfl, mem, rfl, rfl, rfl, ?_⟩
    rw [if_pos mem, Dev.satAdd, Dev.getF_setF_of_lt]
    exact Nat.lt_of_le_of_lt (Nat.min_le_left ..) (by decide)
  · have mem : argOf c 0 ∉ d.train.doneGrads := by simpa using done
    rw [if_neg done]
    refine ⟨_, rfl, ?_, rfl, rfl, rfl, ?_⟩
    · exact mem_insertSet_iff.2 (.inl rfl)
    · rw [if_neg mem]
      rfl

end Sys2Proof.Machine

namespace Sys2Proof

open Machine

/-- Settles O31: the plan, the finished gradient and the check of the positions. -/
theorem gradientPlansAndPositions : Obligations.GradientPlansAndPositions := by
  intro s c p hu hh hb list n plan dup
  obtain ⟨-, -, absent⟩ := id hb
  have ends {e : Dev} (ho : e.ctl.order = s.dev.ctl.order ++ [⟨c, .running⟩]) (status value : Nat) :
      (e.complete c status value).settle = e.complete c status value ∧ (e.complete c status value).ctl.order = s.dev.ctl.order := by
    have order := Dev.order_complete_entered ho absent status value
    exact ⟨Dev.settle_of_running hh (c := c) (.inl order), order⟩
  refine ⟨fun ho once first h1 h2 h3 h4 h5 h6 => ?_, fun ho bad => ?_, fun ho hp hg hc => ?_, fun ho hc => ?_⟩
  · refine Answers.of_begins hu hb (Eq.refl (execGradPlan c s)) ho (by decide) ?_
    have entered := s.dev.entered_kept (c := c) (by rw [ho]; decide)
    have same : placed s.dev c = s.dev := by unfold placed Dev.place; simp [ho]
    rw [same, once] at entered
    have start : (s.dev.entered c).startCmd c = (s.dev.entered c).gradPlan c := by simp only [Dev.startCmd, ho]
    rw [start]
    generalize s.dev.entered c = d at entered
    obtain ⟨e, run, train, mem, cells, ctl⟩ := Dev.gradPlan_good (d := d) (c := c) h1 h2 h3 (by rw [entered]; exact h4) (by rw [entered]; exact h5)
      (by rw [entered]; exact h6) (by rw [entered]; exact first)
    have order : e.ctl.order = s.dev.ctl.order ++ [⟨c, .running⟩] := by
      rw [ctl, entered]
    obtain ⟨settled, left⟩ := ends order 0 0
    rw [run, settled]
    have kept := (Completed.complete e c 0 0).kept
    have plans : e.train = { s.dev.train with nextPlan := some plan } := by
      rw [train, entered]
      rfl
    refine ⟨?_, ?_, left, ?_, ?_⟩
    · rw [kept]
      exact congrArg (·.nextPlan) plans
    · rw [kept]
      exact congrArg (·.plan) plans
    · rw [kept]
      exact mem.trans (by rw [entered])
    · rw [kept]
      exact cells.trans (by rw [entered])
  · refine Answers.of_begins hu hb (Eq.refl (execGradPlan c s)) ho (by decide) ?_
    have entered := s.dev.entered_kept (c := c) (by rw [ho]; decide)
    have same : placed s.dev c = s.dev := by unfold placed Dev.place; simp [ho]
    rw [same] at entered
    have start : (s.dev.entered c).startCmd c = (s.dev.entered c).gradPlan c := by simp only [Dev.startCmd, ho]
    rw [start]
    generalize s.dev.entered c = d at entered
    obtain ⟨e, status, run, train, ctl⟩ := Dev.gradPlan_bad (d := d) (c := c) (by rw [entered]; exact bad)
    obtain ⟨settled, left⟩ := ends (e := e) (by rw [ctl, entered]) status 0
    rw [run, settled]
    have kept := (Completed.complete e c status 0).kept
    have plans : e.train = s.dev.train := by rw [train, entered]
    refine ⟨?_, ?_, left⟩ <;> rw [kept] <;> exact congrArg _ plans
  · refine Answers.of_begins hu hb (Eq.refl (execGradDone c s)) ho (by decide) ?_
    have entered := s.dev.entered_kept (c := c) (by rw [ho]; decide)
    have start : (s.dev.entered c).startCmd c = (s.dev.entered c).gradDone c := by simp only [Dev.startCmd, ho]
    obtain ⟨plans, done⟩ := placed_trains s.dev c
    rw [start]
    generalize s.dev.entered c = d at entered
    obtain ⟨e, run, marked, ctl, mem, cells, count⟩ := Dev.gradDone_spec (d := d) (c := c) (p := p) (by rw [entered]; exact plans.trans hp) hg hc
    obtain ⟨settled, left⟩ := ends (e := e) (by rw [ctl, entered]) 0 0
    rw [run, settled]
    have finished := Completed.complete e c 0 0
    have dones : d.train.doneGrads = s.dev.train.doneGrads := by rw [entered]; exact done
    have dups : d.getF R.COL_GRAD_DUP_COUNT 0 = dup := by rw [entered]; rfl
    refine ⟨?_, left, ?_, ?_, ?_⟩
    · rw [finished.kept]
      exact marked
    · rw [finished.kept]
      exact mem.trans (by rw [entered])
    · rw [finished.kept]
      exact cells.trans (by rw [entered])
    · rw [finished.getF (by decide) (by decide), count, dones, dups]
  · refine Answers.of_begins hu hb (Eq.refl (execPositionLoad c s)) ho (by decide) ?_
    have entered := s.dev.entered_kept (c := c) (by rw [ho]; decide)
    have alike := s.dev.entered_alike (c := c) (by rw [ho]; decide)
    have base : (s.dev.entered c).gsbBase = s.dev.gsbBase := by rw [entered]; rfl
    have start : (s.dev.entered c).startCmd c = (s.dev.entered c).positionLoad c := by simp only [Dev.startCmd, ho]
    rw [start]
    generalize s.dev.entered c = d at entered alike base
    obtain ⟨same, status⟩ := Based.gsbCheck ⟨alike, base⟩
    have wrote := d.gsbCheck_memOnly
    unfold Dev.positionLoad
    rw [if_neg (by simp [hc])]
    extract_lets r _ _ e
    have checked : e.ctl.gsbChecked = decide (s.dev.gsbCheck.1 = 0) := by rw [← status]
    have kept : e.mem = d.gsbCheck.2.mem ∧ e.cells = d.cells ∧ e.ctl.order = d.ctl.order := ⟨rfl, wrote.cells, congrArg (·.order) wrote.ctl⟩
    clear_value e
    obtain ⟨mem, cells, order⟩ := kept
    generalize (if r.1 = 0 then 0 else 0x20 + r.1) = status'
    obtain ⟨settled, left⟩ := ends (e := e) (by rw [order, entered]) status' 0
    rw [settled]
    have finished := Completed.complete e c status' 0
    refine ⟨?_, ?_, left, ?_⟩
    · rw [finished.kept]
      exact checked
    · rw [finished.kept]
      exact (congrArg (·.bytes) mem).trans (congrArg (·.bytes) same.mem)
    · rw [finished.kept]
      exact cells.trans (by rw [entered])

end Sys2Proof
end

