-- ==== Sys2Proof/Proofs/PlotRuns.lean ====
section
/-! Obligation O30: job commands wait in order, and plots run (R36, R95, R99, R274, R523). -/

namespace Sys2Proof.Machine

/-! ### A cell beside a block that changes -/

/-- The sequencer's fields of a cell have no home among those of a block's change of state. -/
theorem sequencer_not_blockKeys {f : Field} (h : f ∈ [R.CEL_SEQ_STATUS_RUN, R.CEL_SEQ_STATUS_PC]) (c i p : Nat) : f.key p ∉ blockKeys c i := by
  have place : f.place = 4238 ∨ f.place = 4224 := (by decide : ∀ f ∈ [R.CEL_SEQ_STATUS_RUN, R.CEL_SEQ_STATUS_PC], f.place = 4238 ∨ f.place = 4224) f h
  have ne (g : Field) (j : Nat) (hg : g.place ≠ 4238 ∧ g.place ≠ 4224) : f.key p ≠ g.key j := Field.key_ne (by omega) p j
  have follow : f.key p ∉ stateFields c i := by
    unfold stateFields
    split
    · simp only [List.mem_cons, List.not_mem_nil, or_false, not_or]
      exact ⟨ne R.LNK_STATUS_LSTATE i (by decide), ne R.LNK_STATUS_LANES i (by decide), ne R.LNK_STATUS_SPARED i (by decide)⟩
    · split
      · simp only [List.mem_cons, List.not_mem_nil, or_false]
        exact ne R.CEL_ARRAY_STATUS_NEXT_TAG i (by decide)
      · exact List.not_mem_nil
  simp only [blockKeys, List.mem_append, List.mem_cons, List.not_mem_nil, or_false, not_or]
  exact ⟨⟨ne _ i (by simp [Field.place, R.BLK_CTRL_ENABLE]), ne _ i (by simp [Field.place, R.BLK_CTRL_CLOCHE_REQ]),
    ne _ i (by simp [Field.place, R.BLK_CTRL_QUIESCE_REQ]), ne _ i (by simp [Field.place, R.BLK_STATE_STATE]),
    ne _ i (by simp [Field.place, R.BLK_IRQ_PEND]), ne (R.COUNTER RAS 5) 0 (by decide)⟩, follow⟩

/-- A change leaves a cell's record and its sequencer's fields. -/
structure Beside (p : Nat) (d t : Dev) : Prop where
  cell : t.cell p = d.cell p
  seq : ∀ f ∈ [R.CEL_SEQ_STATUS_RUN, R.CEL_SEQ_STATUS_PC], t.getF f p = d.getF f p

namespace Beside

variable {p : Nat} {d e t : Dev}

theorem refl (p : Nat) (d : Dev) : Beside p d d := ⟨rfl, fun _ _ => rfl⟩

theorem trans (h : Beside p d e) (g : Beside p e t) : Beside p d t := ⟨g.cell.trans h.cell, fun f hf => (g.seq f hf).trans (h.seq f hf)⟩

theorem ite {a b : Dev} {q : Prop} [Decidable q] (ha : Beside p d a) (hb : Beside p d b) : Beside p d (if q then a else b) := by
  split
  · exact ha
  · exact hb

theorem setF {q : Nat} (h : q ≠ p) (d : Dev) {f : Field} (v : Nat) (hf : f.cls = CEL) (ho : f.off < 4096 ∧ f.lo < 32) : Beside p d (d.setF f q v) := by
  refine ⟨rfl, fun g hg => Dev.getF_setF_other d (fun e => h ?_) v⟩
  have page := congrArg (· / 131072) e
  have cls : g.cls = CEL ∧ g.off = 132 ∧ g.lo < 32 :=
    (by decide : ∀ g ∈ [R.CEL_SEQ_STATUS_RUN, R.CEL_SEQ_STATUS_PC], g.cls = CEL ∧ g.off = 132 ∧ g.lo < 32) g hg
  simp only [Field.key, hf, cls.1, cls.2.1] at page
  omega

theorem setBlk (d : Dev) (c i v : Nat) (hv : v ≠ stFailed) : Beside p d (d.setBlk c i v) := by
  have moved : Moved c i d (d.setBlk c i v) := .setBlk d hv
  exact ⟨by rw [Dev.cell, Dev.cell, moved.rest], fun f hf => by
    rw [Dev.getF, Dev.getF, mget, mget, moved.kept _ (sequencer_not_blockKeys hf c i p)]⟩

end Beside

/-- A change on another cell's page leaves its marks and its state. -/
structure Elsewhere (p : Nat) (d t : Dev) : Prop where
  beside : Beside p d t
  state : t.inService p = d.inService p
  returned : t.isReturned CEL p = d.isReturned CEL p

namespace Elsewhere

variable {p : Nat} {d e t : Dev}

theorem refl (p : Nat) (d : Dev) : Elsewhere p d d := ⟨.refl p d, rfl, rfl⟩

theorem trans (h : Elsewhere p d e) (g : Elsewhere p e t) : Elsewhere p d t :=
  ⟨h.beside.trans g.beside, g.state.trans h.state, g.returned.trans h.returned⟩

theorem ite {a b : Dev} {q : Prop} [Decidable q] (ha : Elsewhere p d a) (hb : Elsewhere p d b) : Elsewhere p d (if q then a else b) := by
  split
  · exact ha
  · exact hb

/-- A change of another cell's state marks that cell alone. -/
theorem setBlk {q : Nat} (h : q ≠ p) (d : Dev) {v : Nat} (hv : v ≠ stFailed) : Elsewhere p d (d.setBlk CEL q v) := by
  refine ⟨.setBlk d CEL q v hv, (Aside.setBlk h d v).inService, ?_⟩
  have marks : (d.setReturned CEL q (decide (d.blk CEL q = stCloched) && decide (v = stReady) && d.jobActive)).isReturned CEL p = d.isReturned CEL p := by
    have ne : returnedKey CEL p ≠ returnedKey CEL q := by simp only [returnedKey]; omega
    unfold Dev.isReturned Dev.setReturned
    dsimp only
    split
    · rw [mfind_mput_other ne]
    · rw [mfind_mdel_other ne]
  have tail (e : Dev) : (((e.setF (R.BLK_STATE_STATE CEL) q v).irq CEL q 2).stateFollows CEL q v).testFails = e.testFails := by
    have raised : ((e.setF (R.BLK_STATE_STATE CEL) q v).irq CEL q 2).testFails = e.testFails := by
      obtain ⟨_, _, _, h⟩ := Reports.irq (e.setF (R.BLK_STATE_STATE CEL) q v) CEL q 2
      rw [h]
      rfl
    unfold Dev.stateFollows
    rw [if_neg (fun h => absurd h.1 (by decide))]
    split
    · exact raised
    · rw [if_neg (fun h => absurd h.1 (by decide))]
      exact raised
  unfold Dev.setBlk
  split
  · rfl
  · rw [← marks, Dev.isReturned, Dev.isReturned, tail]

end Elsewhere

/-! ### A plot's run -/

/-- What the cells of plot k find in its record stays, and memory and command order with it. -/
structure RunKept (k : Nat) (d t : Dev) : Prop where
  mem : t.mem = d.mem
  ctl : t.ctl = d.ctl
  run : ∃ xs, t.plot k = { d.plot k with halted := xs } ∧ ((d.plot k).halted = [] → xs = [])

namespace RunKept

variable {k : Nat} {d e t : Dev}

theorem refl (k : Nat) (d : Dev) : RunKept k d d := ⟨rfl, rfl, _, rfl, id⟩

theorem trans (h : RunKept k d e) (g : RunKept k e t) : RunKept k d t := by
  obtain ⟨xs, hx, nx⟩ := h.run
  obtain ⟨ys, hy, ny⟩ := g.run
  refine ⟨g.mem.trans h.mem, g.ctl.trans h.ctl, ys, by rw [hy, hx], fun hd => ny (by rw [hx]; exact nx hd)⟩

theorem ite {a b : Dev} {p : Prop} [Decidable p] (ha : RunKept k d a) (hb : RunKept k d b) : RunKept k d (if p then a else b) := by
  split
  · exact ha
  · exact hb

theorem foldl {α : Type} {f : Dev → α → Dev} (h : ∀ e x, RunKept k e (f e x)) (xs : List α) (d : Dev) : RunKept k d (xs.foldl f d) := by
  induction xs generalizing d with
  | nil => exact refl k d
  | cons x xs ih => exact (h d x).trans (ih _)

theorem of_plots (hm : t.mem = d.mem) (hc : t.ctl = d.ctl) (hp : t.plots = d.plots) : RunKept k d t :=
  ⟨hm, hc, _, by rw [Dev.plot, Dev.plot, hp], id⟩

theorem setBlk (d : Dev) (c i v : Nat) : RunKept k d (d.setBlk c i v) := by
  have frame : StateFrame d (d.setBlk c i v) := .setBlk ..
  exact of_plots frame.mem (by rw [frame]) (by rw [frame])

theorem joinRun (d : Dev) (p : Nat) : RunKept k d (d.joinRun k p) := by
  unfold Dev.joinRun
  split
  · exact refl k d
  · extract_lets r c e1 e2 e3
    have left : RunKept k d e1 := ⟨rfl, rfl, r.halted.erase p, mget_mput_same .., fun h => by rw [show r.halted = [] from h]; rfl⟩
    have joined : RunKept k e1 e3 := of_plots rfl rfl rfl
    exact ite ((left.trans joined).trans (setBlk ..)) (left.trans joined)

theorem borrow (d : Dev) : RunKept k d (d.borrow k) := by
  unfold Dev.borrow
  split
  · split
    · exact foldl (fun e p => ite (joinRun e p) (refl k e)) _ _
    · exact refl k d
  · exact refl k d

end RunKept

/-! ### A cell that joins -/

/-- The cell runs plot k's program from its entry. -/
structure Joined (k p : Nat) (code : List Byte) (entry : Nat) (t : Dev) : Prop where
  plot : (t.cell p).plot = some k
  store : (t.cell p).istore = code
  run : t.getF R.CEL_SEQ_STATUS_RUN p = 1
  pc : t.getF R.CEL_SEQ_STATUS_PC p = entry

/-- The cell can join a run, and is in none. -/
structure Idle (p : Nat) (d : Dev) : Prop where
  service : d.inService p = true
  back : d.isReturned CEL p = false
  stopped : d.getF R.CEL_SEQ_STATUS_RUN p ∉ [1, 2]

/-- The plot runs this program. -/
structure Runs (k : Nat) (c : JobCmd) (code : List Byte) (d : Dev) : Prop where
  cmd : (d.plot k).cmd = some c
  code : (d.plot k).code = code

section

variable {k p : Nat} {c : JobCmd} {code : List Byte} {entry : Nat} {d t : Dev}

theorem Joined.beside (h : Joined k p code entry d) (g : Beside p d t) : Joined k p code entry t :=
  ⟨by rw [g.cell]; exact h.plot, by rw [g.cell]; exact h.store, (g.seq _ (by decide)).trans h.run, (g.seq _ (by decide)).trans h.pc⟩

theorem Idle.elsewhere (h : Idle p d) (g : Elsewhere p d t) : Idle p t :=
  ⟨g.state.trans h.service, g.returned.trans h.back, by rw [g.beside.seq _ (by decide)]; exact h.stopped⟩

theorem RunKept.runs (h : RunKept k d t) (g : Runs k c code d) : Runs k c code t := by
  obtain ⟨xs, hx, -⟩ := h.run
  exact ⟨by rw [hx]; exact g.cmd, by rw [hx]; exact g.code⟩

/-- Another cell joins. -/
theorem Elsewhere.joinRun {q : Nat} (h : q ≠ p) (d : Dev) (k : Nat) : Elsewhere p d (d.joinRun k q) := by
  unfold Dev.joinRun
  split
  · exact .refl p d
  · extract_lets r x e1 e2 e3
    have stored : Elsewhere p d e2 := ⟨⟨Dev.cell_setCell_other _ h.symm _, fun _ _ => rfl⟩, rfl, rfl⟩
    have state (e : Dev) {f : Field} (v : Nat) (hf : f.cls = CEL) (hp : f.place ≠ 896) (ho : f.off < 4096 ∧ f.lo < 32) :
        Elsewhere p e (e.setF f q v) :=
      ⟨.setF h e v hf ho, by
        rw [Dev.inService, Dev.inService, Dev.blk, Dev.blk, Dev.getF_setF_place (f := f) (g := R.BLK_STATE_STATE CEL) (Ne.symm hp)]
        rfl, rfl⟩
    have shown : Elsewhere p e2 e3 := ((state e2 (f := R.CEL_SEQ_STATUS_RUN) 1 rfl (by decide) (by decide)).trans
      (state _ (f := R.CEL_SEQ_STATUS_PC) _ rfl (by decide) (by decide))).trans (state _ (f := R.CEL_TILE_STATUS_HOLDING) 0 rfl (by decide) (by decide))
    exact .ite ((stored.trans shown).trans (.setBlk h e3 (by decide))) (stored.trans shown)

/-- An idle cell joins. -/
theorem Idle.joins (h : Idle p d) (g : Runs k c code d) (hc : argOf c 3 < 16384) : Joined k p code (argOf c 3) (d.joinRun k p) := by
  unfold Dev.joinRun
  rw [if_neg (by simp [h.service, h.back])]
  extract_lets r x e1 e2 e3
  have cell : (e3.cell p).plot = some k ∧ (e3.cell p).istore = r.code := by
    unfold e3
    rw [Dev.cell_setF, Dev.cell_setF, Dev.cell_setF]
    unfold e2
    rw [Dev.cell_setCell_same]
    exact ⟨rfl, rfl⟩
  have entry : r.cmd.elim 0 (fun c => argOf c 3) = argOf c 3 := by rw [show r.cmd = some c from g.cmd]; rfl
  have joined : Joined k p code (argOf c 3) e3 := by
    refine ⟨cell.1, cell.2.trans g.code, ?_, ?_⟩
    · rw [Dev.getF_setF_place (by decide), Dev.getF_setF_place (by decide), Dev.getF_setF_same]
      rfl
    · rw [Dev.getF_setF_place (by decide), Dev.getF_setF_same, entry]
      exact Nat.mod_eq_of_lt hc
  split
  · exact joined.beside (.setBlk e3 CEL p stRunning (by decide))
  · exact joined

/-- A cell that runs already does not join again. -/
def Dev.joinIdle (d : Dev) (k p : Nat) : Dev :=
  if d.getF R.CEL_SEQ_STATUS_RUN p = 1 ∨ d.getF R.CEL_SEQ_STATUS_RUN p = 2 then d else d.joinRun k p

/-- A cell that does no work may be lent. -/
def Dev.lend (d : Dev) (k p : Nat) : Dev :=
  if d.getF R.CEL_SEQ_STATUS_RUN p = 0 ∧ (d.plot k).halted.contains p = false then d.joinRun k p else d

theorem Joined.joinIdle (h : Joined k p code entry d) (j q : Nat) : Joined k p code entry (d.joinIdle j q) := by
  by_cases hq : q = p
  · rw [hq, Dev.joinIdle, if_pos (.inl h.run)]
    exact h
  · unfold Dev.joinIdle
    split
    · exact h
    · exact h.beside (Elsewhere.joinRun hq d j).beside

theorem Joined.lend (h : Joined k p code entry d) (j q : Nat) : Joined k p code entry (d.lend j q) := by
  by_cases hq : q = p
  · rw [hq, Dev.lend, if_neg (by simp [h.run])]
    exact h
  · unfold Dev.lend
    split
    · exact h.beside (Elsewhere.joinRun hq d j).beside
    · exact h

theorem Joined.foldl {f : Dev → Nat → Dev} (hf : ∀ {e} q, Joined k p code entry e → Joined k p code entry (f e q)) (xs : List Nat)
    (h : Joined k p code entry d) : Joined k p code entry (xs.foldl f d) := by
  induction xs generalizing d with
  | nil => exact h
  | cons x xs ih => exact ih (hf x h)

/-- The cells of the plot that can join do. -/
theorem Idle.joins_all {xs : List Nat} (hp : p ∈ xs) (h : Idle p d) (g : Runs k c code d) (hc : argOf c 3 < 16384) :
    Joined k p code (argOf c 3) (xs.foldl (fun d p => d.joinIdle k p) d) := by
  induction xs generalizing d with
  | nil => exact absurd hp List.not_mem_nil
  | cons x xs ih =>
    rw [List.foldl_cons]
    by_cases hx : x = p
    · have idle := h.stopped
      simp only [List.mem_cons, List.not_mem_nil, or_false] at idle
      rw [hx, Dev.joinIdle, if_neg idle]
      exact (h.joins g hc).foldl (fun q he => he.joinIdle k q) xs
    · have rest : p ∈ xs := (List.mem_cons.1 hp).resolve_left (Ne.symm hx)
      unfold Dev.joinIdle
      split
      · exact ih rest h g
      · exact ih rest (h.elsewhere (.joinRun hx d k)) ((RunKept.joinRun d x).runs g)

/-- A borrowing takes no cell that has joined. -/
theorem Joined.borrow (h : Joined k p code entry d) (j : Nat) : Joined k p code entry (d.borrow j) := by
  unfold Dev.borrow
  split
  · split
    · exact h.foldl (fun q he => he.lend j q) _
    · exact h
  · exact h

theorem Joined.takesWork (h : Joined k p code entry d) (b i : Nat) : Joined k p code entry (d.takesWork b i) := by
  unfold Dev.takesWork
  split
  · exact h.beside (.setBlk d b i stRunning (by decide))
  · exact h

end

/-! ### PLOT_RUN -/

/-- The fields that name the members of a plot stay. -/
theorem Dev.members_of {d t : Dev} (hn : t.nv.grade = d.nv.grade ∧ t.nv.mapChanges = d.nv.mapChanges ∧ t.nv.spares = d.nv.spares
    ∧ t.nv.disabled = d.nv.disabled) {k : Nat} (hf : ∀ j < 32, t.getF (R.PLT_MEMBER j) k = d.getF (R.PLT_MEMBER j) k) :
    (t.members k).filterMap t.physOf = (d.members k).filterMap d.physOf := by
  obtain ⟨grade, map, spares, disabled⟩ := hn
  have cells : t.logicalCells = d.logicalCells := by rw [Dev.logicalCells, Dev.logicalCells, grade]
  have phys : t.physOf = d.physOf := by
    funext l
    simp only [Dev.physOf, cells, map, spares, disabled]
  have members : t.members k = d.members k := by
    unfold Dev.members Dev.unmapped
    rw [cells, map]
    refine List.filter_congr fun l hl => ?_
    have lt : l / 32 < 32 := by
      have := List.mem_range.1 hl
      unfold Dev.logicalCells at this
      omega
    rw [Dev.isMember, Dev.isMember, hf _ lt]
  rw [members, phys]

/-- The record of the plot that starts. -/
def Dev.startPlot (d : Dev) (c : JobCmd) : Dev :=
  d.setPlot (argOf c 0) { d.plot (argOf c 0) with
    cmd := some c, program := (argOf c 1, argOf c 2), code := d.bytes (argOf c 1) (argOf c 2), base := (d.plot (argOf c 0)).nextPhase
    halted := [], stopped := false, traps := [] }

/-- PLOT_RUN of a plot that holds cells. -/
theorem Dev.plotRun_eq {d : Dev} {c : JobCmd} (h1 : argOf c 0 < 64) (h2 : argOf c 2 ≤ 65536) (h3 : argOf c 3 < 16384) (h4 : argsClear c 4 = true)
    (h5 : d.plotActive (argOf c 0) = true) (h6 : d.inJob (argOf c 1) (argOf c 2) = true) :
    d.plotRun c = (((((d.noteRead (argOf c 1) (argOf c 2)).startPlot c).members (argOf c 0)).filterMap
        ((d.noteRead (argOf c 1) (argOf c 2)).startPlot c).physOf).foldl (fun d p => d.joinIdle (argOf c 0) p)
      ((d.noteRead (argOf c 1) (argOf c 2)).startPlot c) |>.takesWork PLT (argOf c 0) |>.takesWork TRL 0).borrow (argOf c 0) := by
  unfold Dev.plotRun
  extract_lets k a n
  rw [if_neg (by simp [k, n, h1, h2, h3, h4, h5]), if_neg (by simp [a, n, h6])]
  rfl

/-- A read of the program leaves a cell that can join as it was. -/
theorem Idle.noteRead {p : Nat} {d : Dev} (h : Idle p d) (a n : Nat) : Idle p (d.noteRead a n) := by
  have mem : MemOnly d (d.noteRead a n) := .noteRead ..
  have quiet : noiseKey (R.CEL_SEQ_STATUS_RUN.key p) = false := by
    have off : R.CEL_SEQ_STATUS_RUN.key p / 32 % 4096 = 132 := by simp only [Field.key, R.CEL_SEQ_STATUS_RUN]; omega
    have lo : R.CEL_SEQ_STATUS_RUN.key p % 32 = 14 := by simp only [Field.key, R.CEL_SEQ_STATUS_RUN]; omega
    simp [noiseKey, off, lo]
  have home : ∀ {f : Field}, f.off ≠ 192 ∧ f.off ≠ 196 → f.off < 4096 → f.lo < 32 → ¬ ueHome (f.key p) := fun h ho hl => by
    simp only [ueHome, Field.key]
    omega
  have state : (d.noteRead a n).blk CEL p = d.blk CEL p := by
    have disabled : (d.noteRead a n).nv.disabled = d.nv.disabled := by rw [mem.kept]
    have retired : (d.noteRead a n).nv.retired = d.nv.retired := by rw [mem.kept]
    rw [Dev.blk, Dev.blk, disabled, retired, Dev.getF, Dev.getF, mget, mget,
      mem.touches.kept _ (noiseKey_state CEL p) (home (by decide) (by decide) (by decide))]
  refine ⟨by rw [Dev.inService, state]; exact h.service, ?_, ?_⟩
  · rw [Dev.isReturned, mem.kept]
    exact h.back
  · rw [Dev.getF, mget, mem.touches.kept _ quiet (home (by decide) (by decide) (by decide))]
    exact h.stopped

end Sys2Proof.Machine

namespace Sys2Proof

open Machine

/-- A cell leaves its plot's run. -/
def Machine.Dev.freeCell (d : Dev) (p : Nat) : Dev := d.setCell p { d.cell p with plot := none }

theorem Machine.Dev.freeCells_kept (d : Dev) (xs : List Nat) :
    xs.foldl (fun d p => d.freeCell p) d = { d with cells := (xs.foldl (fun d p => d.freeCell p) d).cells } := by
  induction xs generalizing d with
  | nil => rfl
  | cons x xs ih =>
    rw [List.foldl_cons, ih]
    rfl

theorem Machine.Dev.freeCells_free (d : Dev) {xs : List Nat} {p : Nat} (hp : p ∈ xs) :
    ((xs.foldl (fun d p => d.freeCell p) d).cell p).plot = none := by
  have stays (ys : List Nat) (e : Dev) (he : (e.cell p).plot = none) : ((ys.foldl (fun d p => d.freeCell p) e).cell p).plot = none := by
    induction ys generalizing e with
    | nil => exact he
    | cons y ys ih =>
      refine ih _ ?_
      show ((e.freeCell y).cell p).plot = none
      rw [Dev.freeCell, Dev.cell_setCell]
      split
      · rfl
      · exact he
  induction xs generalizing d with
  | nil => exact absurd hp List.not_mem_nil
  | cons x xs ih =>
    rw [List.foldl_cons]
    by_cases hx : x = p
    · refine stays xs _ ?_
      show ((d.freeCell x).cell p).plot = none
      rw [hx, Dev.freeCell, Dev.cell_setCell_same]
    · exact ih _ ((List.mem_cons.1 hp).resolve_left (Ne.symm hx))

/-- The end of a plot's run. -/
def Machine.Dev.endRun (d : Dev) (plot : Nat) (c : JobCmd) : Dev :=
  let e := (d.runners plot).foldl (fun d p => d.freeCell p) d
  (e.setPlot plot { e.plot plot with cmd := none }).complete c 0 0

theorem Machine.Dev.endRun_spec (d : Dev) (plot : Nat) (c : JobCmd) :
    let t := d.endRun plot c
    t.ctl.order = d.ctl.order.filter (fun e => decide (e.cmd ≠ c)) ∧ (t.plot plot).cmd = none
      ∧ (∀ p ∈ d.runners plot, (t.cell p).plot = none) ∧ t.mem = d.mem := by
  unfold Dev.endRun
  extract_lets e _ t
  have kept : e = { d with cells := e.cells } := Dev.freeCells_kept ..
  have free : ∀ p ∈ d.runners plot, (e.cell p).plot = none := fun p hp => Dev.freeCells_free d hp
  clear_value e
  have done : Completed (e.setPlot plot { e.plot plot with cmd := none }) t := .complete ..
  have plots : (e.setPlot plot { e.plot plot with cmd := none }).plot plot = { e.plot plot with cmd := none } := mget_mput_same ..
  refine ⟨?_, ?_, fun p hp => ?_, ?_⟩
  · rw [Dev.order_complete]
    show e.ctl.order.filter _ = _
    rw [kept]
  · rw [done.kept]
    exact congrArg (·.cmd) plots
  · rw [done.kept]
    exact free p hp
  · rw [done.kept]
    show e.mem = _
    rw [kept]

/-- Behind commands that run, the last one is the next to begin, if it may. -/
theorem Machine.Dev.nextHeld_last {d : Dev} {es ahead : List OrderEntry} {e : OrderEntry} (h : ∀ x ∈ es, x.phase = .running ∨ x.cmd.opc = 1) :
    d.nextHeld ahead (es ++ [e])
      = if decide (e.phase = .held) && decide (e.cmd.opc ≠ 1) && d.mayBegin (ahead ++ es) e.cmd then some e.cmd else none := by
  induction es generalizing ahead with
  | nil =>
    rw [List.nil_append, List.append_nil]
    rfl
  | cons x xs ih =>
    rw [List.cons_append, Dev.nextHeld, if_neg, ih fun y hy => h y (List.mem_cons_of_mem _ hy), List.append_assoc, List.singleton_append]
    rcases h x List.mem_cons_self with h | h <;> simp [h]

theorem jobCommandsWaitInOrder : JobCommandsWaitInOrder := by
  intro s c hu hh hb waits
  have held (h10 : c.opc ≠ 10) : ((placed s.dev c).enterOrder c .held).settle = (placed s.dev c).enterOrder c .held := by
    have order : ((placed s.dev c).enterOrder c .held).ctl.order = s.dev.ctl.order ++ [⟨c, .held⟩] := by
      rw [placed_kept s.dev h10]
      rfl
    have may : ((placed s.dev c).enterOrder c .held).mayBegin s.dev.ctl.order c = false := hb
    have none : ((placed s.dev c).enterOrder c .held).nextHeld [] (s.dev.ctl.order ++ [⟨c, .held⟩]) = none := by
      rw [Dev.nextHeld_last hh, List.nil_append, may]
      simp
    rw [Dev.settle, order, List.length_append, List.length_singleton, Dev.settleN, order, none]
  have wait {i : Instr} {opc : Nat} (h10 : opc ≠ 10) (he : exec i s = s.onDev fun d => d.jobCommand opc c) : waits i opc := by
    intro ho
    refine Answers.of_held hu hb he ho h10 ?_
    rw [held (by rw [ho]; exact h10), placed_kept s.dev (c := c) (by rw [ho]; exact h10)]
    exact ⟨rfl, rfl, rfl⟩
  exact ⟨wait (by decide) (Eq.refl (execPlotRun c s)), wait (by decide) (Eq.refl (execIngest c s)), wait (by decide) (Eq.refl (execGradPlan c s)),
    wait (by decide) (Eq.refl (execGradDone c s)), wait (by decide) (Eq.refl (execPositionLoad c s)),
    wait (by decide) (Eq.refl (execAllGather c s)), wait (by decide) (Eq.refl (execBroadcast c s)), wait (by decide) (Eq.refl (execBarrier c s))⟩

theorem plotRunsStartAndComplete : PlotRunsStartAndComplete := by
  intro s c hu hh k
  refine ⟨fun ho hb h1 h2 h3 h4 h5 h6 => ?_, fun ho hb h5 => ?_, fun plot hc hover => ?_, fun plot hover => ?_⟩
  · refine Answers.of_begins hu hb (Eq.refl (execPlotRun c s)) ho (by decide) ?_
    have entered := s.dev.entered_kept (c := c) (by rw [ho]; decide)
    have start : (s.dev.entered c).startCmd c = (s.dev.entered c).plotRun c := by simp only [Dev.startCmd, ho]
    rw [start]
    generalize s.dev.entered c = d at entered
    have order : d.ctl.order = s.dev.ctl.order ++ [⟨c, .running⟩] := by rw [entered]
    rw [Dev.plotRun_eq (d := d) h1 h2 h3 h4 (by rw [entered]; exact h5) (by rw [entered]; exact h6)]
    have idle : ∀ p, s.dev.inService p = true → s.dev.isReturned CEL p = false → s.dev.getF R.CEL_SEQ_STATUS_RUN p ∉ [1, 2] → Idle p d :=
      fun p hs hr hi => by rw [entered]; exact ⟨hs, hr, hi⟩
    have memberOf : (d.members k).filterMap d.physOf = (s.dev.members k).filterMap s.dev.physOf := by rw [entered]; rfl
    have mem : d.mem = s.dev.mem := by rw [entered]
    have read : MemOnly d (d.noteRead (argOf c 1) (argOf c 2)) := .noteRead ..
    have bytes : (d.noteRead (argOf c 1) (argOf c 2)).mem.bytes = d.mem.bytes := (SameBytes.noteRead ..).1
    have members : ((d.noteRead (argOf c 1) (argOf c 2)).members k).filterMap (d.noteRead (argOf c 1) (argOf c 2)).physOf
        = (d.members k).filterMap d.physOf :=
      Dev.members_of (by rw [read.kept]; exact ⟨rfl, rfl, rfl, rfl⟩) fun j hj =>
        read.touches.getF ((by decide : ∀ j < 32, (R.PLT_MEMBER j).quiet = true) j hj) (by omega) (by
          simp only [ueHome, Field.key, R.PLT_MEMBER]
          omega)
    have idles {p : Nat} (h : Idle p d) := h.noteRead (argOf c 1) (argOf c 2)
    generalize d.noteRead (argOf c 1) (argOf c 2) = e1 at read bytes members idles ⊢
    have plot : (e1.startPlot c).plot k = { e1.plot k with
        cmd := some c, program := (argOf c 1, argOf c 2), code := e1.bytes (argOf c 1) (argOf c 2), base := (e1.plot k).nextPhase
        halted := [], stopped := false, traps := [] } := mget_mput_same ..
    have started : (e1.startPlot c).mem = e1.mem ∧ (e1.startPlot c).ctl = e1.ctl
        ∧ ((e1.startPlot c).members k).filterMap (e1.startPlot c).physOf = (e1.members k).filterMap e1.physOf := ⟨rfl, rfl, rfl⟩
    have ready : ∀ p, Idle p e1 → Idle p (e1.startPlot c) := fun p h => ⟨h.service, h.back, h.stopped⟩
    generalize e1.startPlot c = e2 at plot started ready ⊢
    obtain ⟨mem2, ctl2, members2⟩ := started
    have code : e1.bytes (argOf c 1) (argOf c 2) = s.dev.bytes (argOf c 1) (argOf c 2) := by rw [Dev.bytes, Dev.bytes, bytes, mem]
    have runs : Runs k c (s.dev.bytes (argOf c 1) (argOf c 2)) e2 := ⟨by rw [plot], by rw [plot]; exact code⟩
    rw [members2, members, memberOf]
    have joined : ∀ l ∈ s.dev.members k, ∀ p, s.dev.physOf l = some p → s.dev.inService p = true → s.dev.isReturned CEL p = false →
        s.dev.getF R.CEL_SEQ_STATUS_RUN p ∉ [1, 2] → Joined k p (s.dev.bytes (argOf c 1) (argOf c 2)) (argOf c 3)
          (((s.dev.members k).filterMap s.dev.physOf).foldl (fun d p => d.joinIdle k p) e2) := fun l hl p hp hs hr hi =>
      (ready p (idles (idle p hs hr hi))).joins_all (List.mem_filterMap.2 ⟨l, hl, hp⟩) runs h3
    have kept : RunKept k e2 (((s.dev.members k).filterMap s.dev.physOf).foldl (fun d p => d.joinIdle k p) e2) :=
      .foldl (fun e p => .ite (.refl k e) (.joinRun e p)) _ _
    generalize ((s.dev.members k).filterMap s.dev.physOf).foldl (fun d p => d.joinIdle k p) e2 = e3 at joined kept ⊢
    have worked (e : Dev) (b i : Nat) : RunKept k e (e.takesWork b i) := .ite (.setBlk ..) (.refl k e)
    have final : RunKept k e2 (((e3.takesWork PLT k).takesWork TRL 0).borrow k) := ((kept.trans (worked ..)).trans (worked ..)).trans (.borrow _)
    have settled : (((e3.takesWork PLT k).takesWork TRL 0).borrow k).ctl.order = s.dev.ctl.order ++ [⟨c, .running⟩] := by
      rw [final.ctl, ctl2, read.ctl]
      exact order
    rw [Dev.settle_of_running hh (.inr settled)]
    obtain ⟨xs, hx, none⟩ := final.run
    rw [none (by rw [plot]), plot] at hx
    refine ⟨by rw [hx], by rw [hx], by rw [hx]; exact code, by rw [hx], by rw [hx], by rw [settled]; simp, fun l hl p hp hs hr hi => ?_, ?_⟩
    · obtain ⟨inRun, store, run, pc⟩ := (((joined l hl p hp hs hr hi).takesWork PLT k).takesWork TRL 0).borrow k
      exact ⟨inRun, store, run, pc⟩
    · rw [final.mem, mem2, bytes, mem]
  · refine Answers.of_begins hu hb (Eq.refl (execPlotRun c s)) ho (by decide) ?_
    have entered := s.dev.entered_kept (c := c) (by rw [ho]; decide)
    have start : (s.dev.entered c).startCmd c = (s.dev.entered c).plotRun c := by simp only [Dev.startCmd, ho]
    have order : (s.dev.entered c).ctl.order = s.dev.ctl.order ++ [⟨c, .running⟩] := by rw [entered]
    have inactive : (s.dev.entered c).plotActive k = false := by rw [entered]; exact h5
    have refused : (s.dev.entered c).plotRun c = (s.dev.entered c).complete c 2 0 := if_pos (by simp [inactive, k])
    have left := Dev.order_complete_entered order hb.2.2 2 0
    rw [start, refused, Dev.settle_of_running hh (c := c) (.inl left)]
    have kept := (Completed.complete (s.dev.entered c) c 2 0).kept
    exact ⟨left, by rw [kept, entered], by rw [kept, entered]⟩
  · obtain ⟨order, cmd, free, mem⟩ := s.dev.endRun_spec plot c
    have left : ∀ e ∈ (s.dev.endRun plot c).ctl.order, e.cmd ≠ c ∧ e ∈ s.dev.ctl.order := fun e he => by
      rw [order, List.mem_filter] at he
      exact ⟨by simpa using he.2, he.1⟩
    have settled : (s.dev.endRun plot c).settle = s.dev.endRun plot c := Dev.settle_of_nothing_held fun e he => hh e (left e he).2
    refine Answers.of_onDev _ (Eq.refl (execPlotRunComplete plot s)) hu ?_
    dsimp only
    rw [hc]
    dsimp only
    rw [if_pos hover]
    have goal : ((s.dev.endRun plot c).settle.plot plot).cmd = none ∧ (∀ e ∈ (s.dev.endRun plot c).settle.ctl.order, e.cmd ≠ c)
        ∧ (∀ p ∈ s.dev.runners plot, ((s.dev.endRun plot c).settle.cell p).plot = none) ∧ (s.dev.endRun plot c).settle.mem = s.dev.mem := by
      rw [settled]
      exact ⟨cmd, fun e he => (left e he).1, free, mem⟩
    exact goal
  · refine Answers.of_onDev _ (Eq.refl (execPlotRunComplete plot s)) hu ?_
    dsimp only
    split
    · rw [if_neg (by simp [hover])]
    · rfl

/-- Settles O30: commands wait, plots run. -/
theorem jobCommandsRunInOrder : Obligations.JobCommandsRunInOrder := ⟨jobCommandsWaitInOrder, plotRunsStartAndComplete⟩

end Sys2Proof
end

