-- ==== Sys2Proof/Proofs/Exchanges.lean ====
section
/-! What the exchange of a bucket leaves (R343 to R346, R549): segments of collectives in flight move on, messages go out, results
are written, blocks of the response pools are taken and come free, and nothing else changes. -/

namespace Sys2Proof.Machine

/-! ### Accesses to memory -/

/-- Memory may have been accessed, as commands do it while a job runs. -/
structure Accessed (d t : Dev) : Prop where
  memory : MemOnly d t
  captured : Captured d t
  wf : d.mem.wf → t.mem.wf

namespace Accessed

variable {d e t : Dev}

theorem of_noise (h : Noise d t) : Accessed d t := ⟨.of_noise h, .of_sow h.reports.sow, fun w => by rw [h.reports.mem]; exact w⟩

theorem refl (d : Dev) : Accessed d d := of_noise (.refl d)

theorem trans (h : Accessed d e) (g : Accessed e t) : Accessed d t :=
  ⟨h.memory.trans g.memory, h.captured.trans g.captured, fun w => g.wf (h.wf w)⟩

theorem ite {a b : Dev} {p : Prop} [Decidable p] (ha : Accessed d a) (hb : Accessed d b) : Accessed d (if p then a else b) := by
  split
  · exact ha
  · exact hb

theorem foldl {α : Type} {f : Dev → α → Dev} (h : ∀ e x, Accessed e (f e x)) (xs : List α) (d : Dev) : Accessed d (xs.foldl f d) := by
  induction xs generalizing d with
  | nil => exact refl d
  | cons x xs ih => exact (h d x).trans (ih _)

theorem write (d : Dev) (a : Nat) (bs : List Byte) : Accessed d (d.write a bs) := ⟨.write .., .write .., (d.write_spec a bs).wf⟩

theorem meetRange (d : Dev) (a n source : Nat) : Accessed d (d.meetRange a n source) :=
  ⟨.meetRange .., .of_sow (Dev.sow_meetRange ..), (d.meetRange_spec a n source 0 0).wf⟩

theorem poisonRead (d : Dev) (a : Nat) : Accessed d (d.poisonRead a) :=
  ⟨.poisonRead .., .of_sow (Reports.poisonRead ..).sow, fun w => by rw [(Reports.poisonRead ..).mem]; exact w⟩

theorem rmwDropped (d : Dev) (a : Nat) : Accessed d (d.rmwDropped a) :=
  ⟨.rmwDropped .., .of_sow (Reports.rmwDropped ..).sow, fun w => by rw [(Reports.rmwDropped ..).mem]; exact w⟩

theorem rmw (d : Dev) (a n : Nat) (f : Dev → Dev) (h : ∀ e, Accessed e (f e)) : Accessed d (d.rmw a n f) := by
  unfold Dev.rmw
  extract_lets e
  have met : Accessed d e := meetRange ..
  split
  · exact met.trans (rmwDropped ..)
  · exact met.trans (h _)

theorem applyStat (d : Dev) (n : Nat) (measuring : Bool) (u : StatUpdate) : Accessed d (d.applyStat n measuring u) := by
  unfold Dev.applyStat
  extract_lets a
  refine rmw _ _ _ _ fun e => ?_
  extract_lets e1 e2 e3
  refine ite (write ..) ?_
  have first : Accessed e e1 := write ..
  have flagged : Accessed e1 e2 := ite (write ..) (refl _)
  exact (((first.trans flagged).trans (write ..)).trans (write ..)).trans (write ..)

end Accessed

/-! ### Collectives in flight -/

/-- The collective without the state of its segments. -/
def Coll.shape (c : Coll) : Coll :=
  { c with seg := [], hdrs := [], hdrRes := none, mSeg := [], resSeg := [], mute := [], fetching := false }

theorem Coll.key_of_shape {c x : Coll} (h : c.shape = x.shape) : c.key = x.key := (congrArg Coll.key h :)

theorem Dev.key_of_coll {d : Dev} {k : CollKey} {c : Coll} (h : d.coll k = some c) : c.key = k := by
  simpa using List.find?_some h

/-- What a key names after a collective has changed. -/
theorem Dev.coll_setColl (d : Dev) (c : Coll) (k : CollKey) :
    (d.setColl c).coll k = if k = c.key then (d.coll k).map (fun _ => c) else d.coll k := by
  have same (x : Coll) : (if x.key = c.key then c else x).key = x.key := by
    split
    · next h => exact h.symm
    · rfl
  have found : (d.setColl c).coll k = (d.coll k).map (fun x => if x.key = c.key then c else x) := by
    unfold Dev.coll Dev.setColl
    dsimp only
    rw [List.find?_map]
    congr 2
    funext x
    simp only [Function.comp_apply, same]
  rw [found]
  cases hx : d.coll k with
  | none => simp
  | some x =>
    have hk := Dev.key_of_coll hx
    simp only [Option.map_some, hk]
    split <;> rfl

theorem Dev.coll_setColl_same {d : Dev} {c x : Coll} (h : d.coll c.key = some x) : (d.setColl c).coll c.key = some c := by
  rw [Dev.coll_setColl, if_pos rfl, h]
  rfl

theorem Dev.keys_setColl (d : Dev) (c : Coll) : (d.setColl c).fab.colls.map Coll.key = d.fab.colls.map Coll.key := by
  unfold Dev.setColl
  dsimp only
  rw [List.map_map]
  refine List.map_congr_left fun x _ => ?_
  show (if x.key = c.key then c else x).key = x.key
  split
  · next h => exact h.symm
  · rfl

/-! ### What an exchange leaves -/

/-- The homes of what an exchange changes: the response pools, and the records of uncorrectable words. -/
def tradeHome (k : Nat) : Prop := ueHome k ∨ homes [(R.FLW_POOL_FREE_N, 0), (R.FLW_POOL_FREE_S, 0)] k

/-- Exchanges of the collectives of these keys may have moved on. -/
structure Traded (K : CollKey → Prop) (d t : Dev) : Prop where
  kept : t = { d with
    mem := t.mem, fields := t.fields, rasLog := t.rasLog, out := t.out, sow := t.sow
    nv := { d.nv with rowRemap := t.nv.rowRemap, bankSpares := t.nv.bankSpares, rowsUsed := t.nv.rowsUsed,
                      rowsUnspared := t.nv.rowsUnspared }
    fab := { d.fab with ports := t.fab.ports, flows := t.fab.flows, arrived := t.fab.arrived, unrouted := t.fab.unrouted,
                        colls := t.fab.colls, past := t.fab.past } }
  touches : Touches tradeHome d t
  captured : Captured d t
  wf : d.mem.wf → t.mem.wf
  flows : ∀ f, FlowSent (d.flow f) (t.flow f)
  keys : t.fab.colls.map Coll.key = d.fab.colls.map Coll.key
  shapes : ∀ k, (t.coll k).map Coll.shape = (d.coll k).map Coll.shape
  others : ∀ k, ¬ K k → t.coll k = d.coll k

namespace Traded

variable {K : CollKey → Prop} {d e t : Dev} {k : CollKey}

theorem of_accessed (h : Accessed d t) : Traded K d t := by
  have kept := h.memory.kept
  have fab : t.fab = d.fab := by rw [kept]
  have coll (k : CollKey) : t.coll k = d.coll k := by rw [Dev.coll, Dev.coll, fab]
  refine ⟨?_, h.memory.touches.mono fun _ => .inl, h.captured, h.wf, fun f => ?_, by rw [fab], fun k => by rw [coll], fun k _ => coll k⟩
  · rw [fab]
    exact kept
  · rw [Dev.flow, Dev.flow, fab]
    exact .refl _

theorem of_noise (h : Noise d t) : Traded K d t := of_accessed (.of_noise h)

theorem refl (d : Dev) : Traded K d d := of_noise (.refl d)

theorem of_sent (h : Sent d t) : Traded K d t := by
  have colls := h.colls
  refine ⟨?_, h.touches.mono fun _ => .inr, .of_sow h.sow, fun w => by rw [h.mem]; exact w, h.flows, by rw [colls],
    fun k => by rw [h.coll], fun k _ => h.coll k⟩
  rw [h.kept]

theorem trans (h : Traded K d e) (g : Traded K e t) : Traded K d t := by
  refine ⟨?_, h.touches.trans g.touches, h.captured.trans g.captured, fun w => g.wf (h.wf w), fun f => (h.flows f).trans (g.flows f),
    g.keys.trans h.keys, fun k => (g.shapes k).trans (h.shapes k), fun k hk => (g.others k hk).trans (h.others k hk)⟩
  have kept := g.kept
  rw [h.kept] at kept
  exact kept

theorem mono {L : CollKey → Prop} (h : Traded K d t) (hs : ∀ k, K k → L k) : Traded L d t :=
  ⟨h.kept, h.touches, h.captured, h.wf, h.flows, h.keys, h.shapes, fun k hk => h.others k fun hk' => hk (hs k hk')⟩

theorem ite {a b : Dev} {p : Prop} [Decidable p] (ha : Traded K d a) (hb : Traded K d b) : Traded K d (if p then a else b) := by
  split
  · exact ha
  · exact hb

theorem foldl {α : Type} {f : Dev → α → Dev} (h : ∀ e x, Traded K e (f e x)) (xs : List α) (d : Dev) : Traded K d (xs.foldl f d) := by
  induction xs generalizing d with
  | nil => exact refl d
  | cons x xs ih => exact (h d x).trans (ih _)

/-- A device with what is to be passed on, which grows item by item. -/
theorem foldl_fst {α β : Type} {f : Dev × β → α → Dev × β} (h : ∀ a x, Traded K a.1 (f a x).1) (xs : List α) (a : Dev × β) :
    Traded K a.1 (xs.foldl f a).1 := by
  induction xs generalizing a with
  | nil => exact refl a.1
  | cons x xs ih => exact (h a x).trans (ih _)

/-- What acts on a collective in flight. -/
theorem onColl {f : Coll → Dev} (h : ∀ c, d.coll k = some c → Traded K d (f c)) : Traded K d (d.onColl k f) := by
  unfold Dev.onColl
  split
  · next c hc => exact h c hc
  · exact refl d

/-- The state of segments of a collective changes. -/
theorem setColl {c x : Coll} (hk : K k) (hc : d.coll k = some x) (h : Traded K d e) (hs : c.shape = x.shape) : Traded K d (e.setColl c) := by
  have key : c.key = k := (Coll.key_of_shape hs).trans (Dev.key_of_coll hc)
  refine h.trans ⟨rfl, .of_fields rfl, .of_sow rfl, id, fun f => .refl _, Dev.keys_setColl e c, fun j => ?_, fun j hj => ?_⟩
  · rw [Dev.coll_setColl]
    split
    · next hj =>
      subst hj
      have shape := h.shapes c.key
      rw [key, hc, Option.map_some] at shape
      obtain ⟨y, hy, shape⟩ := Option.map_eq_some_iff.1 shape
      rw [key, hy]
      exact congrArg some (hs.trans shape.symm)
    · rfl
  · rw [Dev.coll_setColl, if_neg]
    rintro rfl
    exact hj (key ▸ hk)

theorem setFab (d : Dev) (past : List Coll) : Traded K d { d with fab := { d.fab with past := past } } :=
  ⟨rfl, .of_fields rfl, .of_sow rfl, id, fun _ => .refl _, rfl, fun _ => rfl, fun _ _ => rfl⟩

theorem dropOlder (d : Dev) (c : Coll) (written : List (Nat × Nat)) : Traded K d (d.dropOlder c written) := setFab ..

/-- Blocks of an engine's response pool are taken or come free. -/
theorem setPool (d : Dev) (engine v : Nat) : Traded K d (d.setF (enginePool engine) 0 v) := by
  refine ⟨rfl, ?_, .of_sow rfl, id, fun _ => .refl _, rfl, fun _ => rfl, fun _ _ => rfl⟩
  have pool : (enginePool engine, 0) ∈ [(R.FLW_POOL_FREE_N, 0), (R.FLW_POOL_FREE_S, 0)] ∧ (enginePool engine).place ≠ 1024 := by
    unfold enginePool
    split
    · exact ⟨by simp, by decide⟩
    · exact ⟨by simp, by decide⟩
  exact .setF d (.inr ⟨_, pool.1, rfl⟩) pool.2 v

theorem bump (d : Dev) (c i : Nat) {j : Nat} (hj : j < 8) (n : Nat) : Traded K d (d.bump c i j n) := of_noise (.bump _ _ _ hj _)

/-! ### Messages -/

theorem toRank (d : Dev) (c : Coll) (r : Nat) (p : Packet) : Traded K d (d.toRank c r p) :=
  (bump d COL c.engine (j := 2) (by decide) p.payload.length).trans (of_sent (.sendOn ..))

theorem sendSegs (d : Dev) (c : Coll) (r opc flags hdr : Nat) (xs : List (Nat × List Byte)) : Traded K d (d.sendSegs c r opc flags hdr xs) :=
  foldl (fun e _ => toRank e ..) _ d

/-- Segments go to the members of a list that are other devices. -/
theorem sendOthers (c : Coll) {α : Type} (ms : List α) (rank : α → Nat) (opc : Nat) (hdr : α → Nat) (xs : α → List (Nat × List Byte)) (d : Dev) :
    Traded K d (ms.foldl (fun d m => if rank m = c.rank then d else d.sendSegs c (rank m) opc 0 (hdr m) (xs m)) d) :=
  foldl (fun e _ => ite (refl e) (sendSegs ..)) _ d

theorem sendLeafSums (d : Dev) (c : Coll) (xs : List (Nat × List Int)) : Traded K d (d.sendLeafSums c xs) :=
  sendOthers c _ (fun l => l * c.leaf + c.inLeaf c.rank) _ (fun _ => 0) _ d

theorem sendInts (d : Dev) (c : Coll) (xs : List (Nat × List Int)) : Traded K d (d.sendInts c xs) :=
  sendOthers c _ (fun j => c.leafOf c.rank * c.leaf + j) _ (fun _ => 0) _ d

/-! ### Results -/

theorem writeResults (d : Dev) (c : Coll) (s : Nat) (bs : List Byte) : Traded K d (d.writeResults c s bs) :=
  of_accessed ((Accessed.foldl (fun e _ => .write e ..) _ d).trans (.foldl (fun e _ => .applyStat e ..) _ _))

theorem memberRes (hk : K k) (d : Dev) (xs : List (Nat × List Byte)) : Traded K d (d.memberRes k xs) := by
  refine onColl fun c hc => ?_
  extract_lets ys e e'
  have noted : Traded K d e := setColl hk hc (refl d) rfl
  have dropped : Traded K e e' := dropOlder ..
  exact (noted.trans dropped).trans (foldl (fun e (x : Nat × List Byte) => writeResults e c x.1 x.2) _ e')

theorem res1 (hk : K k) (d : Dev) (xs : List (Nat × List Byte)) : Traded K d (d.res1 k xs) :=
  onColl fun c _ => (sendOthers c _ (fun j => c.leafOf c.rank * c.leaf + j) _ (fun _ => 0) (fun _ => xs) d).trans (memberRes hk _ xs)

theorem res2 (hk : K k) (d : Dev) (xs : List (Nat × List Byte)) : Traded K d (d.res2 k xs) :=
  onColl fun c _ => ite (memberRes hk d xs)
    ((sendOthers c _ (fun l => l * c.leaf + c.inLeaf c.rank) _ (fun _ => 0) (fun _ => xs) d).trans (res1 hk _ xs))

/-! ### Integers -/

theorem intLevel (hk : K k) (d : Dev) (level who : Nat) (xs : List (Nat × List Int)) : Traded K d (d.intLevel k level who xs).1 := by
  refine foldl_fst (fun a x => ?_) xs (d, [])
  split
  · exact refl a.1
  · next c hc =>
    dsimp only
    split
    · exact bump _ _ _ (by decide) _
    · have stored (y : SegState) : Traded K a.1 (a.1.setColl (c.setSeg level x.1 y)) := setColl hk hc (refl a.1) rfl
      exact ((stored _).trans (ite (setPool ..) (refl _))).trans (ite (bump _ _ _ (by decide) _) (refl _))

theorem int2 (hk : K k) (d : Dev) (leaf : Nat) (xs : List (Nat × List Int)) : Traded K d (d.int2 k leaf xs) :=
  (intLevel hk d 2 leaf xs).trans (onColl fun _ _ => res2 hk _ _)

theorem int1 (hk : K k) (d : Dev) (who : Nat) (xs : List (Nat × List Int)) : Traded K d (d.int1 k who xs) :=
  (intLevel hk d 1 who xs).trans (onColl fun _ _ => (sendLeafSums ..).trans (int2 hk _ _ _))

/-! ### Exponents -/

theorem mutePoisoned (hk : K k) (d : Dev) (ss : List Nat) : Traded K d (d.mutePoisoned k ss) := by
  refine onColl fun c hc => ?_
  extract_lets bad e
  have read : Traded K d e := of_accessed (.foldl (fun e w => .poisonRead e (w * 8)) _ d)
  clear_value e
  have muted : Traded K d (e.setColl { c with mute := bad.foldl (fun a s => insertSet s a) c.mute }) := setColl hk hc read rfl
  exact ite (refl d) (muted.trans (of_noise (.setErr ..)))

theorem memberM (hk : K k) (d : Dev) (xs : List (Nat × Int × Option HdrWords)) : Traded K d (d.memberM k xs) := by
  unfold Dev.memberM
  extract_lets e
  have muted : Traded K d e := mutePoisoned hk d _
  clear_value e
  refine muted.trans (onColl fun c hc => ?_)
  extract_lets fresh x e1 zero e2 e3
  have held : Traded K e e1 := setColl hk hc (refl e) rfl
  have zeros : Traded K e1 e2 := memberRes hk _ _
  have sent : Traded K e2 e3 := sendInts ..
  exact ((held.trans zeros).trans sent).trans (int1 hk _ _ _)

theorem dropZeroSums (hk : K k) (d : Dev) (xs : List (Nat × Int × Option HdrWords)) : Traded K d (d.dropZeroSums k xs) := by
  refine foldl (fun e x => onColl fun c hc => ?_) _ d
  have stored (y : SegState) : Traded K e (e.setColl (c.setSeg 1 x.1 y)) := setColl hk hc (refl e) rfl
  exact ite (refl e) ((stored _).trans (ite (setPool ..) (refl _)))

theorem mDown1 (hk : K k) (d : Dev) (xs : List (Nat × Int × Option HdrWords)) : Traded K d (d.mDown1 k xs) := by
  refine (dropZeroSums hk d xs).trans (onColl fun c _ => ?_)
  exact ((sendLeafSums ..).trans (sendOthers c _ (fun j => c.leafOf c.rank * c.leaf + j) _ (fun _ => hdrFlags xs)
    (fun _ => xs.map mBytes) _)).trans (memberM hk _ xs)

theorem mDown2 (hk : K k) (d : Dev) (xs : List (Nat × Int × Option HdrWords)) : Traded K d (d.mDown2 k xs) :=
  onColl fun c _ => ite (refl d) ((sendOthers c _ (fun l => l * c.leaf + c.inLeaf c.rank) _ (fun _ => hdrFlags xs)
    (fun _ => xs.map mBytes) d).trans (mDown1 hk _ xs))

theorem expLevel (hk : K k) (d : Dev) (level who : Nat) (xs : List (Nat × Int × Option HdrWords)) : Traded K d (d.expLevel k level who xs) := by
  refine foldl (fun e x => onColl fun c hc => ?_) xs d
  refine ite (bump _ _ _ (by decide) _) ?_
  refine setColl hk hc (refl e) ?_
  split
  · rfl
  · rfl

theorem grant (hk : K k) (d : Dev) (level : Nat) : Traded K d (d.grant k level).1 := by
  unfold Dev.grant
  split
  · exact refl d
  · refine foldl_fst (fun a s => ?_) _ (d, [])
    split
    · exact refl a.1
    · next c hc =>
      extract_lets st m pool zero n e e' e''
      have stored : Traded K a.1 e := setColl hk hc (refl a.1) rfl
      have sent : Traded K e e' := ite (bump _ _ _ (by decide) _) (refl _)
      have taken : Traded K e' e'' := ite (refl _) (setPool ..)
      split
      · exact refl a.1
      · exact (stored.trans sent).trans taken

theorem exp2 (hk : K k) (d : Dev) (leaf : Nat) (xs : List (Nat × Int × Option HdrWords)) : Traded K d (d.exp2 k leaf xs) :=
  ((expLevel hk d 2 leaf xs).trans (grant hk _ 2)).trans (mDown2 hk _ _)

theorem expUp (hk : K k) (d : Dev) (xs : List (Nat × Int × Option HdrWords)) : Traded K d (d.expUp k xs) := by
  refine onColl fun c _ => ?_
  extract_lets e
  have sent : Traded K d e := sendOthers c _ (fun l => l * c.leaf + c.inLeaf c.rank) _
    (fun l => hdrFlags (xs.filter (fun x => decide (c.owner x.1 = l * c.leaf + c.inLeaf c.rank))))
    (fun l => (xs.filter (fun x => decide (c.owner x.1 = l * c.leaf + c.inLeaf c.rank))).map mBytes) d
  exact sent.trans (exp2 hk _ _ _)

theorem exp1 (hk : K k) (d : Dev) (who : Nat) (xs : List (Nat × Int × Option HdrWords)) : Traded K d (d.exp1 k who xs) :=
  ((expLevel hk d 1 who xs).trans (grant hk _ 1)).trans (expUp hk _ _)

theorem sendExps (hk : K k) (d : Dev) (only : Nat → Bool) : Traded K d (d.sendExps k only) := by
  unfold Dev.sendExps
  extract_lets e
  have muted : Traded K d e := by
    unfold e
    cases d.coll k with
    | none => exact refl d
    | some c => exact mutePoisoned hk d _
  clear_value e
  refine muted.trans (onColl fun c _ => ?_)
  extract_lets sizing h xs leaf e'
  have sent : Traded K e e' := sendOthers c _ (fun j => leaf * c.leaf + j) _ (fun j => hdrFlags (xs.filter (fun x => decide (c.own1 x.1 = j))))
    (fun j => (xs.filter (fun x => decide (c.own1 x.1 = j))).map mBytes) e
  exact sent.trans (exp1 hk _ _ _)

theorem renewInts (hk : K k) (d : Dev) : Traded K d (d.renewInts k) := onColl fun _ _ => memberM hk d _

end Traded

/-! ### Blocks that come free -/

/-- The segments of a collective that waited for blocks go on. -/
def Dev.granted (d : Dev) (k : CollKey) : Dev :=
  let a := d.grant k 1
  let d := a.1.expUp k a.2
  let b := d.grant k 2
  b.1.mDown2 k b.2

theorem Dev.regrant_eq (d : Dev) : d.regrant = (d.fab.colls.filter (·.isBucket)).foldl (fun d c => d.granted c.key) d := rfl

theorem Traded.granted {K : CollKey → Prop} {k : CollKey} (hk : K k) (d : Dev) : Traded K d (d.granted k) :=
  (((Traded.grant hk d 1).trans (.expUp hk _ _)).trans (.grant hk _ 2)).trans (.mDown2 hk _ _)

/-- The keys of the bucket exchanges in flight. -/
def Dev.exchanges (d : Dev) (k : CollKey) : Prop := ∃ c ∈ d.fab.colls, c.isBucket = true ∧ c.key = k

theorem Traded.regrant (d : Dev) : Traded d.exchanges d d.regrant := by
  rw [Dev.regrant_eq]
  have inside : ∀ c ∈ d.fab.colls.filter (·.isBucket), d.exchanges c.key := fun c hc => by
    obtain ⟨mem, bucket⟩ := List.mem_filter.1 hc
    exact ⟨c, mem, bucket, rfl⟩
  generalize d.fab.colls.filter (·.isBucket) = cs at inside ⊢
  generalize d.exchanges = K at inside ⊢
  induction cs generalizing d with
  | nil => exact .refl d
  | cons c cs ih =>
    rw [List.foldl_cons]
    exact (Traded.granted (inside c List.mem_cons_self) d).trans (ih _ fun x hx => inside x (List.mem_cons_of_mem _ hx))

theorem Traded.poolFreed (d : Dev) : Traded d.exchanges d d.poolFreed := (Traded.regrant d).trans (.of_sent (.pumpAll _))

/-- While no bucket is exchanged, blocks that come free let nothing but waiting messages go on. -/
theorem Dev.regrant_of_no_bucket {d : Dev} (h : ∀ c ∈ d.fab.colls, c.isBucket = false) : d.regrant = d := by
  rw [Dev.regrant_eq, List.filter_eq_nil_iff.2 fun c hc => by simp [h c hc]]
  rfl

theorem Sent.poolFreed {d : Dev} (h : ∀ c ∈ d.fab.colls, c.isBucket = false) : Sent d d.poolFreed := by
  unfold Dev.poolFreed
  rw [Dev.regrant_of_no_bucket h]
  exact .pumpAll d

/-! ### What stays beside an exchange -/

theorem not_tradeHome {f : Field} (hf : f.quiet = true) (hu : f.off ≠ 192 ∧ f.off ≠ 196)
    (hp : f.place ∉ [R.FLW_POOL_FREE_N.place, R.FLW_POOL_FREE_S.place]) (i : Nat) : ¬ tradeHome (f.key i) := fun h =>
  h.elim (not_ueHome hf hu i) (not_homes hp i)

namespace Traded

variable {K : CollKey → Prop} {d e t : Dev} {k : CollKey}

theorem cells (h : Traded K d t) : t.cells = d.cells := by rw [h.kept]
theorem ctl (h : Traded K d t) : t.ctl = d.ctl := by rw [h.kept]
theorem train (h : Traded K d t) : t.train = d.train := by rw [h.kept]
theorem pins (h : Traded K d t) : t.pins = d.pins := by rw [h.kept]
theorem opCodes (h : Traded K d t) : t.fab.opCodes = d.fab.opCodes := by rw [h.kept]
theorem parked (h : Traded K d t) : t.fab.parked = d.fab.parked := by rw [h.kept]
theorem cell (h : Traded K d t) (p : Nat) : t.cell p = d.cell p := by rw [Dev.cell, Dev.cell, h.cells]

/-- A field that is no response pool and no record of an uncorrectable word keeps its value. -/
theorem getF (h : Traded K d t) {f : Field} (hq : f.quiet = true) (hu : f.off ≠ 192 ∧ f.off ≠ 196)
    (hp : f.place ∉ [R.FLW_POOL_FREE_N.place, R.FLW_POOL_FREE_S.place]) {i : Nat} (hi : i < 2048) : t.getF f i = d.getF f i :=
  h.touches.getF hq hi (not_tradeHome hq hu hp i)

/-- A key names nothing more than before. -/
theorem coll_none (h : Traded K d t) (hn : d.coll k = none) : t.coll k = none := by
  have shape := h.shapes k
  rw [hn] at shape
  exact Option.map_eq_none_iff.1 shape

/-- A collective in flight keeps its shape. -/
theorem coll_some (h : Traded K d t) {c : Coll} (hc : d.coll k = some c) : ∃ x, t.coll k = some x ∧ x.shape = c.shape := by
  have shape := h.shapes k
  rw [hc] at shape
  exact Option.map_eq_some_iff.1 shape

end Traded

end Sys2Proof.Machine
end

