-- ==== Sys2Proof/Proofs/OpEnds.lean ====
section
/-! Local operations that end (R92, R93, R334 to R338): the flow forgets them, their code is noted, and at the issuer a cell goes on,
halts or traps. -/

namespace Sys2Proof.Machine

/-! ### The issuer -/

/-- Memory and the fabric stay. -/
structure OffFabric (d t : Dev) : Prop where
  mem : t.mem = d.mem
  fab : t.fab = d.fab

namespace OffFabric

variable {d e t : Dev}

theorem refl (d : Dev) : OffFabric d d := ⟨rfl, rfl⟩

theorem trans (h : OffFabric d e) (g : OffFabric e t) : OffFabric d t := ⟨g.mem.trans h.mem, g.fab.trans h.fab⟩

theorem ite {a b : Dev} {p : Prop} [Decidable p] (ha : OffFabric d a) (hb : OffFabric d b) : OffFabric d (if p then a else b) := by
  split
  · exact ha
  · exact hb

theorem foldl {α : Type} {f : Dev → α → Dev} (h : ∀ e x, OffFabric e (f e x)) (xs : List α) (d : Dev) : OffFabric d (xs.foldl f d) := by
  induction xs generalizing d with
  | nil => exact refl d
  | cons x xs ih => exact (h d x).trans (ih _)

theorem of_noise (h : Noise d t) : OffFabric d t := ⟨h.reports.mem, h.reports.fab⟩
theorem of_reports (h : Reports d t) : OffFabric d t := ⟨h.mem, h.fab⟩

theorem setF (d : Dev) (f : Field) (i v : Nat) : OffFabric d (d.setF f i v) := ⟨rfl, rfl⟩
theorem setPlot (d : Dev) (k : Nat) (r : PlotRun) : OffFabric d (d.setPlot k r) := ⟨rfl, rfl⟩
theorem setCell (d : Dev) (p : Nat) (c : Cell) : OffFabric d (d.setCell p c) := ⟨rfl, rfl⟩

/-- A cell's change of state. -/
theorem setBlk (d : Dev) (p : Nat) {v : Nat} (hv : v ≠ stFailed) : OffFabric d (d.setBlk CEL p v) := by
  have moved : Moved CEL p d (d.setBlk CEL p v) := .setBlk d hv
  exact ⟨by rw [moved.rest], moved.fab (by decide)⟩

theorem returnTile (d : Dev) (p : Nat) : OffFabric d (d.returnTile p) := by
  unfold Dev.returnTile
  rw [Dev.dropTiles_frame]
  exact (of_noise (Dev.returnTile_noise d p)).trans ⟨rfl, rfl⟩

theorem joinRun (d : Dev) (k p : Nat) : OffFabric d (d.joinRun k p) := by
  unfold Dev.joinRun
  split
  · exact refl d
  · extract_lets r c e1 e2 e3
    have joined : OffFabric d e3 := ⟨rfl, rfl⟩
    exact ite (joined.trans (setBlk _ _ (by decide))) joined

theorem borrow (d : Dev) (k : Nat) : OffFabric d (d.borrow k) := by
  unfold Dev.borrow
  split
  · split
    · exact foldl (fun e p => ite (joinRun e k p) (refl e)) _ d
    · exact refl d
  · exact refl d

theorem clocheCell (d : Dev) (p : Nat) : OffFabric d (d.clocheCell p) := by
  have regs : OffFabric (d.returnTile p) ((d.returnTile p).clearTileRegs p) := ⟨rfl, rfl⟩
  have state : OffFabric ((d.returnTile p).clearTileRegs p) (((d.returnTile p).clearTileRegs p).setBlk CEL p stCloched) := setBlk _ _ (by decide)
  have left : OffFabric d ((((d.returnTile p).clearTileRegs p).setBlk CEL p stCloched).bump TRL 0 0 1) :=
    (((returnTile d p).trans regs).trans state).trans (of_noise (.bump _ _ _ (by decide) _))
  unfold Dev.clocheCell
  dsimp only
  split
  · exact left.trans (borrow ..)
  · exact left

theorem clocheFault (d : Dev) (p : Nat) : OffFabric d (d.clocheFault p) := by
  unfold Dev.clocheFault
  extract_lets flash e1 e2
  have counted : OffFabric d e2 := ⟨rfl, rfl⟩
  clear_value e2
  have marked : OffFabric e2 { e2 with testFails := mput (faultKey p) 1 e2.testFails } := ⟨rfl, rfl⟩
  exact ite counted (((counted.trans marked).trans (clocheCell ..)).trans (of_noise (.policyTaken ..)))

theorem trapNote (d : Dev) (k cell : Nat) (n : TrapNote) : OffFabric d (d.trapNote k cell n) := by
  unfold Dev.trapNote
  extract_lets r
  split
  · exact ite (((setPlot ..).trans (ite (setBlk _ _ (by decide)) (refl _))).trans (of_noise (.setErr ..))) (refl d)
  · exact setPlot ..

theorem trap (d : Dev) {cell : Nat} (hp : cell < 2048) {cause : Nat} (hc : cause < 16) (addr : Nat) : OffFabric d (d.trap cell cause addr) := by
  have flags : OffFabric d (d.trapFlags cell cause addr) := of_reports (Dev.trapFlags_spec d hp addr hc).frame
  have cloched : OffFabric d (((d.trapFlags cell cause addr).clocheFault cell).setF R.CEL_SEQ_STATUS_RUN cell 3) :=
    (flags.trans (clocheFault ..)).trans (setF ..)
  unfold Dev.trap
  dsimp only
  split
  · exact cloched.trans (trapNote ..)
  · exact cloched

theorem remoteDone (d : Dev) (cell ch : Nat) : OffFabric d (d.remoteDone cell ch) := by
  unfold Dev.remoteDone
  dsimp only
  split
  · exact setCell ..
  · exact refl d

theorem haltChannel (d : Dev) (cell ch addr : Nat) : OffFabric d (d.haltChannel cell ch addr) := by
  unfold Dev.haltChannel
  dsimp only
  split
  · exact (setCell ..).trans ((((setF ..).trans (setF ..)).trans ((setF ..).trans (setF ..))).trans (of_noise (.setErrFull ..)))
  · exact refl d

theorem issuerDone (d : Dev) (o : FlowOp) (addr code : Nat) : OffFabric d (d.issuerDone o addr code) := by
  have done := remoteDone d o.cell o.chan
  unfold Dev.issuerDone
  split
  · exact refl d
  · next hp =>
    dsimp only
    refine ite (done.trans (trap _ (by omega) (by decide) 0)) (ite ?_ done)
    have halted := done.trans (haltChannel _ o.cell o.chan addr)
    exact ite (halted.trans ⟨rfl, rfl⟩) halted

end OffFabric

/-- Where an answer ends an operation without a trap and without a halt, the issuer's record alone changes, and of it the count of
remote parts. -/
theorem Dev.issuerDone_quiet (d : Dev) (o : FlowOp) (addr : Nat) {code : Nat} (h : code ≠ 1 ∧ code ≠ 2) :
    d.issuerDone o addr code = d ∨ d.issuerDone o addr code = d.remoteDone o.cell o.chan := by
  unfold Dev.issuerDone
  split
  · exact .inl rfl
  · refine .inr ?_
    dsimp only
    rw [if_neg h.1, if_neg (fun x => h.2 x.1)]

theorem Dev.store_remoteDone (d : Dev) (cell ch p : Nat) : ((d.remoteDone cell ch).cell p).store = (d.cell p).store := by
  unfold Dev.remoteDone
  dsimp only
  split
  · by_cases hp : p = cell
    · rw [hp, Dev.cell_setCell_same]
    · rw [Dev.cell_setCell_other _ hp]
  · rfl

theorem Dev.fields_remoteDone (d : Dev) (cell ch : Nat) : (d.remoteDone cell ch).fields = d.fields := by
  unfold Dev.remoteDone
  dsimp only
  split <;> rfl

/-! ### Operations that end -/

/-- The flow without an operation and without the packets of it that wait. -/
def Flow.without (w : Flow) (o : FlowOp) : Flow :=
  { w with ops := w.ops.filter (fun x => decide (x.tag ≠ o.tag)),
           waiting := w.waiting.filter (fun p => decide (p.tag ≠ o.tag ∨ p.opc ≠ o.opc)) }

/-- The blocks of a response pool that an operation held come free. -/
def Dev.freeBlocks (d : Dev) (o : FlowOp) : Dev :=
  if o.blocks = 0 then d else d.setF (poolField o.cell) 0 (d.getF (poolField o.cell) 0 + o.blocks)

/-- The code of an operation is noted. -/
def Dev.noteCode (d : Dev) (x : Nat × Nat) : Dev := { d with fab := { d.fab with opCodes := d.fab.opCodes ++ [x] } }

/-- The device once a flow has forgotten an operation and its code is noted. -/
def Dev.forgotten (d : Dev) (f : Nat) (o : FlowOp) (code : Nat) : Dev :=
  ((d.setFlow f ((d.flow f).without o)).freeBlocks o).noteCode (o.tag, code)

theorem Dev.endOp_eq (d : Dev) (f : Nat) (o : FlowOp) (addr code : Nat) : d.endOp f o addr code = (d.forgotten f o code).issuerDone o addr code := rfl

/-- Operations of flow f may have ended. -/
structure OpsEnded (f : Nat) (d t : Dev) : Prop where
  mem : t.mem = d.mem
  fab : t.fab = { d.fab with flows := t.fab.flows, opCodes := t.fab.opCodes }
  noted : ∀ x ∈ d.fab.opCodes, x ∈ t.fab.opCodes
  flow : t.flow f = { d.flow f with ops := (t.flow f).ops, waiting := (t.flow f).waiting }
  ops : ∀ x ∈ (t.flow f).ops, x ∈ (d.flow f).ops

namespace OpsEnded

variable {f : Nat} {d e t : Dev}

theorem of_fab (hm : t.mem = d.mem) (hf : t.fab = d.fab) : OpsEnded f d t := by
  have flow : t.flow f = d.flow f := by rw [Dev.flow, Dev.flow, hf]
  refine ⟨hm, by rw [hf], fun x hx => by rw [hf]; exact hx, by rw [flow], fun x hx => by rw [flow] at hx; exact hx⟩

theorem refl (d : Dev) : OpsEnded f d d := of_fab rfl rfl

theorem trans (h : OpsEnded f d e) (g : OpsEnded f e t) : OpsEnded f d t := by
  refine ⟨g.mem.trans h.mem, ?_, fun x hx => g.noted x (h.noted x hx), ?_, fun x hx => h.ops x (g.ops x hx)⟩
  · have kept := g.fab
    rw [h.fab] at kept
    exact kept
  · have kept := g.flow
    rw [h.flow] at kept
    exact kept

theorem colls (h : OpsEnded f d t) : t.fab.colls = d.fab.colls := by rw [h.fab]
theorem txAcked (h : OpsEnded f d t) : (t.flow f).txAcked = (d.flow f).txAcked := by rw [h.flow]

theorem of_offFabric (h : OffFabric d t) : OpsEnded f d t := of_fab h.mem h.fab

theorem setFlow (d : Dev) (o : FlowOp) : OpsEnded f d (d.setFlow f ((d.flow f).without o)) := by
  have flow := d.flow_setFlow_same f ((d.flow f).without o)
  refine ⟨rfl, rfl, fun _ h => h, by rw [flow]; rfl, fun x hx => ?_⟩
  rw [flow] at hx
  exact List.mem_of_mem_filter hx

theorem freeBlocks (d : Dev) (o : FlowOp) : OpsEnded f d (d.freeBlocks o) := by
  unfold Dev.freeBlocks
  split
  · exact refl d
  · exact of_fab rfl rfl

theorem noteCode (d : Dev) (x : Nat × Nat) : OpsEnded f d (d.noteCode x) :=
  ⟨rfl, rfl, fun _ h => List.mem_append_left _ h, rfl, fun _ h => h⟩

theorem forgotten (d : Dev) (o : FlowOp) (code : Nat) : OpsEnded f d (d.forgotten f o code) :=
  ((setFlow d o).trans (freeBlocks _ o)).trans (noteCode ..)

theorem endOp (d : Dev) (o : FlowOp) (addr code : Nat) : OpsEnded f d (d.endOp f o addr code) :=
  (forgotten d o code).trans (of_offFabric (.issuerDone ..))

theorem foldl {α : Type} {g : Dev → α → Dev} (h : ∀ e x, OpsEnded f e (g e x)) (xs : List α) (d : Dev) : OpsEnded f d (xs.foldl g d) := by
  induction xs generalizing d with
  | nil => exact refl d
  | cons x xs ih => exact (h d x).trans (ih _)

end OpsEnded

/-- The flow has forgotten the operation that ended, and its code is noted. -/
theorem Dev.endOp_spec (d : Dev) (f : Nat) (o : FlowOp) (addr code : Nat) :
    (d.endOp f o addr code).flow f = (d.flow f).without o ∧ (o.tag, code) ∈ (d.endOp f o addr code).fab.opCodes := by
  have issuer := OffFabric.issuerDone (d.forgotten f o code) o addr code
  have freed : ((d.setFlow f ((d.flow f).without o)).freeBlocks o).fab = (d.setFlow f ((d.flow f).without o)).fab := by
    unfold Dev.freeBlocks
    split <;> rfl
  rw [Dev.endOp_eq, Dev.flow, issuer.fab]
  refine ⟨?_, List.mem_append_right _ (List.mem_singleton_self _)⟩
  show mget Flow.none ((d.setFlow f ((d.flow f).without o)).freeBlocks o).fab.flows f = _
  rw [freed]
  exact d.flow_setFlow_same f _

/-- Every operation of a flow ends. -/
theorem Dev.ops_endOps (d : Dev) (f code : Nat) : ((d.endOps f code).flow f).ops = [] := by
  unfold Dev.endOps
  have only : ∀ (os : List FlowOp) (e : Dev), (∀ x ∈ (e.flow f).ops, ∃ o ∈ os, x.tag = o.tag) →
      ((os.foldl (fun d o => d.endOp f o 0 code) e).flow f).ops = [] := by
    intro os
    induction os with
    | nil => exact fun e h => List.eq_nil_iff_forall_not_mem.2 fun x hx => by obtain ⟨o, ho, -⟩ := h x hx; exact absurd ho List.not_mem_nil
    | cons o os ih =>
      intro e h
      refine ih _ fun x hx => ?_
      rw [(e.endOp_spec f o 0 code).1] at hx
      obtain ⟨old, ne⟩ := List.mem_filter.1 hx
      obtain ⟨q, hq, tag⟩ := h x old
      rcases List.mem_cons.1 hq with rfl | hq
      · exact absurd tag (of_decide_eq_true ne)
      · exact ⟨q, hq, tag⟩
  exact only _ d fun x hx => ⟨x, hx, rfl⟩

theorem OpsEnded.endOps (d : Dev) (f code : Nat) : OpsEnded f d (d.endOps f code) := .foldl (fun e o => .endOp e o 0 code) _ d

end Sys2Proof.Machine
end

