-- ==== Sys2Proof/Proofs/FlowRuns.lean ====
section
/-! Obligation O37, first half: flows acknowledge and recover (R335 to R338, R510). -/

namespace Sys2Proof.Machine

/-! ### Answers -/

/-- An operation that ends and the blocks that come free with it. -/
theorem Dev.poolFreed_endOp (d : Dev) (f : Nat) (o : FlowOp) (addr code : Nat) :
    let t := (d.endOp f o addr code).poolFreed
    (∀ x ∈ (t.flow f).ops, x.tag ≠ o.tag) ∧ (o.tag, code) ∈ t.fab.opCodes ∧ (t.flow f).txAcked = (d.flow f).txAcked
      ∧ ((∀ y ∈ d.fab.colls, y.isBucket = false) → t.mem = d.mem) := by
  obtain ⟨flow, noted⟩ := d.endOp_spec f o addr code
  have ended := OpsEnded.endOp (f := f) d o addr code
  generalize d.endOp f o addr code = e at flow noted ended ⊢
  have freed := Traded.poolFreed e
  refine ⟨fun x hx => ?_, by rw [freed.opCodes]; exact noted, (freed.flows f).txAcked.trans ended.txAcked, fun none => ?_⟩
  · have mem : x.tag ∈ (e.flow f).ops.map (·.tag) := (freed.flows f).tags ▸ List.mem_map_of_mem hx
    obtain ⟨y, hy, tag⟩ := List.mem_map.1 mem
    rw [flow] at hy
    exact tag ▸ of_decide_eq_true (List.mem_filter.1 hy).2
  · exact (Sent.poolFreed (by rw [ended.colls]; exact none)).mem.trans ended.mem

/-- What a GET's answer does once its operation is known. -/
def Dev.getAnswered (d : Dev) (p : Packet) (o : FlowOp) : Dev :=
  if bitOf p.flags 0 then (d.endOp p.dstFlow o p.addr 2).poolFreed
  else ((if o.cell < 1152 then d.storeBytes o.cell o.store (p.payload.take o.len) else d).endOp p.dstFlow o 0 0).poolFreed

/-- What a GET's answer does. -/
def Dev.takesGetResp (p : Packet) (d : Dev) : Dev :=
  match d.opByTag p.dstFlow p.tag 2 with
  | some o => d.getAnswered p o
  | none => d

/-- What an atomic's answer does. -/
def Dev.takesAtomicResp (p : Packet) (d : Dev) : Dev :=
  match d.opByTag p.dstFlow p.tag 4 with
  | some o => d.endOp p.dstFlow o 0 0
  | none => d

/-- What a status does. -/
def Dev.takesOpStatus (p : Packet) (d : Dev) : Dev :=
  match (d.flow p.dstFlow).ops.find? (fun o => decide (o.tag = p.tag)) with
  | some o => (d.endOp p.dstFlow o p.addr p.status).poolFreed
  | none => d

theorem Dev.ops_takes (d : Dev) (p : Packet) : ((d.takes p).flow p.dstFlow).ops = (d.flow p.dstFlow).ops := by
  rw [Dev.flow_takes]
  rfl

theorem Dev.txAcked_takes (d : Dev) (p : Packet) : ((d.takes p).flow p.dstFlow).txAcked = (d.flow p.dstFlow).txAcked := by
  rw [Dev.flow_takes]
  rfl

theorem Dev.opByTag_takes (d : Dev) (p : Packet) (tag opc : Nat) : (d.takes p).opByTag p.dstFlow tag opc = d.opByTag p.dstFlow tag opc := by
  rw [Dev.opByTag, Dev.opByTag, Dev.ops_takes]

theorem no_bucket_takes {d : Dev} (h : ∀ y ∈ d.fab.colls, y.isBucket = false) (p : Packet) : ∀ y ∈ (d.takes p).fab.colls, y.isBucket = false := by
  rw [(Taken.takes d p).colls]
  exact h

/-- A cell's store after an operation has ended without a trap and without a halt. -/
theorem Dev.store_endOp (d : Dev) (f : Nat) (o : FlowOp) (addr : Nat) {code : Nat} (h : code ≠ 1 ∧ code ≠ 2) (p : Nat) :
    ((d.endOp f o addr code).cell p).store = (d.cell p).store := by
  have same : (d.forgotten f o code).cell p = d.cell p := by
    unfold Dev.forgotten Dev.freeBlocks
    split <;> rfl
  rw [Dev.endOp_eq]
  rcases (d.forgotten f o code).issuerDone_quiet o addr h with e | e
  · rw [e, same]
  · rw [e, Dev.store_remoteDone, same]

/-! ### Acknowledgements -/

/-- The flow once an acknowledgement has come. -/
def Flow.acked (w : Flow) (a : Nat) : Flow :=
  { w with txAcked := a % 2 ^ 32, credits := w.credits + (seqDiff a w.txAcked).toNat, retries := 0, state := if w.state = 2 then 1 else w.state,
           unacked := w.unacked.filter (fun p => decide (seqDiff a p.seq ≤ 0)) }

/-- The operations that an acknowledgement ends. -/
def Flow.ackedOps (w : Flow) (a : Nat) : List FlowOp :=
  w.ops.filter (fun o => (decide (o.opc = 1) || decide (o.opc = 6)) && decide (o.seq < 2 ^ 32) && decide (0 < seqDiff a o.seq))

theorem Dev.takeAck_new (d : Dev) {f a : Nat} (h : 0 < seqDiff a (d.flow f).txAcked) (hs : 0 ≤ seqDiff (d.flow f).txSeq a) :
    d.takeAck f a = (((d.flow f).ackedOps a).foldl (fun d o => d.endOp f o 0 0) (d.setFlow f ((d.flow f).acked a))).pumpAll :=
  if_neg (show ¬ (seqDiff a (d.flow f).txAcked ≤ 0 ∨ seqDiff (d.flow f).txSeq a < 0) by omega)

/-- What an acknowledgement leaves of its flow. -/
theorem Dev.takeAck_spec (d : Dev) {f a : Nat} (h : 0 < seqDiff a (d.flow f).txAcked) (hs : 0 ≤ seqDiff (d.flow f).txSeq a) :
    let t := d.takeAck f a
    (t.flow f).txAcked = a % 2 ^ 32 ∧ (t.flow f).retries = 0 ∧ (t.flow f).rxSeq = (d.flow f).rxSeq
      ∧ (t.flow f).state = (if (d.flow f).state = 2 then 1 else (d.flow f).state) ∧ t.mem = d.mem := by
  rw [d.takeAck_new h hs]
  have ended : OpsEnded f (d.setFlow f ((d.flow f).acked a)) (((d.flow f).ackedOps a).foldl (fun d o => d.endOp f o 0 0) (d.setFlow f ((d.flow f).acked a))) :=
    .foldl (fun e o => .endOp e o 0 0) _ _
  generalize ((d.flow f).ackedOps a).foldl _ _ = e at ended ⊢
  have flow := ended.flow
  rw [Dev.flow_setFlow_same] at flow
  have pumped := Sent.pumpAll e
  have sent := pumped.flows f
  refine ⟨?_, ?_, ?_, ?_, pumped.mem.trans ended.mem⟩
  · rw [sent.txAcked, flow]
    rfl
  · rw [sent.retries, flow]
    rfl
  · rw [sent.rxSeq, flow]
    rfl
  · rw [sent.state, flow]
    rfl

/-! ### Sending again -/

/-- The flow that counts a retry. -/
def Flow.retried (w : Flow) : Flow := { w with retries := min 255 (w.retries + 1) }

/-- One packet goes out again. -/
def Dev.sendAgain (f : Nat) (d : Dev) (p : Packet) : Dev := (d.bump FLW 0 2 1).sendNow f p

theorem Dev.resend_eq (d : Dev) (f : Nat) : d.resend f = (d.flow f).unacked.foldl (Dev.sendAgain f) (d.setFlow f (d.flow f).retried) := rfl

theorem Dev.sendAgain_spec (d : Dev) (f : Nat) (p : Packet) :
    Sent d (d.sendAgain f p) ∧ ((d.sendAgain f p).flow f).unacked = (d.flow f).unacked := by
  refine ⟨(Sent.of_noise (.bump _ _ _ (by decide) _)).trans (.sendNow ..), ?_⟩
  rw [Dev.sendAgain, Dev.flow_sendNow]
  rfl

/-- What is unacknowledged goes out again and is still unacknowledged. -/
theorem Dev.resend_spec (d : Dev) (f : Nat) :
    let t := d.resend f
    (t.flow f).retries = min 255 ((d.flow f).retries + 1) ∧ (t.flow f).unacked = (d.flow f).unacked ∧ t.mem = d.mem ∧ t.cells = d.cells := by
  have again : ∀ (ps : List Packet) (e : Dev), Sent e (ps.foldl (Dev.sendAgain f) e) ∧ ((ps.foldl (Dev.sendAgain f) e).flow f).unacked = (e.flow f).unacked := by
    intro ps
    induction ps with
    | nil => exact fun e => ⟨.refl e, rfl⟩
    | cons p ps ih =>
      intro e
      obtain ⟨sent, same⟩ := e.sendAgain_spec f p
      obtain ⟨sent', same'⟩ := ih (e.sendAgain f p)
      exact ⟨sent.trans sent', same'.trans same⟩
  rw [Dev.resend_eq]
  obtain ⟨sent, same⟩ := again (d.flow f).unacked (d.setFlow f (d.flow f).retried)
  rw [Dev.flow_setFlow_same] at same
  refine ⟨?_, same, sent.mem, sent.cells⟩
  rw [(sent.flows f).retries, Dev.flow_setFlow_same]
  rfl

/-! ### The flow starts again -/

/-- Messages may have gone out on the flows, and no error bit has fallen. -/
structure SentOn (d t : Dev) : Prop where
  flows : ∀ f, FlowSent (d.flow f) (t.flow f)
  errs : ∀ c i b, b < 32 → d.errBit c i b = true → t.errBit c i b = true

namespace SentOn

variable {d e t : Dev}

theorem trans (h : SentOn d e) (g : SentOn e t) : SentOn d t :=
  ⟨fun f => (h.flows f).trans (g.flows f), fun c i b hb he => g.errs c i b hb (h.errs c i b hb he)⟩

theorem of_traded {K : CollKey → Prop} (h : Traded K d t) : SentOn d t := ⟨h.flows, h.touches.errs⟩

theorem of_flows (hf : t.fab.flows = d.fab.flows) (he : t.fields = d.fields) : SentOn d t :=
  ⟨fun f => by rw [Dev.flow, Dev.flow, hf]; exact .refl _, (Touches.of_fields (S := fun _ => False) he).errs⟩

theorem refl (d : Dev) : SentOn d d := of_flows rfl rfl

theorem of_completed (h : Completed d t) : SentOn d t := ⟨fun f => by rw [Dev.flow, Dev.flow, h.kept]; exact .refl _, h.touches.errs⟩

theorem ite {a b : Dev} {p : Prop} [Decidable p] (ha : SentOn d a) (hb : SentOn d b) : SentOn d (if p then a else b) := by
  split
  · exact ha
  · exact hb

theorem foldl {α : Type} {f : Dev → α → Dev} (h : ∀ e x, SentOn e (f e x)) (xs : List α) (d : Dev) : SentOn d (xs.foldl f d) := by
  induction xs generalizing d with
  | nil => exact refl d
  | cons x xs ih => exact (h d x).trans (ih _)

end SentOn

namespace Traded

variable {K : CollKey → Prop}

theorem sendData (d : Dev) (c : Coll) (r flags : Nat) (bs : List Byte) : Traded K d (d.sendData c r flags bs) := foldl (fun e _ => toRank e ..) _ d

/-- What a member whose flow starts again gets of an exchange once more. -/
theorem resendTo (d : Dev) (c : Coll) (r : Nat) : Traded (· = c.key) d (d.resendTo c r) := by
  unfold Dev.resendTo
  extract_lets leaf inside theirs part e down ms e'
  have theirs' : Traded (· = c.key) d e := by
    refine ite ?_ ((sendSegs ..).trans (sendSegs ..))
    unfold Dev.onColl
    split
    · exact sendSegs ..
    · exact sendExps (K := (· = c.key)) rfl d _
  clear_value e
  have mine : Traded (· = c.key) e e' := sendSegs ..
  exact (theirs'.trans mine).trans (sendSegs ..)

theorem resendData (d : Dev) (c : Coll) (r : Nat) : Traded (· = c.key) d (d.resendData c r) := by
  unfold Dev.resendData
  split
  · exact sendData ..
  · exact ite (sendData ..) (refl d)
  · exact ite (toRank ..) (refl d)
  · exact resendTo ..

end Traded

theorem SentOn.onColl {d : Dev} {k : CollKey} {f : Coll → Dev} (h : ∀ c, SentOn d (f c)) : SentOn d (d.onColl k f) := by
  unfold Dev.onColl
  split
  · exact h _
  · exact refl d

theorem SentOn.afterResync (d : Dev) (f : Nat) (lost : List Packet) : SentOn d (d.afterResync f lost) := by
  unfold Dev.afterResync
  extract_lets w _ e
  have asked : SentOn d { d with harvest := { d.harvest with asked := [] } } := of_flows rfl rfl
  have answered : SentOn d e := ite (asked.trans (foldl (fun e c => of_completed (.complete e c _ _)) _ _)) (refl d)
  clear_value e
  refine answered.trans (ite (foldl (fun e p => of_traded (.of_sent (K := fun _ => True) (.sendOn e f p))) _ _) (ite ?_ (refl e)))
  refine foldl (fun e c => foldl (fun e r => ?_) _ e) _ e
  extract_lets e'
  have anew : SentOn e e' := onColl fun x => of_flows rfl rfl
  exact anew.trans (of_traded (.resendData ..))

/-- A flow that starts again. -/
theorem Dev.resyncFlow_spec (d : Dev) (f : Nat) :
    let t := d.resyncFlow f
    (t.flow f).state = 1 ∧ (t.flow f).rxSeq = 0 ∧ (t.flow f).ops = [] ∧ t.errBit FLW 0 17 = true := by
  unfold Dev.resyncFlow
  extract_lets e t
  let g := e.setFlow f ((e.flow f).fresh 1)
  have flow : g.flow f = (e.flow f).fresh 1 := Dev.flow_setFlow_same ..
  have ht : t = ((g.control f 0x13).setErr FLW 0 17).pumpAll := rfl
  clear_value g
  have shown := Noise.errBit_setErr (g.control f 0x13) FLW 0 (b := 17) (by decide)
  have sent : Sent g ((g.control f 0x13).setErr FLW 0 17) := (Sent.control ..).trans (.of_noise (.setErr ..))
  have pumped := Sent.pumpAll ((g.control f 0x13).setErr FLW 0 17)
  have all := (sent.trans pumped).flows f
  rw [ht]
  refine ⟨?_, ?_, ?_, pumped.touches.errs _ _ _ (by decide) shown⟩
  · rw [all.state, flow]
    rfl
  · rw [all.rxSeq, flow]
    rfl
  · have tags := all.tags
    rw [flow] at tags
    exact List.map_eq_nil_iff.1 tags

/-- A RESYNC on its flow. -/
def Dev.takesResync (f : Nat) (d : Dev) : Dev := ((d.resyncFlow f).afterResync f ((d.flow f).unacked ++ (d.flow f).waiting)).poolFreed

theorem Dev.takesResync_spec (d : Dev) (f : Nat) :
    let t := d.takesResync f
    (t.flow f).state = 1 ∧ (t.flow f).rxSeq = 0 ∧ (t.flow f).ops = [] ∧ t.errBit FLW 0 17 = true := by
  obtain ⟨state, rx, ops, err⟩ := d.resyncFlow_spec f
  have after : SentOn (d.resyncFlow f) (d.takesResync f) := (SentOn.afterResync ..).trans (.of_traded (.poolFreed _))
  have flow := after.flows f
  refine ⟨flow.state.trans state, flow.rxSeq.trans rx, ?_, after.errs _ _ _ (by decide) err⟩
  have tags := flow.tags
  rw [ops] at tags
  exact List.map_eq_nil_iff.1 tags

end Sys2Proof.Machine

namespace Sys2Proof

open Machine

variable {s : State} {p : Packet} {o : FlowOp}

/-- A packet comes on an open flow of its sender. -/
structure OnOpenFlow (s : State) (p : Packet) : Prop where
  up : s.dev.up = true
  peer : (s.dev.flow p.dstFlow).peer = p.src
  dst : p.dst = s.dev.devNum
  opened : (s.dev.flow p.dstFlow).state ≠ 0

theorem OnOpenFlow.onFlow (h : OnOpenFlow s p) (f : Dev → Dev) : s.dev.onFlow p f = f (s.dev.reached p) :=
  Dev.onFlow_eq _ _ _ h.opened h.peer h.dst

/-- R336, R338: a poisoned answer to a GET ends it with POISON. -/
theorem answers_getResp_poisoned (h : InSequence s p) (ho : p.opc = 3) (hop : s.dev.opByTag p.dstFlow p.tag 2 = some o) (hb : bitOf p.flags 0 = true) :
    Answers (.getResp p) s fun t => (∀ x ∈ (t.flow p.dstFlow).ops, x.tag ≠ o.tag) ∧ (o.tag, 2) ∈ t.fab.opCodes := by
  have done : Dev.takesGetResp p (s.dev.takes p) = ((s.dev.takes p).endOp p.dstFlow o p.addr 2).poolFreed := by
    unfold Dev.takesGetResp
    rw [Dev.opByTag_takes, hop]
    exact if_pos hb
  obtain ⟨ends, noted, acked, -⟩ := (s.dev.takes p).poolFreed_endOp p.dstFlow o p.addr 2
  refine .of_onDev (fun d => if p.opc ≠ 3 then d else d.arrive p (Dev.takesGetResp p)) rfl h.1 ?_
  rw [if_neg (not_not_intro ho), Dev.arrive_inSequence h (by rw [done, acked, Dev.txAcked_takes]), done]
  exact ⟨ends, noted⟩

/-- R336, R338: the data of a GET reaches the cell store. -/
theorem answers_getResp (h : InSequence s p) (ho : p.opc = 3) (hop : s.dev.opByTag p.dstFlow p.tag 2 = some o) (hb : bitOf p.flags 0 = false)
    (hc : o.cell < 1152) :
    Answers (.getResp p) s fun t => (∀ x ∈ (t.flow p.dstFlow).ops, x.tag ≠ o.tag) ∧ ((∀ y ∈ s.dev.fab.colls, y.isBucket = false) → t.mem = s.dev.mem)
      ∧ (t.cell o.cell).store = setBytes (s.dev.cell o.cell).store o.store (p.payload.take o.len) := by
  let e := (s.dev.takes p).storeBytes o.cell o.store (p.payload.take o.len)
  have done : Dev.takesGetResp p (s.dev.takes p) = (e.endOp p.dstFlow o 0 0).poolFreed := by
    unfold Dev.takesGetResp
    rw [Dev.opByTag_takes, hop]
    exact (if_neg (by rw [hb]; decide)).trans (by rw [if_pos hc])
  have flow : e.flow p.dstFlow = (s.dev.takes p).flow p.dstFlow := rfl
  have mem : e.mem = s.dev.mem := (Taken.takes s.dev p).mem
  have colls : e.fab.colls = (s.dev.takes p).fab.colls := rfl
  have stored : (e.cell o.cell).store = setBytes (s.dev.cell o.cell).store o.store (p.payload.take o.len) := by
    show (((s.dev.takes p).setCell o.cell _).cell o.cell).store = _
    rw [Dev.cell_setCell_same, Dev.cell, (Taken.takes s.dev p).cells]
    rfl
  clear_value e
  obtain ⟨ends, -, acked, kept⟩ := e.poolFreed_endOp p.dstFlow o 0 0
  refine .of_onDev (fun d => if p.opc ≠ 3 then d else d.arrive p (Dev.takesGetResp p)) rfl h.1 ?_
  rw [if_neg (not_not_intro ho), Dev.arrive_inSequence h (by rw [done, acked, flow, Dev.txAcked_takes]), done]
  refine ⟨ends, fun none => (kept (by rw [colls]; exact no_bucket_takes none p)).trans mem, ?_⟩
  rw [(Traded.poolFreed _).cell, Dev.store_endOp _ _ _ _ (by decide), stored]

/-- R336, R339: the answer to an atomic ends it. -/
theorem answers_atomicResp (h : InSequence s p) (ho : p.opc = 5) (hop : s.dev.opByTag p.dstFlow p.tag 4 = some o) :
    Answers (.atomicResp p) s fun t => (∀ x ∈ (t.flow p.dstFlow).ops, x.tag ≠ o.tag) ∧ t.mem = s.dev.mem := by
  have done : Dev.takesAtomicResp p (s.dev.takes p) = (s.dev.takes p).endOp p.dstFlow o 0 0 := by
    unfold Dev.takesAtomicResp
    rw [Dev.opByTag_takes, hop]
  have ended := OpsEnded.endOp (f := p.dstFlow) (s.dev.takes p) o 0 0
  refine .of_onDev (fun d => if p.opc ≠ 5 then d else d.arrive p (Dev.takesAtomicResp p)) rfl h.1 ?_
  rw [if_neg (not_not_intro ho), Dev.arrive_inSequence h (by rw [done, ended.txAcked, Dev.txAcked_takes]), done]
  refine ⟨fun x hx => ?_, ended.mem.trans (Taken.takes s.dev p).mem⟩
  rw [(Dev.endOp_spec ..).1] at hx
  exact of_decide_eq_true (List.mem_filter.1 hx).2

/-- R326, R336: a status ends the operation of its TAG. -/
theorem answers_opStatus (h : InSequence s p) (ho : p.opc = 8) (hop : (s.dev.flow p.dstFlow).ops.find? (fun x => decide (x.tag = p.tag)) = some o) :
    Answers (.opStatus p) s fun t => (∀ x ∈ (t.flow p.dstFlow).ops, x.tag ≠ o.tag) ∧ (o.tag, p.status) ∈ t.fab.opCodes
      ∧ ((∀ y ∈ s.dev.fab.colls, y.isBucket = false) → t.mem = s.dev.mem) := by
  have done : Dev.takesOpStatus p (s.dev.takes p) = ((s.dev.takes p).endOp p.dstFlow o p.addr p.status).poolFreed := by
    unfold Dev.takesOpStatus
    rw [Dev.ops_takes, hop]
  obtain ⟨ends, noted, acked, kept⟩ := (s.dev.takes p).poolFreed_endOp p.dstFlow o p.addr p.status
  refine .of_onDev (fun d => if p.opc ≠ 8 then d else d.arrive p (Dev.takesOpStatus p)) rfl h.1 ?_
  rw [if_neg (not_not_intro ho), Dev.arrive_inSequence h (by rw [done, acked, Dev.txAcked_takes]), done]
  exact ⟨ends, noted, fun none => (kept (no_bucket_takes none p)).trans (Taken.takes s.dev p).mem⟩

/-- R335: an acknowledgement of something new. -/
theorem answers_ack (h : OnOpenFlow s p) (ho : p.opc = 0x10) (hn : 0 < seqDiff p.ack (s.dev.flow p.dstFlow).txAcked)
    (hs : 0 ≤ seqDiff (s.dev.flow p.dstFlow).txSeq p.ack) :
    Answers (.ack p) s fun t => (t.flow p.dstFlow).txAcked = p.ack % 2 ^ 32 ∧ (t.flow p.dstFlow).retries = 0
      ∧ (t.flow p.dstFlow).rxSeq = (s.dev.flow p.dstFlow).rxSeq
      ∧ (t.flow p.dstFlow).state = (if (s.dev.flow p.dstFlow).state = 2 then 1 else (s.dev.flow p.dstFlow).state) ∧ t.mem = s.dev.mem := by
  have reached := Reached.reached s.dev p
  have flow := reached.flow p.dstFlow
  refine .of_onDev (fun d => if p.opc ≠ 0x10 then d else d.onFlow p (fun d => d.takeAck p.dstFlow p.ack)) rfl h.up ?_
  rw [if_neg (not_not_intro ho), h.onFlow]
  obtain ⟨acked, retries, rx, state, mem⟩ := (s.dev.reached p).takeAck_spec (f := p.dstFlow) (a := p.ack) (by rw [flow]; exact hn) (by rw [flow]; exact hs)
  rw [flow] at rx state
  exact ⟨acked, retries, rx, state, mem.trans reached.mem⟩

/-- R335: a NACK that acknowledges nothing new. -/
theorem answers_nack (h : OnOpenFlow s p) (ho : p.opc = 0x11) (hn : seqDiff p.ack (s.dev.flow p.dstFlow).txAcked ≤ 0) :
    Answers (.nack p) s fun t => (t.flow p.dstFlow).retries = min 255 ((s.dev.flow p.dstFlow).retries + 1)
      ∧ (t.flow p.dstFlow).unacked = (s.dev.flow p.dstFlow).unacked ∧ t.mem = s.dev.mem := by
  have reached := Reached.reached s.dev p
  have flow := reached.flow p.dstFlow
  refine .of_onDev (fun d => if p.opc ≠ 0x11 then d else d.onFlow p (fun d => (d.takeAck p.dstFlow p.ack).resend p.dstFlow)) rfl h.up ?_
  rw [if_neg (not_not_intro ho), h.onFlow, Dev.takeAck_old _ (by rw [flow]; exact hn)]
  obtain ⟨retries, unacked, mem, -⟩ := (s.dev.reached p).resend_spec p.dstFlow
  rw [flow] at retries unacked
  exact ⟨retries, unacked, mem.trans reached.mem⟩

/-- R337: RESYNC starts the flow again. -/
theorem answers_resync (h : OnOpenFlow s p) (ho : p.opc = 0x12) :
    Answers (.resync p) s fun t => (t.flow p.dstFlow).state = 1 ∧ (t.flow p.dstFlow).rxSeq = 0 ∧ (t.flow p.dstFlow).ops = []
      ∧ t.errBit FLW 0 17 = true := by
  refine .of_onDev (fun d => if p.opc ≠ 0x12 then d else d.onFlow p (Dev.takesResync p.dstFlow)) rfl h.up ?_
  rw [if_neg (not_not_intro ho), h.onFlow]
  exact (s.dev.reached p).takesResync_spec p.dstFlow

/-- R337, R510: RESYNC_ACK opens the flow that was reset. -/
theorem answers_resyncAck (h : OnOpenFlow s p) (ho : p.opc = 0x13) (hs : (s.dev.flow p.dstFlow).state = 3) :
    Answers (.resyncAck p) s fun t => (t.flow p.dstFlow).state = 1 ∧ t.mem = s.dev.mem ∧ t.cells = s.dev.cells := by
  have reached := Reached.reached s.dev p
  have flow := reached.flow p.dstFlow
  refine .of_onDev (fun d => if p.opc ≠ 0x13 then d else d.onFlow p (fun d =>
    if (d.flow p.dstFlow).state = 3 then
      ((d.setFlow p.dstFlow { d.flow p.dstFlow with state := 1 }).pump p.dstFlow).probe p.dstFlow else d)) rfl h.up ?_
  rw [if_neg (not_not_intro ho), h.onFlow, if_pos (by rw [flow]; exact hs)]
  generalize hw : { (s.dev.reached p).flow p.dstFlow with state := 1 } = w
  have sent : Sent ((s.dev.reached p).setFlow p.dstFlow w) ((((s.dev.reached p).setFlow p.dstFlow w).pump p.dstFlow).probe p.dstFlow) :=
    (Sent.pump ..).trans (.probe ..)
  refine ⟨?_, sent.mem.trans reached.mem, sent.cells.trans reached.cells⟩
  rw [(sent.flows _).state, Dev.flow_setFlow_same, ← hw]

/-- R335 to R338, R510: flows acknowledge and recover. -/
theorem flowsAcknowledgeAndRecover : FlowsAcknowledgeAndRecover := by
  intro s p o f w open' ends noBucket
  have opened : open' → OnOpenFlow s p := fun ⟨up, peer, dst, state⟩ => ⟨up, peer, dst, state⟩
  refine ⟨answers_getResp_poisoned, answers_getResp, answers_atomicResp, answers_opStatus, fun h => answers_ack (opened h),
    fun h => answers_nack (opened h), fun h => answers_resync (opened h), fun h => answers_resyncAck (opened h), ?_, ?_, ?_, ?_⟩
  · intro hu owed
    refine .of_onDev (fun d => if (d.flow f).owed then d.control f 0x10 else d) rfl hu ?_
    rw [if_pos owed]
    have sent := Sent.control s.dev f 0x10
    refine ⟨?_, ?_, sent.mem, sent.cells⟩
    · show ((s.dev.sendNow f _).flow f).owed = false
      rw [Dev.flow_sendNow]
      rfl
    · show ((s.dev.sendNow f _).flow f).txSeq = w.txSeq
      rw [Dev.flow_sendNow]
      rfl
  · intro hu owed
    refine .of_onDev (fun d => if (d.flow f).owed then d.control f 0x10 else d) rfl hu ?_
    exact if_neg (by rw [owed]; decide)
  · intro hu pending
    refine .of_onDev (fun d => if (d.flow f).pendingAck then d.resend f else d) rfl hu ?_
    rw [if_pos pending]
    exact s.dev.resend_spec f
  · intro hu pending hs
    refine .of_onDev (fun d => if (d.flow f).pendingAck ∧ (d.flow f).state = 1 then
      ((d.setFlow f { d.flow f with state := 2 }).bump FLW 0 6 1).setErr FLW 0 16 else d) rfl hu ?_
    rw [if_pos ⟨pending, hs⟩]
    have noise := Noise.setErr ((s.dev.setFlow f { s.dev.flow f with state := 2 }).bump FLW 0 6 1) FLW 0 16
    refine ⟨?_, Noise.errBit_setErr _ _ _ (by decide), noise.reports.mem, noise.reports.cells⟩
    rw [Dev.flow, noise.reports.fab]
    exact s.dev.flow_setFlow_same f _

end Sys2Proof
end

