-- ==== Sys2Proof/Proofs/FlowPages.lean ====
section
/-! Obligation O37, second half: the FLW page (R293, R329, R333, R334, R360). -/

namespace Sys2Proof.Machine

/-! ### Operations that end as a flow closes -/

theorem poolField_cases (cell : Nat) : poolField cell = R.FLW_POOL_FREE_N ∨ poolField cell = R.FLW_POOL_FREE_S := by
  unfold poolField
  split
  · exact .inl rfl
  · exact .inr rfl

/-- An operation that ends without a trap and without a halt touches no field but the response pools. -/
theorem Dev.getF_endOp (d : Dev) (f : Nat) (o : FlowOp) (addr : Nat) {code : Nat} (h : code ≠ 1 ∧ code ≠ 2) {g : Field}
    (hg : g.place ≠ R.FLW_POOL_FREE_N.place ∧ g.place ≠ R.FLW_POOL_FREE_S.place) (i : Nat) : (d.endOp f o addr code).getF g i = d.getF g i := by
  have freed : (d.forgotten f o code).getF g i = d.getF g i := by
    have pool : g.place ≠ (poolField o.cell).place := by
      rcases poolField_cases o.cell with e | e
      · rw [e]; exact hg.1
      · rw [e]; exact hg.2
    unfold Dev.forgotten Dev.freeBlocks
    split
    · rfl
    · exact Dev.getF_setF_place pool ..
  rw [Dev.endOp_eq]
  rcases (d.forgotten f o code).issuerDone_quiet o addr h with e | e
  · rw [e, freed]
  · rw [e, ← freed, Dev.getF, Dev.getF, Dev.fields_remoteDone]

theorem Dev.getF_endOps (d : Dev) (f : Nat) {code : Nat} (h : code ≠ 1 ∧ code ≠ 2) {g : Field}
    (hg : g.place ≠ R.FLW_POOL_FREE_N.place ∧ g.place ≠ R.FLW_POOL_FREE_S.place) (i : Nat) : (d.endOps f code).getF g i = d.getF g i := by
  unfold Dev.endOps
  generalize (d.flow f).ops = os
  induction os generalizing d with
  | nil => rfl
  | cons o os ih => exact (ih _).trans (d.getF_endOp f o 0 h hg i)

theorem Dev.endOps_none {d : Dev} {f : Nat} (h : (d.flow f).ops = []) (code : Nat) : d.endOps f code = d := by
  rw [Dev.endOps, h]
  rfl

theorem MemOnly.shadowFlow (d : Dev) (f : Nat) : MemOnly d (d.shadowFlow f) := ite (refl d) (write ..)

theorem MemOnly.flow {d t : Dev} (h : MemOnly d t) (f : Nat) : t.flow f = d.flow f := by rw [Dev.flow, Dev.flow, h.kept]

theorem MemOnly.colls {d t : Dev} (h : MemOnly d t) : t.fab.colls = d.fab.colls := by rw [h.kept]

/-- The status of the last command on the page. -/
theorem Dev.flwStat_setF (d : Dev) {v : Nat} (h : v < 16) : (d.setF R.FLW_CMD_STAT_CODE 0 v).getF R.FLW_CMD_STAT_CODE 0 = v := Dev.getF_setF_of_lt d h 0

theorem Dev.rtStat_setF (d : Dev) {v : Nat} (h : v < 16) : (d.setF R.FLW_RT_STATUS_CODE 0 v).getF R.FLW_RT_STATUS_CODE 0 = v := Dev.getF_setF_of_lt d h 0

/-! ### READ -/

/-- A word of a context in its staging register, where it acts. -/
def Dev.stageWord (v : Nat → Nat) (d : Dev) (k : Nat) : Dev := (d.setF (R.FLW_DATA k) 0 (v k)).setAct (R.FLW_DATA k) 0 (v k)

theorem Dev.fields_stageWords (v : Nat → Nat) (ks : List Nat) {d e : Dev} (h : d.fields = e.fields) :
    (ks.foldl (Dev.stageWord v) d).fields = (ks.foldl (fun d k => d.setF (R.FLW_DATA k) 0 (v k)) e).fields := by
  induction ks generalizing d e with
  | nil => exact h
  | cons k ks ih =>
    refine ih ?_
    show mput _ _ d.fields = mput _ _ e.fields
    rw [h]

/-- The staging registers show the words. -/
theorem Dev.getF_stageWords (d : Dev) (v : Nat → Nat) {k : Nat} (hk : k < 16) :
    ((List.range 16).foldl (Dev.stageWord v) d).getF (R.FLW_DATA k) 0 = v k % 2 ^ 32 := by
  have shown := d.getF_foldl_setF (reg := R.FLW_DATA) (n := 16) (fun i hi j hj ne => by
    simp only [Field.place, R.FLW_DATA]
    omega) v hk
  rw [Dev.getF, d.fields_stageWords v (e := d) _ rfl]
  exact shown

/-! ### WRITE -/

/-- A context is installed on flow f. -/
def Dev.installed (d : Dev) (f : Nat) (w : Flow) : Dev := ((((d.endOps f 6).setFlow f w).shadowFlow f)).poolFreed

theorem Dev.installed_spec (d : Dev) (f : Nat) (w : Flow) :
    FlowSent w ((d.installed f w).flow f) ∧ (d.installed f w).getF R.FLW_CMD_STAT_CODE 0 = d.getF R.FLW_CMD_STAT_CODE 0
      ∧ ((d.flow f).ops = [] → (d.installed f w).cells = d.cells) := by
  have stat : ((d.endOps f 6).setFlow f w).getF R.FLW_CMD_STAT_CODE 0 = d.getF R.FLW_CMD_STAT_CODE 0 := d.getF_endOps f (by decide) (by decide) 0
  have cells (none : (d.flow f).ops = []) : ((d.endOps f 6).setFlow f w).cells = d.cells := by rw [Dev.endOps_none none]; rfl
  have flow := (d.endOps f 6).flow_setFlow_same f w
  unfold Dev.installed
  generalize (d.endOps f 6).setFlow f w = e at stat cells flow ⊢
  have shadow := MemOnly.shadowFlow e f
  generalize e.shadowFlow f = g at shadow ⊢
  have freed := Traded.poolFreed g
  generalize g.poolFreed = t at freed ⊢
  refine ⟨?_, ?_, fun none => freed.cells.trans (shadow.cells.trans (cells none))⟩
  · rw [← flow, ← shadow.flow f]
    exact freed.flows f
  · rw [freed.getF (by decide) (by decide) (by decide) (by decide), shadow.getF (by decide) (by decide) (by decide), stat]

theorem Dev.contextCode_lt (d : Dev) (f : Nat) (bs : List Byte) : d.contextCode f bs < 16 := by
  unfold Dev.contextCode
  dsimp only
  repeat' split
  all_goals decide

/-! ### CLOSE -/

/-- The flow as it closes. -/
def Flow.shut (w : Flow) : Flow := { w with state := 0, unacked := [], waiting := [], owed := false }

theorem Dev.closeFlow_eq (d : Dev) (f : Nat) :
    d.closeFlow f = (((d.endOps f 6).setFlow f ((d.endOps f 6).flow f).shut).shadowFlow f).pumpAll := rfl

theorem Dev.closeFlow_spec (d : Dev) (f : Nat) :
    let t := (d.closeFlow f).poolFreed
    (t.flow f).state = 0 ∧ (t.flow f).ops = [] ∧ (t.flow f).unacked = []
      ∧ ((∀ y ∈ d.fab.colls, y.isBucket = false) → (t.flow f).waiting = []) := by
  have none := d.ops_endOps f 6
  have ended := OpsEnded.endOps d f 6
  rw [Dev.closeFlow_eq]
  generalize d.endOps f 6 = e at none ended ⊢
  have shadow := MemOnly.shadowFlow (e.setFlow f (e.flow f).shut) f
  have flow := shadow.flow f
  rw [Dev.flow_setFlow_same] at flow
  have colls := shadow.colls.trans ended.colls
  generalize (e.setFlow f (e.flow f).shut).shadowFlow f = g at flow colls ⊢
  have pumped := Sent.pumpAll g
  have freed := (Traded.poolFreed g.pumpAll).flows f
  have all : FlowSent (e.flow f).shut (g.pumpAll.poolFreed.flow f) := flow ▸ (pumped.flows f).trans freed
  refine ⟨all.state, ?_, all.closed rfl, fun nb => ?_⟩
  · have tags := all.tags
    rw [show (e.flow f).shut.ops = [] from none] at tags
    exact List.map_eq_nil_iff.1 tags
  · have still : g.pumpAll.regrant = g.pumpAll := Dev.regrant_of_no_bucket (by rw [pumped.colls, colls]; exact nb)
    show (g.pumpAll.regrant.pumpAll.flow f).waiting = []
    rw [still]
    exact Dev.waiting_pumpAll (Dev.waiting_pumpAll (by rw [flow]; rfl))

/-! ### The route table -/

theorem Sent.rerouteAll (d : Dev) : Sent d d.rerouteAll := by
  have emptied : Sent d { d with fab := { d.fab with unrouted := [] } } := ⟨rfl, .of_fields rfl, fun _ => .refl _⟩
  exact emptied.trans (.foldl (fun e p => .routeOut e p) _ _)

end Sys2Proof.Machine

namespace Sys2Proof

open Machine

variable {s : State} {w : Writer}

/-- A context goes into the staging registers. -/
def Machine.Dev.readContext (d : Dev) (bs : List Byte) : Dev :=
  ((List.range 16).foldl (Dev.stageWord fun k => leNat ((bs.drop (4 * k)).take 4)) d).setF R.FLW_CMD_STAT_CODE 0 2

theorem Machine.Dev.stageWords_spec (d : Dev) (v : Nat → Nat) : OffFabric d ((List.range 16).foldl (Dev.stageWord v) d) := by
  have step (e : Dev) (k : Nat) : OffFabric e (Dev.stageWord v e k) := ⟨rfl, rfl⟩
  generalize List.range 16 = ks
  exact .foldl (f := Dev.stageWord v) step ks d

/-- The status that READ shows leaves the staging registers. -/
theorem Machine.Dev.staged_stat {d e : Dev} {v : Nat → Nat} (h : ∀ k, k < 16 → e.getF (R.FLW_DATA k) 0 = v k % 2 ^ 32) (o : OffFabric d e) :
    let t := e.setF R.FLW_CMD_STAT_CODE 0 2
    (∀ k, k < 16 → t.getF (R.FLW_DATA k) 0 = v k % 2 ^ 32) ∧ t.getF R.FLW_CMD_STAT_CODE 0 = 2 ∧ t.fab = d.fab ∧ t.mem = d.mem := by
  refine ⟨fun k hk => ?_, e.flwStat_setF (by decide), o.fab, o.mem⟩
  have ne : (R.FLW_DATA k).place ≠ R.FLW_CMD_STAT_CODE.place := by
    simp only [Field.place, R.FLW_DATA, R.FLW_CMD_STAT_CODE]
    omega
  rw [Dev.getF_setF_place ne, h k hk]

theorem Machine.Dev.readContext_spec (d : Dev) (bs : List Byte) :
    let t := d.readContext bs
    (∀ k, k < 16 → t.getF (R.FLW_DATA k) 0 = leNat ((bs.drop (4 * k)).take 4) % 2 ^ 32)
      ∧ t.getF R.FLW_CMD_STAT_CODE 0 = 2 ∧ t.fab = d.fab ∧ t.mem = d.mem :=
  Dev.staged_stat (fun _ hk => d.getF_stageWords _ hk) (d.stageWords_spec _)

theorem answers_flwCmdRead (h : Writes s w) :
    let f := s.dev.getF R.FLW_INDEX_INDEX 0
    Answers (.flwCmdRead w) s fun t =>
      (∀ k, k < 16 → t.getF (R.FLW_DATA k) 0 = leNat (((s.dev.flow f).bytes.drop (4 * k)).take 4) % 2 ^ 32)
        ∧ t.getF R.FLW_CMD_STAT_CODE 0 = 2 ∧ t.fab = s.dev.fab ∧ t.mem = s.dev.mem :=
  .of_byWriter h (fun d => d.readContext (d.flow (d.getF R.FLW_INDEX_INDEX 0)).bytes) rfl (s.dev.readContext_spec _)

/-- What WRITE does with a context that is not refused. -/
def Machine.Dev.installs (d : Dev) (f : Nat) (w : Flow) : Dev :=
  if ((d.installed f w).flow f).state = 1 then (d.installed f w).probe f else d.installed f w

theorem Machine.Dev.installs_sent (d : Dev) (f : Nat) (w : Flow) : Sent (d.installed f w) (d.installs f w) := .ite (.probe ..) (.refl _)

/-- What WRITE does. -/
def Machine.Dev.writeContext (d : Dev) : Dev :=
  let f := d.getF R.FLW_INDEX_INDEX 0
  let code := d.contextCode f d.stagedContext
  if code ≠ 2 then (d.setF R.FLW_CMD_STAT_CODE 0 code).setErr FLW 0 19
  else (d.setF R.FLW_CMD_STAT_CODE 0 code).installs f (flowFrom d.stagedContext 1)

theorem answers_flwCmdWrite (h : Writes s w) (hc : s.dev.contextCode (s.dev.getF R.FLW_INDEX_INDEX 0) s.dev.stagedContext = 2) :
    let f := s.dev.getF R.FLW_INDEX_INDEX 0
    let v := flowFrom s.dev.stagedContext 1
    Answers (.flwCmdWrite w) s fun t =>
      (t.flow f).peer = v.peer ∧ (t.flow f).tc = v.tc ∧ (t.flow f).kind = v.kind ∧ (t.flow f).winBase = v.winBase
        ∧ (t.flow f).winLimit = v.winLimit ∧ (t.flow f).rights = v.rights ∧ (t.flow f).rxSeq = 0 ∧ (t.flow f).state = v.state
        ∧ t.getF R.FLW_CMD_STAT_CODE 0 = 2 ∧ (t.flow f).ops = [] ∧ ((s.dev.flow f).ops = [] → t.cells = s.dev.cells) := by
  intro f v
  refine .of_byWriter h Dev.writeContext rfl ?_
  have done : s.dev.writeContext = (s.dev.setF R.FLW_CMD_STAT_CODE 0 2).installs f v := by
    unfold Dev.writeContext
    dsimp only
    rw [if_neg (not_not_intro hc), hc]
  rw [done]
  have sent := (s.dev.setF R.FLW_CMD_STAT_CODE 0 2).installs_sent f v
  obtain ⟨flow, stat, cells⟩ := (s.dev.setF R.FLW_CMD_STAT_CODE 0 2).installed_spec f v
  have all := flow.trans (sent.flows f)
  have kept := all.kept
  have ops := all.tags
  have code := (sent.getF (f := R.FLW_CMD_STAT_CODE) (by decide) (by decide) (by decide : 0 < 2048)).trans stat
  refine ⟨all.peer, ?_, all.kind, ?_, ?_, ?_, all.rxSeq, all.state, code.trans (s.dev.flwStat_setF (by decide)), List.map_eq_nil_iff.1 ops,
    fun none => sent.cells.trans (cells none)⟩
  all_goals rw [kept]

theorem answers_flwCmdWrite_refused (h : Writes s w) (hc : s.dev.contextCode (s.dev.getF R.FLW_INDEX_INDEX 0) s.dev.stagedContext ≠ 2) :
    Answers (.flwCmdWrite w) s fun t =>
      t.getF R.FLW_CMD_STAT_CODE 0 = s.dev.contextCode (s.dev.getF R.FLW_INDEX_INDEX 0) s.dev.stagedContext ∧ t.errBit FLW 0 19 = true
        ∧ t.fab = s.dev.fab ∧ t.mem = s.dev.mem := by
  refine .of_byWriter h Dev.writeContext rfl ?_
  unfold Dev.writeContext
  dsimp only
  rw [if_pos hc]
  have shown := s.dev.flwStat_setF (s.dev.contextCode_lt (s.dev.getF R.FLW_INDEX_INDEX 0) s.dev.stagedContext)
  have kept : OffFabric s.dev (s.dev.setF R.FLW_CMD_STAT_CODE 0 (s.dev.contextCode (s.dev.getF R.FLW_INDEX_INDEX 0) s.dev.stagedContext)) := .setF ..
  generalize s.dev.setF R.FLW_CMD_STAT_CODE 0 _ = e at shown kept ⊢
  have noise := Noise.setErr e FLW 0 19
  refine ⟨?_, Noise.errBit_setErr _ _ _ (by decide), noise.reports.fab.trans kept.fab, noise.reports.mem.trans kept.mem⟩
  rw [noise.getF (by decide) (by decide), shown]

/-- A flow closes, and CLOSE shows that it is done. -/
def Machine.Dev.closeContext (d : Dev) (f : Nat) : Dev := (d.closeFlow f).poolFreed.setF R.FLW_CMD_STAT_CODE 0 2

/-- The status that CLOSE shows leaves the flow. -/
theorem Machine.Dev.closed_stat {e : Dev} {f : Nat} {q : Prop}
    (h : (e.flow f).state = 0 ∧ (e.flow f).ops = [] ∧ (e.flow f).unacked = [] ∧ (q → (e.flow f).waiting = [])) :
    let t := e.setF R.FLW_CMD_STAT_CODE 0 2
    (t.flow f).state = 0 ∧ (t.flow f).ops = [] ∧ (t.flow f).unacked = [] ∧ (q → (t.flow f).waiting = [])
      ∧ t.getF R.FLW_CMD_STAT_CODE 0 = 2 := by
  obtain ⟨state, ops, unacked, waiting⟩ := h
  exact ⟨state, ops, unacked, waiting, e.flwStat_setF (by decide)⟩

theorem Machine.Dev.closeContext_spec (d : Dev) (f : Nat) :
    let t := d.closeContext f
    (t.flow f).state = 0 ∧ (t.flow f).ops = [] ∧ (t.flow f).unacked = []
      ∧ ((∀ y ∈ d.fab.colls, y.isBucket = false) → (t.flow f).waiting = []) ∧ t.getF R.FLW_CMD_STAT_CODE 0 = 2 :=
  Dev.closed_stat (d.closeFlow_spec f)

theorem answers_flwCmdClose (h : Writes s w) :
    let f := s.dev.getF R.FLW_INDEX_INDEX 0
    Answers (.flwCmdClose w) s fun t =>
      (t.flow f).state = 0 ∧ (t.flow f).ops = [] ∧ (t.flow f).unacked = []
        ∧ ((∀ y ∈ s.dev.fab.colls, y.isBucket = false) → (t.flow f).waiting = []) ∧ t.getF R.FLW_CMD_STAT_CODE 0 = 2 :=
  .of_byWriter h (fun d => d.closeContext (d.getF R.FLW_INDEX_INDEX 0)) rfl (s.dev.closeContext_spec _)

/-- Packets are routed afresh under a new table. -/
theorem Machine.Dev.rerouted_spec (e : Dev) :
    let t := (e.setF R.FLW_RT_STATUS_CODE 0 2).rerouteAll
    t.fab.routes = e.fab.routes ∧ t.getF R.FLW_RT_STATUS_CODE 0 = 2 ∧ t.mem = e.mem ∧ t.cells = e.cells := by
  have sent := Sent.rerouteAll (e.setF R.FLW_RT_STATUS_CODE 0 2)
  refine ⟨?_, ?_, sent.mem, sent.cells⟩
  · rw [sent.kept]
    rfl
  · rw [sent.getF (by decide) (by decide) (by decide), Dev.rtStat_setF e (by decide)]

theorem Machine.Dev.loadRoutes_good {d : Dev} (hj : d.inJob d.routeBase 524288 = true) (hb : d.routeImage.any (fun e => badRoute e.2) = false) :
    d.loadRoutes = (Dev.setF { d with fab := { d.fab with routes := d.routeImage } } R.FLW_RT_STATUS_CODE 0 2).rerouteAll := by
  unfold Dev.loadRoutes
  rw [if_neg (by rw [hj]; decide), if_neg (by rw [hb]; decide)]

theorem Machine.Dev.loadRoutes_outside {d : Dev} (hj : d.inJob d.routeBase 524288 = false) :
    d.loadRoutes = (d.setF R.FLW_RT_STATUS_CODE 0 3).setErr FLW 0 20 := by
  unfold Dev.loadRoutes
  rw [if_pos (by rw [hj]; decide)]

theorem Machine.Dev.routeRefused_spec (d : Dev) :
    let t := (d.setF R.FLW_RT_STATUS_CODE 0 3).setErr FLW 0 20
    t.fab = d.fab ∧ t.getF R.FLW_RT_STATUS_CODE 0 = 3 ∧ t.errBit FLW 0 20 = true ∧ t.mem = d.mem := by
  have noise := Noise.setErr (d.setF R.FLW_RT_STATUS_CODE 0 3) FLW 0 20
  refine ⟨noise.reports.fab, ?_, Noise.errBit_setErr _ _ _ (by decide), noise.reports.mem⟩
  rw [noise.getF (by decide) (by decide), Dev.rtStat_setF d (by decide)]

theorem answers_routeTableLoad (h : Writes s w) (hj : s.dev.inJob s.dev.routeBase 524288 = true)
    (hb : s.dev.routeImage.any (fun e => badRoute e.2) = false) :
    Answers (.routeTableLoad w) s fun t =>
      t.fab.routes = s.dev.routeImage ∧ t.getF R.FLW_RT_STATUS_CODE 0 = 2 ∧ t.mem = s.dev.mem ∧ t.cells = s.dev.cells := by
  refine .of_byWriter h Dev.loadRoutes rfl ?_
  rw [Dev.loadRoutes_good hj hb]
  exact Dev.rerouted_spec _

theorem answers_routeTableLoad_outside (h : Writes s w) (hj : s.dev.inJob s.dev.routeBase 524288 = false) :
    Answers (.routeTableLoad w) s fun t =>
      t.fab = s.dev.fab ∧ t.getF R.FLW_RT_STATUS_CODE 0 = 3 ∧ t.errBit FLW 0 20 = true ∧ t.mem = s.dev.mem := by
  refine .of_byWriter h Dev.loadRoutes rfl ?_
  rw [Dev.loadRoutes_outside hj]
  exact s.dev.routeRefused_spec

/-- What a write of the shadow table's base does, given the base that results. -/
def Machine.Dev.placesShadow (d d' : Dev) : Dev :=
  if d.rlOpen false FLW 0 = false then (if d'.shadowBase = d.shadowBase then d else d.lockedWrite FLW 0)
  else if d'.inJob d'.shadowBase (2 ^ 24) then d' else d.setErr FLW 0 19

/-- The device with one half of the shadow table's base. -/
def Machine.Dev.shadowHalf (d : Dev) (hi : Bool) (v : Nat) : Dev :=
  if hi then d.setF R.FLW_SHADOW_HI_ADDR_HI 0 v else d.setF R.FLW_SHADOW_LO_ADDR_LO 0 (v / 2 ^ 16)

theorem answers_flwShadowWrite (h : Writes s w) (hi : Bool) (v : Nat) {post : Dev → Prop} (hp : post (s.dev.placesShadow (s.dev.shadowHalf hi v))) :
    Answers (.flwShadowWrite w hi v) s post := .of_byWriter h (fun d => d.placesShadow (d.shadowHalf hi v)) rfl hp

theorem Machine.Dev.placesShadow_taken {d d' : Dev} (ho : d.rlOpen false FLW 0 = true) (hj : d'.inJob d'.shadowBase (2 ^ 24) = true) :
    d.placesShadow d' = d' := by
  unfold Dev.placesShadow
  rw [if_neg (by rw [ho]; decide), if_pos hj]

theorem Machine.Dev.placesShadow_refused {d d' : Dev} (ho : d.rlOpen false FLW 0 = true) (hj : d'.inJob d'.shadowBase (2 ^ 24) = false) :
    d.placesShadow d' = d.setErr FLW 0 19 := by
  unfold Dev.placesShadow
  rw [if_neg (by rw [ho]; decide), if_neg (by rw [hj]; decide)]

/-- R293, R329, R333, R334, R360: the FLW page. -/
theorem flowContextsAndRoutes : FlowContextsAndRoutes := by
  intro s w v hw f bs code lo hi
  refine ⟨answers_flwCmdRead hw, answers_flwCmdWrite hw, answers_flwCmdWrite_refused hw, answers_flwCmdClose hw, answers_routeTableLoad hw,
    answers_routeTableLoad_outside hw, fun ho => ⟨fun hj => ?_, fun hj => ?_, fun hj => ?_⟩⟩
  · exact answers_flwShadowWrite hw false v (Dev.placesShadow_taken ho hj)
  · exact answers_flwShadowWrite hw true v (Dev.placesShadow_taken ho hj)
  · refine answers_flwShadowWrite hw true v ?_
    rw [show s.dev.placesShadow (s.dev.shadowHalf true v) = s.dev.setErr FLW 0 19 from Dev.placesShadow_refused ho hj]
    exact ⟨(Noise.setErr s.dev FLW 0 19).getF (by decide) (by decide), Noise.errBit_setErr _ _ _ (by decide)⟩

/-- Settles O37. -/
theorem flowsRunAndRecover : Obligations.FlowsRunAndRecover := ⟨flowsAcknowledgeAndRecover, flowContextsAndRoutes⟩

end Sys2Proof
end

