-- ==== Sys2Proof/Proofs/Collects.lean ====
section
/-! What the collectives change (R248, R274 to R277, R343 to R351, R362): those that end leave flight with their vote and their
measures, and those that go on take contributions. -/

namespace Sys2Proof.Machine

/-! ### Collectives that end -/

/-- The fields that the end of a collective sets. -/
def endFields : List Field :=
  [R.COL_MISSING_VALID, R.NUM_VOTE_FINAL, R.NUM_VOTE_NONFINITE, R.NUM_VOTE_ORIGIN, R.NUM_VOTE_STEP_STEP, R.COL_BUCKET_STATUS_STEP,
    R.COL_BUCKET_STATUS_AGREED]

/-- Their homes. -/
def endHome (k : Nat) : Prop := ∃ f ∈ endFields, ∃ i, f.key i = k

theorem not_endHome {f : Field} (h : f.place ∉ endFields.map Field.place) (i : Nat) : ¬ endHome (f.key i) := by
  rintro ⟨g, hg, j, e⟩
  exact Field.key_ne (fun e' => h (e' ▸ List.mem_map_of_mem hg)) j i e

/-- The ends of collectives may have been noted. -/
structure Noted (d t : Dev) : Prop where
  kept : t = { d with
    fields := t.fields, rasLog := t.rasLog, out := t.out, pci := t.pci, fresh := t.fresh
    ctl := { d.ctl with order := t.ctl.order, markHeld := t.ctl.markHeld }
    train := { d.train with finished := t.train.finished, votes := t.train.votes, ratio := t.train.ratio, agreed := t.train.agreed } }
  touches : Touches endHome d t
  order : ∀ e ∈ t.ctl.order, e ∈ d.ctl.order

namespace Noted

variable {d e t : Dev}

theorem of_noise (h : Noise d t) : Noted d t := by
  refine ⟨?_, h.touches _, fun e he => by rw [← h.reports.ctl]; exact he⟩
  obtain ⟨_, _, _, rfl⟩ := h.reports
  rfl

theorem refl (d : Dev) : Noted d d := of_noise (.refl d)

theorem trans (h : Noted d e) (g : Noted e t) : Noted d t := by
  refine ⟨?_, h.touches.trans g.touches, fun x hx => h.order x (g.order x hx)⟩
  have kept := g.kept
  rw [h.kept] at kept
  exact kept

theorem ite {a b : Dev} {p : Prop} [Decidable p] (ha : Noted d a) (hb : Noted d b) : Noted d (if p then a else b) := by
  split
  · exact ha
  · exact hb

theorem setF (d : Dev) {f : Field} (hf : f ∈ endFields) (i v : Nat) : Noted d (d.setF f i v) := by
  have place : ∀ g ∈ endFields, g.place ≠ 1024 := by decide
  exact ⟨rfl, .setF d ⟨f, hf, i, rfl⟩ (place f hf) v, fun _ h => h⟩

theorem draw (d : Dev) : Noted d d.draw.2 := ⟨rfl, .of_fields rfl, fun _ h => h⟩

theorem of_completed (h : Completed d t) (ho : ∀ e ∈ t.ctl.order, e ∈ d.ctl.order) : Noted d t := by
  refine ⟨?_, ⟨fun k hk _ => h.touches.kept k hk (by simp [homes]), h.touches.errs⟩, ho⟩
  rw [h.kept]

theorem complete (d : Dev) (c : JobCmd) (status value : Nat) : Noted d (d.complete c status value) := by
  refine of_completed (.complete ..) fun e he => ?_
  rw [Dev.order_complete] at he
  exact List.mem_of_mem_filter he

theorem waitOver (d : Dev) (c : Coll) : Noted d (d.waitOver c) := ite (setF d (by simp [endFields]) _ _) (refl d)

theorem closeVote (d : Dev) : Noted d d.closeVote := by
  unfold Dev.closeVote
  split
  · extract_lets bad origin
    exact (((setF _ (by simp [endFields]) _ _).trans (setF _ (by simp [endFields]) _ _)).trans (setF _ (by simp [endFields]) _ _)).trans
      (setF _ (by simp [endFields]) _ _)
  · exact refl d

theorem bucketEnd (d : Dev) (c : Coll) (b t1 tx : Nat) : Noted d (d.bucketEnd c b t1 tx) := by
  unfold Dev.bucketEnd
  extract_lets h better _ e e' _ e''
  have noted : Noted d e := ⟨rfl, .of_fields rfl, fun _ h => h⟩
  have timed : Noted e e' := (of_noise (.bump _ _ _ (by decide) _)).trans (of_noise (.bump _ _ _ (by decide) _))
  have agreed : Noted e' e'' := by
    unfold e''
    split
    · extract_lets a f g
      have taken : Noted e' f := ⟨rfl, .of_fields rfl, fun _ h => h⟩
      have shown : Noted f g := (setF _ (by simp [endFields]) _ _).trans (setF _ (by simp [endFields]) _ _)
      exact (taken.trans shown).trans (ite (of_noise (.policyWithheld ..)) (refl _))
    · exact refl e'
  exact ((noted.trans timed).trans agreed).trans (closeVote _)

theorem fab (h : Noted d t) : t.fab = d.fab := by rw [h.kept]

end Noted

/-- Collectives may have left flight. -/
structure Ended (d t : Dev) : Prop where
  kept : t = { d with
    fields := t.fields, rasLog := t.rasLog, out := t.out, pci := t.pci, fresh := t.fresh
    ctl := { d.ctl with order := t.ctl.order, markHeld := t.ctl.markHeld }
    train := { d.train with finished := t.train.finished, votes := t.train.votes, ratio := t.train.ratio, agreed := t.train.agreed }
    fab := { d.fab with colls := t.fab.colls, past := t.fab.past } }
  touches : Touches endHome d t
  order : ∀ e ∈ t.ctl.order, e ∈ d.ctl.order
  colls : ∀ c ∈ t.fab.colls, c ∈ d.fab.colls
  named : ∀ k c, t.coll k = some c → d.coll k = some c

namespace Ended

variable {d e t : Dev}

theorem of_noted (h : Noted d t) : Ended d t := by
  refine ⟨?_, h.touches, h.order, fun c hc => by rw [← h.fab]; exact hc, fun k c hk => by rwa [Dev.coll, h.fab] at hk⟩
  have fab := h.fab
  have kept := h.kept
  rw [fab]
  exact kept

theorem refl (d : Dev) : Ended d d := of_noted (.refl d)

theorem trans (h : Ended d e) (g : Ended e t) : Ended d t := by
  refine ⟨?_, h.touches.trans g.touches, fun x hx => h.order x (g.order x hx), fun c hc => h.colls c (g.colls c hc),
    fun k c hk => h.named k c (g.named k c hk)⟩
  have kept := g.kept
  rw [h.kept] at kept
  exact kept

theorem ite {a b : Dev} {p : Prop} [Decidable p] (ha : Ended d a) (hb : Ended d b) : Ended d (if p then a else b) := by
  split
  · exact ha
  · exact hb

theorem mem (h : Ended d t) : t.mem = d.mem := by rw [h.kept]
theorem cells (h : Ended d t) : t.cells = d.cells := by rw [h.kept]
theorem flows (h : Ended d t) : t.fab.flows = d.fab.flows := by rw [h.kept]

end Ended

/-! ### The end of a collective -/

/-- The collectives without those of a key. -/
theorem find_without (cs : List Coll) (k j : CollKey) :
    (cs.filter (fun x => decide (x.key ≠ k))).find? (fun x => decide (x.key = j)) = if j = k then none else cs.find? (fun x => decide (x.key = j)) := by
  rw [List.find?_filter]
  split
  · next h =>
    subst h
    exact List.find?_eq_none.2 fun x _ => by simp
  · next h =>
    congr 1
    funext x
    by_cases hx : x.key = j
    · simp [hx, h]
    · simp [hx]

theorem Dev.coll_toPast (d : Dev) (c : Coll) (j : CollKey) : (d.toPast c).coll j = if j = c.key then none else d.coll j :=
  find_without d.fab.colls c.key j

theorem Ended.toPast (d : Dev) (c : Coll) : Ended d (d.toPast c) := by
  refine ⟨rfl, .of_fields rfl, fun _ h => h, fun _ h => List.mem_of_mem_filter h, fun k x hk => ?_⟩
  rw [Dev.coll_toPast] at hk
  split at hk
  · cases hk
  · exact hk

/-- The device before a collective that ends leaves flight. -/
def Dev.waitEnds (d : Dev) (c : Coll) (timed : Bool) : Dev := (if timed || !c.isBucket then d else d.draw.2.draw.2).waitOver c

theorem Noted.waitEnds (d : Dev) (c : Coll) (timed : Bool) : Noted d (d.waitEnds c timed) :=
  (ite (refl d) ((draw d).trans (draw _))).trans (waitOver ..)

/-- What a collective that ends shows. -/
def Dev.showsEnd (d : Dev) (c : Coll) (t : Nat × Nat) : Dev :=
  match c.kind, c.cmd with
  | .bucket b _, _ => d.bucketEnd c b t.1 t.2
  | _, some j => d.complete j 0 0
  | _, none => d

theorem Noted.showsEnd (d : Dev) (c : Coll) (t : Nat × Nat) : Noted d (d.showsEnd c t) := by
  unfold Dev.showsEnd
  split
  · exact bucketEnd ..
  · exact complete ..
  · exact refl d

theorem Dev.endColl_eq {d : Dev} {k : CollKey} {c : Coll} (hc : d.coll k = some c) (times : Option (Nat × Nat)) :
    d.endColl k times = (((d.waitEnds c times.isSome).toPast c).bump COL c.engine 0 1).showsEnd c (times.getD (d.draw.1, d.draw.2.draw.1)) := by
  rw [Dev.endColl, Dev.onColl, hc]
  rfl

/-- A collective that ends leaves flight and is fetchable from now on; its command leaves command order. -/
theorem Dev.endColl_spec {d : Dev} {k : CollKey} {c : Coll} (hc : d.coll k = some c) (times : Option (Nat × Nat)) :
    let t := d.endColl k times
    Ended d t ∧ t.coll k = none ∧ t.fab.colls = d.fab.colls.filter (fun x => decide (x.key ≠ k)) ∧ (∃ x ∈ t.fab.past, x.key = k ∧ x.done = true)
      ∧ (c.isBucket = false → ∀ e ∈ t.ctl.order, c.cmd ≠ some e.cmd) := by
  rw [Dev.endColl_eq hc]
  have key := Dev.key_of_coll hc
  have waited := Noted.waitEnds d c times.isSome
  have past := Ended.toPast (d.waitEnds c times.isSome) c
  have gone := (d.waitEnds c times.isSome).coll_toPast c k
  have there : ∃ x ∈ ((d.waitEnds c times.isSome).toPast c).fab.past, x.key = k ∧ x.done = true :=
    ⟨{ c with elems := [], done := true, seg := [] }, List.mem_append_right _ (List.mem_singleton_self _), key, rfl⟩
  have left : ((d.waitEnds c times.isSome).toPast c).fab.colls = d.fab.colls.filter (fun x => decide (x.key ≠ k)) := by
    rw [← key, ← waited.fab]
    rfl
  generalize (d.waitEnds c times.isSome).toPast c = e at past gone there left ⊢
  have counted : Noted e (e.bump COL c.engine 0 1) := .of_noise (.bump _ _ _ (by decide) _)
  generalize e.bump COL c.engine 0 1 = e' at counted ⊢
  have shown := Noted.showsEnd e' c (times.getD (d.draw.1, d.draw.2.draw.1))
  have after := counted.trans shown
  refine ⟨(Ended.of_noted waited).trans (past.trans (.of_noted after)), ?_, by rw [after.fab, left], by rw [after.fab]; exact there, ?_⟩
  · rw [Dev.coll, after.fab]
    rw [if_pos key.symm] at gone
    exact gone
  · intro direct x hx same
    have done : e'.showsEnd c (times.getD (d.draw.1, d.draw.2.draw.1)) = e'.complete x.cmd 0 0 := by
      unfold Dev.showsEnd
      split
      next kind => rw [Coll.isBucket, kind] at direct; cases direct
      next cmd _ => rw [cmd] at same; cases same; rfl
      next cmd _ => rw [cmd] at same; cases same
    rw [done, Dev.order_complete] at hx
    exact absurd rfl (of_decide_eq_true (List.mem_filter.1 hx).2)

theorem Ended.endColl (d : Dev) (k : CollKey) (times : Option (Nat × Nat)) : Ended d (d.endColl k times) := by
  cases hc : d.coll k with
  | none => rw [Dev.endColl, Dev.onColl, hc]; exact refl d
  | some c => exact (Dev.endColl_spec hc times).1

/-! ### Collectives that go on -/

/-- The homes of what collectives change. -/
def collectHome (k : Nat) : Prop := tradeHome k ∨ endHome k

theorem not_collectHome {f : Field} (hf : f.quiet = true) (hu : f.off ≠ 192 ∧ f.off ≠ 196)
    (hp : f.place ∉ [R.FLW_POOL_FREE_N.place, R.FLW_POOL_FREE_S.place] ++ endFields.map Field.place) (i : Nat) : ¬ collectHome (f.key i) := fun h =>
  h.elim (not_tradeHome hf hu (fun m => hp (List.mem_append_left _ m)) i) (not_endHome (fun m => hp (List.mem_append_right _ m)) i)

/-- Collectives may have gone on or left flight. -/
structure Collected (d t : Dev) : Prop where
  kept : t = { d with
    mem := t.mem, fields := t.fields, rasLog := t.rasLog, out := t.out, pci := t.pci, fresh := t.fresh, sow := t.sow
    nv := { d.nv with rowRemap := t.nv.rowRemap, bankSpares := t.nv.bankSpares, rowsUsed := t.nv.rowsUsed,
                      rowsUnspared := t.nv.rowsUnspared }
    ctl := { d.ctl with order := t.ctl.order, markHeld := t.ctl.markHeld }
    train := { d.train with finished := t.train.finished, votes := t.train.votes, ratio := t.train.ratio, agreed := t.train.agreed }
    fab := { d.fab with ports := t.fab.ports, flows := t.fab.flows, arrived := t.fab.arrived, unrouted := t.fab.unrouted,
                        colls := t.fab.colls, past := t.fab.past } }
  touches : Touches collectHome d t
  captured : Captured d t
  wf : d.mem.wf → t.mem.wf
  flows : ∀ f, FlowSent (d.flow f) (t.flow f)
  order : ∀ e ∈ t.ctl.order, e ∈ d.ctl.order

namespace Collected

variable {d e t : Dev}

theorem of_traded {K : CollKey → Prop} (h : Traded K d t) : Collected d t := by
  refine ⟨?_, h.touches.mono fun _ => .inl, h.captured, h.wf, h.flows, fun e he => by rw [← h.ctl]; exact he⟩
  have ctl := h.ctl
  have train := h.train
  have pci : t.pci = d.pci := by rw [h.kept]
  have fresh : t.fresh = d.fresh := by rw [h.kept]
  have kept := h.kept
  rw [ctl, train, pci, fresh]
  exact kept

theorem of_ended (h : Ended d t) : Collected d t := by
  have sow : t.sow = d.sow := by rw [h.kept]
  refine ⟨?_, h.touches.mono fun _ => .inr, .of_sow sow, fun w => by rw [h.mem]; exact w, fun f => ?_, h.order⟩
  · have kept := h.kept
    rw [kept]
  · rw [Dev.flow, Dev.flow, h.flows]
    exact .refl _

theorem of_noise (h : Noise d t) : Collected d t := of_traded (K := fun _ => True) (.of_noise h)

theorem refl (d : Dev) : Collected d d := of_noise (.refl d)

theorem trans (h : Collected d e) (g : Collected e t) : Collected d t := by
  refine ⟨?_, h.touches.trans g.touches, h.captured.trans g.captured, fun w => g.wf (h.wf w), fun f => (h.flows f).trans (g.flows f),
    fun x hx => h.order x (g.order x hx)⟩
  have kept := g.kept
  rw [h.kept] at kept
  exact kept

theorem ite {a b : Dev} {p : Prop} [Decidable p] (ha : Collected d a) (hb : Collected d b) : Collected d (if p then a else b) := by
  split
  · exact ha
  · exact hb

theorem foldl {α : Type} {f : Dev → α → Dev} (h : ∀ e x, Collected e (f e x)) (xs : List α) (d : Dev) : Collected d (xs.foldl f d) := by
  induction xs generalizing d with
  | nil => exact refl d
  | cons x xs ih => exact (h d x).trans (ih _)

theorem onColl {k : CollKey} {f : Coll → Dev} (h : ∀ c, d.coll k = some c → Collected d (f c)) : Collected d (d.onColl k f) := by
  unfold Dev.onColl
  split
  · next c hc => exact h c hc
  · exact refl d

theorem setColl (d : Dev) (c : Coll) : Collected d (d.setColl c) := ⟨rfl, .of_fields rfl, .of_sow rfl, id, fun _ => .refl _, fun _ h => h⟩

theorem checkColl (d : Dev) (k : CollKey) (times : Option (Nat × Nat)) : Collected d (d.checkColl k times) :=
  onColl fun _ _ => ite (of_ended (.endColl ..)) (refl d)

theorem checkData (d : Dev) (k : CollKey) : Collected d (d.checkData k) := onColl fun _ _ => ite (of_ended (.endColl ..)) (refl d)

theorem checkBar (d : Dev) (k : CollKey) : Collected d (d.checkBar k) := by
  refine onColl fun c _ => ?_
  extract_lets e
  have sent : Traded (fun _ => True) d e := .foldl (fun e r => .ite (.refl e) (.toRank e ..)) _ d
  exact ite ((of_traded sent).trans (of_ended (.endColl ..))) (refl d)

theorem afterColl (d : Dev) (k : CollKey) (times : Option (Nat × Nat)) : Collected d (d.afterColl k times) :=
  (((checkColl ..).trans (checkData ..)).trans (checkBar ..)).trans (of_traded (.poolFreed _))

/-- The other members get bytes. -/
theorem sendsData (d : Dev) (c : Coll) (flags : Nat) (bs : List Byte) : Collected d (c.others.foldl (fun d r => d.sendData c r flags bs) d) :=
  foldl (fun e r => of_traded (.sendData (K := fun _ => True) e c r flags bs)) _ d

/-- A member's own part of a result is written. -/
theorem writesOwn (d : Dev) (c : Coll) (written : List (Nat × Nat)) (a : Nat) (bs : List Byte) : Collected d ((d.dropOlder c written).write a bs) :=
  (of_traded (.dropOlder (K := fun _ => True) d c written)).trans (of_traded (.of_accessed (K := fun _ => True) (.write ..)))

theorem contribute (d : Dev) (k : CollKey) : Collected d (d.contribute k) := by
  refine onColl fun c _ => ?_
  extract_lets e
  have sent : Collected d e := setColl ..
  clear_value e
  refine sent.trans ?_
  split
  · exact ((of_traded (.sendExps (K := fun _ => True) trivial e _)).trans (of_traded (.renewInts (K := fun _ => True) trivial _))).trans (checkColl ..)
  · extract_lets bad e1 bs e2
    have shown : Collected e e1 := ite (of_noise (.setErr ..)) (refl e)
    exact ((shown.trans (sendsData e1 c _ bs)).trans (writesOwn ..)).trans (checkData ..)
  · refine ite ?_ (checkData ..)
    extract_lets bad e1 bs e2
    have shown : Collected e e1 := ite (of_noise (.setErr ..)) (refl e)
    exact ((shown.trans (sendsData e1 c _ bs)).trans (ite (refl e2) (writesOwn ..))).trans (checkData ..)
  · exact ite ((setColl ..).trans (checkBar ..)) (of_traded (.toRank (K := fun _ => True) ..))

theorem openGate (d : Dev) : Collected d d.openGate := ite (refl d) (foldl (fun e (c : Coll) => contribute e c.key) _ d)

/-- A field that no collective sets keeps its value. -/
theorem getF (h : Collected d t) {f : Field} (hq : f.quiet = true) (hu : f.off ≠ 192 ∧ f.off ≠ 196)
    (hp : f.place ∉ [R.FLW_POOL_FREE_N.place, R.FLW_POOL_FREE_S.place] ++ endFields.map Field.place) {i : Nat} (hi : i < 2048) :
    t.getF f i = d.getF f i := h.touches.getF hq hi (not_collectHome hq hu hp i)

theorem cells (h : Collected d t) : t.cells = d.cells := by rw [h.kept]
theorem noClose (h : Collected d t) : t.ctl.noClose = d.ctl.noClose := by rw [h.kept]

end Collected

/-! ### What keys name -/

/-- A key names at most what it named, in another state of its segments at most. -/
def NoneNew (d t : Dev) : Prop := ∀ k x, t.coll k = some x → ∃ c, d.coll k = some c ∧ x.shape = c.shape

namespace NoneNew

variable {d e t : Dev}

theorem of_traded {K : CollKey → Prop} (h : Traded K d t) : NoneNew d t := fun k x hx => by
  have shape := h.shapes k
  rw [hx] at shape
  obtain ⟨c, hc, same⟩ := Option.map_eq_some_iff.1 shape.symm
  exact ⟨c, hc, same.symm⟩

theorem of_ended (h : Ended d t) : NoneNew d t := fun k x hx => ⟨x, h.named k x hx, rfl⟩

theorem refl (d : Dev) : NoneNew d d := fun _ x hx => ⟨x, hx, rfl⟩

theorem trans (h : NoneNew d e) (g : NoneNew e t) : NoneNew d t := fun k x hx => by
  obtain ⟨y, hy, same⟩ := g k x hx
  obtain ⟨c, hc, same'⟩ := h k y hy
  exact ⟨c, hc, same.trans same'⟩

theorem ite {a b : Dev} {p : Prop} [Decidable p] (ha : NoneNew d a) (hb : NoneNew d b) : NoneNew d (if p then a else b) := by
  split
  · exact ha
  · exact hb

theorem onColl {k : CollKey} {f : Coll → Dev} (h : ∀ c, NoneNew d (f c)) : NoneNew d (d.onColl k f) := by
  unfold Dev.onColl
  split
  · exact h _
  · exact refl d

theorem checkBar (d : Dev) (k : CollKey) : NoneNew d (d.checkBar k) := by
  refine onColl fun c => ?_
  extract_lets e
  have sent : Traded (fun _ => True) d e := .foldl (fun e r => .ite (.refl e) (.toRank e ..)) _ d
  exact ite ((of_traded sent).trans (of_ended (.endColl ..))) (refl d)

theorem afterColl (d : Dev) (k : CollKey) (times : Option (Nat × Nat)) : NoneNew d (d.afterColl k times) := by
  have checked : NoneNew d (d.checkColl k times) := onColl fun _ => ite (of_ended (.endColl ..)) (refl d)
  have data (e : Dev) : NoneNew e (e.checkData k) := onColl fun _ => ite (of_ended (.endColl ..)) (refl e)
  exact ((checked.trans (data _)).trans (checkBar _ k)).trans (of_traded (.poolFreed _))

/-- A key that names nothing names nothing afterwards. -/
theorem none (h : NoneNew d t) {k : CollKey} (hk : d.coll k = .none) : t.coll k = .none := by
  cases hx : t.coll k with
  | none => rfl
  | some x =>
    obtain ⟨c, hc, -⟩ := h k x hx
    rw [hk] at hc
    cases hc

end NoneNew

end Sys2Proof.Machine
end

