-- ==== Sys2Proof/Proofs/Gathers.lean ====
section
/-! Obligation O35: the messages of gathers, broadcasts and barriers, early messages and long waits (R346, R347, R351). -/

namespace Sys2Proof.Machine

/-! ### Acknowledgements -/

/-- Command order and the error bits stay. -/
structure Unreported (d t : Dev) : Prop where
  ctl : t.ctl = d.ctl
  errs : ∀ c i b, b < 32 → d.errBit c i b = true → t.errBit c i b = true

namespace Unreported

variable {d e t : Dev}

theorem of_fields (hc : t.ctl = d.ctl) (hf : t.fields = d.fields) : Unreported d t :=
  ⟨hc, (Touches.of_fields (S := fun _ => False) hf).errs⟩

theorem refl (d : Dev) : Unreported d d := of_fields rfl rfl

theorem trans (h : Unreported d e) (g : Unreported e t) : Unreported d t :=
  ⟨g.ctl.trans h.ctl, fun c i b hb he => g.errs c i b hb (h.errs c i b hb he)⟩

theorem foldl {α : Type} {f : Dev → α → Dev} (h : ∀ e x, Unreported e (f e x)) (xs : List α) (d : Dev) : Unreported d (xs.foldl f d) := by
  induction xs generalizing d with
  | nil => exact refl d
  | cons x xs ih => exact (h d x).trans (ih _)

theorem freeBlocks (d : Dev) (o : FlowOp) : Unreported d (d.freeBlocks o) := by
  have place : (poolField o.cell).place ≠ 1024 := by
    unfold poolField
    split <;> decide
  unfold Dev.freeBlocks
  split
  · exact refl d
  · exact ⟨rfl, (Touches.setF (S := fun _ => True) d trivial place _).errs⟩

theorem remoteDone (d : Dev) (cell ch : Nat) : Unreported d (d.remoteDone cell ch) := by
  unfold Dev.remoteDone
  dsimp only
  split
  · exact of_fields rfl rfl
  · exact refl d

/-- An operation that ends without a trap and without a halt. -/
theorem endOp (d : Dev) (f : Nat) (o : FlowOp) (addr : Nat) {code : Nat} (h : code ≠ 1 ∧ code ≠ 2) : Unreported d (d.endOp f o addr code) := by
  have first : Unreported d (d.setFlow f ((d.flow f).without o)) := of_fields rfl rfl
  have noted (e : Dev) : Unreported e (e.noteCode (o.tag, code)) := of_fields rfl rfl
  have gone : Unreported d (d.forgotten f o code) := (first.trans (freeBlocks _ o)).trans (noted _)
  rw [Dev.endOp_eq]
  rcases (d.forgotten f o code).issuerDone_quiet o addr h with e | e
  · rw [e]; exact gone
  · rw [e]; exact gone.trans (remoteDone ..)

end Unreported

/-- An acknowledgement leaves the collectives, command order and what has been reported. -/
theorem Dev.takeAck_kept (d : Dev) (f a : Nat) :
    let t := d.takeAck f a
    Unreported d t ∧ t.fab.colls = d.fab.colls ∧ (t.flow f).rxSeq = (d.flow f).rxSeq := by
  by_cases h : seqDiff a (d.flow f).txAcked ≤ 0 ∨ seqDiff (d.flow f).txSeq a < 0
  · rw [show d.takeAck f a = d from if_pos h]
    exact ⟨.refl d, rfl, rfl⟩
  · have acked : 0 < seqDiff a (d.flow f).txAcked := by omega
    have sent : 0 ≤ seqDiff (d.flow f).txSeq a := by omega
    obtain ⟨-, -, rxSeq, -, -⟩ := d.takeAck_spec acked sent
    refine ⟨?_, ?_, rxSeq⟩
    · rw [d.takeAck_new acked sent]
      have first : Unreported d (d.setFlow f ((d.flow f).acked a)) := .of_fields rfl rfl
      have ended (e : Dev) : Unreported e (((d.flow f).ackedOps a).foldl (fun d o => d.endOp f o 0 0) e) :=
        .foldl (fun e o => .endOp e f o 0 (by decide)) _ e
      have pumped (e : Dev) : Unreported e e.pumpAll := ⟨(Sent.pumpAll e).ctl, (Sent.pumpAll e).touches.errs⟩
      exact (first.trans (ended _)).trans (pumped _)
    · rw [d.takeAck_new acked sent]
      have ended (e : Dev) : OpsEnded f e (((d.flow f).ackedOps a).foldl (fun d o => d.endOp f o 0 0) e) := .foldl (fun e o => .endOp e o 0 0) _ e
      exact (Sent.pumpAll _).colls.trans (ended _).colls

end Sys2Proof.Machine

namespace Sys2Proof

open Machine

variable {s : State} {p : Packet} {c : Coll}

/-- The device that has performed the message of a collective in flight. -/
def Machine.Dev.performed (d : Dev) (c : Coll) (p : Packet) : Dev := ((d.takes p).handleColl c p).afterColl c.key none

theorem Machine.Dev.coll_takes (d : Dev) (p : Packet) (k : CollKey) : (d.takes p).coll k = d.coll k := by
  rw [Dev.coll, Dev.coll, (Taken.takes d p).colls]

theorem Machine.Dev.performColl_eq {d : Dev} (hc : d.coll (packetKey p) = some c) (times : Option (Nat × Nat)) :
    (d.takes p).performColl p times = ((d.takes p).handleColl c p).afterColl c.key times := by
  have found := d.coll_takes p (packetKey p)
  rw [hc] at found
  rw [Dev.performColl, found, Dev.key_of_coll hc]

/-- A message that reaches its collective is performed; then its acknowledgement counts. -/
theorem collArrive_of_reaches (h : Reaches s p c) {opc : Nat} (ho : p.opc = opc) :
    s.dev.collArrive opc p none = (s.dev.performed c p).takeAck p.dstFlow p.ack := by
  obtain ⟨order, -, coll, -, -⟩ := h
  have parks : s.dev.parks p = false := by
    unfold Dev.parks
    rw [coll]
    simp
  rw [Dev.collArrive, if_neg (not_not_intro ho), parks, if_neg (by simp), Dev.arrive_inOrder order, Dev.performColl_eq coll]
  rfl

/-- What a collective's message leaves, as far as collectives have gone on or left flight. -/
theorem answers_of_reaches {i : Instr} (h : Reaches s p c) {opc : Nat} (ho : p.opc = opc)
    (he : exec i s = s.onDev (fun d => (d.collArrive opc p none).settle)) (hc : Collected (s.dev.takes p) (s.dev.performed c p))
    {post : Dev → Prop} (hp : ∀ t : Dev, Performed s p t → t.fab.colls = (s.dev.performed c p).fab.colls → t.ctl = (s.dev.performed c p).ctl →
      (∀ k i b, b < 32 → (s.dev.performed c p).errBit k i b = true → t.errBit k i b = true) → post t) : Answers i s post := by
  have up := h.1.1
  have held := h.2.1
  obtain ⟨kept, colls, rxSeq⟩ := (s.dev.performed c p).takeAck_kept p.dstFlow p.ack
  have settled : ((s.dev.performed c p).takeAck p.dstFlow p.ack).settle = (s.dev.performed c p).takeAck p.dstFlow p.ack :=
    Dev.settle_of_nothing_held fun e he => held e (by
      rw [kept.ctl] at he
      have there := hc.order e he
      rwa [(Taken.takes s.dev p).ctl] at there)
  refine .of_onDev (fun d => (d.collArrive opc p none).settle) he up ?_
  rw [collArrive_of_reaches h ho, settled]
  refine hp _ ?_ colls kept.ctl kept.errs
  rw [Performed, rxSeq, (hc.flows p.dstFlow).rxSeq, Dev.flow_takes]
  rfl

/-! ### What a message does -/

/-- The bytes of a message are counted on its collective's engine. -/
def Machine.Dev.counts (d : Dev) (c : Coll) (p : Packet) : Dev := d.bump COL c.engine 3 p.payload.length

/-- The address at which the bytes of rank r go on once n of them are there. -/
def Machine.Coll.placeOf (c : Coll) (r n : Nat) : Nat :=
  match c.kind with
  | .allGather _ dst len => dst + r * len + n
  | .broadcast _ dst _ _ => dst + n
  | _ => 0

/-- The address at which the bytes of a message go. -/
def Machine.Coll.nextPlace (c : Coll) (p : Packet) : Nat := c.placeOf (packetRank p) (mget 0 c.got (packetRank p))

/-- The bytes of a message that its collective still expects. -/
def Machine.Coll.expected (c : Coll) (p : Packet) : List Byte := p.payload.take (c.expects (packetRank p) - mget 0 c.got (packetRank p))

/-- The collective that has counted the bytes of a message. -/
def Machine.Coll.gotMore (c : Coll) (p : Packet) : Coll :=
  { c with got := mput (packetRank p) (mget 0 c.got (packetRank p) + (c.expected p).length) c.got }

/-- Bytes are written at their rank's place. -/
def Machine.Dev.placesData (d : Dev) (c : Coll) (p : Packet) : Dev :=
  let d := if bitOf p.flags 0 then d.setErr COL c.engine 20 else d
  (d.dropOlder c [(c.nextPlace p, (c.expected p).length)]).write (c.nextPlace p) (c.expected p)

theorem Machine.Dev.mismatched_takes (d : Dev) (c c' : Coll) (p q : Packet) : ((d.takes q).counts c' p).mismatched c p = d.mismatched c p := by
  have code : ((d.takes q).counts c' p).bucketCode = d.bucketCode :=
    ((Noise.bump _ _ _ (by decide) _).getF (by decide) (by decide)).trans ((Taken.takes d q).getF (by decide) (by decide) (by decide))
  unfold Dev.mismatched
  rw [code]

/-- The messages of rank r are counted, and the message belongs to its collective. -/
theorem Machine.Dev.handleColl_counts {d : Dev} (hf : c.from? p = true) (hm : (d.counts c p).mismatched c p = false) :
    (p.opc = 0x24 → d.handleColl c p = ((d.counts c p).placesData c p).setColl (c.gotMore p))
    ∧ (p.opc = 0x25 → c.kind = .barrier → c.rank = 0 → d.handleColl c p =
      if c.barSeen.contains (packetRank p) then (d.counts c p).bump COL c.engine 4 1
      else (d.counts c p).setColl { c with barSeen := insertSet (packetRank p) c.barSeen })
    ∧ (p.opc = 0x26 → c.kind = .barrier → c.rank ≠ 0 → packetRank p = 0 → d.handleColl c p = (d.counts c p).endColl c.key none) := by
  have counted : d.bump COL c.engine 3 p.payload.length = d.counts c p := rfl
  unfold Dev.handleColl
  dsimp only
  rw [counted, hf, hm]
  refine ⟨fun ho => ?_, fun ho kind rank => ?_, fun ho kind rank from0 => ?_⟩
  · rw [ho]
    rfl
  · rw [ho]
    exact if_pos (show c.rank = 0 ∧ c.kind = .barrier from ⟨rank, kind⟩)
  · rw [ho]
    exact if_pos (show c.kind = .barrier ∧ c.rank ≠ 0 ∧ packetRank p = 0 from ⟨kind, rank, from0⟩)

/-- The message of a collective in flight is counted before it acts. -/
def Machine.Dev.hears (d : Dev) (c : Coll) (p : Packet) : Dev := (d.takes p).counts c p

theorem Machine.Collected.hears (d : Dev) (c : Coll) (p : Packet) : Collected (d.takes p) (d.hears c p) := .of_noise (.bump _ _ _ (by decide) _)

theorem Machine.Dev.coll_hears (d : Dev) (c : Coll) (p : Packet) (k : CollKey) : (d.hears c p).coll k = d.coll k := d.coll_takes p k

theorem Machine.Dev.colls_hears (d : Dev) (c : Coll) (p : Packet) : (d.hears c p).fab.colls = d.fab.colls := (Taken.takes d p).colls

theorem Machine.Alike.hears (d : Dev) (c : Coll) (p : Packet) : Alike d (d.hears c p) :=
  (Taken.takes d p).alike.trans (.of_noise (.bump _ _ _ (by decide) _))

/-! ### Bytes -/

/-- What the bytes of a message leave. -/
theorem Machine.Dev.placesData_spec (d : Dev) (c : Coll) (p : Packet) :
    let t := d.placesData c p
    Traded (fun _ => False) d t ∧ t.mem = (d.write (c.nextPlace p) (c.expected p)).mem ∧ (bitOf p.flags 0 = true → t.errBit COL c.engine 20 = true) := by
  unfold Dev.placesData
  extract_lets e t
  have shown : Traded (fun _ => False) d e := .of_noise (.ite (.setErr ..) (.refl d))
  have alike : Alike d e := .of_noise (.ite (.setErr ..) (.refl d))
  have flag : bitOf p.flags 0 = true → e.errBit COL c.engine 20 = true := fun hb => by
    rw [show e = d.setErr COL c.engine 20 from if_pos hb]
    exact Noise.errBit_setErr _ _ _ (by decide)
  clear_value e
  have dropped : Traded (fun _ => False) e (e.dropOlder c [(c.nextPlace p, (c.expected p).length)]) := .dropOlder ..
  have alike' : Alike e (e.dropOlder c [(c.nextPlace p, (c.expected p).length)]) := ⟨rfl, rfl, rfl, fun _ _ => rfl⟩
  have ht : t = (e.dropOlder c [(c.nextPlace p, (c.expected p).length)]).write (c.nextPlace p) (c.expected p) := rfl
  clear_value t
  subst ht
  generalize e.dropOlder c [(c.nextPlace p, (c.expected p).length)] = e' at dropped alike' ⊢
  have written : Traded (fun _ => False) e' (e'.write (c.nextPlace p) (c.expected p)) := .of_accessed (.write ..)
  exact ⟨(shown.trans dropped).trans written, (((alike.trans alike').write (c.nextPlace p) (c.expected p)).mem).symm,
    fun hb => (dropped.trans written).touches.errs _ _ _ (by decide) (flag hb)⟩

theorem Machine.Dev.coll_placesData (d : Dev) (c : Coll) (p : Packet) (k : CollKey) : (d.placesData c p).coll k = d.coll k :=
  (d.placesData_spec c p).1.others k (fun h => h)

/-- Bytes have been counted. -/
def Machine.Dev.takesData (d : Dev) (c : Coll) (p : Packet) : Dev := ((d.hears c p).placesData c p).setColl (c.gotMore p)

theorem Machine.Collected.takesData (d : Dev) (c : Coll) (p : Packet) : Collected (d.takes p) (d.takesData c p) :=
  ((Collected.hears d c p).trans (.of_traded ((d.hears c p).placesData_spec c p).1)).trans (.setColl ..)

theorem Machine.Dev.coll_takesData {d : Dev} (hc : d.coll (packetKey p) = some c) : (d.takesData c p).coll c.key = some (c.gotMore p) := by
  have key : c.key = packetKey p := Dev.key_of_coll hc
  refine Dev.coll_setColl_same (c := c.gotMore p) (x := c) ?_
  show ((d.hears c p).placesData c p).coll c.key = some c
  rw [Dev.coll_placesData, Dev.coll_hears, key, hc]

/-! ### Clauses on any collective that a message reaches -/

theorem belongs_of_reaches (h : Reaches s p c) : c.from? p = true ∧ ((s.dev.takes p).counts c p).mismatched c p = false := by
  obtain ⟨-, -, -, sender, match'⟩ := h
  exact ⟨sender, by rw [Dev.mismatched_takes]; exact match'⟩

/-- R351: bytes are counted, and poison shows. -/
theorem answers_cData (h : Reaches s p c) (ho : p.opc = 0x24) : Answers (.cData p) s fun t =>
    Performed s p t ∧ (bitOf p.flags 0 = true → t.errBit COL c.engine 20 = true)
      ∧ ∀ c', t.coll c.key = some c' → mget 0 c'.got (packetRank p)
          = mget 0 c.got (packetRank p) + min p.payload.length (c.expects (packetRank p) - mget 0 c.got (packetRank p)) := by
  obtain ⟨sender, same⟩ := belongs_of_reaches h
  have done : s.dev.performed c p = (s.dev.takesData c p).afterColl c.key none := by
    rw [Dev.performed, (Dev.handleColl_counts sender same).1 ho]
    rfl
  have after := Collected.afterColl (s.dev.takesData c p) c.key none
  have whole := (Collected.takesData s.dev c p).trans after
  rw [← done] at after whole
  refine answers_of_reaches h ho rfl whole fun t performed colls ctl errs => ⟨performed, fun hb => ?_, fun c' hc' => ?_⟩
  · refine errs _ _ _ (by decide) (after.touches.errs _ _ _ (by decide) ?_)
    exact ((s.dev.hears c p).placesData_spec c p).2.2 hb
  · rw [Dev.coll, colls, done] at hc'
    obtain ⟨x, hx, shape⟩ := NoneNew.afterColl (s.dev.takesData c p) c.key none c.key c' hc'
    rw [Dev.coll_takesData h.2.2.1] at hx
    cases hx
    have got : c'.got = (c.gotMore p).got := (congrArg Coll.got shape :)
    rw [got, Coll.gotMore, mget_mput_same, Coll.expected, List.length_take, Nat.min_comm]

/-- A collective is no longer in flight, and its command has left command order. -/
def Gone (c : Coll) (t : Dev) : Prop := t.coll c.key = none ∧ ∀ e ∈ t.ctl.order, c.cmd ≠ some e.cmd

theorem Gone.of_ended {d : Dev} {c x : Coll} (hc : d.coll c.key = some x) (hx : x.cmd = c.cmd) (hb : x.isBucket = false) (times : Option (Nat × Nat)) :
    Gone c (d.endColl c.key times) := by
  obtain ⟨-, none, -, -, order⟩ := Dev.endColl_spec hc times
  exact ⟨none, fun e he => hx ▸ order hb e he⟩

theorem Gone.mono {d t : Dev} (h : Gone c d) (hc : Collected d t) (hn : NoneNew d t) : Gone c t :=
  ⟨hn.none h.1, fun e he => h.2 e (hc.order e he)⟩

theorem not_bucket_of_barrier (h : c.kind = .barrier) : c.isBucket = false := by
  rw [Coll.isBucket, h]

/-- Rank 0 of a barrier to which everyone has come ends it. -/
theorem Gone.of_checkBar {d : Dev} {x : Coll} (hc : d.coll c.key = some x) (hx : x.cmd = c.cmd) (kind : x.kind = .barrier) (rank : x.rank = 0)
    (all : x.barSeen.length = x.n) : Gone c (d.checkBar c.key) := by
  rw [Dev.checkBar, Dev.onColl, hc]
  dsimp only
  rw [if_pos ⟨rank, all, kind⟩]
  have sent : Sent d ((List.range x.n).foldl (fun d r => if r = 0 then d else d.toRank x r (x.packet 0x26 0 0 0 [])) d) :=
    .foldl (fun e r => .ite (.refl e) ((Sent.of_noise (.bump _ _ _ (by decide) _)).trans (.sendOn ..))) _ d
  exact .of_ended (by rw [sent.coll]; exact hc) hx (not_bucket_of_barrier kind) none

/-- A barrier that its rank 0 has complete ends at the end of the message. -/
theorem Gone.of_afterColl {d : Dev} {x : Coll} (hc : d.coll c.key = some x) (hx : x.cmd = c.cmd) (kind : x.kind = .barrier) (rank : x.rank = 0)
    (all : x.barSeen.length = x.n) : Gone c (d.afterColl c.key none) := by
  have freed (e : Dev) (h : Gone c e) : Gone c e.poolFreed := h.mono (.of_traded (.poolFreed e)) (.of_traded (.poolFreed e))
  have bar (e : Dev) (h : Gone c e) : Gone c (e.checkBar c.key) := h.mono (.checkBar ..) (NoneNew.checkBar e c.key)
  have data (e : Dev) (h : Gone c e) : Gone c (e.checkData c.key) := by
    rw [Dev.checkData, Dev.onColl, h.1]
    exact h
  unfold Dev.afterColl
  refine freed _ ?_
  by_cases complete : x.complete
  · refine bar _ (data _ ?_)
    rw [Dev.checkColl, Dev.onColl, hc]
    dsimp only
    rw [if_pos complete]
    exact .of_ended hc hx (not_bucket_of_barrier kind) none
  · have unmoved : d.checkColl c.key none = d := by
      rw [Dev.checkColl, Dev.onColl, hc]
      exact if_neg complete
    have undone : d.checkData c.key = d := by
      rw [Dev.checkData, Dev.onColl, hc]
      exact if_neg (by simp [Coll.dataDone, kind])
    rw [unmoved, undone]
    exact .of_checkBar hc hx kind rank all

theorem length_insertSet {r : Nat} {xs : List Nat} (h : r ∉ xs) : (insertSet r xs).length = xs.length + 1 := by
  induction xs with
  | nil => rfl
  | cons x xs ih =>
    rw [List.mem_cons, not_or] at h
    rw [insertSet]
    split
    · rfl
    · rw [if_neg h.1, List.length_cons, List.length_cons, ih h.2]

/-- The ranks that have come to a barrier with a message's. -/
def Machine.Coll.joined (c : Coll) (p : Packet) : Coll := { c with barSeen := insertSet (packetRank p) c.barSeen }

/-- A rank has come to a barrier. -/
def Machine.Dev.takesBar (d : Dev) (c : Coll) (p : Packet) : Dev :=
  if c.barSeen.contains (packetRank p) then (d.hears c p).bump COL c.engine 4 1 else (d.hears c p).setColl (c.joined p)

theorem Machine.Collected.takesBar (d : Dev) (c : Coll) (p : Packet) : Collected (d.takes p) (d.takesBar c p) :=
  (Collected.hears d c p).trans (ite (.of_noise (.bump _ _ _ (by decide) _)) (.setColl ..))

theorem Machine.Dev.coll_takesBar {d : Dev} (hc : d.coll (packetKey p) = some c) :
    (packetRank p ∈ c.barSeen → (d.takesBar c p).coll c.key = some c)
    ∧ (packetRank p ∉ c.barSeen → (d.takesBar c p).coll c.key = some (c.joined p)) := by
  have key : c.key = packetKey p := Dev.key_of_coll hc
  have here : (d.hears c p).coll c.key = some c := by rw [Dev.coll_hears, key, hc]
  unfold Dev.takesBar
  refine ⟨fun there => ?_, fun new => ?_⟩
  · rw [if_pos (by simpa using there), Dev.coll, (Noise.bump _ _ _ (by decide) _).reports.fab]
    exact here
  · rw [if_neg (by simpa using new)]
    exact Dev.coll_setColl_same (c := c.joined p) here

/-- R351: rank 0 notes who has come to a barrier, and the last one ends it. -/
theorem answers_cBar (h : Reaches s p c) (ho : p.opc = 0x25) (kind : c.kind = .barrier) (rank : c.rank = 0) : Answers (.cBar p) s fun t =>
    Performed s p t ∧ (∀ c', t.coll c.key = some c' → packetRank p ∈ c'.barSeen)
      ∧ (packetRank p ∉ c.barSeen → c.barSeen.length + 1 = c.n → t.coll c.key = none ∧ ∀ e ∈ t.ctl.order, c.cmd ≠ some e.cmd) := by
  obtain ⟨sender, same⟩ := belongs_of_reaches h
  have done : s.dev.performed c p = (s.dev.takesBar c p).afterColl c.key none := by
    rw [Dev.performed, (Dev.handleColl_counts sender same).2.1 ho kind rank]
    rfl
  obtain ⟨there, new⟩ := Dev.coll_takesBar h.2.2.1
  have whole := (Collected.takesBar s.dev c p).trans (.afterColl (s.dev.takesBar c p) c.key none)
  rw [← done] at whole
  refine answers_of_reaches h ho rfl whole fun t performed colls ctl errs => ⟨performed, fun c' hc' => ?_, fun fresh last => ?_⟩
  · rw [Dev.coll, colls, done] at hc'
    obtain ⟨x, hx, shape⟩ := NoneNew.afterColl (s.dev.takesBar c p) c.key none c.key c' hc'
    have seen : c'.barSeen = x.barSeen := (congrArg Coll.barSeen shape :)
    rw [seen]
    by_cases known : packetRank p ∈ c.barSeen
    · rw [there known] at hx
      cases hx
      exact known
    · rw [new known] at hx
      cases hx
      exact mem_insertSet_iff.2 (.inl rfl)
  · have gone : Gone c (s.dev.performed c p) := done ▸ Gone.of_afterColl (new fresh) rfl kind rank ((length_insertSet fresh).trans last)
    rw [Dev.coll, colls, ctl]
    exact gone

/-- R351: the release ends a barrier. -/
theorem answers_cBarRel (h : Reaches s p c) (ho : p.opc = 0x26) (kind : c.kind = .barrier) (rank : c.rank ≠ 0) (from0 : packetRank p = 0) :
    Answers (.cBarRel p) s fun t => Performed s p t ∧ t.coll c.key = none ∧ ∀ e ∈ t.ctl.order, c.cmd ≠ some e.cmd := by
  obtain ⟨sender, same⟩ := belongs_of_reaches h
  have done : s.dev.performed c p = ((s.dev.hears c p).endColl c.key none).afterColl c.key none := by
    rw [Dev.performed, (Dev.handleColl_counts sender same).2.2 ho kind rank from0]
    rfl
  have key : c.key = packetKey p := Dev.key_of_coll h.2.2.1
  have here : (s.dev.hears c p).coll c.key = some c := by rw [Dev.coll_hears, key, h.2.2.1]
  have gone := Gone.of_ended here rfl (not_bucket_of_barrier kind) none
  have after := Collected.afterColl ((s.dev.hears c p).endColl c.key none) c.key none
  have whole := ((Collected.hears s.dev c p).trans (.of_ended (.endColl _ c.key none))).trans after
  have gone' := gone.mono after (NoneNew.afterColl _ c.key none)
  rw [← done] at whole gone'
  refine answers_of_reaches h ho rfl whole fun t performed colls ctl errs => ⟨performed, ?_⟩
  rw [Dev.coll, colls, ctl]
  exact gone'

end Sys2Proof
end

