-- ==== Sys2Proof/Proofs/Meetings.lean ====
section
/-! Obligation O35, continued: the one collective in flight, messages that park, and waits. -/

namespace Sys2Proof

open Machine

variable {s : State} {p : Packet} {c : Coll}

/-! ### The one collective in flight -/

theorem reaches_of_meets (h : Meets s p c) : Reaches s p c := by
  obtain ⟨order, held, colls, key, sender, same, -⟩ := h
  refine ⟨inOrder_of_inSequence order, held, ?_, sender, same⟩
  rw [Dev.coll, colls, key]
  simp

/-- A message that acknowledges nothing new does nothing but what its collective does with it. -/
theorem answers_of_meets {i : Instr} (h : Meets s p c) {opc : Nat} (ho : p.opc = opc)
    (he : exec i s = s.onDev (fun d => (d.collArrive opc p none).settle)) (hc : Collected (s.dev.takes p) (s.dev.performed c p))
    {post : Dev → Prop} (hp : post (s.dev.performed c p)) : Answers i s post := by
  have reach := reaches_of_meets h
  obtain ⟨⟨up, -, -, -, -, ack⟩, held, -⟩ := h
  have old : (s.dev.performed c p).takeAck p.dstFlow p.ack = s.dev.performed c p :=
    Dev.takeAck_old _ (by rw [(hc.flows p.dstFlow).txAcked, Dev.flow_takes]; exact ack)
  have settled : (s.dev.performed c p).settle = s.dev.performed c p := Dev.settle_of_nothing_held fun e he => held e (by
    have there := hc.order e he
    rwa [(Taken.takes s.dev p).ctl] at there)
  refine .of_onDev (fun d => (d.collArrive opc p none).settle) he up ?_
  rw [collArrive_of_reaches reach ho, old, settled]
  exact hp

/-- What a message leaves behind on a collective that is no bucket and no complete barrier. -/
theorem Machine.Dev.afterColl_direct {d : Dev} {k : CollKey} {x : Coll} (hc : d.coll k = some x) (hh : x.hdrRes = none)
    (hb : ¬ (x.rank = 0 ∧ x.barSeen.length = x.n ∧ x.kind = .barrier)) : d.afterColl k none = (d.checkData k).poolFreed := by
  have unmoved : d.checkColl k none = d := by
    rw [Dev.checkColl, Dev.onColl, hc]
    exact if_neg (by simp [Coll.complete, hh])
  have unreleased : (d.checkData k).checkBar k = d.checkData k := by
    by_cases done : (x.dataDone && !x.isBucket) = true
    · have ended : d.checkData k = d.endColl k none := by
        rw [Dev.checkData, Dev.onColl, hc]
        exact if_pos done
      obtain ⟨-, none, -⟩ := Dev.endColl_spec hc none
      rw [ended, Dev.checkBar, Dev.onColl, none]
    · have going : d.checkData k = d := by
        rw [Dev.checkData, Dev.onColl, hc]
        exact if_neg done
      rw [going, Dev.checkBar, Dev.onColl, hc]
      exact if_neg hb
  rw [Dev.afterColl, unmoved, unreleased]

theorem Machine.Ended.checkData (d : Dev) (k : CollKey) : Ended d (d.checkData k) := by
  unfold Dev.checkData Dev.onColl
  split
  · exact ite (.endColl ..) (.refl d)
  · exact .refl d

theorem Machine.Dev.colls_placesData (d : Dev) (c : Coll) (p : Packet) : (d.placesData c p).fab.colls = d.fab.colls := by
  unfold Dev.placesData
  extract_lets e
  have shown : e.fab = d.fab := (Noise.ite (.setErr ..) (.refl d)).reports.fab
  clear_value e
  rw [(MemOnly.write ..).colls, ← shown]
  rfl

theorem Machine.Dev.colls_takesData (h : s.dev.fab.colls = [c]) : (s.dev.takesData c p).fab.colls = [c.gotMore p] := by
  have before : ((s.dev.hears c p).placesData c p).fab.colls = [c] := by rw [Dev.colls_placesData, Dev.colls_hears, h]
  unfold Dev.takesData Dev.setColl
  dsimp only
  rw [before, List.map_singleton]
  exact congrArg (fun x => [x]) (if_pos rfl)

/-- The bytes of a gather or a broadcast. -/
theorem performed_data (h : Meets s p c) (ho : p.opc = 0x24) (nb : c.isBucket = false) (nbar : c.kind ≠ .barrier) :
    (s.dev.performed c p).mem = (s.dev.write (c.nextPlace p) (c.expected p)).mem ∧ (s.dev.performed c p).cells = s.dev.cells
      ∧ Collected (s.dev.takes p) (s.dev.performed c p) ∧ (bitOf p.flags 0 = true → (s.dev.performed c p).errBit COL c.engine 20 = true) := by
  have reach := reaches_of_meets h
  obtain ⟨sender, same⟩ := belongs_of_reaches reach
  obtain ⟨-, -, colls, -, -, -, -, -, -, -, -, hdr⟩ := h
  obtain ⟨placed, mem, flag⟩ := (s.dev.hears c p).placesData_spec c p
  have done : s.dev.performed c p = ((s.dev.takesData c p).checkData c.key).poolFreed := by
    rw [Dev.performed, (Dev.handleColl_counts sender same).1 ho]
    exact Dev.afterColl_direct (Dev.coll_takesData reach.2.2.1) hdr fun all => nbar all.2.2
  have ended := Ended.checkData (s.dev.takesData c p) c.key
  have freed : Sent ((s.dev.takesData c p).checkData c.key) (s.dev.performed c p) := done ▸ Sent.poolFreed fun y hy => by
    have there := ended.colls y hy
    rw [Dev.colls_takesData colls, List.mem_singleton] at there
    rw [there]
    exact nb
  have after : Collected (s.dev.takesData c p) (s.dev.performed c p) := (Collected.of_ended ended).trans (.of_traded (K := fun _ => True) (.of_sent freed))
  have whole := (Collected.takesData s.dev c p).trans after
  refine ⟨?_, whole.cells.trans (Taken.takes s.dev p).cells, whole, fun hb => after.touches.errs _ _ _ (by decide) (flag hb)⟩
  rw [freed.mem, ended.mem]
  exact mem.trans ((Alike.hears s.dev c p).write _ _).mem.symm

/-- R351: bytes of the root reach the destination of a broadcast. -/
theorem answers_broadcast_data (h : Meets s p c) (ho : p.opc = 0x24) {src dst len root : Nat} (kind : c.kind = .broadcast src dst len root)
    (r : packetRank p = root) : Answers (.cData p) s fun t =>
      t.mem = (s.dev.write (dst + mget 0 c.got (packetRank p)) (p.payload.take (len - mget 0 c.got (packetRank p)))).mem ∧ t.cells = s.dev.cells := by
  obtain ⟨mem, cells, whole, -⟩ := performed_data h ho (by rw [Coll.isBucket, kind]) (by rw [kind]; exact fun h => by cases h)
  obtain ⟨-, -, -, -, -, -, -, -, -, other, -⟩ := id h
  have place : c.nextPlace p = dst + mget 0 c.got (packetRank p) := by
    rw [Coll.nextPlace, Coll.placeOf, kind]
  have bytes : c.expected p = p.payload.take (len - mget 0 c.got (packetRank p)) := by
    rw [Coll.expected, Coll.expects, kind]
    dsimp only
    rw [if_pos ⟨r, fun e => other (r.trans e.symm)⟩]
  rw [place, bytes] at mem
  exact answers_of_meets h ho rfl whole ⟨mem, cells⟩

/-- R351: bytes of a gather go to their rank's place. -/
theorem answers_gather_data (h : Meets s p c) (ho : p.opc = 0x24) {src dst len : Nat} (kind : c.kind = .allGather src dst len) :
    Answers (.cData p) s fun t =>
      t.mem = (s.dev.write (dst + packetRank p * len + mget 0 c.got (packetRank p)) (p.payload.take (len - mget 0 c.got (packetRank p)))).mem
        ∧ t.cells = s.dev.cells ∧ (bitOf p.flags 0 = true → t.errBit COL c.engine 20 = true) := by
  obtain ⟨mem, cells, whole, flag⟩ := performed_data h ho (by rw [Coll.isBucket, kind]) (by rw [kind]; exact fun h => by cases h)
  obtain ⟨-, -, -, -, -, -, -, -, -, other, -⟩ := id h
  have place : c.nextPlace p = dst + packetRank p * len + mget 0 c.got (packetRank p) := by
    rw [Coll.nextPlace, Coll.placeOf, kind]
  have bytes : c.expected p = p.payload.take (len - mget 0 c.got (packetRank p)) := by
    rw [Coll.expected, Coll.expects, kind]
    dsimp only
    rw [if_neg other]
  rw [place, bytes] at mem
  exact answers_of_meets h ho rfl whole ⟨mem, cells, flag⟩

/-- R351: rank 0 of a barrier waits for the others. -/
theorem answers_barrier_waits (h : Meets s p c) (ho : p.opc = 0x25) (kind : c.kind = .barrier) (rank : c.rank = 0)
    (fresh : packetRank p ∉ c.barSeen) (few : c.barSeen.length + 1 < c.n) : Answers (.cBar p) s fun t =>
      t.coll c.key = some { c with barSeen := insertSet (packetRank p) c.barSeen } ∧ t.mem = s.dev.mem := by
  have reach := reaches_of_meets h
  obtain ⟨sender, same⟩ := belongs_of_reaches reach
  obtain ⟨-, -, colls, -, -, -, -, -, -, -, -, hdr⟩ := id h
  have here := (Dev.coll_takesBar reach.2.2.1).2 fresh
  have took : s.dev.takesBar c p = (s.dev.hears c p).setColl (c.joined p) := if_neg (by simpa using fresh)
  have going : (s.dev.takesBar c p).checkData c.key = s.dev.takesBar c p := by
    rw [Dev.checkData, Dev.onColl, here]
    exact if_neg (by simp [Coll.dataDone, Coll.joined, kind])
  have more : (c.joined p).barSeen.length ≠ (c.joined p).n := by
    show (insertSet (packetRank p) c.barSeen).length ≠ c.n
    rw [length_insertSet fresh]
    omega
  have done : s.dev.performed c p = (s.dev.takesBar c p).poolFreed := by
    rw [Dev.performed, (Dev.handleColl_counts sender same).2.1 ho kind rank]
    refine (Dev.afterColl_direct here hdr fun all => more all.2.1).trans ?_
    rw [going]
  have only : (s.dev.takesBar c p).fab.colls = [c.joined p] := by
    rw [took, Dev.setColl]
    dsimp only
    rw [Dev.colls_hears, colls, List.map_singleton]
    exact congrArg (fun x => [x]) (if_pos rfl)
  have freed : Sent (s.dev.takesBar c p) (s.dev.performed c p) := done ▸ Sent.poolFreed fun y hy => by
    rw [only, List.mem_singleton] at hy
    rw [hy]
    exact not_bucket_of_barrier kind
  have whole := (Collected.takesBar s.dev c p).trans (.of_traded (K := fun _ => True) (.of_sent freed))
  refine answers_of_meets h ho rfl whole ⟨by rw [freed.coll]; exact here, ?_⟩
  rw [freed.mem, took]
  exact (Alike.hears s.dev c p).mem.symm

/-- R351: the release ends the one barrier in flight. -/
theorem answers_barrier_ends (h : Meets s p c) (ho : p.opc = 0x26) (kind : c.kind = .barrier) (rank : c.rank ≠ 0) (from0 : packetRank p = 0)
    {j : JobCmd} (cmd : c.cmd = some j) : Answers (.cBarRel p) s fun t => t.fab.colls = [] ∧ (∀ e ∈ t.ctl.order, e.cmd ≠ j)
      ∧ (∃ x ∈ t.fab.past, x.key = c.key ∧ x.done = true) ∧ t.mem = s.dev.mem := by
  have reach := reaches_of_meets h
  obtain ⟨sender, same⟩ := belongs_of_reaches reach
  obtain ⟨-, -, colls, key, -⟩ := id h
  have here : (s.dev.hears c p).coll c.key = some c := by rw [Dev.coll_hears, ← key, reach.2.2.1]
  obtain ⟨ended, none, left, past, order⟩ := Dev.endColl_spec here .none
  have empty : ((s.dev.hears c p).endColl c.key .none).fab.colls = [] := by
    rw [left, Dev.colls_hears, colls]
    simp
  have done : s.dev.performed c p = ((s.dev.hears c p).endColl c.key .none).poolFreed := by
    rw [Dev.performed, (Dev.handleColl_counts sender same).2.2 ho kind rank from0]
    show ((s.dev.hears c p).endColl c.key .none).afterColl c.key .none = _
    unfold Dev.afterColl Dev.checkColl Dev.checkData Dev.checkBar Dev.onColl
    rw [none]
    dsimp only
    rw [none]
    dsimp only
    rw [none]
  have freed : Sent ((s.dev.hears c p).endColl c.key .none) (s.dev.performed c p) := done ▸ Sent.poolFreed fun y hy => by
    rw [empty] at hy
    cases hy
  have whole := ((Collected.hears s.dev c p).trans (.of_ended ended)).trans (.of_traded (K := fun _ => True) (.of_sent freed))
  refine answers_of_meets h ho rfl whole ⟨by rw [freed.colls, empty], fun e he same => ?_, ?_, ?_⟩
  · rw [freed.ctl] at he
    exact order (not_bucket_of_barrier kind) e he (cmd.trans (congrArg some same.symm))
  · have kept : (s.dev.performed c p).fab.past = ((s.dev.hears c p).endColl c.key .none).fab.past := by rw [freed.kept]
    rw [kept]
    exact past
  · rw [freed.mem, ended.mem]
    exact (Alike.hears s.dev c p).mem.symm

/-! ### Messages that park -/

theorem Machine.Dev.parks_takes (d : Dev) (p q : Packet) : (d.takes q).parks p = d.parks p := by
  have past : (d.takes q).fab.past = d.fab.past := by rw [(Taken.takes d q).kept]
  have step : (d.takes q).step = d.step := (Taken.takes d q).getF (by decide) (by decide) (by decide)
  unfold Dev.parks Dev.wasIssued
  rw [Dev.coll_takes, past, step]

theorem Machine.Dev.park_spec (d : Dev) (p : Packet) :
    let t := d.park p
    p ∈ t.fab.parked ∧ t.fab.colls = d.fab.colls ∧ t.fab.flows = d.fab.flows ∧ t.mem = d.mem ∧ t.ctl = d.ctl := by
  unfold Dev.park
  exact ⟨List.mem_append_right _ (List.mem_singleton_self _), rfl, rfl, rfl, rfl⟩

/-- R346: a first contribution to a collective that is not issued yet is parked, where there is room, and answered with NACK otherwise. -/
theorem answers_parks {i : Instr} {opc : Nat} (he : exec i s = s.onDev (fun d => (d.collArrive opc p none).settle)) (h : InSequence s p)
    (held : NothingHeld s) (ho : p.opc = opc) (parks : s.dev.parks p = true) :
    (s.dev.canPark p = true → Answers i s fun t =>
        Performed s p t ∧ p ∈ t.fab.parked ∧ t.fab.colls = s.dev.fab.colls ∧ t.mem = s.dev.mem)
      ∧ (s.dev.canPark p = false → Answers i s fun t =>
        t.fab.parked = s.dev.fab.parked ∧ t.mem = s.dev.mem ∧ (t.flow p.dstFlow).rxSeq = (s.dev.flow p.dstFlow).rxSeq) := by
  have taken := Taken.takes s.dev p
  have up := h.1
  refine ⟨fun room => .of_onDev (fun d => (d.collArrive opc p none).settle) he up ?_,
    fun full => .of_onDev (fun d => (d.collArrive opc p none).settle) he up ?_⟩
  · obtain ⟨parked, colls, flows, mem, ctl⟩ := (s.dev.takes p).park_spec p
    have flow : ((s.dev.takes p).park p).flow p.dstFlow = (s.dev.flow p.dstFlow).takes := by
      rw [Dev.flow, flows]
      exact Dev.flow_takes ..
    have does : (s.dev.takes p).performColl p none = (s.dev.takes p).park p := by
      have found : (s.dev.takes p).parks p = true := (Dev.parks_takes ..).trans parks
      have unknown : (s.dev.takes p).coll (packetKey p) = none ∧
          (s.dev.takes p).fab.past.find? (fun c => decide (c.key = packetKey p)) = none := by
        simp only [Dev.parks, Bool.and_eq_true, Option.isNone_iff_eq_none, Bool.not_eq_true', List.any_eq_false] at found
        exact ⟨found.1.1.2, List.find?_eq_none.2 found.1.2⟩
      rw [Dev.performColl, unknown.1, unknown.2]
      exact if_pos found
    have arrived : s.dev.collArrive opc p none = (s.dev.takes p).park p := by
      rw [Dev.collArrive, if_neg (not_not_intro ho), if_neg (by rw [parks, room]; decide)]
      refine (Dev.arrive_inSequence h ?_).trans does
      rw [does, flow]
      rfl
    rw [arrived, Dev.settle_of_nothing_held (by rw [ctl, taken.ctl]; exact held)]
    exact ⟨by rw [Performed, flow]; rfl, parked, colls.trans taken.colls, mem.trans taken.mem⟩
  · obtain ⟨-, state, peer, dst, -, ack⟩ := h
    have reached := Reached.reached s.dev p
    have old : (s.dev.reached p).takeAck p.dstFlow p.ack = s.dev.reached p := Dev.takeAck_old _ (by rw [reached.flow]; exact ack)
    have arrived : s.dev.collArrive opc p none = (s.dev.reached p).control p.dstFlow 0x11 := by
      rw [Dev.collArrive, if_neg (not_not_intro ho), if_pos (by rw [parks, full]; decide), Dev.onFlow_eq _ _ _ (by omega) peer dst, old]
    have answered := Sent.control (s.dev.reached p) p.dstFlow 0x11
    have same : ((s.dev.reached p).control p.dstFlow 0x11).ctl = s.dev.ctl := by rw [answered.ctl, reached.kept]
    rw [arrived, Dev.settle_of_nothing_held (by rw [same]; exact held)]
    refine ⟨by rw [answered.kept, reached.kept], answered.mem.trans reached.mem, ?_⟩
    rw [(answered.flows _).rxSeq, reached.flow]

/-! ### Waits -/

/-- What a long wait shows. -/
def Machine.Dev.waitsLong (engine : Nat) (d : Dev) : Dev :=
  match d.oldestColl engine with
  | none => d
  | some c =>
    let r := c.missing.foldl min 0xFFFFFFFF
    let d := (d.setF R.COL_MISSING_VALID engine 1).setF R.COL_MISSING_RANK engine r
    ((d.setF R.COL_WAIT_ID_CIDX engine c.cidx).setF R.COL_WAIT_ID_STEP engine c.step).setErr COL engine 17

/-- R347, R362: a long wait is reported on its engine. -/
theorem answers_waitLong {engine : Nat} (up : s.dev.up = true) (he : engine < 4) (hc : s.dev.oldestColl engine = some c) :
    Answers (.collectiveWaitLong engine) s fun t =>
      t.getF R.COL_MISSING_VALID engine = 1 ∧ t.errBit COL engine 17 = true ∧ t.fab = s.dev.fab ∧ t.mem = s.dev.mem
        ∧ t.getF R.COL_WAIT_ID_CIDX engine = c.cidx % 2 ^ R.COL_WAIT_ID_CIDX.width := by
  refine .of_onDev (Dev.waitsLong engine) rfl up ?_
  unfold Dev.waitsLong
  rw [hc]
  dsimp only
  generalize c.missing.foldl min 0xFFFFFFFF = r
  have shown := Noise.setErr ((((s.dev.setF R.COL_MISSING_VALID engine 1).setF R.COL_MISSING_RANK engine r).setF R.COL_WAIT_ID_CIDX engine c.cidx).setF
    R.COL_WAIT_ID_STEP engine c.step) COL engine 17
  refine ⟨?_, Noise.errBit_setErr _ _ _ (by decide), shown.reports.fab, shown.reports.mem, ?_⟩
  · rw [shown.getF (by decide) (by omega), Dev.getF_setF_place (by decide), Dev.getF_setF_place (by decide), Dev.getF_setF_place (by decide),
      Dev.getF_setF_same]
    rfl
  · rw [shown.getF (by decide) (by omega), Dev.getF_setF_place (by decide), Dev.getF_setF_same]

/-- The collectives of a key fall out of flight, and the step does not close. -/
def Machine.Dev.fallsOut (d : Dev) (k : CollKey) : Dev :=
  { d with fab := { d.fab with colls := d.fab.colls.filter (fun x => decide (x.key ≠ k)) }, ctl := { d.ctl with noClose := true } }

/-- What the failure of a collective of no replay leaves, before its command completes. -/
def Machine.Dev.fails (d : Dev) (c : Coll) (k : CollKey) (err : Nat) : Dev :=
  let d := ((d.waitOver c).setErr COL c.engine err).fallsOut k
  d.setF (enginePool c.engine) 0 (d.getF (enginePool c.engine) 0 + c.accHeld)

theorem Machine.Dev.ctl_waitOver (d : Dev) (c : Coll) : (d.waitOver c).ctl = d.ctl := by
  unfold Dev.waitOver
  split
  · rfl
  · rfl

theorem Machine.Dev.fails_spec (d : Dev) (c : Coll) (k : CollKey) {err : Nat} (he : err < 32) :
    let t := d.fails c k err
    t.fab.colls = d.fab.colls.filter (fun x => decide (x.key ≠ k)) ∧ t.ctl = { d.ctl with noClose := true } ∧ t.errBit COL c.engine err = true
      ∧ t.mem = d.mem := by
  have noted : Noted d ((d.waitOver c).setErr COL c.engine err) := (Noted.waitOver d c).trans (.of_noise (.setErr ..))
  have flag : ((d.waitOver c).setErr COL c.engine err).errBit COL c.engine err = true := Noise.errBit_setErr _ _ _ he
  have ctl : ((d.waitOver c).setErr COL c.engine err).ctl = d.ctl := (Noise.setErr ..).reports.ctl.trans (Dev.ctl_waitOver ..)
  unfold Dev.fails
  generalize (d.waitOver c).setErr COL c.engine err = e at noted flag ctl ⊢
  have mem : e.mem = d.mem := by rw [noted.kept]
  have out : (e.fallsOut k).errBit COL c.engine err = true := flag
  have pooled : Traded (fun _ => True) (e.fallsOut k) _ := .setPool (e.fallsOut k) c.engine ((e.fallsOut k).getF (enginePool c.engine) 0 + c.accHeld)
  refine ⟨?_, ?_, pooled.touches.errs _ _ _ he out, ?_⟩
  · show e.fab.colls.filter _ = _
    rw [noted.fab]
  · show { e.ctl with noClose := true } = _
    rw [ctl]
  · exact mem

theorem Machine.Dev.failColl_eq {d : Dev} {k : CollKey} (hc : d.coll k = some c) (err : Nat) {status : Nat} (hs : status ≠ 0x15) :
    d.failColl k err status = match c.cmd with
      | some j => (d.fails c k err).complete j status 0
      | none => d.fails c k err := by
  rw [Dev.failColl, Dev.onColl, hc]
  exact if_neg (by simp [hs])

/-- What a failure leaves once the command has completed. -/
theorem Machine.Dev.failColl_spec {d : Dev} {k : CollKey} (hc : d.coll k = some c) {err status : Nat} (he : err < 32) (hs : status ≠ 0x15) :
    let t := d.failColl k err status
    t.fab.colls = d.fab.colls.filter (fun x => decide (x.key ≠ k)) ∧ t.ctl.noClose = true ∧ t.errBit COL c.engine err = true ∧ t.mem = d.mem
      ∧ ∀ q, c.cmd = some q → ∀ e ∈ t.ctl.order, e.cmd ≠ q := by
  obtain ⟨colls, ctl, flag, mem⟩ := d.fails_spec c k he
  rw [Dev.failColl_eq hc err hs]
  generalize d.fails c k err = f at colls ctl flag mem ⊢
  cases cmd : c.cmd with
  | none => exact ⟨colls, by rw [ctl], flag, mem, fun q h => by cases h⟩
  | some j =>
    have done := Completed.complete f j status 0
    show (f.complete j status 0).fab.colls = _ ∧ (f.complete j status 0).ctl.noClose = true ∧ (f.complete j status 0).errBit COL c.engine err = true
      ∧ (f.complete j status 0).mem = d.mem ∧ ∀ q, some j = some q → ∀ e ∈ (f.complete j status 0).ctl.order, e.cmd ≠ q
    refine ⟨by rw [done.kept]; exact colls, by rw [done.kept, ctl], done.touches.errs _ _ _ he flag, by rw [done.kept]; exact mem, ?_⟩
    rintro q ⟨⟩ e there same
    rw [Dev.order_complete] at there
    exact absurd same (of_decide_eq_true (List.mem_filter.1 there).2)

/-- What a limit on waits does. -/
def Machine.Dev.limitsWait (engine : Nat) (d : Dev) : Dev :=
  match d.oldestColl engine with
  | none => d
  | some c => if d.actF R.COL_WAIT_LIMIT engine = 0 then d else (d.failColl c.key 18 0x14).poolFreed

/-- R347: with a limit the collective that has waited longest ends. -/
theorem answers_waitLimit {engine : Nat} (up : s.dev.up = true) (old : s.dev.oldestColl engine = some c) (hc : s.dev.coll c.key = some c) :
    (s.dev.actF R.COL_WAIT_LIMIT engine = 0 → Answers (.collectiveWaitLimit engine) s fun t => t = s.dev)
      ∧ (s.dev.actF R.COL_WAIT_LIMIT engine ≠ 0 → Answers (.collectiveWaitLimit engine) s fun t =>
        t.coll c.key = none ∧ t.ctl.noClose = true ∧ t.errBit COL c.engine 18 = true
          ∧ ((∀ y ∈ s.dev.fab.colls, y.isBucket = true → y.key = c.key) → t.mem = s.dev.mem)
          ∧ ∀ q, c.cmd = some q → ∀ e ∈ t.ctl.order, e.cmd ≠ q) := by
  have acts : Dev.limitsWait engine s.dev = if s.dev.actF R.COL_WAIT_LIMIT engine = 0 then s.dev else (s.dev.failColl c.key 18 0x14).poolFreed := by
    unfold Dev.limitsWait
    rw [old]
  refine ⟨fun off => .of_onDev (Dev.limitsWait engine) rfl up ?_, fun on => .of_onDev (Dev.limitsWait engine) rfl up ?_⟩
  · rw [acts, if_pos off]
  · rw [acts, if_neg on]
    obtain ⟨colls, closed, flag, mem, order⟩ := Dev.failColl_spec hc (err := 18) (status := 0x14) (by decide) (by decide)
    generalize s.dev.failColl c.key 18 0x14 = f at colls closed flag mem order ⊢
    have freed := Traded.poolFreed f
    have gone : f.coll c.key = none := by rw [Dev.coll, colls, find_without, if_pos rfl]
    refine ⟨freed.coll_none gone, by rw [freed.ctl]; exact closed, freed.touches.errs _ _ _ (by decide) flag, fun only => ?_,
      by rw [freed.ctl]; exact order⟩
    refine (Sent.poolFreed fun y hy => ?_).mem.trans mem
    rw [colls] at hy
    obtain ⟨there, other⟩ := List.mem_filter.1 hy
    rw [← Bool.not_eq_true]
    exact fun bucket => of_decide_eq_true other (only y there bucket)

/-- Settles O35. Every message runs through `Dev.performColl`; what a collective does with it is counted in its own record, and what
follows (`Dev.afterColl`, the acknowledgement) leaves that record or ends the collective. -/
theorem gathersBarriersAndWaits : Obligations.GathersBarriersAndWaits := by
  intro s p c src dst len root engine j
  dsimp only
  refine ⟨answers_cData, answers_cBar, answers_cBarRel, fun h ho kind => answers_broadcast_data h ho kind,
    fun h ho kind => answers_gather_data h ho kind, answers_barrier_waits, ?_, ?_, ?_, ?_, ?_⟩
  · exact fun h ho kind rank from0 cmd => answers_barrier_ends h ho kind rank from0 cmd
  · exact fun h held ho parks => answers_parks rfl h held ho parks
  · exact fun h held ho parks => answers_parks rfl h held ho parks
  · exact fun h held ho parks => answers_parks rfl h held ho parks
  · exact fun up he old hc => ⟨answers_waitLong up he old, answers_waitLimit up old hc⟩

end Sys2Proof
end

