-- ==== Sys2Proof/Proofs/Launches.lean ====
section
/-! Collectives enter flight (R274, R341, R342, R351): they board their engine, contribute unless the gate is shut, and blocks that come
free let others go on. -/

namespace Sys2Proof.Machine

/-! ### Boarding -/

/-- The collective is in flight. -/
def Dev.inFlight (d : Dev) (x : Coll) : Dev :=
  { d with fab := { d.fab with colls := d.fab.colls.filter (fun (y : Coll) => decide (y.key ≠ x.key)) ++ [x] } }

/-- The collective is in flight, and its engine runs. -/
def Dev.boarded (d : Dev) (x : Coll) : Dev := (d.inFlight x).takesWork COL x.engine

/-- The fields of the change of state of a block that shows nothing else with it. -/
def blockFields (c : Nat) : List Field :=
  [R.BLK_CTRL_ENABLE c, R.BLK_CTRL_CLOCHE_REQ c, R.BLK_CTRL_QUIESCE_REQ c, R.BLK_STATE_STATE c, R.BLK_IRQ_PEND c, R.COUNTER RAS 5]

theorem mem_blockKeys {c i k : Nat} (hc : c ≠ LNK ∧ c ≠ CEL) (h : k ∈ blockKeys c i) : ∃ f ∈ blockFields c, ∃ j, k = f.key j := by
  unfold blockKeys stateFields at h
  rw [if_neg hc.1, if_neg hc.2, List.append_nil] at h
  simp only [List.mem_cons, List.not_mem_nil, or_false] at h
  rcases h with h | h | h | h | h | h
  · exact ⟨_, by simp [blockFields], i, h⟩
  · exact ⟨_, by simp [blockFields], i, h⟩
  · exact ⟨_, by simp [blockFields], i, h⟩
  · exact ⟨_, by simp [blockFields], i, h⟩
  · exact ⟨_, by simp [blockFields], i, h⟩
  · exact ⟨_, by simp [blockFields], 0, h⟩

/-- A field that no change of such a block's state touches. -/
theorem getF_of_moved {c i : Nat} {d t : Dev} (hc : c ≠ LNK ∧ c ≠ CEL) (h : Moved c i d t) {f : Field} (hf : f.place ∉ (blockFields c).map Field.place)
    (j : Nat) : t.getF f j = d.getF f j := by
  have out : f.key j ∉ blockKeys c i := fun hk => by
    obtain ⟨g, hg, j', e⟩ := mem_blockKeys hc hk
    exact Field.key_ne (fun e' => hf (by rw [e']; exact List.mem_map_of_mem hg)) j j' e
  rw [Dev.getF, mget, h.kept _ out]
  rfl

theorem Moved.takesWork (d : Dev) (i : Nat) : Moved COL i d (d.takesWork COL i) := .ite (.setBlk d (by decide)) (.refl d)

/-- What boarding leaves beside the collectives in flight. -/
structure Boarded (x : Coll) (d t : Dev) : Prop where
  cells : t.cells = d.cells
  mem : t.mem = d.mem
  ctl : t.ctl = d.ctl
  train : t.train = d.train
  parked : t.fab.parked = d.fab.parked
  colls : t.fab.colls = d.fab.colls ++ [x]
  coll : t.coll x.key = some x
  gate : t.gateShut = d.gateShut

theorem Dev.boarded_spec {d : Dev} {x : Coll} (hn : d.coll x.key = none) : Boarded x d (d.boarded x) := by
  have moved : Moved COL x.engine (d.inFlight x) (d.boarded x) := Moved.takesWork ..
  have fab := moved.fab (by decide)
  have rest := moved.rest
  have all : d.fab.colls.filter (fun (y : Coll) => decide (y.key ≠ x.key)) = d.fab.colls := List.filter_eq_self.2 fun y hy => by
    simpa using List.find?_eq_none.1 hn y hy
  have colls : (d.boarded x).fab.colls = d.fab.colls ++ [x] := by
    rw [fab]
    exact congrArg (· ++ [x]) all
  refine ⟨by rw [rest]; rfl, by rw [rest]; rfl, by rw [rest]; rfl, by rw [rest]; rfl, by rw [fab]; rfl, colls, ?_, ?_⟩
  · rw [Dev.coll, colls, List.find?_append]
    rw [Dev.coll] at hn
    rw [hn]
    simp
  · have sow : (d.boarded x).sow = d.sow := by rw [rest]; rfl
    have state : (d.boarded x).getF R.SOW_PAIR_STATUS_STATE 0 = d.getF R.SOW_PAIR_STATUS_STATE 0 := getF_of_moved (by decide) moved (by decide) 0
    have gate : (d.boarded x).getF R.SOW_CFG_SEAL_GATE 0 = d.getF R.SOW_CFG_SEAL_GATE 0 := getF_of_moved (by decide) moved (by decide) 0
    have step : (d.boarded x).step = d.step := getF_of_moved (by decide) moved (by decide) 0
    unfold Dev.gateShut
    rw [sow, state, gate, step]

theorem Dev.unpark_of_none {d : Dev} {k : CollKey} (h : ∀ q ∈ d.fab.parked, packetKey q ≠ k) : d.unpark k = d := by
  have mine : d.fab.parked.filter (fun p => decide (packetKey p = k)) = [] := List.filter_eq_nil_iff.2 fun q hq => by simpa using h q hq
  have rest : d.fab.parked.filter (fun p => decide (packetKey p ≠ k)) = d.fab.parked := List.filter_eq_self.2 fun q hq => by simpa using h q hq
  unfold Dev.unpark
  rw [mine, rest]
  rfl

/-- A collective for which nothing is parked enters flight. -/
theorem Dev.launchColl_eq {d : Dev} {x : Coll} (hn : d.coll x.key = none) (hp : ∀ q ∈ d.fab.parked, packetKey q ≠ x.key) :
    d.launchColl x = (if d.gateShut then d.boarded x else (d.boarded x).contribute x.key).poolFreed := by
  have boarded := Dev.boarded_spec hn
  have launched : d.launchColl x =
      ((if (d.boarded x).gateShut then d.boarded x else (d.boarded x).contribute x.key).unpark x.key).poolFreed := by
    unfold Dev.launchColl
    rw [hn]
    rfl
  rw [launched, boarded.gate, Dev.unpark_of_none]
  intro q hq
  have contributed := Collected.contribute (d.boarded x) x.key
  split at hq
  · rw [boarded.parked] at hq
    exact hp q hq
  · rw [contributed.kept] at hq
    exact hp q (boarded.parked ▸ hq)

/-! ### Blocks that come free -/

/-- No bucket of this key is in flight. -/
def NoBucket (k : CollKey) (d : Dev) : Prop := ∀ y ∈ d.fab.colls, y.key = k → y.isBucket = false

/-- Blocks that come free leave what is no bucket. -/
theorem Dev.coll_poolFreed {d : Dev} {k : CollKey} (h : NoBucket k d) : d.poolFreed.coll k = d.coll k :=
  (Traded.poolFreed d).others k fun ⟨y, hy, bucket, key⟩ => by
    rw [h y hy key] at bucket
    cases bucket

theorem NoBucket.setColl {d : Dev} {k : CollKey} (h : NoBucket k d) {x : Coll} (hx : x.isBucket = false) : NoBucket k (d.setColl x) := by
  intro y hy key
  obtain ⟨z, hz, e⟩ := List.mem_map.1 hy
  split at e
  · rw [← e]
    exact hx
  · rw [← e] at key ⊢
    exact h z hz key

theorem NoBucket.of_colls {d t : Dev} {k : CollKey} (h : NoBucket k d) (ht : t.fab.colls = d.fab.colls) : NoBucket k t := by
  unfold NoBucket
  rw [ht]
  exact h

theorem Dev.onColl_some {d : Dev} {k : CollKey} {x : Coll} (hc : d.coll k = some x) (f : Coll → Dev) : d.onColl k f = f x := by
  rw [Dev.onColl, hc]

theorem Dev.grant_none {d : Dev} {k : CollKey} {x : Coll} (hc : d.coll k = some x) (hs : x.seg = []) {level : Nat} (hn : 0 < x.need level) :
    d.grant k level = (d, []) := by
  unfold Dev.grant
  rw [hc]
  dsimp only
  generalize List.range x.segs = ss
  induction ss with
  | nil => rfl
  | cons s ss ih =>
    rw [List.foldl_cons]
    refine Eq.trans (congrArg (fun a => List.foldl _ a ss) ?_) ih
    rw [hc]
    have unseen : (x.segAt level s).expSeen.length < x.need level := by
      rw [Coll.segAt, hs]
      exact hn
    exact if_pos (.inl unseen)

theorem Sent.toRank (d : Dev) (c : Coll) (r : Nat) (p : Packet) : Sent d (d.toRank c r p) :=
  (Sent.of_noise (.bump _ _ _ (by decide) _)).trans (.sendOn ..)

theorem Sent.sendSegs (d : Dev) (c : Coll) (r opc flags hdr : Nat) (xs : List (Nat × List Byte)) : Sent d (d.sendSegs c r opc flags hdr xs) :=
  .foldl (fun e _ => toRank e ..) _ d

theorem Dev.mDown2_nil (d : Dev) (k : CollKey) : d.mDown2 k [] = d := by
  unfold Dev.mDown2 Dev.onColl
  split
  · rfl
  · rfl

/-- A bucket of which nothing has come waits for no blocks. -/
theorem Dev.granted_fresh {d : Dev} {k : CollKey} {x : Coll} (hc : d.coll k = some x) (hs : x.seg = []) (h1 : 0 < x.leaf) (h2 : 0 < x.leaves) :
    Sent d (d.granted k) := by
  have level1 : d.grant k 1 = (d, []) := Dev.grant_none hc hs h1
  have up : Sent d (d.expUp k []) := by
    rw [Dev.expUp, Dev.onColl_some hc]
    extract_lets e
    have sent : Sent d e := .foldl (fun e r => .ite (.refl e) (.sendSegs e ..)) _ d
    clear_value e
    have none : e.exp2 k (x.leafOf x.rank) [] = e := by
      have level2 : e.grant k 2 = (e, []) := Dev.grant_none (by rw [sent.coll]; exact hc) hs h2
      show (e.grant k 2).1.mDown2 k (e.grant k 2).2 = e
      rw [level2]
      exact Dev.mDown2_nil e k
    show Sent d (e.exp2 k (x.leafOf x.rank) [])
    rw [none]
    exact sent
  have level2 : (d.expUp k []).grant k 2 = (d.expUp k [], []) := Dev.grant_none (by rw [up.coll]; exact hc) hs h2
  unfold Dev.granted
  rw [level1]
  dsimp only
  rw [level2]
  dsimp only
  rw [Dev.mDown2_nil]
  exact up

/-- A collective of which nothing has come stays as it is when blocks come free. -/
theorem Dev.coll_regrant_fresh {x : Coll} (hs : x.seg = []) (h1 : 0 < x.leaf) (h2 : 0 < x.leaves) (cs : List Coll) {d : Dev} {k : CollKey}
    (hc : d.coll k = some x) : (cs.foldl (fun d c => d.granted c.key) d).coll k = some x := by
  induction cs generalizing d with
  | nil => exact hc
  | cons c cs ih =>
    refine ih (d := d.granted c.key) ?_
    by_cases same : c.key = k
    · rw [same, (Dev.granted_fresh hc hs h1 h2).coll, hc]
    · rw [(Traded.granted (K := (· = c.key)) rfl d).others k (fun e => same e.symm), hc]

theorem Dev.coll_poolFreed_fresh {d : Dev} {k : CollKey} {x : Coll} (hc : d.coll k = some x) (hs : x.seg = []) (h1 : 0 < x.leaf)
    (h2 : 0 < x.leaves) : d.poolFreed.coll k = some x := by
  rw [Dev.poolFreed, (Sent.pumpAll _).coll, Dev.regrant_eq]
  exact Dev.coll_regrant_fresh hs h1 h2 _ hc

/-- Where the collective that has boarded is the only bucket and nothing of it has come, blocks that come free leave memory. -/
theorem Dev.mem_poolFreed_boarded {d t : Dev} {x : Coll} (b : Boarded x d t) (hs : x.seg = []) (h1 : 0 < x.leaf) (h2 : 0 < x.leaves)
    (none : ∀ y ∈ d.fab.colls, y.isBucket = false) : t.poolFreed.mem = d.mem := by
  have only : t.fab.colls.filter (·.isBucket) = if x.isBucket then [x] else [] := by
    rw [b.colls, List.filter_append, List.filter_eq_nil_iff.2 fun y hy => by simp [none y hy], List.nil_append, List.filter_singleton]
    split <;> simp_all
  rw [Dev.poolFreed, (Sent.pumpAll _).mem, Dev.regrant_eq, only]
  split
  · exact (Dev.granted_fresh b.coll hs h1 h2).mem.trans b.mem
  · exact b.mem

end Sys2Proof.Machine
end

