-- ==== Sys2Proof/Proofs/Directs.lean ====
section
/-! What a direct collective contributes (R351), and when it waits for nobody. -/

namespace Sys2Proof.Machine

/-- Messages may have gone out and results been written, while every collective in flight stands as it was. -/
structure Sends (d t : Dev) : Prop where
  traded : Traded (fun _ => False) d t
  colls : t.fab.colls = d.fab.colls

namespace Sends

variable {d e t : Dev}

theorem of_sent (h : Sent d t) : Sends d t := ⟨.of_sent h, h.colls⟩
theorem refl (d : Dev) : Sends d d := of_sent (.refl d)
theorem trans (h : Sends d e) (g : Sends e t) : Sends d t := ⟨h.traded.trans g.traded, g.colls.trans h.colls⟩

theorem ite {a b : Dev} {p : Prop} [Decidable p] (ha : Sends d a) (hb : Sends d b) : Sends d (if p then a else b) := by
  split
  · exact ha
  · exact hb

/-- The other members get bytes. -/
theorem sendData (d : Dev) (c : Coll) (flags : Nat) (bs : List Byte) : Sends d (c.others.foldl (fun d r => d.sendData c r flags bs) d) :=
  of_sent (.foldl (fun e _ => .foldl (fun e _ => .toRank e ..) _ e) _ d)

/-- A member's own part of a result. -/
theorem writesOwn (d : Dev) (c : Coll) (written : List (Nat × Nat)) (a : Nat) (bs : List Byte) : Sends d ((d.dropOlder c written).write a bs) :=
  ⟨(Traded.dropOlder d c written).trans (.of_accessed (.write ..)), (MemOnly.write ..).colls⟩

theorem coll (h : Sends d t) (k : CollKey) : t.coll k = d.coll k := h.traded.others k fun h => h

end Sends

/-- The collective that has contributed. -/
def Coll.sentOn (x : Coll) : Coll := { x with sent := true }

variable {d : Dev} {x : Coll}

/-- The other members get a range of memory. -/
def Dev.sendsOwn (d : Dev) (c : Coll) (src len : Nat) : Dev :=
  let bad := (d.poisonIn src len).isSome
  let d := if bad then d.setErr COL c.engine 20 else d
  c.others.foldl (fun e r => e.sendData c r (b2n bad) (d.bytes src len)) d

/-- The bytes of a range of memory, as the others get them. -/
def Dev.ownBytes (d : Dev) (c : Coll) (src len : Nat) : List Byte :=
  (if (d.poisonIn src len).isSome then d.setErr COL c.engine 20 else d).bytes src len

theorem Sends.sendsOwn (d : Dev) (c : Coll) (src len : Nat) : Sends d (d.sendsOwn c src len) := by
  unfold Dev.sendsOwn
  extract_lets bad e
  have shown : Sends d e := .ite (.of_sent (.of_noise (.setErr ..))) (.refl d)
  exact shown.trans (.sendData ..)

/-- What a member of a gather does. -/
def Dev.gathers (d : Dev) (c : Coll) (src dst len : Nat) : Dev :=
  ((d.sendsOwn c src len).dropOlder c [(dst + c.rank * len, len)]).write (dst + c.rank * len) (d.ownBytes c src len)

/-- What the root of a broadcast does. -/
def Dev.broadcasts (d : Dev) (c : Coll) (src dst len : Nat) : Dev :=
  if src = dst then d.sendsOwn c src len else ((d.sendsOwn c src len).dropOlder c [(dst, len)]).write dst (d.ownBytes c src len)

theorem Dev.contribute_gather {a b len : Nat} (hc : d.coll x.key = some x) (kind : x.kind = .allGather a b len) :
    d.contribute x.key = ((d.setColl x.sentOn).gathers x a b len).checkData x.key := by
  unfold Dev.contribute
  rw [Dev.onColl_some hc]
  extract_lets e
  split
  next other => cases kind.symm.trans other
  next same => cases kind.symm.trans same; rfl
  next other => cases kind.symm.trans other
  next other => cases kind.symm.trans other

theorem Dev.contribute_root {a b len root : Nat} (hc : d.coll x.key = some x) (kind : x.kind = .broadcast a b len root) (first : x.rank = root) :
    d.contribute x.key = ((d.setColl x.sentOn).broadcasts x a b len).checkData x.key := by
  unfold Dev.contribute
  rw [Dev.onColl_some hc]
  extract_lets e
  split
  next other => cases kind.symm.trans other
  next other => cases kind.symm.trans other
  next same => cases kind.symm.trans same; exact if_pos first
  next other => cases kind.symm.trans other

theorem Dev.contribute_other {a b len root : Nat} (hc : d.coll x.key = some x) (kind : x.kind = .broadcast a b len root) (first : x.rank ≠ root) :
    d.contribute x.key = (d.setColl x.sentOn).checkData x.key := by
  unfold Dev.contribute
  rw [Dev.onColl_some hc]
  extract_lets e
  split
  next other => cases kind.symm.trans other
  next other => cases kind.symm.trans other
  next same => cases kind.symm.trans same; exact if_neg first
  next other => cases kind.symm.trans other

/-- A gather or a broadcast sends and writes, and ends when nothing is missing. -/
theorem Dev.contribute_data (hc : d.coll x.key = some x) (hb : x.isBucket = false) (nb : x.kind ≠ .barrier) :
    ∃ e, Sends (d.setColl x.sentOn) e ∧ d.contribute x.key = e.checkData x.key := by
  cases kind : x.kind with
  | bucket b z => rw [Coll.isBucket, kind] at hb; cases hb
  | allGather a b len => exact ⟨_, (Sends.sendsOwn ..).trans (.writesOwn ..), Dev.contribute_gather hc kind⟩
  | broadcast a b len root =>
    by_cases first : x.rank = root
    · exact ⟨_, .ite (.sendsOwn ..) ((Sends.sendsOwn ..).trans (.writesOwn ..)), Dev.contribute_root hc kind first⟩
    · exact ⟨_, .refl _, Dev.contribute_other hc kind first⟩
  | barrier => exact absurd kind nb

/-- Everything that the other ranks send is there from the start. -/
def Coll.expectsNothing (x : Coll) : Prop := ∀ r < x.n, x.expects r = 0

theorem dataDone_sentOn (hb : x.kind ≠ .barrier) (hg : x.got = []) : x.sentOn.dataDone = true ↔ x.expectsNothing := by
  have all : x.sentOn.dataDone = (List.range x.n).all (fun r => decide (x.expects r ≤ mget 0 x.got r)) := by
    unfold Coll.dataDone Coll.sentOn
    dsimp only
    split
    · next h => exact absurd h hb
    · rfl
  have empty (r : Nat) : mget 0 ([] : NMap Nat) r = 0 := rfl
  rw [all, hg]
  simp [Coll.expectsNothing, empty]

/-- The collective waits for nobody. -/
def Coll.alone (x : Coll) : Prop :=
  match x.kind with
  | .allGather _ _ len => x.n = 1 ∨ len = 0
  | .broadcast _ _ len root => x.rank = root ∨ len = 0
  | _ => x.n = 1

/-- The collective once it has contributed: rank 0 of a barrier has come. -/
def Coll.begun (x : Coll) : Coll := { x with sent := true, barSeen := if x.kind = .barrier ∧ x.rank = 0 then [0] else [] }

/-- A direct collective as it is issued. -/
structure Direct (x : Coll) : Prop where
  bucket : x.isBucket = false
  got : x.got = []
  barSeen : x.barSeen = []
  rank : x.rank < x.n
  root : ∀ a b len root, x.kind = .broadcast a b len root → root < x.n

theorem Direct.alone_iff (h : Direct x) (nb : x.kind ≠ .barrier) : x.alone ↔ x.expectsNothing := by
  have inside := h.rank
  unfold Coll.alone Coll.expectsNothing Coll.expects
  cases kind : x.kind with
  | bucket b z =>
    have direct := h.bucket
    rw [Coll.isBucket, kind] at direct
    cases direct
  | barrier => exact absurd kind nb
  | allGather a b len =>
    dsimp only
    refine ⟨?_, fun all => ?_⟩
    · rintro (one | rfl) r hr
      · exact if_pos (by omega)
      · split <;> rfl
    · by_contra other
      rw [not_or] at other
      by_cases zero : x.rank = 0
      · have one := all 1 (by omega)
        rw [if_neg (by omega)] at one
        exact other.2 one
      · have none := all 0 (by omega)
        rw [if_neg (by omega)] at none
        exact other.2 none
  | broadcast a b len root =>
    have member := h.root a b len root kind
    dsimp only
    refine ⟨?_, fun all => ?_⟩
    · rintro (first | rfl) r hr
      · exact if_neg fun c => c.2 first
      · split <;> rfl
    · by_contra other
      rw [not_or] at other
      have some := all root member
      rw [if_pos ⟨rfl, other.1⟩] at some
      exact other.2 some

/-- A gather or a broadcast has begun, or it is over. -/
theorem Dev.contribute_data_spec (h : Direct x) (hc : d.coll x.key = some x) (nk : NoBucket x.key d) (nb : x.kind ≠ .barrier) :
    (x.alone → Gone x (d.contribute x.key))
    ∧ (¬ x.alone → (d.contribute x.key).coll x.key = some x.begun ∧ NoBucket x.key (d.contribute x.key) ∧ (d.contribute x.key).ctl = d.ctl) := by
  obtain ⟨e, sends, done⟩ := Dev.contribute_data hc h.bucket nb
  have begun : x.begun = x.sentOn := by
    rw [Coll.begun, if_neg fun c => nb c.1, ← h.barSeen]
    rfl
  have here : e.coll x.key = some x.sentOn := by
    rw [sends.coll]
    exact Dev.coll_setColl_same (c := x.sentOn) hc
  rw [done, h.alone_iff nb, ← dataDone_sentOn nb h.got]
  refine ⟨fun over' => ?_, fun going => ?_⟩
  · have ended : e.checkData x.key = e.endColl x.key none := by
      rw [Dev.checkData, Dev.onColl_some here]
      exact if_pos (by rw [over', show x.sentOn.isBucket = false from h.bucket]; rfl)
    rw [ended]
    exact .of_ended (c := x) here rfl h.bucket none
  · have stays : e.checkData x.key = e := by
      rw [Dev.checkData, Dev.onColl_some here]
      exact if_neg (by simp [going])
    rw [stays, begun]
    exact ⟨here, (nk.setColl (x := x.sentOn) h.bucket).of_colls sends.colls, sends.traded.ctl⟩

theorem Dev.contribute_rank0 (hc : d.coll x.key = some x) (kind : x.kind = .barrier) (rank : x.rank = 0) (hs : x.barSeen = []) :
    d.contribute x.key = ((d.setColl x.sentOn).setColl x.begun).checkBar x.key := by
  have begun : x.begun = { x with sent := true, barSeen := insertSet 0 x.barSeen } := by
    rw [Coll.begun, if_pos ⟨kind, rank⟩, hs]
    rfl
  rw [begun]
  unfold Dev.contribute
  rw [Dev.onColl_some hc]
  extract_lets e
  split
  next other => cases kind.symm.trans other
  next other => cases kind.symm.trans other
  next other => cases kind.symm.trans other
  next => exact if_pos rank

theorem Dev.contribute_rank (hc : d.coll x.key = some x) (kind : x.kind = .barrier) (rank : x.rank ≠ 0) :
    d.contribute x.key = (d.setColl x.sentOn).toRank x 0 (x.packet 0x25 0 0 0 []) := by
  unfold Dev.contribute
  rw [Dev.onColl_some hc]
  extract_lets e
  split
  next other => cases kind.symm.trans other
  next other => cases kind.symm.trans other
  next other => cases kind.symm.trans other
  next => exact if_neg rank

/-- A barrier has begun, or it is over. -/
theorem Dev.contribute_barrier_spec (h : Direct x) (hc : d.coll x.key = some x) (nk : NoBucket x.key d) (kind : x.kind = .barrier) :
    (x.alone → Gone x (d.contribute x.key))
    ∧ (¬ x.alone → (d.contribute x.key).coll x.key = some x.begun ∧ NoBucket x.key (d.contribute x.key) ∧ (d.contribute x.key).ctl = d.ctl) := by
  have alone : x.alone ↔ x.n = 1 := by rw [Coll.alone, kind]
  have inside := h.rank
  have direct : x.begun.isBucket = false := h.bucket
  have sent : (d.setColl x.sentOn).coll x.key = some x.sentOn := Dev.coll_setColl_same (c := x.sentOn) hc
  have none : NoBucket x.key (d.setColl x.sentOn) := nk.setColl (x := x.sentOn) h.bucket
  rw [alone]
  by_cases rank : x.rank = 0
  · rw [Dev.contribute_rank0 hc kind rank h.barSeen]
    have here : ((d.setColl x.sentOn).setColl x.begun).coll x.key = some x.begun := Dev.coll_setColl_same (c := x.begun) sent
    have seen : x.begun.barSeen.length = 1 := by rw [Coll.begun, if_pos ⟨kind, rank⟩]; rfl
    refine ⟨fun one => .of_checkBar (c := x) here rfl kind rank (seen.trans one.symm), fun more => ?_⟩
    have stays : ((d.setColl x.sentOn).setColl x.begun).checkBar x.key = (d.setColl x.sentOn).setColl x.begun := by
      rw [Dev.checkBar, Dev.onColl_some here]
      exact if_neg fun all => more (all.2.1.symm.trans seen)
    rw [stays]
    exact ⟨here, none.setColl direct, rfl⟩
  · refine ⟨fun one => absurd one (by omega), fun _ => ?_⟩
    rw [Dev.contribute_rank hc kind rank]
    have told := Sent.toRank (d.setColl x.sentOn) x 0 (x.packet 0x25 0 0 0 [])
    have begun : x.begun = x.sentOn := by
      rw [Coll.begun, if_neg fun c => rank c.2, ← h.barSeen]
      rfl
    rw [begun]
    exact ⟨told.coll _ ▸ sent, none.of_colls told.colls, told.ctl⟩

/-- A direct collective that contributes has begun, or it is over when it waits for nobody. -/
theorem Dev.contribute_direct (h : Direct x) (hc : d.coll x.key = some x) (nk : NoBucket x.key d) :
    (x.alone → Gone x (d.contribute x.key))
    ∧ (¬ x.alone → (d.contribute x.key).coll x.key = some x.begun ∧ NoBucket x.key (d.contribute x.key) ∧ (d.contribute x.key).ctl = d.ctl) := by
  by_cases kind : x.kind = .barrier
  · exact Dev.contribute_barrier_spec h hc nk kind
  · exact Dev.contribute_data_spec h hc nk kind

end Sys2Proof.Machine
end

