-- ==== Sys2Proof/Proofs/Flights.lean ====
section
/-! Obligation O32: direct collectives and buckets enter flight in their turn (R274, R341, R342, R351). -/

namespace Sys2Proof.Machine

/-! ### Entering flight -/

variable {d : Dev} {x : Coll}

theorem NoBucket.boarded (hn : d.coll x.key = none) (hb : x.isBucket = false) : NoBucket x.key (d.boarded x) := by
  intro y hy key
  rw [(Dev.boarded_spec hn).colls] at hy
  rcases List.mem_append.1 hy with hy | hy
  · have other := List.find?_eq_none.1 hn y hy
    exact absurd key (by simpa using other)
  · rw [List.mem_singleton.1 hy]
    exact hb

/-- A direct collective that enters flight. -/
theorem Dev.launch_direct (h : Direct x) (hs : x.seg = []) (h1 : 0 < x.leaf) (h2 : 0 < x.leaves) (hn : d.coll x.key = none)
    (hp : ∀ q ∈ d.fab.parked, packetKey q ≠ x.key) :
    let t := d.launchColl x
    t.cells = d.cells ∧ (∀ e ∈ t.ctl.order, e ∈ d.ctl.order)
      ∧ (d.gateShut = true → t.coll x.key = some x ∧ t.ctl = d.ctl ∧ ((∀ y ∈ d.fab.colls, y.isBucket = false) → t.mem = d.mem))
      ∧ (d.gateShut = false → ¬ x.alone → t.coll x.key = some x.begun ∧ t.ctl = d.ctl)
      ∧ (d.gateShut = false → x.alone → Gone x t) := by
  have boarded := Dev.boarded_spec hn
  have direct := NoBucket.boarded hn h.bucket
  have contributed := Collected.contribute (d.boarded x) x.key
  obtain ⟨alone, going⟩ := Dev.contribute_direct h boarded.coll direct
  rw [Dev.launchColl_eq hn hp]
  cases gate : d.gateShut with
  | true =>
    rw [if_pos rfl]
    have freed := Traded.poolFreed (d.boarded x)
    refine ⟨freed.cells.trans boarded.cells, fun e he => ?_, fun _ => ⟨?_, freed.ctl.trans boarded.ctl, fun none => ?_⟩, fun h => absurd h (by decide), fun h => absurd h (by decide)⟩
    · rw [freed.ctl, boarded.ctl] at he
      exact he
    · rw [Dev.coll_poolFreed direct, boarded.coll]
    · exact Dev.mem_poolFreed_boarded boarded hs h1 h2 none
  | false =>
    rw [if_neg (by decide)]
    have freed := Traded.poolFreed ((d.boarded x).contribute x.key)
    refine ⟨freed.cells.trans (contributed.cells.trans boarded.cells), fun e he => ?_, fun h => absurd h (by decide), fun _ more => ?_, fun _ one => ?_⟩
    · rw [freed.ctl] at he
      exact boarded.ctl ▸ contributed.order e he
    · obtain ⟨begun, none, ctl⟩ := going more
      exact ⟨by rw [Dev.coll_poolFreed none, begun], freed.ctl.trans (ctl.trans boarded.ctl)⟩
    · exact (alone one).mono (.of_traded freed) (.of_traded freed)

end Sys2Proof.Machine

namespace Sys2Proof

open Machine

variable {s : State} {c : JobCmd}

/-! ### Direct collectives -/

/-- A direct collective takes its place among those of its group. -/
theorem places_of_begins (hb : Begins s c) (ho : 7 ≤ c.opc ∧ c.opc ≤ 9) :
    (placed s.dev c).train.places = s.dev.train.places ++ [(c.num, mget 0 s.dev.train.cidx (argOf c 0 % 256))] := by
  obtain ⟨may, -⟩ := hb
  have active : (placed s.dev c).jobActive = s.dev.jobActive := by
    rw [placed_kept s.dev (by omega)]
    rfl
  simp only [Dev.mayBegin, Bool.and_eq_true, active] at may
  have goes : (s.dev.jobActive && !s.dev.markAhead) = true := by
    rw [Bool.and_eq_true]
    exact ⟨may.1.1.1.1.1.1.1.1, may.1.1.1.2⟩
  have place : placed s.dev c = s.dev.place c := if_pos goes
  rw [place, Dev.place, if_neg (by omega), if_pos ho]
  rfl

theorem cidx_of_begins (hb : Begins s c) (ho : 7 ≤ c.opc ∧ c.opc ≤ 9) (hn : ∀ y ∈ s.dev.train.places, y.1 ≠ c.num) :
    ((((s.dev.entered c).train.places.find? (fun x => decide (x.1 = c.num))).map (·.2)).getD 0) = mget 0 s.dev.train.cidx (argOf c 0 % 256) := by
  have places : (s.dev.entered c).train.places = (placed s.dev c).train.places := rfl
  rw [places, places_of_begins hb ho, List.find?_append, List.find?_eq_none.2 fun y hy => by simpa using hn y hy]
  simp

/-- The collective of a direct command as it is issued. -/
def issued (d : Dev) (c : JobCmd) : Coll :=
  (d.group (argOf c 0 % 256)).coll (argOf c 0 % 256) d.step (mget 0 d.train.cidx (argOf c 0 % 256)) (mget 0 d.train.cidx (argOf c 0 % 256) % 4) 64
    (directKind c) (some c)

/-- What a command finds as it begins, as far as it looks. -/
theorem entered_looks (d : Dev) (h : c.opc ≠ 10) (g : Nat) (k : CollKind) : (d.entered c).group g = d.group g ∧ (d.entered c).groupOk g = d.groupOk g
    ∧ (d.entered c).directWindows (d.group g) k = d.directWindows (d.group g) k ∧ (d.entered c).step = d.step ∧ (d.entered c).gateShut = d.gateShut
    ∧ (d.entered c).fab = d.fab ∧ (d.entered c).cells = d.cells ∧ (d.entered c).mem = d.mem := by
  rw [d.entered_kept h]
  exact ⟨rfl, rfl, rfl, rfl, rfl, rfl, rfl, rfl⟩

theorem direct_launches (hb : Begins s c) (ho : 7 ≤ c.opc ∧ c.opc ≤ 9) (hn : ∀ y ∈ s.dev.train.places, y.1 ≠ c.num) (ha : directArgsBad c = false)
    (hg : s.dev.groupOk (argOf c 0 % 256) = true) (hr : ∀ a d n r, directKind c = .broadcast a d n r → r < (issued s.dev c).n)
    (hw : s.dev.directWindows (s.dev.group (argOf c 0 % 256)) (directKind c) = true) :
    (s.dev.entered c).direct c = (s.dev.entered c).launchColl (issued s.dev c) := by
  obtain ⟨group, ok, windows, step, -⟩ := entered_looks s.dev (show c.opc ≠ 10 by omega) (argOf c 0 % 256) (directKind c)
  have cidx := cidx_of_begins hb ho hn
  have root : (match directKind c with
      | .broadcast _ _ _ root => decide ((s.dev.group (argOf c 0 % 256)).n ≤ root)
      | _ => false) = false := by
    split
    · next kind => exact decide_eq_false (Nat.not_le.2 (hr _ _ _ _ kind))
    · rfl
  unfold Dev.direct
  rw [cidx]
  dsimp only
  rw [ok, group, step, windows, ha, hg, hw]
  exact (if_neg (by decide)).trans ((if_neg (by decide)).trans ((if_neg (fun h => Bool.false_ne_true (root.symm.trans h))).trans (if_neg (by decide))))

theorem group_of_groupOk {d : Dev} {g : Nat} (h : d.groupOk g = true) :
    (d.group g).rank < (d.group g).n ∧ 0 < (d.group g).leaf ∧ 0 < (d.group g).n / (d.group g).leaf := by
  simp only [Dev.groupOk, Bool.and_eq_true, decide_eq_true_eq] at h
  have some : 1 ≤ (d.group g).n := h.1.1.1.1.1.1.1.1.1.1.2
  have rank : (d.group g).rank < (d.group g).n := h.1.1.1.1.1.1.1.1.2
  have leaf : 1 ≤ (d.group g).leaf := h.1.1.1.1.1.2
  have whole : (d.group g).n % (d.group g).leaf = 0 := h.1.1.1.1.2
  exact ⟨rank, leaf, Nat.div_pos (Nat.le_of_dvd some (Nat.dvd_of_mod_eq_zero whole)) leaf⟩

theorem direct_issued (ha : s.dev.groupOk (argOf c 0 % 256) = true)
    (hr : ∀ a d n r, directKind c = .broadcast a d n r → r < (issued s.dev c).n) : Direct (issued s.dev c) := by
  refine ⟨?_, rfl, rfl, (group_of_groupOk ha).1, hr⟩
  have kind (b : Nat) (z : Bool) : directKind c ≠ .bucket b z := by
    unfold directKind
    split <;> exact fun h => by cases h
  unfold Coll.isBucket
  split
  · next same => exact absurd same (kind _ _)
  · rfl

theorem startCmd_direct (d : Dev) (ho : 7 ≤ c.opc ∧ c.opc ≤ 9) : d.startCmd c = d.direct c := by
  have three : c.opc = 7 ∨ c.opc = 8 ∨ c.opc = 9 := by omega
  unfold Dev.startCmd
  rcases three with three | three | three
  · rw [three]; rfl
  · rw [three]; rfl
  · rw [three]; rfl

/-- What a direct collective that begins leaves. -/
theorem answers_direct {i : Instr} {opc : Nat} (he : exec i s = s.onDev fun d => d.jobCommand opc c) (hc : 7 ≤ opc ∧ opc ≤ 9)
    (up : s.dev.up = true) (held : NothingHeld s) (hb : Begins s c) (hn : ∀ y ∈ s.dev.train.places, y.1 ≠ c.num) (ha : directArgsBad c = false)
    (hg : s.dev.groupOk (argOf c 0 % 256) = true) (fresh : s.dev.coll (issued s.dev c).key = none)
    (parked : ∀ q ∈ s.dev.fab.parked, packetKey q ≠ (issued s.dev c).key)
    (hr : ∀ a d n r, directKind c = .broadcast a d n r → r < (issued s.dev c).n)
    (hw : s.dev.directWindows (s.dev.group (argOf c 0 % 256)) (directKind c) = true) (ho : c.opc = opc) :
    (s.dev.gateShut = true → Answers i s fun t => t.coll (issued s.dev c).key = some (issued s.dev c) ∧ ⟨c, .running⟩ ∈ t.ctl.order
      ∧ t.cells = s.dev.cells ∧ ((∀ y ∈ s.dev.fab.colls, y.isBucket = false) → t.mem = s.dev.mem))
    ∧ (s.dev.gateShut = false → ¬ (issued s.dev c).alone → Answers i s fun t =>
      t.coll (issued s.dev c).key = some (issued s.dev c).begun ∧ ⟨c, .running⟩ ∈ t.ctl.order ∧ t.cells = s.dev.cells)
    ∧ (s.dev.gateShut = false → (issued s.dev c).alone → Answers i s fun t =>
      t.coll (issued s.dev c).key = none ∧ (∀ e ∈ t.ctl.order, e.cmd ≠ c) ∧ t.cells = s.dev.cells) := by
  have opc' : 7 ≤ c.opc ∧ c.opc ≤ 9 := by rw [ho]; exact hc
  obtain ⟨-, -, -, -, gate, fab, cellsE, memE⟩ := entered_looks s.dev (show c.opc ≠ 10 by omega) (argOf c 0 % 256) (directKind c)
  obtain ⟨-, leaf, leaves⟩ := group_of_groupOk hg
  have starts : (s.dev.entered c).startCmd c = (s.dev.entered c).launchColl (issued s.dev c) := by
    rw [startCmd_direct _ opc', direct_launches hb opc' hn ha hg hr hw]
  have order : (s.dev.entered c).ctl.order = s.dev.ctl.order ++ [⟨c, .running⟩] := by
    rw [s.dev.entered_kept (show c.opc ≠ 10 by omega)]
  obtain ⟨cells, within', shut, going, over'⟩ := Dev.launch_direct (d := s.dev.entered c) (direct_issued hg hr) rfl leaf leaves
    (by rw [Dev.coll, fab]; exact fresh) (by rw [fab]; exact parked)
  rw [gate, fab, memE] at shut
  rw [gate] at going over'
  rw [cellsE] at cells
  have settled : ((s.dev.entered c).launchColl (issued s.dev c)).settle = (s.dev.entered c).launchColl (issued s.dev c) :=
    Dev.settle_of_nothing_held fun e he => by
      have there := within' e he
      rw [order] at there
      rcases List.mem_append.1 there with there | there
      · exact held e there
      · exact .inl (by rw [List.mem_singleton.1 there])
  have running : ⟨c, .running⟩ ∈ (s.dev.entered c).ctl.order := by
    rw [order]
    exact List.mem_append_right _ (List.mem_singleton_self _)
  refine ⟨fun closed => .of_begins up hb he ho (by omega) ?_, fun opened more => .of_begins up hb he ho (by omega) ?_,
    fun opened one => .of_begins up hb he ho (by omega) ?_⟩
  · rw [starts, settled]
    obtain ⟨coll, ctl, mem⟩ := shut closed
    exact ⟨coll, by rw [ctl]; exact running, cells, mem⟩
  · rw [starts, settled]
    obtain ⟨coll, ctl⟩ := going opened more
    exact ⟨coll, by rw [ctl]; exact running, cells⟩
  · rw [starts, settled]
    obtain ⟨coll, left⟩ := over' opened one
    exact ⟨coll, fun e he same => left e he (congrArg some same.symm), cells⟩

/-! ### Buckets -/

/-- Any collective that enters flight. -/
theorem launch_spec {d : Dev} {x : Coll} (hs : x.seg = []) (h1 : 0 < x.leaf) (h2 : 0 < x.leaves) (hn : d.coll x.key = none)
    (hp : ∀ q ∈ d.fab.parked, packetKey q ≠ x.key) :
    let t := d.launchColl x
    t.cells = d.cells ∧ t.train.started = d.train.started ∧ (∀ e ∈ t.ctl.order, e ∈ d.ctl.order)
      ∧ (d.gateShut = true → t.coll x.key = some x ∧ ((∀ y ∈ d.fab.colls, y.isBucket = false) → t.mem = d.mem)) := by
  have boarded := Dev.boarded_spec hn
  have contributed : Collected (d.boarded x) (if d.gateShut then d.boarded x else (d.boarded x).contribute x.key) := .ite (.refl _) (.contribute ..)
  rw [Dev.launchColl_eq hn hp]
  refine ⟨?_, ?_, fun e he => ?_, fun gate => ?_⟩
  · exact (Traded.poolFreed _).cells.trans (contributed.cells.trans boarded.cells)
  · have started : (if d.gateShut then d.boarded x else (d.boarded x).contribute x.key).train.started = (d.boarded x).train.started := by
      rw [contributed.kept]
    rw [(Traded.poolFreed _).train, started, boarded.train]
  · rw [(Traded.poolFreed _).ctl] at he
    exact boarded.ctl ▸ contributed.order e he
  · rw [if_pos gate]
    exact ⟨Dev.coll_poolFreed_fresh boarded.coll hs h1 h2, Dev.mem_poolFreed_boarded boarded hs h1 h2⟩

/-- The next bucket is marked as started. -/
def Machine.Dev.nextBucket (d : Dev) (b : Nat) : Dev :=
  let d := { d with train := { d.train with started := b + 1 } }
  if b + 1 = d.bucketCount then d.setF R.COL_BUCKET_STATUS_PROPOSED 0 d.proposal else d

theorem nextBucket_spec (d : Dev) (b : Nat) :
    let t := d.nextBucket b
    t.cells = d.cells ∧ t.mem = d.mem ∧ t.ctl = d.ctl ∧ t.train.started = b + 1 ∧ t.fab = d.fab ∧ t.gateShut = d.gateShut := by
  unfold Dev.nextBucket
  extract_lets _ e t
  have ht : t = e ∨ t = e.setF R.COL_BUCKET_STATUS_PROPOSED 0 e.proposal := by
    unfold t
    split
    · exact .inr rfl
    · exact .inl rfl
  rcases ht with ht | ht
  · rw [ht]
    exact ⟨rfl, rfl, rfl, rfl, rfl, rfl⟩
  · rw [ht]
    refine ⟨rfl, rfl, rfl, rfl, rfl, ?_⟩
    unfold Dev.gateShut Dev.step
    rw [Dev.getF_setF_place (by decide), Dev.getF_setF_place (by decide), Dev.getF_setF_place (by decide)]
    rfl

/-- A bucket that is complete and next in its turn enters flight. -/
theorem startBucket_eq {d : Dev} {p : GradPlan} {b : Nat} (hp : d.train.plan = some p) (active : d.jobActive = true) (turn : b = d.train.started)
    (inside : b < d.bucketCount) (done : d.bucketIn d.train.doneGrads b = true) (engine : d.engineUp (b % 4) = true) (group : d.groupOk p.group = true) :
    d.startBucket b = (d.nextBucket b).launchColl (d.bucketColl p b) := by
  have goes : (!d.jobActive || decide (b ≠ d.train.started) || decide (d.bucketCount ≤ b) || !d.bucketIn d.train.doneGrads b || !d.engineUp (b % 4)) = false := by
    simp only [active, done, engine, ← turn]
    simpa using inside
  have begins : Dev.groupOk { d with train := { d.train with started := b + 1 } } p.group = true := group
  unfold Dev.startBucket
  rw [hp]
  dsimp only
  rw [goes, begins]
  rfl

/-- R274, R341: the next bucket of the plan starts in its turn. -/
theorem answers_bucketStart {p : GradPlan} {b : Nat} (up : s.dev.up = true) (held : NothingHeld s) (hp : s.dev.train.plan = some p)
    (active : s.dev.jobActive = true) (turn : b = s.dev.train.started) (inside : b < s.dev.bucketCount)
    (done : s.dev.bucketIn s.dev.train.doneGrads b = true) (engine : s.dev.engineUp (b % 4) = true) (group : s.dev.groupOk p.group = true)
    (fresh : s.dev.coll (s.dev.bucketColl p b).key = none) (parked : ∀ q ∈ s.dev.fab.parked, packetKey q ≠ (s.dev.bucketColl p b).key) :
    (Answers (.bucketExchangeStart b) s fun t => t.train.started = b + 1 ∧ t.cells = s.dev.cells)
      ∧ (s.dev.gateShut = true → Answers (.bucketExchangeStart b) s fun t =>
        t.coll (s.dev.bucketColl p b).key = some (s.dev.bucketColl p b) ∧ ((∀ y ∈ s.dev.fab.colls, y.isBucket = false) → t.mem = s.dev.mem)) := by
  obtain ⟨-, leaf, leaves⟩ := group_of_groupOk group
  obtain ⟨cellsN, memN, ctlN, startedN, fabN, gateN⟩ := nextBucket_spec s.dev b
  obtain ⟨cells, started, order, shut⟩ := launch_spec (d := s.dev.nextBucket b) (x := s.dev.bucketColl p b) rfl leaf leaves
    (by rw [Dev.coll, fabN]; exact fresh) (by rw [fabN]; exact parked)
  rw [gateN, fabN, memN] at shut
  have settled : ((s.dev.nextBucket b).launchColl (s.dev.bucketColl p b)).settle = (s.dev.nextBucket b).launchColl (s.dev.bucketColl p b) :=
    Dev.settle_of_nothing_held fun e he => held e (ctlN ▸ order e he)
  have runs : (s.dev.startBucket b).settle = (s.dev.nextBucket b).launchColl (s.dev.bucketColl p b) := by
    rw [startBucket_eq hp active turn inside done engine group, settled]
  refine ⟨.of_onDev (fun d => (d.startBucket b).settle) rfl up ?_, fun gate => .of_onDev (fun d => (d.startBucket b).settle) rfl up ?_⟩
  · rw [runs]
    exact ⟨started.trans startedN, cells.trans cellsN⟩
  · rw [runs]
    exact shut gate

/-- A bucket out of turn, or without a job, does nothing. -/
theorem answers_bucketStart_idle {b : Nat} (up : s.dev.up = true) (held : NothingHeld s) (idle : b ≠ s.dev.train.started ∨ s.dev.jobActive = false) :
    Answers (.bucketExchangeStart b) s fun t => t = s.dev := by
  have same : s.dev.startBucket b = s.dev := by
    unfold Dev.startBucket
    split
    · rfl
    · refine if_pos ?_
      rcases idle with turn | active
      · simp [turn]
      · simp [active]
  refine .of_onDev (fun d => (d.startBucket b).settle) rfl up ?_
  rw [same]
  exact Dev.settle_of_nothing_held held

/-- Settles O32. A collective boards its engine (`Dev.boarded`), contributes unless the gate is shut, and nothing that comes free in the
response pools moves it, since nothing of it has come yet. -/
theorem collectivesEnterFlight : Obligations.CollectivesEnterFlight := by
  intro s c b p up held
  dsimp only
  refine ⟨fun hb hn ha hg fresh hr hw => ?_, fun hp active turn inside done engine group fresh => ?_, answers_bucketStart_idle up held⟩
  · have starts {i : Instr} {opc : Nat} (he : exec i s = s.onDev fun d => d.jobCommand opc c) (hc : 7 ≤ opc ∧ opc ≤ 9) :=
      answers_direct he hc up held hb hn ha hg fresh.1 fresh.2 hr hw
    exact ⟨starts rfl (by decide), starts rfl (by decide), starts rfl (by decide)⟩
  · exact answers_bucketStart up held hp active turn inside done engine group fresh.1 fresh.2

end Sys2Proof
end

