-- ==== Sys2Proof/Proofs/JobStarts.lean ====
section
/-! Obligation O13: a job starts and ends (R11, R18, R19, R68). -/

namespace Sys2Proof.Machine

/-! ### What the rest of a job's start leaves -/

/-- The fields that show a job that has started. -/
def jobFields : List Field := [R.GLB_JOB_STATUS_ACTIVE, R.GLB_JOB_STATUS_REFUSE, R.GLB_STEP, R.PCI_JOB_NEXT, R.BLK_STATE_STATE GLB]

/-- Other homes than theirs. -/
def openHome (k : Nat) : Prop := ∀ f ∈ jobFields, k ≠ f.key 0

/-- What shows that a job has started stays, and nothing enters command order. -/
structure JobOpen (d t : Dev) : Prop where
  touches : Touches openHome d t
  checked : t.ctl.gsbChecked = d.ctl.gsbChecked
  order : ∀ e ∈ t.ctl.order, e ∈ d.ctl.order
  unsealed : d.sow.unsealed = [] → t.sow.unsealed = []
  replay : t.sow.replay = d.sow.replay

namespace JobOpen

variable {d e t : Dev}

theorem of_touches {S : Nat → Prop} (h : Touches S d t) (hs : ∀ f ∈ jobFields, ¬ S (f.key 0)) (hc : t.ctl = d.ctl)
    (hu : t.sow.unsealed = d.sow.unsealed) (hr : t.sow.replay = d.sow.replay) : JobOpen d t :=
  ⟨h.mono fun k hk f hf e => hs f hf (e ▸ hk), by rw [hc], fun e he => by rw [← hc]; exact he, fun h => hu.trans h, hr⟩

theorem of_state (hf : t.fields = d.fields) (hc : t.ctl.gsbChecked = d.ctl.gsbChecked) (ho : t.ctl.order = d.ctl.order)
    (hu : t.sow.unsealed = d.sow.unsealed) (hr : t.sow.replay = d.sow.replay) : JobOpen d t :=
  ⟨.of_fields hf, hc, fun e he => by rw [← ho]; exact he, fun h => hu.trans h, hr⟩

theorem of_noise (h : Noise d t) : JobOpen d t :=
  .of_touches (h.touches fun _ => False) (fun _ _ h => h) h.reports.ctl (by rw [h.reports.sow]) (by rw [h.reports.sow])

theorem refl (d : Dev) : JobOpen d d := of_noise (.refl d)

theorem trans (h : JobOpen d e) (g : JobOpen e t) : JobOpen d t :=
  ⟨h.touches.trans g.touches, g.checked.trans h.checked, fun x hx => h.order x (g.order x hx), fun n => g.unsealed (h.unsealed n),
    g.replay.trans h.replay⟩

theorem ite {a b : Dev} {p : Prop} [Decidable p] (ha : JobOpen d a) (hb : JobOpen d b) : JobOpen d (if p then a else b) := by
  split
  · exact ha
  · exact hb

theorem foldl {α : Type} {f : Dev → α → Dev} (h : ∀ e x, JobOpen e (f e x)) (xs : List α) (d : Dev) : JobOpen d (xs.foldl f d) := by
  induction xs generalizing d with
  | nil => exact refl d
  | cons x xs ih => exact (h d x).trans (ih _)

/-- A store into another home. -/
theorem setF_key (d : Dev) {f : Field} {i : Nat} (hk : ∀ g ∈ jobFields, f.key i ≠ g.key 0) (hp : f.place ≠ 1024) (v : Nat) : JobOpen d (d.setF f i v) :=
  ⟨.setF d hk hp v, rfl, fun _ h => h, fun h => h, rfl⟩

/-- A store at another place. -/
theorem setF (d : Dev) {f : Field} (hf : f.place ∉ 1024 :: jobFields.map Field.place) (i v : Nat) : JobOpen d (d.setF f i v) := by
  rw [List.mem_cons, not_or] at hf
  exact setF_key d (fun g hg e => Field.key_ne (fun e' => hf.2 (by rw [e']; exact List.mem_map_of_mem hg)) i 0 e) hf.1 v

/-- An access to memory. -/
theorem of_memOnly (h : MemOnly d t) (hc : Captured d t) : JobOpen d t := by
  have out : ∀ f ∈ jobFields, f.quiet = true ∧ f.off ≠ 192 ∧ f.off ≠ 196 := by decide
  exact .of_touches h.touches (fun f hf => not_ueHome (out f hf).1 (out f hf).2 0) h.ctl (by rw [hc.kept]) (by rw [hc.kept])

theorem write (d : Dev) (a : Nat) (bs : List Byte) : JobOpen d (d.write a bs) := of_memOnly (.write ..) (.write ..)

theorem writeRaw (d : Dev) (a : Nat) (bs : List Byte) : JobOpen d (d.writeRaw a bs) := of_memOnly (.writeRaw ..) (.of_sow (Dev.sow_writeRaw ..))

theorem of_collected (h : Collected d t) : JobOpen d t := by
  have out : ∀ f ∈ jobFields, f.quiet = true ∧ (f.off ≠ 192 ∧ f.off ≠ 196)
      ∧ f.place ∉ [R.FLW_POOL_FREE_N.place, R.FLW_POOL_FREE_S.place] ++ endFields.map Field.place := by decide
  have kept := h.captured.kept
  refine ⟨h.touches.mono fun k hk f hf e => not_collectHome (out f hf).1 (out f hf).2.1 (out f hf).2.2 0 (e ▸ hk), by rw [h.kept], h.order,
    fun none => ?_, ?_⟩
  · rw [kept]
    exact none
  · rw [kept]

theorem of_sent (h : Sent d t) : JobOpen d t := of_collected (.of_traded (K := fun _ => True) (.of_sent h))

theorem clearStats (d : Dev) (n : Nat) : JobOpen d (d.clearStats n) := foldl (fun e _ => write e ..) _ d

theorem clearRing (d : Dev) : JobOpen d d.clearRing := by
  have shown := (setF d (f := R.NUM_RING_PROD_PROD) (by decide) 0 0).trans (setF _ (f := R.NUM_RING_CONS_CONS) (by decide) 0 0)
  exact shown.trans (of_state rfl rfl rfl rfl rfl)

theorem checkCacheRev (d : Dev) : JobOpen d d.checkCacheRev := by
  have dropped : JobOpen d d.dropCache := of_state rfl rfl rfl rfl rfl
  exact ite (refl d) (dropped.trans (writeRaw ..))

theorem gsbUnchecked (d : Dev) : JobOpen d d.gsbUnchecked := ite (write ..) (refl d)

theorem setMask (d : Dev) (k m : Nat) : JobOpen d (d.setMask k m) := by
  have places : ∀ w < 32, (R.PLT_MEMBER w).place ∉ 1024 :: jobFields.map Field.place := by decide
  unfold Dev.setMask
  have range : ∀ w ∈ List.range 32, w < 32 := fun w => List.mem_range.1
  generalize List.range 32 = ws at range
  induction ws generalizing d with
  | nil => exact refl d
  | cons w ws ih => exact (setF d (places w (range w List.mem_cons_self)) k _).trans (ih _ fun v hv => range v (List.mem_cons_of_mem _ hv))

theorem resolveMap (d : Dev) (before : List Nat) : JobOpen d (d.resolveMap before) := by
  unfold Dev.resolveMap
  extract_lets after res _ e
  have noted : JobOpen d e := of_state rfl rfl rfl rfl rfl
  clear_value e
  have moved : JobOpen e ((List.range 64).foldl (fun d k => if res.getD k 0 = after.getD k 0 then d else (d.setMask k (res.getD k 0)).setErr PLT k 16) e) :=
    foldl (fun e k => ite (refl e) ((setMask ..).trans (of_noise (.setErr ..)))) _ e
  exact ite noted ((noted.trans moved).trans (of_state rfl rfl rfl rfl rfl))

theorem logAgain (d : Dev) (recs : NMap (List Byte)) : JobOpen d (d.logAgain recs) := by
  refine foldl (fun e x => ?_) _ d
  have noted : JobOpen e { e with sow := { e.sow with recCopies := mput x.1 x.2 e.sow.recCopies } } := of_state rfl rfl rfl rfl rfl
  exact noted.trans (writeRaw ..)

theorem rebase (d : Dev) (steps : List Nat) (recs : NMap (List Byte)) : JobOpen d (d.rebase steps recs) :=
  ⟨.of_fields rfl, rfl, fun _ h => h, fun _ => rfl, rfl⟩

theorem unsealed_unseal (d : Dev) : JobOpen d d.unseal :=
  ((setF d (by decide) 0 0).trans (setF _ (by decide) 0 _)).trans (setF _ (by decide) 0 2)

theorem sendBase (d : Dev) : JobOpen d d.sendBase := by
  obtain ⟨o, n, a, sent⟩ := d.sendBase_spec
  have noted : JobOpen d { d with out := o, sow := { d.sow with baseNext := n, baseActive := a } } := of_state rfl rfl rfl rfl rfl
  exact noted.trans (of_sent sent)

theorem startBase (d : Dev) : JobOpen d d.startBase := by
  rw [Dev.startBase_eq]
  exact ((((logAgain ..).trans (rebase ..)).trans (unsealed_unseal _)).trans (sendBase _)).trans (of_collected (.openGate _))

theorem place (d : Dev) (c : JobCmd) : JobOpen d (d.place c) := by
  unfold Dev.place
  refine ite ?_ (ite (of_state rfl rfl rfl rfl rfl) (ite (of_state rfl rfl rfl rfl rfl) (refl d)))
  split
  · rw [Dev.placeBuckets_kept]
    exact of_state rfl rfl rfl rfl rfl
  · exact refl d

theorem placeAll (d : Dev) : JobOpen d d.placeAll := foldl (fun e (x : OrderEntry) => place e x.cmd) _ d

theorem openWindows (d : Dev) : JobOpen d d.openWindows := by
  have steps {β : Type} (f : Dev × NMap Int → β → Dev × NMap Int) (h : ∀ a x, JobOpen a.1 (f a x).1) (xs : List β) (a : Dev × NMap Int) :
      JobOpen a.1 (xs.foldl f a).1 := by
    induction xs generalizing a with
    | nil => exact refl a.1
    | cons x xs ih => exact (h a x).trans (ih _)
  unfold Dev.openWindows
  extract_lets gs step r
  have drawn : JobOpen d r.1 := steps step (fun a g => by
    show JobOpen a.1 (if _ then ((0 : Nat), a.1) else a.1.draw).2
    split
    · exact refl a.1
    · exact of_state rfl rfl rfl rfl rfl) _ (d, [])
  clear_value r
  exact drawn.trans (of_state rfl rfl rfl rfl rfl)

theorem freshStep (d : Dev) : JobOpen d d.freshStep := by
  unfold Dev.freshStep
  extract_lets t _ _ _ _ e
  have fresh : JobOpen d e := of_state rfl rfl rfl rfl rfl
  clear_value e
  exact ((fresh.trans (placeAll e)).trans (openWindows _)).trans (of_collected (.of_ended (.of_noted (.closeVote _))))

end JobOpen

/-! ### The start of a job -/

/-- The job's own state as it starts. -/
def Dev.jobState (d : Dev) (z : Nat) : Dev :=
  { d with
    train := Train.reset
    ctl := { d.ctl with gsbChecked := false, waitBounds := false, noClose := false, endAsked := false, replayAsked := 0,
                        markHeld := false, heldMeasure := none, prevBusy := [], rebTried := false }
    sow := { d.sow with unsealed := [], baseSteps := [], recCopies := [], reached := 2 ^ 64 - 1, initCode := z, capNext := none,
                        replay := [], replayUntil := none, reexec := false, planAtOnce := false, planFirst := none, blindStep := none } }

/-- The job is shown as started. -/
def Dev.showJob (d : Dev) : Dev :=
  (((d.setF R.GLB_JOB_STATUS_ACTIVE 0 1).setF R.PCI_JOB_NEXT 0 0).setF R.GLB_STEP 0 0).setBlk GLB 0 stRunning

/-- The rest of the start. -/
def Dev.restOfStart (d : Dev) (z : Nat) : Dev :=
  let d := ((d.setF R.SOW_LSN 0 0).setF R.SOW_LAST_SEALED 0 (2 ^ 64 - 1)).setF R.SOW_SEAL_STATUS_SEALED_VALID 0 0
  let d := ((d.setF R.SOW_MIRROR_STATUS_CAP 0 d.capBounds.2).setF R.COL_BUCKET_STATUS_CURRENT 0 z).setF R.COL_GRAD_DUP_COUNT 0 0
  let d := (((d.clearRing.setF R.NUM_RING_DROPPED_DROPPED 0 0).clearStats 0).clearStats 1).checkCacheRev
  let d := (d.resolveMap d.heldMap).gsbUnchecked
  (if d.streaming then d.startBase else d).freshStep

/-- The code of the bucket size with which a job starts. -/
def Dev.initialCode (d : Dev) : Nat := max 2 (min 8 (d.getF R.COL_BUCKET_INIT_CODE 0))

theorem Dev.beginJob_eq (d : Dev) : d.beginJob = ((d.jobState d.initialCode).showJob).restOfStart d.initialCode := rfl

theorem JobOpen.restOfStart (d : Dev) (z : Nat) : JobOpen d (d.restOfStart z) := by
  unfold Dev.restOfStart
  extract_lets e1 e2 e3 e4
  have first : JobOpen d e1 := ((setF d (by decide) 0 0).trans (setF _ (by decide) 0 _)).trans (setF _ (by decide) 0 0)
  have second : JobOpen e1 e2 := ((setF_key e1 (by decide) (by decide) _).trans (setF _ (by decide) 0 _)).trans (setF _ (by decide) 0 0)
  have third : JobOpen e2 e3 := ((((clearRing e2).trans (setF _ (by decide) 0 0)).trans (clearStats _ 0)).trans (clearStats _ 1)).trans (checkCacheRev _)
  have fourth : JobOpen e3 e4 := (resolveMap e3 _).trans (gsbUnchecked _)
  exact ((((first.trans second).trans third).trans fourth).trans (ite (startBase e4) (refl e4))).trans (freshStep _)

/-- What a job that has been shown as started shows. -/
theorem Dev.showJob_spec (d : Dev) :
    let t := d.showJob
    t.getF R.GLB_JOB_STATUS_ACTIVE 0 = 1 ∧ t.getF R.GLB_JOB_STATUS_REFUSE 0 = d.getF R.GLB_JOB_STATUS_REFUSE 0 ∧ t.step = 0
      ∧ t.blk GLB 0 = stRunning ∧ t.getF R.PCI_JOB_NEXT 0 = 0 ∧ t.ctl = d.ctl ∧ t.sow = d.sow := by
  unfold Dev.showJob
  extract_lets t
  let e := ((d.setF R.GLB_JOB_STATUS_ACTIVE 0 1).setF R.PCI_JOB_NEXT 0 0).setF R.GLB_STEP 0 0
  have active : e.getF R.GLB_JOB_STATUS_ACTIVE 0 = 1 := by
    rw [Dev.getF_setF_place (by decide), Dev.getF_setF_place (by decide), Dev.getF_setF_same]
    rfl
  have refuse : e.getF R.GLB_JOB_STATUS_REFUSE 0 = d.getF R.GLB_JOB_STATUS_REFUSE 0 := by
    rw [Dev.getF_setF_place (by decide), Dev.getF_setF_place (by decide), Dev.getF_setF_place (by decide)]
  have step : e.getF R.GLB_STEP 0 = 0 := by
    rw [Dev.getF_setF_same]
    rfl
  have next : e.getF R.PCI_JOB_NEXT 0 = 0 := by
    rw [Dev.getF_setF_place (by decide), Dev.getF_setF_same]
    rfl
  have same : e.ctl = d.ctl ∧ e.sow = d.sow := ⟨rfl, rfl⟩
  have moved : Moved GLB 0 e t := .setBlk e (by decide)
  have running : t.blk GLB 0 = stRunning := Dev.blk_setBlk_page e (by decide) (by decide)
  clear_value t e
  have kept (f : Field) (hf : f.place ∉ (blockFields GLB).map Field.place) : t.getF f 0 = e.getF f 0 := getF_of_moved (by decide) moved hf 0
  exact ⟨(kept _ (by decide)).trans active, (kept _ (by decide)).trans refuse, (kept _ (by decide)).trans step, running,
    (kept _ (by decide)).trans next, by rw [moved.rest]; exact same.1, by rw [moved.rest]; exact same.2⟩

/-- What a job's fields show stays. -/
theorem JobOpen.getF {d t : Dev} (h : JobOpen d t) {f : Field} (hf : f ∈ jobFields) : t.getF f 0 = d.getF f 0 := by
  have quiet : ∀ g ∈ jobFields, g.quiet = true := by decide
  exact h.touches.getF (quiet f hf) (by decide) fun out => out f hf rfl

/-- A job that has begun, on a device where no command waits. -/
theorem Dev.beginJob_spec {d : Dev} (h : d.ctl.order = []) :
    let t := d.beginJob
    t.jobActive = true ∧ t.getF R.GLB_JOB_STATUS_REFUSE 0 = d.getF R.GLB_JOB_STATUS_REFUSE 0 ∧ t.step = 0 ∧ t.blk GLB 0 = stRunning
      ∧ t.getF R.PCI_JOB_NEXT 0 = 0 ∧ t.ctl.gsbChecked = false ∧ t.sow.unsealed = [] ∧ t.sow.replay = [] ∧ t.ctl.order = [] := by
  rw [Dev.beginJob_eq]
  generalize d.initialCode = z
  have refused : (d.jobState z).getF R.GLB_JOB_STATUS_REFUSE 0 = d.getF R.GLB_JOB_STATUS_REFUSE 0 := rfl
  have state : (d.jobState z).ctl.gsbChecked = false ∧ (d.jobState z).sow.unsealed = [] ∧ (d.jobState z).sow.replay = []
      ∧ (d.jobState z).ctl.order = d.ctl.order := ⟨rfl, rfl, rfl, rfl⟩
  obtain ⟨checked, unsealed, replay, order⟩ := state
  obtain ⟨active, refuse, step, running, next, ctl, sow⟩ := (d.jobState z).showJob_spec
  have rest := JobOpen.restOfStart (d.jobState z).showJob z
  have blk (e : Dev) : e.blk GLB 0 = e.getF (R.BLK_STATE_STATE GLB) 0 := rfl
  refine ⟨decide_eq_true ?_, ?_, ?_, ?_, ?_, ?_, ?_, ?_, ?_⟩
  · rw [rest.getF (by simp [jobFields]), active]
  · rw [rest.getF (by simp [jobFields]), refuse, refused]
  · rw [Dev.step, rest.getF (by simp [jobFields])]
    exact step
  · rw [blk, rest.getF (by simp [jobFields]), ← blk, running]
  · rw [rest.getF (by simp [jobFields]), next]
  · rw [rest.checked, ctl, checked]
  · exact rest.unsealed (by rw [sow, unsealed])
  · rw [rest.replay, sow, replay]
  · refine List.eq_nil_iff_forall_not_mem.2 fun e he => ?_
    have there := rest.order e he
    rw [ctl, order, h] at there
    cases there

/-! ### The check of the item table -/

/-- The item table's check shows its finding. -/
def Dev.showItems (d : Dev) : Dev :=
  ((d.setF R.SOW_ITEM_STATUS_VALID 0 (b2n (decide (d.itemCheck.1 ≠ 0)))).setF R.SOW_ITEM_STATUS_CAUSE 0 d.itemCheck.1).setF
    R.SOW_ITEM_STATUS_INDEX 0 d.itemCheck.2

theorem Dev.checkItems_fails {d : Dev} (h : d.checkItems.1 = false) : d.checkItems.2 = d.showItems := by
  unfold Dev.checkItems at h ⊢
  dsimp only at h ⊢
  split at h
  · next bad =>
    rw [if_pos bad]
    rfl
  · cases h

theorem Dev.order_checkItems (d : Dev) : d.checkItems.2.ctl.order = d.ctl.order := by
  unfold Dev.checkItems
  extract_lets r e its e' _
  have same : e.ctl = d.ctl := rfl
  have written : e'.ctl = e.ctl := (MemOnly.foldl (fun (e : Dev) (x : Item × Nat) => .write e _ (leBytes 8 x.1.imageOff)) _ e).ctl
  clear_value e e'
  split
  · rw [same]
  · show e'.ctl.order = _
    rw [written, same]

end Sys2Proof.Machine

namespace Sys2Proof

open Machine

variable {s : State} {w : Writer}

/-- What START does without a job, when nothing is refused at once. -/
def Machine.Dev.startsJob (d : Dev) : Dev :=
  if d.checkItems.1 then (d.checkItems.2.setF R.GLB_JOB_STATUS_REFUSE 0 0).beginJob.settle else d.checkItems.2.setF R.GLB_JOB_STATUS_REFUSE 0 4

/-- What START does. -/
def Machine.Dev.jobStart (d : Dev) : Dev :=
  if d.jobActive then d else if d.startRefused ≠ 0 then d.setF R.GLB_JOB_STATUS_REFUSE 0 d.startRefused else d.startsJob

theorem Answers.of_jobStart {post : Dev → Prop} (h : Writes s w) (hp : post s.dev.jobStart) : Answers (.jobStart w) s post :=
  .of_byWriter h Dev.jobStart rfl hp

theorem jobStart_idle (h : s.dev.jobActive = false) (hr : s.dev.startRefused = 0) : s.dev.jobStart = s.dev.startsJob := by
  unfold Dev.jobStart
  rw [if_neg (by rw [h]; decide), if_neg (not_not_intro hr)]

/-- R68, R404: a bad item table is refused with 4. -/
theorem answers_badTable (h : Writes s w) (idle : s.dev.jobActive = false) (hr : s.dev.startRefused = 0) (bad : s.dev.checkItems.1 = false) :
    Answers (.jobStart w) s fun t => t.jobActive = false ∧ t.getF R.GLB_JOB_STATUS_REFUSE 0 = 4 := by
  have does : s.dev.startsJob = s.dev.showItems.setF R.GLB_JOB_STATUS_REFUSE 0 4 := by
    unfold Dev.startsJob
    rw [if_neg (by rw [bad]; decide), Dev.checkItems_fails bad]
  refine .of_jobStart h ?_
  rw [jobStart_idle idle hr, does]
  refine ⟨?_, Dev.getF_setF_of_lt _ (by decide) _⟩
  unfold Dev.jobActive Dev.showItems at *
  rw [Dev.getF_setF_place (by decide), Dev.getF_setF_place (by decide), Dev.getF_setF_place (by decide), Dev.getF_setF_place (by decide)]
  exact idle

/-- R11, R68: a job starts in step 0. -/
theorem answers_jobStart (h : Writes s w) (idle : s.dev.jobActive = false) (hr : s.dev.startRefused = 0) (good : s.dev.checkItems.1 = true)
    (none : s.dev.ctl.order = []) : Answers (.jobStart w) s fun t =>
      t.jobActive = true ∧ t.getF R.GLB_JOB_STATUS_REFUSE 0 = 0 ∧ t.step = 0 ∧ t.blk GLB 0 = stRunning
        ∧ t.getF R.PCI_JOB_NEXT 0 = 0 ∧ t.ctl.gsbChecked = false ∧ t.sow.unsealed = [] ∧ t.sow.replay = [] := by
  have empty : (s.dev.checkItems.2.setF R.GLB_JOB_STATUS_REFUSE 0 0).ctl.order = [] := s.dev.order_checkItems.trans none
  have shown : (s.dev.checkItems.2.setF R.GLB_JOB_STATUS_REFUSE 0 0).getF R.GLB_JOB_STATUS_REFUSE 0 = 0 := Dev.getF_setF_of_lt _ (by decide) _
  have does : s.dev.startsJob = (s.dev.checkItems.2.setF R.GLB_JOB_STATUS_REFUSE 0 0).beginJob.settle := if_pos good
  refine .of_jobStart h ?_
  rw [jobStart_idle idle hr, does]
  generalize s.dev.checkItems.2.setF R.GLB_JOB_STATUS_REFUSE 0 0 = e at empty shown
  obtain ⟨active, refuse, step, running, next, checked, unsealed, replay, order⟩ := Dev.beginJob_spec empty
  rw [Dev.settle_of_nothing_held fun x hx => by rw [order] at hx; cases hx]
  exact ⟨active, refuse.trans shown, step, running, next, checked, unsealed, replay⟩

/-- Settles O13. Beside what a job shows when it starts (`Dev.showJob`), the rest of its start touches none of those fields
(`JobOpen.restOfStart`). -/
theorem jobsStartAndEnd : Obligations.JobsStartAndEnd := by
  intro s w h
  have ends : exec (.jobEnd w) s = s.byWriter w (fun d => if d.jobActive then { d with ctl := { d.ctl with endAsked := true } } else d) := rfl
  refine ⟨fun active => ⟨.of_jobStart h (if_pos active), .of_byWriter h _ ends (if_pos active)⟩,
    fun idle => ⟨.of_byWriter h _ ends (if_neg (by rw [idle]; decide)), fun refused => .of_jobStart h ?_, answers_badTable h idle, answers_jobStart h idle⟩⟩
  unfold Dev.jobStart
  rw [if_neg (by rw [idle]; decide), if_pos refused]

end Sys2Proof
end

