-- ==== Sys2Proof/Proofs/SoundRules.lean ====
section
/-! Every operation keeps stacked memory and the cell stores in their one form (R285, R298): reports, memory and cells. A lemma
`Dev.Sound.f` says so of the operation `Dev.f`; its proof follows the operation's own steps. -/

namespace Sys2Proof.Machine

/-- A cell whose store lists rising addresses and no zero byte. -/
def Cell.Sound (c : Cell) : Prop := bytesWf c.store = true

/-- Stacked memory and every cell store list rising addresses and no zero byte. -/
def Dev.Sound (d : Dev) : Prop := d.mem.wf ∧ ∀ e ∈ d.cells, e.2.Sound

namespace Cell.Sound

variable {c : Cell}

theorem ite {b : Cell} {p : Prop} [Decidable p] (hc : c.Sound) (hb : b.Sound) : (if p then c else b).Sound := by
  split
  · exact hc
  · exact hb

theorem ite_snd {α : Type} {a b : α × Cell} {p : Prop} [Decidable p] (ha : a.2.Sound) (hb : b.2.Sound) : (if p then a else b).2.Sound := by
  split
  · exact ha
  · exact hb

theorem setS {r : Nat} {v : Word} (h : c.Sound) : (c.setS r v).Sound := .ite h h

end Cell.Sound

namespace Dev.Sound

variable {d t : Dev}

theorem of_eq (h : d.Sound) (hm : t.mem.bytes = d.mem.bytes) (hc : t.cells = d.cells) : t.Sound := by
  unfold Dev.Sound Mem.wf
  rw [hm, hc]
  exact h

/-- A device that keeps the memory and the cells of a sound one. -/
theorem update {fresh fields acting shadow latches armed groupSeq testFails nv pins ctl plots sets sow harvest train fab pip media mediaWait
      thn pci pwr numx rasLog out} (h : d.Sound) :
    Dev.Sound ⟨fresh, fields, acting, shadow, latches, armed, groupSeq, testFails, nv, pins, ctl, plots, d.cells, sets, d.mem, sow, harvest,
      train, fab, pip, media, mediaWait, thn, pci, pwr, numx, rasLog, out⟩ := h

/-- The same of a device that differs in what memory keeps besides its bytes. -/
theorem updateMem {valid poison flips rowCe recalFails sweep fresh fields acting shadow latches armed groupSeq testFails nv pins ctl plots
      sets sow harvest train fab pip media mediaWait thn pci pwr numx rasLog out} (h : d.Sound) :
    Dev.Sound ⟨fresh, fields, acting, shadow, latches, armed, groupSeq, testFails, nv, pins, ctl, plots, d.cells, sets, ⟨d.mem.bytes, valid,
      poison, flips, rowCe, recalFails, sweep⟩, sow, harvest, train, fab, pip, media, mediaWait, thn, pci, pwr, numx, rasLog, out⟩ := h

theorem of_reports (h : d.Sound) (r : Reports d t) : t.Sound := h.of_eq (by rw [r.mem]) r.cells

theorem of_memWrite {a n : Nat} (h : d.Sound) (w : MemWrite d t a n) : t.Sound := ⟨w.wf h.1, by rw [w.cells]; exact h.2⟩

theorem of_collected (h : d.Sound) (c : Collected d t) : t.Sound := ⟨c.wf h.1, by rw [c.cells]; exact h.2⟩

theorem of_traded {K : CollKey → Prop} (h : d.Sound) (c : Traded K d t) : t.Sound := h.of_collected (.of_traded c)

theorem of_sent (h : d.Sound) (s : Sent d t) : t.Sound := h.of_eq (by rw [s.mem]) s.cells

theorem ite {a b : Dev} {p : Prop} [Decidable p] (ha : a.Sound) (hb : b.Sound) : (if p then a else b).Sound := by
  split
  · exact ha
  · exact hb

theorem fst {α : Type} {a : α} (h : d.Sound) : (d, a).1.Sound := h

theorem snd {α : Type} {a : α} (h : d.Sound) : (a, d).2.Sound := h

theorem ite_fst {α : Type} {a b : Dev × α} {p : Prop} [Decidable p] (ha : a.1.Sound) (hb : b.1.Sound) : (if p then a else b).1.Sound := by
  split
  · exact ha
  · exact hb

theorem ite_snd {α : Type} {a b : α × Dev} {p : Prop} [Decidable p] (ha : a.2.Sound) (hb : b.2.Sound) : (if p then a else b).2.Sound := by
  split
  · exact ha
  · exact hb

theorem ite_fst_snd {α β : Type} {a b : (α × Dev) × β} {p : Prop} [Decidable p] (ha : a.1.2.Sound) (hb : b.1.2.Sound) :
    (if p then a else b).1.2.Sound := by
  split
  · exact ha
  · exact hb

theorem elim {α : Type} {o : Option α} {f : α → Dev} (h : d.Sound) (hf : ∀ x, (f x).Sound) : (o.elim d f).Sound := by
  cases o with
  | none => exact h
  | some x => exact hf x

theorem foldl {α : Type} {f : Dev → α → Dev} {xs : List α} (h : d.Sound) (hf : ∀ e x, e.Sound → (f e x).Sound) : (xs.foldl f d).Sound := by
  induction xs generalizing d with
  | nil => exact h
  | cons x xs ih => exact ih (hf d x h)

/-- A device with what is passed on, which grows item by item. -/
theorem foldl_fst {α β : Type} {f : Dev × β → α → Dev × β} {a : Dev × β} {xs : List α} (h : a.1.Sound) (hf : ∀ a x, a.1.Sound → (f a x).1.Sound) :
    (xs.foldl f a).1.Sound := by
  induction xs generalizing a with
  | nil => exact h
  | cons x xs ih => exact ih (hf a x h)

/-! ### Cells -/

theorem cell {p : Nat} (h : d.Sound) : (d.cell p).Sound := by
  unfold Dev.cell mget
  cases hc : mfind p d.cells with
  | none => rfl
  | some c => exact h.2 (p, c) (mem_of_mfind hc)

theorem setCell {c : Cell} {p : Nat} (h : d.Sound) (hc : c.Sound) : (d.setCell p c).Sound := by
  refine ⟨h.1, fun e he => ?_⟩
  rcases mem_mput he with rfl | he
  · exact hc
  · exact h.2 e he

/-- Cells that change in something else than their stores. -/
theorem mapCells {f : Nat × Cell → Nat × Cell} (h : d.Sound) (hm : t.mem.bytes = d.mem.bytes) (hc : t.cells = d.cells.map f)
    (hf : ∀ e, e.2.Sound → (f e).2.Sound) : t.Sound := by
  refine ⟨by unfold Mem.wf; rw [hm]; exact h.1, fun e he => ?_⟩
  rw [hc] at he
  obtain ⟨x, hx, rfl⟩ := List.mem_map.1 he
  exact hf x (h.2 x hx)

end Dev.Sound

/-- An outcome whose next state, if there is one, is sound. -/
def Res.Sound (r : Res) : Prop := ∀ t, r = .next t → t.dev.Sound

namespace Res.Sound

variable {s t : State} {f : Dev → Dev}

theorem next (h : t.dev.Sound) : Res.Sound (.next t) := fun _ e => by
  obtain rfl := Host.Outcome.next.inj e
  exact h

theorem nextDev {pending : List Instr} {own : Own} {d : Dev} (h : d.Sound) : Res.Sound (.next ⟨pending, own, d⟩) := next h

theorem fault {f : Fault} : Res.Sound (.fault f) := fun _ e => nomatch e

theorem ite {a b : Res} {p : Prop} [Decidable p] (ha : Res.Sound a) (hb : Res.Sound b) : Res.Sound (if p then a else b) := by
  split
  · exact ha
  · exact hb

theorem onDev (h : s.dev.Sound) (hf : ∀ d, d.Sound → (f d).Sound) : Res.Sound (s.onDev f) := .ite (.next (hf _ h)) (.next h)

theorem byWriter {w : Writer} (h : s.dev.Sound) (hf : ∀ d, d.Sound → (f d).Sound) : Res.Sound (s.byWriter w f) :=
  .ite (.onDev h hf) (.next h)

theorem whenUp {r : Res} (h : s.dev.Sound) (hr : Res.Sound r) : Res.Sound (s.whenUp r) := .ite hr (.next h)

theorem onMemory {a n : Nat} (h : s.dev.Sound) (hf : ∀ d, d.Sound → (f d).Sound) : Res.Sound (s.onMemory a n f) :=
  .ite .fault (.onDev h hf)

end Res.Sound

end Sys2Proof.Machine
end

