-- ==== Sys2Proof/Proofs/SoundBlocks.lean ====
section
/-! Every operation keeps stacked memory and the cell stores in their one form (R285, R298):
registers, blocks, cells and links. -/

namespace Sys2Proof.Machine

namespace Cell.Sound

/-! ### The identity (R501, R502) -/

theorem reset : Cell.reset.Sound := rfl

end Cell.Sound

namespace Dev.Sound

variable {d t : Dev}

theorem reset : Dev.reset.Sound := ⟨rfl, fun _ he => nomatch he⟩

theorem setF {f : Field} {i v : Nat} (h : d.Sound) : (d.setF f i v).Sound := h.of_reports (.setF ..)

theorem setAct {f : Field} {i v : Nat} (h : d.Sound) : (d.setAct f i v).Sound := h.update

theorem satAdd {f : Field} {i n : Nat} (h : d.Sound) : (d.satAdd f i n).Sound := h.of_reports (.satAdd ..)

theorem bump {c i k n : Nat} (h : d.Sound) : (d.bump c i k n).Sound := h.of_reports (.bump ..)

theorem emit {o : Out} (h : d.Sound) : (d.emit o).Sound := h.of_reports (.emit ..)

theorem draw_snd (h : d.Sound) : d.draw.2.Sound := .snd h.update

theorem vectors {v : Nat} (h : d.Sound) : (d.vectors v).Sound := h.of_reports (.vectors ..)

theorem irq {c i b : Nat} (h : d.Sound) : (d.irq c i b).Sound := h.of_reports (.irq ..)

theorem setErrFull {c i b sev act addr : Nat} (h : d.Sound) : (d.setErrFull c i b sev act addr).Sound := h.of_reports (.setErrFull ..)

theorem setErr {c i b : Nat} (h : d.Sound) : (d.setErr c i b).Sound := h.of_reports (.setErr ..)

theorem lockedWrite {c i : Nat} (h : d.Sound) : (d.lockedWrite c i).Sound := h.of_reports (.lockedWrite ..)

theorem commitReject {c i : Nat} (h : d.Sound) : (d.commitReject c i).Sound := h.of_reports (.commitReject ..)

theorem setCommitState {c i v : Nat} (h : d.Sound) : (d.setCommitState c i v).Sound := h.of_reports (.setCommitState ..)

theorem setReturned {c i : Nat} {v : Bool} (h : d.Sound) : (d.setReturned c i v).Sound := h.update

theorem setPort {i : Nat} {p : Port} (h : d.Sound) : (d.setPort i p).Sound := h.update

theorem freeTransit {e : QPkt} (h : d.Sound) : (d.freeTransit e).Sound := by
  unfold Dev.freeTransit
  split
  · exact h.setPort
  · exact h

theorem forgetInput {i : Nat} (h : d.Sound) : (d.forgetInput i).Sound := h.update

theorem portDrop {i : Nat} (h : d.Sound) : (d.portDrop i).Sound := .setPort (.forgetInput (h.foldl (fun _ _ he => he.freeTransit)))

theorem portDown {i : Nat} (h : d.Sound) : (d.portDown i).Sound := .ite h.portDrop.setF.setF.setF.irq h.portDrop.setF.setF.setF

theorem stateFollows {c i v : Nat} (h : d.Sound) : (d.stateFollows c i v).Sound := .ite h.portDown (.ite h.setF (.ite h.irq h))

theorem setBlk {c i v : Nat} (h : d.Sound) : (d.setBlk c i v).Sound := .ite h h.setReturned.setF.irq.stateFollows

theorem policyTaken {c i : Nat} (h : d.Sound) : (d.policyTaken c i).Sound := h.of_reports (.policyTaken ..)

theorem policyWithheld {c i : Nat} (h : d.Sound) : (d.policyWithheld c i).Sound := h.of_reports (.policyWithheld ..)

theorem raiseReplace {c i reason : Nat} (h : d.Sound) : (d.raiseReplace c i reason).Sound := h.of_reports (.raiseReplace ..)

theorem failBlock {c i sev : Nat} (h : d.Sound) : (d.failBlock c i sev).Sound := h.setBlk.setErrFull

theorem refreshSummary {c : Nat} (h : d.Sound) : (d.refreshSummary c).Sound := .ite h.setF h

/-! ### Wear and grade -/

theorem healthFrom {d₀ : Dev} (h : d.Sound) : (Dev.healthFrom d₀ d).Sound := h.of_reports (.healthFrom ..)

theorem recordUe {a source : Nat} (h : d.Sound) : (d.recordUe a source).Sound := h.of_reports (.recordUe ..)

/-! ### Row retirement -/

theorem memHealth {d₀ : Dev} {k : Nat} (h : d.Sound) : (Dev.memHealth d₀ d k).Sound := by
  have shown : (Dev.healthFrom d₀ (if d₀.memWear k = d.memWear k then d else d.irq MEM k 4)).Sound := (Dev.Sound.ite h h.irq).healthFrom
  exact .ite shown.setErr.raiseReplace shown

/-! ### Reads, writes, staked adds and invalidation -/

theorem poisonRead {a : Nat} (h : d.Sound) : (d.poisonRead a).Sound := h.of_reports (.poisonRead ..)

theorem rmwDropped {a : Nat} (h : d.Sound) : (d.rmwDropped a).Sound := h.of_reports (.rmwDropped ..)

theorem meetRange {a n source : Nat} (h : d.Sound) : (d.meetRange a n source).Sound := h.of_memWrite (d.meetRange_spec a n source 0 0)

theorem noteRead {a n : Nat} (h : d.Sound) : (d.noteRead a n).Sound := h.of_memWrite (d.noteRead_spec a n)

theorem queueDelta {off : Nat} {line : List Byte} (h : d.Sound) : (d.queueDelta off line).Sound := h.update

theorem write {a : Nat} {bs : List Byte} (h : d.Sound) : (d.write a bs).Sound := h.of_memWrite (d.write_spec a bs)

theorem writeRaw {a : Nat} {bs : List Byte} (h : d.Sound) : (d.writeRaw a bs).Sound := h.of_memWrite (d.writeRaw_spec a bs)

theorem stakedAdd {width a q : Nat} (h : d.Sound) : (d.stakedAdd width a q).Sound := by
  unfold Dev.stakedAdd
  dsimp only
  split
  · exact h.meetRange.rmwDropped
  · exact h.meetRange.bump.write

theorem invalidate {a n : Nat} (h : d.Sound) : (d.invalidate a n).Sound := ⟨bytesWf_filter _ h.1, h.2⟩

theorem invalidateAll (h : d.Sound) : d.invalidateAll.Sound := ⟨Dev.invalidateAll_wf d, h.2⟩

/-! ### Cells and plots as data -/

theorem setPlot {k : Nat} {r : PlotRun} (h : d.Sound) : (d.setPlot k r).Sound := h.update

theorem setPhase {k ph : Nat} {p : PhaseRun} (h : d.Sound) : (d.setPhase k ph p).Sound := h.setPlot

theorem stageFreed (h : d.Sound) : d.stageFreed.Sound := h.mapCells rfl rfl (fun _ he => he)

theorem dropTiles {p : Nat} (h : d.Sound) : (d.dropTiles p).Sound := .stageFreed (.setCell (h.foldl (fun _ _ he => he.setPhase)) h.cell)

theorem returnTile {p : Nat} (h : d.Sound) : (d.returnTile p).Sound := .dropTiles (h.foldl (fun _ _ he => he.bump))

theorem clearTileRegs {p : Nat} (h : d.Sound) : (d.clearTileRegs p).Sound := h.setF.setF.setF

theorem joinRun {k p : Nat} (h : d.Sound) : (d.joinRun k p).Sound :=
  .ite h (.ite (.setBlk (.setF (.setF (.setF (h.setPlot.setCell h.cell))))) (.setF (.setF (.setF (h.setPlot.setCell h.cell)))))

theorem borrow {k : Nat} (h : d.Sound) : (d.borrow k).Sound := by
  unfold Dev.borrow
  refine .ite ?_ h
  split
  · exact h.foldl (fun _ _ he => .ite he.joinRun he)
  · exact h

theorem clocheCell {p : Nat} (h : d.Sound) : (d.clocheCell p).Sound := by
  unfold Dev.clocheCell
  dsimp only
  split
  · exact h.returnTile.clearTileRegs.setBlk.bump.borrow
  · exact h.returnTile.clearTileRegs.setBlk.bump

theorem setPassed {c i : Nat} {v : Bool} (h : d.Sound) : (d.setPassed c i v).Sound := h.update

theorem endFault {p : Nat} (h : d.Sound) : (d.endFault p).Sound := .ite h h.update.setF.setAct

theorem dropHost {p : Nat} (h : d.Sound) : (d.dropHost p).Sound := h.update

theorem clocheFault {p : Nat} (h : d.Sound) : (d.clocheFault p).Sound :=
  .ite h.update.bump.dropHost h.update.bump.dropHost.update.clocheCell.policyTaken

theorem trapFlags {cell cause addr : Nat} (h : d.Sound) : (d.trapFlags cell cause addr).Sound :=
  .setErrFull (.bump (.ite h.setF.setF.setErr (.ite h.setF.setF.setErr h.setF.setF)))

/-! ### Completion rings and command order -/

theorem setRing {port ring : Nat} {r : Ring} (h : d.Sound) : (d.setRing port ring r).Sound := h.update

theorem setCompletionRing {port ring : Nat} {r : Ring} (h : d.Sound) : (d.setCompletionRing port ring r).Sound := .ite h.setRing h.update

theorem post {port ring : Nat} {front back : List Byte} (h : d.Sound) : (d.post port ring front back).Sound :=
  .ite h.emit.setCompletionRing.bump.bump.emit h.emit.setCompletionRing.bump.bump

theorem postCompletion {c : JobCmd} {status value : Nat} (h : d.Sound) : (d.postCompletion c status value).Sound := .ite h h.post

theorem noteHeld (h : d.Sound) : d.noteHeld.Sound := by
  unfold Dev.noteHeld
  split
  · exact .ite h.update.bump h
  · exact h

theorem leaveOrder {c : JobCmd} (h : d.Sound) : (d.leaveOrder c).Sound := h.update.noteHeld

theorem complete {c : JobCmd} {status value : Nat} (h : d.Sound) : (d.complete c status value).Sound := h.leaveOrder.postCompletion

theorem enterOrder {c : JobCmd} {ph : OrderPhase} (h : d.Sound) : (d.enterOrder c ph).Sound := h.update

theorem begin {start : Dev → Dev} {c : JobCmd} (h : d.Sound) (hstart : ∀ e, e.Sound → (start e).Sound) : (d.begin c start).Sound :=
  .ite (.ite h.complete (hstart _ h.update)) (hstart _ h)

theorem issue {start : Dev → Dev} {c : JobCmd} (h : d.Sound) (hstart : ∀ e, e.Sound → (start e).Sound) : (d.issue c start).Sound :=
  .ite (h.enterOrder.begin (fun _ he => hstart _ he)) h.enterOrder

/-! ### Views: fields whose value follows from other state -/

theorem read32_snd {own : Own} {c i off : Nat} (h : d.Sound) : (d.read32 own c i off).2.Sound := by
  unfold Dev.read32
  split
  · exact .snd h.update
  · exact .ite_snd (.snd h.update) h

theorem badAccess {offset : Nat} {noPage width write : Bool} (h : d.Sound) : (d.badAccess offset noPage width write).Sound :=
  .setErr (.ite h.bump h.bump.setF.setF.setF.setF.setF)

theorem busRead_snd {own : Own} {offset size : Nat} (h : d.Sound) : (d.busRead own offset size).2.Sound :=
  .ite_snd (.snd h.badAccess) (.ite_snd (.snd h.badAccess) (.ite_snd h.read32_snd (.snd h.read32_snd.read32_snd)))

/-! ### The general register write -/

theorem writeRl {f : Field} {i v : Nat} {locked : Bool} (h : d.Sound) : (d.writeRl f i v locked).Sound := .ite h.setF.setAct
    (.ite h h.lockedWrite)

theorem writeW1c {f : Field} {i v : Nat} (h : d.Sound) : (d.writeW1c f i v).Sound :=
  .ite (.refreshSummary (.ite (h.setF.foldl (fun _ _ he => he.setF)) h.setF)) (.ite (h.setF.foldl (fun _ _ he => he.setF)) h.setF)

theorem checkRing (h : d.Sound) : d.checkRing.Sound := .ite h.setF.setAct.setErr h

theorem writeRingReg {f : Field} {port v : Nat} (h : d.Sound) : (d.writeRingReg f port v).Sound := .ite h (.ite h.lockedWrite h.setRing)

theorem writeRingCfg {port v : Nat} (h : d.Sound) : (d.writeRingCfg port v).Sound := .ite h (.ite h.setRing (.ite h.lockedWrite h.setRing))

theorem writeRw {f : Field} {i v : Nat} (h : d.Sound) : (d.writeRw f i v).Sound :=
  .ite h.writeRingReg (.ite h.setErr (.ite (.ite h.lockedWrite h) h.setF))

theorem writeRlField {f : Field} {i v : Nat} (h : d.Sound) : (d.writeRlField f i v).Sound := .ite h.setErr (.ite h.setErr h.writeRl)

theorem writeRs {f : Field} {i v : Nat} (h : d.Sound) : (d.writeRs f i v).Sound := .ite h.setErr h.update

theorem writeField {f : Field} {i v : Nat} (h : d.Sound) : (d.writeField f i v).Sound := by
  unfold Dev.writeField
  refine .ite h ?_
  split
  · exact h
  · exact h
  · exact h.writeW1c
  · exact h.writeRw
  · exact h.writeRs
  · exact h.writeRlField

theorem write32 {c i off v : Nat} (h : d.Sound) : (d.write32 c i off v).Sound :=
  .ite h (.ite h.writeRingCfg (.ite (.checkRing (h.foldl (fun _ _ he => he.writeField))) (h.foldl (fun _ _ he => he.writeField))))

theorem busWrite {offset size value : Nat} (h : d.Sound) : (d.busWrite offset size value).Sound :=
  .ite h.badAccess (.ite h.badAccess (.ite h.write32 h.write32.write32))

/-! ### Staged sets and commits -/

theorem dropStaged {c i : Nat} (h : d.Sound) : (d.dropStaged c i).Sound := h.update

theorem disarm {c i : Nat} (h : d.Sound) : (d.disarm c i).Sound := h.update

theorem clampPolicy {c i : Nat} (h : d.Sound) : (d.clampPolicy c i).Sound := by
  unfold Dev.clampPolicy
  split
  · exact .ite h h.setF.setAct.setErr
  · exact .ite h (.ite h h.setF.setAct.setErr)
  · exact .ite h h.setF.setAct.setErr
  · exact .ite (.setF (.bump (.ite h h.setF.setAct.setErr))) h
  · exact h

theorem applyCommit {c i : Nat} (h : d.Sound) : (d.applyCommit c i).Sound := by
  unfold Dev.applyCommit
  split
  · exact h
  · refine .ite (.clampPolicy (.setCommitState (.setF (.setF (.bump (.disarm (.dropStaged (h.foldl (fun _ _ he => ?_)))))))))
        (.setCommitState (.setF (.setF (.bump (.disarm (.dropStaged (h.foldl (fun _ _ he => ?_))))))))
    · split
      · exact .ite he.setErr he.setF.setAct
      · exact he
    · split
      · exact .ite he.setErr he.setF.setAct
      · exact he

theorem abortCommit {c i : Nat} (h : d.Sound) : (d.abortCommit c i).Sound := h.dropStaged.disarm.setCommitState

theorem abortUnarmed (h : d.Sound) : d.abortUnarmed.Sound := h.foldl (fun _ _ he => .ite he he.abortCommit)

/-! ### Values of RW fields begin to act -/

theorem rwActs {c i : Nat} (h : d.Sound) : (d.rwActs c i).Sound :=
  .refreshSummary (.ite (.vectors (h.foldl (fun _ _ he => he.setAct))) (h.foldl (fun _ _ he => he.setAct)))

theorem noteMismatch {source port dev : Nat} (h : d.Sound) : (d.noteMismatch source port dev).Sound :=
  .ite h.bump.setErr h.bump.setErr.setF.setF.setF.setF

theorem setTrust {dev : Nat} {fp : List Byte} (h : d.Sound) : (d.setTrust dev fp).Sound := h.update

theorem compareTrust_snd {source port dev : Nat} {fp : List Byte} (h : d.Sound) : (d.compareTrust source port dev fp).2.Sound := by
  unfold Dev.compareTrust
  split
  · exact .ite_snd h (.snd h.noteMismatch)
  · exact .ite_snd (.snd h.setTrust.bump) (.snd h.noteMismatch)

/-! ### Routing (R329 to R332) -/

theorem routeOut {p : Packet} (h : d.Sound) : (d.routeOut p).Sound := h.of_sent (.routeOut ..)

theorem rerouteAll (h : d.Sound) : d.rerouteAll.Sound := h.of_sent (.rerouteAll ..)

/-! ### Port events (R318 to R320, R353, R354) -/

theorem setLstate {i v : Nat} (h : d.Sound) : (d.setLstate i v).Sound := h.setF

theorem lnkHealth {d₀ : Dev} {i : Nat} (h : d.Sound) : (Dev.lnkHealth d₀ d i).Sound := (Dev.Sound.ite h h.irq).healthFrom

theorem portIdle {i lstate : Nat} (h : d.Sound) : (d.portIdle i lstate).Sound := h.portDrop.setLstate.setF.setF

theorem portLost {i : Nat} (h : d.Sound) : (d.portLost i).Sound := by
  unfold Dev.portLost
  exact .ite h.portIdle.setErr.lnkHealth.raiseReplace h.portIdle.setErr.lnkHealth

theorem portActive {i lanes : Nat} (h : d.Sound) : (d.portActive i lanes).Sound := h.setPort.setLstate.setF.setF.lnkHealth.rerouteAll

theorem startRetrain {i : Nat} (h : d.Sound) : (d.startRetrain i).Sound := h.portIdle.setErr.lnkHealth

theorem portDone {i lanes : Nat} (h : d.Sound) : (d.portDone i lanes).Sound := .ite h.setF.portActive (.ite h.portActive h.portLost)

theorem noteNeighbour {i : Nat} {n : Neighbour} (h : d.Sound) : (d.noteNeighbour i n).Sound := h.setF.setF.setF.setF

theorem identify {port : Nat} {n : Neighbour} (h : d.Sound) : (d.identify port n).Sound := by
  unfold Dev.identify
  refine .ite (.emit (.setPort ?_)) (.setErr (.setPort ?_))
  · split
    · exact h.emit.compareTrust_snd
    · exact .snd h.emit
  · split
    · exact h.emit.compareTrust_snd
    · exact .snd h.emit

end Dev.Sound

theorem execPortSignalDetect_sound {s : State} {port : Nat} {n : Neighbour} (h : s.dev.Sound) : Res.Sound (execPortSignalDetect port n s) :=
  .onDev h (fun _ he => .ite he he.setLstate.noteNeighbour.identify)

theorem execPortTrainingComplete_sound {s : State} {port : Nat} (h : s.dev.Sound) : Res.Sound (execPortTrainingComplete port s) := by
  unfold execPortTrainingComplete
  refine .onDev h (fun _ he => .ite ?_ he)
  split
  · exact he.setF.portDone
  · exact he

theorem execRetrain_sound {s : State} {w : Writer} {port : Nat} (h : s.dev.Sound) : Res.Sound (execRetrain w port s) :=
  .byWriter h (fun _ he => .ite he.badAccess (.ite he he.startRetrain))

namespace Dev.Sound

variable {d t : Dev}

theorem laneFail {port lane : Nat} (h : d.Sound) : (d.laneFail port lane).Sound :=
  .ite h (.ite h (.ite (.ite h.setF.setErr.policyTaken.startRetrain h.setF.setErr.policyTaken) h.setF.setErr.portLost))

end Dev.Sound

theorem execLaneFailure_sound {s : State} {port lane : Nat} (h : s.dev.Sound) : Res.Sound (execLaneFailure port lane s) :=
  .onDev h (fun _ he => he.laneFail)

theorem execSerdesPllLoss_sound {s : State} {lanes : List (Nat × Nat)} (h : s.dev.Sound) : Res.Sound (execSerdesPllLoss lanes s) :=
  .onDev h (fun _ he => he.foldl (fun _ _ hg => hg.laneFail))

theorem execRetrainComplete_sound {s : State} {port lanes : Nat} (h : s.dev.Sound) : Res.Sound (execRetrainComplete port lanes s) :=
  .onDev h (fun _ he => .ite he.portDone he)

namespace Dev.Sound

variable {d t : Dev}

/-! ### Flits (R321 to R324, R328, R331) -/

theorem sendTail {i : Nat} {kind : FlitKind} {vl seq : Nat} {last : Bool} {bs : List Byte} (h : d.Sound) :
    (d.sendTail i kind vl seq last bs).Sound :=
  h.setPort.emit.bump

theorem sendKept {i : Nat} {f : SentFlit} (h : d.Sound) : (d.sendKept i f).Sound := h.sendTail

theorem transitLeft {i : Nat} {e : QPkt} (h : d.Sound) : (d.transitLeft i e).Sound := by
  unfold Dev.transitLeft
  refine .ite ?_ (.bump ?_)
  · split
    · exact h.setPort
    · exact h
  · split
    · exact h.setPort
    · exact h

theorem sendFlit {i v : Nat} (h : d.Sound) : (d.sendFlit i v).Sound := by
  unfold Dev.sendFlit
  dsimp only
  split
  · exact h
  · exact h.setPort.transitLeft.sendKept

end Dev.Sound

theorem execFlitTransmit_sound {s : State} {port : Nat} (h : s.dev.Sound) : Res.Sound (execFlitTransmit port s) := by
  unfold execFlitTransmit
  refine .onDev h (fun _ he => .ite ?_ he)
  split
  · exact .ite he.sendFlit he.sendTail
  · exact he.sendTail

namespace Dev.Sound

variable {d t : Dev}

theorem replayPort {i : Nat} (h : d.Sound) : (d.replayPort i).Sound :=
  .ite h (.ite h.setErr.startRetrain (.bump (h.setPort.foldl (fun _ _ he => he.sendKept))))

end Dev.Sound

theorem execLinkReplayTimeout_sound {s : State} {port : Nat} (h : s.dev.Sound) : Res.Sound (execLinkReplayTimeout port s) :=
  .onDev h (fun _ he => .ite he.replayPort he)

namespace Dev.Sound

variable {d t : Dev}

theorem takeTail {i : Nat} {f : Tail} (h : d.Sound) : (d.takeTail i f).Sound := .ite h.setPort.replayPort h.setPort

theorem freeRx {i v n : Nat} (h : d.Sound) : (d.freeRx i v n).Sound := h.setPort

theorem setOpen {i v : Nat} {o : Option RxOpen} (h : d.Sound) : (d.setOpen i v o).Sound := h.setPort

theorem growTransit {o i v : Nat} {bs : List Byte} (h : d.Sound) : (d.growTransit o i v bs).Sound := h.setPort

theorem openPacket {i v : Nat} {p : Packet} (h : d.Sound) : (d.openPacket i v p).Sound := by
  unfold Dev.openPacket
  split
  · exact h.freeRx.setOpen
  · exact h.freeRx.bump.setErr.setOpen
  · exact h.setErr.setOpen
  · exact h.setPort.emit.setOpen

theorem growPacket {i v : Nat} {o : RxOpen} {bs : List Byte} (h : d.Sound) : (d.growPacket i v o bs).Sound := by
  unfold Dev.growPacket
  split
  · exact h.freeRx.setOpen
  · exact h.freeRx.setOpen
  · exact h.setOpen
  · exact h.growTransit.setOpen

theorem closePacket {i v : Nat} (h : d.Sound) : (d.closePacket i v).Sound := by
  unfold Dev.closePacket
  split
  · exact h
  · split
    · exact h.setOpen.update
    · exact h.setOpen.freeRx.routeOut
    · exact h.setOpen

theorem acceptFlit {i : Nat} {f : Flit} {q : Tail} (h : d.Sound) : (d.acceptFlit i f q).Sound := by
  unfold Dev.acceptFlit
  refine .ite (.closePacket ?_) ?_
  · split
    · exact h.setPort.openPacket
    · split
      · exact h.setPort.growPacket
      · exact h.setPort.freeRx
    · exact h.setPort
  · split
    · exact h.setPort.openPacket
    · split
      · exact h.setPort.growPacket
      · exact h.setPort.freeRx
    · exact h.setPort

theorem rejectFlit {i : Nat} (h : d.Sound) : (d.rejectFlit i).Sound := h.setPort

theorem takeFec_snd {i : Nat} {fec : FecWords} (h : d.Sound) : (d.takeFec i fec).2.Sound := .snd
    (.ite h.setPort.bump.bump h.setPort.bump.bump.setErr)

end Dev.Sound

theorem execFlitReceive_sound {s : State} {port : Nat} {x : RxFlit} (h : s.dev.Sound) : Res.Sound (execFlitReceive port x s) :=
  .onDev h (fun _ he => .ite (.ite he.bump.takeFec_snd.bump.rejectFlit (.ite he.bump.takeFec_snd.takeTail
      (.ite he.bump.takeFec_snd.takeTail.acceptFlit he.bump.takeFec_snd.takeTail.rejectFlit))) he)

theorem execTransitTimeout_sound {s : State} {port vl : Nat} (h : s.dev.Sound) : Res.Sound (execTransitTimeout port vl s) := by
  unfold execTransitTimeout
  refine .onDev h (fun _ he => ?_)
  dsimp only
  split
  · exact .ite he he.setPort.freeTransit.bump.setErr
  · exact he

theorem execLnkVlBufWrite_sound {s : State} {w : Writer} {port : Nat} {hi : Bool} {v : Nat} (h : s.dev.Sound) : Res.Sound
    (execLnkVlBufWrite w port hi v s) :=
  .byWriter h (fun _ he => .ite he.badAccess (.ite (.ite he he.lockedWrite)
      (.ite he.setErr (.ite he.setF.setF.setF.setF he.setF.setF.setF.setF))))

namespace Dev.Sound

variable {d t : Dev}

/-! ### Output planes -/

theorem rmw {f : Dev → Dev} {a n : Nat} (h : d.Sound) (hf : ∀ e, e.Sound → (f e).Sound) : (d.rmw a n f).Sound := by
  unfold Dev.rmw
  dsimp only
  split
  · exact h.meetRange.rmwDropped
  · exact hf _ h.meetRange

theorem applyStat {n : Nat} {measuring : Bool} {u : StatUpdate} (h : d.Sound) : (d.applyStat n measuring u).Sound :=
  h.rmw (fun _ he => .ite he.write (.write (.write (.write (.ite he.write.write he.write)))))

theorem clearStat {i n : Nat} (h : d.Sound) : (d.clearStat i n).Sound := h.write

theorem clearStats {n : Nat} (h : d.Sound) : (d.clearStats n).Sound := h.foldl (fun _ _ he => he.clearStat)

theorem setStatFlag {i n b : Nat} (h : d.Sound) : (d.setStatFlag i n b).Sound := h.rmw (fun _ he => he.write)

theorem setJit {i n : Nat} {sigma : Int} (h : d.Sound) : (d.setJit i n sigma).Sound := .setStatFlag (h.rmw (fun _ he => he.write))

theorem putHist {a cnt head : Nat} {sigma : Int} (h : d.Sound) : (d.putHist a cnt head sigma).Sound := h.write.write

theorem scaleUpdate {n : Nat} {voteSkip : Bool} {i : Nat} (h : d.Sound) : (d.scaleUpdate n voteSkip i).Sound :=
  h.rmw (fun _ he => .ite he.write (.ite he (.ite he.putHist (.ite (.putHist (.ite he he.write)) (.putHist (.ite he he.write))))))

theorem advance {cell n : Nat} (h : d.Sound) : (d.advance cell n).Sound := h.setF

theorem trapNote {k cell : Nat} {n : TrapNote} (h : d.Sound) : (d.trapNote k cell n).Sound := by
  unfold Dev.trapNote
  split
  · dsimp only
    split
    · exact .setErr (.ite h.setPlot.setBlk h.setPlot)
    · exact h.setPlot
  · dsimp only
    split
    · exact h
    · exact h.setPlot

theorem trap {cell cause addr : Nat} (h : d.Sound) : (d.trap cell cause addr).Sound := by
  unfold Dev.trap
  dsimp only
  split
  · exact h.trapFlags.clocheFault.setF.trapNote
  · exact h.trapFlags.clocheFault.setF

theorem illegal {cell : Nat} (h : d.Sound) : (d.illegal cell).Sound := h.trap

theorem instr {f : Dev → Dev} {cell : Nat} (h : d.Sound) (hf : ∀ e, e.Sound → (f e).Sound) : (d.instr cell f).Sound :=
  .ite (.ite (hf _ h) (.advance (hf _ h))) h

theorem storeBytes {cell a : Nat} {bs : List Byte} (h : d.Sound) : (d.storeBytes cell a bs).Sound := h.setCell (bytesWf_setBytes _ _ h.cell)

theorem event {cell k n : Nat} (h : d.Sound) : (d.event cell k n).Sound := h.setCell h.cell

/-! ### The scoreboard (R91) -/

theorem access {f : Dev → Dev} {cell : Nat} {reads writes : List (Nat × Nat)} (h : d.Sound) (hf : ∀ e, e.Sound → (f e).Sound) :
    (d.access cell reads writes f).Sound := by
  unfold Dev.access
  refine .ite h ?_
  split
  · exact h.trap
  · exact h.instr (fun _ he => hf _ he)

theorem launch {f : Dev → Dev} {cell : Nat} {reads writes : List (Nat × Nat)} (h : d.Sound) (hf : ∀ e, e.Sound → (f e).Sound) :
    (d.launch cell reads writes f).Sound :=
  .ite h (h.access (fun _ he => hf _ he))

/-! ### Numeric exceptions (R234, R235) -/

theorem recordX {cell kind : Nat} {q : Nat × Nat × Nat} {n : Nat} (h : d.Sound) : (d.recordX cell kind q n).Sound := h.setCell h.cell

theorem summarise {cell kind : Nat} {vector t3 : Bool} {q : Nat × Nat × Nat} {n : Nat} (h : d.Sound) :
    (d.summarise cell kind vector t3 q n).Sound :=
  .ite (h.setCell h.cell) (.ite h (.ite (.satAdd (h.setCell h.cell)) (h.setCell h.cell)))

theorem exceptions {cell kind : Nat} {hits : List (Nat × Nat × Nat)} {vector t3 quiet : Bool} (h : d.Sound) :
    (d.exceptions cell kind hits vector t3 quiet).Sound := by
  unfold Dev.exceptions
  split
  · exact h
  · exact .ite (.recordX (.ite h.setErr (h.setErr.setCell h.setErr.cell)))
        (.summarise (.recordX (.ite h.setErr (h.setErr.setCell h.setErr.cell))))

/-! ### Scalar instructions (R95, R96) -/

theorem alu {cell rd rs rt : Nat} {f : Word → Word → Word} (h : d.Sound) : (d.alu cell rd rs rt f).Sound :=
  h.instr (fun _ he => .ite (he.setCell he.cell.setS) he.illegal)

end Dev.Sound

theorem execAdd_sound {s : State} {cell rd rs rt : Nat} (h : s.dev.Sound) : Res.Sound (execAdd cell rd rs rt s) :=
  .onDev h (fun _ he => he.alu)

theorem execSub_sound {s : State} {cell rd rs rt : Nat} (h : s.dev.Sound) : Res.Sound (execSub cell rd rs rt s) :=
  .onDev h (fun _ he => he.alu)

theorem execMul_sound {s : State} {cell rd rs rt : Nat} (h : s.dev.Sound) : Res.Sound (execMul cell rd rs rt s) :=
  .onDev h (fun _ he => he.alu)

theorem execAnd_sound {s : State} {cell rd rs rt : Nat} (h : s.dev.Sound) : Res.Sound (execAnd cell rd rs rt s) :=
  .onDev h (fun _ he => he.alu)

theorem execOr_sound {s : State} {cell rd rs rt : Nat} (h : s.dev.Sound) : Res.Sound (execOr cell rd rs rt s) :=
  .onDev h (fun _ he => he.alu)

theorem execXor_sound {s : State} {cell rd rs rt : Nat} (h : s.dev.Sound) : Res.Sound (execXor cell rd rs rt s) :=
  .onDev h (fun _ he => he.alu)

theorem execShl_sound {s : State} {cell rd rs rt : Nat} (h : s.dev.Sound) : Res.Sound (execShl cell rd rs rt s) :=
  .onDev h (fun _ he => he.alu)

theorem execShr_sound {s : State} {cell rd rs rt : Nat} (h : s.dev.Sound) : Res.Sound (execShr cell rd rs rt s) :=
  .onDev h (fun _ he => he.alu)

theorem execCmp_sound {s : State} {cell : Nat} {cond : CondCode} {rd rs rt : Nat} (h : s.dev.Sound) : Res.Sound
    (execCmp cell cond rd rs rt s) :=
  .onDev h (fun _ he => he.alu)

theorem execLi_sound {s : State} {cell rd : Nat} {imm : Word} {long : Bool} (h : s.dev.Sound) : Res.Sound (execLi cell rd imm long s) :=
  .onDev h (fun _ he => he.instr (fun _ hg => .ite (.ite (.advance (hg.setCell hg.cell.setS)) (hg.setCell hg.cell.setS)) hg.illegal))

namespace Dev.Sound

variable {d t : Dev}

theorem jump {cell target : Nat} (h : d.Sound) : (d.jump cell target).Sound := .ite h.setF h.illegal

end Dev.Sound

theorem execBr_sound {s : State} {cell target : Nat} (h : s.dev.Sound) : Res.Sound (execBr cell target s) :=
  .onDev h (fun _ he => .ite he.jump he)

theorem execBcc_sound {s : State} {cell : Nat} {cond : CondCode} {rs target : Nat} (h : s.dev.Sound) : Res.Sound
    (execBcc cell cond rs target s) :=
  .onDev h (fun _ he => .ite (.ite he.illegal (.ite he.jump he.advance)) he)

theorem execCall_sound {s : State} {cell target : Nat} (h : s.dev.Sound) : Res.Sound (execCall cell target s) :=
  .onDev h (fun _ he => .ite (.ite he.illegal (.jump (he.setCell he.cell))) he)

theorem execRet_sound {s : State} {cell : Nat} (h : s.dev.Sound) : Res.Sound (execRet cell s) := by
  unfold execRet
  refine .onDev h (fun _ he => .ite ?_ he)
  dsimp only
  split
  · exact he.illegal
  · exact .jump (he.setCell he.cell)

namespace Dev.Sound

variable {d t : Dev}

theorem scalarMem {f : Dev → Dev} {cell : Nat} {regs : List Nat} {a n : Nat} {st : Bool} (h : d.Sound) (hf : ∀ e, e.Sound → (f e).Sound) :
    (d.scalarMem cell regs a n st f).Sound :=
  .ite h (.ite h.illegal (.ite h.trap (.ite h.trap (h.access (fun _ he => hf _ he)))))

end Dev.Sound

theorem execLd_sound {s : State} {cell rd rs : Nat} {offset : Int} {bytes : Nat} (h : s.dev.Sound) : Res.Sound
    (execLd cell rd rs offset bytes s) :=
  .onDev h (fun _ he => he.scalarMem (fun _ hg => hg.setCell hg.cell.setS))

end Sys2Proof.Machine
end

