-- ==== Sys2Proof/Proofs/SoundCells.lean ====
section
/-! Every operation keeps stacked memory and the cell stores in their one form (R285, R298):
flows, the instructions of cells, DMA and the thin channels. -/

namespace Sys2Proof.Machine

/-! ### Scalar instructions (R95, R96) -/

theorem execSt_sound {s : State} {cell rv rs : Nat} {offset : Int} {bytes : Nat} (h : s.dev.Sound) : Res.Sound
    (execSt cell rv rs offset bytes s) :=
  .onDev h (fun _ he => he.scalarMem (fun _ hg => hg.storeBytes))

namespace Dev.Sound

variable {d t : Dev}

/-! ### Flow contexts -/

theorem setFlow {f : Nat} {v : Flow} (h : d.Sound) : (d.setFlow f v).Sound := h.update

/-! ### Sending -/

theorem sendNow {f : Nat} {p : Packet} (h : d.Sound) : (d.sendNow f p).Sound := h.of_sent (.sendNow ..)

theorem control {f opc : Nat} (h : d.Sound) : (d.control f opc).Sound := h.of_sent (.control ..)

theorem sendOn {f : Nat} {p : Packet} (h : d.Sound) : (d.sendOn f p).Sound := h.of_sent (.sendOn ..)

theorem pump {f : Nat} (h : d.Sound) : (d.pump f).Sound := h.of_sent (.pump ..)

theorem pumpAll (h : d.Sound) : d.pumpAll.Sound := h.of_sent (.pumpAll ..)

theorem sendMgmt {peer sub : Nat} {p : Packet} (h : d.Sound) : (d.sendMgmt peer sub p).Sound := h.of_sent (.sendMgmt ..)

/-! ### Local operations (R336, R338) -/

theorem haltChannel {cell ch addr : Nat} (h : d.Sound) : (d.haltChannel cell ch addr).Sound := by
  unfold Dev.haltChannel
  dsimp only
  split
  · exact .setErrFull (.setF (.setF (.setF (.setF (h.setCell h.cell)))))
  · exact h

theorem remoteDone {cell ch : Nat} (h : d.Sound) : (d.remoteDone cell ch).Sound := by
  unfold Dev.remoteDone
  dsimp only
  split
  · exact h.setCell h.cell
  · exact h

theorem issuerDone {o : FlowOp} {addr code : Nat} (h : d.Sound) : (d.issuerDone o addr code).Sound :=
  .ite h (.ite h.remoteDone.trap (.ite (.ite h.remoteDone.haltChannel.update h.remoteDone.haltChannel) h.remoteDone))

theorem endOp {f : Nat} {o : FlowOp} {addr code : Nat} (h : d.Sound) : (d.endOp f o addr code).Sound :=
  .issuerDone (.update (.ite h.setFlow h.setFlow.setF))

theorem endOps {f code : Nat} (h : d.Sound) : (d.endOps f code).Sound := h.foldl (fun _ _ he => he.endOp)

theorem issueOp {f cell ch store : Nat} {p : Packet} (h : d.Sound) : (d.issueOp f cell ch store p).Sound := h.update.setFlow.sendOn

/-! ### Receiving (R335) -/

theorem takeAck {f a : Nat} (h : d.Sound) : (d.takeAck f a).Sound := .ite h (.pumpAll (h.setFlow.foldl (fun _ _ he => he.endOp)))

theorem resend {f : Nat} (h : d.Sound) : (d.resend f).Sound := h.setFlow.foldl (fun _ _ he => he.bump.sendNow)

theorem onFlow {f : Dev → Dev} {p : Packet} (h : d.Sound) (hf : ∀ e, e.Sound → (f e).Sound) : (d.onFlow p f).Sound :=
  .ite h.update (hf _ (.ite h.update.bump.setF h.update.bump))

theorem arrive {perform : Dev → Dev} {p : Packet} (h : d.Sound) (hperform : ∀ e, e.Sound → (perform e).Sound) : (d.arrive p perform).Sound
    :=
  h.onFlow (fun _ he => .takeAck (.ite he (.ite (hperform _ he.setFlow) (.ite he.bump.control he.bump.control))))

theorem opStatus {p : Packet} {code : Nat} (h : d.Sound) : (d.opStatus p code).Sound := h.sendOn

theorem windowRefused {p : Packet} (h : d.Sound) : (d.windowRefused p).Sound := h.bump.setErr.opStatus

theorem inbound {f : Dev → Dev} {p : Packet} {n right : Nat} {formed : Bool} (h : d.Sound) (hf : ∀ e, e.Sound → (f e).Sound) :
    (d.inbound p n right formed f).Sound :=
  .ite h.opStatus (.ite (hf _ h) h.windowRefused)

end Dev.Sound

theorem execPut_sound {s : State} {p : Packet} (h : s.dev.Sound) : Res.Sound (execPut p s) :=
  .onDev h (fun _ he => .ite he (he.arrive (fun _ hg => hg.inbound (fun _ hk => .ite hk.write.opStatus hk.write))))

theorem execGet_sound {s : State} {p : Packet} (h : s.dev.Sound) : Res.Sound (execGet p s) :=
  .onDev h (fun _ he => .ite he (he.arrive (fun _ hg => hg.inbound (fun _ hk => hk.noteRead.sendOn))))

theorem execAtomic_sound {s : State} {p : Packet} (h : s.dev.Sound) : Res.Sound (execAtomic p s) := by
  unfold execAtomic
  refine .onDev h (fun _ he => .ite he (he.arrive (fun _ hg => hg.inbound (fun _ hk => ?_))))
  dsimp only
  split
  · exact hk.meetRange.rmwDropped.opStatus
  · exact hk.meetRange.write.sendOn

theorem execAtomicResp_sound {s : State} {p : Packet} (h : s.dev.Sound) : Res.Sound (execAtomicResp p s) := by
  unfold execAtomicResp
  refine .onDev h (fun _ he => .ite he (he.arrive (fun _ hg => ?_)))
  split
  · exact hg.endOp
  · exact hg

theorem execSadd_sound {s : State} {p : Packet} (h : s.dev.Sound) : Res.Sound (execSadd p s) :=
  .onDev h (fun _ he => .ite he (he.arrive (fun _ hg => hg.inbound (fun _ hk => .ite (.opStatus (hk.foldl (fun _ _ hm => hm.stakedAdd)))
      (hk.foldl (fun _ _ hm => hm.stakedAdd))))))

theorem execAck_sound {s : State} {p : Packet} (h : s.dev.Sound) : Res.Sound (execAck p s) :=
  .onDev h (fun _ he => .ite he (he.onFlow (fun _ hg => hg.takeAck)))

theorem execNack_sound {s : State} {p : Packet} (h : s.dev.Sound) : Res.Sound (execNack p s) :=
  .onDev h (fun _ he => .ite he (he.onFlow (fun _ hg => hg.takeAck.resend)))

namespace Dev.Sound

variable {d t : Dev}

theorem resyncFlow {f : Nat} (h : d.Sound) : (d.resyncFlow f).Sound := h.endOps.setFlow.control.setErr.pumpAll

theorem probe {f : Nat} (h : d.Sound) : (d.probe f).Sound := h.of_sent (.probe ..)

end Dev.Sound

theorem execResyncAck_sound {s : State} {p : Packet} (h : s.dev.Sound) : Res.Sound (execResyncAck p s) :=
  .onDev h (fun _ he => .ite he (he.onFlow (fun _ hg => .ite hg.setFlow.pump.probe hg)))

theorem execPacketBadOpcode_sound {s : State} {p : Packet} (h : s.dev.Sound) : Res.Sound (execPacketBadOpcode p s) :=
  .onDev h (fun _ he => .ite he (he.arrive (fun _ hg => hg.opStatus)))

theorem execStandaloneAckTimer_sound {s : State} {flow : Nat} (h : s.dev.Sound) : Res.Sound (execStandaloneAckTimer flow s) :=
  .onDev h (fun _ he => .ite he.control he)

theorem execE2eRetransmitTimeout_sound {s : State} {flow : Nat} (h : s.dev.Sound) : Res.Sound (execE2eRetransmitTimeout flow s) :=
  .onDev h (fun _ he => .ite he.resend he)

theorem execFlowStalled_sound {s : State} {flow : Nat} (h : s.dev.Sound) : Res.Sound (execFlowStalled flow s) :=
  .onDev h (fun _ he => .ite he.setFlow.bump.setErr he)

namespace Dev.Sound

variable {d t : Dev}

/-! ### The FLW page (R329, R333, R334, R337, R360) -/

theorem shadowFlow {f : Nat} (h : d.Sound) : (d.shadowFlow f).Sound := .ite h h.write

end Dev.Sound

theorem execFlwCmdRead_sound {s : State} {w : Writer} (h : s.dev.Sound) : Res.Sound (execFlwCmdRead w s) :=
  .byWriter h (fun _ he => .setF (he.foldl (fun _ _ hg => hg.setF.setAct)))

namespace Dev.Sound

variable {d t : Dev}

theorem closeFlow {f : Nat} (h : d.Sound) : (d.closeFlow f).Sound := h.endOps.setFlow.shadowFlow.pumpAll

theorem loadRoutes (h : d.Sound) : d.loadRoutes.Sound := .ite h.setF.setErr (.ite h.setF h.update.setF.rerouteAll)

end Dev.Sound

theorem execRouteTableLoad_sound {s : State} {w : Writer} (h : s.dev.Sound) : Res.Sound (execRouteTableLoad w s) :=
  .byWriter h (fun _ he => he.loadRoutes)

theorem execFlwShadowWrite_sound {s : State} {w : Writer} {hi : Bool} {v : Nat} (h : s.dev.Sound) : Res.Sound (execFlwShadowWrite w hi v s)
    :=
  .byWriter h (fun _ he => .ite (.ite he he.lockedWrite) (.ite (.ite he.setF he.setF) he.setErr))

namespace Dev.Sound

variable {d t : Dev}

/-! ### Phases and the just-in-time path (R185) -/

theorem noteEntry {cell : Nat} {e : Option Nat} (h : d.Sound) : (d.noteEntry cell e).Sound := by
  unfold Dev.noteEntry
  split
  · exact h.setPhase
  · exact h

theorem dropPhaseSums {k ph : Nat} (h : d.Sound) : (d.dropPhaseSums k ph).Sound := h.mapCells rfl rfl (fun _ he => he)

theorem clearTileFlags {p : Nat} (h : d.Sound) : (d.clearTileFlags p).Sound := h.setF

theorem backToGet {p : Nat} (h : d.Sound) : (d.backToGet p).Sound := .setF (.setF (h.setCell h.cell))

theorem abandon {p : Nat} (h : d.Sound) : (d.abandon p).Sound := .ite h.dropTiles.clearTileFlags.backToGet h.dropTiles.clearTileFlags

theorem restartPhase {k ph : Nat} {kind : PhaseKind} {keep : Option Nat} (h : d.Sound) : (d.restartPhase k ph kind keep).Sound :=
  .dropPhaseSums (.setPhase (h.foldl (fun _ _ he => he.abandon)))

theorem beginMeasure {k ph : Nat} {keep : Option Nat} (h : d.Sound) : (d.beginMeasure k ph keep).Sound :=
  h.restartPhase.foldl (fun _ _ he => he.clearStat)

theorem markEntry {q : Tile} {i : Nat} (h : d.Sound) : (d.markEntry q i).Sound := h.setPhase.setStatFlag

theorem warmJit {cell : Nat} {e : Option Nat} (h : d.Sound) : (d.warmJit cell e).Sound := by
  unfold Dev.warmJit
  split
  · exact .ite h (.ite (.ite h.beginMeasure h) (.markEntry (.ite h.beginMeasure h)))
  · exact h

end Dev.Sound

namespace Cell.Sound

/-! ### Sampled tiles (R240 to R243, R246) -/

theorem clearUsed {c : Cell} {b n : Nat} (hc : c.Sound) : (c.clearUsed b n).Sound := hc

end Cell.Sound

namespace Dev.Sound

variable {d t : Dev}

/-! ### SCALE_SKEW (R87, R390) -/

theorem scaleSkew {cell : Nat} (h : d.Sound) : (d.scaleSkew cell).Sound := by
  unfold Dev.scaleSkew
  dsimp only
  split
  · exact .update (.setErr (.setErrFull (.setF (h.setCell h.cell))))
  · exact .ite (.setErr (.setPlot (.setErr (.setErrFull (.setF (h.setCell h.cell))))))
        (.update (.setPlot (.setErr (.setErrFull (.setF (h.setCell h.cell))))))

end Dev.Sound

/-! ### SCFG and SCAN -/

theorem execScfg_sound {s : State} {cell : Nat} {role : Role} {o : OperandDesc} (h : s.dev.Sound) : Res.Sound (execScfg cell role o s) := by
  unfold execScfg
  refine .onDev h (fun _ he => he.instr (fun _ hg => .ite ?_ hg.illegal))
  split
  · exact hg.setCell hg.cell
  · exact hg.setCell hg.cell
  · exact hg.setCell hg.cell

theorem execScan_sound {s : State} {cell rd : Nat} {mode : ArrayMode} (h : s.dev.Sound) : Res.Sound (execScan cell rd mode s) := by
  unfold execScan
  refine .onDev h (fun _ he => ?_)
  dsimp only
  split
  · exact he.access (fun _ hg => .ite hg.illegal (.ite hg (.ite (hg.setCell hg.cell.setS) hg.scaleSkew)))
  · exact he.instr (fun _ hg => hg.illegal)

namespace Cell.Sound

/-! ### STAKE -/

theorem mapEntries {c : Cell} {es : List Nat} {f : Nat → Nat → Entry → Entry} (hc : c.Sound) : (c.mapEntries es f).Sound := hc

end Cell.Sound

namespace Dev.Sound

variable {d t : Dev}

theorem stakeRecord {cell : Nat} {a : StakeArgs} (h : d.Sound) : (d.stakeRecord cell a).Sound := h.setErr.recordX.setErr

theorem stakeRange {cell : Nat} {a : StakeArgs} {es : List Nat} (h : d.Sound) : (d.stakeRange cell a es).Sound := by
  unfold Dev.stakeRange
  dsimp only
  split
  · exact .beginMeasure (h.stakeRecord.setCell h.stakeRecord.cell.mapEntries)
  · exact h.stakeRecord.setCell h.stakeRecord.cell.mapEntries

theorem stakeEntries {cell : Nat} {a : StakeArgs} {es : List Nat} {e : Entry} (h : d.Sound) : (d.stakeEntries cell a es e).Sound :=
  h.setCell (.clearUsed h.cell)

theorem stake {cell : Nat} {a : StakeArgs} {mode : ArrayMode} {x w : OperandDesc} (h : d.Sound) : (d.stake cell a mode x w).Sound := by
  unfold Dev.stake
  split
  · dsimp only
    split
    · exact .stakeEntries (h.foldl (fun _ _ he => he.noteEntry.warmJit))
    · exact .stakeEntries (.foldl (h.foldl (fun _ _ he => he.noteEntry.warmJit)) (fun _ _ he => he.elim (fun _ => he.markEntry)))
    · exact .stakeEntries (.stakeRecord (h.foldl (fun _ _ he => he.noteEntry.warmJit)))
    · exact .stakeRange (h.foldl (fun _ _ he => he.noteEntry.warmJit))
  · dsimp only
    split
    · exact .stakeEntries (h.foldl (fun _ _ he => he.noteEntry.warmJit))
    · exact .stakeEntries (.foldl (h.foldl (fun _ _ he => he.noteEntry.warmJit)) (fun _ _ he => he.elim (fun _ => he.markEntry)))
    · exact .stakeEntries (.stakeRecord (h.foldl (fun _ _ he => he.noteEntry.warmJit)))
    · exact .stakeRange (h.foldl (fun _ _ he => he.noteEntry.warmJit))

theorem stakeBody {cell : Nat} {a : StakeArgs} (h : d.Sound) : (d.stakeBody cell a).Sound := by
  unfold Dev.stakeBody
  split
  · dsimp only
    split
    · split
      · exact h.illegal
      · exact .ite h.illegal h.trap
    · exact h.illegal
  · dsimp only
    split
    · split
      · exact h.illegal
      · exact .ite h.illegal (.ite h h.stake)
    · exact h.illegal

end Dev.Sound

theorem execStake_sound {s : State} {cell : Nat} {a : StakeArgs} (h : s.dev.Sound) : Res.Sound (execStake cell a s) :=
  .onDev h (fun _ he => .ite he (.ite he.stakeBody (he.instr (fun _ hg => hg.stakeBody))))

namespace Dev.Sound

variable {d t : Dev}

theorem measureDone_fst {k ph : Nat} (h : d.Sound) : (d.measureDone k ph).1.Sound :=
  .fst (.restartPhase (h.foldl_fst (fun _ _ he => .fst he.setJit.update)))

end Dev.Sound

/-! ### LOAD and PASS -/

theorem execLoad_sound {s : State} {cell chunk : Nat} (h : s.dev.Sound) : Res.Sound (execLoad cell chunk s) := by
  unfold execLoad
  refine .onDev h (fun _ he => ?_)
  split
  · dsimp only
    split
    · exact he.launch (fun _ hg => hg.illegal)
    · exact he.instr (fun _ hg => hg.illegal)
  · dsimp only
    split
    · exact he.launch (fun _ hg => .ite hg (.ite (.ite (hg.setCell he.cell) (hg.setCell he.cell)) hg.scaleSkew))
    · exact he.instr (fun _ hg => hg.illegal)

namespace Cell.Sound

theorem latchZ {c : Cell} {a : PassArgs} {w : OperandDesc} (hc : c.Sound) : (c.latchZ a w).Sound := .ite hc hc

end Cell.Sound

namespace Dev.Sound

variable {d t : Dev}

theorem recordPass {cell : Nat} {a : PassArgs} {bank : Bank} {x w : OperandDesc} {reads : List (Nat × Nat)} (h : d.Sound) :
    (d.recordPass cell a bank x w reads).Sound := by
  unfold Dev.recordPass
  split
  · dsimp only
    split
    · exact .ite (h.setCell h.cell) (h.setCell h.cell.clearUsed)
    · exact h.setCell h.cell.clearUsed
  · dsimp only
    split
    · exact .ite (h.setCell h.cell) (h.setCell h.cell)
    · exact h.setCell h.cell

theorem noteBorrow {cell : Nat} (h : d.Sound) : (d.noteBorrow cell).Sound := by
  unfold Dev.noteBorrow
  split
  · exact .ite h h.setErr
  · exact h

theorem runPass {cell : Nat} {run : PassRun} {rs : List (Nat × Nat × OutResult)} (h : d.Sound) : (d.runPass cell run rs).Sound :=
  .exceptions (.exceptions (.ite (.bump (.setF (.setF (h.setCell h.cell)))) (.setF (.setF (h.setCell h.cell)))))

end Dev.Sound

theorem execPass_sound {s : State} {cell : Nat} {a : PassArgs} (h : s.dev.Sound) : Res.Sound (execPass cell a s) := by
  unfold execPass
  refine .onDev h (fun _ he => ?_)
  dsimp only
  split
  · exact he.launch (fun _ hg => .ite hg.illegal (.ite hg.trap (.ite hg.trap
        (.ite hg (.ite hg.scaleSkew (.ite (.runPass (.noteBorrow (.recordPass (hg.setCell hg.cell.latchZ)))) hg.trap))))))
  · exact he.instr (fun _ hg => hg.illegal)

namespace Dev.Sound

variable {d t : Dev}

/-! ### Waiting cells -/

theorem wake {cell : Nat} (h : d.Sound) : (d.wake cell).Sound := .ite (.advance (.setF (h.setCell h.cell))) h

theorem takeDivider {cell : Nat} (h : d.Sound) : (d.takeDivider cell).Sound := h.setF.setF

end Dev.Sound

theorem execPassBoundary_sound {s : State} {cell : Nat} (h : s.dev.Sound) : Res.Sound (execPassBoundary cell s) := by
  unfold execPassBoundary
  refine .onDev h (fun _ he => ?_)
  dsimp only
  split
  · exact he
  · exact .wake (.takeDivider (.bump (.setF (.event (he.setCell he.cell)))))

namespace Dev.Sound

variable {d t : Dev}

/-! ### Output rows -/

theorem putRows {cell : Nat} {o : OperandDesc} {rs : List RowOut} (h : d.Sound) : (d.putRows cell o rs).Sound :=
  h.foldl (fun _ _ he => .ite he.storeBytes.storeBytes he.storeBytes)

/-! ### DRAIN -/

theorem drainInto_fst {cell : Nat} {a : DrainArgs} {o : OperandDesc} {vs : List (List Num)} {byChannel : Bool} (h : d.Sound) :
    (d.drainInto cell a o vs byChannel).1.Sound := by
  unfold Dev.drainInto
  refine .fst (.exceptions ?_)
  split
  · exact h.putRows.setCell h.putRows.cell
  · exact h.putRows

theorem drain {cell : Nat} {a : DrainArgs} {x w o : OperandDesc} (h : d.Sound) : (d.drain cell a x w o).Sound := by
  unfold Dev.drain
  extract_lets _ d₁ d₂ _ _ _ _ d₃ p q d₄ c _ d₅
  have h₁ : d₁.Sound := .ite h h.noteEntry.warmJit
  have h₂ : d₂.Sound := by
    unfold d₂
    split
    · exact h₁.noteEntry.warmJit
    · exact h₁
  have hp : p.1.Sound := h₂.exceptions.drainInto_fst
  have h₄ : d₄.Sound := by
    unfold d₄ q
    cases a.save with
    | none => exact hp
    | some sv => exact hp.drainInto_fst
  have h₅ : d₅.Sound := by
    unfold d₅
    split
    · exact .ite (h₄.setCell h₄.cell) h₄
    · exact h₄
  exact h₅.event

end Dev.Sound

theorem execDrain_sound {s : State} {cell : Nat} {a : DrainArgs} (h : s.dev.Sound) : Res.Sound (execDrain cell a s) := by
  unfold execDrain
  refine .onDev h (fun _ he => ?_)
  dsimp only
  split
  · exact .ite he (he.launch (fun _ hg => .ite hg (.ite hg.illegal (.ite hg.trap hg.drain))))
  · exact he.instr (fun _ hg => hg.illegal)

namespace Dev.Sound

variable {d t : Dev}

/-! ### Lanes -/

theorem setV {cell r : Nat} {v : BitVec 1024} (h : d.Sound) : (d.setV cell r v).Sound := h.setCell h.cell

theorem vectorOp {f : Dev → Dev} {cell : Nat} {legal : Bool} (h : d.Sound) (hf : ∀ e, e.Sound → (f e).Sound) :
    (d.vectorOp cell legal f).Sound :=
  h.instr (fun _ he => .ite (.event (hf _ he)) he.illegal)

end Dev.Sound

/-! ### VLD and VST -/

theorem execVld_sound {s : State} {cell : Nat} {a : VMemArgs} (h : s.dev.Sound) : Res.Sound (execVld cell a s) :=
  .onDev h (fun _ he => he.launch (fun _ hg => .ite (.event (.exceptions (hg.foldl (fun _ _ hk => hk.setV)))) hg.illegal))

theorem execVst_sound {s : State} {cell : Nat} {a : VMemArgs} (h : s.dev.Sound) : Res.Sound (execVst cell a s) := by
  unfold execVst
  refine .onDev h (fun _ he => he.launch (fun _ hg => .ite (.ite hg.storeBytes.event (.ite hg (.event (.exceptions ?_)))) hg.illegal))
  split
  · refine .setCell ?_ (Dev.Sound.cell ?_)
    · split
      · exact .storeBytes (.ite hg.noteEntry.warmJit.storeBytes.storeBytes hg.noteEntry.warmJit.storeBytes)
      · exact .ite hg.noteEntry.warmJit.storeBytes.storeBytes hg.noteEntry.warmJit.storeBytes
    · split
      · exact .storeBytes (.ite hg.noteEntry.warmJit.storeBytes.storeBytes hg.noteEntry.warmJit.storeBytes)
      · exact .ite hg.noteEntry.warmJit.storeBytes.storeBytes hg.noteEntry.warmJit.storeBytes
  · split
    · exact .storeBytes (.ite hg.noteEntry.warmJit.storeBytes.storeBytes hg.noteEntry.warmJit.storeBytes)
    · exact .ite hg.noteEntry.warmJit.storeBytes.storeBytes hg.noteEntry.warmJit.storeBytes

/-! ### VOP and VRED -/

theorem execVop_sound {s : State} {cell : Nat} {k : VOpKind} {q : LaneType} {vd va vb vc : Nat} (h : s.dev.Sound) : Res.Sound
    (execVop cell k q vd va vb vc s) := by
  unfold execVop
  refine .onDev h (fun _ he => he.vectorOp (fun _ hg => ?_))
  split
  · exact hg.setV
  · exact hg.setV.exceptions.exceptions

theorem execVred_sound {s : State} {cell : Nat} {k : VRedKind} {q : LaneType} {vd : Nat} {vs : List Nat} (h : s.dev.Sound) : Res.Sound
    (execVred cell k q vd vs s) :=
  .onDev h (fun _ he => he.vectorOp (fun _ hg => hg.setV.exceptions))

namespace Dev.Sound

variable {d t : Dev}

/-! ### VTBL -/

theorem tableLanes {cell op vd vs : Nat} {q : LaneType} (h : d.Sound) : (d.tableLanes cell op vd vs q).Sound := h.setV.exceptions

end Dev.Sound

theorem execVtbl_sound {s : State} {cell : Nat} {op : VTblOp} (h : s.dev.Sound) : Res.Sound (execVtbl cell op s) := by
  unfold execVtbl
  refine .onDev h (fun _ he => ?_)
  split
  · exact he.launch (fun _ hg => .ite hg.illegal (.event (hg.setCell hg.cell)))
  · exact he.launch (fun _ hg => .ite hg.illegal (.event (hg.setCell hg.cell)))
  · exact he.vectorOp (fun _ hg => hg.setV)
  · exact he.vectorOp (fun _ hg => hg.tableLanes)
  · exact he.vectorOp (fun _ hg => hg.tableLanes)
  · exact he.vectorOp (fun _ hg => hg.tableLanes)
  · exact he.vectorOp (fun _ hg => hg.tableLanes)
  · exact he.vectorOp (fun _ hg => hg.tableLanes)

/-! ### The generator (R258 to R262) -/

theorem execVrng_sound {s : State} {cell purpose vd sa sb : Nat} {conv : RngConv} (h : s.dev.Sound) : Res.Sound
    (execVrng cell purpose vd sa sb conv s) :=
  .onDev h (fun _ he => he.vectorOp (fun _ hg => hg.setV))

namespace Dev.Sound

variable {d t : Dev}

/-! ### Shapes (R306) -/

theorem startDma {cell ch : Nat} {op : DmaOp} {remote : Option Nat} (h : d.Sound) : (d.startDma cell ch op remote).Sound := h.setCell h.cell

/-! ### Global accesses (R92, R291, R338, R340) -/

theorem dmaGlobal {cell ch : Nat} {op : DmaOp} (h : d.Sound) : (d.dmaGlobal cell ch op).Sound := by
  unfold Dev.dmaGlobal
  split
  · exact h.update.trap
  · exact h.startDma.foldl (fun _ _ he => he.issueOp)

end Dev.Sound

theorem execDma_sound {s : State} {cell channel : Nat} {remote : Bool} {op : DmaOp} (h : s.dev.Sound) : Res.Sound
    (execDma cell channel remote op s) := by
  unfold execDma
  refine .onDev h (fun _ he => .ite he (he.launch (fun _ hg => .ite hg.illegal (.ite hg.dmaGlobal ?_))))
  split
  · exact hg.trap
  · exact hg.startDma

namespace Dev.Sound

variable {d t : Dev}

/-! ### Staked adds of a tile (R94, R271, R272) -/

theorem holdAdds {cell : Nat} {as : List SetAdd} (h : d.Sound) : (d.holdAdds cell as).Sound := .ite h (h.setCell h.cell)

theorem ifFits {d' : Dev} {cell : Nat} (h : d.Sound) (hd' : d'.Sound) : (d.ifFits cell d').Sound := .ite (hd'.setCell hd'.cell)
    (h.setCell h.cell)

end Dev.Sound

theorem execDmas_sound {s : State} {cell channel entry first vreg : Nat} {q : LaneType} {count : Nat} (h : s.dev.Sound) : Res.Sound
    (execDmas cell channel entry first vreg q count s) := by
  unfold execDmas
  refine .onDev h (fun _ he => .ite he (he.ifFits (he.instr (fun _ hg => ?_))))
  split
  · exact hg.illegal
  · exact .ite hg.illegal hg.holdAdds.startDma

namespace Dev.Sound

variable {d t : Dev}

/-! ### Completion (R92, R93, R548) -/

theorem expandRows {cell st f rowLen : Nat} {slots : List (Nat × Nat)} (h : d.Sound) : (d.expandRows cell st f rowLen slots).Sound :=
  h.foldl (fun _ _ he => he.storeBytes)

theorem compressRows {cell st f rowLen : Nat} {slots : List (Nat × Nat)} (h : d.Sound) : (d.compressRows cell st f rowLen slots).Sound :=
  h.foldl (fun _ _ he => he.write)

theorem moveDma {cell : Nat} {op : DmaOp} (h : d.Sound) : (d.moveDma cell op).Sound := by
  unfold Dev.moveDma
  refine .ite h ?_
  split
  · exact h.foldl (fun _ _ he => he.storeBytes)
  · exact h.foldl (fun _ _ he => he.write)
  · exact h.expandRows
  · exact h.compressRows
  · exact h.foldl (fun _ _ he => he.write)
  · exact h.foldl (fun _ _ he => he.storeBytes.storeBytes)
  · exact h.holdAdds

theorem endDma {cell ch : Nat} (h : d.Sound) : (d.endDma cell ch).Sound := .wake (.event (h.setCell h.cell))

theorem spoil {a : Nat} (h : d.Sound) : (d.spoil a).Sound := .ite h.updateMem h

end Dev.Sound

theorem execDmaComplete_sound {s : State} {cell channel : Nat} {uncorr : Option Nat} (h : s.dev.Sound) : Res.Sound
    (execDmaComplete cell channel uncorr s) := by
  unfold execDmaComplete
  refine .onDev h (fun _ he => ?_)
  dsimp only
  split
  · exact he
  · refine .ite he ?_
    split
    · exact .ite he.endDma he
    · refine .ite he ?_
      split
      · exact .haltChannel (.foldl (he.elim (fun _ => he.spoil)) (fun _ _ hg => hg.noteRead))
      · exact .ite (.ifFits (he.elim (fun _ => he.spoil)) (.endDma (.moveDma
            (.foldl (he.elim (fun _ => he.spoil)) (fun _ _ hg => hg.noteRead)))))
            (.endDma (.moveDma (.foldl (he.elim (fun _ => he.spoil)) (fun _ _ hg => hg.noteRead))))

namespace Dev.Sound

variable {d t : Dev}

theorem restartDma {cell ch : Nat} (h : d.Sound) : (d.restartDma cell ch).Sound := by
  unfold Dev.restartDma
  dsimp only
  split
  · exact h
  · refine .ite h ?_
    split
    · exact h.setCell h.cell
    · exact .dmaGlobal (h.setCell h.cell)

end Dev.Sound

theorem execDmaRestart_sound {s : State} {cell channel : Nat} (h : s.dev.Sound) : Res.Sound (execDmaRestart cell channel s) :=
  .onDev h (fun _ he => he.restartDma)

namespace Dev.Sound

variable {d t : Dev}

theorem putEvent {e : Event} (h : d.Sound) : (d.putEvent e).Sound := h.write.setF.irq

theorem putOverflow (h : d.Sound) : d.putOverflow.Sound := .ite h.update.putEvent h

theorem postEvent {e : Event} (h : d.Sound) : (d.postEvent e).Sound := by
  unfold Dev.postEvent
  refine .ite (.ite (.putEvent (.putOverflow ?_)) (.setErr (.satAdd (.update (.putOverflow ?_))))) ?_
  · split
    · exact h.bump
    · exact h
  · split
    · exact h.bump
    · exact h
  · split
    · exact h.bump
    · exact h

theorem clearRing (h : d.Sound) : d.clearRing.Sound := h.setF.setF.setAct.update

end Dev.Sound

theorem execNumRingCons_sound {s : State} {w : Writer} {v : Nat} (h : s.dev.Sound) : Res.Sound (execNumRingCons w v s) :=
  .byWriter h (fun _ he => .ite he (.ite he.setF.setAct.putOverflow he.setF.setAct))

namespace Dev.Sound

variable {d t : Dev}

theorem latchXrec {cell kind : Nat} (h : d.Sound) : (d.latchXrec cell kind).Sound :=
  h.setF.setF.setAct.setAct.setF.setF.setF.setF.setF.setF.setF.setF.setF

end Dev.Sound

theorem execNumXrecSel_sound {s : State} {w : Writer} {cell kind : Nat} (h : s.dev.Sound) : Res.Sound (execNumXrecSel w cell kind s) :=
  .byWriter h (fun _ he => he.latchXrec)

theorem execNumXrecClear_sound {s : State} {w : Writer} {cell kind : Nat} (h : s.dev.Sound) : Res.Sound (execNumXrecClear w cell kind s) :=
  .byWriter h (fun _ he => .ite (he.latchXrec.setCell he.latchXrec.cell) he.latchXrec)

namespace Dev.Sound

variable {d t : Dev}

/-! ### Summaries as events (R235, R239) -/

theorem postSummary {cell : Nat} {s : Summary} (h : d.Sound) : (d.postSummary cell s).Sound := h.postEvent

theorem postPhase {k ph : Nat} (h : d.Sound) : (d.postPhase k ph).Sound :=
  h.foldl (fun _ _ he => .foldl (he.setCell he.cell) (fun _ _ hg => hg.postSummary))

theorem postLoose {cell : Nat} (h : d.Sound) : (d.postLoose cell).Sound := .foldl (h.setCell h.cell) (fun _ _ he => he.postSummary)

/-! ### Replay of just-in-time decisions (R186) -/

theorem openPhase {k ph : Nat} (h : d.Sound) : (d.openPhase k ph).Sound := by
  unfold Dev.openPhase
  split
  · refine .ite h (.setPhase (.update (h.foldl (fun _ _ he => ?_))))
    split
    · exact he.setJit
    · exact he
  · exact h

theorem openWarm {k ph tiles : Nat} {writes : List Nat} (h : d.Sound) : (d.openWarm k ph tiles writes).Sound :=
  .ite h (h.setPhase.beginMeasure.foldl (fun _ _ he => he.markEntry))

/-! ### TGET, TDONE, TBAR (R99) -/

theorem resumeGet {cell : Nat} (h : d.Sound) : (d.resumeGet cell).Sound := by
  unfold Dev.resumeGet
  split
  · exact h.setPlot.backToGet
  · exact h

theorem takeTile {cell rd k i : Nat} (h : d.Sound) : (d.takeTile cell rd k i).Sound := .setF (.setF (h.setCell h.cell.setS))

theorem tget {cell rd tiles k : Nat} {writes : List Nat} (h : d.Sound) : (d.tget cell rd tiles k writes).Sound := by
  unfold Dev.tget
  dsimp only
  split
  · exact h.openPhase.openWarm.setPhase.takeTile
  · exact h.openPhase.openWarm.setPhase.setCell h.openPhase.openWarm.cell.setS

end Dev.Sound

theorem execTget_sound {s : State} {cell rd : Nat} {a : TileArgs} (h : s.dev.Sound) : Res.Sound (execTget cell rd a s) := by
  unfold execTget
  refine .onDev h (fun _ he => .ite he (.instr (.ite he he.resumeGet) (fun _ hg => ?_)))
  split
  · exact hg.illegal
  · exact .ite hg.illegal (.tget (hg.setCell hg.cell))

namespace Dev.Sound

variable {d t : Dev}

theorem passBarrier {cell : Nat} (h : d.Sound) : (d.passBarrier cell).Sound := .advance (.setF (h.postLoose.setCell h.postLoose.cell))

theorem checkBarrier {k ph : Nat} (h : d.Sound) : (d.checkBarrier k ph).Sound := .ite (h.postPhase.foldl (fun _ _ he => he.passBarrier)) h

end Dev.Sound

theorem execTbar_sound {s : State} {cell : Nat} (h : s.dev.Sound) : Res.Sound (execTbar cell s) := by
  unfold execTbar
  refine .onDev h (fun _ he => .ite he ?_)
  dsimp only
  split
  · exact he.illegal
  · exact .checkBarrier (.setF (he.setCell he.cell))

namespace Dev.Sound

variable {d t : Dev}

theorem sampleTile {cell : Nat} {q : Tile} {cs : List SieveCopy} (h : d.Sound) : (d.sampleTile cell q cs).Sound := by
  unfold Dev.sampleTile
  split
  · exact .ite h.bump h.update.write.bump
  · exact h.bump

theorem leaveTile {cell : Nat} (h : d.Sound) : (d.leaveTile cell).Sound := by
  unfold Dev.leaveTile
  dsimp only
  split
  · exact .setF (h.setCell h.cell)
  · exact .setF (h.setCell h.cell)

theorem tileEffects {cell : Nat} {q : Tile} (h : d.Sound) : (d.tileEffects cell q).Sound := by
  unfold Dev.tileEffects
  extract_lets _ _ d₁ d₂ _ d₃
  have h₁ : d₁.Sound := h.update
  have h₂ : d₂.Sound := h₁.foldl (fun _ _ he => he.applyStat)
  have h₃ : d₃.Sound := h₂.setCell h₂.cell
  exact .ite h₃ h₃.sampleTile

theorem tdone {cell : Nat} {q : Tile} (h : d.Sound) : (d.tdone cell q).Sound :=
  .ite h.leaveTile (.checkBarrier (.bump (.leaveTile (.setPhase (.ite (h.foldl (fun _ _ he => he.applyStat)) h.tileEffects)))))

end Dev.Sound

theorem execTdone_sound {s : State} {cell : Nat} (h : s.dev.Sound) : Res.Sound (execTdone cell s) := by
  unfold execTdone
  refine .onDev h (fun _ he => .ite he (he.instr (fun _ hg => ?_)))
  split
  · exact hg.tdone
  · exact hg

theorem execMeasureComplete_sound {s : State} {plot phase : Nat} (h : s.dev.Sound) : Res.Sound (execMeasureComplete plot phase s) :=
  .onDev h (fun _ he => .ite (he.measureDone_fst.foldl (fun _ _ hg => hg.postEvent)) he)

namespace Dev.Sound

variable {d t : Dev}

/-! ### WAIT, FENCE, HALT (R96) -/

theorem waitFor {cell : Nat} {w : WaitFor} (h : d.Sound) : (d.waitFor cell w).Sound := .ite (.wake (.setF (h.setCell h.cell))) h

end Dev.Sound

theorem execWait_sound {s : State} {cell : Nat} {e : EventKind} {count : Nat} (h : s.dev.Sound) : Res.Sound (execWait cell e count s) :=
  .onDev h (fun _ he => .ite he.illegal he.waitFor)

theorem execFence_sound {s : State} {cell : Nat} (h : s.dev.Sound) : Res.Sound (execFence cell s) := .onDev h (fun _ he => he.waitFor)

namespace Dev.Sound

variable {d t : Dev}

theorem nextRun {cell k : Nat} (h : d.Sound) : (d.nextRun cell k).Sound := by
  unfold Dev.nextRun
  split
  · exact h
  · refine .ite h.joinRun ?_
    split
    · exact h.joinRun
    · exact h

end Dev.Sound

theorem execHalt_sound {s : State} {cell : Nat} (h : s.dev.Sound) : Res.Sound (execHalt cell s) := by
  unfold execHalt
  refine .onDev h (fun _ he => .ite ?_ he)
  dsimp only
  split
  · exact he.postLoose.setF.setPlot.nextRun
  · exact he.postLoose.setF

/-! ### Sets in the logic dies (R94, R309, R310) -/

theorem execStakedSetApply_sound {s : State} {cell tile : Nat} (h : s.dev.Sound) : Res.Sound (execStakedSetApply cell tile s) := by
  unfold execStakedSetApply
  refine .onDev h (fun _ he => ?_)
  split
  · exact he
  · exact he.update.stageFreed.foldl (fun _ _ hg => hg.stakedAdd)

theorem execStageDeadlock_sound {s : State} (h : s.dev.Sound) : Res.Sound (execStageDeadlock s) :=
  .onDev h (fun _ he => .ite (he.update.foldl (fun _ _ hg => hg.setErr)) he)

namespace Dev.Sound

variable {d t : Dev}

/-! ### Queues (R219, R223) -/

theorem setThn {u : Nat} {q : Thn} (h : d.Sound) : (d.setThn u q).Sound := h.update

theorem thnQueue {host : Bool} {c : JobCmd} (h : d.Sound) : (d.thnQueue host c).Sound := .ite h.setThn h.setThn

theorem thnFinish {u : Nat} {q : ThnReq} {status : Nat} (h : d.Sound) : (d.thnFinish u q status).Sound := by
  unfold Dev.thnFinish
  extract_lets d₁ d₂ d₃
  have h₁ : d₁.Sound := h.bump
  have h₂ : d₂.Sound := .ite h₁ h₁.bump
  have h₃ : d₃.Sound := .ite h₂.setErr (.ite h₂.setErr (.ite h₂.setErr h₂))
  exact .postCompletion (.ite h₃ h₃.leaveOrder)

theorem thnHostOff {u : Nat} (h : d.Sound) : (d.thnHostOff u).Sound := .ite h (h.setThn.foldl (fun _ _ he => he.thnFinish))

theorem thnMove {u : Nat} (h : d.Sound) : (d.thnMove u).Sound := .ite h.setThn.setThn h.setThn

theorem thnTakeOver {u : Nat} (h : d.Sound) : (d.thnTakeOver u).Sound := .ite h.thnMove h

/-! ### CONV (R220 to R222) -/

theorem convMeasure {u : Nat} {q : ThnReq} {p : ConvParams} {i cause : Nat} (h : d.Sound) : (d.convMeasure u q p i cause).Sound := by
  unfold Dev.convMeasure
  exact .postEvent (.update (.setJit (.setStatFlag (.applyStat (.clearStat (.ite h.setErr h))))))

theorem convJit_snd {u : Nat} {q : ThnReq} {p : ConvParams} (h : d.Sound) : (d.convJit u q p).2.Sound := by
  unfold Dev.convJit
  split
  · exact h
  · refine .ite_snd h ?_
    split
    · exact .snd h.setJit.update
    · exact .ite_snd (.snd h.convMeasure) (.ite_snd (.snd h.convMeasure) h)

theorem thnConvRun_fst_snd {u : Nat} {q : ThnReq} {hostSrc : List Byte} (h : d.Sound) : (d.thnConvRun u q hostSrc).1.2.Sound := by
  unfold Dev.thnConvRun
  extract_lets p a own block _ ok r
  have hr : r.2.Sound := .ite_snd h (.convJit_snd h)
  exact .ite_fst_snd h (.ite_fst_snd h (.ite_fst_snd h (.ite_fst_snd h hr)))

/-! ### The commands (R219, R227, R228) -/

theorem thnFault {u a : Nat} (h : d.Sound) : (d.thnFault u a).Sound := h.setF.setF.setF

theorem thnStart {u op : Nat} {run : Dev → ThnReq → (Bool × Dev) × ThnOut} (h : d.Sound) (hrun : ∀ e q, e.Sound → (run e q).1.2.Sound) :
    (d.thnStart u op run).Sound := by
  unfold Dev.thnStart
  split
  · refine .ite h (.setThn (.update (.elim ?_ fun _ => .thnFault ?_)))
    · exact .foldl (hrun _ _ (.ite h.setBlk h)) fun _ _ he => he.noteRead
    · exact .foldl (hrun _ _ (.ite h.setBlk h)) fun _ _ he => he.noteRead
  · exact h

end Dev.Sound

theorem execThnConv_sound {s : State} {r : ThnStart} (h : s.dev.Sound) : Res.Sound (execThnConv r s) :=
  .onDev h (fun _ he => he.thnStart (fun _ _ hg => hg.thnConvRun_fst_snd))

namespace Dev.Sound

variable {d t : Dev}

theorem thnPlain_fst_snd {o : ThnOut} (h : d.Sound) : (d.thnPlain o).1.2.Sound := h

end Dev.Sound

theorem execThnArgmax_sound {s : State} {r : ThnStart} (h : s.dev.Sound) : Res.Sound (execThnArgmax r s) :=
  .onDev h (fun _ he => he.thnStart (fun _ _ hg => hg.thnPlain_fst_snd))

theorem execThnTopk_sound {s : State} {unit : Nat} {hostScores : List Byte} (h : s.dev.Sound) : Res.Sound (execThnTopk unit hostScores s) :=
  .onDev h (fun _ he => he.thnStart (fun _ _ hg => hg.thnPlain_fst_snd))

theorem execThnSort_sound {s : State} {unit : Nat} {hostScores : List Byte} (h : s.dev.Sound) : Res.Sound (execThnSort unit hostScores s) :=
  .onDev h (fun _ he => he.thnStart (fun _ _ hg => hg.thnPlain_fst_snd))

end Sys2Proof.Machine
end

