-- ==== Sys2Proof/Proofs/SoundFabric.lean ====
section
/-! Every operation keeps stacked memory and the cell stores in their one form (R285, R298):
exchanges, ownership, the host rings and the boundary. -/

namespace Sys2Proof.Machine

namespace Dev.Sound

variable {d t : Dev}

/-! ### The commands (R219, R227, R228) -/

theorem thnEvents {u : Nat} {q : ThnReq} (h : d.Sound) : (d.thnEvents u q).Sound := .foldl (.ite h h.setErr) (fun _ _ he => he.postEvent)

theorem thnUnrun {u : Nat} {q : ThnReq} {r : Thn} (h : d.Sound) : (d.thnUnrun u q r).Sound := by
  unfold Dev.thnUnrun
  refine .ite h.setThn.thnFinish ?_
  split
  · exact h.noteRead.thnFault.setThn.thnFinish
  · exact .ite h h.noteRead.setThn.thnFinish

end Dev.Sound

theorem execThnRequestComplete_sound {s : State} {unit : Nat} (h : s.dev.Sound) : Res.Sound (execThnRequestComplete unit s) := by
  unfold execThnRequestComplete
  refine .onDev h (fun _ he => ?_)
  split
  · split
    · dsimp only
      split
      · exact .thnFinish (.thnEvents (.ite (.bump (.foldl (he.setThn.foldl (fun _ _ hg => hg.write)) (fun _ _ hg => hg.applyStat)))
            (.foldl (he.setThn.foldl (fun _ _ hg => hg.write)) (fun _ _ hg => hg.applyStat))))
      · exact he.thnUnrun
    · dsimp only
      split
      · exact .thnFinish (.thnEvents (.ite (.bump (.foldl (he.setThn.foldl (fun _ _ hg => hg.write)) (fun _ _ hg => hg.applyStat)))
            (.foldl (he.setThn.foldl (fun _ _ hg => hg.write)) (fun _ _ hg => hg.applyStat))))
      · exact he
  · dsimp only
    split
    · exact .thnFinish (.thnEvents (.ite (.bump (.foldl (he.setThn.foldl (fun _ _ hg => hg.write)) (fun _ _ hg => hg.applyStat)))
          (.foldl (he.setThn.foldl (fun _ _ hg => hg.write)) (fun _ _ hg => hg.applyStat))))
    · exact he

/-! ### Hosts (R243) -/

theorem execSieveRecompute_sound {s : State} {slot : Nat} (h : s.dev.Sound) : Res.Sound (execSieveRecompute slot s) := by
  unfold execSieveRecompute
  refine .onDev h (fun _ he => ?_)
  split
  · exact he
  · refine .ite he ?_
    split
    · exact he.update
    · refine .ite ?_ he
      split
      · exact he.clocheCell.update
      · exact he

namespace Dev.Sound

variable {d t : Dev}

/-! ### Promotions (R194 to R197) -/

theorem decidePromotion {cause i : Nat} (h : d.Sound) : (d.decidePromotion cause i).Sound := by
  unfold Dev.decidePromotion
  refine .ite h (.ite h.policyWithheld ?_)
  split
  · exact h.update.policyTaken
  · exact h

theorem promoteLayer {layer : Nat} (h : d.Sound) : (d.promoteLayer layer).Sound := .ite h (h.foldl (fun _ _ he => he.decidePromotion))

theorem checkPrecision {sl : SieveSlot} {c : SieveCopy} (h : d.Sound) : (d.checkPrecision sl c).Sound :=
  .ite h.draw_snd.postEvent.setErr.promoteLayer h

theorem convict {cell step : Nat} (h : d.Sound) : (d.convict cell step).Sound := h.setPassed.clocheFault.setF.setErr

theorem checkIntegrity {sl : SieveSlot} {host : Nat} (h : d.Sound) : (d.checkIntegrity sl host).Sound := by
  unfold Dev.checkIntegrity
  split
  · dsimp only
    split
    · exact h
    · exact .ite h.postEvent.update.setErr.convict h.postEvent.update.setErr
  · dsimp only
    split
    · exact h
    · exact .ite h.postEvent.update.setErr.convict h.postEvent.update.setErr

theorem freeHost {host : Nat} (h : d.Sound) : (d.freeHost host).Sound := .ite h.setBlk h

end Dev.Sound

theorem execSieveCheck_sound {s : State} {slot : Nat} (h : s.dev.Sound) : Res.Sound (execSieveCheck slot s) := by
  unfold execSieveCheck
  refine .onDev h (fun _ he => ?_)
  split
  · exact he
  · split
    · exact he
    · exact .checkIntegrity (he.update.freeHost.foldl (fun _ _ hg => hg.checkPrecision))

namespace Dev.Sound

variable {d t : Dev}

/-! ### Plot rebalancing (R111 to R113) -/

theorem rebWithheld {ks : List Nat} (h : d.Sound) : (d.rebWithheld ks).Sound := .ite h (.bump (h.foldl (fun _ _ he => he.irq)))

theorem rebDecide {xs : List (Nat × Nat × Nat)} (h : d.Sound) : (d.rebDecide xs).Sound := by
  unfold Dev.rebDecide
  split
  · exact h.update
  · exact h.update.foldl (fun _ _ he => he.policyTaken)

end Dev.Sound

theorem execPlotRebalanceCompute_sound {s : State} (h : s.dev.Sound) : Res.Sound (execPlotRebalanceCompute s) :=
  .onDev h (fun _ he => .ite he (.ite (.rebDecide (.ite he.update.rebWithheld he.update)) (.ite he.update.rebWithheld he.update)))

/-! ### Format promotion on statistics (R195) -/

theorem execFormatPromotionDecide_sound {s : State} (h : s.dev.Sound) : Res.Sound (execFormatPromotionDecide s) :=
  .onDev h (fun _ he => .ite he (he.foldl (fun _ _ hg => hg.decidePromotion)))

namespace Dev.Sound

variable {d t : Dev}

/-! ### The generator state block (R265 to R269) -/

theorem gsbUnchecked (h : d.Sound) : d.gsbUnchecked.Sound := .ite h.write h

theorem gsbCheck_snd (h : d.Sound) : d.gsbCheck.2.Sound := by
  unfold Dev.gsbCheck
  split
  · exact .snd (.ite h.write.write h.write)
  · exact .snd (h.write.foldl (fun _ _ he => .ite he.write he))

theorem advancePositions (h : d.Sound) : d.advancePositions.Sound := h.foldl (fun _ _ he => .ite he.write.write he.write)

theorem positionLoad {c : JobCmd} (h : d.Sound) : (d.positionLoad c).Sound := .ite h.complete h.gsbCheck_snd.update.complete

/-! ### The gradient plan (R270) -/

theorem clearArea {a n : Nat} (h : d.Sound) : (d.clearArea a n).Sound := ⟨bytesWf_filter _ h.1, h.2⟩

theorem clearAccs (h : d.Sound) : d.clearAccs.Sound := by
  unfold Dev.clearAccs
  split
  · exact h.clearArea
  · exact h

theorem openWindows (h : d.Sound) : d.openWindows.Sound := .update (h.foldl_fst (fun _ _ he => .fst (.ite_snd he he.draw_snd)))

theorem gradPlan {c : JobCmd} (h : d.Sound) : (d.gradPlan c).Sound := by
  unfold Dev.gradPlan
  refine .ite h.update.complete (.ite h.update.setErr.complete (.ite h.update.complete
      (.ite (.complete ?_) (.ite (.complete (.openWindows (.clearAccs (.update ?_)))) (.complete (.update ?_))))))
  · split
    · exact h.update.poisonRead
    · exact h.update
  · split
    · exact h.update.poisonRead
    · exact h.update
  · split
    · exact h.update.poisonRead
    · exact h.update

/-! ### Places among the collectives of a step (R342) -/

theorem takeCidx_snd {g : Nat} (h : d.Sound) : (d.takeCidx g).2.Sound := .snd h.update

theorem placeBuckets {g n : Nat} (h : d.Sound) : (d.placeBuckets g n).Sound := by
  induction n generalizing d with
  | zero => exact h
  | succ n ih => exact .ite (ih (.update h.takeCidx_snd)) h

theorem place {c : JobCmd} (h : d.Sound) : (d.place c).Sound := by
  unfold Dev.place
  refine .ite ?_ (.ite h.takeCidx_snd.update (.ite h.update h))
  split
  · exact h.update.placeBuckets
  · exact h

theorem placeAll (h : d.Sound) : d.placeAll.Sound := h.foldl (fun _ _ he => he.place)

theorem issuePlaced {start : Dev → Dev} {c : JobCmd} (h : d.Sound) (hstart : ∀ e, e.Sound → (start e).Sound) : (d.issuePlaced c start).Sound
    :=
  .issue (.ite h.place h) (fun _ he => hstart _ he)

theorem gradDone {c : JobCmd} (h : d.Sound) : (d.gradDone c).Sound := by
  unfold Dev.gradDone
  split
  · exact h.complete
  · exact .ite h.complete (.ite h.satAdd.complete h.update.complete)

/-! ### Recovery's end points that collectives reach (R394, R398) -/

theorem recoveryFailed (h : d.Sound) : d.recoveryFailed.Sound := h.update.setF.setErr

theorem rejoin (h : d.Sound) : d.rejoin.Sound := .ite h.update.bump.setF.setErr h

/-! ### Groups (R341) -/

theorem groupBad {g engine : Nat} (h : d.Sound) : (d.groupBad g engine).Sound := by
  unfold Dev.groupBad
  refine .setErr ?_
  split
  · exact h.poisonRead
  · exact h

/-! ### Collectives in flight -/

theorem setColl {c : Coll} (h : d.Sound) : (d.setColl c).Sound := h.of_collected (.setColl ..)

theorem onColl {f : Coll → Dev} {k : CollKey} (h : d.Sound) (hf : ∀ x, (f x).Sound) : (d.onColl k f).Sound := by
  unfold Dev.onColl
  split
  · exact hf _
  · exact h

theorem toRank {c : Coll} {r : Nat} {p : Packet} (h : d.Sound) : (d.toRank c r p).Sound := h.of_sent (.toRank ..)

theorem sendSegs {c : Coll} {r opc flags hdr : Nat} {xs : List (Nat × List Byte)} (h : d.Sound) : (d.sendSegs c r opc flags hdr xs).Sound :=
  h.of_sent (.sendSegs ..)

/-! ### Elements and results (R162 to R166, R271, R274) -/

theorem writeResults {c : Coll} {s : Nat} {bs : List Byte} (h : d.Sound) : (d.writeResults c s bs).Sound :=
  h.of_traded (K := fun _ => True) (.writeResults ..)

/-! ### Completion (R248, R274, R276, R277, R349) -/

theorem toPast {c : Coll} (h : d.Sound) : (d.toPast c).Sound := h.update

theorem closeVote (h : d.Sound) : d.closeVote.Sound := .ite h.setF.setF.setF.setF h

theorem bucketEnd {c : Coll} {b t1 tx : Nat} (h : d.Sound) : (d.bucketEnd c b t1 tx).Sound := by
  unfold Dev.bucketEnd
  refine .closeVote ?_
  split
  · exact .ite h.update.bump.bump.update.setF.setF.policyWithheld h.update.bump.bump.update.setF.setF
  · exact h.update.bump.bump

theorem waitOver {c : Coll} (h : d.Sound) : (d.waitOver c).Sound := .ite h.setF h

theorem endColl {k : CollKey} {times : Option (Nat × Nat)} (h : d.Sound) : (d.endColl k times).Sound := by
  unfold Dev.endColl
  refine h.onColl (fun _ => ?_)
  split
  · split
    · exact h.waitOver.toPast.bump.bucketEnd
    · exact h.waitOver.toPast.bump.complete
    · exact h.waitOver.toPast.bump
  · split
    · exact h.draw_snd.draw_snd.waitOver.toPast.bump.bucketEnd
    · exact h.draw_snd.draw_snd.waitOver.toPast.bump.complete
    · exact h.draw_snd.draw_snd.waitOver.toPast.bump

theorem failColl {k : CollKey} {err status : Nat} (h : d.Sound) : (d.failColl k err status).Sound := by
  unfold Dev.failColl
  refine h.onColl (fun _ => .ite (.recoveryFailed ?_) ?_)
  · split
    · exact h.waitOver.setErr.update.setF.complete
    · exact h.waitOver.setErr.update.setF
  · split
    · exact h.waitOver.setErr.update.setF.complete
    · exact h.waitOver.setErr.update.setF

/-! ### The exchange, from its end to its start (R343 to R346) -/

theorem mutePoisoned {k : CollKey} {ss : List Nat} (h : d.Sound) : (d.mutePoisoned k ss).Sound :=
  h.onColl (fun _ => .ite h (.setErr (.setColl (h.foldl (fun _ _ hg => hg.poisonRead)))))

theorem dropOlder {c : Coll} {written : List (Nat × Nat)} (h : d.Sound) : (d.dropOlder c written).Sound :=
  h.of_traded (K := fun _ => True) (.dropOlder ..)

theorem memberRes {k : CollKey} {xs : List (Nat × List Byte)} (h : d.Sound) : (d.memberRes k xs).Sound :=
  h.onColl (fun _ => h.setColl.dropOlder.foldl (fun _ _ hg => hg.writeResults))

theorem res1 {k : CollKey} {xs : List (Nat × List Byte)} (h : d.Sound) : (d.res1 k xs).Sound :=
  h.onColl (fun _ => .memberRes (h.foldl (fun _ _ hg => .ite hg hg.sendSegs)))

theorem res2 {k : CollKey} {xs : List (Nat × List Byte)} (h : d.Sound) : (d.res2 k xs).Sound :=
  h.onColl (fun _ => .ite h.memberRes (.res1 (h.foldl (fun _ _ hg => .ite hg hg.sendSegs))))

theorem intLevel_fst {k : CollKey} {level who : Nat} {xs : List (Nat × List Int)} (h : d.Sound) : (d.intLevel k level who xs).1.Sound := by
  unfold Dev.intLevel
  refine h.foldl_fst (fun _ _ he => ?_)
  split
  · exact he
  · exact .ite_fst (.fst he.bump) (.fst (.ite (.bump (.ite he.setColl.setF he.setColl)) (.ite he.setColl.setF he.setColl)))

theorem int2 {k : CollKey} {leaf : Nat} {xs : List (Nat × List Int)} (h : d.Sound) : (d.int2 k leaf xs).Sound :=
  h.intLevel_fst.onColl (fun _ => h.intLevel_fst.res2)

theorem sendLeafSums {c : Coll} {xs : List (Nat × List Int)} (h : d.Sound) : (d.sendLeafSums c xs).Sound :=
  h.of_traded (K := fun _ => True) (.sendLeafSums ..)

theorem int1 {k : CollKey} {who : Nat} {xs : List (Nat × List Int)} (h : d.Sound) : (d.int1 k who xs).Sound :=
  h.intLevel_fst.onColl (fun _ => h.intLevel_fst.sendLeafSums.int2)

theorem sendInts {c : Coll} {xs : List (Nat × List Int)} (h : d.Sound) : (d.sendInts c xs).Sound := h.of_traded (K := fun _ => True)
    (.sendInts ..)

theorem memberM {k : CollKey} {xs : List (Nat × Int × Option HdrWords)} (h : d.Sound) : (d.memberM k xs).Sound :=
  h.mutePoisoned.onColl (fun _ => h.mutePoisoned.setColl.memberRes.sendInts.int1)

theorem dropZeroSums {k : CollKey} {xs : List (Nat × Int × Option HdrWords)} (h : d.Sound) : (d.dropZeroSums k xs).Sound :=
  h.foldl (fun _ _ he => he.onColl (fun _ => .ite he (.ite he.setColl.setF he.setColl)))

theorem mDown1 {k : CollKey} {xs : List (Nat × Int × Option HdrWords)} (h : d.Sound) : (d.mDown1 k xs).Sound :=
  h.dropZeroSums.onColl (fun _ => .memberM (h.dropZeroSums.sendLeafSums.foldl (fun _ _ hg => .ite hg hg.sendSegs)))

theorem mDown2 {k : CollKey} {xs : List (Nat × Int × Option HdrWords)} (h : d.Sound) : (d.mDown2 k xs).Sound :=
  h.onColl (fun _ => .ite h (.mDown1 (h.foldl (fun _ _ hg => .ite hg hg.sendSegs))))

theorem expLevel {k : CollKey} {level who : Nat} {xs : List (Nat × Int × Option HdrWords)} (h : d.Sound) : (d.expLevel k level who xs).Sound
    :=
  h.foldl (fun _ _ he => he.onColl (fun _ => .ite he.bump he.setColl))

theorem grant_fst {k : CollKey} {level : Nat} (h : d.Sound) : (d.grant k level).1.Sound := by
  unfold Dev.grant
  split
  · exact h
  · refine h.foldl_fst (fun _ _ he => ?_)
    split
    · exact he
    · exact .ite_fst he (.fst (.ite (.ite he.setColl.bump he.setColl) (.setF (.ite he.setColl.bump he.setColl))))

theorem exp2 {k : CollKey} {leaf : Nat} {xs : List (Nat × Int × Option HdrWords)} (h : d.Sound) : (d.exp2 k leaf xs).Sound :=
    h.expLevel.grant_fst.mDown2

theorem expUp {k : CollKey} {xs : List (Nat × Int × Option HdrWords)} (h : d.Sound) : (d.expUp k xs).Sound :=
  h.onColl (fun _ => .exp2 (h.foldl (fun _ _ hg => .ite hg hg.sendSegs)))

theorem exp1 {k : CollKey} {who : Nat} {xs : List (Nat × Int × Option HdrWords)} (h : d.Sound) : (d.exp1 k who xs).Sound :=
    h.expLevel.grant_fst.expUp

theorem regrant (h : d.Sound) : d.regrant.Sound := h.foldl (fun _ _ he => he.grant_fst.expUp.grant_fst.mDown2)

theorem poolFreed (h : d.Sound) : d.poolFreed.Sound := h.regrant.pumpAll

theorem sendExps {k : CollKey} {only : Nat → Bool} (h : d.Sound) : (d.sendExps k only).Sound :=
  .onColl (h.elim (fun _ => h.mutePoisoned)) (fun _ => .exp1 (.foldl (h.elim (fun _ => h.mutePoisoned))
      (fun _ _ hg => .ite hg hg.sendSegs)))

/-! ### Non-summing collectives (R351) -/

theorem sendData {c : Coll} {r flags : Nat} {bs : List Byte} (h : d.Sound) : (d.sendData c r flags bs).Sound :=
  h.of_traded (K := fun _ => True) (.sendData ..)

theorem contribute {k : CollKey} (h : d.Sound) : (d.contribute k).Sound := h.of_collected (.contribute ..)

theorem openGate (h : d.Sound) : d.openGate.Sound := h.of_collected (.openGate ..)

/-! ### Arriving messages (R346, R348 to R350) -/

theorem beginFetch {k : CollKey} (h : d.Sound) : (d.beginFetch k).Sound := h.onColl (fun _ => .ite h h.setColl.sendSegs)

theorem handleColl {c : Coll} {p : Packet} (h : d.Sound) : (d.handleColl c p).Sound := by
  unfold Dev.handleColl
  extract_lets _ _ _ d₁ d₂ d₃ _ _ d₄
  have h₁ : d₁.Sound := h.bump
  have h₂ : d₂.Sound := h₁.beginFetch
  have h₃ : d₃.Sound := h₁.rejoin
  have h₄ : d₄.Sound := .ite h₁.setErr h₁
  exact .ite h₁ (.ite h₁.failColl (.ite (.ite h₁.exp1 h₁.exp2) (.ite (.ite h₁.failColl
      (.ite (h₂.onColl (fun _ => h₂.setColl)) (.ite h₃.memberM h₃.mDown1)))
      (.ite (.ite h₁.int1 h₁.int2) (.ite (.ite h₁.setErr (.ite h₁.memberRes h₁.res1))
      (.ite h₄.dropOlder.write.setColl (.ite (.ite (.ite h₁.bump h₁.setColl) h₁) (.ite h₁.endColl h₁))))))))

theorem afterColl {k : CollKey} {times : Option (Nat × Nat)} (h : d.Sound) : (d.afterColl k times).Sound := h.of_collected (.afterColl ..)

theorem servePast {c : Coll} {p : Packet} (h : d.Sound) : (d.servePast c p).Sound :=
  .ite h.bump.setErr.toRank (.sendSegs (.ite h.bump.bump.sendSegs.setErr h.bump.bump.sendSegs))

theorem serveGone {p : Packet} (h : d.Sound) : (d.serveGone p).Sound := h.sendOn

theorem park {p : Packet} (h : d.Sound) : (d.park p).Sound := h.update.setF

theorem performColl {p : Packet} {times : Option (Nat × Nat)} (h : d.Sound) : (d.performColl p times).Sound := by
  unfold Dev.performColl
  split
  · dsimp only
    split
    · exact h.handleColl.afterColl
    · split
      · exact .ite h.servePast (.ite h.bump.toRank h.bump)
      · exact h.park
  · split
    · dsimp only
      split
      · exact h.handleColl.afterColl
      · split
        · exact .ite h.servePast (.ite h.bump.toRank h.bump)
        · exact h.serveGone
    · dsimp only
      split
      · exact h.handleColl.afterColl
      · split
        · exact .ite h.servePast (.ite h.bump.toRank h.bump)
        · exact h

theorem collArrive {opc : Nat} {p : Packet} {times : Option (Nat × Nat)} (h : d.Sound) : (d.collArrive opc p times).Sound :=
  .ite h (.ite (h.onFlow (fun _ he => he.takeAck.control)) (h.arrive (fun _ he => he.performColl)))

theorem unpark {k : CollKey} (h : d.Sound) : (d.unpark k).Sound :=
  h.update.foldl (fun _ _ he => he.setF.onColl (fun _ => he.setF.handleColl.afterColl))

/-! ### Issue (R274, R341, R342, R351) -/

theorem launchColl {c : Coll} (h : d.Sound) : (d.launchColl c).Sound :=
  .poolFreed (.unpark (.ite (.ite h.update.setBlk h.update) (.contribute (.ite h.update.setBlk h.update))))

theorem startBucket {b : Nat} (h : d.Sound) : (d.startBucket b).Sound := by
  unfold Dev.startBucket
  split
  · exact h
  · exact .ite h (.ite h.update.groupBad.update (.launchColl (.ite h.update.setF h.update)))

theorem direct {c : JobCmd} (h : d.Sound) : (d.direct c).Sound :=
  .ite h.complete (.ite h.groupBad.complete (.ite h.complete (.ite h.complete h.launchColl)))

end Dev.Sound

/-! ### Waiting and resynchronisation (R347, R348) -/

theorem execCollectiveWaitLong_sound {s : State} {engine : Nat} (h : s.dev.Sound) : Res.Sound (execCollectiveWaitLong engine s) := by
  unfold execCollectiveWaitLong
  refine .onDev h (fun _ he => ?_)
  split
  · exact he
  · exact he.setF.setF.setF.setF.setErr

theorem execCollectiveWaitLimit_sound {s : State} {engine : Nat} (h : s.dev.Sound) : Res.Sound (execCollectiveWaitLimit engine s) := by
  unfold execCollectiveWaitLimit
  refine .onDev h (fun _ he => ?_)
  split
  · exact he
  · exact .ite he he.failColl.poolFreed

namespace Dev.Sound

variable {d t : Dev}

theorem resendTo {c : Coll} {r : Nat} (h : d.Sound) : (d.resendTo c r).Sound :=
  .sendSegs (.sendSegs (.ite (h.sendExps.onColl (fun _ => h.sendSegs)) h.sendSegs.sendSegs))

theorem resendData {c : Coll} {r : Nat} (h : d.Sound) : (d.resendData c r).Sound := by
  unfold Dev.resendData
  split
  · exact h.sendData
  · exact .ite h.sendData h
  · exact .ite h.toRank h
  · exact h.resendTo

end Dev.Sound

/-! ### Commands that free blocks of the response pool (R338, R343) -/

theorem execGetResp_sound {s : State} {p : Packet} (h : s.dev.Sound) : Res.Sound (execGetResp p s) := by
  unfold execGetResp
  refine .onDev h (fun _ he => .ite he (he.arrive (fun _ hg => ?_)))
  split
  · exact .ite hg.endOp.poolFreed (.poolFreed (.endOp (.ite hg.storeBytes hg)))
  · exact hg

theorem execOpStatus_sound {s : State} {p : Packet} (h : s.dev.Sound) : Res.Sound (execOpStatus p s) := by
  unfold execOpStatus
  refine .onDev h (fun _ he => .ite he (he.arrive (fun _ hg => ?_)))
  split
  · exact hg.endOp.poolFreed
  · exact hg

theorem execFlwCmdWrite_sound {s : State} {w : Writer} (h : s.dev.Sound) : Res.Sound (execFlwCmdWrite w s) :=
  .byWriter h (fun _ he => .ite he.setF.setErr (.ite he.setF.endOps.setFlow.shadowFlow.poolFreed.probe
      he.setF.endOps.setFlow.shadowFlow.poolFreed))

theorem execFlwCmdClose_sound {s : State} {w : Writer} (h : s.dev.Sound) : Res.Sound (execFlwCmdClose w s) :=
  .byWriter h (fun _ he => he.closeFlow.poolFreed.setF)

namespace Dev.Sound

variable {d t : Dev}

theorem discarded {port : Nat} (h : d.Sound) : (d.discarded port).Sound := h.bump

end Dev.Sound

theorem execSqTail_sound {s : State} {port ring v : Nat} (h : s.dev.Sound) : Res.Sound (execSqTail port ring v s) :=
  .onDev h (fun _ he => .ite he.discarded.setErr (.ite he (.ite he.discarded he.setRing)))

theorem execCqHead_sound {s : State} {port ring v : Nat} (h : s.dev.Sound) : Res.Sound (execCqHead port ring v s) :=
  .onDev h (fun _ he => .ite he.discarded.setErr (.ite he he.setRing))

theorem execRingEnable_sound {s : State} {port ring kind log2 : Nat} {irq : Bool} (h : s.dev.Sound) : Res.Sound
    (execRingEnable port ring kind log2 irq s) :=
  .onDev h (fun _ he => .ite he (.ite he.lockedWrite (.ite he.setErr he.update.setRing)))

theorem execBar2Write_sound {s : State} {port offset : Nat} {data : List Byte} (h : s.dev.Sound) : Res.Sound
    (execBar2Write port offset data s) :=
  .onDev h (fun _ he => .ite he (.ite he.bump.discarded (.ite he.bump.write he.bump.discarded.setErr)))

theorem execBar2Read_sound {s : State} {port offset len : Nat} (h : s.dev.Sound) : Res.Sound (execBar2Read port offset len s) :=
  .onDev h (fun _ he => .ite he he.bump.noteRead.bump.emit)

namespace Dev.Sound

variable {d t : Dev}

/-! ### Ownership -/

theorem ownerChanged (h : d.Sound) : d.ownerChanged.Sound := h.setErr.setErr

theorem disableRings {port : Nat} (h : d.Sound) : (d.disableRings port).Sound := h.update

end Dev.Sound

namespace Res.Sound

theorem transfer {s : State} (h : s.dev.Sound) : Res.Sound s.transfer :=
  .next (.vectors (.ownerChanged (.ite h.abortUnarmed h.abortUnarmed.disableRings)))

end Res.Sound

theorem execClaim_sound {s : State} {port : Nat} (h : s.dev.Sound) : Res.Sound (execClaim port s) :=
  .whenUp h (.ite (.next h.ownerChanged.vectors) (.next h))

theorem execRequest_sound {s : State} {port : Nat} (h : s.dev.Sound) : Res.Sound (execRequest port s) :=
  .whenUp h (.ite (.next h.vectors) (.next h))

theorem execGrant_sound {s : State} {port : Nat} (h : s.dev.Sound) : Res.Sound (execGrant port s) :=
  .whenUp h (.ite (.transfer h) (.next h))

theorem execDeny_sound {s : State} {port : Nat} (h : s.dev.Sound) : Res.Sound (execDeny port s) :=
  .whenUp h (.ite (.next h.vectors) (.next h))

theorem execRelease_sound {s : State} {port : Nat} (h : s.dev.Sound) : Res.Sound (execRelease port s) :=
  .whenUp h (.ite (.next h.ownerChanged.vectors) (.next h))

theorem execOwnershipTimeout_sound {s : State} (h : s.dev.Sound) : Res.Sound (execOwnershipTimeout s) :=
  .whenUp h (.ite (.transfer h) (.next h))

/-! ### Ports -/

theorem execLinkDown_sound {s : State} {port : Nat} (h : s.dev.Sound) : Res.Sound (execLinkDown port s) :=
  .onDev h (fun _ he => .ite he he.setF.setErr)

theorem execPcieLinkUp_sound {s : State} {port width speed : Nat} (h : s.dev.Sound) : Res.Sound (execPcieLinkUp port width speed s) :=
  .onDev h (fun _ he => .ite he he.setF.setF.setF)

namespace Dev.Sound

variable {d t : Dev}

theorem resetPage {c i : Nat} (h : d.Sound) : (d.resetPage c i).Sound := h.update

theorem resetPortPage {port : Nat} (h : d.Sound) : (d.resetPortPage port).Sound := .ite h.resetPage.setF h.resetPage

theorem dropRings {port : Nat} (h : d.Sound) : (d.dropRings port).Sound := h.update

end Dev.Sound

theorem execPciePortReset_sound {s : State} {port : Nat} (h : s.dev.Sound) : Res.Sound (execPciePortReset port s) :=
  .onDev h (fun _ he => .ite he he.resetPortPage.dropRings)

namespace Dev.Sound

variable {d t : Dev}

/-! ### The mirror item table (R373) -/

theorem checkItems_snd (h : d.Sound) : d.checkItems.2.Sound :=
  .ite_snd (.snd h.setF.setF.setF) (.snd (.setF (.update (h.setF.setF.setF.foldl (fun _ _ he => he.write)))))

/-! ### The image of this device (R374) -/

theorem queueMcItems (h : d.Sound) : d.queueMcItems.Sound := .ite (h.foldl (fun _ _ he => he.foldl (fun _ _ hg => hg.queueDelta))) h

/-! ### The partner and its mirror region (R374, R377) -/

theorem setPair {v : Nat} (h : d.Sound) : (d.setPair v).Sound := h.setF

theorem toPartner {sub : Nat} {p : Packet} (h : d.Sound) : (d.toPartner sub p).Sound := h.of_sent (.toPartner ..)

theorem askMirror (h : d.Sound) : d.askMirror.Sound := .ite h.update.toPartner h

theorem mgmt {f : Dev → Dev} {sub : Nat} {p : Packet} (h : d.Sound) (hf : ∀ e, e.Sound → (f e).Sound) : (d.mgmt sub p f).Sound :=
  .ite h (h.arrive (fun _ he => hf _ he))

theorem fromPartner {f : Dev → Dev} {sub : Nat} {p : Packet} (h : d.Sound) (hf : ∀ e, e.Sound → (f e).Sound) : (d.fromPartner sub p f).Sound
    :=
  h.mgmt (fun _ he => .ite (hf _ he) he)

theorem setRegion {v : Nat} (h : d.Sound) : (d.setRegion v).Sound := h.writeRaw

theorem dropRegion (h : d.Sound) : d.dropRegion.Sound := h.invalidate.update

theorem clearSlot {k : Nat} (h : d.Sound) : (d.clearSlot k).Sound := h.invalidate

/-! ### Sowing records (R380 to R383) -/

theorem logOwn {lsn : Nat} {r : List Byte} (h : d.Sound) : (d.logOwn lsn r).Sound := h.writeRaw

/-! ### Base transfers and the outbound queue (R375, R376, R380) -/

theorem sendStream {sub : Nat} {p : Packet} (h : d.Sound) : (d.sendStream sub p).Sound := h.toPartner.bump

theorem sendBase (h : d.Sound) : d.sendBase.Sound := .sendStream (.update (.ite h.emit h))

theorem startBase (h : d.Sound) : d.startBase.Sound :=
  .openGate (.sendBase (.setPair (.setF (.setF (.update (h.foldl (fun _ _ he => he.update.logOwn)))))))

theorem sendMirror (h : d.Sound) : d.sendMirror.Sound := by
  unfold Dev.sendMirror
  split
  · exact h.update.sendStream
  · exact h.update.sendStream
  · exact .ite h.sendBase h

end Dev.Sound

theorem execMirrorSend_sound {s : State} (h : s.dev.Sound) : Res.Sound (execMirrorSend s) := .onDev h (fun _ he => .ite he.sendMirror he)

namespace Dev.Sound

variable {d t : Dev}

/-! ### The partner's side of the stream (R376, R377, R380) -/

theorem setPartnerStep {x : PartnerStep} (h : d.Sound) : (d.setPartnerStep x).Sound := h.update

theorem mergeSlot {k : Nat} (h : d.Sound) : (d.mergeSlot k).Sound := h.foldl (fun _ _ he => .ite he.update he.writeRaw)

theorem sealPartner {x : PartnerStep} (h : d.Sound) : (d.sealPartner x).Sound :=
    h.toPartner.setRegion.mergeSlot.clearSlot.writeRaw.setRegion.update

theorem trySeal {n : Nat} (h : d.Sound) : (Dev.trySeal n d).Sound := by
  induction n generalizing d with
  | zero => exact h
  | succ n ih =>
    unfold Dev.trySeal
    split
    · exact .ite h (ih h.sealPartner)
    · exact h

theorem trySeals (h : d.Sound) : d.trySeals.Sound := h.trySeal

theorem streamIn {p : Packet} (h : d.Sound) : (d.streamIn p).Sound := h.bump

theorem takeItems {table : List Byte} (h : d.Sound) : (d.takeItems table).Sound := .ite h h.writeRaw.update

theorem takeBase {p : Packet} {table : List Byte} (h : d.Sound) : (d.takeBase p table).Sound :=
  .ite (.update (.writeRaw (.ite h.streamIn h.streamIn.takeItems.setRegion.clearSlot.clearSlot.update)))
      (.writeRaw (.ite h.streamIn h.streamIn.takeItems.setRegion.clearSlot.clearSlot.update))

end Dev.Sound

theorem execBase_sound {s : State} {p : BasePacket} (h : s.dev.Sound) : Res.Sound (execBase p s) :=
  .onDev h (fun _ he => he.fromPartner (fun _ hg => hg.takeBase))

namespace Dev.Sound

variable {d t : Dev}

theorem slotLine {k off : Nat} {line : List Byte} (h : d.Sound) : (d.slotLine k off line).Sound := h.writeRaw.writeRaw

theorem takeDelta {step : Nat} {e : List Byte} (h : d.Sound) : (d.takeDelta step e).Sound := .ite h.setPartnerStep.writeRaw
    h.setPartnerStep.slotLine

end Dev.Sound

theorem execDelta_sound {s : State} {p : Packet} (h : s.dev.Sound) : Res.Sound (execDelta p s) :=
  .onDev h (fun _ he => he.fromPartner (fun _ hg => hg.streamIn.foldl (fun _ _ hk => hk.takeDelta)))

namespace Dev.Sound

variable {d t : Dev}

theorem takeRecord {r : List Byte} (h : d.Sound) : (d.takeRecord r).Sound := .ite h.writeRaw.setPartnerStep h.writeRaw

end Dev.Sound

theorem execRecord_sound {s : State} {p : Packet} (h : s.dev.Sound) : Res.Sound (execRecord p s) :=
  .onDev h (fun _ he => he.fromPartner (fun _ hg => .trySeals (hg.streamIn.foldl (fun _ _ hk => hk.takeRecord))))

namespace Dev.Sound

variable {d t : Dev}

/-! ### The plot map at a boundary (R110) -/

theorem setMask {k m : Nat} (h : d.Sound) : (d.setMask k m).Sound := h.foldl (fun _ _ he => he.setF)

theorem reloadMembers (h : d.Sound) : d.reloadMembers.Sound := h.update

theorem resolveMap {before : List Nat} (h : d.Sound) : (d.resolveMap before).Sound :=
  .ite h.update (.reloadMembers (h.update.foldl (fun _ _ he => .ite he he.setMask.setErr)))

/-! ### Commits (R54 to R57) -/

theorem finishGroup (h : d.Sound) : d.finishGroup.Sound := by
  unfold Dev.finishGroup
  split
  · exact .ite h.update.setF.setF h
  · exact h

theorem setRsWords {c i : Nat} {ws : List (Nat × Nat)} (h : d.Sound) : (d.setRsWords c i ws).Sound :=
  h.foldl (fun _ _ he => he.foldl (fun _ _ hg => hg.setF.setAct))

theorem boundaryCommits (h : d.Sound) : d.boundaryCommits.Sound := by
  unfold Dev.boundaryCommits
  split
  · exact h.foldl (fun _ _ he => he.applyCommit)
  · refine .foldl (h.foldl (fun _ _ he => he.applyCommit)) (fun _ _ he => ?_)
    split
    · exact he.setRsWords
    · exact he

theorem applyRebalances {ds : List Decision} (h : d.Sound) : (d.applyRebalances ds).Sound := by
  unfold Dev.applyRebalances
  refine h.foldl (fun _ _ he => ?_)
  split
  · exact he.setMask.setF.setF.bump.reloadMembers
  · exact he

theorem withdraw {ds : List Decision} (h : d.Sound) : (d.withdraw ds).Sound := h.of_reports (Noise.withdraw ..).reports

theorem applyMaps_snd (h : d.Sound) : d.applyMaps.2.Sound :=
  .snd (.finishGroup (.resolveMap (.ite h.boundaryCommits.withdraw h.boundaryCommits.applyRebalances)))

/-! ### Scale state, positions and the gradient plan -/

theorem applyPromotions (h : d.Sound) : d.applyPromotions.Sound := by
  unfold Dev.applyPromotions
  refine h.foldl (fun _ _ he => ?_)
  split
  · exact he.write
  · exact he

theorem boundaryUpdates (h : d.Sound) : d.boundaryUpdates.Sound := by
  unfold Dev.boundaryUpdates
  dsimp only
  split
  · exact .clearAccs (.update (.clearStats (.clearAccs (.advancePositions (h.applyPromotions.foldl (fun _ _ he => he.scaleUpdate))))))
  · exact .clearStats (.clearAccs (.advancePositions (h.applyPromotions.foldl (fun _ _ he => he.scaleUpdate))))

/-! ### Vote, bucket size and records -/

theorem clampBucket_snd {x : Decision} (h : d.Sound) : (d.clampBucket x).2.Sound := by
  unfold Dev.clampBucket
  split
  · exact .ite_snd h (.snd h.setErr)
  · exact h

theorem reportVote {ds : List Decision} (h : d.Sound) : (d.reportVote ds).Sound := by
  unfold Dev.reportVote
  refine h.foldl (fun _ _ he => ?_)
  split
  · exact he.postEvent.setErr.bump
  · exact he

theorem putRecords {rs : List (List Byte)} (h : d.Sound) : (d.putRecords rs).Sound := .bump
    (.setF (h.foldl (fun _ _ he => he.logOwn.update)))

/-! ### Seals (R17, R372, R376, R380) -/

theorem sealTo {n count : Nat} (h : d.Sound) : (d.sealTo n count).Sound := h.update.setF.setF.bump

theorem addBoundary {n : Nat} (h : d.Sound) : (d.addBoundary n).Sound := .ite h.update.sealTo (.ite h.update h.update)

theorem boundaryCap {m : BoundaryMeasure} (h : d.Sound) : (d.boundaryCap m).Sound := by
  unfold Dev.boundaryCap
  refine .ite h (.ite (.bump (.update ?_)) (.ite (.policyWithheld (.bump (.update ?_))) (.policyTaken (.update (.bump (.update ?_))))))
  · split
    · exact .setF (.ite h h.setErr)
    · exact h
  · split
    · exact .setF (.ite h h.setErr)
    · exact h
  · split
    · exact .setF (.ite h h.setErr)
    · exact h

/-! ### What else happens at a boundary -/

theorem boundaryBusy {ps : List Nat} {m : BoundaryMeasure} (h : d.Sound) : (d.boundaryBusy ps m).Sound :=
  .update (.foldl (h.foldl (fun _ _ he => he.setF)) (fun _ _ he => he.bump.bump))

theorem batchShort (h : d.Sound) : d.batchShort.Sound := .update (.ite h.setErr h)

theorem underfill (h : d.Sound) : d.underfill.Sound := .update (.ite h.setErr h)

theorem resumeReturned (h : d.Sound) : d.resumeReturned.Sound := h.foldl (fun _ _ he => .ite he.setReturned.setBlk he.setReturned)

theorem fromRunning {now : Nat} {p : Dev → Nat → Nat → Bool} (h : d.Sound) : (d.fromRunning now p).Sound := h.foldl
    (fun _ _ he => .ite he.setBlk he)

theorem quiesceAll (h : d.Sound) : d.quiesceAll.Sound := .ite h.fromRunning h

theorem rwBoundary (h : d.Sound) : d.rwBoundary.Sound := h.foldl (fun _ _ he => .ite he.rwActs he)

theorem endJob (h : d.Sound) : d.endJob.Sound := by
  unfold Dev.endJob
  exact .ite h.setF.resumeReturned.update.fromRunning.setBlk h.setF.resumeReturned.update.fromRunning

theorem freshStep (h : d.Sound) : d.freshStep.Sound := h.update.placeAll.openWindows.closeVote

end Dev.Sound

end Sys2Proof.Machine
end

