-- ==== Sys2Proof/Proofs/SoundSteps.lean ====
section
/-! Every operation keeps stacked memory and the cell stores in their one form (R285, R298):
steps, pairing, the pipeline and media. -/

namespace Sys2Proof.Machine

namespace Dev.Sound

variable {d t : Dev}

/-! ### What else happens at a boundary -/

theorem replayClosed {n : Nat} (h : d.Sound) : (d.replayClosed n).Sound := .ite (.rejoin (.ite h.update.bump h)) (.ite h.update.bump h)

/-! ### The boundary -/

theorem boundaryState_snd (h : d.Sound) : d.boundaryState.2.Sound := by
  unfold Dev.boundaryState
  extract_lets _ _ _ _ _ r _ b _ d₁ d₂
  have hr : r.2.Sound := h.applyMaps_snd
  have hb : b.2.Sound := .ite_snd hr.clampBucket_snd (.snd hr)
  have h₂ : d₂.Sound := .ite hb.boundaryUpdates hb.boundaryUpdates.queueMcItems
  exact .snd h₂

theorem closeStep {m : BoundaryMeasure} (h : d.Sound) : (d.closeStep m).Sound := by
  unfold Dev.closeStep
  refine .ite h.update.setErr (.ite (.endJob (.replayClosed (.setF ?_)))
      (.freshStep (.quiesceAll (.resumeReturned (.replayClosed (.setF ?_))))))
  · split
    · exact h.batchShort.boundaryState_snd.putRecords.addBoundary.boundaryCap.reportVote.setF.boundaryBusy.underfill.rwBoundary.update.complete
    · exact h.batchShort.boundaryState_snd.putRecords.addBoundary.boundaryCap.reportVote.setF.boundaryBusy.underfill.rwBoundary.update
  · split
    · exact h.batchShort.boundaryState_snd.putRecords.addBoundary.boundaryCap.reportVote.setF.boundaryBusy.underfill.rwBoundary.update.complete
    · exact h.batchShort.boundaryState_snd.putRecords.addBoundary.boundaryCap.reportVote.setF.boundaryBusy.underfill.rwBoundary.update

theorem tryClose {m : BoundaryMeasure} (h : d.Sound) : (d.tryClose m).Sound := by
  unfold Dev.tryClose
  split
  · exact h.rmwDropped.update
  · exact h.closeStep

theorem stepBoundary {m : BoundaryMeasure} (h : d.Sound) : (d.stepBoundary m).Sound := .ite h (.ite h.update.noteHeld h.tryClose)

theorem closeHeld (h : d.Sound) : d.closeHeld.Sound := by
  unfold Dev.closeHeld
  split
  · exact .ite h.tryClose h
  · exact h

theorem sealAck {n : Nat} (h : d.Sound) : (d.sealAck n).Sound := .ite (.closeHeld (.openGate (.ite h.sealTo.setPair h.sealTo))) h

theorem sendPairReq (h : d.Sound) : d.sendPairReq.Sound := h.of_sent (.sendPairReq ..)

theorem refusePair {code : Nat} (h : d.Sound) : (d.refusePair code).Sound := h.update.setPair.setF.setErr.closeHeld.openGate

theorem newBase (h : d.Sound) : d.newBase.Sound := h.startBase.closeHeld

theorem toConfig {cause : Nat} (h : d.Sound) : (d.toConfig cause).Sound := h.setF.setF.vectors

theorem pairDone (h : d.Sound) : d.pairDone.Sound := by
  unfold Dev.pairDone
  refine .ite ?_ h
  split
  · exact h
  · extract_lets _ d₁ _ d₂
    have h₁ : d₁.Sound := h.setF.setF
    have h₂ : d₂.Sound := h₁.update
    exact .ite h₁.update.setPair.toConfig (.ite h₂.setPair.setF.setF h₂.newBase)

theorem answerReq {p : Packet} (h : d.Sound) : (d.answerReq p).Sound :=
  .ite h.compareTrust_snd.toPartner.update.pairDone h.compareTrust_snd.toPartner.update.refusePair

theorem startPair {key : Nat} {graft : Bool} (h : d.Sound) : (d.startPair key graft).Sound := by
  unfold Dev.startPair
  refine .ite h.lockedWrite ?_
  dsimp only
  split
  · exact .ite h.checkItems_snd.setPair.setF.setF.update.sendPairReq.answerReq h.checkItems_snd.setPair.setF.setF.update.sendPairReq
  · exact h.checkItems_snd.setPair.setF.setF.update.sendPairReq

theorem takePairReq {p : Packet} (h : d.Sound) : (d.takePairReq p).Sound :=
  .ite h.update (.ite h.sendMgmt (.ite h.answerReq h.update.sendPairReq.answerReq))

theorem takePairAck {p : Packet} (h : d.Sound) : (d.takePairAck p).Sound := .ite h (.ite h.update.pairDone h.update.refusePair)

theorem pairTimeout (h : d.Sound) : d.pairTimeout.Sound := .ite h.toPartner.refusePair h

theorem dropPair (h : d.Sound) : d.dropPair.Sound := h.toPartner.dropRegion.update.setPair.closeHeld.openGate

theorem unpair (h : d.Sound) : d.unpair.Sound := .ite h h.dropPair

end Dev.Sound

theorem execRemirror_sound {s : State} {p : Packet} (h : s.dev.Sound) : Res.Sound (execRemirror p s) :=
  .onDev h (fun _ he => he.fromPartner (fun _ hg => .ite hg.newBase hg))

theorem execHeartbeat_sound {s : State} {p : Packet} (h : s.dev.Sound) : Res.Sound (execHeartbeat p s) :=
  .onDev h (fun _ he => he.fromPartner (fun _ hg => hg))

theorem execHeartbeatTimer_sound {s : State} (h : s.dev.Sound) : Res.Sound (execHeartbeatTimer s) :=
  .onDev h (fun _ he => .ite (.satAdd (.ite he.toPartner he.toPartner.askMirror)) he)

theorem execPartnerSilenceTimeout_sound {s : State} (h : s.dev.Sound) : Res.Sound (execPartnerSilenceTimeout s) :=
  .onDev h (fun _ he => .ite (he.setPair.setErr.update.foldl (fun _ _ hg => hg.complete)) he)

namespace Dev.Sound

variable {d t : Dev}

/-! ### 256-bit feature words (R58) -/

theorem setFeatureWord {reg : Nat → Field} {v : Nat} (h : d.Sound) : (d.setFeatureWord reg v).Sound := h.foldl (fun _ _ he => he.setF)

end Dev.Sound

namespace Cell.Sound

/-! ### What a replay drops (R390, R391) -/

theorem held {c : Cell} (hc : c.Sound) : c.held.Sound := hc

end Cell.Sound

namespace Dev.Sound

variable {d t : Dev}

theorem dropWork (h : d.Sound) : d.dropWork.Sound := .update (h.foldl (fun _ _ he => .clearTileRegs (he.setCell he.cell.held)))

theorem dropTrain (h : d.Sound) : d.dropTrain.Sound := h.clearAccs.update

theorem reexecute (h : d.Sound) : d.reexecute.Sound := h.dropWork.dropTrain.clearStats.update.setF.toConfig

theorem inPlace {cause : Nat} (h : d.Sound) : (d.inPlace cause).Sound :=
  .ite h (.ite h.reexecute (.ite h.update.recoveryFailed h.dropWork.dropTrain.clearStats.clearStats.update.setF.toConfig))

end Dev.Sound

theorem execInPlaceReplay_sound {s : State} {cause : Nat} (h : s.dev.Sound) : Res.Sound (execInPlaceReplay cause s) :=
  .onDev h (fun _ he => he.inPlace)

namespace Dev.Sound

variable {d t : Dev}

/-! ### GO (R395, R396) -/

theorem askRestore (h : d.Sound) : d.askRestore.Sound := h.update.setF.askMirror.toPartner

theorem recoveryGo (h : d.Sound) : d.recoveryGo.Sound :=
  .ite h (.ite h.update.setF.freshStep (.ite (.askRestore (.ite_snd h.update.checkItems_snd (.snd h.update)))
      (.recoveryFailed (.ite_snd h.update.checkItems_snd (.snd h.update)))))

end Dev.Sound

theorem execRecoveryAbort_sound {s : State} {w : Writer} (h : s.dev.Sound) : Res.Sound (execRecoveryAbort w s) :=
  .byWriter h (fun _ he => .ite he.recoveryFailed he)

theorem execRecoveryGoTimeout_sound {s : State} (h : s.dev.Sound) : Res.Sound (execRecoveryGoTimeout s) :=
  .onDev h (fun _ he => .ite he.recoveryFailed he)

namespace Dev.Sound

variable {d t : Dev}

/-! ### The partner serves (R377, R386, R387, R396, R401) -/

theorem sendImage {off n : Nat} (h : d.Sound) : (d.sendImage off n).Sound := h.foldl (fun _ _ he => he.toPartner)

theorem serveRestore {p : Packet} (h : d.Sound) : (d.serveRestore p).Sound := by
  unfold Dev.serveRestore
  refine .ite (.toPartner (.ite h.setPair h)) (.ite (.ite (.newBase (.toPartner
      (.sendImage (.update (.clearSlot (.clearSlot (.ite h.setPair h)))))))
      (.toPartner (.sendImage (.update (.clearSlot (.clearSlot (.ite h.setPair h))))))) ?_)
  split
  · exact .ite (.toPartner (.sendImage (.ite h.setPair h))) (.toPartner (.ite h.setPair h))
  · exact .toPartner (.ite h.setPair h)

end Dev.Sound

theorem execRestoreReq_sound {s : State} {p : Packet} (h : s.dev.Sound) : Res.Sound (execRestoreReq p s) :=
  .onDev h (fun _ he => he.fromPartner (fun _ hg => hg.serveRestore))

namespace Dev.Sound

variable {d t : Dev}

theorem sendLog {rs : List (List Byte)} (h : d.Sound) : (d.sendLog rs).Sound := h.foldl (fun _ _ he => he.toPartner)

end Dev.Sound

theorem execRefetch_sound {s : State} {p : Packet} (h : s.dev.Sound) : Res.Sound (execRefetch p s) :=
  .onDev h (fun _ he => he.fromPartner (fun _ hg => .ite hg.toPartner hg.sendLog))

namespace Dev.Sound

variable {d t : Dev}

/-! ### The restore (R396) -/

theorem restoreBytes {off : Nat} {bs : List Byte} (h : d.Sound) : (d.restoreBytes off bs).Sound :=
  h.foldl (fun _ _ he => .ite he.update he.writeRaw.writeRaw)

end Dev.Sound

theorem execRestoreData_sound {s : State} {p : Packet} (h : s.dev.Sound) : Res.Sound (execRestoreData p s) :=
  .onDev h (fun _ he => he.fromPartner (fun _ hg => .ite hg.restoreBytes (.ite hg.update.writeRaw.trySeals (.ite hg.restoreBytes hg))))

namespace Dev.Sound

variable {d t : Dev}

theorem loadPlotMap {off : Nat} (h : d.Sound) : (d.loadPlotMap off).Sound := by
  unfold Dev.loadPlotMap
  exact .resolveMap (h.foldl (fun _ _ he => he.setMask.setF.setF))

theorem loadFeatures_snd {off : Nat} (h : d.Sound) : (d.loadFeatures off).2.Sound := by
  unfold Dev.loadFeatures
  dsimp only
  split
  · exact .snd h.setF.setF
  · exact .snd h.setFeatureWord

theorem startReplay {b lsn : Nat} (h : d.Sound) : (d.startReplay b lsn).Sound :=
  .freshStep (.setBlk (.setF (.setF (.setF (.setF (.setF (.setF (.setF (.update (.ite h.setErr.setF h))))))))))

theorem restored {b lsn : Nat} (h : d.Sound) : (d.restored b lsn).Sound := by
  unfold Dev.restored
  extract_lets d₁ d₂ d₃ _ _ d₄ d₅ d₆
  have h₁ : d₁.Sound := h.loadPlotMap
  clear_value d₁
  have h₂ : d₂.2.Sound := h₁.loadFeatures_snd
  clear_value d₂
  have h₃ : d₃.2.Sound := h₂.gsbCheck_snd
  clear_value d₃
  have h₄ : d₄.Sound := h₃.update
  clear_value d₄
  have h₅ : d₅.Sound := h₄.clearRing.clearStats.clearStats
  clear_value d₅
  have h₆ : d₆.Sound := h₅.setF
  clear_value d₆
  exact .ite h₂.recoveryFailed (.ite h₃.recoveryFailed (.ite h₆.startReplay h₆.update.toPartner))

theorem restoreEnd {p : Packet} (h : d.Sound) : (d.restoreEnd p).Sound :=
  .ite (.ite h (.ite h.recoveryFailed h.restored)) (.ite (.ite h.update h.update) h)

theorem takeLog {r : List Byte} (h : d.Sound) : (d.takeLog r).Sound := .ite h (.ite (.ite h.logOwn.setErr h.logOwn) h.writeRaw)

theorem logData {p : Packet} (h : d.Sound) : (d.logData p).Sound := by
  unfold Dev.logData
  dsimp only
  split
  · exact .ite (.startReplay (h.foldl (fun _ _ he => he.takeLog))) (h.foldl (fun _ _ he => he.takeLog))
  · exact h.foldl (fun _ _ he => he.takeLog)

/-! ### Harvest (R279 to R283) -/

theorem forwardHarvest {c : JobCmd} (h : d.Sound) : (d.forwardHarvest c).Sound := h.update.toPartner

theorem startHarvest {c : JobCmd} (h : d.Sound) : (d.startHarvest c).Sound := .ite h.complete
    (.ite h.forwardHarvest (.ite h.complete h.complete))

theorem answerHarvest {cookie status n : Nat} (h : d.Sound) : (d.answerHarvest cookie status n).Sound := h.toPartner

theorem harvestMsg {p : Packet} (h : d.Sound) : (d.harvestMsg p).Sound := by
  unfold Dev.harvestMsg
  refine .ite ?_ (.ite h.answerHarvest (.ite h.answerHarvest h.update))
  split
  · exact h.update.complete
  · exact h

end Dev.Sound

theorem execHarvestMsg_sound {s : State} {p : Packet} (h : s.dev.Sound) : Res.Sound (execHarvestMsg p s) :=
  .onDev h (fun _ he => he.fromPartner (fun _ hg => hg.harvestMsg))

namespace Dev.Sound

variable {d t : Dev}

theorem harvestWrite {q : HarvestJob} {flow : Option Nat} {off : Nat} {bs : List Byte} (h : d.Sound) : (d.harvestWrite q flow off bs).Sound
    := by
  unfold Dev.harvestWrite
  split
  · exact h.foldl (fun _ _ he => he.issueOp)
  · exact h.emit

theorem unpin (h : d.Sound) : d.unpin.Sound := .trySeals (.update (h.foldl (fun _ _ he => he.writeRaw)))

theorem writeHarvest {q : HarvestJob} {flow : Option Nat} (h : d.Sound) : (d.writeHarvest q flow).Sound :=
  .ite h.harvestWrite.harvestWrite h.harvestWrite

theorem endHarvest {q : HarvestJob} {status n : Nat} (h : d.Sound) : (d.endHarvest q status n).Sound := h.unpin.answerHarvest

theorem finishHarvest (h : d.Sound) : d.finishHarvest.Sound := by
  unfold Dev.finishHarvest
  split
  · refine .ite h ?_
    split
    · exact .ite h (.ite h.endHarvest h.endHarvest)
    · exact .ite h.endHarvest (.ite h.writeHarvest.endHarvest h.writeHarvest.update)
  · exact h

end Dev.Sound

theorem execHarvestComplete_sound {s : State} (h : s.dev.Sound) : Res.Sound (execHarvestComplete s) :=
  .onDev h (fun _ he => he.finishHarvest)

namespace Dev.Sound

variable {d t : Dev}

/-! ### Descriptors and slots (R407, R417, R418) -/

theorem noteSubst {plot slot : Nat} {x : PipSlot} (h : d.Sound) : (d.noteSubst plot slot x).Sound := by
  unfold Dev.noteSubst
  split
  · exact h.update
  · exact h

theorem noteNew {plot slot : Nat} {x : PipSlot} (h : d.Sound) : (d.noteNew plot slot x).Sound := .ite h h.noteSubst

/-! ### Batches -/

theorem setBatch {b : Batch} (h : d.Sound) : (d.setBatch b).Sound := h.update

theorem onSlot {f : Batch → PipSlot → Dev} {plot slot : Nat} (h : d.Sound) (hf : ∀ x y, (f x y).Sound) : (d.onSlot plot slot f).Sound := by
  unfold Dev.onSlot
  split
  · exact h.elim (fun _ => .ite h (hf _ _))
  · exact h

/-! ### Placement (R426) -/

theorem writeSlot {a : IngestArgs} {x : PipSlot} {seg : Nat} (h : d.Sound) : (d.writeSlot a x seg).Sound :=
  h.foldl (fun _ _ he => .write (.ite he.write he.write.write))

theorem placeSlot_snd {b : Batch} {s : Nat} {x : PipSlot} (h : d.Sound) : (d.placeSlot b s x).2.Sound := by
  unfold Dev.placeSlot
  refine .ite_snd h ?_
  split
  · exact .snd h.bump.setErr
  · exact .snd (.ite h.writeSlot.bump h.writeSlot)

theorem placeFrom_snd {b : Batch} {n : Nat} (h : d.Sound) : (d.placeFrom b n).2.Sound := by
  induction n generalizing d b with
  | zero => exact h
  | succ n ih =>
    unfold Dev.placeFrom
    split
    · exact .ite_snd (ih h.placeSlot_snd) h
    · exact h

theorem settleBatch {b : Batch} (h : d.Sound) : (d.settleBatch b).Sound := h.placeFrom_snd.setBatch

/-! ### INGEST (R405, R406) -/

theorem ingest {c : JobCmd} (h : d.Sound) : (d.ingest c).Sound := by
  unfold Dev.ingest
  refine .ite h.complete (.ite h.complete ?_)
  split
  · exact h.poisonRead.setErr.complete
  · exact .ite h.setErr.complete (.settleBatch (h.update.foldl (fun _ _ he => he.noteSubst)))

/-! ### The sample cache (R413 to R415) -/

theorem cacheLookup_snd {u : Nat} {p : Prog} {sample : Nat} (h : d.Sound) : (d.cacheLookup u p sample).2.Sound := by
  unfold Dev.cacheLookup
  dsimp only
  split
  · exact .snd h.bump
  · refine .snd (.bump (.ite (.setErr (.bump ?_)) ?_))
    · split
      · exact h.poisonRead
      · exact h
    · split
      · exact h.poisonRead
      · exact h

theorem cacheInstall {u : Nat} {p : Prog} {sample : Nat} {f : PipForm} (h : d.Sound) : (d.cacheInstall u p sample f).Sound := by
  unfold Dev.cacheInstall
  refine .ite h (.ite h.bump.setErr (.ite h.write.write ?_))
  split
  · exact h.write.write.bump.setErr
  · exact h.write.write.write.bump

theorem dropCache (h : d.Sound) : d.dropCache.Sound := h.invalidate

theorem cacheLost {a : Nat} (h : d.Sound) : (d.cacheLost a).Sound := .ite h.dropCache
    (.ite h.write (h.foldl (fun _ _ he => .ite he.write he)))

/-! ### Corrupt slots (R416 to R418) -/

theorem corrupt {b : Batch} {slot u reason : Nat} {x : PipSlot} (h : d.Sound) : (d.corrupt b slot u reason x).Sound :=
  .settleBatch (.ite (.noteNew (.bump (.ite (.setErr (.ite h.setErr.bump h)) (.ite h.setErr.bump h))))
      (.ite (.setErr (.ite h.setErr.bump h)) (.ite h.setErr.bump h)))

theorem fetchFailed {b : Batch} {slot u : Nat} {x : PipSlot} {again : Bool} (h : d.Sound) : (d.fetchFailed b slot u x again).Sound :=
  .ite (.setBatch (.ite h.setErr h)) h.corrupt

theorem srcPoison {u a : Nat} (h : d.Sound) : (d.srcPoison u a).Sound := h.poisonRead.setF.setF.setF.setErrFull

theorem stageForm {b : Batch} {slot u : Nat} {x : PipSlot} {f : PipForm} (h : d.Sound) : (d.stageForm b slot u x f).Sound :=
  h.draw_snd.update.write.setBatch

theorem built {b : Batch} {slot u : Nat} {x : PipSlot} {p : Prog} {stored : List Byte} {r : DecodeResult} (h : d.Sound) :
    (d.built b slot u x p stored r).Sound := by
  unfold Dev.built
  split
  · exact h.bump.corrupt
  · exact .ite h.bump (.stageForm (.ite h.bump.cacheInstall h.bump))

theorem fetchDone {plot slot u : Nat} {r : FetchOutcome} (h : d.Sound) : (d.fetchDone plot slot u r).Sound := by
  unfold Dev.fetchDone
  refine h.onSlot (fun _ _ => .ite h ?_)
  split
  · split
    · dsimp only
      split
      · exact h.setBlk.srcPoison.corrupt
      · refine .ite h.setBlk.corrupt ?_
        split
        · exact .stageForm (.ite_snd h.setBlk.cacheLookup_snd (.snd h.setBlk))
        · exact .fetchFailed (.ite_snd h.setBlk.cacheLookup_snd (.snd h.setBlk))
    · split
      · dsimp only
        split
        · exact h.setBlk.srcPoison.corrupt
        · refine .ite h.setBlk.corrupt ?_
          split
          · exact .stageForm (.ite_snd h.setBlk.cacheLookup_snd (.snd h.setBlk))
          · refine .ite (.fetchFailed (.ite_snd h.setBlk.cacheLookup_snd (.snd h.setBlk))) ?_
            split
            · exact .fetchFailed (.srcPoison (.ite_snd h.setBlk.cacheLookup_snd (.snd h.setBlk)))
            · exact .ite_snd h.setBlk.cacheLookup_snd (.snd h.setBlk)
            · exact .ite_snd h.setBlk.cacheLookup_snd (.snd h.setBlk)
            · exact .elim (.ite_snd h.setBlk.cacheLookup_snd (.snd h.setBlk))
                  (fun _ => .built (.ite_snd h.setBlk.cacheLookup_snd (.snd h.setBlk)))
      · dsimp only
        split
        · exact h.setBlk.srcPoison.corrupt
        · refine .ite h.setBlk.corrupt ?_
          split
          · exact .stageForm (.ite_snd h.setBlk.cacheLookup_snd (.snd h.setBlk))
          · refine .ite (.fetchFailed (.ite_snd h.setBlk.cacheLookup_snd (.snd h.setBlk))) ?_
            split
            · exact .fetchFailed (.srcPoison (.ite_snd h.setBlk.cacheLookup_snd (.snd h.setBlk)))
            · exact .fetchFailed (.ite_snd h.setBlk.cacheLookup_snd (.snd h.setBlk))
            · exact .fetchFailed (.ite_snd h.setBlk.cacheLookup_snd (.snd h.setBlk))
            · exact .elim (.ite_snd h.setBlk.cacheLookup_snd (.snd h.setBlk))
                  (fun _ => .built (.ite_snd h.setBlk.cacheLookup_snd (.snd h.setBlk)))
  · split
    · dsimp only
      split
      · exact h.srcPoison.corrupt
      · refine .ite h.corrupt ?_
        split
        · exact .stageForm (.ite_snd h.cacheLookup_snd h)
        · exact .fetchFailed (.ite_snd h.cacheLookup_snd h)
    · split
      · dsimp only
        split
        · exact h.srcPoison.corrupt
        · refine .ite h.corrupt ?_
          split
          · exact .stageForm (.ite_snd h.cacheLookup_snd h)
          · refine .ite (.fetchFailed (.ite_snd h.cacheLookup_snd h)) ?_
            split
            · exact .fetchFailed (.srcPoison (.ite_snd h.cacheLookup_snd h))
            · exact .ite_snd h.cacheLookup_snd h
            · exact .ite_snd h.cacheLookup_snd h
            · exact .elim (.ite_snd h.cacheLookup_snd h) (fun _ => .built (.ite_snd h.cacheLookup_snd h))
      · dsimp only
        split
        · exact h.srcPoison.corrupt
        · refine .ite h.corrupt ?_
          split
          · exact .stageForm (.ite_snd h.cacheLookup_snd h)
          · refine .ite (.fetchFailed (.ite_snd h.cacheLookup_snd h)) ?_
            split
            · exact .fetchFailed (.srcPoison (.ite_snd h.cacheLookup_snd h))
            · exact .fetchFailed (.ite_snd h.cacheLookup_snd h)
            · exact .fetchFailed (.ite_snd h.cacheLookup_snd h)
            · exact .elim (.ite_snd h.cacheLookup_snd h) (fun _ => .built (.ite_snd h.cacheLookup_snd h))

end Dev.Sound

theorem execSampleFetchComplete_sound {s : State} {plot slot unit : Nat} {r : FetchOutcome} (h : s.dev.Sound) : Res.Sound
    (execSampleFetchComplete plot slot unit r s) :=
  .onDev h (fun _ he => he.fetchDone)

theorem execFetchRetryTimer_sound {s : State} {plot slot : Nat} (h : s.dev.Sound) : Res.Sound (execFetchRetryTimer plot slot s) :=
  .onDev h (fun _ he => he.onSlot (fun _ _ => .ite he.setBatch he))

namespace Dev.Sound

variable {d t : Dev}

/-! ### A slot's output (R423 to R427) -/

theorem scoreWork {u : Nat} {p : Prog} {f : PipForm} {n : Nat} (h : d.Sound) : (d.scoreWork u p f n).Sound := .ite h.bump.bump h

theorem slotDone {plot slot u : Nat} (h : d.Sound) : (d.slotDone plot slot u).Sound := by
  unfold Dev.slotDone
  refine h.onSlot (fun _ _ => ?_)
  split
  · exact h
  · exact .ite h (.settleBatch (.noteNew (.bump (.scoreWork (.foldl (h.foldl (fun _ _ he => he.applyStat))
        (fun _ _ he => he.postEvent.setErr))))))

end Dev.Sound

theorem execPipelineSlotComplete_sound {s : State} {plot slot unit : Nat} (h : s.dev.Sound) : Res.Sound
    (execPipelineSlotComplete plot slot unit s) :=
  .onDev h (fun _ he => he.slotDone)

namespace Dev.Sound

variable {d t : Dev}

/-! ### The end of an INGEST (R426, R427) -/

theorem padRow {b : Batch} {r : Nat} (h : d.Sound) : (d.padRow b r).Sound := h.foldl (fun _ _ he => .write (.ite he.write he.write.write))

theorem ingestDone {plot : Nat} (h : d.Sound) : (d.ingestDone plot).Sound := by
  unfold Dev.ingestDone
  split
  · exact .complete (.update (.write (h.foldl (fun _ _ he => he.padRow))))
  · exact h

end Dev.Sound

theorem execIngestComplete_sound {s : State} {plot : Nat} (h : s.dev.Sound) : Res.Sound (execIngestComplete plot s) :=
  .onDev h (fun _ he => he.ingestDone)

theorem execFlush_sound {s : State} {w : Writer} (h : s.dev.Sound) : Res.Sound (execFlush w s) :=
  .byWriter h (fun _ he => .ite he.lockedWrite he.dropCache)

namespace Dev.Sound

variable {d t : Dev}

theorem pipMove {u : Nat} (h : d.Sound) : (d.pipMove u).Sound := h.update

/-! ### Contexts (R430, R431) -/

theorem setSession {k : Nat} {s : Session} (h : d.Sound) : (d.setSession k s).Sound := h.update

theorem seat_some {i : Nat} {s : Session} {r : Nat × Dev} (h : d.Sound) (e : d.seat i s = some r) : r.2.Sound := by
  unfold Dev.seat at e
  obtain ⟨k, -, rfl⟩ := Option.map_eq_some_iff.1 e
  exact .setSession (.ite h.setBlk h)

theorem seatNew_some {die : Nat} {s : Session} {r : Nat × Dev} (h : d.Sound) (e : d.seatNew die s = some r) : r.2.Sound := by
  unfold Dev.seatNew at e
  obtain ⟨i, -, e⟩ := Option.bind_eq_some_iff.1 e
  obtain ⟨x, hx, rfl⟩ := Option.map_eq_some_iff.1 e
  exact (h.seat_some hx).bump

theorem openWaiting_some {w : MediaWait} (h : d.Sound) (e : d.openWaiting w = some t) : t.Sound := by
  unfold Dev.openWaiting at e
  split at e
  · obtain ⟨x, hx, rfl⟩ := Option.map_eq_some_iff.1 e
    exact h.seatNew_some hx
  · obtain ⟨x, hx, rfl⟩ := Option.map_eq_some_iff.1 e
    exact (h.seatNew_some hx).setSession.complete
  · obtain ⟨i, -, e⟩ := Option.bind_eq_some_iff.1 e
    obtain ⟨x, hx, rfl⟩ := Option.map_eq_some_iff.1 e
    exact h.seat_some hx

theorem medWake (h : d.Sound) : d.medWake.Sound := by
  unfold Dev.medWake
  refine h.foldl (fun _ _ he => ?_)
  split
  · exact .update (he.openWaiting_some ‹_›)
  · exact he

theorem openOrWait {w : MediaWait} (h : d.Sound) : (d.openOrWait w).Sound := by
  unfold Dev.openOrWait
  split
  · exact h.openWaiting_some ‹_›
  · exact h.update

theorem closeSession {k : Nat} (h : d.Sound) : (d.closeSession k).Sound := h.update.medWake

end Dev.Sound

theorem execMediaSessionOpen_sound {s : State} {die : Nat} {roundtrip : Bool} {maxPixels length : Nat} (h : s.dev.Sound) : Res.Sound
    (execMediaSessionOpen die roundtrip maxPixels length s) :=
  .onDev h (fun _ he => he.openOrWait)

namespace Dev.Sound

variable {d t : Dev}

/-! ### Decoding (R433 to R437) -/

theorem endDecode {slice k bit : Nat} (h : d.Sound) : (d.endDecode slice k bit).Sound := .closeSession (.setErr (.ite h h.bump))

theorem decoded {slice k : Nat} {s : Session} {w q planes : Nat} {data : List Byte} (h : d.Sound) :
    (d.decoded slice k s w q planes data).Sound :=
  .ite h.setSession.bump.bump h.endDecode

theorem medPoison {slice a : Nat} (h : d.Sound) : (d.medPoison slice a).Sound := h.poisonRead.setF.setF.setF

theorem decodeUnit {slice k : Nat} {s : Session} {u : DecodeUnit} (h : d.Sound) : (d.decodeUnit slice k s u).Sound := by
  unfold Dev.decodeUnit
  split
  · exact h.decoded
  · exact h.decoded
  · exact .ite h.setSession.bump h.endDecode
  · exact h.endDecode
  · exact h.endDecode
  · exact .ite h.medPoison.endDecode h
  · exact h.closeSession

end Dev.Sound

theorem execDecodePicture_sound {s : State} {slice context : Nat} {u : DecodeUnit} (h : s.dev.Sound) : Res.Sound
    (execDecodePicture slice context u s) := by
  unfold execDecodePicture
  refine .onDev h (fun _ he => ?_)
  dsimp only
  split
  · exact .ite he.decodeUnit he
  · exact he

namespace Dev.Sound

variable {d t : Dev}

/-! ### Opening an encoder (R438, R444) -/

theorem encOpen {c : JobCmd} (h : d.Sound) : (d.encOpen c).Sound := by
  unfold Dev.encOpen
  refine .ite h.complete (.ite h.complete (.ite h.complete ?_))
  split
  · exact h.poisonRead.complete
  · exact .ite h.openOrWait h.complete

/-! ### The pictures of a session (R439, R442, R443) -/

theorem setEnc {k : Nat} {s : Session} {x : EncState} (h : d.Sound) : (d.setEnc k s x).Sound := h.setSession

theorem onHandle {f : Nat → Session → EncState → Dev} {c : JobCmd} {n : Nat} (h : d.Sound) (hf : ∀ x y z, (f x y z).Sound) :
    (d.onHandle c n f).Sound := by
  unfold Dev.onHandle
  refine .ite h.complete ?_
  split
  · exact .ite h.complete (hf _ _ _)
  · exact h.complete

theorem encPicture {c : JobCmd} (h : d.Sound) : (d.encPicture c).Sound := by
  unfold Dev.encPicture
  refine h.onHandle (fun _ _ _ => .ite h.complete ?_)
  split
  · exact h.medPoison.setErrFull.complete
  · exact .complete (.setEnc (.ite h.setErr h))

theorem encKeyreq {c : JobCmd} (h : d.Sound) : (d.encKeyreq c).Sound := h.onHandle (fun _ _ _ => h.setEnc.complete)

end Dev.Sound

theorem execEncPictureStart_sound {s : State} {slice context : Nat} (h : s.dev.Sound) : Res.Sound (execEncPictureStart slice context s)
    := by
  unfold execEncPictureStart
  refine .onDev h (fun _ he => ?_)
  dsimp only
  split
  · exact he.elim (fun _ => .ite he (.setEnc (.write (.update (.ite he.setF he)))))
  · exact he

namespace Dev.Sound

variable {d t : Dev}

/-! ### Delivery (R445) -/

theorem writeOut {e : EncParams} {off : Nat} {bs : List Byte} (h : d.Sound) : (d.writeOut e off bs).Sound :=
  .ite (.ite h (.ite h.emit h.write)) (.ite (.emit (.ite h (.ite h.emit h.write))) (.write (.ite h (.ite h.emit h.write))))

theorem endEnc {k : Nat} {x : EncState} (h : d.Sound) : (d.endEnc k x).Sound := h.closeSession.elim (fun _ => h.closeSession.complete)

theorem emitSlice {k : Nat} {s : Session} {x : EncState} {p : EncPic} {cs : CodedSlice} (h : d.Sound) : (d.emitSlice k s x p cs).Sound := by
  unfold Dev.emitSlice
  extract_lets _ _ _ _ _ _ d₁ _ d₂ d₃ d₄ _ d₅
  have h₁ : d₁.Sound := h.writeOut
  have h₂ : d₂.Sound := h₁.post.bump
  have h₃ : d₃.Sound := .ite h₂.setErr.bump h₂
  have h₄ : d₄.Sound := .ite h₃.bump h₃
  have h₅ : d₅.Sound := h₄.setEnc
  exact .ite h₅.endEnc h₅

theorem codedSlice {k : Nat} {s : Session} {x : EncState} {p : EncPic} {cs : CodedSlice} (h : d.Sound) : (d.codedSlice k s x p cs).Sound :=
  .ite h.post.endEnc (.ite h.setErr.setEnc h.emitSlice)

theorem encPoisoned {k : Nat} {x : EncState} {p : EncPic} {a : Nat} (h : d.Sound) : (d.encPoisoned k x p a).Sound :=
    h.medPoison.setErrFull.post.endEnc

end Dev.Sound

theorem execEncSliceComplete_sound {s : State} {slice context : Nat} {poisoned : Option Nat} (h : s.dev.Sound) : Res.Sound
    (execEncSliceComplete slice context poisoned s) := by
  unfold execEncSliceComplete
  refine .onDev h (fun _ he => ?_)
  dsimp only
  split
  · refine he.elim (fun _ => he.elim (fun _ => .ite ?_ he))
    split
    · exact he.encPoisoned
    · exact he.codedSlice
  · exact he

namespace Dev.Sound

variable {d t : Dev}

theorem onOpenHandle {f : Nat → Session → EncState → Dev} {c : JobCmd} (h : d.Sound) (hf : ∀ x y z, (f x y z).Sound) :
    (d.onOpenHandle c f).Sound :=
  .ite h.complete (h.complete.elim (fun _ => hf _ _ _))

theorem encRelease {c : JobCmd} (h : d.Sound) : (d.encRelease c).Sound := by
  unfold Dev.encRelease
  refine h.onOpenHandle (fun _ _ _ => .ite h.complete ?_)
  dsimp only
  split
  · exact h.setEnc.complete.codedSlice
  · exact h.setEnc.complete

theorem encClose {c : JobCmd} (h : d.Sound) : (d.encClose c).Sound := h.onHandle (fun _ _ _ => .ite h.setEnc.endEnc h.setEnc)

end Dev.Sound

theorem execMedKeyreq_sound {s : State} {w : Writer} {slice session : Nat} (h : s.dev.Sound) : Res.Sound (execMedKeyreq w slice session s)
    := by
  unfold execMedKeyreq
  refine .byWriter h (fun _ he => .ite he ?_)
  dsimp only
  split
  · exact he.setF.setAct.elim (fun _ => he.setF.setAct.setEnc)
  · exact he.setF.setAct

namespace Dev.Sound

variable {d t : Dev}

/-! ### A slice leaves service (R447) -/

theorem medMove {i : Nat} (h : d.Sound) : (d.medMove i).Sound := h.update.foldl (fun _ _ he => he.openOrWait)

/-! ### The combination that boots (R464, R469) -/

theorem showFirmware {ims : List FwImage} (h : d.Sound) : (d.showFirmware ims).Sound :=
  .setF (.setF (.setF (.setF (.setF (.setF (.setF (h.foldl (fun _ _ he => he.setF))))))))

theorem loadFirmware_snd (h : d.Sound) : d.loadFirmware.2.Sound := by
  unfold Dev.loadFirmware
  dsimp only
  split
  · exact .snd h.update.setF.setF.setF.setF.setF
  · exact .snd h.update.setF.setF.setF.setF.update.setF.showFirmware

theorem offerFeatures (h : d.Sound) : d.offerFeatures.Sound := h.setFeatureWord.setFeatureWord.setFeatureWord.setF

/-! ### The selector (R464) -/

theorem preferBank {q b : Nat} (h : d.Sound) : (d.preferBank q b).Sound := h.update

theorem preferSelected {q b : Nat} (h : d.Sound) : (d.preferSelected q b).Sound := .ite h.preferBank h

/-! ### Updates (R473, R474) -/

theorem updateEnds {code : Nat} (h : d.Sound) : (d.updateEnds code).Sound := .ite h.update.setF.setF h.update.setF.setErr

end Dev.Sound

theorem execFwUpdateWrite_sound {s : State} {w : Writer} {sigsGood : Bool} (h : s.dev.Sound) : Res.Sound (execFwUpdateWrite w sigsGood s) :=
  .byWriter h (fun _ he => .ite he.lockedWrite (.setF (.setF (.update (.ite he.noteRead he)))))

namespace Dev.Sound

variable {d t : Dev}

theorem programBank_snd {q b : Nat} {im : FwImage} {good : Bool} (h : d.Sound) : (d.programBank q b im good).2.Sound :=
  .ite_snd (.snd h.update.bump) (.snd h.update)

end Dev.Sound

theorem execFwUpdateComplete_sound {s : State} {readBackGood : Bool} (h : s.dev.Sound) : Res.Sound (execFwUpdateComplete readBackGood s)
    := by
  unfold execFwUpdateComplete
  refine .onDev h (fun _ he => ?_)
  split
  · exact .ite he.updateEnds (.ite he.programBank_snd.preferSelected.updateEnds he.programBank_snd.updateEnds)
  · exact he

namespace Dev.Sound

variable {d t : Dev}

/-! ### Activation and handover (R446, R475 to R477) -/

theorem runBank {q b : Nat} (h : d.Sound) : (d.runBank q b).Sound := h.update.showFirmware.preferSelected

theorem activationEnds {code : Nat} (h : d.Sound) : (d.activationEnds code).Sound := h.update.setF

theorem activationRefused {q code : Nat} (h : d.Sound) : (d.activationRefused q code).Sound := .ite (h.setF.foldl (fun _ _ he => he.setErr))
    h.setF

end Dev.Sound

theorem execFwActivate_sound {s : State} {w : Writer} (h : s.dev.Sound) : Res.Sound (execFwActivate w s) := by
  unfold execFwActivate
  refine .byWriter h (fun _ he => .ite he.lockedWrite (.ite he ?_))
  split
  · exact he
  · split
    · exact he
    · exact .ite he.activationRefused (.ite he.update.setF he.runBank.activationEnds)

theorem execMcfHandover_sound {s : State} (h : s.dev.Sound) : Res.Sound (execMcfHandover s) := by
  unfold execMcfHandover
  refine .onDev h (fun _ he => ?_)
  split
  · exact .ite he he.update
  · exact he

namespace Dev.Sound

variable {d t : Dev}

theorem handoverDone (h : d.Sound) : d.handoverDone.Sound := by
  unfold Dev.handoverDone
  refine .ite ?_ h
  split
  · exact h.runBank.activationEnds
  · exact h

end Dev.Sound

theorem execHandoverWatchdogTimeout_sound {s : State} (h : s.dev.Sound) : Res.Sound (execHandoverWatchdogTimeout s) :=
  .onDev h (fun _ he => .ite he.activationEnds.setErr he)

namespace Dev.Sound

variable {d t : Dev}

/-! ### Reports (R505, R507 to R509) -/

theorem takeLeaf (h : d.Sound) : d.takeLeaf.Sound := .ite h.update.setErr h.update

theorem leafLost (h : d.Sound) : d.leafLost.Sound := h.draw_snd.update

theorem reportRefused {code : Nat} (h : d.Sound) : (d.reportRefused code).Sound := .setErr (.ite h.bump h)

theorem signReport_snd {nonce : List Byte} (h : d.Sound) : (d.signReport nonce).2.Sound := .snd h.setF.takeLeaf.bump

theorem signLost (h : d.Sound) : d.signLost.Sound := h.setF.leafLost

theorem secEnds {code : Nat} (h : d.Sound) : (d.secEnds code).Sound := .ite h.setF h.setF.reportRefused

end Dev.Sound

theorem execAttest_sound {s : State} {w : FlashCmd} (h : s.dev.Sound) : Res.Sound (execAttest w s) :=
  .byWriter h (fun _ he => .ite he.secEnds (.ite he.secEnds (.ite he.signLost.secEnds he.signReport_snd.write.secEnds)))

theorem execCert_sound {s : State} {w : Writer} (h : s.dev.Sound) : Res.Sound (execCert w s) :=
  .byWriter h (fun _ he => .ite he.secEnds he.write.secEnds)

theorem execAttestTokenRefill_sound {s : State} (h : s.dev.Sound) : Res.Sound (execAttestTokenRefill s) := .onDev h (fun _ he => he.setF)

theorem execAttestReq_sound {s : State} {a : AttestPacket} (h : s.dev.Sound) : Res.Sound (execAttestReq a s) := by
  unfold execAttestReq
  exact .onDev h (fun _ he => he.mgmt (fun _ hg => .ite (.ite hg.reportRefused.sendMgmt
      (.ite hg.signLost.reportRefused.sendMgmt hg.signReport_snd.sendMgmt)) hg.opStatus))

theorem execAttestResp_sound {s : State} {p : Packet} (h : s.dev.Sound) : Res.Sound (execAttestResp p s) :=
  .onDev h (fun _ he => he.mgmt (fun _ hg => hg))

/-! ### Probes (R510, R513) -/

theorem execIdProbe_sound {s : State} {p : Packet} (h : s.dev.Sound) : Res.Sound (execIdProbe p s) :=
  .onDev h (fun _ he => he.mgmt (fun _ hg => hg.sendMgmt))

theorem execIdReply_sound {s : State} {p : Packet} (h : s.dev.Sound) : Res.Sound (execIdReply p s) :=
  .onDev h (fun _ he => he.mgmt (fun _ hg => .ite hg (.ite hg.compareTrust_snd hg.compareTrust_snd.closeFlow.poolFreed)))

/-! ### SVN floors (R504) -/

theorem execSvnCommit_sound {s : State} {w : Writer} {typ : Nat} (h : s.dev.Sound) : Res.Sound (execSvnCommit w typ s) :=
  .byWriter h (fun _ he => .ite he.setF.setAct he.setF.setAct.update.setF)

namespace Dev.Sound

variable {d t : Dev}

/-! ### Authorisations (R511, R512) -/

theorem identifyHeld {dev : Nat} (h : d.Sound) : (d.identifyHeld dev).Sound := by
  unfold Dev.identifyHeld
  refine h.foldl (fun _ _ he => ?_)
  dsimp only
  split
  · exact .ite he.identify he
  · exact he

theorem authEnds {dev : Nat} (h : d.Sound) : (d.authEnds dev).Sound := h.bump.setF.setF.identifyHeld

theorem authLost {dev : Nat} (h : d.Sound) : (d.authLost dev).Sound := h.setF.setF.setErr

end Dev.Sound

theorem execAuthorise_sound {s : State} {w : FlashCmd} (h : s.dev.Sound) : Res.Sound (execAuthorise w s) :=
  .byWriter h (fun _ he => .ite he.authLost he.setTrust.authEnds)

theorem execRevoke_sound {s : State} {w : FlashCmd} (h : s.dev.Sound) : Res.Sound (execRevoke w s) :=
  .byWriter h (fun _ he => .ite he.authLost he.update.authEnds)

theorem execTrustTableClear_sound {s : State} {w : Writer} (h : s.dev.Sound) : Res.Sound (execTrustTableClear w s) :=
  .byWriter h (fun _ he => .ite he.lockedWrite he.update)

namespace Dev.Sound

variable {d t : Dev}

/-! ### Runs of plots (R95, R99, R274, R523) -/

theorem takesWork {c i : Nat} (h : d.Sound) : (d.takesWork c i).Sound := .ite h.setBlk h

theorem plotRun {c : JobCmd} (h : d.Sound) : (d.plotRun c).Sound :=
  .ite h.complete (.ite h.complete (.borrow (.takesWork (.takesWork (h.noteRead.setPlot.foldl (fun _ _ he => .ite he he.joinRun))))))

/-! ### Beginning what is held (R36, R249, R269) -/

theorem startCmd {c : JobCmd} (h : d.Sound) : (d.startCmd c).Sound := by
  unfold Dev.startCmd
  split
  · exact h.plotRun
  · exact h.ingest
  · exact h.gradPlan
  · exact h.gradDone
  · exact h.positionLoad
  · exact h.direct
  · exact h.direct
  · exact h.direct
  · exact h.thnQueue
  · exact h.encOpen
  · exact h.encPicture
  · exact h.encKeyreq
  · exact h.encRelease
  · exact h.encClose
  · exact h

theorem markRunning {c : JobCmd} (h : d.Sound) : (d.markRunning c).Sound := h.update

theorem settleN {n : Nat} (h : d.Sound) : (Dev.settleN n d).Sound := by
  induction n generalizing d with
  | zero => exact h
  | succ n ih =>
    unfold Dev.settleN
    split
    · exact ih (h.markRunning.begin fun _ he => he.startCmd)
    · exact h

theorem settle (h : d.Sound) : d.settle.Sound := h.settleN

/-! ### The job commands -/

theorem stepMark {c : JobCmd} (h : d.Sound) : (d.stepMark c).Sound := .ite h.complete h.enterOrder.noteHeld

end Dev.Sound

theorem execStepMark_sound {s : State} {c : JobCmd} (h : s.dev.Sound) : Res.Sound (execStepMark c s) :=
  .onDev h (fun _ he => .ite he.stepMark he)

theorem execStepBoundary_sound {s : State} {m : BoundaryMeasure} (h : s.dev.Sound) : Res.Sound (execStepBoundary m s) :=
  .onDev h (fun _ he => he.stepBoundary.settle)

namespace Dev.Sound

variable {d t : Dev}

theorem jobCommand {opc : Nat} {c : JobCmd} (h : d.Sound) : (d.jobCommand opc c).Sound := .ite
    (.settle (h.issuePlaced (fun _ he => he.startCmd))) h

end Dev.Sound

theorem execPlotRun_sound {s : State} {c : JobCmd} (h : s.dev.Sound) : Res.Sound (execPlotRun c s) := .onDev h (fun _ he => he.jobCommand)

theorem execIngest_sound {s : State} {c : JobCmd} (h : s.dev.Sound) : Res.Sound (execIngest c s) := .onDev h (fun _ he => he.jobCommand)

theorem execGradPlan_sound {s : State} {c : JobCmd} (h : s.dev.Sound) : Res.Sound (execGradPlan c s) :=
  .onDev h (fun _ he => he.jobCommand)

theorem execGradDone_sound {s : State} {c : JobCmd} (h : s.dev.Sound) : Res.Sound (execGradDone c s) :=
  .onDev h (fun _ he => he.jobCommand)

theorem execPositionLoad_sound {s : State} {c : JobCmd} (h : s.dev.Sound) : Res.Sound (execPositionLoad c s) :=
  .onDev h (fun _ he => he.jobCommand)

theorem execAllGather_sound {s : State} {c : JobCmd} (h : s.dev.Sound) : Res.Sound (execAllGather c s) :=
  .onDev h (fun _ he => he.jobCommand)

theorem execBroadcast_sound {s : State} {c : JobCmd} (h : s.dev.Sound) : Res.Sound (execBroadcast c s) :=
  .onDev h (fun _ he => he.jobCommand)

theorem execBarrier_sound {s : State} {c : JobCmd} (h : s.dev.Sound) : Res.Sound (execBarrier c s) := .onDev h (fun _ he => he.jobCommand)

namespace Dev.Sound

variable {d t : Dev}

theorem encCommand {opc : Nat} {c : JobCmd} (h : d.Sound) : (d.encCommand opc c).Sound :=
  .ite h (.ite h.startCmd (.settle (h.issuePlaced (fun _ he => he.startCmd))))

end Dev.Sound

theorem execEncOpen_sound {s : State} {c : JobCmd} (h : s.dev.Sound) : Res.Sound (execEncOpen c s) := .onDev h (fun _ he => he.encCommand)

theorem execEncPicture_sound {s : State} {c : JobCmd} (h : s.dev.Sound) : Res.Sound (execEncPicture c s) :=
  .onDev h (fun _ he => he.encCommand)

theorem execEncKeyreq_sound {s : State} {c : JobCmd} (h : s.dev.Sound) : Res.Sound (execEncKeyreq c s) :=
  .onDev h (fun _ he => he.encCommand)

theorem execEncRelease_sound {s : State} {c : JobCmd} (h : s.dev.Sound) : Res.Sound (execEncRelease c s) :=
  .onDev h (fun _ he => he.encCommand)

theorem execEncClose_sound {s : State} {c : JobCmd} (h : s.dev.Sound) : Res.Sound (execEncClose c s) :=
  .onDev h (fun _ he => he.encCommand)

theorem execHarvest_sound {s : State} {c : JobCmd} (h : s.dev.Sound) : Res.Sound (execHarvest c s) :=
  .onDev h (fun _ he => .ite he.startHarvest he)

theorem execPlotRunComplete_sound {s : State} {plot : Nat} (h : s.dev.Sound) : Res.Sound (execPlotRunComplete plot s) := by
  unfold execPlotRunComplete
  refine .onDev h (fun _ he => ?_)
  split
  · exact .ite (.settle (.complete (.setPlot (he.foldl (fun _ _ hg => hg.setCell hg.cell))))) he
  · exact he

end Sys2Proof.Machine
end

