-- ==== Sys2Proof/Proofs/SoundRest.lean ====
section
/-! Every operation keeps stacked memory and the cell stores in their one form (R285, R298):
commands in order, pages, service, memory and power. -/

namespace Sys2Proof.Machine

/-! ### The job commands -/

theorem execBucketExchangeStart_sound {s : State} {bucket : Nat} (h : s.dev.Sound) : Res.Sound (execBucketExchangeStart bucket s) :=
  .onDev h (fun _ he => he.startBucket.settle)

namespace Dev.Sound

variable {d t : Dev}

/-! ### The start of a job (R18, R68, R278, R372, R373, R376, R379, R446) -/

theorem checkCacheRev (h : d.Sound) : d.checkCacheRev.Sound := .ite h h.dropCache.writeRaw

theorem beginJob (h : d.Sound) : d.beginJob.Sound := by
  unfold Dev.beginJob
  extract_lets _ _ _ d₁ d₂ d₃ d₄ d₅ d₆
  have h₁ : d₁.Sound := h.update
  have h₂ : d₂.Sound := h₁.setF.setF.setF.setBlk
  have h₃ : d₃.Sound := h₂.setF.setF.setF
  have h₄ : d₄.Sound := h₃.setF.setF.setF
  have h₅ : d₅.Sound := h₄.clearRing.setF.clearStats.clearStats.checkCacheRev
  have h₆ : d₆.Sound := h₅.resolveMap.gsbUnchecked
  exact .freshStep (.ite h₆.startBase h₆)

end Dev.Sound

theorem execJobStart_sound {s : State} {w : Writer} (h : s.dev.Sound) : Res.Sound (execJobStart w s) :=
  .byWriter h (fun _ he => .ite he (.ite he.setF (.ite he.checkItems_snd.setF.beginJob.settle he.checkItems_snd.setF)))

namespace Dev.Sound

variable {d t : Dev}

/-! ### The fetch of submission entries (R520 to R526, R531, R532) -/

theorem acceptCmd {kind : Nat} {bs : List Byte} {c : JobCmd} (h : d.Sound) : (d.acceptCmd kind bs c).Sound := by
  unfold Dev.acceptCmd
  refine .ite h.postCompletion (.ite h.postCompletion ?_)
  split
  · exact .ite h.stepMark (.settle (h.issuePlaced (fun _ he => he.startCmd)))
  · exact .ite h.thnQueue.thnHostOff h.postCompletion
  · exact h.startCmd
  · exact h.startHarvest

theorem fetchEntry {port ring : Nat} {e : FetchedEntry} (h : d.Sound) : (d.fetchEntry port ring e).Sound := by
  unfold Dev.fetchEntry
  refine .ite h ?_
  split
  · exact h.setRing.setErr
  · exact .acceptCmd (.ite h.setRing.bump.bump.setF h.setRing.bump.bump)

end Dev.Sound

theorem execCommandFetch_sound {s : State} {port ring : Nat} {e : FetchedEntry} (h : s.dev.Sound) : Res.Sound
    (execCommandFetch port ring e s) :=
  .onDev h (fun _ he => .ite he.fetchEntry he)

/-! ### Seals and pairing -/

theorem execSealAck_sound {s : State} {step : Nat} (h : s.dev.Sound) : Res.Sound (execSealAck step s) :=
  .onDev h (fun _ he => he.sealAck.settle)

theorem execPair_sound {s : State} {w : Writer} {ackKey : Nat} (h : s.dev.Sound) : Res.Sound (execPair w ackKey s) :=
  .byWriter h (fun _ he => he.startPair.settle)

theorem execPairGraft_sound {s : State} {w : Writer} {ackKey : Nat} (h : s.dev.Sound) : Res.Sound (execPairGraft w ackKey s) :=
  .byWriter h (fun _ he => he.startPair.settle)

theorem execUnpair_sound {s : State} {w : Writer} (h : s.dev.Sound) : Res.Sound (execUnpair w s) :=
  .byWriter h (fun _ he => he.unpair.settle)

theorem execPairReq_sound {s : State} {p : Packet} (h : s.dev.Sound) : Res.Sound (execPairReq p s) :=
  .onDev h (fun _ he => .settle (he.mgmt (fun _ hg => hg.takePairReq)))

theorem execPairAck_sound {s : State} {p : Packet} (h : s.dev.Sound) : Res.Sound (execPairAck p s) :=
  .onDev h (fun _ he => .settle (he.fromPartner (fun _ hg => hg.takePairAck)))

theorem execPairResponseTimeout_sound {s : State} (h : s.dev.Sound) : Res.Sound (execPairResponseTimeout s) :=
  .onDev h (fun _ he => he.pairTimeout.settle)

theorem execUnpairMsg_sound {s : State} {p : Packet} (h : s.dev.Sound) : Res.Sound (execUnpairMsg p s) :=
  .onDev h (fun _ he => .settle (he.fromPartner (fun _ hg => hg.unpair)))

/-! ### Recovery -/

theorem execRestoreEnd_sound {s : State} {p : Packet} (h : s.dev.Sound) : Res.Sound (execRestoreEnd p s) :=
  .onDev h (fun _ he => .settle (he.fromPartner (fun _ hg => hg.restoreEnd)))

theorem execLogData_sound {s : State} {p : Packet} (h : s.dev.Sound) : Res.Sound (execLogData p s) :=
  .onDev h (fun _ he => .settle (he.fromPartner (fun _ hg => hg.logData)))

theorem execRecoveryGo_sound {s : State} {w : Writer} (h : s.dev.Sound) : Res.Sound (execRecoveryGo w s) :=
  .byWriter h (fun _ he => he.recoveryGo.settle)

namespace Dev.Sound

variable {d t : Dev}

theorem ueRegenerable {source : Nat} (h : d.Sound) : (d.ueRegenerable source).Sound := .ite h (.ite h.update h.reexecute)

theorem uePersistent {a source : Nat} (h : d.Sound) : (d.uePersistent a source).Sound := by
  unfold Dev.uePersistent
  refine .ite h (.ite h.recoveryFailed ?_)
  split
  · exact .ite h.update.toPartner h.update
  · exact h

theorem ueMirror {a : Nat} (h : d.Sound) : (d.ueMirror a).Sound := .ite h (.ite h.update.toPartner h.toPartner)

theorem ueLog {a : Nat} (h : d.Sound) : (d.ueLog a).Sound := by
  unfold Dev.ueLog
  dsimp only
  split
  · exact h.logOwn
  · exact .ite h.toPartner (.ite h.recoveryFailed h)

theorem ueCache {a : Nat} (h : d.Sound) : (d.ueCache a).Sound := .ite h.cacheLost.ueRegenerable h.cacheLost

end Dev.Sound

theorem execUeReport_sound {s : State} {addr source : Nat} (h : s.dev.Sound) : Res.Sound (execUeReport addr source s) := by
  unfold execUeReport
  refine .onDev h (fun _ he => ?_)
  split
  · exact he.ueRegenerable
  · exact .ite he.ueRegenerable he.uePersistent
  · exact he.ueCache
  · exact he.ueMirror
  · exact he.ueLog

/-! ### Collective messages (R326, R343 to R351) -/

theorem execCExp_sound {s : State} {p : Packet} (h : s.dev.Sound) : Res.Sound (execCExp p s) := .onDev h (fun _ he => he.collArrive.settle)

theorem execCM_sound {s : State} {p : Packet} (h : s.dev.Sound) : Res.Sound (execCM p s) := .onDev h (fun _ he => he.collArrive.settle)

theorem execCInt_sound {s : State} {p : Packet} (h : s.dev.Sound) : Res.Sound (execCInt p s) := .onDev h (fun _ he => he.collArrive.settle)

theorem execCRes_sound {s : State} {p : Packet} {t1 tx : Nat} (h : s.dev.Sound) : Res.Sound (execCRes p t1 tx s) :=
  .onDev h (fun _ he => he.collArrive.settle)

theorem execCData_sound {s : State} {p : Packet} (h : s.dev.Sound) : Res.Sound (execCData p s) :=
  .onDev h (fun _ he => he.collArrive.settle)

theorem execCBar_sound {s : State} {p : Packet} (h : s.dev.Sound) : Res.Sound (execCBar p s) := .onDev h (fun _ he => he.collArrive.settle)

theorem execCBarRel_sound {s : State} {p : Packet} (h : s.dev.Sound) : Res.Sound (execCBarRel p s) :=
  .onDev h (fun _ he => he.collArrive.settle)

namespace Dev.Sound

variable {d t : Dev}

/-! ### RESYNC (R337, R348, R378, R526) -/

theorem afterResync {f : Nat} {lost : List Packet} (h : d.Sound) : (d.afterResync f lost).Sound := by
  unfold Dev.afterResync
  extract_lets _ _ d₁
  have h₁ : d₁.Sound := .ite (h.update.foldl (fun _ _ he => he.complete)) h
  refine .ite (h₁.foldl (fun _ _ he => he.sendOn)) (.ite (h₁.foldl (fun _ _ he => he.foldl (fun _ _ hg => ?_))) h₁)
  extract_lets d₂
  have h₂ : d₂.Sound := hg.onColl (fun _ => hg.setColl)
  exact h₂.resendData

end Dev.Sound

theorem execResync_sound {s : State} {p : Packet} (h : s.dev.Sound) : Res.Sound (execResync p s) :=
  .onDev h (fun _ he => .ite he (he.onFlow (fun _ hg => hg.resyncFlow.afterResync.poolFreed)))

namespace Dev.Sound

variable {d t : Dev}

theorem moveWork {c i : Nat} (h : d.Sound) : (d.moveWork c i).Sound := .ite h.medMove (.ite h.pipMove (.ite h.thnMove h))

theorem forgetMarks {c i : Nat} (h : d.Sound) : (d.forgetMarks c i).Sound := h.setPassed.setReturned.update

theorem resetMembers {i : Nat} (h : d.Sound) : (d.resetMembers i).Sound := h.setMask

theorem resetInside {c i : Nat} (h : d.Sound) : (d.resetInside c i).Sound := by
  unfold Dev.resetInside
  split
  · exact h.update
  · exact h.returnTile.dropHost.setCell Cell.Sound.reset
  · exact h.update
  · exact .update (h.foldl (fun _ _ he => he.endOps))
  · exact h.disableRings
  · exact h.medMove
  · exact h.pipMove
  · exact h.thnMove
  · exact h.update
  · exact h.update
  · exact h.update
  · exact h

theorem resetBlock {c i : Nat} (h : d.Sound) : (d.resetBlock c i).Sound := by
  unfold Dev.resetBlock
  refine .ite (.resolveMap (.resetMembers (.resetInside (.forgetMarks (.ite h.resetPortPage h.resetPage)))))
      (.ite ?_ (.resetInside (.forgetMarks (.ite h.resetPortPage h.resetPage))))
  split
  · exact .borrow (.resetInside (.forgetMarks (.ite h.resetPortPage h.resetPage)))
  · exact .resetInside (.forgetMarks (.ite h.resetPortPage h.resetPage))

end Dev.Sound

/-! ### Register accesses -/

theorem execRegisterWrite_sound {s : State} {w : Writer} {offset size value : Nat} (h : s.dev.Sound) : Res.Sound
    (execRegisterWrite w offset size value s) :=
  .byWriter h (fun _ he => he.busWrite)

theorem execCounterLoRead_sound {s : State} {offset size : Nat} (h : s.dev.Sound) : Res.Sound (execCounterLoRead offset size s) :=
  .onDev h (fun _ he => he.busRead_snd.emit)

namespace Dev.Sound

variable {d t : Dev}

theorem onPage {f : Dev → Dev} {p : Page} {off : Nat} (h : d.Sound) (hf : ∀ e, e.Sound → (f e).Sound) : (d.onPage p off f).Sound :=
  .ite h.badAccess (.ite h (hf _ h))

theorem takeWaiting {c i : Nat} (h : d.Sound) : (d.takeWaiting c i).Sound := .ite h.medWake (.ite h.thnTakeOver h)

end Dev.Sound

theorem execRwFieldTakesEffect_sound {s : State} {p : Page} (h : s.dev.Sound) : Res.Sound (execRwFieldTakesEffect p s) :=
  .onDev h (fun _ he => he.onPage (fun _ hg => .ite hg (.ite hg.rwActs.thnHostOff hg.rwActs.takeWaiting)))

/-! ### Block states (R44) -/

theorem execEnable_sound {s : State} {w : Writer} {p : Page} {v : Bool} (h : s.dev.Sound) : Res.Sound (execEnable w p v s) :=
  .byWriter h (fun _ he => he.onPage (fun _ hg => .ite hg.writeRl.setBlk hg.writeRl))

theorem execBlockInitComplete_sound {s : State} {p : Page} (h : s.dev.Sound) : Res.Sound (execBlockInitComplete p s) :=
  .onDev h (fun _ he => he.onPage (fun _ hg => .ite hg.setBlk.setReturned.takeWaiting.settle hg))

theorem execSoftReset_sound {s : State} {w : Writer} {p : Page} (h : s.dev.Sound) : Res.Sound (execSoftReset w p s) :=
  .byWriter h (fun _ he => he.onPage (fun _ hg => .ite hg (.ite hg.lockedWrite (.ite hg.resetBlock hg))))

namespace Dev.Sound

variable {d t : Dev}

theorem returnBlock {c i : Nat} (h : d.Sound) : (d.returnBlock c i).Sound := .ite h.setPassed.setBlk.bump.takeWaiting h

theorem clocheBlock {c i : Nat} (h : d.Sound) : (d.clocheBlock c i).Sound := .ite h.setPassed.clocheCell h.setPassed.setBlk.moveWork

theorem setBoth {f : Field} {i v : Nat} (h : d.Sound) : (d.setBoth f i v).Sound := h.setF.setAct

end Dev.Sound

theorem execClocheReq_sound {s : State} {w : Writer} {p : Page} {v : Bool} (h : s.dev.Sound) : Res.Sound (execClocheReq w p v s) :=
  .byWriter h (fun _ he => he.onPage (fun _ hg => .ite hg (.ite (.ite hg.setBoth.clocheBlock hg.setBoth) hg.setBoth.returnBlock.settle)))

namespace Dev.Sound

variable {d t : Dev}

theorem resumeBlock {c i : Nat} (h : d.Sound) : (d.resumeBlock c i).Sound := .takeWaiting (.ite h.setBlk h.setBlk.setBlk)

theorem resumeAll (h : d.Sound) : d.resumeAll.Sound := h.foldl (fun _ _ he => .ite he.resumeBlock he)

end Dev.Sound

theorem execQuiesceReq_sound {s : State} {w : Writer} {p : Page} {v : Bool} (h : s.dev.Sound) : Res.Sound (execQuiesceReq w p v s) :=
  .byWriter h (fun _ he => he.onPage (fun _ hg => .ite hg.setBoth (.ite hg.setBoth.resumeAll.settle
      (.ite hg.setBoth.resumeBlock.settle hg.setBoth))))

theorem execBlockQuiesced_sound {s : State} {p : Page} (h : s.dev.Sound) : Res.Sound (execBlockQuiesced p s) :=
  .onDev h (fun _ he => he.onPage (fun _ hg => .ite hg.setBlk hg))

theorem execBlockClochedAtBoundary_sound {s : State} {p : Page} (h : s.dev.Sound) : Res.Sound (execBlockClochedAtBoundary p s) :=
  .onDev h (fun _ he => he.onPage (fun _ hg => .ite hg.clocheBlock hg))

namespace Dev.Sound

variable {d t : Dev}

theorem checkUnits {c : Nat} (h : d.Sound) : (d.checkUnits c).Sound := .ite h.raiseReplace h

theorem testFailed {c i : Nat} (h : d.Sound) : (d.testFailed c i).Sound := .ite h.update.failBlock.checkUnits h.update

end Dev.Sound

theorem execClocheTestComplete_sound {s : State} {p : Page} {r : ClassTest} (h : s.dev.Sound) : Res.Sound (execClocheTestComplete p r s)
    := by
  unfold execClocheTestComplete
  refine .onDev h (fun _ he => he.onPage (fun _ hg => .ite hg ?_))
  split
  · exact .ite (.settle (.ite hg.setPassed.returnBlock.portDone hg.setPassed.returnBlock)) hg
  · exact .ite hg hg.update.setPassed.returnBlock.settle
  · exact .ite hg hg.testFailed

theorem execBlockFailed_sound {s : State} {p : Page} (h : s.dev.Sound) : Res.Sound (execBlockFailed p s) :=
  .onDev h (fun _ he => he.onPage (fun _ hg => .ite (.checkUnits (.moveWork (.failBlock (.ite hg.returnTile.clearTileRegs.setF hg)))) hg))

namespace Dev.Sound

variable {d t : Dev}

/-! ### Staged commits (R51 to R57) -/

theorem newBounds {w : Writer} {c i : Nat} (h : d.Sound) : (d.newBounds w c i).Sound := .ite h.update h

end Dev.Sound

theorem execBlkCommit_sound {s : State} {w : Writer} {p : Page} {seq : Nat} {group : Bool} (h : s.dev.Sound) : Res.Sound
    (execBlkCommit w p seq group s) :=
  .byWriter h (fun _ he => he.onPage (fun _ hg => .ite hg.setCommitState.commitReject
      (.ite hg.setCommitState.commitReject hg.update.newBounds.setCommitState.settle)))

theorem execBlkCommitAbort_sound {s : State} {w : Writer} {p : Page} (h : s.dev.Sound) : Res.Sound (execBlkCommitAbort w p s) :=
  .byWriter h (fun _ he => he.onPage (fun _ hg => .ite hg.commitReject hg.abortCommit))

theorem execCommitApply_sound {s : State} {p : Page} (h : s.dev.Sound) : Res.Sound (execCommitApply p s) :=
  .onDev h (fun _ he => he.onPage (fun _ hg => .ite hg.applyCommit.finishGroup hg))

theorem execGroupCommit_sound {s : State} {w : Writer} {seq : Nat} (h : s.dev.Sound) : Res.Sound (execGroupCommit w seq s) :=
  .byWriter h (fun _ he => .ite he.setF he.update.setF)

theorem execGroupCommitAbort_sound {s : State} {w : Writer} (h : s.dev.Sound) : Res.Sound (execGroupCommitAbort w s) :=
  .byWriter h (fun _ he => .setF (.update (he.foldl (fun _ _ hg => hg.abortCommit))))

/-! ### Feature negotiation (R58 to R62) -/

theorem execNegotiationGo_sound {s : State} {w : Writer} (h : s.dev.Sound) : Res.Sound (execNegotiationGo w s) :=
  .byWriter h (fun _ he => .ite he.update.setF he.lockedWrite)

theorem execNegotiationComplete_sound {s : State} (h : s.dev.Sound) : Res.Sound (execNegotiationComplete s) :=
  .onDev h (fun _ he => .ite (.ite he.update.setF.setF.setFeatureWord he.update.setF.setF.setFeatureWord.setErr) he)

theorem execJobEnd_sound {s : State} {w : Writer} (h : s.dev.Sound) : Res.Sound (execJobEnd w s) :=
  .byWriter h (fun _ he => .ite he.update he)

namespace Dev.Sound

variable {d t : Dev}

/-! ### Cell faults and cell tests (R388, R389, R485 to R488) -/

theorem cellFault {cell : Nat} {k : CellFaultKind} (h : d.Sound) : (d.cellFault cell k).Sound := by
  unfold Dev.cellFault
  refine .ite h ?_
  split
  · split
    · exact h.setErrFull.setPassed.clocheFault.setF
    · exact h.setErrFull.setPassed.clocheFault.setF
    · exact h.setErrFull.setPassed.clocheFault
  · split
    · exact h.setErrFull.setPassed.clocheFault.setF
    · exact h.setErrFull.setPassed.clocheFault.setF
    · exact h.setErrFull.setPassed.clocheFault
  · split
    · exact h.trapFlags.setPassed.clocheFault.setF
    · exact h.trapFlags.setPassed.clocheFault.setF
    · exact h.trapFlags.setPassed.clocheFault.setF
  · split
    · exact h.trapFlags.setPassed.clocheFault.setF
    · exact h.trapFlags.setPassed.clocheFault.setF
    · exact h.trapFlags.setPassed.clocheFault.setF

end Dev.Sound

theorem execCellFault_sound {s : State} {cell : Nat} {k : CellFaultKind} (h : s.dev.Sound) : Res.Sound (execCellFault cell k s) :=
  .onDev h (fun _ he => he.cellFault)

namespace Dev.Sound

variable {d t : Dev}

theorem checkCells (h : d.Sound) : d.checkCells.Sound := .ite h.raiseReplace h

theorem retireCell {p : Nat} (h : d.Sound) : (d.retireCell p).Sound := .ite h h.update.irq.irq.bump.checkCells

theorem spareReady {q : Nat} (h : d.Sound) : (d.spareReady q).Sound := .ite h h.setBlk

theorem recordTest {cell result unit : Nat} (h : d.Sound) : (d.recordTest cell result unit).Sound :=
  .ite h.setF.setF.setF.setF.bump.setErrFull h.setF.setF.setF.setF.bump

theorem graftInto {l old : Nat} {t : CellTest} {qs : List Nat} (h : d.Sound) : (d.graftInto l old t qs).Sound := by
  induction qs generalizing d with
  | nil => exact .setErrFull h.update
  | cons q qs ih =>
    exact .ite (.policyTaken (.checkCells (.setReturned (.spareReady (.bump (.setF (.setF (.setF (.dropHost (.update h.recordTest))))))))))
        (ih h.recordTest.retireCell)

theorem graftFor {p : Nat} {l : Option Nat} {q : CellTest} (h : d.Sound) : (d.graftFor p l q).Sound := by
  unfold Dev.graftFor
  split
  · exact h
  · exact .ite h.policyWithheld.setErr h.graftInto

theorem retireTested {p : Nat} {q : CellTest} (h : d.Sound) : (d.retireTested p q).Sound := by
  unfold Dev.retireTested
  exact h.retireCell.graftFor.healthFrom

theorem cellPassed {p : Nat} (h : d.Sound) : (d.cellPassed p).Sound := h.endFault.setPassed.returnBlock

theorem repairCell {cell : Nat} {rows cols : List Nat} (h : d.Sound) : (d.repairCell cell rows cols).Sound := h.update.bump.irq.policyTaken

end Dev.Sound

theorem execCellTestComplete_sound {s : State} {cell : Nat} {q : CellTest} (h : s.dev.Sound) : Res.Sound (execCellTestComplete cell q s)
    := by
  unfold execCellTestComplete
  refine .onDev h (fun _ he => .ite he (.ite he.recordTest.retireTested.setErrFull ?_))
  split
  · exact he.recordTest.cellPassed
  · exact he.recordTest.retireTested
  · exact .ite he.recordTest.retireTested (.ite he.recordTest.policyWithheld
        (.ite he.recordTest.repairCell.recordTest.cellPassed he.recordTest.repairCell.recordTest.retireTested))

namespace Dev.Sound

variable {d t : Dev}

theorem takeFlips {a n : Nat} {e : DramErrors} (h : d.Sound) : (d.takeFlips a n e).Sound := h.updateMem

end Dev.Sound

theorem execMemoryRead_sound {s : State} {addr len : Nat} {errors : DramErrors} (h : s.dev.Sound) : Res.Sound
    (execMemoryRead addr len errors s) :=
  .onMemory h (fun _ he => he.takeFlips.noteRead.emit)

theorem execMemoryWrite_sound {s : State} {addr : Nat} {data : List Byte} (h : s.dev.Sound) : Res.Sound (execMemoryWrite addr data s) :=
  .onMemory h (fun _ he => he.write)

namespace Dev.Sound

variable {d t : Dev}

theorem saddAligned {width a q : Nat} (h : d.Sound) : (d.saddAligned width a q).Sound := .ite h.stakedAdd h

end Dev.Sound

theorem execSadd128_sound {s : State} {addr : Nat} {q : BitVec 128} (h : s.dev.Sound) : Res.Sound (execSadd128 addr q s) :=
  .onMemory h (fun _ he => he.saddAligned)

theorem execSadd64_sound {s : State} {addr : Nat} {q : BitVec 64} (h : s.dev.Sound) : Res.Sound (execSadd64 addr q s) :=
  .onMemory h (fun _ he => he.saddAligned)

theorem execSadd32_sound {s : State} {addr : Nat} {q : BitVec 32} (h : s.dev.Sound) : Res.Sound (execSadd32 addr q s) :=
  .onMemory h (fun _ he => he.saddAligned)

namespace Dev.Sound

variable {d t : Dev}

theorem scrubLine {line : Nat} (h : d.Sound) : (d.scrubLine line).Sound := h.meetRange.foldl
    (fun _ _ he => he.recordUe.setErrFull.setErrFull)

end Dev.Sound

theorem execPatrolScrubLine_sound {s : State} {line : Nat} {errors : DramErrors} (h : s.dev.Sound) : Res.Sound
    (execPatrolScrubLine line errors s) :=
  .onDev h (fun _ he => .ite he he.setF.updateMem.takeFlips.scrubLine.bump)

theorem execScrubRateUpdate_sound {s : State} {stack corrected : Nat} (h : s.dev.Sound) : Res.Sound (execScrubRateUpdate stack corrected s)
    :=
  .onDev h (fun _ he => .ite he (.ite he (.ite he.policyWithheld he.setF.policyTaken)))

namespace Dev.Sound

variable {d t : Dev}

theorem mapRefused (h : d.Sound) : d.mapRefused.Sound := h.setErr

end Dev.Sound

theorem execMemMapWrite_sound {s : State} {w : Writer} {v : Nat} (h : s.dev.Sound) : Res.Sound (execMemMapWrite w v s) :=
  .byWriter h (fun _ he => .ite (.ite he he.lockedWrite) (.ite he.mapRefused (.ite he he.setF.invalidateAll)))

theorem execMemRegionsWrite_sound {s : State} {w : Writer} {mirror cache : Nat} (h : s.dev.Sound) : Res.Sound
    (execMemRegionsWrite w mirror cache s) :=
  .byWriter h (fun _ he => .ite (.ite he he.lockedWrite) (.ite he.mapRefused he.setF.setF.checkRing))

theorem execMemSpillWrite_sound {s : State} {w : Writer} {offset v : Nat} (h : s.dev.Sound) : Res.Sound (execMemSpillWrite w offset v s) :=
  .byWriter h (fun _ he => .ite (.ite he he.lockedWrite) (.ite (.ite he.setF (.ite he.setF (.ite he.setF he))) he.mapRefused))

namespace Dev.Sound

variable {d t : Dev}

theorem startRecal {stack channel : Nat} (h : d.Sound) : (d.startRecal stack channel).Sound := .ite h h.setF

end Dev.Sound

theorem execRecal_sound {s : State} {w : Writer} {stack channel : Nat} (h : s.dev.Sound) : Res.Sound (execRecal w stack channel s) :=
  .byWriter h (fun _ he => .ite he.badAccess he.setF.setAct.startRecal)

theorem execChannelMarginRecal_sound {s : State} {stack channel : Nat} (h : s.dev.Sound) : Res.Sound
    (execChannelMarginRecal stack channel s) :=
  .onDev h (fun _ he => he.startRecal)

theorem execChannelRecalComplete_sound {s : State} {stack channel : Nat} {ok : Bool} (h : s.dev.Sound) : Res.Sound
    (execChannelRecalComplete stack channel ok s) := by
  unfold execChannelRecalComplete
  refine .onDev h (fun _ he => .ite he ?_)
  extract_lets d₁ _ _ _ d₂ _ _ d₃
  have h₁ : d₁.Sound := he.setF
  clear_value d₁
  have h₂ : d₂.Sound := h₁.updateMem
  clear_value d₂
  have h₃ : d₃.Sound := h₂.update.setErrFull
  clear_value d₃
  exact .ite h₁.updateMem.bump (.ite h₂ h₃.raiseReplace.failBlock)

/-! ### The RAS log -/

theorem execPop_sound {s : State} {w : Writer} (h : s.dev.Sound) : Res.Sound (execPop w s) := .byWriter h (fun _ he => he.update)

theorem execClearDropped_sound {s : State} {w : Writer} (h : s.dev.Sound) : Res.Sound (execClearDropped w s) :=
  .byWriter h (fun _ he => he.setF)

theorem execRasFirstClear_sound {s : State} {w : Writer} (h : s.dev.Sound) : Res.Sound (execRasFirstClear w s) :=
  .byWriter h (fun _ he => he.setF.setF)

namespace Dev.Sound

variable {d t : Dev}

/-! ### What survives a reset (R461, R462, R473, R491) -/

theorem interrupted (h : d.Sound) : d.interrupted.Sound := by
  unfold Dev.interrupted
  split
  · exact .ite h (.ite h.draw_snd h.draw_snd.update)
  · exact h

theorem mapReset (h : d.Sound) : d.mapReset.Sound := h.resetMembers

theorem showReset (h : d.Sound) : d.showReset.Sound := h.setF.setF

theorem openRecovery {cause : Nat} (h : d.Sound) : (d.openRecovery cause).Sound := .ite h.setF.setF h

theorem saveJournal (h : d.Sound) : d.saveJournal.Sound := h.foldl (fun _ _ he => he.writeRaw)

theorem warmState {cause : Nat} (h : d.Sound) : (d.warmState cause).Sound :=
  .bump (.mapReset (.showReset (.openRecovery ⟨h.interrupted.saveJournal.1, fun _ he => nomatch he⟩)))

theorem coldState {phase : PowerPhase} {cause : Nat} : (d.coldState phase cause).Sound :=
  Dev.Sound.reset.update.openRecovery.showReset.mapReset

theorem offState : d.offState.Sound := Dev.Sound.reset.update.mapReset

end Dev.Sound

namespace Res.Sound

theorem reboot {s : State} {d : Dev} (h : d.Sound) : Res.Sound (s.reboot d) := .next h

/-! ### Warm resets (R460 to R462, R472, R538) -/

theorem warmTrigger {s : State} {cause : Nat} (h : s.dev.Sound) : Res.Sound (s.warmTrigger cause) :=
  .ite (.next h) (.ite (.reboot h.warmState) (.ite (.next h.update.openRecovery.showReset) (.next h)))

end Res.Sound

namespace Dev.Sound

variable {d t : Dev}

theorem release (h : d.Sound) : d.release.Sound := .ite (.setErr (.ite h.update.setF h.update)) (.ite h.update.setF h.update)

end Dev.Sound

theorem execWarmReset_sound {s : State} (h : s.dev.Sound) : Res.Sound (execWarmReset s) := .ite (.next h.release) (.next h)

theorem execGlbSoftReset_sound {s : State} {w : Writer} (h : s.dev.Sound) : Res.Sound (execGlbSoftReset w s) :=
  .ite (.warmTrigger h) (.next h)

theorem execMcWatchdogExpiry_sound {s : State} (h : s.dev.Sound) : Res.Sound (execMcWatchdogExpiry s) :=
  .ite (.warmTrigger h) (.next h)

theorem execRootPllLossOfLock_sound {s : State} (h : s.dev.Sound) : Res.Sound (execRootPllLossOfLock s) := .warmTrigger h

theorem execModuleResetPin_sound {s : State} {low : Bool} (h : s.dev.Sound) : Res.Sound (execModuleResetPin low s) :=
  .ite (.warmTrigger h.update) (.ite (.next h.update.release) (.next h.update))

namespace Res.Sound

theorem mcReset {s : State} (h : s.dev.Sound) : Res.Sound s.mcReset :=
  .ite (.next h) (.ite (.warmTrigger h) (.ite (.next h.update.setErrFull.bump.setF.draw_snd)
      (.next h.update.setErrFull.bump.setF.draw_snd.update.withdraw)))

end Res.Sound

theorem execMcSramUncorrectable_sound {s : State} (h : s.dev.Sound) : Res.Sound (execMcSramUncorrectable s) := .mcReset h

/-! ### Cold resets and the power stage (R450 to R455, R459, R539) -/

theorem execCold_sound {s : State} {w : Writer} {key : Nat} (h : s.dev.Sound) : Res.Sound (execCold w key s) :=
  .ite (.reboot Dev.Sound.coldState) (.next h)

theorem execHotSwapClose_sound {s : State} (h : s.dev.Sound) : Res.Sound (execHotSwapClose s) := .ite (.next h.update) (.next h)

theorem execRailPowerUp_sound {s : State} (h : s.dev.Sound) : Res.Sound (execRailPowerUp s) :=
  .ite (.next (.ite h.update.showReset h.update.showReset.release)) (.next h)

theorem execHotSwapOpen_sound {s : State} : Res.Sound (execHotSwapOpen s) := .reboot Dev.Sound.offState

theorem execInputDip_sound {s : State} (h : s.dev.Sound) : Res.Sound (execInputDip s) := .onDev h (fun _ he => he.bump.setErr)

namespace Res.Sound

theorem restart {s : State} {cause : Nat} : Res.Sound (s.restart cause) :=
  .ite (.reboot Dev.Sound.coldState.update) (.reboot Dev.Sound.coldState)

end Res.Sound

theorem execRailOutOfWindow_sound {s : State} {rail : Nat} {back : Bool} (h : s.dev.Sound) : Res.Sound (execRailOutOfWindow rail back s) :=
  .ite (.next h) (.ite .restart (.ite (.warmTrigger h) (.next h.setF)))

theorem execRailFaultTimeout_sound {s : State} {rail : Nat} (h : s.dev.Sound) : Res.Sound (execRailFaultTimeout rail s) :=
  .ite .restart (.next h)

namespace Res.Sound

theorem trip {s : State} (h : s.dev.Sound) : Res.Sound s.trip := .ite (.reboot Dev.Sound.coldState.update) (.next h)

end Res.Sound

theorem execThermalTrip_sound {s : State} {group : Nat} (h : s.dev.Sound) : Res.Sound (execThermalTrip group s) :=
  .ite (.trip h) (.next h)

theorem execSensorNoValueTimeout_sound {s : State} {group : Nat} (h : s.dev.Sound) : Res.Sound (execSensorNoValueTimeout group s) :=
  .ite (.trip h) (.next h)

theorem execThermalRestart_sound {s : State} (h : s.dev.Sound) : Res.Sound (execThermalRestart s) :=
  .ite (.next h.update) (.next h)

namespace Dev.Sound

variable {d t : Dev}

/-! ### The power policy (R457, R458, R478, R479, R543) -/

theorem showTemp {f : Field} {q : Int} (h : d.Sound) : (d.showTemp f q).Sound := .ite h.draw_snd.setF h.setF

theorem showPower {p : PowerSample} (h : d.Sound) : (d.showPower p).Sound := h.setF.setF.setF.setF.foldl (fun _ _ he => he.showTemp)

theorem spreadDivider (h : d.Sound) : d.spreadDivider.Sound := .setF (h.foldl (fun _ _ he => he.setF))

theorem newTarget {q forced : Nat} (h : d.Sound) : (d.newTarget q forced).Sound :=
  .spreadDivider (.policyTaken (.ite h.setF.setF.bump.setErr h.setF.setF.bump))

theorem raiseTarget (h : d.Sound) : d.raiseTarget.Sound := h.setF.bump.spreadDivider

theorem ageRows (h : d.Sound) : d.ageRows.Sound := h.updateMem

theorem ageFaults (h : d.Sound) : d.ageFaults.Sound := h.update

theorem noteErrors {p : PowerSample} (h : d.Sound) : (d.noteErrors p).Sound :=
  .takeFlips (h.foldl (fun _ _ he => .ite he (.ite he.setErr.bump.bump he.setErr.bump)))

theorem moveTarget {p : PowerSample} (h : d.Sound) : (d.moveTarget p).Sound :=
  .ite h (.ite (.ite h.newTarget h) (.ite (.ite h.policyWithheld h.newTarget) (.ite h.raiseTarget h)))

theorem countPower {p : PowerSample} (h : d.Sound) : (d.countPower p).Sound := .ite h.update.setErr h.update

theorem passMs {p : PowerSample} (h : d.Sound) : (d.passMs p).Sound :=
  .setF (.setF (.ite h.update.bump.bump (.ite h.update.bump.bump h.update.bump)))

theorem policyTick {p : PowerSample} (h : d.Sound) : (d.policyTick p).Sound :=
  h.handoverDone.passMs.ageRows.ageFaults.noteErrors.showPower.countPower.spreadDivider.moveTarget

end Dev.Sound

theorem execPowerPolicyTick_sound {s : State} {p : PowerSample} (h : s.dev.Sound) : Res.Sound (execPowerPolicyTick p s) := by
  unfold execPowerPolicyTick
  split
  · split
    · exact .trip h
    · exact .nextDev h.policyTick
  · exact .next h

namespace Dev.Sound

variable {d t : Dev}

/-! ### Boot (R337, R378, R394, R470, R471, R482, R506) -/

theorem checkLeaf (h : d.Sound) : d.checkLeaf.Sound := .ite h h.update.setErr

theorem reloadFlow {f : Nat} (h : d.Sound) : (d.reloadFlow f).Sound := .ite h (.ite h h.setFlow.control)

theorem reloadFabric (h : d.Sound) : d.reloadFabric.Sound := .ite (.ite h.loadRoutes h)
    (.foldl (.ite h.loadRoutes h) (fun _ _ he => he.reloadFlow))

theorem resumePair (h : d.Sound) : d.resumePair.Sound := by
  unfold Dev.resumePair
  split
  · exact .ite (.ite h.update.setPair.setF.setF.update.askMirror h.update.setPair.setF.setF) h.update
  · exact h

theorem resumeJob (h : d.Sound) : d.resumeJob.Sound := .ite h.setF (.ite h.update.setF.toConfig h.update.recoveryFailed)

theorem checkHealth (h : d.Sound) : d.checkHealth.Sound :=
  .foldl (h.checkCells.foldl (fun _ _ he => he.memHealth)) (fun _ _ he => .ite he he.setErrFull.raiseReplace.failBlock)

theorem startMcf (h : d.Sound) : d.startMcf.Sound :=
  .resumeJob (.resumePair (.ite (.offerFeatures (.ite h.checkLeaf.checkHealth.reloadFabric h.checkLeaf.checkHealth))
      (.setBlk (.offerFeatures (.ite h.checkLeaf.checkHealth.reloadFabric h.checkLeaf.checkHealth)))))

end Dev.Sound

theorem execBoot_sound {s : State} {f : BootFindings} (h : s.dev.Sound) : Res.Sound (execBoot f s) :=
  .onDev h (fun _ he => .ite he (.ite he.update.loadFirmware_snd.failBlock
      (.ite he.update.loadFirmware_snd.raiseReplace.failBlock (.startMcf
      (.ite he.update.loadFirmware_snd.setErr he.update.loadFirmware_snd)))))

namespace Dev.Sound

variable {d t : Dev}

/-! ### Uncorrectable errors in other arrays (R481) -/

theorem loseStaging {k : Nat} (h : d.Sound) : (d.loseStaging k).Sound := .ueRegenerable
    (h.setErrFull.mapCells rfl rfl (fun _ he => .ite_snd he he))

theorem loseUnit {c i : Nat} (h : d.Sound) : (d.loseUnit c i).Sound := .ite h (.ite h.setErrFull h.setErrFull.clocheBlock)

theorem loseCounters (h : d.Sound) : d.loseCounters.Sound := .ite h.setErrFull.draw_snd.update h.setErrFull

theorem sramFault {site : SramSite} (h : d.Sound) : (d.sramFault site).Sound := by
  unfold Dev.sramFault
  split
  · exact h.cellFault
  · exact h.cellFault
  · exact h.haltChannel
  · exact h.cellFault
  · exact h.cellFault
  · exact h.setErr.bump
  · exact h.loseCounters
  · exact .ite h.setErr h
  · exact .ite h.loseStaging h
  · exact h.setErrFull.reloadFlow
  · exact h.setErr.loadRoutes
  · exact .ite h (.ite h.setErrFull.startRetrain h.setErrFull)
  · exact h.loseUnit
  · exact h.loseUnit
  · exact h.loseUnit
  · exact .ite h.setErr h
  · exact h.setErr
  · exact h.setErr
  · exact h

end Dev.Sound

theorem execSramUncorrectable_sound {s : State} {site : SramSite} (h : s.dev.Sound) : Res.Sound (execSramUncorrectable site s) := by
  unfold execSramUncorrectable
  split
  · exact .mcReset h
  · exact .ite (.warmTrigger h.draw_snd) (.next h)
  · exact .ite (.warmTrigger h.draw_snd) (.next h)
  · exact .onDev h (fun _ he => he.sramFault)

/-- Whatever command runs on a sound device, it leaves one. -/
theorem exec_sound {s : State} (h : s.dev.Sound) (c : Instr) : Res.Sound (exec c s) := by
  cases c with
  | stepMark => exact execStepMark_sound h
  | stepBoundary => exact execStepBoundary_sound h
  | sealAck => exact execSealAck_sound h
  | registerWrite => exact execRegisterWrite_sound h
  | counterLoRead => exact execCounterLoRead_sound h
  | rwFieldTakesEffect => exact execRwFieldTakesEffect_sound h
  | enable => exact execEnable_sound h
  | blockInitComplete => exact execBlockInitComplete_sound h
  | softReset => exact execSoftReset_sound h
  | glbSoftReset => exact execGlbSoftReset_sound h
  | clocheReq => exact execClocheReq_sound h
  | quiesceReq => exact execQuiesceReq_sound h
  | blockQuiesced => exact execBlockQuiesced_sound h
  | blockClochedAtBoundary => exact execBlockClochedAtBoundary_sound h
  | clocheTestComplete => exact execClocheTestComplete_sound h
  | blockFailed => exact execBlockFailed_sound h
  | blkCommit => exact execBlkCommit_sound h
  | blkCommitAbort => exact execBlkCommitAbort_sound h
  | commitApply => exact execCommitApply_sound h
  | groupCommit => exact execGroupCommit_sound h
  | groupCommitAbort => exact execGroupCommitAbort_sound h
  | negotiationGo => exact execNegotiationGo_sound h
  | negotiationComplete => exact execNegotiationComplete_sound h
  | jobStart => exact execJobStart_sound h
  | jobEnd => exact execJobEnd_sound h
  | cellFault => exact execCellFault_sound h
  | cellTestComplete => exact execCellTestComplete_sound h
  | plotRebalanceCompute => exact execPlotRebalanceCompute_sound h
  | formatPromotionDecide => exact execFormatPromotionDecide_sound h
  | add => exact execAdd_sound h
  | sub => exact execSub_sound h
  | mul => exact execMul_sound h
  | and => exact execAnd_sound h
  | or => exact execOr_sound h
  | xor => exact execXor_sound h
  | shl => exact execShl_sound h
  | shr => exact execShr_sound h
  | cmp => exact execCmp_sound h
  | li => exact execLi_sound h
  | br => exact execBr_sound h
  | bcc => exact execBcc_sound h
  | call => exact execCall_sound h
  | ret => exact execRet_sound h
  | halt => exact execHalt_sound h
  | ld => exact execLd_sound h
  | st => exact execSt_sound h
  | scfg => exact execScfg_sound h
  | scan => exact execScan_sound h
  | stake => exact execStake_sound h
  | measureComplete => exact execMeasureComplete_sound h
  | load => exact execLoad_sound h
  | pass => exact execPass_sound h
  | passBoundary => exact execPassBoundary_sound h
  | drain => exact execDrain_sound h
  | vld => exact execVld_sound h
  | vst => exact execVst_sound h
  | vop => exact execVop_sound h
  | vred => exact execVred_sound h
  | vtbl => exact execVtbl_sound h
  | vrng => exact execVrng_sound h
  | dma => exact execDma_sound h
  | dmas => exact execDmas_sound h
  | dmaComplete => exact execDmaComplete_sound h
  | dmaRestart => exact execDmaRestart_sound h
  | tget => exact execTget_sound h
  | tdone => exact execTdone_sound h
  | tbar => exact execTbar_sound h
  | wait => exact execWait_sound h
  | fence => exact execFence_sound h
  | stakedSetApply => exact execStakedSetApply_sound h
  | stageDeadlock => exact execStageDeadlock_sound h
  | thnConv => exact execThnConv_sound h
  | thnArgmax => exact execThnArgmax_sound h
  | thnTopk => exact execThnTopk_sound h
  | thnSort => exact execThnSort_sound h
  | thnRequestComplete => exact execThnRequestComplete_sound h
  | numRingCons => exact execNumRingCons_sound h
  | numXrecSel => exact execNumXrecSel_sound h
  | numXrecClear => exact execNumXrecClear_sound h
  | sieveRecompute => exact execSieveRecompute_sound h
  | sieveCheck => exact execSieveCheck_sound h
  | plotRun => exact execPlotRun_sound h
  | plotRunComplete => exact execPlotRunComplete_sound h
  | gradPlan => exact execGradPlan_sound h
  | gradDone => exact execGradDone_sound h
  | positionLoad => exact execPositionLoad_sound h
  | bucketExchangeStart => exact execBucketExchangeStart_sound h
  | allGather => exact execAllGather_sound h
  | broadcast => exact execBroadcast_sound h
  | barrier => exact execBarrier_sound h
  | cExp => exact execCExp_sound h
  | cM => exact execCM_sound h
  | cInt => exact execCInt_sound h
  | cRes => exact execCRes_sound h
  | cData => exact execCData_sound h
  | cBar => exact execCBar_sound h
  | cBarRel => exact execCBarRel_sound h
  | collectiveWaitLong => exact execCollectiveWaitLong_sound h
  | collectiveWaitLimit => exact execCollectiveWaitLimit_sound h
  | put => exact execPut_sound h
  | get => exact execGet_sound h
  | getResp => exact execGetResp_sound h
  | atomic => exact execAtomic_sound h
  | atomicResp => exact execAtomicResp_sound h
  | sadd => exact execSadd_sound h
  | opStatus => exact execOpStatus_sound h
  | ack => exact execAck_sound h
  | nack => exact execNack_sound h
  | resync => exact execResync_sound h
  | resyncAck => exact execResyncAck_sound h
  | packetBadOpcode => exact execPacketBadOpcode_sound h
  | standaloneAckTimer => exact execStandaloneAckTimer_sound h
  | e2eRetransmitTimeout => exact execE2eRetransmitTimeout_sound h
  | flowStalled => exact execFlowStalled_sound h
  | flwCmdRead => exact execFlwCmdRead_sound h
  | flwCmdWrite => exact execFlwCmdWrite_sound h
  | flwCmdClose => exact execFlwCmdClose_sound h
  | routeTableLoad => exact execRouteTableLoad_sound h
  | flwShadowWrite => exact execFlwShadowWrite_sound h
  | lnkVlBufWrite => exact execLnkVlBufWrite_sound h
  | portSignalDetect => exact execPortSignalDetect_sound h
  | portTrainingComplete => exact execPortTrainingComplete_sound h
  | retrain => exact execRetrain_sound h
  | laneFailure => exact execLaneFailure_sound h
  | serdesPllLoss => exact execSerdesPllLoss_sound h
  | retrainComplete => exact execRetrainComplete_sound h
  | flitReceive => exact execFlitReceive_sound h
  | flitTransmit => exact execFlitTransmit_sound h
  | linkReplayTimeout => exact execLinkReplayTimeout_sound h
  | transitTimeout => exact execTransitTimeout_sound h
  | memoryRead => exact execMemoryRead_sound h
  | memoryWrite => exact execMemoryWrite_sound h
  | sadd128 => exact execSadd128_sound h
  | sadd64 => exact execSadd64_sound h
  | sadd32 => exact execSadd32_sound h
  | patrolScrubLine => exact execPatrolScrubLine_sound h
  | scrubRateUpdate => exact execScrubRateUpdate_sound h
  | ueReport => exact execUeReport_sound h
  | memMapWrite => exact execMemMapWrite_sound h
  | memRegionsWrite => exact execMemRegionsWrite_sound h
  | memSpillWrite => exact execMemSpillWrite_sound h
  | recal => exact execRecal_sound h
  | channelRecalComplete => exact execChannelRecalComplete_sound h
  | pair => exact execPair_sound h
  | pairGraft => exact execPairGraft_sound h
  | unpair => exact execUnpair_sound h
  | pairReq => exact execPairReq_sound h
  | pairAck => exact execPairAck_sound h
  | pairResponseTimeout => exact execPairResponseTimeout_sound h
  | unpairMsg => exact execUnpairMsg_sound h
  | remirror => exact execRemirror_sound h
  | mirrorSend => exact execMirrorSend_sound h
  | base => exact execBase_sound h
  | delta => exact execDelta_sound h
  | record => exact execRecord_sound h
  | heartbeat => exact execHeartbeat_sound h
  | heartbeatTimer => exact execHeartbeatTimer_sound h
  | partnerSilenceTimeout => exact execPartnerSilenceTimeout_sound h
  | restoreReq => exact execRestoreReq_sound h
  | restoreData => exact execRestoreData_sound h
  | restoreEnd => exact execRestoreEnd_sound h
  | refetch => exact execRefetch_sound h
  | logData => exact execLogData_sound h
  | inPlaceReplay => exact execInPlaceReplay_sound h
  | recoveryGo => exact execRecoveryGo_sound h
  | recoveryAbort => exact execRecoveryAbort_sound h
  | recoveryGoTimeout => exact execRecoveryGoTimeout_sound h
  | harvest => exact execHarvest_sound h
  | harvestMsg => exact execHarvestMsg_sound h
  | harvestComplete => exact execHarvestComplete_sound h
  | ingest => exact execIngest_sound h
  | sampleFetchComplete => exact execSampleFetchComplete_sound h
  | fetchRetryTimer => exact execFetchRetryTimer_sound h
  | pipelineSlotComplete => exact execPipelineSlotComplete_sound h
  | ingestComplete => exact execIngestComplete_sound h
  | flush => exact execFlush_sound h
  | mediaSessionOpen => exact execMediaSessionOpen_sound h
  | decodePicture => exact execDecodePicture_sound h
  | encOpen => exact execEncOpen_sound h
  | encPicture => exact execEncPicture_sound h
  | encPictureStart => exact execEncPictureStart_sound h
  | encSliceComplete => exact execEncSliceComplete_sound h
  | encKeyreq => exact execEncKeyreq_sound h
  | encRelease => exact execEncRelease_sound h
  | encClose => exact execEncClose_sound h
  | medKeyreq => exact execMedKeyreq_sound h
  | hotSwapClose => exact execHotSwapClose_sound h
  | railPowerUp => exact execRailPowerUp_sound h
  | inputDip => exact execInputDip_sound h
  | hotSwapOpen => exact execHotSwapOpen_sound
  | railOutOfWindow => exact execRailOutOfWindow_sound h
  | railFaultTimeout => exact execRailFaultTimeout_sound h
  | rootPllLossOfLock => exact execRootPllLossOfLock_sound h
  | powerPolicyTick => exact execPowerPolicyTick_sound h
  | thermalTrip => exact execThermalTrip_sound h
  | sensorNoValueTimeout => exact execSensorNoValueTimeout_sound h
  | thermalRestart => exact execThermalRestart_sound h
  | cold => exact execCold_sound h
  | warmReset => exact execWarmReset_sound h
  | boot => exact execBoot_sound h
  | mcWatchdogExpiry => exact execMcWatchdogExpiry_sound h
  | mcSramUncorrectable => exact execMcSramUncorrectable_sound h
  | sramUncorrectable => exact execSramUncorrectable_sound h
  | fwUpdateWrite => exact execFwUpdateWrite_sound h
  | fwUpdateComplete => exact execFwUpdateComplete_sound h
  | fwActivate => exact execFwActivate_sound h
  | mcfHandover => exact execMcfHandover_sound h
  | handoverWatchdogTimeout => exact execHandoverWatchdogTimeout_sound h
  | moduleResetPin => exact execModuleResetPin_sound h
  | pciePortReset => exact execPciePortReset_sound h
  | pop => exact execPop_sound h
  | clearDropped => exact execClearDropped_sound h
  | rasFirstClear => exact execRasFirstClear_sound h
  | attest => exact execAttest_sound h
  | cert => exact execCert_sound h
  | attestTokenRefill => exact execAttestTokenRefill_sound h
  | attestReq => exact execAttestReq_sound h
  | attestResp => exact execAttestResp_sound h
  | idProbe => exact execIdProbe_sound h
  | idReply => exact execIdReply_sound h
  | svnCommit => exact execSvnCommit_sound h
  | authorise => exact execAuthorise_sound h
  | revoke => exact execRevoke_sound h
  | trustTableClear => exact execTrustTableClear_sound h
  | sqTail => exact execSqTail_sound h
  | cqHead => exact execCqHead_sound h
  | commandFetch => exact execCommandFetch_sound h
  | ringEnable => exact execRingEnable_sound h
  | bar2Write => exact execBar2Write_sound h
  | bar2Read => exact execBar2Read_sound h
  | claim => exact execClaim_sound h
  | request => exact execRequest_sound h
  | grant => exact execGrant_sound h
  | deny => exact execDeny_sound h
  | release => exact execRelease_sound h
  | ownershipTimeout => exact execOwnershipTimeout_sound h
  | linkDown => exact execLinkDown_sound h
  | pcieLinkUp => exact execPcieLinkUp_sound h
  | channelMarginRecal => exact execChannelMarginRecal_sound h

/-- Settles O5, as every command keeps the two forms: `exec_sound`. -/
theorem storedBytesStayCanonical : Obligations.StoredBytesStayCanonical := by
  unfold Obligations.StoredBytesStayCanonical
  intro s t h hst
  unfold step at hst
  split at hst
  · obtain rfl := Host.Outcome.next.inj hst
    exact h
  · next c rest _ => exact exec_sound (s := { s with pending := rest }) h c t hst

end Sys2Proof.Machine
end
